-- ==== Sys2Proof/Word.lean ====
section
/-!
DEFINITION. The word types of the KX7 and their plainest arithmetic (R2, R3, R142).
-/

namespace Sys2Proof

/-- A 64-bit general register, address or literal (R142). -/
abbrev Word := BitVec 64

/-- One byte of memory (R3). -/
abbrev Byte := BitVec 8

/-- A 512-bit vector register, a 64-byte block (R142, R232). -/
abbrev Vec := BitVec 512

/-- The number of a general register, 0 to 127 (R293). -/
abbrev GReg := BitVec 7

/-- The number of a vector register, 0 to 31 (R293). -/
abbrev VReg := BitVec 5

/-- The number of a mask register, 0 to 7 (R293). -/
abbrev MReg := BitVec 3

end Sys2Proof
end

