-- ==== Sys2Proof/Config.lean ====
section
/-!
DEFINITION. What an implementation fixes, and the free values: what the spec leaves open is an opaque constant here,
so that no proof can learn a value of it.
-/

namespace Sys2Proof.Config

/-- Which of the enabled acts comes next when the agenda is empty, by a count of steps (log 3, DESIGN CHOICE). -/
opaque pick : Nat → Nat

/-- How many fabric cycles pass before the next act when the agenda is empty, by a count of steps (log 3, DESIGN CHOICE). -/
opaque elapsed : Nat → Nat

/-- The draws of the dither sources of cores, engines and copy units, by source and count (R236, log 12, DESIGN CHOICE). -/
opaque dither : Nat → Nat → BitVec 64

/-- Which entry a full translation buffer gives up, by a count (R137, log 11, DESIGN CHOICE). -/
opaque victim : Nat → Nat

/-- Where the skipped frames of a plumb skip level stand among every 8 frames (R86, log 10, DESIGN CHOICE): at level n the frames f
with (f + offset) mod 8 below n are skipped. -/
opaque skipOffset : Nat → Nat

/-- The energy of one ballast cycle of a column in nanojoules, by die and column (R89, log 18, DESIGN CHOICE). -/
opaque ballastEnergy : Nat → Nat → Nat

/-- The energy that an owner uses in a control interval in nanojoules, by owner and count (R39, log 18, DESIGN CHOICE). -/
opaque energyUse : Nat → Nat → Nat

/-- A byte of a column image or owner record that the spec does not lay out, by save and owner, and by offset (R55, R69,
log 17, DESIGN CHOICE). -/
opaque imageByte : Nat → Nat → Nat → Byte

/-- The unit field of WHERE in a fault-log record (R80, log 19, DESIGN CHOICE). -/
opaque logUnit : Nat → Nat

/-- Whether a store that issues is merged with a pending one of its thread, by request number: 0 not, 1 at the place of the
earlier, otherwise at the place of the later (R195, log 6, DESIGN CHOICE). -/
opaque merge : Nat → Nat

/-- Whether the done flag of a die is lost in a pause, by the pause's first count and the die (R63, log 75, DESIGN CHOICE). -/
opaque flagLost : Nat → Nat → Bool

/-- By how much the steward lowers Bcap in an interval in which package power stays above the cap, by count and column
(R91, log 76, DESIGN CHOICE). -/
opaque capStep : Nat → Nat → Nat

/-- Whether a posted store or entry that may leave its core leaves it now (an even number: it does), by a count of steps and its number; one that has
not left leaves as it arrives (R129, R194, log 87, DESIGN CHOICE). -/
opaque sends : Nat → Nat → Nat

/-- Which of the blocks that a unit may access now it accesses, by a count of steps (R203, log 42, DESIGN CHOICE). -/
opaque unitOrder : Nat → Nat

end Sys2Proof.Config
end

