-- ==== Sys2Proof/Machine/Mem.lean ====
section
/-!
DEFINITION. Sparse maps by number: lists of pairs with keys strictly rising and no entry at the default value. Memory,
register files, tags and tables of records are held in this one form.
-/

namespace Sys2Proof.Machine

/-- A sparse map: listed keys with their values. -/
abbrev SMap (α : Type) := List (Nat × α)

/-- The value listed for a key. -/
def lookup {α : Type} : SMap α → Nat → Option α
  | [], _ => none
  | (k, v) :: m, i => if i = k then some v else lookup m i

/-- Put a value at its place among the rising keys. -/
def put {α : Type} : SMap α → Nat → α → SMap α
  | [], i, x => [(i, x)]
  | (k, v) :: m, i, x =>
    if i < k then (i, x) :: (k, v) :: m
    else if i = k then (i, x) :: m
    else (k, v) :: put m i x

/-- Take a key out. -/
def drop {α : Type} : SMap α → Nat → SMap α
  | [], _ => []
  | (k, v) :: m, i => if i = k then drop m i else (k, v) :: drop m i

/-- The value of a key, an unlisted key having the default. -/
def getD {α : Type} (d : α) (m : SMap α) (i : Nat) : α := (lookup m i).getD d

/-- A write: the default takes the entry out, so that equal contents are equal lists. -/
def setD {α : Type} [DecidableEq α] (d : α) (m : SMap α) (i : Nat) (x : α) : SMap α :=
  if x = d then drop m i else put m i x

/-- Apply a function to a listed record; an unlisted key stays unlisted. -/
def upd {α : Type} (m : SMap α) (i : Nat) (f : α → α) : SMap α :=
  match lookup m i with
  | some x => put m i (f x)
  | none => m

/-- Take out every key of a range. -/
def clearRange {α : Type} (m : SMap α) (lo n : Nat) : SMap α :=
  m.filter (fun p => !(lo ≤ p.1 && p.1 < lo + n))

/-- Keys strictly rising. -/
def rising {α : Type} : SMap α → Bool
  | [] => true
  | [_] => true
  | (k, _) :: (k', v') :: m => k < k' && rising ((k', v') :: m)

/-- The canonical form. -/
def wfMap {α : Type} [DecidableEq α] (d : α) (m : SMap α) : Bool :=
  rising m && m.all (fun p => p.2 != d)

/-! ## Memory as bytes (R3) -/

/-- Memory: bytes by address in the canonical form, an unlisted byte reading 0 (R45). -/
abbrev Memory := List Host.Cell

/-- What an unlisted byte reads as. -/
def memDefault : Byte := 0

def Memory.wf (m : Memory) : Bool := wfMap memDefault m

def Memory.read (m : Memory) (a : Nat) : Byte := getD memDefault m a

def Memory.write (m : Memory) (a : Nat) (b : Byte) : Memory := setD memDefault m a b

/-- n bytes from an address, in address order. -/
def Memory.readN (m : Memory) : Nat → Nat → List Byte
  | _, 0 => []
  | a, n + 1 => Memory.read m a :: Memory.readN m (a + 1) n

/-- Bytes to consecutive addresses. -/
def Memory.writeN (m : Memory) : Nat → List Byte → Memory
  | _, [] => m
  | a, b :: bs => Memory.writeN (Memory.write m a b) (a + 1) bs

/-- Bytes where the mask bit of their place is set. -/
def Memory.writeMasked (m : Memory) : Nat → List (Byte × Bool) → Memory
  | _, [] => m
  | a, (b, on) :: bs => Memory.writeMasked (if on then Memory.write m a b else m) (a + 1) bs

/-- A little-endian number of n bytes (R3). -/
def Memory.nat (m : Memory) (a : Nat) : Nat → Nat
  | 0 => 0
  | n + 1 => (Memory.read m a).toNat + 256 * Memory.nat m (a + 1) n

end Sys2Proof.Machine
end

