-- ==== Sys2Proof/Syntax.lean ====
section
/-!
DEFINITION. The operations of the KX7: every row of the table of operations is a constructor of `Instr`,
thread instructions with their operands (R292 to R307) and device events with what the event brings.
-/

namespace Sys2Proof

/-! ## Qualifiers (R303) -/

/-- Scalar types, Q[2:0] codes 0 to 7 (R303). -/
inductive IType where
  | i64 | i32 | i16 | i8 | n64 | n32 | n16 | n8
deriving DecidableEq, Repr

/-- Vector types, Q[3:0] codes 0 to 5 and 8 to 15 (R303). -/
inductive VType where
  | f32 | bf16 | f16 | e4m3 | e5m2 | e2m1
  | i64 | i32 | i16 | i8 | n64 | n32 | n16 | n8
deriving DecidableEq, Repr

/-- Rounding qualifiers, Q[6:4] codes 0 to 5; `cur` takes %fpc.RM (R303). -/
inductive Rnd where
  | cur | rne | rz | rup | rdn | sr
deriving DecidableEq, Repr

/-- Scopes, Q[7:5] codes 0 to 4 (R197, R303). -/
inductive Scope where
  | core | clus | die | pkg | sys
deriving DecidableEq, Repr

/-- Conditions, codes 0 to 9 (R303). -/
inductive Cond where
  | eq | ne | lt | ge | gt | le | ltu | geu | gtu | leu
deriving DecidableEq, Repr

/-- An order with its scope; a plain access names no scope (R303). -/
inductive Ord where
  | plain
  | acq (s : Scope)
  | rel (s : Scope)
  | ar (s : Scope)
deriving DecidableEq, Repr

/-- The kinds of FENCE (R303, R346). -/
inductive FenceKind where
  | acq | rel | full
deriving DecidableEq, Repr

/-! ## Operand forms (R294 to R299) -/

/-- The second source of an operation that takes an immediate: a register, or the immediate of the 64-bit,
96-bit or literal form (R294, R298, R299). -/
inductive Src where
  | reg (b : GReg)
  | i16 (v : BitVec 16)
  | i48 (v : BitVec 48)
  | i64 (v : BitVec 64)
deriving DecidableEq, Repr

/-- The immediate of LI in its three forms (R294, R298, R299). -/
inductive LImm where
  | i30 (v : BitVec 30)
  | i62 (v : BitVec 62)
  | i64 (v : BitVec 64)
deriving DecidableEq, Repr

/-- The byte offset of an address, in the 64-bit or the 96-bit form (R295, R298). -/
inductive Off where
  | o16 (v : BitVec 16)
  | o48 (v : BitVec 48)
deriving DecidableEq, Repr

/-- Format M: base, scaled index and offset (R295). -/
structure Addr where
  base : GReg
  idx  : GReg
  scl  : BitVec 3
  off  : Off
deriving DecidableEq, Repr

/-- Two-operand integer operations and CMP.cc (R312). -/
structure Alu where
  ty  : IType
  d   : GReg
  a   : GReg
  src : Src
deriving DecidableEq, Repr

/-- One-source integer operations (R316). -/
structure Un where
  ty : IType
  d  : GReg
  a  : GReg
deriving DecidableEq, Repr

/-- EXTR and INSR: position and length, a length field of 0 meaning 64 (R317). -/
structure BitField where
  d   : GReg
  a   : GReg
  pos : BitVec 6
  len : BitVec 6
deriving DecidableEq, Repr

/-- A scalar memory operation of format M (R334, R338 to R340, R347). -/
structure MemOp where
  ty : IType
  d  : GReg
  ad : Addr
deriving DecidableEq, Repr

/-- VLD and VST: a vector register, a mask register and an address whose offset has bits [2:0] zero (R335). -/
structure VMem where
  d  : VReg
  k  : MReg
  ad : Addr
deriving DecidableEq, Repr

/-- Format M3: base, offset and a third register (R295). -/
structure M3 where
  base : GReg
  off  : Off
  c    : GReg
deriving DecidableEq, Repr

/-- A V-op of two vector sources (R361). -/
structure VBin where
  ty  : VType
  rnd : Rnd
  d   : VReg
  a   : VReg
  b   : VReg
  k   : MReg
deriving DecidableEq, Repr

/-- A V-op of one vector source (R363). -/
structure VUn where
  ty  : VType
  rnd : Rnd
  d   : VReg
  a   : VReg
  k   : MReg
deriving DecidableEq, Repr

/-- The second source of an integer V-op: a vector register or IMM8 (R297, R366). -/
inductive VSrc where
  | reg (b : VReg)
  | imm (v : BitVec 8)
deriving DecidableEq, Repr

/-- Integer V-ops of two operands (R366, R368). -/
structure VInt where
  ty  : VType
  sat : Bool
  d   : VReg
  a   : VReg
  src : VSrc
  k   : MReg
deriving DecidableEq, Repr

/-- VCMP.cc and VICMP.cc (R365, R369). -/
structure VCmp where
  ty : VType
  cc : Cond
  d  : MReg
  a  : VReg
  b  : VReg
  k  : MReg
deriving DecidableEq, Repr

/-- Conversions with a lane group (R370). -/
structure VConv where
  ty  : VType
  src : VType
  rnd : Rnd
  nsat : Bool
  d   : VReg
  a   : VReg
  g   : BitVec 3
  k   : MReg
deriving DecidableEq, Repr

/-- VQNT and VDQNT (R373, R374). -/
structure VBlk where
  ty  : VType
  rnd : Rnd
  nsat : Bool
  d   : VReg
  a   : VReg
  s   : GReg
  l   : GReg
  k   : MReg
deriving DecidableEq, Repr

/-- The scalar or lane operand of VBCAST, VEXTL, VINSL and VROTL: a general register or IMM8 (R379). -/
inductive GSrc where
  | reg (b : GReg)
  | imm (v : BitVec 8)
deriving DecidableEq, Repr

/-- The base and offset of an E-op that names memory (R297, R384). -/
structure EAddr where
  a   : GReg
  off : BitVec 16
deriving DecidableEq, Repr

/-! ## What device events bring -/

/-- One received frame: its EtherType, and the fields of an exchange frame (R24, R25); `fcs` says whether the Ethernet
FCS held. -/
structure Frame where
  etype : BitVec 16
  ver   : BitVec 4
  lvl   : BitVec 4
  type  : BitVec 8
  group : BitVec 16
  srank : BitVec 16
  drank : BitVec 16
  step  : BitVec 32
  frag  : BitVec 16
  nfrag : BitVec 16
  seq   : BitVec 32
  len   : BitVec 16
  fmt   : BitVec 8
  mbz   : BitVec 40
  xcrc  : BitVec 32
  pay   : List Byte
  fcs   : Bool
deriving DecidableEq, Repr

/-- What the steward reads of one tile in a control interval (R82). -/
structure TileReading where
  die  : Nat
  col  : Nat
  row  : Nat
  temp : Nat
deriving DecidableEq, Repr

/-- What the steward derives for one cluster from power and current (R82, R90), and a new nominal budget where it has set
one. -/
structure PowerReading where
  die  : Nat
  col  : Nat
  bcap : Nat
  bcur : Nat
  g    : Nat
  d    : Nat
  bnom : Option Nat
deriving DecidableEq, Repr

/-- Package power in watts, and a new power cap where the steward has set one (R30, R91). -/
structure PackageReading where
  watts : Nat
  cap   : Option Nat
deriving DecidableEq, Repr

/-- The protected structures of R78 and the uncorrectable places of R63. -/
inductive FaultPlace where
  | regFile (o j e : Nat)
  | vecFile (o j e : Nat)
  | special (o j t : Nat)
  | tileBlock (o j b : Nat)
  | l2Line (o j line : Nat)
  | l2Tag (o j line : Nat)
  | journal (o j seq : Nat)
  | job (o j id : Nat)
  | bsram (o c b : Nat)
  | carry (o c n : Nat)
  | tables (die : Nat)
  | transBuf (o j : Nat)
  | hbm (pa : Nat)
  | beat (die : Nat)
  | switchRec (req : Nat)
  | bridge (d e : Nat)
  | hostLink (m : Nat)
  | port (p : Nat)
  | datapath (o j : Nat)
  | engineArray (o c : Nat)
  | ballast (die col : Nat)
  | saveCopy (copy die line : Nat)
  | steward
deriving DecidableEq, Repr

/-- The two units of a cluster that run jobs (R115). -/
inductive JUnit where
  | mx | cu
deriving DecidableEq, Repr

/-! ## The operations -/

/-- Every row of the table of operations. -/
inductive Instr where
  -- power, host interface and commands
  | registerWrite (off : Nat) (v : Word)
  | create (n : Nat)
  | destroy (n : Nat)
  | launch (n : Nat)
  | preempt (n : Nat)
  | save (n : Nat)
  | saveArm (n : Nat)
  | saveDisarm (n : Nat)
  | restore (n : Nat)
  | setcirc (n : Nat)
  | readlog (n : Nat)
  | commandComplete (n : Nat)
  | hostMemRead (pa len : Nat)
  | hostMemWrite (pa : Nat) (data : List Byte)
  | hostSnoop (line : Nat)
  -- the skim pause
  | doneFlag (die : Nat)
  | circuitFailed (die cstart : Nat)
  -- saves, restores, the steward
  | saveQuiesce (n : Nat)
  | saveStreamDone (n : Nat) (aOk bOk : Bool)
  | restoreStreamDone (n : Nat)
  | autoSave (o : Nat)
  | supplyFault (die col : Nat)
  | killDrainEnd (o : Nat) (tid : Option Nat)
  | controlInterval (temps : List TileReading) (power : List PowerReading) (package : PackageReading)
  | threadMigrationDone (o tid : Nat)
  | coreMigrationDone (o j : Nat)
  | forwardExpiry (o j : Nat)
  | governorWindow (die col : Nat)
  | frameMove (src dst : Nat)
  | frameLineMove (src : Nat)
  -- scheduler, traps, waits
  | trapDispatch (o tid : Nat)
  | waitLimitExpiry (o tid : Nat)
  | translationWalkDone (w : Nat)
  -- the network
  | targetRequest (r : Nat)
  | replyArrival (r : Nat)
  | amoCombine (up low : Nat)
  | combinedReplySplit (r : Nat)
  | postedStoreArrival (o j seq : Nat)
  | journalAck (o j seq : Nat)
  | journalRefusal (o j seq : Nat)
  | msendResend (o j seq : Nat)
  | xstPacket (o j seq : Nat)
  | barrierCompletion (o j obj : Nat)
  | replicatedWriteReceived (o w die : Nat)
  | replicatedApply (o w die : Nat)
  -- sealed reclaim, jobs
  | reclaimWalk (o j : Nat)
  | reclaimChildAck (o j : Nat)
  | jobStart (o c : Nat) (u : JUnit)
  | engineChunkCycle (o c : Nat)
  | chunkCommit (o c : Nat)
  | copyBlock (o c : Nat)
  | jobEnd (o c : Nat) (u : JUnit)
  | jobSuspend (o c : Nat) (u : JUnit)
  -- links
  | dataFrame (port : Nat) (f : Frame)
  | ackFrame (port : Nat) (f : Frame)
  | nakFrame (port : Nat) (f : Frame)
  | creditFrame (port : Nat) (f : Frame)
  | retransmitTimeout (port : Nat)
  -- scalar
  | add (o : Alu) | sub (o : Alu) | mul (o : Alu) | mulh (o : Alu) | div (o : Alu) | rem (o : Alu)
  | and (o : Alu) | or (o : Alu) | xor (o : Alu) | andn (o : Alu) | orn (o : Alu)
  | shl (o : Alu) | shr (o : Alu) | sar (o : Alu) | rot (o : Alu)
  | min (o : Alu) | max (o : Alu)
  | clz (o : Un) | ctz (o : Un) | popc (o : Un) | brev (o : Un)
  | extr (sgn : Bool) (f : BitField)
  | insr (f : BitField)
  | li (d : GReg) (v : LImm)
  | lea (d : GReg) (ad : Addr)
  | cmp (cc : Cond) (o : Alu)
  | csel (d a b c : GReg)
  -- control transfer
  | brcc (cc : Cond) (a : GReg) (off : BitVec 37)
  | brz (a : GReg) (off : BitVec 37)
  | brnz (a : GReg) (off : BitVec 37)
  | jmp (off : BitVec 37)
  | call (a : GReg) (off : BitVec 37)
  | jr (a : GReg)
  | loop (a : GReg) (off : BitVec 37)
  | bstrm (n : BitVec 2) (off : BitVec 37)
  -- memory
  | ld (ord : Ord) (o : MemOp)
  | st (ord : Ord) (o : MemOp)
  | vld (ord : Ord) (o : VMem)
  | vst (ord : Ord) (o : VMem)
  | vldDesc (ord : Ord) (d : VReg) (k : MReg) (m : M3)
  | vstDesc (ord : Ord) (d : VReg) (k : MReg) (m : M3)
  | lds (sc : Scope) (o : MemOp)
  | ldsClr (sc : Scope) (o : MemOp)
  | stf (o : MemOp)
  | fec (full : Bool) (d : GReg) (ad : Addr)
  | prf (ad : Addr)
  | amoAdd (ty : IType) (ord : Ord) (d : GReg) (m : M3)
  | amoAnd (ty : IType) (ord : Ord) (d : GReg) (m : M3)
  | amoOr (ty : IType) (ord : Ord) (d : GReg) (m : M3)
  | amoXor (ty : IType) (ord : Ord) (d : GReg) (m : M3)
  | amoMin (ty : IType) (ord : Ord) (d : GReg) (m : M3)
  | amoMax (ty : IType) (ord : Ord) (d : GReg) (m : M3)
  | amoSwap (ty : IType) (ord : Ord) (d : GReg) (m : M3)
  | amoFadd (ord : Ord) (d : GReg) (m : M3)
  | cas (ty : IType) (ord : Ord) (d : GReg) (m : M3)
  | ldv (d : GReg) (ad : Addr)
  | cstor (ord : Ord) (d : GReg) (ad : Addr)
  | fence (k : FenceKind) (sc : Scope)
  | pst (o : MemOp) | pstF (o : MemOp) | xst (o : MemOp) | xstF (o : MemOp)
  | msend (v : VReg) (a : GReg)
  | mrecv (v : VReg) (a : GReg)
  | mrecvTrap (v : VReg)
  | bara (d : GReg) (ad : Addr)
  | barmax (d : GReg) (m : M3)
  | barw (d : GReg) (ad : Addr)
  | qput (d a : GReg) (q : BitVec 5)
  | qget (d a : GReg) (q : BitVec 5)
  | wpush (d : GReg) (v : VReg)
  | wpop (v : VReg)
  | waitc (d a b : GReg)
  -- system
  | mfs (d : GReg) (r : BitVec 8)
  | mts (a : GReg) (r : BitVec 8)
  | trap (n : BitVec 4) (a : GReg)
  | haltRetain (s : BitVec 4)
  | nopLong (imm : BitVec 16) (ext : BitVec 32)
  | launchInstr (d a b : GReg)
  | skimw (d a : GReg)
  | spawn (d a b : GReg)
  | rdcyc (d : GReg)
  -- vector
  | vadd (o : VBin) | vsub (o : VBin) | vmul (o : VBin) | vdiv (o : VBin)
  | vfma (o : VBin) | vfms (o : VBin)
  | vsqrt (o : VUn) | vexp2 (o : VUn) | vlog2 (o : VUn) | vrcp (o : VUn) | vrsq (o : VUn)
  | vsinp (o : VUn) | vcosp (o : VUn) | vtanh (o : VUn)
  | vabs (o : VUn) | vneg (o : VUn)
  | vmin (o : VBin) | vmax (o : VBin) | vcpys (o : VBin)
  | vcmp (o : VCmp)
  | viadd (o : VInt) | visub (o : VInt) | vimul (o : VInt) | vimulh (o : VInt)
  | vand (o : VInt) | vor (o : VInt) | vxor (o : VInt) | vandn (o : VInt)
  | vimin (o : VInt) | vimax (o : VInt)
  | viabs (ty : VType) (sat : Bool) (d a : VReg) (k : MReg)
  | vshl (o : VInt) | vshr (o : VInt) | vsar (o : VInt) | vrot (o : VInt)
  | vicmp (o : VCmp)
  | vcvt (o : VConv) | vftoi (o : VConv) | vitof (o : VConv)
  | vqnt (o : VBlk) | vdqnt (o : VBlk)
  | vpack (ty : VType) (sat : Bool) (d a b : VReg) (k : MReg)
  | vunpk (ty : VType) (h : Bool) (d a : VReg) (k : MReg)
  | vrndt (d : VReg) (k : MReg)
  | vrndh (ty : VType) (d : VReg) (a : GReg) (k : MReg)
  | vmix (d a : VReg) (b : GReg) (k : MReg)
  | vperm (ty : VType) (d a b : VReg) (k : MReg)
  | vbcast (ty : VType) (d : VReg) (src : GSrc) (k : MReg)
  | vextl (ty : VType) (d : GReg) (a : VReg) (src : GSrc) (k : MReg)
  | vinsl (ty : VType) (d : VReg) (a : GReg) (src : GSrc) (k : MReg)
  | vrotl (ty : VType) (d a : VReg) (src : GSrc) (k : MReg)
  | vmov (ty : VType) (d a : VReg) (k : MReg)
  | vsel (ty : VType) (d a b : VReg) (k : MReg)
  | vredAdd (ty : VType) (sat : Bool) (d a : VReg) (k : MReg)
  | vredMin (ty : VType) (d a : VReg) (k : MReg)
  | vredMax (ty : VType) (d a : VReg) (k : MReg)
  | vredAnd (ty : VType) (d a : VReg) (k : MReg)
  | vredOr (ty : VType) (d a : VReg) (k : MReg)
  | vredXor (ty : VType) (d a : VReg) (k : MReg)
  | vpfx (ty : VType) (sat : Bool) (d a : VReg) (k : MReg)
  | mand (d a b : MReg) | mor (d a b : MReg) | mxor (d a b : MReg)
  | mnot (d a : MReg)
  | mpopc (d : GReg) (a : MReg)
  -- engines, copy unit, jobs
  | mxrun (w : Bool) (d : GReg) (e : EAddr)
  | mxcarryLd (w : Bool) (d : GReg) (e : EAddr)
  | mxcarrySt (w : Bool) (d : GReg) (e : EAddr)
  | cucopy (w : Bool) (d : GReg) (e : EAddr)
  | cufill (w : Bool) (d : GReg) (e : EAddr) (b : GReg) (c : VReg)
  | culdb (w : Bool) (d : GReg) (e : EAddr) (b : GReg)
  | cudigest (w : Bool) (d : GReg) (e : EAddr) (b : GReg)
  | jwait (d a : GReg) | jpoll (d a : GReg) | jcancel (d a : GReg)
  -- streams
  | scfg (n : BitVec 2) (e : EAddr)
  | sbind (n k : BitVec 2)
  | sclose (n : BitVec 2)
  | spos (d : GReg) (n : BitVec 2) (set : Option GReg)
  | scommit (n : BitVec 2)
  -- sealed
  | slput (int : Bool) (d : GReg) (e : EAddr)
  | slget (d : GReg) (e : EAddr) (b : GReg)
  | slref (d a : GReg) | slunref (d a : GReg)
  | slswap (d : GReg) (e : EAddr) (b : GReg)
  | slout (w : Bool) (d a b : GReg)
  | slhash (d : GReg) (e : EAddr)
  -- links
  | lksend (d : GReg) (e : EAddr) | lkrecv (d : GReg) (e : EAddr) | lkred (d : GReg) (e : EAddr)
  -- physical events
  | singleFault (p : FaultPlace)
  -- operations without an operand
  | powerUp
  | powerUpZeroingDone
  | doorbell
  | ringEnable
  | ringDisable
  | warn
  | drain
  | drainTimeout
  | chunk
  | streamSlot
  | swap
  | resume
  | deferredInstant
  | errorRateWindow
  | patrolScrub
  | balancingInterval
  | flushl1
  | halt
  | yield
  | nop
  | powerLoss
deriving DecidableEq, Repr

end Sys2Proof
end

