-- ==== Sys2Proof/Machine/State.lean ====
section
/-!
DEFINITION. The state of the KX7 as plain data, its reset, and the reasons a step can stop.
-/

namespace Sys2Proof.Machine

/-! ## Why a step stops -/

/-- Faults of the model. -/
inductive Fault where
  /-- Raised by a thread instruction executed with no thread issuing it. Safe: the machine executes a thread
  instruction only when a core issues it. -/
  | noIssuingThread
deriving DecidableEq, Repr

/-- Refusals of the model. -/
inductive Refusal where
  /-- Raised by an arm of `exec` whose instruction has no meaning yet. Safe: no claim is made of it. -/
  | notModelled (mnemonic : String)
deriving DecidableEq, Repr

/-! ## Traps (R120 to R126) -/

/-- A trap record (R123). -/
structure TrapRec where
  cause   : Nat
  action  : Nat
  async   : Bool
  known   : Bool
  applied : Bool
  vhalf   : Bool
  plumb   : Bool
  tid     : Nat
  pc      : Word
  va      : Word
  info    : Word
  pos     : Word
  spec    : Word
  gen     : Nat
  repl    : Nat
  seq     : Nat
deriving DecidableEq, Repr

/-- The item an asynchronous trap, or a JOBF, is bound to (R121, R126). -/
inductive Item where
  | none
  | journal (j seq : Nat)
  | job (k id : Nat)
deriving DecidableEq, Repr

/-- A record kept in a context: the record, bits [1:0] of the trapped bundle where it has a readable length (R126),
and its item. -/
structure Kept where
  trap : TrapRec
  len  : Option Nat
  item : Item
deriving DecidableEq, Repr

/-- An asynchronous trap that a thread has pending, and whether its item had been applied (R121, R123). -/
structure Async where
  cause : Nat
  va    : Word
  info  : Word
  pos   : Word
  item  : Item
  applied : Bool
deriving DecidableEq, Repr

/-! ## Threads (R142 to R165) -/

/-- What ends with a bundle's retirement (R300, R387, R388). -/
inductive Fin where
  | go
  | halt
  | retain (s : Nat)
  | yield
deriving DecidableEq, Repr

/-- What a stream instruction does to a stream once the bundle's pops and pushes are done (R403). -/
inductive StrmOp where
  | cfg (n : Nat) (base : Word) (n0 n1 n2 : Nat) (d0 d1 d2 : Word) (out : Bool) (ahead : Nat)
  | bind (n k : Nat)
  | close (n : Nat)
  | seek (n pos : Nat)
  | refetch (n : Nat)
deriving DecidableEq, Repr

/-- The effects of a bundle on its thread: register, mask and special-register writes, flags, the request for SR in
plumb mode, the next address where it is not the next bundle, what ends, the acquire performed, and the streams it
pops. -/
structure Wr where
  g     : List (GReg × Word)
  v     : List (VReg × Vec)
  m     : List (MReg × BitVec 64)
  sp    : List (BitVec 8 × Word)
  flags : BitVec 8
  srs   : Bool
  npc   : Option Word
  fin   : Fin
  acq   : Option Scope
  pops  : List Nat
  strm  : Option StrmOp
deriving DecidableEq, Repr

/-- No effect. -/
def Wr.none : Wr := ⟨[], [], [], [], 0, false, Option.none, .go, Option.none, [], Option.none⟩

/-- A leaf translation, with the physical base of the 64 KiB part, the page's size code (R42), and the number of the 64 KiB
virtual page that it translates. -/
structure Leaf where
  pa   : Nat
  w    : Bool
  x    : Bool
  fe   : Bool
  l1   : Bool
  cls  : Nat
  hm   : Bool
  home : Nat
  sz   : Nat
  vp   : Nat
deriving DecidableEq, Repr

/-- A bundle that a waiting thread has issued: its first operation, its address and length, what its second half
computed and its pops, all its sources having been read at issue (R145), and the translations with which its streams will
push (R162). -/
structure Bundle where
  x   : Instr
  pc  : Word
  len : Nat
  vw  : Wr
  leaves : SMap Leaf
deriving DecidableEq, Repr

/-- What a waiting thread waits for (R105, R152). -/
inductive Wait where
  /-- the reply to a request, held at its target or in flight (R333) -/
  | reply (r : Nat)
  /-- a translation walk, after which the bundle is issued again (R137) -/
  | walk (w : Nat)
  /-- a free journal entry (R129) -/
  | journal
  /-- a free job entry (R115) -/
  | jobEntry
  /-- the release conditions of R197 -/
  | release
  /-- an element of a bound input stream (R163) -/
  | stream (n : Nat)
  /-- a job's end (R393) -/
  | job (k id : Nat)
  /-- a cancelled job's stop (R401), with the code read before -/
  | jobStop (k id code : Nat)
  /-- a skim count other than this one (R65) -/
  | skim (gen : Nat)
  /-- the trap inbox (R350) -/
  | inbox
  /-- the pushes of a stream (R403) -/
  | scommit (n : Nat)
  /-- credit from a peer for a step, for bytes of a buffer (R28, R407) -/
  | linkSend (group peer step : Nat) (buf : Word) (len : Nat)
  /-- a whole message of a peer and step, for a buffer (R407) -/
  | linkRecv (group peer step : Nat) (buf : Word) (len : Nat)
  /-- a reduction of a step (R407) -/
  | linkRed (group step : Nat)
  /-- space in a replicated-write buffer (R186) -/
  | apply
  /-- the end of a thread's migration, for a disposition of it (R141) -/
  | disp (tid : Nat)
deriving DecidableEq, Repr

/-- The states of a context other than free (R105); `trapped` is a thread whose record the scheduler has not yet
acted on (R124). -/
inductive Status where
  | held
  | ready
  | waiting (w : Wait)
  | trapped
  | parked
  /-- stopped by a kill whose drain still runs (R79) -/
  | dying
deriving DecidableEq, Repr

/-- One element fetched ahead for an input stream (R163). -/
inductive Fetched where
  | asked (r : Nat)
  | data (v : Vec)
  | fault (cause : Nat) (va : Word) (info : Word)
deriving DecidableEq, Repr

/-- A stream (R160 to R163). In plumb mode `dues` gives the core cycles at which what it has fetched, or its last push,
completes (R179). -/
structure Stream where
  base  : Word
  n0    : Nat
  n1    : Nat
  n2    : Nat
  d0    : Word
  d1    : Word
  d2    : Word
  out   : Bool
  ahead : Nat
  pos   : Nat
  bound : Option Nat
  fetched : List Fetched
  dues  : List Nat
deriving DecidableEq, Repr

/-- A stream never configured is empty (R160). -/
def Stream.empty : Stream := ⟨0, 0, 0, 0, 0, 0, 0, false, 8, 0, none, [], []⟩

/-- The outcome of a walk (R43): a leaf, or the level and entry that raise XLAT, or the reason of a PROT. -/
inductive WalkOut where
  | leaf (l : Leaf)
  | xlat (level entry : Nat)
  | prot (reason : Nat)
deriving DecidableEq, Repr

/-! ## Requests on the network (R174, R192) -/

/-- Ordering targets (R192). -/
inductive Target where
  | scratch (o j : Nat)
  | bank (o j b : Nat)
  | replica (o die j b : Nat)
  | hostLine (line : Nat)
  | device
  | stack (line : Nat)
deriving DecidableEq, Repr

/-- Operations of AMO (R341). -/
inductive AmoOp where
  | add | and | or | xor | min | max | swap
deriving DecidableEq, Repr

/-- What a request asks of its target. -/
inductive ReqKind where
  | load (n : Nat) (sgn : Bool) (d : GReg)
  | store (data : List Byte)
  | vload (d : VReg) (mask : BitVec 64) (desc : Option GReg)
  | vstore (data : Vec) (mask : BitVec 64) (desc : Option (BitVec 16))
  | lds (clr : Bool) (n : Nat) (sgn : Bool) (d : GReg)
  | stf (data : List Byte)
  | fec (full : Bool) (d : GReg)
  | prf
  | amo (op : AmoOp) (n : Nat) (sgn : Bool) (y : Word) (d : GReg)
  | fadd (y : BitVec 32) (d : GReg)
  | cas (n : Nat) (sgn : Bool) (exp new : Word) (d : GReg)
  | ldv (d : GReg)
  | cstor (lines : List (Nat × Nat × Nat)) (toks : List Nat) (datas : List (List Byte)) (d : GReg)
  | arrive (max : Option Word) (d : GReg)
  | barw (want : BitVec 16)
  | qput (launch q : Nat) (elem : List Byte) (d : GReg)
  | qget (launch q : Nat) (stage : Nat) (area : Nat) (d : GReg)
  | waitc (old : Word) (d : GReg)
  | mrecv (d : VReg)
  | slput (int : Bool) (line : List Byte) (desc : Nat) (d : GReg)
  | slget (name : Word) (area : Nat) (d : GReg)
  | slref (name : Word) (d : GReg)
  | slunref (name : Word) (d : GReg)
  | slswap (exp new : Word) (d : GReg)
  | fetch (s e : Nat)
  | push (s : Nat) (data : Vec)
deriving DecidableEq, Repr

/-- What a request or a posted entry keeps of its issue: the number at which its thread was created, which tells it from
a later thread of the same packed id; each FENCE.rel still to be honoured, with its number and scope (R197); the number at
which it left its core, once it has (R13, R175); and the core cycle at which it completes in plumb mode (R179). -/
structure Issue where
  born  : Nat
  fence : List (Nat × Scope)
  sent  : Option Nat
  due   : Option Nat
deriving DecidableEq, Repr

/-- A release performed before what it orders: only agents outside its instance may see it so (R197). `id` is the number
up to which its thread's accesses come before it; `spans` are the sectors it wrote. -/
structure Early where
  o     : Nat
  tid   : Nat
  born  : Nat
  id    : Nat
  scope : Scope
  tgt   : Target
  spans : List (Nat × Nat)
deriving DecidableEq, Repr

/-- A request: its number gives the program order of a thread's requests. `part` marks one of the 16-byte pieces of a
wider access at a lesser alignment, by the number of its first piece and its place (R191). -/
structure Req where
  id    : Nat
  o     : Nat
  tid   : Nat
  core  : Nat
  kind  : ReqKind
  va    : Nat
  pa    : Nat
  n     : Nat
  leaf  : Option Leaf
  tgt   : Target
  rel   : Option Scope
  acq   : Option Scope
  part  : Option (Nat × Nat)
  noFill : List (Nat × Nat)
  held  : Bool
  combined : Option (Nat × Nat)
  iss   : Issue
deriving DecidableEq, Repr

/-- What a reply carries: the register writes of the first half, the acquire it performs, or the cause met; sectors
to fill in L1, bytes that bring an L1 copy up to what was read or written, bytes for the home core's scratchpad, and
the old value of an atomic that may be split at a switch (R177); and the address that was asked for. -/
structure Reply where
  id   : Nat
  o    : Nat
  tid  : Nat
  core : Nat
  src  : Target
  g    : List (GReg × Word)
  v    : List (VReg × BitVec 64 × Vec)
  acq  : Option Scope
  trap : Option (Nat × Word × Word × Word)
  known : Bool
  applied : Bool
  fill : List (Nat × Vec)
  patch : List (Nat × Byte)
  val  : Option Word
  writes : List (Nat × List Byte)
  part : Option (Nat × Nat)
  va   : Nat
deriving DecidableEq, Repr

/-! ## The context of a thread -/

/-- A thread in its context (R142). `pend` is the bundle it has issued and waits in; `inW` is the wait of a `.w` form
whose submission has retired, kept through traps of that wait (R393); `wcount` is the count of a counted wait (R152);
`due` is the core cycle of the slot in which a plumb-mode network access ends (R179); `got` holds the landed pieces of a
wide access (R191); `fenceAt` is the request number at the last acquire, release or fence (R195); `relDue` is the latest
core cycle at which a posted access of a plumb-mode thread completes (R179); `born` is the request number at its creation,
and `relFences` are its FENCE.rel, the last of each scope (R197); `linkItem` is the group and step of the LKSEND or LKRECV
that it waited in when it was killed (R79). -/
structure Thread where
  o      : Nat
  tid    : Nat
  core   : Nat
  slot   : Nat
  redirect : Bool
  pc     : Word
  gbase  : Nat
  gsize  : Nat
  vbase  : Nat
  vsize  : Nat
  sbase  : Nat
  sbanks : Nat
  masks  : SMap (BitVec 64)
  fpc    : Word
  stat   : Word
  rngs0  : Word
  rngs1  : Word
  rngk   : Word
  wlim   : BitVec 32
  trapc  : Word
  wp     : SMap Word
  launch : Nat
  stage  : Nat
  idx    : Nat
  inc    : Nat
  cls    : Nat
  streams : List Stream
  inbox  : List TrapRec
  async  : List Async
  status : Status
  retiring : Bool
  pend   : Option Bundle
  inW    : Option (Nat × Nat × Bundle)
  wcount : Option Nat
  kept   : Option Kept
  replPc    : Word
  replCause : Nat
  replN     : Nat
  yieldAt   : Option Nat
  yieldFor  : List Nat
  slots     : Option Nat
  walks  : List (Nat × WalkOut)
  mig    : Option (Nat × Nat × Nat × Nat)
  waitAt : Nat
  due    : Option Nat
  turn   : Option Nat
  got    : List Reply
  fenceAt : Nat
  relDue : Nat
  born   : Nat
  relFences : List (Nat × Scope)
  linkItem : Option (Nat × Nat)
deriving DecidableEq, Repr

/-! ## Records and walks of the network -/

/-- A combining record of a switch: the die, stage and output at which its two requests met (R174, R177). -/
structure Combine where
  id : Nat
  upper : Req
  lower : Req
  link : Nat × Nat × Nat
deriving DecidableEq, Repr

/-- A walk in progress with the threads and the clusters' units, matrix or copy, whose accesses joined it (R137, R138). -/
structure Walk where
  id    : Nat
  o     : Nat
  core  : Nat
  page  : Nat
  joined : List Nat
  units : List (Nat × Bool)
deriving DecidableEq, Repr

/-- A store to the replicated class on its way to the other dies (R186), and whether it replaces its block whole (R411). -/
structure RWrite where
  id   : Nat
  o    : Nat
  tid  : Nat
  src  : Nat
  vc   : List Nat
  off  : Nat
  data : List (Byte × Bool)
  whole : Bool
  pending : List Nat
  buffered : List Nat
deriving DecidableEq, Repr

/-- A barrier's arrivals of the current generation, completions on the way, and the held BARW that a completion has reached
(R183, R352, R353). -/
structure Barrier where
  o     : Nat
  pa    : Nat
  members : List Nat
  toTell  : List Nat
  xch   : Bool
  gen   : Nat
  woken : List Nat
deriving DecidableEq, Repr

/-! ## Cores (R129, R156 to R159, R168 to R182) -/

/-- Kinds of posted entries. -/
inductive PostKind where
  | pst | xst | msend
deriving DecidableEq, Repr

/-- A core-map entry (R53). -/
structure Place where
  die : Nat
  col : Nat
  row : Nat
  mv  : Bool
deriving DecidableEq, Repr

/-- Where a journal entry stands (R129, R130, R349); late is a delivery that a vacated tile refuses (R135). -/
inductive JPhase where
  | ready
  | acked
  | refusing (reason : Nat)
  | late
  | busy (til : Nat)
  | refused (cause : Nat) (reason : Nat) (applied : Bool)
deriving DecidableEq, Repr

/-- A journal entry (R129), with the tile that it has been sent to, once it has been sent (R54, R135). -/
structure JEnt where
  seq   : Nat
  tid   : Nat
  launch : Nat
  dest  : Nat
  kind  : PostKind
  full  : Bool
  va    : Word
  off   : Nat
  data  : List Byte
  xph   : Bool
  after : Nat
  orphan : Bool
  tile  : Option Place
  phase : JPhase
  iss   : Issue
deriving DecidableEq, Repr

/-- A message held for a mailbox (R349). -/
structure HeldMsg where
  off  : Nat
  data : List Byte
deriving DecidableEq, Repr

/-- An exchange packet held for the next phase (R182). -/
structure XPacket where
  off  : Nat
  data : List Byte
  full : Bool
deriving DecidableEq, Repr

/-- An entry of a work list (R111). -/
structure WorkEnt where
  data : List Byte
deriving DecidableEq, Repr

/-- A task cursor: the next task and its step, with tasks given to others taken from the top (R112, R113). -/
structure Cursor where
  launch : Nat
  stage  : Nat
  next   : Nat
  step   : Nat
  limit  : Nat
deriving DecidableEq, Repr

/-- A retained set, with the thread that left it and the request number at its end (R117, R198). -/
structure Retained where
  launch : Nat
  stage  : Nat
  base   : Nat
  n      : Nat
  tid    : Nat
  before : Nat
  born   : Nat
deriving DecidableEq, Repr

/-- A forwarding entry, keyed by the index no longer held (R135). -/
structure Forward where
  index : Nat
  til : Nat
deriving DecidableEq, Repr

/-- An L1 line with its valid sectors (R168); the list of lines is kept with the most recent first. -/
structure L1Line where
  line : Nat
  secs : List (Nat × Vec)
deriving DecidableEq, Repr

/-- An L2 line: its filled sectors, its dirty ones, and its version token (R170, R180); most recent first. -/
structure L2Line where
  line  : Nat
  secs  : List Nat
  dirty : List Nat
  epoch : Nat
  count : Nat
deriving DecidableEq, Repr

/-- Kinds of jobs (R394 to R400, R405). -/
inductive JobKind where
  | mxrun (block : List Byte)
  | carryLd (va : Word)
  | carrySt (va : Word)
  | copy (block : List Byte)
  | fill (va : Word) (len : Nat) (desc : Nat) (pattern : Vec)
  | ldb (va : Word) (len ncol boff : Nat)
  | digest (va : Word) (len : Nat) (dst : Word)
  | slout (root : Word) (dst : Word)
deriving DecidableEq, Repr

/-- What a job waits for before it starts (R264, R398). -/
inductive JobGate where
  | none
  | ended (id : Nat)
  | opc (id : Nat)
deriving DecidableEq, Repr

inductive JobState where
  | queued
  | running
  | suspended (cause : Nat) (va : Word) (info : Word)
deriving DecidableEq, Repr

structure Job where
  id    : Nat
  tid   : Nat
  launch : Nat
  kind  : JobKind
  rm    : Nat
  ftz   : Bool
  gate  : JobGate
  state : JobState
  pos   : Nat
  spec  : Nat
  opc   : Bool
  gfl   : Bool
  cancel : Bool
  stop  : Bool
  fewait : Option Nat
  rootHeld : Bool
  orphan : Bool
  part   : List Byte
  col    : Nat
  got    : List (Nat × Vec × Nat)
  out    : List (Nat × Vec × Option Nat)
deriving DecidableEq, Repr

/-- A pending reclaim walk of a slice: the set, the entry, and whether it has begun, and whether the scan
found it (R221). -/
structure Reclaim where
  set : Nat
  ent : Nat
  begun : Bool
  byScan : Bool
deriving DecidableEq, Repr

/-- A core: its tile's registers, caches and lists. `issued` gives the cycle in which each context last issued (R106);
`postDues` are the deadlines of posted entries acknowledged before them in plumb mode (R179). -/
structure Core where
  spn   : Nat
  xb    : Nat
  xph   : Bool
  l1    : List L1Line
  tlb   : List (Nat × Leaf)
  tcache : List (Nat × Leaf)
  l2    : List L2Line
  epochs : SMap Nat
  journal : List JEnt
  jseq  : Nat
  jobs  : List Job
  outcomes : List (Nat × Nat × Option Nat)
  jcount : Nat
  work  : List WorkEnt
  cursors : List Cursor
  msgs  : List HeldMsg
  phase : List XPacket
  retained : List Retained
  forwards : List Forward
  ptr   : SMap Nat
  lastLow : Option Nat
  cyc   : Nat
  issued : SMap Nat
  postDues : List Nat
  slots : Nat
  half  : Bool
  skip  : Nat
  skipNow : Nat
  floorN : Nat
  dither : Nat
  reclaim : List Reclaim
  scan  : Bool
deriving DecidableEq, Repr

/-! ## Clusters (R87 to R91, R251 to R267) -/

/-- A matrix job on the array: the chunk being computed (R257). -/
structure ERun where
  k    : Nat
  id   : Nat
  row  : Nat
  ck   : Nat
  acc  : List (BitVec 32)
  rows : List (List (BitVec 32))
  gains : List (List (BitVec 32))
  gfl  : Bool
  fe   : Bool
  cnew : List (BitVec 32)
deriving DecidableEq, Repr

structure Cluster where
  carry : SMap (BitVec 32)
  saved : SMap (SMap (BitVec 32))
  mx    : Option ERun
  cu    : Option (Nat × Nat)
  rrMx  : Nat
  rrCu  : Nat
  tlbMx : List (Nat × Leaf)
  tlbCu : List (Nat × Leaf)
  outMx : List (Nat × WalkOut)
  outCu : List (Nat × WalkOut)
  stall : Nat
  ditherMx : Nat
  ditherCu : Nat
deriving DecidableEq, Repr

/-- The governor of one column's engine (R87 to R89): job cycles of its window, the cycles of its previous window, the
engine cycles of its window and when it began; the owner a ramp is charged to, and when the ramp began. The budget of the
window and of the next interval's, with the four values and the boost grant that the steward forms it from (R90). -/
structure Engine where
  used  : Nat
  prev  : Nat
  winCyc : Nat
  winAt  : Nat
  payer  : Option Nat
  rampAt : Option Nat
  budget : Nat
  nextBudget : Nat
  bnom   : Nat
  bcap   : Nat
  bcur   : Nat
  bth    : Nat
  boost  : Nat
deriving DecidableEq, Repr

def Engine.idle : Engine := ⟨0, 0, 0, 0, none, none, 896, 896, 896, 1024, 1024, 1024, 0⟩

/-! ## Owners and launches (R39, R96 to R101) -/

structure StageEnt where
  entry : Word
  tmin  : Nat
  tmax  : Nat
  gregs : Nat
  vregs : Nat
  spadb : Nat
  cls   : Nat
  hint  : Nat
  inq   : Option Nat
  outq  : Option Nat
  ntask : Nat
  hcore : Nat
deriving DecidableEq, Repr

structure QueueEnt where
  qva   : Word
  depth : Nat
  esize : Nat
deriving DecidableEq, Repr

/-- What a stage of a launch keeps while it runs. -/
structure StageDyn where
  shrink : Nat
  empty  : Bool
  made   : SMap Nat
  last   : Option Nat
deriving DecidableEq, Repr

structure Launch where
  id     : Nat
  arg    : Word
  seed   : Word
  spn    : Nat
  xb     : Nat
  doneva : Word
  stages : List StageEnt
  queues : List QueueEnt
  dyn    : List StageDyn
deriving DecidableEq, Repr

structure Extent where
  base  : Nat
  len   : Nat
  host  : Bool
deriving DecidableEq, Repr

/-- A standing save area (R68). -/
structure Standing where
  dirA : Nat
  dirB : Nat
  thresh : Nat
deriving DecidableEq, Repr

/-- A collective group opened by an owner (R406), and whether a port of it has failed since its last operation (R407). -/
structure Group where
  gva   : Word
  block : List Byte
  group : Nat
  nmem  : Nat
  rank  : Nat
  table : List (Nat × Nat)
  used  : List (Nat × Nat × Nat)
  failed : Bool
deriving DecidableEq, Repr

/-- An owner (R39, R64, R67, R125, R213). `exch` gives the exchanges of cores under way, each with the cycle by which it ends
(R57, R134); `balanceAt` is where its balancing interval began (R109); `doneq` lists launches that have ended and whose
DONEVA is still to be written, each with the request number at its end (R101, R198). -/
structure Owner where
  placed   : Bool
  launched : Bool
  ocb      : Nat
  root     : Nat
  nclus    : Nat
  prio     : Nat
  plumb    : Bool
  wlimd    : BitVec 32
  jwlim    : Nat
  skey     : Nat
  energy   : Nat
  extents  : List Extent
  actions  : SMap (Nat × Nat)
  sen      : Bool
  vbase    : Nat
  nb       : Nat
  map      : List Place
  lcount   : Nat
  trapSeq  : Nat
  gen      : Nat
  warn     : Bool
  adv      : Nat
  advSrc   : Nat
  auto     : Bool
  due      : Bool
  standing : Option Standing
  lastAuto : Option Nat
  vclk     : SMap Nat
  undelivered : List (Nat × TrapRec)
  killed   : Bool
  killAt   : Nat
  saving   : Bool
  frozen   : Bool
  groups   : List Group
  ranking  : List (Nat × Nat × Nat)
  exch     : SMap Nat
  balanceAt : Nat
  doneq    : List (Nat × Nat × Nat)
deriving DecidableEq, Repr

/-! ## Links (R24 to R29, R406, R407) -/

structure Port where
  seqTx  : Nat
  outBox : List Frame
  seqRx  : Nat
  tries  : SMap Nat
  since  : Nat
  down   : Bool
  drops  : Nat
  sent   : List Frame
  owed   : List (Nat × Nat × Nat)
  failed : List Nat
deriving DecidableEq, Repr

/-- A message being received: group, sender and step, with its fragments (R28). -/
structure StepBuf where
  o     : Nat
  group : Nat
  src   : Nat
  step  : Nat
  fmt   : Nat
  nfrag : Nat
  frags : SMap (List Byte)
  consumed : Bool
  told  : Bool
deriving DecidableEq, Repr

/-- A credit held from a peer (R28). -/
structure Credit where
  o     : Nat
  group : Nat
  peer  : Nat
  step  : Nat
deriving DecidableEq, Repr

/-- A reduction under way (R29). -/
structure Reduce where
  o     : Nat
  tid   : Nat
  group : Nat
  step  : Nat
  ty    : VType
  op    : Nat
  fmt   : Nat
  dva   : Word
  own   : List Byte
  kids  : List (Nat × List Byte)
  sentUp : Bool
  result : Option (List Byte)
  failed : Option Nat
deriving DecidableEq, Repr

/-! ## Commands, saves and the fault log (R34, R69 to R81) -/

structure LogRec where
  time  : Nat
  kind  : Nat
  cause : Nat
  owner : Nat
  place : Nat
  itemk : Nat
  item  : Nat
  count : Nat
  flags : Nat
  addr  : Nat
  pos   : Nat
  spec  : Nat
  aux   : Nat
deriving DecidableEq, Repr

inductive CmdPhase where
  | taken
  | running
  | done (status : Nat) (result : Nat)
deriving DecidableEq, Repr

/-- A taken command entry (R34, R35). -/
structure Cmd where
  n     : Nat
  entry : Nat
  op    : Nat
  flags : Nat
  owner : Nat
  a0    : Nat
  a1    : Nat
  a2    : Nat
  phase : CmdPhase
  held  : Option (List (Nat × Nat) × Nat)
deriving DecidableEq, Repr

/-- Everything of one owner that a save image holds (R55, R69). -/
structure Snap where
  fab     : Nat
  o       : Nat
  owner   : Owner
  cores   : SMap Core
  clusters : SMap Cluster
  threads : SMap Thread
  launches : SMap Launch
  gfile   : SMap Word
  vfile   : SMap Vec
  spad    : Memory
  spadFE  : SMap Bool
  spadPz  : SMap Bool
  bsram   : Memory
  bdesc   : SMap Nat
  bpz     : SMap Bool
  rwrites : List RWrite
  held    : List Req
  barriers : List Barrier
  bufs    : List StepBuf
  reds    : List Reduce
  dirty   : List (Nat × List Byte × Nat × Nat × List Bool)
  pos     : List (Nat × Nat × Nat × Nat × Nat)
deriving DecidableEq, Repr

/-- One copy of a save image, on the segments its directory names (R70). `bad` lists lines that a stack fails to give
back, `head` the blocks of the header and the owner records that the spec lays out, `diff` the blocks written since the
save; when the copy is `gone`, by a loss of power or a later save, all its blocks are memory's. -/
structure Image where
  dir   : Nat
  copyB : Bool
  seq   : Nat
  key   : Nat
  segs  : List (Nat × Nat × Nat)
  circ  : List (Nat × Nat)
  period : Nat
  snaps : List Snap
  bad   : List Nat
  gone  : Bool
  head  : List (Nat × List Byte)
  diff  : List Nat
deriving DecidableEq, Repr

/-- A save or restore under way (R72, R75); `step` is STEP as it was judged at T_s (R77). -/
structure SaveRun where
  cmd   : Option Nat
  owners : List Nat
  dirA  : Nat
  dirB  : Nat
  stop  : Bool
  restore : Bool
  device : Bool
  quiet : Bool
  til : Nat
  step : Bool
deriving DecidableEq, Repr

/-! ## The device -/

inductive Power where
  | off
  | zeroing
  | ready
  | hot
deriving DecidableEq, Repr

/-- An entry of a position table (R52). -/
structure Pos where
  own : Option Nat
  lcl : Nat
  cstart : Nat
  clen : Nat
  out : Bool
deriving DecidableEq, Repr

/-- The states of the trowel (R56). -/
inductive Trowel where
  | run | warn | drain | chunk | stream | swap | resume
deriving DecidableEq, Repr

/-- A running frame move of channel consolidation (R92, R93). -/
structure FrameRun where
  src  : Nat
  dst  : Nat
  next : Nat
deriving DecidableEq, Repr

/-- A corrected-error count of a structure (R66). -/
structure ErrRate where
  kind  : Nat
  index : Nat
  count : Nat
  last  : Option Nat
deriving DecidableEq, Repr

/-- What the host received from a read: a byte, or poison (R46). -/
structure HostAns where
  pa   : Nat
  data : List (Option Byte)
deriving DecidableEq, Repr

/-- The bundle that a core is issuing: the thread, its core, the bundle, and in which half a V-op runs. -/
structure Cur where
  o   : Nat
  tid : Nat
  j   : Nat
  pc  : Word
  len : Nat
  v   : Option Instr
deriving DecidableEq, Repr

/-- Acts of the machine: an event, one core cycle, or the passing of fabric cycles. -/
inductive Act where
  | event (i : Instr)
  | core (o j : Nat)
  | pass (n : Nat)
deriving DecidableEq, Repr

structure State where
  -- power, registers and the command ring
  power  : Power
  saving : Bool
  restoring : Bool
  cqbase : Nat
  cqen   : Bool
  cqsize : Nat
  cqirq  : Bool
  cqtail : Nat
  cqhead : Nat
  badEntry : Bool
  baseFault : Bool
  badSize : Bool
  cmds   : List Cmd
  msix   : Nat
  hostAns : List HostAns
  -- memory
  mem    : Memory
  desc   : SMap Nat
  fe     : SMap Bool
  tags   : SMap Nat
  poison : SMap Nat
  redirects : SMap Nat
  asleep : List Nat
  moves  : List FrameRun
  -- positions and rotation
  table  : SMap Pos
  period : Nat
  fab    : Nat
  readyAt : Nat
  nextT  : Nat
  deferred : List Nat
  trowel : Trowel
  since  : Nat
  slot   : Nat
  done   : List (Nat × Nat)
  flags  : List Nat
  swapAt : Option Nat
  failed : List (Nat × Nat)
  -- owners and what they hold
  owners : SMap Owner
  launches : SMap Launch
  threads : SMap Thread
  cores  : SMap Core
  clusters : SMap Cluster
  gfile  : SMap Word
  vfile  : SMap Vec
  spad   : Memory
  spadFE : SMap Bool
  spadPz : SMap Bool
  bsram  : Memory
  bdesc  : SMap Nat
  bpz    : SMap Bool
  -- the network
  reqs   : List Req
  replies : List Reply
  combines : List Combine
  walks  : List Walk
  rwrites : List RWrite
  barriers : List Barrier
  early  : List Early
  -- saves, the steward
  saves  : List SaveRun
  images : List Image
  log    : List LogRec
  logWait : List LogRec
  dropped : SMap Nat
  errs   : List ErrRate
  flips  : List FaultPlace
  errAt  : Nat
  controlAt : Nat
  temps  : SMap Nat
  balanceAt : Nat
  patrolAt : Nat
  slopes : SMap Nat
  cap    : Nat
  capDue : Bool
  hotSeen : Bool
  engines : SMap Engine
  -- links
  ports  : SMap Port
  bufs   : List StepBuf
  credits : List Credit
  reduces : List Reduce
  -- the model's own fields
  agenda : List Act
  tick   : Nat
  nextId : Nat
  epochTop : Nat
  cur    : Option Cur
deriving DecidableEq, Repr

/-! ## Default values -/

/-- A vacant position of a circuit of three columns (R48, R52). -/
def Pos.vacant (col : Nat) : Pos := ⟨none, 0, col / 3 * 3, 3, false⟩

/-- A block descriptor as zeroing leaves it: raw, scale 127 (R45). -/
def descDefault : Nat := 0x007F

def Port.idle : Port := ⟨0, [], 0, [], 0, false, 0, [], [], []⟩

/-- A core as CREATE grants it: zeroed (R45, R106, R150, R156). -/
def Core.zeroed : Core where
  spn := 7
  xb := 0
  xph := false
  l1 := []
  tlb := []
  tcache := []
  l2 := []
  epochs := []
  journal := []
  jseq := 0
  jobs := []
  outcomes := []
  jcount := 0
  work := []
  cursors := []
  msgs := []
  phase := []
  retained := []
  forwards := []
  ptr := []
  lastLow := none
  cyc := 0
  issued := []
  postDues := []
  slots := 64
  half := false
  skip := 0
  skipNow := 0
  floorN := 0
  dither := 0
  reclaim := []
  scan := false

/-- A cluster as CREATE grants it (R45, R87, R90, R261). -/
def Cluster.zeroed : Cluster where
  carry := []
  saved := []
  mx := none
  cu := none
  rrMx := 0
  rrCu := 0
  tlbMx := []
  tlbCu := []
  outMx := []
  outCu := []
  stall := 0
  ditherMx := 0
  ditherCu := 0

/-- The machine right after reset: power has been applied and zeroing runs (R45); the position tables hold circuits
of three vacant columns (R48); the rotation period is 8 ms (R49). Log 73, DESIGN CHOICE. -/
def State.reset : State where
  power := .zeroing
  saving := false
  restoring := false
  cqbase := 0
  cqen := false
  cqsize := 4
  cqirq := false
  cqtail := 0
  cqhead := 0
  badEntry := false
  baseFault := false
  badSize := false
  cmds := []
  msix := 0
  hostAns := []
  mem := []
  desc := []
  fe := []
  tags := []
  poison := []
  redirects := []
  asleep := []
  moves := []
  table := []
  period := 3
  fab := 0
  readyAt := 0
  nextT := 0
  deferred := []
  trowel := .run
  since := 0
  slot := 0
  done := []
  flags := []
  swapAt := none
  failed := []
  owners := []
  launches := []
  threads := []
  cores := []
  clusters := []
  gfile := []
  vfile := []
  spad := []
  spadFE := []
  spadPz := []
  bsram := []
  bdesc := []
  bpz := []
  reqs := []
  replies := []
  combines := []
  walks := []
  rwrites := []
  barriers := []
  early := []
  saves := []
  images := []
  log := []
  logWait := []
  dropped := []
  errs := []
  flips := []
  errAt := 0
  controlAt := 0
  temps := []
  balanceAt := 0
  patrolAt := 0
  slopes := []
  cap := 3600
  capDue := false
  hotSeen := false
  engines := []
  ports := []
  bufs := []
  credits := []
  reduces := []
  agenda := []
  tick := 0
  nextId := 0
  epochTop := 0
  cur := none

end Sys2Proof.Machine
end

