-- ==== Sys2Proof/Machine/Acc.lean ====
section
/-!
DEFINITION. Access to the records of the state: keys, reads and updates of owners, cores, clusters, threads and
register windows (R53, R142, R143, R153), the clocks, and the fault log (R80, R81).
-/

namespace Sys2Proof.Machine

/-! ## Keys -/

def coreKey (o j : Nat) : Nat := o * 1024 + j
def clusKey (o c : Nat) : Nat := o * 128 + c
def thrKey (o tid : Nat) : Nat := o * 2 ^ 24 + tid
def lchKey (o id : Nat) : Nat := o * 2 ^ 32 + id
def gKey (o j e : Nat) : Nat := coreKey o j * 2048 + e
def vKey (o j e : Nat) : Nat := coreKey o j * 512 + e
def spadKey (o j off : Nat) : Nat := coreKey o j * 2 ^ 20 + off
def granKey (o j off : Nat) : Nat := coreKey o j * 2 ^ 16 + off / 16
def spadBlk (o j off : Nat) : Nat := coreKey o j * 2 ^ 14 + off / 64
def bKey (o c off : Nat) : Nat := clusKey o c * 2 ^ 23 + off
def bBlk (o c off : Nat) : Nat := clusKey o c * 2 ^ 17 + off / 64
def posKey (die col : Nat) : Nat := die * 12 + col

/-! ## Packed ids (R95): c in [23:12], k in [11:9], t in [8:0] -/

def packId (j t : Nat) : Nat := j / 8 * 4096 + j % 8 * 512 + t
def tidCore (tid : Nat) : Nat := tid / 4096 * 8 + tid / 512 % 8
def tidSlot (tid : Nat) : Nat := tid % 512
def tidClus (tid : Nat) : Nat := tid / 4096

/-! ## Records -/

def owner? (s : State) (o : Nat) : Option Owner := lookup s.owners o
def core? (s : State) (o j : Nat) : Option Core := lookup s.cores (coreKey o j)
def clus? (s : State) (o c : Nat) : Option Cluster := lookup s.clusters (clusKey o c)
def thr? (s : State) (o tid : Nat) : Option Thread := lookup s.threads (thrKey o tid)
def lch? (s : State) (o id : Nat) : Option Launch := lookup s.launches (lchKey o id)

def onOwner (s : State) (o : Nat) (f : Owner → Owner) : State := { s with owners := upd s.owners o f }
def onCore (s : State) (o j : Nat) (f : Core → Core) : State := { s with cores := upd s.cores (coreKey o j) f }
def onClus (s : State) (o c : Nat) (f : Cluster → Cluster) : State :=
  { s with clusters := upd s.clusters (clusKey o c) f }
def onThr (s : State) (o tid : Nat) (f : Thread → Thread) : State :=
  { s with threads := upd s.threads (thrKey o tid) f }
def onLch (s : State) (o id : Nat) (f : Launch → Launch) : State :=
  { s with launches := upd s.launches (lchKey o id) f }

/-- The threads of an owner, in ascending packed id. -/
def threadsOf (s : State) (o : Nat) : List Thread := (s.threads.map (·.2)).filter (·.o == o)

/-- The threads whose context is on core j, in ascending packed id. -/
def threadsOn (s : State) (o j : Nat) : List Thread := (threadsOf s o).filter (·.core == j)

def plumbOf (s : State) (o : Nat) : Bool :=
  match owner? s o with
  | some w => w.plumb
  | none => false

/-- The number of owner-relative cores (R39). -/
def ncores (w : Owner) : Nat := 8 * w.nclus

/-- Where a core is now (R53, R54). -/
def placeOf (s : State) (o j : Nat) : Place :=
  match owner? s o with
  | some w => w.map.getD j ⟨0, 0, 0, false⟩
  | none => ⟨0, 0, 0, false⟩

/-- The column that holds a cluster of an owner now: the position of its logical number (R15, R52). -/
def clusPlace (s : State) (o c : Nat) : Place :=
  match s.table.find? (fun p => p.2.own == some o && p.2.lcl == c) with
  | some p => ⟨p.1 / 12, p.1 % 12, 0, false⟩
  | none => ⟨0, 0, 0, false⟩

/-- The dies on which an owner has positions: the set D of R184. -/
def diesOf (w : Owner) : List Nat := (List.range 8).filter (fun d => w.map.any (fun p => p.die == d))

/-- The engine of a column (R87 to R89). -/
def engineAt (s : State) (p : Place) : Engine := getD Engine.idle s.engines (posKey p.die p.col)

def onEngine (s : State) (p : Place) (f : Engine → Engine) : State :=
  { s with engines := setD Engine.idle s.engines (posKey p.die p.col) (f (engineAt s p)) }

/-! ## Registers (R142, R143, R153) -/

/-- ReadG: g0 is zero, any other register the entry of the window. -/
def readG (s : State) (t : Thread) (r : GReg) : Word :=
  if r = 0 then 0 else getD 0 s.gfile (gKey t.o t.core (t.gbase + r.toNat))

/-- WriteG: a write to g0 is discarded. -/
def writeG (s : State) (t : Thread) (r : GReg) (v : Word) : State :=
  if r = 0 then s else { s with gfile := setD 0 s.gfile (gKey t.o t.core (t.gbase + r.toNat)) v }

def readV (s : State) (t : Thread) (r : VReg) : Vec := getD 0 s.vfile (vKey t.o t.core (t.vbase + r.toNat))

def writeV (s : State) (t : Thread) (r : VReg) (v : Vec) : State :=
  { s with vfile := setD 0 s.vfile (vKey t.o t.core (t.vbase + r.toNat)) v }

/-- m0 is all ones. -/
def readM (t : Thread) (r : MReg) : BitVec 64 := if r = 0 then BitVec.allOnes 64 else getD 0 t.masks r.toNat

def writeM (t : Thread) (r : MReg) (v : BitVec 64) : Thread :=
  if r = 0 then t else { t with masks := setD 0 t.masks r.toNat v }

/-- The fields of %fpc (R147). -/
def fpcRM (w : Word) : Nat := (w.extractLsb' 0 3).toNat
def fpcFTZ (w : Word) : Bool := w.getLsbD 3
def fpcFEN (w : Word) : BitVec 5 := w.extractLsb' 8 5
def fpcIDZE (w : Word) : Bool := w.getLsbD 13

/-! ## Time (R16, R150) -/

/-- Nanoseconds of a number of fabric cycles at 1.40 GHz. -/
def nsOf (fab : Nat) : Nat := fab * 5 / 7

/-- Cycles of a column's clock in 4 fabric cycles: 5 on an F column, 4 on an M column, 3 on an E column (R16). -/
def clockOf (col : Nat) : Nat := 5 - col % 3

/-- Wall-clock nanoseconds since READY (R150). -/
def timeNs (s : State) : Nat := if s.power = .ready ∨ s.power = .hot then nsOf (s.fab - s.readyAt) else 0

/-- Whether the package is between T and the end of RESUME (R56, R61). -/
def paused (s : State) : Bool :=
  match s.trowel with
  | .run | .warn => false
  | .drain | .chunk | .stream | .swap | .resume => true

/-- Whether an owner's columns are stopped: a skim pause, a save after T_s, not placed, or the 115 degree limit with no
save of it still to come (R30). Log 64, DEDUCED. -/
def stopped (s : State) (o : Nat) : Bool :=
  paused s || (match owner? s o with
    | some w => w.frozen || !w.placed || (s.power == .hot && !w.saving)
    | none => true)

/-- Whether an owner's columns drain: the package's DRAIN, or a save's from T_s until it is quiet (R58, R72). -/
def draining (s : State) (o : Nat) : Bool :=
  s.trowel == .drain || s.saves.any (fun v => !v.restore && !v.quiet && v.til ≤ s.fab && v.owners.contains o)

/-- Whether WARN holds for an owner: the package's, or a save's (R57, R72). -/
def inWarn (s : State) (o : Nat) : Bool :=
  s.trowel == .warn || (match owner? s o with
    | some w => w.warn
    | none => false)

/-- The restrictions of a rotation's WARN and of a deferred one (R38, R57). -/
def warnNow (s : State) : Bool := s.trowel == .warn || !s.deferred.isEmpty

/-! ## The fault log (R80, R81) -/

def blankLog : LogRec := ⟨0, 0, 0, 0xFFFF, 0, 0, 0, 1, 0, 0, 0, 0, 0⟩

/-- Kinds that may be dropped (R81). -/
def droppable (k : Nat) : Bool := k == 4 || k == 5 || k == 6 || k == 0xB

/-- Take out the oldest record of a droppable kind, with its kind. -/
def dropOldest : List LogRec → Option (Nat × List LogRec)
  | [] => none
  | r :: rs =>
    if droppable r.kind then some (r.kind, rs)
    else
      match dropOldest rs with
      | some (k, rs') => some (k, r :: rs')
      | none => none

/-- Capacity of the ring (R80). -/
def logSize : Nat := 16384

/-- Add a record: the next kept record of a kind carries the dropped count of that kind in AUX; with the ring full a
droppable record is given up first, and a droppable newcomer is not kept; a record that is never dropped waits for
READLOG to free space (R81). Log 57, DEDUCED. -/
def addLog (s : State) (r : LogRec) : State :=
  let n := getD 0 s.dropped r.kind
  let r := { r with time := timeNs s, aux := if droppable r.kind && n != 0 then n else r.aux }
  let carried := if droppable r.kind then drop s.dropped r.kind else s.dropped
  if s.log.length < logSize && s.logWait.isEmpty then { s with log := s.log ++ [r], dropped := carried }
  else
    match dropOldest s.log with
    | some (k, rest) => { s with log := rest ++ [r], dropped := setD 0 carried k (getD 0 carried k + 1) }
    | none =>
      if droppable r.kind then { s with dropped := setD 0 s.dropped r.kind (n + 1) } else { s with logWait := s.logWait ++ [r] }

/-- Records that waited for space take their places in the ring as READLOG frees them (R81). -/
def unblockLog (s : State) : State :=
  let room := logSize - s.log.length
  { s with log := s.log ++ s.logWait.take room, logWait := s.logWait.drop room }

/-- Whether kill processing must wait for READLOG (R81). Log 57, DEDUCED. -/
def logFull (s : State) : Bool := !s.logWait.isEmpty || (logSize ≤ s.log.length && (dropOldest s.log).isNone)

/-- WHERE of a record: die, column and row of a tile, and the unit's number (R80, log 19, DESIGN CHOICE). -/
def whereOf (p : Place) (u : Nat) : Nat :=
  p.die % 8 + p.col % 16 * 8 + p.row % 8 * 128 + Config.logUnit u % 64 * 1024

/-- Count corrected errors of a structure (R66): 0 stack, 1 die, 2 bridge, 3 host link, 4 port. -/
def countErr (s : State) (kind index n : Nat) : State :=
  if s.errs.any (fun e => e.kind == kind && e.index == index) then
    { s with errs := s.errs.map (fun e => if e.kind = kind ∧ e.index = index then { e with count := e.count + n } else e) }
  else { s with errs := s.errs ++ [⟨kind, index, n, none⟩] }

/-- A fresh number for a request, walk or record. -/
def fresh (s : State) : Nat × State := (s.nextId, { s with nextId := s.nextId + 1 })

end Sys2Proof.Machine
end

