-- ==== Sys2Proof/Machine/ImageBytes.lean ====
section
/-!
DEFINITION. The bytes of a save image (R55, R69) and which of them memory still holds (R73). A copy's segments are read
as the image that was saved there, block by block, except for blocks that have been written since. Bytes that the spec
places in the image and does not lay out are free values (log 17, DESIGN CHOICE).
-/

namespace Sys2Proof.Machine

/-! ## A column of the image (R55) -/

def kib (n : Nat) : Nat := n * 1024

/-- Where the parts of a column's image but the first begin, in KiB. -/
def columnParts : List Nat := [1024, 8192, 8248, 32824, 34360, 35896, 36024, 44216, 44344]

/-- Bytes of one column's image. -/
def columnBytes : Nat := kib 44352

/-- The owner's core whose tile stands in a row of a column. -/
def rowCore (x : Snap) (die col row : Nat) : Option Nat :=
  x.owner.map.findIdx? (fun p => p.die == die && p.col == col && p.row == row)

/-- A byte of the image that the spec does not lay out (log 17, DESIGN CHOICE). -/
def freeByte (x : Snap) (die col off : Nat) : Byte := Config.imageByte x.fab ((x.o * 8 + die) * 16 + col) off

def byteOf {n : Nat} (v : BitVec n) (i : Nat) : Byte := v.extractLsb' (8 * i) 8

/-- A byte of a core's context part: the general file, then the vector file; the inboxes, masks and special registers
after them are not laid out. -/
def contextByte (x : Snap) (die col j f off : Nat) : Byte :=
  if f < kib 16 then byteOf (getD 0 x.gfile (gKey x.o j (f / 8))) (f % 8)
  else if f < kib 48 then byteOf (getD 0 x.vfile (vKey x.o j ((f - kib 16) / 64))) ((f - kib 16) % 64)
  else freeByte x die col off

/-- Eight full/empty bits, the lowest granule in bit 0. -/
def tagByte (x : Snap) (j f : Nat) : Byte :=
  BitVec.ofNat 8 (((List.range 8).map (fun i => if getD false x.spadFE (granKey x.o j (128 * f + 16 * i)) then 2 ^ i else 0)).foldl
    (· + ·) 0)

/-- The cluster that an owner held on a column. -/
def columnClus (x : Snap) (die col : Nat) : Option Nat :=
  (x.pos.find? (fun p => p.1 == die && p.2.1 == col)).map (·.2.2.1)

/-- The scratchpad's bytes of a saved core; the tile SRAM above them forms L1 and is sent as zero. -/
def snapSpn (x : Snap) (j : Nat) : Nat := ((lookup x.cores (coreKey x.o j)).map (fun c => c.spn * 0x20000)).getD 0

/-- A byte of a column's image: thread contexts, tile SRAM, full/empty tags, L2 data with sidecars, tags and the journal,
B SRAM, the engine's part, and zeros. Within a part the cores stand in the order of their rows. -/
def columnByte (x : Snap) (die col off : Nat) : Byte :=
  let perCore := fun (base size : Nat) (k : Nat → Nat → Byte) =>
    match rowCore x die col ((off - base) / size) with
    | some j => k j ((off - base) % size)
    | none => freeByte x die col off
  if off < kib 1024 then perCore 0 (kib 128) (fun j f => contextByte x die col j f off)
  else if off < kib 8192 then perCore (kib 1024) (kib 896) (fun j f => if f < snapSpn x j then Memory.read x.spad (spadKey x.o j f) else 0)
  else if off < kib 8248 then perCore (kib 8192) (kib 7) (fun j f => if 128 * f < snapSpn x j then tagByte x j f else 0)
  else if off < kib 36024 then freeByte x die col off
  else if off < kib 44216 then
    match columnClus x die col with
    | some c => Memory.read x.bsram (bKey x.o c (off - kib 36024))
    | none => 0
  else if off < kib 44344 then freeByte x die col off
  else 0

/-! ## A segment (R69) -/

/-- Columns that a saved owner held on a die, in ascending order. -/
def snapCols (x : Snap) (die : Nat) : List Nat := (x.pos.filter (·.1 == die)).map (·.2.1)

/-- Saved owners on a die with the offset of each one's record in the segment, and where the last one's columns end. -/
def snapOffsets (im : Image) (die : Nat) : List (Snap × Nat) × Nat :=
  im.snaps.foldl (fun acc x =>
    let n := (snapCols x die).length
    if n = 0 then acc else (acc.1 ++ [(x, acc.2)], acc.2 + kib 256 + n * columnBytes)) ([], kib 64)

/-- Bytes of an image's segment on a die. -/
def imageSize (im : Image) (die : Nat) : Nat :=
  match snapOffsets im die with
  | ([], _) => 0
  | (_, e) => e

/-- A byte of a segment outside the blocks that the image lists by themselves (its header and the start of each owner
record): zeros of the header, the record's parts that are not laid out, its zeros, and the columns. -/
def segByte (im : Image) (die off : Nat) : Byte :=
  if off < kib 64 then 0
  else match (snapOffsets im die).1.find? (fun e => e.2 ≤ off && off < e.2 + kib 256 + (snapCols e.1 die).length * columnBytes) with
    | none => 0
    | some (x, base) =>
      let f := off - base
      if f < kib 192 then freeByte x die 15 f
      else if f < kib 256 then 0
      else columnByte x die ((snapCols x die).getD ((f - kib 256) / columnBytes) 0) ((f - kib 256) % columnBytes)

/-- Number of a block of a segment. -/
def segBlk (die blk : Nat) : Nat := die * 2 ^ 26 + blk

/-- A block of an image. -/
def imageBlock (im : Image) (die blk : Nat) : List Byte :=
  let code := segBlk die blk
  match im.head.find? (·.1 == code) with
  | some h => h.2
  | none => (List.range 64).map (fun i => segByte im die (64 * blk + i))

/-! ## What memory holds of an image -/

/-- The image that still holds the block of an address, with its die and the block's index. -/
def coverOf (s : State) (pa : Nat) : Option (Image × Nat × Nat) :=
  s.images.findSome? (fun im => if im.gone then none else
    match im.segs.find? (fun g => g.2.1 ≤ pa && pa < g.2.1 + g.2.2) with
    | none => none
    | some g =>
      let blk := (pa - g.2.1) / 64
      if im.diff.contains (segBlk g.1 blk) || imageSize im g.1 ≤ 64 * blk then none else some (im, g.1, blk))

/-- The block of an address as it reads. -/
def blockNow (s : State) (pa : Nat) : List Byte :=
  match coverOf s pa with
  | some (im, die, blk) => imageBlock im die blk
  | none => Memory.readN s.mem (pa / 64 * 64) 64

/-- Bytes within one block as they read. -/
def bytesNow (s : State) (pa n : Nat) : List Byte := ((blockNow s pa).drop (pa % 64)).take n

/-- Blocks of an image that a write of n bytes reaches stand in memory by themselves from then on. -/
def spoilImage (pa n : Nat) (im : Image) : Image :=
  if im.gone then im
  else
    let hit := im.segs.filter (fun g => g.2.1 < pa + n && pa < g.2.1 + g.2.2)
    { im with diff := hit.flatMap (fun g =>
        let lo := Nat.max pa g.2.1
        let hi := Nat.min (pa + n) (g.2.1 + g.2.2)
        (List.range ((hi - 1) / 64 + 1 - lo / 64)).map (fun i => segBlk g.1 (lo / 64 + i - g.2.1 / 64))) ++ im.diff }

def spoil (s : State) (pa n : Nat) : State :=
  if s.images.isEmpty then s else { s with images := s.images.map (spoilImage pa n) }

/-- The block of an address goes into memory as it reads, so that a part of it can be written. -/
def settleBlock (s : State) (pa : Nat) : State :=
  match coverOf s pa with
  | some (im, die, blk) => spoil { s with mem := Memory.writeN s.mem (pa / 64 * 64) (imageBlock im die blk) } (pa / 64 * 64) 64
  | none => s

/-- The blocks of a range that images still hold go into memory. -/
def settleRange (s : State) (pa n : Nat) : State :=
  let hit := s.images.flatMap (fun im => if im.gone then [] else im.segs.filter (fun g => g.2.1 < pa + n && pa < g.2.1 + g.2.2))
  hit.foldl (fun s g =>
    let lo := Nat.max pa g.2.1
    let hi := Nat.min (pa + n) (g.2.1 + g.2.2)
    (List.range ((hi - 1) / 64 + 1 - lo / 64)).foldl (fun s i => settleBlock s ((lo / 64 + i) * 64)) s) s

end Sys2Proof.Machine
end

