-- ==== Sys2Proof/Machine/Xlate.lean ====
section
/-!
DEFINITION. The physical address map (R20, R21), the page walk (R41 to R44), translation buffers (R137 to R139),
scratchpad addresses (R157, R158), home slices (R172, R173, R184) and ordering targets (R192).
-/

namespace Sys2Proof.Machine

/-! ## The physical map (R20) -/

inductive PRange where
  | hbm
  | hole
  | reserved
  | host
deriving DecidableEq, Repr

def stackSpan : Nat := 0x1000000000
def stackUse : Nat := 0xF00000000
def hostBase : Nat := 0x8000000000000

def rangeOf (pa : Nat) : PRange :=
  if pa < 16 * stackSpan then (if pa % stackSpan < stackUse then .hbm else .hole)
  else if pa < hostBase then .reserved
  else if pa < 2 ^ 52 then .host
  else .reserved

/-- The stack of a device address and the die it attaches to (R19). -/
def stackOf (pa : Nat) : Nat := pa / stackSpan
def dieOfPa (pa : Nat) : Nat := stackOf pa / 2

/-- The package octet of a device address (R21). -/
def octetOf (pa : Nat) : Nat := 4 * stackOf pa + pa % stackSpan / 0x3C0000000

/-- Whether a run of bytes lies in the addressable memory of one stack; runs never span two, a hole lying between. -/
def inHbm (pa n : Nat) : Bool := rangeOf pa == .hbm && (n == 0 || (rangeOf (pa + n - 1) == .hbm && stackOf (pa + n - 1) == stackOf pa))

/-! ## Extents (R39, R46) -/

def Extent.has (e : Extent) (pa : Nat) : Bool := e.base ≤ pa && pa < e.base + e.len * 65536

def extentOf (w : Owner) (pa : Nat) : Option Extent := w.extents.find? (·.has pa)

/-- Whether an address lies in an extent with EHOST = 1. -/
def isEHost (w : Owner) (pa : Nat) : Bool :=
  match extentOf w pa with
  | some e => e.host
  | none => false

/-! ## Page-table entries (R42) -/

structure Pte where
  v    : Bool
  lf   : Bool
  sz   : Nat
  w    : Bool
  x    : Bool
  fe   : Bool
  l1   : Bool
  cls  : Nat
  hm   : Bool
  base : Nat
  home : Nat
deriving DecidableEq, Repr

def pteOf (b : BitVec 64) : Pte where
  v := b.getLsbD 0
  lf := b.getLsbD 1
  sz := (b.extractLsb' 2 2).toNat
  w := b.getLsbD 4
  x := b.getLsbD 5
  fe := b.getLsbD 6
  l1 := b.getLsbD 7
  cls := (b.extractLsb' 8 3).toNat
  hm := b.getLsbD 11
  base := (b.extractLsb' 12 36).toNat * 65536
  home := (b.extractLsb' 48 16).toNat

/-- A 64-bit word of memory. -/
def word64 (s : State) (pa : Nat) : BitVec 64 := BitVec.ofNat 64 (Memory.nat s.mem pa 8)

/-- HOME of a leaf, decoded: the first core and, under HM, the group exponent (R42); none where it is reserved or
reaches beyond the owner's cores (R43). -/
def homeOk (w : Owner) (p : Pte) : Bool :=
  if p.hm then
    let k := p.home % 16
    let f := p.home / 16
    k ≤ 9 && f % 2 ^ k == 0 && f + 2 ^ k ≤ ncores w
  else p.home < 1024 && p.home < ncores w

/-- Bytes of a page size code (R42). -/
def pageBytes (sz : Nat) : Nat := if sz = 0 then 0x10000 else if sz = 1 then 0x200000 else 0x40000000

/-- A replicated page's base lies in stack 0 or 1 and every copy inside the owner's extents (R184). -/
def replOk (w : Owner) (base n : Nat) : Bool :=
  base < 2 * stackSpan &&
    (diesOf w).all (fun d => (List.range (n / 65536)).all (fun i =>
      (extentOf w (base + 2 * d * stackSpan + i * 65536)).isSome))

/-- The checks of a deciding leaf at a level, for the 64 KiB part `part` of its page (R43, R44). A replicated leaf ignores HM
and HOME; its page at BASE is held against the extents as any other's, after the copies of D (R184). Log 77, DEDUCED. -/
def leafOut (w : Owner) (level entry : Nat) (p : Pte) (part vp : Nat) : WalkOut :=
  let n := pageBytes p.sz
  if (level = 0 ∧ 1 < p.sz) ∨ (level = 1 ∧ p.sz ≠ 2) ∨ 4 < p.cls then .xlat level entry
  else if p.cls ≠ 1 && !homeOk w p then .xlat level entry
  else if p.base % n ≠ 0 then .xlat level entry
  else
    let lo := rangeOf p.base
    let hi := rangeOf (p.base + n - 1)
    if lo == .hole || lo == .reserved || hi == .hole || hi == .reserved then .prot 3
    else if (lo == .hbm && p.cls = 4) || (lo == .host && p.cls ≠ 0 && p.cls ≠ 4) then .xlat level entry
    else if p.cls = 1 && !replOk w p.base n then .xlat level entry
    else if lo == .hbm && !(List.range (n / 65536)).all (fun i => (extentOf w (p.base + i * 65536)).isSome)
    then .prot 2
    else .leaf ⟨p.base + part * 65536, p.w, p.x, p.fe, p.l1, p.cls, p.hm, p.home, p.sz, vp⟩

/-- Whether an entry is a leaf of its group's size. -/
def groupLeaf (p : Pte) (sz : Nat) : Bool := p.v && p.lf && p.sz == sz

/-- An entry of a table: its first group entry decides when it is a leaf of the group's size (R41). Answers the index
and entry that decide. -/
def decide0 (s : State) (tbl idx grp sz : Nat) : Nat × Pte × Bool :=
  let first := idx / grp * grp
  let p0 := pteOf (word64 s (tbl + 8 * first))
  if groupLeaf p0 sz then (first, p0, true)
  else (idx, pteOf (word64 s (tbl + 8 * idx)), false)

/-- Non-leaf entries have bits [11:2] and [63:48] zero (R42). -/
def nonLeafOk (p : Pte) : Bool :=
  p.sz == 0 && !p.w && !p.x && !p.fe && !p.l1 && p.cls == 0 && !p.hm && p.home == 0

/-- A table of 16 KiB lies inside an extent (R43). -/
def tableOk (w : Owner) (pa : Nat) : Bool := (extentOf w pa).isSome

/-- The walk of one virtual address (R41 to R44). -/
def walkPage (s : State) (w : Owner) (va : Nat) : WalkOut :=
  let i3 := va / 2 ^ 49 % 256
  let i2 := va / 2 ^ 38 % 2048
  let i1 := va / 2 ^ 27 % 2048
  let i0 := va / 2 ^ 16 % 2048
  if !tableOk w w.root then .xlat 3 i3
  else
    let p3 := pteOf (word64 s (w.root + 8 * i3))
    if !p3.v || p3.lf || !nonLeafOk p3 || !tableOk w p3.base then .xlat 3 i3
    else
      let p2 := pteOf (word64 s (p3.base + 8 * i2))
      if !p2.v || p2.lf || !nonLeafOk p2 || !tableOk w p2.base then .xlat 2 i2
      else
        match decide0 s p2.base i1 8 2 with
        | (e1, p1, g1) =>
          if !p1.v then .xlat 1 e1
          else if p1.lf then
            if !g1 then .xlat 1 e1 else leafOut w 1 e1 p1 (va % 2 ^ 30 / 65536) (va / 65536)
          else if !nonLeafOk p1 || !tableOk w p1.base then .xlat 1 e1
          else
            match decide0 s p1.base i0 32 1 with
            | (e0, p0, g0) =>
              if !p0.v || !p0.lf then .xlat 0 e0
              else if p0.sz = 1 ∧ !g0 then .xlat 0 e0
              else leafOut w 0 e0 p0 (if g0 then va % 2 ^ 21 / 65536 else 0) (va / 65536)

/-! ## Translation buffers (R137 to R139) -/

/-- Keep a leaf in a buffer of n entries; a full buffer gives up an entry of its choice (log 11, DESIGN CHOICE). -/
def keepLeaf (buf : List (Nat × Leaf)) (n : Nat) (page : Nat) (l : Leaf) (tick : Nat) : List (Nat × Leaf) :=
  let buf := buf.filter (·.1 != page)
  if buf.length < n then (page, l) :: buf
  else (page, l) :: buf.eraseIdx (Config.victim tick % buf.length)

/-- Keep a leaf in the slice's translation cache of 1,024 entries in 8 ways; the set is the page number modulo 128
(R137, log 11, DESIGN CHOICE). -/
def keepWay (buf : List (Nat × Leaf)) (page : Nat) (l : Leaf) (tick : Nat) : List (Nat × Leaf) :=
  let here := fun (x : Nat × Leaf) => x.1 % 128 == page % 128
  keepLeaf (buf.filter here) 8 page l tick ++ buf.filter (fun x => !here x)

def bufGet (buf : List (Nat × Leaf)) (page : Nat) : Option Leaf := (buf.find? (·.1 == page)).map (·.2)

/-- The translation of a page for an access of a thread: an outcome of its own walk, its core's buffer, or the
cache of the slice; none is a miss. -/
def lookupPage (s : State) (t : Thread) (page : Nat) : Option WalkOut :=
  match (t.walks.find? (·.1 == page)).map (·.2) with
  | some out => some out
  | none =>
    match core? s t.o t.core with
    | none => none
    | some c =>
      match bufGet c.tlb page with
      | some l => some (.leaf l)
      | none => (bufGet c.tcache page).map .leaf

/-- Translation for a unit and a job of core k: an outcome of its own walk, its buffer, or the cache of the submitting
core's slice; none is a miss (R137). -/
def unitPage (s : State) (o k : Nat) (mx : Bool) (page : Nat) : Option WalkOut :=
  match clus? s o (k / 8), core? s o k with
  | some cl, some c =>
    match ((if mx then cl.outMx else cl.outCu).find? (·.1 == page)).map (·.2) with
    | some out => some out
    | none =>
      match bufGet (if mx then cl.tlbMx else cl.tlbCu) page with
      | some l => some (.leaf l)
      | none => (bufGet c.tcache page).map .leaf
  | _, _ => none

/-- A unit keeps a leaf that it has used in its buffer of 64 entries. -/
def unitKeep (s : State) (o c : Nat) (mx : Bool) (page : Nat) (out : WalkOut) : State :=
  match out with
  | .leaf l => onClus s o c (fun cl =>
      if mx then (if (bufGet cl.tlbMx page).isSome then cl else { cl with tlbMx := keepLeaf cl.tlbMx 64 page l s.tick })
      else (if (bufGet cl.tlbCu page).isSome then cl else { cl with tlbCu := keepLeaf cl.tlbCu 64 page l s.tick }))
  | .xlat _ _ | .prot _ => s

/-! ## Scratchpad addresses (R156 to R158) -/

/-- The size of a core's scratchpad (R156). -/
def spadSize (c : Core) : Nat := c.spn * 0x20000

/-- The front and shadow regions of the exchange banks (R158). -/
def frontLo (c : Core) : Nat := spadSize c - 2 * c.xb * 4096
def shadowLo (c : Core) : Nat := spadSize c - c.xb * 4096

/-- Whether any byte of a run lies in the shadow region. -/
def inShadow (c : Core) (off n : Nat) : Bool := c.xb != 0 && shadowLo c < off + n && off < spadSize c

def isSpadVa (va : Nat) : Bool := va / 2 ^ 49 == 0xFF

/-- The core and offset of a scratchpad address; none for another address with VA[56:49] = 0xFF, or a core beyond the
owner's (R157). -/
def spadVa (w : Owner) (home va : Nat) : Option (Nat × Nat) :=
  if va / 2 ^ 48 == 0x1FE then
    if va / 2 ^ 20 % 2 ^ 28 = 0 then some (home, va % 2 ^ 20) else none
  else if va / 2 ^ 48 == 0x1FF then
    let j := va / 2 ^ 20 % 1024
    if va / 2 ^ 30 % 2 ^ 18 = 0 ∧ j < ncores w then some (j, va % 2 ^ 20) else none
  else none

/-! ## Homes and targets (R172, R173, R184, R192) -/

/-- The XOR of the k-bit fields of a line number, of bits 0 to 39 (R173). -/
def fold (k : Nat) : Nat → Nat → Nat
  | 0, _ => 0
  | n + 1, l => l % 2 ^ k ^^^ fold k n (l / 2 ^ k)

def foldLine (k l : Nat) : Nat := if k = 0 then 0 else fold k ((40 + k - 1) / k) (l % 2 ^ 40)

/-- The home core of a line under a leaf (R172). -/
def homeCore (l : Leaf) (line : Nat) : Nat :=
  if l.hm then l.home / 16 + foldLine (l.home % 16) line else l.home % 1024

/-- The owner's cores on a die, in ascending owner-relative order. -/
def coresOnDie (w : Owner) (die : Nat) : List Nat :=
  (List.range (ncores w)).filter (fun j => (w.map.getD j ⟨8, 0, 0, false⟩).die == die)

/-- The replica home of a line on a die (R184). -/
def replHome (w : Owner) (die line : Nat) : Nat :=
  let cs := coresOnDie w die
  if cs.length = 0 then 0 else cs.getD (line % cs.length) 0

/-- The copy of a replicated address on a die (R184). -/
def replPa (die pa : Nat) : Nat := pa % (2 * stackSpan) + 2 * die * stackSpan

/-- The home of a line of the sealed region: the slice that homes the set line of its set block (R167, R214). -/
def sealHome (s : State) (w : Owner) (l : Leaf) (pa : Nat) : Nat :=
  let va := l.vp * 65536 + pa % 65536
  if w.sen && w.vbase ≤ va && va < w.vbase + 4352 * 2 ^ w.nb then
    let back := (va - w.vbase) % 4352 / 256 * 256 + va % 256
    if back ≤ va % 65536 then homeCore l ((pa - back) / 256)
    else match walkPage s w (va - back) with
      | .leaf m => homeCore m ((m.pa + (va - back) % 65536) / 256)
      | .xlat _ _ | .prot _ => homeCore l (pa / 256)
  else homeCore l (pa / 256)

/-- The ordering target of an address under a leaf, for an agent on a core (R192). -/
def targetOf (s : State) (w : Owner) (o j : Nat) (l : Leaf) (pa : Nat) : Target :=
  let line := pa / 256
  if l.cls = 4 then .device
  else if l.cls = 1 then
    let die := (placeOf s o j).die
    .replica o die (replHome w die line) (line % 4)
  else if rangeOf pa == .host then .hostLine line
  else if isEHost w pa then .stack line
  else if l.cls = 2 then .bank o (sealHome s w l pa) (line % 4)
  else .bank o (homeCore l line) (line % 4)

/-- The slice of a target, where it is one. -/
def Target.slice : Target → Option (Nat × Nat)
  | .bank o j _ => some (o, j)
  | .replica o _ j _ => some (o, j)
  | .scratch _ _ | .hostLine _ | .device | .stack _ => none

/-- Bridge hops between two dies along the route of R13. -/
def hops (a b : Nat) : Nat :=
  (if a % 4 < b % 4 then b % 4 - a % 4 else a % 4 - b % 4) + (if a / 4 = b / 4 then 0 else 1)

/-- The die of a target, for an agent on die d; host memory is reached through die 0 or die 4 (R23). -/
def Target.die (s : State) (d : Nat) : Target → Nat
  | .scratch o j | .bank o j _ => (placeOf s o j).die
  | .replica _ k _ _ => k
  | .hostLine _ | .device => d / 4 * 4
  | .stack line => dieOfPa (line * 256)

/-- Core cycles of the plumb-mode deadline: 384 fabric cycles and 256 for each bridge hop, at the core's clock (R16,
R179). -/
def plumbCycles (s : State) (o j : Nat) (t : Target) : Nat :=
  let p := placeOf s o j
  let tick := if p.col % 3 = 0 then 12 else if p.col % 3 = 1 then 15 else 20
  ((384 + 256 * hops p.die (t.die s p.die)) * 15 + tick - 1) / tick

/-- The core cycle at which a network access that a bundle makes in the cycle before this one completes in plumb mode
(R179); the core's own scratchpad is reached without the network (R167). -/
def netDue (s : State) (o core : Nat) (t : Target) : Option Nat :=
  match core? s o core with
  | some c => if plumbOf s o && t != .scratch o core then some (c.cyc - 1 + plumbCycles s o core t) else none
  | none => none

/-- In plumb mode the access of a thread's bundle has its deadline. -/
def plumbDue (s : State) (o tid : Nat) (t : Target) : State :=
  match (thr? s o tid).bind (fun x => netDue s o x.core t) with
  | some d => onThr s o tid (fun x => { x with due := some (Nat.max (x.due.getD 0) d) })
  | none => s

/-- A posted access has its deadline too, which a later release waits for. -/
def Thread.posts (t : Thread) (d : Option Nat) : Thread := { t with relDue := Nat.max t.relDue (d.getD 0) }

def postDue (s : State) (o tid : Nat) (t : Target) : State :=
  match (thr? s o tid).bind (fun x => netDue s o x.core t) with
  | some d => onThr s o tid (fun x => x.posts (some d))
  | none => s

/-- Whether an access under this leaf may be held in L1 (R167). -/
def l1Allowed (w : Owner) (l : Leaf) (pa : Nat) : Bool := l.l1 && l.cls != 4 && l.cls != 3 && !isEHost w pa

end Sys2Proof.Machine
end

