-- ==== Sys2Proof/Machine/Mops.lean ====
section
/-!
DEFINITION. The named operations over memory, scratchpad and B SRAM: bytes, descriptors (R22), full/empty bits (R159),
poison marks (R411), L2 lines with their version tokens (R170, R180) and L1 sectors (R168, R169, R193).
-/

namespace Sys2Proof.Machine

/-! ## Places -/

/-- A place that holds bytes: memory, a core's scratchpad, or a cluster's B SRAM. -/
inductive Spot where
  | mem (pa : Nat)
  | spad (o j off : Nat)
  | bsram (o c off : Nat)
deriving DecidableEq, Repr

def Spot.add : Spot → Nat → Spot
  | .mem a, n => .mem (a + n)
  | .spad o j a, n => .spad o j (a + n)
  | .bsram o c a, n => .bsram o c (a + n)

/-- The bytes at a place. -/
def readAt (s : State) : Spot → Nat → List Byte
  | .mem a, n => Memory.readN s.mem a n
  | .spad o j a, n => Memory.readN s.spad (spadKey o j a) n
  | .bsram o c a, n => Memory.readN s.bsram (bKey o c a) n

/-- The poison mark of the block at a place: 0 for none, otherwise 1 plus the INFO code of R122. -/
def markAt (s : State) : Spot → Nat
  | .mem a => getD 0 s.poison (a / 64)
  | .spad o j a => if getD false s.spadPz (spadBlk o j a) then 3 else 0
  | .bsram o c a => if getD false s.bpz (bBlk o c a) then 4 else 0

/-- The first mark among the blocks that a run of n bytes touches. -/
def markIn (s : State) (p : Spot) (n : Nat) : Nat :=
  let base := match p with | .mem a => a % 64 | .spad _ _ a => a % 64 | .bsram _ _ a => a % 64
  ((List.range ((base + n + 63) / 64)).map (fun i => markAt s (p.add (64 * i - (if i = 0 then 0 else base))))).foldl
    (fun m x => if m = 0 then x else m) 0

def setMark (s : State) (p : Spot) (m : Nat) : State :=
  match p with
  | .mem a => { s with poison := setD 0 s.poison (a / 64) m }
  | .spad o j a => { s with spadPz := setD false s.spadPz (spadBlk o j a) (m != 0) }
  | .bsram o c a => { s with bpz := setD false s.bpz (bBlk o c a) (m != 0) }

/-- Bytes to a place; other bytes keep their values and marks stay (R411). -/
def writeAt (s : State) (p : Spot) (bs : List Byte) : State :=
  match p with
  | .mem a => spoil { s with mem := Memory.writeN s.mem a bs } a bs.length
  | .spad o j a => { s with spad := Memory.writeN s.spad (spadKey o j a) bs }
  | .bsram o c a => { s with bsram := Memory.writeN s.bsram (bKey o c a) bs }

/-- The bytes whose mask flag is set. -/
def writeMaskAt (s : State) (p : Spot) (bs : List (Byte × Bool)) : State :=
  match p with
  | .mem a => spoil { s with mem := Memory.writeMasked s.mem a bs } a bs.length
  | .spad o j a => { s with spad := Memory.writeMasked s.spad (spadKey o j a) bs }
  | .bsram o c a => { s with bsram := Memory.writeMasked s.bsram (bKey o c a) bs }

/-- Whole 64-byte blocks: the write replaces each block and clears its mark (R411). -/
def writeBlocks (s : State) (p : Spot) (bs : List Byte) : State :=
  (List.range (bs.length / 64)).foldl (fun s i => setMark s (p.add (64 * i)) 0) (writeAt s p bs)

/-! ## Descriptors (R22, R159, R45) -/

/-- The descriptor of the block at a place; a scratchpad block reads 0x007F. -/
def descAt (s : State) : Spot → Nat
  | .mem a => getD descDefault s.desc (a / 64)
  | .spad _ _ _ => descDefault
  | .bsram o c a => getD descDefault s.bdesc (bBlk o c a)

/-- Write a block's descriptor; a scratchpad discards it. -/
def setDesc (s : State) (p : Spot) (d : Nat) : State :=
  match p with
  | .mem a => { s with desc := setD descDefault s.desc (a / 64) d }
  | .spad _ _ _ => s
  | .bsram o c a => { s with bdesc := setD descDefault s.bdesc (bBlk o c a) d }

/-! ## Full/empty bits (R159, R202) -/

def fullAt (s : State) : Spot → Bool
  | .mem a => getD false s.fe (a / 16)
  | .spad o j a => getD false s.spadFE (granKey o j a)
  | .bsram _ _ _ => false

def setFull (s : State) (p : Spot) (b : Bool) : State :=
  match p with
  | .mem a => { s with fe := setD false s.fe (a / 16) b }
  | .spad o j a => { s with spadFE := setD false s.spadFE (granKey o j a) b }
  | .bsram _ _ _ => s

/-- The four granules of a 64-byte block. -/
def allFull (s : State) (p : Spot) (b : Bool) : Bool :=
  (List.range 4).all (fun i => fullAt s (p.add (16 * i)) == b)

def setAllFull (s : State) (p : Spot) (b : Bool) : State :=
  (List.range 4).foldl (fun s i => setFull s (p.add (16 * i)) b) s

/-! ## L2 lines (R170, R180) -/

/-- The fill epoch of a bank (R180). -/
def epochOf (c : Core) (bank : Nat) : Nat := getD 0 c.epochs bank

/-- Present a sector of a line: the line becomes the most recent of its set. A line that is not there is filled: its bank's
fill epoch increments, and the least recently used way of a full set leaves. A sector that is not there is filled in its
line. Log 7, DEDUCED. -/
def presentSec (c : Core) (line sec : Nat) : Core :=
  match c.l2.find? (·.line == line) with
  | some l =>
    { c with l2 := { l with secs := if l.secs.contains sec then l.secs else sec :: l.secs } :: c.l2.filter (·.line != line) }
  | none =>
    let e := (epochOf c (line % 4) + 1) % 2 ^ 32
    let set := c.l2.filter (·.line % 1024 == line % 1024)
    let l2 := if set.length < 12 then c.l2
      else match set.getLast? with
        | some old => c.l2.filter (·.line != old.line)
        | none => c.l2
    { c with l2 := ⟨line, [sec], [], e, 0⟩ :: l2, epochs := setD 0 c.epochs (line % 4) e }

/-- Present every sector of a line (R181, R344). -/
def presentLine (c : Core) (line : Nat) : Core := (List.range 4).foldl (fun c i => presentSec c line i) c

/-- The version token of a present line (R180). -/
def tokenOf (c : Core) (line : Nat) : Option Nat :=
  (c.l2.find? (·.line == line)).map (fun l => l.epoch * 2 ^ 32 + l.count)

/-- A write to a present line advances its count and makes the sector dirty. -/
def bumpLine (c : Core) (line sec : Nat) : Core :=
  { c with l2 := c.l2.map (fun l =>
      if l.line = line then
        { l with count := (l.count + 1) % 2 ^ 32, dirty := if l.dirty.contains sec then l.dirty else sec :: l.dirty }
      else l) }

/-- Whether a slice holds the sector of an address. -/
def secHere (s : State) (o j pa : Nat) : Bool :=
  match core? s o j with
  | some c => c.l2.any (fun l => l.line == pa / 256 && l.secs.contains (pa / 64 % 4))
  | none => false

/-- A read or whole write of a block at its stack rewrites a line with a corrected symbol (R78). -/
def stackRead (s : State) (pa : Nat) : State :=
  if s.flips.isEmpty then s
  else { s with flips := s.flips.filter (fun p => match p with
           | .hbm a => a / 64 != pa / 64
           | _ => true) }

/-- The slice that caches an address of a target: none for an extent with EHOST, whose accesses bypass L2 (R46). -/
def cacheOf (s : State) (t : Target) (pa : Nat) : Option (Nat × Nat) :=
  t.slice.filter (fun x => !((owner? s x.1).any (fun w => isEHost w pa)))

/-- What an access does at the stack: a slice that holds the sector makes none, and only device memory has one. -/
def stackSide (s : State) (t : Target) (pa : Nat) : State :=
  match t with
  | .bank _ _ _ | .replica _ _ _ _ => (match cacheOf s t pa with
      | some (o, j) => if secHere s o j pa then s else stackRead s pa
      | none => stackRead s pa)
  | .stack _ => stackRead s pa
  | .scratch _ _ | .hostLine _ | .device => s

/-- A read of a sector at its target. -/
def touchRead (s : State) (t : Target) (pa : Nat) : State :=
  match cacheOf s t pa with
  | some (o, j) => onCore (stackSide s t pa) o j (fun c => presentSec c (pa / 256) (pa / 64 % 4))
  | none => stackSide s t pa

/-- A write of a sector at its target. -/
def touchWrite (s : State) (t : Target) (pa : Nat) : State :=
  match cacheOf s t pa with
  | some (o, j) => onCore (stackSide s t pa) o j (fun c => bumpLine (presentSec c (pa / 256) (pa / 64 % 4)) (pa / 256) (pa / 64 % 4))
  | none => stackSide s t pa

/-- A further sector of a line that one write touches: dirty, the line's count unchanged. -/
def dirtySec (c : Core) (line sec : Nat) : Core :=
  { c with l2 := c.l2.map (fun l => if l.line = line ∧ !l.dirty.contains sec then { l with dirty := sec :: l.dirty } else l) }

/-- The sectors of a run of bytes. -/
def sectorsIn (pa n : Nat) : List Nat := (List.range ((pa % 64 + n + 63) / 64)).map (fun i => pa / 64 * 64 + 64 * i)

/-- A write of a run of bytes at its slice: each line's token advances once, each sector is dirty (R170, R180). -/
def touchSpan (s : State) (t : Target) (pa n : Nat) : State :=
  (sectorsIn pa n).foldl (fun s a =>
    if a / 64 = pa / 64 || a % 256 = 0 then touchWrite s t a
    else match cacheOf s t a with
      | some (o, j) => onCore (stackSide s t a) o j (fun c => dirtySec (presentSec c (a / 256) (a / 64 % 4)) (a / 256) (a / 64 % 4))
      | none => stackSide s t a) s

/-- A read of a run of bytes at its slice. -/
def readSpan (s : State) (t : Target) (pa n : Nat) : State := (sectorsIn pa n).foldl (fun s a => touchRead s t a) s

/-- A whole line written at its slice: its token once, its four sectors dirty (R181, R219). -/
def touchLine (s : State) (t : Target) (pa : Nat) : State :=
  match cacheOf s t pa with
  | some (o, j) =>
    let s := (List.range 4).foldl (fun s i => stackSide s t (pa / 256 * 256 + 64 * i)) s
    onCore s o j (fun c =>
      let c := bumpLine (presentLine c (pa / 256)) (pa / 256) 0
      { c with l2 := c.l2.map (fun l => if l.line = pa / 256 then { l with dirty := [0, 1, 2, 3] } else l) })
  | none => s

/-- Whether an uncorrectable error of a line's dirty data lies in L2 (R63). -/
def dirtyIn (s : State) (o j : Nat) (pa : Nat) : Bool :=
  match core? s o j with
  | some c => c.l2.any (fun l => l.line == pa / 256 && l.dirty.contains (pa / 64 % 4))
  | none => false

/-! ## The L1 (R168, R169, R193) -/

/-- Ways of the L1 left by the scratchpad (R168). -/
def l1Ways (c : Core) : Nat := 8 - c.spn

/-- The bytes of an L1 copy, where the sector is valid. -/
def l1Sector (c : Core) (pa : Nat) : Option Vec :=
  match c.l1.find? (·.line == pa / 256) with
  | some l => (l.secs.find? (·.1 == pa / 64 % 4)).map (·.2)
  | none => none

/-- A hit makes the line the most recent of its set. -/
def l1Use (c : Core) (pa : Nat) : Core :=
  match c.l1.find? (·.line == pa / 256) with
  | some l => { c with l1 := l :: c.l1.filter (·.line != pa / 256) }
  | none => c

/-- A hit on a run of bytes makes each of its lines the most recent of its set. -/
def l1UseN (c : Core) (pa n : Nat) : Core :=
  (List.range ((pa + n - 1) / 256 + 1 - pa / 256)).foldl (fun c i => l1Use c (pa + 256 * i)) c

/-- Install a sector: the least recently used way of a full set leaves (R168); sets are PA[16:8]. -/
def l1Fill (c : Core) (pa : Nat) (v : Vec) : Core :=
  let line := pa / 256
  match c.l1.find? (·.line == line) with
  | some l =>
    { c with l1 := { l with secs := (pa / 64 % 4, v) :: l.secs.filter (·.1 != pa / 64 % 4) }
        :: c.l1.filter (·.line != line) }
  | none =>
    if l1Ways c = 0 then c
    else
      let set := c.l1.filter (·.line % 512 == line % 512)
      let l1 := if set.length < l1Ways c then c.l1
        else match set.getLast? with
          | some old => c.l1.filter (·.line != old.line)
          | none => c.l1
      { c with l1 := ⟨line, [(pa / 64 % 4, v)]⟩ :: l1 }

/-- Bytes of a vector register, byte lane 0 first. -/
def vecBytes (v : Vec) : List Byte := (List.range 64).map (fun i => v.extractLsb' (8 * i) 8)

/-- A vector of 64 bytes, byte lane 0 first. -/
def bytesVec (bs : List Byte) : Vec := BitVec.ofNat 512 (bs.foldr (fun b n => b.toNat + 256 * n) 0)

/-- Replace the bytes of a sector that a run of bytes covers. -/
def mergeSector (pa : Nat) (v : Vec) (at_ : Nat) (bs : List (Byte × Bool)) : Vec :=
  let sec := pa / 64 * 64
  bytesVec ((vecBytes v).zipIdx.map (fun p =>
    let a := sec + p.2
    if at_ ≤ a ∧ a < at_ + bs.length then
      match bs[a - at_]? with
      | some (b, true) => b
      | some (_, false) => p.1
      | none => p.1
    else p.1))

/-- A store updates the L1 copy of its bytes and allocates nothing (R168, R193). -/
def l1Store (c : Core) (pa : Nat) (bs : List (Byte × Bool)) : Core :=
  { c with l1 := c.l1.map (fun l =>
      { l with secs := l.secs.map (fun p => (p.1, mergeSector (l.line * 256 + p.1 * 64) p.2 pa bs)) }) }

/-- Bytes of an L1 copy within one sector. -/
def sectorBytes (v : Vec) (pa n : Nat) : List Byte := ((vecBytes v).drop (pa % 64)).take n

/-- Invalidate a line in an L1. -/
def l1Drop (c : Core) (line : Nat) : Core := { c with l1 := c.l1.filter (·.line != line) }

/-- A number of up to eight bytes. -/
def wordOfList (bs : List Byte) : Word := BitVec.ofNat 64 (bs.foldr (fun b n => b.toNat + 256 * n) 0)

/-- The n low bytes of a word. -/
def listOfWord (w : Word) (n : Nat) : List Byte := (List.range n).map (fun i => w.extractLsb' (8 * i) 8)

/-- Sign or zero extension of an n-byte value (R330, Ext). -/
def extend (sgn : Bool) (n : Nat) (w : Word) : Word :=
  if sgn then (BitVec.ofInt 64 (w.setWidth (8 * n)).toInt) else (w.setWidth (8 * n)).setWidth 64

/-- All flags set: every byte written. -/
def allOn (bs : List Byte) : List (Byte × Bool) := bs.map (fun b => (b, true))

/-- Bytes with the mask bit of each lane. -/
def maskBytes (v : Vec) (m : BitVec 64) : List (Byte × Bool) := (vecBytes v).zipIdx.map (fun p => (p.1, m.getLsbD p.2))

end Sys2Proof.Machine
end

