-- ==== Sys2Proof/Machine/Hash.lean ====
section
/-!
DEFINITION. Generators and hashes: the thread generator and its jump (R103, R164), the hash generator (R165), the
sealed hash (R216), CRC-32C (R25), SHA-512 and the result digest (R249).
-/

namespace Sys2Proof.Machine

/-! ## The thread generator (R103, R164) -/

def lcgMul : Word := 0x9F6E2A41C3B55E8D
def lcgAdd : Word := 0x1B8735930D2A4C61

/-- The state after one draw. -/
def lcgNext (x : Word) : Word := lcgMul * x + lcgAdd

/-- The 32 bits that a draw leaving state x gives. -/
def lcgOut (x : Word) : BitVec 32 := x.extractLsb' 32 32 ^^^ x.extractLsb' 0 32

/-- States after each of k successive draws. -/
def lcgDraws : Nat → Word → List Word
  | 0, _ => []
  | k + 1, x => lcgNext x :: lcgDraws k (lcgNext x)

/-- The map accumulated over the low k bits of n (R103): aa and cc, with ma and mc the current power. -/
def lcgJumpGo : Nat → Nat → Word → Word → Word → Word → Word × Word
  | 0, _, _, _, aa, cc => (aa, cc)
  | k + 1, n, ma, mc, aa, cc =>
    lcgJumpGo k (n / 2) (ma * ma) (ma * mc + mc)
      (if n % 2 = 1 then ma * aa else aa) (if n % 2 = 1 then ma * cc + mc else cc)

/-- A seed advanced n draws. -/
def lcgJump (n : Nat) (seed : Word) : Word :=
  match lcgJumpGo 96 n lcgMul lcgAdd 1 0 with
  | (aa, cc) => aa * seed + cc

/-- The starting state of a thread of stage s, index i and incarnation e (R103). -/
def startState (seed : Word) (s i e : Nat) : Word := lcgJump (2 ^ 40 * (65536 * s + i) + 2 ^ 32 * e) seed

/-! ## The hash generator (R165) -/

def hashGen (x seed : Word) : Word :=
  let z := x ^^^ seed
  let z := (z ^^^ (z >>> 31)) * 0xB3C15E7A4D298F61
  let z := (z ^^^ (z >>> 29)) * 0x6C8E9CF570932BD5
  z ^^^ (z >>> 32)

/-! ## CRC-32C (R25) -/

/-- One bit of the reflected CRC. -/
def crcBit (poly : Nat) (c : Nat) : Nat := if c % 2 = 1 then (c / 2) ^^^ poly else c / 2

def crcByte (poly : Nat) (c : Nat) (b : Byte) : Nat := (List.range 8).foldl (fun c _ => crcBit poly c) (c ^^^ b.toNat)

/-- CRC-32C, the Castagnoli polynomial reflected, initial value and final XOR all ones. -/
def crc32c (bs : List Byte) : BitVec 32 :=
  BitVec.ofNat 32 (bs.foldl (crcByte 0x82F63B78) 0xFFFFFFFF ^^^ 0xFFFFFFFF)

/-! ## SHA-512 (R249) -/

/-- The largest r below 2^b with (at + r)^e at most n, added to `at`. -/
def rootFrom (e n : Nat) : Nat → Nat → Nat
  | 0, r => r
  | b + 1, r => rootFrom e n b (if (r + 2 ^ b) ^ e ≤ n then r + 2 ^ b else r)

/-- The first 64 bits after the point of the e-th root of p. -/
def rootBits (e p : Nat) : Word := BitVec.ofNat 64 (rootFrom e (p * 2 ^ (64 * e)) 69 0)

/-- The primes below n: numbers that no smaller one from 2 to 20 divides, which is exact below 529. -/
def primesBelow (n : Nat) : List Nat :=
  (List.range n).filter (fun p => 2 ≤ p && (List.range 21).all (fun d => d < 2 || p ≤ d || p % d != 0))

/-- Rotations of a word by three amounts, combined. -/
def mixRot (a b c : Nat) (x : Word) : Word := x.rotateRight a ^^^ x.rotateRight b ^^^ x.rotateRight c

/-- Two rotations and a shift, combined. -/
def mixShift (a b c : Nat) (x : Word) : Word := x.rotateRight a ^^^ x.rotateRight b ^^^ (x >>> c)

/-- The chain of a block: the latest four words of each of two interleaved sequences, the newest first. -/
structure Chain where
  p : Vector Word 4
  q : Vector Word 4

def Chain.add (x y : Chain) : Chain := ⟨Vector.zipWith (· + ·) x.p y.p, Vector.zipWith (· + ·) x.q y.q⟩

/-- A sequence takes a new word and gives up its oldest. -/
def pushWord (v : Vector Word 4) (x : Word) : Vector Word 4 := #v[x, v[0], v[1], v[2]]

/-- One round: the q sequence receives the word four back of p plus a sum over q, the p sequence that sum plus one over p. -/
def Chain.round (x : Chain) (kw : Word) : Chain :=
  let sum := x.q[3] + mixRot 14 18 41 x.q[0] + (x.q[2] ^^^ (x.q[0] &&& (x.q[1] ^^^ x.q[2]))) + kw
  let maj := (x.p[0] &&& (x.p[1] ||| x.p[2])) ||| (x.p[1] &&& x.p[2])
  ⟨pushWord x.p (sum + mixRot 28 34 39 x.p[0] + maj), pushWord x.q (x.p[3] + sum)⟩

/-- The rounds over a window of the sixteen next words of the schedule, which slides by one. -/
def chainRounds : List Word → List Word → Chain → Chain
  | [], _, x => x
  | k :: ks, win, x =>
    let next := win.getD 0 0 + mixShift 1 8 7 (win.getD 1 0) + win.getD 9 0 + mixShift 19 61 6 (win.getD 14 0)
    chainRounds ks (win.drop 1 ++ [next]) (x.round (k + win.getD 0 0))

/-- n words of eight bytes each, the first byte the highest. -/
def highWords : Nat → List Byte → List Word
  | 0, _ => []
  | n + 1, bs => BitVec.ofNat 64 ((bs.take 8).foldl (fun x b => 256 * x + b.toNat) 0) :: highWords n (bs.drop 8)

/-- The blocks of 128 bytes, each added to the chain it starts from. -/
def chainBlocks (ks : List Word) : Nat → List Byte → Chain → Chain
  | 0, _, x => x
  | n + 1, bs, x => chainBlocks ks n (bs.drop 128) (x.add (chainRounds ks (highWords 16 bs) x))

/-- A message with its one bit, zeros and its length in bits over 16 bytes, whole blocks in all. -/
def shaPad (msg : List Byte) : List Byte :=
  let zeros := (240 - (msg.length + 1) % 128) % 128
  msg ++ 0x80 :: List.replicate zeros 0 ++ ((List.range 16).map (fun i => BitVec.ofNat 8 (8 * msg.length / 256 ^ i))).reverse

/-- SHA-512 (FIPS 180-4): its constants are square roots of the first 8 primes and cube roots of the first 80. -/
def sha512 (msg : List Byte) : List Byte :=
  let ps := primesBelow 410
  let start := (ps.take 8).map (rootBits 2)
  let s := fun (i : Nat) => start.getD i 0
  let bs := shaPad msg
  let x := chainBlocks (ps.map (rootBits 3)) (bs.length / 128) bs ⟨#v[s 0, s 1, s 2, s 3], #v[s 4, s 5, s 6, s 7]⟩
  (x.p.toList ++ x.q.toList).flatMap (fun w => (listOfWord w 8).reverse)

end Sys2Proof.Machine
end

