-- ==== Sys2Proof/WellFormed.lean ====
section
/-!
DEFINITION. Well-formed instructions: the operand combinations the encoding admits (R293 to R303, R331, R360 and
the limits of each entry), and the ranges of the device coordinates an event names (R10, R24, R37).
-/

namespace Sys2Proof

/-- Types 0 to 4 (R360). -/
def VType.isFloat : VType → Bool
  | .f32 | .bf16 | .f16 | .e4m3 | .e5m2 => true
  | .e2m1 | .i64 | .i32 | .i16 | .i8 | .n64 | .n32 | .n16 | .n8 => false

/-- Types 8 to 15 (R360). -/
def VType.isInt : VType → Bool
  | .i64 | .i32 | .i16 | .i8 | .n64 | .n32 | .n16 | .n8 => true
  | .f32 | .bf16 | .f16 | .e4m3 | .e5m2 | .e2m1 => false

/-- The element width in bits (R359). -/
def VType.width : VType → Nat
  | .f32 => 32 | .bf16 => 16 | .f16 => 16 | .e4m3 => 8 | .e5m2 => 8 | .e2m1 => 4
  | .i64 => 64 | .i32 => 32 | .i16 => 16 | .i8 => 8 | .n64 => 64 | .n32 => 32 | .n16 => 16 | .n8 => 8

/-- Types with a signed reading: the .i types (R359). -/
def VType.signed : VType → Bool
  | .i64 | .i32 | .i16 | .i8 => true
  | .f32 | .bf16 | .f16 | .e4m3 | .e5m2 | .e2m1 | .n64 | .n32 | .n16 | .n8 => false

/-- Elements of a vector of this type (R359). -/
def VType.count (t : VType) : Nat := 512 / t.width

/-- The types VPERM to VSEL, VRED and VPFX accept: 0 to 4 and 8 to 15 (R360). -/
def VType.isMove (t : VType) : Bool := t.isFloat || t.isInt

/-- The types of VQNT and VDQNT (R373). -/
def VType.isBlk : VType → Bool
  | .e4m3 | .e5m2 | .e2m1 | .i8 => true
  | .f32 | .bf16 | .f16 | .i64 | .i32 | .i16 | .n64 | .n32 | .n16 | .n8 => false

/-- The types of VPACK and VUNPK (R375). -/
def VType.isPack (t : VType) : Bool := t.isInt && t.width != 64

/-- An index scale is 0 to 6 (R295). -/
def Addr.wf (a : Addr) : Bool := a.scl != 7

/-- An offset whose bits [2:0] are zero, as VLD and VST write it (R335). -/
def Off.aligned8 : Off → Bool
  | .o16 v => v.extractLsb' 0 3 == 0
  | .o48 v => v.extractLsb' 0 3 == 0

/-- Orders a load takes (R331). -/
def Ord.isLoad : Ord → Bool
  | .plain | .acq _ => true
  | .rel _ | .ar _ => false

/-- Orders a store takes (R331). -/
def Ord.isStore : Ord → Bool
  | .plain | .rel _ => true
  | .acq _ | .ar _ => false

/-- Types an atomic takes: codes 0, 1, 4 and 5 (R331). -/
def IType.isAmo : IType → Bool
  | .i64 | .i32 | .n64 | .n32 => true
  | .i16 | .i8 | .n16 | .n8 => false

/-- pos + len is at most 64, a length field of 0 meaning 64 (R317); the two high bits of both fields are the
widths of the fields themselves. -/
def BitField.length (f : BitField) : Nat := if f.len = 0 then 64 else f.len.toNat

def BitField.wf (f : BitField) : Bool := f.pos.toNat + f.length ≤ 64

/-- The lane group of a conversion lies in range and the pair of types is one the entry lists (R370 to R372). -/
def VConv.groupOk (o : VConv) : Bool :=
  let ws := o.src.width
  let wd := o.ty.width
  if ws > wd then o.g.toNat < ws / wd else if ws < wd then o.g.toNat < wd / ws else o.g == 0

/-- An IMM8 lane index or count is below the number of elements (R379). -/
def GSrc.indexOk (t : VType) : GSrc → Bool
  | .reg _ => true
  | .imm v => v.toNat < t.count

/-- A cluster's power values: budgets to 1,024, a grant to 128, and the die's slope step of 16 to 1,024 (R88, R90). -/
def PowerReading.wf (p : PowerReading) : Bool :=
  p.die < 8 && p.col < 12 && p.bcap ≤ 1024 && p.bcur ≤ 1024 && p.g ≤ 128 && 16 ≤ p.d && p.d ≤ 1024
    && p.bnom.all (fun b => b ≤ 1024)

/-- A new package power cap: 2,000 to 3,600 W in steps of 50 W (R30). -/
def capOk (c : Option Nat) : Bool :=
  match c with
  | none => true
  | some w => 2000 ≤ w && w ≤ 3600 && w % 50 == 0

/-- A tile inside the package (R10). -/
def TileReading.wf (t : TileReading) : Bool := t.die < 8 && t.col < 12 && t.row < 8

/-- The die pairs that a bridge joins: west and east neighbours, and vertical partners (R11). -/
def bridged (d e : Nat) : Bool :=
  d < 8 && e < 8 && ((d / 4 == e / 4 && (d + 1 == e || e + 1 == d)) || d + 4 == e || e + 4 == d)

/-- A place of a fault inside the package, by the counts of R10; owners, cores and clusters by the ranges of their
numbers. -/
def FaultPlace.wf : FaultPlace → Bool
  | .regFile o j e => o < 96 && j < 768 && e < 2048
  | .vecFile o j e => o < 96 && j < 768 && e < 512
  | .special o j t => o < 96 && j < 768 && t < 64
  | .tileBlock o j b => o < 96 && j < 768 && b < 16384
  | .l2Line o j line | .l2Tag o j line => o < 96 && j < 768 && line < 2 ^ 44
  | .journal o j _ | .job o j _ | .transBuf o j | .datapath o j => o < 96 && j < 768
  | .bsram o c b => o < 96 && c < 96 && b < 131072
  | .carry o c n => o < 96 && c < 96 && n < 256
  | .engineArray o c => o < 96 && c < 96
  | .ballast die col => die < 8 && col < 12
  | .tables die | .beat die => die < 8
  | .hbm pa => pa < 2 ^ 52
  | .switchRec _ | .steward => true
  | .bridge d e => bridged d e
  | .hostLink m => m < 2
  | .port p => p < 16
  | .saveCopy copy die line => copy < 2 && die < 8 && line < 2 ^ 24

/-- Instructions whose operands the encoding admits, and events whose coordinates exist. -/
def Instr.wf : Instr → Bool
  | .powerUp | .powerUpZeroingDone | .doorbell | .ringEnable | .ringDisable => true
  | .registerWrite off _ => off < 0x10000
  | .create n | .destroy n | .launch n | .preempt n | .save n | .saveArm n | .saveDisarm n
  | .restore n | .setcirc n | .readlog n | .commandComplete n => n < 2 ^ 64
  | .hostMemRead pa len => pa + len ≤ 2 ^ 52
  | .hostMemWrite pa data => pa + data.length ≤ 2 ^ 52
  | .hostSnoop line => line < 2 ^ 52
  | .warn | .drain | .drainTimeout | .chunk | .streamSlot => true
  | .doneFlag die => die < 8
  | .swap | .resume => true
  | .circuitFailed die c => die < 8 && c < 12
  | .deferredInstant => true
  | .saveQuiesce n | .saveStreamDone n _ _ | .restoreStreamDone n => n < 4096
  | .errorRateWindow => true
  | .autoSave o => o < 96
  | .patrolScrub => true
  | .supplyFault die col => die < 8 && col < 12
  | .killDrainEnd o _ => o < 96
  | .controlInterval temps power package =>
      temps.all TileReading.wf && power.all PowerReading.wf && capOk package.cap
  | .threadMigrationDone o tid => o < 96 && tid < 2 ^ 24
  | .coreMigrationDone o _ => o < 96
  | .forwardExpiry o _ => o < 96
  | .governorWindow die col => die < 8 && col < 12
  | .frameMove _ _ | .frameLineMove _ => true
  | .balancingInterval => true
  | .trapDispatch o tid => o < 96 && tid < 2 ^ 24
  | .waitLimitExpiry o tid => o < 96 && tid < 2 ^ 24
  | .translationWalkDone _ | .targetRequest _ | .replyArrival _ | .amoCombine _ _ | .combinedReplySplit _ => true
  | .postedStoreArrival o _ _ | .journalAck o _ _ | .journalRefusal o _ _ | .msendResend o _ _
  | .xstPacket o _ _ => o < 96
  | .barrierCompletion o _ _ => o < 96
  | .replicatedWriteReceived o _ die | .replicatedApply o _ die => o < 96 && die < 8
  | .reclaimWalk o _ | .reclaimChildAck o _ => o < 96
  | .jobStart o _ _ | .engineChunkCycle o _ | .chunkCommit o _ | .copyBlock o _ | .jobEnd o _ _
  | .jobSuspend o _ _ => o < 96
  | .dataFrame p _ | .ackFrame p _ | .nakFrame p _ | .creditFrame p _ | .retransmitTimeout p => p < 16
  | .add _ | .sub _ | .mul _ | .mulh _ | .div _ | .rem _ | .and _ | .or _ | .xor _ | .andn _ | .orn _
  | .shl _ | .shr _ | .sar _ | .rot _ | .min _ | .max _ => true
  | .clz _ | .ctz _ | .popc _ | .brev _ => true
  | .extr _ f | .insr f => f.wf
  | .li _ _ => true
  | .lea _ ad => ad.wf
  | .cmp _ _ | .csel _ _ _ _ => true
  | .brcc _ _ _ | .brz _ _ | .brnz _ _ | .jmp _ | .call _ _ | .jr _ => true
  | .loop a _ => a != 0
  | .bstrm _ _ => true
  | .ld ord o => ord.isLoad && o.ad.wf
  | .st ord o => ord.isStore && o.ad.wf
  | .vld ord o => ord.isLoad && o.ad.wf && o.ad.off.aligned8
  | .vst ord o => ord.isStore && o.ad.wf && o.ad.off.aligned8
  | .vldDesc ord _ _ m => ord.isLoad && m.off.aligned8
  | .vstDesc ord _ _ m => ord.isStore && m.off.aligned8
  | .lds _ o | .ldsClr _ o | .stf o => o.ad.wf
  | .fec _ _ ad => ad.wf
  | .prf ad => ad.wf
  | .flushl1 => true
  | .amoAdd ty _ _ _ | .amoAnd ty _ _ _ | .amoOr ty _ _ _ | .amoXor ty _ _ _ | .amoMin ty _ _ _
  | .amoMax ty _ _ _ | .amoSwap ty _ _ _ | .cas ty _ _ _ => ty.isAmo
  | .amoFadd _ _ _ => true
  | .ldv _ ad | .cstor _ _ ad => ad.wf
  | .fence _ _ => true
  | .pst o | .pstF o | .xst o | .xstF o => o.ad.wf
  | .msend _ _ | .mrecv _ _ | .mrecvTrap _ => true
  | .bara _ ad | .barw _ ad => ad.wf
  | .barmax _ _ => true
  | .qput _ _ _ | .qget _ _ _ | .wpush _ _ | .wpop _ | .waitc _ _ _ => true
  | .mfs _ _ | .mts _ _ | .trap _ _ | .halt | .haltRetain _ | .yield | .nop | .nopLong _ _ => true
  | .launchInstr _ _ _ | .skimw _ _ | .spawn _ _ _ | .rdcyc _ => true
  | .vadd o | .vsub o | .vmul o | .vfma o | .vfms o => o.ty.isFloat
  | .vdiv o => o.ty == .f32
  | .vsqrt o | .vexp2 o | .vlog2 o | .vrcp o | .vrsq o | .vsinp o | .vcosp o | .vtanh o => o.ty == .f32
  | .vabs o | .vneg o => o.ty.isFloat && o.rnd == .cur
  | .vmin o | .vmax o | .vcpys o => o.ty.isFloat && o.rnd == .cur
  | .vcmp o => o.ty.isFloat && (o.cc == .eq || o.cc == .ne || o.cc == .lt || o.cc == .ge || o.cc == .gt
      || o.cc == .le)
  | .viadd o | .visub o | .vimul o => o.ty.isInt
  | .vimulh o | .vand o | .vor o | .vxor o | .vandn o | .vimin o | .vimax o
  | .vshl o | .vshr o | .vsar o | .vrot o => o.ty.isInt && !o.sat
  | .viabs ty _ _ _ _ => ty.isInt
  | .vicmp o => o.ty.isInt
  | .vcvt o => o.ty.isFloat && o.src.isFloat && o.ty != o.src && o.groupOk
  | .vftoi o => o.ty.isInt && o.src.isFloat && !o.nsat && o.groupOk
  | .vitof o => o.ty.isFloat && o.src.isInt && !o.nsat && o.groupOk
  | .vqnt o => o.ty.isBlk
  | .vdqnt o => o.ty.isBlk && !o.nsat
  | .vpack ty _ _ _ _ _ => ty.isPack
  | .vunpk ty _ _ _ _ => ty.isPack
  | .vrndt _ _ | .vmix _ _ _ _ => true
  | .vrndh ty _ _ _ => ty.isInt
  | .vperm ty _ _ _ _ | .vbcast ty _ _ _ | .vmov ty _ _ _ | .vsel ty _ _ _ _ => ty.isMove
  | .vextl ty _ _ src _ | .vinsl ty _ _ src _ | .vrotl ty _ _ src _ => ty.isMove && src.indexOk ty
  | .vredAdd ty sat _ _ _ | .vpfx ty sat _ _ _ => ty.isMove && (!sat || ty.isInt)
  | .vredMin ty _ _ _ | .vredMax ty _ _ _ => ty.isMove
  | .vredAnd ty _ _ _ | .vredOr ty _ _ _ | .vredXor ty _ _ _ => ty.isInt
  | .mand _ _ _ | .mor _ _ _ | .mxor _ _ _ | .mnot _ _ | .mpopc _ _ => true
  | .mxrun _ _ _ | .mxcarryLd _ _ _ | .mxcarrySt _ _ _ | .cucopy _ _ _ | .cufill _ _ _ _ _
  | .culdb _ _ _ _ | .cudigest _ _ _ _ | .jwait _ _ | .jpoll _ _ | .jcancel _ _ => true
  | .scfg _ _ | .sbind _ _ | .sclose _ | .spos _ _ _ | .scommit _ => true
  | .slput _ _ _ | .slget _ _ _ | .slref _ _ | .slunref _ _ | .slswap _ _ _ | .slout _ _ _ _ | .slhash _ _ => true
  | .lksend _ _ | .lkrecv _ _ | .lkred _ _ => true
  | .singleFault p => p.wf
  | .powerLoss => true

/-- Whether an operation is a V-op (kind 01, R306), the only kind a second half may be (R300). -/
def Instr.isV : Instr → Bool
  | .vadd _ | .vsub _ | .vmul _ | .vdiv _ | .vfma _ | .vfms _ | .vsqrt _ | .vexp2 _ | .vlog2 _ | .vrcp _
  | .vrsq _ | .vsinp _ | .vcosp _ | .vtanh _ | .vabs _ | .vneg _ | .vmin _ | .vmax _ | .vcpys _ | .vcmp _
  | .viadd _ | .visub _ | .vimul _ | .vimulh _ | .vand _ | .vor _ | .vxor _ | .vandn _ | .vimin _ | .vimax _
  | .viabs _ _ _ _ _ | .vshl _ | .vshr _ | .vsar _ | .vrot _ | .vicmp _ | .vcvt _ | .vftoi _ | .vitof _
  | .vqnt _ | .vdqnt _ | .vpack _ _ _ _ _ _ | .vunpk _ _ _ _ _ | .vrndt _ _ | .vrndh _ _ _ _ | .vmix _ _ _ _
  | .vperm _ _ _ _ _ | .vbcast _ _ _ _ | .vextl _ _ _ _ _ | .vinsl _ _ _ _ _ | .vrotl _ _ _ _ _
  | .vmov _ _ _ _ | .vsel _ _ _ _ _ | .vredAdd _ _ _ _ _ | .vredMin _ _ _ _ | .vredMax _ _ _ _
  | .vredAnd _ _ _ _ | .vredOr _ _ _ _ | .vredXor _ _ _ _ | .vpfx _ _ _ _ _
  | .mand _ _ _ | .mor _ _ _ | .mxor _ _ _ | .mnot _ _ | .mpopc _ _ => true
  | _ => false

end Sys2Proof
end

