-- ==== Sys2Proof/Machine/Float.lean ====
section
/-!
DEFINITION. Number formats and exact arithmetic (R229 to R240): decoding, one rounding of an exact result, the
special values, conversions and saturation.
-/

namespace Sys2Proof.Machine

/-! ## Flags (R148) -/

def fIV : BitVec 8 := 1
def fDZ : BitVec 8 := 2
def fOF : BitVec 8 := 4
def fUF : BitVec 8 := 8
def fNX : BitVec 8 := 16
def fSAT : BitVec 8 := 32
def fGFL : BitVec 8 := 64

/-! ## Formats (R229) -/

/-- A floating-point format with an exponent range. -/
structure Fmt where
  width : Nat
  ebits : Nat
  mbits : Nat
  bias  : Nat
  inf   : Bool
  nan   : Nat
  ieee  : Bool
deriving DecidableEq, Repr

def F32 : Fmt := ⟨32, 8, 23, 127, true, 0x7FC00000, true⟩
def BF16 : Fmt := ⟨16, 8, 7, 127, true, 0x7FC0, true⟩
def F16 : Fmt := ⟨16, 5, 10, 15, true, 0x7E00, true⟩
def E5M2 : Fmt := ⟨8, 5, 2, 15, true, 0x7E, false⟩
def E4M3 : Fmt := ⟨8, 4, 3, 7, false, 0x7F, false⟩

/-- The format of a vector type; integer types and E2M1 have none here. -/
def fmtOf : VType → Fmt
  | .f32 => F32 | .bf16 => BF16 | .f16 => F16 | .e4m3 => E4M3 | .e5m2 => E5M2
  | .e2m1 | .i64 | .i32 | .i16 | .i8 | .n64 | .n32 | .n16 | .n8 => F32

/-- The block format codes of R232 to R234. -/
def codeFmt : Nat → Option Fmt
  | 1 => some F32 | 2 => some BF16 | 3 => some F16 | 4 => some E4M3 | 5 => some E5M2 | _ => none

def Fmt.sign (f : Fmt) (x : Nat) : Bool := (x / 2 ^ (f.width - 1)) % 2 == 1
def Fmt.exp (f : Fmt) (x : Nat) : Nat := x / 2 ^ f.mbits % 2 ^ f.ebits
def Fmt.man (f : Fmt) (x : Nat) : Nat := x % 2 ^ f.mbits

/-- The encoding of a sign and magnitude. -/
def Fmt.pack (f : Fmt) (neg : Bool) (mag : Nat) : Nat := (if neg then 2 ^ (f.width - 1) else 0) + mag

/-- The magnitude code of the largest finite value (R229). -/
def Fmt.maxMag (f : Fmt) : Nat := if f.inf then (2 ^ f.ebits - 1) * 2 ^ f.mbits - 1 else 2 ^ (f.ebits + f.mbits) - 2
def Fmt.infMag (f : Fmt) : Nat := (2 ^ f.ebits - 1) * 2 ^ f.mbits

/-! ## Values -/

/-- A decoded value: a finite one is (−1)^neg × m × 2^e. -/
inductive FVal where
  | nan
  | inf (neg : Bool)
  | fin (neg : Bool) (m : Nat) (e : Int)
deriving DecidableEq, Repr

/-- Decoding by R229 and R231; with FTZ a subnormal F32, BF16 or F16 reads as zero of its sign (R237). -/
def Fmt.dec (f : Fmt) (ftz : Bool) (x : Nat) : FVal :=
  let x := x % 2 ^ f.width
  let n := f.sign x
  let e := f.exp x
  let m := f.man x
  if f.inf ∧ e = 2 ^ f.ebits - 1 then (if m = 0 then .inf n else .nan)
  else if ¬ f.inf ∧ e = 2 ^ f.ebits - 1 ∧ m = 2 ^ f.mbits - 1 then .nan
  else if e = 0 then
    if ftz && f.ieee then .fin n 0 0 else .fin n m (1 - (f.bias : Int) - f.mbits)
  else .fin n (2 ^ f.mbits + m) ((e : Int) - f.bias - f.mbits)

/-- An exact result before rounding: a nonzero one is (−1)^neg × num / den × 2^e. -/
inductive Exact where
  | nan (fl : BitVec 8)
  | inf (neg : Bool) (fl : BitVec 8)
  | zero (neg : Bool)
  | mag (neg : Bool) (num den : Nat) (e : Int)
deriving DecidableEq, Repr

/-- A finite dyadic as an exact result. -/
def exactOf (neg : Bool) (m : Nat) (e : Int) : Exact := if m = 0 then .zero neg else .mag neg m 1 e

def FVal.exact : FVal → Exact
  | .nan => .nan 0
  | .inf n => .inf n 0
  | .fin n m e => exactOf n m e

/-- Rounding modes: 0 RNE, 1 RZ, 2 RUP, 3 RDN, 4 SR (R147, R235). -/
abbrev Mode := Nat

/-! ## Rounding to a quantum (R235) -/

/-- floor(log2(num / den)) for positive num and den. -/
def ilog (num den : Nat) : Int :=
  let k : Int := (Nat.log2 num : Int) - Nat.log2 den
  let lo := if 0 ≤ k then decide (den * 2 ^ k.toNat ≤ num) else decide (den ≤ num * 2 ^ (-k).toNat)
  if lo then k else k - 1

/-- num / den × 2^k as an integer part with what remains as a fraction r / d. -/
def scaled (num den : Nat) (k : Int) : Nat × Nat × Nat :=
  let n := if 0 ≤ k then num * 2 ^ k.toNat else num
  let d := if 0 ≤ k then den else den * 2 ^ (-k).toNat
  (n / d, n % d, d)

/-- Whether the magnitude goes up to the next multiple: q the integer part, r / d the fraction, D the dither draw. -/
def goesUp (mode : Mode) (neg : Bool) (q r d : Nat) (draw : Nat) : Bool :=
  if r = 0 then false
  else if mode = 0 then d < 2 * r || (d == 2 * r && q % 2 == 1)
  else if mode = 1 then false
  else if mode = 2 then !neg
  else if mode = 3 then neg
  else draw < r * 65536 / d

/-- A magnitude rounded to a multiple of 2^quantum: the multiple, and whether it is inexact. -/
def roundTo (mode : Mode) (neg : Bool) (num den : Nat) (e quantum : Int) (draw : Nat) : Nat × Bool :=
  match scaled num den (e - quantum) with
  | (q, r, d) => (if goesUp mode neg q r d draw then q + 1 else q, r != 0)

/-- How an overflow is delivered. -/
inductive Over where
  /-- arithmetic results (R237, R361) -/
  | arith
  /-- conversions that saturate (R238) -/
  | sat
  /-- conversions under .nsat (R238) -/
  | nsat
deriving DecidableEq, Repr

/-- The overflow result of R237: infinity or the largest finite value by the mode. -/
def overMag (f : Fmt) (mode : Mode) (neg : Bool) : Nat :=
  if mode = 0 ∨ mode = 4 ∨ (mode = 2 ∧ ¬ neg) ∨ (mode = 3 ∧ neg) then f.infMag else f.maxMag

/-- A result code with the flags it raises. -/
abbrev Res8 := Nat × BitVec 8

/-- Overflow of a finite result (R237, R238, R361). -/
def overflow (f : Fmt) (mode : Mode) (how : Over) (neg : Bool) : Res8 :=
  if f.inf then
    match how with
    | .sat => (f.pack neg f.maxMag, fOF ||| fNX ||| fSAT)
    | .arith | .nsat => (f.pack neg (overMag f mode neg), fOF ||| fNX)
  else
    match how with
    | .sat | .arith => (f.pack neg f.maxMag, fOF ||| fNX ||| fSAT)
    | .nsat => (f.nan, fOF ||| fNX)

/-- An infinite exact result (R237, R238). -/
def infResult (f : Fmt) (how : Over) (neg : Bool) (fl : BitVec 8) : Res8 :=
  match how with
  | .arith => if f.inf then (f.pack neg f.infMag, fl) else (f.pack neg f.maxMag, fl ||| fNX ||| fSAT)
  | .sat => (f.pack neg f.maxMag, fl ||| fNX ||| fSAT)
  | .nsat => if f.inf then (f.pack neg f.infMag, fl) else (f.nan, fl ||| fIV)

/-- One rounding of an exact result to a format (R235, R237). -/
def Fmt.round (f : Fmt) (mode : Mode) (ftz : Bool) (how : Over) (draw : Nat) (x : Exact) : Res8 :=
  match x with
  | .nan fl => (f.nan, fl)
  | .inf n fl => infResult f how n fl
  | .zero n => (f.pack n 0, 0)
  | .mag neg num den e =>
    let top := ilog num den + e
    let minQ : Int := 1 - (f.bias : Int) - f.mbits
    let wide := roundTo mode neg num den e (top - f.mbits) draw
    -- the magnitude rounded with an unbounded exponent, as a code of the format extended upward
    let big : Bool :=
      let t : Int := if wide.1 = 2 ^ (f.mbits + 1) then top + 1 else top
      let m := if wide.1 = 2 ^ (f.mbits + 1) then 2 ^ f.mbits else wide.1
      let code := (t + f.bias) * (2 ^ f.mbits : Nat) + ((m : Int) - (2 ^ f.mbits : Nat))
      decide (1 ≤ t + f.bias) && decide ((f.maxMag : Int) < code)
    if big then overflow f mode how neg
    else
      let q := if top - f.mbits < minQ then minQ else top - f.mbits
      let r := roundTo mode neg num den e q draw
      let code : Nat := ((q - minQ) * (2 ^ f.mbits : Nat)).toNat + r.1
      let tiny : Bool := decide ((if wide.1 = 2 ^ (f.mbits + 1) then top + 1 else top) < 1 - (f.bias : Int))
      if ftz && f.ieee && code != 0 && code < 2 ^ f.mbits then (f.pack neg 0, fUF ||| fNX)
      else
        (f.pack neg code, (if tiny && r.2 then fUF else 0) ||| (if r.2 then fNX else 0))

/-! ## Exact operations (R239) -/

/-- The signed integer of a dyadic at a common exponent. -/
def atExp (neg : Bool) (m : Nat) (e lo : Int) : Int :=
  let v : Int := (m * 2 ^ (e - lo).toNat : Nat)
  if neg then -v else v

/-- A sum of two finite values; an exact zero is +0, or −0 under RDN, unless both addends are zeros of one sign, which
keep it (R239 names no sign for these; log 23, DEDUCED). -/
def addFin (mode : Mode) (n1 : Bool) (m1 : Nat) (e1 : Int) (n2 : Bool) (m2 : Nat) (e2 : Int) : Exact :=
  if m1 = 0 ∧ m2 = 0 then .zero (if n1 = n2 then n1 else mode == 3)
  else
    let lo := if e1 < e2 then e1 else e2
    let v := atExp n1 m1 e1 lo + atExp n2 m2 e2 lo
    if v = 0 then .zero (mode == 3) else .mag (decide (v < 0)) v.natAbs 1 lo

def addE (mode : Mode) (a b : FVal) : Exact :=
  match a, b with
  | .nan, _ => .nan 0
  | _, .nan => .nan 0
  | .inf x, .inf y => if x = y then .inf x 0 else .nan fIV
  | .inf x, .fin _ _ _ => .inf x 0
  | .fin _ _ _, .inf y => .inf y 0
  | .fin n1 m1 e1, .fin n2 m2 e2 => addFin mode n1 m1 e1 n2 m2 e2

def FVal.neg : FVal → FVal
  | .nan => .nan
  | .inf n => .inf !n
  | .fin n m e => .fin (!n) m e

def subE (mode : Mode) (a b : FVal) : Exact := addE mode a b.neg

/-- A product as a value; an invalid one is none. -/
def mulV (a b : FVal) : Option FVal :=
  match a, b with
  | .nan, _ => some .nan
  | _, .nan => some .nan
  | .inf x, .inf y => some (.inf (x != y))
  | .inf x, .fin y m _ => if m = 0 then none else some (.inf (x != y))
  | .fin x m _, .inf y => if m = 0 then none else some (.inf (x != y))
  | .fin x m e, .fin y k g => some (.fin (x != y) (m * k) (e + g))

def mulE (a b : FVal) : Exact :=
  match mulV a b with
  | none => .nan fIV
  | some v => v.exact

/-- A zero sum of a multiply and add is +0, or −0 under RDN, whatever the signs of its zeros (R362). -/
def zeroSum (mode : Mode) : Exact → Exact
  | .zero _ => .zero (mode == 3)
  | .nan fl => .nan fl
  | .inf n fl => .inf n fl
  | .mag neg num den e => .mag neg num den e

/-- a × b + d, exact; 0 × ∞ gives IV whatever the addend (R362). -/
def fmaE (mode : Mode) (a b d : FVal) : Exact :=
  match mulV a b with
  | none => .nan fIV
  | some p => zeroSum mode (addE mode p d)

/-- A quotient (R239). -/
def divE (a b : FVal) : Exact :=
  match a, b with
  | .nan, _ => .nan 0
  | _, .nan => .nan 0
  | .inf _, .inf _ => .nan fIV
  | .inf x, .fin y _ _ => .inf (x != y) 0
  | .fin x _ _, .inf y => .zero (x != y)
  | .fin x m e, .fin y k g =>
    if k = 0 then (if m = 0 then .nan fIV else .inf (x != y) fDZ)
    else if m = 0 then .zero (x != y)
    else .mag (x != y) m k (e - g)

/-- The integer square root, one bit at a time from bit k - 1 down. -/
def isqrtGo (n : Nat) : Nat → Nat → Nat
  | 0, r => r
  | k + 1, r => isqrtGo n k (if (r + 2 ^ k) * (r + 2 ^ k) ≤ n then r + 2 ^ k else r)

def isqrt (n : Nat) : Nat := isqrtGo n (Nat.log2 n / 2 + 1) 0

/-- A square root: s bits are kept below the result's unit, enough for every mode, with a sticky half where the root
is inexact (R240). -/
def rootMag (num den : Nat) (e : Int) : Exact :=
  -- value num/den × 2^e, e made even
  let odd := e % 2 ≠ 0
  let num := if odd then num * 2 else num
  let e := if odd then e - 1 else e
  let s : Nat := 256
  let r := isqrt (num * 2 ^ (2 * s) / den)
  let exact := r * r * den == num * 2 ^ (2 * s)
  if exact then .mag false r 1 (e / 2 - s) else .mag false (2 * r + 1) 1 (e / 2 - s - 1)

def sqrtE (a : FVal) : Exact :=
  match a with
  | .nan => .nan 0
  | .inf n => if n then .nan fIV else .inf false 0
  | .fin n m e => if m = 0 then .zero n else if n then .nan fIV else rootMag m 1 e

def rsqE (a : FVal) : Exact :=
  match a with
  | .nan => .nan 0
  | .inf n => if n then .nan fIV else .zero false
  | .fin n m e => if m = 0 then .inf n fDZ else if n then .nan fIV else rootMag 1 m (-e)

def rcpE (a : FVal) : Exact :=
  match a with
  | .nan => .nan 0
  | .inf n => .zero n
  | .fin n m e => if m = 0 then .inf n fDZ else .mag n 1 m (-e)

/-! ## Comparison (R239, R364, R365) -/

/-- Less-than on values that are not NaN; zeros of both signs are equal. -/
def ltV (a b : FVal) : Bool :=
  match a, b with
  | .nan, _ => false
  | _, .nan => false
  | .inf x, .inf y => x && !y
  | .inf x, .fin _ _ _ => x
  | .fin _ _ _, .inf y => !y
  | .fin n m e, .fin k l g =>
    let lo := if e < g then e else g
    decide (atExp n m e lo < atExp k l g lo)

def FVal.isNan : FVal → Bool
  | .nan => true
  | .inf _ | .fin _ _ _ => false

def FVal.isZero : FVal → Bool
  | .fin _ m _ => m == 0
  | .nan | .inf _ => false

def FVal.isNeg : FVal → Bool
  | .fin n _ _ => n
  | .inf n => n
  | .nan => false

/-- The lesser and greater values; −0 lies below +0 (R239). -/
def minV (a b : FVal) : FVal :=
  if a.isNan || b.isNan then .nan
  else if a.isZero && b.isZero then (if a.isNeg then a else b)
  else if ltV b a then b else a

def maxV (a b : FVal) : FVal :=
  if a.isNan || b.isNan then .nan
  else if a.isZero && b.isZero then (if a.isNeg then b else a)
  else if ltV a b then b else a

/-- A value of the format itself, encoded without rounding. -/
def Fmt.enc (f : Fmt) (v : FVal) : Nat := (f.round 0 false .arith 0 v.exact).1

/-! ## E2M1 and scaled blocks (R230, R232 to R235, R238) -/

/-- The magnitude of E2M1 codes 0 to 7, in halves. -/
def e2mag (c : Nat) : Nat :=
  match c % 8 with
  | 0 => 0 | 1 => 1 | 2 => 2 | 3 => 3 | 4 => 4 | 5 => 6 | 6 => 8 | _ => 12

/-- The special magnitudes of R233, in quarters. -/
def e2special (sp : Nat) : Nat :=
  match sp % 8 with
  | 1 => 32 | 2 => 48 | 3 => 64 | 4 => 96 | 5 => 1 | 6 => 10 | 7 => 20 | _ => 0

/-- The value of an E2M1 code under a special code (R230, R233). -/
def e2dec (sp c : Nat) : FVal :=
  if c % 16 = 8 ∧ sp % 8 ≠ 0 then .fin (sp % 16 / 8 == 1) (e2special sp) (-2)
  else .fin (c % 16 / 8 == 1) (e2mag c) (-1)

/-- Element width of a block format; raw and reserved formats have none. -/
def blkWidth : Nat → Nat
  | 1 => 32 | 2 => 16 | 3 => 16 | 4 => 8 | 5 => 8 | 6 => 4 | 7 => 8 | _ => 8

/-- What R234 finds in a descriptor that an operation interprets. -/
inductive DescChk where
  | ok | desc | poison
deriving DecidableEq, Repr

def checkDesc (d : Nat) : DescChk :=
  let f := d / 4096 % 16
  let sp := d / 256 % 16
  let sc := d % 256
  if f = 15 then .poison
  else if f = 0 ∨ 8 ≤ f then .desc
  else if (f = 1 ∨ f = 2 ∨ f = 3) ∧ (sc ≠ 127 ∨ sp ≠ 0) then .desc
  else if (f = 4 ∨ f = 5 ∨ f = 7) ∧ sp ≠ 0 then .desc
  else if f = 6 ∧ sp = 8 then .desc
  else .ok

/-- Multiply by a power of two. -/
def FVal.scale (v : FVal) (k : Int) : FVal :=
  match v with
  | .fin n m e => .fin n m (e + k)
  | .nan => .nan
  | .inf n => .inf n

/-- The value of an element code of a described block (R232); FTZ reads subnormal F32, BF16 and F16 as zero. -/
def blkDec (d : Nat) (ftz : Bool) (c : Nat) : FVal :=
  let f := d / 4096 % 16
  let sc := d % 256
  if sc = 255 then .nan
  else
    let x := if f = 6 then e2dec (d / 256) c
      else if f = 7 then
        (if c % 256 < 128 then .fin false (c % 256) 0 else .fin true (256 - c % 256) 0)
      else match codeFmt f with
        | some g => g.dec ftz c
        | none => .nan
    x.scale ((sc : Int) - 127)

/-- The candidates of an E2M1 block in quarters, ascending, with their codes (R235): the fifteen values other than
−0, and the special value in its place. -/
def e2cands (sp : Nat) : List (Int × Nat) :=
  let base : List (Int × Nat) := [(-24, 15), (-16, 14), (-12, 13), (-8, 12), (-6, 11), (-4, 10), (-2, 9),
    (0, 0), (2, 1), (4, 2), (6, 3), (8, 4), (12, 5), (16, 6), (24, 7)]
  if sp % 8 = 0 then base
  else
    let v : Int := if sp % 16 / 8 = 1 then -(e2special sp : Int) else e2special sp
    let base := base.filter (fun p => p.1 != v || v == 0)
    base.filter (·.1 < v) ++ [(v, 8)] ++ base.filter (v < ·.1)

/-- The exact value of a candidate against num/den × 2^e of a sign: −1, 0 or 1 as the candidate is below, equal or
above. -/
def cmpQuarter (c : Int) (neg : Bool) (num den : Nat) (e : Int) : Ordering :=
  -- compare c/4 with ±num/den × 2^e
  let k := e + 2
  let l : Int := if 0 ≤ k then c * den else c * den * (2 ^ (-k).toNat : Nat)
  let r : Int := if 0 ≤ k then ((num * 2 ^ k.toNat : Nat) : Int) else (num : Int)
  compare l (if neg then -r else r)

/-- Round to E2M1 by the candidate set of the block (R235, R238): code and flags. A value beyond the block's largest
magnitude of the sign saturates to it and raises SAT (R281). OF and UF are judged by the value rounded to E2M1's two
significant bits with an unbounded exponent (R237): above the block's largest magnitude of the sign it overflows, below
the smallest normal, 1, an inexact result raises UF (log 23, DEDUCED). -/
def e2round (mode : Mode) (draw : Nat) (sp : Nat) (x : Exact) : Res8 :=
  let cs := e2cands sp
  let big (neg : Bool) : Nat := if neg then ((cs.head?).getD (0, 0)).2 else ((cs.getLast?).getD (0, 0)).2
  match x with
  | .nan fl => (0, fl ||| fIV)
  | .inf neg _ => (big neg, fSAT ||| fNX)
  | .zero _ => (0, 0)
  | .mag neg num den e =>
    let wide := (roundTo mode neg num den e (ilog num den + e - 1) draw).1
    let wideExp := ilog num den + e - 1
    let top : Nat := if neg then ((cs.head?).getD (0, 0)).1.natAbs else ((cs.getLast?).getD (0, 0)).1.natAbs
    match cs.find? (fun p => cmpQuarter p.1 neg num den e == .eq) with
    | some p => (p.2, 0)
    | none =>
      let below := (cs.filter (fun p => cmpQuarter p.1 neg num den e == .lt)).getLast?
      let above := (cs.filter (fun p => cmpQuarter p.1 neg num den e == .gt)).head?
      match below, above with
      | some lo, some hi =>
        -- a the neighbour of lesser magnitude, b the greater; distances in quarters × den × 2^-e
        let a := if neg then hi else lo
        let b := if neg then lo else hi
        let k := e + 2
        let den' : Nat := if 0 ≤ k then den else den * 2 ^ (-k).toNat
        let num' : Nat := if 0 ≤ k then num * 2 ^ k.toNat else num
        let r := num' - a.1.natAbs * den'
        let d := (b.1.natAbs - a.1.natAbs) * den'
        let up := if mode = 0 then d < 2 * r || (d == 2 * r && a.2 % 2 == 1) else goesUp mode neg 0 r d draw
        let q := if up then b else a
        (q.2, if cmpQuarter 4 false wide 1 wideExp == .gt then fUF ||| fNX else fNX)
      | _, _ =>
        (big neg, if cmpQuarter top false wide 1 wideExp == .lt then fOF ||| fNX ||| fSAT else fNX ||| fSAT)

/-- Round to a scaled I8 element (R238). -/
def i8round (mode : Mode) (draw : Nat) (x : Exact) : Res8 :=
  match x with
  | .nan fl => (0, fl ||| fIV)
  | .inf neg _ => ((if neg then 0x80 else 0x7F), fSAT ||| fNX)
  | .zero _ => (0, 0)
  | .mag neg num den e =>
    let r := roundTo mode neg num den e 0 draw
    if (neg && 128 < r.1) || (!neg && 127 < r.1) then ((if neg then 0x80 else 0x7F), fOF ||| fNX ||| fSAT)
    else ((if neg then (256 - r.1) % 256 else r.1), if r.2 then fNX else 0)

/-- Round to an integer format of w bits (R238). -/
def intRound (mode : Mode) (draw : Nat) (sgn : Bool) (w : Nat) (x : Exact) : Res8 :=
  let hi : Nat := if sgn then 2 ^ (w - 1) - 1 else 2 ^ w - 1
  let lo : Nat := if sgn then 2 ^ (w - 1) else 0
  match x with
  | .nan _ => (0, fIV)
  | .inf neg _ => ((if neg then (2 ^ w - lo) % 2 ^ w else hi), fSAT ||| fIV ||| fNX)
  | .zero _ => (0, 0)
  | .mag neg num den e =>
    let r := roundTo mode neg num den e 0 draw
    if neg && lo < r.1 then ((2 ^ w - lo) % 2 ^ w, fSAT ||| fIV ||| fNX)
    else if !neg && hi < r.1 then (hi, fSAT ||| fIV ||| fNX)
    else ((if neg then (2 ^ w - r.1) % 2 ^ w else r.1), if r.2 then fNX else 0)

/-- An integer as an exact value. -/
def ofInt (v : Int) : Exact := if v = 0 then .zero false else .mag (decide (v < 0)) v.natAbs 1 0

/-- One node of an F32 sum rounded RNE without flags, as AMO.fadd forms it (R342). -/
def fadd32 (a b : Nat) : Nat := (F32.round 0 false .arith 0 (addE 0 (F32.dec false a) (F32.dec false b))).1

end Sys2Proof.Machine
end

