-- ==== Sys2Proof/Machine/Ops.lean ====
section
/-!
DEFINITION. Taking an exception and the return from one (R120 to R126), the checks of an access (R330, R332, R154),
release and acquire (R197), and a bundle's retirement (R120, R145, R162).
-/

namespace Sys2Proof.Machine

/-! ## Causes (R122) -/

namespace Cause
def ienc : Nat := 0x01
def regw : Nat := 0x02
def align : Nat := 0x03
def xlat : Nat := 0x04
def prot : Nat := 0x05
def fewait : Nat := 0x06
def mwait : Nat := 0x07
def pstref : Nat := 0x08
def jobf : Nat := 0x09
def bstale : Nat := 0x0A
def strm : Nat := 0x0B
def slcoll : Nat := 0x0C
def slref : Nat := 0x0D
def desc : Nat := 0x0E
def poison : Nat := 0x0F
def plumb : Nat := 0x10
def fpx : Nat := 0x11
def idz : Nat := 0x12
def qerr : Nat := 0x13
def watch : Nat := 0x14
def migfwd : Nat := 0x15
def lkf : Nat := 0x16
end Cause

/-- Access kinds (R122, note a). -/
inductive AccKind where
  | load | store | fetch | atomic | engine | copy | stream
deriving DecidableEq, Repr

def AccKind.code : AccKind → Nat
  | .load => 0 | .store => 1 | .fetch => 2 | .atomic => 3 | .engine => 4 | .copy => 5 | .stream => 6

/-- What a bundle met: the cause and the fields of its record. -/
structure TrapInfo where
  cause : Nat
  info  : Word
  va    : Word
  pos   : Word
  spec  : Word
  known : Bool
  applied : Bool
  item  : Item
deriving DecidableEq, Repr

def mkTrap (cause info : Nat) (va : Word) : TrapInfo :=
  ⟨cause, BitVec.ofNat 64 info, va, 0, 0, true, false, .none⟩

def protInfo (k : AccKind) (reason : Nat) : Nat := k.code * 2 ^ 13 + reason * 2 ^ 16

def protTrap (k : AccKind) (reason : Nat) (va : Word) : TrapInfo := mkTrap Cause.prot (protInfo k reason) va

/-- The lower of two causes; of equal ones the first (R120). -/
def lowest (a b : Option TrapInfo) : Option TrapInfo :=
  match a, b with
  | some x, some y => if y.cause < x.cause then some y else some x
  | some x, none => some x
  | none, y => y

def lowestOf (l : List (Option TrapInfo)) : Option TrapInfo := l.foldl lowest none

/-! ## Taking an exception (R120 to R124) -/

/-- Consecutive replays of this bundle for this cause so far (R123, R124). -/
def replays (t : Thread) (pc : Word) (cause : Nat) : Nat :=
  if t.replPc = pc ∧ t.replCause = cause then t.replN else 0

/-- The record of a trap (R123): %skim.GEN, the replay count and the owner's next SEQ go in; no absolute place does. -/
def recordOf (w : Owner) (t : Thread) (ti : TrapInfo) (pc : Word) (async vhalf : Bool) : TrapRec where
  cause := ti.cause
  action := 0
  async := async
  known := ti.known
  applied := ti.applied
  vhalf := vhalf
  plumb := w.plumb
  tid := t.tid
  pc := pc
  va := ti.va
  info := ti.info
  pos := ti.pos
  spec := ti.spec
  gen := w.gen
  repl := Nat.min (replays t pc ti.cause) 0xFFFF
  seq := w.trapSeq + 1

/-- A JOBF for a job whose gain floor replaced a value at a committed chunk ORs GFL into the %stat of its submitter,
whichever thread meets it (R260). -/
def raiseGfl (s : State) (o : Nat) (ti : TrapInfo) : State :=
  match ti.item with
  | .job k id =>
    if ti.cause = Cause.jobf then
      match (core? s o k).bind (fun c => c.jobs.find? (·.id == id)) with
      | some b => if b.gfl && !b.orphan then onThr s o b.tid (fun t => { t with stat := t.stat ||| 0x40 }) else s
      | none => s
    else s
  | .none | .journal _ _ => s

/-- Take a trap: the record goes to the scheduler, the thread stops with nothing of its bundle retired, and the
owner's trap count rises by one. `len` is bits [1:0] of the bundle where it has a readable length (R126). -/
def takeTrap (s : State) (o tid : Nat) (ti : TrapInfo) (pc : Word) (len : Option Nat) (async vhalf : Bool) : State :=
  let s := raiseGfl s o ti
  match owner? s o, thr? s o tid with
  | some w, some t =>
    let rec' := recordOf w t ti pc async vhalf
    let t' := { t with status := .trapped, kept := some ⟨rec', len, ti.item⟩, pend := none, wcount := none, walks := [],
                       turn := none, got := [] }
    { s with owners := put s.owners o { w with trapSeq := w.trapSeq + 1 },
             threads := put s.threads (thrKey o tid) t' }
  | _, _ => s

/-- The bundle after a trapped one (R126): 8, 12 or 16 bytes on. -/
def skipBytes (len : Nat) : Nat := if len = 0 then 8 else if len = 1 then 12 else 16

/-- Return from an exception to the trapped bundle itself: it is issued again (R124, R126). -/
def returnReplay (t : Thread) : Thread :=
  match t.kept with
  | some k =>
    let n := replays t k.trap.pc k.trap.cause + 1
    { t with status := .ready, kept := none, pc := k.trap.pc,
             replPc := k.trap.pc, replCause := k.trap.cause, replN := n }
  | none => t

/-- Return from an exception past the trapped bundle; after an asynchronous trap, at it (R126). -/
def returnSkip (t : Thread) : Thread :=
  match t.kept with
  | some k =>
    let pc := if k.trap.async then k.trap.pc
      else k.trap.pc + BitVec.ofNat 64 (skipBytes (k.len.getD 0))
    { t with status := .ready, kept := none, pc := pc, replN := 0, inW := if k.trap.async then t.inW else none }
  | none => t

/-! ## Effective addresses (R295) -/

def offWord : Off → Word
  | .o16 v => v.signExtend 64
  | .o48 v => v.signExtend 64

def ea (s : State) (t : Thread) (a : Addr) : Word :=
  readG s t a.base + (readG s t a.idx <<< a.scl.toNat) + offWord a.off

def ea3 (s : State) (t : Thread) (m : M3) : Word := readG s t m.base + offWord m.off

def eaE (s : State) (t : Thread) (e : EAddr) : Word := readG s t e.a + e.off.signExtend 64

/-! ## Checks of an access (R330) -/

/-- Instruction classes of the table of R332. -/
inductive Act332 where
  | ld | st | vldDesc | vstDesc | fe | amo | ldv | obj | waitc | fetch | seal | pst
deriving DecidableEq, Repr

/-- Where an access goes. -/
inductive Loc where
  | spad (j off : Nat)
  | mem (l : Leaf) (pa : Nat)
deriving DecidableEq, Repr

/-- The place of an access: scratchpad, or a page's class, range and extent; a sealed page in an EHOST extent is a place of
its own, since it stands in two columns of the table of R332. -/
inductive Site where
  | spad | ordHbm | ordHost | repl | sealed | sealedHost | device | ehost
deriving DecidableEq, Repr

def siteOf (w : Owner) : Loc → Site
  | .spad _ _ => .spad
  | .mem l pa =>
    if l.cls = 1 then .repl
    else if l.cls = 2 then (if isEHost w pa then .sealedHost else .sealed)
    else if l.cls = 4 then .device
    else if rangeOf pa == .host then .ordHost
    else if isEHost w pa then .ehost
    else .ordHbm

/-- The table of R332. -/
def allowed : Act332 → Site → Bool
  | .ld, _ => true
  | .st, .sealed | .st, .sealedHost => false
  | .st, _ => true
  | .vldDesc, .ordHbm | .vldDesc, .sealed | .vldDesc, .sealedHost | .vldDesc, .ehost => true
  | .vldDesc, _ => false
  | .vstDesc, .ordHbm | .vstDesc, .ehost => true
  | .vstDesc, _ => false
  | .fe, .spad | .fe, .ordHbm => true
  | .fe, _ => false
  | .amo, .spad | .amo, .ordHbm | .amo, .ehost => true
  | .amo, _ => false
  | .ldv, .ordHbm => true
  | .ldv, _ => false
  | .obj, .ordHbm | .obj, .ehost => true
  | .obj, _ => false
  | .waitc, .spad | .waitc, .ordHbm | .waitc, .sealed => true
  | .waitc, _ => false
  | .fetch, .spad => false
  | .fetch, _ => true
  | .seal, .sealed | .seal, .sealedHost => true
  | .seal, _ => false
  | .pst, .spad => true
  | .pst, _ => false

/-- The outcome of the checks of one access. -/
inductive Chk where
  | ok (l : Loc)
  | miss (page : Nat)
  | bad (t : TrapInfo)
deriving DecidableEq, Repr

/-- Whether an access kind needs W (R43). -/
def AccKind.writes : AccKind → Bool
  | .store | .atomic => true
  | .load | .fetch | .engine | .copy | .stream => false

/-- Permissions of a leaf and the place's rule, in the order walk, save class, W, X, place, FE = 0 (R43, R44, R159,
R332). Log 26, DEDUCED. -/
def permit (w : Owner) (a : Act332) (k : AccKind) (wr : Bool) (va : Word) (l : Leaf) (pa : Nat) : Chk :=
  if l.cls = 3 then .bad (protTrap k 4 va)
  else if wr && !l.w then .bad (protTrap k 0 va)
  else if k == .fetch && !l.x then .bad (protTrap k 1 va)
  else if !allowed a (siteOf w (.mem l pa)) then .bad (protTrap k 6 va)
  else if a == .fe && !l.fe then .bad (protTrap k 2 va)
  else .ok (.mem l pa)

/-- A walk's outcome as the outcome of an access (R122). -/
def ofWalk (w : Owner) (a : Act332) (k : AccKind) (wr : Bool) (va : Word) : WalkOut → Chk
  | .leaf l => permit w a k wr va l (l.pa + va.toNat % 65536)
  | .xlat level entry => .bad (mkTrap Cause.xlat (level + entry * 4 + k.code * 2 ^ 13) va)
  | .prot reason => .bad (protTrap k reason va)

/-- Whether a byte lies in a core's scratchpad (R157). -/
def spadHas (s : State) (o j off : Nat) : Bool :=
  match core? s o j with
  | some c => off < spadSize c
  | none => false

/-- Translation, permission and place of an n-byte access by a thread on core j (R41 to R44, R157, R158, R332). A
scratchpad of the thread's own core is checked here, another core's at that core (R330). -/
def locate (s : State) (w : Owner) (t : Thread) (a : Act332) (k : AccKind) (wr : Bool) (va : Word) (n : Nat) : Chk :=
  if va.extractLsb' 57 7 != 0 then .bad (protTrap k 2 va)
  else if isSpadVa va.toNat then
    match spadVa w (tidCore t.tid) va.toNat with
    | none => .bad (protTrap k 2 va)
    | some (j, off) =>
        if k == .fetch then .bad (protTrap k (if spadHas s t.o j off then 6 else 2) va)
        else if !allowed a .spad then .bad (protTrap k 6 va)
        else if j = t.core then
          match core? s t.o j with
          | some c => if spadSize c < off + n || inShadow c off n then .bad (protTrap k 2 va) else .ok (.spad j off)
          | none => .bad (protTrap k 2 va)
        else .ok (.spad j off)
  else
    match lookupPage s t (va.toNat / 65536) with
    | none => .miss (va.toNat / 65536)
    | some out => ofWalk w a k wr va out

/-- The lowest watchpoint that an access matches (R154). -/
def watchHit (t : Thread) (va n : Nat) (loads stores : Bool) : Option Nat :=
  (List.range 4).find? (fun i =>
    let v := getD 0 t.wp i
    let kind := (v.extractLsb' 60 2).toNat
    let len := 2 ^ (v.extractLsb' 57 3).toNat
    let base := (v.extractLsb' 0 57).toNat / len * len
    (((kind % 2 == 1) && loads) || ((2 ≤ kind) && stores)) && base < va + n && va < base + len)

/-- Whether an access kind counts as a load and as a store for watchpoints. -/
def AccKind.watchL : AccKind → Bool
  | .load | .atomic => true
  | .store | .fetch | .engine | .copy | .stream => false
def AccKind.watchS : AccKind → Bool
  | .store | .atomic => true
  | .load | .fetch | .engine | .copy | .stream => false

/-- Check(ea, n, k) of R330: alignment to `al` bytes, translation and place, then watchpoints. -/
def check (s : State) (w : Owner) (t : Thread) (a : Act332) (k : AccKind) (va : Word) (n al : Nat) : Chk :=
  if va.toNat % al ≠ 0 then .bad (mkTrap Cause.align (n % 256) va)
  else
    match locate s w t a k k.writes va n with
    | .ok l =>
      match watchHit t va.toNat n k.watchL k.watchS with
      | some i => .bad (mkTrap Cause.watch i va)
      | none => .ok l
    | c => c

/-! ## Scopes, release and acquire (R197, R169) -/

def scopeRank : Scope → Nat
  | .core => 0 | .clus => 1 | .die => 2 | .pkg => 3 | .sys => 4

/-- While a thread has a live redirect its narrow operations are performed at .pkg (R197). -/
def wideScope (t : Thread) (sc : Scope) : Scope := if t.redirect && scopeRank sc < 3 then .pkg else sc

def ordRel : Ord → Option Scope
  | .plain => none | .acq _ => none | .rel s => some s | .ar s => some s

def ordAcq : Ord → Option Scope
  | .plain => none | .acq s => some s | .rel _ => none | .ar s => some s

/-- The number by which a request is ordered: that of the first piece of its access (R191). -/
def Req.base (r : Req) : Nat :=
  match r.part with
  | some p => p.1
  | none => r.id

/-- Requests that count as accesses of a thread for its order: all but fetches of stream elements (R163). -/
def ReqKind.isAccess : ReqKind → Bool
  | .fetch _ _ => false
  | _ => true

/-- A posted entry of a thread created at `born` that was issued before number `id`; those of an earlier thread with its
packed id are not its own (R117). -/
def postedBefore (tid born id : Nat) (e : JEnt) : Bool := e.tid == tid && born ≤ e.after && e.after < id

/-- An access of a thread created at `born` that was asked for before number `id`. -/
def askedBefore (o tid born id : Nat) (r : Req) : Bool :=
  r.o == o && r.tid == tid && born ≤ r.base && r.base < id && r.kind.isAccess

/-- No posted entry of the thread from before number `id` is still to be acknowledged. The entries are sought in every journal
of the owner, since a thread may have migrated (R132). -/
def entriesAcked (s : State) (o tid born id : Nat) : Bool :=
  s.cores.all (fun p => p.1 / 1024 != o || p.2.journal.all (fun e => !postedBefore tid born id e))

/-- The release conditions at a scope for what a thread issued before number `id`: earlier accesses performed, earlier
posted stores acknowledged and, at .pkg or .sys, earlier replicated stores applied on every die (R187, R197). -/
def releaseOk (s : State) (o tid born : Nat) (sc : Scope) (id : Nat) : Bool :=
  s.reqs.all (fun r => !askedBefore o tid born id r) && entriesAcked s o tid born id
    && (scopeRank sc < 3 || s.rwrites.all (fun w => !(w.o == o && w.tid == tid && born ≤ w.id && w.id < id && !w.pending.isEmpty)))

/-- The release conditions for everything a thread has issued so far. Log 50, DEDUCED. -/
def releaseMet (s : State) (t : Thread) (sc : Scope) : Bool := releaseOk s t.o t.tid t.born (wideScope t sc) s.nextId

/-- In plumb mode posted accesses complete at their deadlines and not before (R179). -/
def postsDue (s : State) (t : Thread) : Bool :=
  match core? s t.o t.core with
  | some c => !plumbOf s t.o || t.relDue < c.cyc
  | none => true

/-- Whether a bundle that issues now finds the release conditions met. -/
def releaseNow (s : State) (t : Thread) (sc : Scope) : Bool := releaseMet s t sc && postsDue s t

/-- The FENCE.rel of a thread whose conditions a later store has still to wait for (R197). -/
def fencesOf (s : State) (t : Thread) : List (Nat × Scope) :=
  t.relFences.filter (fun f => !releaseOk s t.o t.tid t.born f.2 f.1)

/-- A FENCE.rel takes the place of its thread's earlier one of its scope. -/
def noteFence (t : Thread) (sc : Scope) (id : Nat) : Thread :=
  { t with fenceAt := id, relFences := (id, sc) :: t.relFences.filter (fun f => f.2 != sc) }

/-- A stream with what it has fetched discarded; an output stream fetches nothing. -/
def Stream.forget (x : Stream) : Stream := if x.out then x else { x with fetched := [], dues := [] }

/-- A stream with one more element asked for, and when it completes in plumb mode. -/
def Stream.add (x : Stream) (f : Fetched) (due : Option Nat) : Stream :=
  { x with fetched := x.fetched ++ [f], dues := x.dues ++ [due.getD 0] }

/-- Fetched elements not yet popped are discarded (R163, R197). -/
def dropFetched (t : Thread) : Thread := { t with streams := t.streams.map Stream.forget }

/-- A core's L1 is emptied, and fills that are on their way install nothing: their bytes were read, or may be read,
before what empties it (R169, R199). -/
def dropL1 (s : State) (o j : Nat) : State :=
  let s := onCore s o j (fun c => { c with l1 := [] })
  { s with reqs := s.reqs.map (fun r => if r.o = o ∧ r.core = j then { r with noFill := [(0, 2 ^ 52)] } else r),
           replies := s.replies.map (fun p => if p.o = o ∧ p.core = j then { p with fill := [], patch := [] } else p) }

/-- An acquire: at .clus or wider it empties the core's L1; it discards stream elements fetched ahead (R169, R197). -/
def acquire (s : State) (o tid : Nat) (sc : Scope) : State :=
  match thr? s o tid with
  | some t =>
    let s := if scopeRank (wideScope t sc) = 0 then s else dropL1 s o t.core
    onThr s o tid (fun t => { dropFetched t with fenceAt := s.nextId })
  | none => s

/-! ## Retiring a bundle (R120, R145, R162) -/

/-- A write of a special register (R147 to R154); %trapc and streams have operations of their own. -/
def writeSp (t : Thread) (r : BitVec 8) (v : Word) : Thread :=
  match r.toNat with
  | 0x00 => { t with fpc := v &&& 0x13F0F }
  | 0x01 => { t with stat := v &&& 0x7F }
  | 0x08 => { t with rngs0 := v }
  | 0x0A => { t with rngk := v }
  | 0x0B => { t with wlim := v.setWidth 32 }
  | 0x14 => { t with wp := setD 0 t.wp 0 (v &&& 0x3FFFFFFFFFFFFFFF) }
  | 0x15 => { t with wp := setD 0 t.wp 1 (v &&& 0x3FFFFFFFFFFFFFFF) }
  | 0x16 => { t with wp := setD 0 t.wp 2 (v &&& 0x3FFFFFFFFFFFFFFF) }
  | 0x17 => { t with wp := setD 0 t.wp 3 (v &&& 0x3FFFFFFFFFFFFFFF) }
  | _ => t

/-- Elements of a stream (R161). -/
def Stream.total (x : Stream) : Nat := x.n0 * x.n1 * x.n2

def Stream.exhausted (x : Stream) : Bool := x.pos == x.total

/-- The address of element e (R161). -/
def Stream.addr (x : Stream) (e : Nat) : Word :=
  let i0 := BitVec.ofNat 64 (e % x.n0)
  let i1 := BitVec.ofNat 64 (e / x.n0 % x.n1)
  let i2 := BitVec.ofNat 64 (e / (x.n0 * x.n1))
  (x.base + i0 * x.d0 + i1 * x.d1 + i2 * x.d2) &&& 0x1FFFFFFFFFFFFFF

def streamAt (t : Thread) (n : Nat) : Stream := t.streams.getD n Stream.empty

def setStream (t : Thread) (n : Nat) (x : Stream) : Thread :=
  { t with streams := (List.range 4).map (fun i => if i = n then x else streamAt t i) }

/-- The stream bound to a vector register (R162). -/
def boundTo (t : Thread) (v : VReg) : Option Nat :=
  (List.range 4).find? (fun i => (streamAt t i).bound == some v.toNat)

/-- One pop: the position advances by one (R162). -/
def popStream (t : Thread) (n : Nat) : Thread :=
  let x := streamAt t n
  setStream t n { x with pos := x.pos + 1, fetched := x.fetched.drop 1, dues := x.dues.drop 1 }

/-- A store issues: the L1 copy of its bytes is updated, and fills of its sectors already on their way install nothing
(R169, R193). -/
def storeIssue (s : State) (o core : Nat) (pa : Nat) (bs : List (Byte × Bool)) : State :=
  let n := bs.length
  let hit := fun a => pa / 64 ≤ a / 64 && a / 64 ≤ (pa + n - 1) / 64
  let s := onCore s o core (fun c => l1Store c pa bs)
  { s with reqs := s.reqs.map (fun r =>
             if r.o = o ∧ r.core = core then { r with noFill := (pa, n) :: r.noFill } else r),
           replies := s.replies.map (fun p =>
             if p.o = o ∧ p.core = core then
               { p with fill := p.fill.filter (fun f => !hit f.1),
                        patch := p.patch.filter (fun x => !(pa ≤ x.1 && x.1 < pa + n)) }
             else p) }

/-- What a new access to a target keeps of its issue; only one that writes waits for FENCE.rel. -/
def issueOf (s : State) (t : Thread) (writes : Bool) (tgt : Target) : Issue :=
  ⟨t.born, if writes then fencesOf s t else [], none, netDue s t.o t.core tgt⟩

/-- One push: the store of the element is asked for, with the translation that its bundle found at issue, and the position
advances (R162). -/
def pushStream (s : State) (t : Thread) (n : Nat) (v : Vec) : State × Thread :=
  let x := streamAt t n
  let va := (x.addr x.pos).toNat
  match owner? s t.o with
  | none => (s, t)
  | some w =>
    let loc : Option Loc :=
      if isSpadVa va then (spadVa w (tidCore t.tid) va).map (fun p => .spad p.1 p.2)
      else match t.pend.bind (fun b => lookup b.leaves n), lookupPage s t (va / 65536) with
        | some l, _ | none, some (.leaf l) => some (.mem l (l.pa + va % 65536))
        | none, _ => none
    let next := { x with pos := x.pos + 1 }
    match loc with
    | none => (s, setStream t n next)
    | some loc =>
      let tgt := match loc with
        | .spad j _ => Target.scratch t.o j
        | .mem l pa => targetOf s w t.o t.core l pa
      let pa := match loc with | .spad _ off => off | .mem _ pa => pa
      let leaf := match loc with | .spad _ _ => none | .mem l _ => some l
      let r : Req := ⟨s.nextId, t.o, t.tid, t.core, .push n v, va, pa, 64, leaf, tgt, none, none, none, [], false, none, issueOf s t true tgt⟩
      let s := match leaf with
        | some _ => storeIssue s t.o t.core pa (allOn (vecBytes v))
        | none => s
      ({ s with reqs := s.reqs ++ [r], nextId := s.nextId + 1 }, (setStream t n { next with dues := r.iss.due.toList }).posts r.iss.due)

/-- The flags of R148 in %stat. -/
def orFlags (t : Thread) (f : BitVec 8) (srs : Bool) : Thread :=
  { t with stat := t.stat ||| f.setWidth 64, fpc := if srs then t.fpc ||| 0x10000 else t.fpc }

/-- The registers of a bundle: every write of both halves; a value given to %stat or %fpc is written first and what the other
half raises is ORed into it (R148). Log 95, DESIGN CHOICE. -/
def applyRegs (s : State) (o tid : Nat) (w : Wr) : State :=
  match thr? s o tid with
  | none => s
  | some t =>
    let s := w.g.foldl (fun s p => writeG s t p.1 p.2) s
    let s := w.v.foldl (fun s p => writeV s t p.1 p.2) s
    onThr s o tid (fun t =>
      let t := w.m.foldl (fun t p => writeM t p.1 p.2) t
      let t := w.sp.foldl (fun t p => writeSp t p.1 p.2) t
      orFlags t w.flags w.srs)

/-- A stream instruction's effect (R403). -/
def strmOp (t : Thread) : StrmOp → Thread
  | .cfg n base n0 n1 n2 d0 d1 d2 out ahead =>
    let x := streamAt t n
    setStream t n ⟨base, n0, n1, n2, d0, d1, d2, out, ahead, 0, none, [], if out && x.out then x.dues else []⟩
  | .bind n k =>
    let t := match boundTo t (BitVec.ofNat 5 k) with
      | some m => setStream t m { streamAt t m with bound := none }
      | none => t
    setStream t n { streamAt t n with bound := some k }
  | .close n =>
    let x := streamAt t n
    setStream t n { x.forget with bound := none }
  | .seek n pos => setStream t n { (streamAt t n).forget with pos := pos }
  | .refetch n => setStream t n (streamAt t n).forget

/-- The stream effects of a bundle: pops, and a push for each write of an output-bound register (R162).
Log 33, DEDUCED. -/
def applyStreams (s : State) (o tid : Nat) (w : Wr) : State :=
  match thr? s o tid with
  | none => s
  | some t =>
    let t1 := w.pops.foldl popStream t
    let step := fun (acc : State × Thread) (p : VReg × Vec) =>
      match boundTo acc.2 p.1 with
      | some n => if (streamAt acc.2 n).out then pushStream acc.1 acc.2 n p.2 else acc
      | none => acc
    let (s', t') := w.v.foldl step (s, t1)
    let t' := match w.strm with
      | some op => strmOp t' op
      | none => t'
    { s' with threads := put s'.threads (thrKey o tid) t' }

/-- Both halves' effects together. -/
def Wr.join (a b : Wr) : Wr where
  g := a.g ++ b.g
  v := a.v ++ b.v
  m := a.m ++ b.m
  sp := a.sp ++ b.sp
  flags := a.flags ||| b.flags
  srs := a.srs || b.srs
  npc := a.npc
  fin := a.fin
  acq := a.acq
  pops := b.pops
  strm := a.strm

/-- The context and windows of a thread return to the free lists; the records of its inbox and pending for it are the
caller's concern (R117). -/
def freeThread (s : State) (o tid : Nat) : State := { s with threads := drop s.threads (thrKey o tid) }

/-- The tail of a retirement that changes the thread's place in its program: the next address, ready again, with the
replay count cleared. -/
def advance (s : State) (o tid : Nat) (npc : Word) : State :=
  onThr s o tid (fun t =>
    { t with pc := npc, status := .ready, pend := none, inW := none, wcount := none, walks := [], replN := 0, turn := none, got := [] })

end Sys2Proof.Machine
end

