-- ==== Sys2Proof/Machine/SealOps.lean ====
section
/-!
DEFINITION. The sealed region at its slices (R213 to R227): set entries, the sealed hash, the operations on counts and
lines, the check of a filled pool line, and the reclaim walk.
-/

namespace Sys2Proof.Machine

/-- The modulus of the sealed hash and of the save tag. -/
def mers61 : Nat := 2 ^ 61 - 1

/-- A polynomial of words at K: w_0 K + w_1 K^2 + … (R73, R216). -/
def polyHash (k : Nat) (ws : List Nat) : Nat := ws.foldr (fun w acc => (w % mers61 + acc) * k % mers61) 0

/-- The 32 words of a line. -/
def lineWords : Nat → List Byte → List Word
  | 0, _ => []
  | n + 1, bs => wordOfList (bs.take 8) :: lineWords n (bs.drop 8)

/-- H of a line and its descriptor word (R216). -/
def sealH (w : Owner) (line : List Byte) (d : Nat) : Nat :=
  polyHash w.skey ((lineWords 32 line).map (·.toNat) ++ [d])

def sealh (w : Owner) (line : List Byte) (d : Nat) : Nat := sealH w line d % 2 ^ 60

/-- The address of set line s (R214). -/
def setVa (w : Owner) (set : Nat) : Nat := w.vbase + 4352 * set

/-- The set of a name. -/
def setOfName (w : Owner) (name : Nat) : Nat := name / 16 % 2 ^ w.nb

/-- Translation of an address of the region (R214). -/
def sealTrans (s : State) (w : Owner) (va : Nat) (k : AccKind) (wr : Bool) : Chk :=
  ofWalk w .seal k wr (BitVec.ofNat 64 va) (walkPage s w va)

/-! ## Entries (R215) -/

structure SEnt where
  name : Nat
  cnt  : Nat
  live : Bool
  recl : Bool
  int  : Bool
  hgt  : Nat
  next : Nat
deriving DecidableEq, Repr

def readEnt (s : State) (pa e : Nat) : SEnt :=
  let a := pa + 16 * e
  let f := Memory.nat s.mem (a + 12) 4
  ⟨Memory.nat s.mem a 8, Memory.nat s.mem (a + 8) 4, f % 2 == 1, f / 2 % 2 == 1, f / 4 % 2 == 1, f / 256 % 16,
    f / 4096 % 32⟩

def entBytes (x : SEnt) : List Byte :=
  listOfWord (BitVec.ofNat 64 x.name) 8 ++ listOfWord (BitVec.ofNat 64 x.cnt) 4 ++
    listOfWord (BitVec.ofNat 64 ((if x.live then 1 else 0) + (if x.recl then 2 else 0) + (if x.int then 4 else 0)
      + x.hgt * 256 + x.next * 4096)) 4

/-- The target of a line of the region. -/
def setTarget (s : State) (w : Owner) (o : Nat) (l : Leaf) (pa : Nat) : Target := targetOf s w o 0 l pa

def writeEnt (s : State) (t : Target) (pa e : Nat) (x : SEnt) : State :=
  touchWrite (writeAt s (.mem (pa + 16 * e)) (entBytes x)) t pa

/-- The live entry of a set whose NAME is the one presented. -/
def findName (s : State) (pa name : Nat) : Option Nat :=
  (List.range 16).find? (fun e => (readEnt s pa e).live && (readEnt s pa e).name == name)

/-! ## Filling a pool line (R217) -/

/-- Whether an address of the region lies in a pool line. -/
def isPoolVa (w : Owner) (va : Nat) : Bool :=
  w.sen && w.vbase ≤ va && va < w.vbase + 4352 * 2 ^ w.nb && (va - w.vbase) / 256 % 17 != 0

/-- The descriptor word of a line in memory. -/
def descWord (s : State) (pa : Nat) : Nat :=
  (List.range 4).foldl (fun n i => n + descAt s (.mem (pa / 256 * 256 + 64 * i)) * 2 ^ (16 * i)) 0

/-- A pool line that its slice does not hold is checked as it is filled: on a mismatch all its blocks are poison.
Log 41, DEDUCED. -/
def fillCheck (s : State) (w : Owner) (t : Target) (l : Leaf) (va pa : Nat) : State :=
  match t.slice with
  | none => s
  | some (o, j) =>
    if l.cls != 2 || !isPoolVa w va then s
    else
      match core? s o j with
      | none => s
      | some c =>
        if (tokenOf c (pa / 256)).isSome then s
        else
          let base := pa / 256 * 256
          if sealH w (Memory.readN s.mem base 256) (descWord s base) % 2 ^ 48 = getD 0 s.tags (pa / 256) then s
          else (List.range 4).foldl (fun s i => setMark s (.mem (base + 64 * i)) 2) s

/-! ## Results of an operation at a slice -/

/-- A result, or a trap with its cause, VA, INFO and POS (R222). -/
inductive SRes where
  | ok (s : State) (v : Nat)
  | trap (s : State) (cause va info pos : Nat)
deriving DecidableEq, Repr

/-- A failed check of the region as a result. Log 40, DEDUCED. -/
def badRes (s : State) (t : TrapInfo) : SRes := .trap s t.cause t.va.toNat t.info.toNat 0

/-- Access to the set line of a set: its translation, then its poison mark. -/
def withSet (s : State) (w : Owner) (o set : Nat) (k : AccKind) (wr : Bool) (f : State → Target → Nat → SRes) : SRes :=
  let va := setVa w set
  match sealTrans s w va k wr with
  | .ok (.mem l pa) =>
    let t := setTarget s w o l pa
    let m := markIn s (.mem pa) 256
    if m != 0 then .trap s Cause.poison va (m - 1) 0 else f (touchRead s t pa) t pa
  | .bad t => badRes s t
  | .ok (.spad _ _) | .miss _ => .trap s Cause.prot va (protInfo k 6) 0

/-- Queue a reclaim walk of an interior node (R221): 256 pending walks, then the scan flag; walks that a scan found are not
of the queue. -/
def queueReclaim (s : State) (t : Target) (set e : Nat) : State :=
  match t.slice with
  | none => s
  | some (o, j) => onCore s o j (fun c =>
      if (c.reclaim.filter (fun q => !q.byScan)).length < 256 then { c with reclaim := c.reclaim ++ [⟨set, e, false, false⟩] }
      else { c with scan := true })

/-- CNT to 0 takes LIVE away; an interior node waits for its walk (R221). -/
def dropOne (s : State) (t : Target) (set pa e : Nat) : State :=
  let x := readEnt s pa e
  if x.cnt ≤ 1 then
    if x.int then
      queueReclaim (writeEnt s t pa e { x with cnt := 0, live := false, recl := true, next := 0 }) t set e
    else writeEnt s t pa e { x with cnt := 0, live := false }
  else writeEnt s t pa e { x with cnt := x.cnt - 1 }

/-- SLREF, or RefChild with its own reasons (R220). -/
def slRef (s : State) (w : Owner) (o name : Nat) (child : Bool) : SRes :=
  withSet s w o (setOfName w name) .atomic true (fun s t pa =>
    let va := setVa w (setOfName w name)
    match (if name = 0 then none else findName s pa name) with
    | none => .trap s Cause.slref va name (if child then 2 else 1)
    | some e =>
      let x := readEnt s pa e
      if x.cnt = 0xFFFFFFFF then .trap s Cause.slref va name (if child then 3 else 0)
      else .ok (writeEnt s t pa e { x with cnt := x.cnt + 1 }) (x.cnt + 1))

/-- SLUNREF (R220). -/
def slUnref (s : State) (w : Owner) (o name : Nat) : SRes :=
  withSet s w o (setOfName w name) .atomic true (fun s t pa =>
    match (if name = 0 then none else findName s pa name) with
    | none => .trap s Cause.slref (setVa w (setOfName w name)) name 1
    | some e =>
      let x := readEnt s pa e
      .ok (dropOne s t (setOfName w name) pa e) (x.cnt - 1))

/-- A detected fault in the log (KIND 0x06). -/
def logDetected (s : State) (o cause item addr : Nat) : State :=
  addLog s { blankLog with kind := 6, cause := cause, owner := o, item := item, addr := addr }

/-- UnrefChild: a decrement that finds no live entry, or meets a fault, is logged (R214, R221). -/
def unrefChild (s : State) (w : Owner) (o name : Nat) : State :=
  match slUnref s w o name with
  | .ok s _ => s
  | .trap s cause va _ _ => logDetected s o cause name va

def undoChildren (s : State) (w : Owner) (o : Nat) (names : List Nat) : State :=
  names.foldl (fun s n => unrefChild s w o n) s

/-! ## SLGET (R220) -/

/-- What SLGET returns. -/
structure SGot where
  line : List Byte
  desc : Nat
  int  : Bool
  hgt  : Nat
deriving DecidableEq, Repr

/-- The pool line of entry e of a set: its physical address, with its fill check and its poison. -/
def poolOf (s : State) (w : Owner) (o set e : Nat) (k : AccKind) (wr : Bool) : State × Option (Target × Nat) × Option (Nat × Nat × Nat) :=
  let va := setVa w set + 256 * (1 + e)
  match sealTrans s w va k wr with
  | .ok (.mem l pa) =>
    let t := setTarget s w o l pa
    let s := fillCheck s w t l va pa
    let m := markIn s (.mem pa) 256
    let s := touchRead s t pa
    if m != 0 && !wr then (s, none, some (Cause.poison, setVa w set, m - 1)) else (s, some (t, pa), none)
  | .bad t => (s, none, some (t.cause, setVa w set, t.info.toNat))
  | .ok (.spad _ _) | .miss _ => (s, none, some (Cause.prot, setVa w set, protInfo k 6))

def slGet (s : State) (w : Owner) (o name : Nat) : State × Option SGot × Option (Nat × Nat × Nat × Nat) :=
  let set := setOfName w name
  let va := setVa w set
  match sealTrans s w va .load false with
  | .ok (.mem l pa) =>
    let t := setTarget s w o l pa
    let m := markIn s (.mem pa) 256
    if m != 0 then (s, none, some (Cause.poison, va, m - 1, 0))
    else
      let s := touchRead s t pa
      match (if name = 0 then none else findName s pa name) with
      | none => (s, none, some (Cause.slref, va, name, 1))
      | some e =>
        match poolOf s w o set e .load false with
        | (s, some (_, ppa), _) =>
          let x := readEnt s pa e
          (s, some ⟨Memory.readN s.mem ppa 256, descWord s ppa, x.int, x.hgt⟩, none)
        | (s, none, some (c, v, i)) => (s, none, some (c, v, i, 0))
        | (s, none, none) => (s, none, none)
  | .bad t => (s, none, some (t.cause, va, t.info.toNat, 0))
  | .ok (.spad _ _) | .miss _ => (s, none, some (Cause.prot, va, protInfo .load 6, 0))

/-! ## SLPUT (R219) -/

/-- Count the children in ascending index; on a failure those already counted are given back. -/
def refChildren (w : Owner) (o : Nat) : List Nat → State → List Nat → SRes × List Nat
  | [], s, done => (.ok s 0, done)
  | n :: ns, s, done =>
    if n = 0 then refChildren w o ns s done
    else
      match slRef s w o n true with
      | .ok s _ => refChildren w o ns s (done ++ [n])
      | .trap s c va i p => (.trap (undoChildren s w o done) c va i p, [])

/-- The greatest height among live children. -/
def childHeight (s : State) (w : Owner) (names : List Nat) : Nat :=
  names.foldl (fun h n =>
    if n = 0 then h
    else match sealTrans s w (setVa w (setOfName w n)) .atomic true with
      | .ok (.mem _ pa) => match findName s pa n with
        | some e => Nat.max h ((readEnt s pa e).hgt)
        | none => h
      | _ => h) 0

/-- Descriptors of a leaf (R219): a reserved format, then poison. -/
def leafDescs (d : Nat) : Option Nat :=
  let fs := (List.range 4).map (fun i => d / 2 ^ (16 * i + 12) % 16)
  if fs.any (fun f => 8 ≤ f && f < 15) then some Cause.desc else if fs.any (· == 15) then some Cause.poison else none

/-- What the lookup of SLPUT finds: an entry with these contents, none, or what a pool line met (R217, R219). -/
inductive Same where
  | found (e : Nat)
  | none
  | bad (cause va info : Nat)
deriving DecidableEq, Repr

/-- The lookup over the live entries of this hash and kind: each pool line is read and compared in full. -/
def findSame (w : Owner) (o set pa h : Nat) (int : Bool) (line : List Byte) (d : Nat) : List Nat → State → State × Same
  | [], s => (s, .none)
  | e :: es, s =>
    let x := readEnt s pa e
    if x.live && x.name / 16 == h && x.int == int then
      match poolOf s w o set e .atomic true with
      | (s, some (_, ppa), _) =>
        let m := markIn s (.mem ppa) 256
        if m != 0 then (s, .bad Cause.poison (setVa w set) (h * 16))
        else if Memory.readN s.mem ppa 256 == line && descWord s ppa == d then (s, .found e)
        else findSame w o set pa h int line d es s
      | (s, none, some (c, v, i)) => (s, .bad c v i)
      | (s, none, none) => (s, .none)
    else findSame w o set pa h int line d es s

/-- The lookup and insertion under the set line's lock. -/
def slPutSet (s : State) (w : Owner) (o : Nat) (int : Bool) (line : List Byte) (d hgt : Nat) (kids : List Nat) : SRes :=
  let h := sealh w line d
  let set := h % 2 ^ w.nb
  let va := setVa w set
  let back := fun s => undoChildren s w o kids
  match withSet s w o set .atomic true (fun s t pa =>
    match findSame w o set pa h int line d (List.range 16) s with
    | (s, .bad c v i) => .trap s c v i 0
    | (s, .found e) =>
      let x := readEnt s pa e
      if x.cnt = 0xFFFFFFFF then .trap s Cause.slref va x.name 0
      else .ok (back (writeEnt s t pa e { x with cnt := x.cnt + 1 })) x.name
    | (s, .none) =>
      let ents := (List.range 16).map (readEnt s pa)
      let used := (ents.filter (fun x => (x.live || x.recl) && x.name / 16 == h)).map (fun x => x.name % 16)
      match (List.range 16).find? (fun c => !used.contains c && !(h == 0 && c == 0)) with
      | none => .trap s Cause.slcoll va (h * 16) 0
      | some c =>
        match (List.range 16).find? (fun e =>
            let x := ents.getD e ⟨0, 0, true, false, false, 0, 0⟩; !x.live && !x.recl) with
        | none => .trap s Cause.slcoll va (h * 16) 1
        | some e =>
          match poolOf s w o set e .atomic true with
          | (s, some (pt, ppa), _) =>
            let s := writeBlocks s (.mem ppa) line
            let s := (List.range 4).foldl (fun s i => setDesc s (.mem (ppa + 64 * i)) (d / 2 ^ (16 * i) % 65536)) s
            let s := { s with tags := setD 0 s.tags (ppa / 256) (sealH w line d % 2 ^ 48) }
            let s := touchLine s pt ppa
            .ok (writeEnt s t pa e ⟨h * 16 + c, 1, true, false, int, hgt, 0⟩) (h * 16 + c)
          | (s, none, some (cs, v, i)) => .trap s cs v i 0
          | (s, none, none) => .trap s Cause.prot va (protInfo .atomic 6) 0) with
  | .ok s v => .ok s v
  | .trap s c v i p => .trap (back s) c v i p

def slPut (s : State) (w : Owner) (o : Nat) (int : Bool) (line : List Byte) (d : Nat) : SRes :=
  let h := sealh w line d
  let va := setVa w (h % 2 ^ w.nb)
  if int then
    if d ≠ 0x007F007F007F007F then .trap s Cause.desc va (h * 16) 0
    else
      let names := (lineWords 32 line).map (·.toNat)
      match refChildren w o names s [] with
      | (.trap s c v i p, _) => .trap s c v i p
      | (.ok s _, kids) =>
        let hgt := 1 + childHeight s w names
        if 7 < hgt then .trap (undoChildren s w o kids) Cause.desc va (h * 16) 1
        else slPutSet s w o true line d hgt kids
  else
    match leafDescs d with
    | some c => .trap s c va (h * 16) 0
    | none => slPutSet s w o false line d 0 []

/-! ## Reclaim (R221) -/

/-- One step of a walk of an entry, from the entry's NEXT on: the state, and whether the walk goes on. -/
def reclaimStep (s : State) (w : Owner) (o : Nat) (q : Reclaim) : State × Bool :=
  match sealTrans s w (setVa w q.set) .atomic true with
  | .ok (.mem l pa) =>
    let t := setTarget s w o l pa
    let x := readEnt s pa q.ent
    match poolOf s w o q.set q.ent .load false with
    | (s, some (_, ppa), _) =>
      let child := fun j => Memory.nat s.mem (ppa + 8 * j) 8
      match (List.range 31).find? (fun j => x.next ≤ j && child j != 0) with
      | some j =>
        let s := unrefChild s w o (child j)
        (writeEnt s t pa q.ent { x with next := j + 1 }, true)
      | none =>
        let s := if child 31 != 0 then unrefChild s w o (child 31) else s
        let x := readEnt s pa q.ent
        (writeEnt s t pa q.ent { x with recl := false }, false)
    | (s, none, some (c, _, _)) => (logDetected s o c (setVa w q.set) pa, false)
    | (s, none, none) => (s, false)
  | .bad t => (logDetected s o t.cause (setVa w q.set) 0, false)
  | .ok (.spad _ _) | .miss _ => (s, false)

/-- Walks of a slice run to their end: the first of the list to its last child, then the next ones (R79, R221). -/
def finishWalks (w : Owner) (o j : Nat) : Nat → State → State
  | 0, s => s
  | n + 1, s =>
    match core? s o j with
    | none => s
    | some c =>
      match c.reclaim with
      | [] => s
      | q :: qs =>
        match reclaimStep s w o q with
        | (s, true) => finishWalks w o j n s
        | (s, false) => finishWalks w o j n (onCore s o j (fun c => { c with reclaim := qs ++ c.reclaim.drop (1 + qs.length) }))

/-- Entries of the sets homed on a slice that wait for a walk, in ascending set and then ascending entry (R221). -/
def scanFound (s : State) (w : Owner) (j : Nat) : List Reclaim :=
  (List.range (2 ^ w.nb)).flatMap (fun set =>
    match sealTrans s w (setVa w set) .load false with
    | .ok (.mem l pa) =>
      if homeCore l (pa / 256) = j then
        ((List.range 16).filter (fun e => (readEnt s pa e).recl)).map (fun e => (⟨set, e, false, true⟩ : Reclaim))
      else []
    | _ => [])

/-- One slice of an owner that goes: its walks, then those of its scan. A step takes one child, and no walk is begun more
often than counts can reach zero. -/
def finishSlice (s : State) (w : Owner) (o j : Nat) : State :=
  let steps := 2 ^ 40
  let s := finishWalks w o j steps s
  match core? s o j with
  | some c =>
    if c.scan then finishWalks w o j steps (onCore s o j (fun c => { c with reclaim := scanFound s w j, scan := false })) else s
  | none => s

/-- Reclaim walks of an owner always run to completion: rounds over its slices, since a walk may queue others (R79).
Log 80, DEDUCED. -/
def finishReclaims (w : Owner) (o : Nat) : Nat → State → State
  | 0, s => s
  | n + 1, s =>
    if s.cores.any (fun p => p.1 / 1024 == o && (!p.2.reclaim.isEmpty || p.2.scan)) then
      finishReclaims w o n ((List.range (ncores w)).foldl (fun s j => finishSlice s w o j) s)
    else s

end Sys2Proof.Machine
end

