-- ==== Sys2Proof/Machine/JobOps.lean ====
section
/-!
DEFINITION. Shared operations on jobs: how one ends, is cancelled, fails, suspends and restarts, and what follows for
the jobs chained to it (R116, R131, R225, R264, R266, R398, R401).
-/

namespace Sys2Proof.Machine

def logOf (s : State) (o : Nat) (kind cause itemk item : Nat) : State :=
  addLog s { blankLog with kind := kind, cause := cause, owner := o, itemk := itemk, item := item }

/-- A record of one failed item of a core: what of its effect is known, and whether it was applied; `aux` is the name of
a sealed operation (R79, R80). Log 25, DEDUCED. -/
def logNamed (s : State) (o j cause itemk item addr : Nat) (known applied : Bool) (aux : Nat) : State :=
  addLog s { blankLog with kind := 2, cause := cause, owner := o, place := whereOf (placeOf s o j) 0, itemk := itemk,
                           item := item, addr := addr, flags := (if known then 1 else 0) + (if applied then 2 else 0),
                           aux := aux }

/-- A record of an item that is no sealed operation. -/
def logItem (s : State) (o j cause itemk item addr : Nat) (known applied : Bool) : State :=
  logNamed s o j cause itemk item addr known applied 0

def Job.isSuspended (b : Job) : Bool :=
  match b.state with
  | .suspended _ _ _ => true
  | .queued | .running => false

def Job.isRunning (b : Job) : Bool :=
  match b.state with
  | .running => true
  | .queued | .suspended _ _ _ => false

def Job.cause (b : Job) : Nat :=
  match b.state with
  | .suspended x _ _ => x
  | .queued | .running => 0

/-- Whether a job is the matrix engine's (R115). -/
def JobKind.isMx : JobKind → Bool
  | .mxrun _ | .carryLd _ | .carrySt _ => true
  | .copy _ | .fill _ _ _ _ | .ldb _ _ _ _ | .digest _ _ _ | .slout _ _ => false

def jobAt (s : State) (o k id : Nat) : Option Job :=
  match core? s o k with
  | some c => c.jobs.find? (·.id == id)
  | none => none

/-- Whether a job waits for another's end or OPC. -/
def Job.chainedTo (b : Job) (id : Nat) : Bool :=
  match b.gate with
  | .ended x => x == id
  | .opc x => x == id
  | .none => false

/-- Whether a core's carry save slot holds a job's carry: a suspended or replayed job blocks the core's later matrix jobs, so
it is the oldest of them (R266). -/
def slotIs (s : State) (o k id : Nat) : Bool :=
  match core? s o k with
  | some c => (c.jobs.find? (fun b => b.kind.isMx)).map (·.id) == some id
  | none => false

/-- A job leaves its entry with an outcome: 1 done, 2 failed or cancelled. Its unit is free, its save slot is emptied,
and a root reference it holds is dropped. -/
def closeJob (s : State) (o k id code : Nat) : State :=
  match jobAt s o k id with
  | none => s
  | some b =>
    let slot := slotIs s o k id
    let s := onCore s o k (fun c =>
      { c with jobs := c.jobs.filter (·.id != id),
               outcomes := ((id, code, if b.gfl && !b.orphan then some b.tid else none) :: c.outcomes).take 256 })
    let s := onClus s o (k / 8) (fun c =>
      { c with mx := c.mx.filter (fun r => !(r.k == k && r.id == id)),
               cu := c.cu.filter (fun r => !(r.1 == k && r.2 == id)),
               saved := if slot then drop c.saved (k % 8) else c.saved })
    match b.kind, b.rootHeld, owner? s o with
    | .slout root _, true, some w => unrefChild s w o root.toNat
    | _, _, _ => s

/-- The fault-log record of a failed job (R79, R80). -/
def logJob (s : State) (o k : Nat) (b : Job) (cause : Nat) : State :=
  let where_ := whereOf (placeOf s o k) 0
  addLog s { blankLog with kind := 2, cause := cause, owner := o, place := where_,
                           itemk := if b.isRunning || b.isSuspended then 1 else 2, item := b.id, pos := b.pos, spec := b.spec }

/-- Jobs chained to one that has failed or been cancelled fail with cause JOBF and no access, and so do those chained
to them (R264, R398). -/
def failChained (o k : Nat) : Nat → State → Nat → State
  | 0, s, _ => s
  | n + 1, s, id =>
    match core? s o k with
    | none => s
    | some c => (c.jobs.filter (·.chainedTo id)).foldl (fun s b =>
        failChained o k n (closeJob (logJob s o k b Cause.jobf) o k b.id 2) b.id) s

/-- A job is cancelled: outcome 2, no record of its own (R401). -/
def cancelJob (s : State) (o k id : Nat) : State := failChained o k 17 (closeJob s o k id 2) id

/-- A job fails with a cause and a record. -/
def failJob (s : State) (o k id cause : Nat) : State :=
  match jobAt s o k id with
  | none => s
  | some b => failChained o k 17 (closeJob (logJob s o k b cause) o k id 2) id

/-- A job has posted OPC, or ended: the jobs chained to that start (R264). -/
def releaseGate (s : State) (o k id : Nat) (ended : Bool) : State :=
  onCore s o k (fun c => { c with jobs := c.jobs.map (fun b =>
    { b with gate := match b.gate with
        | .ended x => if x = id ∧ ended then .none else .ended x
        | .opc x => if x = id then .none else .opc x
        | .none => .none }) })

/-- A job ends done. -/
def doneJob (s : State) (o k id : Nat) : State := releaseGate (closeJob s o k id 1) o k id true

/-- A job suspends at its committed position, and what it has read ahead is discarded; a matrix job's carry goes to its
core's save slot (R131, R266). -/
def suspendJob (s : State) (o k id cause : Nat) (va info : Word) : State :=
  match jobAt s o k id with
  | none => s
  | some b =>
    let s := onClus s o (k / 8) (fun c =>
      { c with saved := if b.kind.isMx then put c.saved (k % 8) c.carry else c.saved,
               mx := c.mx.filter (fun r => !(r.k == k && r.id == id)),
               cu := c.cu.filter (fun r => !(r.1 == k && r.2 == id)) })
    onCore s o k (fun c => { c with jobs := c.jobs.map (fun x =>
      if x.id = id then { x with state := .suspended cause va info, fewait := none, col := 0, got := [], out := [] } else x) })

/-- A replayed job is offered again at its committed position; it takes the carry of its save slot as it starts (R131,
R266). -/
def restartJob (s : State) (o k id : Nat) : State :=
  match jobAt s o k id with
  | none => s
  | some b =>
    if !b.isSuspended then s
    else onCore s o k (fun c => { c with jobs := c.jobs.map (fun x =>
      if x.id = id then { x with state := .queued, fewait := none, spec := x.pos } else x) })

/-- What JWAIT, JPOLL and the end of a `.w` form read of a job: none while it is live (R116, R401). -/
def jobCode (s : State) (o k id : Nat) : Option Nat :=
  match core? s o k with
  | none => some 1
  | some c =>
    if c.jobs.any (·.id == id) then none
    else match c.outcomes.find? (·.1 == id) with
      | some x => some x.2.1
      | none => some 1

/-- Whether a thread observing a job's end gets GFL (R260). Log 58, DEDUCED. -/
def jobGfl (s : State) (o k id tid : Nat) : Bool :=
  match core? s o k with
  | none => false
  | some c => match c.outcomes.find? (·.1 == id) with
    | some x => x.2.2 == some tid
    | none => false

/-- The mark, in what a job met, of a 2:4 group whose indices do not rise. -/
def groupMark : Nat := 2 ^ 63

/-- The JOBF of a suspended job (R122, R131). For a 2:4 group out of order INFO[15:0] is the index block's descriptor (R262),
otherwise the job id. Log 81, DEDUCED. -/
def jobfTrap (k : Nat) (b : Job) : TrapInfo :=
  let met : Word × Nat := match b.state with
    | .suspended _ va info => (va, if groupMark ≤ info.toNat then info.toNat % 65536 else b.id)
    | .queued | .running => (0, b.id)
  { mkTrap Cause.jobf (met.2 + b.cause * 65536) met.1 with
    pos := BitVec.ofNat 64 b.pos, spec := BitVec.ofNat 64 b.spec, item := .job k b.id }

/-- What the observer of a job's end receives: the code where a register takes it, an acquire at .clus and GFL. -/
def jobSeen (s : State) (o k id tid : Nat) (d : Option GReg) (code : Nat) : Wr :=
  { Wr.none with g := (match d with
                    | some r => [(r, BitVec.ofNat 64 code)]
                    | none => []),
                 acq := some .clus, flags := if jobGfl s o k id tid then 0x40 else 0 }

end Sys2Proof.Machine
end

