-- ==== Sys2Proof/Machine/Sched.lean ====
section
/-!
DEFINITION. The scheduler's shared operations: free resources and placement (R102, R104), the starting state of a
thread (R102, R103), and the end of one (R117, R121, R125, R387).
-/

namespace Sys2Proof.Machine

/-! ## Resources of a core (R102) -/

/-- Whether a range overlaps none of the busy ones. -/
def fitsAt (base need : Nat) (busy : List (Nat × Nat)) : Bool :=
  busy.all (fun b => b.2 == 0 || base + need ≤ b.1 || b.1 + b.2 ≤ base)

/-- First fit at the lowest free base, in granules of g below a limit. -/
def firstFit (limit g need : Nat) (busy : List (Nat × Nat)) : Option Nat :=
  if need = 0 then some 0
  else ((List.range (limit / g)).map (· * g)).find? (fun b => b + need ≤ limit && fitsAt b need busy)

/-- Threads on their way to a core, with the slot and window bases kept for them (R132). -/
def coming (s : State) (o j : Nat) : List (Thread × Nat × Nat × Nat) :=
  (threadsOf s o).filterMap (fun t => match t.mig with
    | some (k, sl, gb, vb) => if k = j then some (t, sl, gb, vb) else none
    | none => none)

def gBusy (s : State) (o j : Nat) : List (Nat × Nat) :=
  (threadsOn s o j).map (fun t => (t.gbase, t.gsize)) ++ (coming s o j).map (fun p => (p.2.2.1, p.1.gsize))
def vBusy (s : State) (o j : Nat) : List (Nat × Nat) :=
  (threadsOn s o j).map (fun t => (t.vbase, t.vsize)) ++ (coming s o j).map (fun p => (p.2.2.2, p.1.vsize))

/-- Banks in use on a home core: its threads' and its retained sets'. -/
def sBusy (s : State) (o j : Nat) (c : Core) : List (Nat × Nat) :=
  ((threadsOf s o).filter (fun t => tidCore t.tid == j)).map (fun t => (t.sbase, t.sbanks))
    ++ c.retained.map (fun r => (r.base, r.n))

/-- Whether an owner-relative core's slot is enabled (R83): the lowest `slots` slots are. -/
def slotOn (c : Core) (k : Nat) : Bool := k < c.slots

/-- A free context in an enabled slot: no thread stands in it and no live redirect names it (R102, R133). -/
def freeSlot (s : State) (o j : Nat) (c : Core) : Option Nat :=
  let used := (threadsOn s o j).map (·.slot) ++ (coming s o j).map (·.2.1)
    ++ ((threadsOf s o).filter (fun t => tidCore t.tid == j)).map (fun t => tidSlot t.tid)
  (List.range 64).find? (fun k => slotOn c k && !used.contains k)

/-- Whether a core holds no thread and no retained set, so that its split may change (R102). -/
def coreIdle (s : State) (o j : Nat) (c : Core) : Bool :=
  (threadsOf s o).all (fun t => tidCore t.tid != j && t.core != j) && (coming s o j).isEmpty && c.retained.isEmpty

/-- A retained set of a launch's stage on a core. -/
def retainedFor (c : Core) (l stage : Nat) : Option Retained :=
  c.retained.find? (fun r => r.launch == l && r.stage == stage)

/-- A retained set is handed on once what its thread had issued is performed: HALT.retain is a release at .core that the
halting thread itself does not wait for (R198, R387). Log 82, DEDUCED. -/
def setReady (s : State) (o : Nat) (r : Retained) : Bool := releaseOk s o r.tid r.born .core r.before

/-- What a core would give a thread of a stage: slot, general base, vector base, first bank and whether the banks are
a retained set; none where R102 is not met. -/
structure Grant where
  slot : Nat
  gb   : Nat
  vb   : Nat
  sb   : Nat
  kept : Bool
deriving DecidableEq, Repr

def grantOn (s : State) (o j : Nat) (l : Launch) (k : Nat) (e : StageEnt) : Option Grant :=
  match core? s o j with
  | none => none
  | some c =>
    if !((c.spn == l.spn && c.xb == l.xb) || coreIdle s o j c) then none
    else
      match freeSlot s o j c, firstFit 2048 8 (8 * e.gregs) (gBusy s o j), firstFit 512 4 (4 * e.vregs) (vBusy s o j) with
      | some sl, some gb, some vb =>
        match retainedFor c l.id k with
        | some r =>
          if r.n = e.spadb then
            if setReady s o r then some ⟨sl, gb, vb, r.base, true⟩ else none
          else (firstFit (32 * l.spn - 2 * l.xb) 1 e.spadb (sBusy s o j c)).map (fun b => ⟨sl, gb, vb, b, false⟩)
        | none => (firstFit (32 * l.spn - 2 * l.xb) 1 e.spadb (sBusy s o j c)).map (fun b => ⟨sl, gb, vb, b, false⟩)
      | _, _, _ => none

/-! ## Placement (R104) -/

/-- Cores in the order that the stage's HINT examines them. -/
def hintOrder (w : Owner) (e : StageEnt) (last : Option Nat) : List Nat :=
  let all := List.range (ncores w)
  let spread := match last with
    | some j => all.filter (j < ·) ++ all.filter (· ≤ j)
    | none => all
  let mates := all.filter (fun j => j / 8 == e.hcore / 8 && j != e.hcore)
  match e.hint with
  | 0 => spread
  | 1 => all
  | 2 => e.hcore :: mates ++ spread.filter (fun j => j / 8 != e.hcore / 8)
  | _ => all.filter (fun j => j / 8 == e.hcore / 8)

/-- The core chosen for a thread of a stage: one with a retained set for it first (R104, R117), among the cores that HINT
admits. Log 91, DESIGN CHOICE. -/
def placeThread (s : State) (o : Nat) (w : Owner) (l : Launch) (k : Nat) (e : StageEnt) : Option (Nat × Grant) :=
  let last := (l.dyn.getD k ⟨0, false, [], none⟩).last
  let order := hintOrder w e last
  let keeps := (List.range (ncores w)).filter (fun j =>
    match core? s o j with
    | some c => (retainedFor c l.id k).isSome
    | none => false)
  let order := if e.hint = 3 then (order.filter keeps.contains) ++ order else keeps ++ order
  (order.filterMap (fun j => (grantOn s o j l k e).map (fun g => (j, g)))).head?

/-! ## Creating a thread (R102, R103) -/

/-- Live threads of a stage. -/
def stageThreads (s : State) (o l k : Nat) : List Thread := (threadsOf s o).filter (fun t => t.launch == l && t.stage == k)

/-- Zero the windows of a thread. -/
def zeroWindows (s : State) (o j : Nat) (g : Grant) (e : StageEnt) : State :=
  { s with gfile := clearRange s.gfile (gKey o j g.gb) (8 * e.gregs),
           vfile := clearRange s.vfile (vKey o j g.vb) (4 * e.vregs) }

/-- A new thread in its context, held (R100, R102, R103). -/
def newThread (w : Owner) (o : Nat) (l : Launch) (k : Nat) (e : StageEnt) (j : Nat) (g : Grant) (idx inc : Nat)
    (seed : Word) (born : Nat) : Thread where
  o := o
  tid := packId j g.slot
  core := j
  slot := g.slot
  redirect := false
  pc := e.entry
  gbase := g.gb
  gsize := 8 * e.gregs
  vbase := g.vb
  vsize := 4 * e.vregs
  sbase := g.sb
  sbanks := e.spadb
  masks := []
  fpc := 0
  stat := 0
  rngs0 := startState seed k idx inc
  rngs1 := startState seed k idx inc
  rngk := seed
  wlim := w.wlimd
  trapc := 0
  wp := []
  launch := l.id
  stage := k
  idx := idx
  inc := inc
  cls := Nat.min e.cls w.prio
  streams := []
  inbox := []
  async := []
  status := .held
  retiring := false
  pend := none
  inW := none
  wcount := none
  kept := none
  replPc := 0
  replCause := 0
  replN := 0
  due := none
  yieldAt := none
  yieldFor := []
  slots := none
  walks := []
  mig := none
  waitAt := 0
  turn := none
  got := []
  fenceAt := born
  relDue := 0
  born := born
  relFences := []
  linkItem := none

/-- A scratchpad byte above a core's new SRAM split joins the L1 and reads 0 if a later split gives it back (R55, R156).
Log 78, DESIGN CHOICE. -/
def clearAbove (s : State) (o j lo : Nat) : State :=
  { s with spad := clearRange s.spad (spadKey o j lo) (2 ^ 20 - lo),
           spadFE := clearRange s.spadFE (granKey o j lo) ((2 ^ 20 - lo) / 16),
           spadPz := clearRange s.spadPz (spadBlk o j lo) ((2 ^ 20 - lo) / 64) }

/-- A grant's banks with every full/empty bit empty, unless they are a retained set (R159, R117). Log 38, DEDUCED. -/
def clearBanks (s : State) (o j : Nat) (g : Grant) (e : StageEnt) : State :=
  if g.kept then s else { s with spadFE := clearRange s.spadFE (granKey o j (4096 * g.sb)) (256 * e.spadb) }

/-- Create one thread of a stage on a core with a grant; its packed id is answered. Its first bundle acquires what its
creator released, so the core's L1 is emptied (R198, R200). -/
def createOn (s : State) (o : Nat) (w : Owner) (l : Launch) (k : Nat) (e : StageEnt) (j : Nat) (g : Grant) :
    State × Nat :=
  match core? s o j with
  | none => (s, 0)
  | some c =>
    let held := (stageThreads s o l.id k).map (·.idx)
    let idx := ((List.range e.tmax).find? (fun i => !held.contains i)).getD 0
    let dyn := l.dyn.getD k ⟨0, false, [], none⟩
    let made := getD 0 dyn.made idx
    let t := newThread w o l k e j g idx (made % 256) l.seed s.nextId
    let s := if l.spn < c.spn then clearAbove s o j (l.spn * 0x20000) else s
    let c := { c with spn := l.spn, xb := l.xb }
    let c := if g.kept then { c with retained := c.retained.filter (fun r => !(r.launch == l.id && r.stage == k)) } else c
    let s := dropL1 { s with cores := put s.cores (coreKey o j) c } o j
    let s := clearBanks (zeroWindows s o j g e) o j g e
    let s := { s with threads := put s.threads (thrKey o t.tid) t }
    let s := writeG s t 1 l.arg
    let s := writeG s t 2 (BitVec.ofNat 64 t.tid)
    let s := writeG s t 3 (BitVec.ofNat 64 idx)
    let s := writeG s t 4 (BitVec.ofNat 64 l.id)
    let d' := { dyn with made := put dyn.made idx (made + 1), last := some j }
    (onLch s o l.id (fun l => { l with dyn := l.dyn.set k d' }), t.tid)

/-- Create one thread where the stage's placement puts it. -/
def createPlaced (s : State) (o : Nat) (w : Owner) (lid k : Nat) : Option State :=
  match lch? s o lid with
  | none => none
  | some l =>
    match l.stages[k]? with
    | none => none
    | some e =>
      match placeThread s o w l k e with
      | none => none
      | some (j, g) => some (createOn s o w l k e j g).1

/-- n threads of one stage; none where one cannot be placed. -/
def createN (o : Nat) (w : Owner) (lid k : Nat) : Nat → State → Option State
  | 0, s => some s
  | n + 1, s => (createPlaced s o w lid k).bind (createN o w lid k n)

/-- As many of n threads as eligible contexts allow (R109). -/
def createUpTo (o : Nat) (w : Owner) (lid k : Nat) : Nat → State → State
  | 0, s => s
  | n + 1, s =>
    match createPlaced s o w lid k with
    | some s => createUpTo o w lid k n s
    | none => s

/-- Held threads of a launch become ready together (R100). -/
def releaseHeld (s : State) (o lid : Nat) : State :=
  { s with threads := s.threads.map (fun p =>
      if p.2.o = o ∧ p.2.launch = lid ∧ p.2.status = .held then (p.1, { p.2 with status := .ready }) else p) }

/-! ## The fault log's records of threads (R80, R123) -/

/-- The record a park or a kill writes, with its absolute WHERE (R123). -/
def logTrap (s : State) (t : Thread) (r : TrapRec) : State :=
  addLog s { blankLog with kind := 1, cause := r.cause, owner := t.o, place := whereOf (placeOf s t.o t.core) t.slot,
                           item := t.tid, flags := (if r.known then 1 else 0) + (if r.applied then 2 else 0),
                           addr := r.va.toNat, pos := r.pos.toNat, spec := r.spec.toNat }

/-! ## The end of a thread (R117, R121, R125) -/

/-- Records in an inbox, and those pending for it, are acted on as park: their threads stay parked, and each is
logged (R125). -/
def parkRecord (s : State) (o : Nat) (r : TrapRec) : State :=
  match thr? s o r.tid with
  | some t =>
    let s := logTrap s t r
    onThr s o r.tid (fun t => { t with kept := t.kept.map (fun k =>
      if k.trap.seq = r.seq then { k with trap := { k.trap with action := 2 } } else k) })
  | none => s

def inboxToPark (s : State) (t : Thread) : State :=
  match owner? s t.o with
  | none => s
  | some w =>
    let pending := (w.undelivered.filter (·.1 == t.tid)).map (·.2)
    let s := (t.inbox ++ pending).foldl (fun s r => parkRecord s t.o r) s
    onOwner s t.o (fun w => { w with undelivered := w.undelivered.filter (·.1 != t.tid) })

/-- The cause under which an entry fails: MIGFWD where a vacated tile refused it, else PSTREF (R130, R135). -/
def JEnt.cause (e : JEnt) : Nat :=
  match e.phase with
  | .late => Cause.migfwd
  | .refused x _ _ => x
  | .ready | .acked | .refusing _ | .busy _ => Cause.pstref

def entryCause (s : State) (o j q : Nat) : Nat :=
  match core? s o j with
  | some c => ((c.journal.find? (·.seq == q)).map JEnt.cause).getD Cause.pstref
  | none => Cause.pstref

/-- Whether the target of an entry has applied it though it fails: a drain refused it with its answer on the way (R63, R79). -/
def JEnt.applied (e : JEnt) : Bool :=
  match e.phase with
  | .acked => true
  | .refused _ _ x => x
  | .ready | .refusing _ | .late | .busy _ => false

def entryApplied (s : State) (o j q : Nat) : Bool :=
  match core? s o j with
  | some c => ((c.journal.find? (·.seq == q)).map JEnt.applied).getD false
  | none => false

/-- An item that an asynchronous trap names fails and is logged (R79, R121); the item names the core whose journal or
job entries hold it. -/
def failItem (s : State) (o : Nat) (i : Item) : State :=
  match i with
  | .none => s
  | .journal j q =>
    logItem (onCore s o j (fun c => { c with journal := c.journal.filter (·.seq != q) })) o j (entryCause s o j q) 3 q 0 true
      (entryApplied s o j q)
  | .job k id => logItem s o k Cause.bstale 1 id 0 true false

/-- Entries and jobs of a thread that has ended go on with no thread to report to (R117). -/
def orphanItems (s : State) (o tid : Nat) : State :=
  { s with cores := s.cores.map (fun p =>
      if p.1 / 1024 = o then
        let js := p.2.journal.map (fun e => if e.tid = tid then { e with orphan := true } else e)
        let bs := p.2.jobs.map (fun b => if b.tid = tid then { b with orphan := true } else b)
        let os := p.2.outcomes.map (fun x => if x.2.2 = some tid then (x.1, x.2.1, none) else x)
        (p.1, { p.2 with journal := js, jobs := bs, outcomes := os })
      else p) }

/-- A refused entry whose thread has ended fails and is logged, in whichever core's journal it is (R121, R132). -/
def failRefused (s : State) (o tid : Nat) : State :=
  (s.cores.filter (fun p => p.1 / 1024 == o)).foldl (fun s p =>
    let bad := p.2.journal.filter (fun e => e.tid == tid && !e.orphan && (match e.phase with
      | .refused _ _ _ => true
      | _ => false))
    bad.foldl (fun s e => failItem s o (.journal (p.1 % 1024) e.seq)) s) s

/-- A suspended job whose submitter has ended fails and is logged (R131). -/
def failSuspended (s : State) (o tid : Nat) : State :=
  let k := tidCore tid
  match core? s o k with
  | none => s
  | some c => (c.jobs.filter (fun b => b.tid == tid && b.isSuspended)).foldl (fun s b => failJob s o k b.id b.cause) s

/-- The thread leaves: its context and windows are free, its banks too unless they are kept for a stage (R117). -/
def endThread (s : State) (t : Thread) (keep : Option Nat) : State :=
  let s := inboxToPark s t
  let s := t.async.foldl (fun s a => failItem s t.o a.item) s
  let s := match t.kept with
    | some k => if k.trap.cause = Cause.bstale then failItem s t.o k.item else s
    | none => s
  let s := failSuspended (failRefused s t.o t.tid) t.o t.tid
  let s := orphanItems s t.o t.tid
  let s := { s with reqs := s.reqs.filter (fun r => !(r.o == t.o && r.tid == t.tid && !r.kind.isAccess)),
                    ports := s.ports.map (fun p => (p.1, { p.2 with owed := p.2.owed.filter (fun x => x.2 != (t.o, t.tid)) })) }
  let s := match keep with
    | some k => onCore s t.o (tidCore t.tid) (fun c =>
        { c with retained := c.retained ++ [⟨t.launch, k, t.sbase, t.sbanks, t.tid, s.nextId, t.born⟩] })
    | none => s
  freeThread s t.o t.tid

def haltThread (s : State) (t : Thread) : State := endThread s t none

/-- HALT.retain acts as HALT where the stage does not exist, the thread holds no banks, or the core holds a set for
the stage already (R117, R387). -/
def retainThread (s : State) (t : Thread) (k : Nat) : State :=
  let nstg := match lch? s t.o t.launch with
    | some l => l.stages.length
    | none => 0
  let has := match core? s t.o (tidCore t.tid) with
    | some c => (retainedFor c t.launch k).isSome
    | none => true
  if nstg ≤ k || t.sbanks == 0 || has then endThread s t none else endThread s t (some k)

/-! ## YIELD (R388) -/

/-- The contexts that a YIELD waits for: the others of its class on its core, ready or retiring, with enabled slots. -/
def yieldSet (s : State) (t : Thread) : List Nat :=
  match core? s t.o t.core with
  | none => []
  | some c => ((threadsOn s t.o t.core).filter (fun u =>
      u.tid != t.tid && u.cls == t.cls && u.status == .ready && slotOn c u.slot)).map (·.slot)

/-- The contexts that a YIELD still waits for: those of its set that are ready in enabled slots. -/
def yieldLeft (c : Core) (ts : List Thread) (t : Thread) : List Nat :=
  t.yieldFor.filter (fun k => slotOn c k && ts.any (fun u => u.slot == k && u.status == .ready))

/-- YIELD takes effect from the cycle in which it issued, the one before the core's next. -/
def yieldThread (s : State) (t : Thread) : State :=
  if plumbOf s t.o then s
  else
    let cyc := match core? s t.o t.core with
      | some c => c.cyc - 1
      | none => 0
    let set := yieldSet s t
    onThr s t.o t.tid (fun t => { t with yieldAt := some cyc, yieldFor := set })

end Sys2Proof.Machine
end

