-- ==== Sys2Proof/Machine/Operands.lean ====
section
/-!
DEFINITION. Operand forms: what a bundle reads and names (R142 to R145, R162), sub-elements of general registers
(R243, R310, R311), elements of vectors under a mask (R155, R359), and the ranges of immediates (R294, R298, R299).
-/

namespace Sys2Proof.Machine

/-! ## The environment of a bundle -/

/-- What both halves of a bundle read from: the state before the bundle, its thread and owner, and the stream
elements it pops (R145, R162). -/
structure Env where
  s    : State
  c    : Cur
  t    : Thread
  w    : Owner
  pops : List (VReg × Vec)
deriving DecidableEq, Repr

def Env.g (e : Env) (r : GReg) : Word := readG e.s e.t r

/-- A vector source: the popped element of a register bound to an input stream, otherwise the register. -/
def Env.v (e : Env) (r : VReg) : Vec :=
  match (e.pops.find? (·.1 == r)).map (·.2) with
  | some x => x
  | none => readV e.s e.t r

/-- The old value of a vector destination, through the update port: the register itself. -/
def Env.old (e : Env) (r : VReg) : Vec := readV e.s e.t r

def Env.m (e : Env) (r : MReg) : BitVec 64 := readM e.t r

/-- The address of the next bundle. -/
def Env.next (e : Env) : Word := e.c.pc + BitVec.ofNat 64 e.c.len

/-! ## What a half of a bundle answers -/

/-- A half that touches nothing outside its thread: its effects, the trap its checks meet, and the dither draws it
takes. -/
structure Half where
  w     : Wr
  trap  : Option TrapInfo
  draws : Nat
deriving DecidableEq, Repr

/-- What a first half answers: completion, a wait at a target with the bundle issued, a wait after which the bundle is
issued again, a trap found by the checks at the core, or one found at a target (R120). A `.w` form whose submission
has retired with the writes `w` waits for job id of core k (R393). -/
inductive XRes where
  | ok (s : State) (w : Wr)
  | wait (s : State) (why : Wait)
  | again (s : State) (why : Wait)
  | trapC (t : TrapInfo)
  | trapT (s : State) (t : TrapInfo)
  | sub (s : State) (w : Wr) (k id : Nat)
deriving DecidableEq, Repr

def Wr.ofG (d : GReg) (v : Word) : Wr := { Wr.none with g := [(d, v)] }
def Wr.ofV (d : VReg) (v : Vec) : Wr := { Wr.none with v := [(d, v)] }
def Wr.ofM (d : MReg) (v : BitVec 64) : Wr := { Wr.none with m := [(d, v)] }
def Wr.ofSp (r : BitVec 8) (v : Word) : Wr := { Wr.none with sp := [(r, v)] }

/-- A half that writes one general register and does nothing else. -/
def Env.give (e : Env) (d : GReg) (v : Word) : XRes := .ok e.s (Wr.ofG d v)

/-! ## Sub-elements of a general register (R310) -/

def typeWidth (t : IType) : Nat :=
  match t with
  | .i64 | .n64 => 64 | .i32 | .n32 => 32 | .i16 | .n16 => 16 | .i8 | .n8 => 8

def isSigned (t : IType) : Bool :=
  match t with
  | .i64 | .i32 | .i16 | .i8 => true
  | .n64 | .n32 | .n16 | .n8 => false

/-- Element i, of w bits, of a number. -/
def el (w i x : Nat) : Nat := x / 2 ^ (w * i) % 2 ^ w

/-- A number whose element i, of w bits, is entry i of a list. -/
def joinEls (w : Nat) : List Nat → Nat
  | [] => 0
  | x :: xs => x % 2 ^ w + 2 ^ w * joinEls w xs

/-- A w-bit number read as signed. -/
def sv (w x : Nat) : Int := if 2 * x < 2 ^ w then (x : Int) else (x : Int) - (2 ^ w : Nat)

/-- An integer modulo 2^w. -/
def wrapTo (w : Nat) (v : Int) : Nat := (v % (2 ^ w : Nat)).toNat

/-- A w-bit number as the type reads it. -/
def readAs (sgn : Bool) (w x : Nat) : Int := if sgn then sv w x else (x : Int)

/-- Width in bits of a scalar type (R310). -/
def iw (t : IType) : Nat := typeWidth t

/-- Width in bytes of a memory access (R330, Width). -/
def bytesOfType (t : IType) : Nat := iw t / 8

/-- The immediate or register of a second source, as 64 bits (R311). -/
def srcWord (e : Env) : Src → Word
  | .reg b => e.g b
  | .i16 v => v.signExtend 64
  | .i48 v => v.signExtend 64
  | .i64 v => v

/-- OpB(j): the sub-element of a register, or the low bits of the immediate for every sub-element. -/
def opB (e : Env) (w : Nat) (src : Src) (j : Nat) : Nat :=
  match src with
  | .reg b => el w j (e.g b).toNat
  | .i16 _ | .i48 _ | .i64 _ => el w 0 (srcWord e src).toNat

/-- Join of per-sub-element results: a 64-bit value. -/
def joinWord (w : Nat) (f : Nat → Nat) : Word := BitVec.ofNat 64 (joinEls w ((List.range (64 / w)).map f))

/-- The immediate of LI. -/
def liWord : LImm → Word
  | .i30 v => v.signExtend 64
  | .i62 v => v.signExtend 64
  | .i64 v => v

/-! ## Elements of a vector (R359) -/

/-- Element i of w bits of a vector. -/
def velem (w i : Nat) (v : Vec) : Nat := el w i v.toNat

def vecOfEls (w : Nat) (l : List Nat) : Vec := BitVec.ofNat 512 (joinEls w l)

/-- Whether element i, of w bits, is active under a mask: the bit of its lowest byte lane (R155). -/
def active (m : BitVec 64) (w i : Nat) : Bool := m.getLsbD (w * i / 8)

/-- Elements computed in ascending order: an inactive one keeps its old value, raises nothing and draws nothing. -/
def runEls (act : Nat → Bool) (old : Nat → Nat) (f : Nat → Nat → Res8) : List Nat → Nat → List Nat × BitVec 8
  | [], _ => ([], 0)
  | i :: is, k =>
    if act i then
      let r := f i k
      let rest := runEls act old f is (k + 1)
      (r.1 :: rest.1, r.2 ||| rest.2)
    else
      let rest := runEls act old f is k
      (old i :: rest.1, rest.2)

/-- The low n bits from position p of a vector replaced. -/
def setBits (v : Vec) (p n x : Nat) : Vec :=
  let hi := v.toNat / 2 ^ (p + n)
  let lo := v.toNat % 2 ^ p
  BitVec.ofNat 512 (lo + (x % 2 ^ n) * 2 ^ p + hi * 2 ^ (p + n))

/-- The second operand of an integer V-op (Opnd). -/
def vOpnd (e : Env) (t : VType) (src : VSrc) (i : Nat) : Nat :=
  match src with
  | .reg b => velem t.width i (e.v b)
  | .imm v => if t.signed then (v.signExtend t.width).toNat else (v.setWidth t.width).toNat

end Sys2Proof.Machine
end

