-- ==== Sys2Proof/Machine/Flags.lean ====
section
/-!
DEFINITION. Flag computations and rounding control: the mode an operation rounds under (R147, R236, R359), the dither
draws, and the exceptions that flags raise (R148).
-/

namespace Sys2Proof.Machine

/-- The rounding mode an operation asks for: 4 is SR (R359). -/
def askedMode (e : Env) : Rnd → Nat
  | .cur => fpcRM e.t.fpc
  | .rne => 0 | .rz => 1 | .rup => 2 | .rdn => 3 | .sr => 4

/-- The mode it rounds under: SR is RNE in plumb mode (R236). -/
def modeOf (e : Env) (r : Rnd) : Mode := if askedMode e r = 4 ∧ e.w.plumb then 0 else askedMode e r

/-- Whether it sets %fpc.SRS (R147). -/
def asksSrs (e : Env) (r : Rnd) : Bool := askedMode e r == 4 && e.w.plumb

def ftzOf (e : Env) : Bool := fpcFTZ e.t.fpc

/-- The number of the core's dither source. -/
def ditherSrc (e : Env) : Nat := 3 * coreKey e.t.o e.t.core

/-- The k-th draw of a bundle from its core's dither source (R236): 16 bits. -/
def drawOf (e : Env) (k : Nat) : Nat :=
  let n := match core? e.s e.t.o e.t.core with
    | some c => c.dither
    | none => 0
  (Config.dither (ditherSrc e) (n + k)).toNat % 65536

/-- The flags of a bundle that FEN enables: its five floating-point flags against %fpc[12:8]. -/
def enabledFlags (fpc : Word) (f : BitVec 8) : Bool := (f.setWidth 5 &&& fpcFEN fpc) != 0

/-- FPX, with the flags both halves raise (R148, R359). -/
def fpxTrap (fpc : Word) (all : BitVec 8) : Option TrapInfo :=
  if enabledFlags fpc all then some (mkTrap Cause.fpx all.toNat 0) else none

end Sys2Proof.Machine
end

