-- ==== Sys2Proof/Machine/Transc.lean ====
section
/-!
DEFINITION. The special functions of R240, computed in fixed point to far more bits than any rounding can ask of a
32-bit operand, with the exact results taken apart first (log 13, DEDUCED).
-/

namespace Sys2Proof.Machine

/-- Fraction bits of the fixed-point work. -/
def tP : Nat := 640

def tOne : Nat := 2 ^ tP

/-- The sum of 1 / ((2k+1) n^(2k+1)), with alternating signs where `alt`; p is 1/n^(2k+1) in fixed point. -/
def invSeries (alt : Bool) (n2 : Nat) : Nat → Nat → Nat → Int → Int
  | 0, _, _, acc => acc
  | f + 1, k, p, acc =>
    let term : Int := (p / (2 * k + 1) : Nat)
    invSeries alt n2 f (k + 1) (p / n2) (if alt && k % 2 == 1 then acc - term else acc + term)

/-- ln 2 = 2 atanh(1/3). -/
def ln2F : Nat := (2 * invSeries false 9 215 0 (tOne / 3) 0).toNat

/-- π = 16 atan(1/5) − 4 atan(1/239). -/
def piF : Nat := (16 * invSeries true 25 145 0 (tOne / 5) 0 - 4 * invSeries true 57121 45 0 (tOne / 239) 0).toNat

/-- The exponential series: term y^k / k! and the sum so far. -/
def expSeries (y : Nat) : Nat → Nat → Nat → Nat → Nat
  | 0, _, _, acc => acc
  | f + 1, k, term, acc => expSeries y f (k + 1) (term * y / tOne / (k + 1)) (acc + term)

/-- exp of a fixed-point number below 1. -/
def expF (y : Nat) : Nat := expSeries y 140 0 tOne 0

/-- The sine series: term y^(2k+1) / (2k+1)!. -/
def sinSeries (y2 : Nat) : Nat → Nat → Nat → Int → Int
  | 0, _, _, acc => acc
  | f + 1, k, term, acc =>
    sinSeries y2 f (k + 1) (term * y2 / tOne / ((2 * k + 2) * (2 * k + 3)))
      (if k % 2 = 1 then acc - term else acc + term)

/-- sin(π s) of a fixed-point s from 0 to 1/2. -/
def sinPiF (s : Nat) : Nat :=
  let y := piF * s / tOne
  (sinSeries (y * y / tOne) 90 0 y 0).toNat

/-- The series of atanh: term t^(2k+1). -/
def atanhSeries (t2 : Nat) : Nat → Nat → Nat → Nat → Nat
  | 0, _, _, acc => acc
  | f + 1, k, p, acc => atanhSeries t2 f (k + 1) (p * t2 / tOne) (acc + p / (2 * k + 1))

/-- An inexact fixed-point magnitude as an exact result: a bit below the last stands for what is beyond it. -/
def sticky (neg : Bool) (v : Nat) : Exact := .mag neg (2 * v + 1) 1 (-(tP : Int) - 1)

/-- A finite dyadic m × 2^e as fixed point; every operand of these functions fits exactly. -/
def toFix (m : Nat) (e : Int) : Nat :=
  let k := e + tP
  if 0 ≤ k then m * 2 ^ k.toNat else m / 2 ^ (-k).toNat

/-- Whether m × 2^e is an integer, and its integer part. -/
def isIntD (m : Nat) (e : Int) : Bool := 0 ≤ e || m % 2 ^ (-e).toNat == 0
def intPart (m : Nat) (e : Int) : Nat := if 0 ≤ e then m * 2 ^ e.toNat else m / 2 ^ (-e).toNat

/-- 2^x: an integer x is exact; otherwise 2^⌊x⌋ × exp(frac × ln 2). Exponents beyond ±1000 all overflow or vanish
alike. -/
def exp2E : FVal → Exact
  | .nan => .nan 0
  | .inf n => if n then .zero false else .inf false 0
  | .fin n m e =>
    if m = 0 then .mag false 1 1 0
    else if isIntD m e then
      let k := if 1000 < intPart m e then 1000 else intPart m e
      .mag false 1 1 (if n then -(k : Int) else k)
    else
      let x := toFix m e
      let fl := x / tOne
      let fr := x % tOne
      -- a negative x = −(fl + fr) is −(fl + 1) + (1 − fr)
      let k : Int := if n then -((fl : Int) + 1) else fl
      let f := if n then tOne - fr else fr
      let k := if k < -1000 then -1000 else if 1000 < k then 1000 else k
      .mag false (2 * expF (f * ln2F / tOne) + 1) 1 (k - tP - 1)

/-- log2 x: a power of two is exact; otherwise the exponent plus 2 atanh((z − 1) / (z + 1)) / ln 2. -/
def log2E : FVal → Exact
  | .nan => .nan 0
  | .inf n => if n then .nan fIV else .inf false 0
  | .fin n m e =>
    if m = 0 then .inf true fDZ
    else if n then .nan fIV
    else
      let top := Nat.log2 m
      let k : Int := e + top
      if m = 2 ^ top then exactOf (decide (k < 0)) k.natAbs 0
      else
        let t := (m - 2 ^ top) * tOne / (m + 2 ^ top)
        let ln := 2 * atanhSeries (t * t / tOne) 215 0 t 0
        let v : Int := k * (tOne : Nat) + ((ln * tOne / ln2F : Nat) : Int)
        sticky (decide (v < 0)) v.natAbs

/-- sin(π x). -/
def sinpE : FVal → Exact
  | .nan => .nan 0
  | .inf _ => .nan fIV
  | .fin n m e =>
    if isIntD m e then .zero n
    else
      let r := toFix m e % (2 * tOne)
      let neg := if tOne < r then !n else n
      let r := r % tOne
      let s := if tOne < 2 * r then tOne - r else r
      if 2 * s = tOne then .mag neg 1 1 0 else sticky neg (sinPiF s)

/-- cos(π x). -/
def cospE : FVal → Exact
  | .nan => .nan 0
  | .inf _ => .nan fIV
  | .fin _ m e =>
    if isIntD m e then .mag (intPart m e % 2 == 1) 1 1 0
    else
      let r := toFix m e % (2 * tOne)
      let r := if tOne < r then 2 * tOne - r else r
      if 2 * r = tOne then .zero false
      else if tOne < 2 * r then sticky true (sinPiF (r - tOne / 2))
      else sticky false (sinPiF (tOne / 2 - r))

/-- tanh x = 1 − 2 / (exp(2x) + 1); from 128 on it stands closer to 1 than any rounding can see. -/
def tanhE : FVal → Exact
  | .nan => .nan 0
  | .inf n => .mag n 1 1 0
  | .fin n m e =>
    if m = 0 then .zero n
    else if 128 ≤ intPart m e then sticky n (tOne - 2 ^ (tP - 400))
    else
      let y := 2 * toFix m e
      let k := y / ln2F
      let ex := expF (y % ln2F) * 2 ^ k
      sticky n ((ex - tOne) * tOne / (ex + tOne))

end Sys2Proof.Machine
end

