-- ==== Sys2Proof/Machine/VecOps.lean ====
section
/-!
DEFINITION. What each V-op computes from its sources (R361 to R382): one half of a bundle.
-/

namespace Sys2Proof.Machine

/-! ## Shared forms -/

/-- A V-op that writes elements of one width under its mask. -/
def eachEl (e : Env) (w : Nat) (d : VReg) (k : MReg) (srs : Bool) (f : Nat → Nat → Res8) : Half :=
  let old := e.old d
  let m := e.m k
  let r := runEls (active m w) (fun i => velem w i old) f (List.range (512 / w)) 0
  ⟨{ Wr.none with v := [(d, vecOfEls w r.1)], flags := r.2, srs := srs }, none, 512 / w⟩

/-- The value of an element of a floating-point type. -/
def fDec (e : Env) (t : VType) (x : Nat) : FVal := (fmtOf t).dec (ftzOf e) x

/-- One rounding of an element's exact result. -/
def fRnd (e : Env) (t : VType) (r : Rnd) (how : Over) (k : Nat) (x : Exact) : Res8 :=
  (fmtOf t).round (modeOf e r) (ftzOf e) how (drawOf e k) x

/-- A rounded operation of two elements (R361). -/
def fBin (e : Env) (o : VBin) (f : Mode → FVal → FVal → Exact) : Half :=
  let a := e.v o.a
  let b := e.v o.b
  eachEl e o.ty.width o.d o.k (asksSrs e o.rnd) (fun i k =>
    fRnd e o.ty o.rnd .arith k
      (f (modeOf e o.rnd) (fDec e o.ty (velem o.ty.width i a)) (fDec e o.ty (velem o.ty.width i b))))

/-- A fused operation with the destination as addend (R362). -/
def fTri (e : Env) (o : VBin) (f : Mode → FVal → FVal → FVal → Exact) : Half :=
  let a := e.v o.a
  let b := e.v o.b
  let d := e.v o.d
  let w := o.ty.width
  eachEl e w o.d o.k (asksSrs e o.rnd) (fun i k =>
    fRnd e o.ty o.rnd .arith k
      (f (modeOf e o.rnd) (fDec e o.ty (velem w i a)) (fDec e o.ty (velem w i b)) (fDec e o.ty (velem w i d))))

/-- A rounded operation of one F32 element (R363). -/
def fUn (e : Env) (o : VUn) (f : FVal → Exact) : Half :=
  let a := e.v o.a
  eachEl e o.ty.width o.d o.k (asksSrs e o.rnd) (fun i k =>
    fRnd e o.ty o.rnd .arith k (f (fDec e o.ty (velem o.ty.width i a))))

/-- An exact operation of two elements that raises nothing (R364). -/
def fExact2 (e : Env) (o : VBin) (f : Nat → Nat → Nat) : Half :=
  let a := e.v o.a
  let b := e.v o.b
  eachEl e o.ty.width o.d o.k false (fun i _ => (f (velem o.ty.width i a) (velem o.ty.width i b), 0))

/-- The magnitude code of an element, a flushed subnormal having none (R237). -/
def magOf (e : Env) (t : VType) (x : Nat) : Nat :=
  let f := fmtOf t
  if ftzOf e && f.ieee && f.exp x == 0 then 0 else x % 2 ^ (f.width - 1)

/-! ## Floating point (R361 to R364) -/

def vaddSem (o : VBin) (e : Env) : Half := fBin e o addE
def vsubSem (o : VBin) (e : Env) : Half := fBin e o subE
def vmulSem (o : VBin) (e : Env) : Half := fBin e o (fun _ => mulE)
def vdivSem (o : VBin) (e : Env) : Half := fBin e o (fun _ => divE)
def vfmaSem (o : VBin) (e : Env) : Half := fTri e o (fun m a b d => fmaE m a b d)
/-- d − a × b. -/
def vfmsSem (o : VBin) (e : Env) : Half := fTri e o (fun m a b d => fmaE m a.neg b d)
def vsqrtSem (o : VUn) (e : Env) : Half := fUn e o sqrtE
def vexp2Sem (o : VUn) (e : Env) : Half := fUn e o exp2E
def vlog2Sem (o : VUn) (e : Env) : Half := fUn e o log2E
def vrcpSem (o : VUn) (e : Env) : Half := fUn e o rcpE
def vrsqSem (o : VUn) (e : Env) : Half := fUn e o rsqE
def vsinpSem (o : VUn) (e : Env) : Half := fUn e o sinpE
def vcospSem (o : VUn) (e : Env) : Half := fUn e o cospE
def vtanhSem (o : VUn) (e : Env) : Half := fUn e o tanhE

def vabsSem (o : VUn) (e : Env) : Half :=
  let a := e.v o.a
  eachEl e o.ty.width o.d o.k false (fun i _ =>
    let x := velem o.ty.width i a
    (if (fDec e o.ty x).isNan then (fmtOf o.ty).nan else magOf e o.ty x, 0))

def vnegSem (o : VUn) (e : Env) : Half :=
  let a := e.v o.a
  eachEl e o.ty.width o.d o.k false (fun i _ =>
    let x := velem o.ty.width i a
    (if (fDec e o.ty x).isNan then (fmtOf o.ty).nan
      else (fmtOf o.ty).pack (!(fmtOf o.ty).sign x) (magOf e o.ty x), 0))

def vminSem (o : VBin) (e : Env) : Half :=
  fExact2 e o (fun x y => (fmtOf o.ty).enc (minV (fDec e o.ty x) (fDec e o.ty y)))
def vmaxSem (o : VBin) (e : Env) : Half :=
  fExact2 e o (fun x y => (fmtOf o.ty).enc (maxV (fDec e o.ty x) (fDec e o.ty y)))
def vcpysSem (o : VBin) (e : Env) : Half :=
  fExact2 e o (fun x y =>
    if (fDec e o.ty x).isNan || (fDec e o.ty y).isNan then (fmtOf o.ty).nan
    else (fmtOf o.ty).pack ((fmtOf o.ty).sign y) (magOf e o.ty x))

/-! ## Compares into masks (R365, R369) -/

def maskOfBools : List Bool → Nat
  | [] => 0
  | b :: bs => (if b then 1 else 0) + 2 * maskOfBools bs

/-- Every byte lane of an active element takes the element's condition; lanes of inactive elements keep their bits. -/
def cmpMask (e : Env) (w : Nat) (d k : MReg) (f : Nat → Bool) : Half :=
  let m := e.m k
  let old := e.m d
  let bits := (List.range 64).map (fun y => if active m w (y / (w / 8)) then f (y / (w / 8)) else old.getLsbD y)
  ⟨Wr.ofM d (BitVec.ofNat 64 (maskOfBools bits)), none, 0⟩

/-- A condition on two floating-point values: a NaN makes .ne true and every other false. -/
def fCond (c : Cond) (a b : FVal) : Bool :=
  if a.isNan || b.isNan then c == .ne
  else
    match c with
    | .eq => !ltV a b && !ltV b a
    | .ne => ltV a b || ltV b a
    | .lt => ltV a b
    | .ge => !ltV a b
    | .gt => ltV b a
    | .le => !ltV b a
    | .ltu | .geu | .gtu | .leu => false

/-- A condition on two w-bit numbers: the condition alone decides signedness (R321, R369). -/
def iCond (c : Cond) (w x y : Nat) : Bool :=
  match c with
  | .eq => x == y
  | .ne => x != y
  | .lt => decide (sv w x < sv w y)
  | .ge => decide (sv w y ≤ sv w x)
  | .gt => decide (sv w y < sv w x)
  | .le => decide (sv w x ≤ sv w y)
  | .ltu => decide (x < y)
  | .geu => decide (y ≤ x)
  | .gtu => decide (y < x)
  | .leu => decide (x ≤ y)

def vcmpSem (o : VCmp) (e : Env) : Half :=
  let a := e.v o.a
  let b := e.v o.b
  cmpMask e o.ty.width o.d o.k (fun i =>
    fCond o.cc (fDec e o.ty (velem o.ty.width i a)) (fDec e o.ty (velem o.ty.width i b)))

def vicmpSem (o : VCmp) (e : Env) : Half :=
  let a := e.v o.a
  let b := e.v o.b
  cmpMask e o.ty.width o.d o.k (fun i => iCond o.cc o.ty.width (velem o.ty.width i a) (velem o.ty.width i b))

/-! ## Integers (R366 to R368) -/

/-- An integer wrapped to w bits, or with .sat clamped to the type's range, raising SAT (R243). -/
def intOut (sat sgn : Bool) (w : Nat) (v : Int) : Res8 :=
  if sat then
    let hi : Int := if sgn then (2 ^ (w - 1) : Nat) - 1 else (2 ^ w : Nat) - 1
    let lo : Int := if sgn then -((2 ^ (w - 1) : Nat) : Int) else 0
    if v < lo then (wrapTo w lo, fSAT) else if hi < v then (wrapTo w hi, fSAT) else (wrapTo w v, 0)
  else (wrapTo w v, 0)

/-- An integer V-op of two operands. -/
def iBin (e : Env) (o : VInt) (f : Nat → Nat → Res8) : Half :=
  let a := e.v o.a
  eachEl e o.ty.width o.d o.k false (fun i _ => f (velem o.ty.width i a) (vOpnd e o.ty o.src i))

/-- One of arithmetic on the values the type reads. -/
def iArith (e : Env) (o : VInt) (f : Int → Int → Int) : Half :=
  iBin e o (fun x y =>
    intOut o.sat o.ty.signed o.ty.width (f (readAs o.ty.signed o.ty.width x) (readAs o.ty.signed o.ty.width y)))

def viaddSem (o : VInt) (e : Env) : Half := iArith e o (· + ·)
def visubSem (o : VInt) (e : Env) : Half := iArith e o (· - ·)
def vimulSem (o : VInt) (e : Env) : Half := iArith e o (· * ·)
def vimulhSem (o : VInt) (e : Env) : Half :=
  iBin e o (fun x y =>
    let w := o.ty.width
    (wrapTo w ((readAs o.ty.signed w x * readAs o.ty.signed w y) / (2 ^ w : Nat)), 0))
def vandSem (o : VInt) (e : Env) : Half := iBin e o (fun x y => (x &&& y, 0))
def vorSem (o : VInt) (e : Env) : Half := iBin e o (fun x y => (x ||| y, 0))
def vxorSem (o : VInt) (e : Env) : Half := iBin e o (fun x y => (x ^^^ y, 0))
def vandnSem (o : VInt) (e : Env) : Half := iBin e o (fun x y => (x &&& (2 ^ o.ty.width - 1 - y), 0))
def viminSem (o : VInt) (e : Env) : Half :=
  iBin e o (fun x y => (if readAs o.ty.signed o.ty.width x ≤ readAs o.ty.signed o.ty.width y then x else y, 0))
def vimaxSem (o : VInt) (e : Env) : Half :=
  iBin e o (fun x y => (if readAs o.ty.signed o.ty.width y ≤ readAs o.ty.signed o.ty.width x then x else y, 0))

def viabsSem (t : VType) (sat : Bool) (d a : VReg) (k : MReg) (e : Env) : Half :=
  let x := e.v a
  eachEl e t.width d k false (fun i _ =>
    let v := readAs t.signed t.width (velem t.width i x)
    intOut sat t.signed t.width (v.natAbs : Int))

/-! ### Shifts (R245) -/

def shlEl (w x s : Nat) : Nat := if w ≤ s then 0 else x * 2 ^ s % 2 ^ w
def shrEl (w x s : Nat) : Nat := if w ≤ s then 0 else x / 2 ^ s
def sarEl (w x s : Nat) : Nat :=
  if w ≤ s then (if 2 * x < 2 ^ w then 0 else 2 ^ w - 1) else wrapTo w (sv w x / (2 ^ s : Nat))
def rotEl (w x s : Nat) : Nat := (x * 2 ^ (s % w) ||| x / 2 ^ (w - s % w)) % 2 ^ w

/-- The amount of a vector shift: the low 8 bits of the operand, unsigned. -/
def vAmount (e : Env) (t : VType) (src : VSrc) (i : Nat) : Nat :=
  match src with
  | .reg b => velem t.width i (e.v b) % 256
  | .imm v => v.toNat

def iShift (e : Env) (o : VInt) (f : Nat → Nat → Nat → Nat) : Half :=
  let a := e.v o.a
  eachEl e o.ty.width o.d o.k false (fun i _ =>
    (f o.ty.width (velem o.ty.width i a) (vAmount e o.ty o.src i), 0))

def vshlSem (o : VInt) (e : Env) : Half := iShift e o shlEl
def vshrSem (o : VInt) (e : Env) : Half := iShift e o shrEl
def vsarSem (o : VInt) (e : Env) : Half := iShift e o sarEl
def vrotSem (o : VInt) (e : Env) : Half := iShift e o rotEl

/-! ## Conversions (R370 to R375) -/

/-- A conversion with a lane group (R370): f takes a source element and the count of draws so far. -/
def convEls (e : Env) (o : VConv) (f : Nat → Nat → Res8) : Half :=
  let ws := o.src.width
  let wd := o.ty.width
  let big := if ws < wd then wd else ws
  let n := 512 / big
  let sBase := if ws < wd then o.g.toNat * n else 0
  let dBase := if wd < ws then o.g.toNat * n else 0
  let a := e.v o.a
  let old := e.old o.d
  let m := e.m o.k
  let r := runEls (active m big) (fun i => velem wd (dBase + i) old)
    (fun i k => f (velem ws (sBase + i) a) k) (List.range n) 0
  ⟨{ Wr.none with v := [(o.d, setBits old (wd * dBase) (wd * n) (joinEls wd r.1))], flags := r.2,
                  srs := asksSrs e o.rnd }, none, n⟩

/-- A conversion to a format that is not wider saturates, or with .nsat does not (R238); a wider one is exact (R371). -/
def cvtOver (o : VConv) : Over :=
  if o.src.width < o.ty.width then .arith else if o.nsat then .nsat else .sat

def vcvtSem (o : VConv) (e : Env) : Half :=
  convEls e o (fun x k => fRnd e o.ty o.rnd (cvtOver o) k (fDec e o.src x).exact)

def vftoiSem (o : VConv) (e : Env) : Half :=
  convEls e o (fun x k => intRound (modeOf e o.rnd) (drawOf e k) o.ty.signed o.ty.width (fDec e o.src x).exact)

def vitofSem (o : VConv) (e : Env) : Half :=
  convEls e o (fun x k => fRnd e o.ty o.rnd .arith k (ofInt (readAs o.src.signed o.src.width x)))

/-- The format code of a block type (R373). -/
def blkCode : VType → Nat
  | .e4m3 => 4 | .e5m2 => 5 | .e2m1 => 6 | .i8 => 7
  | .f32 | .bf16 | .f16 | .i64 | .i32 | .i16 | .n64 | .n32 | .n16 | .n8 => 0

/-- The lane group that gL names. -/
def blkGroup (t : VType) (x : Word) : Nat := if t == .e2m1 then x.toNat % 8 else x.toNat % 4

/-- The descriptor check of VQNT and VDQNT: DESC for a descriptor that fails R234 or is of another format; a poison
descriptor is of another format, and DESC is the lower cause (R120, R373). Log 24, DEDUCED. -/
def blkTrap (t : VType) (ds : Nat) : Option TrapInfo :=
  if checkDesc ds = .ok ∧ ds / 4096 = blkCode t then none else some (mkTrap Cause.desc ds 0)

/-- Divide an exact result by the block scale. -/
def unscale (x : Exact) (sc : Nat) : Exact :=
  match x with
  | .mag n num den e => .mag n num den (e - ((sc : Int) - 127))
  | .nan f => .nan f
  | .inf n f => .inf n f
  | .zero n => .zero n

/-- One element of VQNT. -/
def quantEl (e : Env) (o : VBlk) (ds x k : Nat) : Res8 :=
  let v := F32.dec (ftzOf e) x
  if ds % 256 = 255 then (0, 0)
  else
    let m := modeOf e o.rnd
    let y := unscale v.exact (ds % 256)
    let how : Over := if o.nsat then .nsat else .sat
    match o.ty with
    | .e4m3 => E4M3.round m false how (drawOf e k) y
    | .e5m2 => E5M2.round m false how (drawOf e k) y
    | .e2m1 => e2round m (drawOf e k) (ds / 256 % 16) y
    | .i8 | .f32 | .bf16 | .f16 | .i64 | .i32 | .i16 | .n64 | .n32 | .n16 | .n8 => i8round m (drawOf e k) y

def vqntSem (o : VBlk) (e : Env) : Half :=
  let gs := e.g o.s
  let ds := gs.toNat % 65536
  match blkTrap o.ty ds with
  | some t => ⟨Wr.none, some t, 0⟩
  | none =>
    let wt := o.ty.width
    let j := blkGroup o.ty (e.g o.l)
    let a := e.v o.a
    let old := e.old o.d
    let m := e.m o.k
    let r := runEls (active m 32) (fun i => velem wt (16 * j + i) old)
      (fun i k => quantEl e o ds (velem 32 i a) k) (List.range 16) 0
    let seen := (o.ty == .e2m1 || o.ty == .i8) && ds % 256 != 255 &&
      (List.range 16).any (fun i => active m 32 i && (F32.dec false (velem 32 i a)).isNan)
    ⟨{ Wr.none with v := [(o.d, setBits old (wt * 16 * j) (wt * 16) (joinEls wt r.1))],
                    g := if seen then [(o.s, gs ||| 0xFF)] else [], flags := r.2, srs := asksSrs e o.rnd }, none, 16⟩

def vdqntSem (o : VBlk) (e : Env) : Half :=
  let ds := (e.g o.s).toNat % 65536
  match blkTrap o.ty ds with
  | some t => ⟨Wr.none, some t, 0⟩
  | none =>
    let wt := o.ty.width
    let j := blkGroup o.ty (e.g o.l)
    let a := e.v o.a
    eachEl e 32 o.d o.k (asksSrs e o.rnd) (fun i k =>
      fRnd e .f32 o.rnd .arith k (blkDec ds (ftzOf e) (velem wt (16 * j + i) a)).exact)

/-- The type of twice the width with the same signedness is read, the type itself is written. -/
def vpackSem (t : VType) (sat : Bool) (d a b : VReg) (k : MReg) (e : Env) : Half :=
  let w := t.width
  let n := 512 / w
  let x := e.v a
  let y := e.v b
  eachEl e w d k false (fun i _ =>
    let s := if i < n / 2 then velem (2 * w) i x else velem (2 * w) (i - n / 2) y
    intOut sat t.signed w (readAs t.signed (2 * w) s))

def vunpkSem (t : VType) (h : Bool) (d a : VReg) (k : MReg) (e : Env) : Half :=
  let w := t.width
  let x := e.v a
  eachEl e (2 * w) d k false (fun i _ =>
    (wrapTo (2 * w) (readAs t.signed w (velem w (256 / w * (if h then 1 else 0) + i) x)), 0))

/-! ## Random numbers (R376 to R378) -/

def vrndtSem (d : VReg) (k : MReg) (e : Env) : Half :=
  let states := lcgDraws 16 e.t.rngs0
  let h := eachEl e 32 d k false (fun i _ => ((lcgOut (states.getD i 0)).toNat, 0))
  { h with w := { h.w with sp := [(0x08, states.getD 15 0)] } }

def vrndhSem (t : VType) (d : VReg) (a : GReg) (k : MReg) (e : Env) : Half :=
  let base := e.g a
  eachEl e t.width d k false (fun i _ =>
    ((hashGen (base + BitVec.ofNat 64 (i * (t.width / 8))) e.t.rngk).toNat % 2 ^ t.width, 0))

def vmixSem (d a : VReg) (b : GReg) (k : MReg) (e : Env) : Half :=
  let x := e.v a
  eachEl e 64 d k false (fun i _ => ((hashGen (BitVec.ofNat 64 (velem 64 i x)) (e.g b)).toNat, 0))

/-! ## Permute, move and select (R379) -/

def vpermSem (t : VType) (d a b : VReg) (k : MReg) (e : Env) : Half :=
  let x := e.v a
  let y := e.v b
  eachEl e t.width d k false (fun i _ =>
    let j := velem t.width i y % 256
    (if j < 512 / t.width then velem t.width j x else 0, 0))

/-- The scalar of VBCAST: a register's low bits, or IMM8 extended by the type, a float type counting as signed. -/
def vbcastSem (t : VType) (d : VReg) (src : GSrc) (k : MReg) (e : Env) : Half :=
  let x : Nat := match src with
    | .reg b => (e.g b).toNat % 2 ^ t.width
    | .imm v => if t.signed || t.isFloat then (v.signExtend t.width).toNat else (v.setWidth t.width).toNat
  eachEl e t.width d k false (fun _ _ => (x, 0))

/-- A lane index or count: a register's whole value, or IMM8. -/
def laneOf (e : Env) : GSrc → Nat
  | .reg b => (e.g b).toNat
  | .imm v => v.toNat

def vextlSem (t : VType) (d : GReg) (a : VReg) (src : GSrc) (_k : MReg) (e : Env) : Half :=
  let k := laneOf e src
  let v := if k < 512 / t.width then
      BitVec.ofNat 64 (wrapTo 64 (readAs t.signed t.width (velem t.width k (e.v a)))) else 0
  ⟨Wr.ofG d v, none, 0⟩

def vinslSem (t : VType) (d : VReg) (a : GReg) (src : GSrc) (m : MReg) (e : Env) : Half :=
  let k := laneOf e src
  let old := e.old d
  let v := if k < 512 / t.width && active (e.m m) t.width k
    then setBits old (t.width * k) t.width (e.g a).toNat else old
  ⟨Wr.ofV d v, none, 0⟩

def vrotlSem (t : VType) (d a : VReg) (src : GSrc) (k : MReg) (e : Env) : Half :=
  let x := e.v a
  let j := laneOf e src
  eachEl e t.width d k false (fun i _ => (velem t.width ((i + j) % (512 / t.width)) x, 0))

def vmovSem (t : VType) (d a : VReg) (k : MReg) (e : Env) : Half :=
  let x := e.v a
  eachEl e t.width d k false (fun i _ => (velem t.width i x, 0))

/-- The mask selects: every element is written. -/
def vselSem (t : VType) (d a b : VReg) (k : MReg) (e : Env) : Half :=
  let x := e.v a
  let y := e.v b
  let m := e.m k
  let l := (List.range (512 / t.width)).map (fun i =>
    if active m t.width i then velem t.width i x else velem t.width i y)
  ⟨Wr.ofV d (vecOfEls t.width l), none, 0⟩

/-! ## Reductions (R241, R380, R381) -/

/-- Absent operands give the other. -/
def joinOpt (f : Nat → Nat → Res8) : Option Nat → Option Nat → Option Nat × BitVec 8
  | some x, some y => (some (f x y).1, (f x y).2)
  | some x, none => (some x, 0)
  | none, y => (y, 0)

/-- One level of the tree. -/
def treeLevel (f : Nat → Nat → Res8) : List (Option Nat) → List (Option Nat) × BitVec 8
  | x :: y :: l =>
    let r := joinOpt f x y
    let rest := treeLevel f l
    (r.1 :: rest.1, r.2 ||| rest.2)
  | l => (l, 0)

/-- k levels. -/
def treeFold (f : Nat → Nat → Res8) : Nat → List (Option Nat) → BitVec 8 → Option Nat × BitVec 8
  | 0, l, fl => (l.headD none, fl)
  | k + 1, l, fl =>
    let r := treeLevel f l
    treeFold f k r.1 (fl ||| r.2)

/-- The node of a float sum: RNE whatever the mode (R380). -/
def addNode (t : VType) (ftz : Bool) (x y : Nat) : Res8 :=
  (fmtOf t).round 0 ftz .arith 0 (addE 0 ((fmtOf t).dec ftz x) ((fmtOf t).dec ftz y))

def minNode (t : VType) (ftz : Bool) (x y : Nat) : Res8 :=
  ((fmtOf t).enc (minV ((fmtOf t).dec ftz x) ((fmtOf t).dec ftz y)), 0)
def maxNode (t : VType) (ftz : Bool) (x y : Nat) : Res8 :=
  ((fmtOf t).enc (maxV ((fmtOf t).dec ftz x) ((fmtOf t).dec ftz y)), 0)

/-- The nodes for any type: floats as above, integers by their signedness (R241, R380). -/
def sumNode (t : VType) (ftz sat : Bool) (x y : Nat) : Res8 :=
  if t.isFloat then addNode t ftz x y
  else intOut sat t.signed t.width (readAs t.signed t.width x + readAs t.signed t.width y)
def lowNode (t : VType) (ftz : Bool) (x y : Nat) : Res8 :=
  if t.isFloat then minNode t ftz x y
  else (if readAs t.signed t.width x ≤ readAs t.signed t.width y then x else y, 0)
def highNode (t : VType) (ftz : Bool) (x y : Nat) : Res8 :=
  if t.isFloat then maxNode t ftz x y
  else (if readAs t.signed t.width y ≤ readAs t.signed t.width x then x else y, 0)

/-- Identities (R241, R380). -/
def lowIdentity (t : VType) : Nat :=
  if t.isFloat then (if (fmtOf t).inf then (fmtOf t).infMag else (fmtOf t).maxMag)
  else if t.signed then 2 ^ (t.width - 1) - 1 else 2 ^ t.width - 1
def highIdentity (t : VType) : Nat :=
  if t.isFloat then (fmtOf t).pack true (if (fmtOf t).inf then (fmtOf t).infMag else (fmtOf t).maxMag)
  else if t.signed then 2 ^ (t.width - 1) else 0

/-- An element a floating-point tree takes in: a NaN is the canonical one, and with FTZ a subnormal is read as zero of
its sign (R237), also where one active element meets no node (R239). -/
def canonLeaf (t : VType) (ftz : Bool) (x : Nat) : Nat :=
  if t.isFloat then (fmtOf t).enc ((fmtOf t).dec ftz x) else x

/-- A reduction: element 0 receives the result, every other bit is 0. -/
def reduceTo (e : Env) (t : VType) (d a : VReg) (k : MReg) (idn : Nat) (leaf : Nat → Nat) (f : Nat → Nat → Res8) :
    Half :=
  let x := e.v a
  let m := e.m k
  let l := (List.range (512 / t.width)).map (fun i =>
    if active m t.width i then some (leaf (velem t.width i x)) else none)
  let r := treeFold f (Nat.log2 (512 / t.width)) l 0
  ⟨{ Wr.none with v := [(d, BitVec.ofNat 512 (r.1.getD idn))], flags := r.2 }, none, 0⟩

def vredAddSem (t : VType) (sat : Bool) (d a : VReg) (k : MReg) (e : Env) : Half :=
  reduceTo e t d a k 0 (canonLeaf t (ftzOf e)) (sumNode t (ftzOf e) sat)
def vredMinSem (t : VType) (d a : VReg) (k : MReg) (e : Env) : Half :=
  reduceTo e t d a k (lowIdentity t) (canonLeaf t (ftzOf e)) (lowNode t (ftzOf e))
def vredMaxSem (t : VType) (d a : VReg) (k : MReg) (e : Env) : Half :=
  reduceTo e t d a k (highIdentity t) (canonLeaf t (ftzOf e)) (highNode t (ftzOf e))
def vredAndSem (t : VType) (d a : VReg) (k : MReg) (e : Env) : Half :=
  reduceTo e t d a k (2 ^ t.width - 1) id (fun x y => (x &&& y, 0))
def vredOrSem (t : VType) (d a : VReg) (k : MReg) (e : Env) : Half :=
  reduceTo e t d a k 0 id (fun x y => (x ||| y, 0))
def vredXorSem (t : VType) (d a : VReg) (k : MReg) (e : Env) : Half :=
  reduceTo e t d a k 0 id (fun x y => (x ^^^ y, 0))

/-- One round of the distance-doubling tree: every element from the distance on joins the one that far below. -/
def prefixRound (f : Nat → Nat → Res8) (dist : Nat) (l : List (Option Nat)) : List (Option Nat) × BitVec 8 :=
  let r := l.zipIdx.map (fun p =>
    if p.2 < dist then (p.1, (0 : BitVec 8)) else joinOpt f (l.getD (p.2 - dist) none) p.1)
  (r.map (·.1), (r.map (·.2)).foldl (· ||| ·) 0)

/-- k rounds, the distance doubling. -/
def prefixRounds (f : Nat → Nat → Res8) : Nat → Nat → List (Option Nat) → BitVec 8 → List (Option Nat) × BitVec 8
  | 0, _, l, fl => (l, fl)
  | k + 1, dist, l, fl =>
    let r := prefixRound f dist l
    prefixRounds f k (2 * dist) r.1 (fl ||| r.2)

def vpfxSem (t : VType) (sat : Bool) (d a : VReg) (k : MReg) (e : Env) : Half :=
  let w := t.width
  let x := e.v a
  let m := e.m k
  let old := e.old d
  let l := (List.range (512 / w)).map (fun i => if active m w i then some (canonLeaf t (ftzOf e) (velem w i x)) else none)
  let r := prefixRounds (sumNode t (ftzOf e) sat) (Nat.log2 (512 / w)) 1 l 0
  let out := r.1.zipIdx.map (fun p => if active m w p.2 then p.1.getD 0 else velem w p.2 old)
  ⟨{ Wr.none with v := [(d, vecOfEls w out)], flags := r.2 }, none, 0⟩

/-! ## Masks (R382) -/

def mandSem (d a b : MReg) (e : Env) : Half := ⟨Wr.ofM d (e.m a &&& e.m b), none, 0⟩
def morSem (d a b : MReg) (e : Env) : Half := ⟨Wr.ofM d (e.m a ||| e.m b), none, 0⟩
def mxorSem (d a b : MReg) (e : Env) : Half := ⟨Wr.ofM d (e.m a ^^^ e.m b), none, 0⟩
def mnotSem (d a : MReg) (e : Env) : Half := ⟨Wr.ofM d (~~~e.m a), none, 0⟩

/-- The number of one bits among the low n bits. -/
def onesIn : Nat → Nat → Nat
  | 0, _ => 0
  | n + 1, x => x % 2 + onesIn n (x / 2)

def mpopcSem (d : GReg) (a : MReg) (e : Env) : Half := ⟨Wr.ofG d (BitVec.ofNat 64 (onesIn 64 (e.m a).toNat)), none, 0⟩

/-! ## Dispatch of a second half -/

/-- What a V-op computes; other operations cannot stand in a second half (R300). -/
def vSemOf : Instr → Option (Env → Half)
  | .vadd o => some (vaddSem o) | .vsub o => some (vsubSem o) | .vmul o => some (vmulSem o)
  | .vdiv o => some (vdivSem o) | .vfma o => some (vfmaSem o) | .vfms o => some (vfmsSem o)
  | .vsqrt o => some (vsqrtSem o) | .vexp2 o => some (vexp2Sem o) | .vlog2 o => some (vlog2Sem o)
  | .vrcp o => some (vrcpSem o) | .vrsq o => some (vrsqSem o) | .vsinp o => some (vsinpSem o)
  | .vcosp o => some (vcospSem o) | .vtanh o => some (vtanhSem o) | .vabs o => some (vabsSem o)
  | .vneg o => some (vnegSem o) | .vmin o => some (vminSem o) | .vmax o => some (vmaxSem o)
  | .vcpys o => some (vcpysSem o) | .vcmp o => some (vcmpSem o)
  | .viadd o => some (viaddSem o) | .visub o => some (visubSem o) | .vimul o => some (vimulSem o)
  | .vimulh o => some (vimulhSem o) | .vand o => some (vandSem o) | .vor o => some (vorSem o)
  | .vxor o => some (vxorSem o) | .vandn o => some (vandnSem o) | .vimin o => some (viminSem o)
  | .vimax o => some (vimaxSem o) | .viabs t s d a k => some (viabsSem t s d a k)
  | .vshl o => some (vshlSem o) | .vshr o => some (vshrSem o) | .vsar o => some (vsarSem o)
  | .vrot o => some (vrotSem o) | .vicmp o => some (vicmpSem o)
  | .vcvt o => some (vcvtSem o) | .vftoi o => some (vftoiSem o) | .vitof o => some (vitofSem o)
  | .vqnt o => some (vqntSem o) | .vdqnt o => some (vdqntSem o)
  | .vpack t s d a b k => some (vpackSem t s d a b k) | .vunpk t h d a k => some (vunpkSem t h d a k)
  | .vrndt d k => some (vrndtSem d k) | .vrndh t d a k => some (vrndhSem t d a k)
  | .vmix d a b k => some (vmixSem d a b k) | .vperm t d a b k => some (vpermSem t d a b k)
  | .vbcast t d s k => some (vbcastSem t d s k) | .vextl t d a s k => some (vextlSem t d a s k)
  | .vinsl t d a s k => some (vinslSem t d a s k) | .vrotl t d a s k => some (vrotlSem t d a s k)
  | .vmov t d a k => some (vmovSem t d a k) | .vsel t d a b k => some (vselSem t d a b k)
  | .vredAdd t s d a k => some (vredAddSem t s d a k) | .vredMin t d a k => some (vredMinSem t d a k)
  | .vredMax t d a k => some (vredMaxSem t d a k) | .vredAnd t d a k => some (vredAndSem t d a k)
  | .vredOr t d a k => some (vredOrSem t d a k) | .vredXor t d a k => some (vredXorSem t d a k)
  | .vpfx t s d a k => some (vpfxSem t s d a k)
  | .mand d a b => some (mandSem d a b) | .mor d a b => some (morSem d a b) | .mxor d a b => some (mxorSem d a b)
  | .mnot d a => some (mnotSem d a) | .mpopc d a => some (mpopcSem d a)
  | _ => none

end Sys2Proof.Machine
end

