-- ==== Sys2Proof/Machine/Exec.lean ====
section
/-!
DEFINITION. How a bundle issues: the registers it names (R142 to R146, R302), the checks at the core (R120), the
stream elements it pops and pushes (R162), and its retirement (R145).
-/

namespace Sys2Proof.Machine

/-! ## What an operation names -/

/-- A register field of an operation: its file, its number, and whether the operation reads and writes it. -/
structure Fld where
  vec : Bool
  n   : Nat
  rd  : Bool
  wr  : Bool
deriving DecidableEq, Repr

/-- The register fields in the order D, A, B, C, the mask and special registers written, and general registers that
count as written though not through an update port (R145, R373). -/
structure Uses where
  flds : List Fld
  md   : List Nat
  sd   : List Nat
  also : List Nat
deriving DecidableEq, Repr

def gR (r : GReg) : Fld := ⟨false, r.toNat, true, false⟩
def gW (r : GReg) : Fld := ⟨false, r.toNat, false, true⟩
def gU (r : GReg) : Fld := ⟨false, r.toNat, true, true⟩
def vR (r : VReg) : Fld := ⟨true, r.toNat, true, false⟩
def vW (r : VReg) : Fld := ⟨true, r.toNat, false, true⟩
def vU (r : VReg) : Fld := ⟨true, r.toNat, true, true⟩

def Uses.of (l : List Fld) : Uses := ⟨l, [], [], []⟩
def Uses.empty : Uses := Uses.of []

def srcF : Src → List Fld
  | .reg b => [gR b]
  | .i16 _ | .i48 _ | .i64 _ => []
def vsrcF : VSrc → List Fld
  | .reg b => [vR b]
  | .imm _ => []
def gsrcF : GSrc → List Fld
  | .reg b => [gR b]
  | .imm _ => []
def addrF (a : Addr) : List Fld := [gR a.base, gR a.idx]

def aluU (o : Alu) : Uses := Uses.of ([gW o.d, gR o.a] ++ srcF o.src)
def ldU (d : GReg) (a : Addr) : Uses := Uses.of (gW d :: addrF a)
def stU (d : GReg) (a : Addr) : Uses := Uses.of (gR d :: addrF a)
def amoU (d : GReg) (m : M3) : Uses := Uses.of [gW d, gR m.base, gR m.c]
def vbinU (o : VBin) : Uses := Uses.of [vW o.d, vR o.a, vR o.b]
def vunU (o : VUn) : Uses := Uses.of [vW o.d, vR o.a]
def vintU (o : VInt) : Uses := Uses.of ([vW o.d, vR o.a] ++ vsrcF o.src)
def vcmpU (o : VCmp) : Uses := ⟨[vR o.a, vR o.b], [o.d.toNat], [], []⟩
def vconvU (o : VConv) : Uses := Uses.of [vW o.d, vR o.a]
def v2U (d a : VReg) : Uses := Uses.of [vW d, vR a]
def v3U (d a b : VReg) : Uses := Uses.of [vW d, vR a, vR b]
def dAU (d a : GReg) : Uses := Uses.of [gW d, gR a]
def dABU (d a b : GReg) : Uses := Uses.of [gW d, gR a, gR b]
def maskU (d : MReg) : Uses := ⟨[], [d.toNat], [], []⟩

/-- The registers that an operation names. Events name none. Log 31, DEDUCED. -/
def uses : Instr → Uses
  | .add o | .sub o | .mul o | .mulh o | .div o | .rem o | .and o | .or o | .xor o | .andn o | .orn o
  | .shl o | .shr o | .sar o | .rot o | .min o | .max o | .cmp _ o => aluU o
  | .clz o | .ctz o | .popc o | .brev o => dAU o.d o.a
  | .extr _ f => dAU f.d f.a
  | .insr f => Uses.of [gU f.d, gR f.a]
  | .li d _ => Uses.of [gW d]
  | .lea d a => ldU d a
  | .csel d a b c => Uses.of [gW d, gR a, gR b, gR c]
  | .brcc _ a _ | .brz a _ | .brnz a _ | .jr a => Uses.of [gR a]
  | .call a _ => Uses.of [gW a]
  | .loop a _ => Uses.of [gU a]
  | .ld _ o | .lds _ o | .ldsClr _ o => ldU o.d o.ad
  | .st _ o | .stf o | .pst o | .pstF o | .xst o | .xstF o => stU o.d o.ad
  | .vld _ o => Uses.of (vW o.d :: addrF o.ad)
  | .vst _ o => Uses.of (vR o.d :: addrF o.ad)
  | .vldDesc _ d _ m => Uses.of [vW d, gR m.base, gW m.c]
  | .vstDesc _ d _ m => Uses.of [vR d, gR m.base, gR m.c]
  | .fec _ d a | .ldv d a | .cstor _ d a | .bara d a => ldU d a
  | .prf a => Uses.of (addrF a)
  | .amoAdd _ _ d m | .amoAnd _ _ d m | .amoOr _ _ d m | .amoXor _ _ d m | .amoMin _ _ d m | .amoMax _ _ d m
  | .amoSwap _ _ d m | .amoFadd _ d m | .barmax d m => amoU d m
  | .cas _ _ d m => Uses.of [gU d, gR m.base, gR m.c]
  | .msend v a => Uses.of [vR v, gR a]
  | .mrecv v a => Uses.of [vW v, gR a]
  | .mrecvTrap v | .wpop v => Uses.of [vW v]
  | .barw d a => stU d a
  | .qput d a _ | .qget d a _ => dAU d a
  | .wpush d v => Uses.of [gW d, vR v]
  | .waitc d a b | .launchInstr d a b | .spawn d a b | .slout _ d a b => dABU d a b
  | .mfs d _ | .rdcyc d => Uses.of [gW d]
  | .mts a r => ⟨[gR a], [], [r.toNat], []⟩
  | .trap _ a => Uses.of [gR a]
  | .skimw d a | .jwait d a | .jpoll d a | .jcancel d a | .slref d a | .slunref d a => dAU d a
  | .vadd o | .vsub o | .vmul o | .vdiv o | .vmin o | .vmax o | .vcpys o => vbinU o
  | .vfma o | .vfms o => Uses.of [vU o.d, vR o.a, vR o.b]
  | .vsqrt o | .vexp2 o | .vlog2 o | .vrcp o | .vrsq o | .vsinp o | .vcosp o | .vtanh o | .vabs o | .vneg o => vunU o
  | .vcmp o | .vicmp o => vcmpU o
  | .viadd o | .visub o | .vimul o | .vimulh o | .vand o | .vor o | .vxor o | .vandn o | .vimin o | .vimax o
  | .vshl o | .vshr o | .vsar o | .vrot o => vintU o
  | .viabs _ _ d a _ | .vunpk _ _ d a _ | .vmov _ d a _ | .vredAdd _ _ d a _ | .vredMin _ d a _ | .vredMax _ d a _
  | .vredAnd _ d a _ | .vredOr _ d a _ | .vredXor _ d a _ | .vpfx _ _ d a _ => v2U d a
  | .vcvt o | .vftoi o | .vitof o => vconvU o
  | .vqnt o => ⟨[vW o.d, vR o.a, gR o.s, gR o.l], [], [], [o.s.toNat]⟩
  | .vdqnt o => Uses.of [vW o.d, vR o.a, gR o.s, gR o.l]
  | .vpack _ _ d a b _ | .vperm _ d a b _ | .vsel _ d a b _ => v3U d a b
  | .vrndt d _ => ⟨[vW d], [], [0x08], []⟩
  | .vrndh _ d a _ => Uses.of [vW d, gR a]
  | .vmix d a b _ => Uses.of [vW d, vR a, gR b]
  | .vbcast _ d s _ => Uses.of (vW d :: gsrcF s)
  | .vextl _ d a s _ => Uses.of ([gW d, vR a] ++ gsrcF s)
  | .vinsl _ d a s _ => Uses.of ([vW d, gR a] ++ gsrcF s)
  | .vrotl _ d a s _ => Uses.of ([vW d, vR a] ++ gsrcF s)
  | .mand d _ _ | .mor d _ _ | .mxor d _ _ => maskU d
  | .mnot d _ => maskU d
  | .mpopc d _ => Uses.of [gW d]
  | .mxrun _ d e | .mxcarryLd _ d e | .mxcarrySt _ d e | .cucopy _ d e | .slput _ d e | .slhash d e
  | .lksend d e | .lkrecv d e | .lkred d e => dAU d e.a
  | .cufill _ d e b c => Uses.of [gW d, gR e.a, gR b, vR c]
  | .culdb _ d e b | .slget d e b => dABU d e.a b
  | .cudigest _ d e b | .slswap d e b => Uses.of [gU d, gR e.a, gR b]
  | .scfg _ e => Uses.of [gR e.a]
  | .sbind _ k => Uses.of [⟨true, k.toNat, false, false⟩]
  | .spos d _ set => Uses.of (gW d :: (match set with
      | some b => [gR b]
      | none => []))
  | _ => Uses.empty

/-! ## The checks of encodings and windows (R144, R145, R302) -/

def Uses.src (u : Uses) (vec : Bool) : List Nat := (u.flds.filter (fun f => f.vec == vec && f.rd)).map (·.n)
def Uses.dst (u : Uses) (vec : Bool) : List Nat := (u.flds.filter (fun f => f.vec == vec && f.wr)).map (·.n)

/-- The general sources that count under the bank rule. -/
def Uses.gCount (u : Uses) : List Nat := (u.src false).filter (fun n => n != 0 && !(u.dst false).contains n)

/-- The vector sources that count: not through the update port, and not bound to a stream. -/
def Uses.vCount (t : Thread) (u : Uses) : List Nat :=
  (u.src true).filter (fun n => !(u.dst true).contains n && (boundTo t (BitVec.ofNat 5 n)).isNone)

/-- Two distinct numbers of one parity. -/
def bankClash (l : List Nat) : Bool := l.any (fun a => l.any (fun b => a != b && a % 2 == b % 2))

/-- Both halves write one register. -/
def writeClash (a b : Uses) : Bool :=
  (a.dst false ++ a.also).any (b.dst false ++ b.also).contains
    || (a.dst true).any (b.dst true).contains
    || a.md.any b.md.contains
    || a.sd.any b.sd.contains

/-- The first register outside the window, as INFO of REGW. -/
def outside (t : Thread) (u : Uses) : Option Nat :=
  (u.flds.find? (fun f => if f.vec then t.vsize ≤ f.n else t.gsize ≤ f.n)).map (fun f => f.n + (if f.vec then 128 else 0))

def spReadable (r : Nat) : Bool := r ≤ 0x11 || (0x14 ≤ r && r ≤ 0x17)
def spWritable (r : Nat) : Bool :=
  r == 0x00 || r == 0x01 || r == 0x08 || r == 0x0A || r == 0x0B || r == 0x0C || (0x14 ≤ r && r ≤ 0x17)

/-- Whether a value may be written to a special register (R147, R154). -/
def spValueOk (r : Nat) (v : Word) : Bool :=
  if r = 0 then decide ((v.extractLsb' 0 3).toNat ≤ 4)
  else if 0x14 ≤ r ∧ r ≤ 0x17 then (v.extractLsb' 57 3) != 7
  else true

/-- Check 6 of R302. -/
def spCheck (s : State) (t : Thread) : Instr → Bool
  | .mfs _ r => spReadable r.toNat
  | .mts a r => spWritable r.toNat && (t.gsize ≤ a.toNat || spValueOk r.toNat (readG s t a))
  | _ => true

/-- Whether a half breaks the bank rule by itself (R144). -/
def Uses.clash (t : Thread) (u : Uses) : Bool := bankClash u.gCount || bankClash (u.vCount t)

/-- IENC and REGW of a decoded bundle (R302, R142), with whether the second half alone is at fault (R123). The second
half's uses are empty for a lone operation. Log 27, DEDUCED. -/
def bundleCheck (s : State) (t : Thread) (i : Instr) (v : Option Instr) : Option (TrapInfo × Bool) :=
  let a := uses i
  let b := match v with
    | some j => uses j
    | none => Uses.empty
  if bankClash (a.gCount ++ b.gCount) || bankClash (a.vCount t ++ b.vCount t) || writeClash a b then
    some (mkTrap Cause.ienc 2 0, b.clash t && !a.clash t && !writeClash a b)
  else if !spCheck s t i then some (mkTrap Cause.ienc 5 0, false)
  else
    match outside t a, outside t b with
    | some n, _ => some (mkTrap Cause.regw n 0, false)
    | none, some n => some (mkTrap Cause.regw n 0, true)
    | none, none => none

/-! ## Stream elements (R131, R154, R162) -/

def strmTrap (n cause : Nat) (va : Word) (t : Thread) : TrapInfo :=
  { mkTrap Cause.strm (n + cause * 256) va with
    pos := BitVec.ofNat 64 (streamAt t n).pos,
    spec := BitVec.ofNat 64 ((streamAt t n).pos + (streamAt t n).fetched.length) }

/-- The streams popped by a half: those bound for input to a register it names as a source, each once.
Log 32, DEDUCED. -/
def popsOf (t : Thread) (u : Uses) : List (Nat × Nat) :=
  ((u.src true).filterMap (fun n =>
    match boundTo t (BitVec.ofNat 5 n) with
    | some k => if (streamAt t k).out then none else some (k, n)
    | none => none)).dedup

/-- What a pop finds: an element, an element that has not arrived, or a trap. -/
inductive PopRes where
  | elem (v : Vec)
  | absent
  | trap (t : TrapInfo)
deriving DecidableEq, Repr

def popRes (t : Thread) (k : Nat) : PopRes :=
  let x := streamAt t k
  if x.exhausted then .trap (strmTrap k 0 0 t)
  else
    match x.fetched with
    | .fault c va _ :: _ => .trap (strmTrap k c va t)
    | .data v :: _ =>
      match watchHit t (x.addr x.pos).toNat 64 true false with
      | some i => .trap (mkTrap Cause.watch i (x.addr x.pos))
      | none => .elem v
    | .asked _ :: _ | [] => .absent

/-- In plumb mode what a stream has asked for first completes at its deadline and not before (R179). -/
def streamDue (s : State) (t : Thread) (n : Nat) : Bool :=
  match core? s t.o t.core with
  | some c => !plumbOf s t.o || (streamAt t n).dues.headD 0 < c.cyc
  | none => true

/-- Whether a bundle must wait for the element that it pops. -/
def popWaits (s : State) (t : Thread) (k : Nat) : Bool :=
  popRes t k == .absent || (!(streamAt t k).exhausted && !streamDue s t k)

/-- Whether a scratchpad range of another core fails that core's layout check (R157, R158, R330). -/
def layoutMiss (s : State) (o : Nat) (loc : Loc) (n : Nat) : Bool :=
  match loc with
  | .spad j off => match core? s o j with
    | some c => spadSize c < off + n || inShadow c off n
    | none => true
  | .mem _ _ => false

/-- What a push meets before it is made: exhaustion, its translation, the layout of another core's scratchpad, a watchpoint. -/
def pushChk (s : State) (w : Owner) (t : Thread) (k : Nat) : Chk :=
  let x := streamAt t k
  if x.exhausted then .bad (strmTrap k 0 0 t)
  else
    match locate s w t .st .stream true (x.addr x.pos) 64 with
    | .ok l =>
      if layoutMiss s t.o l 64 then .bad (protTrap .stream 2 (x.addr x.pos)) else
      match watchHit t (x.addr x.pos).toNat 64 false true with
      | some i => .bad (mkTrap Cause.watch i (x.addr x.pos))
      | none => .ok l
    | c => c

/-- While a thread has replicated writes outstanding to a die whose buffer of 4,096 is full, its further ones wait (R186). -/
def replFull (s : State) (o tid : Nat) (loc : Loc) : Bool :=
  match loc with
  | .mem l _ => l.cls == 1 && s.rwrites.any (fun w => w.o == o && w.tid == tid && w.pending.any (fun d =>
      4096 ≤ (s.rwrites.filter (fun x => x.buffered.contains d)).length))
  | .spad _ _ => false

/-- The output streams that a half pushes. -/
def pushesOf (t : Thread) (u : Uses) : List Nat :=
  (u.dst true).filterMap (fun n =>
    match boundTo t (BitVec.ofNat 5 n) with
    | some k => if (streamAt t k).out then some k else none
    | none => none)

def popTraps (t : Thread) (u : Uses) : List (Option TrapInfo) :=
  (popsOf t u).map (fun p => match popRes t p.1 with
    | .trap x => some x
    | .elem _ | .absent => none)

def pushTraps (s : State) (w : Owner) (t : Thread) (u : Uses) : List (Option TrapInfo) :=
  (pushesOf t u).map (fun k => match pushChk s w t k with
    | .bad x => some x
    | .ok _ | .miss _ => none)

def pushMiss (s : State) (w : Owner) (t : Thread) (u : Uses) : Option Nat :=
  ((pushesOf t u).filterMap (fun k => match pushChk s w t k with
    | .miss p => some p
    | .ok _ | .bad _ => none)).head?

/-! ## Waiting -/

/-- Join the walk for a page, or start one, and wait for it (R137). -/
def walkFor (s : State) (t : Thread) (page : Nat) : State × Wait :=
  match s.walks.find? (fun k => k.o == t.o && k.page == page && k.core == t.core) with
  | some k =>
    ({ s with walks := s.walks.map (fun q => if q.id = k.id then { q with joined := q.joined ++ [t.tid] } else q) },
      .walk k.id)
  | none =>
    ({ s with walks := s.walks ++ [⟨s.nextId, t.o, t.core, page, [t.tid], []⟩], nextId := s.nextId + 1 },
      .walk s.nextId)

/-- A wait that is held as it begins is counted from then: for a trap record, at the core's own scratchpad, or at the
link unit (R152, R407). -/
def countFrom (s : State) (why : Wait) : Option Nat :=
  match why with
  | .inbox | .linkSend _ _ _ _ _ | .linkRecv _ _ _ _ _ | .linkRed _ _ => some 0
  | .reply r => if s.reqs.any (fun q => q.id == r && q.held) then some 0 else none
  | _ => none

/-- In plumb mode a walk stretches the core: the slot in which the bundle met the miss comes again (R179). -/
def unslot (s : State) (c : Cur) : State :=
  onThr (onCore s c.o c.j (fun k => { k with cyc := k.cyc - 1 })) c.o c.tid (fun t =>
    { t with slots := match t.slots with
        | some (n + 1) => some n
        | some 0 | none => none })

/-- What plumb mode makes of a wait as it begins: a walk stretches the core, and a network access has its deadline. -/
def plumbWait (s : State) (c : Cur) (why : Wait) : State :=
  if !plumbOf s c.o then s
  else
    match why with
    | .walk _ => unslot s c
    | .reply r => (s.reqs.filter (fun q => q.base == r && !q.held)).foldl (fun s q => plumbDue s c.o c.tid q.tgt) s
    | .release => onThr s c.o c.tid (fun t => { t with due := some (Nat.max (t.due.getD 0) t.relDue) })
    | .stream n | .scommit n => onThr s c.o c.tid (fun t => { t with due := some (Nat.max (t.due.getD 0) ((streamAt t n).dues.headD 0)) })
    | _ => s

/-- A thread waits: with its bundle issued, or to issue it again. -/
def putWait (s : State) (c : Cur) (why : Wait) (pend : Option Bundle) : State :=
  let s := plumbWait s c why
  onThr s c.o c.tid (fun t => { t with status := .waiting why, pend := pend, wcount := countFrom s why, waitAt := s.tick })

/-! ## Retiring -/

/-- A bundle retires: registers, streams, acquire, and what ends with it (R120, R145). -/
def retire (s : State) (o tid : Nat) (pc : Word) (len : Nat) (wx wv : Wr) : State :=
  let w := wx.join wv
  let s := applyStreams (applyRegs s o tid w) o tid w
  let s := match w.acq with
    | some sc => acquire s o tid sc
    | none => s
  let s := advance s o tid (w.npc.getD (pc + BitVec.ofNat 64 len))
  match thr? s o tid, w.fin with
  | some _, .go => s
  | some t, .halt => haltThread s t
  | some t, .retain k => retainThread s t k
  | some t, .yield => yieldThread s t
  | none, _ => s

/-- The end of a wait: the waiting bundle retires with what its first half received. -/
def finishWait (s : State) (o tid : Nat) (wx : Wr) : State :=
  match thr? s o tid with
  | some t =>
    match t.pend with
    | some b => retire s o tid b.pc b.len wx b.vw
    | none => s
  | none => s

/-- A waiting bundle traps: nothing of it retires. -/
def trapWait (s : State) (o tid : Nat) (ti : TrapInfo) : State :=
  match thr? s o tid with
  | some t =>
    match t.pend with
    | some b => takeTrap s o tid ti b.pc (some (if b.len = 8 then 0 else if b.len = 12 then 1 else 2)) false false
    | none => takeTrap s o tid ti t.pc (some 0) false false
  | none => s

/-! ## Issue -/

def lenBits (len : Nat) : Nat := if len = 8 then 0 else if len = 12 then 1 else 2

/-- What the second half computes. -/
def halfOf (e : Env) : Half :=
  match e.c.v with
  | some j => match vSemOf j with
    | some f => f e
    | none => ⟨Wr.none, none, 0⟩
  | none => ⟨Wr.none, none, 0⟩

/-- The dither source moves past the draws of a bundle. -/
def takeDraws (s : State) (t : Thread) (n : Nat) : State :=
  if n = 0 then s else onCore s t.o t.core (fun c => { c with dither := c.dither + n })

/-- Flags of what a first half completes with. -/
def XRes.flags : XRes → BitVec 8
  | .ok _ w | .sub _ w _ _ => w.flags
  | .wait _ _ | .again _ _ | .trapC _ | .trapT _ _ => 0

def XRes.core : XRes → Option TrapInfo
  | .trapC t => some t
  | .ok _ _ | .wait _ _ | .again _ _ | .trapT _ _ | .sub _ _ _ _ => none

/-- Of the lowest causes of both halves: the trap and whether it was met in the second half alone (R120, R123). -/
def pickTrap (x v : Option TrapInfo) : Option (TrapInfo × Bool) :=
  match x, v with
  | some a, some b => if b.cause < a.cause then some (b, true) else some (a, false)
  | some a, none => some (a, false)
  | none, some b => some (b, true)
  | none, none => none

/-- FPX of a bundle: it belongs to the second half when that half alone raised an enabled flag (R123).
Log 15, DEDUCED. -/
def fpxOf (t : Thread) (xf vf : BitVec 8) : Option TrapInfo × Option TrapInfo :=
  if enabledFlags t.fpc xf then (fpxTrap t.fpc (xf ||| vf), none) else (none, fpxTrap t.fpc (xf ||| vf))

/-- Complete, wait or trap, once every check at the core has passed; a bundle that waits is kept as `b`. -/
def settleX (s : State) (c : Cur) (b : Bundle) : XRes → State
  | .ok s wx => retire s c.o c.tid c.pc c.len wx b.vw
  | .wait s why => putWait s c why (some b)
  | .again s why => putWait s c why none
  | .sub s wx k id =>
    let s := onThr (applyRegs s c.o c.tid wx) c.o c.tid (fun t => { t with inW := some (k, id, b) })
    putWait s c (.job k id) (some b)
  | .trapT s ti => takeTrap s c.o c.tid ti c.pc (some (lenBits c.len)) false false
  | .trapC ti => takeTrap s c.o c.tid ti c.pc (some (lenBits c.len)) false false

/-- The state before a bundle, with no bundle issuing. -/
def bare (s : State) : State := { s with cur := none }

/-- What the second half of a bundle names. -/
def usesV (c : Cur) : Uses :=
  match c.v with
  | some j => uses j
  | none => Uses.empty

/-- The streams that a bundle pops, each once, with the registers they are bound to (R162). -/
def popsIn (t : Thread) (c : Cur) (i : Instr) : List (Nat × Nat) := (popsOf t (uses i) ++ popsOf t (usesV c)).dedup

/-- The output streams that a bundle pushes. -/
def pushesIn (t : Thread) (c : Cur) (i : Instr) : List Nat := pushesOf t (uses i) ++ pushesOf t (usesV c)

/-- Whether a push of a bundle must wait for a full buffer of replicated writes. -/
def pushWaits (s : State) (c : Cur) (t : Thread) (w : Owner) (i : Instr) : Bool :=
  (pushesIn t c i).any (fun k => match pushChk s w t k with
    | .ok l => replFull s t.o t.tid l
    | .miss _ | .bad _ => false)

/-- The translations that a bundle's pushes find at issue (R162). -/
def pushLeaves (s : State) (c : Cur) (t : Thread) (w : Owner) (i : Instr) : SMap Leaf :=
  (pushesIn t c i).foldl (fun m k => match pushChk s w t k with
    | .ok (.mem l _) => put m k l
    | .ok (.spad _ _) | .miss _ | .bad _ => m) []

/-- The popped elements, by register. -/
def popVals (t : Thread) (ps : List (Nat × Nat)) : List (VReg × Vec) :=
  ps.map (fun p => (BitVec.ofNat 5 p.2, match popRes t p.1 with
    | .elem v => v
    | .absent | .trap _ => 0))

/-- What both halves of a bundle read from. -/
def envIn (s : State) (c : Cur) (t : Thread) (w : Owner) (i : Instr) : Env := ⟨s, c, t, w, popVals t (popsIn t c i)⟩

/-- What the first half reads from: the draws of the second come before its own. -/
def envX (s : State) (c : Cur) (t : Thread) (w : Owner) (i : Instr) : Env :=
  let e := envIn s c t w i
  { e with s := takeDraws s t (halfOf e).draws }

/-- The dither draws of a bundle, in its second half or as a lone V-op; they are not returned when it traps (R383). -/
def drawsOf (s : State) (c : Cur) (t : Thread) (w : Owner) (i : Instr) : Nat :=
  (halfOf (envIn s c t w i)).draws + (match vSemOf i with
    | some f => (f (envX s c t w i)).draws
    | none => 0)

/-- What the second half writes, with the bundle's pops. -/
def wrV (s : State) (c : Cur) (t : Thread) (w : Owner) (i : Instr) : Wr :=
  { (halfOf (envIn s c t w i)).w with pops := (popsIn t c i).map (·.1) }

/-- The bundle as a wait of it keeps it. -/
def bundleOf (s : State) (c : Cur) (t : Thread) (w : Owner) (i : Instr) : Bundle :=
  ⟨i, c.pc, c.len, wrV s c t w i, pushLeaves s c t w i⟩

/-- Issue a bundle whose encoding and registers are in order. -/
def issueOk (s : State) (c : Cur) (t : Thread) (w : Owner) (i : Instr) (sem : Env → XRes) : State :=
  let ux := uses i
  let uv := usesV c
  match (popsIn t c i).find? (fun p => popWaits s t p.1) with
  | some p => putWait s c (.stream p.1) none
  | none =>
    match pushMiss s w t ux, pushMiss s w t uv with
    | some page, _ | none, some page =>
      let (s, why) := walkFor s t page
      putWait s c why none
    | none, none =>
      let h := halfOf (envIn s c t w i)
      let x := sem (envX s c t w i)
      let f := fpxOf t x.flags h.w.flags
      let xt := lowestOf (popTraps t ux ++ pushTraps s w t ux ++ [x.core, f.1])
      let vt := lowestOf (popTraps t uv ++ pushTraps s w t uv ++ [h.trap, f.2])
      match x with
      | .again s1 (.walk k) => putWait s1 c (.walk k) none
      | .ok _ _ | .wait _ _ | .again _ _ | .trapC _ | .trapT _ _ | .sub _ _ _ _ =>
        match pickTrap xt vt with
        | some (ti, vh) => takeTrap (takeDraws s t (drawsOf s c t w i)) c.o c.tid ti c.pc (some (lenBits c.len)) false vh
        | none =>
          if pushWaits s c t w i then putWait s c .apply none
          else settleX s c (bundleOf s c t w i) x

/-- A thread instruction: the bundle that its core is issuing (R120, R145). Log 16, DESIGN CHOICE. -/
def runX (i : Instr) (sem : Env → XRes) (s : State) : Host.Outcome State Fault Refusal :=
  match s.cur with
  | none => .fault .noIssuingThread
  | some c =>
    match thr? s c.o c.tid, owner? s c.o with
    | some t, some w =>
      match bundleCheck s t i c.v with
      | some (ti, vh) => .next (takeTrap (bare s) c.o c.tid ti c.pc (some (lenBits c.len)) false vh)
      | none => .next (issueOk (bare s) c t w i sem)
    | _, _ => .fault .noIssuingThread

/-- A half alone in its bundle as a first half. -/
def Half.asX (h : Half) (s : State) (t : Thread) : XRes :=
  match h.trap with
  | some ti => .trapC ti
  | none => .ok (takeDraws s t h.draws) h.w

/-- A lone V-op. -/
def runV (i : Instr) (sem : Env → Half) (s : State) : Host.Outcome State Fault Refusal :=
  runX i (fun e => (sem e).asX e.s e.t) s

end Sys2Proof.Machine
end

