-- ==== Sys2Proof/Machine/Targets.lean ====
section
/-!
DEFINITION. What a target does with a request (R170, R171, R180, R181, R186, R188, R192, R202, R206, R207, R217, R219,
R220, R224, R338 to R345, R350 to R357, R411), and when it may (R194, R197).
-/

namespace Sys2Proof.Machine

/-! ## Order (R13, R169, R175, R194, R197) -/

/-- The byte ranges of a request in physical memory. -/
def Req.spans (r : Req) : List (Nat × Nat) :=
  match r.kind with
  | .cstor lines _ _ _ => lines.map (fun l => (l.2.1, 256))
  | _ => [(r.pa, r.n)]

def overlap (a b : List (Nat × Nat)) : Bool := a.any (fun x => b.any (fun y => x.1 < y.1 + y.2 && y.1 < x.1 + x.2))

def Target.isScratch : Target → Bool
  | .scratch _ _ => true
  | .bank _ _ _ | .replica _ _ _ _ | .hostLine _ | .device | .stack _ => false

/-- Whether an earlier access of the same thread must be performed first: a common byte or the same target. The pieces
of one access have no order among them (R191). -/
def blocks (a r : Req) : Bool :=
  r.tid < 2 ^ 24 && askedBefore r.o r.tid r.iss.born r.base a &&
    (a.tgt == r.tgt || (!a.tgt.isScratch && !r.tgt.isScratch && overlap a.spans r.spans))

/-- Posted stores: their bytes are in their core's L1 copy from issue on (R193). -/
def ReqKind.isStore : ReqKind → Bool
  | .store _ | .vstore _ _ _ | .stf _ | .push _ _ => true
  | _ => false

/-- Whether a posted entry that a thread made before number `id`, and that has not been applied, stores to these bytes of
core j's scratchpad (R194); a refused one waits for its trap's disposition and holds nothing up (R130). -/
def entryBlocks (e : JEnt) (tid born id j : Nat) (spans : List (Nat × Nat)) : Bool :=
  postedBefore tid born id e && e.dest == j && overlap [(e.off, e.data.length)] spans &&
    (match e.phase with
     | .ready | .busy _ => true
     | .acked | .refusing _ | .late | .refused _ _ _ => false)

/-- No such entry stands before an access to these bytes of a target. -/
def entriesDone (s : State) (tid born id : Nat) (t : Target) (spans : List (Nat × Nat)) : Bool :=
  match t with
  | .scratch o j => s.cores.all (fun p => p.1 / 1024 != o || p.2.journal.all (fun e => !entryBlocks e tid born id j spans))
  | .bank _ _ _ | .replica _ _ _ _ | .hostLine _ | .device | .stack _ => true

/-- An arrival at an exchange barrier leaves only after every earlier XST of its core is acknowledged (R183). -/
def xstsDone (s : State) (r : Req) : Bool :=
  match r.kind with
  | .arrive _ _ =>
    Memory.nat s.mem (r.pa + 12) 1 % 2 == 0 ||
      (match core? s r.o r.core with
       | some c => c.journal.all (fun e => e.kind != .xst || r.id ≤ e.after)
       | none => true)
  | _ => true

/-- Whether a release at a scope narrower than .sys may be performed before what it orders, as only agents outside its
instance may see it (R197): what it waits for are stores alone, so that nothing that an agent inside waits for can wait for
that agent. Log 88, DESIGN CHOICE. -/
def mayBeEarly (s : State) (r : Req) (sc : Scope) : Bool :=
  scopeRank sc < 4 && entriesAcked s r.o r.tid r.iss.born r.base
    && s.reqs.all (fun a => !askedBefore r.o r.tid r.iss.born r.base a || a.kind.isStore)

/-- Whether a request may leave its core: its release conditions hold, and those of each FENCE.rel before it and of an
exchange arrival. -/
def hasLeft (s : State) (r : Req) : Bool :=
  xstsDone s r && r.iss.fence.all (fun f => releaseOk s r.o r.tid r.iss.born f.2 f.1) &&
    (match r.rel with
     | some sc => releaseOk s r.o r.tid r.iss.born sc r.base || mayBeEarly s r sc
     | none => true)

/-- The end of a request's path: the die, and there a tile's port, the host bridge's port 124 (R23), or a stack. -/
def endOf (s : State) (d : Nat) (t : Target) : Nat × Nat :=
  match t with
  | .scratch o j | .bank o j _ | .replica o _ j _ => let p := placeOf s o j; (p.die, p.col * 8 + p.row)
  | .hostLine _ | .device => (t.die s d, 124)
  | .stack line => (t.die s d, 128 + stackOf (line * 256))

/-- Whether packets of two cores to one target keep the order in which they were sent: those of one core, and those that
cross from one die to another (R13, R175). Within a tile each bank and the scratchpad serve by themselves, in the order of
arrival (R171, R194). -/
def oneWay (s : State) (o j o' j' : Nat) (t : Target) : Bool :=
  let d := (placeOf s o j).die
  (o == o' && j == j') || (d == (placeOf s o' j').die && d != t.die s d)

/-- Whether number a was sent before what has number r, or has not yet been sent. -/
def sentFirst (a r : Option Nat) : Bool :=
  match a, r with
  | some x, some y => x < y
  | some _, none => true
  | none, _ => false

/-- Whether a request is still on its way: one combined at a switch is so while the request that carries it is. -/
def underWay (s : State) (a : Req) : Bool :=
  match a.combined with
  | none => !a.held
  | some (up, low) => s.combines.any (fun c => c.upper.id == up && c.lower.id == low && s.reqs.any (·.id == c.id))

/-- The whole sectors that byte ranges touch. -/
def wholeSectors (l : List (Nat × Nat)) : List (Nat × Nat) := l.map (fun x => (x.1 / 64 * 64, (x.1 % 64 + x.2 + 63) / 64 * 64))

/-- The whole sectors of a request. -/
def Req.sectors (r : Req) : List (Nat × Nat) := wholeSectors r.spans

/-- A store of the core whose bytes are in its L1 copy already must be performed before a later request whose reply
teaches that copy reads its target (R169, R193). -/
def fillsBefore (a r : Req) : Bool :=
  a.o == r.o && a.core == r.core && a.kind.isStore && !r.kind.isStore && !a.tgt.isScratch && !r.tgt.isScratch
    && overlap a.sectors r.sectors

/-- Packets of one path arrive in the order in which they were sent (R13, R175); a combined request has the place that the
requests it carries had (R177). -/
def ahead (s : State) (a r : Req) : Bool :=
  a.base != r.base && r.tid < 2 ^ 24 && underWay s a
    && ((sentFirst a.iss.sent r.iss.sent && a.tgt == r.tgt && oneWay s a.o a.core r.o r.core r.tgt)
        || (a.base < r.base && fillsBefore a r))

/-- Whether a posted entry of core k, sent before a packet of core j to the scratchpad it names, has still to arrive there
(R13, R175). -/
def entryAhead (s : State) (o k : Nat) (e : JEnt) (o' j : Nat) (t : Target) (sent : Option Nat) : Bool :=
  t == .scratch o e.dest && e.phase == .ready && sentFirst e.iss.sent sent && oneWay s o k o' j t

/-- No posted entry stands before a packet of core j to a target. -/
def entriesPast (s : State) (o j : Nat) (t : Target) (sent : Option Nat) : Bool :=
  !t.isScratch || s.cores.all (fun p => p.2.journal.all (fun e => !entryAhead s (p.1 / 1024) (p.1 % 1024) e o j t sent))

/-- The agents of one instance of a scope as a thread's packed id has them (R197). -/
def inInstance (s : State) (o : Nat) (sc : Scope) (tid tid' : Nat) : Bool :=
  match sc with
  | .core => tidCore tid == tidCore tid'
  | .clus => tidClus tid == tidClus tid'
  | .die => (placeOf s o (tidCore tid)).die == (placeOf s o (tidCore tid')).die
  | .pkg | .sys => true

/-- Whether a read of these sectors of a target by a thread must wait for what a release performed early orders: the pair
would synchronise, each standing in the other's instance (R197). A plain load counts as one that FENCE.acq may follow.
Log 88, DESIGN CHOICE. -/
def earlyBars (s : State) (o tid : Nat) (acq : Option Scope) (t : Target) (spans : List (Nat × Nat)) : Bool :=
  s.early.any (fun x => x.o == o
    && (if t.isScratch || x.tgt.isScratch then t == x.tgt else overlap x.spans spans)
    && (tid == 2 ^ 24 || (inInstance s o x.scope x.tid tid && (match acq with
        | some sc => inInstance s o sc tid x.tid
        | none => true))))

/-- Whether a request may be served now. Log 74, DESIGN CHOICE. -/
def mayServe (s : State) (r : Req) : Bool :=
  s.reqs.all (fun a => !blocks a r && !ahead s a r) && entriesDone s r.tid r.iss.born r.base r.tgt r.spans && hasLeft s r
    && entriesPast s r.o r.core r.tgt r.iss.sent && (r.kind.isStore || !earlyBars s r.o r.tid r.acq r.tgt r.sectors)

/-- What reaches a tile whose image is being exchanged is held (R134). -/
def tileMoves (s : State) (t : Target) : Bool :=
  match t with
  | .scratch o j | .bank o j _ | .replica o _ j _ => (placeOf s o j).mv
  | .hostLine _ | .device | .stack _ => false

/-! ## Reading and writing at a target -/

def spotOf (r : Req) : Spot :=
  match r.tgt with
  | .scratch o j => .spad o j r.pa
  | .replica _ die _ _ => .mem (replPa die r.pa)
  | .bank _ _ _ | .hostLine _ | .device | .stack _ => .mem r.pa

/-- The bytes of a request. -/
def reqRead (s : State) (r : Req) : List Byte := readAt s (spotOf r) r.n

def reqMark (s : State) (r : Req) : Nat := markIn s (spotOf r) r.n

def Spot.addr : Spot → Nat
  | .mem a => a
  | .spad _ _ a => a
  | .bsram _ _ a => a

def reqTouch (s : State) (r : Req) (wr : Bool) : State :=
  if wr then touchWrite s r.tgt (spotOf r).addr else touchRead s r.tgt (spotOf r).addr

/-- Whether a write replaces its block whole and clears its mark: a stream's push is not among those that do (R411). -/
def Req.replaces (r : Req) (bs : List (Byte × Bool)) : Bool :=
  r.n == 64 && r.pa % 64 == 0 && bs.all (·.2) && (match r.kind with
    | .push _ _ => false
    | _ => true)

/-- A write at a target; a whole 64-byte block clears its mark (R411), and a mask of zeros writes nothing. -/
def reqWrite (s : State) (r : Req) (bs : List (Byte × Bool)) : State :=
  if bs.all (fun b => !b.2) then s
  else
    let s := if r.replaces bs then writeBlocks s (spotOf r) (bs.map (·.1))
      else writeMaskAt s (spotOf r) bs
    reqTouch s r true

/-! ## Replies -/

def Req.reply (r : Req) : Reply :=
  ⟨r.id, r.o, r.tid, r.core, r.tgt, [], [], none, none, true, false, [], [], none, [], r.part, r.va⟩

/-- The access kind that a trap of this request names (R122). -/
def ReqKind.acc : ReqKind → AccKind
  | .load _ _ _ | .vload _ _ _ | .prf | .ldv _ | .barw _ | .waitc _ _ | .slget _ _ _ => .load
  | .store _ | .vstore _ _ _ | .stf _ | .cstor _ _ _ _ => .store
  | .lds clr _ _ _ => if clr then .atomic else .load
  | .fec _ _ | .amo _ _ _ _ _ | .fadd _ _ | .cas _ _ _ _ _ | .arrive _ _ | .qput _ _ _ _ | .qget _ _ _ _ _
  | .mrecv _ | .slput _ _ _ _ | .slref _ _ | .slunref _ _ | .slswap _ _ _ => .atomic
  | .fetch _ _ | .push _ _ => .stream

/-- The place of a piece in its access (R191). -/
def Req.place (r : Req) : Nat :=
  match r.part with
  | some p => p.2
  | none => 0

/-- The address that a trap of this request names: that of its access. -/
def Req.vaW (r : Req) : Word := BitVec.ofNat 64 (r.va - 16 * r.place)

def Req.trap (r : Req) (cause : Nat) (info : Nat) : Reply :=
  { r.reply with trap := some (cause, BitVec.ofNat 64 info, r.vaW, 0) }

/-- What a target answers. -/
inductive Served where
  | done (s : State) (rep : Reply)
  | hold
  | no
deriving DecidableEq, Repr

/-- The layout check that a target core makes of a scratchpad access, the whole access for a piece of it (R330). -/
def layoutBad (s : State) (r : Req) : Bool :=
  let n := if r.part.isSome then 64 else r.n
  match r.tgt with
  | .scratch o j =>
    match core? s o j with
    | some c => spadSize c < r.pa - 16 * r.place + n || inShadow c (r.pa - 16 * r.place) n
    | none => true
  | .bank _ _ _ | .replica _ _ _ _ | .hostLine _ | .device | .stack _ => false

/-- The sectors that a reply fills in L1: their addresses and contents (R168); none that is marked poison. -/
def fillsOf (s : State) (r : Req) (pas : List Nat) : List (Nat × Vec) :=
  match owner? s r.o, r.leaf with
  | some w, some l =>
    if l1Allowed w l r.pa then
      ((pas.filter (fun a => markAt s (match r.tgt with
          | .replica _ die _ _ => Spot.mem (replPa die a)
          | .scratch _ _ | .bank _ _ _ | .hostLine _ | .device | .stack _ => Spot.mem a) == 0)).filter (fun a => !r.noFill.any (fun x => x.1 / 64 ≤ a / 64 && a / 64 ≤ (x.1 + x.2 - 1) / 64))).map (fun a =>
        let b := a / 64 * 64
        let src := match r.tgt with
          | .replica _ die _ _ => Spot.mem (replPa die b)
          | .scratch _ _ | .bank _ _ _ | .hostLine _ | .device | .stack _ => Spot.mem b
        (b, bytesVec (readAt s src 64)))
    else []
  | _, _ => []

/-- The sectors of a request. -/
def sectorsOf (r : Req) : List Nat :=
  r.spans.flatMap (fun p => (List.range ((p.1 % 64 + p.2 + 63) / 64)).map (fun i => p.1 / 64 * 64 + 64 * i))

/-- Reading at a target: the layout, a filled pool line, poison, then what is done with the bytes. Log 46, DEDUCED. -/
def serveRead (s : State) (r : Req) (f : State → List Byte → Served) : Served :=
  if layoutBad s r then .done s (r.trap Cause.prot (protInfo r.kind.acc 2))
  else
    let s := match owner? s r.o, r.leaf with
      | some w, some l => fillCheck s w r.tgt l r.va r.pa
      | _, _ => s
    let m := reqMark s r
    if m != 0 then .done s (r.trap Cause.poison (m - 1))
    else f (reqTouch s r false) (reqRead s r)

/-- Writing at a target. -/
def serveWrite (s : State) (r : Req) (f : State → Served) : Served :=
  if layoutBad s r then .done s (r.trap Cause.prot (protInfo r.kind.acc 2)) else f s

/-- A store to a replicated page on its way to the other dies (R186). -/
def replStore (s : State) (r : Req) (die : Nat) (bs : List (Byte × Bool)) : State :=
  match owner? s r.o with
  | none => s
  | some w =>
    let vc := setD 0 w.vclk (die * 8 + die) ((getD 0 w.vclk (die * 8 + die) + 1) % 2 ^ 32)
    let s := onOwner s r.o (fun w => { w with vclk := vc })
    let others := (diesOf w).filter (· != die)
    if others.isEmpty then s
    else { s with rwrites := s.rwrites ++ [⟨r.id, r.o, r.tid, die, (List.range 8).map (fun x => getD 0 vc (die * 8 + x)),
             r.pa % (2 * stackSpan), bs, r.replaces bs, others, []⟩] }

/-- A store at its target, with its further copies where its page is replicated; one with a mask of zeros writes none (R335). -/
def storeAt (s : State) (r : Req) (bs : List (Byte × Bool)) : State :=
  match r.tgt with
  | .replica _ die _ _ => if bs.all (fun b => !b.2) then s else reqWrite (replStore s r die bs) r bs
  | .scratch _ _ | .bank _ _ _ | .hostLine _ | .device | .stack _ => reqWrite s r bs

/-! ## Atomics (R341 to R343) -/

/-- Op(old, y) on n-byte values. -/
def amoOp (op : AmoOp) (n : Nat) (sgn : Bool) (old y : Word) : Word :=
  let w := 8 * n
  let a := old.toNat % 2 ^ w
  let b := y.toNat % 2 ^ w
  let r : Nat := match op with
    | .add => (a + b) % 2 ^ w
    | .and => a &&& b
    | .or => a ||| b
    | .xor => a ^^^ b
    | .min => if sgn then (if sv w a ≤ sv w b then a else b) else (if a ≤ b then a else b)
    | .max => if sgn then (if sv w b ≤ sv w a then a else b) else (if b ≤ a then a else b)
    | .swap => b
  BitVec.ofNat 64 r

/-! ## Barriers (R206, R207, R183) -/

structure BarObj where
  pend : Nat
  narr : Nat
  gen  : Nat
  tag  : Nat
  xch  : Bool
  maxu : Bool
  mbz  : Bool
  acc  : Word
deriving DecidableEq, Repr

def readBar (s : State) (pa : Nat) : BarObj where
  pend := Memory.nat s.mem pa 4
  narr := Memory.nat s.mem (pa + 4) 4
  gen := Memory.nat s.mem (pa + 8) 2
  tag := Memory.nat s.mem (pa + 10) 2
  xch := Memory.nat s.mem (pa + 12) 1 % 2 == 1
  maxu := Memory.nat s.mem (pa + 12) 1 / 2 % 2 == 1
  mbz := Memory.nat s.mem (pa + 12) 1 / 4 == 0 && Memory.nat s.mem (pa + 13) 3 == 0 && Memory.nat s.mem (pa + 32) 32 == 0
  acc := BitVec.ofNat 64 (Memory.nat s.mem (pa + 16) 8)

/-- Whether an object may take a thread's arrival. -/
def BarObj.ok (b : BarObj) : Bool := b.mbz && b.narr != 0

/-- The greater of two accumulated values (R207). -/
def barMax (u : Bool) (a v : Word) : Word := if u then (if a.toNat ≤ v.toNat then v else a) else (if a.toInt ≤ v.toInt then v else a)

/-- The record of an object's arrivals. -/
def barRec (s : State) (o pa : Nat) : Barrier :=
  (s.barriers.find? (fun b => b.o == o && b.pa == pa)).getD ⟨o, pa, [], [], false, 0, []⟩

def setBar (s : State) (b : Barrier) : State :=
  { s with barriers := b :: s.barriers.filter (fun x => !(x.o == b.o && x.pa == b.pa)) }

/-- The BARW that an object holds: a completion reaches each of them (R353). -/
def heldBarw (s : State) (o pa : Nat) : List Nat :=
  (s.reqs.filter (fun r => r.held && r.o == o && r.pa == pa && (match r.kind with
    | .barw _ => true
    | _ => false))).map (·.id)

/-- One arrival by an agent of a core (R207); none where the object refuses it. -/
def arriveAt (s : State) (o : Nat) (t : Target) (pa : Nat) (core : Option Nat) (v : Option Word) : Option State :=
  let b := readBar s pa
  if !b.ok then none
  else
    let acc := match v with
      | some v => barMax b.maxu b.acc v
      | none => b.acc
    let rec0 := barRec s o pa
    let members := match core with
      | some j => if rec0.members.contains j then rec0.members else rec0.members ++ [j]
      | none => rec0.members
    if b.pend ≤ 1 then
      let acc0 : Word := if b.maxu then 0 else 0x8000000000000000
      let s := writeAt s (.mem pa) (listOfWord (BitVec.ofNat 64 b.narr) 4)
      let s := writeAt s (.mem (pa + 8)) (listOfWord (BitVec.ofNat 64 (b.gen + 1)) 2)
      let s := writeAt s (.mem (pa + 16)) (listOfWord acc0 8 ++ listOfWord acc 8)
      let s := setBar s { rec0 with members := [], toTell := if b.xch then rec0.toTell ++ members else rec0.toTell,
                                    xch := b.xch, gen := (b.gen + 1) % 65536, woken := heldBarw s o pa }
      some (touchWrite s t pa)
    else
      let s := writeAt s (.mem pa) (listOfWord (BitVec.ofNat 64 (b.pend - 1)) 4)
      let s := writeAt s (.mem (pa + 16)) (listOfWord acc 8)
      some (touchWrite (setBar s { rec0 with members := members, xch := b.xch }) t pa)

/-! ## Stage queues (R354, R355) -/

def queueOf (s : State) (o l q : Nat) : Option QueueEnt :=
  match lch? s o l with
  | some l => l.queues[q]?
  | none => none

/-- Whether a queue is a stage's input queue with shrink tokens to give (R110). -/
def tokenFor (s : State) (o l q stage : Nat) : Bool :=
  match lch? s o l with
  | some l =>
    match l.stages[stage]?, l.dyn[stage]? with
    | some e, some d => e.inq == some q && d.shrink != 0
    | _, _ => false
  | none => false

/-! ## Conditional multi-line store (R181) -/

/-- A line written whole at its slice. -/
def writeLine (s : State) (o j pa : Nat) (data : List Byte) : State :=
  touchLine (writeBlocks s (.mem pa) data) (.bank o j (pa / 256 % 4)) pa

def cstorAt (s : State) (o : Nat) (lines : List (Nat × Nat × Nat)) (toks : List Nat) (datas : List (List Byte)) :
    State × Nat :=
  let j := (lines.headD (0, 0, 0)).1
  if lines.any (fun l => l.1 != j) then (s, 2)
  else
    match core? s o j with
    | none => (s, 2)
    | some c =>
      if (lines.zip toks).any (fun p => tokenOf c (p.1.2.1 / 256) != some p.2) then (s, 1)
      else ((lines.zip datas).foldl (fun s p => writeLine s o j p.1.2.1 p.2) s, 0)

/-! ## Serving -/

/-- Results of sealed operations as replies; POISON names what was presented (R222). -/
def sealReply (r : Req) (d : GReg) (shown : Nat) : SRes → State × Reply
  | .ok s v => (s, { r.reply with g := [(d, BitVec.ofNat 64 v)] })
  | .trap s c va info pos =>
    (s, { r.reply with trap := some (c, BitVec.ofNat 64 (if c = Cause.poison then shown else info),
                                     BitVec.ofNat 64 va, BitVec.ofNat 64 pos) })

/-- SLSWAP (R224). -/
def slSwap (s : State) (w : Owner) (r : Req) (exp new : Word) : SRes :=
  let first : SRes := if new = 0 then .ok s 0 else slRef s w r.o new.toNat false
  match first with
  | .trap s c va i p => .trap s c va i p
  | .ok s _ =>
    let m := reqMark s r
    if m != 0 then
      .trap (if new = 0 then s else unrefChild s w r.o new.toNat) Cause.poison r.va (m - 1) 0
    else
      let old := wordOfList (reqRead s r)
      if old = exp then
        let s := reqWrite s r (allOn (listOfWord new 8))
        let s := if exp = 0 then s
          else match slUnref s w r.o exp.toNat with
            | .ok s _ => s
            | .trap s c va _ _ => logDetected s r.o c exp.toNat va
        .ok s old.toNat
      else .ok (reqTouch (if new = 0 then s else unrefChild s w r.o new.toNat) r false) old.toNat

/-- What a target does with a request. -/
def serve0 (s : State) (r : Req) : Served :=
  match r.kind with
  | .load n sgn d => serveRead s r (fun s bs =>
      .done s { r.reply with g := [(d, extend sgn n (wordOfList bs))], acq := r.acq, fill := fillsOf s r (sectorsOf r) })
  | .vload d mask desc => serveRead s r (fun s bs =>
      let g := match desc with
        | some c => [(c, BitVec.ofNat 64 (descAt s (spotOf r)))]
        | none => []
      let at_ := 16 * r.place
      .done s { r.reply with v := [(d, if r.part.isSome then mask &&& (0xFFFF <<< at_) else mask, bytesVec bs <<< (8 * at_))],
                             g := g, acq := r.acq, fill := fillsOf s r (sectorsOf r) })
  | .store data => serveWrite s r (fun s => .done (storeAt s r (allOn data)) r.reply)
  | .vstore data mask desc => serveWrite s r (fun s =>
      let bs := (maskBytes data mask).take r.n
      let s := storeAt s r bs
      .done (match desc with
        | some d => setDesc (if bs.all (fun b => !b.2) then reqTouch s r true else s) (spotOf r) d.toNat
        | none => s) r.reply)
  | .lds clr n sgn d =>
    if layoutBad s r then .done s (r.trap Cause.prot (protInfo r.kind.acc 2))
    else if !fullAt s (spotOf r) then .hold
    else serveRead s r (fun s bs =>
      let s := if clr then reqTouch (setFull s (spotOf r) false) r true else s
      .done s { r.reply with g := [(d, extend sgn n (wordOfList bs))], acq := r.acq })
  | .stf data => serveWrite s r (fun s => .done (setFull (reqWrite s r (allOn data)) (spotOf r) true) r.reply)
  | .fec full d => serveWrite s r (fun s =>
      let old := fullAt s (spotOf r)
      .done (reqTouch (setFull s (spotOf r) full) r true) { r.reply with g := [(d, if old then 1 else 0)] })
  | .prf =>
    let s := match owner? s r.o, r.leaf with
      | some w, some l => fillCheck s w r.tgt l r.va r.pa
      | _, _ => s
    .done (reqTouch s r false)
      (if reqMark s r != 0 then r.reply else { r.reply with fill := fillsOf s r (sectorsOf r) })
  | .amo op n sgn y d => serveRead s r (fun s bs =>
      let old := wordOfList bs
      let s := reqWrite s r (allOn (listOfWord (amoOp op n sgn old y) n))
      .done s { r.reply with g := [(d, extend sgn n old)], acq := r.acq, val := some old })
  | .fadd y d => serveRead s r (fun s bs =>
      let old := wordOfList bs
      let s := reqWrite s r (allOn (listOfWord (BitVec.ofNat 64 (fadd32 old.toNat y.toNat)) 4))
      .done s { r.reply with g := [(d, old)], acq := r.acq })
  | .cas n sgn exp new d => serveRead s r (fun s bs =>
      let old := wordOfList bs
      let s := if old = exp then reqWrite s r (allOn (listOfWord new n)) else s
      .done s { r.reply with g := [(d, extend sgn n old)], acq := r.acq })
  | .ldv d =>
    let s := (List.range 4).foldl (fun s i => touchRead s r.tgt (r.pa / 256 * 256 + 64 * i)) s
    match r.tgt.slice with
    | none => .no
    | some (o, j) =>
      let tok := match core? s o j with
        | some c => (tokenOf c (r.pa / 256)).getD 0
        | none => 0
      let base := r.pa / 256 * 256
      .done s { r.reply with g := [(d, BitVec.ofNat 64 tok)], fill := fillsOf s r ((List.range 4).map (fun i => base + 64 * i)) }
  | .cstor lines toks datas d =>
    let p := cstorAt s r.o lines toks datas
    .done p.1 { r.reply with g := [(d, BitVec.ofNat 64 p.2)], acq := r.acq }
  | .arrive v d => serveRead s r (fun s _ =>
      let g := (readBar s r.pa).gen
      match arriveAt s r.o r.tgt r.pa (some r.core) v with
      | none => .done s (r.trap Cause.desc 0)
      | some s => .done s { r.reply with g := [(d, BitVec.ofNat 64 g)] })
  | .barw want => serveRead s r (fun s _ =>
      let b := barRec s r.o r.pa
      if ((readBar s r.pa).gen == want.toNat && !b.woken.contains r.id) || b.toTell.contains r.core then .hold
      else .done s { r.reply with acq := some .pkg })
  | .qput l q elem d =>
    match queueOf s r.o l q with
    | none => .no
    | some e =>
      let m := markIn s (.mem r.pa) 256
      if m != 0 then .done s (r.trap Cause.poison (m - 1))
      else
        let head := Memory.nat s.mem r.pa 8
        let tail := Memory.nat s.mem (r.pa + 8) 8
        if head + e.depth ≤ tail then .hold
        else
          let s := writeAt s (.mem (r.pa + 256 + tail % e.depth * e.esize)) elem
          let s := touchSpan s r.tgt (r.pa + 256 + tail % e.depth * e.esize) e.esize
          let s := writeAt s (.mem (r.pa + 8)) (listOfWord (BitVec.ofNat 64 (tail + 1)) 8)
          .done (touchWrite s r.tgt r.pa) { r.reply with g := [(d, 0)] }
  | .qget l q stage area d =>
    match queueOf s r.o l q with
    | none => .no
    | some e =>
      let head := Memory.nat s.mem r.pa 8
      let tail := Memory.nat s.mem (r.pa + 8) 8
      let at_ := r.pa + 256 + head % e.depth * e.esize
      let m := markIn s (.mem r.pa) 256
      if m != 0 then .done s (r.trap Cause.poison (m - 1))
      else if head < tail then
        let m := markIn s (.mem at_) e.esize
        if m != 0 then .done s (r.trap Cause.poison (m - 1))
        else
          let bs := Memory.readN s.mem at_ e.esize
          let s := writeAt s (.mem r.pa) (listOfWord (BitVec.ofNat 64 (head + 1)) 8)
          .done (touchWrite (readSpan s r.tgt at_ e.esize) r.tgt r.pa)
            { r.reply with g := [(d, 0)], acq := some .pkg, writes := [(area, bs)] }
      else if tokenFor s r.o l q stage then
        let s := onLch s r.o l (fun x => { x with dyn := x.dyn.modify stage (fun y => { y with shrink := y.shrink - 1 }) })
        let s := onThr s r.o r.tid (fun t => { t with retiring := true })
        .done s { r.reply with g := [(d, 1)], acq := some .pkg }
      else .hold
  | .waitc old d => serveRead s r (fun s bs =>
      if wordOfList bs = old then .hold else .done s { r.reply with g := [(d, wordOfList bs)] })
  | .mrecv d =>
    if layoutBad s r then .done s (r.trap Cause.prot (protInfo .atomic 2))
    else if !allFull s (spotOf r) true then .hold
    else serveRead s r (fun s bs =>
      .done (setAllFull s (spotOf r) false)
        { r.reply with v := [(d, BitVec.allOnes 64, bytesVec bs)], acq := some .pkg })
  | .slput int line desc d =>
    match owner? s r.o with
    | none => .no
    | some w =>
      let p := sealReply r d (sealh w line desc * 16) (slPut s w r.o int line desc)
      .done p.1 p.2
  | .slget name area d =>
    match owner? s r.o with
    | none => .no
    | some w =>
      match slGet s w r.o name.toNat with
      | (s, some x, _) =>
        let tail := listOfWord (BitVec.ofNat 64 x.desc) 8 ++ [if x.int then 1 else 0, BitVec.ofNat 8 x.hgt]
          ++ List.replicate 54 0
        .done s { r.reply with g := [(d, BitVec.ofNat 64 ((if x.int then 1 else 0) + x.hgt * 256))],
                               writes := [(area, x.line ++ tail)] }
      | (s, none, some (c, va, info, pos)) =>
        .done s { r.reply with trap := some (c, BitVec.ofNat 64 (if c = Cause.poison then name.toNat else info),
                                             BitVec.ofNat 64 va, BitVec.ofNat 64 pos) }
      | (_, none, none) => .no
  | .slref name d =>
    match owner? s r.o with
    | none => .no
    | some w =>
      let p := sealReply r d name.toNat (slRef s w r.o name.toNat false)
      .done p.1 p.2
  | .slunref name d =>
    match owner? s r.o with
    | none => .no
    | some w =>
      let p := sealReply r d name.toNat (slUnref s w r.o name.toNat)
      .done p.1 p.2
  | .slswap exp new d =>
    match owner? s r.o with
    | none => .no
    | some w =>
      let p := sealReply r d new.toNat (slSwap s w r exp new)
      .done p.1 { p.2 with acq := some .pkg }
  | .fetch _ _ => serveRead s r (fun s bs =>
      .done s { r.reply with v := [(0, BitVec.allOnes 64, bytesVec bs)], fill := fillsOf s r (sectorsOf r) })
  | .push _ data => serveWrite s r (fun s => .done (storeAt s r (allOn (vecBytes data))) r.reply)

/-- Kinds whose reply brings an existing L1 copy of their bytes up to date, so that no later load of the core reads
below what they read or wrote (R193, R194). -/
def ReqKind.patches : ReqKind → Bool
  | .amo _ _ _ _ _ | .fadd _ _ | .cas _ _ _ _ _ | .lds _ _ _ _ | .waitc _ _ | .arrive _ _ | .barw _
  | .cstor _ _ _ _ | .slswap _ _ _ | .qput _ _ _ _ | .qget _ _ _ _ _ | .slput _ _ _ _ | .slget _ _ _ | .slref _ _
  | .slunref _ _ => true
  | .load _ _ _ | .store _ | .vload _ _ _ | .vstore _ _ _ | .stf _ | .fec _ _ | .prf | .ldv _ | .mrecv _
  | .fetch _ _ | .push _ _ => false

/-- The lines of a name's set block, which a sealed operation reads (R214). -/
def blockLines (s : State) (w : Owner) (set : Nat) : List Nat :=
  (List.range 17).filterMap (fun i => match sealTrans s w (setVa w set + 256 * i) .load false with
    | .ok (.mem _ pa) => some (pa / 256)
    | .ok (.spad _ _) | .miss _ | .bad _ => none)

/-- The name that a sealed operation works on. -/
def ReqKind.name (w : Owner) : ReqKind → Option Nat
  | .slput _ line desc _ => some (sealh w line desc * 16)
  | .slget n _ _ | .slref n _ | .slunref n _ => some n.toNat
  | _ => none

/-- Bytes of the core's L1 copies that a request changed at its target, or that lie in the set block it worked on. -/
def copiesMet (s0 s : State) (r : Req) : List (Nat × Byte) :=
  match core? s r.o r.core, owner? s r.o with
  | some c, some w =>
    if c.l1.isEmpty then []
    else
      let lines := match r.kind.name w with
        | some n => blockLines s w (setOfName w n)
        | none => []
      c.l1.flatMap (fun l => l.secs.flatMap (fun p => (List.range 64).filterMap (fun i =>
        let a := l.line * 256 + p.1 * 64 + i
        let b := Memory.read s.mem a
        if Memory.read s0.mem a != b || lines.contains l.line then some (a, b) else none)))
  | _, _ => []

/-- The bytes of a request as its target has just read or written them, and those of its core's copies that it met,
but for those stored since by its core. Log 30, DEDUCED. -/
def patchOf (s0 s : State) (r : Req) : List (Nat × Byte) :=
  if r.tgt.isScratch then []
  else (r.spans.flatMap (fun p => (List.range p.2).map (fun i => (p.1 + i, Memory.read s.mem (p.1 + i))))
      ++ copiesMet s0 s r).filter (fun x => !r.noFill.any (fun y => y.1 ≤ x.1 && x.1 < y.1 + y.2))

/-- A release performed before what it orders is kept until that has been performed too. -/
def noteEarly (s0 s : State) (r : Req) : State :=
  match r.rel with
  | some sc =>
    if releaseOk s0 r.o r.tid r.iss.born sc r.base then s
    else { s with early := ⟨r.o, r.tid, r.iss.born, r.base, sc, r.tgt, r.sectors⟩ :: s.early }
  | none => s

/-- What a target does with a request whose turn it is, its reply carrying what the L1 must learn. Log 39, DEDUCED. -/
def serve (s : State) (r : Req) : Served :=
  match serve0 s r with
  | .done s' p => .done (if p.trap.isNone then noteEarly s s' r else s') (if r.kind.patches && p.trap.isNone then { p with patch := patchOf s s' r } else p)
  | .hold => .hold
  | .no => .no

/-! ## A reply lands (R145, R169, R193, R333) -/

/-- Lanes of a vector replaced where the mask is set. -/
def mergeLanes (m : BitVec 64) (old new : Vec) : Vec :=
  bytesVec ((List.range 64).map (fun i => if m.getLsbD i then new.extractLsb' (8 * i) 8 else old.extractLsb' (8 * i) 8))

/-- A reply's writes as the effects of the waiting bundle's first half. -/
def Reply.wr (p : Reply) (s : State) (t : Thread) : Wr :=
  { Wr.none with g := p.g, v := p.v.map (fun x => (x.1, mergeLanes x.2.1 (readV s t x.1) x.2.2)), acq := p.acq }

/-- An element fetched ahead takes its place in its stream (R163). -/
def landFetch (t : Thread) (p : Reply) : Thread :=
  let f : Fetched := match p.trap with
    | some (c, info, va, _) => .fault c va info
    | none => .data ((p.v.headD (0, 0, 0)).2.2)
  { t with streams := t.streams.map (fun x => { x with fetched := x.fetched.map (fun y => if y = .asked p.id then f else y) }) }

def Reply.info (p : Reply) : Option TrapInfo :=
  p.trap.map (fun x => ⟨x.1, x.2.1, x.2.2.1, x.2.2.2, 0, p.known, p.applied, .none⟩)

/-- What a reply does to its core's L1. -/
def landL1 (s : State) (p : Reply) : State :=
  onCore s p.o p.core (fun c =>
    let c := p.fill.foldl (fun c f => l1Fill c f.1 f.2) c
    p.patch.foldl (fun c x => l1Store c x.1 [(x.2, true)]) c)

/-- The bundle that waits for a reply retires with it, or traps. -/
def landBundle (s : State) (t : Thread) (p : Reply) : State :=
  match p.info with
  | some ti => trapWait s p.o p.tid ti
  | none =>
    let s := p.writes.foldl (fun s x => writeAt s (.spad p.o (tidCore t.tid) x.1) x.2) s
    finishWait s p.o p.tid (p.wr s t)

/-- Two pieces of one access as one reply: their lanes together, and the lower cause (R120, R191). -/
def joinParts (a b : Reply) : Reply :=
  { a with v := (match a.v, b.v with
             | (d, m, x) :: _, (_, n, y) :: _ => [(d, m ||| n, x ||| y)]
             | v, _ => v),
           trap := (match a.trap, b.trap with
             | some x, some y => if y.1 < x.1 then some y else some x
             | some x, none => some x
             | none, y => y) }

/-- A piece of a wide access has landed: with the last of the four the bundle goes on (R191). -/
def landPart (s : State) (t : Thread) (p : Reply) : State :=
  if t.got.length < 3 then onThr s p.o p.tid (fun t => { t with got := t.got ++ [p] })
  else landBundle s t (t.got.foldl joinParts p)

/-- Whether a reply brings an element fetched ahead. -/
def isFetched (t : Thread) (p : Reply) : Bool := t.streams.any (fun x => x.fetched.contains (.asked p.id))

/-- A reply reaches its core: it fills the L1, then the waiting bundle retires or traps. One for a thread that a kill stops
is kept for its record (R79). -/
def land (s : State) (p : Reply) : State :=
  let s := landL1 s p
  match thr? s p.o p.tid with
  | none => s
  | some t =>
    if t.status = .dying ∧ t.pend.isSome ∧ isFetched t p = false then onThr s p.o p.tid (fun t => { t with got := t.got ++ [p] })
    else match p.part with
    | some (base, _) => if t.status = .waiting (.reply base) then landPart s t p else s
    | none =>
      if t.status = .waiting (.reply p.id) then landBundle s t p else onThr s p.o p.tid (fun t => landFetch t p)

end Sys2Proof.Machine
end

