-- ==== Sys2Proof/Machine/Launch.lean ====
section
/-!
DEFINITION. Launches (R96 to R100, R113, R275 to R277): reading the header and the pipeline record, their checks, and
the four steps that a host LAUNCH and a thread's LAUNCH share; SPAWN's creation (R118).
-/

namespace Sys2Proof.Machine

/-! ## Reads and writes of the scheduler in an owner's memory -/

/-- Translation of an owner's address for a scheduler or a unit outside a thread: a walk made within the access
(log 11, DESIGN CHOICE). A scratchpad address is none of the owner's pages. -/
def ownerChk (s : State) (w : Owner) (a : Act332) (k : AccKind) (wr : Bool) (va : Nat) : Chk :=
  let v := BitVec.ofNat 64 va
  if 2 ^ 57 ≤ va then .bad (protTrap k 2 v)
  else if isSpadVa va then .bad (protTrap k 6 v)
  else ofWalk w a k wr v (walkPage s w va)

/-- The memory place of a located access, for an agent on a core: the copy of its die where the page is replicated. -/
def placeIn (s : State) (w : Owner) (o j : Nat) (l : Leaf) (pa : Nat) : Nat :=
  match targetOf s w o j l pa with
  | .replica _ die _ _ => replPa die pa
  | .scratch _ _ | .bank _ _ _ | .hostLine _ | .device | .stack _ => pa

/-- Bytes inside one page of the owner, unless the read meets XLAT, PROT or poison. Log 48, DEDUCED. -/
def ownerRead (s : State) (w : Owner) (o va n : Nat) : Option (List Byte) :=
  match ownerChk s w .ld .load false va with
  | .ok (.mem l pa) =>
    let p := Spot.mem (placeIn s w o 0 l pa)
    if markIn s p n != 0 then none else some (readAt s p n)
  | .ok (.spad _ _) | .miss _ | .bad _ => none

/-- What a read of an owner's bytes does at the slices that home them: sectors are filled, and a pool line that fills is checked
(R217). -/
def ownerFill (s : State) (w : Owner) (o va n : Nat) : State :=
  (sectorsIn va n).foldl (fun s a =>
    match ownerChk s w .ld .load false a with
    | .ok (.mem l pa) =>
      let t := targetOf s w o 0 l pa
      touchRead (fillCheck s w t l a pa) t (placeIn s w o 0 l pa)
    | .ok (.spad _ _) | .miss _ | .bad _ => s) s

/-- n pieces of 32 bytes each. -/
def ownerReadMany (s : State) (w : Owner) (o : Nat) : Nat → Nat → Option (List Byte)
  | 0, _ => some []
  | n + 1, va =>
    match ownerRead s w o va 32, ownerReadMany s w o n (va + 32) with
    | some a, some b => some (a ++ b)
    | _, _ => none

/-- Bytes written inside one page of the owner, at every copy; the cause met otherwise. -/
def ownerWrite (s : State) (w : Owner) (o va : Nat) (bs : List Byte) : State × Option TrapInfo :=
  match ownerChk s w .st .store true va with
  | .ok (.mem l pa) =>
    let t := targetOf s w o 0 l pa
    if l.cls = 1 then ((diesOf w).foldl (fun s d => writeAt s (.mem (replPa d pa)) bs) s, none)
    else (touchSpan (writeAt s (.mem pa) bs) t pa bs.length, none)
  | .bad t => (s, some t)
  | .ok (.spad _ _) | .miss _ => (s, some (protTrap .store 6 (BitVec.ofNat 64 va)))

/-! ## DONEVA (R101) -/

/-- A store that an owner's threads posted before number n is still to be performed, or to be applied on some die. -/
def storeBefore (s : State) (o n : Nat) : Bool :=
  s.reqs.any (fun r => r.o == o && r.kind.isStore && r.base < n)
    || s.rwrites.any (fun x => x.o == o && x.id < n && !x.pending.isEmpty)

/-- A launch's id is written at its DONEVA as a release at .sys: once every store that its threads posted has been performed
(R101, R198). -/
def writeDone (o : Nat) (s : State) (d : Nat × Nat × Nat) : State :=
  match owner? s o with
  | none => s
  | some w =>
    if storeBefore s o d.2.2 then s
    else
      let s := onOwner s o (fun w => { w with doneq := w.doneq.erase d })
      match ownerWrite s w o d.1 (listOfWord (BitVec.ofNat 64 d.2.1) 8) with
      | (s, none) => s
      | (s, some t) => logDetected s o t.cause d.2.1 0

def flushDone (s : State) (o : Nat) : State :=
  match owner? s o with
  | some w => w.doneq.foldl (writeDone o) s
  | none => s

/-! ## The header and the record (R96 to R99, R275, R276) -/

/-- A little-endian field of a block of bytes. -/
def fieldOf (bs : List Byte) (at_ n : Nat) : Nat := ((bs.drop at_).take n).foldr (fun b x => b.toNat + 256 * x) 0

/-- Whether a range of bytes is zero. -/
def zeroIn (bs : List Byte) (at_ n : Nat) : Bool := ((bs.drop at_).take n).all (· == 0)

/-- The feature bits of this part (R149). -/
def featBits : Nat := 0x3FFFF

/-- The ISA level of this part (R150). -/
def isaLevel : Nat := 3

structure Header where
  spn  : Nat
  xb   : Nat
  pipe : Nat
deriving DecidableEq, Repr

/-- R276. Log 47, DEDUCED. -/
def readHeader (bs : List Byte) : Option Header :=
  let spn := fieldOf bs 6 1
  let xb := fieldOf bs 7 1
  if fieldOf bs 0 4 == 0x4837584B && fieldOf bs 4 1 == 1 && 1 ≤ spn && spn ≤ 7 && xb ≤ 32 && 2 * xb ≤ 32 * spn
      && zeroIn bs 36 28 && fieldOf bs 5 1 ≤ isaLevel && fieldOf bs 8 8 ≤ featBits && fieldOf bs 16 8 % 64 == 0
  then some ⟨spn, xb, fieldOf bs 16 8⟩ else none

def noneIf (x : Nat) : Option Nat := if x = 0xFF then none else some x

/-- R97: a stage entry in range. -/
def readStage (bs : List Byte) (nq cores : Nat) : Option StageEnt :=
  let e : StageEnt := ⟨BitVec.ofNat 64 (fieldOf bs 0 8), fieldOf bs 8 2, fieldOf bs 10 2, fieldOf bs 12 1, fieldOf bs 13 1,
    fieldOf bs 14 2, fieldOf bs 16 1 % 4, fieldOf bs 16 1 / 4 % 4, noneIf (fieldOf bs 17 1), noneIf (fieldOf bs 18 1),
    fieldOf bs 20 4, fieldOf bs 24 2⟩
  let qok := fun (q : Option Nat) => match q with
    | some q => decide (q < nq)
    | none => true
  if fieldOf bs 0 8 % 4 == 0 && e.tmin ≤ 49152 && 1 ≤ e.tmax && e.tmax ≤ 49152 && e.tmin ≤ e.tmax && 1 ≤ e.gregs
      && e.gregs ≤ 16 && e.vregs ≤ 8 && e.spadb ≤ 224 && fieldOf bs 16 1 / 16 == 0 && zeroIn bs 19 1 && zeroIn bs 26 6
      && e.hcore < cores && qok e.inq && qok e.outq
  then some e else none

/-- R98: a queue entry in range. -/
def readQueue (bs : List Byte) : Option QueueEnt :=
  let d := fieldOf bs 8 4
  let z := fieldOf bs 12 2
  if fieldOf bs 0 8 % 256 == 0 && 2 ≤ d && d ≤ 65536 && d == 2 ^ Nat.log2 d && z % 8 == 0 && 8 ≤ z && z ≤ 256
      && zeroIn bs 14 18
  then some ⟨BitVec.ofNat 64 (fieldOf bs 0 8), d, z⟩ else none

/-- All or nothing. -/
def allSome {α : Type} : List (Option α) → Option (List α)
  | [] => some []
  | none :: _ => none
  | some x :: xs => (allSome xs).map (x :: ·)

structure Pipeline where
  plumb  : Bool
  doneva : Nat
  stages : List StageEnt
  queues : List QueueEnt
deriving DecidableEq, Repr

/-- No queue serves two stages in one role (R99). -/
def rolesOk (st : List StageEnt) : Bool :=
  decide ((st.filterMap (·.inq)).Nodup) && decide ((st.filterMap (·.outq)).Nodup)

/-- R96 and R99, the record read whole. -/
def readPipeline (s : State) (w : Owner) (o va : Nat) : Option Pipeline :=
  match ownerReadMany s w o 2 va with
  | none => none
  | some h =>
    let ns := fieldOf h 0 1
    let nq := fieldOf h 1 1
    if !(1 ≤ ns && ns ≤ 16 && nq ≤ 16 && fieldOf h 2 1 / 2 == 0 && zeroIn h 3 5 && zeroIn h 16 48
        && fieldOf h 8 8 % 8 == 0 && (fieldOf h 2 1 == 1) == w.plumb) then none
    else
      match ownerReadMany s w o (ns + nq) (va + 64) with
      | none => none
      | some b =>
        match allSome ((List.range ns).map (fun k => readStage ((b.drop (32 * k)).take 32) nq (ncores w))),
              allSome ((List.range nq).map (fun k => readQueue ((b.drop (32 * (ns + k))).take 32))) with
        | some st, some qs => if rolesOk st then some ⟨fieldOf h 2 1 == 1, fieldOf h 8 8, st, qs⟩ else none
        | _, _ => none

/-- What reading a record does at the slices that home it. -/
def fillPipeline (s : State) (w : Owner) (o va : Nat) : State :=
  let s := ownerFill s w o va 64
  match ownerReadMany s w o 2 va with
  | some h => ownerFill s w o (va + 64) (32 * (fieldOf h 0 1 + fieldOf h 1 1))
  | none => s

/-! ## The four steps (R100) -/

/-- Zero the control line of each queue; a fault stops there (R99). -/
def zeroQueues (w : Owner) (o : Nat) : List QueueEnt → State → State × Bool
  | [], s => (s, true)
  | q :: qs, s =>
    match ownerWrite s w o q.qva.toNat (List.replicate 256 0) with
    | (s, none) => zeroQueues w o qs s
    | (s, some _) => (s, false)

/-- TMIN threads of every stage, TMAX in plumb mode, stage by stage. -/
def createStages (o : Nat) (w : Owner) (lid : Nat) : List (StageEnt × Nat) → State → Option State
  | [], s => some s
  | (e, k) :: es, s => (createN o w lid k (if w.plumb then e.tmax else e.tmin) s).bind (createStages o w lid es)

/-- Task cursors on the cores that hold the stage's threads, or on one core where none does (R113). -/
def placeCursors (s : State) (o lid : Nat) (es : List (StageEnt × Nat)) : State :=
  es.foldl (fun s p =>
    if p.1.ntask = 0 then s
    else
      let cs := ((stageThreads s o lid p.2).map (·.core)).dedup.mergeSort (· ≤ ·)
      let cs := if cs.isEmpty then [if 2 ≤ p.1.hint then p.1.hcore else 0] else cs
      cs.zipIdx.foldl (fun s q => onCore s o q.1 (fun c =>
        { c with cursors := c.cursors ++ [⟨lid, p.2, q.2, cs.length, p.1.ntask⟩] })) s) s

/-- The next launch id of an owner (R100). -/
def nextLaunch (w : Owner) : Nat := if (w.lcount + 1) % 2 ^ 32 = 0 then 1 else (w.lcount + 1) % 2 ^ 32

/-- A launch with its header at an address: the state, and the launch id or the refusing code (R36). -/
def launchIn (s : State) (o : Nat) (w : Owner) (hdr : Nat) (arg seed : Word) : State × (Nat ⊕ Nat) :=
  if hdr % 64 ≠ 0 then (s, .inr 0x0008)
  else
    let s := ownerFill s w o hdr 64
    match (ownerReadMany s w o 2 hdr).bind readHeader with
    | none => (s, .inr 0x0008)
    | some h =>
      let s := fillPipeline s w o h.pipe
      match readPipeline s w o h.pipe with
      | none => (s, .inr 0x0008)
      | some p =>
        match zeroQueues w o p.queues s with
        | (s1, false) => (s1, .inr 0x0008)
        | (s1, true) =>
          let id := nextLaunch w
          let l : Launch := ⟨id, arg, seed, h.spn, h.xb, BitVec.ofNat 64 p.doneva, p.stages, p.queues,
            p.stages.map (fun _ => ⟨0, false, [], none⟩)⟩
          let s2 := { s1 with launches := put s1.launches (lchKey o id) l }
          match createStages o w id p.stages.zipIdx s2 with
          | none => (s1, .inr 0x0006)
          | some s3 =>
            let s4 := placeCursors s3 o id p.stages.zipIdx
            (releaseHeld (onOwner s4 o (fun w => { w with lcount := id, launched := true })) o id, .inl id)

/-! ## SPAWN (R118, R391) -/

/-- One thread of a stage on a named core: its packed id, or the reason it is not created. -/
def spawnOn (s : State) (o : Nat) (w : Owner) (lid k j : Nat) : State × (Nat ⊕ Nat) :=
  match lch? s o lid with
  | none => (s, .inr 3)
  | some l =>
    match l.stages[k]? with
    | none => (s, .inr 3)
    | some e =>
      if e.tmax ≤ (stageThreads s o lid k).length then (s, .inr 1)
      else if ncores w ≤ j then (s, .inr 2)
      else
        match grantOn s o j l k e with
        | none => (s, .inr 2)
        | some g =>
          match createOn s o w l k e j g with
          | (s, tid) => (onThr s o tid (fun t => { t with status := .ready }), .inl tid)

end Sys2Proof.Machine
end

