-- ==== Sys2Proof/Machine/SaveDir.lean ====
section
/-!
DEFINITION. Save directories and save areas (R70, R71, R409), octets in self-refresh (R94), and overlaps with what is
in use (R33, R36, R409).
-/

namespace Sys2Proof.Machine

/-! ## Save directories (R70) -/

/-- A directory as its 256 bytes say. `zero` says that every bit without a field is zero. -/
structure Dir where
  seq   : Nat
  copyB : Bool
  key   : Nat
  segs  : List (Nat × Nat × Nat)
  state : Nat
  step  : Bool
  mask  : Nat
  zero  : Bool
deriving DecidableEq, Repr

/-- The segments a directory names: die, base and bytes; a length of 0 names none. -/
def dirSegs (b : List Byte) : List (Nat × Nat × Nat) :=
  (List.range 8).filterMap (fun d =>
    let len := fieldOf b (0x18 + 16 * d) 4
    if len = 0 then none else some (d, fieldOf b (0x10 + 16 * d) 8, len * 65536))

def readDir (s : State) (pa : Nat) : Dir :=
  let b := readAt s (.mem pa) 256
  { seq := fieldOf b 0 4
    copyB := fieldOf b 4 1 % 2 == 1
    key := fieldOf b 8 8
    segs := dirSegs b
    state := fieldOf b 0x90 1 % 4
    step := fieldOf b 0x90 1 / 4 % 2 == 1
    mask := fieldOf b 0xA0 12
    zero := fieldOf b 4 4 ≤ 1 && fieldOf b 8 8 < 2 ^ 61
      && (List.range 8).all (fun d => fieldOf b (0x10 + 16 * d) 8 % 65536 == 0 && fieldOf b (0x10 + 16 * d) 8 < 2 ^ 52
        && zeroIn b (0x1C + 16 * d) 4)
      && fieldOf b 0x90 8 < 8 && zeroIn b 0xAC 84 }

/-- A directory's place and its fixed fields (R70, R409). -/
def dirOk (pa : Nat) (d : Dir) (copyB : Bool) : Bool :=
  pa % 256 == 0 && inHbm pa 256 && d.zero && d.copyB == copyB && 2 ≤ d.key && d.key ≤ 2 ^ 61 - 2

/-- The fields that the KX7 writes. -/
def writeDir (s : State) (pa state : Nat) (step : Bool) (bytes mask : Nat) : State :=
  let b := listOfWord (BitVec.ofNat 64 (state + (if step then 4 else 0))) 8 ++ listOfWord (BitVec.ofNat 64 bytes) 8
    ++ listOfWord (BitVec.ofNat 64 mask) 8 ++ listOfWord (BitVec.ofNat 64 (mask / 2 ^ 64)) 4
  writeAt s (.mem (pa + 0x90)) b

/-- STATE alone. -/
def writeState (s : State) (pa state : Nat) : State :=
  writeAt s (.mem (pa + 0x90)) [BitVec.ofNat 8 state]

/-- A copy fails: its directory says so, and no image stands in its segments any more (R74). -/
def loseCopy (s : State) (dir : Nat) : State :=
  let s := writeState s dir 2
  { s with images := s.images.map (fun im => if im.dir = dir then { im with gone := true } else im) }

/-! ## Ranges in use -/

/-- The ranges of a save area: its directory and the segments it names. -/
def areaOf (s : State) (pa : Nat) : List (Nat × Nat) := (pa, 256) :: (readDir s pa).segs.map (·.2)

/-- Save areas in use: those of running saves and restores, and the standing ones (R68). -/
def areasInUse (s : State) : List (Nat × Nat) :=
  s.saves.flatMap (fun v => areaOf s v.dirA ++ areaOf s v.dirB)
    ++ s.owners.flatMap (fun p => match p.2.standing with
      | some a => areaOf s a.dirA ++ areaOf s a.dirB
      | none => [])

/-- Whether two ranges share a byte; a range of no bytes shares none. -/
def meets (a b : Nat × Nat) : Bool := a.2 != 0 && b.2 != 0 && a.1 < b.1 + b.2 && b.1 < a.1 + a.2

/-- The extents of live owners other than one. -/
def liveExtents (s : State) (but : Option Nat) : List (Nat × Nat) :=
  s.owners.flatMap (fun p => if but = some p.1 then [] else p.2.extents.map (fun e => (e.base, e.len * 65536)))

/-- The ring, while it is enabled or a taken entry has still to write its STATUS (R33). -/
def ringRange (s : State) : List (Nat × Nat) :=
  if s.cqen || !s.cmds.isEmpty then [(s.cqbase, 2 ^ s.cqsize * 64)] else []

/-! ## Self-refresh (R94) -/

def octetBytes : Nat := 0x3C0000000

def frameBytes : Nat := 0x200000

def frameRange (f : Nat) : Nat × Nat := (f * frameBytes, frameBytes)

/-- Whether a frame lies in a live extent, the ring or a save area in use. -/
def frameUsed (s : State) (f : Nat) : Bool :=
  (liveExtents s none ++ ringRange s ++ areasInUse s).any (meets (frameRange f))

/-- The first address of an octet. -/
def octetBase (q : Nat) : Nat := q / 4 * stackSpan + q % 4 * octetBytes

/-- In-use frames of an octet. -/
def usedFrames (s : State) (q : Nat) : List Nat :=
  (liveExtents s none ++ ringRange s ++ areasInUse s).flatMap (fun r =>
    let lo := Nat.max r.1 (octetBase q)
    let hi := Nat.min (r.1 + r.2) (octetBase q + octetBytes)
    if hi ≤ lo then [] else (List.range ((hi - 1) / frameBytes + 1 - lo / frameBytes)).map (lo / frameBytes + ·))

/-- An octet whose in-use frames have all been redirected enters self-refresh; none that holds another octet's redirected
frame, or that a move reads or writes, does. Log 90, DESIGN CHOICE. -/
def maySleep (s : State) (q : Nat) : State :=
  let here := fun (f : Nat) => octetOf (f * frameBytes) == q
  if s.asleep.contains q || s.redirects.any (fun r => here r.2) || s.moves.any (fun m => here m.dst || here m.src)
      || (usedFrames s q).any (fun f => (lookup s.redirects f).isNone) then s
  else { s with asleep := s.asleep ++ [q] }

/-- Octets of ranges that are no longer in use enter self-refresh where nothing else of them is. -/
def restOctets (s : State) (rs : List (Nat × Nat)) : State :=
  let qs := rs.flatMap (fun r => if r.2 = 0 || !inHbm r.1 r.2 then []
    else (List.range (octetOf (r.1 + r.2 - 1) + 1 - octetOf r.1)).map (octetOf r.1 + ·))
  qs.dedup.foldl maySleep s

/-- Every octet that may enter self-refresh does. -/
def restAll (s : State) : State := (List.range 64).foldl maySleep s

/-- Octets that a run of device memory touches leave self-refresh. -/
def wakeOctets (s : State) (pa n : Nat) : State :=
  if s.asleep.isEmpty || n = 0 then s
  else { s with asleep := s.asleep.filter (fun q => !(octetOf pa ≤ q && q ≤ octetOf (pa + n - 1))) }

end Sys2Proof.Machine
end

