-- ==== Sys2Proof/Machine/HostIf.lean ====
section
/-!
DEFINITION. The host's view of the device: the DVSEC and the register window (R31, R32), enabling the command ring and
taking its entries (R33 to R36), and CXL.mem accesses (R46, R411).
-/

namespace Sys2Proof.Machine

/-! ## Discovery (R31) -/

/-- The DVSEC by 4-byte offset; a bit that its table does not list reads 0. Log 83, DESIGN CHOICE. -/
def dvsec (off : Nat) : BitVec 32 :=
  match off with
  | 0x00 => 0x00000023
  | 0x04 => 0x02011E9B
  | 0x08 => 0x00000001
  | 0x0C => BitVec.ofNat 32 isaLevel
  | 0x10 => BitVec.ofNat 32 featBits
  | 0x14 => BitVec.ofNat 32 (featBits / 2 ^ 32)
  | _ => 0

/-! ## The register window (R32) -/

def bitOf (b : Bool) (k : Nat) : Nat := if b then 2 ^ k else 0

/-- What the host reads at an offset of the window. Log 71, DESIGN CHOICE. -/
def regRead (s : State) (off : Nat) : Word :=
  BitVec.ofNat 64 (match off with
    | 0x000 => bitOf (s.power == .ready || s.power == .hot) 0 + bitOf s.saving 1 + bitOf s.restoring 2 + bitOf (s.power == .hot) 3
    | 0x008 => s.cqbase
    | 0x010 => bitOf s.cqen 0 + s.cqsize * 2 + bitOf s.cqirq 8
    | 0x018 => s.cqtail
    | 0x020 => s.cqhead
    | 0x030 => bitOf s.badEntry 0 + bitOf s.baseFault 1 + bitOf s.badSize 2
    | 0x038 => s.log.length
    | _ => 0)

/-- Whether the host and the KX7 have power. -/
def powered (s : State) : Bool := s.power != .off

/-- Whether commands are accepted: power-up zeroing is done. -/
def accepting (s : State) : Bool := s.power == .ready || s.power == .hot

/-! ## The ring (R33, R35) -/

/-- Whether the ring reaches a hole or the reserved range; both begin and end at multiples of 64 KiB. -/
def ringInHole (s : State) : Bool :=
  (List.range ((2 ^ s.cqsize * 64 + 65535) / 65536)).any (fun i =>
    let r := rangeOf (s.cqbase + i * 65536)
    r == .hole || r == .reserved)

/-- EN changes from 0 to 1. -/
def enableRing (s : State) : State :=
  if s.cqsize < 4 ∨ 12 < s.cqsize then { s with badSize := true, cqen := false }
  else
    let ring := (s.cqbase, 2 ^ s.cqsize * 64)
    if ringInHole s || (liveExtents s none).any (meets ring) then { s with baseFault := true, cqen := false }
    else wakeOctets { s with cqen := true, cqhead := 0 } s.cqbase (2 ^ s.cqsize * 64)

def execRingEnable (s : State) : Host.Outcome State Fault Refusal :=
  if s.cqen || !powered s then .next s else .next (enableRing s)

/-- EN changes from 1 to 0: the ring goes out of use with its last taken entry. -/
def disableRing (s : State) : State :=
  let t := { s with cqen := false }
  if t.cmds.isEmpty then restOctets t (ringRange s) else t

def execRingDisable (s : State) : Host.Outcome State Fault Refusal :=
  if powered s then .next (disableRing s) else .next s

/-- An entry as taken: a reserved OP or FLAGS bit or a nonzero byte after RESULT is refused with BADOP (R36). -/
def cmdOf (n pa : Nat) (b : List Byte) : Cmd where
  n := n
  entry := pa
  op := fieldOf b 0 1
  flags := fieldOf b 1 1
  owner := fieldOf b 4 4
  a0 := fieldOf b 8 8
  a1 := fieldOf b 16 8
  a2 := fieldOf b 24 8
  phase := if fieldOf b 0 1 = 0 ∨ 8 < fieldOf b 0 1 ∨ 4 ≤ fieldOf b 1 1 ∨ zeroIn b 40 24 = false then .done 0x0002 0 else .taken
  held := none

/-- One entry at CQHEAD: skipped when its STATUS is nonzero. -/
def takeHead (s : State) : State :=
  let pa := s.cqbase + 64 * s.cqhead
  let b := readAt s (.mem pa) 64
  let s := { s with cqhead := (s.cqhead + 1) % 2 ^ s.cqsize }
  if fieldOf b 2 2 ≠ 0 then { s with badEntry := true }
  else { s with cmds := s.cmds ++ [cmdOf s.nextId pa b], nextId := s.nextId + 1 }

/-- Entries from CQHEAD up to CQTAIL - 1. -/
def takeEntries : Nat → State → State
  | 0, s => s
  | n + 1, s => takeEntries n (takeHead s)

def outstanding (s : State) : Nat := (s.cqtail % 2 ^ s.cqsize + 2 ^ s.cqsize - s.cqhead % 2 ^ s.cqsize) % 2 ^ s.cqsize

/-- A write to NOTIFY; one before READY is not remembered. Log 83, DESIGN CHOICE. -/
def notify (s : State) : State := if s.cqen && accepting s then takeEntries (outstanding s) s else s

def execDoorbell (s : State) : Host.Outcome State Fault Refusal := .next (notify s)

/-- CQCTL: SIZE while EN is 0, IRQ, and a change of EN. -/
def writeCqctl (s : State) (v : Word) : State :=
  let s1 := { s with cqirq := v.getLsbD 8, cqsize := if s.cqen then s.cqsize else (v.extractLsb' 1 4).toNat }
  if v.getLsbD 0 && !s.cqen then enableRing s1
  else if !v.getLsbD 0 && s.cqen then disableRing s1
  else s1

/-- A write to the window. -/
def regWrite (s : State) (off : Nat) (v : Word) : State :=
  match off with
  | 0x008 => if s.cqen then s else { s with cqbase := (v.extractLsb' 16 36).toNat * 65536 }
  | 0x010 => writeCqctl s v
  | 0x018 => { s with cqtail := (v.extractLsb' 0 12).toNat }
  | 0x028 => notify s
  | 0x030 =>
    { s with badEntry := s.badEntry && !v.getLsbD 0, baseFault := s.baseFault && !v.getLsbD 1,
             badSize := s.badSize && !v.getLsbD 2 }
  | _ => s

def execRegisterWrite (off : Nat) (v : Word) (s : State) : Host.Outcome State Fault Refusal :=
  if powered s then .next (regWrite s off v) else .next s

/-! ## CXL.mem (R46) -/

/-- How an access of one block is judged: open, in a hole or the reserved range, or in an owner's closed extent. -/
inductive Judged where
  | open_
  | hole
  | closed (o : Nat)
deriving DecidableEq, Repr

/-- The owner whose extent holds an address. -/
def extentOwner (s : State) (pa : Nat) : Option (Nat × Owner × Extent) :=
  s.owners.findSome? (fun p => (extentOf p.2 pa).map (fun e => (p.1, p.2, e)))

def judge (s : State) (pa : Nat) : Judged :=
  match rangeOf pa with
  | .hole | .reserved => .hole
  | .hbm | .host =>
    match extentOwner s pa with
    | some (o, w, e) => if w.placed && w.launched && !e.host then .closed o else .open_
    | none => .open_

/-- The bytes of a block from an address to its end, at most n. -/
def blockPart (pa n : Nat) : Nat := Nat.min n (64 - pa % 64)

/-- A read, block by block. -/
def hostRead (s : State) : Nat → Nat → Nat → List (Option Byte)
  | 0, _, _ => []
  | k + 1, pa, n =>
    let m := blockPart pa n
    let part := if judge s pa != .open_ || markAt s (.mem pa) != 0 then List.replicate m none
      else (bytesNow s pa m).map some
    part ++ hostRead s k (pa + m) (n - m)

/-- A read that reaches the stack rewrites a line with a corrected symbol (R78). -/
def readLines (s : State) (pa len : Nat) : State :=
  { s with flips := s.flips.filter (fun p => match p with
      | .hbm a => len == 0 || a / 64 < pa / 64 || (pa + len - 1) / 64 < a / 64 || judge s a != .open_
      | _ => true) }

/-- An access to a frame that stands elsewhere wakes the octet of its physical address, and is carried on (R92, R94).
Log 90, DESIGN CHOICE. -/
def execHostMemRead (pa len : Nat) (s : State) : Host.Outcome State Fault Refusal :=
  if !powered s then .next s
  else
    let d := hostRead s (len / 64 + 2) pa len
    .next (wakeOctets { readLines s pa len with hostAns := s.hostAns ++ [⟨pa, d⟩] } pa len)

/-- One block of a write: written, whole blocks losing their mark, or dropped and logged. -/
def hostBlock (s : State) (pa : Nat) (bs : List Byte) : State :=
  match judge s pa with
  | .open_ =>
    let s := stackRead s pa
    if bs.length = 64 then writeBlocks s (.mem pa) bs else writeAt (settleBlock s pa) (.mem pa) bs
  | .hole => addLog s { blankLog with kind := 6, addr := pa / 64 * 64 }
  | .closed o => addLog s { blankLog with kind := 6, owner := o, addr := pa / 64 * 64 }

def hostWrite : Nat → Nat → List Byte → State → State
  | 0, _, _, s => s
  | k + 1, pa, bs, s =>
    let m := blockPart pa bs.length
    if m = 0 then s else hostWrite k (pa + m) (bs.drop m) (hostBlock s pa (bs.take m))

def execHostMemWrite (pa : Nat) (data : List Byte) (s : State) : Host.Outcome State Fault Refusal :=
  if powered s then .next (wakeOctets (hostWrite (data.length / 64 + 2) pa data s) pa data.length) else .next s

end Sys2Proof.Machine
end

