-- ==== Sys2Proof/Machine/Access.lean ====
section
/-!
DEFINITION. Shared operations of the memory instructions: forming a request, asking a target and waiting for it,
posting a store, reading operands at the core, and the journal (R129, R192 to R197, R330).
-/

namespace Sys2Proof.Machine

/-! ## Requests -/

/-- A request of a thread for a located access. -/
def reqFor (e : Env) (kind : ReqKind) (va : Word) (loc : Loc) (n : Nat) (rel acq : Option Scope) : Req where
  id := e.s.nextId
  o := e.t.o
  tid := e.t.tid
  core := e.t.core
  kind := kind
  va := va.toNat
  pa := match loc with | .spad _ off => off | .mem _ pa => pa
  n := n
  leaf := match loc with | .spad _ _ => none | .mem l _ => some l
  tgt := match loc with | .spad j _ => .scratch e.t.o j | .mem l pa => targetOf e.s e.w e.t.o e.t.core l pa
  rel := rel.map (wideScope e.t)
  acq := acq.map (wideScope e.t)
  part := none
  noFill := []
  held := false
  combined := none
  iss := issueOf e.s e.t (kind.acc.writes || kind.isStore) (match loc with
    | .spad j _ => .scratch e.t.o j
    | .mem l pa => targetOf e.s e.w e.t.o e.t.core l pa)

/-- A request is asked for. -/
def addReq (s : State) (r : Req) : State := { s with reqs := s.reqs ++ [r], nextId := r.id + 1 }

/-- Whether a target is the scratchpad of the core itself, reached without the network (R167). -/
def isLocal (e : Env) (r : Req) : Bool := r.tgt == .scratch e.t.o e.t.core

/-- What a reply gives a bundle that has not waited. -/
def complete (s : State) (e : Env) (p : Reply) : XRes :=
  let s := { s with nextId := p.id + 1 }
  match p.info with
  | some ti => .trapT s ti
  | none =>
    let s := p.writes.foldl (fun s x => writeAt s (.spad e.t.o (tidCore e.t.tid) x.1) x.2) s
    .ok s (p.wr s e.t)

/-- Ask a target and wait for its reply; the core's own scratchpad answers at once (R167, R333). Log 5, DEDUCED. -/
def ask (e : Env) (r : Req) : XRes :=
  if isLocal e r && mayServe e.s r then
    match serve e.s r with
    | .done s p => complete s e p
    | .hold => .wait (addReq e.s { r with held := true }) (.reply r.id)
    | .no => .wait (addReq e.s r) (.reply r.id)
  else .wait (addReq e.s r) (.reply r.id)

/-! ## The store buffer (R195) -/

/-- The bytes that a plain store writes, none for any other request. -/
def Req.plain (r : Req) : Option (List (Byte × Bool)) :=
  match r.kind, r.part with
  | .store d, none => some (allOn d)
  | .vstore v m none, none => some (maskBytes v m)
  | _, _ => none

/-- Bytes at their places in their 64-byte block. -/
def inBlock (pa : Nat) (bs : List (Byte × Bool)) : List (Byte × Bool) :=
  (List.range 64).map (fun i => if pa % 64 ≤ i then bs.getD (i - pa % 64) (0, false) else (0, false))

/-- The pending store with which the store buffer may merge a new one: the thread's last to that block, plain with no
acquire, release or fence between, or a release to exactly the same bytes. One that has left its core, and one that a FENCE.rel
stands before, is not merged. -/
def mergeMate (s : State) (r : Req) : Option Req :=
  match thr? s r.o r.tid, r.plain, (s.reqs.filter (fun a => a.o == r.o && a.tid == r.tid && a.iss.born == r.iss.born && a.kind.isStore && !a.tgt.isScratch
      && a.pa / 64 == r.pa / 64)).getLast? with
  | some t, some y, some a =>
    match a.plain with
    | none => none
    | some x =>
      if r.rel.isSome || a.tgt != r.tgt || a.leaf != r.leaf || a.held || a.combined.isSome || !(a.iss.fence ++ r.iss.fence).isEmpty
          || a.iss.sent.isSome then none
      else if a.rel.isSome then
        if a.pa = r.pa ∧ x.map (·.2) = y.map (·.2) ∧ t.fenceAt ≤ a.id + 1 then some a else none
      else if a.id < t.fenceAt then none else some a
  | _, _, _ => none

/-- Two stores to one block as one write: where they overlap it carries the later bytes; none where together, but
neither alone, they would write the whole block (R411). -/
def mergeStores (a r : Req) : Option Req :=
  if a.rel.isSome then some { a with kind := r.kind }
  else
    let x := inBlock a.pa (a.plain.getD [])
    let y := inBlock r.pa (r.plain.getD [])
    let z := (x.zip y).map (fun p => if p.2.2 then p.2 else p.1)
    if z.all (·.2) && !x.all (·.2) && !y.all (·.2) then none
    else some { a with kind := .vstore (bytesVec (z.map (·.1))) (BitVec.ofNat 64 (z.foldr (fun b n => (if b.2 then 1 else 0) + 2 * n) 0)) none,
                       pa := a.pa / 64 * 64, va := a.va - a.pa % 64, n := 64 }

/-- A store enters the store buffer: alone, or merged at the place of the earlier store or at its own (R195, log 6, DESIGN CHOICE). -/
def enterStore (s : State) (r : Req) : State :=
  match (mergeMate s r).bind (fun a => mergeStores a r) with
  | none => addReq s r
  | some m =>
    if Config.merge r.id = 0 then addReq s r
    else if Config.merge r.id = 1 then
      { s with reqs := s.reqs.map (fun x => if x.id = m.id then m else x), nextId := r.id + 1 }
    else addReq { s with reqs := s.reqs.filter (·.id != m.id) } { m with id := r.id, iss := r.iss }

/-- A store that orders others lies between those before and those after it. -/
def fenced (s : State) (r : Req) : State :=
  if r.plain.isSome && r.rel.isNone then s else onThr s r.o r.tid (fun t => { t with fenceAt := r.id + 1 })

/-- Post a store: it is asked for and the bundle goes on; a store to another core's scratchpad waits for the answer of
its layout check (R330). -/
def post (e : Env) (r : Req) (bs : List (Byte × Bool)) : XRes :=
  match r.tgt with
  | .scratch _ _ => ask e r
  | .bank _ _ _ | .replica _ _ _ _ | .hostLine _ | .device | .stack _ =>
    .ok (postDue (fenced (enterStore (storeIssue e.s r.o r.core r.pa bs) r) r) r.o r.tid r.tgt) Wr.none

/-! ## Checks with a second page -/

/-- Where an access of n bytes goes, with the bytes on its first page and the place of the rest where it crosses one. -/
inductive Span where
  | ok (l : Loc) (more : Option (Nat × Loc))
  | miss (page : Nat)
  | bad (t : TrapInfo)
deriving DecidableEq, Repr

def Span.of : Chk → Span
  | .ok l => .ok l none
  | .miss p => .miss p
  | .bad t => .bad t

/-- Check of an access that may cross a page: both pages are located, and the lowest cause is taken (R120, R330); an address
beyond the virtual range has no second page. Log 34, DEDUCED. -/
def checkSpan (e : Env) (a : Act332) (k : AccKind) (va : Word) (n al : Nat) : Span :=
  let n1 := 65536 - va.toNat % 65536
  let c := check e.s e.w e.t a k va n al
  if n ≤ n1 || va.extractLsb' 57 7 != 0 || isSpadVa va.toNat || va.toNat % al != 0 then Span.of c
  else
    match c, locate e.s e.w e.t a k k.writes (va + BitVec.ofNat 64 n1) (n - n1) with
    | .miss p, _ => .miss p
    | _, .miss p => .miss p
    | .bad t, .bad u => .bad (if u.cause < t.cause then u else t)
    | .bad t, .ok _ => .bad t
    | .ok _, .bad u => .bad u
    | .ok l, .ok (.mem m pa) => .ok l (some (n1, .mem m pa))
    | .ok _, .ok (.spad _ _) => .bad (protTrap k 2 (va + BitVec.ofNat 64 n1))

/-- Continue with a checked access; a miss waits for its walk. -/
def withSpan (e : Env) (c : Span) (f : Loc → Option (Nat × Loc) → XRes) : XRes :=
  match c with
  | .ok l sp => f l sp
  | .miss page => let p := walkFor e.s e.t page; .again p.1 p.2
  | .bad t => .trapC t

def withChk (e : Env) (c : Chk) (f : Loc → XRes) : XRes :=
  match c with
  | .ok l => f l
  | .miss page => let p := walkFor e.s e.t page; .again p.1 p.2
  | .bad t => .trapC t

/-! ## Reading at the core -/

/-- The bytes of an L1 copy of a whole range, where every sector of it is valid. -/
def l1Bytes (c : Core) (pa n : Nat) : Option (List Byte) :=
  ((List.range n).map (fun i => (l1Sector c (pa + i)).map (fun v => v.extractLsb' (8 * ((pa + i) % 64)) 8))).foldr
    (fun x acc => match x, acc with
      | some b, some l => some (b :: l)
      | _, _ => none) (some [])

/-- A load that hits the L1: the bytes of the copy (R193). -/
def l1Hit (e : Env) (l : Leaf) (pa n : Nat) : Option (List Byte) :=
  match core? e.s e.t.o e.t.core with
  | none => none
  | some c => if !l1Allowed e.w l pa then none else l1Bytes c pa n

def l1Touch (s : State) (e : Env) (pa n : Nat) : State := onCore s e.t.o e.t.core (fun c => l1UseN c pa n)

/-! ## Accesses in 16-byte pieces (R191) -/

def Loc.add : Loc → Nat → Loc
  | .spad j off, n => .spad j (off + n)
  | .mem l pa, n => .mem l (pa + n)

/-- The place of piece i of a wide access. -/
def pieceAt (l : Loc) (more : Option (Nat × Loc)) (i : Nat) : Loc :=
  match more with
  | some (n1, m) => if 16 * i < n1 then l.add (16 * i) else m.add (16 * i - n1)
  | none => l.add (16 * i)

/-- The request of piece i. -/
def pieceReq (e : Env) (kind : ReqKind) (va : Word) (l : Loc) (more : Option (Nat × Loc)) (rel acq : Option Scope) (i : Nat) : Req :=
  { reqFor e kind (va + BitVec.ofNat 64 (16 * i)) (pieceAt l more i) 16 rel acq with
    id := e.s.nextId + i, part := some (e.s.nextId, i) }

/-- A piece of a load that hits the L1. -/
def pieceHit (e : Env) (loc : Loc) (acq : Option Scope) : Option (List Byte) :=
  match loc, acq with
  | .mem l pa, none => l1Hit e l pa 16
  | _, _ => none

/-- A wide load at a lesser alignment: each piece is read from the L1 copy or asked for, and the bundle goes on when
all four have been. -/
def loadPieces (e : Env) (d : VReg) (k : MReg) (va : Word) (l : Loc) (more : Option (Nat × Loc)) (acq : Option Scope) : XRes :=
  let step := fun (acc : State × List Reply) (i : Nat) =>
    let r := pieceReq e (.vload d (e.m k) none) va l more none acq i
    match pieceHit e (pieceAt l more i) acq with
    | some bs => (plumbDue (l1Touch acc.1 e r.pa 16) e.t.o e.t.tid r.tgt,
        acc.2 ++ [{ r.reply with v := [(d, e.m k &&& (0xFFFF <<< (16 * i)), bytesVec bs <<< (128 * i))] }])
    | none => (addReq acc.1 r, acc.2)
  let p := (List.range 4).foldl step ({ e.s with nextId := e.s.nextId + 4 }, [])
  let s := { p.1 with nextId := e.s.nextId + 4 }
  match p.2 with
  | a :: b :: c :: x :: _ =>
    let r := [b, c, x].foldl joinParts a
    .ok s (r.wr s e.t)
  | got => .wait (onThr s e.t.o e.t.tid (fun t => { t with got := got })) (.reply e.s.nextId)

/-- A wide store at a lesser alignment: four stores, which a scratchpad answers and a bank does not. -/
def storePieces (e : Env) (v : Vec) (m : BitVec 64) (va : Word) (l : Loc) (more : Option (Nat × Loc)) (rel : Option Scope) : XRes :=
  let step := fun (s : State) (i : Nat) =>
    let r := pieceReq e (.vstore (v >>> (128 * i)) (m >>> (16 * i)) none) va l more rel none i
    let bs := (maskBytes (v >>> (128 * i)) (m >>> (16 * i))).take 16
    addReq (if r.tgt.isScratch then s else postDue (storeIssue s r.o r.core r.pa bs) r.o r.tid r.tgt) r
  let s := (List.range 4).foldl step e.s
  match l with
  | .spad _ _ => .wait (onThr s e.t.o e.t.tid (fun t => { t with got := [] })) (.reply e.s.nextId)
  | .mem _ _ => .ok (if rel.isSome then onThr s e.t.o e.t.tid (fun t => { t with fenceAt := s.nextId }) else s) Wr.none

/-- Whether a pending access of the thread touches these bytes, so that a read made within the bundle would come too
early (R194), or their tile's image is being exchanged (R134). -/
def pendingOn (e : Env) (tgt : Target) (spans : List (Nat × Nat)) : Bool :=
  tileMoves e.s tgt || earlyBars e.s e.t.o e.t.tid none tgt (wholeSectors spans)
    || e.s.reqs.any (fun r => r.o == e.t.o && r.tid == e.t.tid && r.kind.isAccess && r.tgt.isScratch == tgt.isScratch
    && (if tgt.isScratch then r.tgt == tgt else overlap r.spans spans))
    || !entriesDone e.s e.t.tid e.t.born e.s.nextId tgt spans

/-- Bytes of the home core's scratchpad read within a bundle, and the poison mark of their blocks. -/
def homeBytes (e : Env) (off n : Nat) : List Byte × Nat :=
  let p := Spot.spad e.t.o (tidCore e.t.tid) off
  (readAt e.s p n, markIn e.s p n)

def homeTarget (e : Env) : Target := .scratch e.t.o (tidCore e.t.tid)

/-- A 0x1FE scratchpad address of n bytes: the offset, or PROT with reason 010 (R345, R354, R405). -/
def homeArea (e : Env) (k : AccKind) (va : Word) (n : Nat) : Option Nat × Option TrapInfo :=
  if va.toNat / 2 ^ 48 = 0x1FE ∧ va.toNat / 2 ^ 20 % 2 ^ 28 = 0 then
    let off := va.toNat % 2 ^ 20
    match core? e.s e.t.o (tidCore e.t.tid) with
    | some c => if spadSize c < off + n || inShadow c off n then (none, some (protTrap k 2 va)) else (some off, none)
    | none => (none, some (protTrap k 2 va))
  else (none, some (protTrap k 2 va))

/-- ALIGN of an address. -/
def alignTrap (va : Word) (al info : Nat) : Option TrapInfo :=
  if va.toNat % al ≠ 0 then some (mkTrap Cause.align info va) else none

/-- POISON consumed by a read made at the core. -/
def poisonT (s : State) (mark : Nat) (va : Word) : XRes := .trapT s (mkTrap Cause.poison (mark - 1) va)

/-- The place of a located access at its target. -/
def spotAt (e : Env) : Loc → Spot
  | .spad j off => .spad e.t.o j off
  | .mem l pa => match targetOf e.s e.w e.t.o e.t.core l pa with
    | .replica _ die _ _ => .mem (replPa die pa)
    | .scratch _ _ | .bank _ _ _ | .hostLine _ | .device | .stack _ => .mem pa

def targetAt (e : Env) : Loc → Target
  | .spad j _ => .scratch e.t.o j
  | .mem l pa => targetOf e.s e.w e.t.o e.t.core l pa

/-- Blocks of a load made at the core reach its L1 (R168). -/
def fillHere (s : State) (e : Env) (l : Leaf) (pa n : Nat) (bs : List Byte) : State :=
  if l1Allowed e.w l pa then
    onCore s e.t.o e.t.core (fun c => (List.range (n / 64)).foldl (fun c i =>
      l1Fill c (pa + 64 * i) (bytesVec ((bs.drop (64 * i)).take 64))) c)
  else s

/-- Bytes of an operand that a bundle reads as a load of whole blocks, once its earlier accesses to them are performed
(R191, R194): from the L1 copy, or at the target, where a filled pool line is checked and poison is met. -/
def withBytes (e : Env) (loc : Loc) (va : Word) (n : Nat) (f : State → List Byte → XRes) : XRes :=
  let pa := match loc with | .spad _ off => off | .mem _ pa => pa
  if pendingOn e (targetAt e loc) [(pa, n)] then .again e.s .release
  else if layoutMiss e.s e.t.o loc n then .trapT e.s (protTrap .load 2 va)
  else
    match loc with
    | .spad _ _ =>
      let m := markIn e.s (spotAt e loc) n
      if m != 0 then poisonT e.s m va else f e.s (readAt e.s (spotAt e loc) n)
    | .mem l pa =>
      match l1Hit e l pa n with
      | some bs => f (plumbDue (l1Touch e.s e pa n) e.t.o e.t.tid (targetAt e loc)) bs
      | none =>
        let s := fillCheck (plumbDue e.s e.t.o e.t.tid (targetAt e loc)) e.w (targetAt e loc) l va.toNat pa
        let m := markIn s (spotAt e loc) n
        if m != 0 then poisonT s m va
        else
          let bs := readAt s (spotAt e loc) n
          let s := (List.range ((n + 63) / 64)).foldl (fun s i => touchRead s (targetAt e loc) (pa + 64 * i)) s
          f (fillHere s e l pa n bs) bs

/-! ## The journal (R129) -/

/-- Journal entries in use in core cycle y: in plumb mode one acknowledged before its deadline is in use until then (R179). -/
def Core.entriesHeld (c : Core) (y : Nat) : Nat := c.journal.length + (c.postDues.filter (y < ·)).length

def journalFull (e : Env) : Bool :=
  match core? e.s e.t.o e.t.core with
  | some c => 256 ≤ c.entriesHeld (c.cyc - 1)
  | none => true

/-- An entry that its core is still to send, or to send again. -/
def JEnt.unsent (e : JEnt) : JEnt := { e with tile := none, iss := { e.iss with sent := none } }

/-- A posted operation takes an entry and retires; with none free the thread waits uncounted. -/
def takeEntry (e : Env) (kind : PostKind) (full : Bool) (va : Word) (dest off : Nat) (data : List Byte) : XRes :=
  if journalFull e then .again e.s .journal
  else
    let s := onCore e.s e.t.o e.t.core (fun c =>
      { c with journal := c.journal ++ [⟨c.jseq, e.t.tid, e.t.launch, dest, kind, full, va, off, data, c.xph, e.s.nextId,
                 false, none, .ready, issueOf e.s e.t true (.scratch e.t.o dest)⟩], jseq := c.jseq + 1 })
    let s := if full || kind == .msend then onThr s e.t.o e.t.tid (fun t => { t with fenceAt := e.s.nextId + 1 }) else s
    .ok (postDue { s with nextId := s.nextId + 1 } e.t.o e.t.tid (.scratch e.t.o dest)) Wr.none

/-- The check of a posted operation's address: the target core and offset (R347). -/
def postChk (e : Env) (va : Word) (n : Nat) : Chk :=
  if va.toNat % n ≠ 0 then .bad (mkTrap Cause.align (n % 256) va)
  else if va.extractLsb' 57 7 != 0 then .bad (protTrap .store 2 va)
  else if isSpadVa va.toNat then
    match spadVa e.w (tidCore e.t.tid) va.toNat with
    | none => .bad (protTrap .store 2 va)
    | some (j, off) =>
      match watchHit e.t va.toNat n false true with
      | some i => .bad (mkTrap Cause.watch i va)
      | none => .ok (.spad j off)
  else locate e.s e.w e.t .pst .store true va n

/-! ## Trap records as bytes (R123) -/

def recBytes (r : TrapRec) : List Byte :=
  let flags : Nat := (if r.async then 1 else 0) + (if r.known then 2 else 0) + (if r.applied then 4 else 0)
    + (if r.vhalf then 8 else 0) + (if r.plumb then 16 else 0)
  [BitVec.ofNat 8 (r.cause % 64 + r.action * 64), BitVec.ofNat 8 flags, 0, 0]
    ++ listOfWord (BitVec.ofNat 64 r.tid) 4 ++ listOfWord r.pc 8 ++ listOfWord r.va 8 ++ listOfWord r.info 8
    ++ listOfWord r.pos 8 ++ listOfWord r.spec 8 ++ listOfWord (BitVec.ofNat 64 r.gen) 6
    ++ listOfWord (BitVec.ofNat 64 r.repl) 2 ++ listOfWord (BitVec.ofNat 64 r.seq) 8

end Sys2Proof.Machine
end

