-- ==== Sys2Proof/Machine/Jobs.lean ====
section
/-!
DEFINITION. Submitting jobs and job control (R115, R116, R253 to R255, R264, R392 to R401, R404, R405).
-/

namespace Sys2Proof.Machine

/-! ## Ranges -/

/-- Whether two byte ranges share a byte. -/
def share (a n b m : Nat) : Bool := a < b + m && b < a + n

/-- Bytes from the first row to the end of the last. -/
def rowsSpan (rows stride row : Nat) : Nat := (rows - 1) * stride + row

/-! ## Job blocks (R253 to R255) -/

/-- Bytes of one A chunk and of one chunk's indices, by FCL (R252). -/
def chunkBytes (fcl : Nat) : Nat := if fcl = 2 then 1024 else 512
def idxBytes (fcl : Nat) : Nat := if fcl = 0 then 64 else if fcl = 1 then 128 else 512

structure MxBlock where
  ava : Nat
  cva : Nat
  xva : Nat
  barva : Nat
  astr : Nat
  cstr : Nat
  xstr : Nat
  m : Nat
  kc : Nat
  n : Nat
  mode : Nat
  sp24 : Bool
  fe : Bool
  gf : Bool
  cz : Bool
  fcl : Nat
  crows : Nat
  cfmt : Nat
  cscale : Nat
  boff : Nat
  opc : Bool
  done : Bool
  wait : Bool
  waitj : Nat
  bgen : Nat
  btag : Nat
deriving DecidableEq, Repr

def mxBlock (b : List Byte) : MxBlock :=
  let md := fieldOf b 51 1
  let ev := fieldOf b 56 1
  { ava := fieldOf b 0 8, cva := fieldOf b 8 8, xva := fieldOf b 16 8, barva := fieldOf b 24 8, astr := fieldOf b 32 4,
    cstr := fieldOf b 36 4, xstr := fieldOf b 40 4, m := fieldOf b 44 4, kc := fieldOf b 48 1, n := fieldOf b 49 2,
    mode := md % 4, sp24 := md / 4 % 2 == 1, fe := md / 8 % 2 == 1, gf := md / 16 % 2 == 1, cz := md / 32 % 2 == 1,
    fcl := md / 64, crows := fieldOf b 52 1, cfmt := fieldOf b 53 1, cscale := fieldOf b 54 1, boff := fieldOf b 55 1,
    opc := ev % 2 == 1, done := ev / 2 % 2 == 1, wait := ev / 4 % 2 == 1, waitj := fieldOf b 58 2, bgen := fieldOf b 60 2,
    btag := fieldOf b 62 2 }

/-- Width in bits of an element of a format code (R232). -/
def fmtBits (c : Nat) : Nat := if c = 1 then 32 else if c = 2 ∨ c = 3 then 16 else if c = 6 then 4 else 8

/-- Row sizes (R254). -/
def MxBlock.aRow (x : MxBlock) : Nat := x.kc * chunkBytes x.fcl + (if x.sp24 then x.kc * idxBytes x.fcl else 0)
def MxBlock.cRow (x : MxBlock) : Nat := 64 * ((x.n * fmtBits x.cfmt + 511) / 512)
def MxBlock.xRow (x : MxBlock) : Nat := 64 * ((x.n + 15) / 16)
def MxBlock.bSize (x : MxBlock) : Nat := x.kc * chunkBytes x.fcl * (if x.sp24 then 2 else 1)
def MxBlock.chunkRows (x : MxBlock) : Nat := 2 ^ (if x.crows = 0 then 8 else x.crows)

/-- A job block in order (R253, R255). -/
def MxBlock.ok (b : List Byte) (x : MxBlock) : Bool :=
  let aN := rowsSpan x.m x.astr x.aRow
  let cN := rowsSpan x.m x.cstr x.cRow
  let xN := rowsSpan x.m x.xstr x.xRow
  let plain := x.mode == 0
  fieldOf b 56 1 / 8 == 0 && zeroIn b 57 1 && x.mode != 3 && x.fcl != 3
    && (x.crows == 0 || (2 ≤ x.crows && x.crows ≤ 8)) && 1 ≤ x.cfmt && x.cfmt ≤ 5
    && (x.cfmt == 4 || x.cfmt == 5 || x.cscale == 127)
    && 1 ≤ x.m && x.m ≤ 2 ^ 24 && 1 ≤ x.kc && x.kc ≤ 64 && 1 ≤ x.n && x.n ≤ 256 && x.boff ≤ 127
    && (!plain || (x.xva == 0 && x.xstr == 0)) && ((x.barva != 0) == x.done) && (x.wait || x.waitj == 0)
    && x.ava % 64 == 0 && x.cva % 64 == 0 && x.xva % 64 == 0 && x.barva % 64 == 0 && x.astr % 64 == 0
    && x.cstr % 64 == 0 && x.xstr % 64 == 0
    && (x.m == 1 || (x.aRow ≤ x.astr && x.cRow ≤ x.cstr && (plain || x.xRow ≤ x.xstr)))
    && x.boff * 256 + x.bSize ≤ 32768
    && x.ava + aN ≤ 2 ^ 57 && x.cva + cN ≤ 2 ^ 57 && (plain || x.xva + xN ≤ 2 ^ 57)
    && !share x.cva cN x.ava aN && (plain || !share x.cva cN x.xva xN)

/-! ## Copy blocks (R397, R398) -/

structure CuBlock where
  sva : Nat
  dva : Nat
  rowb : Nat
  rows : Nat
  sstr : Nat
  dstr : Nat
  dsc : Bool
  fe : Bool
  conv : Bool
  cfmt : Nat
  cscale : Nat
  sfmt : Nat
  done : Bool
  onopc : Bool
  opcj : Nat
  barva : Nat
  bgen : Nat
  btag : Nat
deriving DecidableEq, Repr

def cuBlock (b : List Byte) : CuBlock :=
  let md := fieldOf b 32 1
  let ev := fieldOf b 36 1
  { sva := fieldOf b 0 8, dva := fieldOf b 8 8, rowb := fieldOf b 16 4, rows := fieldOf b 20 4, sstr := fieldOf b 24 4,
    dstr := fieldOf b 28 4, dsc := md % 2 == 1, fe := md / 2 % 2 == 1, conv := md / 4 % 2 == 1, cfmt := fieldOf b 33 1,
    cscale := fieldOf b 34 1, sfmt := fieldOf b 35 1, done := ev % 2 == 1, onopc := ev / 2 % 2 == 1,
    opcj := fieldOf b 38 2, barva := fieldOf b 40 8, bgen := fieldOf b 48 2, btag := fieldOf b 50 2 }

/-- Elements of a 64-byte block of a format code (R232). -/
def perBlock (c : Nat) : Nat := 512 / fmtBits c

def CuBlock.rowEls (x : CuBlock) : Nat := x.rowb / 64 * perBlock x.sfmt
def CuBlock.drb (x : CuBlock) : Nat := if x.conv then 64 * (x.rowEls / perBlock x.cfmt) else x.rowb

def CuBlock.ok (b : List Byte) (x : CuBlock) : Bool :=
  let sN := rowsSpan x.rows x.sstr x.rowb
  let dN := rowsSpan x.rows x.dstr x.drb
  fieldOf b 32 1 / 8 == 0 && fieldOf b 36 1 / 4 == 0 && zeroIn b 37 1 && zeroIn b 52 12
    && x.sva % 64 == 0 && x.dva % 64 == 0 && x.barva % 64 == 0
    && x.rowb % 64 == 0 && 64 ≤ x.rowb && x.rowb ≤ 2 ^ 24 && 1 ≤ x.rows && x.rows ≤ 2 ^ 24 && x.sstr % 64 == 0
    && x.dstr % 64 == 0 && !(x.conv && x.dsc)
    && (if x.conv then 1 ≤ x.cfmt && x.cfmt ≤ 5 && 1 ≤ x.sfmt && x.sfmt ≤ 7
          && (x.cfmt == 4 || x.cfmt == 5 || x.cscale == 127) && x.rowEls % perBlock x.cfmt == 0
        else x.cfmt == 0 && x.cscale == 0 && x.sfmt == 0)
    && ((x.barva != 0) == x.done) && (x.onopc || x.opcj == 0)
    && (x.rows == 1 || (x.rowb ≤ x.sstr && x.drb ≤ x.dstr))
    && x.sva + sN ≤ 2 ^ 57 && x.dva + dN ≤ 2 ^ 57 && !share x.sva sN x.dva dN

/-- Whether a job's last chunk or block has landed (R79). -/
def Job.landed (b : Job) : Bool :=
  match b.kind with
  | .mxrun k => (mxBlock k).m ≤ b.pos
  | .carryLd _ | .carrySt _ => false
  | .copy k => (cuBlock k).rows ≤ b.pos
  | .fill _ len _ _ => len ≤ b.pos * 64
  | .ldb _ len ncol _ => ncol * (len / 64) ≤ b.pos
  | .digest _ _ _ | .slout _ _ => b.stop

/-! ## Submission (R115, R392) -/

/-- Threads of the entry's core that wait for an entry, and those whose turn has come (R115: oldest first). -/
def entryWaiters (s : State) (o k : Nat) : List Thread :=
  (threadsOf s o).filter (fun t => tidCore t.tid == k && t.status == .waiting .jobEntry)

def entryTurns (s : State) (o k : Nat) : Nat :=
  ((threadsOf s o).filter (fun t => tidCore t.tid == k && t.turn.isSome)).length

/-- Free job entries of a core. -/
def freeEntries (s : State) (o k : Nat) : Nat :=
  match core? s o k with
  | some c => 16 - c.jobs.length
  | none => 0

def mayTakeEntry (s : State) (t : Thread) : Bool :=
  let k := tidCore t.tid
  if t.turn.isSome then 0 < freeEntries s t.o k
  else entryTurns s t.o k < freeEntries s t.o k && (entryWaiters s t.o k).isEmpty

/-- The gate of a job that names another (R264, R398), resolved at submission: free, waiting, or failed. -/
def resolveGate (s : State) (o k id : Nat) (opc : Bool) : Option JobGate :=
  match jobAt s o k id with
  | some b => if opc then (if b.opc then some .none else some (.opc id)) else some (.ended id)
  | none => if jobCode s o k id = some 2 then none else some .none

/-- Take an entry, once the release conditions at .clus hold and an entry is free; a `.w` form then waits. -/
def submit (e : Env) (wf : Bool) (d : GReg) (kind : JobKind) (gate : Nat → Option JobGate) : XRes :=
  if !releaseNow e.s e.t .clus then .again e.s .release
  else if !mayTakeEntry e.s e.t then .again e.s .jobEntry
  else
    let k := tidCore e.t.tid
    match core? e.s e.t.o k with
    | none => .again e.s .jobEntry
    | some c =>
      let id := k % 8 * 8192 + c.jcount % 8192
      let sr := fpcRM e.t.fpc == 4 && e.w.plumb
      let rm := if sr then 0 else fpcRM e.t.fpc
      let g := gate k
      let b : Job := ⟨id, e.t.tid, e.t.launch, kind, rm, fpcFTZ e.t.fpc, g.getD .none, .queued, 0, 0, false, false, false,
        false, none, false, false, [], 0, [], []⟩
      let s := onCore e.s e.t.o k (fun c => { c with jobs := c.jobs ++ [b], jcount := c.jcount + 1 })
      let s := if g.isNone then failJob s e.t.o k id Cause.jobf else s
      let w := { Wr.ofG d (BitVec.ofNat 64 id) with srs := sr }
      if wf then .sub s w k id else .ok s w

/-- No gate. -/
def noGate (_ : Nat) : Option JobGate := some .none

/-! ## Operand blocks -/

/-- A 64-byte block in a scratchpad: alignment, then the place (R255, R394, R397). Log 36, DEDUCED. -/
def blockChk (e : Env) (va : Word) : Chk :=
  if va.toNat % 64 ≠ 0 then .bad (mkTrap Cause.align 64 va)
  else if !isSpadVa va.toNat || va.extractLsb' 57 7 != 0 then .bad (protTrap .load 2 va)
  else check e.s e.w e.t .ld .load va 64 64

/-- DESC of a block field or an operand field out of range. Log 43, DEDUCED. -/
def fieldTrap (va : Word) : XRes := .trapC (mkTrap Cause.desc 0xFFFF va)

/-- An address of an operand of the unit: alignment (its INFO), and the address range. -/
def unitAddr (k : AccKind) (va : Word) (al info : Nat) : Option TrapInfo :=
  lowest (alignTrap va al info) (if va.extractLsb' 57 7 != 0 then some (protTrap k 2 va) else none)

/-! ## The submitting instructions (R394 to R400, R404) -/

def mxrunSem (wf : Bool) (d : GReg) (ad : EAddr) (e : Env) : XRes :=
  let va := eaE e.s e.t ad
  withChk e (blockChk e va) (fun loc =>
    withBytes e loc va 64 (fun s b =>
      let x := mxBlock b
      if !x.ok b then fieldTrap va
      else submit { e with s := s } wf d (.mxrun b) (fun k => if x.wait then resolveGate s e.t.o k x.waitj false else some .none)))

def execMxrun (wf : Bool) (d : GReg) (ad : EAddr) (s : State) : Host.Outcome State Fault Refusal :=
  runX (.mxrun wf d ad) (mxrunSem wf d ad) s

def carrySem (ld wf : Bool) (d : GReg) (ad : EAddr) (e : Env) : XRes :=
  let va := eaE e.s e.t ad
  match unitAddr .engine va 64 64 with
  | some t => .trapC t
  | none => submit e wf d (if ld then .carryLd va else .carrySt va) noGate

def execMxcarryLd (wf : Bool) (d : GReg) (ad : EAddr) (s : State) : Host.Outcome State Fault Refusal :=
  runX (.mxcarryLd wf d ad) (carrySem true wf d ad) s

def execMxcarrySt (wf : Bool) (d : GReg) (ad : EAddr) (s : State) : Host.Outcome State Fault Refusal :=
  runX (.mxcarrySt wf d ad) (carrySem false wf d ad) s

def cucopySem (wf : Bool) (d : GReg) (ad : EAddr) (e : Env) : XRes :=
  let va := eaE e.s e.t ad
  withChk e (blockChk e va) (fun loc =>
    withBytes e loc va 64 (fun s b =>
      let x := cuBlock b
      if !x.ok b then fieldTrap va
      else submit { e with s := s } wf d (.copy b) (fun k => if x.onopc then resolveGate s e.t.o k x.opcj true else some .none)))

def execCucopy (wf : Bool) (d : GReg) (ad : EAddr) (s : State) : Host.Outcome State Fault Refusal :=
  runX (.cucopy wf d ad) (cucopySem wf d ad) s

def cufillSem (wf : Bool) (d : GReg) (ad : EAddr) (b : GReg) (c : VReg) (e : Env) : XRes :=
  let va := eaE e.s e.t ad
  let g := (e.g b).toNat
  let len := g % 2 ^ 40
  match unitAddr .copy va 64 64 with
  | some t => .trapC t
  | none =>
    if len % 64 ≠ 0 ∨ len < 64 ∨ g / 2 ^ 40 % 256 ≠ 0 then fieldTrap va
    else submit e wf d (.fill va len (g / 2 ^ 48) (e.v c)) noGate

def execCufill (wf : Bool) (d : GReg) (ad : EAddr) (b : GReg) (c : VReg) (s : State) :
    Host.Outcome State Fault Refusal := runX (.cufill wf d ad b c) (cufillSem wf d ad b c) s

def culdbSem (wf : Bool) (d : GReg) (ad : EAddr) (b : GReg) (e : Env) : XRes :=
  let va := eaE e.s e.t ad
  let g := (e.g b).toNat
  let len := g % 65536
  let ncol := g / 2 ^ 16 % 512
  let boff := g / 2 ^ 25 % 128
  match unitAddr .copy va 64 64 with
  | some t => .trapC t
  | none =>
    if len % 64 ≠ 0 ∨ len < 64 ∨ 32768 < len ∨ ncol = 0 ∨ 256 < ncol ∨ 32768 < boff * 256 + len ∨ g / 2 ^ 32 ≠ 0
    then fieldTrap va
    else submit e wf d (.ldb va len ncol boff) noGate

def execCuldb (wf : Bool) (d : GReg) (ad : EAddr) (b : GReg) (s : State) : Host.Outcome State Fault Refusal :=
  runX (.culdb wf d ad b) (culdbSem wf d ad b) s

def cudigestSem (wf : Bool) (d : GReg) (ad : EAddr) (b : GReg) (e : Env) : XRes :=
  let va := eaE e.s e.t ad
  let len := (e.g b).toNat
  let dst := e.g d
  if va.extractLsb' 57 7 != 0 then .trapC (protTrap .copy 2 va)
  else if len % 64 ≠ 0 ∨ len < 64 ∨ 2 ^ 40 < len ∨ va.toNat % 64 ≠ 0 ∨ dst.toNat % 64 ≠ 0 ∨ share va.toNat len dst.toNat 64
  then fieldTrap va
  else submit e wf d (.digest va len dst) noGate

def execCudigest (wf : Bool) (d : GReg) (ad : EAddr) (b : GReg) (s : State) : Host.Outcome State Fault Refusal :=
  runX (.cudigest wf d ad b) (cudigestSem wf d ad b) s

def sloutSem (wf : Bool) (d a b : GReg) (e : Env) : XRes :=
  match lowest (alignTrap (e.g b) 256 0) (if e.w.sen then none else some (protTrap .copy 6 0)) with
  | some t => .trapC t
  | none => submit e wf d (.slout (e.g a) (e.g b)) noGate

def execSlout (wf : Bool) (d a b : GReg) (s : State) : Host.Outcome State Fault Refusal :=
  runX (.slout wf d a b) (sloutSem wf d a b) s

/-! ## Job control (R401) -/

/-- The core and id that a register names: the core in the cluster of the thread's packed id. -/
def jobName (e : Env) (a : GReg) : Nat × Nat :=
  let id := (e.g a).toNat % 65536
  (tidClus e.t.tid * 8 + id / 8192, id)

/-- Log 44, DEDUCED. -/
def jwaitSem (d a : GReg) (e : Env) : XRes :=
  match jobName e a with
  | (k, id) =>
    match jobAt e.s e.t.o k id with
    | some b => if b.isSuspended then .trapC (jobfTrap k b) else .wait e.s (.job k id)
    | none => .ok e.s (jobSeen e.s e.t.o k id e.t.tid (some d) ((jobCode e.s e.t.o k id).getD 1))

def execJwait (d a : GReg) (s : State) : Host.Outcome State Fault Refusal := runX (.jwait d a) (jwaitSem d a) s

def jpollSem (d a : GReg) (e : Env) : XRes :=
  match jobName e a with
  | (k, id) =>
    match jobAt e.s e.t.o k id with
    | some b =>
      if e.w.plumb then .trapC (mkTrap Cause.plumb 0 0)
      else if b.isSuspended then .trapC (jobfTrap k b)
      else e.give d 0
    | none =>
      if e.w.plumb then .trapC (mkTrap Cause.plumb 0 0)
      else .ok e.s (jobSeen e.s e.t.o k id e.t.tid (some d) ((jobCode e.s e.t.o k id).getD 1))

def execJpoll (d a : GReg) (s : State) : Host.Outcome State Fault Refusal := runX (.jpoll d a) (jpollSem d a) s

/-- Whether a running job's chunk must reach its end: it has made full/empty accesses, or its OPC is posted (R265). -/
def mustFinish (s : State) (o k : Nat) (b : Job) : Bool :=
  match clus? s o (k / 8) with
  | some c => (match c.mx with
    | some r => r.k == k && r.id == b.id && (r.fe || b.opc)
    | none => false)
  | none => false

/-- JCANCEL: the code before; a running chunk that must reach its end holds the thread until it has. -/
def jcancelSem (d a : GReg) (e : Env) : XRes :=
  match jobName e a with
  | (k, id) =>
    match jobAt e.s e.t.o k id with
    | none => .ok e.s (Wr.ofG d (BitVec.ofNat 64 ((jobCode e.s e.t.o k id).getD 1)))
    | some b =>
      if b.isRunning && mustFinish e.s e.t.o k b then
        .wait (onCore e.s e.t.o k (fun c => { c with jobs := c.jobs.map (fun x =>
          if x.id = id then { x with cancel := true } else x) })) (.jobStop k id 0)
      else .ok (cancelJob e.s e.t.o k id) (Wr.ofG d 0)

def execJcancel (d a : GReg) (s : State) : Host.Outcome State Fault Refusal := runX (.jcancel d a) (jcancelSem d a) s

end Sys2Proof.Machine
end

