-- ==== Sys2Proof/Machine/Net.lean ====
section
/-!
DEFINITION. Events of the network, of the journals and of waits: requests at their targets, replies, combining, posted
stores, exchange packets, barrier completions, replicated writes, translation walks, wait limits and host snoops
(R129, R130, R137, R138, R152, R169, R174, R177, R182, R183, R186, R192, R333, R347 to R349).
-/

namespace Sys2Proof.Machine

def reqAt (s : State) (r : Nat) : Option Req := s.reqs.find? (·.id == r)

def dropReq (s : State) (r : Nat) : State := { s with reqs := s.reqs.filter (·.id != r) }

def onReq (s : State) (r : Nat) (f : Req → Req) : State := { s with reqs := s.reqs.map (fun x => if x.id = r then f x else x) }

/-! ## Requests (R174, R192) -/

/-- Whether the issuing bundle waits for the answer of a request, or its core learns from it. -/
def wantsReply (r : Req) : Bool :=
  match r.kind with
  | .store _ | .vstore _ _ _ | .stf _ | .push _ _ => r.tgt.isScratch
  | _ => true

/-- A served request: it leaves, a held wait's count ends (R152, R333), and its reply is on its way; the core's own scratchpad answers without the network. -/
def answered (s : State) (r : Req) (p : Reply) : State :=
  let s := if r.held then onThr s r.o r.tid (fun t => { t with wcount := none }) else s
  let s := dropReq s r.id
  if !wantsReply r && p.trap.isNone then s
  else if r.tgt = .scratch r.o r.core then land s p
  else { s with replies := s.replies ++ [p] }

/-- A held wait is counted from the cycle in which it is held (R152). -/
def startCount (s : State) (o tid : Nat) : State :=
  onThr s o tid (fun t => { t with wcount := if t.wcount.isNone then some 0 else t.wcount })

/-- A request that its target holds as a wait takes the place in which it arrived, behind those held before it
(R110, R202). -/
def holdReq (s : State) (q : Req) : State :=
  startCount { s with reqs := s.reqs.filter (·.id != q.id) ++ [{ q with held := true }] } q.o q.tid

/-- Whether a core's phase buffer is full: the request input of its tile is stopped until its next swap (R171, R182). -/
def inputStopped (s : State) (o j : Nat) : Bool :=
  match core? s o j with
  | some c => 16 ≤ c.phase.length
  | none => false

/-- Whether a target takes nothing from the network now. -/
def targetShut (s : State) (t : Target) : Bool :=
  tileMoves s t || (match t with
    | .scratch o j | .bank o j _ | .replica o _ j _ => inputStopped s o j
    | .hostLine _ | .device | .stack _ => false)

/-- A request at its target: performed there, queued behind earlier accesses, or held as a wait. -/
def targetStep (s : State) (r : Nat) : State :=
  match reqAt s r with
  | none => s
  | some q =>
    if q.held || q.combined.isSome || targetShut s q.tgt || !mayServe s q then s
    else
      match serve s q with
      | .done s' p => answered s' q p
      | .hold => holdReq s q
      | .no => dropReq s r

def execTargetRequest (r : Nat) (s : State) : Host.Outcome State Fault Refusal := .next (targetStep s r)

/-- Held requests are served as soon as their condition holds, in the order in which they arrived. -/
def serveHeld (s : State) (r : Req) : State :=
  match reqAt s r.id with
  | none => s
  | some q =>
    if stopped s q.o || tileMoves s q.tgt || !mayServe s q then s
    else
      match serve s q with
      | .done s' p => answered s' q p
      | .hold | .no => s

def serveAllHeld (s : State) : State := (s.reqs.filter (·.held)).foldl serveHeld s

/-! ## Replies (R174, R175) -/

def replyAt (s : State) (r : Nat) : Option Reply := s.replies.find? (·.id == r)

/-- Where a reply leaves from: the end of the path on which its request came. -/
def leftFrom (s : State) (p : Reply) : Nat × Nat := endOf s (placeOf s p.o p.core).die p.src

/-- Whether two replies share a path: one source and one core, or one pair of different dies (R13, R175). -/
def sameWay (s : State) (p q : Reply) : Bool :=
  let a := leftFrom s p
  let b := leftFrom s q
  let dp := (placeOf s p.o p.core).die
  let dq := (placeOf s q.o q.core).die
  (p.o == q.o && p.core == q.core && a == b) || (dp == dq && a.1 == b.1 && a.1 != dp)

/-- Replies of one path arrive in the order in which they left. -/
def inOrder (s : State) (p : Reply) : Bool :=
  match (s.replies.filter (sameWay s p)).head? with
  | some q => q.id == p.id
  | none => false

def isRecord (s : State) (r : Nat) : Bool := s.combines.any (·.id == r)

/-- Whether a reply's bytes for the scratchpad of the thread's home core find its tile under exchange (R134). -/
def homeMoves (s : State) (p : Reply) : Bool := !p.writes.isEmpty && (placeOf s p.o (tidCore p.tid)).mv

def execReplyArrival (r : Nat) (s : State) : Host.Outcome State Fault Refusal :=
  match replyAt s r with
  | none => .next s
  | some p =>
    if isRecord s r || !inOrder s p || homeMoves s p then .next s
    else .next (land { s with replies := s.replies.filter (·.id != r) } p)

/-! ## The request plane (R11, R13, R15, R174) -/

/-- The dies that a packet crosses, with the ports by which it enters and leaves the network of each: first along the line,
then to the other line. -/
def routeFrom : Nat → Nat → Nat → Nat → Nat → List (Nat × Nat × Nat)
  | 0, _, _, _, _ => []
  | n + 1, cur, inp, die, out =>
    if cur = die then [(cur, inp, out)]
    else if cur % 4 < die % 4 then (cur, inp, 121) :: routeFrom n (cur + 1) 120 die out
    else if die % 4 < cur % 4 then (cur, inp, 120) :: routeFrom n (cur - 1) 121 die out
    else (cur, inp, 122) :: routeFrom n ((cur + 4) % 8) 122 die out

/-- The switch outputs that a packet passes: the die, the stage and the output's number, and the input by which it comes to
the switch, 0 the upper. Stage i shuffles its 128 lines and sends the packet by bit 6 - i of its destination port.
Log 79, DEDUCED. -/
def linksOf (s : State) (r : Req) : List ((Nat × Nat × Nat) × Nat) :=
  let p := placeOf s r.o r.core
  let e := endOf s p.die r.tgt
  (routeFrom 5 p.die (p.col * 8 + p.row) e.1 e.2).flatMap (fun x => (List.range 7).map (fun i =>
    ((x.1, i, (x.2.1 * 2 ^ (i + 1) + x.2.2 / 2 ^ (6 - i)) % 128), x.2.1 / 2 ^ (6 - i) % 2)))

/-- Where two packets first pass one switch output, with the inputs by which they come. -/
def meetAt (s : State) (a b : Req) : Option ((Nat × Nat × Nat) × Nat × Nat) :=
  let lb := linksOf s b
  (linksOf s a).findSome? (fun x => (lb.find? (fun y => y.1 == x.1)).map (fun y => (x.1, x.2, y.2)))

/-- Whether a packet is past a switch output: it was combined there or behind it. -/
def pastLink (s : State) (r : Req) (l : Nat × Nat × Nat) : Bool :=
  match s.combines.find? (·.id == r.id) with
  | some c =>
    let path := (linksOf s r).map (·.1)
    (path.findIdx? (· == l)).getD 0 ≤ (path.findIdx? (· == c.link)).getD 0
  | none => false

/-! ## Combining (R177, R178) -/

/-- The switch at which two requests may combine, the first on its upper input: one on each of its inputs for one output,
a record of its 8 free, and no plumb-mode owner on its die. -/
def meetSwitch (s : State) (a b : Req) : Option (Nat × Nat × Nat) :=
  match meetAt s a b with
  | some (l, 0, 1) =>
    if pastLink s a l || pastLink s b l || s.owners.any (fun p => p.2.plumb && (diesOf p.2).contains l.1)
      || 8 ≤ (s.combines.filter (fun c => c.link.1 == l.1 && c.link.2.1 == l.2.1 && c.link.2.2 / 2 == l.2.2 / 2)).length
    then none else some l
  | _ => none

/-- Two requests that a switch may combine. -/
def combinable (s : State) (a b : Req) : Bool :=
  match a.kind, b.kind with
  | .amo o1 n1 g1 _ _, .amo o2 n2 g2 _ _ =>
    a.id != b.id && o1 == o2 && n1 == n2 && g1 == g2 && o1 != .swap && (n1 == 4 || n1 == 8) && a.o == b.o && a.pa == b.pa
      && a.tgt == b.tgt && (match a.tgt with
        | .bank _ _ _ | .scratch _ _ => true
        | .replica _ _ _ _ | .hostLine _ | .device | .stack _ => false)
      && a.rel.isNone && b.rel.isNone && a.iss.fence.isEmpty && b.iss.fence.isEmpty && !a.held && !b.held && a.combined.isNone && b.combined.isNone
      && mayServe s a && mayServe s b && (meetSwitch s a b).isSome
  | _, _ => false

/-- The number that stands for a request of no thread. -/
def noThread : Nat := 2 ^ 24

def combineKind (a b : ReqKind) : ReqKind :=
  match a, b with
  | .amo op n g y d, .amo _ _ _ z _ => .amo op n g (amoOp op n g y z) d
  | k, _ => k

def execAmoCombine (up low : Nat) (s : State) : Host.Outcome State Fault Refusal :=
  match reqAt s up, reqAt s low with
  | some a, some b =>
    if combinable s a b then
      let c := s.nextId
      let r : Req := { a with id := c, tid := noThread, kind := combineKind a.kind b.kind, acq := none }
      let s := onReq (onReq s up (fun x => { x with combined := some (up, low) })) low (fun x => { x with combined := some (up, low) })
      .next { s with reqs := s.reqs ++ [r], combines := s.combines ++ [⟨c, a, b, (meetSwitch s a b).getD (0, 0, 0)⟩], nextId := c + 1 }
    else .next s
  | _, _ => .next s

/-- The reply of one side of a record, whose old value is v. -/
def sideReply (p : Reply) (r : Req) (v : Word) : Reply :=
  let g := match r.kind with
    | .amo _ n sgn _ d => [(d, extend sgn n v)]
    | _ => []
  { r.reply with g := g, acq := r.acq, val := some v, patch := p.patch, trap := p.trap }

def operandOf (k : ReqKind) : Word :=
  match k with
  | .amo _ _ _ y _ => y
  | _ => 0

/-- The old value that the lower side sees. -/
def lowerOld (k : ReqKind) (v : Word) : Word :=
  match k with
  | .amo op n sgn y _ => amoOp op n sgn v y
  | _ => v

def execCombinedReplySplit (r : Nat) (s : State) : Host.Outcome State Fault Refusal :=
  match replyAt s r, s.combines.find? (·.id == r) with
  | some p, some c =>
    let v := p.val.getD 0
    let s := dropReq (dropReq s c.upper.id) c.lower.id
    -- the two replies take the record's place among those on the way
    .next { s with replies := s.replies.flatMap (fun q =>
                     if q.id = r then [sideReply p c.upper v, sideReply p c.lower (lowerOld c.upper.kind v)] else [q]),
                   combines := s.combines.filter (·.id != r) }
  | _, _ => .next s

/-! ## The journal (R129, R130, R182, R347 to R349) -/

def entryAt (s : State) (o j seq : Nat) : Option JEnt :=
  match core? s o j with
  | some c => c.journal.find? (·.seq == seq)
  | none => none

def onEntry (s : State) (o j seq : Nat) (f : JEnt → JEnt) : State :=
  onCore s o j (fun c => { c with journal := c.journal.map (fun e => if e.seq = seq then f e else e) })

/-- Whether an entry has been sent and lets the thread's next to its core follow it: a message does only when it has been
acknowledged, since it may be told to come again, and a refused entry only when its trap is disposed of (R130, R349). -/
def JEnt.followed (e : JEnt) : Bool :=
  match e.phase with
  | .acked | .refusing _ | .late => true
  | .ready => e.tile.isSome && e.kind != .msend
  | .busy _ | .refused _ _ _ => false

/-- Every earlier entry of the same thread to the same core has been sent, in whichever core's journal it stands (R132), after
the thread's end as before it (R117, R129). -/
def earlierSent (s : State) (o : Nat) (e : JEnt) : Bool :=
  s.cores.all (fun p => p.1 / 1024 != o || p.2.journal.all (fun x =>
    !(x.tid == e.tid && x.iss.born == e.iss.born && x.dest == e.dest && x.after < e.after) || x.followed))

/-- The release that an entry is held for: a full-setting store at .sys, a message at .pkg. -/
def entryRel (e : JEnt) : Option Scope :=
  match e.kind with
  | .msend => some .pkg
  | .pst | .xst => if e.full then some .sys else none

/-- No earlier access of the thread to bytes that the entry stores is still to be performed (R194). -/
def accessesDone (s : State) (o : Nat) (e : JEnt) : Bool :=
  s.reqs.all (fun r => !(askedBefore o e.tid e.iss.born e.after r && r.tgt == .scratch o e.dest
    && overlap r.spans [(e.off, e.data.length)]))

/-- Whether an entry may be sent: after the thread's earlier ones to its core, earlier accesses to its bytes, its release and
each FENCE.rel before it. -/
def maySend (s : State) (o : Nat) (e : JEnt) : Bool :=
  e.phase == .ready && earlierSent s o e && accessesDone s o e
    && e.iss.fence.all (fun f => releaseOk s o e.tid e.iss.born f.2 f.1) && (match entryRel e with
    | some sc => releaseOk s o e.tid e.iss.born sc e.after
    | none => true)

/-- Whether an entry of core j's journal arrives next on its path: whatever was sent before it on that path has arrived (R13,
R175). -/
def entryNext (s : State) (o j : Nat) (e : JEnt) : Bool :=
  let t := Target.scratch o e.dest
  entriesPast s o j t e.iss.sent
    && s.reqs.all (fun r => !(r.tgt == t && underWay s r && sentFirst r.iss.sent e.iss.sent && oneWay s r.o r.core o j t))

/-- Whether a delivery finds the core it names: the tile that it was sent to holds the core, or keeps a live forwarding
entry for it (R135). Log 49, DEDUCED. -/
def lands (s : State) (o : Nat) (e : JEnt) : Bool :=
  match e.tile, owner? s o with
  | some p, some w =>
    match w.map.findIdx? (fun q => q.die == p.die && q.col == p.col && q.row == p.row) with
    | some k => k == e.dest || (match core? s o k with
      | some c => c.forwards.any (fun f => f.index == e.dest && s.fab < f.til)
      | none => false)
    | none => false
  | some _, none => false
  | none, _ => true

/-- Whether an entry that may be sent is held at a tile whose image is being exchanged (R134), or whose input is stopped
(R182). -/
def heldThere (s : State) (o : Nat) (e : JEnt) : Bool :=
  (placeOf s o e.dest).mv || inputStopped s o e.dest

/-- A store lands in a scratchpad; a full-setting one sets its granule. It leaves poison marks (R411). -/
def storeSpad (s : State) (o j off : Nat) (data : List Byte) (full : Bool) : State :=
  let p := Spot.spad o j off
  let s := writeAt s p data
  if full then setFull s p true else s

/-- A message into an empty mailbox; it is none of the writes that clear a mark (R411). -/
def putMsg (s : State) (o j off : Nat) (data : List Byte) : State :=
  setAllFull (writeAt s (.spad o j off) data) (.spad o j off) true

/-- A posted store or message at its target core: the phase that its entry takes and the state. -/
def arrivePosted (s : State) (o : Nat) (e : JEnt) : State × JPhase :=
  match core? s o e.dest with
  | none => (s, .refusing 2)
  | some c =>
    let n := e.data.length
    if spadSize c < e.off + n then (s, .refusing 0)
    else if inShadow c e.off n then (s, .refusing 4)
    else
      match e.kind with
      | .msend =>
        if c.msgs.all (·.off != e.off) && allFull s (.spad o e.dest e.off) false then (putMsg s o e.dest e.off e.data, .acked)
        else if c.msgs.length < 16 then
          (onCore s o e.dest (fun c => { c with msgs := c.msgs ++ [⟨e.off, e.data⟩] }), .acked)
        else (s, .busy (s.fab + 1024))
      | .pst | .xst => (storeSpad s o e.dest e.off e.data e.full, .acked)

/-- Whether an owner's networks hold nothing: from the end of DRAIN, the package's or a save's, until it runs again
(R58, R72). -/
def quietNet (s : State) (o : Nat) : Bool := stopped s o && !draining s o

def execPostedStoreArrival (o j seq : Nat) (s : State) : Host.Outcome State Fault Refusal :=
  match entryAt s o j seq with
  | none => .next s
  | some e =>
    if e.kind == .xst || quietNet s o || !maySend s o e || heldThere s o e || !entryNext s o j e then .next s
    else if !lands s o e then .next (onEntry s o j seq (fun x => { x with phase := .late }))
    else match arrivePosted s o e with
      | (s', ph) => .next (onEntry s' o j seq (fun x => { x with phase := ph }))

/-- An exchange packet at its target: applied in the target's phase, held for the next one, or refused; none while the
phase buffer is full. -/
def arriveXst (s : State) (o : Nat) (e : JEnt) : Option (State × JPhase) :=
  match core? s o e.dest with
  | none => some (s, .refusing 2)
  | some c =>
    if c.xb = 0 then some (s, .refusing 4)
    else if e.off < shadowLo c || spadSize c < e.off + e.data.length then some (s, .refusing 0)
    else if c.xph == e.xph then some (storeSpad s o e.dest e.off e.data e.full, .acked)
    else if c.phase.length < 16 then
      some (onCore s o e.dest (fun c => { c with phase := c.phase ++ [⟨e.off, e.data, e.full⟩] }), .acked)
    else none

def execXstPacket (o j seq : Nat) (s : State) : Host.Outcome State Fault Refusal :=
  match entryAt s o j seq with
  | none => .next s
  | some e =>
    if e.kind != .xst || quietNet s o || !maySend s o e || heldThere s o e || !entryNext s o j e then .next s
    else if !lands s o e then .next (onEntry s o j seq (fun x => { x with phase := .late }))
    else match arriveXst s o e with
      | some (s', ph) => .next (onEntry s' o j seq (fun x => { x with phase := ph }))
      | none => .next s

/-- An acknowledgement frees the entry, in plumb mode from its deadline on (R179). -/
def execJournalAck (o j seq : Nat) (s : State) : Host.Outcome State Fault Refusal :=
  match entryAt s o j seq with
  | none => .next s
  | some e =>
    if e.phase = .acked then
      .next (onCore s o j (fun c => { c with journal := c.journal.filter (·.seq != seq),
                                             postDues := e.iss.due.toList ++ c.postDues.filter (c.cyc ≤ ·) }))
    else .next s

/-- A refusal: the entry stays, and PSTREF, or MIGFWD of a late delivery, is pending on its thread; with the
thread gone the item fails (R121). INFO's index of the entry is its number modulo 256. Log 92, DESIGN CHOICE. -/
def refuseEntry (s : State) (o j : Nat) (e : JEnt) (cause reason : Nat) : State :=
  if e.orphan then failItem s o (.journal j e.seq)
  else
    let a : Async := ⟨cause, e.va, BitVec.ofNat 64 (e.seq % 256 + (if cause = Cause.pstref then reason * 256 else 0)), 0,
      .journal j e.seq, e.applied⟩
    onThr (onEntry s o j e.seq (fun x => { x with phase := .refused cause reason x.applied })) o e.tid
      (fun t => { t with async := t.async ++ [a] })

def execJournalRefusal (o j seq : Nat) (s : State) : Host.Outcome State Fault Refusal :=
  match entryAt s o j seq with
  | none => .next s
  | some e =>
    match e.phase with
    | .refusing reason => .next (refuseEntry s o j e Cause.pstref reason)
    | .late => .next (refuseEntry s o j e Cause.migfwd 0)
    | .ready | .acked | .busy _ | .refused _ _ _ => .next s

/-- A busy message is sent again after 1,024 fabric cycles. -/
def execMsendResend (o j seq : Nat) (s : State) : Host.Outcome State Fault Refusal :=
  match entryAt s o j seq with
  | none => .next s
  | some e =>
    match e.phase with
    | .busy til => if til ≤ s.fab && !stopped s o then .next (onEntry s o j seq (fun x => { x.unsent with phase := .ready }))
      else .next s
    | .ready | .acked | .refusing _ | .late | .refused _ _ _ => .next s

/-- A held message is written as soon as its mailbox is empty and every earlier one for it has been (R349), none while its
tile's image is being exchanged (R134). -/
def deliverMsgs (o j : Nat) : Nat → State → State
  | 0, s => s
  | n + 1, s =>
    match core? s o j with
    | none => s
    | some c =>
      if (placeOf s o j).mv then s else
      match c.msgs.find? (fun m => allFull s (.spad o j m.off) false) with
      | none => s
      | some m =>
        let s := onCore s o j (fun c => { c with msgs := c.msgs.eraseP (·.off == m.off) })
        deliverMsgs o j n (putMsg s o j m.off m.data)

/-! ## Exchange barriers (R158, R183) -/

/-- The contents of two runs of n scratchpad granules change places, with their full/empty bits and marks.
Log 59, DEDUCED. -/
def swapSpad (s : State) (o j a b n : Nat) : State :=
  let pa := Spot.spad o j a
  let pb := Spot.spad o j b
  let xa := readAt s pa n
  let xb := readAt s pb n
  let g := List.range (n / 16)
  let fa := g.map (fun i => fullAt s (pa.add (16 * i)))
  let fb := g.map (fun i => fullAt s (pb.add (16 * i)))
  let k := List.range (n / 64)
  let ma := k.map (fun i => markAt s (pa.add (64 * i)))
  let mb := k.map (fun i => markAt s (pb.add (64 * i)))
  let s := writeAt (writeAt s pa xb) pb xa
  let s := g.foldl (fun s i => setFull (setFull s (pa.add (16 * i)) (fb.getD i false)) (pb.add (16 * i)) (fa.getD i false)) s
  k.foldl (fun s i => setMark (setMark s (pa.add (64 * i)) (mb.getD i 0)) (pb.add (64 * i)) (ma.getD i 0)) s

/-- A member core swaps its front and shadow banks, toggles XPH and applies the packets it holds. -/
def exchangeSwap (s : State) (o j : Nat) : State :=
  match core? s o j with
  | none => s
  | some c =>
    let s := swapSpad s o j (frontLo c) (shadowLo c) (c.xb * 4096)
    let s := onCore s o j (fun c => { c with xph := !c.xph, phase := [] })
    c.phase.foldl (fun s p => storeSpad s o j p.off p.data p.full) s

/-- A completion reaches a member core; one whose tile's image is being exchanged is reached after it (R134). -/
def execBarrierCompletion (o j obj : Nat) (s : State) : Host.Outcome State Fault Refusal :=
  let b := barRec s o obj
  if (placeOf s o j).mv then .next s
  else if b.toTell.contains j then .next (setBar (exchangeSwap s o j) { b with toTell := b.toTell.erase j }) else .next s

/-! ## Replicated writes (R186) -/

def rwAt (s : State) (o w : Nat) : Option RWrite := s.rwrites.find? (fun x => x.o == o && x.id == w)

def onRw (s : State) (w : RWrite) (f : RWrite → RWrite) : State :=
  { s with rwrites := (s.rwrites.map (fun x => if x.id = w.id ∧ x.off = w.off then f x else x)).filter (fun x => !x.pending.isEmpty) }

/-- A write reaches a die after those that left its source die before it (R13), while the die's buffer has a place. -/
def execReplicatedWriteReceived (o w die : Nat) (s : State) : Host.Outcome State Fault Refusal :=
  match s.rwrites.find? (fun x => x.o == o && x.id == w && x.pending.contains die && !x.buffered.contains die) with
  | none => .next s
  | some x =>
    let first := s.rwrites.find? (fun y => y.src == x.src && y.pending.contains die && !y.buffered.contains die)
    if quietNet s o || 4096 ≤ (s.rwrites.filter (fun y => y.buffered.contains die)).length || first != some x then .next s
    else .next (onRw s x (fun y => { y with buffered := y.buffered ++ [die] }))

/-- a ≥ b as serial numbers. -/
def serialGe (a b : Nat) : Bool := (a + 2 ^ 32 - b) % 2 ^ 32 < 2 ^ 31

/-- Whether die e may apply a write now. -/
def vcReady (w : Owner) (x : RWrite) (e : Nat) : Bool :=
  (List.range 8).all (fun d =>
    let mine := getD 0 w.vclk (e * 8 + d)
    let its := x.vc.getD d 0
    if d = x.src then (mine + 1) % 2 ^ 32 == its else serialGe mine its)

def execReplicatedApply (o w die : Nat) (s : State) : Host.Outcome State Fault Refusal :=
  match s.rwrites.find? (fun x => x.o == o && x.id == w && x.buffered.contains die), owner? s o with
  | some x, some ow =>
    if !vcReady ow x die || paused s then .next s
    else
      let pa := replPa die x.off
      let s := if x.whole then writeBlocks s (.mem pa) (x.data.map (·.1))
        else writeMaskAt s (.mem pa) x.data
      let s := touchWrite s (.replica o die (replHome ow die (x.off / 256)) (x.off / 256 % 4)) pa
      let s := onOwner s o (fun v => { v with vclk := setD 0 v.vclk (die * 8 + x.src) (x.vc.getD x.src 0) })
      .next (onRw s x (fun y => { y with buffered := y.buffered.erase die, pending := y.pending.erase die }))
  | _, _ => .next s

/-! ## Walks (R137, R138) -/

/-- A walk runs on its core's die, 32 at once; further ones wait in order. -/
def walkRuns (s : State) (k : Walk) : Bool :=
  let die := (placeOf s k.o k.core).die
  let mine := s.walks.filter (fun q => (placeOf s q.o q.core).die == die)
  (mine.take 32).any (·.id == k.id)

/-- A stream whose next element lies on a page with no translation for it holds the fault for the pop (R131, R163). -/
def streamMet (w : Owner) (page : Nat) (out : WalkOut) (x : Stream) : Stream :=
  let va := x.addr (x.pos + x.fetched.length)
  if x.out || x.total ≤ x.pos + x.fetched.length || x.ahead ≤ x.fetched.length || va.toNat / 65536 != page then x
  else match ofWalk w .ld .stream false va out with
    | .bad ti => x.add (.fault ti.cause va ti.info) none
    | .ok _ | .miss _ => x

/-- A thread that joined a walk gets its outcome: for the bundle that waits, which issues again, or for a stream's fetch
(R138). -/
def wakeWalker (w : Owner) (k : Walk) (out : WalkOut) (s : State) (tid : Nat) : State :=
  onThr s k.o tid (fun t =>
    if t.status = .waiting (.walk k.id) then { t with status := .ready, walks := (k.page, out) :: t.walks }
    else { t with streams := t.streams.map (streamMet w k.page out) })

/-- A unit that joined a walk gets its outcome. -/
def wakeUnit (k : Walk) (out : WalkOut) (s : State) (u : Nat × Bool) : State :=
  onClus s k.o u.1 (fun c =>
    if u.2 then { c with outMx := (k.page, out) :: c.outMx.filter (·.1 != k.page) }
    else { c with outCu := (k.page, out) :: c.outCu.filter (·.1 != k.page) })

def execTranslationWalkDone (w : Nat) (s : State) : Host.Outcome State Fault Refusal :=
  match s.walks.find? (·.id == w) with
  | none => .next s
  | some k =>
    match owner? s k.o with
    | none => .next { s with walks := s.walks.filter (·.id != w) }
    | some ow =>
      if !walkRuns s k then .next s
      else
        let out := walkPage s ow (k.page * 65536)
        let s := { s with walks := s.walks.filter (·.id != w) }
        let s := match out with
          | .leaf l => onCore s k.o k.core (fun c =>
              { c with tlb := if k.joined.isEmpty then c.tlb else keepLeaf c.tlb 64 k.page l s.tick,
                       tcache := keepWay c.tcache k.page l s.tick })
          | .xlat _ _ | .prot _ => s
        .next (k.units.foldl (wakeUnit k out) (k.joined.foldl (wakeWalker ow k out) s))

/-! ## Wait limits (R152, R333) -/

/-- The cause and the waited address of a counted wait. -/
def waitCause (s : State) (t : Thread) : Nat × Word :=
  match t.status with
  | .waiting (.reply r) => match reqAt s r with
    | some q => (match q.kind with
      | .lds _ _ _ _ => Cause.fewait
      | _ => Cause.mwait, q.vaW)
    | none => (Cause.mwait, 0)
  | .waiting (.linkSend _ _ _ buf _) | .waiting (.linkRecv _ _ _ buf _) => (Cause.mwait, buf)
  | _ => (Cause.mwait, 0)

/-- The requests of a waiting thread are withdrawn from their targets. -/
def withdraw (s : State) (t : Thread) : State :=
  match t.status with
  | .waiting (.reply r) => { s with reqs := s.reqs.filter (fun q => !(q.id == r || q.base == r)) }
  | _ => s

def limitPassed (t : Thread) : Bool :=
  match t.status, t.wcount with
  | .waiting _, some n => t.wlim != 0xFFFFFFFF && t.wlim.toNat < n
  | _, _ => false

def execWaitLimitExpiry (o tid : Nat) (s : State) : Host.Outcome State Fault Refusal :=
  match thr? s o tid with
  | none => .next s
  | some t =>
    if stopped s o || !limitPassed t then .next s
    else
      let c := waitCause s t
      .next (trapWait (withdraw s t) o tid (mkTrap c.1 t.wlim.toNat c.2))

/-! ## Host snoops (R169, R189) -/

/-- The 64-byte line leaves every L1, and its fills on the way install nothing. -/
def execHostSnoop (line : Nat) (s : State) : Host.Outcome State Fault Refusal :=
  .next { s with
    cores := s.cores.map (fun p => (p.1, { p.2 with l1 := p.2.l1.map (fun l =>
      if l.line = line / 4 then { l with secs := l.secs.filter (·.1 != line % 4) } else l) })),
    reqs := s.reqs.map (fun r => { r with noFill := (line * 64, 64) :: r.noFill }),
    replies := s.replies.map (fun p => { p with fill := p.fill.filter (fun f => f.1 / 64 != line) }) }

end Sys2Proof.Machine
end

