-- ==== Sys2Proof/Machine/Engine.lean ====
section
/-!
DEFINITION. The matrix engine and the copy unit (R115, R131, R204, R225, R246, R247, R249 to R267, R395 to R400), and
the reclaim walks of sealed nodes (R221).
-/

namespace Sys2Proof.Machine

/-! ## Accesses of a unit (R137, R138, R157, R332) -/

/-- What an access of a unit finds: it is done, it waits for full or empty granules, its target takes nothing now (R134,
R182), its page has no translation yet (R137), or it faults, with what the access did before (R217). -/
inductive URes (α : Type) where
  | ok (s : State) (x : α)
  | wait
  | held
  | miss (page : Nat)
  | fault (s : State) (t : TrapInfo)
deriving DecidableEq, Repr

/-- The next access, after one that is done. -/
def URes.bind {α β : Type} (r : URes α) (f : State → α → URes β) : URes β :=
  match r with
  | .ok s x => f s x
  | .wait => .wait
  | .held => .held
  | .miss page => .miss page
  | .fault s t => .fault s t

/-- Whether a place may take a unit's write: no sealed or replicated page (R185, R218). -/
def unitWrites (w : Owner) (l : Leaf) (pa : Nat) : Bool :=
  match siteOf w (.mem l pa) with
  | .sealed | .sealedHost | .repl => false
  | .spad | .ordHbm | .ordHost | .device | .ehost => true

/-- The memory address of a unit's access: in a replicated page that of its die's copy. -/
def unitPa (t : Target) (pa : Nat) : Nat :=
  match t with
  | .replica _ die _ _ => replPa die pa
  | .scratch _ _ | .bank _ _ _ | .hostLine _ | .device | .stack _ => pa

/-- A unit's access in a page, by the outcome of its translation. -/
def unitMem (s : State) (w : Owner) (o k : Nat) (mx wr : Bool) (va : Nat) (out : WalkOut) : URes (Target × Spot × Option Leaf) :=
  let kind : AccKind := if mx then .engine else .copy
  let v := BitVec.ofNat 64 va
  match ofWalk w .ld kind wr v out with
  | .ok (.mem l pa) =>
    if wr && !unitWrites w l pa then .fault s (protTrap kind 6 v)
    else
      let t := targetOf s w o k l pa
      if targetShut s t then .held else .ok (fillCheck s w t l va pa) (t, .mem (unitPa t pa), some l)
  | .bad t => .fault s t
  | .ok (.spad _ _) | .miss _ => .fault s (protTrap kind 6 v)

/-- Where a unit's access of n bytes goes, for a job of home core k, with its translation buffer kept up. -/
def unitLoc (s : State) (w : Owner) (o k : Nat) (mx wr : Bool) (va n : Nat) : URes (Target × Spot × Option Leaf) :=
  let kind : AccKind := if mx then .engine else .copy
  let v := BitVec.ofNat 64 va
  if 2 ^ 57 ≤ va then .fault s (protTrap kind 2 v)
  else if isSpadVa va then
    match spadVa w k va with
    | none => .fault s (protTrap kind 2 v)
    | some (j, off) =>
      match core? s o j with
      | none => .fault s (protTrap kind 2 v)
      | some c =>
        if spadSize c < off + n || inShadow c off n then .fault s (protTrap kind 2 v)
        else if targetShut s (.scratch o j) then .held
        else .ok s (.scratch o j, .spad o j off, none)
  else
    match unitPage s o k mx (va / 65536) with
    | none => .miss (va / 65536)
    | some out => unitMem (unitKeep s o (k / 8) mx (va / 65536) out) w o k mx wr va out

/-- A unit whose page has no translation joins the walk that runs for it at its submitting core's slice, or starts one
(R137). -/
def unitWalk (s : State) (o k : Nat) (mx : Bool) (page : Nat) : State :=
  let me := (k / 8, mx)
  match s.walks.find? (fun q => q.o == o && q.page == page && q.core == k) with
  | some q => { s with walks := s.walks.map (fun x =>
      if x.id = q.id ∧ x.units.contains me = false then { x with units := x.units ++ [me] } else x) }
  | none => { s with walks := s.walks ++ [⟨s.nextId, o, k, page, [], [me]⟩], nextId := s.nextId + 1 }

/-- The outcomes of a unit's walks have served the accesses that joined them (R138). -/
def walksUsed (s : State) (o c : Nat) (mx : Bool) : State :=
  onClus s o c (fun cl => if mx then { cl with outMx := [] } else { cl with outCu := [] })

/-- A block read by a job: its bytes and descriptor; in full/empty mode only with all four granules full, which it sets
empty (R204); a poisoned block is met as POISON. -/
def readBlk (s : State) (w : Owner) (o k : Nat) (mx fe : Bool) (va : Nat) : URes (Vec × Nat) :=
  (unitLoc s w o k mx false va 64).bind (fun s x =>
    let m := markAt s x.2.1
    if fe && !allFull s x.2.1 true then .wait
    else if m != 0 then .fault s (mkTrap Cause.poison (m - 1) (BitVec.ofNat 64 va))
    else
      let r := (bytesVec (readAt s x.2.1 64), descAt s x.2.1)
      .ok (touchRead (if fe then setAllFull s x.2.1 false else s) x.1 x.2.1.addr) r)

/-- A block written by a job, with its descriptor where one is given. -/
def writeBlk (s : State) (w : Owner) (o k : Nat) (mx fe : Bool) (va : Nat) (x : Vec) (d : Option Nat) : State :=
  match unitLoc s w o k mx true va 64 with
  | .ok s (t, p, _) =>
    let s := writeBlocks s p (vecBytes x)
    let s := match d with
      | some d => setDesc s p d
      | none => s
    touchWrite (if fe then setAllFull s p true else s) t p.addr
  | .wait | .held | .miss _ | .fault _ _ => s

/-- Whether a block may be reached now: it translates to a place that the job takes, and in full/empty mode its granules
are empty for a write. -/
def reachBlk (s : State) (w : Owner) (o k : Nat) (mx wr fe : Bool) (takes : Option Leaf → Spot → Bool) (va : Nat) : URes Unit :=
  (unitLoc s w o k mx wr va 64).bind (fun s x =>
    if !takes x.2.2 x.2.1 then .fault s (protTrap (if mx then .engine else .copy) 6 (BitVec.ofNat 64 va))
    else if fe && !allFull s x.2.1 false then .wait
    else .ok s ())

/-- Whether every block of a list may be reached now. -/
def reachAll (w : Owner) (o k : Nat) (mx wr : Bool) (takes : Option Leaf → Spot → Bool) : List Nat → State → URes Unit
  | [], s => .ok s ()
  | va :: vs, s => (reachBlk s w o k mx wr false takes va).bind (fun s _ => reachAll w o k mx wr takes vs s)

/-- Places of a write that the class alone decides. -/
def anyPlace (_ : Option Leaf) (_ : Spot) : Bool := true

def URes.isOk {α : Type} : URes α → Bool
  | .ok _ _ => true
  | .wait | .held | .miss _ | .fault _ _ => false

def URes.isFault {α : Type} : URes α → Bool
  | .fault _ _ => true
  | .ok _ _ | .wait | .held | .miss _ => false

/-- The access that a unit makes next among those it has to make, which it may make in any order (R203): one that can be
done now; where none can, one that faults; else any. Log 42, DESIGN CHOICE. -/
def pickAccess {α β : Type} (tick : Nat) (l : List α) (res : α → URes β) : Option α :=
  let oks := l.filter (fun x => (res x).isOk)
  let bad := l.filter (fun x => (res x).isFault)
  let from_ := if !oks.isEmpty then oks else if !bad.isEmpty then bad else l
  from_[Config.unitOrder tick % from_.length]?

def onJob (s : State) (o k id : Nat) (f : Job → Job) : State :=
  onCore s o k (fun c => { c with jobs := c.jobs.map (fun b => if b.id = id then f b else b) })

/-- The blocks of a list that a job holds, once it has read them all. -/
def gotAll (b : Job) (need : List Nat) : Option (List (Vec × Nat)) :=
  (List.range need.length).mapM (fun i => lookup b.got i)

/-- One block that a job has to read of a list: each is checked as it is read (R256), and in full/empty mode each by itself
waits for its granules (R204). -/
def readNext (s : State) (w : Owner) (o k : Nat) (mx fe : Bool) (b : Job) (need : List Nat)
    (chk : Nat → Vec × Nat → Option TrapInfo) : URes Unit :=
  let left := need.zipIdx.filter (fun p => (lookup b.got p.2).isNone)
  match pickAccess s.tick left (fun p => readBlk s w o k mx fe p.1) with
  | none => .ok s ()
  | some p => (readBlk s w o k mx fe p.1).bind (fun s x =>
      match chk p.2 x with
      | some t => .fault s t
      | none => .ok (onJob s o k b.id (fun b => { b with got := put b.got p.2 x })) ())

/-- One block that a job has to write, in full/empty mode each by itself waiting for its granules (R204); `inOrder` names
the rows of a copy, whose blocks go in ascending address (R398). -/
def writeNext (s : State) (w : Owner) (o k : Nat) (mx fe inOrder : Bool) (takes : Option Leaf → Spot → Bool) (b : Job) : URes Unit :=
  let res := fun (p : Nat × Vec × Option Nat) => reachBlk s w o k mx true fe takes p.1
  match (if inOrder then b.out.head? else pickAccess s.tick b.out res) with
  | none => .ok s ()
  | some p => (res p).bind (fun s _ =>
      .ok (onJob (writeBlk s w o k mx fe p.1 p.2.1 p.2.2) o k b.id (fun b => { b with out := b.out.erase p })) ())

def blocksFrom (va n : Nat) : List Nat := (List.range n).map (fun i => va + 64 * i)

def descTrap (d va : Nat) : TrapInfo := mkTrap Cause.desc (d + va / 64 % 4 * 65536) (BitVec.ofNat 64 va)

/-! ## Chunk sums (R246, R247) -/

/-- A product truncated toward zero to a multiple of 2^q, in that unit. -/
def truncProd (q : Int) (v : FVal) : Int :=
  match v with
  | .fin n m e =>
    let a : Nat := if q ≤ e then m * 2 ^ (e - q).toNat else m / 2 ^ (q - e).toNat
    if n then -(a : Int) else a
  | .nan | .inf _ => 0

/-- The chunk sum of products, rounded to F32 (R246). -/
def chunkSum (ftz : Bool) (ps : List (Option FVal)) : Nat :=
  let vs := ps.filterMap id
  let bad := ps.any (·.isNone) || vs.any (·.isNan)
  let posInf := vs.any (· == .inf false)
  let negInf := vs.any (· == .inf true)
  let round := fun (x : Exact) => (F32.round 0 ftz .arith 0 x).1
  if bad || (posInf && negInf) then F32.enc .nan
  else if posInf then F32.enc (.inf false)
  else if negInf then F32.enc (.inf true)
  else
    let exps := vs.filterMap (fun v => match v with
      | .fin _ m e => if m = 0 then none else some ((Nat.log2 m : Int) + e)
      | .nan | .inf _ => none)
    match exps with
    | [] => round (.zero (vs.all (·.isNeg) && !vs.isEmpty))
    | x :: xs =>
      let q := xs.foldl max x - 63
      let t := (vs.map (truncProd q)).foldl (· + ·) 0
      if t = 0 then round (.zero false) else round (.mag (decide (t < 0)) t.natAbs 1 q)

/-- acc := RoundNE(acc + S), F32. -/
def accStep (ftz : Bool) (acc sum : Nat) : Nat :=
  (F32.round 0 ftz .arith 0 (addE 0 (F32.dec ftz acc) (F32.dec ftz sum))).1

/-- Elements of described blocks, in order. -/
def decodeEls (ftz : Bool) (bs : List (Vec × Nat)) : List FVal :=
  bs.flatMap (fun b => (List.range (perBlock (b.2 / 4096 % 16))).map (fun i => blkDec b.2 ftz (velem (fmtBits (b.2 / 4096 % 16)) i b.1)))

/-- Formats of a class (R252). -/
def inClass (fcl d : Nat) : Bool :=
  let f := d / 4096 % 16
  if fcl = 0 then f == 2 else if fcl = 1 then f == 4 || f == 5 else f == 6

/-- What R234 and the class make of an A or B block. -/
def opBad (fcl d : Nat) : Option Nat :=
  match checkDesc d with
  | .poison => some Cause.poison
  | .desc => some Cause.desc
  | .ok => if inClass fcl d then none else some Cause.desc

/-- What the check of an A block meets (R234, R252, R256). -/
def classChk (fcl va : Nat) (x : Vec × Nat) : Option TrapInfo :=
  (opBad fcl x.2).map (fun c => if c = Cause.desc then descTrap x.2 va else mkTrap Cause.poison 0 (BitVec.ofNat 64 va))

/-- What the check of a block that must carry one descriptor meets: POISON for a format 0xF, which R234 looks at first,
else DESC (R256). Log 96, DEDUCED. -/
def descChk (want va : Nat) (x : Vec × Nat) : Option TrapInfo :=
  if x.2 = want then none
  else some (if checkDesc x.2 = .poison then mkTrap Cause.poison 0 (BitVec.ofNat 64 va) else descTrap x.2 va)

/-- What the check of a 2:4 index block meets: its descriptor, then a group whose indices do not rise, which is DESC with
the block's descriptor (R256, R262). -/
def indexChk (va : Nat) (x : Vec × Nat) : Option TrapInfo :=
  match descChk 0x007F va x with
  | some t => some t
  | none =>
    if (List.range 128).all (fun g => velem 2 (2 * g) x.1 < velem 2 (2 * g + 1) x.1) then none
    else some (mkTrap Cause.desc (groupMark + x.2) (BitVec.ofNat 64 va))

/-- B blocks of one array column for a chunk. -/
def bBlocks (s : State) (o c : Nat) (x : MxBlock) (col ck : Nat) : List (Vec × Nat) :=
  let n := chunkBytes x.fcl * (if x.sp24 then 2 else 1)
  let base := col * 32768 + x.boff * 256 + ck * n
  (List.range (n / 64)).map (fun i =>
    let p := Spot.bsram o c (base + 64 * i)
    (bytesVec (readAt s p 64), descAt s p))

/-- A bad or poisoned B block. -/
def bFault (s : State) (o c : Nat) (x : MxBlock) (col ck : Nat) : Option TrapInfo :=
  let n := chunkBytes x.fcl * (if x.sp24 then 2 else 1)
  let base := col * 32768 + x.boff * 256 + ck * n
  if markIn s (.bsram o c base) n != 0 then some (mkTrap Cause.poison 3 0)
  else ((bBlocks s o c x col ck).filterMap (fun b => (opBad x.fcl b.2).map (fun cs =>
    if cs = Cause.desc then mkTrap Cause.desc b.2 0 else mkTrap Cause.poison 3 0))).head?

/-- Positions of the selected elements of a 2:4 chunk (R262). -/
def selected (idx : List Vec) (n : Nat) : List Nat :=
  (List.range n).map (fun s => 4 * (s / 2) + velem 2 (s % 256) (idx.getD (s / 256) 0))

/-- One chunk cycle of every used array column (R257): the new accumulators. -/
def chunkAccs (s : State) (o c : Nat) (x : MxBlock) (ftz : Bool) (a : List (Vec × Nat)) (idx : List Vec) (ck : Nat)
    (acc : List (BitVec 32)) : List (BitVec 32) :=
  let av := decodeEls ftz a
  let sel := if x.sp24 then selected idx av.length else List.range av.length
  acc.zipIdx.map (fun p =>
    let bv := (decodeEls ftz (bBlocks s o c x p.2 ck)).toArray
    let ps := (av.zip sel).map (fun q => mulV q.1 (bv.getD q.2 (.fin false 0 0)))
    let ps := if x.sp24 then some (.fin false 0 0) :: ps else ps
    BitVec.ofNat 32 (accStep ftz p.1.toNat (chunkSum ftz ps)))

/-! ## The engine's next chunk cycle (R257) -/

def runOf (s : State) (o c : Nat) : Option (ERun × Job × MxBlock) :=
  match clus? s o c with
  | none => none
  | some cl =>
    match cl.mx with
    | none => none
    | some r => match jobAt s o r.k r.id with
      | some b => (match b.kind with
        | .mxrun blk => some (r, b, mxBlock blk)
        | _ => none)
      | none => none

/-- Rows of the scan chunk that starts at the committed position. -/
def chunkLen (x : MxBlock) (b : Job) : Nat := Nat.min x.chunkRows (x.m - b.pos)

/-- Whether every row of the scan chunk has its sums. -/
def chunkFull (r : ERun) (x : MxBlock) (b : Job) : Bool := r.rows.length == chunkLen x b

/-- The addresses that the next chunk cycle reads: X blocks at a row's start, A blocks, and index blocks. -/
def xAddrs (r : ERun) (x : MxBlock) : List Nat :=
  if r.ck = 0 ∧ x.mode ≠ 0 then blocksFrom (x.xva + r.row * x.xstr) (x.xRow / 64) else []
def aAddrs (r : ERun) (x : MxBlock) : List Nat :=
  blocksFrom (x.ava + r.row * x.astr + r.ck * chunkBytes x.fcl) (chunkBytes x.fcl / 64)
def iAddrs (r : ERun) (x : MxBlock) : List Nat :=
  if x.sp24 then blocksFrom (x.ava + r.row * x.astr + x.kc * chunkBytes x.fcl + r.ck * idxBytes x.fcl) (idxBytes x.fcl / 64) else []

def cycleNeeds (r : ERun) (x : MxBlock) : List Nat := xAddrs r x ++ aAddrs r x ++ iAddrs r x

/-- The check of the i-th of those blocks (R256). -/
def cycleChk (r : ERun) (x : MxBlock) (i : Nat) (q : Vec × Nat) : Option TrapInfo :=
  let va := (cycleNeeds r x).getD i 0
  if i < (xAddrs r x).length then descChk 0x107F va q
  else if i < (xAddrs r x).length + (aAddrs r x).length then classChk x.fcl va q
  else indexChk va q

/-- The run as a row starts, from its X blocks: F32 values that are the first accumulators or the row's gains. -/
def startRow (r : ERun) (x : MxBlock) (bs : List (Vec × Nat)) : ERun :=
  if r.ck ≠ 0 then r
  else
    let zero := List.replicate x.n (0 : BitVec 32)
    let xs := (bs.flatMap (fun b => (List.range 16).map (fun i => BitVec.ofNat 32 (velem 32 i b.1)))).take x.n
    if x.mode = 0 then { r with acc := zero }
    else if x.mode = 1 then { r with acc := xs }
    else { r with acc := zero, gains := r.gains ++ [xs] }

/-- A chunk cycle whose blocks have all been read: every array column takes one step (R257). -/
def sumChunk (s : State) (o c : Nat) (r : ERun) (b : Job) (x : MxBlock) (bs : List (Vec × Nat)) : ERun :=
  let nx := (xAddrs r x).length
  let na := (aAddrs r x).length
  let r := startRow r x (bs.take nx)
  let acc := chunkAccs s o c x b.ftz ((bs.drop nx).take na) ((bs.drop (nx + na)).map (·.1)) r.ck r.acc
  if r.ck + 1 < x.kc then { r with acc := acc, ck := r.ck + 1 }
  else { r with acc := acc, ck := 0, row := r.row + 1, rows := r.rows ++ [acc] }

/-- The next access or chunk cycle: one block is read, or with every block read the B blocks are checked and the cycle is
taken; the run afterwards. -/
def nextChunk (s : State) (w : Owner) (o c : Nat) (r : ERun) (b : Job) (x : MxBlock) : URes ERun :=
  match gotAll b (cycleNeeds r x) with
  | none => (readNext s w o r.k true x.fe b (cycleNeeds r x) (cycleChk r x)).bind (fun s _ => .ok s { r with fe := r.fe || x.fe })
  | some bs =>
    match ((List.range x.n).filterMap (fun col => bFault s o c x col r.ck)).head? with
    | some t => .fault s t
    | none => .ok s (sumChunk s o c r b x bs)

def setRun (s : State) (o c : Nat) (r : ERun) : State := onClus s o c (fun cl => { cl with mx := some r })

/-- A run that starts its scan chunk again at the committed position: its rows are discarded, with what the job has read
ahead (R265). -/
def rerun (s : State) (o c : Nat) (r : ERun) (b : Job) : State :=
  onJob (setRun s o c { r with row := b.pos, ck := 0, acc := [], rows := [], gains := [], gfl := false, fe := false, cnew := [] })
    o r.k r.id (fun b => { b with got := [], out := [] })

/-- Whether a job's submitter, or its owner, has been killed: it takes no further access of its own (R79). -/
def victim (s : State) (o : Nat) (b : Job) : Bool :=
  (match owner? s o with
   | some w => w.killed
   | none => true) || (!b.orphan && (match thr? s o b.tid with
    | some t => t.status == .dying
    | none => false))

/-- Whether chunk cycles end before an instant at the budget in force (R57). -/
def fitsIn (s : State) (budget clock cycles at_ : Nat) : Bool :=
  budget != 0 && (cycles + budget - 1) / budget * 4096 ≤ (at_ - s.fab) * clock

/-- The rotation's WARN and an owner's WARN before a save hold a chunk back; the WARN of a deferred instant does not
(R38, R57, R72). -/
def fitsBeforeT (s : State) (o c cycles : Nat) : Bool :=
  let clock := clockOf (clusPlace s o c).col
  let budget := (engineAt s (clusPlace s o c)).budget
  (s.trowel != .warn || !s.deferred.isEmpty || fitsIn s budget clock cycles s.nextT)
    && s.saves.all (fun v => v.restore || v.quiet || !v.owners.contains o || fitsIn s budget clock cycles v.til)

/-- Chunks that run to their end within DRAIN (R265): one in full/empty mode that has performed such an access, and the
last chunk of a job whose OPC is posted. -/
def keepsChunk (r : ERun) (b : Job) : Bool := r.fe || b.opc

/-- Whether a chunk is under way: one of its blocks has been read. -/
def midChunk (r : ERun) (b : Job) : Bool := !(r.rows.isEmpty && r.ck == 0 && b.got.isEmpty)

/-- Engine cycles of a column's window that have passed: those counted, and those that the clock says (R16, R87). -/
def cyclesGone (s : State) (p : Place) : Nat :=
  let e := engineAt s p
  Nat.max e.winCyc (Nat.min 1024 ((s.fab - e.winAt) * clockOf p.col / 4))

/-- Whether the job of an engine may take a chunk cycle: its owner runs and it is no victim of a kill, or its chunk is one
that runs to its end within the drain (R58, R79, R265). -/
def mayGoOn (s : State) (o : Nat) (r : ERun) (b : Job) : Bool :=
  let kept := midChunk r b && keepsChunk r b
  (!stopped s o || (draining s o && kept)) && (!victim s o b || kept)

/-- Whether the job on an engine has a chunk cycle to take: it may go on, it has a row to do, and a chunk that starts in WARN
ends before T. -/
def chunkWanted (s : State) (o c : Nat) (r : ERun) (b : Job) (x : MxBlock) : Bool :=
  mayGoOn s o r b && !chunkFull r x b && b.pos < x.m && (midChunk r b || fitsBeforeT s o c (chunkLen x b * x.kc))

/-- Whether the engine may take a chunk cycle now: one is wanted, and the window has an engine cycle left. -/
def chunkReady (s : State) (o c : Nat) (r : ERun) (b : Job) (x : MxBlock) : Bool :=
  chunkWanted s o c r b x && cyclesGone s (clusPlace s o c) < 1024

/-- A job's wait for full or empty granules begins, or has lasted for longer than JWLIM (R204). -/
def feWait (s : State) (o k id : Nat) : State :=
  onJob s o k id (fun b => { b with fewait := some (b.fewait.getD s.fab) })

def feOver (s : State) (w : Owner) (b : Job) : Bool :=
  match b.fewait with
  | some f => w.jwlim == 0 || (w.jwlim != 0xFFFFFFFF && f + w.jwlim * 1024 < s.fab)
  | none => false

/-- What becomes of the machine while a unit's step is not done: it waits for granules, its page is walked, or nothing. -/
def notDone {α : Type} (s : State) (o k id : Nat) (mx : Bool) : URes α → State
  | .wait => feWait s o k id
  | .miss page => unitWalk s o k mx page
  | .held | .fault _ _ | .ok _ _ => s

/-! ## The affine scan and the output (R258, R259) -/

def rne32 (ftz : Bool) (x : Exact) : Nat := (F32.round 0 ftz .arith 0 x).1

def mul32 (ftz : Bool) (a b : Nat) : Nat := rne32 ftz (mulE (F32.dec ftz a) (F32.dec ftz b))
def fma32 (ftz : Bool) (a b d : Nat) : Nat := rne32 ftz (fmaE 0 (F32.dec ftz a) (F32.dec ftz b) (F32.dec ftz d))

/-- Whether a composed gain's magnitude is below 2^-64. -/
def tinyGain (g : Nat) : Bool := g % 2 ^ 31 < 63 * 2 ^ 23

/-- One level of distance doubling over the pairs. -/
def scanLevel (ftz gf : Bool) (d : Nat) (ps : List (Nat × Nat)) : List (Nat × Nat) × Bool :=
  let out := ps.zipIdx.map (fun p =>
    if p.2 < d then (p.1, false)
    else
      let q := ps.getD (p.2 - d) (0, 0)
      let g := mul32 ftz p.1.1 q.1
      let low := gf && tinyGain g
      ((if low then 0 else g, fma32 ftz p.1.1 q.2 p.1.2), low))
  (out.map (·.1), out.any (·.2))

/-- Levels while the distance is below the number of rows; at most eight. -/
def scanLevels (ftz gf : Bool) : Nat → Nat → List (Nat × Nat) → List (Nat × Nat) × Bool
  | 0, _, ps => (ps, false)
  | n + 1, d, ps =>
    if ps.length ≤ d then (ps, false)
    else
      let r := scanLevel ftz gf d ps
      let q := scanLevels ftz gf n (2 * d) r.1
      (q.1, r.2 || q.2)

/-- The scan of one array column from its carry: its values and whether a floor applied. -/
def scanCol (ftz gf : Bool) (carry : Nat) (gs bs : List Nat) : List Nat × Bool :=
  let r := scanLevels ftz gf 9 1 (gs.zip bs)
  (r.1.map (fun p => fma32 ftz p.1 carry p.2), r.2)

/-- The rows of a chunk after the scan, the new carry of each used column, and the floor flag. -/
def scanRows (cl : Cluster) (x : MxBlock) (ftz : Bool) (r : ERun) : List (List (BitVec 32)) × List (BitVec 32) × Bool :=
  let colv := fun (m : List (List (BitVec 32))) j => m.map (fun row => (row.getD j 0).toNat)
  let cols := (List.range x.n).map (fun j =>
    scanCol ftz x.gf (getD 0 cl.carry j).toNat (colv r.gains j) (colv r.rows j))
  let rows := (List.range r.rows.length).map (fun i => cols.map (fun c => BitVec.ofNat 32 (c.1.getD i 0)))
  (rows, cols.map (fun c => BitVec.ofNat 32 (c.1.getLastD 0)), cols.any (·.2))

def ditherEng (o c k : Nat) : Nat := (Config.dither (3 * clusKey o c + 1) k).toNat % 65536

/-- How an output of the engine overflows: an F32 one is no conversion, any other saturates by the default column of R238
(R258). Log 52, DEDUCED. -/
def narrowOver (code : Nat) : Over := if code = 1 then .arith else .sat

/-- One output element: v / 2^(CSCALE - 127) in the output format (R258). -/
def outEl (o c : Nat) (x : MxBlock) (rm : Nat) (ftz : Bool) (draw : Nat) (v : BitVec 32) : Nat :=
  match codeFmt x.cfmt with
  | none => 0
  | some f => (f.round rm ftz (narrowOver x.cfmt) (ditherEng o c draw) ((F32.dec false v.toNat).scale (127 - (x.cscale : Int))).exact).1

/-- The blocks of an output row. -/
def outRow (o c : Nat) (x : MxBlock) (rm : Nat) (ftz : Bool) (draw : Nat) (row : List (BitVec 32)) : List Vec :=
  let wd := fmtBits x.cfmt
  let els := row.zipIdx.map (fun p => outEl o c x rm ftz (draw + p.2) p.1)
  let per := 512 / wd
  (List.range (x.cRow / 64)).map (fun i => vecOfEls wd ((els.drop (per * i)).take per))

/-- The C addresses of a chunk, row by row. -/
def cAddrs (x : MxBlock) (r0 n : Nat) : List Nat :=
  (List.range n).flatMap (fun i => blocksFrom (x.cva + (r0 + i) * x.cstr) (x.cRow / 64))

/-! ## ENGINE_CHUNK_CYCLE (R257, R264) -/

/-- The budget of a column's engine in its window, and whether it is used up (R87, R90). -/
def budgetIn (s : State) (o c : Nat) : Nat := (engineAt s (clusPlace s o c)).budget

def budgetUsed (s : State) (o c : Nat) : Bool := budgetIn s o c ≤ (engineAt s (clusPlace s o c)).used

/-- n engine cycles of a column pass with a ready chunk cycle held back by the budget (R87). -/
def heldCycles (s : State) (o c n : Nat) : State :=
  let p := clusPlace s o c
  onEngine (onClus s o c (fun cl => { cl with stall := (cl.stall + n) % 2 ^ 48 })) p
    (fun e => { e with winCyc := cyclesGone s p + n })

/-- A chunk whose last chunk cycle has been taken: its outputs are formed, each block of C with its descriptor, with the
carry and the floor flag that its commit gives (R257 to R259). -/
def formOutputs (s : State) (o c : Nat) (r : ERun) (b : Job) (x : MxBlock) : State :=
  match clus? s o c with
  | none => s
  | some cl =>
    let n := r.rows.length
    let sc := if x.mode = 2 then scanRows cl x b.ftz r else (r.rows, [], false)
    let vs := sc.1.zipIdx.flatMap (fun p => outRow o c x b.rm b.ftz (cl.ditherMx + p.2 * x.n) p.1)
    let outs := ((cAddrs x b.pos n).zip vs).map (fun p => (p.1, p.2, some (x.cfmt * 4096 + x.cscale)))
    let s := onClus s o c (fun cl =>
      { cl with ditherMx := if b.rm = 4 then cl.ditherMx + n * x.n else cl.ditherMx,
                mx := some { r with cnew := sc.2.1, gfl := sc.2.2 } })
    onJob s o r.k r.id (fun b => { b with out := outs })

/-- A chunk cycle taken: it counts against the budget, the run goes on, and the last reads of a job post its OPC (R264). -/
def takeCycle (s : State) (o c : Nat) (r r' : ERun) (b : Job) (x : MxBlock) : State :=
  let p := clusPlace s o c
  let n := cyclesGone s p + 1
  let s := onEngine (walksUsed s o c true) p (fun e => { e with used := e.used + 1, winCyc := n })
  let s := onJob (setRun s o c r') o r.k r.id (fun b => { b with fewait := none, got := [], spec := Nat.max b.spec (r.row + 1) })
  let s := if r.row + 1 = x.m ∧ r.ck + 1 = x.kc ∧ x.opc then
      releaseGate (onJob s o r.k r.id (fun b => { b with opc := true })) o r.k r.id false
    else s
  if chunkFull r' x b then formOutputs s o c r' b x else s

/-- What the engine does for a ready chunk: the budget holds it for one engine cycle, it reads a block, or it takes a chunk
cycle. -/
def engineCycle (s : State) (o c : Nat) (w : Owner) (r : ERun) (b : Job) (x : MxBlock) : State :=
  if budgetUsed s o c then heldCycles s o c 1
  else
    match nextChunk s w o c r b x with
    | .ok s r' =>
      if (gotAll b (cycleNeeds r x)).isSome then takeCycle s o c r r' b x
      else onJob (setRun (walksUsed s o c true) o c r') o r.k r.id (fun b => { b with fewait := none })
    | res => notDone s o r.k r.id true res

def execEngineChunkCycle (o c : Nat) (s : State) : Host.Outcome State Fault Refusal :=
  match runOf s o c, owner? s o, clus? s o c with
  | some (r, b, x), some w, some _ => if chunkReady s o c r b x then .next (engineCycle s o c w r b x) else .next s
  | _, _, _ => .next s

/-! ## CHUNK_COMMIT (R263) -/

/-- The commit of a chunk, at the instant its last C block has been written: the carry takes its new values and the next
chunk starts (R263). -/
def commitChunk (s : State) (o c : Nat) (r : ERun) (b : Job) : State :=
  let n := r.rows.length
  let s := onClus s o c (fun cl =>
    { cl with carry := r.cnew.zipIdx.foldl (fun m p => setD 0 m p.2 p.1) cl.carry,
              mx := some { r with row := b.pos + n, ck := 0, acc := [], rows := [], gains := [], gfl := false, fe := false, cnew := [] } })
  let s := onJob s o r.k r.id (fun b => { b with pos := b.pos + n, gfl := b.gfl || r.gfl })
  if b.cancel then cancelJob s o r.k r.id else s

/-- Whether a chunk's outputs may be written: every row has its sums, and the owner runs or drains (R58). -/
def writesC (s : State) (o : Nat) (r : ERun) (b : Job) (x : MxBlock) : Bool :=
  chunkFull r x b && b.pos < x.m && (!stopped s o || draining s o)

/-- One C block of a chunk is written; with the last the chunk commits. -/
def execChunkCommit (o c : Nat) (s : State) : Host.Outcome State Fault Refusal :=
  match runOf s o c, owner? s o with
  | some (r, b, x), some w =>
    if !writesC s o r b x then .next s
    else
      match writeNext s w o r.k true x.fe false anyPlace b with
      | .ok s _ =>
        let s := onJob (walksUsed s o c true) o r.k r.id (fun b => { b with fewait := none })
        .next (if b.out.length ≤ 1 then commitChunk s o c r b else s)
      | res => .next (notDone s o r.k r.id true res)
  | _, _ => .next s

/-! ## Starting a job (R115, R225, R261) -/

/-- The job that a core offers a unit: its oldest one of the unit's kind that has not ended; a suspended matrix job
stands before the later ones, a suspended copy job does not (R266). A victim of a kill is not started (R79). -/
def offered (s : State) (o : Nat) (c : Core) (mx : Bool) : Option Job :=
  let js := c.jobs.filter (fun b => b.kind.isMx == mx && (mx || !b.isSuspended))
  match js.head? with
  | some b => if b.state = .queued ∧ b.gate = .none ∧ victim s o b = false then some b else none
  | none => none

/-- The first core at or after the pointer with a job to start. Log 54, DEDUCED. -/
def nextJob (s : State) (o c : Nat) (mx : Bool) (ptr : Nat) : Option (Nat × Job) :=
  ((List.range 8).map (fun i => c * 8 + (ptr + i) % 8)).findSome? (fun j =>
    match core? s o j with
    | some x => (offered s o x mx).map (fun b => (j, b))
    | none => none)

/-- CZ: the carry of the used columns is zero before the first chunk. -/
def startCarry (cl : Cluster) (b : Job) : SMap (BitVec 32) :=
  match b.kind with
  | .mxrun k =>
    let x := mxBlock k
    if x.mode = 2 ∧ x.cz ∧ b.pos = 0 then cl.carry.filter (fun p => x.n ≤ p.1) else cl.carry
  | _ => cl.carry

/-- A matrix job starts: a replayed one restores the carry from its core's save slot (R266). -/
def startMx (s : State) (o c j : Nat) (b : Job) : State :=
  let slot := slotIs s o j b.id
  let s := onClus s o c (fun cl =>
    match slot, lookup cl.saved (j % 8) with
    | true, some x => { cl with carry := x, saved := drop cl.saved (j % 8) }
    | _, _ => cl)
  let s := onClus s o c (fun cl =>
    { cl with carry := startCarry cl b, rrMx := (j % 8 + 1) % 8, mx := some ⟨j, b.id, b.pos, 0, [], [], [], false, false, []⟩ })
  onJob s o j b.id (fun b => { b with state := .running, spec := b.pos })

/-- SLOUT takes a reference on its root as it starts; a root that is not live suspends it. -/
def startCu (s : State) (o c j : Nat) (w : Owner) (b : Job) : State :=
  let s := onClus s o c (fun cl => { cl with rrCu := (j % 8 + 1) % 8, cu := some (j, b.id) })
  let s := onJob s o j b.id (fun b => { b with state := .running })
  match b.kind with
  | .slout root _ =>
    if root = 0 ∨ b.rootHeld then s
    else match slRef s w o root.toNat false with
      | .ok s _ => onJob s o j b.id (fun b => { b with rootHeld := true })
      | .trap s cause va info _ => suspendJob s o j b.id cause (BitVec.ofNat 64 va) (BitVec.ofNat 64 info)
  | _ => s

def execJobStart (o c : Nat) (u : JUnit) (s : State) : Host.Outcome State Fault Refusal :=
  match owner? s o, clus? s o c with
  | some w, some cl =>
    if stopped s o then .next s
    else match u with
      | .mx => if cl.mx.isSome then .next s
        else (match nextJob s o c true cl.rrMx with
          | some (j, b) => .next (startMx s o c j b)
          | none => .next s)
      | .cu => if cl.cu.isSome then .next s
        else (match nextJob s o c false cl.rrCu with
          | some (j, b) => .next (startCu s o c j w b)
          | none => .next s)
  | _, _ => .next s

/-! ## The copy unit (R225, R249, R396 to R400) -/

/-- Group of a conversion: source blocks in, destination blocks out. -/
def convGroup (x : CuBlock) : Nat × Nat :=
  let es := perBlock x.sfmt
  let ed := perBlock x.cfmt
  if ed ≤ es then (1, es / ed) else (ed / es, 1)

def ditherCopy (o c k : Nat) : Nat := (Config.dither (3 * clusKey o c + 2) k).toNat % 65536

/-- One element converted, saturating by default (R238, R398). Log 52, DEDUCED. -/
def convEl (o c : Nat) (x : CuBlock) (rm : Nat) (ftz : Bool) (draw : Nat) (v : FVal) : Nat :=
  match codeFmt x.cfmt with
  | none => 0
  | some f => (f.round rm ftz .sat (ditherCopy o c draw) (v.scale (127 - (x.cscale : Int))).exact).1

/-- What the check of a source block of a conversion meets: its format is SFMT and R234 takes it. -/
def convChk (x : CuBlock) (va : Nat) (q : Vec × Nat) : Option TrapInfo :=
  match checkDesc q.2 with
  | .poison => some (mkTrap Cause.poison 0 (BitVec.ofNat 64 va))
  | .desc => some (descTrap q.2 va)
  | .ok => if q.2 / 4096 % 16 = x.sfmt then none else some (descTrap q.2 va)

/-- The blocks that a converted row is written as (R398). -/
def convOuts (o c : Nat) (cl : Cluster) (b : Job) (x : CuBlock) (bs : List (Vec × Nat)) (dva : Nat) : List (Nat × Vec × Option Nat) :=
  let wd := fmtBits x.cfmt
  let ed := perBlock x.cfmt
  let ys := (decodeEls b.ftz bs).zipIdx.map (fun p => convEl o c x b.rm b.ftz (cl.ditherCu + p.2) p.1)
  (List.range (x.drb / 64)).map (fun i =>
    (dva + 64 * i, vecOfEls wd ((ys.drop (ed * i)).take ed), some (x.cfmt * 4096 + x.cscale)))

/-- One block written of those that a copy job holds; with the last block of a row the row is committed. -/
def copyWrite (s : State) (w : Owner) (o k : Nat) (b : Job) (x : CuBlock) : URes Unit :=
  (writeNext s w o k false x.fe true anyPlace b).bind (fun s _ =>
    .ok (onJob s o k b.id (fun b =>
      if b.out.isEmpty ∧ x.rowb / 64 ≤ b.col then { b with pos := b.pos + 1, col := 0 } else b)) ())

/-- The next access of a copy: a block that it holds is written; else the next block of the row is read, or for a
conversion the row's blocks, all of them checked before any is written (R398). The committed position is the rows done.
Log 61, DEDUCED. -/
def copyStep (s : State) (o c : Nat) (w : Owner) (cl : Cluster) (k : Nat) (b : Job) (x : CuBlock) : URes Unit :=
  let per := x.rowb / 64
  let src := x.sva + b.pos * x.sstr
  let dst := x.dva + b.pos * x.dstr
  if !b.out.isEmpty then copyWrite s w o k b x
  else if x.conv then
    let vas := blocksFrom src per
    match gotAll b vas with
    | none => (readNext s w o k false x.fe b vas (fun i => convChk x (src + 64 * i))).bind (fun s _ =>
        .ok (onJob s o k b.id (fun b => { b with spec := b.pos + 1 })) ())
    | some bs =>
      let s := if b.rm = 4 then onClus s o c (fun cl => { cl with ditherCu := cl.ditherCu + (decodeEls b.ftz bs).length }) else s
      .ok (onJob s o k b.id (fun b => { b with got := [], col := per, out := convOuts o c cl b x bs dst })) ()
  else
    (readBlk s w o k false x.fe (src + 64 * b.col)).bind (fun s q =>
      .ok (onJob s o k b.id (fun b =>
        { b with spec := b.pos + 1, col := b.col + 1, out := [(dst + 64 * b.col, q.1, if x.dsc then some q.2 else none)] })) ())

/-- The n-th leaf of a tree, children in ascending index, null ones skipped (R225); otherwise the leaves still to pass
over, or the fault of the reads. -/
inductive LeafRes where
  | found (x : SGot)
  | more (n : Nat)
  | fault (c va info : Nat)
deriving DecidableEq, Repr

/-- The walk to a leaf, with what its reads did on the way (R217). -/
def leafIn (w : Owner) (o : Nat) : Nat → Nat → State → Nat → State × LeafRes
  | 0, _, s, n => (s, .more n)
  | d + 1, name, s, n =>
    if name = 0 then (s, .more n)
    else
      match slGet s w o name with
      | (s, some x, _) =>
        if !x.int then (s, if n = 0 then .found x else .more (n - 1))
        else ((lineWords 32 x.line).map (·.toNat)).foldl (fun acc child => match acc with
          | (s, .more n) => leafIn w o d child s n
          | r => r) (s, .more n)
      | (s, none, some (c, va, info, _)) => (s, .fault c va info)
      | (s, none, none) => (s, .fault Cause.slref 0 name)

/-- SLOUT writes to memory of the ordinary class alone (R225). -/
def ordinary (l : Option Leaf) (_ : Spot) : Bool :=
  match l with
  | some l => l.cls == 0
  | none => false

/-- The next access of SLOUT: a block of the leaf in hand is written, or the next leaf is read. -/
def sloutStep (s : State) (w : Owner) (o k : Nat) (b : Job) (root dst : Word) : URes Unit :=
  if !b.out.isEmpty then
    (writeNext s w o k false false false ordinary b).bind (fun s _ =>
      .ok (onJob s o k b.id (fun b => if b.out.isEmpty then { b with pos := b.pos + 1 } else b)) ())
  else
    match leafIn w o 9 root.toNat s b.pos with
    | (s, .fault c va info) => .fault s (mkTrap c info (BitVec.ofNat 64 va))
    | (s, .more _) => .ok (onJob s o k b.id (fun b => { b with stop := true })) ()
    | (s, .found x) =>
      .ok (onJob s o k b.id (fun b => { b with spec := b.pos + 1, out := (List.range 4).map (fun i =>
        (dst.toNat + 256 * b.pos + 64 * i, bytesVec ((x.line.drop (64 * i)).take 64), some (x.desc / 2 ^ (16 * i) % 65536))) })) ()

/-- The next access of a digest: a block of the leaf in hand is read, the leaf with all its blocks is hashed, or the
result is written (R249). Log 53, DEDUCED. -/
def digestStep (s : State) (w : Owner) (o k : Nat) (b : Job) (va len dst : Nat) : URes Unit :=
  if b.pos * 65536 < len then
    let vas := blocksFrom (va + b.pos * 65536) (Nat.min 65536 (len - b.pos * 65536) / 64)
    match gotAll b vas with
    | none => (readNext s w o k false false b vas (fun _ _ => none)).bind (fun s _ =>
        .ok (onJob s o k b.id (fun b => { b with spec := b.pos + 1 })) ())
    | some bs => .ok (onJob s o k b.id (fun b =>
        { b with pos := b.pos + 1, got := [], part := b.part ++ sha512 (bs.flatMap (fun p => vecBytes p.1)) })) ()
  else
    (reachBlk s w o k false true false anyPlace dst).bind (fun s _ =>
      .ok (onJob (writeBlk s w o k false false dst (bytesVec (sha512 b.part)) none) o k b.id
        (fun b => { b with stop := true })) ())

/-- The next step of a copy-unit job. -/
def nextBlock (s : State) (o c : Nat) (w : Owner) (cl : Cluster) (k : Nat) (b : Job) : URes Unit :=
  match b.kind with
  | .copy blk => copyStep s o c w cl k b (cuBlock blk)
  | .fill va _ desc pattern =>
    let a := va.toNat + 64 * b.pos
    (reachBlk s w o k false true false anyPlace a).bind (fun s _ =>
      .ok (onJob (writeBlk s w o k false false a pattern (if desc = 0 then none else some desc)) o k b.id
        (fun b => { b with pos := b.pos + 1, spec := b.pos + 1 })) ())
  | .ldb va len _ boff =>
    let per := len / 64
    (readBlk s w o k false false (va.toNat + 64 * b.pos)).bind (fun s x =>
      let p := Spot.bsram o c (b.pos / per * 32768 + boff * 256 + 64 * (b.pos % per))
      .ok (onJob (setDesc (writeBlocks s p (vecBytes x.1)) p x.2) o k b.id
        (fun b => { b with pos := b.pos + 1, spec := b.pos + 1 })) ())
  | .digest va len dst => digestStep s w o k b va.toNat len dst.toNat
  | .slout root dst => sloutStep s w o k b root dst
  | .mxrun _ | .carryLd _ | .carrySt _ => .ok s ()

def cuJob (s : State) (cl : Cluster) (o : Nat) : Option (Nat × Job) :=
  match cl.cu with
  | some (k, id) => (jobAt s o k id).map (fun b => (k, b))
  | none => none

def execCopyBlock (o c : Nat) (s : State) : Host.Outcome State Fault Refusal :=
  match owner? s o, clus? s o c with
  | some w, some cl =>
    match cuJob s cl o with
    | none => .next s
    | some (k, b) =>
      if stopped s o || b.landed || victim s o b then .next s
      else match nextBlock s o c w cl k b with
        | .ok s _ => .next (walksUsed (onJob s o k b.id (fun b => { b with fewait := none })) o c false)
        | res => .next (notDone s o k b.id false res)
  | _, _ => .next s

/-! ## MXCARRY (R261, R395) -/

/-- Places of a carry job: 1 KiB of a scratchpad or of ordinary-class HBM; other classes are PROT. -/
def carryTakes (w : Owner) (l : Option Leaf) (p : Spot) : Bool :=
  match l with
  | none => true
  | some l => allowed .obj (siteOf w (.mem l p.addr))

/-- The carry as 16 blocks. -/
def carryBlocks (cl : Cluster) : List Vec :=
  (List.range 16).map (fun i => vecOfEls 32 ((List.range 16).map (fun j => (getD 0 cl.carry (16 * i + j)).toNat)))

def carryOf (bs : List (Vec × Nat)) : SMap (BitVec 32) :=
  (bs.flatMap (fun b => (List.range 16).map (fun i => velem 32 i b.1))).zipIdx.foldl
    (fun m p => setD 0 m p.2 (BitVec.ofNat 32 p.1)) []

/-- The next access of a carry job: its blocks are read or written one by one, and with the last it has its effect; the
outcome says whether it has. A store starts once every block may be written. -/
def carryStep (s : State) (o c : Nat) (w : Owner) (cl : Cluster) (k : Nat) (b : Job) : URes Bool :=
  match b.kind with
  | .carrySt va =>
    let vas := blocksFrom va.toNat 16
    if b.col = 0 then
      (reachAll w o k true true (carryTakes w) vas s).bind (fun s _ =>
        .ok (onJob s o k b.id (fun b => { b with col := 1, out := (vas.zip (carryBlocks cl)).map (fun p => (p.1, p.2, some 0x107F)) })) false)
    else (writeNext s w o k true false false (carryTakes w) b).bind (fun s _ => .ok s (b.out.length ≤ 1))
  | .carryLd va =>
    let vas := blocksFrom va.toNat 16
    match gotAll b vas with
    | none => (reachAll w o k true false (carryTakes w) vas s).bind (fun s _ =>
        (readNext s w o k true false b vas (fun i => descChk 0x107F (va.toNat + 64 * i))).bind (fun s _ => .ok s false))
    | some bs => .ok (onClus s o c (fun cl => { cl with carry := carryOf bs })) true
  | _ => .ok s true

/-! ## The end of a job (R140, R207, R264) -/

/-- The object a job arrives on at its end, with the generation and tag it presents. -/
def arrivalOf (b : Job) : Option (Nat × Nat × Nat) :=
  match b.kind with
  | .mxrun k => let x := mxBlock k; if x.done then some (x.barva, x.bgen, x.btag) else none
  | .copy k => let x := cuBlock k; if x.done then some (x.barva, x.bgen, x.btag) else none
  | _ => none

/-- A dropped arrival is recorded against the submitter as BSTALE, or in the log where it has ended (R121, R140). -/
def stale (s : State) (o k : Nat) (b : Job) (va gen held : Nat) : State :=
  if b.orphan || (thr? s o b.tid).isNone then failItem s o (.job k b.id)
  else onThr s o b.tid (fun t => { t with async := t.async ++ [⟨Cause.bstale, BitVec.ofNat 64 va,
    BitVec.ofNat 64 (b.id + gen * 2 ^ 16 + held * 2 ^ 32), 0, .job k b.id, false⟩] })

/-- The arrival of a job, its object's page translated by the unit: an object that takes no engine arrival fails the job
with DESC, before staleness is looked at; a generation or tag that does not match drops the arrival (R137, R140, R206,
R207). -/
def arriveJob (s : State) (w : Owner) (o k : Nat) (mx : Bool) (b : Job) (va gen tag : Nat) : URes Unit :=
  let kind : AccKind := if mx then .engine else .copy
  let v := BitVec.ofNat 64 va
  if 2 ^ 57 ≤ va then .fault s (protTrap kind 2 v)
  else if isSpadVa va then .fault s (protTrap kind 6 v)
  else
    match unitPage s o k mx (va / 65536) with
    | none => .miss (va / 65536)
    | some out =>
      let s := unitKeep s o (k / 8) mx (va / 65536) out
      match ofWalk w .obj kind true v out with
      | .ok (.mem l pa) =>
        let o' := readBar s pa
        let held := o'.gen
        let m := markIn s (.mem pa) 64
        let t := targetOf s w o k l pa
        if targetShut s t then .held
        else if m != 0 then .fault s (mkTrap Cause.poison (m - 1) v)
        else if !o'.ok || o'.xch then .fault s (mkTrap Cause.desc 0 v)
        else if held ≠ gen ∨ o'.tag ≠ tag then .ok (stale s o k b va gen held) ()
        else match arriveAt s o t pa none none with
          | some s => .ok s ()
          | none => .fault s (mkTrap Cause.desc 0 v)
      | .bad t => .fault s t
      | .ok (.spad _ _) | .miss _ => .fault s (protTrap kind 6 v)

/-- A landed job ends after its arrival has been performed or dropped. -/
def endJob (s : State) (w : Owner) (o k : Nat) (mx : Bool) (b : Job) : State :=
  match arrivalOf b with
  | none => doneJob s o k b.id
  | some (va, gen, tag) =>
    match arriveJob s w o k mx b va gen tag with
    | .ok s _ => doneJob (walksUsed s o (k / 8) mx) o k b.id
    | res => notDone s o k b.id mx res

/-- The job of a unit. -/
def unitJob (s : State) (o : Nat) (cl : Cluster) (u : JUnit) : Option (Nat × Job) :=
  match u with
  | .mx => (match cl.mx with
    | some r => (jobAt s o r.k r.id).map (fun b => (r.k, b))
    | none => none)
  | .cu => cuJob s cl o

def isCarry (b : Job) : Bool :=
  match b.kind with
  | .carryLd _ | .carrySt _ => true
  | _ => false

def execJobEnd (o c : Nat) (u : JUnit) (s : State) : Host.Outcome State Fault Refusal :=
  match owner? s o, clus? s o c with
  | some w, some cl =>
    match unitJob s o cl u with
    | none => .next s
    | some (k, b) =>
      if stopped s o then .next s
      else if isCarry b then
        if victim s o b then .next s
        else match carryStep s o c w cl k b with
        | .ok s true => .next (doneJob (walksUsed s o c true) o k b.id)
        | .ok s false => .next (onJob (walksUsed s o c true) o k b.id (fun b => { b with fewait := none }))
        | res => .next (notDone s o k b.id true res)
      else if b.landed then .next (endJob s w o k (u == .mx) b)
      else .next s
  | _, _ => .next s

/-! ## Suspension (R131) -/

/-- A step's fault with the state it leaves, or the end of its wait for granules. -/
def faultOf {α : Type} (s : State) (w : Owner) (b : Job) : URes α → Option (State × TrapInfo)
  | .fault s t => some (s, t)
  | .wait => if feOver s w b then some (s, mkTrap Cause.fewait 0 0) else none
  | .ok _ _ | .held | .miss _ => none

/-- What the next access of a unit's job meets, where it may make one: the arrival of a landed job, a write of a chunk whose
sums are formed, an access of a chunk that may go on within the budget and before T (R265, R267), or a block of another
job. -/
def jobFault (s : State) (o c : Nat) (w : Owner) (cl : Cluster) (u : JUnit) (k : Nat) (b : Job) : Option (State × TrapInfo) :=
  let halted := stopped s o || victim s o b
  if b.landed then
    match arrivalOf b with
    | some (va, gen, tag) => if stopped s o then none else faultOf s w b (arriveJob s w o k (u == .mx) b va gen tag)
    | none => none
  else if isCarry b then (if halted then none else faultOf s w b (carryStep s o c w cl k b))
  else
    match u with
    | .cu => if halted then none else faultOf s w b (nextBlock s o c w cl k b)
    | .mx => match runOf s o c with
      | some (r, b, x) =>
        if writesC s o r b x then faultOf s w b (writeNext s w o r.k true x.fe false anyPlace b)
        else if chunkReady s o c r b x && !budgetUsed s o c then faultOf s w b (nextChunk s w o c r b x)
        else none
      | none => none

def execJobSuspend (o c : Nat) (u : JUnit) (s : State) : Host.Outcome State Fault Refusal :=
  match owner? s o, clus? s o c with
  | some w, some cl =>
    match unitJob s o cl u with
    | none => .next s
    | some (k, b) =>
      match jobFault s o c w cl u k b with
      | some (s, t) =>
        let s := walksUsed s o c (u == .mx)
        if b.cancel then .next (cancelJob s o k b.id) else .next (suspendJob s o k b.id t.cause t.va t.info)
      | none => .next s
  | _, _ => .next s

/-! ## Reclaim walks (R221) -/

/-- A queued walk begins; with none left, the scan finds every entry of the slice's sets that waits for one, and its flag
is cleared (R221). -/
def execReclaimWalk (o j : Nat) (s : State) : Host.Outcome State Fault Refusal :=
  match owner? s o, core? s o j with
  | some w, some c =>
    match c.reclaim with
    | q :: _ => if stopped s o || q.begun || (placeOf s o j).mv then .next s
      else .next (onCore s o j (fun c => { c with reclaim := { q with begun := true } :: c.reclaim.drop 1 }))
    | [] =>
      if !c.scan || stopped s o || (placeOf s o j).mv then .next s
      else .next (onCore s o j (fun c => { c with reclaim := scanFound s w j, scan := false }))
  | _, _ => .next s

/-- One child of the walk that runs: its count is taken, NEXT advances, and after the last the entry is free. -/
def execReclaimChildAck (o j : Nat) (s : State) : Host.Outcome State Fault Refusal :=
  match owner? s o, core? s o j with
  | some w, some c =>
    match c.reclaim with
    | [] => .next s
    | q :: _ =>
      if stopped s o || !q.begun || (placeOf s o j).mv then .next s
      else match reclaimStep s w o q with
        | (s, true) => .next s
        | (s, false) => .next (onCore s o j (fun c => { c with reclaim := c.reclaim.filter (fun x => !(x.set == q.set && x.ent == q.ent)) }))
  | _, _ => .next s

end Sys2Proof.Machine
end

