-- ==== Sys2Proof/Machine/Drain.lean ====
section
/-!
DEFINITION. What DRAIN, CHUNK and the end of a pause do to owners' columns, shared by rotations and saves (R56 to R58,
R61, R63, R72, R265).
-/

namespace Sys2Proof.Machine

/-! ## The instant T (R58, R265) -/

/-- A scan chunk that is under way and is not one that runs to its end is abandoned: it runs again from its start. -/
def abandonRun (s : State) (o c : Nat) : State :=
  match runOf s o c with
  | none => s
  | some (r, b, x) =>
    if !midChunk r b || chunkFull r x b || keepsChunk r b then s
    else rerun s o c r b

/-- The clusters of an owner. -/
def clustersOf (s : State) (o : Nat) : List Nat :=
  (s.clusters.filter (fun p => p.1 / 128 == o)).map (fun p => p.1 % 128)

def abandonAll (s : State) (o : Nat) : State := (clustersOf s o).foldl (fun s c => abandonRun s o c) s

/-! ## What DRAIN waits for (R58) -/

/-- A journal entry that is on its way: it can be sent to a tile that takes it, or its answer has not landed. -/
def entryMoves (s : State) (o : Nat) (e : JEnt) : Bool :=
  match e.phase with
  | .acked | .refusing _ | .late => true
  | .ready => maySend s o e && !inputStopped s o e.dest
  | .busy _ | .refused _ _ _ => false

/-- Whether an engine's chunk has still to land. -/
def chunkLeft (s : State) (o c : Nat) : Bool :=
  match runOf s o c with
  | some (r, b, _) => midChunk r b
  | none => false

/-- Whether a replicated write keeps a drain from ending: before a rotation one that some die has still to receive, before a
save every one that has not been applied (R189). -/
def writeLeft (save : Bool) (x : RWrite) : Bool := save || x.pending.any (fun d => !x.buffered.contains d)

/-- Whether nothing of the owners of a set is in flight. -/
def drained (s : State) (save : Bool) (mine : Nat → Bool) : Bool :=
  s.reqs.all (fun r => r.held || !mine r.o) && s.replies.all (fun p => !mine p.o)
    && s.combines.all (fun c => !mine c.upper.o) && s.walks.all (fun k => !mine k.o)
    && s.barriers.all (fun b => !mine b.o || b.toTell.isEmpty)
    && s.rwrites.all (fun x => !mine x.o || !writeLeft save x)
    && s.cores.all (fun p => !mine (p.1 / 1024) || p.2.journal.all (fun e => !entryMoves s (p.1 / 1024) e))
    && s.clusters.all (fun p => !mine (p.1 / 128) || !chunkLeft s (p.1 / 128) (p.1 % 128))
    && s.threads.all (fun p => !mine p.2.o || p.2.mig.isNone)

/-! ## What is missing at T + 8 microseconds (R63) -/

/-- The item kind of the fault log that a request is (R79, R80): 4 an access whose bundle waits for it, 7 a sealed
operation, 0 none, a posted store, a hint or a fetch of a stream's element. Log 60, DEDUCED. -/
def ReqKind.itemKind : ReqKind → Nat
  | .store _ | .vstore _ _ _ | .stf _ | .push _ _ | .prf | .fetch _ _ => 0
  | .slput _ _ _ _ | .slref _ _ | .slunref _ _ | .slswap _ _ _ => 7
  | .load _ _ _ | .vload _ _ _ | .lds _ _ _ _ | .fec _ _ | .amo _ _ _ _ _ | .fadd _ _ | .cas _ _ _ _ _ | .ldv _
  | .cstor _ _ _ _ | .arrive _ _ | .barw _ | .qput _ _ _ _ | .qget _ _ _ _ _ | .waitc _ _ | .mrecv _ | .slget _ _ _ => 4

/-- The item kind of the access that a bundle waits in. -/
def Bundle.itemKind (b : Bundle) : Nat :=
  match b.x with
  | .slput .. | .slref .. | .slunref .. | .slswap .. => 7
  | _ => 4

/-- The name of a sealed operation in a record of its failure, SLSWAP's the new one (R79); 0 for other accesses. -/
def Req.sealName (s : State) (q : Req) : Nat :=
  match q.kind with
  | .slput _ _ _ _ | .slref _ _ | .slunref _ _ => ((owner? s q.o).bind q.kind.name).getD 0
  | .slswap _ new _ => new.toNat
  | _ => 0

/-- The name, where the request is gone and the bundle still waits: SLPUT's has not come with the reply. -/
def Bundle.sealName (s : State) (t : Thread) (b : Bundle) : Nat :=
  match b.x with
  | .slref _ a | .slunref _ a => (readG s t a).toNat
  | .slswap _ _ c => (readG s t c).toNat
  | _ => 0

/-- POISON with INFO 100 against a bundle whose reply is missing; `applied` says whether the effect at the slice stands. -/
def drainTrap (va : Word) (applied : Bool) : TrapInfo :=
  { mkTrap Cause.poison 4 va with applied := applied }

/-- A thread that waits for a reply takes the trap of its missing item. -/
def trapWaiter (s : State) (o tid r : Nat) (va : Word) (applied : Bool) : State :=
  match thr? s o tid with
  | none => s
  | some t => if t.status = .waiting (.reply r) then trapWait s o tid (drainTrap va applied) else s

/-- Whether a thread waits for a reply, or did when it was killed. -/
def waitsFor (s : State) (o tid r : Nat) : Bool :=
  match thr? s o tid with
  | some t => t.status == .waiting (.reply r) || t.status == .dying
  | none => false

/-- A request fails: what of it was applied is known. The first missing piece of an access speaks for it. Log 69,
DEDUCED. -/
def failAs (applied : Bool) (s : State) (q : Req) : State :=
  let s := dropReq s q.id
  let item := if q.kind.itemKind != 0 then q.kind.itemKind else 4
  if q.kind == .prf || (wantsReply q && !q.kind.isStore && q.kind.itemKind != 0 && !waitsFor s q.o q.tid q.base) then s
  else logNamed (trapWaiter s q.o q.tid q.base q.vaW applied) q.o q.core Cause.poison item q.tid q.pa true applied (q.sealName s)

/-- A request not performed: nothing of it is applied. -/
def failReq : State → Req → State := failAs false

/-- A reply on its way: its effect at the target stands. -/
def failReply (s : State) (p : Reply) : State :=
  let s := { s with replies := s.replies.filter (fun x => !(x.id == p.id && x.o == p.o)) }
  let base := match p.part with
    | some q => q.1
    | none => p.id
  let at_ := match p.part with
    | some q => 16 * q.2
    | none => 0
  if waitsFor s p.o p.tid base then
    let b := (thr? s p.o p.tid).bind (fun t => t.pend.map (fun b => (b.itemKind, b.sealName s t)))
    let item := (b.getD (4, 0)).1
    let s := trapWaiter s p.o p.tid base (BitVec.ofNat 64 (p.va - at_)) p.trap.isNone
    logNamed s p.o p.core Cause.poison item p.tid 0 true p.trap.isNone (b.getD (4, 0)).2
  else s

/-- A combining record and both its requests: applied where the combined request has been served, its answer on the way. -/
def failCombine (s : State) (c : Combine) : State :=
  let applied := s.replies.any (fun p => p.id == c.id && p.trap.isNone)
  let s := { s with combines := s.combines.filter (·.id != c.id), reqs := s.reqs.filter (·.id != c.id),
                    replies := s.replies.filter (·.id != c.id) }
  failAs applied (failAs applied s c.upper) c.lower

/-- The record of a posted store or message that fails for a fault (R63). -/
def logPosted (s : State) (o j : Nat) (e : JEnt) : State :=
  let s := refuseEntry s o j e Cause.pstref 3
  if e.orphan then s else logItem s o j Cause.pstref 3 e.seq 0 true e.applied

/-- A posted store or message without its acknowledgement: PSTREF with reason 3 (R130), and its record. -/
def failPosted (s : State) (o j : Nat) (e : JEnt) : State :=
  if !entryMoves s o e then s
  else logPosted s o j e

/-- A chunk that has not ended: its job fails at its committed position. -/
def failChunk (s : State) (o c : Nat) : State :=
  match runOf s o c with
  | some (r, b, _) => if midChunk r b then failJob s o r.k r.id Cause.jobf else s
  | none => s

/-- Accesses that joined a walk issue again after the pause. -/
def failWalk (s : State) (k : Walk) : State :=
  k.joined.foldl (fun s tid => onThr s k.o tid (fun t =>
    if t.status = .waiting (.walk k.id) then { t with status := .ready } else t)) { s with walks := s.walks.filter (·.id != k.id) }

/-- Everything of a set of owners that is still missing fails, item by item; replicated writes count as received, and
before a save as applied. Log 69, DEDUCED. -/
def failMissing (s : State) (save : Bool) (mine : Nat → Bool) : State :=
  let s := (s.combines.filter (fun c => mine c.upper.o)).foldl failCombine s
  let s := (s.reqs.filter (fun r => mine r.o && !r.held)).foldl failReq s
  let s := (s.replies.filter (fun p => mine p.o)).foldl failReply s
  let s := (s.walks.filter (fun k => mine k.o)).foldl failWalk s
  let s := (s.cores.filter (fun p => mine (p.1 / 1024))).foldl (fun s p =>
    p.2.journal.foldl (fun s e => failPosted s (p.1 / 1024) (p.1 % 1024) e) s) s
  let s := (s.clusters.filter (fun p => mine (p.1 / 128))).foldl (fun s p => failChunk s (p.1 / 128) (p.1 % 128)) s
  let seen := s.rwrites.map (fun x => if mine x.o then { x with buffered := x.pending } else x)
  { s with rwrites := seen.filter (fun x => !(save && mine x.o)) }

/-! ## CHUNK and RESUME (R56, R61) -/

/-- The speculative position of each job falls back to its committed one (R56), and elements fetched ahead that no thread
has popped are discarded (R163). -/
def setSpecs (s : State) (mine : Nat → Bool) : State :=
  { s with
    cores := s.cores.map (fun p =>
      if mine (p.1 / 1024) then (p.1, { p.2 with jobs := p.2.jobs.map (fun b => { b with spec := b.pos }) }) else p),
    threads := s.threads.map (fun p => if mine p.2.o then (p.1, dropFetched p.2) else p) }

/-- L1s, translation buffers, translation caches and the outcomes of walks are gone, and no entry holds a resolved tile
(R54, R56, R139). -/
def emptyBuffers (s : State) (mine : Nat → Bool) : State :=
  { s with
    cores := s.cores.map (fun p => if mine (p.1 / 1024) then
      (p.1, { p.2 with l1 := [], tlb := [], tcache := [], journal := p.2.journal.map JEnt.unsent }) else p),
    clusters := s.clusters.map (fun p => if mine (p.1 / 128) then
      (p.1, { p.2 with tlbMx := [], tlbCu := [], outMx := [], outCu := [] }) else p),
    threads := s.threads.map (fun p => if mine p.2.o then (p.1, { p.2 with walks := [] }) else p) }

/-- Job wait limits and balancing intervals do not advance while the owners' columns stand (R61, R72). -/
def shiftWaits (s : State) (mine : Nat → Bool) (n : Nat) : State :=
  { s with
    cores := s.cores.map (fun p =>
      if mine (p.1 / 1024) then (p.1, { p.2 with jobs := p.2.jobs.map (fun b => { b with fewait := b.fewait.map (· + n) }) }) else p),
    owners := s.owners.map (fun p => if mine p.1 then (p.1, { p.2 with balanceAt := p.2.balanceAt + n }) else p) }

/-- Lines leave the slices, every dirty sector being in memory, so that no token read before matches one read after (R170,
R180). -/
def emptySlices (s : State) (mine : Nat → Bool) : State :=
  { s with cores := s.cores.map (fun p => if mine (p.1 / 1024) then (p.1, { p.2 with l2 := [] }) else p) }

/-- Owners resume after a save that stopped them for n fabric cycles (R72). -/
def thaw (s : State) (os : List Nat) (n : Nat) : State :=
  os.foldl (fun s o => onOwner s o (fun w => { w with frozen := false, saving := false, warn := false }))
    (emptySlices (emptyBuffers (shiftWaits s os.contains n) os.contains) os.contains)

end Sys2Proof.Machine
end

