-- ==== Sys2Proof/Machine/Links.lean ====
section
/-!
DEFINITION. The link unit (R25 to R29, R242) and the link instructions (R406, R407).
-/

namespace Sys2Proof.Machine

/-! ## The link unit's accesses to an owner's memory -/

/-- A 64-byte block of ordinary-class HBM, translated by a walk within the access (log 11, DESIGN CHOICE). -/
def lkLoc (s : State) (w : Owner) (k : AccKind) (va : Nat) : TrapInfo ⊕ (Leaf × Nat) :=
  match ownerChk s w .obj k (k == .store) va with
  | .ok (.mem l pa) => .inr (l, pa)
  | .bad t => .inl t
  | .ok (.spad _ _) | .miss _ => .inl (protTrap k 6 (BitVec.ofNat 64 va))

/-- n blocks of 64 bytes. -/
def lkRead (s : State) (w : Owner) : Nat → Nat → TrapInfo ⊕ List Byte
  | 0, _ => .inr []
  | n + 1, va =>
    match lkLoc s w .load va with
    | .inl t => .inl t
    | .inr (_, pa) =>
      let m := markIn s (.mem pa) 64
      if m != 0 then .inl (mkTrap Cause.poison (m - 1) (BitVec.ofNat 64 va))
      else match lkRead s w n (va + 64) with
        | .inl t => .inl t
        | .inr bs => .inr (readAt s (.mem pa) 64 ++ bs)

/-- The first fault of a write of n blocks. -/
def lkWritable (s : State) (w : Owner) : Nat → Nat → Option TrapInfo
  | 0, _ => none
  | n + 1, va =>
    match lkLoc s w .store va with
    | .inl t => some t
    | .inr _ => lkWritable s w n (va + 64)

/-- Bytes written block by block, descriptors unchanged (R407) and marks left (R411). -/
def lkWrite (w : Owner) (o : Nat) : Nat → Nat → List Byte → State → State
  | 0, _, _, s => s
  | n + 1, va, bs, s =>
    match lkLoc s w .store va with
    | .inl _ => s
    | .inr (l, pa) =>
      let s := touchWrite (writeAt s (.mem pa) (bs.take 64)) (targetOf s w o 0 l pa) pa
      lkWrite w o n (va + 64) (bs.drop 64) s

/-! ## Frames (R25) -/

def headBytes (f : Frame) : List Byte :=
  [f.lvl ++ f.ver, f.type]
    ++ listOfWord (f.group.setWidth 64) 2 ++ listOfWord (f.srank.setWidth 64) 2 ++ listOfWord (f.drank.setWidth 64) 2
    ++ listOfWord (f.step.setWidth 64) 4 ++ listOfWord (f.frag.setWidth 64) 2 ++ listOfWord (f.nfrag.setWidth 64) 2
    ++ listOfWord (f.seq.setWidth 64) 4 ++ listOfWord (f.len.setWidth 64) 2 ++ [f.fmt] ++ listOfWord (f.mbz.setWidth 64) 5

/-- XCRC covers the header and the payload. Log 56, DEDUCED. -/
def sealFrame (f : Frame) : Frame := { f with xcrc := crc32c (headBytes f ++ f.pay) }

def portAt (s : State) (p : Nat) : Port := getD Port.idle s.ports p

def onPort (s : State) (p : Nat) (f : Port → Port) : State := { s with ports := setD Port.idle s.ports p (f (portAt s p)) }

/-- A data or credit frame takes the next SEQ of its port and is held; the oldest 512 held are on the wire. A port that is
down sends nothing (R27). -/
def enqueue (s : State) (p : Nat) (f : Frame) : State :=
  if (portAt s p).down then s
  else onPort s p (fun q =>
    let f := sealFrame { f with seq := BitVec.ofNat 32 q.seqTx }
    { q with seqTx := (q.seqTx + 1) % 2 ^ 32, sent := q.sent ++ [f],
             outBox := if q.sent.length < 512 then q.outBox ++ [f] else q.outBox,
             since := if q.sent.isEmpty then s.fab else q.since })

/-- A frame of a group from this member. -/
def frameOf (g : Group) (type : BitVec 8) (peer step frag nfrag fmt : Nat) (pay : List Byte) : Frame where
  etype := 0x88B5
  ver := 1
  lvl := 3
  type := type
  group := BitVec.ofNat 16 g.group
  srank := BitVec.ofNat 16 g.rank
  drank := BitVec.ofNat 16 peer
  step := BitVec.ofNat 32 step
  frag := BitVec.ofNat 16 frag
  nfrag := BitVec.ofNat 16 nfrag
  seq := 0
  len := BitVec.ofNat 16 pay.length
  fmt := BitVec.ofNat 8 fmt
  mbz := 0
  xcrc := 0
  pay := pay
  fcs := true

def peerPort (g : Group) (peer : Nat) : Nat := (g.table.getD peer (0, 0)).2

/-- A message as fragments of at most 8,192 bytes. -/
def sendMsg (s : State) (g : Group) (peer step fmt : Nat) (bs : List Byte) : State :=
  let n := (bs.length + 8191) / 8192
  (List.range n).foldl (fun s i =>
    enqueue s (peerPort g peer) (frameOf g 1 peer step i n fmt ((bs.drop (8192 * i)).take 8192))) s

/-- A step of a sender is consumed: its fragments leave the buffer (R28). -/
def consumeStep (s : State) (o : Nat) (g : Group) (src step : Nat) : State :=
  { s with bufs := s.bufs.map (fun b =>
    if b.o = o ∧ b.group = g.group ∧ b.src = src ∧ b.step = step then { b with consumed := true, frags := [] } else b) }

/-- The die whose link buffers a port fills (log 20, DESIGN CHOICE). -/
def portDie (p : Nat) : Nat := p / 2

/-- The open group of an owner by its number. -/
def groupAt (s : State) (o group : Nat) : Option Group :=
  match owner? s o with
  | some w => w.groups.find? (·.group == group)
  | none => none

/-- Bytes of undelivered payload held for an owner on a die (R69). -/
def heldBytes (s : State) (o die : Nat) : Nat :=
  ((s.bufs.filter (fun b => b.o == o && (match groupAt s o b.group with
    | some g => portDie (peerPort g b.src) == die
    | none => false))).map (fun b => (b.frags.map (·.2.length)).foldl (· + ·) 0)).foldl (· + ·) 0

/-- Credit for step s + 8 of each consumed step s, withheld while the owner's 128 KiB on the die are full (R28, R69). -/
def grantCredits (s : State) : State :=
  (s.bufs.filter (fun b => b.consumed && !b.told)).foldl (fun s b =>
    match groupAt s b.o b.group with
    | none => s
    | some g =>
      if 131072 ≤ heldBytes s b.o (portDie (peerPort g b.src)) then s
      else
        let s := { s with bufs := s.bufs.map (fun x => if x = b then { x with told := true } else x) }
        enqueue s (peerPort g b.src) (frameOf g 4 b.src (b.step + 8) 0 1 0 [])) s

/-- Whether a step may be transmitted to a peer: its credit has arrived; the first 8 steps need none (log 20, DESIGN CHOICE). -/
def hasCredit (s : State) (o : Nat) (g : Group) (peer step : Nat) : Bool :=
  step < 8 || s.credits.any (fun c => c.o == o && c.group == g.group && c.peer == peer && c.step == step)

/-- The whole message of a sender and step, where it has arrived: its format code and bytes. -/
def wholeMsg (s : State) (o group src step : Nat) : Option (Nat × List Byte) :=
  match s.bufs.find? (fun b => b.o == o && b.group == group && b.src == src && b.step == step && !b.consumed) with
  | none => none
  | some b =>
    if b.frags.length = b.nfrag then some (b.fmt, (b.frags.map (·.2)).flatten) else none

/-! ## Groups and blocks (R406) -/

structure LkBlock where
  gva  : Nat
  buf  : Nat
  len  : Nat
  peer : Nat
  ty   : Nat
  op   : Nat
  step : Nat
  dva  : Nat
deriving DecidableEq, Repr

def lkBlock (b : List Byte) : LkBlock :=
  ⟨fieldOf b 0 8, fieldOf b 8 8, fieldOf b 16 4, fieldOf b 20 2, fieldOf b 22 1, fieldOf b 23 1, fieldOf b 24 4,
    fieldOf b 32 8⟩

/-- Fields in range and zero where they must be, for an operation that reduces or not. -/
def LkBlock.ok (b : List Byte) (x : LkBlock) (red : Bool) : Bool :=
  zeroIn b 28 4 && zeroIn b 40 24 && x.gva % 64 == 0 && x.buf % 64 == 0 && x.len % 64 == 0 && 64 ≤ x.len && x.len ≤ 65536
    && (if red then x.peer == 0 && (x.ty ≤ 4 || (8 ≤ x.ty && x.ty ≤ 15)) && x.op ≤ 2 && x.dva % 64 == 0
        else x.ty == 0 && x.op == 0)

/-- The type of a code (R303). -/
def vtypeCode : Nat → VType
  | 0 => .f32 | 1 => .bf16 | 2 => .f16 | 3 => .e4m3 | 4 => .e5m2
  | 8 => .i64 | 9 => .i32 | 10 => .i16 | 11 => .i8 | 12 => .n64 | 13 => .n32 | 14 => .n16 | _ => .n8

def rankTable (n : Nat) (b : List Byte) : List (Nat × Nat) :=
  (List.range n).map (fun i => (fieldOf b (16 * i) 6, fieldOf b (16 * i + 6) 1))

/-- The entries of a rank table in order: a port below 16 and zero bytes after it. -/
def tableGood (n : Nat) (b : List Byte) : Bool :=
  (List.range n).all (fun i => fieldOf b (16 * i + 6) 1 < 16 && zeroIn b (16 * i + 7) 9)

/-- A block of 64 bytes that holds a part of the rank table, which may lie at any place that a load may read. -/
def tableBlock (e : Env) (s : State) (va : Nat) : TrapInfo ⊕ List Byte :=
  let v := BitVec.ofNat 64 va
  let c := if isSpadVa va then locate s e.w e.t .ld .load false v 64 else ownerChk s e.w .ld .load false va
  match c with
  | .bad t => .inl t
  | .miss _ => .inl (protTrap .load 6 v)
  | .ok loc =>
    let m := markIn s (spotAt e loc) 64
    if layoutMiss s e.t.o loc 64 then .inl (protTrap .load 2 v)
    else if m != 0 then .inl (mkTrap Cause.poison (m - 1) v)
    else .inr (readAt s (spotAt e loc) 64)

def tableBlocks (e : Env) (s : State) : Nat → Nat → TrapInfo ⊕ List Byte
  | 0, _ => .inr []
  | n + 1, va =>
    match tableBlock e s va, tableBlocks e s n (va + 64) with
    | .inl t, _ | .inr _, .inl t => .inl t
    | .inr a, .inr b => .inr (a ++ b)

/-- The bytes of a rank table, from the block in which it starts. -/
def readTable (e : Env) (s : State) (rt n : Nat) : TrapInfo ⊕ List Byte :=
  match tableBlocks e s ((rt % 64 + 16 * n + 63) / 64) (rt / 64 * 64) with
  | .inl t => .inl t
  | .inr bs => .inr (bs.drop (rt % 64))

/-- What naming a group block finds: a group, open or to be opened; a failure with the group's number and a reason; or
a fault of the reads. -/
inductive GroupRes where
  | ok (g : Group)
  | fail (group reason : Nat)
  | fault (t : TrapInfo)
deriving DecidableEq, Repr

def findGroup (e : Env) (s : State) (gva : Nat) : GroupRes :=
  let w := e.w
  match w.groups.find? (fun g => g.gva.toNat == gva) with
  | some g => .ok g
  | none =>
    match lkRead s w 1 gva with
    | .inl t => .fault t
    | .inr b =>
      let n := fieldOf b 0 2
      let nm := fieldOf b 2 2
      let rk := fieldOf b 4 2
      let rt := fieldOf b 8 8
      if !zeroIn b 6 2 || !zeroIn b 16 48 || nm < 2 || nm ≤ rk then .fail n 1
      else
        match w.groups.find? (fun g => g.group == n && g.block == b) with
        | some g => .ok g
        | none =>
          if s.owners.any (fun p => p.2.groups.any (fun g => g.group == n)) then .fail n 5
          else
            match readTable e s rt nm with
            | .inl t => .fault t
            | .inr tb =>
              if !tableGood nm tb then .fail n 1
              else .ok ⟨BitVec.ofNat 64 gva, b, n, nm, rk, rankTable nm tb, [], false⟩

/-- Open a group on the link unit, or take notice of the failure since its last operation (R407). Log 55, DEDUCED. -/
def openGroup (s : State) (o : Nat) (g : Group) : State :=
  onOwner s o (fun w =>
    { w with groups := if w.groups.any (fun x => x.group == g.group)
        then w.groups.map (fun x => if x.group = g.group then { x with failed := false } else x)
        else w.groups ++ [{ g with failed := false }] })

/-- What a trapped link operation leaves: nothing that it wrote, the group that it opened not open (R6). -/
def linkTrapped (s s1 : State) (o : Nat) (g : Group) : State := if (groupAt s o g.group).isSome then s1 else s

/-- Record a step used in a direction with a peer: 0 sent, 1 received, 2 reduced. -/
def useStep (s : State) (o group dir peer step : Nat) : State :=
  onOwner s o (fun w => { w with groups := w.groups.map (fun g =>
    if g.group = group then { g with used := (dir, peer, step) :: g.used } else g) })

def lkfTrap (group reason step : Nat) : TrapInfo :=
  { mkTrap Cause.lkf (group + reason * 65536) 0 with pos := BitVec.ofNat 64 step }

/-! ## The instructions (R407) -/

/-- The link block, its fields and its group; then what follows. Log 45, DEDUCED. -/
def linkOp (e : Env) (ad : EAddr) (red : Bool) (f : State → LkBlock → Group → XRes) : XRes :=
  let va := eaE e.s e.t ad
  withChk e (blockChk e va) (fun loc =>
    withBytes e loc va 64 (fun s b =>
      let x := lkBlock b
      match findGroup e s x.gva with
      | .fault t => if x.gva % 64 = 0 then .trapC t else .trapT s (lkfTrap 0 1 x.step)
      | .fail g r => .trapT s (lkfTrap g r x.step)
      | .ok g =>
        if x.ok b red then
          match f (openGroup s e.t.o g) x g with
          | .trapT s1 t => .trapT (linkTrapped s s1 e.t.o g) t
          | r => r
        else .trapT s (lkfTrap g.group 1 x.step)))

/-- Whether a thread of the owner already waits on a message of this direction. -/
def othersWait (s : State) (o tid : Nat) (p : Wait → Bool) : Bool :=
  (threadsOf s o).any (fun t => t.tid != tid && (match t.status with
    | .waiting w => p w
    | .held | .ready | .trapped | .parked | .dying => false))

def sendsStep (group peer step : Nat) : Wait → Bool
  | .linkSend g p st _ _ => g == group && p == peer && st == step
  | _ => false

def recvsStep (group peer step : Nat) : Wait → Bool
  | .linkRecv g p st _ _ => g == group && p == peer && st == step
  | _ => false

/-- The reason that refuses LKSEND or LKRECV: 0, 2 or 3. -/
def linkRefused (s : State) (e : Env) (g : Group) (dir peer step : Nat) : Option Nat :=
  let dup := g.used.any (fun u => u.2.2 == step && ((u.1 == dir && u.2.1 == peer) || u.1 == 2))
    || s.reduces.any (fun r => r.o == e.t.o && r.group == g.group && r.step == step)
    || othersWait s e.t.o e.t.tid (if dir = 0 then sendsStep g.group peer step else recvsStep g.group peer step)
  if peer = g.rank ∨ g.nmem ≤ peer then some 2
  else if g.failed || (portAt s (peerPort g peer)).down then some 0
  else if dup then some 3
  else none

/-- The frames that a port holds beyond the first n are a thread's, until they are acknowledged (R79). -/
def oweFrames (s : State) (p n o tid : Nat) : State :=
  onPort s p (fun q => { q with owed := q.owed ++ (q.sent.drop n).map (fun f => (f.seq.toNat, o, tid)) })

/-- A message whose credit is there leaves, and its step is used. -/
def sendNow (s : State) (o tid : Nat) (g : Group) (peer step : Nat) (bs : List Byte) : State :=
  useStep (oweFrames (sendMsg s g peer step 0 bs) (peerPort g peer) (portAt s (peerPort g peer)).sent.length o tid) o g.group 0 peer step

def lksendSem (d : GReg) (ad : EAddr) (e : Env) : XRes :=
  if !releaseNow e.s e.t .sys then .again e.s .release
  else linkOp e ad false (fun s x g =>
    match lkRead s e.w (x.len / 64) x.buf with
    | .inl t => .trapC t
    | .inr bs =>
      match linkRefused s e g 0 x.peer x.step with
      | some r => .trapT s (lkfTrap g.group r x.step)
      | none =>
        if hasCredit s e.t.o g x.peer x.step then .ok (sendNow s e.t.o e.t.tid g x.peer x.step bs) (Wr.ofG d 0)
        else .wait s (.linkSend g.group x.peer x.step (BitVec.ofNat 64 x.buf) x.len))

def execLksend (d : GReg) (ad : EAddr) (s : State) : Host.Outcome State Fault Refusal := runX (.lksend d ad) (lksendSem d ad) s

/-- A whole message taken into a buffer: the new state and the bytes received, or the failing reason or fault. -/
def takeMsg (s : State) (w : Owner) (o : Nat) (g : Group) (peer step buf len : Nat) (m : Nat × List Byte) :
    TrapInfo ⊕ (State × Nat) :=
  if m.1 ≠ 0 ∨ len < m.2.length then .inl (lkfTrap g.group 4 step)
  else
    match lkWritable s w ((m.2.length + 63) / 64) buf with
    | some t => .inl t
    | none =>
      let s := lkWrite w o (m.2.length / 64) buf m.2 s
      .inr (useStep (consumeStep s o g peer step) o g.group 1 peer step, m.2.length)

def lkrecvWr (d : GReg) (n : Nat) : Wr := { Wr.ofG d (BitVec.ofNat 64 n) with acq := some .sys }

def lkrecvSem (d : GReg) (ad : EAddr) (e : Env) : XRes :=
  linkOp e ad false (fun s x g =>
    match lkWritable s e.w (x.len / 64) x.buf with
    | some t => .trapC t
    | none =>
      match linkRefused s e g 1 x.peer x.step with
      | some r => .trapT s (lkfTrap g.group r x.step)
      | none =>
        match wholeMsg s e.t.o g.group x.peer x.step with
        | none => .wait s (.linkRecv g.group x.peer x.step (BitVec.ofNat 64 x.buf) x.len)
        | some m =>
          match takeMsg s e.w e.t.o g x.peer x.step x.buf x.len m with
          | .inl t => .trapT s t
          | .inr (s, n) => .ok s (lkrecvWr d n))

def execLkrecv (d : GReg) (ad : EAddr) (s : State) : Host.Outcome State Fault Refusal := runX (.lkrecv d ad) (lkrecvSem d ad) s

/-! ## Reductions (R29, R242) -/

def redKids (g : Group) : List Nat := [2 * g.rank + 1, 2 * g.rank + 2].filter (· < g.nmem)

/-- The members that a reduction exchanges frames with. -/
def redPeers (g : Group) : List Nat := redKids g ++ (if g.rank = 0 then [] else [(g.rank - 1) / 2])

/-- One node of the tree on whole messages: each element with RNE and FTZ off. -/
def redNode (ty : VType) (op : Nat) (a b : List Byte) : List Byte :=
  let w := ty.width
  let f := fun x y => (if op = 0 then sumNode ty false false x y else if op = 1 then lowNode ty false x y
    else highNode ty false x y).1
  let toN := fun (bs : List Byte) => (bytesVec bs).toNat
  (List.range (a.length / 64)).flatMap (fun i =>
    let x := toN ((a.drop (64 * i)).take 64)
    let y := toN ((b.drop (64 * i)).take 64)
    vecBytes (vecOfEls w ((List.range (512 / w)).map (fun j => f (el w j x) (el w j y)))))

/-- The block format code that a reduction's frames carry. -/
def redFmt (ty : Nat) : Nat := if ty ≤ 4 then ty + 1 else 0

def lkredSem (_ : GReg) (ad : EAddr) (e : Env) : XRes :=
  if !releaseNow e.s e.t .sys then .again e.s .release
  else linkOp e ad true (fun s x g =>
    match lkRead s e.w (x.len / 64) x.buf, lkWritable s e.w (x.len / 64) x.dva with
    | .inl t, u => .trapC ((lowest (some t) u).getD t)
    | .inr _, some t => .trapC t
    | .inr bs, none =>
      let mine := s.reduces.any (fun r => r.o == e.t.o && r.group == g.group && r.step == x.step && r.tid == e.t.tid)
      let dup := g.used.any (fun u => u.2.2 == x.step)
        || s.reduces.any (fun r => r.o == e.t.o && r.group == g.group && r.step == x.step && r.tid != e.t.tid)
        || othersWait s e.t.o e.t.tid (fun w => match w with
          | .linkSend gr _ st _ _ | .linkRecv gr _ st _ _ => gr == g.group && st == x.step
          | _ => false)
      if g.failed || (redPeers g).any (fun p => (portAt s (peerPort g p)).down) then .trapT s (lkfTrap g.group 0 x.step)
      else if dup then .trapT s (lkfTrap g.group 3 x.step)
      else
        let r : Reduce := ⟨e.t.o, e.t.tid, g.group, x.step, vtypeCode x.ty, x.op, redFmt x.ty, BitVec.ofNat 64 x.dva, bs, [],
          false, none, none⟩
        let s := if mine then s else { s with reduces := s.reduces ++ [r] }
        .wait s (.linkRed g.group x.step))

def execLkred (d : GReg) (ad : EAddr) (s : State) : Host.Outcome State Fault Refusal := runX (.lkred d ad) (lkredSem d ad) s

/-- Children's messages that have arrived are taken; one that differs in length or format fails the reduction. -/
def redTake (s : State) (g : Group) (r : Reduce) : State × Reduce :=
  (redKids g).foldl (fun (acc : State × Reduce) k =>
    if acc.2.kids.any (·.1 == k) then acc
    else match wholeMsg acc.1 r.o r.group k r.step with
      | none => acc
      | some m =>
        let s := consumeStep acc.1 r.o g k r.step
        if m.1 ≠ r.fmt ∨ m.2.length ≠ r.own.length then (s, { acc.2 with failed := some 4 })
        else (s, { acc.2 with kids := acc.2.kids ++ [(k, m.2)] })) (s, r)

/-- P(i): the member's own data, then each child's in rank order. -/
def redPartial (g : Group) (r : Reduce) : List Byte :=
  (redKids g).foldl (fun acc k => match r.kids.find? (·.1 == k) with
    | some x => redNode r.ty r.op acc x.2
    | none => acc) r.own

/-- One step of a reduction: take what has arrived, send up when whole, take the result from above. -/
def redStep (s : State) (g : Group) (r : Reduce) : State × Reduce :=
  let p := redTake s g r
  let s := p.1
  let r := p.2
  if r.failed.isSome || (redKids g).any (fun k => !r.kids.any (·.1 == k)) then (s, r)
  else if g.rank = 0 then (s, { r with result := some (redPartial g r) })
  else
    let up := (g.rank - 1) / 2
    let s' := if !r.sentUp && hasCredit s r.o g up r.step then (sendMsg s g up r.step r.fmt (redPartial g r), true) else (s, r.sentUp)
    let r := { r with sentUp := s'.2 }
    match r.sentUp, wholeMsg s'.1 r.o r.group up r.step with
    | true, some m =>
      let s := consumeStep s'.1 r.o g up r.step
      if m.1 ≠ r.fmt ∨ m.2.length ≠ r.own.length then (s, { r with failed := some 4 }) else (s, { r with result := some m.2 })
    | _, _ => (s'.1, r)

/-- A reduction with its result ends once every child has credit for it: the result goes down, is written to DVA, and
the waiting thread goes on. -/
def redEnd (s : State) (w : Owner) (g : Group) (r : Reduce) : TrapInfo ⊕ Option State :=
  match r.failed, r.result with
  | some n, _ => .inl (lkfTrap r.group n r.step)
  | none, none => .inr none
  | none, some bs =>
    if (redKids g).any (fun k => !hasCredit s r.o g k r.step) then .inr none
    else
      match lkWritable s w (bs.length / 64) r.dva.toNat with
      | some t => .inl t
      | none =>
        let s := (redKids g).foldl (fun s k => sendMsg s g k r.step r.fmt bs) s
        let s := lkWrite w r.o (bs.length / 64) r.dva.toNat bs s
        .inr (some (useStep s r.o r.group 2 0 r.step))

end Sys2Proof.Machine
end

