-- ==== Sys2Proof/Machine/System.lean ====
section
/-!
DEFINITION. Special registers, thread control, SKIMW, launching and spawning (R65, R146 to R154, R385 to R391).
-/

namespace Sys2Proof.Machine

/-! ## Special registers (R146 to R154, R385) -/

/-- Registers whose values depend on timing (R146). -/
def spPlumb (r : Nat) : Bool := r == 0x06 || r == 0x07 || r == 0x0D || r == 0x0E || r == 0x0F

/-- %orid (R151). -/
def oridOf (t : Thread) : Word := BitVec.ofNat 64 (t.tid + t.inc * 2 ^ 32 + t.stage * 2 ^ 48)

/-- %win (R153). -/
def winOf (t : Thread) : Word :=
  BitVec.ofNat 64 (t.gbase + t.gsize * 2 ^ 11 + t.vbase * 2 ^ 19 + t.vsize * 2 ^ 28 + t.sbase * 2 ^ 34
    + t.sbanks * 2 ^ 42)

/-- %skim (R64). -/
def skimOf (s : State) (o : Nat) (w : Owner) : Word :=
  BitVec.ofNat 64 (w.gen % 2 ^ 48 + (if inWarn s o then 2 ^ 63 else 0))

/-- %ckadv (R67). -/
def ckadvOf (w : Owner) : Word :=
  BitVec.ofNat 64 (w.adv + w.advSrc * 2 ^ 16 + (if w.standing.isSome then 2 ^ 19 else 0) + (if w.auto then 2 ^ 20 else 0))

/-- %tsram (R156). -/
def tsramOf (c : Core) : Word := BitVec.ofNat 64 (c.spn + c.xb * 2 ^ 8 + (if c.xph then 2 ^ 16 else 0))

/-- %mxstall (R87). -/
def mxstallOf (k : Cluster) (budget : Nat) : Word := BitVec.ofNat 64 (k.stall % 2 ^ 48 + budget * 2 ^ 48)

def onCoreOf (e : Env) (f : Core → Word) : Word :=
  match core? e.s e.t.o e.t.core with
  | some c => f c
  | none => 0

def onClusOf (e : Env) (f : Cluster → Word) : Word :=
  match clus? e.s e.t.o (e.t.core / 8) with
  | some c => f c
  | none => 0

/-- The value of a special register before this bundle. -/
def readSp (e : Env) (r : Nat) : Word :=
  match r with
  | 0x00 => e.t.fpc
  | 0x01 => e.t.stat
  | 0x02 => BitVec.ofNat 64 featBits
  | 0x03 => BitVec.ofNat 64 isaLevel
  | 0x04 => oridOf e.t
  | 0x05 => BitVec.ofNat 64 e.w.nclus
  | 0x06 => onCoreOf e (fun c => BitVec.ofNat 64 c.cyc)
  | 0x07 => BitVec.ofNat 64 (timeNs e.s)
  | 0x08 => e.t.rngs0
  | 0x09 => e.t.rngs1
  | 0x0A => e.t.rngk
  | 0x0B => e.t.wlim.setWidth 64
  | 0x0C => e.t.trapc
  | 0x0D => onClusOf e (fun k => mxstallOf k (engineAt e.s (clusPlace e.s e.t.o (e.t.core / 8))).budget)
  | 0x0E => skimOf e.s e.t.o e.w
  | 0x0F => ckadvOf e.w
  | 0x10 => winOf e.t
  | 0x11 => onCoreOf e tsramOf
  | _ => getD 0 e.t.wp (r - 0x14)

def mfsSem (d : GReg) (r : BitVec 8) (e : Env) : XRes :=
  if e.w.plumb && spPlumb r.toNat then .trapC (mkTrap Cause.plumb 0 0) else e.give d (readSp e r.toNat)

def execMfs (d : GReg) (r : BitVec 8) (s : State) : Host.Outcome State Fault Refusal := runX (.mfs d r) (mfsSem d r) s

/-! ## Dispositions (R126, R127) -/

structure Disp where
  tid  : Nat
  disp : Nat
  setw : Bool
  mbz  : Bool
  wlim : BitVec 32
deriving DecidableEq, Repr

def dispOf (v : Word) : Disp :=
  ⟨(v.extractLsb' 0 24).toNat, (v.extractLsb' 24 2).toNat, v.getLsbD 26, v.extractLsb' 27 5 == 0, v.extractLsb' 32 32⟩

/-- Whether a skip of a kept record is refused: a synchronous trap whose bundle has no readable length. -/
def skipRefused (k : Kept) : Bool := !k.trap.async && k.len.isNone

/-- Whether a disposition is accepted. -/
def dispOk (s : State) (o : Nat) (d : Disp) : Bool :=
  match thr? s o d.tid with
  | none => false
  | some u =>
    u.status == .parked && d.disp != 3 && d.mbz
      && (match u.kept with
          | some k => !(d.disp == 2 && skipRefused k)
          | none => false)

/-- What a replay does to the item of an asynchronous trap or a JOBF: a refused entry is sent again, a suspended job
restarts (R124, R131). -/
def replayItem (s : State) (o : Nat) (i : Item) : State :=
  match i with
  | .none => s
  | .journal j q => onCore s o j (fun c =>
      { c with journal := c.journal.map (fun x => if x.seq = q then { x.unsent with phase := .ready } else x) })
  | .job k id => restartJob s o k id

/-- What a skip does to it: the store or message fails with a record, the job fails as cancelled (R126). -/
def skipItem (s : State) (o : Nat) (k : Kept) : State :=
  match k.item with
  | .none => s
  | .journal _ _ => failItem s o k.item
  | .job c id => if k.trap.cause = Cause.jobf then cancelJob s o c id else s

/-- The message that a thread waits to send or to receive. -/
def linkWait (t : Thread) : Option (Nat × Nat) :=
  match t.status with
  | .waiting (.linkSend g _ st _ _) => some (g, st)
  | .waiting (.linkRecv g _ st _ _) => some (g, st)
  | _ => none

/-- A message of a link item that fails. -/
def logLink (s : State) (o : Nat) (m : Nat × Nat) : State := logItem s o 0 0 9 (m.1 * 2 ^ 32 + m.2) 0 true false

/-- A victim's issue stops and its drain begins (R79). -/
def stopThread (s : State) (t : Thread) : State :=
  { s with threads := put s.threads (thrKey t.o t.tid) { t with status := .dying, waitAt := s.fab, wcount := none, walks := [],
                                                                 mig := none, linkItem := linkWait t } }

/-- A thread is killed: its record is logged, its items take their fates, and it leaves as at HALT (R79, R117). -/
def killThread (s : State) (o tid : Nat) : State :=
  match thr? s o tid with
  | none => s
  | some t =>
    let s := match t.kept with
      | some k => logTrap s t k.trap
      | none => s
    stopThread s t

/-- The disposition of a parked thread (R126): kill, replay or skip, with an acquire at .pkg on resumption (R127). -/
def disposeOf (s : State) (o : Nat) (d : Disp) : State :=
  match thr? s o d.tid with
  | none => s
  | some u =>
    let s := if d.setw then onThr s o d.tid (fun t => { t with wlim := d.wlim }) else s
    match u.kept with
    | none => s
    | some k =>
      if d.disp = 0 then killThread s o d.tid
      else if d.disp = 1 then acquire (onThr (replayItem s o k.item) o d.tid returnReplay) o d.tid .pkg
      else acquire (onThr (skipItem s o k) o d.tid returnSkip) o d.tid .pkg

/-- %trapc after a write: the fields written, with ACK (R126). -/
def trapcAfter (v : Word) (ok : Bool) : Word := (v &&& 0xFFFFFFFF07FFFFFF) ||| (if ok then 0x08000000 else 0)

/-- Whether a disposition is held until the target's migration has ended (R141). A write that a save's pause would hold
(R136) does not arise: no thread of the owner issues then, and a write takes effect within its bundle. -/
def dispHeld (s : State) (o tid : Nat) : Bool :=
  match thr? s o tid with
  | some u => u.mig.isSome
  | none => false

def trapcSem (a : GReg) (e : Env) : XRes :=
  let v := e.g a
  let d := dispOf v
  if !releaseNow e.s e.t .pkg then .again e.s .release
  else if dispHeld e.s e.t.o d.tid then .again e.s (.disp d.tid)
  else
    let ok := dispOk e.s e.t.o d
    let s := if ok then disposeOf e.s e.t.o d else e.s
    .ok (onThr s e.t.o e.t.tid (fun t => { t with trapc := trapcAfter v ok })) Wr.none

def mtsSem (a : GReg) (r : BitVec 8) (e : Env) : XRes :=
  if r = 0x0C then trapcSem a e else .ok e.s (Wr.ofSp r (e.g a))

def execMts (a : GReg) (r : BitVec 8) (s : State) : Host.Outcome State Fault Refusal := runX (.mts a r) (mtsSem a r) s

/-! ## Thread control (R386 to R389) -/

def trapSem (n : BitVec 4) (a : GReg) (e : Env) : XRes := .trapC (mkTrap (0x20 + n.toNat) (e.g a).toNat 0)

def execTrap (n : BitVec 4) (a : GReg) (s : State) : Host.Outcome State Fault Refusal := runX (.trap n a) (trapSem n a) s

def haltSem (e : Env) : XRes := .ok e.s { Wr.none with fin := .halt }

def execHalt (s : State) : Host.Outcome State Fault Refusal := runX .halt haltSem s

def haltRetainSem (k : BitVec 4) (e : Env) : XRes := .ok e.s { Wr.none with fin := .retain k.toNat }

def execHaltRetain (k : BitVec 4) (s : State) : Host.Outcome State Fault Refusal :=
  runX (.haltRetain k) (haltRetainSem k) s

def yieldSem (e : Env) : XRes := .ok e.s { Wr.none with fin := .yield }

def execYield (s : State) : Host.Outcome State Fault Refusal := runX .yield yieldSem s

def nopSem (e : Env) : XRes := .ok e.s Wr.none

def execNop (s : State) : Host.Outcome State Fault Refusal := runX .nop nopSem s

def execNopLong (imm : BitVec 16) (ext : BitVec 32) (s : State) : Host.Outcome State Fault Refusal :=
  runX (.nopLong imm ext) nopSem s

/-- RDCYC: the core's cycles, or in plumb mode the own slots that came before this one (R389). -/
def rdcycSem (d : GReg) (e : Env) : XRes :=
  if e.w.plumb then e.give d (BitVec.ofNat 64 (e.t.slots.getD 0)) else e.give d (readSp e 0x06)

def execRdcyc (d : GReg) (s : State) : Host.Outcome State Fault Refusal := runX (.rdcyc d) (rdcycSem d) s

/-- SKIMW (R65). -/
def skimwSem (d a : GReg) (e : Env) : XRes :=
  let want := ((e.g a).extractLsb' 0 48).toNat
  if e.w.plumb then .trapC (mkTrap Cause.plumb 0 0)
  else if e.w.gen % 2 ^ 48 = want then .wait e.s (.skim want)
  else e.give d (BitVec.ofNat 64 (e.w.gen % 2 ^ 48))

def execSkimw (d a : GReg) (s : State) : Host.Outcome State Fault Refusal := runX (.skimw d a) (skimwSem d a) s

/-! ## LAUNCH and SPAWN (R390, R391) -/

/-- A result, or 2^63 plus a reason. -/
def idOrReason : Nat ⊕ Nat → Word
  | .inl id => BitVec.ofNat 64 id
  | .inr c => BitVec.ofNat 64 (2 ^ 63 + c)

def launchSem (d a b : GReg) (e : Env) : XRes :=
  if !releaseNow e.s e.t .pkg then .again e.s .release
  else
    let p := launchIn e.s e.t.o e.w (e.g a).toNat (e.g b) e.t.rngk
    .ok p.1 (Wr.ofG d (idOrReason p.2))

def execLaunchInstr (d a b : GReg) (s : State) : Host.Outcome State Fault Refusal :=
  runX (.launchInstr d a b) (launchSem d a b) s

/-- Whether a core's retained set for a stage is not yet to be handed on (R198, log 82, DEDUCED). -/
def setWaits (s : State) (o lid k j : Nat) : Bool :=
  match core? s o j with
  | some c => (match retainedFor c lid k with
    | some r => !setReady s o r
    | none => false)
  | none => false

def spawnSem (d a b : GReg) (e : Env) : XRes :=
  if !releaseNow e.s e.t .pkg || setWaits e.s e.t.o e.t.launch ((e.g a).toNat % 16) (e.g b).toNat then .again e.s .release
  else
    let p := spawnOn e.s e.t.o e.w e.t.launch ((e.g a).toNat % 16) (e.g b).toNat
    .ok p.1 (Wr.ofG d (idOrReason p.2))

def execSpawn (d a b : GReg) (s : State) : Host.Outcome State Fault Refusal := runX (.spawn d a b) (spawnSem d a b) s

end Sys2Proof.Machine
end

