-- ==== Sys2Proof/Machine/Kill.lean ====
section
/-!
DEFINITION. Traps reach the scheduler (R123 to R125), and what happens when a thread or an owner is killed (R79, R81,
R121).
-/

namespace Sys2Proof.Machine

/-! ## The fates of a killed thread's items (R79) -/

/-- The access that a killed thread's bundle waited in. Not performed, it fails with no effect; combined at a switch, its
effect is that of the combined request, unknown until it has been served; with its reply come or coming, the effect at the slice stands, and a sealed operation is complete.
Log 60, DEDUCED. -/
def failAccess (s : State) (t : Thread) : Option State :=
  let qs := s.reqs.filter (fun r => r.o == t.o && r.tid == t.tid && r.kind.itemKind != 0)
  let done := fun (q : Req) => (s.combines.find? (fun c => c.upper.id == q.id || c.lower.id == q.id)).bind (fun c => s.replies.find? (·.id == c.id))
  let ps := s.replies.filter (fun p => p.o == t.o && p.tid == t.tid) ++ t.got
  let s' := onThr { s with reqs := s.reqs.filter (fun r => !(r.o == t.o && r.tid == t.tid && r.kind.itemKind != 0 && r.combined.isNone)),
                           replies := s.replies.filter (fun p => !(p.o == t.o && p.tid == t.tid)) } t.o t.tid (fun t => { t with got := [], pend := none })
  match qs.head?, ps.head?, t.pend with
  | none, none, _ | none, some _, none => if ps.isEmpty then none else some s'
  | some q, _, _ => if q.combined.isSome && t.pend.isNone then none
    else some (logNamed s' t.o q.core 0 q.kind.itemKind t.tid q.pa
        (q.combined.isNone || (done q).isSome) ((done q).any (·.trap.isNone)) (q.sealName s))
  | none, some p, some b =>
    if b.itemKind = 7 ∧ p.trap.isNone then some s'
    else some (logNamed s' t.o t.core 0 b.itemKind t.tid 0 true p.trap.isNone (b.sealName s t))

/-- A journal entry of a killed thread or owner: an acknowledged one is complete and only leaves; a refused one has its own
record when its thread goes; any other fails, known not to be applied. -/
def failEntry (s : State) (o : Nat) (mine : JEnt → Bool) : Option State :=
  s.cores.findSome? (fun p =>
    if p.1 / 1024 = o then
      (p.2.journal.find? (fun e => mine e && (match e.phase with
        | .acked | .refused _ _ _ => false
        | .ready | .refusing _ | .late | .busy _ => true))).map (fun e =>
          logItem (onCore s o (p.1 % 1024) (fun c => { c with journal := c.journal.filter (·.seq != e.seq) }))
            o (p.1 % 1024) 0 3 e.seq 0 true false)
    else none)

/-- A job of a killed thread or owner: a running one whose last chunk or block has landed completes; any other fails with a
record of its positions. -/
def failOneJob (s : State) (o : Nat) (mine : Job → Bool) : Option State :=
  s.cores.findSome? (fun p =>
    if p.1 / 1024 = o then
      (p.2.jobs.find? mine).map (fun b =>
        let k := p.1 % 1024
        let s := match owner? s o with
          | some w => if b.isRunning && b.landed then endJob s w o k b.kind.isMx b else s
          | none => s
        failJob s o k b.id b.cause)
    else none)

/-! ### Link items -/

/-- Frames of a message that are still held without an ack, none of it failed before. -/
def heldMsgs (q : Port) : List (Nat × Nat) :=
  ((q.sent.filter (fun f => f.type == 1 && !q.failed.contains f.seq.toNat)).map (fun f => (f.group.toNat, f.step.toNat))).dedup

/-- Messages that an owner has on its links, not acknowledged yet. -/
def ownMsgs (s : State) (w : Owner) : List (Nat × Nat) :=
  s.ports.flatMap (fun p => (heldMsgs p.2).filter (fun m => w.groups.any (·.group == m.1)))

/-- Messages of a thread's LKSENDs that no ack has freed. -/
def threadMsgs (s : State) (o tid : Nat) : List (Nat × Nat) :=
  s.ports.flatMap (fun p => heldMsgs { p.2 with sent := p.2.sent.filter (fun f => p.2.owed.contains (f.seq.toNat, o, tid)) })

/-- A message that is still held has failed: it is reported no second time. Its frames stay with their port, whose numbers
run on without a gap, until an ack frees them (R27). Log 89, DEDUCED. -/
def giveUpMsg (s : State) (m : Nat × Nat) : State :=
  { s with ports := s.ports.map (fun p =>
      (p.1, { p.2 with failed := p.2.failed ++ ((p.2.sent.filter (fun f => f.type == 1 && (f.group.toNat, f.step.toNat) == m)).map
        (·.seq.toNat)).filter (fun q => !p.2.failed.contains q) })) }

def failMsg (s : State) (o : Nat) (m : Nat × Nat) : State := logLink (giveUpMsg s m) o m

/-- A link item of a killed thread: a reduction, a message that it sent, or the operation that it waited in. -/
def failLink (s : State) (t : Thread) : Option State :=
  match s.reduces.find? (fun r => r.o == t.o && r.tid == t.tid), threadMsgs s t.o t.tid, t.linkItem with
  | some r, _, _ => some (failMsg { s with reduces := s.reduces.filter (· != r) } t.o (r.group, r.step))
  | none, m :: _, _ => some (failMsg s t.o m)
  | none, [], some m => some (logLink (onThr s t.o t.tid (fun t => { t with linkItem := none })) t.o m)
  | none, [], none => none

/-- The fate of the next item of a killed thread; with every item decided, the thread leaves. -/
def nextFate (s : State) (o tid : Nat) : Option State :=
  match thr? s o tid with
  | none => none
  | some t =>
    match failAccess s t with
    | some s => some s
    | none => match failEntry s o (fun e => e.tid == tid && !e.orphan) with
      | some s => some s
      | none => match failOneJob s o (fun b => b.tid == tid && !b.orphan) with
        | some s => some s
        | none => match failLink s t with
          | some s => some s
          | none => some (endThread { s with walks := s.walks.map (fun k =>
              if k.o = o then { k with joined := k.joined.erase tid } else k) } t none)

/-- Kill processing goes on item by item and stops while the ring is full (R81). -/
def runFates (f : State → Option State) : Nat → State → State
  | 0, s => s
  | n + 1, s =>
    if logFull s then s
    else match f s with
      | some s => runFates f n s
      | none => s

/-- One range record of consecutive items, or the record of a single one (R81). Log 70, DEDUCED. -/
def logRange (s : State) (o place itemk item n : Nat) : State :=
  if n = 0 then s
  else addLog s { blankLog with kind := if n = 1 then 2 else 3, owner := o, place := place, itemk := itemk, item := item, count := n, flags := 1 }

/-- A launch of a killed owner goes, with the elements of its stage queues that nothing has consumed, by the queue's control
line. -/
def failLaunch (s : State) (o : Nat) (w : Owner) : Option State :=
  (s.launches.find? (fun p => p.1 / 2 ^ 32 == o)).map (fun p =>
    p.2.queues.zipIdx.foldl (fun s q =>
      match ownerRead s w o q.1.qva.toNat 16 with
      | some bs => logRange s o 0 5 (q.2 * 2 ^ 32 + fieldOf bs 0 8 % 2 ^ 32) ((fieldOf bs 8 8 + 2 ^ 64 - fieldOf bs 0 8) % 2 ^ 64)
      | none => s) { s with launches := drop s.launches p.1 })

/-- Work-list entries of a core that nothing has popped. -/
def failWork (s : State) (o : Nat) : Option State :=
  (s.cores.find? (fun p => p.1 / 1024 == o && !p.2.work.isEmpty)).map (fun p =>
    logRange (onCore s o (p.1 % 1024) (fun c => { c with work := [] })) o
      (whereOf (placeOf s o (p.1 % 1024)) 0) 6 (p.1 % 1024 * 2 ^ 32) p.2.work.length)

/-- The fate of the next item of a killed owner: its threads' items first, then those of threads that have ended, its
launches and its work lists, and what it has on its links (R79). -/
def nextOwnerFate (o : Nat) (s : State) : Option State :=
  match owner? s o, (threadsOf s o).head? with
  | none, _ => none
  | some _, some t => nextFate s o t.tid
  | some w, none =>
    match failEntry s o (fun _ => true) with
    | some s => some s
    | none => match failOneJob s o (fun _ => true) with
      | some s => some s
      | none => match failLaunch s o w with
        | some s => some s
        | none => match failWork s o with
          | some s => some s
          | none => (ownMsgs s w).head?.map (failMsg s o)

/-! ## Killing an owner (R79) -/

/-- The owner's issue and its chunks stop at once; the drain begins. -/
def stopOwner (s : State) (o : Nat) : State :=
  let s := (threadsOf s o).foldl stopThread (abandonAll s o)
  onOwner s o (fun w => { w with killed := true, killAt := s.fab })

/-- An owner is killed. -/
def killOwner (s : State) (o cause : Nat) : State :=
  match owner? s o with
  | none => s
  | some w => if w.killed then s else stopOwner (logOf s o 9 cause 0 0) o

/-- The highest fill epoch of an owner's banks (R180). -/
def topEpoch (s : State) (o : Nat) : Nat :=
  (s.cores.flatMap (fun p => if p.1 / 1024 = o then p.2.epochs.map (·.2) else [])).foldl Nat.max 0

/-- Everything that an owner's positions hold goes: cores, clusters, registers, scratchpads and B SRAM. Fill epochs go on
above those given, so that no token of the owner's is met again (R180). -/
def emptyColumns (s : State) (o : Nat) : State :=
  { s with
    epochTop := Nat.max s.epochTop (topEpoch s o),
    cores := clearRange s.cores (coreKey o 0) 1024,
    clusters := clearRange s.clusters (clusKey o 0) 128,
    gfile := clearRange s.gfile (gKey o 0 0) (1024 * 2048),
    vfile := clearRange s.vfile (vKey o 0 0) (1024 * 512),
    spad := clearRange s.spad (spadKey o 0 0) (1024 * 2 ^ 20),
    spadFE := clearRange s.spadFE (granKey o 0 0) (1024 * 2 ^ 16),
    spadPz := clearRange s.spadPz (spadBlk o 0 0) (1024 * 2 ^ 14),
    bsram := clearRange s.bsram (bKey o 0 0) (128 * 2 ^ 23),
    bdesc := clearRange s.bdesc (bBlk o 0 0) (128 * 2 ^ 17),
    bpz := clearRange s.bpz (bBlk o 0 0) (128 * 2 ^ 17) }

/-- What the owner has on its way goes. -/
def emptyNet (s : State) (o : Nat) : State :=
  { s with
    reqs := s.reqs.filter (·.o != o), replies := s.replies.filter (·.o != o), walks := s.walks.filter (·.o != o),
    combines := s.combines.filter (·.upper.o != o), rwrites := s.rwrites.filter (·.o != o),
    barriers := s.barriers.filter (·.o != o), reduces := s.reduces.filter (·.o != o) }

/-- Positions return to the free ones. A ramp that runs on a column goes on there, charged to the owner that leaves it
(R89). -/
def freePositions (s : State) (o : Nat) : State :=
  let t := s.table.map (fun p => if p.2.own = some o then (p.1, { p.2 with own := none, lcl := 0 }) else p)
  { s with table := t.filter (fun p => p.2 != Pos.vacant (p.1 % 12)),
           engines := s.engines.map (fun e => match lookup s.table e.1 with
             | some p => if p.own = some o then (e.1, { e.2 with payer := e.2.payer.or (some o) }) else e
             | none => e) }

/-- The owner is left not placed, its extents intact. -/
def unplace (s : State) (o : Nat) : State :=
  onOwner (freePositions (emptyNet (emptyColumns s o) o) o) o (fun w =>
    { w with placed := false, launched := false, map := [], undelivered := [], warn := false, saving := false, frozen := false, exch := [], doneq := [] })

/-- A save whose owner is killed: both STATEs read failed, its other owners resume (R74). -/
def dropSave (o : Nat) (s : State) (v : SaveRun) : State :=
  if v.restore || !v.owners.contains o then s
  else thaw (loseCopy (loseCopy s v.dirA) v.dirB) (v.owners.filter (· != o)) (if v.til ≤ s.fab then s.fab - v.til else 0)

/-- Running commands of a killed owner, and the whole device's saves that it is in, complete with FAULTED (R38, R74).
Log 67, DEDUCED. -/
def faultCmds (s : State) (o : Nat) : State :=
  let gone := s.saves.filter (fun v => !v.restore && v.owners.contains o)
  let s := s.saves.foldl (dropSave o) s
  let hit := fun (c : Cmd) => c.phase == .running && c.op != 2 && (c.owner == o || gone.any (·.cmd == some c.n))
  let left := s.saves.filter (fun v => v.restore || !v.owners.contains o)
  { s with cmds := s.cmds.map (fun c => if hit c then { c with phase := .done 0x000B 0 } else c),
           saves := left, saving := s.saving && left.any (fun v => v.device && !v.restore) }

/-- Whether the kill drain of a thread has still to wait: for its requests, replies, posted stores and link messages, and for a
chunk of a job of its own that may end (R58, R79, R265). -/
def threadMoves (s : State) (o tid : Nat) : Bool :=
  s.reqs.any (fun r => r.o == o && r.tid == tid && !r.held) || s.replies.any (fun p => p.o == o && p.tid == tid)
    || !(threadMsgs s o tid).isEmpty
    || s.cores.any (fun p => p.1 / 1024 == o && p.2.journal.any (fun e => e.tid == tid && !e.orphan && entryMoves s o e))
    || (match runOf s o (tidClus tid) with
        | some (r, b, _) => b.tid == tid && !b.orphan && midChunk r b
        | none => false)

/-- The kill drain lasts at most 8 microseconds, 11,200 fabric cycles. -/
def drainOver (s : State) (o : Nat) (tid : Option Nat) (since : Nat) : Bool :=
  since + 11200 ≤ s.fab || (match tid, owner? s o with
    | some t, _ => !threadMoves s o t
    | none, some w => drained s false (· == o) && (ownMsgs s w).isEmpty
    | none, none => true)

/-- Fates that one act can decide. -/
def fateSteps : Nat := 2 ^ 40

/-- Every item has its fate: the owner's reclaim walks run to their ends, and it leaves its positions. -/
def leavePlace (s : State) (o : Nat) : State :=
  match owner? s o with
  | none => s
  | some w => faultCmds (unplace (finishReclaims w o fateSteps s) o) o

def execKillDrainEnd (o : Nat) (tid : Option Nat) (s : State) : Host.Outcome State Fault Refusal :=
  if logFull s || paused s then .next s
  else
    match tid with
    | some x => match thr? s o x with
      | some t =>
        if t.status = .dying ∧ drainOver s o tid t.waitAt then .next (runFates (fun s => nextFate s o x) fateSteps s) else .next s
      | none => .next s
    | none => match owner? s o with
      | some w =>
        if w.killed && w.placed && drainOver s o none w.killAt then
          let s := runFates (nextOwnerFate o) fateSteps s
          .next (if logFull s || (nextOwnerFate o s).isSome then s else leavePlace s o)
        else .next s
      | none => .next s

/-! ## TRAP_DISPATCH (R124, R125) -/

/-- The action and handler of the owner's table for a cause. -/
def actionFor (w : Owner) (cause : Nat) : Nat × Nat := getD (0, 0) w.actions cause

/-- The action applied: a forward without a live handler other than the thread itself, and the 256th consecutive
replay, become park. -/
def actionOf (s : State) (w : Owner) (t : Thread) (k : Kept) : Nat :=
  let a := actionFor w k.trap.cause
  if a.1 = 3 then
    match thr? s t.o a.2 with
    | some h => if a.2 = t.tid ∨ h.status = .dying then 2 else 3
    | none => 2
  else if a.1 = 1 ∧ 255 ≤ replays t k.trap.pc k.trap.cause then 2
  else a.1

/-- A record to its handler's inbox, or pending, in SEQ order, while the inbox is full or earlier records are pending
(R125). -/
def forwardTo (s : State) (o h : Nat) (r : TrapRec) : State :=
  match thr? s o h, owner? s o with
  | some t, some w =>
    if t.inbox.length < 8 && w.undelivered.all (·.1 != h) then onThr s o h (fun t => { t with inbox := t.inbox ++ [r] })
    else onOwner s o (fun w => { w with undelivered := w.undelivered ++ [(h, r)] })
  | _, _ => s

def parkThread (s : State) (o tid code : Nat) : State :=
  onThr s o tid (fun t => { t with status := .parked, kept := t.kept.map (fun k => { k with trap := { k.trap with action := code } }) })

/-- A stream whose fetch fault is held fetches again from its committed position as its bundle is replayed (R131). -/
def refetch (t : Thread) : Thread :=
  { t with streams := t.streams.map (fun x => match x.fetched.head? with
      | some (.fault _ _ _) => x.forget
      | some _ | none => x) }

def dispatch (s : State) (w : Owner) (t : Thread) (k : Kept) : State :=
  let r := fun (c : Nat) => { k.trap with action := c }
  match actionOf s w t k with
  | 0 => killThread s t.o t.tid
  | 1 => onThr (replayItem s t.o k.item) t.o t.tid (fun t => returnReplay (refetch t))
  | 2 => logTrap (parkThread s t.o t.tid 2) t (r 2)
  | _ => forwardTo (parkThread s t.o t.tid 3) t.o (actionFor w k.trap.cause).2 (r 3)

/-- A forwarded record is a release at .pkg: what its thread issued before is performed, acknowledged and applied on every
die; an entry that was refused has failed (R197, R198). -/
def recordReady (s : State) (t : Thread) : Bool :=
  s.reqs.all (fun r => !(r.o == t.o && r.tid == t.tid && r.kind.isAccess))
    && s.cores.all (fun p => p.1 / 1024 != t.o || p.2.journal.all (fun e => e.tid != t.tid || e.orphan || (match e.phase with
      | .refused _ _ _ => true
      | .ready | .acked | .refusing _ | .late | .busy _ => false)))
    && s.rwrites.all (fun x => !(x.o == t.o && x.tid == t.tid) || x.pending.isEmpty)

def execTrapDispatch (o tid : Nat) (s : State) : Host.Outcome State Fault Refusal :=
  match thr? s o tid, owner? s o with
  | some t, some w =>
    match t.kept with
    | some k =>
      if t.status = .trapped ∧ !stopped s o ∧ t.mig.isNone ∧ !(actionOf s w t k == 0 && logFull s)
          ∧ (actionOf s w t k ≠ 3 ∨ recordReady s t) then .next (dispatch s w t k)
      else .next s
    | none => .next s
  | _, _ => .next s

end Sys2Proof.Machine
end

