-- ==== Sys2Proof/Machine/Commands.lean ====
section
/-!
DEFINITION. Commands of the ring but for saves and restores: their order (R35), CREATE (R37 to R40, R45, R213), DESTROY
(R45), LAUNCH (R100), SETCIRC and READLOG (R37, R80, R409), and the end of a command (R35).
-/

namespace Sys2Proof.Machine

/-! ## Order and completion (R35, R38) -/

def wholeDevice : Nat := 0xFFFFFFFF

/-- Whether an entry acts on the whole device; CREATE does not read OWNER. -/
def Cmd.all (c : Cmd) : Bool := c.op != 1 && c.owner == wholeDevice

def Cmd.fence (c : Cmd) : Bool := c.flags / 2 % 2 == 1 || c.all

/-- Whether two entries are for the same owner. -/
def sameOwner (a b : Cmd) : Bool := a.op != 1 && b.op != 1 && a.owner == b.owner

/-- Whether an entry may start: after every earlier one where it is a fence, otherwise after those of its owner and
those that act on the whole device. -/
def mayStart (s : State) (c : Cmd) : Bool :=
  let before := s.cmds.takeWhile (·.n != c.n)
  if c.fence then before.isEmpty else before.all (fun b => !b.all && !sameOwner b c)

/-- The entry that an event names, where it is of the named command and starts now. -/
def cmdNow (s : State) (n op : Nat) : Option Cmd :=
  match s.cmds.find? (·.n == n) with
  | some c => if c.op = op ∧ c.phase = .taken ∧ mayStart s c ∧ accepting s then some c else none
  | none => none

def onCmd (s : State) (n : Nat) (f : Cmd → Cmd) : State := { s with cmds := s.cmds.map (fun c => if c.n = n then f c else c) }

/-- RESULT and then STATUS are written to the entry, and MSI-X vector 0 is sent where both enables are set. An
entry that is refused has RESULT 0, but where a rule names it. Log 83, DESIGN CHOICE. -/
def finish (s : State) (c : Cmd) (status result : Nat) : State :=
  let s := writeAt s (.mem (c.entry + 32)) (listOfWord (BitVec.ofNat 64 result) 8)
  let s := writeAt s (.mem (c.entry + 2)) (listOfWord (BitVec.ofNat 64 status) 2)
  let ring := ringRange s
  let s := { s with cmds := s.cmds.filter (·.n != c.n), msix := if c.flags % 2 = 1 ∧ s.cqirq then s.msix + 1 else s.msix }
  if s.cqen || !s.cmds.isEmpty then s else restOctets s ring

/-- Whether a command that needs the owner quiet, or places it, waits for the table swap of a pause (R38). -/
def beforeSwap (s : State) : Bool :=
  match s.trowel with
  | .drain | .chunk | .stream | .swap => true
  | .run | .warn | .resume => false

/-! ## The owner control block (R39, R40, R213) -/

def ocbBytes : Nat := 768

/-- Reserved cause codes (R122). -/
def causeReserved (c : Nat) : Bool := c == 0 || (0x17 ≤ c && c < 0x20) || 0x30 ≤ c

/-- The positions of POSMASK in ascending (die, col). -/
def posMask (b : List Byte) : List (Nat × Nat) :=
  (List.range 8).flatMap (fun d => (List.range 12).filterMap (fun c =>
    if fieldOf b (0x10 + 2 * d) 2 / 2 ^ c % 2 = 1 then some (d, c) else none))

/-- Valid extents. -/
def ocbExtents (b : List Byte) : List Extent :=
  (List.range 16).filterMap (fun e =>
    let x := fieldOf b (0x108 + 16 * e) 8
    if x / 2 ^ 32 % 2 = 1 then some ⟨fieldOf b (0x100 + 16 * e) 8, x % 2 ^ 32, x / 2 ^ 33 % 2 == 1⟩ else none)

/-- A valid extent reaches neither a hole nor the reserved range. -/
def extentOk (e : Extent) : Bool :=
  e.len == 0 || inHbm e.base (e.len * 65536) || (hostBase ≤ e.base && e.base + e.len * 65536 ≤ 2 ^ 52)

def actionOk (nclus c x : Nat) : Bool :=
  let h := x / 256
  x / 4 % 64 == 0 && (!causeReserved c || x == 0) && (x % 4 != 3 || (h / 4096 < nclus && h % 512 ≤ 63))

/-- A 64 KiB aligned 52-bit address. -/
def pageAddr (x : Nat) : Bool := x % 65536 == 0 && x < 2 ^ 52

/-- The must-be-zero bits and ranges of the block. -/
def ocbOk (b : List Byte) : Bool :=
  let n := fieldOf b 8 8
  pageAddr (fieldOf b 0 8) && 1 ≤ n && n ≤ 96
    && (List.range 8).all (fun d => fieldOf b (0x10 + 2 * d) 2 < 4096) && (posMask b).length == n
    && fieldOf b 0x20 8 / 4 % 64 == 0 && fieldOf b 0x20 8 < 512
    && 2 ≤ fieldOf b 0x30 8 && fieldOf b 0x30 8 ≤ 2 ^ 61 - 2 && zeroIn b 0x40 0xC0
    && (List.range 16).all (fun e => pageAddr (fieldOf b (0x100 + 16 * e) 8) && fieldOf b (0x108 + 16 * e) 8 < 2 ^ 34)
    && (List.range 64).all (fun c => actionOk n c (fieldOf b (0x200 + 4 * c) 4))
    && (ocbExtents b).all extentOk && (ocbExtents b).any (·.has (fieldOf b 0 8))

/-- The region descriptor's checks (R213): a disabled region has only its zero bits to keep. -/
def regionOk (b : List Byte) : Bool :=
  let sen := fieldOf b 0 8
  let base := fieldOf b 8 8
  let nb := fieldOf b 16 8
  sen ≤ 1 && base % 65536 == 0 && base < 2 ^ 57 && nb < 32 && zeroIn b 24 40
    && (sen == 0 || (4 ≤ nb && nb ≤ 24 && base + 4352 * 2 ^ nb ≤ 0xFF * 2 ^ 49))

/-- The 64 bytes at ROOT + 0x800. -/
def regionAt (s : State) (root : Nat) : List Byte := readAt s (.mem (root + 0x800)) 64

def lowestFree (s : State) : Option Nat := (List.range 96).find? (fun o => (owner? s o).isNone)

/-- The owner that a block describes, on the positions it names. -/
def ownerOf (ocb : Nat) (b rg : List Byte) (ps : List (Nat × Nat)) : Owner where
  placed := true
  launched := false
  ocb := ocb
  root := fieldOf b 0 8
  nclus := fieldOf b 8 8
  prio := fieldOf b 0x20 8 % 4
  plumb := fieldOf b 0x20 8 / 256 == 1
  wlimd := BitVec.ofNat 32 (fieldOf b 0x28 4)
  jwlim := fieldOf b 0x2C 4
  skey := fieldOf b 0x30 8
  energy := 0
  extents := ocbExtents b
  actions := (List.range 64).foldl (fun m c =>
    let x := fieldOf b (0x200 + 4 * c) 4
    setD (0, 0) m c (x % 4, x / 256)) []
  sen := fieldOf rg 0 8 == 1
  vbase := fieldOf rg 8 8
  nb := fieldOf rg 16 8
  map := ps.flatMap (fun p => (List.range 8).map (fun k => ⟨p.1, p.2, k, false⟩))
  lcount := 0
  trapSeq := 0
  gen := 0
  warn := false
  adv := 0
  advSrc := 0
  auto := false
  due := false
  standing := none
  lastAuto := none
  vclk := []
  undelivered := []
  killed := false
  killAt := 0
  saving := false
  frozen := false
  groups := []
  ranking := []
  exch := []
  balanceAt := 0
  doneq := []

def posAt (s : State) (die col : Nat) : Pos := getD (Pos.vacant col) s.table (posKey die col)

def setPos (s : State) (die col : Nat) (p : Pos) : State := { s with table := setD (Pos.vacant col) s.table (posKey die col) p }

def posFree (s : State) (p : Nat × Nat) : Bool := (posAt s p.1 p.2).own.isNone && !(posAt s p.1 p.2).out

/-- Positions granted to an owner, logical clusters in the order of the list. -/
def grant (s : State) (o : Nat) (ps : List (Nat × Nat)) : State :=
  ps.zipIdx.foldl (fun s p => setPos s p.1.1 p.1.2 { posAt s p.1.1 p.1.2 with own := some o, lcl := p.2 }) s

/-- The fill epochs of a core's four banks from a first value on (R180). -/
def epochsFrom (m : SMap Nat) (n : Nat) : SMap Nat := (List.range 4).foldl (fun m b => setD 0 m b (Nat.max n (getD 0 m b))) m

/-- Zeroed cores and clusters of an owner's positions (R45); the banks' fill epochs go on above all that a lost slice has
given (R180). -/
def zeroColumns (s : State) (o n : Nat) : State :=
  let core := { Core.zeroed with epochs := epochsFrom [] s.epochTop }
  let s := (List.range (8 * n)).foldl (fun s j => { s with cores := put s.cores (coreKey o j) core }) s
  (List.range n).foldl (fun s c => { s with clusters := put s.clusters (clusKey o c) Cluster.zeroed }) s

/-- CREATE: the state, and the new owner's number or the refusing code; `held` has the positions that it has kept through
pauses, and how many of those have ended. -/
def createIn (s : State) (pa : Nat) (held : Option (List (Nat × Nat) × Nat)) : State × (Nat ⊕ Nat) :=
  if pa % 256 ≠ 0 ∨ inHbm pa ocbBytes = false then (s, .inr 0x0003)
  else
    let s := wakeOctets s pa ocbBytes
    let b := readAt s (.mem pa) ocbBytes
    if !ocbOk b || !regionOk (regionAt s (fieldOf b 0 8)) then (s, .inr 0x0003)
    else if !((held.map (·.1)).getD (posMask b)).all (posFree s) then (s, .inr 0x0007)
    else
      let mine := (ocbExtents b).map (fun e => (e.base, e.len * 65536))
      if mine.any (fun e => (liveExtents s none ++ ringRange s ++ areasInUse s).any (meets e)) then (s, .inr 0x0004)
      else match lowestFree s with
        | none => (s, .inr 0x0006)
        | some o =>
          let s := mine.foldl (fun s e => settleRange (wakeOctets s e.1 e.2) e.1 e.2) s
          let ps := (held.map (·.1)).getD (posMask b)
          let w := ownerOf pa b (regionAt s (fieldOf b 0 8)) ps
          let s := { s with owners := put s.owners o { w with balanceAt := s.balanceAt, gen := (held.map (·.2)).getD 0 } }
          (zeroColumns (grant s o ps) o ps.length, .inl o)

/-- A CREATE that runs now. -/
def createCmd (s : State) (c : Cmd) : State :=
  if c.a1 ≠ 0 ∨ c.a2 ≠ 0 then finish s c 0x0002 0
  else match createIn s c.a0 c.held with
    | (s, .inl o) => finish (restOctets s [(c.a0, ocbBytes)]) c 0x0001 o
    | (s, .inr code) => finish (restOctets s [(c.a0, ocbBytes)]) c code 0

def execCreate (n : Nat) (s : State) : Host.Outcome State Fault Refusal :=
  match cmdNow s n 1 with
  | none => .next s
  | some c => if paused s then .next s else .next (createCmd s c)

/-- A CREATE that earlier entries still hold back keeps the positions that its block names now (R38). -/
def keepPositions (s : State) (c : Cmd) : Cmd :=
  if c.op = 1 ∧ c.phase = .taken ∧ c.held.isNone ∧ c.a0 % 256 = 0 ∧ inHbm c.a0 ocbBytes = true then
    { c with held := some (posMask (readAt s (.mem c.a0) ocbBytes), 0) }
  else c

/-- At the instant T every CREATE taken before it takes its positions, by the position table as it still stands; one that
earlier entries hold back keeps them in mind until it runs (R38). Log 65, DEDUCED. -/
def startCreates (s : State) : State :=
  let s := s.cmds.foldl (fun s c => match cmdNow s c.n 1 with
    | some c => createCmd s c
    | none => s) s
  { s with cmds := s.cmds.map (keepPositions s) }

/-! ## DESTROY (R45) -/

/-- ENERGY, kept in nanojoules, goes in microjoules to the owner's block. -/
def writeEnergy (s : State) (w : Owner) : State := writeAt s (.mem (w.ocb + 0x38)) (listOfWord (BitVec.ofNat 64 (w.energy / 1000)) 8)

/-- A range of device memory is zeroed with its sidecars (R45). -/
def zeroRange (s : State) (pa n : Nat) : State :=
  spoil { s with mem := clearRange s.mem pa n, desc := clearRange s.desc (pa / 64) (n / 64),
                 fe := clearRange s.fe (pa / 16) (n / 16), tags := clearRange s.tags (pa / 256) (n / 256),
                 poison := clearRange s.poison (pa / 64) (n / 64) } pa n

/-- Ballast after DESTROY is charged to no owner (R89). -/
def chargeNone (s : State) (o : Nat) : State :=
  { s with engines := s.engines.map (fun e => (e.1, if e.2.payer = some o then { e.2 with payer := some 0xFFFF } else e.2)) }

/-- The owner, not placed any more, goes: its extents are zeroed, its groups close, and its number is free. -/
def destroyNow (s : State) (o : Nat) (w : Owner) : State :=
  let s := w.extents.foldl (fun s e => zeroRange s e.base (e.len * 65536)) (writeEnergy s w)
  let areas := match w.standing with
    | some a => areaOf s a.dirA ++ areaOf s a.dirB
    | none => []
  restOctets { chargeNone s o with owners := drop s.owners o, bufs := s.bufs.filter (·.o != o), credits := s.credits.filter (·.o != o) }
    (w.extents.map (fun e => (e.base, e.len * 65536)) ++ areas)

/-- DESTROY waits for saves of its owner, for the swap of a pause, and while the fault log is full (R35, R38, R81). -/
def execDestroy (n : Nat) (s : State) : Host.Outcome State Fault Refusal :=
  match cmdNow s n 2 with
  | none => .next s
  | some c =>
    if c.a0 ≠ 0 ∨ c.a1 ≠ 0 ∨ c.a2 ≠ 0 then .next (finish s c 0x0002 0)
    else match owner? s c.owner with
      | none => .next (finish s c 0x0005 0)
      | some w =>
        if beforeSwap s || logFull s || w.saving then .next s
        else if !w.placed then .next (finish (destroyNow s c.owner w) c 0x0001 0)
        else .next (onCmd (if w.killed then s else stopOwner s c.owner) c.n (fun c => { c with phase := .running }))

/-! ## LAUNCH (R37, R100) -/

/-- The host's window into a new owner's extents ends as its first LAUNCH succeeds: one that waits or is refused leaves it
open (R46). Log 84, DESIGN CHOICE. -/
def execLaunch (n : Nat) (s : State) : Host.Outcome State Fault Refusal :=
  match cmdNow s n 3 with
  | none => .next s
  | some c =>
    match owner? s c.owner with
    | none => .next (finish s c 0x0005 0)
    | some w =>
      if !w.placed || w.killed then .next (finish s c 0x0006 0)
      else if stopped s c.owner then .next s
      else match launchIn s c.owner w c.a0 (BitVec.ofNat 64 c.a1) (BitVec.ofNat 64 c.a2) with
        | (s, .inl id) => .next (finish (onOwner s c.owner (fun w => { w with launched := true })) c 0x0001 id)
        | (s, .inr code) => .next (finish s c code 0)

/-! ## SETCIRC (R37, R48, R49, R63) -/

/-- Fabric cycles of a period of 2^x ms. -/
def periodFab (x : Nat) : Nat := 2 ^ x * 1400000

def circLens : List Nat := [1, 2, 3, 4, 6, 12]

/-- The columns of a die in circuits of one length; columns out of service return. -/
def setCircuits (s : State) (die len : Nat) : State :=
  (List.range 12).foldl (fun s col => setPos s die col ⟨none, 0, col / len * len, len, false⟩) s

def setPeriod (s : State) (x : Nat) : State :=
  if x = s.period then s
  else { s with period := x, nextT := s.fab + periodFab x, trowel := if s.trowel == .warn then .run else s.trowel }

/-- Whether a live owner holds a position on a die. -/
def dieHeld (s : State) (die : Nat) : Bool := (List.range 12).any (fun col => (posAt s die col).own.isSome)

/-- A SETCIRC that comes in a pause runs after RESUME (R37). Log 84, DESIGN CHOICE. -/
def execSetcirc (n : Nat) (s : State) : Host.Outcome State Fault Refusal :=
  match cmdNow s n 7 with
  | none => .next s
  | some c =>
    let bad := c.owner ≠ wholeDevice ∨ (7 < c.a0 ∧ c.a0 ≠ 0xFF) ∨ (c.a0 ≠ 0xFF ∧ circLens.contains c.a1 = false) ∨ 10 < c.a2
    if bad then .next (finish s c 0x0002 0)
    else if paused s then .next s
    else
      let live := !s.owners.isEmpty
      if c.a0 = 0xFF then
        (if live then .next (finish s c 0x0006 0) else .next (finish (setPeriod s c.a2) c 0x0001 0))
      else if dieHeld s c.a0 || (c.a2 != s.period && live) then .next (finish s c 0x0006 0)
      else .next (finish (setPeriod (setCircuits s c.a0 c.a1) c.a2) c 0x0001 0)

/-! ## READLOG (R37, R80, R409) -/

/-- A record as 64 bytes. -/
def logBytes (r : LogRec) : List Byte :=
  let w := fun (x n : Nat) => listOfWord (BitVec.ofNat 64 x) n
  w r.time 8 ++ w r.kind 1 ++ w r.cause 1 ++ w r.owner 2 ++ w r.place 2 ++ w r.itemk 1 ++ w 0 1 ++ w r.item 8
    ++ w r.count 4 ++ w r.flags 4 ++ w r.addr 8 ++ w r.pos 8 ++ w r.spec 8 ++ w r.aux 8

/-- A buffer lies in addressable device memory or in host memory. -/
def bufferOk (pa n : Nat) : Bool := n == 0 || inHbm pa n || (hostBase ≤ pa && pa + n ≤ 2 ^ 52)

def readLog (s : State) (pa n : Nat) : State × Nat :=
  let rs := s.log.take (n / 64)
  let s := s.owners.foldl (fun s p => writeEnergy s p.2) s
  let bs := rs.flatMap logBytes
  (unblockLog { wakeOctets (writeBlocks s (.mem pa) bs) pa bs.length with log := s.log.drop (n / 64) }, bs.length)

def execReadlog (n : Nat) (s : State) : Host.Outcome State Fault Refusal :=
  match cmdNow s n 8 with
  | none => .next s
  | some c =>
    if c.owner ≠ wholeDevice ∨ c.a2 ≠ 0 ∨ c.a1 % 64 ≠ 0 ∨ c.a0 % 64 ≠ 0 ∨ bufferOk c.a0 c.a1 = false then
      .next (finish s c 0x0002 0)
    else
      if (liveExtents s none ++ ringRange s ++ areasInUse s).any (meets (c.a0, c.a1)) then .next (finish s c 0x0004 0)
      else
        let r := readLog s c.a0 c.a1
        .next (finish r.1 c 0x0001 r.2)

/-! ## COMMAND_COMPLETE (R35) -/

def execCommandComplete (n : Nat) (s : State) : Host.Outcome State Fault Refusal :=
  match s.cmds.find? (·.n == n) with
  | none => .next s
  | some c =>
    match c.phase with
    | .taken => .next s
    | .done status result => if mayStart s c then .next (finish s c status result) else .next s
    | .running =>
      if c.op ≠ 2 then .next s
      else match owner? s c.owner with
        | none => .next (finish s c 0x0001 0)
        | some w => if w.placed || logFull s then .next s else .next (finish (destroyNow s c.owner w) c 0x0001 0)

end Sys2Proof.Machine
end

