-- ==== Sys2Proof/Machine/Boot.lean ====
section
/-!
DEFINITION. A thread placed where its core issues next, with an instruction at its program counter (log 1, DESIGN CHOICE): one owner
of one cluster, page tables that map one code page, one launch of one stage, and its thread in context 0.
-/

namespace Sys2Proof.Machine

/-- Where the code stands: the virtual and the physical address of its page. -/
def bootVa : Nat := 0x10000
def bootPa : Nat := 0x50000

/-- The leaf of the code page: writable, executable, ordinary class, home core 0. -/
def bootLeaf : Leaf := ⟨bootPa, true, true, false, true, 0, false, 0, 0, bootVa / 65536⟩

def bootStage : StageEnt := ⟨BitVec.ofNat 64 bootVa, 1, 1, 16, 8, 0, 0, 0, none, none, 0, 0⟩

def bootLaunch : Launch := ⟨1, 0, 0, 7, 0, 0, [bootStage], [], [⟨0, false, [(0, 1)], some 0⟩]⟩

def bootOwner : Owner :=
  { ownerOf 0 [] [] [] with
    launched := true, root := 0x10000, nclus := 1, prio := 3, wlimd := 0xFFFFFFFF, jwlim := 0xFFFFFFFF, skey := 2,
    extents := [⟨0x10000, 5, false⟩], map := (List.range 8).map (fun k => ⟨0, 0, k, false⟩), lcount := 1 }

def bootThread : Thread :=
  { newThread bootOwner 0 bootLaunch 0 bootStage 0 ⟨0, 0, 0, 0, false⟩ 0 0 0 0 with status := .ready }

/-- A page-table entry for a table, and one for the code page. -/
def tableEntry (pa : Nat) : List Byte := listOfWord (BitVec.ofNat 64 (1 + pa / 65536 * 4096)) 8
def codeEntry : List Byte := listOfWord (BitVec.ofNat 64 (0xB3 + bootPa / 65536 * 4096)) 8

/-- Tables of the levels 3 to 0, and the entry of page 1. -/
def bootTables (m : Memory) : Memory :=
  let m := Memory.writeN m 0x10000 (tableEntry 0x20000)
  let m := Memory.writeN m 0x20000 (tableEntry 0x30000)
  let m := Memory.writeN m 0x30000 (tableEntry 0x40000)
  Memory.writeN m 0x40008 codeEntry

def bootCores (m : SMap Core) : SMap Core :=
  (List.range 8).foldl (fun m j => put m (coreKey 0 j) (if j = 0 then { Core.zeroed with tlb := [(1, bootLeaf)] } else Core.zeroed)) m

/-- The bytes of an instruction of n bits, with zeros up to the longest instruction. -/
def instrBytes (nbits w : Nat) : List Byte := (List.range 16).map (fun i => BitVec.ofNat 8 (w % 2 ^ nbits / 256 ^ i))

/-- The state in which core 0 of owner 0 issues next the instruction with the given bits. -/
def bootWith (s : State) (code : List Byte) : State :=
  { s with
    power := .ready, trowel := .run, readyAt := s.fab, nextT := s.fab + periodFab s.period,
    controlAt := s.fab, errAt := s.fab, patrolAt := s.fab, balanceAt := s.fab,
    mem := Memory.writeN (bootTables s.mem) bootPa code,
    table := setD (Pos.vacant 0) s.table 0 { Pos.vacant 0 with own := some 0 },
    owners := put s.owners 0 { bootOwner with balanceAt := s.fab },
    launches := put s.launches (lchKey 0 1) bootLaunch,
    cores := bootCores s.cores,
    clusters := put s.clusters (clusKey 0 0) Cluster.zeroed,
    threads := put (clearRange s.threads (thrKey 0 0) (2 ^ 24)) (thrKey 0 0) bootThread,
    agenda := .core 0 0 :: s.agenda }

end Sys2Proof.Machine
end

