-- ==== Sys2Proof/Machine/Sync.lean ====
section
/-!
DEFINITION. Posted and exchange stores, messages, barriers, stage queues, work lists and WAITC (R347 to R357).
-/

namespace Sys2Proof.Machine

/-! ## Posted and exchange stores (R347, R348) -/

def postedSem (kind : PostKind) (full : Bool) (o : MemOp) (e : Env) : XRes :=
  let va := ea e.s e.t o.ad
  let n := bytesOfType o.ty
  withChk e (postChk e va n) (fun loc =>
    match loc with
    | .spad j off => takeEntry e kind full va j off (listOfWord (e.g o.d) n)
    | .mem _ _ => .trapC (protTrap .store 6 va))

def pstSem (o : MemOp) (e : Env) : XRes := postedSem .pst false o e
def pstFSem (o : MemOp) (e : Env) : XRes := postedSem .pst true o e
def xstSem (o : MemOp) (e : Env) : XRes := postedSem .xst false o e
def xstFSem (o : MemOp) (e : Env) : XRes := postedSem .xst true o e

def execPst (o : MemOp) (s : State) : Host.Outcome State Fault Refusal := runX (.pst o) (pstSem o) s
def execPstF (o : MemOp) (s : State) : Host.Outcome State Fault Refusal := runX (.pstF o) (pstFSem o) s
def execXst (o : MemOp) (s : State) : Host.Outcome State Fault Refusal := runX (.xst o) (xstSem o) s
def execXstF (o : MemOp) (s : State) : Host.Outcome State Fault Refusal := runX (.xstF o) (xstFSem o) s

/-! ## Messages (R349, R350) -/

def msendSem (v : VReg) (a : GReg) (e : Env) : XRes :=
  withChk e (postChk e (e.g a) 64) (fun loc =>
    match loc with
    | .spad j off => takeEntry e .msend false (e.g a) j off (vecBytes (e.v v))
    | .mem _ _ => .trapC (protTrap .store 6 (e.g a)))

def execMsend (v : VReg) (a : GReg) (s : State) : Host.Outcome State Fault Refusal := runX (.msend v a) (msendSem v a) s

/-- The mailbox of MRECV lies in the scratchpad of the thread's home core, in either form (R350). Log 37, DEDUCED. -/
def mailboxChk (e : Env) (va : Word) : Chk :=
  if va.toNat % 64 ≠ 0 then .bad (mkTrap Cause.align 64 va)
  else if va.extractLsb' 57 7 == 0 && !isSpadVa va.toNat then
    match locate e.s e.w e.t .pst .atomic true va 64 with
    | .miss p => .miss p
    | .bad x => if x.cause = Cause.xlat then .bad x else .bad (protTrap .atomic 2 va)
    | .ok _ => .bad (protTrap .atomic 2 va)
  else if va.extractLsb' 57 7 != 0 then .bad (protTrap .atomic 2 va)
  else
    match spadVa e.w (tidCore e.t.tid) va.toNat with
    | none => .bad (protTrap .atomic 2 va)
    | some (j, off) =>
      let bad : Bool := match core? e.s e.t.o j with
        | some c => spadSize c < off + 64 || inShadow c off 64
        | none => true
      if j != tidCore e.t.tid || (j == e.t.core && bad) then .bad (protTrap .atomic 2 va)
      else
        match watchHit e.t va.toNat 64 true true with
        | some i => .bad (mkTrap Cause.watch i va)
        | none => .ok (.spad j off)

def mrecvSem (v : VReg) (a : GReg) (e : Env) : XRes :=
  withChk e (mailboxChk e (e.g a)) (fun loc => ask e (reqFor e (.mrecv v) (e.g a) loc 64 none none))

def execMrecv (v : VReg) (a : GReg) (s : State) : Host.Outcome State Fault Refusal := runX (.mrecv v a) (mrecvSem v a) s

/-- What taking a record writes. -/
def inboxWr (v : VReg) (r : TrapRec) : Wr := { Wr.ofV v (bytesVec (recBytes r)) with acq := some .pkg }

/-- MRECV.trap: the oldest record of the thread's own inbox; with none the core itself holds the wait (R152, R350). -/
def mrecvTrapSem (v : VReg) (e : Env) : XRes :=
  match e.t.inbox with
  | r :: rs => .ok (onThr e.s e.t.o e.t.tid (fun t => { t with inbox := rs })) (inboxWr v r)
  | [] => .wait e.s .inbox

def execMrecvTrap (v : VReg) (s : State) : Host.Outcome State Fault Refusal := runX (.mrecvTrap v) (mrecvTrapSem v) s

/-! ## Barriers (R352, R353) -/

def arriveSem (va : Word) (d : GReg) (v : Option Word) (e : Env) : XRes :=
  withChk e (check e.s e.w e.t .obj .atomic va 64 64) (fun loc =>
    ask e (reqFor e (.arrive v d) va loc 64 (some .pkg) none))

def baraSem (d : GReg) (ad : Addr) (e : Env) : XRes := arriveSem (ea e.s e.t ad) d none e
def barmaxSem (d : GReg) (m : M3) (e : Env) : XRes := arriveSem (ea3 e.s e.t m) d (some (e.g m.c)) e

def execBara (d : GReg) (ad : Addr) (s : State) : Host.Outcome State Fault Refusal := runX (.bara d ad) (baraSem d ad) s
def execBarmax (d : GReg) (m : M3) (s : State) : Host.Outcome State Fault Refusal :=
  runX (.barmax d m) (barmaxSem d m) s

def barwSem (d : GReg) (ad : Addr) (e : Env) : XRes :=
  let va := ea e.s e.t ad
  withChk e (check e.s e.w e.t .obj .load va 64 64) (fun loc =>
    ask e (reqFor e (.barw ((e.g d).setWidth 16)) va loc 64 none none))

def execBarw (d : GReg) (ad : Addr) (s : State) : Host.Outcome State Fault Refusal := runX (.barw d ad) (barwSem d ad) s

/-! ## Stage queues (R354, R355) -/

/-- Where a queue's control line is, if the queue may be used: in one ordinary page of HBM with HM = 0, outside host
extents. The last answer says that the queue is misused (QERR). -/
inductive QChk where
  | ok (l : Leaf) (pa : Nat)
  | miss (page : Nat)
  | bad (t : TrapInfo)
  | qerr
deriving DecidableEq, Repr

/-- Whether a run of bytes meets an extent with EHOST = 1. -/
def touchesHost (w : Owner) (pa n : Nat) : Bool :=
  w.extents.any (fun x => x.host && x.base < pa + n && pa < x.base + x.len * 65536)

/-- The checks at the core come before QERR, which a target would find (R120). Log 35, DEDUCED. -/
def queueChk (e : Env) (q : QueueEnt) : QChk :=
  let va := q.qva.toNat
  let len := 256 + q.depth * q.esize
  if q.qva.extractLsb' 57 7 != 0 || isSpadVa va then .qerr
  else
    match lookupPage e.s e.t (va / 65536) with
    | none => .miss (va / 65536)
    | some (.xlat lv en) => .bad (mkTrap Cause.xlat (lv + en * 4 + AccKind.atomic.code * 2 ^ 13) q.qva)
    | some (.prot reason) => .bad (protTrap .atomic reason q.qva)
    | some (.leaf l) =>
      let pa := l.pa + va % 65536
      let pg := pageBytes l.sz
      if l.cls = 3 then .bad (protTrap .atomic 4 q.qva)
      else if !l.w then .bad (protTrap .atomic 0 q.qva)
      else if l.cls ≠ 0 ∨ l.hm ∨ rangeOf pa != .hbm ∨ va / pg ≠ (va + len - 1) / pg ∨ touchesHost e.w pa len then .qerr
      else .ok l pa

/-- The checks that QPUT and QGET share, and what follows with the queue and the scratchpad offset; QPUT loads its element from
the scratchpad and QGET stores it there (R154, R354). -/
def queueOp (e : Env) (a : GReg) (q : Nat) (put : Bool) (f : QueueEnt → Leaf → Nat → Nat → XRes) : XRes :=
  let va := e.g a
  match queueOf e.s e.t.o e.t.launch q with
  | none =>
    match lowest (alignTrap va 8 8) (homeArea e .load va 8).2 with
    | some t => .trapC t
    | none => .trapT e.s (mkTrap Cause.qerr q 0)
  | some qe =>
    let area := homeArea e .load va qe.esize
    let seen := (watchHit e.t va.toNat qe.esize put !put).map (fun i => mkTrap Cause.watch i va)
    match queueChk e qe, lowestOf [alignTrap va 8 8, area.2, seen] with
    | .miss page, _ => let p := walkFor e.s e.t page; .again p.1 p.2
    | .bad t, x => .trapC ((lowest (some t) x).getD t)
    | _, some t => .trapC t
    | .qerr, none => .trapT e.s (mkTrap Cause.qerr q 0)
    | .ok l pa, none => f qe l pa (area.1.getD 0)

def qputSem (d a : GReg) (q : BitVec 5) (e : Env) : XRes :=
  queueOp e a q.toNat true (fun qe l pa off =>
    if pendingOn e (homeTarget e) [(off, qe.esize)] then .again e.s .release
    else
      let b := homeBytes e off qe.esize
      if b.2 != 0 then poisonT e.s b.2 (e.g a)
      else ask e (reqFor e (.qput e.t.launch q.toNat b.1 d) qe.qva (.mem l pa) 16 (some .pkg) none))

def execQput (d a : GReg) (q : BitVec 5) (s : State) : Host.Outcome State Fault Refusal :=
  runX (.qput d a q) (qputSem d a q) s

/-- A retiring thread gets the shrink token again (R110). -/
def qgetSem (d a : GReg) (q : BitVec 5) (e : Env) : XRes :=
  queueOp e a q.toNat false (fun qe l pa off =>
    if e.t.retiring then e.give d 1
    else ask e (reqFor e (.qget e.t.launch q.toNat e.t.stage off d) qe.qva (.mem l pa) 16 none none))

def execQget (d a : GReg) (q : BitVec 5) (s : State) : Host.Outcome State Fault Refusal :=
  runX (.qget d a q) (qgetSem d a q) s

/-! ## Work lists (R111, R113, R356) -/

def wpushSem (d : GReg) (v : VReg) (e : Env) : XRes :=
  if !releaseNow e.s e.t .pkg then .again e.s .release
  else
    match core? e.s e.t.o (tidCore e.t.tid) with
    | none => e.give d 1
    | some c =>
      if 256 ≤ c.work.length then e.give d 1
      else .ok (onCore e.s e.t.o (tidCore e.t.tid) (fun c => { c with work := c.work ++ [⟨(vecBytes (e.v v)).take 16⟩] }))
        (Wr.ofG d 0)

def execWpush (d : GReg) (v : VReg) (s : State) : Host.Outcome State Fault Refusal := runX (.wpush d v) (wpushSem d v) s

/-- The bytes of an entry that a cursor gives (R356). -/
def cursorEntry (c : Cursor) : List Byte :=
  listOfWord (BitVec.ofNat 64 c.next) 8 ++ listOfWord (BitVec.ofNat 64 c.launch) 4 ++ [BitVec.ofNat 8 c.stage, 0, 0, 0]

/-- The cursor that serves next: the launch of lower id first, and of one launch the lowest stage, an exhausted one passed
over (R113). Log 91, DESIGN CHOICE. -/
def nextCursor (c : Core) : Option Cursor :=
  (c.cursors.filter (fun k => k.next < k.limit)).foldl (fun best k =>
    match best with
    | some b => if k.launch < b.launch ∨ (k.launch = b.launch ∧ k.stage < b.stage) then some k else some b
    | none => some k) none

/-- WPOP: the tail entry, else the next task of a cursor, else empty. -/
def popWork (c : Core) : Core × Vec :=
  match c.work.getLast? with
  | some w => ({ c with work := c.work.dropLast }, bytesVec (w.data ++ List.replicate (64 - w.data.length) 0))
  | none =>
    match nextCursor c with
    | some k =>
      ({ c with cursors := c.cursors.map (fun x =>
          if x.launch = k.launch ∧ x.stage = k.stage then { x with next := x.next + x.step } else x) },
        bytesVec (cursorEntry k ++ [1] ++ List.replicate 47 0))
    | none => (c, bytesVec (List.replicate 16 0 ++ [2] ++ List.replicate 47 0))

def wpopSem (v : VReg) (e : Env) : XRes :=
  match core? e.s e.t.o (tidCore e.t.tid) with
  | none => .ok e.s { Wr.ofV v 0 with acq := some .pkg }
  | some c =>
    let p := popWork c
    .ok { e.s with cores := put e.s.cores (coreKey e.t.o (tidCore e.t.tid)) p.1 } { Wr.ofV v p.2 with acq := some .pkg }

def execWpop (v : VReg) (s : State) : Host.Outcome State Fault Refusal := runX (.wpop v) (wpopSem v) s

/-! ## Waiting for a change (R357) -/

def waitcSem (d a b : GReg) (e : Env) : XRes :=
  withChk e (check e.s e.w e.t .waitc .load (e.g a) 8 8) (fun loc =>
    ask e (reqFor e (.waitc (e.g b) d) (e.g a) loc 8 none none))

def execWaitc (d a b : GReg) (s : State) : Host.Outcome State Fault Refusal := runX (.waitc d a b) (waitcSem d a b) s

end Sys2Proof.Machine
end

