-- ==== Sys2Proof/Machine/Balance.lean ====
section
/-!
DEFINITION. Balancing intervals (R101, R109 to R114), and the end of thread and core migrations (R132 to R135).
-/

namespace Sys2Proof.Machine

/-! ## Growing and shrinking stages (R109, R110) -/

/-- A queue's occupancy, read from its control line; a line that cannot be read counts as empty. -/
def occupancy (s : State) (o : Nat) (w : Owner) (q : QueueEnt) : Nat :=
  match ownerRead s w o q.qva.toNat 16 with
  | some bs => (fieldOf bs 8 8 + 2 ^ 64 - fieldOf bs 0 8) % 2 ^ 64
  | none => 0

def setDyn (s : State) (o lid k : Nat) (f : StageDyn → StageDyn) : State :=
  onLch s o lid (fun l => { l with dyn := l.dyn.modify k f })

/-- One stage at an interval boundary, with its input queue's occupancy u at the snapshot. -/
def balanceStage (s : State) (o : Nat) (w : Owner) (lid k : Nat) (e : StageEnt) (depth u : Nat) : State :=
  let ts := stageThreads s o lid k
  let n := (ts.filter (fun t => !t.retiring)).length
  let r := (ts.filter (·.retiring)).length
  match lch? s o lid with
  | none => s
  | some l =>
    let d := l.dyn.getD k ⟨0, false, [], none⟩
    if depth ≤ 2 * u ∧ n < e.tmax then
      let s := setDyn s o lid k (fun d => { d with shrink := 0, empty := u == 0 })
      releaseHeld (createUpTo o w lid k (Nat.min (e.tmax - n - r) (Nat.max 1 (n / 4))) s) o lid
    else if u = 0 ∧ d.empty ∧ e.tmin < n then
      setDyn s o lid k (fun d => { d with shrink := Nat.min (n - e.tmin) (Nat.max 1 (n / 8)), empty := true })
    else setDyn s o lid k (fun d => { d with shrink := 0, empty := u == 0 })

/-- The launches of an owner in ascending id. -/
def launchesOf (s : State) (o : Nat) : List Launch :=
  (s.launches.filter (fun p => p.1 / 2 ^ 32 == o)).map (·.2)

/-- Every stage with an input queue, by a snapshot of all occupancies taken first. -/
def balanceOwner (s : State) (o : Nat) (w : Owner) : State :=
  let jobs := (launchesOf s o).flatMap (fun l => l.stages.zipIdx.filterMap (fun p =>
    match p.1.inq.bind (fun q => l.queues[q]?) with
    | some q => some (l.id, p.2, p.1, q.depth, occupancy s o w q)
    | none => none))
  jobs.foldl (fun s x => balanceStage s o w x.1 x.2.1 x.2.2.1 x.2.2.2.1 x.2.2.2.2) s

/-! ## Levelling (R112) -/

/-- Tasks that a cursor still has. -/
def Cursor.left (c : Cursor) : Nat := if c.limit ≤ c.next then 0 else (c.limit - 1 - c.next) / c.step + 1

def loadOf (c : Core) : Nat := c.work.length + (c.cursors.map (·.left)).foldl (· + ·) 0

/-- The owner's core at a place. -/
def coreAtPlace (w : Owner) (die : Nat) (col row : Int) : Option Nat :=
  (w.map.zipIdx.find? (fun p => p.1.die == die && (p.1.col : Int) == col && (p.1.row : Int) == row)).map (·.2)

/-- Neighbours in the order row - 1, row + 1, col - 1, col + 1. -/
def neighbours (w : Owner) (j : Nat) : List Nat :=
  match w.map[j]? with
  | none => []
  | some p =>
    let c : Int := p.col
    let r : Int := p.row
    [coreAtPlace w p.die c (r - 1), coreAtPlace w p.die c (r + 1), coreAtPlace w p.die (c - 1) r,
      coreAtPlace w p.die (c + 1) r].filterMap id

/-- The highest-numbered remaining task of the cursors, of the last stage first, as an entry. -/
def takeTop (cs : List Cursor) : Option (WorkEnt × List Cursor) :=
  let best := (cs.filter (fun c => c.left != 0)).foldl (fun (b : Option Cursor) c => match b with
    | some x => if x.launch < c.launch ∨ (x.launch = c.launch ∧ x.stage ≤ c.stage) then some c else some x
    | none => some c) none
  match best with
  | none => none
  | some c =>
    let j := c.next + c.step * (c.left - 1)
    some (⟨cursorEntry { c with next := j }⟩,
      cs.map (fun x => if x.launch = c.launch ∧ x.stage = c.stage then { x with limit := j } else x))

def takeTops : Nat → List Cursor → List WorkEnt × List Cursor
  | 0, cs => ([], cs)
  | n + 1, cs =>
    match takeTop cs with
    | none => ([], cs)
    | some (e, cs) => let r := takeTops n cs; (e :: r.1, r.2)

/-- What a core ships: to its least-loaded neighbour, the entries, and the core without them. -/
def shipment (s : State) (o : Nat) (w : Owner) (j : Nat) : Option (Nat × List WorkEnt × Core) :=
  match core? s o j with
  | none => none
  | some c =>
    let ns := (neighbours w j).filterMap (fun k => (core? s o k).map (fun x => (k, loadOf x)))
    let best := ns.foldl (fun (b : Option (Nat × Nat)) x => match b with
      | some y => if x.2 < y.2 then some x else some y
      | none => some x) none
    match best with
    | none => none
    | some (k, m) =>
      let l := loadOf c
      if l < m + 2 then none
      else
        let n := Nat.min 32 ((l - m) / 2)
        let old := c.work.take n
        let top := takeTops (n - old.length) c.cursors
        some (k, old ++ top.1, { c with work := c.work.drop n, cursors := top.2 })

/-- The room that a receiver gives a shipment: its list holds 256 entries, of which it keeps as many free as entries that it
has itself shipped may still come back to it (R111). Log 86, DEDUCED. -/
def roomAt (c : Core) (out : Nat) : Nat := 256 - (c.work.length + out)

/-- Entries appended at a receiver; those that do not fit return to the head of the sender's list. -/
def receive (s : State) (o src dst out : Nat) (es : List WorkEnt) : State :=
  match core? s o dst with
  | none => s
  | some c =>
    let room := roomAt c out
    let s := onCore s o dst (fun c => { c with work := c.work ++ es.take room })
    onCore s o src (fun c => { c with work := es.drop room ++ c.work })

/-- A shipment decided on the snapshot: its sender, its receiver and its entries. -/
abbrev Ship := Nat × Nat × List WorkEnt

/-- The receivers in ascending order; each takes the shipments for it in the order of its neighbours. -/
def takeShips (o : Nat) (w : Owner) : List Nat → List Ship → State → State
  | [], _, s => s
  | dst :: ds, ships, s =>
    let out := ((ships.filter (·.1 == dst)).map (·.2.2.length)).foldl (· + ·) 0
    let s := (neighbours w dst).foldl (fun s src =>
      match ships.find? (fun x => x.1 == src && x.2.1 == dst) with
      | some x => receive s o src dst out x.2.2
      | none => s) s
    takeShips o w ds (ships.filter (·.2.1 != dst)) s

/-- Shipments are decided on one snapshot; each receiver appends them in the order of its neighbours. -/
def levelOwner (s : State) (o : Nat) (w : Owner) : State :=
  let ships := (List.range (ncores w)).filterMap (fun j => (shipment s o w j).map (fun x => (j, x)))
  let s := ships.foldl (fun s x => onCore s o x.1 (fun _ => x.2.2.2)) s
  takeShips o w (List.range (ncores w)) (ships.map (fun x => (x.1, x.2.1, x.2.2.1))) s

/-! ## The end of a launch (R101) -/

/-- Whether nothing of a launch is live. -/
def launchOver (s : State) (o lid : Nat) : Bool :=
  (threadsOf s o).all (·.launch != lid) &&
    s.cores.all (fun p => p.1 / 1024 != o || (p.2.journal.all (·.launch != lid) && p.2.jobs.all (·.launch != lid)))

/-- A launch ends, and its cursors with it, whatever tasks they still hold. Log 91, DESIGN CHOICE. -/
def endLaunch (s : State) (o : Nat) (l : Launch) : State :=
  if !launchOver s o l.id then s
  else
    let s := { s with
      launches := drop s.launches (lchKey o l.id),
      cores := s.cores.map (fun p => if p.1 / 1024 = o then
        (p.1, { p.2 with retained := p.2.retained.filter (·.launch != l.id), cursors := p.2.cursors.filter (·.launch != l.id) })
        else p) }
    if l.doneva = 0 then s
    else onOwner { s with nextId := s.nextId + 1 } o (fun w => { w with doneq := w.doneq ++ [(l.doneva.toNat, l.id, s.nextId)] })

/-- Fabric cycles of a balancing interval. -/
def balancePeriod : Nat := 4096

/-- An owner's interval boundary (R109). An interval of its own that a save lengthened ends by as much later (R61, R72).
Log 85, DEDUCED. -/
def balanceAll (s : State) (o : Nat) : State :=
  match owner? s o with
  | none => s
  | some w =>
    if stopped s o || w.killed || s.fab < w.balanceAt + balancePeriod then s
    else
      let s := onOwner s o (fun w => { w with balanceAt := w.balanceAt + balancePeriod })
      let s := if w.plumb then s else levelOwner (balanceOwner s o w) o w
      flushDone ((launchesOf s o).foldl (fun s l => endLaunch s o l) s) o

def execBalancingInterval (s : State) : Host.Outcome State Fault Refusal :=
  if paused s then .next s
  else
    let s := if s.fab < s.balanceAt + balancePeriod then s else { s with balanceAt := s.balanceAt + balancePeriod }
    .next ((s.owners.map (·.1)).foldl balanceAll s)

/-! ## Thread migration (R132, R133, R141) -/

/-- Whether a migrating thread's traffic has drained: its requests have been performed or are held waits, and its posted
entries have been acknowledged or refused (R58, R132). -/
def mayMove (s : State) (o tid : Nat) : Bool :=
  s.reqs.all (fun r => !(r.o == o && r.tid == tid && r.kind.isAccess && !r.held))
    && s.replies.all (fun p => !(p.o == o && p.tid == tid))
    && s.cores.all (fun p => p.1 / 1024 != o || p.2.journal.all (fun e =>
      !(e.tid == tid && !e.orphan && entryMoves s o e)))

/-- Windows move: the target's entries take the values, the old ones are zero. -/
def moveWindows (s : State) (t : Thread) (j gb vb : Nat) : State :=
  let gs := (List.range t.gsize).map (fun i => getD 0 s.gfile (gKey t.o t.core (t.gbase + i)))
  let vs := (List.range t.vsize).map (fun i => getD 0 s.vfile (vKey t.o t.core (t.vbase + i)))
  let g0 := clearRange s.gfile (gKey t.o t.core t.gbase) t.gsize
  let v0 := clearRange s.vfile (vKey t.o t.core t.vbase) t.vsize
  { s with gfile := gs.zipIdx.foldl (fun m x => setD 0 m (gKey t.o j (gb + x.2)) x.1) g0,
           vfile := vs.zipIdx.foldl (fun m x => setD 0 m (vKey t.o j (vb + x.2)) x.1) v0 }

def migrate (s : State) (t : Thread) (j sl gb vb : Nat) : State :=
  let s := moveWindows s t j gb vb
  let s := dropL1 (dropL1 s t.o t.core) t.o j
  let s := { s with reqs := (s.reqs.filter (fun r => !(r.o == t.o && r.tid == t.tid && !r.kind.isAccess))).map (fun r =>
    if r.o = t.o ∧ r.tid = t.tid then { r with core := j } else r) }
  onThr s t.o t.tid (fun t =>
    { t with core := j, slot := sl, gbase := gb, vbase := vb, mig := none, due := none, relDue := 0,
             streams := t.streams.map (fun x => { x with fetched := [], dues := [] }),
             redirect := !(j == tidCore t.tid && sl == tidSlot t.tid) })

def execThreadMigrationDone (o tid : Nat) (s : State) : Host.Outcome State Fault Refusal :=
  match thr? s o tid with
  | none => .next s
  | some t =>
    match t.mig with
    | some (j, sl, gb, vb) => if (paused s && s.trowel != .drain) || !mayMove s o tid then .next s else .next (migrate s t j sl gb vb)
    | none => .next s

/-! ## Core migration (R134, R135) -/

/-- The other core of an exchange under way on a core's die. -/
def partnerOf (w : Owner) (j : Nat) : Option Nat :=
  match w.map[j]? with
  | none => none
  | some p => (w.map.zipIdx.find? (fun q => q.1.mv && q.1.die == p.die && q.2 != j)).map (·.2)

/-- Fabric cycles of a forwarding entry's life: 1 ms. -/
def forwardLife : Nat := 1400000

def execCoreMigrationDone (o j : Nat) (s : State) : Host.Outcome State Fault Refusal :=
  match owner? s o with
  | none => .next s
  | some w =>
    if !(placeOf s o j).mv then .next s
    else match partnerOf w j with
      | none => .next s
      | some k =>
        let a := w.map.getD j ⟨0, 0, 0, false⟩
        let b := w.map.getD k ⟨0, 0, 0, false⟩
        let s := onOwner (dropL1 (dropL1 s o j) o k) o (fun w =>
          { w with map := (w.map.set j { b with mv := false }).set k { a with mv := false }, exch := drop (drop w.exch j) k })
        let kept := fun (i : Nat) => match core? s o i with
          | some c => c.forwards
          | none => []
        let fwd := fun (i : Nat) (l : List Forward) (c : Core) =>
          { c with forwards := ⟨i, s.fab + forwardLife⟩ :: l.filter (·.index != i) }
        .next (onCore (onCore s o j (fwd k (kept k))) o k (fwd j (kept j)))

def execForwardExpiry (o j : Nat) (s : State) : Host.Outcome State Fault Refusal :=
  .next (onCore s o j (fun c => { c with forwards := c.forwards.filter (fun f => s.fab < f.til) }))

end Sys2Proof.Machine
end

