-- ==== Sys2Proof/Machine/Rotation.lean ====
section
/-!
DEFINITION. The skim pause (R38, R48 to R63): WARN, DRAIN, CHUNK, the stream's slots, done flags, SWAP and RESUME, and
the failure of a circuit.
-/

namespace Sys2Proof.Machine

/-! ## WARN and DRAIN (R56 to R58) -/

/-- Fabric cycles of 100 microseconds. -/
def warnLead : Nat := 140000

/-- Fabric cycles after T at which DRAIN ends anyway, and at which a missing done flag fails its die. -/
def drainLimit : Nat := 11200
def flagLimit : Nat := 30800

def execWarn (s : State) : Host.Outcome State Fault Refusal :=
  if s.power != .ready || s.trowel != .run || s.fab + warnLead < s.nextT then .next s else .next { s with trowel := .warn }

/-- The pause begins: every CREATE taken before has its positions, and chunks that may not go on are abandoned. -/
def beginPause (s : State) : State :=
  let s := startCreates s
  let s := (s.owners.map (·.1)).foldl abandonAll s
  { s with trowel := .drain, since := s.fab, slot := 0, done := [], flags := [], swapAt := none, failed := [] }

/-- The instant T: the pause begins, or is deferred while a save or restore runs. -/
def execDrain (s : State) : Host.Outcome State Fault Refusal :=
  if s.trowel != .warn || s.fab < s.nextT then .next s
  else
    let s' := { s with nextT := s.nextT + periodFab s.period }
    if s.saves.isEmpty && s.deferred.isEmpty then .next (beginPause s')
    else .next { s' with deferred := s.deferred ++ [s.nextT] }

/-- A deferred instant, once no save or restore runs. Log 66, DEDUCED. -/
def execDeferredInstant (s : State) : Host.Outcome State Fault Refusal :=
  if paused s || !s.saves.isEmpty then .next s
  else match s.deferred with
    | [] => .next s
    | _ :: rest => .next { beginPause s with deferred := rest }

/-! ## CHUNK (R56) -/

/-- The circuits of a die: first column and length. -/
def circuits (s : State) (die : Nat) : List (Nat × Nat) :=
  ((List.range 12).map (fun c => ((posAt s die c).cstart, (posAt s die c).clen))).dedup

/-- Slots of one circuit's stream (R59). -/
def circSlots (len : Nat) : Nat := if len ≤ 1 then 0 else 924 + (len - 2)

/-- Slots of a die: those of its longest stream that has not failed. -/
def dieSlots (s : State) (die : Nat) : Nat :=
  ((circuits s die).map (fun c => if s.failed.contains (die, c.1) then 0 else circSlots c.2)).foldl Nat.max 0

/-- Whether every circuit of a die has failed. -/
def dieFailed (s : State) (die : Nat) : Bool := (circuits s die).all (fun c => s.failed.contains (die, c.1))

/-- Dies whose last slot has ended send their done flag with the count as its stamp. -/
def sendFlags (s : State) : State :=
  { s with done := (List.range 8).foldl (fun l d =>
      if l.any (·.1 == d) || s.slot < dieSlots s d || dieFailed s d then l else l ++ [(d, s.fab)]) s.done }

/-- CHUNK's action. -/
def chunkAct (s : State) : State := sendFlags { setSpecs s (fun _ => true) with trowel := .chunk }

def execChunk (s : State) : Host.Outcome State Fault Refusal :=
  if s.trowel == .drain && drained s false (fun _ => true) then .next (chunkAct s) else .next s

/-- At T + 8 microseconds DRAIN ends anyway. -/
def execDrainTimeout (s : State) : Host.Outcome State Fault Refusal :=
  if s.trowel == .drain && s.since + drainLimit ≤ s.fab && !drained s false (fun _ => true) then
    .next (chunkAct (failMissing s false (fun _ => true)))
  else .next s

/-! ## STREAM (R59, R60) -/

def streaming (s : State) : Bool := s.trowel == .chunk || s.trowel == .stream

/-- One slot of 18 fabric cycles. -/
def execStreamSlot (s : State) : Host.Outcome State Fault Refusal :=
  if streaming s && (List.range 8).any (fun d => s.slot < dieSlots s d) then
    .next (sendFlags { s with trowel := .stream, slot := s.slot + 1, fab := s.fab + 18 })
  else .next s

/-- The swap cycle, once every die that has not failed whole is known to be done: the largest stamp + 256. -/
def findSwap (s : State) : State :=
  if s.swapAt.isNone && (List.range 8).all (fun d => s.flags.contains d || dieFailed s d) then
    { s with swapAt := some (((s.done.filter (fun x => s.flags.contains x.1)).map (·.2)).foldl Nat.max 0 + 256) }
  else s

/-- A die's flag has reached every die, unless it is lost (R60, R63). Log 75, DESIGN CHOICE. -/
def execDoneFlag (die : Nat) (s : State) : Host.Outcome State Fault Refusal :=
  if streaming s && s.done.any (·.1 == die) && !s.flags.contains die && !Config.flagLost s.since die then
    .next (findSwap { s with flags := die :: s.flags })
  else .next s

/-! ## SWAP (R50, R52, R54, R60) -/

/-- Whether a column's circuit moves its holders. -/
def moves (s : State) (die col : Nat) : Bool :=
  2 ≤ (posAt s die col).clen && !s.failed.contains (die, (posAt s die col).cstart)

/-- The successor column on a circuit. -/
def succCol (s : State) (die col : Nat) : Nat :=
  let p := posAt s die col
  p.cstart + (col - p.cstart + 1) % p.clen

def predCol (s : State) (die col : Nat) : Nat :=
  let p := posAt s die col
  p.cstart + (col - p.cstart + p.clen - 1) % p.clen

/-! ### The chunks of a stream (R59)

The images stay whole in the state until SWAP. Where each chunk stands meanwhile follows from the slot: in slot n a
column's send buffer holds chunk n, and its receive buffer the chunk that comes from its predecessor. -/

/-- The chunk in a column's send buffer; a vacant column sends nothing. -/
def sendChunk (s : State) (die col : Nat) : Option Nat :=
  if moves s die col && (posAt s die col).own.isSome && s.slot < 924 then some s.slot else none

/-- The chunk in relay stage k of a circuit's reverse links, which the last column has sent k slots ago. -/
def relayChunk (s : State) (die cstart k : Nat) : Option Nat :=
  (sendChunk { s with slot := s.slot - k } die (cstart + (posAt s die cstart).clen - 1)).filter (fun _ =>
    k ≤ s.slot && k + 2 ≤ (posAt s die cstart).clen)

/-- The chunk in a column's receive buffer at the end of the slot: the first column's has come by the reverse links. -/
def recvChunk (s : State) (die col : Nat) : Option Nat :=
  let p := posAt s die col
  let lag := if col = p.cstart then p.clen - 2 else 0
  if moves s die col && lag ≤ s.slot && s.slot - lag < 924 then some (s.slot - lag) else none

/-- Whether chunk m of a column has been written with what its predecessor sent. -/
def chunkIn (s : State) (die col m : Nat) : Bool :=
  let p := posAt s die col
  moves s die col && m < 924 && m + (if col = p.cstart then p.clen - 2 else 0) < s.slot

/-- The owner whose image a column's chunk m belongs to; the chunk of a vacant position reads as zeros (R50). -/
def chunkHolder (s : State) (die col m : Nat) : Option Nat :=
  (posAt s die (if chunkIn s die col m then predCol s die col else col)).own

/-- The holder of each position moves to the next one; a column whose predecessor is vacant becomes vacant. -/
def swapTable (s : State) : State :=
  ((List.range 8).flatMap (fun d => (List.range 12).map (fun c => (d, c)))).foldl (fun t p =>
    if moves s p.1 p.2 then
      let q := posAt s p.1 (predCol s p.1 p.2)
      setPos t p.1 p.2 { posAt s p.1 p.2 with own := q.own, lcl := q.lcl }
    else t) s

/-- COL of each core-map entry becomes the successor's. -/
def swapMaps (s : State) : State :=
  { s with owners := s.owners.map (fun p =>
      (p.1, { p.2 with map := p.2.map.map (fun e => if moves s e.die e.col then { e with col := succCol s e.die e.col } else e) })) }

/-- The positions that CREATE entries keep move as held ones do (R38). -/
def swapHeld (s : State) : State :=
  { s with cmds := s.cmds.map (fun c => { c with held := c.held.map (fun h =>
      (h.1.map (fun p => if moves s p.1 p.2 then (p.1, succCol s p.1 p.2) else p), h.2)) }) }

/-- The engine of a column that its holder leaves: its ramp goes on there, charged to that holder (R89). -/
def leaveRamps (s : State) : State :=
  ((List.range 8).flatMap (fun d => (List.range 12).map (fun c => (d, c)))).foldl (fun t p =>
    match (posAt s p.1 p.2).own with
    | some o =>
      let e := engineAt s ⟨p.1, p.2, 0, false⟩
      if moves s p.1 p.2 && e.used + e.prev != 0 then onEngine t ⟨p.1, p.2, 0, false⟩ (fun e => { e with payer := e.payer.or (some o) })
      else t
    | none => t) s

/-! ## Thermal rankings (R54, R85) -/

def tempAt (s : State) (p : Place) : Nat := getD 60 s.temps (p.die * 96 + p.col * 8 + p.row)

/-- Free contexts in enabled slots of a core. -/
def freeContexts (s : State) (o j : Nat) (c : Core) : Nat :=
  let used := (threadsOn s o j).map (·.slot) ++ (coming s o j).map (·.2.1)
    ++ ((threadsOf s o).filter (fun t => tidCore t.tid == j)).map (fun t => tidSlot t.tid)
  ((List.range 64).filter (fun k => slotOn c k && !used.contains k)).length

/-- The table of an owner: cores coolest first by TEMP, then by CORE. -/
def rankOwner (s : State) (o : Nat) : State :=
  match owner? s o with
  | none => s
  | some w =>
    let rows := (List.range (ncores w)).filterMap (fun j => (core? s o j).map (fun c =>
      (j, Nat.min 63 (tempAt s (placeOf s o j) - 60), freeContexts s o j c)))
    onOwner s o (fun w => { w with ranking := rows.mergeSort (fun a b => a.2.1 < b.2.1 || (a.2.1 == b.2.1 && a.1 ≤ b.1)) })

def rankAll (s : State) : State := (s.owners.map (·.1)).foldl rankOwner s

def execSwap (s : State) : Host.Outcome State Fault Refusal :=
  match s.swapAt with
  | some x =>
    if streaming s && x ≤ s.fab then
      .next (rankAll { swapHeld (swapMaps (leaveRamps s)) with table := (swapTable s).table, trowel := .resume })
    else .next s
  | none => .next s

/-! ## RESUME (R61, R64) -/

def execResume (s : State) : Host.Outcome State Fault Refusal :=
  if s.trowel != .resume then .next s
  else
    let n := s.fab - s.since
    let s := shiftWaits (emptyBuffers s (fun _ => true)) (fun _ => true) n
    .next { s with
      owners := s.owners.map (fun p => (p.1, if p.2.placed then { p.2 with gen := p.2.gen + 1 } else p.2)),
      cmds := s.cmds.map (fun c => { c with held := c.held.map (fun h => (h.1, h.2 + 1)) }),
      trowel := if s.deferred.isEmpty then .run else .warn, balanceAt := s.balanceAt + n,
      swapAt := none, done := [], flags := [], failed := [] }

/-! ## A circuit fails (R63) -/

/-- Positions of a circuit go out of service, and every owner with a position on it is killed. -/
def failColumns (s : State) (die : Nat) (cols : List Nat) : State :=
  let os := (cols.filterMap (fun c => (posAt s die c).own)).dedup
  let s := cols.foldl (fun s c => setPos s die c { posAt s die c with out := true }) s
  os.foldl (fun s o => killOwner s o 0) s

/-- A stream misses its slot, or the die's done flag is missing at T + 22 microseconds. -/
def execCircuitFailed (die cstart : Nat) (s : State) : Host.Outcome State Fault Refusal :=
  match (circuits s die).find? (·.1 == cstart) with
  | none => .next s
  | some c =>
    let late := s.since + flagLimit ≤ s.fab && !s.flags.contains die
    if streaming s && !s.failed.contains (die, cstart) && s.swapAt.isNone && (2 ≤ c.2 || late) then
      let s := addLog s { blankLog with kind := 0xA, place := whereOf ⟨die, cstart, 0, false⟩ 0 }
      let s := { s with failed := (die, cstart) :: s.failed }
      let s := failColumns s die ((List.range c.2).map (cstart + ·))
      .next (findSwap (sendFlags s))
    else .next s

end Sys2Proof.Machine
end

