-- ==== Sys2Proof/Machine/Save.lean ====
section
/-!
DEFINITION. Saves and restores (R67 to R77, R136): SAVE, PREEMPT, the standing save area, the quiesce and the streams,
automatic saves, and RESTORE. An image is held as a snapshot of what it saved, from which its bytes are read (ImageBytes.lean; log 17, DESIGN CHOICE).
-/

namespace Sys2Proof.Machine

/-! ## Checks of a save (R70, R71) -/

/-- Columns that an owner holds on a die. -/
def colsOn (w : Owner) (die : Nat) : Nat := (w.map.filter (·.die == die)).length / 8

/-- Bytes of a die's segment for a set of owners; 0 where none of them is on the die. -/
def segNeed (s : State) (os : List Nat) (die : Nat) : Nat :=
  let ns := os.filterMap (fun o => (owner? s o).map (fun w => colsOn w die))
  let ns := ns.filter (· != 0)
  if ns.isEmpty then 0 else (64 + (ns.map (fun n => 256 + 44352 * n)).foldl (· + ·) 0) * 1024

/-- Bytes of one copy. -/
def saveBytes (s : State) (os : List Nat) : Nat := ((List.range 8).map (segNeed s os)).foldl (· + ·) 0

def segOf (d : Dir) (die : Nat) : Option (Nat × Nat) := (d.segs.find? (·.1 == die)).map (·.2)

/-- A copy's segments: each in one stack's addressable range and on a stack of its die's, and those that the save needs there
and long enough. -/
def segsOk (s : State) (os : List Nat) (d : Dir) (copyB : Bool) : Bool :=
  d.segs.all (fun g => inHbm g.2.1 g.2.2 && stackOf g.2.1 / 2 == (if copyB then g.1 else g.1 ^^^ 4))
    && (List.range 8).all (fun die =>
      let need := segNeed s os die
      need == 0 || (match segOf d die with
        | some g => need ≤ g.2
        | none => false))

/-- Both directories of a save pass R70 and R71. -/
def areaOk (s : State) (os : List Nat) (a b : Nat) : Bool :=
  let x := readDir s a
  let y := readDir s b
  dirOk a x false && dirOk b y true && x.seq == y.seq && x.key == y.key && segsOk s os x false && segsOk s os y true

/-- Whether an area overlaps an extent, the ring or another save area in use. -/
def areaTaken (s : State) (os : List Nat) (a b : Nat) : Bool :=
  let own := s.owners.flatMap (fun p => match p.2.standing with
    | some x => if os.contains p.1 && x.dirA == a && x.dirB == b then areaOf s a ++ areaOf s b else []
    | none => [])
  let others := (areasInUse s).filter (fun r => !own.contains r)
  (areaOf s a ++ areaOf s b).any (fun r => (liveExtents s none ++ ringRange s ++ others).any (meets r))

/-- The refusing code of a save: BUSY, then BADAREA, then OVERLAP. -/
def saveRefused (s : State) (os : List Nat) (a b : Nat) : Option Nat :=
  if !os.all (fun o => match owner? s o with
    | some w => w.placed
    | none => false) then some 0x0006
  else if !areaOk s os a b then some 0x000A
  else if areaTaken s os a b then some 0x0004
  else none

/-! ## Starting a save (R72) -/

/-- WARN begins for the owners' columns; T_s is 100 microseconds ahead. -/
def startSave (s : State) (cmd : Option Nat) (os : List Nat) (a b : Nat) (stop device : Bool) : State :=
  let s := os.foldl (fun s o => onOwner s o (fun w => { w with saving := true, warn := true })) s
  let s := (areaOf s a ++ areaOf s b).foldl (fun s r => wakeOctets s r.1 r.2) s
  { s with saves := s.saves ++ [⟨cmd, os, a, b, stop, false, device, false, s.fab + warnLead, false⟩], saving := s.saving || device }

/-- Whether a save of an owner must wait: for a pause's swap, a kill, or a save of the steward's (R38, R68). -/
def saveWaits (s : State) (os : List Nat) : Bool :=
  beforeSwap s || os.any (fun o => match owner? s o with
    | some w => w.killed && w.placed || w.saving
    | none => false)

/-- A save that a command asks for. -/
def saveCmd (s : State) (c : Cmd) (os : List Nat) (stop device : Bool) : State :=
  if saveWaits s os then s
  else match saveRefused s os c.a0 c.a1 with
    | some code => finish s c code 0
    | none => onCmd (startSave s (some c.n) os c.a0 c.a1 stop device) c.n (fun c => { c with phase := .running })

def placedOwners (s : State) : List Nat := (s.owners.filter (·.2.placed)).map (·.1)

def execPreempt (n : Nat) (s : State) : Host.Outcome State Fault Refusal :=
  match cmdNow s n 4 with
  | none => .next s
  | some c =>
    if c.a2 ≠ 0 then .next (finish s c 0x0002 0)
    else if (owner? s c.owner).isNone then .next (finish s c 0x0005 0)
    else .next (saveCmd s c [c.owner] true false)

/-! ## SAVE and the standing area (R68) -/

def saveStop (c : Cmd) : Bool := c.a2 % 2 == 1
def saveArm (c : Cmd) : Bool := c.a2 / 2 % 2 == 1
def saveDisarm (c : Cmd) : Bool := c.a2 / 4 % 2 == 1

/-- ARG2 in range: at most one of STOP, ARM and DISARM; ARM and DISARM name an owner. -/
def saveArgs (c : Cmd) : Bool :=
  let n := (if saveStop c then 1 else 0) + (if saveArm c then 1 else 0) + (if saveDisarm c then 1 else 0)
  c.a2 / 8 % 2 ^ 13 == 0 && c.a2 < 2 ^ 32 && n ≤ 1 && !((saveArm c || saveDisarm c) && c.all)

def execSave (n : Nat) (s : State) : Host.Outcome State Fault Refusal :=
  match cmdNow s n 5 with
  | none => .next s
  | some c =>
    if !saveArgs c then .next (finish s c 0x0002 0)
    else if saveArm c || saveDisarm c then .next s
    else if c.all then .next (saveCmd s c (placedOwners s) (saveStop c) true)
    else if (owner? s c.owner).isNone then .next (finish s c 0x0005 0)
    else .next (saveCmd s c [c.owner] (saveStop c) false)

/-- The ranges of an owner's standing save area. -/
def standingAreas (s : State) (o : Nat) : List (Nat × Nat) :=
  match (owner? s o).bind (·.standing) with
  | some a => areaOf s a.dirA ++ areaOf s a.dirB
  | none => []

/-- ARM checks the directories as a save would and records them. -/
def execSaveArm (n : Nat) (s : State) : Host.Outcome State Fault Refusal :=
  match cmdNow s n 5 with
  | none => .next s
  | some c =>
    if !saveArgs c || !saveArm c then .next s
    else if (owner? s c.owner).isNone then .next (finish s c 0x0005 0)
    else match saveRefused s [c.owner] c.a0 c.a1 with
      | some code => .next (finish s c code 0)
      | none =>
        let old := standingAreas s c.owner
        let s := (areaOf s c.a0 ++ areaOf s c.a1).foldl (fun s r => wakeOctets s r.1 r.2) s
        let s := onOwner s c.owner (fun w => { w with standing := some ⟨c.a0, c.a1, c.a2 / 65536⟩ })
        .next (finish (restOctets s old) c 0x0001 0)

def execSaveDisarm (n : Nat) (s : State) : Host.Outcome State Fault Refusal :=
  match cmdNow s n 5 with
  | none => .next s
  | some c =>
    if !saveArgs c || !saveDisarm c then .next s
    else if (owner? s c.owner).isNone then .next (finish s c 0x0005 0)
    else
      let areas := standingAreas s c.owner
      let s := onOwner s c.owner (fun w => { w with standing := none, due := false })
      .next (finish (restOctets s areas) c 0x0001 0)

/-- Fabric cycles of one second. -/
def second : Nat := 1400000000

/-- SEQ rises by one in a directory. -/
def bumpSeq (s : State) (pa : Nat) : State :=
  writeAt s (.mem pa) (listOfWord (BitVec.ofNat 64 ((readDir s pa).seq + 1)) 4)

/-- The steward saves an armed owner into its standing area after an advisory. -/
def execAutoSave (o : Nat) (s : State) : Host.Outcome State Fault Refusal :=
  match owner? s o with
  | none => .next s
  | some w =>
    match w.standing with
    | none => .next s
    | some a =>
      let early := match w.lastAuto with
        | some t => s.fab < t + second
        | none => false
      if !w.due || early || saveWaits s [o] || !w.placed then .next s
      else
        let s := onOwner s o (fun w => { w with due := false })
        if !areaOk s [o] a.dirA a.dirB then .next s
        else
          let s := bumpSeq (bumpSeq s a.dirA) a.dirB
          .next (startSave (onOwner s o (fun w => { w with lastAuto := some s.fab })) none [o] a.dirA a.dirB false false)

/-! ## The quiesce (R72, R74) -/

def onSave (s : State) (k : Nat) (f : SaveRun → SaveRun) : State := { s with saves := s.saves.modify k f }

/-- STEP (R77): no live thread, empty job queues and journals, and no held link payload. -/
def atStep (s : State) (o : Nat) : Bool :=
  (threadsOf s o).isEmpty
    && (s.cores.filter (fun p => p.1 / 1024 == o)).all (fun p => p.2.jobs.isEmpty && p.2.journal.isEmpty)
    && (s.bufs.filter (·.o == o)).all (·.frags.isEmpty)

/-- T_s: the owners' columns stop. -/
def freeze (s : State) (v : SaveRun) : State :=
  v.owners.foldl (fun s o => match owner? s o with
    | some w => if w.frozen then s else onOwner (abandonAll s o) o (fun w => { w with frozen := true, warn := false })
    | none => s) s

/-- Whether T_s has not come for a save. -/
def unfrozen (s : State) (v : SaveRun) : Bool :=
  v.owners.any (fun o => match owner? s o with
    | some w => !w.frozen
    | none => false)

/-- CHUNK, and the streams begin: both STATEs read in progress. -/
def quietNow (s : State) (k : Nat) (v : SaveRun) : State :=
  let s := setSpecs s v.owners.contains
  onSave (writeState (writeState s v.dirA 3) v.dirB 3) k (fun v => { v with quiet := true })

def execSaveQuiesce (n : Nat) (s : State) : Host.Outcome State Fault Refusal :=
  match s.saves[n]? with
  | none => .next s
  | some v =>
    if v.restore || v.quiet || s.fab < v.til then .next s
    else
      let s := if unfrozen s v then onSave s n (fun v => { v with step := v.owners.all (atStep s) }) else s
      let s := freeze s v
      if drained s true v.owners.contains then .next (quietNow s n v)
      else if v.til + drainLimit ≤ s.fab then .next (quietNow (failMissing s true v.owners.contains) n v)
      else .next s

/-! ## What an image holds (R55, R69) -/

/-- The entries of a map in a range of keys. -/
def part {α : Type} (m : SMap α) (lo n : Nat) : SMap α := m.filter (fun p => lo ≤ p.1 && p.1 < lo + n)

/-- Dirty sectors of the owner's slices, with their descriptors, marks and full/empty bits (R159, R170). -/
def dirtyOf (s : State) (o : Nat) : List (Nat × List Byte × Nat × Nat × List Bool) :=
  ((s.cores.filter (fun p => p.1 / 1024 == o)).flatMap (fun p => p.2.l2.flatMap (fun l =>
    l.dirty.map (fun sec => l.line * 4 + sec)))).map (fun b =>
      let p := Spot.mem (b * 64)
      (b, readAt s p 64, descAt s p, markAt s p, (List.range 4).map (fun i => fullAt s (p.add (16 * i)))))

def positionsOf (s : State) (o : Nat) : List (Nat × Nat × Nat × Nat × Nat) :=
  (List.range 8).flatMap (fun d => (List.range 12).filterMap (fun c =>
    let p := posAt s d c
    if p.own = some o then some (d, c, p.lcl, p.cstart, p.clen) else none))

def snapOf (s : State) (at_ o : Nat) (w : Owner) : Snap where
  fab := at_
  o := o
  owner := w
  cores := part s.cores (coreKey o 0) 1024
  clusters := part s.clusters (clusKey o 0) 128
  threads := part s.threads (thrKey o 0) (2 ^ 24)
  launches := part s.launches (lchKey o 0) (2 ^ 32)
  gfile := part s.gfile (gKey o 0 0) (1024 * 2048)
  vfile := part s.vfile (vKey o 0 0) (1024 * 512)
  spad := part s.spad (spadKey o 0 0) (1024 * 2 ^ 20)
  spadFE := part s.spadFE (granKey o 0 0) (1024 * 2 ^ 16)
  spadPz := part s.spadPz (spadBlk o 0 0) (1024 * 2 ^ 14)
  bsram := part s.bsram (bKey o 0 0) (128 * 2 ^ 23)
  bdesc := part s.bdesc (bBlk o 0 0) (128 * 2 ^ 17)
  bpz := part s.bpz (bBlk o 0 0) (128 * 2 ^ 17)
  rwrites := s.rwrites.filter (·.o == o)
  held := s.reqs.filter (·.o == o)
  barriers := s.barriers.filter (·.o == o)
  bufs := s.bufs.filter (·.o == o)
  reds := s.reduces.filter (·.o == o)
  dirty := dirtyOf s o
  pos := positionsOf s o

def maskOf (os : List Nat) : Nat := (os.map (2 ^ ·)).foldl (· + ·) 0

/-! ### The bytes of a segment that the spec lays out (R69) -/

/-- The first line of a segment header. -/
def headerLine (s : State) (v : SaveRun) (die : Nat) (copyB : Bool) (seq : Nat) : List Byte :=
  let w := fun (x n : Nat) => listOfWord (BitVec.ofNat 64 x) n
  let ent := fun c =>
    let p := posAt s die c
    w (p.own.getD 0x7F + p.lcl * 128 + p.cstart * 2 ^ 14 + p.clen * 2 ^ 18) 4
  let here := v.owners.filter (fun o => match owner? s o with
    | some x => colsOn x die != 0
    | none => false)
  let m := maskOf here
  w (die + (if copyB then 256 else 0) + seq * 2 ^ 32) 8 ++ List.replicate 56 0
    ++ (List.range 12).flatMap ent ++ w ((posAt s die 0).clen + s.period * 256) 8 ++ List.replicate 8 0
    ++ w m 8 ++ w (m / 2 ^ 64) 4 ++ List.replicate 116 0

/-- The start of an owner record: the control block, the core map and the die's vector clock. -/
def ownerRecord (s : State) (o : Nat) (w : Owner) (die : Nat) : List (Nat × List Byte) :=
  let ocb := readAt s (.mem w.ocb) ocbBytes
  let ocb := ocb.take 0x38 ++ listOfWord (BitVec.ofNat 64 (w.energy / 1000)) 8 ++ ocb.drop 0x40
  let cm := (List.range 768).flatMap (fun j => match w.map[j]? with
    | some p => listOfWord (BitVec.ofNat 64 (p.die + p.col * 8 + p.row * 128 + (if p.mv then 1024 else 0))) 2
    | none => [0, 0])
  let vc := (List.range 8).flatMap (fun d => listOfWord (BitVec.ofNat 64 (getD 0 w.vclk (die * 8 + d))) 4)
  if o < 96 then [(0, ocb), (0x400, cm), (0xC00, vc)] else []

/-- Sixty-four bytes of each block of a run. -/
def blocksOf (die blk : Nat) (bs : List Byte) : List (Nat × List Byte) :=
  (List.range (bs.length / 64)).map (fun i => (segBlk die (blk + i), (bs.drop (64 * i)).take 64))

/-- The blocks of a die's segment that the spec lays out: the header's first line and the start of each owner record. -/
def headOf (s : State) (v : SaveRun) (im : Image) (die : Nat) : List (Nat × List Byte) :=
  if segNeed s v.owners die = 0 then []
  else blocksOf die 0 (headerLine s v die im.copyB im.seq) ++ (snapOffsets im die).1.flatMap (fun e =>
    (ownerRecord s e.1.o e.1.owner die).flatMap (fun x =>
      blocksOf die ((e.2 + x.1) / 64) (x.2 ++ (List.range ((64 - x.2.length % 64) % 64)).map (fun i =>
        freeByte e.1 die 15 (x.1 + x.2.length + i)))))

/-- The image that a copy holds after a save. -/
def imageOf (s : State) (v : SaveRun) (dir : Nat) (copyB : Bool) : Image :=
  let im : Image :=
    { dir := dir
      copyB := copyB
      seq := (readDir s dir).seq
      key := (readDir s dir).key
      segs := (readDir s dir).segs
      circ := ((List.range 8).filter (fun d => segNeed s v.owners d != 0)).map (fun d => (d, (posAt s d 0).clen))
      period := s.period
      snaps := v.owners.filterMap (fun o => (owner? s o).map (snapOf s v.til o))
      bad := []
      gone := false
      head := []
      diff := [] }
  { im with head := (List.range 8).flatMap (headOf s v im) }

/-- An older image in the same segments is gone: only copies that the host has taken of it remain. -/
def overwritten (im x : Image) : Image :=
  if x.segs.any (fun a => im.segs.any (fun b => meets a.2 b.2)) then { x with gone := true } else x

/-- An image takes its segments: whole blocks are written, with plain descriptors (R73). -/
def keepImage (s : State) (im : Image) : State :=
  let s := { s with images := s.images.map (overwritten im) ++ [im] }
  im.segs.foldl (fun s g =>
    let n := imageSize im g.1
    { s with desc := clearRange s.desc (g.2.1 / 64) (n / 64), fe := clearRange s.fe (g.2.1 / 16) (n / 16),
             poison := clearRange s.poison (g.2.1 / 64) (n / 64) }) s

/-- A copy is complete: its image stands in its segments, and its directory says so. -/
def completeCopy (s : State) (v : SaveRun) (dir : Nat) (copyB : Bool) : State :=
  let im := imageOf s v dir copyB
  keepImage (writeDir s dir 1 v.step (saveBytes s v.owners) (maskOf v.owners)) im

/-- A copy failed: STATE says so, and a record names it, both directories in ADDR and POS and the failed copy's in AUX (R74).
Log 70, DEDUCED. -/
def failCopy (s : State) (v : SaveRun) (dir : Nat) : State :=
  addLog (loseCopy s dir) { blankLog with kind := 7, owner := if v.device then 0xFFFF else v.owners.headD 0xFFFF, addr := v.dirA,
                                          pos := v.dirB, aux := dir }

/-! ## The end of a save (R72, R74) -/

/-- The owner's positions become vacant and are zeroed; it stays live. -/
def vacate (s : State) (o : Nat) : State :=
  unplace { s with threads := clearRange s.threads (thrKey o 0) (2 ^ 24), launches := clearRange s.launches (lchKey o 0) (2 ^ 32) } o

def closeSave (s : State) (n : Nat) (v : SaveRun) (status result : Nat) : State :=
  let areas := areaOf s v.dirA ++ areaOf s v.dirB
  let s := { s with saves := s.saves.eraseIdx n, saving := s.saving && !(v.device && !v.restore),
                    restoring := s.restoring && !(v.device && v.restore) }
  let s := restOctets s areas
  match v.cmd with
  | some c => onCmd s c (fun c => { c with phase := .done status result })
  | none => s

/-- The streams end: each copy complete or failed. A save of an owner that is killed waits for the end of its drain
(R74). -/
def endSave (s : State) (n : Nat) (v : SaveRun) (aOk bOk : Bool) : State :=
  let bytes := saveBytes s v.owners
  let t := s
  let s := if aOk then completeCopy s v v.dirA false else failCopy s v v.dirA
  let s := if bOk then completeCopy s v v.dirB true else failCopy s v v.dirB
  let n' := t.fab - v.til
  if !aOk && !bOk then closeSave (thaw s v.owners n') n v 0x000A 0
  else
    let s := if v.cmd.isNone then v.owners.foldl (fun s o => onOwner s o (fun w => { w with auto := true })) s else s
    let s := if v.stop then v.owners.foldl vacate s else thaw s v.owners n'
    closeSave s n v 0x0001 bytes

def execSaveStreamDone (n : Nat) (aOk bOk : Bool) (s : State) : Host.Outcome State Fault Refusal :=
  match s.saves[n]? with
  | none => .next s
  | some v =>
    let dead := v.owners.any (fun o => match owner? s o with
      | some w => w.killed
      | none => true)
    if v.restore || !v.quiet || dead then .next s else .next (endSave s n v aOk bOk)

/-! ## RESTORE (R75) -/

/-- Whether an image stands where a directory's segments are. -/
def inPlace (im : Image) (d : Dir) : Bool := !im.gone && im.segs == d.segs

/-- The image whose lines pass the check of R73 under a directory's SEQ and SVKEY: the one that stands in its segments, or
the last one that a host can have written there. -/
def imageAt (s : State) (d : Dir) : Option Image :=
  let xs := s.images.filter (fun im => im.copyB == d.copyB && im.seq == d.seq && im.key == d.key)
  match xs.find? (inPlace · d) with
  | some im => some im
  | none => xs.getLast?

/-- The usable image of a copy: its STATE reads complete. -/
def copyOf (s : State) (dir : Nat) : Option Image :=
  let d := readDir s dir
  if d.state = 1 then imageAt s d else none

def anyImage (s : State) (a b : Nat) : Option Image :=
  match copyOf s a with
  | some im => some im
  | none => copyOf s b

/-- OWNMASK, from a directory whose STATE is complete. -/
def savedMask (s : State) (a b : Nat) : Nat := if (readDir s a).state = 1 then (readDir s a).mask else (readDir s b).mask

/-- The owners that a restore brings back. -/
def snapsFor (im : Image) (o : Option Nat) : List Snap :=
  match o with
  | some o => im.snaps.filter (·.o == o)
  | none => im.snaps

def posTaken (s : State) (x : Snap) : Bool := x.pos.any (fun p => !posFree s (p.1, p.2.1))

def circDiffers (s : State) (x : Snap) : Bool :=
  x.pos.any (fun p => (posAt s p.1 p.2.1).cstart != p.2.2.2.1 || (posAt s p.1 p.2.1).clen != p.2.2.2.2)

/-- The circuits of each die that has a segment header, and the period, as the headers say; a period that changes restarts the
schedule of instants from here, as a SETCIRC does. Log 68, DEDUCED. -/
def setFromImage (s : State) (im : Image) : State :=
  let s := im.circ.foldl (fun s c => (List.range 12).foldl (fun s col =>
    setPos s c.1 col { posAt s c.1 col with cstart := col / c.2 * c.2, clen := c.2 }) s) s
  if im.circ.isEmpty then s else setPeriod s im.period

/-- The saved positions are taken for the stream; the owner is not placed yet. -/
def reserve (s : State) (x : Snap) : State :=
  let s := x.pos.foldl (fun s p => setPos s p.1 p.2.1 { posAt s p.1 p.2.1 with own := some x.o, lcl := p.2.2.1 }) s
  if (owner? s x.o).isSome then onOwner s x.o (fun w => { w with saving := true, killed := false })
  else { s with owners := put s.owners x.o { x.owner with placed := false, launched := false, map := [], saving := true, killed := false, frozen := false,
                                                           warn := false, standing := none, groups := [], undelivered := [], exch := [], doneq := [] } }

/-- The first refusing code of a restore, given the image found. -/
def restoreRefused (s : State) (c : Cmd) : Option Nat :=
  let x := readDir s c.a0
  let y := readDir s c.a1
  let one := !c.all
  if !(dirOk c.a0 x false && dirOk c.a1 y true && x.seq == y.seq && x.key == y.key && (x.state == 1 || y.state == 1)) then some 0x000A
  else if one && (owner? s c.owner).isNone then some 0x0005
  else if one && (95 < c.owner || savedMask s c.a0 c.a1 / 2 ^ c.owner % 2 == 0) then some 0x0005
  else if one && (match owner? s c.owner with
    | some w => w.placed
    | none => false) then some 0x0006
  else if c.all && !s.owners.isEmpty then some 0x0006
  else match anyImage s c.a0 c.a1 with
    | none => some 0x0009
    | some im =>
      let xs := snapsFor im (if one then some c.owner else none)
      if xs.any (posTaken s) then some 0x0007
      else if one && xs.any (circDiffers s) then some 0x0006
      else none

/-- The lowest owner of a mask. -/
def lowestOf96 (m : Nat) : Nat := ((List.range 96).find? (fun o => m / 2 ^ o % 2 == 1)).getD 0xFFFFFFFF

/-- The part of R55 or R69 that a line of an owner record and its columns belongs to, the record beginning at line `at_`: 0 the
segment header, 1 the owner record, and from 2 on the parts of the column image in the order of R55: contexts, tile SRAM,
full/empty tags, L2 data, L2 sidecars, L2 tags, journal, B SRAM, engine state, and its zeros. Log 70, DEDUCED. -/
def partAt (at_ l : Nat) : Nat :=
  if l < 256 then 0 else if l < at_ + 1024 then 1
  else 2 + (columnParts.filter (· ≤ (l - at_ - 1024) % 177408 / 4)).length

/-- The record of a line that fails in both copies, on a tile of its die (R76). -/
def logLost (s : State) (o die part a b : Nat) : State :=
  addLog s { blankLog with kind := 8, owner := o, place := whereOf ⟨die, 0, 0, false⟩ 0, item := part, addr := a, pos := b }

/-- With no image to be found in either copy, every line of every segment that the directories name fails in both (R76).
Log 68, DEDUCED. -/
def noImage (s : State) (o a b : Nat) : State :=
  (List.range 8).foldl (fun s die =>
    match segOf (readDir s a) die, segOf (readDir s b) die with
    | none, none => s
    | x, y =>
      let x := x.getD (0, 0)
      let y := y.getD (0, 0)
      (List.range (Nat.max x.2 y.2 / 256)).foldl (fun s l => logLost s o die (partAt 256 l)
        (if 256 * l < x.2 then x.1 + 256 * l else 0) (if 256 * l < y.2 then y.1 + 256 * l else 0)) s) s

/-- A RESTORE that comes in a pause runs after RESUME (R37). Log 84, DESIGN CHOICE. -/
def execRestore (n : Nat) (s : State) : Host.Outcome State Fault Refusal :=
  match cmdNow s n 6 with
  | none => .next s
  | some c =>
    if c.a2 ≠ 0 then .next (finish s c 0x0002 0)
    else if paused s then .next s
    else match restoreRefused s c with
      | some code =>
        if code = 0x0009 then
          .next (finish (noImage s (if c.all then 0xFFFF else c.owner) c.a0 c.a1) c code
            (if c.all then lowestOf96 (savedMask s c.a0 c.a1) else c.owner))
        else .next (finish s c code 0)
      | none =>
        match anyImage s c.a0 c.a1 with
        | none => .next s
        | some im =>
          let xs := snapsFor im (if c.all then none else some c.owner)
          let s := xs.foldl reserve (if c.all then setFromImage s im else s)
          let v : SaveRun := ⟨some c.n, xs.map (·.o), c.a0, c.a1, false, true, c.all, true, s.fab, false⟩
          .next (onCmd { s with saves := s.saves ++ [v], restoring := s.restoring || c.all } c.n (fun c => { c with phase := .running }))

/-! ## The restore stream (R75, R76) -/

/-- Lines of an owner on a die: those of its record and columns, and those of the segment's header. -/
def ownLines (im : Image) (o die : Nat) : List (Nat × Nat) :=
  let size := fun (x : Snap) => (x.pos.filter (·.1 == die)).length
  let offs := im.snaps.foldl (fun (acc : List (Nat × Nat × Nat) × Nat) x =>
    if size x = 0 then acc else (acc.1 ++ [(x.o, acc.2, 1024 + 177408 * size x)], acc.2 + 1024 + 177408 * size x)) ([], 256)
  match offs.1.find? (·.1 == o) with
  | some e => [(0, 256), (e.2.1, e.2.2)]
  | none => []

/-- Whether a line belongs to an owner's part of the segments. -/
def lineOf (im : Image) (o : Nat) (ln : Nat) : Bool :=
  (ownLines im o (ln / 2 ^ 24)).any (fun r => r.1 ≤ ln % 2 ^ 24 && ln % 2 ^ 24 < r.1 + r.2)

/-- The tag of R73: a polynomial of the line's words and of the save's number with the line's index. -/
def lineTag (key seq ln : Nat) (bs : List Byte) : Nat :=
  polyHash key ((lineWords 32 bs).map (·.toNat) ++ [seq * 2 ^ 32 + ln % 2 ^ 24]) % 2 ^ 48

/-- Whether a line of a copy passes the stack's ECC and the tag of R73: the tag of its bytes under the directory's SEQ and
SVKEY is the one that the save wrote. -/
def lineGood (s : State) (im : Image) (d : Dir) (ln : Nat) : Bool :=
  match segOf d (ln / 2 ^ 24) with
  | none => false
  | some g =>
    let blks := (List.range 4).map (fun i => ln % 2 ^ 24 * 4 + i)
    let now := blks.flatMap (fun k => blockNow s (g.1 + 64 * k))
    let was := blks.flatMap (fun k => imageBlock im (ln / 2 ^ 24) k)
    !(inPlace im d && im.bad.contains ln) && blks.all (fun k => markAt s (.mem (g.1 + 64 * k)) == 0)
      && ((now == was && im.seq == d.seq && im.key == d.key) || lineTag d.key d.seq ln now == lineTag im.key im.seq ln was)

/-- Lines of a copy in place that a fault, a write or a mark has reached. -/
def reached (s : State) (im : Image) (d : Dir) : List Nat :=
  im.bad ++ im.diff.map (fun b => b / 2 ^ 26 * 2 ^ 24 + b % 2 ^ 26 / 4)
    ++ d.segs.flatMap (fun g => (s.poison.filter (fun p => g.2.1 ≤ p.1 * 64 && p.1 * 64 < g.2.1 + imageSize im g.1)).map
      (fun p => g.1 * 2 ^ 24 + (p.1 * 64 - g.2.1) / 256))

/-- Lines of a copy that may fail: of one in place those reached, else all. -/
def suspects (s : State) (im : Image) (d : Dir) : List Nat :=
  if inPlace im d then (reached s im d).dedup
  else (List.range 8).flatMap (fun die => (List.range (imageSize im die / 256)).map (fun l => die * 2 ^ 24 + l))

def badLines (s : State) (im : Image) (d : Dir) : List Nat := (suspects s im d).filter (fun l => !lineGood s im d l)

/-- Lines that fail in both copies, lines that copy B masks, and whether every line is read from copy B because copy A has no
image at all (R75). -/
def failedLines (s : State) (a b : Nat) : List Nat × List Nat × Bool :=
  match copyOf s a, copyOf s b with
  | some x, some y =>
    let bad := badLines s x (readDir s a)
    (bad.filter (fun l => !lineGood s y (readDir s b) l), bad.filter (lineGood s y (readDir s b)), false)
  | some x, none => (badLines s x (readDir s a), [], false)
  | none, some y => (badLines s y (readDir s b), [], true)
  | none, none => ([], [], false)

def lineAt (s : State) (dir ln : Nat) : Nat :=
  match segOf (readDir s dir) (ln / 2 ^ 24) with
  | some g => g.1 + ln % 2 ^ 24 * 256
  | none => 0

/-- The part that a line of an owner belongs to. -/
def linePart (im : Image) (o ln : Nat) : Nat :=
  match (ownLines im o (ln / 2 ^ 24))[1]? with
  | some r => partAt r.1 (ln % 2 ^ 24)
  | none => 0

/-- The owner whose lines a record names: none for a line of a header that serves several. -/
def lineOwner (im : Image) (os : List Nat) (ln : Nat) : Nat :=
  match os.filter (fun o => lineOf im o ln) with
  | [o] => o
  | _ => 0xFFFF

/-- Put a map's entries back. -/
def merge {α : Type} (m x : SMap α) : SMap α := x.foldl (fun m p => put m p.1 p.2) m

/-- The same for maps with a default value. -/
def mergeD {α : Type} [DecidableEq α] (d : α) (m x : SMap α) : SMap α := x.foldl (fun m p => setD d m p.1 p.2) m

/-- Step buffers after a restore: a saved one stands, with the fragments that have come since. -/
def mergeBufs (now old : List StepBuf) : List StepBuf :=
  let same := fun (a b : StepBuf) => a.o == b.o && a.group == b.group && a.src == b.src && a.step == b.step
  now.filter (fun b => !old.any (same b)) ++ old.map (fun b => match now.find? (same b) with
    | some c => if c.consumed || b.consumed then b else { b with frags := merge b.frags c.frags }
    | none => b)

/-- The owner record after a restore: as saved, with what the steward, the link unit and the region descriptor say now
(R67, R68, R76, R213, R406). -/
def ownerBack (s : State) (x : Snap) (w : Owner) : Owner :=
  let rg := regionAt s x.owner.root
  let ok := regionOk rg
  { x.owner with
    placed := true, killed := false, warn := false, saving := false, frozen := false,
    sen := if ok then fieldOf rg 0 8 == 1 else x.owner.sen,
    vbase := if ok then fieldOf rg 8 8 else x.owner.vbase,
    nb := if ok then fieldOf rg 16 8 else x.owner.nb,
    balanceAt := x.owner.balanceAt + (s.fab - x.fab), exch := [], adv := w.adv, advSrc := w.advSrc, auto := w.auto, due := w.due, standing := w.standing, lastAuto := w.lastAuto,
    groups := x.owner.groups ++ w.groups.filter (fun g => !x.owner.groups.any (·.group == g.group)) }

/-- Forwarding entries keep their remaining lifetime, no line stands in a slice, and job wait limits do not run while the owner is out (R135, R136). -/
def ageCore (n : Nat) (c : Core) : Core :=
  { c with forwards := c.forwards.map (fun f => { f with til := f.til + n }),
           jobs := c.jobs.map (fun b => { b with fewait := b.fewait.map (· + n) }),
           journal := c.journal.map JEnt.unsent, l1 := [], tlb := [], tcache := [], l2 := [] }

/-- An owner's image back on its positions. -/
def placeSnap (s : State) (x : Snap) : State :=
  match owner? s x.o with
  | none => s
  | some w =>
    let n := s.fab - x.fab
    let s := { s with
      owners := put s.owners x.o (ownerBack s x w),
      cores := merge s.cores (x.cores.map (fun p => (p.1, { ageCore n p.2 with epochs := epochsFrom p.2.epochs s.epochTop }))),
      clusters := merge s.clusters (x.clusters.map (fun p => (p.1, { p.2 with tlbMx := [], tlbCu := [], outMx := [], outCu := [] }))),
      threads := merge s.threads (x.threads.map (fun p => (p.1, { p.2 with walks := [] }))), launches := merge s.launches x.launches,
      gfile := mergeD 0 s.gfile x.gfile, vfile := mergeD 0 s.vfile x.vfile,
      spad := mergeD memDefault s.spad x.spad, spadFE := mergeD false s.spadFE x.spadFE, spadPz := mergeD false s.spadPz x.spadPz,
      bsram := mergeD memDefault s.bsram x.bsram, bdesc := mergeD descDefault s.bdesc x.bdesc, bpz := mergeD false s.bpz x.bpz,
      rwrites := s.rwrites ++ x.rwrites, reqs := s.reqs ++ x.held, barriers := s.barriers ++ x.barriers,
      bufs := mergeBufs s.bufs x.bufs, reduces := s.reduces ++ x.reds }
    x.dirty.foldl (fun s d =>
      let p := Spot.mem (d.1 * 64)
      d.2.2.2.2.zipIdx.foldl (fun s f => setFull s (p.add (16 * f.2)) f.1)
        (setMark (setDesc (writeAt s p d.2.1) p d.2.2.1) p d.2.2.2.1)) s

/-- Positions reserved for an owner that does not come back are free again. -/
def giveBack (s : State) (o : Nat) : State := onOwner (freePositions s o) o (fun w => { w with saving := false })

/-- One owner: killed meanwhile, it stays not placed; with a line of its own lost, its restore fails. Log 68, DEDUCED. -/
def restoreOne (im : Image) (lost : List Nat) (acc : State × List Nat) (x : Snap) : State × List Nat :=
  if (owner? acc.1 x.o).any (·.killed) then (giveBack acc.1 x.o, acc.2)
  else if lost.any (lineOf im x.o) then (giveBack acc.1 x.o, acc.2 ++ [x.o])
  else (placeSnap acc.1 x, acc.2)

/-- Lines that a restore of some owners reads on a die: the header's, and those of each owner's record and columns. -/
def dieLines (im : Image) (os : List Nat) (die : Nat) : Nat :=
  let ns := os.filterMap (fun o => ((ownLines im o die)[1]?).map (·.2))
  if ns.isEmpty then 0 else 256 + ns.foldl (· + ·) 0

/-- A line that copy B masks is logged, and so are the lines read from copy B because copy A has no image, die by die.
Log 68, DEDUCED. -/
def logMasked (s : State) (v : SaveRun) (im : Image) (ln n : Nat) : State :=
  addLog s { blankLog with kind := 5, owner := lineOwner im v.owners ln, place := whereOf ⟨ln / 2 ^ 24, 0, 0, false⟩ 0,
                           addr := lineAt s v.dirA ln, pos := lineAt s v.dirB ln, count := n }

/-- The restore stream ends. Each line that is lost is recorded once, whatever owners it fails (R76); a command whose owner was
killed while it ran completes with FAULTED (R38). -/
def endRestore (s : State) (n : Nat) (v : SaveRun) : State :=
  let dead := v.owners.any (fun o => (owner? s o).any (·.killed))
  match anyImage s v.dirA v.dirB with
  | none =>
    let s := noImage s (if v.device then 0xFFFF else v.owners.headD 0xFFFF) v.dirA v.dirB
    closeSave (v.owners.foldl giveBack s) n v (if dead then 0x000B else 0x0009) (if dead then 0 else v.owners.headD 0xFFFFFFFF)
  | some im =>
    let mine := fun (ln : Nat) => v.owners.any (fun o => lineOf im o ln)
    let ls := failedLines s v.dirA v.dirB
    let s := if ls.2.2 then (List.range 8).foldl (fun s die =>
        let n := dieLines im v.owners die - (ls.1.filter (fun ln => mine ln && ln / 2 ^ 24 == die)).length
        if n = 0 then s else logMasked s v im (die * 2 ^ 24) n) s else s
    let s := (ls.2.1.filter mine).foldl (fun s ln => logMasked s v im ln 1) s
    let s := (ls.1.filter mine).foldl (fun s ln =>
      let o := lineOwner im v.owners ln
      logLost s o (ln / 2 ^ 24) (linePart im o ln) (lineAt s v.dirA ln) (lineAt s v.dirB ln)) s
    let r := (im.snaps.filter (fun x => v.owners.contains x.o)).foldl (restoreOne im ls.1) (s, [])
    if dead then closeSave r.1 n v 0x000B 0
    else match r.2 with
    | [] => closeSave r.1 n v 0x0001 (if v.device then 0xFFFFFFFF else v.owners.headD 0)
    | o :: _ => closeSave r.1 n v 0x0009 o

def execRestoreStreamDone (n : Nat) (s : State) : Host.Outcome State Fault Refusal :=
  match s.saves[n]? with
  | none => .next s
  | some v => if v.restore then .next (endRestore s n v) else .next s

end Sys2Proof.Machine
end

