-- ==== Sys2Proof/Machine/Steward.lean ====
section
/-!
DEFINITION. The steward's control (R30, R82 to R94): control intervals, slot disabling, migrations it starts, engine
budgets, governor windows with ballast, and channel consolidation. Sensor readings and power are inputs (log 4, DESIGN CHOICE).
-/

namespace Sys2Proof.Machine

/-! ## Slots and migrations (R83 to R86, R132 to R134) -/

/-- Fabric cycles of a control interval. -/
def controlPeriod : Nat := 28000

/-- A place on a core for a thread's context and windows. -/
def roomFor (s : State) (o : Nat) (t : Thread) (j : Nat) : Option (Nat × Nat × Nat) :=
  match core? s o j with
  | none => none
  | some c =>
    match freeSlot s o j c, firstFit 2048 8 t.gsize (gBusy s o j), firstFit 512 4 t.vsize (vBusy s o j) with
    | some sl, some gb, some vb => some (sl, gb, vb)
    | _, _, _ => none

/-- The first core of the ranking table that takes a thread: cool enough, not the hot core, with room (R84). -/
def migTarget (s : State) (o hot : Nat) (w : Owner) (t : Thread) : Option (Nat × Nat × Nat × Nat) :=
  w.ranking.findSome? (fun r =>
    if r.1 = hot ∨ 35 < r.2.1 ∨ r.2.2 = 0 ∨ (placeOf s o r.1).mv then none
    else (roomFor s o t r.1).map (fun x => (r.1, x)))

/-- The thread that stands in, or is on its way to, a slot. -/
def occupant (s : State) (o j k : Nat) : Option Thread := (threadsOn s o j).find? (·.slot == k)

def slotComing (s : State) (o j k : Nat) : Bool := (coming s o j).any (·.2.1 == k)

/-- A hot core loses its highest enabled slot; with a thread there that cannot move, it enters half issue. It does so too
while that slot is kept for a thread that migrates here, or its thread is dying or migrates already. Half issue ends with the
slot that it stood for, taken from a thread that migrates or found empty. Log 62, DEDUCED. Log 63, DEDUCED. -/
def heatCore (s : State) (o j : Nat) (w : Owner) (c : Core) : State :=
  let k := c.slots - 1
  let half := onCore s o j (fun c => { c with half := true })
  let less := fun (s : State) => onCore s o j (fun c => { c with slots := c.slots - 1, half := false })
  if c.slots ≤ 8 then onCore s o j (fun c => { c with floorN := c.floorN + 1 })
  else if slotComing s o j k then half
  else match occupant s o j k with
    | none => less s
    | some t =>
      if t.status = .dying ∨ t.mig.isSome ∨ warnNow s || w.saving || (placeOf s o j).mv then half
      else match migTarget s o j w t with
        | none => half
        | some m => less (onThr s o t.tid (fun t => { t with mig := some m }))

def coolCore (c : Core) : Core := { c with slots := Nat.min 64 (c.slots + 1), half := false, floorN := 0 }

/-- One core in one control interval. -/
def controlCore (s : State) (o j : Nat) : State :=
  match owner? s o, core? s o j with
  | some w, some c =>
    let temp := tempAt s (placeOf s o j)
    if w.plumb then
      onCore s o j (fun c => { c with skip := if 100 ≤ temp then Nat.min 7 (c.skip + 1) else if temp ≤ 95 then c.skip - 1 else c.skip })
    else if 100 ≤ temp then heatCore s o j w c
    else if temp ≤ 95 then onCore s o j coolCore
    else onCore s o j (fun c => { c with floorN := 0 })
  | _, _ => s

/-- Fabric cycles within which an exchange completes: 80 microseconds (R134). -/
def exchangeTime : Nat := 112000

/-- A core migration starts after 50 intervals at the floor: with the coolest idle core of the owner on the die, none while
another of the owner's runs there. Log 93, DESIGN CHOICE. -/
def exchangeCore (s : State) (o j : Nat) : State :=
  match owner? s o, core? s o j with
  | some w, some c =>
    let p := placeOf s o j
    let busy := w.map.any (fun q => q.mv && q.die == p.die)
    let idle := (List.range (ncores w)).filter (fun k => k != j && (placeOf s o k).die == p.die && (match core? s o k with
      | some x => coreIdle s o k x
      | none => false))
    let best := idle.foldl (fun (b : Option Nat) k => match b with
      | some x => if tempAt s (placeOf s o k) < tempAt s (placeOf s o x) then some k else some x
      | none => some k) none
    if c.floorN < 50 || busy || warnNow s || w.saving then s
    else match best with
      | none => s
      | some k =>
        let mark := fun (m : List Place) (i : Nat) => m.modify i (fun e => { e with mv := true })
        onCore (onOwner s o (fun w => { w with map := mark (mark w.map j) k, exch := put w.exch j (s.fab + exchangeTime) })) o j
          (fun c => { c with floorN := 0 })
  | _, _ => s

/-! ## Engine budgets (R90) -/

/-- The budget of one cluster, the column of an engine. -/
def budgetOf (e : Engine) : Nat :=
  let lim := Nat.min e.bcur e.bth
  if e.bcap < e.bnom ∨ lim < e.bnom then Nat.min e.bnom (Nat.min e.bcap lim) else Nat.min (e.bnom + e.boost) lim

/-- The hottest tile of a cluster's column. -/
def hottest (s : State) (p : Place) : Nat :=
  ((List.range 8).map (fun r => tempAt s ⟨p.die, p.col, r, false⟩)).foldl Nat.max 0

/-- Fabric cycles for which a ramp may hold the package above its cap: 200 microseconds (R91). -/
def rampTime : Nat := 280000

/-- Whether the steward lowers Bcap: package power is above the cap, and it was lowered for that in the interval before, or
a ramp has ended since, or one began 200 microseconds ago, or none runs (R91). -/
def aboveCap (s : State) (watts : Nat) : Bool :=
  s.cap < watts && (s.capDue || s.engines.all (fun p => p.2.rampAt.isNone) || s.engines.any (fun p => match p.2.rampAt with
    | some t => decide (t + rampTime ≤ s.fab)
    | none => false))

/-- A cluster's budget for the next interval, from the readings of its column; `lower` is set where Bcap must fall. -/
def controlColumn (power : List PowerReading) (lower : Bool) (s : State) (p : Place) : State :=
  let temp := hottest s p
  onEngine s p (fun e =>
    let old := e.bcap
    let e := match power.find? (fun r => r.die == p.die && r.col == p.col) with
      | some r => { e with bcap := Nat.min 1024 r.bcap, bcur := Nat.min 1024 r.bcur, boost := Nat.min 128 r.g, bnom := r.bnom.getD e.bnom }
      | none => e
    let e := if lower then { e with bcap := Nat.min old e.bcap - (1 + Config.capStep s.tick (posKey p.die p.col)) } else e
    let e := { e with bth := if 100 ≤ temp then e.bth - 128 else if temp ≤ 95 then Nat.min 1024 (e.bth + 128) else e.bth }
    { e with nextBudget := budgetOf e })

/-- The columns of the package. -/
def allColumns : List Place := (List.range 8).flatMap (fun d => (List.range 12).map (fun c => ⟨d, c, 0, false⟩))

/-! ## The 115 degree limit (R30, R63, R74) -/

/-- The steward saves armed owners into their standing areas with STOP, and stops the package. -/
def saveAndStop (s : State) : State :=
  let s := { s with power := .hot, hotSeen := false }
  s.owners.foldl (fun s p => match p.2.standing with
    | some a => if p.2.placed && !p.2.killed && areaOk s [p.1] a.dirA a.dirB then
        startSave (bumpSeq (bumpSeq s a.dirA) a.dirB) none [p.1] a.dirA a.dirB true false
      else s
    | none => s) s

/-! ## CONTROL_INTERVAL (R82) -/

/-- Every core of every placed owner. -/
def allCores (s : State) : List (Nat × Nat) := s.cores.map (fun p => (p.1 / 1024, p.1 % 1024))

/-- The slope step of a die until the steward sets another (R88). -/
def slopeReset : Nat := 64

/-- An interval's readings: the tiles' temperatures, the power values with each die's slope step, package power in watts, and
a new power cap where the steward has set one (R30). A reading of 115 degrees that comes in a pause or during a save is acted on
after it (R63, R74), and octets that nothing keeps awake any more enter self-refresh (R94). -/
def execControlInterval (temps : List TileReading) (power : List PowerReading) (package : PackageReading)
    (s : State) : Host.Outcome State Fault Refusal :=
  if !accepting s || s.fab < s.controlAt + controlPeriod then .next s
  else
    let heat := temps.foldl (fun (m : SMap Nat) (t : TileReading) => setD 60 m (t.die * 96 + t.col * 8 + t.row) t.temp) s.temps
    let use := s.owners.map (fun (p : Nat × Owner) =>
      (p.1, if p.2.placed then { p.2 with energy := p.2.energy + Config.energyUse p.1 s.tick } else p.2))
    let steps := power.foldl (fun (m : SMap Nat) (r : PowerReading) => setD slopeReset m r.die r.d) s.slopes
    let s := { s with controlAt := s.controlAt + controlPeriod, temps := heat, owners := use, slopes := steps, cap := package.cap.getD s.cap }
    let s := rankAll s
    let s := (allCores s).foldl (fun s p => controlCore s p.1 p.2) s
    let s := (allCores s).foldl (fun s p => exchangeCore s p.1 p.2) s
    let lower := aboveCap s package.watts
    let s := allColumns.foldl (controlColumn power lower) { s with capDue := lower }
    let s := { rankAll (restAll s) with hotSeen := s.hotSeen || temps.any (fun t => 115 ≤ t.temp) }
    if s.hotSeen && !paused s && s.saves.isEmpty && s.power == .ready then .next (saveAndStop s) else .next s

/-! ## Governor windows and ballast (R87 to R89) -/

/-- Ballast of a window: what its job cycles lack to N - D. -/
def ballastOf (prev slope used : Nat) : Nat := prev - slope - used

/-- Whether 1,024 engine cycles of a column's window have passed (R87). Log 51, DESIGN CHOICE. -/
def windowOver (s : State) (p : Place) : Bool := 1024 ≤ cyclesGone s p

/-- A window of a column's engine ends: its ballast is added and charged to the owner whose demand fell, the holder or the
one that has left the column, and the next window has a fresh budget. A ramp ends with a window that needs no ballast. -/
def execGovernorWindow (die col : Nat) (s : State) : Host.Outcome State Fault Refusal :=
  let p : Place := ⟨die, col, 0, false⟩
  if !windowOver s p then .next s
  else
    let e := engineAt s p
    let holder := posAt s die col
    let n := ballastOf e.prev (getD slopeReset s.slopes die) e.used
    let payer := if n = 0 then none else e.payer.or holder.own
    let s := onEngine { s with capDue := s.capDue || (n == 0 && e.rampAt.isSome) } p (fun e =>
      { e with used := 0, prev := e.used + n, winCyc := 0, winAt := s.fab, payer := payer,
               rampAt := if n = 0 then none else some (e.rampAt.getD e.winAt), budget := e.nextBudget })
    .next (match payer with
      | some o => onOwner s o (fun w => { w with energy := w.energy + n * Config.ballastEnergy die col })
      | none => s)

/-! ## Channel consolidation (R92 to R94) -/

/-- Whether a frame's place holds another frame's data. -/
def frameTaken (s : State) (f : Nat) : Bool := s.redirects.any (·.2 == f) || s.moves.any (·.dst == f)

def frameInHbm (f : Nat) : Bool := inHbm (f * frameBytes) frameBytes

/-- A move of an in-use frame into a free frame of another octet starts. -/
def execFrameMove (src dst : Nat) (s : State) : Host.Outcome State Fault Refusal :=
  if paused s || !frameInHbm src || !frameInHbm dst || octetOf (src * frameBytes) == octetOf (dst * frameBytes)
      || !frameUsed s src || frameUsed s dst || frameTaken s dst || s.moves.any (·.src == src) then .next s
  else .next (wakeOctets { s with moves := s.moves ++ [⟨src, dst, 0⟩] } (dst * frameBytes) frameBytes)

/-- Lines of a frame. -/
def frameLines : Nat := 8192

/-- The write of a moved line advances its token in the slice that holds it (R180). -/
def moveToken (s : State) (line : Nat) : State :=
  { s with cores := s.cores.map (fun p => (p.1, { p.2 with l2 := p.2.l2.map (fun l =>
      if l.line = line then { l with count := (l.count + 1) % 2 ^ 32 } else l) })) }

/-- One line moves; after the last, the frame's redirect stands, and the octets that it has left may rest. -/
def execFrameLineMove (src : Nat) (s : State) : Host.Outcome State Fault Refusal :=
  match s.moves.find? (·.src == src) with
  | none => .next s
  | some m =>
    if paused s then .next s
    else
      let s := moveToken s (src * frameLines + m.next)
      if m.next + 1 < frameLines then
        .next { s with moves := s.moves.map (fun x => if x.src = src then { x with next := x.next + 1 } else x) }
      else
        let left := ((lookup s.redirects src).toList ++ [src]).map (fun f => octetOf (f * frameBytes))
        .next (left.foldl maySleep { s with moves := s.moves.filter (·.src != src), redirects := put s.redirects src m.dst })

end Sys2Proof.Machine
end

