-- ==== Sys2Proof/Machine/Faults.lean ====
section
/-!
DEFINITION. Power (R45, R49, R69), single and uncorrectable faults (R63, R78, R411), supply faults, the patrol, and
error-rate windows with their advisories (R66 to R68).
-/

namespace Sys2Proof.Machine

/-! ## Power (R45, R69, R94) -/

/-- Host memory stays as it is when the package loses power. -/
def hostPart (m : Memory) : Memory := m.filter (fun p => hostBase ≤ p.1)

/-- The highest fill epoch of any bank. -/
def epochsOfAll (s : State) : Nat := (s.owners.map (fun p => topEpoch s p.1)).foldl Nat.max 0

/-- Everything the package holds is lost; host memory and what the host has received are outside it, and so are copies of
save images that the host has taken (R69). -/
def lostPower (s : State) : State :=
  { State.reset with power := .off, mem := hostPart s.mem, msix := s.msix, hostAns := s.hostAns,
                     images := s.images.map (fun im => { im with gone := true }), agenda := s.agenda,
                     tick := s.tick, nextId := s.nextId, epochTop := Nat.max s.epochTop (epochsOfAll s) }

def execPowerLoss (s : State) : Host.Outcome State Fault Refusal := .next (lostPower s)

/-- Zeroing begins, and every redirect is cleared. -/
def execPowerUp (s : State) : Host.Outcome State Fault Refusal :=
  if s.power = .off then .next { lostPower s with power := .zeroing } else .next s

/-- READY is set: %time counts from here, and the first instant is one period away. -/
def execPowerUpZeroingDone (s : State) : Host.Outcome State Fault Refusal :=
  if s.power != .zeroing then .next s
  else .next { s with power := .ready, readyAt := s.fab, nextT := s.fab + periodFab s.period, controlAt := s.fab, errAt := s.fab,
                      patrolAt := s.fab, asleep := [], redirects := [], moves := [] }

/-! ## Where a fault is (R66, R80) -/

/-- The tile of a core, or row 0 of the column of a cluster's engine, where there is one. -/
def tileOf (s : State) (o j : Nat) : Option (Place × Nat) := (core? s o j).map (fun _ => (placeOf s o j, o))

def clusterAt (s : State) (o c : Nat) : Option (Place × Nat) := (clus? s o c).map (fun _ => (clusPlace s o c, o))

/-- The place and the owner of a fault in a core, a cluster or on a die; none where the structure does not exist. Parts of
no tile stand at column 0 and row 0 of their die, the lower one of a bridge. Log 21, DEDUCED. -/
def faultSite (s : State) (p : FaultPlace) : Option (Place × Nat) :=
  let on := fun (d : Nat) => some (({ die := d, col := 0, row := 0, mv := false } : Place), 0xFFFF)
  match p with
  | .regFile o j _ | .vecFile o j _ | .special o j _ | .tileBlock o j _ | .l2Line o j _ | .l2Tag o j _ | .journal o j _ | .job o j _
  | .transBuf o j | .datapath o j => tileOf s o j
  | .bsram o c _ | .engineArray o c | .carry o c _ => clusterAt s o c
  | .tables d | .beat d => on d
  | .ballast d c => if (engineAt s ⟨d, c, 0, false⟩).rampAt.isSome then some (⟨d, c, 0, false⟩, 0xFFFF) else none
  | .hbm pa => if rangeOf pa == .hbm then on (dieOfPa pa) else none
  | .bridge d e => if bridged d e then on (Nat.min d e) else none
  | .hostLink m => if m < 2 then on (4 * m) else none
  | .switchRec r => (s.combines.find? (·.id == r)).map (fun c => (⟨c.link.1, 0, 0, false⟩, c.upper.o))
  | .port p => if p < 16 then on 0 else none
  | .saveCopy _ die _ => on die
  | .steward => on 0

/-! ## Corrected errors (R66) -/

/-- The structure of R66 that counts a masked fault at a place: a beat of the network, a ring or a bulk lane counts with its
die. Log 94, DESIGN CHOICE. -/
def counted (p : FaultPlace) (at_ : Place) : Option (Nat × Nat) :=
  match p with
  | .regFile _ _ _ | .vecFile _ _ _ | .special _ _ _ | .tileBlock _ _ _ | .l2Line _ _ _ | .l2Tag _ _ _ | .journal _ _ _ | .job _ _ _
  | .transBuf _ _ | .datapath _ _ | .bsram _ _ _ | .engineArray _ _ | .ballast _ _ | .carry _ _ _ | .tables _ | .beat _ => some (1, at_.die)
  | .hbm pa => some (0, stackOf pa)
  | .bridge d e => some (2, Nat.min d e * 8 + Nat.max d e)
  | .hostLink m => some (3, m)
  | .port _ | .switchRec _ | .saveCopy _ _ _ | .steward => none

/-- Faults that stay in their structure until a patrol pass or a whole write; the others are masked as they happen. -/
def lasting (p : FaultPlace) : Bool :=
  match p with
  | .regFile _ _ _ | .vecFile _ _ _ | .special _ _ _ | .tileBlock _ _ _ | .l2Line _ _ _ | .l2Tag _ _ _ | .journal _ _ _ | .job _ _ _
  | .bsram _ _ _ | .carry _ _ _ | .tables _ | .hbm _ => true
  | .transBuf _ _ | .beat _ | .switchRec _ | .bridge _ _ | .hostLink _ | .port _ | .datapath _ _ | .engineArray _ _ | .ballast _ _
  | .saveCopy _ _ _ | .steward => false

/-! ## Uncorrectable errors (R63) -/

/-- An error in a thread context kills the thread, whatever the action table says. -/
def killContext (s : State) (o j : Nat) (hit : Thread → Bool) : State :=
  ((threadsOn s o j).filter hit).foldl (fun s t => if t.status = .dying then s else killThread s o t.tid) s

/-- An error in an L2 line: a dirty sector becomes poison, a clean line is dropped and fetched again. -/
def l2Error (s : State) (o j line : Nat) : State :=
  match core? s o j with
  | none => s
  | some c =>
    match c.l2.find? (·.line == line) with
    | none => s
    | some l =>
      if l.dirty.isEmpty then onCore s o j (fun c => { c with l2 := c.l2.filter (·.line != line) })
      else l.dirty.foldl (fun s sec => setMark s (.mem (line * 256 + sec * 64)) 2) s

def twoFaults (s : State) (p : FaultPlace) : State :=
  match p with
  | .regFile o j e => killContext s o j (fun t => t.gbase ≤ e && e < t.gbase + t.gsize)
  | .vecFile o j e => killContext s o j (fun t => t.vbase ≤ e && e < t.vbase + t.vsize)
  | .special o j t => killContext s o j (·.slot == t)
  | .tileBlock o j b => setMark s (.spad o j (64 * b)) 3
  | .l2Line o j line | .l2Tag o j line => l2Error s o j line
  | .journal o j seq => match entryAt s o j seq with
    | some e => (match e.phase with
      | .refused _ _ _ => s
      | .ready | .acked | .refusing _ | .late | .busy _ => logPosted s o j e)
    | none => s
  | .job o j id => failJob s o j id Cause.jobf
  | .bsram o c b => setMark s (.bsram o c (64 * b)) 4
  | .hbm pa => setMark s (.mem pa) 1
  | .carry o c _ => match runOf s o c with
    | some (r, _, _) => failJob s o r.k r.id Cause.jobf
    | none => s
  | _ => s

/-! ## SINGLE_FAULT (R78) -/

/-- What a fault that is masked or detected at once does besides its record. Log 21, DEDUCED. -/
def oneFault (s : State) (p : FaultPlace) : State :=
  match p with
  | .transBuf o j => onCore s o j (fun c => { c with tlb := [], tcache := [] })
  | .engineArray o c => match runOf s o c with
    | some (r, b, _) => rerun s o c r b
    | none => s
  | .switchRec r => match s.combines.find? (·.id == r) with
    | some c => failCombine s c
    | none => s
  | .saveCopy copy die line =>
    { s with images := s.images.map (fun im => if !im.gone && im.copyB == (copy == 1) && im.segs.any (·.1 == die) then
        { im with bad := (die * 2 ^ 24 + line) :: im.bad } else im) }
  | _ => s

/-- Kinds of records: corrected or masked, detected; a chunk that the residue check has run again leaves none (R268), and a
fault of a ballast cycle leaves one (R88). -/
def faultKind (s : State) (p : FaultPlace) : Option Nat :=
  match p with
  | .switchRec _ | .steward => some 6
  | .engineArray o c => match runOf s o c with
    | some (r, b, _) => if midChunk r b then none else some 5
    | none => some 5
  | _ => some 5

def faultAddr (p : FaultPlace) : Nat :=
  match p with
  | .hbm pa => pa
  | _ => 0

/-- Two failed symbols of one 64-byte block are detected, wherever in it they lie (R78). -/
def wholeBlock : FaultPlace → FaultPlace
  | .hbm pa => .hbm (pa / 64 * 64)
  | p => p

def execSingleFault (at_ : FaultPlace) (s : State) : Host.Outcome State Fault Refusal :=
  let p := wholeBlock at_
  match faultSite s p with
  | none => .next s
  | some (at_, o) =>
    let record : LogRec := { blankLog with owner := o, place := whereOf at_ 0, addr := faultAddr p }
    if lasting p && s.flips.contains p then
      .next (addLog (twoFaults { s with flips := s.flips.filter (· != p) } p) { record with kind := 6 })
    else
      let s1 := match counted p at_ with
        | some x => countErr s x.1 x.2 1
        | none => s
      let s1 := oneFault s1 p
      let s1 := match faultKind s p with
        | some k => addLog s1 { record with kind := k }
        | none => s1
      .next (if lasting p then { s1 with flips := p :: s1.flips } else s1)

/-- Fabric cycles of a patrol pass: 16 ms. -/
def patrolPeriod : Nat := 22400000

/-- A pass finds and masks the single faults that stand; one of a stack's line is masked as the line is read (R78). -/
def execPatrolScrub (s : State) : Host.Outcome State Fault Refusal :=
  if s.fab < s.patrolAt + patrolPeriod then .next s
  else .next { s with flips := s.flips.filter (fun p => match p with
                        | .hbm _ => true
                        | _ => false), patrolAt := s.patrolAt + patrolPeriod }

/-- A column's supply or clock fails: its owner is killed and the column is out of service until a SETCIRC. -/
def execSupplyFault (die col : Nat) (s : State) : Host.Outcome State Fault Refusal :=
  if !accepting s then .next s
  else .next (failColumns (addLog s { blankLog with kind := 6, place := whereOf ⟨die, col, 0, false⟩ 0 }) die [col])

/-! ## Error-rate windows (R66 to R68) -/

/-- Fabric cycles of 100 ms. -/
def errPeriod : Nat := 140000000

/-- Default thresholds in events per second. -/
def threshold (kind : Nat) : Nat :=
  match kind with
  | 0 => 256 | 1 => 64 | 2 => 16 | 3 => 16 | _ => 1024

/-- Whether a structure concerns an owner. -/
def concerns (w : Owner) (e : ErrRate) : Bool :=
  match e.kind with
  | 0 => w.extents.any (fun x => x.len != 0 && stackOf x.base == e.index)
  | 1 => w.map.any (·.die == e.index)
  | 2 => w.map.any (fun p => p.die == e.index / 8 || p.die == e.index % 8)
  | 3 => true
  | _ => w.groups.any (fun g => g.table.any (·.2 == e.index))

/-- The owner's own threshold, where its standing area names one. -/
def limitOf (w : Owner) (kind : Nat) : Nat :=
  match w.standing with
  | some a => if a.thresh = 0 then threshold kind else a.thresh
  | none => threshold kind

/-- An advisory for an owner. -/
def advise (w : Owner) (kind : Nat) : Owner :=
  { w with adv := Nat.min 0xFFFF (w.adv + 1), advSrc := kind + 1, auto := false, due := w.standing.isSome }

/-- One structure at the end of a window; its record names it by kind and number in ITEM. Log 70, DEDUCED. -/
def windowOf1 (s : State) (e : ErrRate) : State :=
  let rate := e.count * 10
  let recent := match e.last with
    | some t => s.fab < t + second
    | none => false
  let hit := fun (w : Owner) => concerns w e && limitOf w e.kind < rate
  if recent || !(threshold e.kind < rate || s.owners.any (fun p => hit p.2)) then s
  else
    let s := addLog s { blankLog with kind := 4, item := e.kind * 256 + e.index, aux := rate }
    { s with owners := s.owners.map (fun p => (p.1, if hit p.2 then advise p.2 e.kind else p.2)),
             errs := s.errs.map (fun x => if x.kind = e.kind ∧ x.index = e.index then { x with last := some s.fab } else x) }

def execErrorRateWindow (s : State) : Host.Outcome State Fault Refusal :=
  if !accepting s || s.fab < s.errAt + errPeriod then .next s
  else
    let s := s.errs.foldl windowOf1 s
    .next { s with errs := s.errs.map (fun e => { e with count := 0 }), errAt := s.errAt + errPeriod }

end Sys2Proof.Machine
end

