-- ==== Sys2Proof/Machine/LinkIn.lean ====
section
/-!
DEFINITION. What a port does with a received frame, and its retransmissions (R24 to R28). How acks and naks are filled,
and what the link rules leave unsaid, stands in log 20, DESIGN CHOICE.
-/

namespace Sys2Proof.Machine

/-! ## Replies to frames (R27) -/

/-- An ack or nak for a frame: its group, step and ranks turned round. It carries no number of its own and is not held. -/
def controlFrame (type : BitVec 8) (f : Frame) (seq : Nat) : Frame :=
  sealFrame { f with etype := 0x88B5, ver := 1, lvl := 3, type := type, srank := f.drank, drank := f.srank, frag := 0, nfrag := 1,
                     seq := BitVec.ofNat 32 seq, len := 0, fmt := 0, mbz := 0, xcrc := 0, pay := [], fcs := true }

def reply (s : State) (p : Nat) (type : BitVec 8) (f : Frame) (seq : Nat) : State :=
  onPort s p (fun q => { q with outBox := q.outBox ++ [controlFrame type f seq] })

/-- The ack names the last frame received in order. -/
def ackOf (s : State) (p : Nat) (f : Frame) : State := reply s p 2 f (((portAt s p).seqRx + 2 ^ 32 - 1) % 2 ^ 32)

/-- The nak names the expected SEQ. -/
def nakOf (s : State) (p : Nat) (f : Frame) : State := reply s p 3 f (portAt s p).seqRx

/-! ## Drops (R26, R28) -/

/-- A counted drop, in the port's count and in the fault log. -/
def countDrop (s : State) (p : Nat) : State :=
  let s := onPort s p (fun q => { q with drops := q.drops + 1 })
  addLog s { blankLog with kind := 0x0B, item := p, aux := (portAt s p).drops }

/-- The owner that has a group open. -/
def groupOwner (s : State) (group : Nat) : Option (Nat × Group) :=
  s.owners.findSome? (fun q => (q.2.groups.find? (·.group == group)).map (fun g => (q.1, g)))

/-- Whether the FCS and the XCRC hold; a payload of another length than LEN has no XCRC that holds. -/
def frameGood (f : Frame) : Bool := f.fcs && f.pay.length == f.len.toNat && f.xcrc == crc32c (headBytes f ++ f.pay)

/-- The cases of R26 but for the group's being open; VER holds the header version 1 and an ISA level of 1 to 3 (R25). -/
def malformed (f : Frame) : Bool :=
  !(1 ≤ f.type.toNat && f.type.toNat ≤ 4) || f.ver != 1 || !(1 ≤ f.lvl.toNat && f.lvl.toNat ≤ 3) || f.mbz != 0 || 8192 < f.len.toNat || f.nfrag.toNat ≤ f.frag.toNat

/-- Whether number a is ahead of number b, modulo 2^32. -/
def seqAhead (a b : Nat) : Bool :=
  let d := (a % 2 ^ 32 + 2 ^ 32 - b % 2 ^ 32) % 2 ^ 32
  d != 0 && d < 2 ^ 31

/-! ## Accepted frames (R28) -/

/-- Whether this member has granted a step to a peer: the first 8 steps, and each whose step s - 8 is consumed. -/
def granted (s : State) (o group src step : Nat) : Bool :=
  step < 8 || s.bufs.any (fun b => b.o == o && b.group == group && b.src == src && b.step + 8 == step && b.told)

/-- Whether a data frame's payload finds room in the 128 KiB that the link unit holds for an owner on a die (R69). -/
def roomFor69 (s : State) (p o : Nat) (f : Frame) : Bool := heldBytes s o (portDie p) + f.pay.length ≤ 131072

/-- A fragment for the step buffer; one already there stays. -/
def storeFrag (s : State) (o : Nat) (f : Frame) : State :=
  let is := fun (b : StepBuf) => b.o == o && b.group == f.group.toNat && b.src == f.srank.toNat && b.step == f.step.toNat
  if s.bufs.any is then
    { s with bufs := s.bufs.map (fun b =>
        if is b && (lookup b.frags f.frag.toNat).isNone then { b with frags := put b.frags f.frag.toNat f.pay } else b) }
  else { s with bufs := s.bufs ++ [⟨o, f.group.toNat, f.srank.toNat, f.step.toNat, f.fmt.toNat, f.nfrag.toNat,
      [(f.frag.toNat, f.pay)], false, false⟩] }

/-- Whether a step of a sender was consumed before. -/
def consumedStep (s : State) (o group src step : Nat) : Bool :=
  s.bufs.any (fun b => b.o == o && b.group == group && b.src == src && b.step == step && b.consumed)

/-- A data frame: a step that has no credit, or whose credit is spent, is dropped and counted, and its peer reported. -/
def takeData (s : State) (p o : Nat) (f : Frame) : State :=
  if granted s o f.group.toNat f.srank.toNat f.step.toNat && !consumedStep s o f.group.toNat f.srank.toNat f.step.toNat then
    storeFrag s o f
  else logOf (countDrop s p) o 6 0 9 (f.group.toNat * 2 ^ 32 + f.srank.toNat)

def takeCredit (s : State) (o : Nat) (f : Frame) : State :=
  let c : Credit := ⟨o, f.group.toNat, f.srank.toNat, f.step.toNat⟩
  if s.credits.contains c then s else { s with credits := s.credits ++ [c] }

/-- A numbered frame: in order it is taken and acknowledged, received before it is acknowledged again, ahead of the
expected SEQ it is dropped (go-back-N). Data that finds the owner's 128 KiB full is neither taken nor acknowledged, so
that it comes again (R69). A data frame that R28 drops for want of credit has arrived in order: it takes its SEQ and is
acknowledged. Log 20, DESIGN CHOICE. -/
def numbered (s : State) (p o : Nat) (f : Frame) : State :=
  let want := (portAt s p).seqRx
  if f.seq.toNat = want then
    if f.type = 1 && !roomFor69 s p o f then s
    else
    let s := onPort s p (fun q => { q with seqRx := (want + 1) % 2 ^ 32 })
    ackOf (if f.type = 1 then takeData s p o f else takeCredit s o f) p f
  else if seqAhead f.seq.toNat want then s
  else ackOf s p f

/-! ## The sender (R27) -/

/-- The frames on the wire: the oldest 512 held. -/
def windowOf (q : Port) : List Frame := q.sent.take 512

/-- An ack frees the held frames up to its SEQ; frames that enter the window are transmitted. -/
def takeAck (s : State) (p : Nat) (f : Frame) : State :=
  onPort s p (fun q =>
    let left := q.sent.filter (fun g => seqAhead g.seq.toNat f.seq.toNat)
    let gone := q.sent.length - left.length
    if gone = 0 then q
    else { q with sent := left, outBox := q.outBox ++ (left.take 512).drop ((windowOf q).length - gone),
                  tries := q.tries.filter (fun x => left.any (fun g => g.seq.toNat == x.1)), since := s.fab,
                  owed := q.owed.filter (fun x => left.any (fun g => g.seq.toNat == x.1)),
                  failed := q.failed.filter (fun x => left.any (fun g => g.seq.toNat == x)) })

/-- What is in flight on a port that goes down fails, message by message (R27, R79). -/
def failPort (s : State) (p : Nat) : State :=
  let on := fun (t : Thread) => match linkWait t, t.status with
    | some m, .waiting (.linkSend g peer _ _ _) | some m, .waiting (.linkRecv g peer _ _ _) =>
      (match groupAt s t.o g with
        | some x => if peerPort x peer = p then some (t.o, m) else none
        | none => none)
    | _, _ => none
  let waits := (s.threads.map (·.2)).filterMap on
  let reds := s.reduces.filterMap (fun r => match groupAt s r.o r.group with
    | some x => if (redPeers x).any (fun k => peerPort x k == p) then some (r.o, (r.group, r.step)) else none
    | none => none)
  let held := (heldMsgs (portAt s p)).map (fun m => (((groupOwner s m.1).map (·.1)).getD 0xFFFF, m))
  (held ++ waits ++ reds).dedup.foldl (fun s x => logLink s x.1 x.2) s

/-- Groups with a message of these among what fails: their next operation reports it (R407). -/
def markGroups (s : State) (ms : List (Nat × Nat)) : State :=
  { s with owners := s.owners.map (fun p => (p.1, { p.2 with groups := p.2.groups.map (fun g =>
      if ms.any (·.1 == g.group) then { g with failed := true } else g) })) }

def portDown (s : State) (p : Nat) : State :=
  onPort (markGroups (failPort s p) (heldMsgs (portAt s p))) p (fun q => { q with down := true, sent := [], tries := [], owed := [], failed := [] })

/-- Held frames from a SEQ on are transmitted again; once one of them has been retransmitted 16 times without an ack the
port is down. -/
def resend (s : State) (p : Nat) (old : Frame → Bool) : State :=
  let q := portAt s p
  let again := (windowOf q).filter (fun f => !old f)
  if again.isEmpty then s
  else if again.any (fun f => 16 ≤ getD 0 q.tries f.seq.toNat) then portDown s p
  else onPort (countErr s 4 p again.length) p (fun q =>
    { q with outBox := q.outBox ++ again, since := s.fab,
             tries := again.foldl (fun m f => put m f.seq.toNat (getD 0 m f.seq.toNat + 1)) q.tries })

/-! ## The events -/

/-- A received frame; one of another EtherType is dropped and counted (R24; log 20, DESIGN CHOICE). -/
def receiveFrame (p : Nat) (f : Frame) (s : State) : State :=
  if (portAt s p).down then s
  else if f.fcs && f.etype != 0x88B5 then countDrop s p
  else if !frameGood f then nakOf s p f
  else if malformed f then countDrop s p
  else
    match groupOwner s f.group.toNat with
    | none => countDrop s p
    | some (o, _) =>
      if f.type = 2 then takeAck s p f
      else if f.type = 3 then resend s p (fun g => seqAhead f.seq.toNat g.seq.toNat)
      else numbered s p o f

/-- A frame of TYPE 1, or of a reserved TYPE; or a frame of another EtherType, which the link unit drops and counts
(R24). -/
def execDataFrame (port : Nat) (f : Frame) (s : State) : Host.Outcome State Fault Refusal :=
  if f.etype = 0x88B5 && 2 ≤ f.type.toNat && f.type.toNat ≤ 4 then .next s else .next (receiveFrame port f s)

def execAckFrame (port : Nat) (f : Frame) (s : State) : Host.Outcome State Fault Refusal :=
  if f.type = 2 then .next (receiveFrame port f s) else .next s

def execNakFrame (port : Nat) (f : Frame) (s : State) : Host.Outcome State Fault Refusal :=
  if f.type = 3 then .next (receiveFrame port f s) else .next s

def execCreditFrame (port : Nat) (f : Frame) (s : State) : Host.Outcome State Fault Refusal :=
  if f.type = 4 then .next (receiveFrame port f s) else .next s

/-- Fabric cycles of 10 microseconds. -/
def ackWait : Nat := 14000

def execRetransmitTimeout (port : Nat) (s : State) : Host.Outcome State Fault Refusal :=
  let q := portAt s port
  if q.down || q.sent.isEmpty || s.fab < q.since + ackWait then .next s else .next (resend s port (fun _ => false))

end Sys2Proof.Machine
end

