-- ==== Sys2Proof/Machine/Memory.lean ====
section
/-!
DEFINITION. Loads, stores, full/empty accesses, atomics, versioned lines and fences (R334 to R346).
-/

namespace Sys2Proof.Machine

/-! ## Loads and stores (R334 to R337) -/

/-- LD: from the L1 copy, or performed at the target; an acquire is performed there (R193, R197). -/
def ldSem (ord : Ord) (o : MemOp) (e : Env) : XRes :=
  let va := ea e.s e.t o.ad
  let n := bytesOfType o.ty
  withSpan e (checkSpan e .ld .load va n n) (fun loc _ =>
    let r := reqFor e (.load n (isSigned o.ty) o.d) va loc n none (ordAcq ord)
    match loc, ordAcq ord with
    | .mem l pa, none =>
      match l1Hit e l pa n with
      | some bs => .ok (plumbDue (l1Touch e.s e pa n) e.t.o e.t.tid r.tgt) (Wr.ofG o.d (extend (isSigned o.ty) n (wordOfList bs)))
      | none => ask e r
    | _, _ => ask e r)

def execLd (ord : Ord) (o : MemOp) (s : State) : Host.Outcome State Fault Refusal := runX (.ld ord o) (ldSem ord o) s

/-- Whether a store to the replicated class must wait for a full buffer (R186). -/
def applyFull (e : Env) (loc : Loc) : Bool := replFull e.s e.t.o e.t.tid loc

/-- Log 29, DEDUCED. -/
def stSem (ord : Ord) (o : MemOp) (e : Env) : XRes :=
  let va := ea e.s e.t o.ad
  let n := bytesOfType o.ty
  withSpan e (checkSpan e .st .store va n n) (fun loc _ =>
    if applyFull e loc then .again e.s .apply
    else
      let data := listOfWord (e.g o.d) n
      post e (reqFor e (.store data) va loc n (ordRel ord) none) (allOn data))

def execSt (ord : Ord) (o : MemOp) (s : State) : Host.Outcome State Fault Refusal := runX (.st ord o) (stSem ord o) s

/-- VLD and VLD.desc: 64 bytes under a byte-lane mask (R335, R336). Log 28, DEDUCED. -/
def vloadSem (ord : Ord) (d : VReg) (k : MReg) (va : Word) (desc : Option GReg) (e : Env) : XRes :=
  let al := if desc.isSome then 64 else 16
  withSpan e (checkSpan e (if desc.isSome then .vldDesc else .ld) .load va 64 al) (fun loc more =>
    if va.toNat % 64 ≠ 0 then loadPieces e d k va loc more (ordAcq ord)
    else
    let r := reqFor e (.vload d (e.m k) desc) va loc 64 none (ordAcq ord)
    match loc, ordAcq ord, desc with
    | .mem l pa, none, none =>
      match l1Hit e l pa 64 with
      | some bs => .ok (plumbDue (l1Touch e.s e pa 64) e.t.o e.t.tid r.tgt) (Wr.ofV d (mergeLanes (e.m k) (e.old d) (bytesVec bs)))
      | none => ask e r
    | _, _, _ => ask e r)

def vldSem (ord : Ord) (o : VMem) (e : Env) : XRes := vloadSem ord o.d o.k (ea e.s e.t o.ad) none e

def execVld (ord : Ord) (o : VMem) (s : State) : Host.Outcome State Fault Refusal := runX (.vld ord o) (vldSem ord o) s

def vldDescSem (ord : Ord) (d : VReg) (k : MReg) (m : M3) (e : Env) : XRes :=
  vloadSem ord d k (ea3 e.s e.t m) (some m.c) e

def execVldDesc (ord : Ord) (d : VReg) (k : MReg) (m : M3) (s : State) : Host.Outcome State Fault Refusal :=
  runX (.vldDesc ord d k m) (vldDescSem ord d k m) s

/-- VST and VST.desc (R335, R336). -/
def vstoreSem (ord : Ord) (d : VReg) (k : MReg) (va : Word) (desc : Option (BitVec 16)) (e : Env) : XRes :=
  let al := if desc.isSome then 64 else 16
  withSpan e (checkSpan e (if desc.isSome then .vstDesc else .st) .store va 64 al) (fun loc more =>
    if applyFull e loc then .again e.s .apply
    else if va.toNat % 64 ≠ 0 then storePieces e (e.v d) (e.m k) va loc more (ordRel ord)
    else post e (reqFor e (.vstore (e.v d) (e.m k) desc) va loc 64 (ordRel ord) none) (maskBytes (e.v d) (e.m k)))

def vstSem (ord : Ord) (o : VMem) (e : Env) : XRes := vstoreSem ord o.d o.k (ea e.s e.t o.ad) none e

def execVst (ord : Ord) (o : VMem) (s : State) : Host.Outcome State Fault Refusal := runX (.vst ord o) (vstSem ord o) s

def vstDescSem (ord : Ord) (d : VReg) (k : MReg) (m : M3) (e : Env) : XRes :=
  vstoreSem ord d k (ea3 e.s e.t m) (some ((e.g m.c).setWidth 16)) e

def execVstDesc (ord : Ord) (d : VReg) (k : MReg) (m : M3) (s : State) : Host.Outcome State Fault Refusal :=
  runX (.vstDesc ord d k m) (vstDescSem ord d k m) s

/-- PRF: a fill that never traps; one that would fault, and one of a device page or a host extent, does nothing
(R332, R337). -/
def prfSem (ad : Addr) (e : Env) : XRes :=
  let va := ea e.s e.t ad
  if va.extractLsb' 57 7 != 0 || isSpadVa va.toNat then .ok e.s Wr.none
  else
    match lookupPage e.s e.t (va.toNat / 65536) with
    | none => let p := walkFor e.s e.t (va.toNat / 65536); .again p.1 p.2
    | some (.leaf l) =>
      let pa := l.pa + va.toNat % 65536
      if l.cls = 3 ∨ l.cls = 4 ∨ isEHost e.w pa then .ok e.s Wr.none
      else .ok (addReq e.s (reqFor e .prf va (.mem l pa) 1 none none)) Wr.none
    | some (.xlat _ _) | some (.prot _) => .ok e.s Wr.none

def execPrf (ad : Addr) (s : State) : Host.Outcome State Fault Refusal := runX (.prf ad) (prfSem ad) s

/-- FLUSHL1: every L1 line of the core goes, and fills on their way install nothing (R169, R287, R337). -/
def flushl1Sem (e : Env) : XRes := .ok (dropL1 e.s e.t.o e.t.core) Wr.none

def execFlushl1 (s : State) : Host.Outcome State Fault Refusal := runX .flushl1 flushl1Sem s

/-! ## Full/empty accesses (R338 to R340) -/

def ldsGen (clr : Bool) (sc : Scope) (o : MemOp) (e : Env) : XRes :=
  let va := ea e.s e.t o.ad
  let n := bytesOfType o.ty
  withSpan e (checkSpan e .fe (if clr then .atomic else .load) va n n) (fun loc _ =>
    ask e (reqFor e (.lds clr n (isSigned o.ty) o.d) va loc n none (some sc)))

def ldsSem (sc : Scope) (o : MemOp) (e : Env) : XRes := ldsGen false sc o e
def ldsClrSem (sc : Scope) (o : MemOp) (e : Env) : XRes := ldsGen true sc o e

def execLds (sc : Scope) (o : MemOp) (s : State) : Host.Outcome State Fault Refusal := runX (.lds sc o) (ldsSem sc o) s
def execLdsClr (sc : Scope) (o : MemOp) (s : State) : Host.Outcome State Fault Refusal :=
  runX (.ldsClr sc o) (ldsClrSem sc o) s

/-- STF is always a release at .sys (R339). -/
def stfSem (o : MemOp) (e : Env) : XRes :=
  let va := ea e.s e.t o.ad
  let n := bytesOfType o.ty
  withSpan e (checkSpan e .fe .store va n n) (fun loc _ =>
    let data := listOfWord (e.g o.d) n
    post e (reqFor e (.stf data) va loc n (some .sys) none) (allOn data))

def execStf (o : MemOp) (s : State) : Host.Outcome State Fault Refusal := runX (.stf o) (stfSem o) s

def fecSem (full : Bool) (d : GReg) (ad : Addr) (e : Env) : XRes :=
  let va := ea e.s e.t ad
  withSpan e (checkSpan e .fe .atomic va 1 1) (fun loc _ =>
    ask e (reqFor e (.fec full d) va loc 1 none none))

def execFec (full : Bool) (d : GReg) (ad : Addr) (s : State) : Host.Outcome State Fault Refusal :=
  runX (.fec full d ad) (fecSem full d ad) s

/-! ## Atomics (R341 to R343) -/

/-- A read-modify-write of one word at its target. -/
def rmwAsk (e : Env) (kind : ReqKind) (va : Word) (n : Nat) (ord : Ord) (loc : Loc) : XRes :=
  ask e (reqFor e kind va loc n (ordRel ord) (ordAcq ord))

def amoSem (op : AmoOp) (ty : IType) (ord : Ord) (d : GReg) (m : M3) (e : Env) : XRes :=
  let va := ea3 e.s e.t m
  let n := bytesOfType ty
  withSpan e (checkSpan e .amo .atomic va n n) (fun loc _ =>
    rmwAsk e (.amo op n (isSigned ty) (e.g m.c) d) va n ord loc)

def execAmoAdd (ty : IType) (ord : Ord) (d : GReg) (m : M3) (s : State) : Host.Outcome State Fault Refusal :=
  runX (.amoAdd ty ord d m) (amoSem .add ty ord d m) s
def execAmoAnd (ty : IType) (ord : Ord) (d : GReg) (m : M3) (s : State) : Host.Outcome State Fault Refusal :=
  runX (.amoAnd ty ord d m) (amoSem .and ty ord d m) s
def execAmoOr (ty : IType) (ord : Ord) (d : GReg) (m : M3) (s : State) : Host.Outcome State Fault Refusal :=
  runX (.amoOr ty ord d m) (amoSem .or ty ord d m) s
def execAmoXor (ty : IType) (ord : Ord) (d : GReg) (m : M3) (s : State) : Host.Outcome State Fault Refusal :=
  runX (.amoXor ty ord d m) (amoSem .xor ty ord d m) s
def execAmoMin (ty : IType) (ord : Ord) (d : GReg) (m : M3) (s : State) : Host.Outcome State Fault Refusal :=
  runX (.amoMin ty ord d m) (amoSem .min ty ord d m) s
def execAmoMax (ty : IType) (ord : Ord) (d : GReg) (m : M3) (s : State) : Host.Outcome State Fault Refusal :=
  runX (.amoMax ty ord d m) (amoSem .max ty ord d m) s
def execAmoSwap (ty : IType) (ord : Ord) (d : GReg) (m : M3) (s : State) : Host.Outcome State Fault Refusal :=
  runX (.amoSwap ty ord d m) (amoSem .swap ty ord d m) s

/-- AMO.fadd: PLUMB in plumb mode, unless a lower cause is met (R342). -/
def amoFaddSem (ord : Ord) (d : GReg) (m : M3) (e : Env) : XRes :=
  let va := ea3 e.s e.t m
  match checkSpan e .amo .atomic va 4 4 with
  | .miss page => let p := walkFor e.s e.t page; .again p.1 p.2
  | .bad t => if e.w.plumb ∧ Cause.plumb < t.cause then .trapC (mkTrap Cause.plumb 0 0) else .trapC t
  | .ok loc _ =>
    if e.w.plumb then .trapC (mkTrap Cause.plumb 0 0)
    else rmwAsk e (.fadd ((e.g m.c).setWidth 32) d) va 4 ord loc

def execAmoFadd (ord : Ord) (d : GReg) (m : M3) (s : State) : Host.Outcome State Fault Refusal :=
  runX (.amoFadd ord d m) (amoFaddSem ord d m) s

def casSem (ty : IType) (ord : Ord) (d : GReg) (m : M3) (e : Env) : XRes :=
  let va := ea3 e.s e.t m
  let n := bytesOfType ty
  withSpan e (checkSpan e .amo .atomic va n n) (fun loc _ =>
    rmwAsk e (.cas n (isSigned ty) (extend false n (e.g d)) (e.g m.c) d) va n ord loc)

def execCas (ty : IType) (ord : Ord) (d : GReg) (m : M3) (s : State) : Host.Outcome State Fault Refusal :=
  runX (.cas ty ord d m) (casSem ty ord d m) s

/-! ## Versioned lines (R344, R345) -/

def ldvSem (d : GReg) (ad : Addr) (e : Env) : XRes :=
  let va := ea e.s e.t ad
  withSpan e (checkSpan e .ldv .load va 1 1) (fun loc _ =>
    ask e (reqFor e (.ldv d) va loc 1 none none))

def execLdv (d : GReg) (ad : Addr) (s : State) : Host.Outcome State Fault Refusal := runX (.ldv d ad) (ldvSem d ad) s

/-- The LVA of a CSTOR block that are in use: those before the first zero. -/
def leadingLvas : List Word → List Word
  | [] => []
  | x :: xs => if x = 0 then [] else x :: leadingLvas xs

/-- Whether a CSTOR block's LVA are in order: at least one, none after a zero, no two equal (R345). -/
def lvasOk (l : List Word) : Bool :=
  let n := (leadingLvas l).length
  n != 0 && (l.drop n).all (· == 0) && decide ((leadingLvas l).Nodup)

/-- The first page that a list of checks misses. -/
def firstMiss (l : List Chk) : Option Nat := (l.filterMap (fun c => match c with
  | .miss p => some p
  | .ok _ | .bad _ => none)).head?

def chkTraps (l : List Chk) : List (Option TrapInfo) := l.map (fun c => match c with
  | .bad t => some t
  | .ok _ | .miss _ => none)

def chkLocs (l : List Chk) : List (Leaf × Nat) := l.filterMap (fun c => match c with
  | .ok (.mem lf pa) => some (lf, pa)
  | .ok (.spad _ _) | .bad _ | .miss _ => none)

def cstorSem (ord : Ord) (d : GReg) (ad : Addr) (e : Env) : XRes :=
  let va := ea e.s e.t ad
  match lowest (alignTrap va 64 64) (homeArea e .load va 64).2 with
  | some t => .trapC t
  | none =>
    let off := va.toNat % 2 ^ 20
    if pendingOn e (homeTarget e) [(off, 1088)] then .again e.s .release
    else
      let blk := homeBytes e off 64
      if blk.2 != 0 then poisonT e.s blk.2 va
      else
        let lvas := (lineWords 4 (blk.1)).take 4
        let toks := (lineWords 4 (blk.1.drop 32)).map (·.toNat)
        let lines := leadingLvas lvas
        let n := lines.length
        let desc := if lvasOk lvas then none else some (mkTrap Cause.desc 0xFFFF va)
        let area := (homeArea e .load va (64 + 256 * n)).2
        let own := (watchHit e.t va.toNat (64 + 256 * n) true false).map (fun i => mkTrap Cause.watch i va)
        let chks := lines.map (fun a => check e.s e.w e.t .ldv .store a 256 256)
        match firstMiss chks with
        | some page => let p := walkFor e.s e.t page; .again p.1 p.2
        | none =>
          match lowestOf (area :: own :: desc :: chkTraps chks) with
          | some t => .trapC t
          | none =>
            let dat := homeBytes e (off + 64) (256 * n)
            if dat.2 != 0 then poisonT e.s dat.2 va
            else
              let locs := chkLocs chks
              let datas := (List.range n).map (fun i => (dat.1.drop (256 * i)).take 256)
              match locs with
              | [] => .trapC (protTrap .store 6 va)
              | (l0, pa0) :: _ =>
                let lns := locs.map (fun p => (homeCore p.1 (p.2 / 256), p.2, 0))
                let r := reqFor e (.cstor lns (toks.take n) datas d) (lines.headD 0) (.mem l0 pa0) 256
                  (ordRel ord) (ordAcq ord)
                ask e r

def execCstor (ord : Ord) (d : GReg) (ad : Addr) (s : State) : Host.Outcome State Fault Refusal :=
  runX (.cstor ord d ad) (cstorSem ord d ad) s

/-! ## Fences (R346, R197) -/

/-- FENCE.rel retires at once: each later store waits for what comes before it. -/
def fenceSem (k : FenceKind) (sc : Scope) (e : Env) : XRes :=
  match k with
  | .acq => .ok e.s { Wr.none with acq := some sc }
  | .rel => .ok { onThr e.s e.t.o e.t.tid (fun t => noteFence t (wideScope e.t sc) e.s.nextId) with nextId := e.s.nextId + 1 } Wr.none
  | .full => if releaseNow e.s e.t sc then .ok e.s { Wr.none with acq := some sc } else .again e.s .release

def execFence (k : FenceKind) (sc : Scope) (s : State) : Host.Outcome State Fault Refusal :=
  runX (.fence k sc) (fenceSem k sc) s

end Sys2Proof.Machine
end

