-- ==== Sys2Proof/Machine/Scalar.lean ====
section
/-!
DEFINITION. Scalar integer, bit-field, constant, compare and control-transfer operations (R310 to R329).
-/

namespace Sys2Proof.Machine

/-! ## Two-operand integer operations (R312 to R315, R321) -/

/-- A per-sub-element result: f takes the width, the signedness and both sub-elements. -/
def aluResult (e : Env) (o : Alu) (f : Nat → Bool → Nat → Nat → Nat) : Word :=
  let w := iw o.ty
  let x := (e.g o.a).toNat
  joinWord w (fun j => f w (isSigned o.ty) (el w j x) (opB e w o.src j))

def aluSem (o : Alu) (f : Nat → Bool → Nat → Nat → Nat) (e : Env) : XRes := e.give o.d (aluResult e o f)

def elAdd (w : Nat) (_ : Bool) (x y : Nat) : Nat := (x + y) % 2 ^ w
def elSub (w : Nat) (_ : Bool) (x y : Nat) : Nat := (x + 2 ^ w - y) % 2 ^ w
def elMul (w : Nat) (_ : Bool) (x y : Nat) : Nat := x * y % 2 ^ w
def elMulh (w : Nat) (sgn : Bool) (x y : Nat) : Nat := wrapTo w (readAs sgn w x * readAs sgn w y / (2 ^ w : Nat))
def elAnd (_ : Nat) (_ : Bool) (x y : Nat) : Nat := x &&& y
def elOr (_ : Nat) (_ : Bool) (x y : Nat) : Nat := x ||| y
def elXor (_ : Nat) (_ : Bool) (x y : Nat) : Nat := x ^^^ y
def elAndn (w : Nat) (_ : Bool) (x y : Nat) : Nat := x &&& (2 ^ w - 1 - y)
def elOrn (w : Nat) (_ : Bool) (x y : Nat) : Nat := x ||| (2 ^ w - 1 - y)
def elShl (w : Nat) (_ : Bool) (x y : Nat) : Nat := shlEl w x (y % 256)
def elShr (w : Nat) (_ : Bool) (x y : Nat) : Nat := shrEl w x (y % 256)
def elSar (w : Nat) (_ : Bool) (x y : Nat) : Nat := sarEl w x (y % 256)
def elRot (w : Nat) (_ : Bool) (x y : Nat) : Nat := rotEl w x (y % 256)
def elMin (w : Nat) (sgn : Bool) (x y : Nat) : Nat := if readAs sgn w x ≤ readAs sgn w y then x else y
def elMax (w : Nat) (sgn : Bool) (x y : Nat) : Nat := if readAs sgn w y ≤ readAs sgn w x then x else y

def execAdd (o : Alu) (s : State) : Host.Outcome State Fault Refusal := runX (.add o) (aluSem o elAdd) s
def execSub (o : Alu) (s : State) : Host.Outcome State Fault Refusal := runX (.sub o) (aluSem o elSub) s
def execMul (o : Alu) (s : State) : Host.Outcome State Fault Refusal := runX (.mul o) (aluSem o elMul) s
def execMulh (o : Alu) (s : State) : Host.Outcome State Fault Refusal := runX (.mulh o) (aluSem o elMulh) s
def execAnd (o : Alu) (s : State) : Host.Outcome State Fault Refusal := runX (.and o) (aluSem o elAnd) s
def execOr (o : Alu) (s : State) : Host.Outcome State Fault Refusal := runX (.or o) (aluSem o elOr) s
def execXor (o : Alu) (s : State) : Host.Outcome State Fault Refusal := runX (.xor o) (aluSem o elXor) s
def execAndn (o : Alu) (s : State) : Host.Outcome State Fault Refusal := runX (.andn o) (aluSem o elAndn) s
def execOrn (o : Alu) (s : State) : Host.Outcome State Fault Refusal := runX (.orn o) (aluSem o elOrn) s
def execShl (o : Alu) (s : State) : Host.Outcome State Fault Refusal := runX (.shl o) (aluSem o elShl) s
def execShr (o : Alu) (s : State) : Host.Outcome State Fault Refusal := runX (.shr o) (aluSem o elShr) s
def execSar (o : Alu) (s : State) : Host.Outcome State Fault Refusal := runX (.sar o) (aluSem o elSar) s
def execRot (o : Alu) (s : State) : Host.Outcome State Fault Refusal := runX (.rot o) (aluSem o elRot) s
def execMin (o : Alu) (s : State) : Host.Outcome State Fault Refusal := runX (.min o) (aluSem o elMin) s
def execMax (o : Alu) (s : State) : Host.Outcome State Fault Refusal := runX (.max o) (aluSem o elMax) s

/-- R244: quotient and remainder, truncating toward zero. -/
def divPair (sgn : Bool) (w x y : Nat) : Nat × Nat :=
  let a := readAs sgn w x
  let b := readAs sgn w y
  if y = 0 then (if sgn then (if 0 ≤ a then wrapTo w (-1) else 1) else 2 ^ w - 1, x)
  else (wrapTo w (Int.tdiv a b), wrapTo w (Int.tmod a b))

/-- Whether some sub-element divides by zero. -/
def anyZero (e : Env) (o : Alu) : Bool := (List.range (64 / iw o.ty)).any (fun j => opB e (iw o.ty) o.src j == 0)

/-- DIV and REM: with IDZE a zero divisor raises IDZ; otherwise it sets DZ (R315). -/
def divSem (o : Alu) (f : Nat × Nat → Nat) (e : Env) : XRes :=
  let z := anyZero e o
  if z && fpcIDZE e.t.fpc then .trapC (mkTrap Cause.idz 0 0)
  else .ok e.s { Wr.ofG o.d (aluResult e o (fun w sgn x y => f (divPair sgn w x y))) with flags := if z then fDZ else 0 }

def execDiv (o : Alu) (s : State) : Host.Outcome State Fault Refusal := runX (.div o) (divSem o (·.1)) s
def execRem (o : Alu) (s : State) : Host.Outcome State Fault Refusal := runX (.rem o) (divSem o (·.2)) s

def cmpSem (cc : Cond) (o : Alu) (e : Env) : XRes := aluSem o (fun w _ x y => if iCond cc w x y then 1 else 0) e

def execCmp (cc : Cond) (o : Alu) (s : State) : Host.Outcome State Fault Refusal := runX (.cmp cc o) (cmpSem cc o) s

/-! ## One-source operations and bit fields (R316 to R318) -/

/-- The place of the highest one bit below bit n counts the zeros above it. -/
def clzEl (w x : Nat) : Nat := if x = 0 then w else w - 1 - Nat.log2 x

/-- Trailing zeros among n bits. -/
def ctzEl : Nat → Nat → Nat
  | 0, _ => 0
  | n + 1, x => if x % 2 = 1 then 0 else 1 + ctzEl n (x / 2)

/-- Bits in reverse order. -/
def brevEl : Nat → Nat → Nat
  | 0, _ => 0
  | n + 1, x => (x % 2) * 2 ^ n + brevEl n (x / 2)

def unSem (o : Un) (f : Nat → Nat → Nat) (e : Env) : XRes :=
  let w := iw o.ty
  e.give o.d (joinWord w (fun j => f w (el w j (e.g o.a).toNat)))

def execClz (o : Un) (s : State) : Host.Outcome State Fault Refusal := runX (.clz o) (unSem o clzEl) s
def execCtz (o : Un) (s : State) : Host.Outcome State Fault Refusal := runX (.ctz o) (unSem o ctzEl) s
def execPopc (o : Un) (s : State) : Host.Outcome State Fault Refusal := runX (.popc o) (unSem o onesIn) s
def execBrev (o : Un) (s : State) : Host.Outcome State Fault Refusal := runX (.brev o) (unSem o brevEl) s

def extrSem (sgn : Bool) (f : BitField) (e : Env) : XRes :=
  let n := f.length
  let x := (e.g f.a).toNat / 2 ^ f.pos.toNat % 2 ^ n
  e.give f.d (BitVec.ofNat 64 (wrapTo 64 (readAs sgn n x)))

def execExtr (sgn : Bool) (f : BitField) (s : State) : Host.Outcome State Fault Refusal :=
  runX (.extr sgn f) (extrSem sgn f) s

def insrSem (f : BitField) (e : Env) : XRes :=
  let n := f.length
  let p := f.pos.toNat
  let v := (e.g f.d).toNat
  let x := (e.g f.a).toNat % 2 ^ n
  e.give f.d (BitVec.ofNat 64 (v % 2 ^ p + x * 2 ^ p + v / 2 ^ (p + n) * 2 ^ (p + n)))

def execInsr (f : BitField) (s : State) : Host.Outcome State Fault Refusal := runX (.insr f) (insrSem f) s

/-! ## Constants, addresses and select (R319, R320, R322) -/

def execLi (d : GReg) (v : LImm) (s : State) : Host.Outcome State Fault Refusal :=
  runX (.li d v) (fun e => e.give d (liWord v)) s

def execLea (d : GReg) (ad : Addr) (s : State) : Host.Outcome State Fault Refusal :=
  runX (.lea d ad) (fun e => e.give d (ea e.s e.t ad)) s

def execCsel (d a b c : GReg) (s : State) : Host.Outcome State Fault Refusal :=
  runX (.csel d a b c) (fun e => e.give d (if e.g c ≠ 0 then e.g a else e.g b)) s

/-! ## Control transfer (R323 to R328) -/

/-- The target of a format-B branch (R296). -/
def branchTarget (e : Env) (off : BitVec 37) : Word := e.c.pc + 4 * off.signExtend 64

/-- The target check of a taken transfer (R323): range, then alignment; the lower cause is reported. -/
def targetTrap (t : Word) : Option TrapInfo :=
  if t.extractLsb' 0 2 != 0 then some (mkTrap Cause.align 4 t)
  else if t.extractLsb' 57 7 != 0 then some (protTrap .fetch 2 t)
  else none

/-- A taken transfer, with what else its bundle writes. -/
def transfer (e : Env) (t : Word) (w : Wr) : XRes :=
  match targetTrap t with
  | some ti => .trapC ti
  | none => .ok e.s { w with npc := some t }

def takeIf (b : Bool) (off : BitVec 37) (w : Wr) (e : Env) : XRes :=
  if b then transfer e (branchTarget e off) w else .ok e.s w

/-- A condition on one register against 0 (R324). -/
def zeroCond (cc : Cond) (x : Word) : Bool := iCond cc 64 x.toNat 0

def execBrcc (cc : Cond) (a : GReg) (off : BitVec 37) (s : State) : Host.Outcome State Fault Refusal :=
  runX (.brcc cc a off) (fun e => takeIf (zeroCond cc (e.g a)) off Wr.none e) s

def execBrz (a : GReg) (off : BitVec 37) (s : State) : Host.Outcome State Fault Refusal :=
  runX (.brz a off) (fun e => takeIf (e.g a == 0) off Wr.none e) s

def execBrnz (a : GReg) (off : BitVec 37) (s : State) : Host.Outcome State Fault Refusal :=
  runX (.brnz a off) (fun e => takeIf (e.g a != 0) off Wr.none e) s

def execJmp (off : BitVec 37) (s : State) : Host.Outcome State Fault Refusal :=
  runX (.jmp off) (fun e => takeIf true off Wr.none e) s

/-- CALL also writes the address of the next bundle (R325). -/
def execCall (a : GReg) (off : BitVec 37) (s : State) : Host.Outcome State Fault Refusal :=
  runX (.call a off) (fun e => takeIf true off (Wr.ofG a e.next) e) s

def execJr (a : GReg) (s : State) : Host.Outcome State Fault Refusal :=
  runX (.jr a) (fun e => transfer e (e.g a) Wr.none) s

/-- LOOP counts down and branches while the count is not zero (R327). -/
def execLoop (a : GReg) (off : BitVec 37) (s : State) : Host.Outcome State Fault Refusal :=
  runX (.loop a off) (fun e => takeIf (e.g a - 1 != 0) off (Wr.ofG a (e.g a - 1)) e) s

/-- The position of a stream after every pop and push of the bundle (R328). -/
def posAfter (e : Env) (n : Nat) : Nat :=
  let uv := match e.c.v with
    | some j => uses j
    | none => Uses.empty
  let k := ((popsOf e.t uv).filter (·.1 == n)).length + ((pushesOf e.t uv).filter (· == n)).length
  (streamAt e.t n).pos + k

/-- BSTRM branches while its stream is not exhausted (R328). -/
def execBstrm (n : BitVec 2) (off : BitVec 37) (s : State) : Host.Outcome State Fault Refusal :=
  runX (.bstrm n off) (fun e => takeIf (posAfter e n.toNat != (streamAt e.t n.toNat).total) off Wr.none e) s

end Sys2Proof.Machine
end

