-- ==== Sys2Proof/Machine/Sealed.lean ====
section
/-!
DEFINITION. The sealed instructions at the core (R404, R405): their operands and checks; SLOUT is with the jobs.
-/

namespace Sys2Proof.Machine

/-- An owner without a sealed region gets PROT from every sealed instruction but SLHASH (R218, R405). -/
def noSeal (e : Env) (k : AccKind) : Option TrapInfo :=
  if e.w.sen then none else some (protTrap k 6 0)

/-- The set line of a name, translated for an access of the thread (R214). -/
def setChk (e : Env) (k : AccKind) (set : Nat) : Chk :=
  let va := BitVec.ofNat 64 (setVa e.w set)
  locate e.s e.w e.t .seal k k.writes va 64

/-- A request to the slice of a set line. -/
def sealAsk (e : Env) (k : AccKind) (set : Nat) (acq rel : Option Scope) (kind : ReqKind) : XRes :=
  withChk e (setChk e k set) (fun loc => ask e (reqFor e kind (BitVec.ofNat 64 (setVa e.w set)) loc 256 rel acq))

/-! ## SLPUT and SLHASH -/

/-- The check of a line read as a load: 256-byte alignment (INFO 0), translation, any class but device and save. -/
def lineChk (e : Env) (va : Word) : Chk :=
  match check e.s e.w e.t .ld .load va 256 256 with
  | .ok (.mem l pa) => if l.cls = 4 then .bad (protTrap .load 6 va) else .ok (.mem l pa)
  | c => c

/-- A line's descriptor word: of a scratchpad, the default of every block. -/
def lineDesc (s : State) : Loc → Nat
  | .spad _ _ => 0x007F007F007F007F
  | .mem _ pa => descWord s pa

def slputSem (int : Bool) (d : GReg) (ad : EAddr) (e : Env) : XRes :=
  let va := eaE e.s e.t ad
  match lineChk e va with
  | .miss page => let p := walkFor e.s e.t page; .again p.1 p.2
  | .bad t => .trapC ((lowest (some t) (noSeal e .atomic)).getD t)
  | .ok loc =>
    match noSeal e .atomic with
    | some t => .trapC t
    | none =>
      withBytes e loc va 256 (fun s line =>
        let desc := lineDesc s loc
        let set := setOfName e.w (sealh e.w line desc * 16)
        sealAsk { e with s := s } .atomic set none none (.slput int line desc d))

def execSlput (int : Bool) (d : GReg) (ad : EAddr) (s : State) : Host.Outcome State Fault Refusal :=
  runX (.slput int d ad) (slputSem int d ad) s

def slhashSem (d : GReg) (ad : EAddr) (e : Env) : XRes :=
  let va := eaE e.s e.t ad
  withChk e (lineChk e va) (fun loc =>
    withBytes e loc va 256 (fun s line => .ok s (Wr.ofG d (BitVec.ofNat 64 (sealh e.w line (lineDesc s loc) * 16)))))

def execSlhash (d : GReg) (ad : EAddr) (s : State) : Host.Outcome State Fault Refusal :=
  runX (.slhash d ad) (slhashSem d ad) s

/-! ## SLGET, SLREF, SLUNREF, SLSWAP -/

/-- SLGET: a home-form scratchpad area of 320 bytes, 64-byte aligned, otherwise PROT with reason 010. -/
def slgetSem (d : GReg) (ad : EAddr) (b : GReg) (e : Env) : XRes :=
  let va := eaE e.s e.t ad
  let area := homeArea e .store va 320
  let bad := if va.toNat % 64 ≠ 0 then some (protTrap .store 2 va) else area.2
  match lowestOf [noSeal e .load, bad, (watchHit e.t va.toNat 320 false true).map (fun i => mkTrap Cause.watch i va)] with
  | some t => .trapC t
  | none => sealAsk e .load (setOfName e.w (e.g b).toNat) none none (.slget (e.g b) (area.1.getD 0) d)

def execSlget (d : GReg) (ad : EAddr) (b : GReg) (s : State) : Host.Outcome State Fault Refusal :=
  runX (.slget d ad b) (slgetSem d ad b) s

def slrefSem (d a : GReg) (e : Env) : XRes :=
  match noSeal e .atomic with
  | some t => .trapC t
  | none => sealAsk e .atomic (setOfName e.w (e.g a).toNat) none none (.slref (e.g a) d)

def execSlref (d a : GReg) (s : State) : Host.Outcome State Fault Refusal := runX (.slref d a) (slrefSem d a) s

def slunrefSem (d a : GReg) (e : Env) : XRes :=
  match noSeal e .atomic with
  | some t => .trapC t
  | none => sealAsk e .atomic (setOfName e.w (e.g a).toNat) none none (.slunref (e.g a) d)

def execSlunref (d a : GReg) (s : State) : Host.Outcome State Fault Refusal := runX (.slunref d a) (slunrefSem d a) s

/-- SLSWAP: an atomic access of the root record, `.ar` at .pkg (R210, R223, R224). -/
def slswapSem (d : GReg) (ad : EAddr) (b : GReg) (e : Env) : XRes :=
  let va := eaE e.s e.t ad
  match check e.s e.w e.t .obj .atomic va 8 8 with
  | .miss page => let p := walkFor e.s e.t page; .again p.1 p.2
  | .bad t => .trapC ((lowest (some t) (noSeal e .atomic)).getD t)
  | .ok loc =>
    match noSeal e .atomic with
    | some t => .trapC t
    | none => ask e (reqFor e (.slswap (e.g d) (e.g b) d) va loc 8 (some .pkg) (some .pkg))

def execSlswap (d : GReg) (ad : EAddr) (b : GReg) (s : State) : Host.Outcome State Fault Refusal :=
  runX (.slswap d ad b) (slswapSem d ad b) s

end Sys2Proof.Machine
end

