-- ==== Sys2Proof/Machine/Streams.lean ====
section
/-!
DEFINITION. The stream instructions (R160 to R163, R402, R403).
-/

namespace Sys2Proof.Machine

/-- A descriptor in order (R160): the stream it configures, or none where a must-be-zero bit is set or an address or
stride is not a multiple of 64. -/
def streamDesc (n : Nat) (b : List Byte) : Option StrmOp :=
  if zeroIn b 20 4 && zeroIn b 50 14 && fieldOf b 48 1 / 2 == 0 && fieldOf b 49 1 / 16 == 0 && fieldOf b 0 8 % 64 == 0
      && fieldOf b 24 8 % 64 == 0 && fieldOf b 32 8 % 64 == 0 && fieldOf b 40 8 % 64 == 0
  then
    let ahead := fieldOf b 49 1
    some (.cfg n (BitVec.ofNat 64 (fieldOf b 0 8)) (fieldOf b 8 4) (fieldOf b 12 4) (fieldOf b 16 4)
      (BitVec.ofNat 64 (fieldOf b 24 8)) (BitVec.ofNat 64 (fieldOf b 32 8)) (BitVec.ofNat 64 (fieldOf b 40 8))
      (fieldOf b 48 1 == 1) (if ahead = 0 then 8 else ahead))
  else none

def strmWr (op : StrmOp) : Wr := { Wr.none with strm := some op }

/-- SCFG reads its descriptor as a load of 64 bytes. -/
def scfgSem (n : BitVec 2) (ad : EAddr) (e : Env) : XRes :=
  let va := eaE e.s e.t ad
  withChk e (check e.s e.w e.t .ld .load va 64 64) (fun loc =>
    withBytes e loc va 64 (fun s b =>
      match streamDesc n.toNat b with
      | some op => .ok s (strmWr op)
      | none => .trapC (mkTrap Cause.desc 0 va)))

def execScfg (n : BitVec 2) (ad : EAddr) (s : State) : Host.Outcome State Fault Refusal :=
  runX (.scfg n ad) (scfgSem n ad) s

def sbindSem (n k : BitVec 2) (e : Env) : XRes := .ok e.s (strmWr (.bind n.toNat k.toNat))

def execSbind (n k : BitVec 2) (s : State) : Host.Outcome State Fault Refusal := runX (.sbind n k) (sbindSem n k) s

def scloseSem (n : BitVec 2) (e : Env) : XRes := .ok e.s (strmWr (.close n.toNat))

def execSclose (n : BitVec 2) (s : State) : Host.Outcome State Fault Refusal := runX (.sclose n) (scloseSem n) s

/-- SPOS: the position before, and with SET a new one no greater than the number of elements. -/
def sposSem (d : GReg) (n : BitVec 2) (set : Option GReg) (e : Env) : XRes :=
  let x := streamAt e.t n.toNat
  let w := Wr.ofG d (BitVec.ofNat 64 x.pos)
  match set with
  | none => .ok e.s w
  | some b =>
    if x.total < (e.g b).toNat then .trapC (strmTrap n.toNat 0 0 e.t)
    else .ok e.s { w with strm := some (.seek n.toNat (e.g b).toNat) }

def execSpos (d : GReg) (n : BitVec 2) (set : Option GReg) (s : State) : Host.Outcome State Fault Refusal :=
  runX (.spos d n set) (sposSem d n set) s

/-- Whether a request is a push of a thread's stream. -/
def isPush (t : Thread) (n : Nat) (r : Req) : Bool :=
  r.o == t.o && r.tid == t.tid && r.iss.born == t.born && (match r.kind with
    | .push k _ => k == n
    | _ => false)

/-- SCOMMIT: every push of an output stream performed; an input stream's elements are fetched again. -/
def scommitSem (n : BitVec 2) (e : Env) : XRes :=
  if (streamAt e.t n.toNat).out then
    if e.s.reqs.any (isPush e.t n.toNat) || !streamDue e.s e.t n.toNat then .again e.s (.scommit n.toNat) else .ok e.s Wr.none
  else .ok e.s (strmWr (.refetch n.toNat))

def execScommit (n : BitVec 2) (s : State) : Host.Outcome State Fault Refusal := runX (.scommit n) (scommitSem n) s

end Sys2Proof.Machine
end

