-- ==== Sys2Proof/Machine/Vector.lean ====
section
/-!
DEFINITION. V-ops standing alone: each is one half of a bundle, issued by its core (R359 to R382).
-/

namespace Sys2Proof.Machine

def execVadd (o : VBin) (s : State) : Host.Outcome State Fault Refusal :=
  runV (.vadd o) (vaddSem o) s
def execVsub (o : VBin) (s : State) : Host.Outcome State Fault Refusal :=
  runV (.vsub o) (vsubSem o) s
def execVmul (o : VBin) (s : State) : Host.Outcome State Fault Refusal :=
  runV (.vmul o) (vmulSem o) s
def execVdiv (o : VBin) (s : State) : Host.Outcome State Fault Refusal :=
  runV (.vdiv o) (vdivSem o) s
def execVfma (o : VBin) (s : State) : Host.Outcome State Fault Refusal :=
  runV (.vfma o) (vfmaSem o) s
def execVfms (o : VBin) (s : State) : Host.Outcome State Fault Refusal :=
  runV (.vfms o) (vfmsSem o) s
def execVsqrt (o : VUn) (s : State) : Host.Outcome State Fault Refusal :=
  runV (.vsqrt o) (vsqrtSem o) s
def execVexp2 (o : VUn) (s : State) : Host.Outcome State Fault Refusal :=
  runV (.vexp2 o) (vexp2Sem o) s
def execVlog2 (o : VUn) (s : State) : Host.Outcome State Fault Refusal :=
  runV (.vlog2 o) (vlog2Sem o) s
def execVrcp (o : VUn) (s : State) : Host.Outcome State Fault Refusal :=
  runV (.vrcp o) (vrcpSem o) s
def execVrsq (o : VUn) (s : State) : Host.Outcome State Fault Refusal :=
  runV (.vrsq o) (vrsqSem o) s
def execVsinp (o : VUn) (s : State) : Host.Outcome State Fault Refusal :=
  runV (.vsinp o) (vsinpSem o) s
def execVcosp (o : VUn) (s : State) : Host.Outcome State Fault Refusal :=
  runV (.vcosp o) (vcospSem o) s
def execVtanh (o : VUn) (s : State) : Host.Outcome State Fault Refusal :=
  runV (.vtanh o) (vtanhSem o) s
def execVabs (o : VUn) (s : State) : Host.Outcome State Fault Refusal :=
  runV (.vabs o) (vabsSem o) s
def execVneg (o : VUn) (s : State) : Host.Outcome State Fault Refusal :=
  runV (.vneg o) (vnegSem o) s
def execVmin (o : VBin) (s : State) : Host.Outcome State Fault Refusal :=
  runV (.vmin o) (vminSem o) s
def execVmax (o : VBin) (s : State) : Host.Outcome State Fault Refusal :=
  runV (.vmax o) (vmaxSem o) s
def execVcpys (o : VBin) (s : State) : Host.Outcome State Fault Refusal :=
  runV (.vcpys o) (vcpysSem o) s
def execVcmp (o : VCmp) (s : State) : Host.Outcome State Fault Refusal :=
  runV (.vcmp o) (vcmpSem o) s
def execVicmp (o : VCmp) (s : State) : Host.Outcome State Fault Refusal :=
  runV (.vicmp o) (vicmpSem o) s
def execViadd (o : VInt) (s : State) : Host.Outcome State Fault Refusal :=
  runV (.viadd o) (viaddSem o) s
def execVisub (o : VInt) (s : State) : Host.Outcome State Fault Refusal :=
  runV (.visub o) (visubSem o) s
def execVimul (o : VInt) (s : State) : Host.Outcome State Fault Refusal :=
  runV (.vimul o) (vimulSem o) s
def execVimulh (o : VInt) (s : State) : Host.Outcome State Fault Refusal :=
  runV (.vimulh o) (vimulhSem o) s
def execVand (o : VInt) (s : State) : Host.Outcome State Fault Refusal :=
  runV (.vand o) (vandSem o) s
def execVor (o : VInt) (s : State) : Host.Outcome State Fault Refusal :=
  runV (.vor o) (vorSem o) s
def execVxor (o : VInt) (s : State) : Host.Outcome State Fault Refusal :=
  runV (.vxor o) (vxorSem o) s
def execVandn (o : VInt) (s : State) : Host.Outcome State Fault Refusal :=
  runV (.vandn o) (vandnSem o) s
def execVimin (o : VInt) (s : State) : Host.Outcome State Fault Refusal :=
  runV (.vimin o) (viminSem o) s
def execVimax (o : VInt) (s : State) : Host.Outcome State Fault Refusal :=
  runV (.vimax o) (vimaxSem o) s
def execViabs (t : VType) (sat : Bool) (d a : VReg) (k : MReg) (s : State) : Host.Outcome State Fault Refusal :=
  runV (.viabs t sat d a k) (viabsSem t sat d a k) s
def execVshl (o : VInt) (s : State) : Host.Outcome State Fault Refusal :=
  runV (.vshl o) (vshlSem o) s
def execVshr (o : VInt) (s : State) : Host.Outcome State Fault Refusal :=
  runV (.vshr o) (vshrSem o) s
def execVsar (o : VInt) (s : State) : Host.Outcome State Fault Refusal :=
  runV (.vsar o) (vsarSem o) s
def execVrot (o : VInt) (s : State) : Host.Outcome State Fault Refusal :=
  runV (.vrot o) (vrotSem o) s
def execVcvt (o : VConv) (s : State) : Host.Outcome State Fault Refusal :=
  runV (.vcvt o) (vcvtSem o) s
def execVftoi (o : VConv) (s : State) : Host.Outcome State Fault Refusal :=
  runV (.vftoi o) (vftoiSem o) s
def execVitof (o : VConv) (s : State) : Host.Outcome State Fault Refusal :=
  runV (.vitof o) (vitofSem o) s
def execVqnt (o : VBlk) (s : State) : Host.Outcome State Fault Refusal :=
  runV (.vqnt o) (vqntSem o) s
def execVdqnt (o : VBlk) (s : State) : Host.Outcome State Fault Refusal :=
  runV (.vdqnt o) (vdqntSem o) s
def execVpack (t : VType) (sat : Bool) (d a b : VReg) (k : MReg) (s : State) : Host.Outcome State Fault Refusal :=
  runV (.vpack t sat d a b k) (vpackSem t sat d a b k) s
def execVunpk (t : VType) (h : Bool) (d a : VReg) (k : MReg) (s : State) : Host.Outcome State Fault Refusal :=
  runV (.vunpk t h d a k) (vunpkSem t h d a k) s
def execVrndt (d : VReg) (k : MReg) (s : State) : Host.Outcome State Fault Refusal :=
  runV (.vrndt d k) (vrndtSem d k) s
def execVrndh (t : VType) (d : VReg) (a : GReg) (k : MReg) (s : State) : Host.Outcome State Fault Refusal :=
  runV (.vrndh t d a k) (vrndhSem t d a k) s
def execVmix (d a : VReg) (b : GReg) (k : MReg) (s : State) : Host.Outcome State Fault Refusal :=
  runV (.vmix d a b k) (vmixSem d a b k) s
def execVperm (t : VType) (d a b : VReg) (k : MReg) (s : State) : Host.Outcome State Fault Refusal :=
  runV (.vperm t d a b k) (vpermSem t d a b k) s
def execVbcast (t : VType) (d : VReg) (src : GSrc) (k : MReg) (s : State) : Host.Outcome State Fault Refusal :=
  runV (.vbcast t d src k) (vbcastSem t d src k) s
def execVextl (t : VType) (d : GReg) (a : VReg) (src : GSrc) (k : MReg) (s : State) : Host.Outcome State Fault Refusal :=
  runV (.vextl t d a src k) (vextlSem t d a src k) s
def execVinsl (t : VType) (d : VReg) (a : GReg) (src : GSrc) (m : MReg) (s : State) : Host.Outcome State Fault Refusal :=
  runV (.vinsl t d a src m) (vinslSem t d a src m) s
def execVrotl (t : VType) (d a : VReg) (src : GSrc) (k : MReg) (s : State) : Host.Outcome State Fault Refusal :=
  runV (.vrotl t d a src k) (vrotlSem t d a src k) s
def execVmov (t : VType) (d a : VReg) (k : MReg) (s : State) : Host.Outcome State Fault Refusal :=
  runV (.vmov t d a k) (vmovSem t d a k) s
def execVsel (t : VType) (d a b : VReg) (k : MReg) (s : State) : Host.Outcome State Fault Refusal :=
  runV (.vsel t d a b k) (vselSem t d a b k) s
def execVredAdd (t : VType) (sat : Bool) (d a : VReg) (k : MReg) (s : State) : Host.Outcome State Fault Refusal :=
  runV (.vredAdd t sat d a k) (vredAddSem t sat d a k) s
def execVredMin (t : VType) (d a : VReg) (k : MReg) (s : State) : Host.Outcome State Fault Refusal :=
  runV (.vredMin t d a k) (vredMinSem t d a k) s
def execVredMax (t : VType) (d a : VReg) (k : MReg) (s : State) : Host.Outcome State Fault Refusal :=
  runV (.vredMax t d a k) (vredMaxSem t d a k) s
def execVredAnd (t : VType) (d a : VReg) (k : MReg) (s : State) : Host.Outcome State Fault Refusal :=
  runV (.vredAnd t d a k) (vredAndSem t d a k) s
def execVredOr (t : VType) (d a : VReg) (k : MReg) (s : State) : Host.Outcome State Fault Refusal :=
  runV (.vredOr t d a k) (vredOrSem t d a k) s
def execVredXor (t : VType) (d a : VReg) (k : MReg) (s : State) : Host.Outcome State Fault Refusal :=
  runV (.vredXor t d a k) (vredXorSem t d a k) s
def execVpfx (t : VType) (sat : Bool) (d a : VReg) (k : MReg) (s : State) : Host.Outcome State Fault Refusal :=
  runV (.vpfx t sat d a k) (vpfxSem t sat d a k) s
def execMand (d a b : MReg) (s : State) : Host.Outcome State Fault Refusal :=
  runV (.mand d a b) (mandSem d a b) s
def execMor (d a b : MReg) (s : State) : Host.Outcome State Fault Refusal :=
  runV (.mor d a b) (morSem d a b) s
def execMxor (d a b : MReg) (s : State) : Host.Outcome State Fault Refusal :=
  runV (.mxor d a b) (mxorSem d a b) s
def execMnot (d a : MReg) (s : State) : Host.Outcome State Fault Refusal :=
  runV (.mnot d a) (mnotSem d a) s
def execMpopc (d : GReg) (a : MReg) (s : State) : Host.Outcome State Fault Refusal :=
  runV (.mpopc d a) (mpopcSem d a) s

end Sys2Proof.Machine
end

