-- ==== Sys2Proof/Machine/Dispatch.lean ====
section
/-! DEFINITION. The meaning of every operation: one arm per constructor of `Instr`. -/

namespace Sys2Proof.Machine

def exec (i : Instr) (s : State) : Host.Outcome State Fault Refusal :=
  match i with
  | .registerWrite off v => Sys2Proof.Machine.execRegisterWrite off v s
  | .create n => Sys2Proof.Machine.execCreate n s
  | .destroy n => Sys2Proof.Machine.execDestroy n s
  | .launch n => Sys2Proof.Machine.execLaunch n s
  | .preempt n => Sys2Proof.Machine.execPreempt n s
  | .save n => Sys2Proof.Machine.execSave n s
  | .saveArm n => Sys2Proof.Machine.execSaveArm n s
  | .saveDisarm n => Sys2Proof.Machine.execSaveDisarm n s
  | .restore n => Sys2Proof.Machine.execRestore n s
  | .setcirc n => Sys2Proof.Machine.execSetcirc n s
  | .readlog n => Sys2Proof.Machine.execReadlog n s
  | .commandComplete n => Sys2Proof.Machine.execCommandComplete n s
  | .hostMemRead pa len => Sys2Proof.Machine.execHostMemRead pa len s
  | .hostMemWrite pa data => Sys2Proof.Machine.execHostMemWrite pa data s
  | .hostSnoop line => Sys2Proof.Machine.execHostSnoop line s
  | .doneFlag die => Sys2Proof.Machine.execDoneFlag die s
  | .circuitFailed die cstart => Sys2Proof.Machine.execCircuitFailed die cstart s
  | .saveQuiesce n => Sys2Proof.Machine.execSaveQuiesce n s
  | .saveStreamDone n aOk bOk => Sys2Proof.Machine.execSaveStreamDone n aOk bOk s
  | .restoreStreamDone n => Sys2Proof.Machine.execRestoreStreamDone n s
  | .autoSave o => Sys2Proof.Machine.execAutoSave o s
  | .supplyFault die col => Sys2Proof.Machine.execSupplyFault die col s
  | .killDrainEnd o tid => Sys2Proof.Machine.execKillDrainEnd o tid s
  | .controlInterval temps power package => Sys2Proof.Machine.execControlInterval temps power package s
  | .threadMigrationDone o tid => Sys2Proof.Machine.execThreadMigrationDone o tid s
  | .coreMigrationDone o j => Sys2Proof.Machine.execCoreMigrationDone o j s
  | .forwardExpiry o j => Sys2Proof.Machine.execForwardExpiry o j s
  | .governorWindow die col => Sys2Proof.Machine.execGovernorWindow die col s
  | .frameMove src dst => Sys2Proof.Machine.execFrameMove src dst s
  | .frameLineMove src => Sys2Proof.Machine.execFrameLineMove src s
  | .trapDispatch o tid => Sys2Proof.Machine.execTrapDispatch o tid s
  | .waitLimitExpiry o tid => Sys2Proof.Machine.execWaitLimitExpiry o tid s
  | .translationWalkDone w => Sys2Proof.Machine.execTranslationWalkDone w s
  | .targetRequest r => Sys2Proof.Machine.execTargetRequest r s
  | .replyArrival r => Sys2Proof.Machine.execReplyArrival r s
  | .amoCombine up low => Sys2Proof.Machine.execAmoCombine up low s
  | .combinedReplySplit r => Sys2Proof.Machine.execCombinedReplySplit r s
  | .postedStoreArrival o j seq => Sys2Proof.Machine.execPostedStoreArrival o j seq s
  | .journalAck o j seq => Sys2Proof.Machine.execJournalAck o j seq s
  | .journalRefusal o j seq => Sys2Proof.Machine.execJournalRefusal o j seq s
  | .msendResend o j seq => Sys2Proof.Machine.execMsendResend o j seq s
  | .xstPacket o j seq => Sys2Proof.Machine.execXstPacket o j seq s
  | .barrierCompletion o j obj => Sys2Proof.Machine.execBarrierCompletion o j obj s
  | .replicatedWriteReceived o w die => Sys2Proof.Machine.execReplicatedWriteReceived o w die s
  | .replicatedApply o w die => Sys2Proof.Machine.execReplicatedApply o w die s
  | .reclaimWalk o j => Sys2Proof.Machine.execReclaimWalk o j s
  | .reclaimChildAck o j => Sys2Proof.Machine.execReclaimChildAck o j s
  | .jobStart o c u => Sys2Proof.Machine.execJobStart o c u s
  | .engineChunkCycle o c => Sys2Proof.Machine.execEngineChunkCycle o c s
  | .chunkCommit o c => Sys2Proof.Machine.execChunkCommit o c s
  | .copyBlock o c => Sys2Proof.Machine.execCopyBlock o c s
  | .jobEnd o c u => Sys2Proof.Machine.execJobEnd o c u s
  | .jobSuspend o c u => Sys2Proof.Machine.execJobSuspend o c u s
  | .dataFrame port f => Sys2Proof.Machine.execDataFrame port f s
  | .ackFrame port f => Sys2Proof.Machine.execAckFrame port f s
  | .nakFrame port f => Sys2Proof.Machine.execNakFrame port f s
  | .creditFrame port f => Sys2Proof.Machine.execCreditFrame port f s
  | .retransmitTimeout port => Sys2Proof.Machine.execRetransmitTimeout port s
  | .add o => Sys2Proof.Machine.execAdd o s
  | .sub o => Sys2Proof.Machine.execSub o s
  | .mul o => Sys2Proof.Machine.execMul o s
  | .mulh o => Sys2Proof.Machine.execMulh o s
  | .div o => Sys2Proof.Machine.execDiv o s
  | .rem o => Sys2Proof.Machine.execRem o s
  | .and o => Sys2Proof.Machine.execAnd o s
  | .or o => Sys2Proof.Machine.execOr o s
  | .xor o => Sys2Proof.Machine.execXor o s
  | .andn o => Sys2Proof.Machine.execAndn o s
  | .orn o => Sys2Proof.Machine.execOrn o s
  | .shl o => Sys2Proof.Machine.execShl o s
  | .shr o => Sys2Proof.Machine.execShr o s
  | .sar o => Sys2Proof.Machine.execSar o s
  | .rot o => Sys2Proof.Machine.execRot o s
  | .min o => Sys2Proof.Machine.execMin o s
  | .max o => Sys2Proof.Machine.execMax o s
  | .clz o => Sys2Proof.Machine.execClz o s
  | .ctz o => Sys2Proof.Machine.execCtz o s
  | .popc o => Sys2Proof.Machine.execPopc o s
  | .brev o => Sys2Proof.Machine.execBrev o s
  | .extr sgn f => Sys2Proof.Machine.execExtr sgn f s
  | .insr f => Sys2Proof.Machine.execInsr f s
  | .li d v => Sys2Proof.Machine.execLi d v s
  | .lea d ad => Sys2Proof.Machine.execLea d ad s
  | .cmp cc o => Sys2Proof.Machine.execCmp cc o s
  | .csel d a b c => Sys2Proof.Machine.execCsel d a b c s
  | .brcc cc a off => Sys2Proof.Machine.execBrcc cc a off s
  | .brz a off => Sys2Proof.Machine.execBrz a off s
  | .brnz a off => Sys2Proof.Machine.execBrnz a off s
  | .jmp off => Sys2Proof.Machine.execJmp off s
  | .call a off => Sys2Proof.Machine.execCall a off s
  | .jr a => Sys2Proof.Machine.execJr a s
  | .loop a off => Sys2Proof.Machine.execLoop a off s
  | .bstrm n off => Sys2Proof.Machine.execBstrm n off s
  | .ld ord o => Sys2Proof.Machine.execLd ord o s
  | .st ord o => Sys2Proof.Machine.execSt ord o s
  | .vld ord o => Sys2Proof.Machine.execVld ord o s
  | .vst ord o => Sys2Proof.Machine.execVst ord o s
  | .vldDesc ord d k m => Sys2Proof.Machine.execVldDesc ord d k m s
  | .vstDesc ord d k m => Sys2Proof.Machine.execVstDesc ord d k m s
  | .lds sc o => Sys2Proof.Machine.execLds sc o s
  | .ldsClr sc o => Sys2Proof.Machine.execLdsClr sc o s
  | .stf o => Sys2Proof.Machine.execStf o s
  | .fec full d ad => Sys2Proof.Machine.execFec full d ad s
  | .prf ad => Sys2Proof.Machine.execPrf ad s
  | .amoAdd ty ord d m => Sys2Proof.Machine.execAmoAdd ty ord d m s
  | .amoAnd ty ord d m => Sys2Proof.Machine.execAmoAnd ty ord d m s
  | .amoOr ty ord d m => Sys2Proof.Machine.execAmoOr ty ord d m s
  | .amoXor ty ord d m => Sys2Proof.Machine.execAmoXor ty ord d m s
  | .amoMin ty ord d m => Sys2Proof.Machine.execAmoMin ty ord d m s
  | .amoMax ty ord d m => Sys2Proof.Machine.execAmoMax ty ord d m s
  | .amoSwap ty ord d m => Sys2Proof.Machine.execAmoSwap ty ord d m s
  | .amoFadd ord d m => Sys2Proof.Machine.execAmoFadd ord d m s
  | .cas ty ord d m => Sys2Proof.Machine.execCas ty ord d m s
  | .ldv d ad => Sys2Proof.Machine.execLdv d ad s
  | .cstor ord d ad => Sys2Proof.Machine.execCstor ord d ad s
  | .fence k sc => Sys2Proof.Machine.execFence k sc s
  | .pst o => Sys2Proof.Machine.execPst o s
  | .pstF o => Sys2Proof.Machine.execPstF o s
  | .xst o => Sys2Proof.Machine.execXst o s
  | .xstF o => Sys2Proof.Machine.execXstF o s
  | .msend v a => Sys2Proof.Machine.execMsend v a s
  | .mrecv v a => Sys2Proof.Machine.execMrecv v a s
  | .mrecvTrap v => Sys2Proof.Machine.execMrecvTrap v s
  | .bara d ad => Sys2Proof.Machine.execBara d ad s
  | .barmax d m => Sys2Proof.Machine.execBarmax d m s
  | .barw d ad => Sys2Proof.Machine.execBarw d ad s
  | .qput d a q => Sys2Proof.Machine.execQput d a q s
  | .qget d a q => Sys2Proof.Machine.execQget d a q s
  | .wpush d v => Sys2Proof.Machine.execWpush d v s
  | .wpop v => Sys2Proof.Machine.execWpop v s
  | .waitc d a b => Sys2Proof.Machine.execWaitc d a b s
  | .mfs d r => Sys2Proof.Machine.execMfs d r s
  | .mts a r => Sys2Proof.Machine.execMts a r s
  | .trap n a => Sys2Proof.Machine.execTrap n a s
  | .haltRetain s_ => Sys2Proof.Machine.execHaltRetain s_ s
  | .nopLong imm ext => Sys2Proof.Machine.execNopLong imm ext s
  | .launchInstr d a b => Sys2Proof.Machine.execLaunchInstr d a b s
  | .skimw d a => Sys2Proof.Machine.execSkimw d a s
  | .spawn d a b => Sys2Proof.Machine.execSpawn d a b s
  | .rdcyc d => Sys2Proof.Machine.execRdcyc d s
  | .vadd o => Sys2Proof.Machine.execVadd o s
  | .vsub o => Sys2Proof.Machine.execVsub o s
  | .vmul o => Sys2Proof.Machine.execVmul o s
  | .vdiv o => Sys2Proof.Machine.execVdiv o s
  | .vfma o => Sys2Proof.Machine.execVfma o s
  | .vfms o => Sys2Proof.Machine.execVfms o s
  | .vsqrt o => Sys2Proof.Machine.execVsqrt o s
  | .vexp2 o => Sys2Proof.Machine.execVexp2 o s
  | .vlog2 o => Sys2Proof.Machine.execVlog2 o s
  | .vrcp o => Sys2Proof.Machine.execVrcp o s
  | .vrsq o => Sys2Proof.Machine.execVrsq o s
  | .vsinp o => Sys2Proof.Machine.execVsinp o s
  | .vcosp o => Sys2Proof.Machine.execVcosp o s
  | .vtanh o => Sys2Proof.Machine.execVtanh o s
  | .vabs o => Sys2Proof.Machine.execVabs o s
  | .vneg o => Sys2Proof.Machine.execVneg o s
  | .vmin o => Sys2Proof.Machine.execVmin o s
  | .vmax o => Sys2Proof.Machine.execVmax o s
  | .vcpys o => Sys2Proof.Machine.execVcpys o s
  | .vcmp o => Sys2Proof.Machine.execVcmp o s
  | .viadd o => Sys2Proof.Machine.execViadd o s
  | .visub o => Sys2Proof.Machine.execVisub o s
  | .vimul o => Sys2Proof.Machine.execVimul o s
  | .vimulh o => Sys2Proof.Machine.execVimulh o s
  | .vand o => Sys2Proof.Machine.execVand o s
  | .vor o => Sys2Proof.Machine.execVor o s
  | .vxor o => Sys2Proof.Machine.execVxor o s
  | .vandn o => Sys2Proof.Machine.execVandn o s
  | .vimin o => Sys2Proof.Machine.execVimin o s
  | .vimax o => Sys2Proof.Machine.execVimax o s
  | .viabs ty sat d a k => Sys2Proof.Machine.execViabs ty sat d a k s
  | .vshl o => Sys2Proof.Machine.execVshl o s
  | .vshr o => Sys2Proof.Machine.execVshr o s
  | .vsar o => Sys2Proof.Machine.execVsar o s
  | .vrot o => Sys2Proof.Machine.execVrot o s
  | .vicmp o => Sys2Proof.Machine.execVicmp o s
  | .vcvt o => Sys2Proof.Machine.execVcvt o s
  | .vftoi o => Sys2Proof.Machine.execVftoi o s
  | .vitof o => Sys2Proof.Machine.execVitof o s
  | .vqnt o => Sys2Proof.Machine.execVqnt o s
  | .vdqnt o => Sys2Proof.Machine.execVdqnt o s
  | .vpack ty sat d a b k => Sys2Proof.Machine.execVpack ty sat d a b k s
  | .vunpk ty h d a k => Sys2Proof.Machine.execVunpk ty h d a k s
  | .vrndt d k => Sys2Proof.Machine.execVrndt d k s
  | .vrndh ty d a k => Sys2Proof.Machine.execVrndh ty d a k s
  | .vmix d a b k => Sys2Proof.Machine.execVmix d a b k s
  | .vperm ty d a b k => Sys2Proof.Machine.execVperm ty d a b k s
  | .vbcast ty d src k => Sys2Proof.Machine.execVbcast ty d src k s
  | .vextl ty d a src k => Sys2Proof.Machine.execVextl ty d a src k s
  | .vinsl ty d a src k => Sys2Proof.Machine.execVinsl ty d a src k s
  | .vrotl ty d a src k => Sys2Proof.Machine.execVrotl ty d a src k s
  | .vmov ty d a k => Sys2Proof.Machine.execVmov ty d a k s
  | .vsel ty d a b k => Sys2Proof.Machine.execVsel ty d a b k s
  | .vredAdd ty sat d a k => Sys2Proof.Machine.execVredAdd ty sat d a k s
  | .vredMin ty d a k => Sys2Proof.Machine.execVredMin ty d a k s
  | .vredMax ty d a k => Sys2Proof.Machine.execVredMax ty d a k s
  | .vredAnd ty d a k => Sys2Proof.Machine.execVredAnd ty d a k s
  | .vredOr ty d a k => Sys2Proof.Machine.execVredOr ty d a k s
  | .vredXor ty d a k => Sys2Proof.Machine.execVredXor ty d a k s
  | .vpfx ty sat d a k => Sys2Proof.Machine.execVpfx ty sat d a k s
  | .mand d a b => Sys2Proof.Machine.execMand d a b s
  | .mor d a b => Sys2Proof.Machine.execMor d a b s
  | .mxor d a b => Sys2Proof.Machine.execMxor d a b s
  | .mnot d a => Sys2Proof.Machine.execMnot d a s
  | .mpopc d a => Sys2Proof.Machine.execMpopc d a s
  | .mxrun w d e => Sys2Proof.Machine.execMxrun w d e s
  | .mxcarryLd w d e => Sys2Proof.Machine.execMxcarryLd w d e s
  | .mxcarrySt w d e => Sys2Proof.Machine.execMxcarrySt w d e s
  | .cucopy w d e => Sys2Proof.Machine.execCucopy w d e s
  | .cufill w d e b c => Sys2Proof.Machine.execCufill w d e b c s
  | .culdb w d e b => Sys2Proof.Machine.execCuldb w d e b s
  | .cudigest w d e b => Sys2Proof.Machine.execCudigest w d e b s
  | .jwait d a => Sys2Proof.Machine.execJwait d a s
  | .jpoll d a => Sys2Proof.Machine.execJpoll d a s
  | .jcancel d a => Sys2Proof.Machine.execJcancel d a s
  | .scfg n e => Sys2Proof.Machine.execScfg n e s
  | .sbind n k => Sys2Proof.Machine.execSbind n k s
  | .sclose n => Sys2Proof.Machine.execSclose n s
  | .spos d n set => Sys2Proof.Machine.execSpos d n set s
  | .scommit n => Sys2Proof.Machine.execScommit n s
  | .slput int d e => Sys2Proof.Machine.execSlput int d e s
  | .slget d e b => Sys2Proof.Machine.execSlget d e b s
  | .slref d a => Sys2Proof.Machine.execSlref d a s
  | .slunref d a => Sys2Proof.Machine.execSlunref d a s
  | .slswap d e b => Sys2Proof.Machine.execSlswap d e b s
  | .slout w d a b => Sys2Proof.Machine.execSlout w d a b s
  | .slhash d e => Sys2Proof.Machine.execSlhash d e s
  | .lksend d e => Sys2Proof.Machine.execLksend d e s
  | .lkrecv d e => Sys2Proof.Machine.execLkrecv d e s
  | .lkred d e => Sys2Proof.Machine.execLkred d e s
  | .singleFault p => Sys2Proof.Machine.execSingleFault p s
  | .powerUp => Sys2Proof.Machine.execPowerUp s
  | .powerUpZeroingDone => Sys2Proof.Machine.execPowerUpZeroingDone s
  | .doorbell => Sys2Proof.Machine.execDoorbell s
  | .ringEnable => Sys2Proof.Machine.execRingEnable s
  | .ringDisable => Sys2Proof.Machine.execRingDisable s
  | .warn => Sys2Proof.Machine.execWarn s
  | .drain => Sys2Proof.Machine.execDrain s
  | .drainTimeout => Sys2Proof.Machine.execDrainTimeout s
  | .chunk => Sys2Proof.Machine.execChunk s
  | .streamSlot => Sys2Proof.Machine.execStreamSlot s
  | .swap => Sys2Proof.Machine.execSwap s
  | .resume => Sys2Proof.Machine.execResume s
  | .deferredInstant => Sys2Proof.Machine.execDeferredInstant s
  | .errorRateWindow => Sys2Proof.Machine.execErrorRateWindow s
  | .patrolScrub => Sys2Proof.Machine.execPatrolScrub s
  | .balancingInterval => Sys2Proof.Machine.execBalancingInterval s
  | .flushl1 => Sys2Proof.Machine.execFlushl1 s
  | .halt => Sys2Proof.Machine.execHalt s
  | .yield => Sys2Proof.Machine.execYield s
  | .nop => Sys2Proof.Machine.execNop s
  | .powerLoss => Sys2Proof.Machine.execPowerLoss s

end Sys2Proof.Machine
end

