-- ==== Sys2Proof/Decode.lean ====
section
/-!
DEFINITION. The decoder: bytes of a fetch block to an instruction or the IENC check that fails (R292 to R307), and
after it the encoder of well-formed thread instructions, both over the fields of one 64-bit word (R293).
-/

namespace Sys2Proof

/-! ## The word and its fields -/

/-- The fields of an operation word (R293). -/
structure Fields where
  len  : BitVec 2
  kind : BitVec 2
  opc  : BitVec 8
  d    : BitVec 7
  a    : BitVec 7
  b    : BitVec 7
  c    : BitVec 7
  q    : BitVec 8
  imm  : BitVec 16
deriving DecidableEq, Repr

/-- What stands after the first word: nothing, EXT32 (R298) or LIT (R299). -/
inductive Ext where
  | none
  | ext (v : BitVec 32)
  | lit (v : BitVec 64)
deriving DecidableEq, Repr

/-- The fields of a word, at the places of R293. -/
def fieldsOf (w : BitVec 64) : Fields where
  len  := w.extractLsb' 0 2
  kind := w.extractLsb' 2 2
  opc  := w.extractLsb' 4 8
  d    := w.extractLsb' 12 7
  a    := w.extractLsb' 19 7
  b    := w.extractLsb' 26 7
  c    := w.extractLsb' 33 7
  q    := w.extractLsb' 40 8
  imm  := w.extractLsb' 48 16

/-- The word of a record of fields (R293). -/
def wordOf (f : Fields) : BitVec 64 :=
  (f.imm ++ f.q ++ f.c ++ f.b ++ f.a ++ f.d ++ f.opc ++ f.kind ++ f.len : BitVec 64)

/-- Bytes read as a number, the first the least significant (R3). -/
def leNat : List Byte → Nat
  | [] => 0
  | b :: bs => b.toNat + 256 * leNat bs

/-- The n low bytes of a number, least significant first (R3). -/
def leBytes : Nat → Nat → List Byte
  | 0, _ => []
  | n + 1, v => BitVec.ofNat 8 v :: leBytes n (v / 256)

/-! ## Qualifier codes (R303) -/

def itypeOf (q : BitVec 3) : IType :=
  match q.toNat with
  | 0 => .i64 | 1 => .i32 | 2 => .i16 | 3 => .i8 | 4 => .n64 | 5 => .n32 | 6 => .n16 | _ => .n8

def itypeCode : IType → BitVec 3
  | .i64 => 0 | .i32 => 1 | .i16 => 2 | .i8 => 3 | .n64 => 4 | .n32 => 5 | .n16 => 6 | .n8 => 7

def vtypeOf (q : BitVec 4) : Option VType :=
  match q.toNat with
  | 0 => some .f32 | 1 => some .bf16 | 2 => some .f16 | 3 => some .e4m3 | 4 => some .e5m2 | 5 => some .e2m1
  | 8 => some .i64 | 9 => some .i32 | 10 => some .i16 | 11 => some .i8
  | 12 => some .n64 | 13 => some .n32 | 14 => some .n16 | 15 => some .n8
  | _ => none

def vtypeCode : VType → BitVec 4
  | .f32 => 0 | .bf16 => 1 | .f16 => 2 | .e4m3 => 3 | .e5m2 => 4 | .e2m1 => 5
  | .i64 => 8 | .i32 => 9 | .i16 => 10 | .i8 => 11 | .n64 => 12 | .n32 => 13 | .n16 => 14 | .n8 => 15

def rndOf (q : BitVec 3) : Option Rnd :=
  match q.toNat with
  | 0 => some .cur | 1 => some .rne | 2 => some .rz | 3 => some .rup | 4 => some .rdn | 5 => some .sr
  | _ => none

def rndCode : Rnd → BitVec 3
  | .cur => 0 | .rne => 1 | .rz => 2 | .rup => 3 | .rdn => 4 | .sr => 5

def scopeOf (q : BitVec 3) : Option Scope :=
  match q.toNat with
  | 0 => some .core | 1 => some .clus | 2 => some .die | 3 => some .pkg | 4 => some .sys
  | _ => none

def scopeCode : Scope → BitVec 3
  | .core => 0 | .clus => 1 | .die => 2 | .pkg => 3 | .sys => 4

def condOf (q : BitVec 4) : Option Cond :=
  match q.toNat with
  | 0 => some .eq | 1 => some .ne | 2 => some .lt | 3 => some .ge | 4 => some .gt | 5 => some .le
  | 6 => some .ltu | 7 => some .geu | 8 => some .gtu | 9 => some .leu
  | _ => none

def condCode : Cond → BitVec 4
  | .eq => 0 | .ne => 1 | .lt => 2 | .ge => 3 | .gt => 4 | .le => 5 | .ltu => 6 | .geu => 7 | .gtu => 8
  | .leu => 9

/-- Order and scope, Q[7:3]; with order 00 the scope must be 000 (R303). -/
def ordOf (q : BitVec 8) : Option Ord :=
  match (q.extractLsb' 3 2).toNat with
  | 0 => if q.extractLsb' 5 3 = 0 then some .plain else none
  | 1 => (scopeOf (q.extractLsb' 5 3)).map .acq
  | 2 => (scopeOf (q.extractLsb' 5 3)).map .rel
  | _ => (scopeOf (q.extractLsb' 5 3)).map .ar

/-- The five bits Q[7:3] of an order. -/
def ordCode : Ord → BitVec 5
  | .plain => 0
  | .acq s => scopeCode s ++ (1 : BitVec 2)
  | .rel s => scopeCode s ++ (2 : BitVec 2)
  | .ar s => scopeCode s ++ (3 : BitVec 2)

/-- Q of a memory operation: order and scope above the type (R303). -/
def memQ (o : Ord) (t : BitVec 3) : BitVec 8 := (ordCode o ++ t : BitVec 8)

/-! ## Operand forms -/

/-- What an arm of the decoder reads: the instruction, and whether every must-be-zero field is zero (check 4 of
R302). No value at all is a failure of check 3. -/
abbrev Arm := Option (Bool × Instr)

/-- A register field that names a vector register holds 0 to 31 (R293). -/
def vOk (f : BitVec 7) : Bool := f.extractLsb' 5 2 == 0
/-- A register field that names a mask register holds 0 to 7 (R293). -/
def mOk (f : BitVec 7) : Bool := f.extractLsb' 3 4 == 0
/-- A register field that names a stream holds 0 to 3 (R402). -/
def sOk (f : BitVec 7) : Bool := f.extractLsb' 2 5 == 0

def vReg (f : BitVec 7) : VReg := f.extractLsb' 0 5
def mReg (f : BitVec 7) : MReg := f.extractLsb' 0 3
def sReg (f : BitVec 7) : BitVec 2 := f.extractLsb' 0 2

/-- Check 3 of R302: an arm goes on only where the condition holds. A value of Q that the operation does not list fails it,
also where the operation's entry says of those bits that they are zero (log 14, DEDUCED). -/
def need (c : Bool) (k : Arm) : Arm := if c then k else none

/-- The second source of format T with an immediate allowed (R294, R298, R299), and its must-be-zero fields. -/
def srcOf (f : Fields) (e : Ext) : Option (Src × Bool) :=
  if f.q.getLsbD 3 then
    match e with
    | .none => some (.i16 f.imm, f.b == 0)
    | .ext v => some (.i48 (v ++ f.imm), f.b == 0)
    | .lit v => some (.i64 v, f.b == 0 && f.imm == 0)
  else
    match e with
    | .none => some (.reg f.b, f.imm == 0)
    | .ext _ => none
    | .lit _ => none

/-- The base, index, scale and offset of format M (R295); a scale of 7 and a literal form are no encodings. -/
def addrOf (f : Fields) (e : Ext) : Option (Addr × Bool) :=
  if f.c.extractLsb' 0 3 = 7 then none
  else
    match e with
    | .none => some (⟨f.a, f.b, f.c.extractLsb' 0 3, .o16 f.imm⟩, f.c.extractLsb' 3 4 == 0)
    | .ext v => some (⟨f.a, f.b, f.c.extractLsb' 0 3, .o48 (v ++ f.imm)⟩, f.c.extractLsb' 3 4 == 0)
    | .lit _ => none

/-- The base, offset and third register of format M3 (R295). -/
def m3Of (f : Fields) (e : Ext) : Option (M3 × Bool) :=
  match e with
  | .none => some (⟨f.a, .o16 f.imm, f.c⟩, f.b == 0)
  | .ext v => some (⟨f.a, .o48 (v ++ f.imm), f.c⟩, f.b == 0)
  | .lit _ => none

/-- An offset with bits [2:0] read as zero, and those bits (R335). -/
def splitOff : Off → Off × MReg
  | .o16 v => (.o16 (v.extractLsb' 3 13 ++ (0 : BitVec 3)), v.extractLsb' 0 3)
  | .o48 v => (.o48 (v.extractLsb' 3 45 ++ (0 : BitVec 3)), v.extractLsb' 0 3)

/-- The 37-bit word offset of format B (R296). -/
def offOf (f : Fields) : BitVec 37 := (f.imm ++ f.c ++ f.b ++ f.d : BitVec 37)

/-- A register operation of format T without an immediate form: it exists only as a word (R298, R299). -/
def plainT (e : Ext) (k : Arm) : Arm := need (e == .none) k

/-! ## X-ops (R305) -/

def armAlu (mk : Alu → Instr) (f : Fields) (e : Ext) : Arm :=
  match srcOf f e with
  | none => none
  | some (s, z) =>
    need (f.q.extractLsb' 4 4 == 0) <| some (z && f.c == 0, mk ⟨itypeOf (f.q.extractLsb' 0 3), f.d, f.a, s⟩)

def armCmp (f : Fields) (e : Ext) : Arm :=
  match srcOf f e, condOf (f.q.extractLsb' 4 4) with
  | some (s, z), some cc => some (z && f.c == 0, .cmp cc ⟨itypeOf (f.q.extractLsb' 0 3), f.d, f.a, s⟩)
  | _, _ => none

def armUn (mk : Un → Instr) (f : Fields) (e : Ext) : Arm :=
  plainT e <| need (f.q.extractLsb' 3 5 == 0) <|
    some (f.b == 0 && f.c == 0 && f.imm == 0, mk ⟨itypeOf (f.q.extractLsb' 0 3), f.d, f.a⟩)

def bitField (f : Fields) : BitField := ⟨f.d, f.a, f.imm.extractLsb' 0 6, f.imm.extractLsb' 8 6⟩

def bitFieldMbz (f : Fields) : Bool :=
  f.b == 0 && f.c == 0 && f.imm.extractLsb' 6 2 == 0 && f.imm.extractLsb' 14 2 == 0

def armExtr (f : Fields) (e : Ext) : Arm :=
  plainT e <| need (f.q.extractLsb' 3 5 == 0 && f.q.extractLsb' 0 2 == 0 && (bitField f).wf) <|
    some (bitFieldMbz f, .extr (!f.q.getLsbD 2) (bitField f))

def armInsr (f : Fields) (e : Ext) : Arm :=
  plainT e <| need (f.q == 0 && (bitField f).wf) <|
    some (bitFieldMbz f, .insr (bitField f))

def armLi (f : Fields) (e : Ext) : Arm :=
  need (f.q == 0) <|
    match e with
    | .none => some (f.a == 0, .li f.d (.i30 (f.imm ++ f.c ++ f.b)))
    | .ext v => some (f.a == 0, .li f.d (.i62 (v ++ f.imm ++ f.c ++ f.b)))
    | .lit v => some (f.a == 0 && f.imm == 0 && f.c == 0 && f.b == 0, .li f.d (.i64 v))

def armLea (f : Fields) (e : Ext) : Arm :=
  need (f.q == 0) <|
    match addrOf f e with
    | none => none
    | some (ad, z) => some (z, .lea f.d ad)

def armCsel (f : Fields) (e : Ext) : Arm :=
  plainT e <| need (f.q == 0) <| some (f.imm == 0, .csel f.d f.a f.b f.c)

/-- BR.cc: the condition in Q[3:0], Q[7:4] zero (R296, R324). -/
def armBrcc (f : Fields) : Arm :=
  match condOf (f.q.extractLsb' 0 4) with
  | none => none
  | some cc => need (f.q.extractLsb' 4 4 == 0) <| some (true, .brcc cc f.a (offOf f))

/-- The other branches have Q zero. -/
def armB (f : Fields) (z : Bool) (i : Instr) : Arm := need (f.q == 0) <| some (z, i)

def armLoop (f : Fields) : Arm := need (f.a != 0) <| armB f true (.loop f.a (offOf f))

/-- A scalar access of format M whose order field must be one of `ok` (R331). -/
def armMem (ok : Ord → Bool) (mk : Ord → MemOp → Instr) (f : Fields) (e : Ext) : Arm :=
  match addrOf f e, ordOf f.q with
  | some (ad, z), some o => need (ok o) <| some (z, mk o ⟨itypeOf (f.q.extractLsb' 0 3), f.d, ad⟩)
  | _, _ => none

/-- LDS and LDS.clr: order 00, the scope of the acquire in Q[7:5] (R303). -/
def armLds (mk : Scope → MemOp → Instr) (f : Fields) (e : Ext) : Arm :=
  match addrOf f e, scopeOf (f.q.extractLsb' 5 3) with
  | some (ad, z), some sc =>
    need (f.q.extractLsb' 3 2 == 0) <| some (z, mk sc ⟨itypeOf (f.q.extractLsb' 0 3), f.d, ad⟩)
  | _, _ => none

/-- STF, PST, PST.f, XST and XST.f: neither order nor scope (R331). -/
def armStf (mk : MemOp → Instr) (f : Fields) (e : Ext) : Arm :=
  match addrOf f e with
  | some (ad, z) => need (f.q.extractLsb' 3 5 == 0) <| some (z, mk ⟨itypeOf (f.q.extractLsb' 0 3), f.d, ad⟩)
  | none => none

/-- VLD and VST: type bits zero, the mask in the offset's bits [2:0] (R335). -/
def armVmem (ok : Ord → Bool) (mk : Ord → VMem → Instr) (f : Fields) (e : Ext) : Arm :=
  match addrOf f e, ordOf f.q with
  | some (ad, z), some o =>
    need (ok o && f.q.extractLsb' 0 3 == 0) <|
      some (z && vOk f.d, mk o ⟨vReg f.d, (splitOff ad.off).2, { ad with off := (splitOff ad.off).1 }⟩)
  | _, _ => none

def armVdesc (ok : Ord → Bool) (mk : Ord → VReg → MReg → M3 → Instr) (f : Fields) (e : Ext) : Arm :=
  match m3Of f e, ordOf f.q with
  | some (m, z), some o =>
    need (ok o && f.q.extractLsb' 0 3 == 0) <|
      some (z && vOk f.d, mk o (vReg f.d) (splitOff m.off).2 { m with off := (splitOff m.off).1 })
  | _, _ => none

def armFec (f : Fields) (e : Ext) : Arm :=
  match addrOf f e with
  | some (ad, z) => need (f.q.extractLsb' 1 7 == 0) <| some (z, .fec (f.q.getLsbD 0) f.d ad)
  | none => none

/-- An operation of format M with Q zero (R331). -/
def armAddr (f : Fields) (e : Ext) (z : Bool) (mk : Addr → Instr) : Arm :=
  match addrOf f e with
  | some (ad, za) => need (f.q == 0) <| some (za && z, mk ad)
  | none => none

def armAmo (mk : IType → Ord → GReg → M3 → Instr) (f : Fields) (e : Ext) : Arm :=
  match m3Of f e, ordOf f.q with
  | some (m, z), some o =>
    need (itypeOf (f.q.extractLsb' 0 3)).isAmo <| some (z, mk (itypeOf (f.q.extractLsb' 0 3)) o f.d m)
  | _, _ => none

def armFadd (f : Fields) (e : Ext) : Arm :=
  match m3Of f e, ordOf f.q with
  | some (m, z), some o => need (f.q.extractLsb' 0 3 == 1) <| some (z, .amoFadd o f.d m)
  | _, _ => none

def armCstor (f : Fields) (e : Ext) : Arm :=
  match addrOf f e, ordOf f.q with
  | some (ad, z), some o => need (f.q.extractLsb' 0 3 == 0) <| some (z, .cstor o f.d ad)
  | _, _ => none

def armFence (f : Fields) (e : Ext) : Arm :=
  plainT e <| need (f.q.extractLsb' 0 3 == 0) <|
    match scopeOf (f.q.extractLsb' 5 3), (f.q.extractLsb' 3 2).toNat with
    | some sc, 1 => some (f.d == 0 && f.a == 0 && f.b == 0 && f.c == 0 && f.imm == 0, .fence .acq sc)
    | some sc, 2 => some (f.d == 0 && f.a == 0 && f.b == 0 && f.c == 0 && f.imm == 0, .fence .rel sc)
    | some sc, 3 => some (f.d == 0 && f.a == 0 && f.b == 0 && f.c == 0 && f.imm == 0, .fence .full sc)
    | _, _ => none

def armBarmax (f : Fields) (e : Ext) : Arm :=
  match m3Of f e with
  | some (m, z) => need (f.q == 0) <| some (z, .barmax f.d m)
  | none => none

/-- An operation of format T that takes no immediate and whose Q is zero; `z` lists its must-be-zero fields. -/
def armT (f : Fields) (e : Ext) (z : Bool) (i : Instr) : Arm := plainT e <| need (f.q == 0) <| some (z, i)

def armNop (f : Fields) (e : Ext) : Arm :=
  match e with
  | .none =>
    need (f.q == 0) <| some (f.d == 0 && f.a == 0 && f.b == 0 && f.c == 0 && f.imm == 0, .nop)
  | .ext v => need (f.q == 8) <| some (f.d == 0 && f.a == 0 && f.b == 0 && f.c == 0, .nopLong f.imm v)
  | .lit _ => none

/-- FLUSHL1: every field zero, and no offset to extend (R305, R337). -/
def armFlush (f : Fields) (e : Ext) : Arm :=
  armT f e (f.d == 0 && f.a == 0 && f.b == 0 && f.c == 0 && f.imm == 0) .flushl1

def hi12 (f : Fields) : BitVec 12 := f.imm.extractLsb' 4 12
def hi8 (f : Fields) : BitVec 8 := f.imm.extractLsb' 8 8
def hi11 (f : Fields) : BitVec 11 := f.imm.extractLsb' 5 11

/-- Format B (R305): these exist only as a word or a first half (R296). -/
def isFormatB (opc : BitVec 8) : Bool :=
  match opc.toNat with
  | 0x60 | 0x61 | 0x62 | 0x63 | 0x64 | 0x69 | 0x6A => true
  | _ => false

/-- X-ops by opcode (R305). -/
def decodeX (f : Fields) (e : Ext) : Arm :=
  match f.opc.toNat with
  | 0x00 => armAlu .add f e
  | 0x01 => armAlu .sub f e
  | 0x02 => armAlu .mul f e
  | 0x03 => armAlu .mulh f e
  | 0x04 => armAlu .div f e
  | 0x05 => armAlu .rem f e
  | 0x08 => armAlu .and f e
  | 0x09 => armAlu .or f e
  | 0x0A => armAlu .xor f e
  | 0x0B => armAlu .andn f e
  | 0x0C => armAlu .orn f e
  | 0x10 => armAlu .shl f e
  | 0x11 => armAlu .shr f e
  | 0x12 => armAlu .sar f e
  | 0x13 => armAlu .rot f e
  | 0x18 => armAlu .min f e
  | 0x19 => armAlu .max f e
  | 0x20 => armUn .clz f e
  | 0x21 => armUn .ctz f e
  | 0x22 => armUn .popc f e
  | 0x23 => armUn .brev f e
  | 0x28 => armExtr f e
  | 0x29 => armInsr f e
  | 0x30 => armLi f e
  | 0x40 => armLea f e
  | 0x48 => armCmp f e
  | 0x50 => armCsel f e
  | 0x60 => armBrcc f
  | 0x61 => armB f true (.brz f.a (offOf f))
  | 0x62 => armB f true (.brnz f.a (offOf f))
  | 0x63 => armB f (f.a == 0) (.jmp (offOf f))
  | 0x64 => armB f true (.call f.a (offOf f))
  | 0x68 => armT f e (f.d == 0 && f.b == 0 && f.c == 0 && f.imm == 0) (.jr f.a)
  | 0x69 => armLoop f
  | 0x6A => armB f (sOk f.a) (.bstrm (sReg f.a) (offOf f))
  | 0x80 => armMem Ord.isLoad .ld f e
  | 0x81 => armMem Ord.isStore .st f e
  | 0x82 => armVmem Ord.isLoad .vld f e
  | 0x83 => armVmem Ord.isStore .vst f e
  | 0x84 => armVdesc Ord.isLoad .vldDesc f e
  | 0x85 => armVdesc Ord.isStore .vstDesc f e
  | 0x88 => armLds .lds f e
  | 0x89 => armLds .ldsClr f e
  | 0x8A => armStf .stf f e
  | 0x8B => armFec f e
  | 0x8C => armAddr f e (f.d == 0) .prf
  | 0x8D => armFlush f e
  | 0x90 => armAmo .amoAdd f e
  | 0x91 => armAmo .amoAnd f e
  | 0x92 => armAmo .amoOr f e
  | 0x93 => armAmo .amoXor f e
  | 0x94 => armAmo .amoMin f e
  | 0x95 => armAmo .amoMax f e
  | 0x96 => armAmo .amoSwap f e
  | 0x97 => armFadd f e
  | 0x98 => armAmo .cas f e
  | 0x99 => armAddr f e true (.ldv f.d)
  | 0x9A => armCstor f e
  | 0x9C => armFence f e
  | 0xA0 => armStf .pst f e
  | 0xA1 => armStf .pstF f e
  | 0xA2 => armStf .xst f e
  | 0xA3 => armStf .xstF f e
  | 0xC0 => armT f e (vOk f.d && f.b == 0 && f.c == 0 && f.imm == 0) (.msend (vReg f.d) f.a)
  | 0xC1 => armT f e (vOk f.d && f.b == 0 && f.c == 0 && f.imm == 0) (.mrecv (vReg f.d) f.a)
  | 0xC2 => armT f e (vOk f.d && f.a == 0 && f.b == 0 && f.c == 0 && f.imm == 0) (.mrecvTrap (vReg f.d))
  | 0xC4 => armAddr f e true (.bara f.d)
  | 0xC5 => armAddr f e true (.barw f.d)
  | 0xC6 => armBarmax f e
  | 0xC8 => armT f e (f.b == 0 && f.c == 0 && hi11 f == 0) (.qput f.d f.a (f.imm.extractLsb' 0 5))
  | 0xC9 => armT f e (f.b == 0 && f.c == 0 && hi11 f == 0) (.qget f.d f.a (f.imm.extractLsb' 0 5))
  | 0xCA => armT f e (vOk f.a && f.b == 0 && f.c == 0 && f.imm == 0) (.wpush f.d (vReg f.a))
  | 0xCB => armT f e (vOk f.d && f.a == 0 && f.b == 0 && f.c == 0 && f.imm == 0) (.wpop (vReg f.d))
  | 0xCC => armT f e (f.c == 0 && f.imm == 0) (.waitc f.d f.a f.b)
  | 0xE0 => armT f e (f.a == 0 && f.b == 0 && f.c == 0 && hi8 f == 0) (.mfs f.d (f.imm.extractLsb' 0 8))
  | 0xE1 => armT f e (f.d == 0 && f.b == 0 && f.c == 0 && hi8 f == 0) (.mts f.a (f.imm.extractLsb' 0 8))
  | 0xE2 => armT f e (f.d == 0 && f.b == 0 && f.c == 0 && hi12 f == 0) (.trap (f.imm.extractLsb' 0 4) f.a)
  | 0xE3 => armT f e (f.d == 0 && f.a == 0 && f.b == 0 && f.c == 0 && f.imm == 0) .halt
  | 0xE4 => armT f e (f.d == 0 && f.a == 0 && f.b == 0 && f.c == 0 && hi12 f == 0)
      (.haltRetain (f.imm.extractLsb' 0 4))
  | 0xE5 => armT f e (f.d == 0 && f.a == 0 && f.b == 0 && f.c == 0 && f.imm == 0) .yield
  | 0xE6 => armNop f e
  | 0xE7 => armT f e (f.c == 0 && f.imm == 0) (.launchInstr f.d f.a f.b)
  | 0xE8 => armT f e (f.b == 0 && f.c == 0 && f.imm == 0) (.skimw f.d f.a)
  | 0xE9 => armT f e (f.c == 0 && f.imm == 0) (.spawn f.d f.a f.b)
  | 0xEA => armT f e (f.a == 0 && f.b == 0 && f.c == 0 && f.imm == 0) (.rdcyc f.d)
  | _ => none

/-! ## V-ops (R306, R360) -/

def vMask (f : Fields) : MReg := f.imm.extractLsb' 0 3
def vImmBit (f : Fields) : Bool := f.imm.getLsbD 3
def imm8 (f : Fields) : BitVec 8 := f.imm.extractLsb' 8 8
/-- IMM16[7:4] is zero in every V-op (R297). -/
def vGap (f : Fields) : Bool := f.imm.extractLsb' 4 4 == 0
/-- Q[7] of a V-op: .sat or .nsat (R303). -/
def q7 (f : Fields) : Bool := f.q.getLsbD 7

/-- The type and rounding of a V-op (R303). -/
def vQ (f : Fields) : Option (VType × Rnd) :=
  match vtypeOf (f.q.extractLsb' 0 4), rndOf (f.q.extractLsb' 4 3) with
  | some t, some r => some (t, r)
  | _, _ => none

/-- A V-op that takes neither VIMM nor IMM8 (R360). -/
def vPlain (f : Fields) : Bool := vGap f && imm8 f == 0

def armVBin (ok : VType → Rnd → Bool) (mk : VBin → Instr) (f : Fields) : Arm :=
  match vQ f with
  | some (t, r) =>
    need (ok t r && !q7 f) <|
      some (vPlain f && f.c == 0 && vOk f.d && vOk f.a && vOk f.b,
        mk ⟨t, r, vReg f.d, vReg f.a, vReg f.b, vMask f⟩)
  | none => none

def armVUn (ok : VType → Rnd → Bool) (mk : VUn → Instr) (f : Fields) : Arm :=
  match vQ f with
  | some (t, r) =>
    need (ok t r && !q7 f) <|
      some (vPlain f && f.b == 0 && f.c == 0 && vOk f.d && vOk f.a,
        mk ⟨t, r, vReg f.d, vReg f.a, vMask f⟩)
  | none => none

/-- Whether a rounding field stands at 000, as an operation that does not round requires (R303). -/
def noRnd (f : Fields) : Bool := f.q.extractLsb' 4 3 == 0

def armVInt (satOk : Bool) (mk : VInt → Instr) (f : Fields) : Arm :=
  match vtypeOf (f.q.extractLsb' 0 4) with
  | some t =>
    need (t.isInt && noRnd f && (satOk || !q7 f)) <|
      if vImmBit f then
        some (vGap f && f.b == 0 && f.c == 0 && vOk f.d && vOk f.a,
          mk ⟨t, q7 f, vReg f.d, vReg f.a, .imm (imm8 f), vMask f⟩)
      else
        some (vPlain f && f.c == 0 && vOk f.d && vOk f.a && vOk f.b,
          mk ⟨t, q7 f, vReg f.d, vReg f.a, .reg (vReg f.b), vMask f⟩)
  | none => none

def armVCmp (ok : VType → Cond → Bool) (mk : VCmp → Instr) (f : Fields) : Arm :=
  match vtypeOf (f.q.extractLsb' 0 4), condOf ((imm8 f).extractLsb' 0 4) with
  | some t, some cc =>
    need (ok t cc && noRnd f && !q7 f) <|
      some (vGap f && (imm8 f).extractLsb' 4 4 == 0 && f.c == 0 && mOk f.d && vOk f.a && vOk f.b,
        mk ⟨t, cc, mReg f.d, vReg f.a, vReg f.b, vMask f⟩)
  | _, _ => none

def vcmpOk (t : VType) (cc : Cond) : Bool :=
  t.isFloat && (cc == .eq || cc == .ne || cc == .lt || cc == .ge || cc == .gt || cc == .le)

def armVConv (ok : VType → VType → Bool) (nsatOk : Bool) (mk : VConv → Instr) (f : Fields) : Arm :=
  match vQ f, vtypeOf ((imm8 f).extractLsb' 0 4) with
  | some (t, r), some s =>
    need (ok t s && (nsatOk || !q7 f)) <|
      let o : VConv := ⟨t, s, r, q7 f, vReg f.d, vReg f.a, (imm8 f).extractLsb' 4 3, vMask f⟩
      some (vGap f && !(imm8 f).getLsbD 7 && o.groupOk && f.b == 0 && f.c == 0
        && vOk f.d && vOk f.a, mk o)
  | _, _ => none

def armVBlk (nsatOk : Bool) (mk : VBlk → Instr) (f : Fields) : Arm :=
  match vQ f with
  | some (t, r) =>
    need (t.isBlk && (nsatOk || !q7 f)) <|
      some (vPlain f && vOk f.d && vOk f.a,
        mk ⟨t, r, q7 f, vReg f.d, vReg f.a, f.b, f.c, vMask f⟩)
  | none => none

/-- A V-op of the types `ok`, without rounding; `satOk` says whether Q[7] may be set. -/
def armV (ok : VType → Bool) (satOk : VType → Bool) (f : Fields) (z : Bool) (mk : VType → Bool → Instr) : Arm :=
  match vtypeOf (f.q.extractLsb' 0 4) with
  | some t => need (ok t && noRnd f && (satOk t || !q7 f)) <| some (vGap f && z, mk t (q7 f))
  | none => none

/-- The register or IMM8 in the place of B (R379). -/
def gsrcOf (f : Fields) : GSrc := if vImmBit f then .imm (imm8 f) else .reg f.b

/-- B is zero under VIMM, IMM8 is zero without it (R297). -/
def gsrcMbz (f : Fields) : Bool := if vImmBit f then f.b == 0 else imm8 f == 0

def armLane (f : Fields) (z : Bool) (mk : VType → GSrc → Instr) : Arm :=
  match vtypeOf (f.q.extractLsb' 0 4) with
  | some t =>
    need (t.isMove && noRnd f && !q7 f) <| some (vGap f && z && gsrcMbz f && (gsrcOf f).indexOk t, mk t (gsrcOf f))
  | none => none

def armBcast (f : Fields) : Arm :=
  match vtypeOf (f.q.extractLsb' 0 4) with
  | some t =>
    need (t.isMove && noRnd f && !q7 f) <|
      some (vGap f && gsrcMbz f && f.a == 0 && f.c == 0 && vOk f.d, .vbcast t (vReg f.d) (gsrcOf f) (vMask f))
  | none => none

def armMask (f : Fields) (z : Bool) (i : Instr) : Arm := need (f.q == 0) <| some (z && f.imm == 0, i)

/-- VRNDT and VMIX: type, rounding and Q[7] zero, a mask allowed (R360). -/
def armRnd (f : Fields) (z : Bool) (i : Instr) : Arm :=
  need (f.q == 0) <| some (z && vPlain f, i)

def fltRnd (t : VType) (_ : Rnd) : Bool := t.isFloat
def fltPlain (t : VType) (r : Rnd) : Bool := t.isFloat && r == .cur
def f32Rnd (t : VType) (_ : Rnd) : Bool := t == .f32
def never (_ : VType) : Bool := false

/-- V-ops by opcode (R306), the immediate form aside. -/
def decodeVOp (f : Fields) : Arm :=
  match f.opc.toNat with
  | 0x00 => armVBin fltRnd .vadd f
  | 0x01 => armVBin fltRnd .vsub f
  | 0x02 => armVBin fltRnd .vmul f
  | 0x03 => armVBin fltRnd .vfma f
  | 0x04 => armVBin fltRnd .vfms f
  | 0x05 => armVBin f32Rnd .vdiv f
  | 0x06 => armVUn f32Rnd .vsqrt f
  | 0x08 => armVBin fltPlain .vmin f
  | 0x09 => armVBin fltPlain .vmax f
  | 0x0A => armVUn fltPlain .vabs f
  | 0x0B => armVUn fltPlain .vneg f
  | 0x0C => armVBin fltPlain .vcpys f
  | 0x10 => armVCmp vcmpOk .vcmp f
  | 0x40 => armVInt true .viadd f
  | 0x41 => armVInt true .visub f
  | 0x42 => armVInt true .vimul f
  | 0x43 => armVInt false .vimulh f
  | 0x48 => armVInt false .vand f
  | 0x49 => armVInt false .vor f
  | 0x4A => armVInt false .vxor f
  | 0x4B => armVInt false .vandn f
  | 0x50 => armVInt false .vshl f
  | 0x51 => armVInt false .vshr f
  | 0x52 => armVInt false .vsar f
  | 0x53 => armVInt false .vrot f
  | 0x58 => armVInt false .vimin f
  | 0x59 => armVInt false .vimax f
  | 0x5A => armV VType.isInt VType.isInt f
      (imm8 f == 0 && f.b == 0 && f.c == 0 && vOk f.d && vOk f.a)
      (fun t s => .viabs t s (vReg f.d) (vReg f.a) (vMask f))
  | 0x60 => armVCmp (fun t _ => t.isInt) .vicmp f
  | 0x80 => armVConv (fun t s => t.isFloat && s.isFloat && t != s) true .vcvt f
  | 0x81 => armVBlk true .vqnt f
  | 0x82 => armVBlk false .vdqnt f
  | 0x83 => armVConv (fun t s => t.isInt && s.isFloat) false .vftoi f
  | 0x84 => armVConv (fun t s => t.isFloat && s.isInt) false .vitof f
  | 0x88 => armV VType.isPack VType.isPack f
      (imm8 f == 0 && f.c == 0 && vOk f.d && vOk f.a && vOk f.b)
      (fun t s => .vpack t s (vReg f.d) (vReg f.a) (vReg f.b) (vMask f))
  | 0x89 => armV VType.isPack never f
      ((imm8 f).extractLsb' 1 7 == 0 && f.b == 0 && f.c == 0 && vOk f.d && vOk f.a)
      (fun t _ => .vunpk t ((imm8 f).getLsbD 0) (vReg f.d) (vReg f.a) (vMask f))
  | 0xA0 => armVUn f32Rnd .vexp2 f
  | 0xA1 => armVUn f32Rnd .vlog2 f
  | 0xA2 => armVUn f32Rnd .vrcp f
  | 0xA3 => armVUn f32Rnd .vrsq f
  | 0xA4 => armVUn f32Rnd .vsinp f
  | 0xA5 => armVUn f32Rnd .vcosp f
  | 0xA6 => armVUn f32Rnd .vtanh f
  | 0xB0 => armRnd f (f.a == 0 && f.b == 0 && f.c == 0 && vOk f.d) (.vrndt (vReg f.d) (vMask f))
  | 0xB1 => armV VType.isInt never f (imm8 f == 0 && f.b == 0 && f.c == 0 && vOk f.d)
      (fun t _ => .vrndh t (vReg f.d) f.a (vMask f))
  | 0xB2 => armRnd f (f.c == 0 && vOk f.d && vOk f.a) (.vmix (vReg f.d) (vReg f.a) f.b (vMask f))
  | 0xC0 => armV VType.isMove never f
      (imm8 f == 0 && f.c == 0 && vOk f.d && vOk f.a && vOk f.b)
      (fun t _ => .vperm t (vReg f.d) (vReg f.a) (vReg f.b) (vMask f))
  | 0xC1 => armBcast f
  | 0xC2 => armLane f (f.c == 0 && vOk f.a) (fun t s => .vextl t f.d (vReg f.a) s (vMask f))
  | 0xC3 => armLane f (f.c == 0 && vOk f.d) (fun t s => .vinsl t (vReg f.d) f.a s (vMask f))
  | 0xC4 => armLane f (f.c == 0 && vOk f.d && vOk f.a) (fun t s => .vrotl t (vReg f.d) (vReg f.a) s (vMask f))
  | 0xC8 => armV VType.isMove VType.isInt f
      (imm8 f == 0 && f.b == 0 && f.c == 0 && vOk f.d && vOk f.a)
      (fun t s => .vredAdd t s (vReg f.d) (vReg f.a) (vMask f))
  | 0xC9 => armV VType.isMove never f
      (imm8 f == 0 && f.b == 0 && f.c == 0 && vOk f.d && vOk f.a)
      (fun t _ => .vredMin t (vReg f.d) (vReg f.a) (vMask f))
  | 0xCA => armV VType.isMove never f
      (imm8 f == 0 && f.b == 0 && f.c == 0 && vOk f.d && vOk f.a)
      (fun t _ => .vredMax t (vReg f.d) (vReg f.a) (vMask f))
  | 0xCB => armV VType.isInt never f
      (imm8 f == 0 && f.b == 0 && f.c == 0 && vOk f.d && vOk f.a)
      (fun t _ => .vredAnd t (vReg f.d) (vReg f.a) (vMask f))
  | 0xCC => armV VType.isInt never f
      (imm8 f == 0 && f.b == 0 && f.c == 0 && vOk f.d && vOk f.a)
      (fun t _ => .vredOr t (vReg f.d) (vReg f.a) (vMask f))
  | 0xCD => armV VType.isInt never f
      (imm8 f == 0 && f.b == 0 && f.c == 0 && vOk f.d && vOk f.a)
      (fun t _ => .vredXor t (vReg f.d) (vReg f.a) (vMask f))
  | 0xD0 => armV VType.isMove never f
      (imm8 f == 0 && f.c == 0 && vOk f.d && vOk f.a && vOk f.b)
      (fun t _ => .vsel t (vReg f.d) (vReg f.a) (vReg f.b) (vMask f))
  | 0xD1 => armV VType.isMove never f
      (imm8 f == 0 && f.b == 0 && f.c == 0 && vOk f.d && vOk f.a)
      (fun t _ => .vmov t (vReg f.d) (vReg f.a) (vMask f))
  | 0xD8 => armMask f (f.c == 0 && mOk f.d && mOk f.a && mOk f.b) (.mand (mReg f.d) (mReg f.a) (mReg f.b))
  | 0xD9 => armMask f (f.c == 0 && mOk f.d && mOk f.a && mOk f.b) (.mor (mReg f.d) (mReg f.a) (mReg f.b))
  | 0xDA => armMask f (f.c == 0 && mOk f.d && mOk f.a && mOk f.b) (.mxor (mReg f.d) (mReg f.a) (mReg f.b))
  | 0xDB => armMask f (f.b == 0 && f.c == 0 && mOk f.d && mOk f.a) (.mnot (mReg f.d) (mReg f.a))
  | 0xDC => armMask f (f.b == 0 && f.c == 0 && mOk f.a) (.mpopc f.d (mReg f.a))
  | 0xDD => armV VType.isMove VType.isInt f
      (imm8 f == 0 && f.b == 0 && f.c == 0 && vOk f.d && vOk f.a)
      (fun t s => .vpfx t s (vReg f.d) (vReg f.a) (vMask f))
  | _ => none

/-- The V-ops whose scalar or shift operand may be IMM8 (R360, R379). -/
def takesVImm (f : Fields) : Bool :=
  match f.opc.toNat with
  | 0x40 | 0x41 | 0x42 | 0x43 | 0x48 | 0x49 | 0x4A | 0x4B | 0x50 | 0x51 | 0x52 | 0x53 | 0x58 | 0x59
  | 0xC1 | 0xC2 | 0xC3 | 0xC4 => true
  | _ => false

/-- V-ops: VIMM is an immediate form, and check 3 refuses it where the operation does not take it (R302).
Log 22, DEDUCED. -/
def decodeV (f : Fields) : Arm := need (takesVImm f || !vImmBit f) (decodeVOp f)

/-! ## E-ops (R307) -/

/-- An E-op; `wOk` and `intOk` say whether Q[0] and Q[1] may be set, Q[7:2] is zero (R303, R307). -/
def armE (wOk intOk : Bool) (f : Fields) (z : Bool) (i : Instr) : Arm :=
  need ((wOk || !f.q.getLsbD 0) && (intOk || !f.q.getLsbD 1) && f.q.extractLsb' 2 6 == 0) <| some (z, i)

def eaddr (f : Fields) : EAddr := ⟨f.a, f.imm⟩
def wBit (f : Fields) : Bool := f.q.getLsbD 0

/-- E-ops by opcode (R307). -/
def decodeE (f : Fields) : Arm :=
  match f.opc.toNat with
  | 0x00 => armE true false f (f.b == 0 && f.c == 0) (.mxrun (wBit f) f.d (eaddr f))
  | 0x02 => armE true false f (f.b == 0 && f.c == 0) (.mxcarryLd (wBit f) f.d (eaddr f))
  | 0x03 => armE true false f (f.b == 0 && f.c == 0) (.mxcarrySt (wBit f) f.d (eaddr f))
  | 0x20 => armE true false f (f.b == 0 && f.c == 0) (.cucopy (wBit f) f.d (eaddr f))
  | 0x21 => armE true false f (vOk f.c) (.cufill (wBit f) f.d (eaddr f) f.b (vReg f.c))
  | 0x22 => armE true false f (f.c == 0) (.culdb (wBit f) f.d (eaddr f) f.b)
  | 0x23 => armE true false f (f.c == 0) (.cudigest (wBit f) f.d (eaddr f) f.b)
  | 0x40 => armE false false f (f.b == 0 && f.c == 0 && f.imm == 0) (.jwait f.d f.a)
  | 0x41 => armE false false f (f.b == 0 && f.c == 0 && f.imm == 0) (.jpoll f.d f.a)
  | 0x42 => armE false false f (f.b == 0 && f.c == 0 && f.imm == 0) (.jcancel f.d f.a)
  | 0x50 => armE false false f (sOk f.d && f.b == 0 && f.c == 0) (.scfg (sReg f.d) (eaddr f))
  | 0x51 => armE false false f (sOk f.d && f.a == 0 && sOk f.b && f.c == 0 && f.imm == 0)
      (.sbind (sReg f.d) (sReg f.b))
  | 0x52 => armE false false f (sOk f.d && f.a == 0 && f.b == 0 && f.c == 0 && f.imm == 0) (.sclose (sReg f.d))
  | 0x53 => armE false false f
      (sOk f.a && f.c == 0 && f.imm.extractLsb' 1 15 == 0 && (f.imm.getLsbD 0 || f.b == 0))
      (.spos f.d (sReg f.a) (if f.imm.getLsbD 0 then some f.b else none))
  | 0x54 => armE false false f (sOk f.d && f.a == 0 && f.b == 0 && f.c == 0 && f.imm == 0) (.scommit (sReg f.d))
  | 0x60 => armE false true f (f.b == 0 && f.c == 0) (.slput (f.q.getLsbD 1) f.d (eaddr f))
  | 0x61 => armE false false f (f.c == 0) (.slget f.d (eaddr f) f.b)
  | 0x62 => armE false false f (f.b == 0 && f.c == 0 && f.imm == 0) (.slref f.d f.a)
  | 0x63 => armE false false f (f.b == 0 && f.c == 0 && f.imm == 0) (.slunref f.d f.a)
  | 0x64 => armE false false f (f.c == 0) (.slswap f.d (eaddr f) f.b)
  | 0x65 => armE true false f (f.c == 0 && f.imm == 0) (.slout (wBit f) f.d f.a f.b)
  | 0x66 => armE false false f (f.b == 0 && f.c == 0) (.slhash f.d (eaddr f))
  | 0x80 => armE false false f (f.b == 0 && f.c == 0) (.lksend f.d (eaddr f))
  | 0x81 => armE false false f (f.b == 0 && f.c == 0) (.lkrecv f.d (eaddr f))
  | 0x82 => armE false false f (f.b == 0 && f.c == 0) (.lkred f.d (eaddr f))
  | _ => none

/-! ## Bundles (R292, R300 to R302) -/

/-- What decoding finds: an IENC with its INFO, or a bundle of one or two operations with its length in bytes. -/
inductive Decoded where
  | ienc (info : Nat)
  | bundle (x : Instr) (v : Option Instr) (len : Nat)
deriving DecidableEq, Repr

/-- The bytes of a length code (R292); code 3 has none. -/
def lengthBytes (len : BitVec 2) : Nat :=
  match len.toNat with
  | 0 => 8 | 1 => 12 | 2 => 16 | _ => 0

/-- Checks 3 and 4 of a lone operation. -/
def finish1 (len : Nat) : Arm → Decoded
  | none => .ienc 0
  | some (z, i) => if z then .bundle i none len else .ienc 1

/-- Checks 3 and 4 of a pair bundle: check 3 of both halves comes before check 4 of either (R302). -/
def finish2 : Arm → Arm → Decoded
  | some (zx, x), some (zv, v) => if zx && zv then .bundle x (some v) 16 else .ienc 1
  | _, _ => .ienc 0

/-- A V word of a pair has length 00 and kind 01 (R300). -/
def isVWord (f : Fields) : Bool := f.len == 0 && f.kind == 1

/-- Decoding the first word with the word above it, once no straddle is found (R302 checks 2 to 4). -/
def decodeWords (w0 w1 : BitVec 64) : Decoded :=
  let f := fieldsOf w0
  match f.len.toNat, f.kind.toNat with
  | 0, 0 => finish1 8 (decodeX f .none)
  | 0, 1 => finish1 8 (decodeV f)
  | 0, 2 => finish1 8 (decodeE f)
  | 1, 0 => if isFormatB f.opc then .ienc 4 else finish1 12 (decodeX f (.ext (w1.extractLsb' 0 32)))
  | 2, 0 => if isVWord (fieldsOf w1) then finish2 (decodeX f .none) (decodeV (fieldsOf w1)) else .ienc 4
  | 2, 1 => if isFormatB f.opc then .ienc 4 else finish1 16 (decodeX f (.lit w1))
  | 2, 2 => if isVWord (fieldsOf w1) then finish2 (decodeE f) (decodeV (fieldsOf w1)) else .ienc 4
  | _, _ => .ienc 4

/-- The little-endian word of up to eight bytes; missing bytes read zero. -/
def wordOfBytes (bs : List Byte) : BitVec 64 := BitVec.ofNat 64 (leNat (bs.take 8))

/-- Decoding the bytes from the instruction's address to the end of its fetch block (R301, R302): check 1 first. -/
def decode (bs : List Byte) : Decoded :=
  let w0 := wordOfBytes bs
  if bs.length < lengthBytes (w0.extractLsb' 0 2) then .ienc 3
  else decodeWords w0 (wordOfBytes (bs.drop 8))

/-- The check that an arm fails, 3 or 4, as INFO of IENC. -/
def armInfo : Arm → Option Nat
  | none => some 0
  | some (z, _) => if z then none else some 1

/-- Whether the check that a pair bundle fails first is failed by its V half and not by its first half (R123, R302). -/
def iencInV (bs : List Byte) : Bool :=
  let f := fieldsOf (wordOfBytes bs)
  let v := fieldsOf (wordOfBytes (bs.drop 8))
  if 16 ≤ bs.length ∧ f.len = 2 ∧ (f.kind = 0 ∨ f.kind = 2) then
    !isVWord v ||
      (match armInfo (if f.kind = 0 then decodeX f .none else decodeE f), armInfo (decodeV v) with
       | none, some _ => true
       | some n, some m => m < n
       | _, none => false)
  else false

/-- The bytes of a number whose bit 0 is the least significant bit of the first byte, sixteen of them. -/
def tableBytes (w : Nat) : List Byte := leBytes 16 w

/-- What the decoder reads from an instruction whose bits are `w`: its first operation. -/
def decodeTableWord (_nbits w : Nat) : Option Instr :=
  match decode (tableBytes w) with
  | .bundle i _ _ => some i
  | .ienc _ => none

/-! ## The encoder -/

/-- A word of kind and opcode with every other field zero. -/
def base (kind : BitVec 2) (opc : BitVec 8) : Fields := ⟨0, kind, opc, 0, 0, 0, 0, 0, 0⟩

/-- Length and kind of a long form (R292). -/
def withExt (f : Fields) (e : Ext) : Fields × Ext :=
  match e with
  | .none => (f, .none)
  | .ext v => ({ f with len := 1 }, .ext v)
  | .lit v => ({ f with len := 2, kind := 1 }, .lit v)

def encSrc (s : Src) (f : Fields) : Fields × Ext :=
  match s with
  | .reg b => ({ f with b := b }, .none)
  | .i16 v => ({ f with imm := v, q := f.q ||| 8 }, .none)
  | .i48 v => ({ f with len := 1, imm := v.extractLsb' 0 16, q := f.q ||| 8 }, .ext (v.extractLsb' 16 32))
  | .i64 v => ({ f with len := 2, kind := 1, q := f.q ||| 8 }, .lit v)

def encAlu (opc : BitVec 8) (o : Alu) : Fields × Ext :=
  encSrc o.src { base 0 opc with d := o.d, a := o.a, q := (itypeCode o.ty).setWidth 8 }

def encOff (o : Off) (m : MReg) (f : Fields) : Fields × Ext :=
  match o with
  | .o16 v => ({ f with imm := v ||| m.setWidth 16 }, .none)
  | .o48 v => ({ f with len := 1, imm := v.extractLsb' 0 16 ||| m.setWidth 16 }, .ext (v.extractLsb' 16 32))

def encAddr (ad : Addr) (m : MReg) (f : Fields) : Fields × Ext :=
  encOff ad.off m { f with a := ad.base, b := ad.idx, c := ad.scl.setWidth 7 }

def encM3 (m3 : M3) (m : MReg) (f : Fields) : Fields × Ext :=
  encOff m3.off m { f with a := m3.base, c := m3.c }

def encMem (opc : BitVec 8) (q : BitVec 8) (o : MemOp) : Fields × Ext :=
  encAddr o.ad 0 { base 0 opc with d := o.d, q := q }

def encBits (f : BitField) : BitVec 16 := ((0 : BitVec 2) ++ f.len ++ (0 : BitVec 2) ++ f.pos : BitVec 16)

def encB (opc : BitVec 8) (a : GReg) (q : BitVec 8) (off : BitVec 37) : Fields × Ext :=
  (⟨0, 0, opc, off.extractLsb' 0 7, a, off.extractLsb' 7 7, off.extractLsb' 14 7, q, off.extractLsb' 21 16⟩, .none)

/-- An X-op or E-op of one word. -/
def encW (kind : BitVec 2) (opc : BitVec 8) (d a b c : BitVec 7) (q : BitVec 8) (imm : BitVec 16) : Fields × Ext :=
  (⟨0, kind, opc, d, a, b, c, q, imm⟩, .none)

def v7 (v : VReg) : BitVec 7 := v.setWidth 7
def m7 (m : MReg) : BitVec 7 := m.setWidth 7
def s7 (s : BitVec 2) : BitVec 7 := s.setWidth 7

def vImm (i8 : BitVec 8) (vi : Bool) (k : MReg) : BitVec 16 :=
  (i8 ++ (0 : BitVec 4) ++ BitVec.ofBool vi ++ k : BitVec 16)

def vQual (t : VType) (r : Rnd) (s : Bool) : BitVec 8 :=
  (BitVec.ofBool s ++ rndCode r ++ vtypeCode t : BitVec 8)

def encVBin (opc : BitVec 8) (o : VBin) : Fields × Ext :=
  encW 1 opc (v7 o.d) (v7 o.a) (v7 o.b) 0 (vQual o.ty o.rnd false) (vImm 0 false o.k)

def encVUn (opc : BitVec 8) (o : VUn) : Fields × Ext :=
  encW 1 opc (v7 o.d) (v7 o.a) 0 0 (vQual o.ty o.rnd false) (vImm 0 false o.k)

def encVInt (opc : BitVec 8) (o : VInt) : Fields × Ext :=
  match o.src with
  | .reg b => encW 1 opc (v7 o.d) (v7 o.a) (v7 b) 0 (vQual o.ty .cur o.sat) (vImm 0 false o.k)
  | .imm v => encW 1 opc (v7 o.d) (v7 o.a) 0 0 (vQual o.ty .cur o.sat) (vImm v true o.k)

def encVCmp (opc : BitVec 8) (o : VCmp) : Fields × Ext :=
  encW 1 opc (m7 o.d) (v7 o.a) (v7 o.b) 0 (vQual o.ty .cur false)
    (vImm ((0 : BitVec 4) ++ condCode o.cc) false o.k)

def encVConv (opc : BitVec 8) (o : VConv) : Fields × Ext :=
  encW 1 opc (v7 o.d) (v7 o.a) 0 0 (vQual o.ty o.rnd o.nsat)
    (vImm ((0 : BitVec 1) ++ o.g ++ vtypeCode o.src) false o.k)

def encVBlk (opc : BitVec 8) (o : VBlk) : Fields × Ext :=
  encW 1 opc (v7 o.d) (v7 o.a) o.s o.l (vQual o.ty o.rnd o.nsat) (vImm 0 false o.k)

/-- A V-op of one vector source and no rounding. -/
def encV1 (opc : BitVec 8) (t : VType) (s : Bool) (d a : VReg) (k : MReg) : Fields × Ext :=
  encW 1 opc (v7 d) (v7 a) 0 0 (vQual t .cur s) (vImm 0 false k)

/-- A V-op of two vector sources and no rounding. -/
def encV2 (opc : BitVec 8) (t : VType) (s : Bool) (d a b : VReg) (k : MReg) : Fields × Ext :=
  encW 1 opc (v7 d) (v7 a) (v7 b) 0 (vQual t .cur s) (vImm 0 false k)

def encLane (opc : BitVec 8) (t : VType) (d a : BitVec 7) (s : GSrc) (k : MReg) : Fields × Ext :=
  match s with
  | .reg b => encW 1 opc d a b 0 (vQual t .cur false) (vImm 0 false k)
  | .imm v => encW 1 opc d a 0 0 (vQual t .cur false) (vImm v true k)

def wQ (w : Bool) : BitVec 8 := if w then 1 else 0

def encE (opc : BitVec 8) (d : GReg) (e : EAddr) (b c : BitVec 7) (q : BitVec 8) : Fields × Ext :=
  encW 2 opc d e.a b c q e.off

/-- The fields and extension of a thread instruction; an event has none. -/
def encodeFields : Instr → Option (Fields × Ext)
  | .add o => some (encAlu 0x00 o)
  | .sub o => some (encAlu 0x01 o)
  | .mul o => some (encAlu 0x02 o)
  | .mulh o => some (encAlu 0x03 o)
  | .div o => some (encAlu 0x04 o)
  | .rem o => some (encAlu 0x05 o)
  | .and o => some (encAlu 0x08 o)
  | .or o => some (encAlu 0x09 o)
  | .xor o => some (encAlu 0x0A o)
  | .andn o => some (encAlu 0x0B o)
  | .orn o => some (encAlu 0x0C o)
  | .shl o => some (encAlu 0x10 o)
  | .shr o => some (encAlu 0x11 o)
  | .sar o => some (encAlu 0x12 o)
  | .rot o => some (encAlu 0x13 o)
  | .min o => some (encAlu 0x18 o)
  | .max o => some (encAlu 0x19 o)
  | .clz o => some (encW 0 0x20 o.d o.a 0 0 ((itypeCode o.ty).setWidth 8) 0)
  | .ctz o => some (encW 0 0x21 o.d o.a 0 0 ((itypeCode o.ty).setWidth 8) 0)
  | .popc o => some (encW 0 0x22 o.d o.a 0 0 ((itypeCode o.ty).setWidth 8) 0)
  | .brev o => some (encW 0 0x23 o.d o.a 0 0 ((itypeCode o.ty).setWidth 8) 0)
  | .extr sgn f => some (encW 0 0x28 f.d f.a 0 0 (if sgn then 0 else 4) (encBits f))
  | .insr f => some (encW 0 0x29 f.d f.a 0 0 0 (encBits f))
  | .li d v =>
    some (match v with
      | .i30 w => (⟨0, 0, 0x30, d, 0, w.extractLsb' 0 7, w.extractLsb' 7 7, 0, w.extractLsb' 14 16⟩, .none)
      | .i62 w => (⟨1, 0, 0x30, d, 0, w.extractLsb' 0 7, w.extractLsb' 7 7, 0, w.extractLsb' 14 16⟩,
          .ext (w.extractLsb' 30 32))
      | .i64 w => (⟨2, 1, 0x30, d, 0, 0, 0, 0, 0⟩, .lit w))
  | .lea d ad => some (encAddr ad 0 { base 0 0x40 with d := d })
  | .cmp cc o =>
    some (encSrc o.src { base 0 0x48 with d := o.d, a := o.a, q := (condCode cc ++ (itypeCode o.ty).setWidth 4) })
  | .csel d a b c => some (encW 0 0x50 d a b c 0 0)
  | .brcc cc a off => some (encB 0x60 a ((condCode cc).setWidth 8) off)
  | .brz a off => some (encB 0x61 a 0 off)
  | .brnz a off => some (encB 0x62 a 0 off)
  | .jmp off => some (encB 0x63 0 0 off)
  | .call a off => some (encB 0x64 a 0 off)
  | .jr a => some (encW 0 0x68 0 a 0 0 0 0)
  | .loop a off => some (encB 0x69 a 0 off)
  | .bstrm n off => some (encB 0x6A (s7 n) 0 off)
  | .ld o m => some (encMem 0x80 (memQ o (itypeCode m.ty)) m)
  | .st o m => some (encMem 0x81 (memQ o (itypeCode m.ty)) m)
  | .vld o m => some (encAddr m.ad m.k { base 0 0x82 with d := v7 m.d, q := memQ o 0 })
  | .vst o m => some (encAddr m.ad m.k { base 0 0x83 with d := v7 m.d, q := memQ o 0 })
  | .vldDesc o d k m => some (encM3 m k { base 0 0x84 with d := v7 d, q := memQ o 0 })
  | .vstDesc o d k m => some (encM3 m k { base 0 0x85 with d := v7 d, q := memQ o 0 })
  | .lds sc m => some (encMem 0x88 (scopeCode sc ++ (0 : BitVec 2) ++ itypeCode m.ty) m)
  | .ldsClr sc m => some (encMem 0x89 (scopeCode sc ++ (0 : BitVec 2) ++ itypeCode m.ty) m)
  | .stf m => some (encMem 0x8A ((itypeCode m.ty).setWidth 8) m)
  | .fec full d ad => some (encAddr ad 0 { base 0 0x8B with d := d, q := wQ full })
  | .prf ad => some (encAddr ad 0 (base 0 0x8C))
  | .flushl1 => some (base 0 0x8D, .none)
  | .amoAdd t o d m => some (encM3 m 0 { base 0 0x90 with d := d, q := memQ o (itypeCode t) })
  | .amoAnd t o d m => some (encM3 m 0 { base 0 0x91 with d := d, q := memQ o (itypeCode t) })
  | .amoOr t o d m => some (encM3 m 0 { base 0 0x92 with d := d, q := memQ o (itypeCode t) })
  | .amoXor t o d m => some (encM3 m 0 { base 0 0x93 with d := d, q := memQ o (itypeCode t) })
  | .amoMin t o d m => some (encM3 m 0 { base 0 0x94 with d := d, q := memQ o (itypeCode t) })
  | .amoMax t o d m => some (encM3 m 0 { base 0 0x95 with d := d, q := memQ o (itypeCode t) })
  | .amoSwap t o d m => some (encM3 m 0 { base 0 0x96 with d := d, q := memQ o (itypeCode t) })
  | .amoFadd o d m => some (encM3 m 0 { base 0 0x97 with d := d, q := memQ o 1 })
  | .cas t o d m => some (encM3 m 0 { base 0 0x98 with d := d, q := memQ o (itypeCode t) })
  | .ldv d ad => some (encAddr ad 0 { base 0 0x99 with d := d })
  | .cstor o d ad => some (encAddr ad 0 { base 0 0x9A with d := d, q := memQ o 0 })
  | .fence k sc =>
    some (encW 0 0x9C 0 0 0 0
      (scopeCode sc ++ (match k with | .acq => (1 : BitVec 2) | .rel => 2 | .full => 3) ++ (0 : BitVec 3)) 0)
  | .pst m => some (encMem 0xA0 ((itypeCode m.ty).setWidth 8) m)
  | .pstF m => some (encMem 0xA1 ((itypeCode m.ty).setWidth 8) m)
  | .xst m => some (encMem 0xA2 ((itypeCode m.ty).setWidth 8) m)
  | .xstF m => some (encMem 0xA3 ((itypeCode m.ty).setWidth 8) m)
  | .msend v a => some (encW 0 0xC0 (v7 v) a 0 0 0 0)
  | .mrecv v a => some (encW 0 0xC1 (v7 v) a 0 0 0 0)
  | .mrecvTrap v => some (encW 0 0xC2 (v7 v) 0 0 0 0 0)
  | .bara d ad => some (encAddr ad 0 { base 0 0xC4 with d := d })
  | .barw d ad => some (encAddr ad 0 { base 0 0xC5 with d := d })
  | .barmax d m => some (encM3 m 0 { base 0 0xC6 with d := d })
  | .qput d a q => some (encW 0 0xC8 d a 0 0 0 (q.setWidth 16))
  | .qget d a q => some (encW 0 0xC9 d a 0 0 0 (q.setWidth 16))
  | .wpush d v => some (encW 0 0xCA d (v7 v) 0 0 0 0)
  | .wpop v => some (encW 0 0xCB (v7 v) 0 0 0 0 0)
  | .waitc d a b => some (encW 0 0xCC d a b 0 0 0)
  | .mfs d r => some (encW 0 0xE0 d 0 0 0 0 (r.setWidth 16))
  | .mts a r => some (encW 0 0xE1 0 a 0 0 0 (r.setWidth 16))
  | .trap n a => some (encW 0 0xE2 0 a 0 0 0 (n.setWidth 16))
  | .halt => some (encW 0 0xE3 0 0 0 0 0 0)
  | .haltRetain s => some (encW 0 0xE4 0 0 0 0 0 (s.setWidth 16))
  | .yield => some (encW 0 0xE5 0 0 0 0 0 0)
  | .nop => some (encW 0 0xE6 0 0 0 0 0 0)
  | .nopLong imm v => some (⟨1, 0, 0xE6, 0, 0, 0, 0, 8, imm⟩, .ext v)
  | .launchInstr d a b => some (encW 0 0xE7 d a b 0 0 0)
  | .skimw d a => some (encW 0 0xE8 d a 0 0 0 0)
  | .spawn d a b => some (encW 0 0xE9 d a b 0 0 0)
  | .rdcyc d => some (encW 0 0xEA d 0 0 0 0 0)
  | .vadd o => some (encVBin 0x00 o)
  | .vsub o => some (encVBin 0x01 o)
  | .vmul o => some (encVBin 0x02 o)
  | .vfma o => some (encVBin 0x03 o)
  | .vfms o => some (encVBin 0x04 o)
  | .vdiv o => some (encVBin 0x05 o)
  | .vsqrt o => some (encVUn 0x06 o)
  | .vmin o => some (encVBin 0x08 o)
  | .vmax o => some (encVBin 0x09 o)
  | .vabs o => some (encVUn 0x0A o)
  | .vneg o => some (encVUn 0x0B o)
  | .vcpys o => some (encVBin 0x0C o)
  | .vcmp o => some (encVCmp 0x10 o)
  | .viadd o => some (encVInt 0x40 o)
  | .visub o => some (encVInt 0x41 o)
  | .vimul o => some (encVInt 0x42 o)
  | .vimulh o => some (encVInt 0x43 o)
  | .vand o => some (encVInt 0x48 o)
  | .vor o => some (encVInt 0x49 o)
  | .vxor o => some (encVInt 0x4A o)
  | .vandn o => some (encVInt 0x4B o)
  | .vshl o => some (encVInt 0x50 o)
  | .vshr o => some (encVInt 0x51 o)
  | .vsar o => some (encVInt 0x52 o)
  | .vrot o => some (encVInt 0x53 o)
  | .vimin o => some (encVInt 0x58 o)
  | .vimax o => some (encVInt 0x59 o)
  | .viabs t s d a k => some (encV1 0x5A t s d a k)
  | .vicmp o => some (encVCmp 0x60 o)
  | .vcvt o => some (encVConv 0x80 o)
  | .vqnt o => some (encVBlk 0x81 o)
  | .vdqnt o => some (encVBlk 0x82 o)
  | .vftoi o => some (encVConv 0x83 o)
  | .vitof o => some (encVConv 0x84 o)
  | .vpack t s d a b k => some (encV2 0x88 t s d a b k)
  | .vunpk t h d a k =>
    some (encW 1 0x89 (v7 d) (v7 a) 0 0 (vQual t .cur false) (vImm (if h then 1 else 0) false k))
  | .vexp2 o => some (encVUn 0xA0 o)
  | .vlog2 o => some (encVUn 0xA1 o)
  | .vrcp o => some (encVUn 0xA2 o)
  | .vrsq o => some (encVUn 0xA3 o)
  | .vsinp o => some (encVUn 0xA4 o)
  | .vcosp o => some (encVUn 0xA5 o)
  | .vtanh o => some (encVUn 0xA6 o)
  | .vrndt d k => some (encW 1 0xB0 (v7 d) 0 0 0 0 (vImm 0 false k))
  | .vrndh t d a k => some (encW 1 0xB1 (v7 d) a 0 0 (vQual t .cur false) (vImm 0 false k))
  | .vmix d a b k => some (encW 1 0xB2 (v7 d) (v7 a) b 0 0 (vImm 0 false k))
  | .vperm t d a b k => some (encV2 0xC0 t false d a b k)
  | .vbcast t d s k => some (encLane 0xC1 t (v7 d) 0 s k)
  | .vextl t d a s k => some (encLane 0xC2 t d (v7 a) s k)
  | .vinsl t d a s k => some (encLane 0xC3 t (v7 d) a s k)
  | .vrotl t d a s k => some (encLane 0xC4 t (v7 d) (v7 a) s k)
  | .vredAdd t s d a k => some (encV1 0xC8 t s d a k)
  | .vredMin t d a k => some (encV1 0xC9 t false d a k)
  | .vredMax t d a k => some (encV1 0xCA t false d a k)
  | .vredAnd t d a k => some (encV1 0xCB t false d a k)
  | .vredOr t d a k => some (encV1 0xCC t false d a k)
  | .vredXor t d a k => some (encV1 0xCD t false d a k)
  | .vsel t d a b k => some (encV2 0xD0 t false d a b k)
  | .vmov t d a k => some (encV1 0xD1 t false d a k)
  | .mand d a b => some (encW 1 0xD8 (m7 d) (m7 a) (m7 b) 0 0 0)
  | .mor d a b => some (encW 1 0xD9 (m7 d) (m7 a) (m7 b) 0 0 0)
  | .mxor d a b => some (encW 1 0xDA (m7 d) (m7 a) (m7 b) 0 0 0)
  | .mnot d a => some (encW 1 0xDB (m7 d) (m7 a) 0 0 0 0)
  | .mpopc d a => some (encW 1 0xDC d (m7 a) 0 0 0 0)
  | .vpfx t s d a k => some (encV1 0xDD t s d a k)
  | .mxrun w d e => some (encE 0x00 d e 0 0 (wQ w))
  | .mxcarryLd w d e => some (encE 0x02 d e 0 0 (wQ w))
  | .mxcarrySt w d e => some (encE 0x03 d e 0 0 (wQ w))
  | .cucopy w d e => some (encE 0x20 d e 0 0 (wQ w))
  | .cufill w d e b c => some (encE 0x21 d e b (v7 c) (wQ w))
  | .culdb w d e b => some (encE 0x22 d e b 0 (wQ w))
  | .cudigest w d e b => some (encE 0x23 d e b 0 (wQ w))
  | .jwait d a => some (encW 2 0x40 d a 0 0 0 0)
  | .jpoll d a => some (encW 2 0x41 d a 0 0 0 0)
  | .jcancel d a => some (encW 2 0x42 d a 0 0 0 0)
  | .scfg n e => some (encE 0x50 (s7 n) e 0 0 0)
  | .sbind n k => some (encW 2 0x51 (s7 n) 0 (s7 k) 0 0 0)
  | .sclose n => some (encW 2 0x52 (s7 n) 0 0 0 0 0)
  | .spos d n set =>
    some (match set with
      | none => encW 2 0x53 d (s7 n) 0 0 0 0
      | some b => encW 2 0x53 d (s7 n) b 0 0 1)
  | .scommit n => some (encW 2 0x54 (s7 n) 0 0 0 0 0)
  | .slput int d e => some (encE 0x60 d e 0 0 (if int then 2 else 0))
  | .slget d e b => some (encE 0x61 d e b 0 0)
  | .slref d a => some (encW 2 0x62 d a 0 0 0 0)
  | .slunref d a => some (encW 2 0x63 d a 0 0 0 0)
  | .slswap d e b => some (encE 0x64 d e b 0 0)
  | .slout w d a b => some (encW 2 0x65 d a b 0 (wQ w) 0)
  | .slhash d e => some (encE 0x66 d e 0 0 0)
  | .lksend d e => some (encE 0x80 d e 0 0 0)
  | .lkrecv d e => some (encE 0x81 d e 0 0 0)
  | .lkred d e => some (encE 0x82 d e 0 0 0)
  | .powerUp | .powerUpZeroingDone | .doorbell | .ringEnable | .ringDisable | .registerWrite _ _
  | .create _ | .destroy _ | .launch _ | .preempt _ | .save _ | .saveArm _ | .saveDisarm _ | .restore _
  | .setcirc _ | .readlog _ | .commandComplete _ | .hostMemRead _ _ | .hostMemWrite _ _ | .hostSnoop _
  | .warn | .drain | .drainTimeout | .chunk | .streamSlot | .doneFlag _ | .swap | .resume | .circuitFailed _ _
  | .deferredInstant | .saveQuiesce _ | .saveStreamDone _ _ _ | .restoreStreamDone _ | .errorRateWindow
  | .autoSave _ | .patrolScrub | .supplyFault _ _ | .killDrainEnd _ _ | .controlInterval _ _ _
  | .threadMigrationDone _ _ | .coreMigrationDone _ _ | .forwardExpiry _ _ | .governorWindow _ _
  | .frameMove _ _ | .frameLineMove _ | .balancingInterval | .trapDispatch _ _ | .waitLimitExpiry _ _
  | .translationWalkDone _ | .targetRequest _ | .replyArrival _ | .amoCombine _ _ | .combinedReplySplit _
  | .postedStoreArrival _ _ _ | .journalAck _ _ _ | .journalRefusal _ _ _ | .msendResend _ _ _
  | .xstPacket _ _ _ | .barrierCompletion _ _ _ | .replicatedWriteReceived _ _ _ | .replicatedApply _ _ _
  | .reclaimWalk _ _ | .reclaimChildAck _ _ | .jobStart _ _ _ | .engineChunkCycle _ _ | .chunkCommit _ _
  | .copyBlock _ _ | .jobEnd _ _ _ | .jobSuspend _ _ _ | .dataFrame _ _ | .ackFrame _ _ | .nakFrame _ _
  | .creditFrame _ _ | .retransmitTimeout _ | .singleFault _ | .powerLoss => none

/-- The bytes of an encoding, least significant first. -/
def bytesOf : Fields × Ext → List Byte
  | (f, .none) => leBytes 8 (wordOf f).toNat
  | (f, .ext v) => leBytes 8 (wordOf f).toNat ++ leBytes 4 v.toNat
  | (f, .lit v) => leBytes 8 (wordOf f).toNat ++ leBytes 8 v.toNat

/-- The bytes of a thread instruction; none for an event. -/
def encode (i : Instr) : Option (List Byte) := (encodeFields i).map bytesOf

/-- A pair bundle: the first half with length 10, then the V half (R300). -/
def encodePair (x v : Instr) : Option (List Byte) :=
  match encodeFields x, encodeFields v with
  | some (f, .none), some (g, .none) => some (bytesOf ({ f with len := 2 }, .lit (wordOf g)))
  | _, _ => none

end Sys2Proof
end

