-- ==== Sys2Proof/Machine/Cycle.lean ====
section
/-!
DEFINITION. One cycle of a core: the choice of the issuing context in open and plumb mode (R86, R106, R108, R388), and
the fetch of its bundle (R41 to R44, R120, R157, R301, R302).
-/

namespace Sys2Proof.Machine

/-! ## Eligibility (R106, R388) -/

def yieldHolds (c : Core) (ts : List Thread) (t : Thread) : Bool :=
  match t.yieldAt with
  | some y => c.cyc < y + 64 && !(yieldLeft c ts t).isEmpty
  | none => false

def eligible (c : Core) (ts : List Thread) (t : Thread) : Bool :=
  t.status == .ready && slotOn c t.slot && t.mig.isNone && !yieldHolds c ts t && (match lookup c.issued t.slot with
    | some y => y + 8 ≤ c.cyc
    | none => true)

/-- The highest class among the ready contexts. -/
def topClass (ts : List Thread) : Nat := ((ts.filter (fun t => t.status == .ready)).map (·.cls)).foldl Nat.max 0

/-- Classes below the top, descending, from the one after the class that took the previous lower slot. -/
def lowerOrder (top : Nat) (last : Option Nat) : List Nat :=
  let below := (List.range top).reverse
  match last with
  | some l => below.filter (· < l) ++ below.filter (l ≤ ·)
  | none => below

/-- The eligible context of a class that first follows a slot, wrapping. -/
def follows (ts : List Thread) (k after : Nat) : Option Thread :=
  let mine := ts.filter (·.cls == k)
  (((List.range 64).map (fun i => (after + 1 + i) % 64)).filterMap (fun sl => mine.find? (·.slot == sl))).head?

/-- The issuing context of an open-mode cycle, and whether it takes the lower slot. -/
def chooseOpen (c : Core) (ts : List Thread) : Option (Thread × Bool) :=
  if c.half && c.cyc % 2 == 1 then none
  else
    let u := if c.half then c.cyc / 2 else c.cyc
    let ok := ts.filter (eligible c ts)
    let top := topClass ts
    let lower := (lowerOrder top c.lastLow).find? (fun k => ok.any (·.cls == k))
    let pick := fun k => follows ok k (getD 63 c.ptr k)
    match u % 8 == 7, lower with
    | true, some k => (pick k).map (fun t => (t, true))
    | _, _ => ((List.range 4).reverse.findSome? pick).map (fun t => (t, false))

/-- A skip level takes effect with the first frame of 64 cycles that begins after it was set, so that whole frames are
skipped (R86). -/
def frameLevel (c : Core) : Core := if c.cyc % 64 = 0 then { c with skipNow := c.skip } else c

/-- Whether a plumb cycle lies in a skipped frame of 64 cycles (R86). -/
def skipped (c : Core) : Bool := (c.cyc / 64 + Config.skipOffset c.skipNow) % 8 < c.skipNow

def choosePlumb (c : Core) (ts : List Thread) : Option Thread :=
  if skipped c then none
  else ts.find? (fun t => t.slot == c.cyc % 64 && slotOn c t.slot)

/-! ## Fetch (R301) -/

/-- What a fetch finds. -/
inductive Fetch where
  | bundle (x : Instr) (v : Option Instr) (len : Nat)
  | miss (page : Nat)
  | trap (ti : TrapInfo) (len : Option Nat) (vhalf : Bool)
deriving DecidableEq, Repr

/-- The bytes from the instruction to the end of its fetch block: those of an L1 copy, or of the place. -/
def fetchBytes (e : Env) (l : Leaf) (pa : Nat) : List Byte :=
  let n := 32 - pa % 32
  match l1Hit e l pa n with
  | some bs => bs
  | none => readAt e.s (spotAt e (.mem l pa)) n

/-- Decoded bytes as a bundle or IENC; a straddle or a length without meaning leaves no readable length (R126). -/
def fetchOf (bs : List Byte) : Fetch :=
  match decode bs with
  | .bundle x v len => .bundle x v len
  | .ienc n =>
    .trap (mkTrap Cause.ienc n 0) (if n = 3 ∨ n = 4 then none else some ((bs.headD 0).toNat % 4)) (iencInV bs)

/-- Log 8, DEDUCED. -/
def fetchAt (e : Env) : Fetch :=
  let pc := e.t.pc
  if pc.toNat % 4 ≠ 0 then .trap (mkTrap Cause.align 4 pc) none false
  else
    match locate e.s e.w e.t .fetch .fetch false pc 4 with
    | .miss page => .miss page
    | .bad ti => .trap ti none false
    | .ok (.spad _ _) => .trap (protTrap .fetch 6 pc) none false
    | .ok (.mem l pa) =>
      let m := if (l1Hit e l pa 4).isSome then 0 else markAt e.s (spotAt e (.mem l pa))
      if m != 0 then .trap (mkTrap Cause.poison (m - 1) pc) none false else fetchOf (fetchBytes e l pa)

/-- A pool line that a fetch fills is checked as any other (R217). -/
def fetchCheck (s : State) (e : Env) : State :=
  match locate e.s e.w e.t .fetch .fetch false e.t.pc 4 with
  | .ok (.mem l pa) => if (l1Hit e l pa 4).isSome then s else fillCheck s e.w (targetAt e (.mem l pa)) l e.t.pc.toNat pa
  | _ => s

/-- The sectors of a fetch reach the L1 as those of a load do. -/
def fetchFill (s : State) (e : Env) : State :=
  match locate e.s e.w e.t .fetch .fetch false e.t.pc 4 with
  | .ok (.mem l pa) =>
    if (l1Hit e l pa 4).isSome then l1Touch s e pa 4
    else fillHere (touchRead s (targetAt e (.mem l pa)) pa) e l (pa / 64 * 64) 64
      (readAt s (spotAt e (.mem l (pa / 64 * 64))) 64)
  | _ => s

/-! ## The cycle -/

/-- A context's last issue (R106), and its leaving the sets of others' YIELDs. -/
def noteIssue (s : State) (o j : Nat) (c : Core) (t : Thread) : State :=
  { onCore s o j (fun k => { k with issued := put k.issued t.slot c.cyc }) with threads := s.threads.map (fun p =>
      if p.2.o = o ∧ p.2.core = j then
        if p.2.tid = t.tid then (p.1, { p.2 with due := none, yieldAt := none, yieldFor := [] })
        else (p.1, { p.2 with yieldFor := p.2.yieldFor.filter (· != t.slot) })
      else p) }

/-- The chosen thread's next bundle: the state in which `exec` runs it, with the instruction; or what its fetch meets. -/
def issueFrom (s : State) (o j : Nat) (t : Thread) : State × Option Instr :=
  match owner? s o with
  | none => (s, none)
  | some w =>
    match t.inW with
    | some (k, id, b) => (onThr s o t.tid (fun t => { t with status := .waiting (.job k id), pend := some b }), none)
    | none =>
      let e0 : Env := ⟨s, ⟨o, t.tid, j, t.pc, 8, none⟩, t, w, []⟩
      let s := fetchCheck s e0
      let e := { e0 with s := s }
      match fetchAt e with
      | .miss page =>
        let p := walkFor s t page
        (putWait p.1 ⟨o, t.tid, j, t.pc, 8, none⟩ p.2 none, none)
      | .trap ti len vhalf => (takeTrap s o t.tid ti t.pc len false vhalf, none)
      | .bundle x v len => ({ fetchFill s e with cur := some ⟨o, t.tid, j, t.pc, len, v⟩ }, some x)

/-- The count of own slots in plumb mode (R389): the first slot of a thread that is ready counts none before it. -/
def countSlot (s : State) (o j : Nat) (c : Core) : State :=
  if skipped c then s
  else { s with threads := s.threads.map (fun p =>
    if p.2.o = o ∧ p.2.core = j ∧ p.2.slot = c.cyc % 64 ∧ p.2.status ≠ .held then
      (p.1, { p.2 with slots := some (match p.2.slots with
        | some n => n + 1
        | none => 0) })
    else p) }

/-- Whether a posted access of a core, or a hint, has not completed by its deadline; one that waits for others before it may
leave has none. -/
def lateAccess (s : State) (o j : Nat) (c : Core) : Bool :=
  s.reqs.any (fun r => r.o == o && r.core == j && !r.held && r.iss.due.any (· ≤ c.cyc) && hasLeft s r)
    || c.journal.any (fun e => e.iss.due.any (· ≤ c.cyc) && entryMoves s o e)

/-- Whether an element that a stream has asked for has not come by its deadline. -/
def Stream.late (x : Stream) (y : Nat) : Bool :=
  (x.fetched.zip x.dues).any (fun p => p.2 ≤ y && (match p.1 with
    | .asked _ => true
    | .data _ | .fault _ _ _ => false))

/-- Whether a plumb-mode core is stretched: an access of a thread has not been answered by its deadline, or a walk runs;
neither holds for a wait that a target holds (R179, R333). -/
def stretched (s : State) (o j : Nat) (c : Core) : Bool :=
  lateAccess s o j c || s.walks.any (fun k => k.o == o && k.core == j && !k.joined.isEmpty)
    || (threadsOn s o j).any (fun t => t.streams.any (fun x => x.late c.cyc) || (match t.status with
      | .waiting (.reply r) => t.due.any (· ≤ c.cyc) && !s.reqs.any (fun q => q.base == r && q.held)
      | _ => false))

/-- One cycle of a core: what it issues, if anything. -/
def cycleOf (s : State) (o j : Nat) : State × Option Instr :=
  match owner? s o, core? s o j with
  | some w, some c =>
    if stopped s o || (placeOf s o j).mv then (s, none)
    else if w.plumb then
      if stretched s o j c then (s, none)
      else
        let c := frameLevel c
        let s := countSlot s o j c
        let s := onCore s o j (fun _ => { c with cyc := c.cyc + 1 })
        match choosePlumb c (threadsOn s o j) with
        | some t => if t.status = .ready ∧ t.mig.isNone ∧ t.due.all (· ≤ c.cyc) then issueFrom (noteIssue s o j c t) o j t else (s, none)
        | none => (s, none)
    else
      let r := chooseOpen c (threadsOn s o j)
      let s := onCore s o j (fun c => { c with cyc := c.cyc + 1 })
      match r with
      | none => (s, none)
      | some (t, low) =>
        let s := onCore s o j (fun c => { c with ptr := put c.ptr t.cls t.slot, lastLow := if low then some t.cls else c.lastLow })
        issueFrom (noteIssue s o j c t) o j t
  | _, _ => (s, none)

end Sys2Proof.Machine
end

