-- ==== Sys2Proof/Machine/Settle.lean ====
section
/-!
DEFINITION. What follows at once from a change of state: held waits whose condition now holds, asynchronous traps,
messages and records that find room, stream elements asked for ahead, and reductions that can go on (R105, R115, R121,
R125, R163, R349, R393). A step runs it after each act.
-/

namespace Sys2Proof.Machine

/-! ## Asynchronous traps (R121) -/

/-- The number at which an entry was made, the same count for every core of the owner. -/
def madeAt (s : State) (o j q : Nat) : Nat := ((entryAt s o j q).map (·.after)).getD q

/-- The age of a job of a core: its sequence counted back from the core's submissions (R115). -/
def jobAge (s : State) (o k id : Nat) : Nat :=
  match core? s o k with
  | some c => (id % 8192 + 8192 - c.jcount % 8192) % 8192
  | none => id % 8192

/-- Journal items first in journal order, then job items in submission order. -/
def asyncRank (s : State) (o : Nat) (a : Async) : Nat :=
  match a.item with
  | .journal j q => madeAt s o j q
  | .job k id => 2 ^ 64 + jobAge s o k id
  | .none => 2 ^ 65

def firstAsync (s : State) (o : Nat) (l : List Async) : Option Async :=
  l.foldl (fun best a => match best with
    | some b => if asyncRank s o a < asyncRank s o b then some a else some b
    | none => some a) none

/-- Loads, which may be withdrawn though a piece of them has been read. -/
def ReqKind.isLoad : ReqKind → Bool
  | .load _ _ _ | .vload _ _ _ | .ldv _ => true
  | _ => false

/-- Whether a bundle that waits for a reply can be withdrawn with nothing of it performed: its requests have not been
served, or only read. -/
def withdrawable (s : State) (r : Nat) : Bool :=
  let mine := s.reqs.filter (fun q => q.id == r || q.base == r)
  !mine.isEmpty && mine.all (fun q => q.combined.isNone && (q.kind.isLoad || q.part.isNone || mine.length == 4))

/-- Whether a thread stands at a bundle boundary: ready, or in a wait that it can be woken from. One whose request has
been served completes first, as R333 has it. Log 72, DEDUCED. -/
def atBoundary (s : State) (t : Thread) : Bool :=
  match t.status with
  | .ready => true
  | .waiting (.reply r) => withdrawable s r
  | .waiting _ => true
  | .held | .trapped | .parked | .dying => false

def takeAsync (s : State) (t : Thread) : State :=
  match firstAsync s t.o t.async with
  | none => s
  | some a =>
    if !atBoundary s t then s
    else
      let s := withdraw s t
      let s := onThr s t.o t.tid (fun t => { t with async := t.async.filter (· != a) })
      takeTrap s t.o t.tid ⟨a.cause, a.info, a.va, a.pos, 0, true, a.applied, a.item⟩ t.pc none true false

/-! ## Waits (R105) -/

def wake (s : State) (t : Thread) : State := onThr s t.o t.tid (fun t => { t with status := .ready, wcount := none })

/-- The general register that a waiting bundle's first half gives its result to. -/
def resultReg (t : Thread) : Option GReg :=
  match t.pend with
  | some b => (match b.x with
    | .jwait d _ | .jcancel d _ | .skimw d _ | .lksend d _ | .lkrecv d _ | .lkred d _ => some d
    | _ => none)
  | none => none

def give (d : Option GReg) (v : Nat) : Wr :=
  match d with
  | some r => Wr.ofG r (BitVec.ofNat 64 v)
  | none => Wr.none

/-- Whether the element that a pop waits for has come, or the pop would trap. -/
def popReady (t : Thread) (n : Nat) : Bool := popRes t n != .absent

/-- The oldest waiter for a job entry of a core, by the cycle in which it began to wait. -/
def oldestWaiter (l : List Thread) : Option Thread :=
  l.foldl (fun best t => match best with
    | some b => if t.waitAt < b.waitAt then some t else some b
    | none => some t) none

def entryTurn (s : State) (t : Thread) : Bool :=
  let k := tidCore t.tid
  entryTurns s t.o k < freeEntries s t.o k && (match oldestWaiter (entryWaiters s t.o k) with
    | some u => u.tid == t.tid
    | none => false)

/-- A link wait that fails: the group's port is down, or its data differ. -/
def linkFail (s : State) (t : Thread) (ti : TrapInfo) : State := trapWait s t.o t.tid ti

def settleSend (s : State) (t : Thread) (w : Owner) (gr peer step : Nat) (buf : Word) (len : Nat) : State :=
  match groupAt s t.o gr with
  | none => s
  | some g =>
    if (portAt s (peerPort g peer)).down then linkFail s t (lkfTrap gr 0 step)
    else if !hasCredit s t.o g peer step then s
    else match lkRead s w (len / 64) buf.toNat with
      | .inl ti => linkFail s t ti
      | .inr bs => finishWait (sendNow s t.o t.tid g peer step bs) t.o t.tid (give (resultReg t) 0)

def settleRecv (s : State) (t : Thread) (w : Owner) (gr peer step : Nat) (buf : Word) (len : Nat) : State :=
  match groupAt s t.o gr with
  | none => s
  | some g =>
    match wholeMsg s t.o gr peer step with
    | none => if (portAt s (peerPort g peer)).down then linkFail s t (lkfTrap gr 0 step) else s
    | some m =>
      match takeMsg s w t.o g peer step buf.toNat len m with
      | .inl ti => linkFail s t ti
      | .inr (s, n) => finishWait s t.o t.tid { give (resultReg t) n with acq := some .sys }

def dropReduce (s : State) (o gr step : Nat) : State :=
  { s with reduces := s.reduces.filter (fun r => !(r.o == o && r.group == gr && r.step == step)) }

def settleRed (s : State) (t : Thread) (w : Owner) (gr step : Nat) : State :=
  match groupAt s t.o gr, s.reduces.find? (fun r => r.o == t.o && r.group == gr && r.step == step) with
  | some g, some r =>
    if (redPeers g).any (fun p => (portAt s (peerPort g p)).down) then linkFail (dropReduce s t.o gr step) t (lkfTrap gr 0 step)
    else
      let p := redStep s g r
      let s := { p.1 with reduces := p.1.reduces.map (fun x => if x.o = r.o ∧ x.group = gr ∧ x.step = step then p.2 else x) }
      match redEnd s w g p.2 with
      | .inl ti => linkFail s t ti
      | .inr none => s
      | .inr (some s) => finishWait (dropReduce s t.o gr step) t.o t.tid { give (resultReg t) 0 with acq := some .sys }
  | _, _ => s

/-- One thread's wait, where its condition now holds. -/
def settleWait (s : State) (w : Owner) (t : Thread) (why : Wait) : State :=
  match why with
  | .reply _ | .walk _ => s
  | .journal => match core? s t.o t.core with
    | some c => if c.entriesHeld c.cyc < 256 then wake s t else s
    | none => s
  | .jobEntry => if entryTurn s t then onThr (wake s t) t.o t.tid (fun t => { t with turn := some (tidCore t.tid) }) else s
  | .release => if releaseMet s t .core then wake s t else s
  | .stream n => if popReady t n then wake s t else s
  | .job k id =>
    match jobAt s t.o k id with
    | some b => if b.isSuspended then trapWait s t.o t.tid (jobfTrap k b) else s
    | none =>
      let code := (jobCode s t.o k id).getD 1
      finishWait s t.o t.tid (jobSeen s t.o k id t.tid (if t.inW.isSome then none else resultReg t) code)
  | .jobStop k id code => if (jobAt s t.o k id).isNone then finishWait s t.o t.tid (give (resultReg t) code) else s
  | .skim want => if w.gen % 2 ^ 48 = want then s else finishWait s t.o t.tid (give (resultReg t) (w.gen % 2 ^ 48))
  | .inbox =>
    match t.inbox, t.pend with
    | r :: rs, some b => (match b.x with
      | .mrecvTrap v => finishWait (onThr s t.o t.tid (fun t => { t with inbox := rs })) t.o t.tid (inboxWr v r)
      | _ => s)
    | _, _ => s
  | .scommit n => if s.reqs.any (isPush t n) then s else wake s t
  | .linkSend gr peer step buf len => settleSend s t w gr peer step buf len
  | .linkRecv gr peer step buf len => settleRecv s t w gr peer step buf len
  | .linkRed gr step => settleRed s t w gr step
  | .apply => if s.rwrites.any (fun x => x.o == t.o && x.tid == t.tid && x.pending.any (fun d =>
      4096 ≤ (s.rwrites.filter (fun y => y.buffered.contains d)).length)) then s else wake s t
  | .disp u => if dispHeld s t.o u then s else wake s t

/-- A thread of a running owner: its pending asynchronous trap, then its wait. -/
def settleThread (s : State) (key : Nat) : State :=
  match lookup s.threads key with
  | none => s
  | some t =>
    if stopped s t.o || t.mig.isSome then s
    else if !t.async.isEmpty && atBoundary s t then takeAsync s t
    else match owner? s t.o, t.status with
      | some w, .waiting why => settleWait s w t why
      | _, _ => s

/-! ## Stream elements ahead (R163) -/

/-- A fetch whose page has no translation joins the page's walk, or starts one (R137). -/
def walkStream (s : State) (t : Thread) (page : Nat) : State :=
  if s.walks.any (fun k => k.o == t.o && k.page == page && k.core == t.core && k.joined.contains t.tid) then s
  else (walkFor s t page).1

/-- When an element asked for now completes in plumb mode: it is asked for in the core cycle that comes next (R179). -/
def askDue (s : State) (t : Thread) (tgt : Target) : Option Nat := (netDue s t.o t.core tgt).map (· + 1)

/-- The next element of an input stream is asked for: a request, or the fault that its pop will raise. -/
def askElement (s : State) (w : Owner) (t : Thread) (n : Nat) : State :=
  let x := streamAt t n
  let va := x.addr (x.pos + x.fetched.length)
  let add := fun (s : State) (f : Fetched) (due : Option Nat) => onThr s t.o t.tid (fun t =>
    let x := streamAt t n
    setStream t n (x.add f due))
  match locate s w t .ld .stream false va 64 with
  | .bad ti => add s (.fault ti.cause va ti.info) none
  | .miss page => walkStream s t page
  | .ok loc =>
    let e : Env := ⟨s, ⟨t.o, t.tid, t.core, t.pc, 8, none⟩, t, w, []⟩
    let hit := match loc with
      | .mem l pa => l1Hit e l pa 64
      | .spad _ _ => none
    match hit, loc with
    | some bs, .mem _ pa => add (l1Touch s e pa 64) (.data (bytesVec bs)) (askDue s t (targetAt e loc))
    | _, _ =>
      let r := reqFor e (.fetch n (x.pos + x.fetched.length)) va loc 64 none none
      addReq (add s (.asked r.id) (askDue s t r.tgt)) r

/-- Input elements are asked for up to AHEAD beyond the committed position. -/
def askAhead (key n : Nat) : Nat → State → State
  | 0, s => s
  | k + 1, s =>
    match lookup s.threads key with
    | none => s
    | some t =>
      let x := streamAt t n
      match owner? s t.o with
      | none => s
      | some w =>
        if x.out || stopped s t.o || t.mig.isSome || x.ahead ≤ x.fetched.length || x.total ≤ x.pos + x.fetched.length then s
        else askAhead key n k (askElement s w t n)

def settleStreams (s : State) (key : Nat) : State := (List.range 4).foldl (fun s n => askAhead key n 15 s) s

/-! ## Records pending for handlers (R125) -/

/-- Whether a pending record is its handler's next: the one of lowest SEQ. -/
def nextRecord (w : Owner) (p : Nat × TrapRec) : Bool :=
  w.undelivered.all (fun q => q.1 != p.1 || p.2.seq ≤ q.2.seq)

/-- Pending records are delivered in SEQ order as space frees. -/
def deliverRecords (o : Nat) : Nat → State → State
  | 0, s => s
  | n + 1, s =>
    match owner? s o with
    | none => s
    | some w =>
      match w.undelivered.find? (fun p => nextRecord w p && match thr? s o p.1 with
          | some h => h.inbox.length < 8
          | none => false) with
      | none => s
      | some p =>
        let s := onThr s o p.1 (fun h => { h with inbox := h.inbox ++ [p.2] })
        deliverRecords o n (onOwner s o (fun w => { w with undelivered := w.undelivered.erase p }))

/-! ## All of it -/

def settleOwner (s : State) (o : Nat) : State :=
  let s := if quietNet s o then s else flushDone s o
  if stopped s o then s
  else match owner? s o with
    | some w => deliverRecords o w.undelivered.length s
    | none => s

/-- An entry that may be sent goes to the tile that holds its target core now (R54), as soon as its core sends it; during a
pause none is resolved. -/
def sendEntry (o : Nat) (s : State) (x : Nat × Nat) : State :=
  match entryAt s o x.1 x.2 with
  | some e =>
    if e.tile.isNone && maySend s o e && Config.sends s.tick e.after % 2 == 0 then
      { onEntry s o x.1 x.2 (fun e => { e with tile := some { placeOf s o e.dest with mv := false },
                                               iss := { e.iss with sent := some s.nextId } }) with nextId := s.nextId + 1 }
    else s
  | none => s

def sendEntries (s : State) (o j : Nat) : State :=
  match core? s o j with
  | some c => (c.journal.map (fun e => (j, e.seq))).foldl (sendEntry o) s
  | none => s

/-- A request that may leave its core leaves it, a posted store when its core sends it. -/
def sendReq (s : State) (q : Req) : State :=
  match s.reqs.find? (·.id == q.id) with
  | some r =>
    if r.iss.sent.isNone && hasLeft s r && (!r.kind.isStore || Config.sends s.tick r.id % 2 == 0) then
      { s with reqs := s.reqs.map (fun x => if x.id = r.id then { x with iss := { x.iss with sent := some s.nextId } } else x),
               nextId := s.nextId + 1 }
    else s
  | none => s

def sendReqs (s : State) : State := (s.reqs.filter (·.iss.sent.isNone)).foldl sendReq s

/-- Releases performed early are forgotten once what they order has been performed, or their owner is gone (R197). -/
def settleEarly (s : State) : State :=
  { s with early := s.early.filter (fun x => (owner? s x.o).isSome && !releaseOk s x.o x.tid x.born x.scope x.id) }

/-- The contexts that a YIELD waits for lose those that have left the ready state or whose slots are disabled (R388). -/
def settleYields (s : State) : State :=
  { s with threads := s.threads.map (fun p =>
      if p.2.yieldFor.isEmpty then p
      else match core? s p.2.o p.2.core with
        | some c => (p.1, { p.2 with yieldFor := yieldLeft c (threadsOn s p.2.o p.2.core) p.2 })
        | none => p) }

def settleCore (s : State) (key : Nat) : State :=
  let o := key / 1024
  let j := key % 1024
  if stopped s o then s else sendEntries (deliverMsgs o j 16 s) o j

/-- Log 72, DEDUCED. -/
def settle (s : State) : State :=
  let s := settleYields (grantCredits s)
  let s := (s.cores.map (·.1)).foldl settleCore s
  let s := serveAllHeld (sendReqs s)
  let s := (s.owners.map (·.1)).foldl settleOwner s
  let s := (s.threads.map (·.1)).foldl settleThread s
  let s := (s.threads.map (·.1)).foldl settleStreams s
  settleEarly (sendReqs s)

end Sys2Proof.Machine
end

