-- ==== Sys2Proof/Machine/Turn.lean ====
section
/-!
DEFINITION. Whose turn it is: the acts that may come next, the fabric cycles that may pass before one of them is due,
and what passing cycles does to counted waits (R16, R49, R152; logs 3 and 9).
-/

namespace Sys2Proof.Machine

/-! ## Due instants -/

/-- When the rotation's next act is due: a state is left as soon as its condition holds (R56). -/
def rotationDue (s : State) : Option Nat :=
  match s.trowel with
  | .run => if s.power == .ready then some (s.nextT - warnLead) else none
  | .warn => if !s.deferred.isEmpty && s.saves.isEmpty then some s.fab else some s.nextT
  | .drain => some (if drained s false (fun _ => true) then s.fab else s.since + drainLimit)
  | .chunk | .stream =>
    if (List.range 8).any (fun d => s.slot < dieSlots s d) then some s.fab
    else match s.swapAt with
      | some x => some x
      | none =>
        let coming := s.done.filter (fun x => !s.flags.contains x.1 && !Config.flagLost s.since x.1)
        if coming.isEmpty then some (s.since + flagLimit) else (coming.map (·.2 + 160)).min?
  | .swap | .resume => some s.fab

/-- When a save's next act is due. -/
def saveDue (s : State) (v : SaveRun) : Option Nat :=
  if v.restore || v.quiet then none
  else if v.owners.all (fun o => match owner? s o with
    | some w => w.frozen
    | none => true) then some (v.til + drainLimit) else some v.til

/-- When a port's oldest frame is retransmitted. -/
def portDue (q : Port) : Option Nat := if q.down || q.sent.isEmpty then none else some (q.since + ackWait)

/-- When an owner's next balancing interval begins, and when its core migrations and its kill drain end (R57, R79, R109). -/
def ownerDues (s : State) (o : Nat) (w : Owner) : List Nat :=
  w.exch.map (·.2)
    ++ (if stopped s o || w.killed then [] else [w.balanceAt + balancePeriod])
    ++ (if w.killed && w.placed && !paused s && !logFull s then [w.killAt + drainLimit] else [])

/-- When a thread's wait passes its limit, and when its kill drain ends (R79, R152). -/
def threadDues (s : State) (t : Thread) : List Nat :=
  match t.status, t.wcount with
  | .waiting _, some n => if stopped s t.o || t.wlim = 0xFFFFFFFF then [] else [s.fab + (t.wlim.toNat + 1 - n)]
  | .dying, _ => if paused s || logFull s then [] else [t.waitAt + drainLimit]
  | _, _ => []

/-- The column of an engine by its key. -/
def columnOf (key : Nat) : Place := ⟨key / 12, key % 12, 0, false⟩

/-- Columns that an owner holds, and columns whose engine has run or whose budget has moved. -/
def engineKeys (s : State) : List Nat :=
  ((s.table.filter (fun p => p.2.own.isSome)).map (·.1) ++ s.engines.map (·.1)).dedup

/-- Whether a matrix job stands on the engine of a column. -/
def jobThere (s : State) (key : Nat) : Bool :=
  match lookup s.table key with
  | some p => p.own.any (fun o => (clus? s o p.lcl).any (fun cl => cl.mx.isSome))
  | none => false

/-- The end of the window of an engine with a job, or that took a cycle in it or in the one before, or whose budget changes
(R87, R90). -/
def windowDue (s : State) (key : Nat) : Option Nat :=
  let clock := clockOf (columnOf key).col
  let e := getD Engine.idle s.engines key
  if e.used + e.prev = 0 && e.budget == e.nextBudget && !jobThere s key then none else some (e.winAt + (4096 + clock - 1) / clock)

/-- Everything that falls due at an instant. -/
def dues (s : State) : List Nat :=
  let timed := if accepting s then [s.controlAt + controlPeriod, s.errAt + errPeriod, s.patrolAt + patrolPeriod] else []
  (rotationDue s).toList ++ s.saves.filterMap (saveDue s) ++ s.ports.filterMap (fun p => portDue p.2) ++ timed
    ++ (if paused s then [] else [s.balanceAt + balancePeriod])
    ++ s.owners.flatMap (fun p => ownerDues s p.1 p.2) ++ s.threads.flatMap (fun p => threadDues s p.2)
    ++ (engineKeys s).filterMap (windowDue s) ++ s.cores.flatMap (fun p => p.2.forwards.map (·.til))

/-- Fabric cycles left before something is due. -/
def gap (s : State) (n : Nat) : Nat := ((dues s).map (fun d => d - s.fab)).foldl Nat.min n

/-! ## The passing of cycles -/

/-- A counted wait of a thread that is not stopped goes on (R152, R61). -/
def countWait (s : State) (n : Nat) (t : Thread) : Thread :=
  match t.wcount with
  | some k => if stopped s t.o then t else { t with wcount := some (k + n) }
  | none => t

/-- Engine cycles in which a ready chunk cycle stands held by the budget go by with the clock (R87). -/
def countHeld (s : State) (n : Nat) (t : State) (key : Nat) : State :=
  let o := key / 128
  let c := key % 128
  match runOf s o c with
  | some (r, b, x) =>
    if chunkWanted s o c r b x && budgetUsed s o c then
      let p := clusPlace s o c
      let d := cyclesGone { s with fab := s.fab + n } p - cyclesGone s p
      if d = 0 then t else heldCycles t o c d
    else t
  | none => t

/-- Log 9, DESIGN CHOICE. -/
def passTime (s : State) (n : Nat) : State :=
  let n := gap s n
  let t := s.clusters.foldl (fun t p => countHeld s n t p.1) s
  { t with fab := s.fab + n, threads := s.threads.map (fun p => (p.1, countWait s n p.2)) }

/-! ## Acts that may come next -/

/-- The event that runs a taken command. -/
def cmdActs (c : Cmd) : List Instr :=
  match c.phase with
  | .taken =>
    match c.op with
    | 1 => [.create c.n] | 2 => [.destroy c.n] | 3 => [.launch c.n] | 4 => [.preempt c.n]
    | 5 => [.save c.n, .saveArm c.n, .saveDisarm c.n] | 6 => [.restore c.n] | 7 => [.setcirc c.n] | _ => [.readlog c.n]
  | .running | .done _ _ => [.commandComplete c.n]

def entryActs (o j : Nat) (e : JEnt) : List Instr :=
  match e.phase with
  | .ready => if e.kind == .xst then [.xstPacket o j e.seq] else [.postedStoreArrival o j e.seq]
  | .acked => [.journalAck o j e.seq]
  | .refusing _ | .late => [.journalRefusal o j e.seq]
  | .busy _ => [.msendResend o j e.seq]
  | .refused _ _ _ => []

def coreActs (o j : Nat) (c : Core) : List Instr :=
  c.journal.flatMap (entryActs o j) ++ (if c.reclaim.isEmpty && !c.scan then [] else [.reclaimWalk o j, .reclaimChildAck o j])
    ++ (if c.forwards.isEmpty then [] else [.forwardExpiry o j])

def clusterActs (o c : Nat) : List Instr :=
  [.jobStart o c .mx, .jobStart o c .cu, .engineChunkCycle o c, .chunkCommit o c, .copyBlock o c,
    .jobEnd o c .mx, .jobEnd o c .cu, .jobSuspend o c .mx, .jobSuspend o c .cu]

def threadActs (t : Thread) : List Instr :=
  (match t.status with
    | .trapped => [.trapDispatch t.o t.tid]
    | .dying => [.killDrainEnd t.o (some t.tid)]
    | .waiting _ => [.waitLimitExpiry t.o t.tid]
    | .held | .ready | .parked => []) ++ (if t.mig.isSome then [.threadMigrationDone t.o t.tid] else [])

def ownerActs (o : Nat) (w : Owner) : List Instr :=
  (if w.killed && w.placed then [.killDrainEnd o none] else []) ++ (if w.due then [.autoSave o] else [])
    ++ (w.map.zipIdx.filter (·.1.mv)).map (fun p => .coreMigrationDone o p.2)

/-- Engines whose window has ended: those of columns that are held, and those that ran. -/
def engineActs (s : State) : List Instr :=
  ((engineKeys s).filter (fun k => windowOver s (columnOf k))).map (fun k => .governorWindow (columnOf k).die (columnOf k).col)

/-- Circuits of a die whose done flag is missing at T + 22 microseconds (R63). -/
def lateActs (s : State) : List Instr :=
  if streaming s && s.swapAt.isNone && s.since + flagLimit ≤ s.fab then
    ((List.range 8).filter (fun d => !s.flags.contains d)).flatMap (fun d => (circuits s d).map (fun c => .circuitFailed d c.1))
  else []

/-- Pairs of requests that a switch may combine. -/
def combineActs (s : State) : List Instr :=
  s.reqs.flatMap (fun a => s.reqs.filterMap (fun b => if combinable s a b then some (.amoCombine a.id b.id) else none))

def netActs (s : State) : List Instr :=
  (s.reqs.filter (fun r => !r.held)).map (fun r => .targetRequest r.id) ++ s.replies.map (fun p => .replyArrival p.id)
    ++ s.combines.map (fun c => .combinedReplySplit c.id) ++ s.walks.map (fun k => .translationWalkDone k.id)
    ++ s.rwrites.flatMap (fun x => x.pending.map (fun d => .replicatedWriteReceived x.o x.id d))
    ++ s.rwrites.flatMap (fun x => x.buffered.map (fun d => .replicatedApply x.o x.id d))
    ++ s.barriers.flatMap (fun b => b.toTell.map (fun j => .barrierCompletion b.o j b.pa)) ++ combineActs s

def saveActs (v : SaveRun × Nat) : List Instr :=
  if v.1.restore then [.restoreStreamDone v.2] else if v.1.quiet then [.saveStreamDone v.2 true true] else [.saveQuiesce v.2]

def deviceActs : List Instr :=
  [.powerUpZeroingDone, .warn, .drain, .drainTimeout, .chunk, .streamSlot, .swap, .resume, .deferredInstant,
    .controlInterval [] [] ⟨0, none⟩, .errorRateWindow, .patrolScrub, .balancingInterval]

/-- Everything that the device may do next by itself. -/
def enabledActs (s : State) : List Act :=
  let evs := deviceActs ++ (List.range 8).map (fun d => .doneFlag d) ++ s.cmds.flatMap cmdActs ++ netActs s
    ++ s.cores.flatMap (fun p => coreActs (p.1 / 1024) (p.1 % 1024) p.2)
    ++ s.clusters.flatMap (fun p => clusterActs (p.1 / 128) (p.1 % 128)) ++ s.threads.flatMap (fun p => threadActs p.2)
    ++ engineActs s ++ lateActs s ++ s.owners.flatMap (fun p => ownerActs p.1 p.2) ++ s.saves.zipIdx.flatMap saveActs
    ++ s.moves.map (fun m => .frameLineMove m.src) ++ s.ports.map (fun p => .retransmitTimeout p.1)
  .pass (Config.elapsed s.tick) :: s.cores.map (fun p => .core (p.1 / 1024) (p.1 % 1024)) ++ evs.map .event

/-- The next act: the head of the agenda, or with an empty agenda one of those enabled (log 3, DESIGN CHOICE). -/
def nextAct (s : State) : Act × State :=
  match s.agenda with
  | a :: rest => (a, { s with agenda := rest, tick := s.tick + 1 })
  | [] =>
    let l := enabledActs s
    (l.getD (Config.pick s.tick % l.length) (.pass 0), { s with tick := s.tick + 1 })

/-- What follows an act at once. -/
def afterAct (s : State) : State := settle { s with cur := none }

end Sys2Proof.Machine
end

