-- ==== Sys2Proof/Machine/Step.lean ====
section
/-!
DEFINITION. One step of the machine: the next act, what it does, and what follows at once.
-/

namespace Sys2Proof.Machine

/-- An instruction or event, and what follows at once. -/
def perform (i : Instr) (s : State) : Host.Outcome State Fault Refusal :=
  match exec i s with
  | .next s => .next (afterAct s)
  | .fault r => .fault r
  | .refused r => .refused r

/-- One act of the machine. -/
def act (a : Act) (s : State) : Host.Outcome State Fault Refusal :=
  match a with
  | .event i => perform i s
  | .pass n => .next (afterAct (passTime s n))
  | .core o j =>
    match cycleOf s o j with
    | (s, some i) => perform i s
    | (s, none) => .next (afterAct s)

/-- One step. -/
def step (s : State) : Host.Outcome State Fault Refusal := act (nextAct s).1 (nextAct s).2

/-- The state with an instruction where the next step fetches and issues it (log 1, DESIGN CHOICE). -/
def State.withFetchWord (s : State) (nbits w : Nat) : State := bootWith s (instrBytes nbits w)

end Sys2Proof.Machine
end

