-- ==== Sys2Proof/Safety.lean ====
section
/-!
DEFINITION. What claims take a sound state and a safe run to be.
-/

namespace Sys2Proof.Machine

/-- Memory, scratchpads and B SRAM are in their canonical form (log 2, DESIGN CHOICE). -/
def State.memOk (s : State) : Bool := Memory.wf s.mem && Memory.wf s.spad && Memory.wf s.bsram

/-- The register window holds only what its fields admit (R32, R33): the ring's base, size and indices, and an enabled
ring with a size of its range. -/
def State.ringOk (s : State) : Bool :=
  s.cqbase % 65536 == 0 && s.cqbase < 2 ^ 52 && s.cqsize < 16 && s.cqtail < 4096 && s.cqhead < 4096
    && (!s.cqen || (4 ≤ s.cqsize && s.cqsize ≤ 12))

/-- Thread t of owner w issues bundle c, whose first operation is i, and no check at the core but i's own fails: its
encoding and registers are in order, each popped element has arrived (in plumb mode at its deadline, R179), each push may be made and finds room in the buffers
of replicated writes (R186), the second half meets no
trap, and no flag that FEN enables is among its flags and `fl`, those of i (R120, R142, R148, R162, R302). -/
structure Issues (s : State) (c : Cur) (t : Thread) (w : Owner) (i : Instr) (fl : BitVec 8) : Prop where
  cur   : s.cur = some c
  thr   : thr? s c.o c.tid = some t
  own   : owner? s c.o = some w
  enc   : bundleCheck s t i c.v = none
  pops  : ∀ p ∈ popsIn t c i, ∃ v, popRes t p.1 = .elem v
  due   : ∀ p ∈ popsIn t c i, streamDue (bare s) t p.1 = true
  push  : ∀ k ∈ pushesIn t c i, ∃ l, pushChk (bare s) w t k = .ok l
  room  : pushWaits (bare s) c t w i = false
  vtrap : (halfOf (envIn (bare s) c t w i)).trap = none
  fpx   : fpxTrap t.fpc (fl ||| (halfOf (envIn (bare s) c t w i)).w.flags) = none

/-- The bundle retires: first half's writes `wx` over the state `s'` that its operation answers, and the second
half's. -/
def retiresTo (s : State) (c : Cur) (t : Thread) (w : Owner) (i : Instr) (s' : State) (wx : Wr) : State :=
  retire s' c.o c.tid c.pc c.len wx (wrV (bare s) c t w i)

/-- The bundle retires with no effect outside its thread but the draws of its second half. -/
def doneWith (s : State) (c : Cur) (t : Thread) (w : Owner) (i : Instr) (wx : Wr) : State :=
  retiresTo s c t w i (envX (bare s) c t w i).s wx

/-- The same, the dither source moving past n more draws (R236). -/
def doneLone (s : State) (c : Cur) (t : Thread) (w : Owner) (i : Instr) (n : Nat) (wx : Wr) : State :=
  retiresTo s c t w i (takeDraws (envX (bare s) c t w i).s t n) wx

/-- The state that a bundle whose operation has been tried leaves when it traps: its dither draws are not returned (R383). -/
def tried (s : State) (c : Cur) (t : Thread) (w : Owner) (i : Instr) : State :=
  takeDraws (bare s) t (drawsOf (bare s) c t w i)

/-- The bundle takes a trap of its first half: nothing of it retires (R120). -/
def trapsTo (s : State) (c : Cur) (t : Thread) (w : Owner) (i : Instr) (ti : TrapInfo) : State :=
  takeTrap (tried s c t w i) c.o c.tid ti c.pc (some (lenBits c.len)) false false

/-- OpB(j) of R311 in n bits: the sub-element of a register, or the low bits of the immediate. -/
def opndAt (s : State) (t : Thread) (src : Src) (n j : Nat) : BitVec n :=
  match src with
  | .reg b => (readG s t b).extractLsb' (n * j) n
  | .i16 v => (v.signExtend 64).setWidth n
  | .i48 v => (v.signExtend 64).setWidth n
  | .i64 v => v.setWidth n

/-- A per-sub-element operation of R312: it retires with no flag, and sub-element j of the value written to gD is f of
sub-element j of gA and OpB(j), in the width and signedness of the type. -/
def AluGives (mk : Alu → Instr) (f : (n : Nat) → Bool → BitVec n → BitVec n → BitVec n) : Prop :=
  ∀ (s : State) (c : Cur) (t : Thread) (w : Owner) (o : Alu), Issues s c t w (mk o) 0 →
    ∃ r : Word, exec (mk o) s = .next (doneWith s c t w (mk o) (Wr.ofG o.d r)) ∧
      ∀ j < 64 / iw o.ty, r.extractLsb' (iw o.ty * j) (iw o.ty)
        = f (iw o.ty) (isSigned o.ty) ((readG s t o.a).extractLsb' (iw o.ty * j) (iw o.ty)) (opndAt s t o.src (iw o.ty) j)

/-- A relation of R321 and R369 between two sub-elements: the condition alone decides signedness. -/
def holds {n : Nat} (cc : Cond) (x y : BitVec n) : Prop :=
  match cc with
  | .eq => x = y
  | .ne => x ≠ y
  | .lt => x.toInt < y.toInt
  | .ge => y.toInt ≤ x.toInt
  | .gt => y.toInt < x.toInt
  | .le => x.toInt ≤ y.toInt
  | .ltu => x.toNat < y.toNat
  | .geu => y.toNat ≤ x.toNat
  | .gtu => y.toNat < x.toNat
  | .leu => x.toNat ≤ y.toNat

/-- The number a sub-element is read as. -/
def asInt {n : Nat} (sgn : Bool) (x : BitVec n) : Int := if sgn then x.toInt else x.toNat

/-- A control transfer (R323): not taken, it retires; taken, its target is checked first, the lower cause being
reported, and then becomes the next address. -/
def GoesTo (s : State) (c : Cur) (t : Thread) (w : Owner) (i : Instr) (taken : Prop) (tgt : Word) (wx : Wr) : Prop :=
  (¬ taken → exec i s = .next (doneWith s c t w i wx))
  ∧ (taken → tgt.extractLsb' 0 2 ≠ 0 → exec i s = .next (trapsTo s c t w i (mkTrap 0x03 4 tgt)))
  ∧ (taken → tgt.extractLsb' 0 2 = 0 → tgt.extractLsb' 57 7 ≠ 0 →
      exec i s = .next (trapsTo s c t w i (mkTrap 0x05 (2 * 2 ^ 13 + 2 * 2 ^ 16) tgt)))
  ∧ (taken → tgt.extractLsb' 0 2 = 0 → tgt.extractLsb' 57 7 = 0 →
      exec i s = .next (doneWith s c t w i { wx with npc := some tgt }))

/-! ## Vector operations -/

/-- A vector source of a bundle: the popped element of a register bound to an input stream, or the register (R162). -/
def vecIn (s : State) (c : Cur) (t : Thread) (i : Instr) (r : VReg) : Vec :=
  (((popVals t (popsIn t c i)).find? (·.1 == r)).map (·.2)).getD (readV s t r)

/-- Element e, of n bits, of a vector (R359). -/
def elemOf (n e : Nat) (v : Vec) : BitVec n := v.extractLsb' (n * e) n

/-- Whether element e, of n bits, is active: the mask's bit of its lowest byte lane (R155). -/
def isActive (m : BitVec 64) (n e : Nat) : Bool := m.getLsbD (n * e / 8)

/-- The number of active elements below e. -/
def rankIn (m : BitVec 64) (n e : Nat) : Nat := ((List.range e).filter (isActive m n)).length

/-- The flags that the active ones among the first k elements raise, together. -/
def raised (act : Nat → Bool) (k : Nat) (f : Nat → BitVec 8) : BitVec 8 :=
  ((List.range k).map (fun e => if act e then f e else 0)).foldl (· ||| ·) 0

/-- An element-wise operation (R359): with the flags of its active elements, it retires; element e of vD is what f
gives, or keeps its value where it is inactive. The second argument of f numbers the draw that the element takes. -/
def Lanes (s : State) (c : Cur) (t : Thread) (w : Owner) (i : Instr) (d : VReg) (k : MReg) (n : Nat) (srs : Bool)
    (f : Nat → Nat → Nat × BitVec 8) : Prop :=
  let m := readM t k
  let fl := raised (isActive m n) (512 / n) (fun e => (f e (rankIn m n e)).2)
  Issues s c t w i fl →
    ∃ r : Vec, exec i s = .next (doneLone s c t w i (512 / n) { Wr.ofV d r with flags := fl, srs := srs }) ∧
      ∀ e < 512 / n, elemOf n e r
        = if isActive m n e then BitVec.ofNat n (f e (rankIn m n e)).1 else elemOf n e (readV s t d)

/-- The rounding mode that an operation asks for (R147, R359), 4 being SR. -/
def rndAsked (t : Thread) : Rnd → Nat
  | .cur => (t.fpc.extractLsb' 0 3).toNat
  | .rne => 0
  | .rz => 1
  | .rup => 2
  | .rdn => 3
  | .sr => 4

/-- The mode it rounds under: SR is RNE in plumb mode (R236). -/
def rndMode (t : Thread) (w : Owner) (r : Rnd) : Nat := if rndAsked t r = 4 ∧ w.plumb = true then 0 else rndAsked t r

/-- Whether it sets %fpc.SRS (R236). -/
def rndSrs (t : Thread) (w : Owner) (r : Rnd) : Bool := rndAsked t r == 4 && w.plumb

/-- Element e of a vector as a value of a floating-point type, under the thread's FTZ (R229, R237). -/
def fval (t : Thread) (ty : VType) (e : Nat) (v : Vec) : FVal :=
  (fmtOf ty).dec (t.fpc.getLsbD 3) (elemOf ty.width e v).toNat

/-- An element rounded once, with draw D k (R359). -/
def fround (t : Thread) (w : Owner) (ty : VType) (r : Rnd) (how : Over) (D : Nat → Nat) (k : Nat) (x : Exact) :
    Nat × BitVec 8 :=
  (fmtOf ty).round (rndMode t w r) (t.fpc.getLsbD 3) how (D k) x

/-- An integer in n bits: wrapped, or with .sat clamped to the type's range with SAT (R243, R366). -/
def clampTo (sat sgn : Bool) (n : Nat) (v : Int) : Nat × BitVec 8 :=
  let lo : Int := if sgn then -(2 ^ (n - 1)) else 0
  let hi : Int := if sgn then 2 ^ (n - 1) - 1 else 2 ^ n - 1
  if sat = true ∧ v < lo then ((BitVec.ofInt n lo).toNat, 0x20)
  else if sat = true ∧ hi < v then ((BitVec.ofInt n hi).toNat, 0x20)
  else ((BitVec.ofInt n v).toNat, 0)

/-- Opnd(e) of R359: an element of vB, or IMM8 extended by the type's signedness. -/
def vOpndAt (s : State) (c : Cur) (t : Thread) (i : Instr) (ty : VType) (src : VSrc) (e : Nat) : BitVec ty.width :=
  match src with
  | .reg b => elemOf ty.width e (vecIn s c t i b)
  | .imm v => if ty.signed then v.signExtend ty.width else v.setWidth ty.width

/-- The amount of R368: the low 8 bits of an element of vB, or IMM8. -/
def vAmountAt (s : State) (c : Cur) (t : Thread) (i : Instr) (ty : VType) (src : VSrc) (e : Nat) : Nat :=
  match src with
  | .reg b => (elemOf ty.width e (vecIn s c t i b)).toNat % 256
  | .imm v => v.toNat

/-- A two-operand integer V-op of R366. -/
def VIntGives (mk : VInt → Instr) (f : (n : Nat) → Bool → Bool → BitVec n → BitVec n → Nat × BitVec 8) : Prop :=
  ∀ (s : State) (c : Cur) (t : Thread) (w : Owner) (o : VInt),
    Lanes s c t w (mk o) o.d o.k o.ty.width false (fun e _ =>
      f o.ty.width o.ty.signed o.sat (elemOf o.ty.width e (vecIn s c t (mk o) o.a)) (vOpndAt s c t (mk o) o.ty o.src e))

/-- A shift of R368. -/
def VShiftGives (mk : VInt → Instr) (f : (n : Nat) → BitVec n → Nat → BitVec n) : Prop :=
  ∀ (s : State) (c : Cur) (t : Thread) (w : Owner) (o : VInt),
    Lanes s c t w (mk o) o.d o.k o.ty.width false (fun e _ =>
      ((f o.ty.width (elemOf o.ty.width e (vecIn s c t (mk o) o.a)) (vAmountAt s c t (mk o) o.ty o.src e)).toNat, 0))

/-- A rounded operation of two elements, or of three with the old vD (R361, R362). -/
def VFloatGives (mk : VBin → Instr) (f : Mode → FVal → FVal → FVal → Exact) : Prop :=
  ∀ (s : State) (c : Cur) (t : Thread) (w : Owner) (o : VBin), ∃ D : Nat → Nat, (∀ k, D k < 2 ^ 16) ∧
    Lanes s c t w (mk o) o.d o.k o.ty.width (rndSrs t w o.rnd) (fun e k =>
      fround t w o.ty o.rnd .arith D k (f (rndMode t w o.rnd) (fval t o.ty e (vecIn s c t (mk o) o.a))
        (fval t o.ty e (vecIn s c t (mk o) o.b)) (fval t o.ty e (vecIn s c t (mk o) o.d))))

/-- A rounded operation of one element (R363). -/
def VUnaryGives (mk : VUn → Instr) (f : FVal → Exact) : Prop :=
  ∀ (s : State) (c : Cur) (t : Thread) (w : Owner) (o : VUn), ∃ D : Nat → Nat, (∀ k, D k < 2 ^ 16) ∧
    Lanes s c t w (mk o) o.d o.k o.ty.width (rndSrs t w o.rnd) (fun e k =>
      fround t w o.ty o.rnd .arith D k (f (fval t o.ty e (vecIn s c t (mk o) o.a))))

/-- An exact operation of two elements (R364): f takes values and encodings. -/
def VExactGives (mk : VBin → Instr) (f : Fmt → FVal → FVal → Nat → Nat → Nat) : Prop :=
  ∀ (s : State) (c : Cur) (t : Thread) (w : Owner) (o : VBin),
    Lanes s c t w (mk o) o.d o.k o.ty.width false (fun e _ =>
      let a := vecIn s c t (mk o) o.a
      let b := vecIn s c t (mk o) o.b
      (f (fmtOf o.ty) (fval t o.ty e a) (fval t o.ty e b) (elemOf o.ty.width e a).toNat (elemOf o.ty.width e b).toNat, 0))

/-- The magnitude code of an encoding under FTZ: a subnormal F32, BF16 or F16 has none (R237). -/
def magUnder (ftz : Bool) (f : Fmt) (x : Nat) : Nat :=
  if ftz = true ∧ f.ieee = true ∧ f.exp x = 0 then 0 else x % 2 ^ (f.width - 1)

/-- A compare into a mask register (R365, R369): every byte lane of an active element takes the element's condition,
the lanes of inactive ones keep their bits. -/
def ComparesTo (s : State) (c : Cur) (t : Thread) (w : Owner) (i : Instr) (d k : MReg) (n : Nat) (f : Nat → Prop) : Prop :=
  Issues s c t w i 0 →
    ∃ r : BitVec 64, exec i s = .next (doneLone s c t w i 0 (Wr.ofM d r)) ∧
      ∀ y < 64, r.getLsbD y = true ↔
        if isActive (readM t k) n (y / (n / 8)) = true then f (y / (n / 8)) else (readM t d).getLsbD y = true

/-- A relation between two floating-point values: a NaN makes .ne true and every other false (R365). -/
def fholds (cc : Cond) (x y : FVal) : Prop :=
  if x = .nan ∨ y = .nan then cc = .ne
  else
    match cc with
    | .eq => ltV x y = false ∧ ltV y x = false
    | .ne => ltV x y = true ∨ ltV y x = true
    | .lt => ltV x y = true
    | .ge => ltV x y = false
    | .gt => ltV y x = true
    | .le => ltV y x = false
    | .ltu | .geu | .gtu | .leu => False

/-- A conversion with a lane group (R370): n elements, from element sBase on of vA to element dBase on of vD; every
other bit of vD keeps its value. -/
def Converts (s : State) (c : Cur) (t : Thread) (w : Owner) (i : Instr) (d a : VReg) (k : MReg) (ws wd g : Nat)
    (srs : Bool) (f : Nat → Nat → Nat × BitVec 8) : Prop :=
  let big := max ws wd
  let n := 512 / big
  let sBase := if ws < wd then g * n else 0
  let dBase := if wd < ws then g * n else 0
  let m := readM t k
  let x := fun e => (elemOf ws (sBase + e) (vecIn s c t i a)).toNat
  let fl := raised (isActive m big) n (fun e => (f (x e) (rankIn m big e)).2)
  Issues s c t w i fl →
    ∃ r : Vec, exec i s = .next (doneLone s c t w i n { Wr.ofV d r with flags := fl, srs := srs }) ∧
      (∀ e < n, elemOf wd (dBase + e) r = if isActive m big e then BitVec.ofNat wd (f (x e) (rankIn m big e)).1
        else elemOf wd (dBase + e) (readV s t d)) ∧
      ∀ b < 512, (b < wd * dBase ∨ wd * (dBase + n) ≤ b) → r.getLsbD b = (readV s t d).getLsbD b

/-- One node of a reduction over operands that may be absent (R241). -/
def nodeOf (f : Nat → Nat → Nat × BitVec 8) : Option Nat × BitVec 8 → Option Nat × BitVec 8 → Option Nat × BitVec 8
  | (some x, p), (some y, q) => (some (f x y).1, p ||| q ||| (f x y).2)
  | (some x, p), (none, q) => (some x, p ||| q)
  | (none, p), (y, q) => (y, p ||| q)

/-- N(k, j) of R241 with the flags raised below it: the node over elements j * 2^k to (j + 1) * 2^k - 1. -/
def pairTree (f : Nat → Nat → Nat × BitVec 8) (leaf : Nat → Option Nat) : Nat → Nat → Option Nat × BitVec 8
  | 0, j => (leaf j, 0)
  | k + 1, j => nodeOf f (pairTree f leaf k (2 * j)) (pairTree f leaf k (2 * j + 1))

/-- R237 and R239: a floating-point tree takes in each element as its value is read, so that a lone active NaN delivers the
canonical one, and under FTZ a lone subnormal a zero of its sign. -/
def quietOf (t : Thread) (ty : VType) (x : Nat) : Nat :=
  if ty.isFloat then (fmtOf ty).enc ((fmtOf ty).dec (t.fpc.getLsbD 3) x) else x

/-- A reduction (R380): element 0 of vD receives the tree's result, every other bit of vD becomes 0. -/
def Reduces (s : State) (c : Cur) (t : Thread) (w : Owner) (i : Instr) (ty : VType) (d a : VReg) (k : MReg) (idn : Nat)
    (leaf : Nat → Nat) (f : Nat → Nat → Nat × BitVec 8) : Prop :=
  let n := ty.width
  let r := pairTree f
    (fun e => if isActive (readM t k) n e then some (leaf (elemOf n e (vecIn s c t i a)).toNat) else none)
    (Nat.log2 (512 / n)) 0
  Issues s c t w i r.2 →
    exec i s = .next (doneLone s c t w i 0 { Wr.ofV d (BitVec.ofNat 512 (r.1.getD idn)) with flags := r.2 })

/-- P(e) of R381 after k rounds. -/
def prefixTree (f : Nat → Nat → Nat × BitVec 8) (leaf : Nat → Option Nat) : Nat → Nat → Option Nat
  | 0, e => leaf e
  | k + 1, e => if e < 2 ^ k then prefixTree f leaf k e
      else (nodeOf f (prefixTree f leaf k (e - 2 ^ k), 0) (prefixTree f leaf k e, 0)).1

/-- The nodes of R380 on n-bit integers. -/
def addNodeI (sat sgn : Bool) (n x y : Nat) : Nat × BitVec 8 :=
  clampTo sat sgn n (asInt sgn (BitVec.ofNat n x) + asInt sgn (BitVec.ofNat n y))

/-- The node of R380 for .add: floats round RNE in the element format. -/
def addNodeOf (t : Thread) (ty : VType) (sat : Bool) (x y : Nat) : Nat × BitVec 8 :=
  let ftz := t.fpc.getLsbD 3
  if ty.isFloat then (fmtOf ty).round 0 ftz .arith 0 (addE 0 ((fmtOf ty).dec ftz x) ((fmtOf ty).dec ftz y))
  else addNodeI sat ty.signed ty.width x y

/-! ## Accesses to memory -/

/-- What the first half of a bundle reads from. -/
def firstEnv (s : State) (c : Cur) (t : Thread) (w : Owner) (i : Instr) : Env := envX (bare s) c t w i

/-- A value of n bytes read at a key, extended to 64 bits (R330). -/
def Loaded (sgn : Bool) (n : Nat) (m : Memory) (key : Nat) (x : Word) : Prop :=
  (∀ k < n, x.extractLsb' (8 * k) 8 = Memory.read m (key + k))
  ∧ ∀ b < 64, 8 * n ≤ b → x.getLsbD b = (sgn && x.getLsbD (8 * n - 1))

/-- n bytes from a key on take the bytes of a list, those marked; every other byte keeps its value. -/
def Stored (m m' : Memory) (key : Nat) (bs : List (Byte × Bool)) : Prop :=
  ∀ a, Memory.read m' a = if key ≤ a ∧ a < key + bs.length ∧ (bs.getD (a - key) (0, false)).2 = true
    then (bs.getD (a - key) (0, false)).1 else Memory.read m a

/-- A request of the bundle for the thread's own core's scratchpad, at an offset. -/
def ownReq (e : Env) (kind : ReqKind) (va : Word) (off n : Nat) (rel acq : Option Scope) : Req :=
  reqFor e kind va (.spad e.t.core off) n rel acq

/-- The access of n bytes at va, aligned to al, passes its checks at the thread's own core's scratchpad, and nothing
must be performed before it (R194, R197, R330). -/
structure OwnSpad (e : Env) (a : Act332) (k : AccKind) (va : Word) (n al off : Nat) (kind : ReqKind)
    (rel acq : Option Scope) : Prop where
  chk : check e.s e.w e.t a k va n al = .ok (.spad e.t.core off)
  ord : mayServe e.s (ownReq e kind va off n rel acq) = true

/-- No byte of a read is marked as poison (R411). -/
def cleanAt (e : Env) (off n : Nat) : Prop := markIn e.s (.spad e.t.o e.t.core off) n = 0

/-- The state with one more request number taken, as an access served at once leaves it. -/
def oneMore (s : State) : State := { s with nextId := s.nextId + 1 }

/-- The bundle waits, with its request on its way (R145, R333). -/
def asksFor (s : State) (c : Cur) (t : Thread) (w : Owner) (i : Instr) (s1 : State) (r : Req) : State :=
  putWait (addReq s1 r) c (.reply r.id) (some (bundleOf (bare s) c t w i))

/-- An AMO of R341 at the thread's own core's scratchpad: gD receives the old value, and f of it and of gC is stored. -/
def AmoGives (mk : IType → Ord → GReg → M3 → Instr) (op : AmoOp) (f : (n : Nat) → Bool → BitVec n → BitVec n → BitVec n) :
    Prop :=
  ∀ (s : State) (c : Cur) (t : Thread) (w : Owner) (ty : IType) (ord : Ord) (d : GReg) (m : M3) (off : Nat),
    let i := mk ty ord d m
    let e := firstEnv s c t w i
    let n := bytesOfType ty
    let y := readG s t m.c
    let key := spadKey t.o t.core off
    Issues s c t w i 0 → cleanAt e off n →
    let kd : ReqKind := .amo op n (isSigned ty) y d
    OwnSpad e .amo .atomic (ea3 s t m) n n off kd (ordRel ord) (ordAcq ord) →
    ∃ (x : Word) (m' : Memory), Loaded (isSigned ty) n s.spad key x ∧
      exec i s = .next (retiresTo s c t w i
          (noteEarly e.s { oneMore e.s with spad := m' } (ownReq e kd (ea3 s t m) off n (ordRel ord) (ordAcq ord)))
        { Wr.ofG d x with acq := (ordAcq ord).map (wideScope t) }) ∧
      Stored s.spad m' key (allOn (listOfWord
        ((f (8 * n) (isSigned ty) (x.setWidth (8 * n)) (y.setWidth (8 * n))).setWidth 64) n))

/-- The access that an instruction makes at its address: its class in the table of R332, its kind, its address, its
bytes and its alignment (R334 to R344, R352, R353, R357). -/
def accessOf (e : Env) : Instr → Option (Act332 × AccKind × Word × Nat × Nat)
  | .ld _ o => some (.ld, .load, ea e.s e.t o.ad, bytesOfType o.ty, bytesOfType o.ty)
  | .st _ o => some (.st, .store, ea e.s e.t o.ad, bytesOfType o.ty, bytesOfType o.ty)
  | .vld _ o => some (.ld, .load, ea e.s e.t o.ad, 64, 16)
  | .vst _ o => some (.st, .store, ea e.s e.t o.ad, 64, 16)
  | .vldDesc _ _ _ m => some (.vldDesc, .load, ea3 e.s e.t m, 64, 64)
  | .vstDesc _ _ _ m => some (.vstDesc, .store, ea3 e.s e.t m, 64, 64)
  | .lds _ o => some (.fe, .load, ea e.s e.t o.ad, bytesOfType o.ty, bytesOfType o.ty)
  | .ldsClr _ o => some (.fe, .atomic, ea e.s e.t o.ad, bytesOfType o.ty, bytesOfType o.ty)
  | .stf o => some (.fe, .store, ea e.s e.t o.ad, bytesOfType o.ty, bytesOfType o.ty)
  | .fec _ _ ad => some (.fe, .atomic, ea e.s e.t ad, 1, 1)
  | .amoAdd ty _ _ m | .amoAnd ty _ _ m | .amoOr ty _ _ m | .amoXor ty _ _ m | .amoMin ty _ _ m | .amoMax ty _ _ m
  | .amoSwap ty _ _ m | .cas ty _ _ m => some (.amo, .atomic, ea3 e.s e.t m, bytesOfType ty, bytesOfType ty)
  | .amoFadd _ _ m => some (.amo, .atomic, ea3 e.s e.t m, 4, 4)
  | .ldv _ ad => some (.ldv, .load, ea e.s e.t ad, 1, 1)
  | .bara _ ad => some (.obj, .atomic, ea e.s e.t ad, 64, 64)
  | .barmax _ m => some (.obj, .atomic, ea3 e.s e.t m, 64, 64)
  | .barw _ ad => some (.obj, .load, ea e.s e.t ad, 64, 64)
  | .waitc _ a _ => some (.waitc, .load, e.g a, 8, 8)
  | _ => none

/-! ## Requests and their replies -/

/-- The state once the bundle has asked: its thread waits, the request is on its way. -/
def asked (s : State) (c : Cur) (t : Thread) (w : Owner) (i : Instr) (r : Req) : State :=
  asksFor s c t w i (firstEnv s c t w i).s r

/-- The issuing thread is recorded under its own number; the request takes the next number, no reply is on the path
that its own takes, its target takes requests, the home core's tile is in place, and nothing must be performed before it
(R134, R175, R182, R194, R197). -/
structure Travels (s : State) (c : Cur) (t : Thread) (w : Owner) (i : Instr) (r : Req) : Prop where
  key   : c.o = t.o ∧ c.tid = t.tid
  old   : ∀ a ∈ s.reqs, a.id < s.nextId
  quiet : ∀ p ∈ s.replies, p.id ≠ s.nextId ∧ sameWay s r.reply p = false
  plain : ∀ k ∈ s.combines, k.id ≠ s.nextId
  still : targetShut s r.tgt = false
  home  : (placeOf s t.o (tidCore t.tid)).mv = false
  ord   : mayServe (asked s c t w i r) r = true

/-- The round trip of a bundle's request: the bundle asks and waits, the target performs it (`u2`), and its reply
retires the bundle from `u3` with the writes `wx` (R145, R333). -/
def Trip (s : State) (c : Cur) (t : Thread) (w : Owner) (i : Instr) (r : Req) (P : State → State → Wr → Prop) : Prop :=
  ∃ u2 u3 wx, exec i s = .next (asked s c t w i r)
    ∧ exec (.targetRequest r.id) (asked s c t w i r) = .next u2
    ∧ exec (.replyArrival r.id) u2 = .next (retire u3 c.o c.tid c.pc c.len wx (wrV (bare s) c t w i))
    ∧ P u2 u3 wx

/-- A request was performed without changing a byte: what is left differs in caches, marks and the network alone. -/
def KeepsBytes (s u : State) : Prop :=
  u.mem = s.mem ∧ u.spad = s.spad ∧ u.bsram = s.bsram ∧ u.desc = s.desc ∧ u.fe = s.fe ∧ u.spadFE = s.spadFE
  ∧ u.tags = s.tags ∧ u.gfile = s.gfile ∧ u.vfile = s.vfile ∧ u.owners = s.owners ∧ u.launches = s.launches

/-- The same but for memory, whose bytes are as before outside n bytes from pa on. -/
def KeepsBut (s u : State) (pa n : Nat) : Prop :=
  (∀ a, (a < pa ∨ pa + n ≤ a) → Memory.read u.mem a = Memory.read s.mem a)
  ∧ u.spad = s.spad ∧ u.bsram = s.bsram ∧ u.desc = s.desc ∧ u.fe = s.fe ∧ u.spadFE = s.spadFE
  ∧ u.tags = s.tags ∧ u.gfile = s.gfile ∧ u.vfile = s.vfile ∧ u.owners = s.owners ∧ u.launches = s.launches

/-- An arrival at a barrier object (R206, R207): gD receives the generation; with arrivals still to come PEND falls by
one, and the last arrival closes the generation: PEND takes NARR, GEN rises, ACC moves to RES and takes its start. -/
def Arrives (s : State) (c : Cur) (t : Thread) (w : Owner) (i : Instr) (d : GReg) (va : Word) (v : Option Word) : Prop :=
  let e := firstEnv s c t w i
  Issues s c t w i 0 → ∀ l pa, check e.s w t .obj .atomic va 64 64 = .ok (.mem l pa) →
  let r := reqFor e (.arrive v d) va (.mem l pa) 64 (some .pkg) none
  Travels s c t w i r → markIn s (.mem pa) 64 = 0 →
  let b := readBar s pa
  let acc := match v with
    | none => b.acc
    | some y => if b.maxu = true then (if b.acc.toNat ≤ y.toNat then y else b.acc)
        else (if b.acc.toInt ≤ y.toInt then y else b.acc)
  b.mbz = true → b.narr ≠ 0 →
  Trip s c t w i r (fun u2 u3 wx =>
    wx = Wr.ofG d (BitVec.ofNat 64 b.gen) ∧ KeepsBut s u2 pa 32 ∧ u3.mem = u2.mem ∧ u3.spad = u2.spad ∧
    let b' := readBar u2 pa
    b'.narr = b.narr ∧ b'.tag = b.tag ∧ b'.xch = b.xch ∧ b'.maxu = b.maxu ∧ b'.mbz = true ∧
    (1 < b.pend → b'.pend = b.pend - 1 ∧ b'.gen = b.gen ∧ b'.acc = acc
      ∧ Memory.nat u2.mem (pa + 24) 8 = Memory.nat s.mem (pa + 24) 8) ∧
    (b.pend ≤ 1 → b'.pend = b.narr ∧ b'.gen = (b.gen + 1) % 65536
      ∧ b'.acc = (if b.maxu = true then 0 else 0x8000000000000000) ∧ Memory.nat u2.mem (pa + 24) 8 = acc.toNat))

/-! ## The journal -/

/-- A posted store, exchange store or message (R129, R347 to R349): with an entry free it takes one and the bundle
goes on, with none it waits for one, and issues again. -/
def TakesEntry (s : State) (c : Cur) (t : Thread) (w : Owner) (i : Instr) (va : Word) (kind : PostKind) (full : Bool)
    (data : List Byte) : Prop :=
  let e := firstEnv s c t w i
  Issues s c t w i 0 → va.toNat % data.length = 0 → va.extractLsb' 57 7 = 0 → isSpadVa va.toNat = true →
  watchHit t va.toNat data.length false true = none →
  ∀ j off k, spadVa w (tidCore t.tid) va.toNat = some (j, off) → core? e.s t.o t.core = some k →
    (k.entriesHeld (k.cyc - 1) < 256 →
      let x := { e.s with cores := put e.s.cores (coreKey t.o t.core) { k with
          jseq := k.jseq + 1,
          journal := k.journal
            ++ [⟨k.jseq, t.tid, t.launch, j, kind, full, va, off, data, k.xph, s.nextId, false, none, .ready,
                issueOf e.s t true (.scratch t.o j)⟩] } }
      let y := if full = true ∨ kind = .msend then onThr x t.o t.tid (fun q => { q with fenceAt := s.nextId + 1 }) else x
      exec i s = .next (retiresTo s c t w i (postDue { y with nextId := s.nextId + 1 } t.o t.tid (.scratch t.o j)) Wr.none))
    ∧ (256 ≤ k.entriesHeld (k.cyc - 1) → exec i s = .next (putWait e.s c .journal none))

/-- What a refused address of a posted operation meets (R122, R347, R349). -/
def PostTraps (s : State) (c : Cur) (t : Thread) (w : Owner) (i : Instr) (va : Word) (n : Nat) : Prop :=
  Issues s c t w i 0 →
    (va.toNat % n ≠ 0 → exec i s = .next (trapsTo s c t w i (mkTrap 0x03 (n % 256) va)))
    ∧ (va.toNat % n = 0 → va.extractLsb' 57 7 ≠ 0 → exec i s = .next (trapsTo s c t w i (mkTrap 0x05 (2 ^ 13 + 2 * 2 ^ 16) va)))
    ∧ (va.toNat % n = 0 → va.extractLsb' 57 7 = 0 → isSpadVa va.toNat = true → spadVa w (tidCore t.tid) va.toNat = none →
        exec i s = .next (trapsTo s c t w i (mkTrap 0x05 (2 ^ 13 + 2 * 2 ^ 16) va)))

/-! ## Jobs -/

/-- A submission whose operands are in order (R115, R392, R393): its release conditions, then a free entry, are waited
for; then the job takes an entry with the next id of the core and the captured rounding, gD receives the id, and a `.w`
form waits for the job, gD written and the second half done. A gate that has already failed fails the job (R264). -/
def Submits (s : State) (c : Cur) (t : Thread) (w : Owner) (i : Instr) (wf : Bool) (d : GReg) (kind : JobKind)
    (gate : Option JobGate) : Prop :=
  let e := firstEnv s c t w i
  let k := tidCore t.tid
  let rm := (t.fpc.extractLsb' 0 3).toNat
  let sr := rm == 4 && w.plumb
  (releaseNow e.s t .clus = false → exec i s = .next (putWait e.s c .release none))
  ∧ (releaseNow e.s t .clus = true → mayTakeEntry e.s t = false → exec i s = .next (putWait e.s c .jobEntry none))
  ∧ ∀ x, releaseNow e.s t .clus = true → mayTakeEntry e.s t = true → core? e.s t.o k = some x →
    let id := k % 8 * 8192 + x.jcount % 8192
    let job : Job := ⟨id, t.tid, t.launch, kind, if sr then 0 else rm, t.fpc.getLsbD 3, gate.getD .none, .queued, 0, 0,
      false, false, false, false, none, false, false, [], 0, [], []⟩
    let u0 := { e.s with cores := put e.s.cores (coreKey t.o k) { x with jobs := x.jobs ++ [job], jcount := x.jcount + 1 } }
    let u := if gate.isNone then failJob u0 t.o k id 0x09 else u0
    let wx := { Wr.ofG d (BitVec.ofNat 64 id) with srs := sr }
    let b := bundleOf (bare s) c t w i
    (wf = false → exec i s = .next (retiresTo s c t w i u wx))
    ∧ (wf = true → exec i s = .next (putWait (onThr (applyRegs u c.o c.tid wx) c.o c.tid
        (fun y => { y with inW := some (k, id, b) })) c (.job k id) (some b)))

/-- A 64-byte operand block in the scratchpad of the thread's own core, read within the bundle: in order, unmarked, and
with no earlier access to it pending (R191, R194, R394). -/
def OwnBlock (e : Env) (va : Word) (off : Nat) : Prop :=
  va.toNat % 64 = 0 ∧ isSpadVa va.toNat = true ∧ check e.s e.w e.t .ld .load va 64 64 = .ok (.spad e.t.core off)
  ∧ pendingOn e (.scratch e.t.o e.t.core) [(off, 64)] = false ∧ markIn e.s (.spad e.t.o e.t.core off) 64 = 0

/-- The traps of an operand block's address (R394, R397, R406). -/
def BlockTraps (s : State) (c : Cur) (t : Thread) (w : Owner) (i : Instr) (va : Word) : Prop :=
  Issues s c t w i 0 →
    (va.toNat % 64 ≠ 0 → exec i s = .next (trapsTo s c t w i (mkTrap 0x03 64 va)))
    ∧ (va.toNat % 64 = 0 → (isSpadVa va.toNat = false ∨ va.extractLsb' 57 7 ≠ 0) →
        exec i s = .next (trapsTo s c t w i (mkTrap 0x05 (2 * 2 ^ 16) va)))

/-! ## Sealed lines -/

/-- The set line of a name may be used by the thread and by its slice: the region stands, both translations of it agree,
and no block of it is marked (R214, R218). -/
structure SetLine (s : State) (e : Env) (k : AccKind) (name : Nat) (l : Leaf) (pa : Nat) : Prop where
  sen  : e.w.sen = true
  core : setChk e k (setOfName e.w name) = .ok (.mem l pa)
  slice : sealTrans s e.w (setVa e.w (setOfName e.w name)) k k.writes = .ok (.mem l pa)
  clean : markIn s (.mem pa) 256 = 0

/-- Replace one entry of a set line, and nothing else of memory. -/
def SetsEntry (s u : State) (pa n : Nat) (x : SEnt) : Prop := readEnt u pa n = x ∧ KeepsBut s u (pa + 16 * n) 16

/-- The live entry of a name, as a slice finds it for an atomic operation on its set line (R214, R220). -/
structure Named (s : State) (w : Owner) (name pa n : Nat) : Prop where
  nz    : name ≠ 0
  slice : ∃ l, sealTrans s w (setVa w (setOfName w name)) .atomic true = .ok (.mem l pa)
  clean : markIn s (.mem pa) 256 = 0
  here  : findName s pa name = some n

/-- What SLUNREF makes of a live entry (R220, R221). -/
def unrefd (x : SEnt) : SEnt :=
  if 1 < x.cnt then { x with cnt := x.cnt - 1 }
  else if x.int then { x with cnt := 0, live := false, recl := true, next := 0 }
  else { x with cnt := 0, live := false }

/-- Two ranges of n and m bytes have no byte in common. -/
def apart (a n b m : Nat) : Prop := a + n ≤ b ∨ b + m ≤ a

/-- A link operation finds its block in order in the own core's scratchpad, and its group (R406). -/
structure LinkBlock (e : Env) (va : Word) (off : Nat) (x : LkBlock) (g : Group) (red : Bool) : Prop where
  own   : OwnBlock e va off
  blk   : x = lkBlock (Memory.readN e.s.spad (spadKey e.t.o e.t.core off) 64)
  good  : x.ok (Memory.readN e.s.spad (spadKey e.t.o e.t.core off) 64) red = true
  group : findGroup e e.s x.gva = .ok g

/-! ## Kinds of instruction -/

/-- Operations that touch only registers of their thread: the X-ops of R312 to R322, NOP, and every V-op. -/
def registerOnly : Instr → Bool
  | .add _ | .sub _ | .mul _ | .mulh _ | .div _ | .rem _ | .and _ | .or _ | .xor _ | .andn _ | .orn _ | .shl _ | .shr _
  | .sar _ | .rot _ | .min _ | .max _ | .clz _ | .ctz _ | .popc _ | .brev _ | .extr _ _ | .insr _ | .li _ _ | .lea _ _
  | .cmp _ _ | .csel _ _ _ _ | .brcc _ _ _ | .brz _ _ | .brnz _ _ | .jmp _ | .call _ _ | .jr _ | .loop _ _
  | .bstrm _ _ | .nop | .nopLong _ _ | .mfs _ _ | .rdcyc _ => true
  | i => i.isV

/-- Scalar operations that always complete and raise no flag. -/
def neverFlags : Instr → Bool
  | .add _ | .sub _ | .mul _ | .mulh _ | .and _ | .or _ | .xor _ | .andn _ | .orn _ | .shl _ | .shr _ | .sar _ | .rot _
  | .min _ | .max _ | .cmp _ _ | .clz _ | .ctz _ | .popc _ | .brev _ | .extr _ _ | .insr _ | .li _ _ | .lea _ _
  | .csel _ _ _ _ | .nop | .nopLong _ _ => true
  | _ => false

/-- Thread t of owner w issues bundle c, whose first operation is i, and no check at the core fails but, it may be, one of
i's own or of the flags: as `Issues` has it, with nothing said of the flags and of the buffers of replicated writes. -/
structure Tries (s : State) (c : Cur) (t : Thread) (w : Owner) (i : Instr) : Prop where
  cur   : s.cur = some c
  thr   : thr? s c.o c.tid = some t
  own   : owner? s c.o = some w
  enc   : bundleCheck s t i c.v = none
  pops  : ∀ p ∈ popsIn t c i, ∃ v, popRes t p.1 = .elem v
  due   : ∀ p ∈ popsIn t c i, streamDue (bare s) t p.1 = true
  push  : ∀ k ∈ pushesIn t c i, ∃ l, pushChk (bare s) w t k = .ok l
  vtrap : (halfOf (envIn (bare s) c t w i)).trap = none

/-- The bundle takes FPX with these flags in INFO; `vh` says that its second half alone raised an enabled one (R123, R148). -/
def takesFpx (s : State) (c : Cur) (t : Thread) (w : Owner) (i : Instr) (fl : BitVec 8) (vh : Bool) : State :=
  takeTrap (tried s c t w i) c.o c.tid (mkTrap 0x11 fl.toNat 0) c.pc (some (lenBits c.len)) false vh

/-! ## Runs -/

/-- A run that stops nowhere within n steps. -/
def runsOn (n : Nat) (s : State) : Bool :=
  match Sys2Proof.core.run n s with
  | .next _ => true
  | .fault _ | .refused _ => false

/-! ## Ports -/

/-- The frames `again` of a port are transmitted again, each one's count of retransmissions rising; or, one of them having
been transmitted again 16 times without an ack, the port is down (R27). -/
def Resent (s : State) (p : Nat) (again : List Frame) (u : State) : Prop :=
  let q := portAt s p
  ((∀ f ∈ again, getD 0 q.tries f.seq.toNat < 16) → ∃ m,
    portAt u p = { q with outBox := q.outBox ++ again, tries := m, since := s.fab } ∧
    ∀ n, getD 0 m n = getD 0 q.tries n + (again.filter (fun f => f.seq.toNat == n)).length)
  ∧ ((∃ f ∈ again, 16 ≤ getD 0 q.tries f.seq.toNat) → portAt u p = { q with down := true, sent := [], tries := [], owed := [], failed := [] })

end Sys2Proof.Machine
end

