-- ==== Sys2Proof/Certificates/Slice0/Obligations.lean ====
section
/-!
DEFINITION. Statements about the KX7, each one named rule or rules of the spec in terms of the machine.
-/

open Sys2Proof Sys2Proof.Machine

/-! ## Encoding -/

/-- Words of the spec's entries decode to the operations they stand for: R313, R315, R319, R324, R335, R347, R349,
R389, R300. -/
def Obligations.DecodeWords : Prop :=
  decodeTableWord 64 0x0000000014209010 = some (.sub ⟨.i64, 9, 4, .reg 5⟩)
  ∧ decodeTableWord 64 0x0001080000204000 = some (.add ⟨.i64, 4, 4, .i16 1⟩)
  ∧ decodeTableWord 64 0x0000010014206040 = some (.div ⟨.i32, 6, 4, .reg 5⟩)
  ∧ decodeTableWord 64 0x00010081FC00C300 = some (.li 12 (.i30 0x607F))
  ∧ decodeTableWord 64 0x0000020000205600 = some (.brcc .lt 4 5)
  ∧ decodeTableWord 64 0x000000000058CA10 = some (.pstF ⟨.i64, 12, ⟨11, 0, 0, .o16 0⟩⟩)
  ∧ decodeTableWord 64 0x0000000000282C00 = some (.msend 2 5)
  ∧ decodeTableWord 64 0x1000010000105804 = some (.vcvt { ty := .bf16, src := .f32, rnd := .cur, nsat := false, d := 5, a := 2, k := 0, g := 1 })
  ∧ decodeTableWord 64 0x0003000000280E20 = some (.trap 3 5)
  ∧ decodeTableWord 64 0x000001000028620A = none
  ∧ decodeTableWord 64 0x0000000000005EA0 = some (.rdcyc 5)
  ∧ decodeTableWord 96 0x0000080000000E61 = some (.nopLong 0 0)

/-- R292 to R300: decoding the bytes of any well-formed thread instruction gives it back, whatever bytes follow, and
so does decoding a pair bundle. -/
def Obligations.DecodeEncode : Prop :=
  (∀ (i : Instr) (bs rest : List Byte), i.wf = true → encode i = some bs →
    decode (bs ++ rest) = .bundle i none bs.length)
  ∧ ∀ (x v : Instr) (bs rest : List Byte), x.wf = true → v.wf = true → x.isV = false → v.isV = true →
    encodePair x v = some bs → decode (bs ++ rest) = .bundle x (some v) 16

/-- R293 and R302: what decodes is well-formed and encodes back to the very bytes: no bit of a bundle is ignored, and
every other pattern is IENC with an INFO of R302. -/
def Obligations.DecodeExact : Prop :=
  ∀ bs : List Byte, match decode bs with
    | .ienc n => n ≤ 1 ∨ n = 3 ∨ n = 4
    | .bundle i none len => i.wf = true ∧ len ≤ bs.length ∧ encode i = some (bs.take len)
    | .bundle x (some v) len =>
      x.wf = true ∧ v.wf = true ∧ v.isV = true ∧ len = 16 ∧ 16 ≤ bs.length ∧ encodePair x v = some (bs.take 16)

/-! ## Steps -/

/-- A core's cycle (R106, R108, R301): where the bytes at the program counter of the chosen context decode to a bundle,
the step is exec of its first operation, with the bundle as the one issuing, and then what follows at once. -/
def Obligations.StepRunsDecoded : Prop :=
  ∀ (s : State) (o j : Nat) (rest : List Act) (w : Owner) (k : Core) (t : Thread) (l : Leaf) (pa : Nat)
    (i : Instr) (v : Option Instr) (len : Nat),
    s.agenda = .core o j :: rest → owner? s o = some w → core? s o j = some k → stopped s o = false →
    (placeOf s o j).mv = false → t.inW = none → t.pc.toNat % 4 = 0 →
    ∀ s1 : State,
      (w.plumb = false → ∃ low, chooseOpen k (threadsOn s o j) = some (t, low) ∧
        s1 = noteIssue (onCore (onCore { s with agenda := rest, tick := s.tick + 1 } o j
            (fun c => { c with cyc := c.cyc + 1 })) o j
          (fun c => { c with ptr := put c.ptr t.cls t.slot, lastLow := if low then some t.cls else c.lastLow })) o j k t) →
      (w.plumb = true →
        let k := frameLevel k
        stretched { s with agenda := rest, tick := s.tick + 1 } o j k = false ∧ t.status = .ready ∧ t.mig = none ∧
        (∀ d, t.due = some d → d ≤ k.cyc) ∧
        choosePlumb k (threadsOn (countSlot { s with agenda := rest, tick := s.tick + 1 } o j k) o j) = some t ∧
        s1 = noteIssue (onCore (countSlot { s with agenda := rest, tick := s.tick + 1 } o j k) o j
          (fun _ => { k with cyc := k.cyc + 1 })) o j k t) →
      let e0 : Env := ⟨s1, ⟨o, t.tid, j, t.pc, 8, none⟩, t, w, []⟩
      let s2 := fetchCheck s1 e0
      let e : Env := { e0 with s := s2 }
      locate s2 w t .fetch .fetch false t.pc 4 = .ok (.mem l pa) →
      ((l1Hit e l pa 4).isSome = true ∨ markAt s2 (spotAt e (.mem l pa)) = 0) →
      decode (fetchBytes e l pa) = .bundle i v len →
      step s = match exec i { fetchFill s2 e with cur := some ⟨o, t.tid, j, t.pc, len, v⟩ } with
        | .next u => .next (afterAct u)
        | .fault r => .fault r
        | .refused r => .refused r

/-- What reset leaves: zeroing runs (R45), every die has circuits of three vacant columns (R48), the rotation period is
8 ms (R49), nothing is listed in memory, no owner stands, and the memories are in canonical form (log 2). -/
def Obligations.ResetState : Prop :=
  State.reset.power = .zeroing ∧ State.reset.period = 3
  ∧ (∀ die < 8, ∀ col < 12, getD (Pos.vacant col) State.reset.table (posKey die col) = ⟨none, 0, col / 3 * 3, 3, false⟩)
  ∧ (∀ a, Memory.read State.reset.mem a = 0 ∧ Memory.read State.reset.spad a = 0 ∧ Memory.read State.reset.bsram a = 0)
  ∧ (∀ b, getD descDefault State.reset.desc b = 0x7F ∧ getD false State.reset.fe b = false ∧ getD 0 State.reset.tags b = 0)
  ∧ State.reset.owners = [] ∧ State.reset.threads = [] ∧ State.reset.memOk = true ∧ State.reset.ringOk = true

/-- Memory, scratchpads and B SRAM keep their canonical form through every step. The form is the model's own form of
plain data (log 2), no rule of the spec. -/
def Obligations.StepKeepsMemory : Prop :=
  ∀ s s' : State, s.memOk = true → step s = .next s' → s'.memOk = true

/-! ## Retiring and trapping -/

/-- R145, R143, R148: a bundle that retires with nothing beyond its registers writes every register of both halves, the
last write of a register counting; g0 and m0 keep their constants; its flags are ORed into %stat; the thread goes on at
the next address; memory, every other thread and every other register are as before. -/
def Obligations.Retirement : Prop :=
  ∀ (s : State) (o tid len : Nat) (pc : Word) (wx wv : Wr) (t : Thread), thr? s o tid = some t →
    wx.fin = .go → wx.acq = none → wx.strm = none → wv.pops = [] →
    (∀ p ∈ wx.v ++ wv.v, boundTo t p.1 = none) →
    let s' := retire s o tid pc len wx wv
    (∀ r : GReg, readG s' t r = if r = 0 then 0
      else (((wx.g ++ wv.g).reverse.find? (fun p => p.1 = r)).map (·.2)).getD (readG s t r))
    ∧ (∀ r : VReg, readV s' t r
      = (((wx.v ++ wv.v).reverse.find? (fun p => p.1 = r)).map (·.2)).getD (readV s t r))
    ∧ (∃ t', thr? s' o tid = some t' ∧
        t'.pc = wx.npc.getD (pc + BitVec.ofNat 64 len) ∧ t'.status = .ready ∧
        (∀ r : MReg, readM t' r = if r = 0 then BitVec.allOnes 64
          else (((wx.m ++ wv.m).reverse.find? (fun p => p.1 = r)).map (·.2)).getD (readM t r)) ∧
        (wx.sp = [] → wv.sp = [] →
          t'.stat = t.stat ||| (wx.flags ||| wv.flags).setWidth 64 ∧
          t'.fpc = (if wx.srs || wv.srs then t.fpc ||| 0x10000 else t.fpc) ∧
          t'.rngs0 = t.rngs0 ∧ t'.rngk = t.rngk ∧ t'.wlim = t.wlim ∧ t'.wp = t.wp ∧ t'.trapc = t.trapc))
    ∧ (∀ k, (∀ p ∈ wx.g ++ wv.g, k ≠ gKey t.o t.core (t.gbase + p.1.toNat)) → lookup s'.gfile k = lookup s.gfile k)
    ∧ (∀ k, (∀ p ∈ wx.v ++ wv.v, k ≠ vKey t.o t.core (t.vbase + p.1.toNat)) → lookup s'.vfile k = lookup s.vfile k)
    ∧ (∀ k, k ≠ thrKey o tid → lookup s'.threads k = lookup s.threads k)
    ∧ s'.mem = s.mem ∧ s'.spad = s.spad ∧ s'.bsram = s.bsram ∧ s'.owners = s.owners ∧ s'.cores = s.cores
    ∧ s'.clusters = s.clusters ∧ s'.reqs = s.reqs

/-- R120 and R123: taking a trap leaves the record of R123 in the thread's context, stops the thread, raises the owner's
trap count by one, and retires nothing: every register, memory and every other thread are as before. -/
def Obligations.TakingATrap : Prop :=
  ∀ (s : State) (o tid : Nat) (ti : TrapInfo) (pc : Word) (len : Option Nat) (async vh : Bool) (w : Owner) (t : Thread),
    owner? s o = some w → thr? s o tid = some t → ti.item = .none →
    let s' := takeTrap s o tid ti pc len async vh
    (∃ t' k, thr? s' o tid = some t' ∧ t'.status = .trapped ∧ t'.kept = some k ∧ k.len = len ∧
      k.trap.cause = ti.cause ∧ k.trap.async = async ∧ k.trap.known = ti.known ∧ k.trap.applied = ti.applied ∧
      k.trap.vhalf = vh ∧ k.trap.plumb = w.plumb ∧ k.trap.tid = t.tid ∧ k.trap.pc = pc ∧ k.trap.va = ti.va ∧
      k.trap.info = ti.info ∧ k.trap.pos = ti.pos ∧ k.trap.spec = ti.spec ∧ k.trap.gen = w.gen ∧
      k.trap.repl = Nat.min (if t.replPc = pc ∧ t.replCause = ti.cause then t.replN else 0) 0xFFFF ∧
      k.trap.seq = w.trapSeq + 1 ∧
      t'.pc = t.pc ∧ t'.masks = t.masks ∧ t'.fpc = t.fpc ∧ t'.stat = t.stat ∧ t'.streams = t.streams ∧
      t'.rngs0 = t.rngs0 ∧ t'.rngk = t.rngk ∧ t'.wlim = t.wlim ∧ t'.trapc = t.trapc ∧ t'.wp = t.wp)
    ∧ (∃ w', owner? s' o = some w' ∧ w' = { w with trapSeq := w.trapSeq + 1 })
    ∧ (∀ k, k ≠ thrKey o tid → lookup s'.threads k = lookup s.threads k)
    ∧ (∀ k, k ≠ o → lookup s'.owners k = lookup s.owners k)
    ∧ s'.gfile = s.gfile ∧ s'.vfile = s.vfile ∧ s'.mem = s.mem ∧ s'.spad = s.spad ∧ s'.bsram = s.bsram
    ∧ s'.cores = s.cores ∧ s'.clusters = s.clusters ∧ s'.reqs = s.reqs

/-- R386: TRAP #n takes a synchronous trap of cause 0x20 + n with INFO the value of gA, at its own bundle. -/
def Obligations.TrapInstruction : Prop :=
  ∀ (s : State) (c : Cur) (t : Thread) (w : Owner) (n : BitVec 4) (a : GReg), Issues s c t w (.trap n a) 0 →
    exec (.trap n a) s = .next (trapsTo s c t w (.trap n a) ⟨0x20 + n.toNat, readG s t a, 0, 0, 0, true, false, .none⟩)

/-- R302, R142, R144, R145: a bundle that breaks the bank rule, writes one register twice or names a special register
that is not there takes IENC; one that names a register outside its windows takes REGW; for every thread instruction. The
record says whether the V half alone breaks the rule (R123).
It takes the model's readings of log 27. -/
def Obligations.EncodingTraps : Prop :=
  ∀ (i : Instr) (s : State) (c : Cur) (t : Thread) (w : Owner), (encode i).isSome = true →
    s.cur = some c → thr? s c.o c.tid = some t → owner? s c.o = some w →
    let a := uses i
    let b := usesV c
    let clash := bankClash (a.gCount ++ b.gCount) || bankClash (a.vCount t ++ b.vCount t) || writeClash a b
    let vonly := b.clash t && !a.clash t && !writeClash a b
    (clash = true → exec i s
        = .next (takeTrap (bare s) c.o c.tid (mkTrap 0x01 2 0) c.pc (some (lenBits c.len)) false vonly))
    ∧ (clash = false → spCheck s t i = false → exec i s
        = .next (takeTrap (bare s) c.o c.tid (mkTrap 0x01 5 0) c.pc (some (lenBits c.len)) false false))
    ∧ (clash = false → spCheck s t i = true → ∀ n, outside t a = some n →
        exec i s = .next (takeTrap (bare s) c.o c.tid (mkTrap 0x02 n 0) c.pc (some (lenBits c.len)) false false))
    ∧ (clash = false → spCheck s t i = true → outside t a = none → ∀ n, outside t b = some n →
        exec i s = .next (takeTrap (bare s) c.o c.tid (mkTrap 0x02 n 0) c.pc (some (lenBits c.len)) false true))

/-- R148, R123 and R383: a bundle whose flags meet an enabled bit of %fpc.FEN takes FPX with the flags of both halves in
INFO; nothing of it retires, but its dither draws are not returned. Said of every V-op alone, and of DIV, REM and the scalar
operations that raise no flag, alone or with a V half, whose record then says whether the V half alone raised an enabled
flag. That the DZ of a scalar division meets FEN is the model's reading of log 15. -/
def Obligations.FlagTraps : Prop :=
  ∀ (s : State) (c : Cur) (t : Thread) (w : Owner) (i : Instr), Tries s c t w i →
    let vf := (halfOf (envIn (bare s) c t w i)).w.flags
    let on := fun fl : BitVec 8 => fl.setWidth 5 &&& t.fpc.extractLsb' 8 5 ≠ 0
    (∀ f, vSemOf i = some f → c.v = none →
      let h := f (envX (bare s) c t w i)
      h.trap = none → on h.w.flags → exec i s = .next (takesFpx s c t w i h.w.flags false))
    ∧ (∀ o, (i = .div o ∨ i = .rem o) →
        let zero := ∃ j < 64 / iw o.ty, opndAt s t o.src (iw o.ty) j = 0
        (zero → t.fpc.getLsbD 13 = false → on (2 ||| vf) → exec i s = .next (takesFpx s c t w i (2 ||| vf) (!t.fpc.getLsbD 9)))
        ∧ (¬ zero → on vf → exec i s = .next (takesFpx s c t w i vf true)))
    ∧ (neverFlags i = true → on vf → exec i s = .next (takesFpx s c t w i vf true))

/-- R126, R124: the return from an exception. A replay issues the trapped bundle again and counts; a skip goes on past
it, by its length bits, and after an asynchronous trap at it. -/
def Obligations.ReturnFromTrap : Prop :=
  ∀ (t : Thread) (k : Kept), t.kept = some k →
    (returnReplay t).status = .ready ∧ (returnReplay t).kept = none ∧ (returnReplay t).pc = k.trap.pc
    ∧ (returnReplay t).replPc = k.trap.pc ∧ (returnReplay t).replCause = k.trap.cause
    ∧ (returnReplay t).replN
      = (if t.replPc = k.trap.pc ∧ t.replCause = k.trap.cause then t.replN else 0) + 1
    ∧ (returnSkip t).status = .ready ∧ (returnSkip t).kept = none
    ∧ (k.trap.async = true → (returnSkip t).pc = k.trap.pc)
    ∧ (k.trap.async = false → k.len = some 0 → (returnSkip t).pc = k.trap.pc + 8)
    ∧ (k.trap.async = false → k.len = some 1 → (returnSkip t).pc = k.trap.pc + 12)
    ∧ (k.trap.async = false → k.len = some 2 → (returnSkip t).pc = k.trap.pc + 16)
    ∧ (returnReplay t).masks = t.masks ∧ (returnReplay t).fpc = t.fpc ∧ (returnReplay t).stat = t.stat
    ∧ (returnSkip t).masks = t.masks ∧ (returnSkip t).fpc = t.fpc ∧ (returnSkip t).stat = t.stat

/-- R145, R310, R359: the frame of the operations that touch only registers, in whatever form they end (retired, waiting
or trapped): no byte of memory, scratchpad or B SRAM changes, no other thread, no accumulator, and no register but the
destinations that the bundle's two halves name. -/
def Obligations.RegisterFrame : Prop :=
  ∀ (i : Instr) (s s' : State) (c : Cur) (t : Thread), registerOnly i = true → exec i s = .next s' →
    s.cur = some c → thr? s c.o c.tid = some t →
    let gs := (uses i).dst false ++ (uses i).also ++ (usesV c).dst false ++ (usesV c).also
    let vs := (uses i).dst true ++ (usesV c).dst true
    (∀ a, Memory.read s'.mem a = Memory.read s.mem a ∧ Memory.read s'.spad a = Memory.read s.spad a
      ∧ Memory.read s'.bsram a = Memory.read s.bsram a)
    ∧ (∀ k, (∀ n ∈ gs, k ≠ gKey t.o t.core (t.gbase + n)) → lookup s'.gfile k = lookup s.gfile k)
    ∧ (∀ k, (∀ n ∈ vs, k ≠ vKey t.o t.core (t.vbase + n)) → lookup s'.vfile k = lookup s.vfile k)
    ∧ (∀ k, k ≠ thrKey c.o c.tid → lookup s'.threads k = lookup s.threads k)
    ∧ (∀ t', thr? s' c.o c.tid = some t' →
        (∀ m : MReg, m.toNat ∉ (uses i).md ++ (usesV c).md → readM t' m = readM t m)
        ∧ (∀ b, b ≠ 16 → t'.fpc.getLsbD b = t.fpc.getLsbD b) ∧ t'.stat ||| t.stat = t'.stat
        ∧ (0x08 ∉ (uses i).sd ++ (usesV c).sd → t'.rngs0 = t.rngs0) ∧ t'.rngk = t.rngk ∧ t'.wlim = t.wlim
        ∧ t'.trapc = t.trapc ∧ t'.wp = t.wp)
    ∧ s'.clusters = s.clusters ∧ s'.launches = s.launches

/-! ## Scalar operations -/

/-- R313: what ADD, SUB, MUL, MULH, AND, OR, XOR, ANDN, ORN, MIN and MAX give, sub-element by sub-element, with no
flag. -/
def Obligations.ScalarArithmetic : Prop :=
  AluGives .add (fun _ _ x y => x + y)
  ∧ AluGives .sub (fun _ _ x y => x - y)
  ∧ AluGives .mul (fun _ _ x y => x * y)
  ∧ AluGives .mulh (fun n sgn x y => BitVec.ofInt n (asInt sgn x * asInt sgn y / 2 ^ n))
  ∧ AluGives .and (fun _ _ x y => x &&& y)
  ∧ AluGives .or (fun _ _ x y => x ||| y)
  ∧ AluGives .xor (fun _ _ x y => x ^^^ y)
  ∧ AluGives .andn (fun _ _ x y => x &&& ~~~y)
  ∧ AluGives .orn (fun _ _ x y => x ||| ~~~y)
  ∧ AluGives .min (fun _ sgn x y => if asInt sgn x ≤ asInt sgn y then x else y)
  ∧ AluGives .max (fun _ sgn x y => if asInt sgn x ≥ asInt sgn y then x else y)

/-- R314 and R245: shifts by the low 8 bits of the operand's sub-element, and R321: compares, each sub-element giving
1 or 0. -/
def Obligations.ScalarShiftsAndCompares : Prop :=
  AluGives .shl (fun _ _ x y => x <<< (y.toNat % 256))
  ∧ AluGives .shr (fun _ _ x y => x >>> (y.toNat % 256))
  ∧ AluGives .sar (fun _ _ x y => x.sshiftRight (y.toNat % 256))
  ∧ AluGives .rot (fun _ _ x y => x.rotateLeft (y.toNat % 256))
  ∧ ∀ cc : Cond, AluGives (.cmp cc) (fun n _ x y => open Classical in if holds cc x y then BitVec.ofNat n 1 else 0)

/-- R315 and R244: DIV and REM truncate toward zero; a zero divisor gives the values R244 names and sets DZ, or with
IDZE raises IDZ and nothing retires. -/
def Obligations.ScalarDivision : Prop :=
  ∀ (s : State) (c : Cur) (t : Thread) (w : Owner) (o : Alu),
    let n := iw o.ty
    let sgn := isSigned o.ty
    let x := fun j => (readG s t o.a).extractLsb' (n * j) n
    let y := fun j => opndAt s t o.src n j
    let zero := ∃ j < 64 / n, y j = 0
    ∀ fl : BitVec 8, (zero → fl = 2) → (¬ zero → fl = 0) →
      ((¬ (zero ∧ t.fpc.getLsbD 13 = true) →
        (Issues s c t w (.div o) fl →
          ∃ r : Word, exec (.div o) s = .next (doneWith s c t w (.div o) { Wr.ofG o.d r with flags := fl }) ∧
            ∀ j < 64 / n, r.extractLsb' (n * j) n =
              if y j = 0 then (if sgn ∧ (x j).toInt < 0 then 1 else BitVec.allOnes n)
              else if sgn then (x j).sdiv (y j) else (x j) / (y j))
        ∧ (Issues s c t w (.rem o) fl →
          ∃ r : Word, exec (.rem o) s = .next (doneWith s c t w (.rem o) { Wr.ofG o.d r with flags := fl }) ∧
            ∀ j < 64 / n, r.extractLsb' (n * j) n =
              if y j = 0 then x j else if sgn then (x j).srem (y j) else (x j) % (y j)))
      ∧ (zero → t.fpc.getLsbD 13 = true →
        (Issues s c t w (.div o) 0 → exec (.div o) s = .next (trapsTo s c t w (.div o) (mkTrap 0x12 0 0)))
        ∧ (Issues s c t w (.rem o) 0 → exec (.rem o) s = .next (trapsTo s c t w (.rem o) (mkTrap 0x12 0 0)))))

/-- R316 to R320, R295, R322 and R388: CLZ, CTZ, POPC and BREV of each sub-element, EXTR and INSR of a bit field, LI, LEA,
CSEL and both forms of NOP. -/
def Obligations.ScalarFieldsAndConstants : Prop :=
  ∀ (s : State) (c : Cur) (t : Thread) (w : Owner),
    (∀ o : Un,
      let n := iw o.ty
      let x := fun j => (readG s t o.a).extractLsb' (n * j) n
      (Issues s c t w (.clz o) 0 → ∃ r : Word, exec (.clz o) s = .next (doneWith s c t w (.clz o) (Wr.ofG o.d r)) ∧
        ∀ j < 64 / n, ∃ z, r.extractLsb' (n * j) n = BitVec.ofNat n z ∧ z ≤ n ∧
          (∀ b < z, (x j).getMsbD b = false) ∧ (z < n → (x j).getMsbD z = true))
      ∧ (Issues s c t w (.ctz o) 0 → ∃ r : Word, exec (.ctz o) s = .next (doneWith s c t w (.ctz o) (Wr.ofG o.d r)) ∧
        ∀ j < 64 / n, ∃ z, r.extractLsb' (n * j) n = BitVec.ofNat n z ∧ z ≤ n ∧
          (∀ b < z, (x j).getLsbD b = false) ∧ (z < n → (x j).getLsbD z = true))
      ∧ (Issues s c t w (.popc o) 0 → ∃ r : Word, exec (.popc o) s = .next (doneWith s c t w (.popc o) (Wr.ofG o.d r)) ∧
        ∀ j < 64 / n, r.extractLsb' (n * j) n
          = BitVec.ofNat n ((List.range n).filter (fun b => (x j).getLsbD b)).length)
      ∧ (Issues s c t w (.brev o) 0 → ∃ r : Word, exec (.brev o) s = .next (doneWith s c t w (.brev o) (Wr.ofG o.d r)) ∧
        ∀ j < 64 / n, ∀ b < n, (r.extractLsb' (n * j) n).getLsbD (n - 1 - b) = (x j).getLsbD b))
    ∧ (∀ (sgn : Bool) (f : BitField), f.pos.toNat + f.length ≤ 64 → Issues s c t w (.extr sgn f) 0 →
        exec (.extr sgn f) s = .next (doneWith s c t w (.extr sgn f) (Wr.ofG f.d
          (let b := (readG s t f.a).extractLsb' f.pos.toNat f.length
           if sgn then b.signExtend 64 else b.setWidth 64))))
    ∧ (∀ f : BitField, f.pos.toNat + f.length ≤ 64 → Issues s c t w (.insr f) 0 →
        ∃ r : Word, exec (.insr f) s = .next (doneWith s c t w (.insr f) (Wr.ofG f.d r)) ∧
          ∀ b < 64, r.getLsbD b = if f.pos.toNat ≤ b ∧ b < f.pos.toNat + f.length
            then (readG s t f.a).getLsbD (b - f.pos.toNat) else (readG s t f.d).getLsbD b)
    ∧ (∀ d v, Issues s c t w (.li d v) 0 → exec (.li d v) s = .next (doneWith s c t w (.li d v) (Wr.ofG d
      (match v with
        | .i30 x => x.signExtend 64
        | .i62 x => x.signExtend 64
        | .i64 x => x))))
    ∧ (∀ d ad, Issues s c t w (.lea d ad) 0 → exec (.lea d ad) s = .next (doneWith s c t w (.lea d ad) (Wr.ofG d
      (readG s t ad.base + (readG s t ad.idx <<< ad.scl.toNat) + (match ad.off with
        | .o16 x => x.signExtend 64
        | .o48 x => x.signExtend 64)))))
    ∧ (∀ d a b k, Issues s c t w (.csel d a b k) 0 → exec (.csel d a b k) s
        = .next (doneWith s c t w (.csel d a b k) (Wr.ofG d (if readG s t k ≠ 0 then readG s t a else readG s t b))))
    ∧ (Issues s c t w .nop 0 → exec .nop s = .next (doneWith s c t w .nop Wr.none))
    ∧ (∀ imm ext, Issues s c t w (.nopLong imm ext) 0 →
        exec (.nopLong imm ext) s = .next (doneWith s c t w (.nopLong imm ext) Wr.none))

/-- R323 to R328: what each control transfer tests, where it goes and what it writes. -/
def Obligations.ControlTransfer : Prop :=
  ∀ (s : State) (c : Cur) (t : Thread) (w : Owner),
    let tgt := fun (off : BitVec 37) => c.pc + 4 * off.signExtend 64
    (∀ cc a off, Issues s c t w (.brcc cc a off) 0 →
      GoesTo s c t w (.brcc cc a off) (holds cc (readG s t a) 0) (tgt off) Wr.none)
    ∧ (∀ a off, Issues s c t w (.brz a off) 0 → GoesTo s c t w (.brz a off) (readG s t a = 0) (tgt off) Wr.none)
    ∧ (∀ a off, Issues s c t w (.brnz a off) 0 → GoesTo s c t w (.brnz a off) (readG s t a ≠ 0) (tgt off) Wr.none)
    ∧ (∀ off, Issues s c t w (.jmp off) 0 → GoesTo s c t w (.jmp off) True (tgt off) Wr.none)
    ∧ (∀ a off, Issues s c t w (.call a off) 0 →
        GoesTo s c t w (.call a off) True (tgt off) (Wr.ofG a (c.pc + BitVec.ofNat 64 c.len)))
    ∧ (∀ a, Issues s c t w (.jr a) 0 → GoesTo s c t w (.jr a) True (readG s t a) Wr.none)
    ∧ (∀ a off, Issues s c t w (.loop a off) 0 →
        GoesTo s c t w (.loop a off) (readG s t a - 1 ≠ 0) (tgt off) (Wr.ofG a (readG s t a - 1)))
    ∧ (∀ n off, Issues s c t w (.bstrm n off) 0 →
        let x := streamAt t n.toNat
        let moved := ((popsOf t (usesV c)).filter (fun p => p.1 = n.toNat)).length
          + ((pushesOf t (usesV c)).filter (fun k => k = n.toNat)).length
        GoesTo s c t w (.bstrm n off) (x.pos + moved ≠ x.n0 * x.n1 * x.n2) (tgt off) Wr.none)

/-! ## Vector operations -/

/-- R361 and R362: VADD, VSUB, VMUL, VDIV, VFMA and VFMS round the exact result of each active element once. -/
def Obligations.VectorFloatArithmetic : Prop :=
  VFloatGives .vadd (fun m x y _ => addE m x y)
  ∧ VFloatGives .vsub (fun m x y _ => subE m x y)
  ∧ VFloatGives .vmul (fun _ x y _ => mulE x y)
  ∧ VFloatGives .vdiv (fun _ x y _ => divE x y)
  ∧ VFloatGives .vfma (fun m x y z => fmaE m x y z)
  ∧ VFloatGives .vfms (fun m x y z => fmaE m x.neg y z)

/-- R363 and R240: VSQRT and the special functions of each active element, rounded under the mode in force. It takes
the model's readings of log 13. -/
def Obligations.VectorSpecialFunctions : Prop :=
  VUnaryGives .vsqrt sqrtE
  ∧ VUnaryGives .vexp2 exp2E
  ∧ VUnaryGives .vlog2 log2E
  ∧ VUnaryGives .vrcp rcpE
  ∧ VUnaryGives .vrsq rsqE
  ∧ VUnaryGives .vsinp sinpE
  ∧ VUnaryGives .vcosp cospE
  ∧ VUnaryGives .vtanh tanhE

/-- R363 and R364: VABS, VNEG, VMIN, VMAX and VCPYS are exact, raise no flag, and give the canonical NaN for a NaN. -/
def Obligations.VectorExactFloat : Prop :=
  (∀ (s : State) (c : Cur) (t : Thread) (w : Owner) (o : VUn),
    let f := fmtOf o.ty
    let ftz := t.fpc.getLsbD 3
    Lanes s c t w (.vabs o) o.d o.k o.ty.width false (fun e _ =>
      let a := vecIn s c t (.vabs o) o.a
      (if fval t o.ty e a = .nan then f.nan else magUnder ftz f (elemOf o.ty.width e a).toNat, 0))
    ∧ Lanes s c t w (.vneg o) o.d o.k o.ty.width false (fun e _ =>
      let a := vecIn s c t (.vneg o) o.a
      let x := (elemOf o.ty.width e a).toNat
      (if fval t o.ty e a = .nan then f.nan
        else (if f.sign x = true then 0 else 2 ^ (f.width - 1)) + magUnder ftz f x, 0)))
  ∧ VExactGives .vmin (fun f x y _ _ => f.enc (minV x y))
  ∧ VExactGives .vmax (fun f x y _ _ => f.enc (maxV x y))
  ∧ ∀ (s : State) (c : Cur) (t : Thread) (w : Owner) (o : VBin),
      let f := fmtOf o.ty
      Lanes s c t w (.vcpys o) o.d o.k o.ty.width false (fun e _ =>
        let a := vecIn s c t (.vcpys o) o.a
        let b := vecIn s c t (.vcpys o) o.b
        (if fval t o.ty e a = .nan ∨ fval t o.ty e b = .nan then f.nan
          else (if f.sign (elemOf o.ty.width e b).toNat = true then 2 ^ (f.width - 1) else 0)
            + magUnder (t.fpc.getLsbD 3) f (elemOf o.ty.width e a).toNat, 0))

/-- R365 and R369: VCMP and VICMP write the byte lanes of each active element and keep the others. -/
def Obligations.VectorCompares : Prop :=
  ∀ (s : State) (c : Cur) (t : Thread) (w : Owner) (o : VCmp),
    let n := o.ty.width
    (Instr.wf (.vcmp o) = true → ComparesTo s c t w (.vcmp o) o.d o.k n (fun e =>
      fholds o.cc (fval t o.ty e (vecIn s c t (.vcmp o) o.a)) (fval t o.ty e (vecIn s c t (.vcmp o) o.b))))
    ∧ (Instr.wf (.vicmp o) = true → ComparesTo s c t w (.vicmp o) o.d o.k n (fun e =>
      holds o.cc (elemOf n e (vecIn s c t (.vicmp o) o.a)) (elemOf n e (vecIn s c t (.vicmp o) o.b))))

/-- R366 and R367: integer arithmetic and logic of each active element, clamped with SAT under .sat. -/
def Obligations.VectorIntegers : Prop :=
  VIntGives .viadd (fun n sgn sat x y => clampTo sat sgn n (asInt sgn x + asInt sgn y))
  ∧ VIntGives .visub (fun n sgn sat x y => clampTo sat sgn n (asInt sgn x - asInt sgn y))
  ∧ VIntGives .vimul (fun n sgn sat x y => clampTo sat sgn n (asInt sgn x * asInt sgn y))
  ∧ VIntGives .vimulh (fun n sgn _ x y => ((BitVec.ofInt n (asInt sgn x * asInt sgn y / 2 ^ n)).toNat, 0))
  ∧ VIntGives .vand (fun _ _ _ x y => ((x &&& y).toNat, 0))
  ∧ VIntGives .vor (fun _ _ _ x y => ((x ||| y).toNat, 0))
  ∧ VIntGives .vxor (fun _ _ _ x y => ((x ^^^ y).toNat, 0))
  ∧ VIntGives .vandn (fun _ _ _ x y => ((x &&& ~~~y).toNat, 0))
  ∧ VIntGives .vimin (fun _ sgn _ x y => ((if asInt sgn x ≤ asInt sgn y then x else y).toNat, 0))
  ∧ VIntGives .vimax (fun _ sgn _ x y => ((if asInt sgn x ≥ asInt sgn y then x else y).toNat, 0))
  ∧ ∀ (s : State) (c : Cur) (t : Thread) (w : Owner) (ty : VType) (sat : Bool) (d a : VReg) (k : MReg),
      Lanes s c t w (.viabs ty sat d a k) d k ty.width false (fun e _ =>
        clampTo sat ty.signed ty.width |asInt ty.signed (elemOf ty.width e (vecIn s c t (.viabs ty sat d a k) a))|)

/-- R368 and R245: vector shifts, by amounts of 8 bits. -/
def Obligations.VectorShifts : Prop :=
  VShiftGives .vshl (fun _ x k => x <<< k)
  ∧ VShiftGives .vshr (fun _ x k => x >>> k)
  ∧ VShiftGives .vsar (fun _ x k => x.sshiftRight k)
  ∧ VShiftGives .vrot (fun _ x k => x.rotateLeft k)

/-- R370 to R372: conversions by lane group, each active element rounded once. -/
def Obligations.VectorConversions : Prop :=
  ∀ (s : State) (c : Cur) (t : Thread) (w : Owner) (o : VConv), ∃ D : Nat → Nat, (∀ k, D k < 2 ^ 16) ∧
    let ftz := t.fpc.getLsbD 3
    (Instr.wf (.vcvt o) = true →
      Converts s c t w (.vcvt o) o.d o.a o.k o.src.width o.ty.width o.g.toNat (rndSrs t w o.rnd) (fun x k =>
        fround t w o.ty o.rnd (if o.src.width < o.ty.width then .arith else if o.nsat then .nsat else .sat) D k
          ((fmtOf o.src).dec ftz x).exact))
    ∧ (Instr.wf (.vftoi o) = true →
      Converts s c t w (.vftoi o) o.d o.a o.k o.src.width o.ty.width o.g.toNat (rndSrs t w o.rnd) (fun x k =>
        intRound (rndMode t w o.rnd) (D k) o.ty.signed o.ty.width ((fmtOf o.src).dec ftz x).exact))
    ∧ (Instr.wf (.vitof o) = true →
      Converts s c t w (.vitof o) o.d o.a o.k o.src.width o.ty.width o.g.toNat (rndSrs t w o.rnd) (fun x k =>
        fround t w o.ty o.rnd .arith D k (ofInt (asInt o.src.signed (BitVec.ofNat o.src.width x)))))

/-- R373 and R374: a descriptor that fails R234 or is of another format is DESC; otherwise VQNT writes the sixteen
elements of its lane group and no other bit of vD, with scale 0xFF in gS where a NaN has no code, and VDQNT gives the
sixteen values of its lane group. It takes the model's readings of logs 23 and 24. -/
def Obligations.BlockQuantisation : Prop :=
  ∀ (s : State) (c : Cur) (t : Thread) (w : Owner) (o : VBlk),
    let ds := (readG s t o.s).toNat % 65536
    let good := checkDesc ds = .ok ∧ ds / 4096 = blkCode o.ty
    let wt := o.ty.width
    let j := if o.ty = .e2m1 then (readG s t o.l).toNat % 8 else (readG s t o.l).toNat % 4
    let m := readM t o.k
    ∃ D : Nat → Nat, (∀ k, D k < 2 ^ 16) ∧
      (Instr.wf (.vqnt o) = true → good →
        let x := fun e => (elemOf 32 e (vecIn s c t (.vqnt o) o.a)).toNat
        let nan := fun e => (o.ty = .e2m1 ∨ o.ty = .i8) ∧ ds % 256 ≠ 255 ∧ F32.dec false (x e) = .nan
        let y := fun e => unscale (F32.dec (t.fpc.getLsbD 3) (x e)).exact (ds % 256)
        let mode := rndMode t w o.rnd
        let how := if o.nsat then Over.nsat else .sat
        let f := fun (e k : Nat) =>
          if ds % 256 = 255 then (0, 0)
          else if o.ty = .e4m3 then E4M3.round mode false how (D k) (y e)
          else if o.ty = .e5m2 then E5M2.round mode false how (D k) (y e)
          else if o.ty = .e2m1 then e2round mode (D k) (ds / 256 % 16) (y e)
          else i8round mode (D k) (y e)
        (Issues s c t w (.vqnt o) (raised (isActive m 32) 16 (fun e => (f e (rankIn m 32 e)).2)) →
          ∃ r g, exec (.vqnt o) s = .next (doneLone s c t w (.vqnt o) 16
                { Wr.ofV o.d r with
                  g := g, flags := raised (isActive m 32) 16 (fun e => (f e (rankIn m 32 e)).2),
                  srs := rndSrs t w o.rnd }) ∧
              (∀ e < 16, elemOf wt (16 * j + e) r = if isActive m 32 e then BitVec.ofNat wt (f e (rankIn m 32 e)).1
                else elemOf wt (16 * j + e) (readV s t o.d)) ∧
              (∀ b < 512, (b < wt * (16 * j) ∨ wt * (16 * j + 16) ≤ b) → r.getLsbD b = (readV s t o.d).getLsbD b) ∧
              ((∃ e < 16, isActive m 32 e = true ∧ nan e) → g = [(o.s, readG s t o.s ||| 0xFF)]) ∧
              ((¬ ∃ e < 16, isActive m 32 e = true ∧ nan e) → g = [])))
      ∧ (Instr.wf (.vdqnt o) = true → good →
          Lanes s c t w (.vdqnt o) o.d o.k 32 (rndSrs t w o.rnd) (fun e k =>
            fround t w .f32 o.rnd .arith D k
              (blkDec ds (t.fpc.getLsbD 3) (elemOf wt (16 * j + e) (vecIn s c t (.vdqnt o) o.a)).toNat).exact))
      ∧ (¬ good → (Issues s c t w (.vqnt o) 0 → exec (.vqnt o) s = .next (trapsTo s c t w (.vqnt o) (mkTrap 0x0E ds 0)))
          ∧ (Issues s c t w (.vdqnt o) 0 → exec (.vdqnt o) s = .next (trapsTo s c t w (.vdqnt o) (mkTrap 0x0E ds 0))))

/-- R375 and R379: VPACK, VUNPK, VPERM, VROTL, VMOV and VSEL. -/
def Obligations.VectorMoves : Prop :=
  ∀ (s : State) (c : Cur) (t : Thread) (w : Owner) (ty : VType) (d a b : VReg) (k : MReg),
    let n := ty.width
    (∀ sat, Instr.wf (.vpack ty sat d a b k) = true → Lanes s c t w (.vpack ty sat d a b k) d k n false (fun e _ =>
      let i := Instr.vpack ty sat d a b k
      let h := 256 / n
      let x := if e < h then elemOf (2 * n) e (vecIn s c t i a) else elemOf (2 * n) (e - h) (vecIn s c t i b)
      clampTo sat ty.signed n (asInt ty.signed x)))
    ∧ (∀ h, Instr.wf (.vunpk ty h d a k) = true → Lanes s c t w (.vunpk ty h d a k) d k (2 * n) false (fun e _ =>
        let x := elemOf n (256 / n * (if h then 1 else 0) + e) (vecIn s c t (.vunpk ty h d a k) a)
        ((if ty.signed then x.signExtend (2 * n) else x.setWidth (2 * n)).toNat, 0)))
    ∧ Lanes s c t w (.vperm ty d a b k) d k n false (fun e _ =>
        let q := (elemOf n e (vecIn s c t (.vperm ty d a b k) b)).toNat % 256
        (if q < 512 / n then (elemOf n q (vecIn s c t (.vperm ty d a b k) a)).toNat else 0, 0))
    ∧ (∀ src, Lanes s c t w (.vrotl ty d a src k) d k n false (fun e _ =>
        let by_ := match src with
          | .reg r => (readG s t r).toNat
          | .imm v => v.toNat
        ((elemOf n ((e + by_) % (512 / n)) (vecIn s c t (.vrotl ty d a src k) a)).toNat, 0)))
    ∧ Lanes s c t w (.vmov ty d a k) d k n false (fun e _ => ((elemOf n e (vecIn s c t (.vmov ty d a k) a)).toNat, 0))
    ∧ (Issues s c t w (.vsel ty d a b k) 0 →
        ∃ r, exec (.vsel ty d a b k) s = .next (doneLone s c t w (.vsel ty d a b k) 0 (Wr.ofV d r)) ∧
          ∀ e < 512 / n, elemOf n e r = if isActive (readM t k) n e then elemOf n e (vecIn s c t (.vsel ty d a b k) a)
            else elemOf n e (vecIn s c t (.vsel ty d a b k) b))

/-- R379 and R382: VBCAST, VEXTL and VINSL between a general register and a vector, and the mask registers' own
operations. -/
def Obligations.VectorScalarsAndMasks : Prop :=
  ∀ (s : State) (c : Cur) (t : Thread) (w : Owner),
    (∀ ty d src k, Lanes s c t w (.vbcast ty d src k) d k ty.width false (fun _ _ =>
      ((match src with
        | .reg r => (readG s t r).setWidth ty.width
        | .imm v => if ty.signed || ty.isFloat then v.signExtend ty.width else v.setWidth ty.width).toNat, 0)))
    ∧ (∀ ty d a src k, Issues s c t w (.vextl ty d a src k) 0 →
        let q := match src with
          | .reg r => (readG s t r).toNat
          | .imm v => v.toNat
        let x := elemOf ty.width q (vecIn s c t (.vextl ty d a src k) a)
        exec (.vextl ty d a src k) s = .next (doneLone s c t w (.vextl ty d a src k) 0 (Wr.ofG d
          (if q < 512 / ty.width then (if ty.signed then x.signExtend 64 else x.setWidth 64) else 0))))
    ∧ (∀ ty d a src k, Issues s c t w (.vinsl ty d a src k) 0 →
        let q := match src with
          | .reg r => (readG s t r).toNat
          | .imm v => v.toNat
        let n := ty.width
        ∃ r, exec (.vinsl ty d a src k) s = .next (doneLone s c t w (.vinsl ty d a src k) 0 (Wr.ofV d r)) ∧
          ∀ e < 512 / n, elemOf n e r = if e = q ∧ isActive (readM t k) n e = true then (readG s t a).setWidth n
            else elemOf n e (readV s t d))
    ∧ (∀ d a b, Issues s c t w (.mand d a b) 0 →
        exec (.mand d a b) s = .next (doneLone s c t w (.mand d a b) 0 (Wr.ofM d (readM t a &&& readM t b))))
    ∧ (∀ d a b, Issues s c t w (.mor d a b) 0 →
        exec (.mor d a b) s = .next (doneLone s c t w (.mor d a b) 0 (Wr.ofM d (readM t a ||| readM t b))))
    ∧ (∀ d a b, Issues s c t w (.mxor d a b) 0 →
        exec (.mxor d a b) s = .next (doneLone s c t w (.mxor d a b) 0 (Wr.ofM d (readM t a ^^^ readM t b))))
    ∧ (∀ d a, Issues s c t w (.mnot d a) 0 →
        exec (.mnot d a) s = .next (doneLone s c t w (.mnot d a) 0 (Wr.ofM d (~~~readM t a))))
    ∧ (∀ d a, Issues s c t w (.mpopc d a) 0 →
        exec (.mpopc d a) s = .next (doneLone s c t w (.mpopc d a) 0 (Wr.ofG d
          (BitVec.ofNat 64 ((List.range 64).filter (fun b => (readM t a).getLsbD b)).length))))

/-- R380, R381 and R241: the six reductions, each over the fixed pairwise tree with inactive elements absent, and VPFX,
which leaves in each active element the distance-doubling tree's value there and keeps the others. -/
def Obligations.VectorReductions : Prop :=
  (∀ (s : State) (c : Cur) (t : Thread) (w : Owner) (ty : VType) (d a : VReg) (k : MReg),
     let n := ty.width
     let ftz := t.fpc.getLsbD 3
     let f := fmtOf ty
     (∀ sat, Reduces s c t w (.vredAdd ty sat d a k) ty d a k 0 (quietOf t ty) (addNodeOf t ty sat))
     ∧ Reduces s c t w (.vredMin ty d a k) ty d a k
         (if ty.isFloat then (if f.inf then f.infMag else f.maxMag) else if ty.signed then 2 ^ (n - 1) - 1 else 2 ^ n - 1)
         (quietOf t ty) (fun x y => if ty.isFloat then (f.enc (minV (f.dec ftz x) (f.dec ftz y)), 0)
           else (if asInt ty.signed (BitVec.ofNat n x) ≤ asInt ty.signed (BitVec.ofNat n y) then x else y, 0))
     ∧ Reduces s c t w (.vredMax ty d a k) ty d a k
         (if ty.isFloat then 2 ^ (f.width - 1) + (if f.inf then f.infMag else f.maxMag)
           else if ty.signed then 2 ^ (n - 1) else 0)
         (quietOf t ty) (fun x y => if ty.isFloat then (f.enc (maxV (f.dec ftz x) (f.dec ftz y)), 0)
           else (if asInt ty.signed (BitVec.ofNat n x) ≥ asInt ty.signed (BitVec.ofNat n y) then x else y, 0))
     ∧ Reduces s c t w (.vredAnd ty d a k) ty d a k (2 ^ n - 1) id (fun x y => (x &&& y, 0))
     ∧ Reduces s c t w (.vredOr ty d a k) ty d a k 0 id (fun x y => (x ||| y, 0))
     ∧ Reduces s c t w (.vredXor ty d a k) ty d a k 0 id (fun x y => (x ^^^ y, 0)))
  ∧ ∀ (s : State) (c : Cur) (t : Thread) (w : Owner) (ty : VType) (sat : Bool) (d a : VReg) (k : MReg),
      let n := ty.width
      let m := readM t k
      let leaf := fun e => if isActive m n e then 
        some (quietOf t ty (elemOf n e (vecIn s c t (.vpfx ty sat d a k) a)).toNat) else none
      ∃ fl : BitVec 8, (ty.isFloat = false → sat = false → fl = 0) ∧
        (Issues s c t w (.vpfx ty sat d a k) fl →
          ∃ r, exec (.vpfx ty sat d a k) s
              = .next (doneLone s c t w (.vpfx ty sat d a k) 0 { Wr.ofV d r with flags := fl }) ∧
            ∀ e < 512 / n, elemOf n e r = if isActive m n e
              then BitVec.ofNat n ((prefixTree (addNodeOf t ty sat) leaf (Nat.log2 (512 / n)) e).getD 0)
              else elemOf n e (readV s t d))

/-- R376 to R378, R164 and R165: VRNDT takes sixteen draws of the thread's generator whatever the mask, VRNDH and VMIX
hash addresses and keys. -/
def Obligations.VectorRandom : Prop :=
  ∀ (s : State) (c : Cur) (t : Thread) (w : Owner),
    let next := fun x : Word => 0x9F6E2A41C3B55E8D * x + 0x1B8735930D2A4C61
    let mix := fun x seed : Word =>
      let z := x ^^^ seed
      let z := (z ^^^ (z >>> 31)) * 0xB3C15E7A4D298F61
      let z := (z ^^^ (z >>> 29)) * 0x6C8E9CF570932BD5
      z ^^^ (z >>> 32)
    (∀ d k, Issues s c t w (.vrndt d k) 0 →
      ∃ r, exec (.vrndt d k) s = .next (doneLone s c t w (.vrndt d k) 16
          { Wr.ofV d r with sp := [(0x08, next^[16] t.rngs0)] }) ∧
        ∀ e < 16, elemOf 32 e r = if isActive (readM t k) 32 e
          then ((next^[e + 1] t.rngs0).extractLsb' 32 32 ^^^ (next^[e + 1] t.rngs0).extractLsb' 0 32)
          else elemOf 32 e (readV s t d))
    ∧ (∀ ty d a k, Lanes s c t w (.vrndh ty d a k) d k ty.width false (fun e _ =>
        ((mix (readG s t a + BitVec.ofNat 64 (e * (ty.width / 8))) t.rngk).toNat, 0)))
    ∧ (∀ d a b k, Lanes s c t w (.vmix d a b k) d k 64 false (fun e _ =>
        ((mix (elemOf 64 e (vecIn s c t (.vmix d a b k) a)) (readG s t b)).toNat, 0)))


/-! ## Memory -/

/-- R334, R335, R338, R191 and R193: loads that complete within their bundle, from the core's own scratchpad or from an L1
copy: what gD or vD receives, nothing else changing. LD, VLD, LDS and LDS.clr; LDS waits where its granule is empty. A VLD
at a lesser alignment is four pieces of 16 bytes, each read from an L1 copy or asked for. -/
def Obligations.LoadsAtTheCore : Prop :=
  ∀ (s : State) (c : Cur) (t : Thread) (w : Owner) (off : Nat),
    let key := spadKey t.o t.core off
    (∀ ord o,
      let i := Instr.ld ord o
      let e := firstEnv s c t w i
      let n := bytesOfType o.ty
      Issues s c t w i 0 →
      (cleanAt e off n →
        OwnSpad e .ld .load (ea s t o.ad) n n off (.load n (isSigned o.ty) o.d) none (ordAcq ord) →
        ∃ x, Loaded (isSigned o.ty) n s.spad key x ∧ exec i s = .next (retiresTo s c t w i (oneMore e.s)
          { Wr.ofG o.d x with acq := (ordAcq ord).map (wideScope t) }))
      ∧ ∀ l pa bs, checkSpan e .ld .load (ea s t o.ad) n n = .ok (.mem l pa) none → ordAcq ord = none →
        l1Hit e l pa n = some bs →
        ∃ x : Word, (∀ k < n, x.extractLsb' (8 * k) 8 = bs.getD k 0) ∧
          (∀ b < 64, 8 * n ≤ b → x.getLsbD b = (isSigned o.ty && x.getLsbD (8 * n - 1))) ∧
          exec i s = .next (retiresTo s c t w i
            (plumbDue (l1Touch e.s e pa n) t.o t.tid (targetOf e.s w t.o t.core l pa)) (Wr.ofG o.d x)))
    ∧ (∀ ord o,
      let i := Instr.vld ord o
      let e := firstEnv s c t w i
      let va := ea s t o.ad
      Issues s c t w i 0 →
      (va.toNat % 64 = 0 → cleanAt e off 64 →
        OwnSpad e .ld .load va 64 16 off (.vload o.d (readM t o.k) none) none (ordAcq ord) →
        ∃ v, exec i s = .next (retiresTo s c t w i (oneMore e.s)
            { Wr.ofV o.d v with acq := (ordAcq ord).map (wideScope t) }) ∧
          ∀ b < 64, elemOf 8 b v = if (readM t o.k).getLsbD b = true then Memory.read s.spad (key + b)
            else elemOf 8 b (readV s t o.d))
      ∧ (∀ l pa bs, va.toNat % 64 = 0 → checkSpan e .ld .load va 64 16 = .ok (.mem l pa) none → ordAcq ord = none →
        l1Hit e l pa 64 = some bs →
        ∃ v, exec i s = .next (retiresTo s c t w i
            (plumbDue (l1Touch e.s e pa 64) t.o t.tid (targetOf e.s w t.o t.core l pa)) (Wr.ofV o.d v)) ∧
          ∀ b < 64, elemOf 8 b v = if (readM t o.k).getLsbD b = true then bs.getD b 0 else elemOf 8 b (readV s t o.d))
      ∧ ∀ loc more, va.toNat % 64 ≠ 0 → checkSpan e .ld .load va 64 16 = .ok loc more →
        let hit := fun j => pieceHit e (pieceAt loc more j) (ordAcq ord)
        (∀ bs : Nat → List Byte, (∀ j < 4, hit j = some (bs j)) →
          ∃ u v, exec i s = .next (retiresTo s c t w i u (Wr.ofV o.d v)) ∧ KeepsBytes s u ∧ u.reqs = s.reqs ∧
            ∀ b < 64, elemOf 8 b v = if (readM t o.k).getLsbD b = true then (bs (b / 16)).getD (b % 16) 0
              else elemOf 8 b (readV s t o.d))
        ∧ ((∃ j < 4, hit j = none) →
          ∃ u got, exec i s = .next (putWait (onThr u t.o t.tid (fun x => { x with got := got })) c (.reply s.nextId)
              (some (bundleOf (bare s) c t w i))) ∧ KeepsBytes s u ∧ u.nextId = s.nextId + 4 ∧
            got.length = ((List.range 4).filter (fun j => (hit j).isSome)).length ∧
            u.reqs = s.reqs ++ ((List.range 4).filter (fun j => (hit j).isNone)).map
              (pieceReq e (.vload o.d (readM t o.k) none) va loc more none (ordAcq ord))))
    ∧ (∀ sc o,
      let i := Instr.lds sc o
      let e := firstEnv s c t w i
      let n := bytesOfType o.ty
      Issues s c t w i 0 →
      OwnSpad e .fe .load (ea s t o.ad) n n off (.lds false n (isSigned o.ty) o.d) none (some sc) →
      (getD false s.spadFE (granKey t.o t.core off) = true → cleanAt e off n →
        ∃ x, Loaded (isSigned o.ty) n s.spad key x ∧ exec i s = .next (retiresTo s c t w i (oneMore e.s)
          { Wr.ofG o.d x with acq := some (wideScope t sc) }))
      ∧ (getD false s.spadFE (granKey t.o t.core off) = false →
        exec i s = .next (asksFor s c t w i e.s
          { ownReq e (.lds false n (isSigned o.ty) o.d) (ea s t o.ad) off n none (some sc) with held := true })))
    ∧ (∀ sc o,
      let i := Instr.ldsClr sc o
      let e := firstEnv s c t w i
      let n := bytesOfType o.ty
      Issues s c t w i 0 →
      OwnSpad e .fe .atomic (ea s t o.ad) n n off (.lds true n (isSigned o.ty) o.d) none (some sc) →
      (getD false s.spadFE (granKey t.o t.core off) = true → cleanAt e off n →
        ∃ x, Loaded (isSigned o.ty) n s.spad key x ∧ exec i s = .next (retiresTo s c t w i
          { oneMore e.s with spadFE := setD false s.spadFE (granKey t.o t.core off) false }
          { Wr.ofG o.d x with acq := some (wideScope t sc) }))
      ∧ (getD false s.spadFE (granKey t.o t.core off) = false →
        exec i s = .next (asksFor s c t w i e.s
          { ownReq e (.lds true n (isSigned o.ty) o.d) (ea s t o.ad) off n none (some sc) with held := true })))

/-- R334, R335, R339, R340 and R191: ST, VST, STF and FEC at the core's own scratchpad: the bytes stored, under the mask for
VST, the granule's full/empty bit, and nothing else; a release performed before stores that it orders is kept as one
(log 88). A VST to a scratchpad at a lesser alignment asks for its four pieces
of 16 bytes and waits. -/
def Obligations.StoresAtTheCore : Prop :=
  ∀ (s : State) (c : Cur) (t : Thread) (w : Owner) (off : Nat),
    let key := spadKey t.o t.core off
    (∀ ord o,
      let i := Instr.st ord o
      let e := firstEnv s c t w i
      let n := bytesOfType o.ty
      let data := listOfWord (readG s t o.d) n
      Issues s c t w i 0 → OwnSpad e .st .store (ea s t o.ad) n n off (.store data) (ordRel ord) none →
      ∃ m', Stored s.spad m' key (allOn data) ∧
        exec i s = .next (retiresTo s c t w i (noteEarly e.s { oneMore e.s with spad := m' }
          (ownReq e (.store data) (ea s t o.ad) off n (ordRel ord) none)) Wr.none))
    ∧ (∀ ord o,
      let i := Instr.vst ord o
      let e := firstEnv s c t w i
      let v := vecIn s c t i o.d
      let m := readM t o.k
      let va := ea s t o.ad
      Issues s c t w i 0 →
      (va.toNat % 64 = 0 → OwnSpad e .st .store va 64 16 off (.vstore v m none) (ordRel ord) none →
        ∃ m' pz, Stored s.spad m' key (maskBytes v m) ∧
          pz = (if off % 64 = 0 ∧ m = BitVec.allOnes 64 then setD false s.spadPz (spadBlk t.o t.core off) false else s.spadPz) ∧
          exec i s = .next (retiresTo s c t w i (noteEarly e.s { oneMore e.s with spad := m', spadPz := pz }
            (ownReq e (.vstore v m none) va off 64 (ordRel ord) none)) Wr.none))
      ∧ ∀ j, va.toNat % 64 ≠ 0 → checkSpan e .st .store va 64 16 = .ok (.spad j off) none →
          exec i s = .next (putWait (onThr
              { e.s with
                nextId := s.nextId + 4,
                reqs := s.reqs ++ (List.range 4).map (fun q => pieceReq e (.vstore (v >>> (128 * q)) (m >>> (16 * q)) none)
                  va (.spad j off) none (ordRel ord) none q) }
              t.o t.tid (fun x => { x with got := [] })) c (.reply s.nextId) (some (bundleOf (bare s) c t w i))))
    ∧ (∀ o,
      let i := Instr.stf o
      let e := firstEnv s c t w i
      let n := bytesOfType o.ty
      let data := listOfWord (readG s t o.d) n
      Issues s c t w i 0 → OwnSpad e .fe .store (ea s t o.ad) n n off (.stf data) (some .sys) none →
      ∃ m', Stored s.spad m' key (allOn data) ∧
        exec i s = .next (retiresTo s c t w i
          { oneMore e.s with spad := m', spadFE := setD false s.spadFE (granKey t.o t.core off) true } Wr.none))
    ∧ (∀ full d ad,
      let i := Instr.fec full d ad
      let e := firstEnv s c t w i
      Issues s c t w i 0 → OwnSpad e .fe .atomic (ea s t ad) 1 1 off (.fec full d) none none →
      exec i s = .next (retiresTo s c t w i
        { oneMore e.s with spadFE := setD false s.spadFE (granKey t.o t.core off) full }
        (Wr.ofG d (if getD false s.spadFE (granKey t.o t.core off) = true then 1 else 0))))

/-- R341 to R343: the atomics at the core's own scratchpad: gD receives the old value, and the bytes of the access take
the new one; CAS stores only where the old value is the expected one; AMO.fadd adds in F32, rounding to nearest even. A
release performed before stores that it orders is kept as one (log 88). -/
def Obligations.AtomicsAtTheCore : Prop :=
  AmoGives .amoAdd .add (fun _ _ x y => x + y)
  ∧ AmoGives .amoAnd .and (fun _ _ x y => x &&& y)
  ∧ AmoGives .amoOr .or (fun _ _ x y => x ||| y)
  ∧ AmoGives .amoXor .xor (fun _ _ x y => x ^^^ y)
  ∧ AmoGives .amoMin .min (fun _ sgn x y => if asInt sgn x ≤ asInt sgn y then x else y)
  ∧ AmoGives .amoMax .max (fun _ sgn x y => if asInt sgn x ≥ asInt sgn y then x else y)
  ∧ AmoGives .amoSwap .swap (fun _ _ _ y => y)
  ∧ (∀ (s : State) (c : Cur) (t : Thread) (w : Owner) (ty : IType) (ord : Ord) (d : GReg) (m : M3) (off : Nat),
      let i := Instr.cas ty ord d m
      let e := firstEnv s c t w i
      let n := bytesOfType ty
      let exp := (readG s t d).setWidth (8 * n)
      let key := spadKey t.o t.core off
      Issues s c t w i 0 → cleanAt e off n →
      let kd : ReqKind := .cas n (isSigned ty) (exp.setWidth 64) (readG s t m.c) d
      OwnSpad e .amo .atomic (ea3 s t m) n n off kd (ordRel ord) (ordAcq ord) →
      ∃ (x : Word) (m' : Memory), Loaded (isSigned ty) n s.spad key x ∧
        exec i s = .next (retiresTo s c t w i (noteEarly e.s { oneMore e.s with spad := m' }
            (ownReq e kd (ea3 s t m) off n (ordRel ord) (ordAcq ord)))
          { Wr.ofG d x with acq := (ordAcq ord).map (wideScope t) }) ∧
        (x.setWidth (8 * n) = exp → Stored s.spad m' key (allOn (listOfWord (readG s t m.c) n))) ∧
        (x.setWidth (8 * n) ≠ exp → m' = s.spad))
  ∧ ∀ (s : State) (c : Cur) (t : Thread) (w : Owner) (ord : Ord) (d : GReg) (m : M3) (off : Nat),
      let i := Instr.amoFadd ord d m
      let e := firstEnv s c t w i
      let key := spadKey t.o t.core off
      Issues s c t w i 0 → cleanAt e off 4 →
      let kd : ReqKind := .fadd ((readG s t m.c).setWidth 32) d
      OwnSpad e .amo .atomic (ea3 s t m) 4 4 off kd (ordRel ord) (ordAcq ord) →
      (w.plumb = false → ∃ (x : Word) (m' : Memory), Loaded false 4 s.spad key x ∧
        exec i s = .next (retiresTo s c t w i (noteEarly e.s { oneMore e.s with spad := m' }
            (ownReq e kd (ea3 s t m) off 4 (ordRel ord) (ordAcq ord)))
          { Wr.ofG d x with acq := (ordAcq ord).map (wideScope t) }) ∧
        Stored s.spad m' key (allOn (listOfWord (BitVec.ofNat 64 (F32.round 0 false .arith 0
          (addE 0 (F32.dec false x.toNat) (F32.dec false ((readG s t m.c).toNat % 2 ^ 32)))).1) 4)))
      ∧ (w.plumb = true → exec i s = .next (trapsTo s c t w i (mkTrap 0x10 0 0)))

/-- R330, R332, R43 and R122: what an access that fails a check meets, for every operation that makes one access at its
address, in the order of R120: ALIGN, then the address range, the scratchpad's and the page's rules, then the
watchpoints; one that crosses a page meets the lower cause of the two pages, and one beyond the virtual range has no second
page. It takes the model's readings of logs 26 and 34. -/
def Obligations.AccessTraps : Prop :=
  ∀ (i : Instr) (s : State) (c : Cur) (t : Thread) (w : Owner) (a : Act332) (k : AccKind) (va : Word) (n al : Nat),
    let e := firstEnv s c t w i
    let here := va.toNat % 65536 + n ≤ 65536
    accessOf e i = some (a, k, va, n, al) → Issues s c t w i 0 →
    let prot := fun reason : Nat => trapsTo s c t w i (mkTrap 0x05 (k.code * 2 ^ 13 + reason * 2 ^ 16) va)
    (va.toNat % al ≠ 0 → exec i s = .next (trapsTo s c t w i (mkTrap 0x03 (n % 256) va)))
    ∧ (va.toNat % al = 0 → va.extractLsb' 57 7 ≠ 0 → exec i s = .next (prot 2))
    ∧ (va.toNat % al = 0 → va.extractLsb' 57 7 = 0 → isSpadVa va.toNat = true →
        (spadVa w (tidCore t.tid) va.toNat = none → exec i s = .next (prot 2))
        ∧ (∀ j off, spadVa w (tidCore t.tid) va.toNat = some (j, off) → allowed a .spad = false → exec i s = .next (prot 6))
        ∧ (∀ off k', spadVa w (tidCore t.tid) va.toNat = some (t.core, off) → allowed a .spad = true →
            core? s t.o t.core = some k' → (spadSize k' < off + n ∨ inShadow k' off n = true) → exec i s = .next (prot 2)))
    ∧ (va.toNat % al = 0 → va.extractLsb' 57 7 = 0 → isSpadVa va.toNat = false → ¬ here →
        let va2 := va + BitVec.ofNat 64 (65536 - va.toNat % 65536)
        let one := check e.s w t a k va n al
        let two := locate e.s w t a k k.writes va2 (n - (65536 - va.toNat % 65536))
        (∀ x y, one = .bad x → two = .bad y → exec i s = .next (trapsTo s c t w i (if y.cause < x.cause then y else x)))
        ∧ (∀ x l, one = .bad x → two = .ok l → exec i s = .next (trapsTo s c t w i x))
        ∧ ∀ l y, one = .ok l → two = .bad y → exec i s = .next (trapsTo s c t w i y))
    ∧ (va.toNat % al = 0 → va.extractLsb' 57 7 = 0 → isSpadVa va.toNat = false → here →
        (∀ level entry, lookupPage s t (va.toNat / 65536) = some (.xlat level entry) →
          exec i s = .next (trapsTo s c t w i (mkTrap 0x04 (level + entry * 4 + k.code * 2 ^ 13) va)))
        ∧ (∀ reason, lookupPage s t (va.toNat / 65536) = some (.prot reason) → exec i s = .next (prot reason))
        ∧ ∀ l, lookupPage s t (va.toNat / 65536) = some (.leaf l) →
          let pa := l.pa + va.toNat % 65536
          (l.cls = 3 → exec i s = .next (prot 4))
          ∧ (l.cls ≠ 3 → k.writes = true → l.w = false → exec i s = .next (prot 0))
          ∧ (l.cls ≠ 3 → (k.writes = true → l.w = true) → allowed a (siteOf w (.mem l pa)) = false →
              exec i s = .next (prot 6))
          ∧ (l.cls ≠ 3 → (k.writes = true → l.w = true) → allowed a (siteOf w (.mem l pa)) = true → a = .fe → l.fe = false →
              exec i s = .next (prot 2))
          ∧ (l.cls ≠ 3 → (k.writes = true → l.w = true) → allowed a (siteOf w (.mem l pa)) = true → (a = .fe → l.fe = true) →
              ∀ x, watchHit t va.toNat n k.watchL k.watchS = some x →
              (i matches .amoFadd _ _ _) = false → exec i s = .next (trapsTo s c t w i (mkTrap 0x14 x va))))

/-- R168, R169, R193, R197, R334 to R337, R346: what leaves the core and lets the bundle go on. ST, VST, VST.desc and
STF to memory take their place among the requests and bring the core's L1 copy up to date; PRF asks for a fill or does
nothing; FLUSHL1 empties the L1, and fills on their way install nothing; FENCE.rel is noted for the thread's later stores,
FENCE.acq acquires, FENCE.full waits for the release conditions and acquires. It takes the model's readings of log 6. -/
def Obligations.PostedToMemory : Prop :=
  ∀ (s : State) (c : Cur) (t : Thread) (w : Owner),
    let posts := fun (i : Instr) (a : Act332) (va : Word) (n al : Nat) (kind : ReqKind) (rel : Option Scope)
        (bs : List (Byte × Bool)) (more : Leaf → Nat → Prop) =>
      let e := firstEnv s c t w i
      Issues s c t w i 0 → ∀ l pa, checkSpan e a .store va n al = .ok (.mem l pa) none → more l pa →
        let r := reqFor e kind va (.mem l pa) n rel none
        exec i s = .next (retiresTo s c t w i
          (postDue (fenced (enterStore (storeIssue e.s t.o t.core pa bs) r) r) t.o t.tid r.tgt) Wr.none)
    let waits := fun (i : Instr) (a : Act332) (va : Word) (n al : Nat) =>
      let e := firstEnv s c t w i
      Issues s c t w i 0 → ∀ loc more, checkSpan e a .store va n al = .ok loc more → applyFull e loc = true →
        exec i s = .next (putWait e.s c .apply none)
    (∀ ord o,
      let i := Instr.st ord o
      let n := bytesOfType o.ty
      waits i .st (ea s t o.ad) n n ∧
      posts i .st (ea s t o.ad) n n (.store (listOfWord (readG s t o.d) n)) (ordRel ord) (allOn (listOfWord (readG s t o.d) n))
        (fun l pa => applyFull (firstEnv s c t w i) (.mem l pa) = false))
    ∧ (∀ ord o,
      let i := Instr.vst ord o
      let e := firstEnv s c t w i
      let v := vecIn s c t i o.d
      let m := readM t o.k
      let va := ea s t o.ad
      waits i .st va 64 16
      ∧ (va.toNat % 64 = 0 → posts i .st va 64 16 (.vstore v m none) (ordRel ord) (maskBytes v m)
          (fun l pa => applyFull e (.mem l pa) = false))
      ∧ (Issues s c t w i 0 → ∀ l pa more, va.toNat % 64 ≠ 0 → checkSpan e .st .store va 64 16 = .ok (.mem l pa) more →
          applyFull e (.mem l pa) = false →
          ∃ u, exec i s = .next (retiresTo s c t w i u Wr.none) ∧ KeepsBytes s u ∧ u.nextId = s.nextId + 4 ∧
            ∀ j < 4,
              let r := pieceReq e (.vstore (v >>> (128 * j)) (m >>> (16 * j)) none) va (.mem l pa) more (ordRel ord) none j
              ∃ q ∈ u.reqs, q.id = s.nextId + j ∧ q.kind = r.kind ∧ q.pa = r.pa ∧ q.n = 16 ∧ q.tgt = r.tgt ∧
                q.part = some (s.nextId, j) ∧ q.rel = (ordRel ord).map (wideScope t)))
    ∧ (∀ ord d k m,
      let i := Instr.vstDesc ord d k m
      let v := vecIn s c t i d
      waits i .vstDesc (ea3 s t m) 64 64 ∧
      posts i .vstDesc (ea3 s t m) 64 64 (.vstore v (readM t k) (some ((readG s t m.c).setWidth 16))) (ordRel ord)
        (maskBytes v (readM t k)) (fun l pa => applyFull (firstEnv s c t w i) (.mem l pa) = false))
    ∧ (∀ o, posts (.stf o) .fe (ea s t o.ad) (bytesOfType o.ty) (bytesOfType o.ty)
        (.stf (listOfWord (readG s t o.d) (bytesOfType o.ty))) (some .sys)
        (allOn (listOfWord (readG s t o.d) (bytesOfType o.ty))) (fun _ _ => True))
    ∧ (∀ ad,
      let i := Instr.prf ad
      let e := firstEnv s c t w i
      let va := ea s t ad
      Issues s c t w i 0 →
        (va.extractLsb' 57 7 ≠ 0 ∨ isSpadVa va.toNat = true → exec i s = .next (doneWith s c t w i Wr.none))
        ∧ (va.extractLsb' 57 7 = 0 → isSpadVa va.toNat = false → ∀ l, lookupPage s t (va.toNat / 65536) = some (.leaf l) →
            let pa := l.pa + va.toNat % 65536
            exec i s = .next (if l.cls = 3 ∨ l.cls = 4 ∨ isEHost w pa = true then doneWith s c t w i Wr.none
              else retiresTo s c t w i (addReq e.s (reqFor e .prf va (.mem l pa) 1 none none)) Wr.none))
        ∧ (va.extractLsb' 57 7 = 0 → isSpadVa va.toNat = false → ∀ out, lookupPage s t (va.toNat / 65536) = some out →
            (∀ l, out ≠ .leaf l) → exec i s = .next (doneWith s c t w i Wr.none)))
    ∧ (Issues s c t w .flushl1 0 → exec .flushl1 s = .next (retiresTo s c t w .flushl1
        (dropL1 (firstEnv s c t w .flushl1).s t.o t.core) Wr.none))
    ∧ (∀ k sc,
      let i := Instr.fence k sc
      let e := firstEnv s c t w i
      Issues s c t w i 0 →
        (k = .acq → exec i s = .next (doneWith s c t w i { Wr.none with acq := some sc }))
        ∧ (k = .full → releaseNow e.s t sc = true →
            exec i s = .next (doneWith s c t w i { Wr.none with acq := some sc }))
        ∧ (k = .rel → exec i s = .next (retiresTo s c t w i
            { onThr e.s t.o t.tid (fun x => noteFence x (wideScope t sc) s.nextId) with nextId := s.nextId + 1 } Wr.none))
        ∧ (k = .full → releaseNow e.s t sc = false → exec i s = .next (putWait e.s c .release none)))

/-! ## Requests to other tiles -/

/-- R336, R344, R345, R180 and R181: VLD.desc brings the block and its descriptor, LDV the line's version token, and
CSTOR stores all of its lines or none: 0 where every token is still the line's, 1 where one is not, 2 where the lines
have different homes. -/
def Obligations.DescriptorsAndTokens : Prop :=
  ∀ (s : State) (c : Cur) (t : Thread) (w : Owner),
    (∀ ord d k m,
      let i := Instr.vldDesc ord d k m
      let e := firstEnv s c t w i
      let va := ea3 s t m
      Issues s c t w i 0 → ∀ l pa, check e.s w t .vldDesc .load va 64 64 = .ok (.mem l pa) →
      let r := reqFor e (.vload d (readM t k) (some m.c)) va (.mem l pa) 64 none (ordAcq ord)
      Travels s c t w i r →
      markIn (fillCheck (asked s c t w i r) w r.tgt l va.toNat pa) (.mem pa) 64 = 0 →
      Trip s c t w i r (fun u2 u3 wx => KeepsBytes s u2 ∧ KeepsBytes u2 u3 ∧
        ∃ v, wx = { Wr.ofV d v with
            g := [(m.c, BitVec.ofNat 64 (getD 0x7F s.desc (pa / 64)))], acq := (ordAcq ord).map (wideScope t) } ∧
          ∀ b < 64, elemOf 8 b v = if (readM t k).getLsbD b = true then Memory.read s.mem (pa + b)
            else elemOf 8 b (readV s t d)))
    ∧ (∀ d ad,
      let i := Instr.ldv d ad
      let e := firstEnv s c t w i
      let va := ea s t ad
      Issues s c t w i 0 → ∀ l pa, check e.s w t .ldv .load va 1 1 = .ok (.mem l pa) →
      let r := reqFor e (.ldv d) va (.mem l pa) 1 none none
      Travels s c t w i r → (core? s t.o (homeCore l (pa / 256))).isSome = true →
      Trip s c t w i r (fun u2 u3 wx => KeepsBytes s u2 ∧ KeepsBytes u2 u3 ∧
        ∃ k x, core? u2 t.o (homeCore l (pa / 256)) = some k ∧ tokenOf k (pa / 256) = some x ∧
          wx = Wr.ofG d (BitVec.ofNat 64 x)))
    ∧ (∀ ord d ad,
      let i := Instr.cstor ord d ad
      let e := firstEnv s c t w i
      let va := ea s t ad
      let off := va.toNat % 2 ^ 20
      let key := spadKey t.o (tidCore t.tid) off
      Issues s c t w i 0 → ∀ (n : Nat) (lva : Nat → Word) (l : Nat → Leaf) (pa : Nat → Nat),
      1 ≤ n → n ≤ 4 → va.toNat % 64 = 0 → homeArea e .load va (64 + 256 * n) = (some off, none) →
      watchHit t va.toNat (64 + 256 * n) true false = none →
      (∀ j < 4, lva j = BitVec.ofNat 64 (Memory.nat s.spad (key + 8 * j) 8)) →
      (∀ j < n, lva j ≠ 0 ∧ check e.s w t .ldv .store (lva j) 256 256 = .ok (.mem (l j) (pa j))
        ∧ pa j % 256 = 0 ∧ ∀ k < j, lva k ≠ lva j ∧ pa k ≠ pa j) →
      (∀ j, n ≤ j → j < 4 → lva j = 0) →
      pendingOn e (homeTarget e) [(off, 1088)] = false →
      markIn e.s (.spad t.o (tidCore t.tid) off) 64 = 0 →
      markIn e.s (.spad t.o (tidCore t.tid) (off + 64)) (256 * n) = 0 →
      let home := fun j => homeCore (l j) (pa j / 256)
      let tok := fun j => Memory.nat s.spad (key + 32 + 8 * j) 8
      let dat := fun j => Memory.readN s.spad (key + 64 + 256 * j) 256
      let r := reqFor e (.cstor ((List.range n).map (fun j => (home j, pa j, 0))) ((List.range n).map tok)
        ((List.range n).map dat) d) (lva 0) (.mem (l 0) (pa 0)) 256 (ordRel ord) (ordAcq ord)
      Travels s c t w i r → ∀ k, core? s t.o (home 0) = some k →
      let same := ∀ j < n, home j = home 0
      let fresh := ∀ j < n, tokenOf k (pa j / 256) = some (tok j)
      Trip s c t w i r (fun u2 u3 wx =>
        wx = { Wr.ofG d (if ¬ same then 2 else if fresh then 0 else 1) with acq := (ordAcq ord).map (wideScope t) } ∧
        u3.mem = u2.mem ∧ u2.spad = s.spad ∧ u2.desc = s.desc ∧ u2.fe = s.fe ∧
        (¬ (same ∧ fresh) → u2.mem = s.mem) ∧
        (same → fresh → ∀ a, Memory.read u2.mem a =
          match (List.range n).find? (fun j => pa j ≤ a && a < pa j + 256) with
          | some j => (dat j).getD (a - pa j) 0
          | none => Memory.read s.mem a)))

/-- R352, R353, R206 and R207: BARA and BARMAX arrive, receive the generation and close it with the last arrival; BARW
completes where the generation has changed, as an acquire, and otherwise waits; one that has just asked is none of those that
a completion has reached. -/
def Obligations.Barriers : Prop :=
  ∀ (s : State) (c : Cur) (t : Thread) (w : Owner),
    (∀ d ad, Arrives s c t w (.bara d ad) d (ea s t ad) none)
    ∧ (∀ d m, Arrives s c t w (.barmax d m) d (ea3 s t m) (some (readG s t m.c)))
    ∧ (∀ d ad,
      let i := Instr.barw d ad
      let e := firstEnv s c t w i
      let va := ea s t ad
      let want := (readG s t d).toNat % 65536
      Issues s c t w i 0 → ∀ l pa, check e.s w t .obj .load va 64 64 = .ok (.mem l pa) →
      let r := reqFor e (.barw (BitVec.ofNat 16 want)) va (.mem l pa) 64 none none
      Travels s c t w i r → markIn s (.mem pa) 64 = 0 →
      let told := (barRec s t.o pa).toTell.contains t.core
      ((readBar s pa).gen ≠ want → told = false →
        Trip s c t w i r (fun u2 u3 wx => KeepsBytes s u2 ∧ KeepsBytes u2 u3 ∧ wx = { Wr.none with acq := some .pkg }))
      ∧ (((readBar s pa).gen = want ∧ r.id ∉ (barRec s t.o pa).woken) ∨ told = true →
        ∃ u2, exec i s = .next (asked s c t w i r) ∧ exec (.targetRequest r.id) (asked s c t w i r) = .next u2 ∧
          KeepsBytes s u2 ∧ u2.replies = s.replies ∧ ∃ q ∈ u2.reqs, q.id = r.id ∧ q.held = true))

/-- R354 and R355: QPUT appends an element to a queue with room and otherwise waits at the queue; QGET takes the oldest of one
with elements into the home core's scratchpad as an acquire; with none it takes one of the stage's shrink tokens, or waits;
a retiring thread's QGET answers 1 at once (R110). -/
def Obligations.StageQueues : Prop :=
  ∀ (s : State) (c : Cur) (t : Thread) (w : Owner) (d a : GReg) (q : BitVec 5) (x : QueueEnt) (l : Leaf) (pa : Nat),
    let va := readG s t a
    let off := va.toNat % 2 ^ 20
    let head := Memory.nat s.mem pa 8
    let tail := Memory.nat s.mem (pa + 8) 8
    let waits := fun (i : Instr) (r : Req) =>
      ∃ u2, exec i s = .next (asked s c t w i r) ∧ exec (.targetRequest r.id) (asked s c t w i r) = .next u2 ∧
        KeepsBytes s u2 ∧ u2.replies = s.replies ∧ ∃ z ∈ u2.reqs, z.id = r.id ∧ z.held = true
    let slot := fun n : Nat => pa + 256 + n % x.depth * x.esize
    queueOf s t.o t.launch q.toNat = some x → 0 < x.depth → va.toNat % 8 = 0 → markIn s (.mem pa) 256 = 0 →
    (let i := Instr.qput d a q
     let e := firstEnv s c t w i
     Issues s c t w i 0 → homeArea e .load va x.esize = (some off, none) → watchHit t va.toNat x.esize true false = none →
     queueChk e x = .ok l pa → pendingOn e (homeTarget e) [(off, x.esize)] = false → markIn e.s (.spad t.o (tidCore t.tid) off) x.esize = 0 →
     let elem := Memory.readN s.spad (spadKey t.o (tidCore t.tid) off) x.esize
     let r := reqFor e (.qput t.launch q.toNat elem d) x.qva (.mem l pa) 16 (some .pkg) none
     Travels s c t w i r →
     (head + x.depth ≤ tail → waits i r) ∧ (tail < head + x.depth →
     Trip s c t w i r (fun u2 u3 wx => wx = Wr.ofG d 0 ∧ u3.mem = u2.mem ∧ u2.spad = s.spad ∧
       (∀ b < x.esize, Memory.read u2.mem (slot tail + b) = elem.getD b 0) ∧
       Memory.nat u2.mem (pa + 8) 8 = (tail + 1) % 2 ^ 64 ∧
       ∀ b, ¬ (slot tail ≤ b ∧ b < slot tail + x.esize) → ¬ (pa + 8 ≤ b ∧ b < pa + 16) →
         Memory.read u2.mem b = Memory.read s.mem b)))
    ∧ (let i := Instr.qget d a q
       let e := firstEnv s c t w i
       Issues s c t w i 0 → homeArea e .load va x.esize = (some off, none) → watchHit t va.toNat x.esize false true = none →
       queueChk e x = .ok l pa →
       (t.retiring = true → exec i s = .next (doneWith s c t w i (Wr.ofG d 1)))
       ∧ (t.retiring = false →
          let r := reqFor e (.qget t.launch q.toNat t.stage off d) x.qva (.mem l pa) 16 none none
          Travels s c t w i r →
          (tail ≤ head → tokenFor s t.o t.launch q.toNat t.stage = false → waits i r)
          ∧ (tail ≤ head → tokenFor s t.o t.launch q.toNat t.stage = true →
            Trip s c t w i r (fun u2 u3 wx => wx = { Wr.ofG d 1 with acq := some .pkg } ∧ u3.mem = u2.mem ∧ u2.mem = s.mem ∧
              u3.spad = s.spad ∧ ∀ y, thr? u2 t.o t.tid = some y → y.retiring = true))
          ∧ (head < tail → markIn s (.mem (slot head)) x.esize = 0 →
          Trip s c t w i r (fun u2 u3 wx => wx = { Wr.ofG d 0 with acq := some .pkg } ∧ u3.mem = u2.mem ∧
            Stored s.spad u3.spad (spadKey t.o (tidCore t.tid) off) (allOn (Memory.readN s.mem (slot head) x.esize)) ∧
            Memory.nat u2.mem pa 8 = (head + 1) % 2 ^ 64 ∧
            ∀ b, ¬ (pa ≤ b ∧ b < pa + 8) → Memory.read u2.mem b = Memory.read s.mem b))))

/-- R174, R192, R194, R334, R341 and R333: a request at its target, for loads, stores and AMOs of one page outside the
replicated class, and its reply at the core; a request whose turn has not come stays, a reply that carries a cause
traps the waiting bundle, and of the four pieces of a wide access the last to land ends its
bundle's wait (R191). It takes the model's readings of logs 7 and 46. -/
def Obligations.RequestsAndReplies : Prop :=
  (∀ (s : State) (q : Req) (pa : Nat), reqAt s q.id = some q → q.held = false → q.combined = none →
    targetShut s q.tgt = false → q.part = none → spotOf q = .mem pa → q.tgt.isScratch = false →
    (∀ o die j b, q.tgt ≠ .replica o die j b) → (∀ l, q.leaf = some l → l.cls ≠ 2) →
    (mayServe s q = false → exec (.targetRequest q.id) s = .next s)
    ∧ (mayServe s q = true →
      (∀ data, q.kind = .store data → data.length = q.n → q.n ≤ 8 →
        ∃ u, exec (.targetRequest q.id) s = .next u ∧ Stored s.mem u.mem pa (allOn data) ∧ u.spad = s.spad ∧
          u.replies = s.replies ∧ u.reqs = s.reqs.filter (·.id ≠ q.id))
      ∧ (∀ n sgn d, q.kind = .load n sgn d → q.n = n → n ≤ 8 → 0 < n → markIn s (.mem pa) n = 0 →
        ∃ u p x, exec (.targetRequest q.id) s = .next u ∧ u.mem = s.mem ∧ u.spad = s.spad ∧
          u.reqs = s.reqs.filter (·.id ≠ q.id) ∧ u.replies = s.replies ++ [p] ∧ p.id = q.id ∧ p.trap = none ∧
          Loaded sgn n s.mem pa x ∧ p.g = [(d, x)] ∧ p.v = [] ∧ p.acq = q.acq)
      ∧ (∀ op n sgn y d, q.kind = .amo op n sgn y d → q.n = n → n ≤ 8 → 0 < n → markIn s (.mem pa) n = 0 →
        ∃ u p x, exec (.targetRequest q.id) s = .next u ∧
          Loaded sgn n s.mem pa x ∧ Stored s.mem u.mem pa (allOn (listOfWord (amoOp op n sgn x y) n)) ∧
          u.spad = s.spad ∧ u.reqs = s.reqs.filter (·.id ≠ q.id) ∧ u.replies = s.replies ++ [p] ∧ p.id = q.id ∧
          p.trap = none ∧ p.g = [(d, x)])))
  ∧ ∀ (s : State) (p : Reply) (t : Thread) (b : Bundle), replyAt s p.id = some p → inOrder s p = true →
      isRecord s p.id = false → homeMoves s p = false → thr? s p.o p.tid = some t → t.pend = some b →
      ∃ u, u.replies = s.replies.filter (·.id ≠ p.id) ∧ u.mem = s.mem ∧ u.threads = s.threads ∧ u.reqs = s.reqs ∧
        let ends := fun q : Reply =>
          (q.trap = none → q.writes = [] → exec (.replyArrival p.id) s = .next (retire u p.o p.tid b.pc b.len
            { Wr.none with g := q.g, v := q.v.map (fun x => (x.1, mergeLanes x.2.1 (readV s t x.1) x.2.2)), acq := q.acq } b.vw))
          ∧ ∀ cause info va pos, q.trap = some (cause, info, va, pos) →
            exec (.replyArrival p.id) s = .next (takeTrap u p.o p.tid
              ⟨cause, info, va, pos, 0, q.known, q.applied, .none⟩ b.pc (some (lenBits b.len)) false false)
        (p.part = none → t.status = .waiting (.reply p.id) → ends p)
        ∧ ∀ base j, p.part = some (base, j) → t.status = .waiting (.reply base) →
          (t.got.length < 3 → exec (.replyArrival p.id) s
            = .next (onThr u p.o p.tid (fun x => { x with got := x.got ++ [p] })))
          ∧ (3 ≤ t.got.length → ends (t.got.foldl joinParts p))

/-! ## Posted stores, messages and work lists -/

/-- R129, R347 to R349: PST, PST.f, XST, XST.f and MSEND take an entry of the core's journal, with the core's phase, and
wait uncounted while none is free; the traps of their addresses. -/
def Obligations.PostedEntries : Prop :=
  ∀ (s : State) (c : Cur) (t : Thread) (w : Owner),
    let data := fun o : MemOp => listOfWord (readG s t o.d) (bytesOfType o.ty)
    (∀ o, TakesEntry s c t w (.pst o) (ea s t o.ad) .pst false (data o)
      ∧ PostTraps s c t w (.pst o) (ea s t o.ad) (bytesOfType o.ty))
    ∧ (∀ o, TakesEntry s c t w (.pstF o) (ea s t o.ad) .pst true (data o)
      ∧ PostTraps s c t w (.pstF o) (ea s t o.ad) (bytesOfType o.ty))
    ∧ (∀ o, TakesEntry s c t w (.xst o) (ea s t o.ad) .xst false (data o)
      ∧ PostTraps s c t w (.xst o) (ea s t o.ad) (bytesOfType o.ty))
    ∧ (∀ o, TakesEntry s c t w (.xstF o) (ea s t o.ad) .xst true (data o)
      ∧ PostTraps s c t w (.xstF o) (ea s t o.ad) (bytesOfType o.ty))
    ∧ (∀ v a, TakesEntry s c t w (.msend v a) (readG s t a) .msend false (vecBytes (vecIn s c t (.msend v a) v))
      ∧ PostTraps s c t w (.msend v a) (readG s t a) 64)

/-- R350, R356 and R357: MRECV empties a full mailbox of its home core, MRECV.trap takes the oldest record of the
inbox, WPUSH and WPOP act on the tail of the home core's work list, WAITC answers the word that differs; with nothing
to take, MRECV, MRECV.trap and WAITC wait. It takes the model's readings of log 37. -/
def Obligations.Receives : Prop :=
  ∀ (s : State) (c : Cur) (t : Thread) (w : Owner),
    (∀ v a off k,
      let i := Instr.mrecv v a
      let e := firstEnv s c t w i
      let va := readG s t a
      let box := fun n : Nat => spadKey t.o t.core off + n
      let gran := granKey t.o t.core off
      Issues s c t w i 0 → va.toNat % 64 = 0 → va.extractLsb' 57 7 = 0 → isSpadVa va.toNat = true →
      spadVa w (tidCore t.tid) va.toNat = some (t.core, off) → tidCore t.tid = t.core → core? s t.o t.core = some k →
      off + 64 ≤ spadSize k → inShadow k off 64 = false → watchHit t va.toNat 64 true true = none → off % 64 = 0 →
      mayServe e.s (ownReq e (.mrecv v) va off 64 none none) = true →
      ((∀ g < 4, getD false s.spadFE (gran + g) = true) → cleanAt e off 64 →
        ∃ x fe', exec i s = .next (retiresTo s c t w i { oneMore e.s with spadFE := fe' }
            { Wr.ofV v x with acq := some .pkg }) ∧
          (∀ b < 64, elemOf 8 b x = Memory.read s.spad (box b)) ∧
          ∀ g, getD false fe' g = if gran ≤ g ∧ g < gran + 4 then false else getD false s.spadFE g)
      ∧ ((∃ g < 4, getD false s.spadFE (gran + g) = false) → exec i s = .next (asksFor s c t w i e.s
          { ownReq e (.mrecv v) va off 64 none none with held := true })))
    ∧ (∀ v,
      let i := Instr.mrecvTrap v
      let e := firstEnv s c t w i
      Issues s c t w i 0 →
      (∀ r rs, t.inbox = r :: rs → ∃ x, exec i s = .next (retiresTo s c t w i
          (onThr e.s t.o t.tid (fun u => { u with inbox := rs })) { Wr.ofV v x with acq := some .pkg }) ∧
          elemOf 32 1 x = BitVec.ofNat 32 r.tid ∧ elemOf 64 1 x = r.pc ∧ elemOf 64 2 x = r.va ∧ elemOf 64 3 x = r.info ∧
          elemOf 64 4 x = r.pos ∧ elemOf 64 5 x = r.spec ∧ elemOf 64 7 x = BitVec.ofNat 64 r.seq)
      ∧ (t.inbox = [] → exec i s = .next (putWait e.s c .inbox (some (bundleOf (bare s) c t w i)))))
    ∧ (∀ d v k,
      let i := Instr.wpush d v
      let e := firstEnv s c t w i
      let key := coreKey t.o (tidCore t.tid)
      Issues s c t w i 0 → core? e.s t.o (tidCore t.tid) = some k →
      (releaseNow e.s t .pkg = false → exec i s = .next (putWait e.s c .release none))
      ∧ (releaseNow e.s t .pkg = true → k.work.length < 256 → exec i s = .next (retiresTo s c t w i
          { e.s with
            cores := put e.s.cores key { k with work := k.work ++ [⟨(vecBytes (vecIn s c t i v)).take 16⟩] } } (Wr.ofG d 0)))
      ∧ (releaseNow e.s t .pkg = true → 256 ≤ k.work.length → exec i s = .next (doneWith s c t w i (Wr.ofG d 1))))
    ∧ (∀ v k,
      let i := Instr.wpop v
      let e := firstEnv s c t w i
      let key := coreKey t.o (tidCore t.tid)
      Issues s c t w i 0 → core? e.s t.o (tidCore t.tid) = some k →
      ∃ x k', exec i s = .next (retiresTo s c t w i { e.s with cores := put e.s.cores key k' }
          { Wr.ofV v x with acq := some .pkg }) ∧
        (∀ ws y, k.work = ws ++ [y] → y.data.length = 16 →
          k' = { k with work := ws } ∧ (∀ b < 16, elemOf 8 b x = y.data.getD b 0) ∧ ∀ b, 16 ≤ b → b < 64 → elemOf 8 b x = 0) ∧
        (k.work = [] → ∀ b, 16 < b → b < 64 → elemOf 8 b x = 0) ∧
        (k.work = [] → (∀ u ∈ k.cursors, u.limit ≤ u.next) → k' = k ∧ elemOf 8 16 x = 2 ∧ elemOf 128 0 x = 0) ∧
        (∀ u, k.work = [] → k.cursors = [u] → u.next < u.limit →
          k' = { k with cursors := [{ u with next := u.next + u.step }] } ∧ elemOf 8 16 x = 1 ∧
          elemOf 64 0 x = BitVec.ofNat 64 u.next ∧ elemOf 32 2 x = BitVec.ofNat 32 u.launch ∧
          elemOf 32 3 x = BitVec.ofNat 32 (u.stage % 256)))
    ∧ (∀ d a b off,
      let i := Instr.waitc d a b
      let e := firstEnv s c t w i
      let old := readG s t b
      let key := spadKey t.o t.core off
      Issues s c t w i 0 → cleanAt e off 8 → OwnSpad e .waitc .load (readG s t a) 8 8 off (.waitc old d) none none →
      ∀ x, Loaded false 8 s.spad key x →
      (x ≠ old → exec i s = .next (retiresTo s c t w i (oneMore e.s) (Wr.ofG d x)))
      ∧ (x = old → exec i s = .next (asksFor s c t w i e.s
          { ownReq e (.waitc old d) (readG s t a) off 8 none none with held := true })))

/-- R129, R130, R135, R182, R347 to R349: what the journal's events do. A posted store, an exchange packet or a message
reaches its target and is applied, held, refused or answered busy, or is late at a vacated tile; an acknowledged entry
is freed; a refusal leaves PSTREF, or MIGFWD where late, pending on its thread; a busy message is sent again after
1,024 fabric cycles. What may not be sent, stands behind another on its path (R13, R175), or finds its target's tile under
exchange or with a full phase buffer stays as it is. It takes the model's readings of logs 49 and 92. -/
def Obligations.JournalEvents : Prop :=
  ∀ (s : State) (o j seq : Nat) (e : JEnt), entryAt s o j seq = some e →
    let key := spadKey o e.dest e.off
    let n := e.data.length
    ((quietNet s o = true ∨ maySend s o e = false ∨ heldThere s o e = true ∨ entryNext s o j e = false) →
      exec (.postedStoreArrival o j seq) s = .next s ∧ exec (.xstPacket o j seq) s = .next s)
    ∧ (∀ k, core? s o e.dest = some k → (16 ≤ k.phase.length → heldThere s o e = true) ∧
      (maySend s o e = true → quietNet s o = false → heldThere s o e = false → entryNext s o j e = true →
      (lands s o e = false →
        (e.kind ≠ .xst → ∃ u, exec (.postedStoreArrival o j seq) s = .next u ∧ u.spad = s.spad ∧
          entryAt u o j seq = some { e with phase := .late })
        ∧ (e.kind = .xst → ∃ u, exec (.xstPacket o j seq) s = .next u ∧ u.spad = s.spad ∧
          entryAt u o j seq = some { e with phase := .late })) ∧
      (lands s o e = true →
      (e.kind ≠ .xst → ∃ u, exec (.postedStoreArrival o j seq) s = .next u ∧ u.mem = s.mem ∧ u.threads = s.threads ∧
        (spadSize k < e.off + n → u.spad = s.spad ∧ entryAt u o j seq = some { e with phase := .refusing 0 }) ∧
        (e.off + n ≤ spadSize k → inShadow k e.off n = true →
          u.spad = s.spad ∧ entryAt u o j seq = some { e with phase := .refusing 4 }) ∧
        (e.off + n ≤ spadSize k → inShadow k e.off n = false →
          (e.kind = .pst → Stored s.spad u.spad key (allOn e.data) ∧ entryAt u o j seq = some { e with phase := .acked } ∧
            (e.full = true → getD false u.spadFE (granKey o e.dest e.off) = true)) ∧
          (e.kind = .msend →
            let vacant := (∀ m ∈ k.msgs, m.off ≠ e.off) ∧ ∀ g < 4, fullAt s (.spad o e.dest (e.off + 16 * g)) = false
            (vacant → Stored s.spad u.spad key (allOn e.data) ∧ entryAt u o j seq = some { e with phase := .acked } ∧
              ∀ g < 4, fullAt u (.spad o e.dest (e.off + 16 * g)) = true) ∧
            (¬ vacant → k.msgs.length < 16 → u.spad = s.spad ∧ entryAt u o j seq = some { e with phase := .acked } ∧
              ∃ k', core? u o e.dest = some k' ∧ k'.msgs = k.msgs ++ [⟨e.off, e.data⟩]) ∧
            (¬ vacant → 16 ≤ k.msgs.length →
              u.spad = s.spad ∧ entryAt u o j seq = some { e with phase := .busy (s.fab + 1024) }))))
      ∧ (e.kind = .xst →
        (k.xb = 0 → ∃ u, exec (.xstPacket o j seq) s = .next u ∧ u.spad = s.spad ∧
          entryAt u o j seq = some { e with phase := .refusing 4 }) ∧
        (k.xb ≠ 0 → (e.off < shadowLo k ∨ spadSize k < e.off + n) → ∃ u, exec (.xstPacket o j seq) s = .next u ∧
          u.spad = s.spad ∧ entryAt u o j seq = some { e with phase := .refusing 0 }) ∧
        (k.xb ≠ 0 → shadowLo k ≤ e.off → e.off + n ≤ spadSize k →
          (k.xph = e.xph → ∃ u, exec (.xstPacket o j seq) s = .next u ∧ Stored s.spad u.spad key (allOn e.data) ∧
            entryAt u o j seq = some { e with phase := .acked } ∧
            (e.full = true → getD false u.spadFE (granKey o e.dest e.off) = true)) ∧
          (k.xph ≠ e.xph → ∃ u k', exec (.xstPacket o j seq) s = .next u ∧ u.spad = s.spad ∧
            entryAt u o j seq = some { e with phase := .acked } ∧ core? u o e.dest = some k' ∧
            k'.phase = k.phase ++ [⟨e.off, e.data, e.full⟩]))))))
    ∧ (e.phase = .acked → ∃ u, exec (.journalAck o j seq) s = .next u ∧ entryAt u o j seq = none ∧ u.spad = s.spad ∧
        ∀ q, q ≠ seq → entryAt u o j q = entryAt s o j q)
    ∧ (∀ reason t, e.phase = .refusing reason → e.orphan = false → thr? s o e.tid = some t →
        ∃ u, exec (.journalRefusal o j seq) s = .next u ∧
          entryAt u o j seq = some { e with phase := .refused 0x08 reason false } ∧
          thr? u o e.tid = some { t with async := t.async
            ++ [⟨0x08, e.va, BitVec.ofNat 64 (e.seq % 256 + reason * 256), 0, .journal j e.seq, false⟩] })
    ∧ (∀ t, e.phase = .late → e.orphan = false → thr? s o e.tid = some t →
        ∃ u, exec (.journalRefusal o j seq) s = .next u ∧
          entryAt u o j seq = some { e with phase := .refused 0x15 0 false } ∧
          thr? u o e.tid = some { t with async := t.async
            ++ [⟨0x15, e.va, BitVec.ofNat 64 (e.seq % 256), 0, .journal j e.seq, false⟩] })
    ∧ (∀ til, e.phase = .busy til → til ≤ s.fab → stopped s o = false → ∃ u, exec (.msendResend o j seq) s = .next u ∧
        entryAt u o j seq = some { e.unsent with phase := .ready })

/-- R183, R134, R186 and R177: a member core of an exchange barrier swaps its front and shadow banks once and toggles its
phase, none while its tile's image is being exchanged; a die buffers a replicated write and applies it in vector-clock order; a switch combines two AMOs into one and
splits the reply, the upper having been applied first. Where the two meet is the model's reading of log 79. -/
def Obligations.SwapsReplicasAndCombining : Prop :=
  (∀ (s : State) (o j obj : Nat) (k : Core), (barRec s o obj).toTell.contains j = true → core? s o j = some k →
    ((placeOf s o j).mv = true → exec (.barrierCompletion o j obj) s = .next s) ∧ ((placeOf s o j).mv = false →
    k.phase = [] → 2 * k.xb * 4096 ≤ spadSize k →
    ∃ u k', exec (.barrierCompletion o j obj) s = .next u ∧ core? u o j = some k' ∧
      k' = { k with xph := !k.xph, phase := [] } ∧ (barRec u o obj).toTell = (barRec s o obj).toTell.erase j ∧
      u.mem = s.mem ∧
      ∀ a, Memory.read u.spad a
        = if spadKey o j (frontLo k) ≤ a ∧ a < spadKey o j (shadowLo k) then Memory.read s.spad (a + k.xb * 4096)
          else if spadKey o j (shadowLo k) ≤ a ∧ a < spadKey o j (spadSize k) then Memory.read s.spad (a - k.xb * 4096)
          else Memory.read s.spad a))
  ∧ (∀ (s : State) (o w die : Nat) (x : RWrite),
      s.rwrites.find? (fun y => y.o == o && y.id == w && y.pending.contains die && !y.buffered.contains die) = some x →
      s.rwrites.find? (fun y => y.src == x.src && y.pending.contains die && !y.buffered.contains die) = some x →
      (s.rwrites.filter (fun y => y.buffered.contains die)).length < 4096 → quietNet s o = false →
      ∃ u, exec (.replicatedWriteReceived o w die) s = .next u ∧ { x with buffered := x.buffered ++ [die] } ∈ u.rwrites ∧
        u.mem = s.mem)
  ∧ (∀ (s : State) (o w die : Nat) (x : RWrite) (ow : Owner),
      s.rwrites.find? (fun y => y.o == o && y.id == w && y.buffered.contains die) = some x → owner? s o = some ow →
      let its := fun d => x.vc.getD d 0
      let mine := fun d => getD 0 ow.vclk (die * 8 + d)
      (x.whole = true → ∀ b ∈ x.data, b.2 = true) →
      let ready := ∀ d < 8, if d = x.src then (mine d + 1) % 2 ^ 32 = its d
        else (mine d + 2 ^ 32 - its d) % 2 ^ 32 < 2 ^ 31
      (¬ ready ∨ paused s = true → exec (.replicatedApply o w die) s = .next s) ∧
      (ready → paused s = false → ∃ u ow', exec (.replicatedApply o w die) s = .next u ∧
        Stored s.mem u.mem (replPa die x.off) x.data ∧ owner? u o = some ow' ∧ getD 0 ow'.vclk (die * 8 + x.src) = its x.src ∧
        u.spad = s.spad ∧ u.threads = s.threads))
  ∧ (∀ (s : State) (up low : Nat) (a b : Req) (op : AmoOp) (n : Nat) (g : Bool) (y z : Word) (d d' : GReg),
      reqAt s up = some a → reqAt s low = some b → a.kind = .amo op n g y d → b.kind = .amo op n g z d' →
      (combinable s a b = false → exec (.amoCombine up low) s = .next s) ∧
      (combinable s a b = true → ∃ u q l, exec (.amoCombine up low) s = .next u ∧ meetSwitch s a b = some l ∧
        u.combines = s.combines ++ [⟨s.nextId, a, b, l⟩] ∧ q ∈ u.reqs ∧ q.id = s.nextId ∧
        q.kind = .amo op n g (amoOp op n g y z) d ∧ q.tgt = a.tgt ∧ q.pa = a.pa ∧ u.mem = s.mem))
  ∧ (∀ (s : State) (r : Nat) (p : Reply) (k : Combine) (op : AmoOp) (n : Nat) (g : Bool) (y z v : Word) (d d' : GReg),
      replyAt s r = some p → s.combines.find? (fun x => x.id == r) = some k → p.val = some v →
      k.upper.kind = .amo op n g y d → k.lower.kind = .amo op n g z d' →
      ∃ u p1 p2, exec (.combinedReplySplit r) s = .next u ∧
        u.replies = s.replies.flatMap (fun q => if q.id = r then [p1, p2] else [q]) ∧
        p1.id = k.upper.id ∧ p1.g = [(d, extend g n v)] ∧ p2.id = k.lower.id ∧ p2.g = [(d', extend g n (amoOp op n g v y))] ∧
        u.mem = s.mem)

/-! ## Special registers and thread control -/

/-- R146 to R153, R385 and R389: what MFS reads from each special register and MTS writes to it, RDCYC, SKIMW, and the
PLUMB trap of those whose values depend on timing. -/
def Obligations.SpecialRegisters : Prop :=
  ∀ (s : State) (c : Cur) (t : Thread) (w : Owner),
    (∀ d r,
      let i := Instr.mfs d r
      Issues s c t w i 0 →
      let timed := r = 0x06 ∨ r = 0x07 ∨ r = 0x0D ∨ r = 0x0E ∨ r = 0x0F
      let gives := fun x : Word => exec i s = .next (doneWith s c t w i (Wr.ofG d x))
      (w.plumb = true → timed → exec i s = .next (trapsTo s c t w i (mkTrap 0x10 0 0)))
      ∧ (¬ (w.plumb = true ∧ timed) →
        (r = 0x00 → gives t.fpc) ∧ (r = 0x01 → gives t.stat) ∧ (r = 0x02 → gives 0x3FFFF) ∧ (r = 0x03 → gives 3)
        ∧ (r = 0x04 → gives (BitVec.ofNat 64 (t.tid + t.inc * 2 ^ 32 + t.stage * 2 ^ 48)))
        ∧ (r = 0x05 → gives (BitVec.ofNat 64 w.nclus))
        ∧ (∀ k, core? s t.o t.core = some k → (r = 0x06 → gives (BitVec.ofNat 64 k.cyc))
            ∧ (r = 0x11 → gives (BitVec.ofNat 64 (k.spn + k.xb * 2 ^ 8 + (if k.xph then 2 ^ 16 else 0)))))
        ∧ (r = 0x07 → gives (BitVec.ofNat 64 (timeNs s)))
        ∧ (r = 0x08 → gives t.rngs0) ∧ (r = 0x09 → gives t.rngs1) ∧ (r = 0x0A → gives t.rngk)
        ∧ (r = 0x0B → gives (t.wlim.setWidth 64)) ∧ (r = 0x0C → gives t.trapc)
        ∧ (∀ k, clus? s t.o (t.core / 8) = some k → r = 0x0D →
            gives (BitVec.ofNat 64 (k.stall % 2 ^ 48 + (engineAt s (clusPlace s t.o (t.core / 8))).budget * 2 ^ 48)))
        ∧ (r = 0x0E → gives (BitVec.ofNat 64 (w.gen % 2 ^ 48 + (if inWarn s t.o then 2 ^ 63 else 0))))
        ∧ (r = 0x0F → gives (BitVec.ofNat 64 (w.adv + w.advSrc * 2 ^ 16 + (if w.standing.isSome then 2 ^ 19 else 0)
            + (if w.auto then 2 ^ 20 else 0))))
        ∧ (r = 0x10 → gives (BitVec.ofNat 64 (t.gbase + t.gsize * 2 ^ 11 + t.vbase * 2 ^ 19 + t.vsize * 2 ^ 28
            + t.sbase * 2 ^ 34 + t.sbanks * 2 ^ 42)))
        ∧ ∀ k < 4, r.toNat = 0x14 + k → gives (getD 0 t.wp k)))
    ∧ (∀ a r,
      let i := Instr.mts a r
      let x := readG s t a
      Issues s c t w i 0 → r ≠ 0x0C → c.v = none →
      ∃ u t', exec i s = .next u ∧ u = doneWith s c t w i (Wr.ofSp r x) ∧ thr? u c.o c.tid = some t' ∧
        t'.fpc = (if r = 0x00 then x &&& 0x13F0F else t.fpc) ∧ t'.stat = (if r = 0x01 then x &&& 0x7F else t.stat) ∧
        t'.rngs0 = (if r = 0x08 then x else t.rngs0) ∧ t'.rngs1 = t.rngs1 ∧
        t'.rngk = (if r = 0x0A then x else t.rngk) ∧ t'.wlim = (if r = 0x0B then x.setWidth 32 else t.wlim) ∧
        t'.trapc = t.trapc ∧ ∀ k < 4, getD 0 t'.wp k = if r.toNat = 0x14 + k then x &&& 0x3FFFFFFFFFFFFFFF else getD 0 t.wp k)
    ∧ (∀ d,
      let i := Instr.rdcyc d
      Issues s c t w i 0 →
      (w.plumb = true → exec i s = .next (doneWith s c t w i (Wr.ofG d (BitVec.ofNat 64 (t.slots.getD 0)))))
      ∧ ∀ k, core? s t.o t.core = some k → w.plumb = false →
          exec i s = .next (doneWith s c t w i (Wr.ofG d (BitVec.ofNat 64 k.cyc))))
    ∧ (∀ d a,
      let i := Instr.skimw d a
      let want := (readG s t a).toNat % 2 ^ 48
      Issues s c t w i 0 →
      (w.plumb = true → exec i s = .next (trapsTo s c t w i (mkTrap 0x10 0 0)))
      ∧ (w.plumb = false → w.gen % 2 ^ 48 ≠ want →
          exec i s = .next (doneWith s c t w i (Wr.ofG d (BitVec.ofNat 64 (w.gen % 2 ^ 48)))))
      ∧ (w.plumb = false → w.gen % 2 ^ 48 = want →
          exec i s = .next (putWait (firstEnv s c t w i).s c (.skim want) (some (bundleOf (bare s) c t w i)))))

/-- R126 and R127: a write of %trapc. With its release conditions met, a disposition of a parked thread is accepted: a
kill stops the thread for good, a replay issues its bundle again, a skip goes on past it, each as an acquire; ACK says
whether it was. It takes the model's readings of log 50. -/
def Obligations.Dispositions : Prop :=
  ∀ (s : State) (c : Cur) (t : Thread) (w : Owner) (a : GReg),
    let i := Instr.mts a 0x0C
    let e := firstEnv s c t w i
    let v := readG s t a
    let tid := (v.extractLsb' 0 24).toNat
    let disp := (v.extractLsb' 24 2).toNat
    let after := fun (u : State) (ok : Bool) => retiresTo s c t w i (onThr u t.o t.tid (fun x =>
      { x with trapc := (v &&& 0xFFFFFFFF07FFFFFF) ||| (if ok then 0x08000000 else 0) })) Wr.none
    Issues s c t w i 0 →
    (releaseNow e.s t .pkg = false → exec i s = .next (putWait e.s c .release none))
    ∧ (releaseNow e.s t .pkg = true →
      (thr? s t.o tid = none → exec i s = .next (after e.s false))
      ∧ ∀ x, thr? s t.o tid = some x →
        (x.mig ≠ none → exec i s = .next (putWait e.s c (.disp tid) none))
        ∧ (x.mig = none → (x.status ≠ .parked ∨ disp = 3 ∨ v.extractLsb' 27 5 ≠ 0 ∨ x.kept = none) →
            exec i s = .next (after e.s false))
        ∧ ∀ k, x.mig = none → x.status = .parked → v.extractLsb' 27 5 = 0 → x.kept = some k →
          let x' := if v.getLsbD 26 = true then { x with wlim := v.extractLsb' 32 32 } else x
          (disp = 2 → k.trap.async = false → k.len = none → exec i s = .next (after e.s false))
          ∧ (disp = 0 → ∃ u y, exec i s = .next (after u true) ∧ thr? u t.o tid = some y ∧ y.status = .dying)
          ∧ (disp = 1 → k.item = .none → ∃ u, exec i s = .next (after u true) ∧
              thr? u t.o tid = some { dropFetched (returnReplay x') with fenceAt := s.nextId })
          ∧ (disp = 2 → k.item = .none → (k.trap.async = true ∨ k.len ≠ none) → ∃ u, exec i s = .next (after u true) ∧
              thr? u t.o tid = some { dropFetched (returnSkip x') with fenceAt := s.nextId }))

/-- R117, R387 and R388: HALT and HALT.retain end the thread, whose context is free from then on; HALT.retain keeps its
banks for a stage that exists, where it holds some and none are kept yet; YIELD goes on with its turn given up. -/
def Obligations.EndsAndYields : Prop :=
  ∀ (s : State) (c : Cur) (t : Thread) (w : Owner), c.o = t.o → c.tid = t.tid → c.v = none →
    (Issues s c t w .halt 0 → ∃ u, exec .halt s = .next u ∧ u = doneWith s c t w .halt { Wr.none with fin := .halt } ∧
      thr? u t.o t.tid = none)
    ∧ (∀ n,
      let i := Instr.haltRetain n
      Issues s c t w i 0 → ∃ u, exec i s = .next u ∧ u = doneWith s c t w i { Wr.none with fin := .retain n.toNat } ∧
        thr? u t.o t.tid = none ∧
        ∀ k l, core? s t.o t.core = some k → tidCore t.tid = t.core → lch? s t.o t.launch = some l →
          t.inbox = [] → t.async = [] → t.kept = none → k.journal = [] → k.jobs = [] →
          ∃ k', core? u t.o t.core = some k' ∧ k'.retained =
            if n.toNat < l.stages.length ∧ t.sbanks ≠ 0 ∧ (retainedFor k t.launch n.toNat).isNone = true
            then k.retained ++ [⟨t.launch, n.toNat, t.sbase, t.sbanks, t.tid, s.nextId, t.born⟩] else k.retained)
    ∧ (Issues s c t w .yield 0 → ∃ u t', exec .yield s = .next u ∧ thr? u t.o t.tid = some t' ∧ t'.status = .ready ∧
        t'.pc = c.pc + BitVec.ofNat 64 c.len ∧ u.gfile = s.gfile ∧ u.mem = s.mem ∧
        ∀ k, core? s t.o t.core = some k → w.plumb = false → t'.yieldAt = some (k.cyc - 1))

/-- R100, R118, R390 and R391: LAUNCH and SPAWN by a thread release at .pkg first; what they create, the identity that
gD receives, and the reasons for which they create nothing. It takes the model's readings of logs 47, 48, 50 and 82. -/
def Obligations.LaunchAndSpawn : Prop :=
  ∀ (s : State) (c : Cur) (t : Thread) (w : Owner) (d a b : GReg),
    (let i := Instr.launchInstr d a b
     let e := firstEnv s c t w i
     Issues s c t w i 0 →
     (releaseNow e.s t .pkg = false → exec i s = .next (putWait e.s c .release none))
     ∧ (releaseNow e.s t .pkg = true → ∃ u x, exec i s = .next (retiresTo s c t w i u (Wr.ofG d x)) ∧
        (x = BitVec.ofNat 64 (2 ^ 63 + 8) ∨ x = BitVec.ofNat 64 (2 ^ 63 + 6) →
          u.threads = s.threads ∧ u.launches = s.launches ∧ u.owners = s.owners) ∧
        ((readG s t a).toNat % 64 ≠ 0 → x = BitVec.ofNat 64 (2 ^ 63 + 8) ∧ u = e.s) ∧
        (x ≠ BitVec.ofNat 64 (2 ^ 63 + 8) → x ≠ BitVec.ofNat 64 (2 ^ 63 + 6) →
          let id := if (w.lcount + 1) % 2 ^ 32 = 0 then 1 else (w.lcount + 1) % 2 ^ 32
          x = BitVec.ofNat 64 id ∧ ∃ l, lch? u t.o id = some l ∧ l.arg = readG s t b ∧ l.seed = t.rngk)))
    ∧ (let i := Instr.spawn d a b
       let e := firstEnv s c t w i
       let k := (readG s t a).toNat % 16
       let j := (readG s t b).toNat
       Issues s c t w i 0 →
       let late := setWaits e.s t.o t.launch k j
       (releaseNow e.s t .pkg = false ∨ late = true → exec i s = .next (putWait e.s c .release none))
       ∧ (releaseNow e.s t .pkg = true → late = false →
        let fails := fun n : Nat => exec i s = .next (doneWith s c t w i (Wr.ofG d (BitVec.ofNat 64 (2 ^ 63 + n))))
        (lch? s t.o t.launch = none → fails 3)
        ∧ ∀ l, lch? s t.o t.launch = some l → (l.stages[k]? = none → fails 3)
          ∧ ∀ x, l.stages[k]? = some x →
            let live := (stageThreads s t.o t.launch k).length
            (x.tmax ≤ live → fails 1)
            ∧ (live < x.tmax → (ncores w ≤ j ∨ grantOn s t.o j l k x = none) → fails 2)
            ∧ ∀ g, live < x.tmax → j < ncores w → grantOn s t.o j l k x = some g →
              ∃ u y, exec i s = .next (retiresTo s c t w i u (Wr.ofG d (BitVec.ofNat 64 (packId j g.slot)))) ∧
                thr? u t.o (packId j g.slot) = some y ∧ y.status = .ready ∧ y.pc = x.entry ∧ y.launch = l.id ∧ y.stage = k ∧
                y.core = j ∧ y.gbase = g.gb ∧ y.gsize = 8 * x.gregs ∧ y.vbase = g.vb ∧ y.vsize = 4 * x.vregs ∧
                y.fpc = 0 ∧ y.stat = 0 ∧ u.mem = s.mem))

/-! ## Jobs and streams -/

/-- R392, R394 to R400, R404 and R405: the submitting instructions, with the checks of their operands. It takes the
model's readings of logs 36 and 43. -/
def Obligations.JobSubmission : Prop :=
  ∀ (s : State) (c : Cur) (t : Thread) (w : Owner) (wf : Bool) (d : GReg) (ad : EAddr),
    let va := eaE s t ad
    let key := fun off : Nat => spadKey t.o t.core off
    let desc := fun i : Instr => trapsTo s c t w i (mkTrap 0x0E 0xFFFF va)
    let unaligned := fun i : Instr => trapsTo s c t w i (mkTrap 0x03 64 va)
    let far := fun (i : Instr) (kind : Nat) => trapsTo s c t w i (mkTrap 0x05 (kind * 2 ^ 13 + 2 * 2 ^ 16) va)
    let canon := va.extractLsb' 57 7 = 0
    (let i := Instr.mxrun wf d ad
     let e := firstEnv s c t w i
     BlockTraps s c t w i va ∧ (Issues s c t w i 0 → ∀ off, OwnBlock e va off →
      let b := Memory.readN s.spad (key off) 64
      let x := mxBlock b
      (x.ok b = false → exec i s = .next (desc i))
      ∧ (x.ok b = true → Submits s c t w i wf d (.mxrun b)
          (if x.wait then resolveGate e.s t.o (tidCore t.tid) x.waitj false else some .none))))
    ∧ (let i := Instr.cucopy wf d ad
       let e := firstEnv s c t w i
       BlockTraps s c t w i va ∧ (Issues s c t w i 0 → ∀ off, OwnBlock e va off →
        let b := Memory.readN s.spad (key off) 64
        let x := cuBlock b
        (x.ok b = false → exec i s = .next (desc i))
        ∧ (x.ok b = true → Submits s c t w i wf d (.copy b)
            (if x.onopc then resolveGate e.s t.o (tidCore t.tid) x.opcj true else some .none))))
    ∧ (∀ ld : Bool,
      let i := if ld then Instr.mxcarryLd wf d ad else Instr.mxcarrySt wf d ad
      Issues s c t w i 0 →
      (va.toNat % 64 ≠ 0 → exec i s = .next (unaligned i))
      ∧ (va.toNat % 64 = 0 → ¬ canon → exec i s = .next (far i 4))
      ∧ (va.toNat % 64 = 0 → canon → Submits s c t w i wf d (if ld then .carryLd va else .carrySt va) (some .none)))
    ∧ (∀ b v,
      let i := Instr.cufill wf d ad b v
      let g := (readG s t b).toNat
      let len := g % 2 ^ 40
      let good := len % 64 = 0 ∧ 64 ≤ len ∧ g / 2 ^ 40 % 256 = 0
      Issues s c t w i 0 →
      (va.toNat % 64 ≠ 0 → exec i s = .next (unaligned i))
      ∧ (va.toNat % 64 = 0 → ¬ canon → exec i s = .next (far i 5))
      ∧ (va.toNat % 64 = 0 → canon → ¬ good → exec i s = .next (desc i))
      ∧ (va.toNat % 64 = 0 → canon → good →
          Submits s c t w i wf d (.fill va len (g / 2 ^ 48) (vecIn s c t i v)) (some .none)))
    ∧ (∀ b,
      let i := Instr.culdb wf d ad b
      let g := (readG s t b).toNat
      let len := g % 65536
      let ncol := g / 2 ^ 16 % 512
      let boff := g / 2 ^ 25 % 128
      let good := len % 64 = 0 ∧ 64 ≤ len ∧ len ≤ 32768 ∧ 1 ≤ ncol ∧ ncol ≤ 256 ∧ boff * 256 + len ≤ 32768 ∧ g / 2 ^ 32 = 0
      Issues s c t w i 0 →
      (va.toNat % 64 ≠ 0 → exec i s = .next (unaligned i))
      ∧ (va.toNat % 64 = 0 → ¬ canon → exec i s = .next (far i 5))
      ∧ (va.toNat % 64 = 0 → canon → ¬ good → exec i s = .next (desc i))
      ∧ (va.toNat % 64 = 0 → canon → good → Submits s c t w i wf d (.ldb va len ncol boff) (some .none)))
    ∧ (∀ b,
      let i := Instr.cudigest wf d ad b
      let len := (readG s t b).toNat
      let dst := readG s t d
      let good := len % 64 = 0 ∧ 64 ≤ len ∧ len ≤ 2 ^ 40 ∧ va.toNat % 64 = 0 ∧ dst.toNat % 64 = 0
        ∧ ¬ (va.toNat < dst.toNat + 64 ∧ dst.toNat < va.toNat + len)
      Issues s c t w i 0 →
      (¬ canon → exec i s = .next (far i 5))
      ∧ (canon → ¬ good → exec i s = .next (desc i))
      ∧ (canon → good → Submits s c t w i wf d (.digest va len dst) (some .none)))
    ∧ (∀ a b,
      let i := Instr.slout wf d a b
      Issues s c t w i 0 →
      ((readG s t b).toNat % 256 ≠ 0 → exec i s = .next (trapsTo s c t w i (mkTrap 0x03 0 (readG s t b))))
      ∧ ((readG s t b).toNat % 256 = 0 → w.sen = false →
          exec i s = .next (trapsTo s c t w i (mkTrap 0x05 (5 * 2 ^ 13 + 6 * 2 ^ 16) 0)))
      ∧ ((readG s t b).toNat % 256 = 0 → w.sen = true →
          Submits s c t w i wf d (.slout (readG s t a) (readG s t b)) (some .none)))

/-- R401, R393, R116 and R260: JWAIT, JPOLL and JCANCEL of a job that has ended, of one still live and of a suspended
one, by the core and id that gA[15:0] names in the thread's cluster; in plumb mode JPOLL takes PLUMB, whatever the job. A
JOBF ORs the GFL of what the job has committed into its submitter's %stat. It takes the model's readings of logs 44 and 81. -/
def Obligations.JobControl : Prop :=
  ∀ (s : State) (c : Cur) (t : Thread) (w : Owner) (d a : GReg) (x : Core),
    let id := (readG s t a).toNat % 65536
    let k := tidClus t.tid * 8 + id / 8192
    let code := ((x.outcomes.find? (·.1 == id)).map (·.2.1)).getD 1
    let gfl : BitVec 8 := if ((x.outcomes.find? (·.1 == id)).map (·.2.2)) = some (some t.tid) then 0x40 else 0
    let seen := { Wr.ofG d (BitVec.ofNat 64 code) with acq := some .clus, flags := gfl }
    core? s t.o k = some x →
    (∀ i, (i = .jwait d a ∨ i = .jpoll d a ∨ i = .jcancel d a) → ∀ b, x.jobs.find? (·.id == id) = some b →
      ∀ cause va info, b.state = .suspended cause va info → i ≠ .jcancel d a → (i = .jpoll d a → w.plumb = false) →
        Issues s c t w i 0 → (exec i s = .next (trapsTo s c t w i ⟨0x09, BitVec.ofNat 64
            ((if 2 ^ 63 ≤ info.toNat then info.toNat % 65536 else id) + cause * 65536), va, BitVec.ofNat 64 b.pos,
          BitVec.ofNat 64 b.spec, true, false, .job k id⟩))
        ∧ ∀ u z y, exec i s = .next u → b.gfl = true → b.orphan = false → thr? s t.o b.tid = some z → c.o = t.o →
            thr? u t.o b.tid = some y → y.stat = z.stat ||| 0x40)
    ∧ (let i := Instr.jwait d a
       let e := firstEnv s c t w i
       (x.jobs.find? (·.id == id) = none → Issues s c t w i gfl → exec i s = .next (doneWith s c t w i seen))
       ∧ (∀ b, x.jobs.find? (·.id == id) = some b → b.isSuspended = false → Issues s c t w i 0 →
          exec i s = .next (putWait e.s c (.job k id) (some (bundleOf (bare s) c t w i)))))
    ∧ (let i := Instr.jpoll d a
       (w.plumb = false → x.jobs.find? (·.id == id) = none → Issues s c t w i gfl → exec i s = .next (doneWith s c t w i seen))
       ∧ (∀ b, w.plumb = false → x.jobs.find? (·.id == id) = some b → b.isSuspended = false → Issues s c t w i 0 →
          exec i s = .next (doneWith s c t w i (Wr.ofG d 0)))
       ∧ (w.plumb = true → Issues s c t w i 0 → exec i s = .next (trapsTo s c t w i (mkTrap 0x10 0 0))))
    ∧ (let i := Instr.jcancel d a
       let e := firstEnv s c t w i
       Issues s c t w i 0 →
       (x.jobs.find? (·.id == id) = none → exec i s = .next (doneWith s c t w i (Wr.ofG d (BitVec.ofNat 64 code))))
       ∧ ∀ b, x.jobs.find? (·.id == id) = some b →
        (b.isRunning = false ∨ mustFinish s t.o k b = false →
          exec i s = .next (retiresTo s c t w i (cancelJob e.s t.o k id) (Wr.ofG d 0)))
        ∧ (b.isRunning = true → mustFinish s t.o k b = true →
          ∃ u, exec i s = .next (putWait u c (.jobStop k id 0) (some (bundleOf (bare s) c t w i))) ∧
            u.mem = s.mem ∧ u.threads = s.threads))

/-- R160 to R162, R402 and R403: what SCFG, SBIND, SCLOSE, SPOS and SCOMMIT make of the thread's streams, and what a
retirement does to a stream that its bundle pops or pushes. SCFG reads its descriptor from the own core's scratchpad, from an
L1 copy, or from memory; one out of order takes DESC with INFO 0, and with VA the descriptor's address, which is the model's
reading of log 43. It takes the model's readings of log 33 too. -/
def Obligations.Streams : Prop :=
  (∀ (s : State) (c : Cur) (t : Thread) (w : Owner) (n : BitVec 2), c.v = none →
    let x := streamAt t n.toNat
    let setsFrom := fun (u0 : State) (i : Instr) (wx : Wr) (y : Stream) => ∃ u t', exec i s = .next u ∧
      u = retiresTo s c t w i u0 wx ∧ thr? u c.o c.tid = some t' ∧ streamAt t' n.toNat = y ∧
      ∀ m < 4, m ≠ n.toNat → { streamAt t' m with bound := none } = { streamAt t m with bound := none }
    let sets := fun (i : Instr) (wx : Wr) (y : Stream) => setsFrom (firstEnv s c t w i).s i wx y
    (∀ ad off,
      let i := Instr.scfg n ad
      let e := firstEnv s c t w i
      let va := eaE s t ad
      let good := fun b : List Byte => fieldOf b 20 4 = 0 ∧ fieldOf b 48 1 < 2 ∧ fieldOf b 49 1 < 16
        ∧ (∀ j < 14, b.getD (50 + j) 0 = 0) ∧ fieldOf b 0 8 % 64 = 0 ∧ fieldOf b 24 8 % 64 = 0 ∧ fieldOf b 32 8 % 64 = 0
        ∧ fieldOf b 40 8 % 64 = 0
      let takes := fun (b : List Byte) (u : State) =>
        (¬ good b → exec i s = .next (trapsTo s c t w i (mkTrap 0x0E 0 va)))
        ∧ (good b →
          let out := fieldOf b 48 1 == 1
          let y : Stream := ⟨BitVec.ofNat 64 (fieldOf b 0 8), fieldOf b 8 4, fieldOf b 12 4, fieldOf b 16 4,
            BitVec.ofNat 64 (fieldOf b 24 8), BitVec.ofNat 64 (fieldOf b 32 8), BitVec.ofNat 64 (fieldOf b 40 8), out,
            if fieldOf b 49 1 = 0 then 8 else fieldOf b 49 1, 0, none, [], if out && x.out then x.dues else []⟩
          setsFrom u i { Wr.none with
            strm := some (.cfg n.toNat y.base y.n0 y.n1 y.n2 y.d0 y.d1 y.d2 y.out y.ahead) } y)
      Issues s c t w i 0 →
      (va.toNat % 64 ≠ 0 → exec i s = .next (trapsTo s c t w i (mkTrap 0x03 64 va)))
      ∧ (OwnBlock e va off → takes (Memory.readN s.spad (spadKey t.o t.core off) 64) e.s)
      ∧ ∀ l pa, check e.s w t .ld .load va 64 64 = .ok (.mem l pa) →
          pendingOn e (targetAt e (.mem l pa)) [(pa, 64)] = false →
          (∀ bs, l1Hit e l pa 64 = some bs →
            takes bs (plumbDue (l1Touch e.s e pa 64) t.o t.tid (targetAt e (.mem l pa))))
          ∧ (l1Hit e l pa 64 = none → (∀ o die j b, targetAt e (.mem l pa) ≠ .replica o die j b) → l.cls ≠ 2 →
              (∀ z, (z = none → markIn s (.mem pa) 64 = 0) → (∀ m, z = some m → markIn s (.mem pa) 64 = m + 1) →
                match z with
                | none => ∃ u, KeepsBytes s u ∧ takes (Memory.readN s.mem pa 64) u
                | some m => ∃ u, KeepsBytes s u ∧ exec i s
                    = .next (takeTrap u c.o c.tid (mkTrap 0x06 m va) c.pc (some (lenBits c.len)) false false))))
    ∧ (∀ k : BitVec 2, Issues s c t w (.sbind n k) 0 →
        sets (.sbind n k) { Wr.none with strm := some (.bind n.toNat k.toNat) } { x with bound := some k.toNat })
    ∧ (Issues s c t w (.sclose n) 0 → sets (.sclose n) { Wr.none with strm := some (.close n.toNat) }
        { x.forget with bound := none })
    ∧ (∀ d, Issues s c t w (.spos d n none) 0 → sets (.spos d n none) (Wr.ofG d (BitVec.ofNat 64 x.pos)) x)
    ∧ (∀ d b, Issues s c t w (.spos d n (some b)) 0 →
        let p := (readG s t b).toNat
        (x.n0 * x.n1 * x.n2 < p → exec (.spos d n (some b)) s = .next (trapsTo s c t w (.spos d n (some b))
          { mkTrap 0x0B n.toNat 0 with pos := BitVec.ofNat 64 x.pos, spec := BitVec.ofNat 64 (x.pos + x.fetched.length) }))
        ∧ (p ≤ x.n0 * x.n1 * x.n2 → sets (.spos d n (some b))
            { Wr.ofG d (BitVec.ofNat 64 x.pos) with strm := some (.seek n.toNat p) } { x.forget with pos := p }))
    ∧ (Issues s c t w (.scommit n) 0 →
        (x.out = true → (s.reqs.any (isPush t n.toNat) = true ∨ streamDue s t n.toNat = false) →
          exec (.scommit n) s = .next (putWait (firstEnv s c t w (.scommit n)).s c (.scommit n.toNat) none))
        ∧ (x.out = true → s.reqs.any (isPush t n.toNat) = false → streamDue s t n.toNat = true →
            sets (.scommit n) Wr.none x)
        ∧ (x.out = false → sets (.scommit n) { Wr.none with strm := some (.refetch n.toNat) }
            { x with fetched := [], dues := [] })))
  ∧ ∀ (s : State) (o tid len n : Nat) (pc : Word) (wx wv : Wr) (t : Thread) (w : Owner), thr? s o tid = some t → n < 4 →
      wx.fin = .go → wx.acq = none → wx.strm = none → owner? s t.o = some w →
      let x := streamAt t n
      (wx.v = [] → wv.v = [] → wv.pops = [n] → ∃ t', thr? (retire s o tid pc len wx wv) o tid = some t' ∧
        streamAt t' n = { x with pos := x.pos + 1, fetched := x.fetched.drop 1, dues := x.dues.drop 1 })
      ∧ (∀ r v off, wx.v = [] → wv.v = [(r, v)] → wv.pops = [] → boundTo t r = some n → x.out = true →
          isSpadVa (x.addr x.pos).toNat = true → spadVa w (tidCore t.tid) (x.addr x.pos).toNat = some (t.core, off) →
          ∃ t', thr? (retire s o tid pc len wx wv) o tid = some t' ∧ streamAt t' n = { x with pos := x.pos + 1, dues := (netDue s t.o t.core (.scratch t.o t.core)).toList } ∧
            ∃ q ∈ (retire s o tid pc len wx wv).reqs, q.id = s.nextId ∧ q.kind = .push n v ∧ q.pa = off ∧ q.n = 64 ∧
              q.tgt = .scratch t.o t.core)

/-! ## Sealed lines and links -/

/-- R214 to R226, R404 and R405: the sealed operations. SLREF and SLUNREF move a live entry's count, SLGET brings a
line to the home core's scratchpad, SLPUT answers the name its slice gives, SLSWAP the old root, SLHASH the hash of a
line; without a region all but SLHASH trap. A line with no children that SLPUT finds in its set counts one more, and one that
it does not find takes the set's first free entry under the first code that no entry of its hash has; SLSWAP of the root
that it names counts the new name and uncounts the old. It takes the model's readings of log 39. -/
def Obligations.SealedOperations : Prop :=
  ∀ (s : State) (c : Cur) (t : Thread) (w : Owner) (d : GReg),
    (∀ a l pa n,
      let i := Instr.slref d a
      let e := firstEnv s c t w i
      let name := (readG s t a).toNat
      let r := reqFor e (.slref (readG s t a) d) (BitVec.ofNat 64 (setVa w (setOfName w name))) (.mem l pa) 256 none none
      Issues s c t w i 0 →
      (w.sen = false → exec i s = .next (trapsTo s c t w i (mkTrap 0x05 (3 * 2 ^ 13 + 6 * 2 ^ 16) 0)))
      ∧ (SetLine s e .atomic name l pa → owner? s t.o = some w → Travels s c t w i r → name ≠ 0 →
        findName s pa name = some n → (readEnt s pa n).cnt < 0xFFFFFFFF →
        Trip s c t w i r (fun u2 u3 wx => u3.mem = u2.mem ∧
          wx = Wr.ofG d (BitVec.ofNat 64 ((readEnt s pa n).cnt + 1)) ∧
          SetsEntry s u2 pa n { readEnt s pa n with cnt := (readEnt s pa n).cnt + 1 })))
    ∧ (∀ a l pa n,
      let i := Instr.slunref d a
      let e := firstEnv s c t w i
      let name := (readG s t a).toNat
      let x := readEnt s pa n
      let r := reqFor e (.slunref (readG s t a) d) (BitVec.ofNat 64 (setVa w (setOfName w name))) (.mem l pa) 256 none none
      Issues s c t w i 0 →
      (w.sen = false → exec i s = .next (trapsTo s c t w i (mkTrap 0x05 (3 * 2 ^ 13 + 6 * 2 ^ 16) 0)))
      ∧ (SetLine s e .atomic name l pa → owner? s t.o = some w → Travels s c t w i r → name ≠ 0 →
        findName s pa name = some n →
        Trip s c t w i r (fun u2 u3 wx => u3.mem = u2.mem ∧ wx = Wr.ofG d (BitVec.ofNat 64 (x.cnt - 1)) ∧
          SetsEntry s u2 pa n (if 1 < x.cnt then { x with cnt := x.cnt - 1 }
            else if x.int then { x with cnt := 0, live := false, recl := true, next := 0 }
            else { x with cnt := 0, live := false }))))
    ∧ (∀ ad b l pa n l2 pa2 off,
      let i := Instr.slget d ad b
      let e := firstEnv s c t w i
      let va := eaE s t ad
      let name := (readG s t b).toNat
      let r := reqFor e (.slget (readG s t b) off d) (BitVec.ofNat 64 (setVa w (setOfName w name))) (.mem l pa) 256 none none
      Issues s c t w i 0 → SetLine s e .load name l pa → owner? s t.o = some w → va.toNat % 64 = 0 →
      homeArea e .store va 320 = (some off, none) → watchHit t va.toNat 320 false true = none →
      Travels s c t w i r → name ≠ 0 → findName s pa name = some n →
      sealTrans s w (setVa w (setOfName w name) + 256 * (1 + n)) .load false = .ok (.mem l2 pa2) →
      sealH w (Memory.readN s.mem (pa2 / 256 * 256) 256) (descWord s (pa2 / 256 * 256)) % 2 ^ 48 = getD 0 s.tags (pa2 / 256) →
      markIn s (.mem pa2) 256 = 0 →
      Trip s c t w i r (fun u2 u3 wx => KeepsBytes s u2 ∧ u3.mem = u2.mem ∧
        wx = Wr.ofG d (BitVec.ofNat 64 ((if (readEnt s pa n).int then 1 else 0) + (readEnt s pa n).hgt * 256)) ∧
        let key := spadKey t.o (tidCore t.tid) off
        (∀ k < 256, Memory.read u3.spad (key + k) = Memory.read s.mem (pa2 + k)) ∧
        Memory.nat u3.spad (key + 256) 8 = descWord s pa2 % 2 ^ 64 ∧
        Memory.nat u3.spad (key + 264) 1 = (if (readEnt s pa n).int then 1 else 0) ∧
        Memory.nat u3.spad (key + 265) 1 = (readEnt s pa n).hgt ∧
        (∀ k < 54, Memory.read u3.spad (key + 266 + k) = 0) ∧
        ∀ k, (k < key ∨ key + 320 ≤ k) → Memory.read u3.spad k = Memory.read s.spad k))
    ∧ (∀ int ad off l pa,
      let i := Instr.slput int d ad
      let e := firstEnv s c t w i
      let va := eaE s t ad
      let line := Memory.readN s.spad (spadKey t.o t.core off) 256
      let word := 0x007F007F007F007F
      let name := sealh w line word * 16
      let r := reqFor e (.slput int line word d) (BitVec.ofNat 64 (setVa w (setOfName w name))) (.mem l pa) 256 none none
      Issues s c t w i 0 → SetLine s e .atomic name l pa → owner? s t.o = some w →
      check e.s w t .ld .load va 256 256 = .ok (.spad t.core off) → pendingOn e (.scratch t.o t.core) [(off, 256)] = false →
      markIn e.s (.spad t.o t.core off) 256 = 0 → Travels s c t w i r →
      ∀ v x, slPut (asked s c t w i r) w t.o int line word = .ok v x →
      Trip s c t w i r (fun u2 u3 wx => wx = Wr.ofG d (BitVec.ofNat 64 x) ∧ u2.mem = v.mem ∧ u2.tags = v.tags ∧ u3.mem = v.mem))
    ∧ (∀ int ad off l pa n pa2 l2,
      let i := Instr.slput int d ad
      let e := firstEnv s c t w i
      let va := eaE s t ad
      let key := spadKey t.o t.core off
      let line := Memory.readN s.spad key 256
      let word := 0x007F007F007F007F
      let h := sealh w line word
      let r := reqFor e (.slput int line word d) (BitVec.ofNat 64 (setVa w (setOfName w (h * 16)))) (.mem l pa) 256 none none
      let kin := fun k : Nat => (readEnt s pa k).name / 16 = h ∧ (readEnt s pa k).int = int
      Issues s c t w i 0 → SetLine s e .atomic (h * 16) l pa → owner? s t.o = some w →
      check e.s w t .ld .load va 256 256 = .ok (.spad t.core off) → pendingOn e (.scratch t.o t.core) [(off, 256)] = false →
      markIn e.s (.spad t.o t.core off) 256 = 0 → Travels s c t w i r →
      (int = true → ∀ k < 32, Memory.nat s.spad (key + 8 * k) 8 = 0) →
      sealTrans s w (setVa w (setOfName w (h * 16)) + 256 * (1 + n)) .atomic true = .ok (.mem l2 pa2) →
      n < 16 → pa2 % 256 = 0 → apart pa 256 pa2 256 →
      ((readEnt s pa n).live = true → kin n → (∀ k < n, (readEnt s pa k).live = true → ¬ kin k) →
        (readEnt s pa n).cnt < 0xFFFFFFFF → Memory.readN s.mem pa2 256 = line → descWord s pa2 = word →
        sealH w line word % 2 ^ 48 = getD 0 s.tags (pa2 / 256) → markIn s (.mem pa2) 256 = 0 →
        Trip s c t w i r (fun u2 u3 wx => wx = Wr.ofG d (BitVec.ofNat 64 (readEnt s pa n).name) ∧ u3.mem = u2.mem ∧
          SetsEntry s u2 pa n { readEnt s pa n with cnt := (readEnt s pa n).cnt + 1 }))
      ∧ (∀ code < 16, (∀ k < 16, (readEnt s pa k).live = true → ¬ kin k) →
        (readEnt s pa n).live = false → (readEnt s pa n).recl = false →
        (∀ k < n, (readEnt s pa k).live = true ∨ (readEnt s pa k).recl = true) →
        let taken := fun q : Nat => (h = 0 ∧ q = 0) ∨ ∃ k < 16, ((readEnt s pa k).live = true ∨ (readEnt s pa k).recl = true)
          ∧ (readEnt s pa k).name = h * 16 + q
        ¬ taken code → (∀ q < code, taken q) →
        Trip s c t w i r (fun u2 u3 wx => wx = Wr.ofG d (BitVec.ofNat 64 (h * 16 + code)) ∧ u3.mem = u2.mem ∧
          readEnt u2 pa n = ⟨h * 16 + code, 1, true, false, int, if int then 1 else 0, 0⟩ ∧
          Memory.readN u2.mem pa2 256 = line ∧ descWord u2 pa2 = word ∧
          getD 0 u2.tags (pa2 / 256) = sealH w line word % 2 ^ 48 ∧
          ∀ a, ¬ (pa + 16 * n ≤ a ∧ a < pa + 16 * n + 16) → ¬ (pa2 ≤ a ∧ a < pa2 + 256) →
            Memory.read u2.mem a = Memory.read s.mem a)))
    ∧ (∀ ad b l pa,
      let i := Instr.slswap d ad b
      let e := firstEnv s c t w i
      let va := eaE s t ad
      let exp := readG s t d
      let new := readG s t b
      let r := reqFor e (.slswap exp new d) va (.mem l pa) 8 (some .pkg) (some .pkg)
      Issues s c t w i 0 → w.sen = true → owner? s t.o = some w → check e.s w t .obj .atomic va 8 8 = .ok (.mem l pa) →
      Travels s c t w i r →
      (∀ v x, slSwap (asked s c t w i r) w r exp new = .ok v x →
        Trip s c t w i r (fun u2 u3 wx => wx = { Wr.ofG d (BitVec.ofNat 64 x) with acq := some .pkg } ∧ u2.mem = v.mem ∧
          u3.mem = v.mem))
      ∧ (new = 0 → markIn s (.mem pa) 8 = 0 → Memory.nat s.mem pa 8 ≠ exp.toNat →
        Trip s c t w i r (fun u2 u3 wx => KeepsBytes s u2 ∧ u3.mem = s.mem ∧
          wx = { Wr.ofG d (BitVec.ofNat 64 (Memory.nat s.mem pa 8)) with acq := some .pkg }))
      ∧ (markIn s (.mem pa) 8 = 0 → Memory.nat s.mem pa 8 = exp.toNat → new ≠ exp →
        ∀ pa1 n1 pa2 n2, (new ≠ 0 → Named s w new.toNat pa1 n1 ∧ (readEnt s pa1 n1).cnt < 0xFFFFFFFF ∧ apart pa 8 pa1 256) →
        (exp ≠ 0 → Named s w exp.toNat pa2 n2 ∧ apart pa 8 pa2 256) →
        (new ≠ 0 → exp ≠ 0 → pa1 = pa2 ∨ apart pa1 256 pa2 256) →
        Trip s c t w i r (fun u2 u3 wx => wx = { Wr.ofG d exp with acq := some .pkg } ∧ u3.mem = u2.mem ∧
          Memory.nat u2.mem pa 8 = new.toNat ∧
          (new ≠ 0 → readEnt u2 pa1 n1 = { readEnt s pa1 n1 with cnt := (readEnt s pa1 n1).cnt + 1 }) ∧
          (exp ≠ 0 → readEnt u2 pa2 n2 = unrefd (readEnt s pa2 n2)) ∧
          ∀ a, ¬ (pa ≤ a ∧ a < pa + 8) → ¬ (new ≠ 0 ∧ pa1 + 16 * n1 ≤ a ∧ a < pa1 + 16 * n1 + 16) →
            ¬ (exp ≠ 0 ∧ pa2 + 16 * n2 ≤ a ∧ a < pa2 + 16 * n2 + 16) → Memory.read u2.mem a = Memory.read s.mem a)))
    ∧ (∀ ad off,
      let i := Instr.slhash d ad
      let e := firstEnv s c t w i
      let line := Memory.readN s.spad (spadKey t.o t.core off) 256
      Issues s c t w i 0 → check e.s w t .ld .load (eaE s t ad) 256 256 = .ok (.spad t.core off) →
      pendingOn e (.scratch t.o t.core) [(off, 256)] = false → markIn e.s (.spad t.o t.core off) 256 = 0 →
      exec i s = .next (doneWith s c t w i (Wr.ofG d (BitVec.ofNat 64 (sealh w line 0x007F007F007F007F * 16)))))

/-- R28, R29, R406 and R407: LKSEND sends a message once its credit is there, LKRECV takes a whole message into its
buffer, LKRED waits and ends with its result written and an acquire at .sys; LKF with its reasons 0, 2, 3 and 4, after
which a group that the operation would have opened is not open. It takes the model's readings of logs 45 and 55. -/
def Obligations.LinkOperations : Prop :=
  ∀ (s : State) (c : Cur) (t : Thread) (w : Owner) (d : GReg) (ad : EAddr) (off : Nat) (x : LkBlock) (g : Group),
    let va := eaE s t ad
    let lkf := fun (i : Instr) (s1 : State) (reason : Nat) => takeTrap (linkTrapped (firstEnv s c t w i).s s1 t.o g) c.o c.tid
      { mkTrap 0x16 (g.group + reason * 65536) 0 with pos := BitVec.ofNat 64 x.step } c.pc (some (lenBits c.len)) false false
    (let i := Instr.lksend d ad
     let e := firstEnv s c t w i
     let s1 := openGroup e.s t.o g
     Issues s c t w i 0 →
     (releaseNow e.s t .sys = false → exec i s = .next (putWait e.s c .release none))
     ∧ (releaseNow e.s t .sys = true → BlockTraps s c t w i va)
     ∧ (releaseNow e.s t .sys = true → LinkBlock e va off x g false → ∀ bs, lkRead s1 w (x.len / 64) x.buf = .inr bs →
        (∀ n, linkRefused s1 e g 0 x.peer x.step = some n → exec i s = .next (lkf i s1 n))
        ∧ (linkRefused s1 e g 0 x.peer x.step = none →
          (hasCredit s1 t.o g x.peer x.step = true →
            exec i s = .next (retiresTo s c t w i (sendNow s1 t.o t.tid g x.peer x.step bs) (Wr.ofG d 0)))
          ∧ (hasCredit s1 t.o g x.peer x.step = false → exec i s = .next (putWait s1 c
              (.linkSend g.group x.peer x.step (BitVec.ofNat 64 x.buf) x.len) (some (bundleOf (bare s) c t w i)))))))
    ∧ (let i := Instr.lkrecv d ad
       let e := firstEnv s c t w i
       let s1 := openGroup e.s t.o g
       BlockTraps s c t w i va ∧ (Issues s c t w i 0 → LinkBlock e va off x g false →
       lkWritable s1 w (x.len / 64) x.buf = none →
        (∀ n, linkRefused s1 e g 1 x.peer x.step = some n → exec i s = .next (lkf i s1 n))
        ∧ (linkRefused s1 e g 1 x.peer x.step = none →
          (wholeMsg s1 t.o g.group x.peer x.step = none → exec i s = .next (putWait s1 c
            (.linkRecv g.group x.peer x.step (BitVec.ofNat 64 x.buf) x.len) (some (bundleOf (bare s) c t w i))))
          ∧ ∀ fmt bs, wholeMsg s1 t.o g.group x.peer x.step = some (fmt, bs) →
            (fmt ≠ 0 ∨ x.len < bs.length → exec i s = .next (lkf i s1 4))
            ∧ (fmt = 0 → bs.length ≤ x.len → lkWritable s1 w ((bs.length + 63) / 64) x.buf = none →
              exec i s = .next (retiresTo s c t w i
                (useStep (consumeStep (lkWrite w t.o (bs.length / 64) x.buf bs s1) t.o g x.peer x.step)
                  t.o g.group 1 x.peer x.step)
                { Wr.ofG d (BitVec.ofNat 64 bs.length) with acq := some .sys })))))
    ∧ (let i := Instr.lkred d ad
       let e := firstEnv s c t w i
       let s1 := openGroup e.s t.o g
       Issues s c t w i 0 → releaseNow e.s t .sys = true → LinkBlock e va off x g true →
       ∀ bs, lkRead s1 w (x.len / 64) x.buf = .inr bs → lkWritable s1 w (x.len / 64) x.dva = none →
       ((g.failed = true ∨ ∃ p ∈ redPeers g, (portAt s1 (peerPort g p)).down = true) → exec i s = .next (lkf i s1 0)) ∧
       (g.failed = false → (redPeers g).all (fun p => !(portAt s1 (peerPort g p)).down) = true → g.used.all (fun u => u.2.2 != x.step) = true →
       s1.reduces.all (fun r => !(r.o == t.o && r.group == g.group && r.step == x.step)) = true →
       (∀ t' ∈ threadsOf s t.o, ∀ gr p st buf n, t'.status ≠ .waiting (.linkSend gr p st buf n)
          ∧ t'.status ≠ .waiting (.linkRecv gr p st buf n)) →
       let r : Reduce := ⟨t.o, t.tid, g.group, x.step, vtypeCode x.ty, x.op, redFmt x.ty, BitVec.ofNat 64 x.dva, bs, [], false,
         none, none⟩
       let u := putWait { s1 with reduces := s1.reduces ++ [r] } c (.linkRed g.group x.step)
         (some (bundleOf (bare s) c t w i))
       exec i s = .next u
       ∧ (c.o = t.o → c.tid = t.tid → stopped u t.o = false → t.mig = none → t.async = [] → groupAt u t.o g.group = some g →
          owner? u t.o = some w →
          let p := redStep u g r
          let u' := { p.1 with reduces := p.1.reduces.map (fun y => if y.o = r.o ∧ y.group = g.group ∧ y.step = x.step then p.2 else y) }
          ∀ v, redEnd u' w g p.2 = .inr (some v) → settleThread u (thrKey t.o t.tid)
            = finishWait (dropReduce v t.o g.group x.step) t.o t.tid { Wr.ofG d 0 with acq := some .sys })))

/-! ## The host and its commands -/

/-- R32, R33, R35, R46 and R411: writes to the register window, enabling and disabling the command ring, a write to NOTIFY
with one entry to take, and host accesses inside one 64-byte block. A block of a launched owner's closed extent, of a hole
or of the reserved range answers a read with poison and drops a write, with a record while no record waits for the ring;
any other block is read and written, a whole-block write taking its mark away, and a read rewrites a corrected line of a
stack. A host snoop takes the sector out of every L1. It takes the model's readings of logs 17, a block that a save image
still covers, and 90, the octets that wake. -/
def Obligations.HostInterface : Prop :=
  (∀ (s : State) (v : Word), powered s = true →
    (∀ off, off ∉ [0x008, 0x010, 0x018, 0x028, 0x030] → exec (.registerWrite off v) s = .next s)
    ∧ (s.cqen = false → exec (.registerWrite 0x008 v) s = .next { s with cqbase := (v.extractLsb' 16 36).toNat * 65536 })
    ∧ (s.cqen = true → exec (.registerWrite 0x008 v) s = .next s)
    ∧ (s.cqen = true → v.getLsbD 0 = true → exec (.registerWrite 0x010 v) s = .next { s with cqirq := v.getLsbD 8 })
    ∧ (s.cqen = false → v.getLsbD 0 = false → exec (.registerWrite 0x010 v) s = .next { s with
        cqirq := v.getLsbD 8, cqsize := (v.extractLsb' 1 4).toNat })
    ∧ exec (.registerWrite 0x018 v) s = .next { s with cqtail := (v.extractLsb' 0 12).toNat }
    ∧ exec (.registerWrite 0x028 v) s = exec .doorbell s
    ∧ exec (.registerWrite 0x030 v) s = .next { s with badEntry := s.badEntry && !v.getLsbD 0,
                                                       baseFault := s.baseFault && !v.getLsbD 1,
                                                       badSize := s.badSize && !v.getLsbD 2 }
    ∧ ∃ q, exec .ringDisable s = .next { s with cqen := false, asleep := q } ∧ ∀ x ∈ s.asleep, x ∈ q)
  ∧ (∀ s : State, powered s = true → s.cqen = false → s.cqbase % 65536 = 0 →
      let n := 2 ^ s.cqsize * 64
      ((s.cqsize < 4 ∨ 12 < s.cqsize) → exec .ringEnable s = .next { s with badSize := true })
      ∧ (4 ≤ s.cqsize → s.cqsize ≤ 12 →
        ((∃ pa, s.cqbase ≤ pa ∧ pa < s.cqbase + n ∧ (rangeOf pa = .hole ∨ rangeOf pa = .reserved)) →
          exec .ringEnable s = .next { s with baseFault := true })
        ∧ ((∃ p ∈ s.owners, ∃ e ∈ p.2.extents, ∃ pa, s.cqbase ≤ pa ∧ pa < s.cqbase + n ∧ e.has pa = true) →
          exec .ringEnable s = .next { s with baseFault := true })
        ∧ ((∀ pa, s.cqbase ≤ pa → pa < s.cqbase + n → (rangeOf pa = .hbm ∨ rangeOf pa = .host)
              ∧ ∀ p ∈ s.owners, ∀ e ∈ p.2.extents, e.has pa = false) →
          ∃ q, exec .ringEnable s = .next { s with cqen := true, cqhead := 0, asleep := q } ∧ ∀ x ∈ q, x ∈ s.asleep)))
  ∧ (∀ s : State, s.cqen = true → accepting s = true → 1 ≤ s.cqsize →
      s.cqtail % 2 ^ s.cqsize = (s.cqhead + 1) % 2 ^ s.cqsize →
      let pa := s.cqbase + 64 * s.cqhead
      let fld := fun (off n : Nat) => Memory.nat s.mem (pa + off) n
      (fld 2 2 ≠ 0 → exec .doorbell s = .next { s with cqhead := (s.cqhead + 1) % 2 ^ s.cqsize, badEntry := true })
      ∧ (fld 2 2 = 0 → ∃ c : Cmd, exec .doorbell s = .next { s with cqhead := (s.cqhead + 1) % 2 ^ s.cqsize,
                                                                    cmds := s.cmds ++ [c], nextId := s.nextId + 1 } ∧
          c.n = s.nextId ∧ c.entry = pa ∧ c.op = fld 0 1 ∧ c.flags = fld 1 1 ∧ c.owner = fld 4 4 ∧ c.a0 = fld 8 8 ∧
          c.a1 = fld 16 8 ∧ c.a2 = fld 24 8 ∧
          c.phase = if 1 ≤ fld 0 1 ∧ fld 0 1 ≤ 8 ∧ fld 1 1 < 4 ∧ fld 40 8 = 0 ∧ fld 48 8 = 0 ∧ fld 56 8 = 0 then .taken
            else .done 0x0002 0))
  ∧ (∀ (s : State) (pa n : Nat) (bs : List Byte), powered s = true → 0 < n → pa % 64 + n ≤ 64 → bs.length = n →
    let hole := rangeOf pa = .hole ∨ rangeOf pa = .reserved
    let opened := (rangeOf pa = .hbm ∨ rangeOf pa = .host) ∧
      ∀ p ∈ s.owners, ∀ e ∈ p.2.extents, e.has pa = true → p.2.placed = false ∨ p.2.launched = false ∨ e.host = true
    (∃ q fl, exec (.hostMemRead pa n) s = .next { s with
        asleep := q, flips := fl, hostAns := s.hostAns ++ [⟨pa, if judge s pa = .open_ ∧ markAt s (.mem pa) = 0
          then (bytesNow s pa n).map some else List.replicate n none⟩] } ∧
        (∀ x ∈ q, x ∈ s.asleep ∧ x ≠ octetOf pa) ∧
        ∀ x, x ∈ fl ↔ x ∈ s.flips ∧ ∀ a, x = .hbm a → a / 64 = pa / 64 → judge s a ≠ .open_)
    ∧ (coverOf s pa = none → bytesNow s pa n = Memory.readN s.mem pa n)
    ∧ (∀ im die blk, coverOf s pa = some (im, die, blk) → bytesNow s pa n = ((imageBlock im die blk).drop (pa % 64)).take n)
    ∧ (opened → judge s pa = .open_)
    ∧ (hole → judge s pa = .hole)
    ∧ (¬ hole → ∀ o w e, extentOwner s pa = some (o, w, e) → w.placed = true → w.launched = true → e.host = false →
        judge s pa = .closed o)
    ∧ (opened → ∃ u, exec (.hostMemWrite pa bs) s = .next u ∧ Memory.readN u.mem pa n = bs ∧
        (coverOf s pa = none → ∀ a, (a < pa ∨ pa + n ≤ a) → Memory.read u.mem a = Memory.read s.mem a) ∧
        (∀ b, getD 0 u.poison b = if b = pa / 64 ∧ n = 64 then 0 else getD 0 s.poison b) ∧
        u.desc = s.desc ∧ u.fe = s.fe ∧ u.tags = s.tags ∧ u.threads = s.threads ∧ u.log = s.log)
    ∧ (judge s pa ≠ .open_ → s.log.length < logSize → s.logWait = [] → ∃ u r, exec (.hostMemWrite pa bs) s = .next u ∧ u.mem = s.mem ∧
        u.poison = s.poison ∧ u.threads = s.threads ∧ u.log = s.log ++ [r] ∧ r.kind = 6 ∧ r.addr = pa / 64 * 64 ∧
        ∀ o, judge s pa = .closed o → r.owner = o))
  ∧ ∀ (s : State) (line : Nat), ∃ u, exec (.hostSnoop line) s = .next u ∧
      (∀ p ∈ u.cores, ∀ l ∈ p.2.l1, l.line = line / 4 → ∀ x ∈ l.secs, x.1 ≠ line % 4) ∧
      u.mem = s.mem ∧ u.spad = s.spad ∧ u.threads = s.threads ∧ u.owners = s.owners

/-- R35 to R37, R45, R48, R68, R70 to R72, R80 and R409: what each command does when it starts, the codes that refuse
it, and its end. It takes the model's readings of logs 65, 83, 84 and 90. -/
def Obligations.HostCommands : Prop :=
  (∀ (s : State) (c : Cmd) (status result : Nat),
    let u := finish s c status result
    Memory.nat u.mem (c.entry + 32) 8 = result % 2 ^ 64 ∧ Memory.nat u.mem (c.entry + 2) 2 = status % 65536
    ∧ (∀ a, (a < c.entry + 2 ∨ c.entry + 4 ≤ a) → (a < c.entry + 32 ∨ c.entry + 40 ≤ a) →
        Memory.read u.mem a = Memory.read s.mem a)
    ∧ u.cmds = s.cmds.filter (·.n != c.n)
    ∧ u.msix = (if c.flags % 2 = 1 ∧ s.cqirq = true then s.msix + 1 else s.msix))
  ∧ ∀ (s : State) (n : Nat) (c : Cmd),
    (cmdNow s n 1 = some c → paused s = false → c.a1 = 0 → c.a2 = 0 → c.held = none →
      let rest := fun (u : State) => restOctets u [(c.a0, 768)]
      (c.a0 % 256 ≠ 0 ∨ inHbm c.a0 768 = false → exec (.create n) s = .next (finish (rest s) c 0x0003 0))
      ∧ (c.a0 % 256 = 0 → inHbm c.a0 768 = true →
        let s1 := wakeOctets s c.a0 768
        let b := Memory.readN s.mem c.a0 768
        let rg := Memory.readN s.mem (fieldOf b 0 8 + 0x800) 64
        let apart := ∀ e ∈ ocbExtents b, ∀ r ∈ liveExtents s none ++ ringRange s ++ areasInUse s,
          meets (e.base, e.len * 65536) r = false
        (ocbOk b = false ∨ regionOk rg = false → exec (.create n) s = .next (finish (rest s1) c 0x0003 0))
        ∧ (ocbOk b = true → regionOk rg = true →
          ((∃ p ∈ posMask b, posFree s p = false) → exec (.create n) s = .next (finish (rest s1) c 0x0007 0))
          ∧ ((∀ p ∈ posMask b, posFree s p = true) → ¬ apart → exec (.create n) s = .next (finish (rest s1) c 0x0004 0))
          ∧ ((∀ p ∈ posMask b, posFree s p = true) → apart → lowestFree s = none →
              exec (.create n) s = .next (finish (rest s1) c 0x0006 0))
          ∧ (∀ o, (∀ p ∈ posMask b, posFree s p = true) → apart → lowestFree s = some o →
              ∃ u, exec (.create n) s = .next (finish u c 0x0001 o) ∧ (s.images = [] → u.mem = s.mem) ∧
                (s.images = [] → owner? u o = some { ownerOf c.a0 b rg (posMask b) with balanceAt := s.balanceAt }) ∧ (∀ q, q ≠ o → owner? u q = owner? s q) ∧
                (∀ k p, (posMask b)[k]? = some p → (posAt u p.1 p.2).own = some o ∧ (posAt u p.1 p.2).lcl = k) ∧
                (∀ j < 8 * (posMask b).length, core? u o j = some { Core.zeroed with epochs := epochsFrom [] s.epochTop }) ∧
                ∀ k < (posMask b).length, clus? u o k = some Cluster.zeroed))))
    ∧ (cmdNow s n 2 = some c → c.a0 = 0 → c.a1 = 0 → c.a2 = 0 →
      (owner? s c.owner = none → exec (.destroy n) s = .next (finish s c 0x0005 0))
      ∧ ∀ w, owner? s c.owner = some w → beforeSwap s = false → logFull s = false → w.saving = false →
        (w.placed = false → exec (.destroy n) s = .next (finish (destroyNow s c.owner w) c 0x0001 0))
        ∧ (w.placed = true → w.killed = false → ∃ u w', exec (.destroy n) s = .next u ∧ u.mem = s.mem ∧
            owner? u c.owner = some w' ∧ w'.killed = true ∧ w'.killAt = s.fab ∧
            ∀ t ∈ threadsOf u c.owner, t.status = .dying))
    ∧ (∀ (o : Nat) (w : Owner), (∀ e ∈ w.extents, e.base % 65536 = 0) →
        let u := destroyNow s o w
        owner? u o = none ∧ ∀ e ∈ w.extents, ∀ a, e.base ≤ a → a < e.base + e.len * 65536 →
          Memory.read u.mem a = 0 ∧ getD descDefault u.desc (a / 64) = 0x7F ∧ getD false u.fe (a / 16) = false
          ∧ getD 0 u.tags (a / 256) = 0 ∧ getD 0 u.poison (a / 64) = 0)
    ∧ (cmdNow s n 3 = some c → ∀ w, owner? s c.owner = some w →
      (w.placed = false ∨ w.killed = true → exec (.launch n) s = .next (finish s c 0x0006 0))
      ∧ (w.placed = true → w.killed = false → stopped s c.owner = false →
        (∀ s1 id, launchIn s c.owner w c.a0 (BitVec.ofNat 64 c.a1) (BitVec.ofNat 64 c.a2) = (s1, .inl id) →
          ∃ u, exec (.launch n) s = .next (finish u c 0x0001 id) ∧ u.threads = s1.threads ∧ u.launches = s1.launches)
        ∧ (∀ s1 code, launchIn s c.owner w c.a0 (BitVec.ofNat 64 c.a1) (BitVec.ofNat 64 c.a2) = (s1, .inr code) →
          exec (.launch n) s = .next (finish s1 c code 0))))
    ∧ (∀ (op : Nat) (i : Instr), (op, i) = (4, Instr.preempt n) ∧ c.a2 = 0 ∨ (op, i) = (5, Instr.save n) ∧ c.a2 ≤ 1 →
      cmdNow s n op = some c → c.all = false → (owner? s c.owner).isSome = true → saveWaits s [c.owner] = false →
      (∀ code, saveRefused s [c.owner] c.a0 c.a1 = some code → exec i s = .next (finish s c code 0))
      ∧ (saveRefused s [c.owner] c.a0 c.a1 = none → ∃ u w', exec i s = .next u ∧ u.mem = s.mem ∧
          u.saves = s.saves ++ [⟨some c.n, [c.owner], c.a0, c.a1, op = 4 ∨ c.a2 = 1, false, false, false, s.fab + 140000, false⟩] ∧
          owner? u c.owner = some w' ∧ w'.saving = true ∧ w'.warn = true))
    ∧ (cmdNow s n 5 = some c → c.all = false → (owner? s c.owner).isSome = true → c.a2 < 2 ^ 32 →
      (c.a2 % 65536 = 2 →
        (∀ code, saveRefused s [c.owner] c.a0 c.a1 = some code → exec (.saveArm n) s = .next (finish s c code 0))
        ∧ (saveRefused s [c.owner] c.a0 c.a1 = none → ∃ u w', exec (.saveArm n) s = .next (finish u c 0x0001 0) ∧
            u.mem = s.mem ∧ owner? u c.owner = some w' ∧ w'.standing = some ⟨c.a0, c.a1, c.a2 / 65536⟩))
      ∧ (c.a2 % 65536 = 4 → ∃ u w', exec (.saveDisarm n) s = .next (finish u c 0x0001 0) ∧ u.mem = s.mem ∧
          owner? u c.owner = some w' ∧ w'.standing = none))
    ∧ (cmdNow s n 6 = some c → c.a2 = 0 → paused s = false →
      (∀ code, restoreRefused s c = some code → code ≠ 0x0009 → exec (.restore n) s = .next (finish s c code 0))
      ∧ (restoreRefused s c = none → c.all = false → ∀ im, anyImage s c.a0 c.a1 = some im → ∃ u,
          exec (.restore n) s = .next u ∧ u.mem = s.mem ∧
          u.saves = s.saves ++ [⟨some c.n, (im.snaps.filter (·.o == c.owner)).map (·.o), c.a0, c.a1, false, true, false, true,
            s.fab, false⟩]))
    ∧ (cmdNow s n 7 = some c → c.owner = 0xFFFFFFFF → c.a0 ≤ 7 → c.a1 ∈ [1, 2, 3, 4, 6, 12] → c.a2 = s.period → c.a2 ≤ 10 →
      paused s = false →
      (dieHeld s c.a0 = true → exec (.setcirc n) s = .next (finish s c 0x0006 0))
      ∧ (dieHeld s c.a0 = false → ∃ u, exec (.setcirc n) s = .next (finish u c 0x0001 0) ∧ u.mem = s.mem ∧
          u.period = s.period ∧
          ∀ die < 8, ∀ col < 12, posAt u die col = if die = c.a0 then ⟨none, 0, col / c.a1 * c.a1, c.a1, false⟩
            else posAt s die col))
    ∧ (cmdNow s n 8 = some c → c.owner = 0xFFFFFFFF → c.a2 = 0 → c.a1 % 64 = 0 → c.a0 % 64 = 0 →
      bufferOk c.a0 c.a1 = true →
      (∀ r ∈ liveExtents s none ++ ringRange s ++ areasInUse s,
        meets (c.a0, c.a1) r = false) →
      let k := min (c.a1 / 64) s.log.length
      ∃ u, exec (.readlog n) s = .next (finish u c 0x0001 (64 * k)) ∧
        u.log = s.log.drop k ++ s.logWait.take (logSize - (s.log.length - k)) ∧
        ∀ i < k, ∀ r, s.log[i]? = some r → Memory.readN u.mem (c.a0 + 64 * i) 64 = logBytes r)
    ∧ (∀ status result, s.cmds.find? (·.n == n) = some c → c.phase = .done status result → mayStart s c = true →
        exec (.commandComplete n) s = .next (finish s c status result))

/-! ## Rotations -/

/-- R49, R56 to R61 and R63: the phases of a skim pause, each with what it waits for and what it does. A slot writes in
each column the chunk that its receive buffer holds, no chunk before it has been sent, and after a circuit's slots every
chunk is the predecessor's (R59). It takes the model's readings of logs 66 and 75. -/
def Obligations.Rotation : Prop :=
  ∀ s : State,
    (s.power = .ready → s.trowel = .run → s.nextT ≤ s.fab + 140000 → exec .warn s = .next { s with trowel := .warn })
    ∧ (s.trowel = .warn → s.nextT ≤ s.fab →
      (s.saves = [] → s.deferred = [] → ∃ u, exec .drain s = .next u ∧ u.trowel = .drain ∧ u.since = s.fab ∧ u.slot = 0 ∧
        u.nextT = s.nextT + 2 ^ s.period * 1400000 ∧ u.threads = s.threads ∧
        ((∀ c ∈ s.cmds, c.op ≠ 1) → u.mem = s.mem ∧ u.owners = s.owners ∧ u.table = s.table))
      ∧ (s.saves ≠ [] ∨ s.deferred ≠ [] → exec .drain s = .next { s with
          nextT := s.nextT + 2 ^ s.period * 1400000, deferred := s.deferred ++ [s.nextT] }))
    ∧ (∀ x rest, paused s = false → s.saves = [] → s.deferred = x :: rest → ∃ u, exec .deferredInstant s = .next u ∧
        u.trowel = .drain ∧ u.since = s.fab ∧ u.deferred = rest ∧ u.nextT = s.nextT ∧ u.threads = s.threads ∧
        ((∀ c ∈ s.cmds, c.op ≠ 1) → u.mem = s.mem ∧ u.owners = s.owners ∧ u.table = s.table))
    ∧ (s.trowel = .drain → drained s false (fun _ => true) = true → ∃ u, exec .chunk s = .next u ∧ u.trowel = .chunk ∧
        u.mem = s.mem ∧ u.table = s.table ∧ u.threads = s.threads.map (fun p => (p.1, dropFetched p.2)) ∧
        ∀ p ∈ u.cores, ∀ b ∈ p.2.jobs, b.spec = b.pos)
    ∧ (s.trowel = .drain → drained s false (fun _ => true) = false → s.since + 11200 ≤ s.fab → ∃ u,
        exec .drainTimeout s = .next u ∧ u.trowel = .chunk ∧ u.table = s.table ∧ u.nextT = s.nextT)
    ∧ (streaming s = true → (∃ d < 8, s.slot < dieSlots s d) → ∃ u, exec .streamSlot s = .next u ∧ u.trowel = .stream ∧
        u.slot = s.slot + 1 ∧ u.fab = s.fab + 18 ∧ u.mem = s.mem ∧ u.table = s.table ∧
        (∀ d < 8, dieFailed s d = false → (∀ p ∈ s.done, p.1 ≠ d) → dieSlots s d ≤ s.slot + 1 → (d, s.fab + 18) ∈ u.done) ∧
        ∀ d c m, chunkIn u d c m = (chunkIn s d c m || recvChunk s d c == some m))
    ∧ (∀ d c m, chunkIn s d c m = true → m < s.slot)
    ∧ (∀ d c m, moves s d c = true → m < 924 → circSlots (posAt s d c).clen ≤ s.slot →
        chunkHolder s d c m = (posAt s d (predCol s d c)).own)
    ∧ (∀ die x, streaming s = true → (die, x) ∈ s.done → die ∉ s.flags → s.swapAt = none → ∃ u,
        exec (.doneFlag die) s = .next u ∧ (Config.flagLost s.since die = true → u = s) ∧
        (Config.flagLost s.since die = false → u.flags = die :: s.flags ∧ u.done = s.done ∧
          ((∀ d < 8, d ∈ u.flags ∨ dieFailed s d = true) → ∃ m, u.swapAt = some (m + 256) ∧
            (∀ p ∈ s.done, p.1 ∈ u.flags → p.2 ≤ m) ∧ ∃ p ∈ s.done, p.1 ∈ u.flags ∧ p.2 = m)))
    ∧ (∀ x, streaming s = true → s.swapAt = some x → x ≤ s.fab → ∃ u, exec .swap s = .next u ∧ u.trowel = .resume ∧
        u.mem = s.mem ∧ u.cores = s.cores ∧ u.threads = s.threads ∧
        (∀ die < 8, ∀ col < 12, posAt u die col = if moves s die col = true
          then { posAt s die col with own := (posAt s die (predCol s die col)).own, lcl := (posAt s die (predCol s die col)).lcl }
          else posAt s die col) ∧
        ∀ o w, owner? s o = some w → ∃ w', owner? u o = some w' ∧
          w'.map = w.map.map (fun e => if moves s e.die e.col then { e with col := succCol s e.die e.col } else e))
    ∧ (s.trowel = .resume → ∃ u, exec .resume s = .next u ∧ u.trowel = (if s.deferred = [] then .run else .warn) ∧
        u.mem = s.mem ∧ u.threads = s.threads.map (fun p => (p.1, { p.2 with walks := [] })) ∧ u.table = s.table ∧
        (∀ o w, owner? s o = some w → owner? u o = some { w with
          gen := if w.placed = true then w.gen + 1 else w.gen, balanceAt := w.balanceAt + (s.fab - s.since) }) ∧
        (∀ p ∈ u.cores, p.2.l1 = [] ∧ p.2.tlb = [] ∧ p.2.tcache = [] ∧ ∀ e ∈ p.2.journal, e.tile = none) ∧
        ∀ p ∈ u.clusters, p.2.tlbMx = [] ∧ p.2.tlbCu = [])
    ∧ (∀ die cstart n, streaming s = true → s.swapAt = none → (die, cstart) ∉ s.failed →
        (circuits s die).find? (·.1 == cstart) = some (cstart, n) → 2 ≤ n → cstart + n ≤ 12 → ∃ u,
        exec (.circuitFailed die cstart) s = .next u ∧ (die, cstart) ∈ u.failed ∧ u.mem = s.mem ∧
        ∀ i < n, (posAt u die (cstart + i)).out = true ∧
          ∀ o w, (posAt s die (cstart + i)).own = some o → owner? s o = some w →
            ∃ w', owner? u o = some w' ∧ w'.killed = true)

/-! ## Saves and power -/

/-- R45, R49, R68, R72 to R75 and R63: the stages of a save, the end of a restore, power, and a failing supply. It
takes the model's readings of logs 64, 67 and 68. -/
def Obligations.SavesAndPower : Prop :=
  ∀ s : State,
    (∀ o w a, owner? s o = some w → w.standing = some a → w.due = true → w.placed = true →
      (∀ x, w.lastAuto = some x → x + 1400000000 ≤ s.fab) → saveWaits s [o] = false → areaOk s [o] a.dirA a.dirB = true →
      ∃ u, exec (.autoSave o) s = .next u ∧
        u.saves = s.saves ++ [⟨none, [o], a.dirA, a.dirB, false, false, false, false, s.fab + 140000, false⟩] ∧
        Memory.nat u.mem a.dirA 4 = (Memory.nat s.mem a.dirA 4 + 1) % 2 ^ 32 ∧
        Memory.nat u.mem a.dirB 4 = (Memory.nat s.mem a.dirB 4 + 1) % 2 ^ 32 ∧
        ∃ w', owner? u o = some w' ∧ w'.due = false ∧ w'.saving = true ∧ w'.lastAuto = some s.fab)
    ∧ (∀ k v, s.saves[k]? = some v → v.restore = false → v.quiet = false → v.til ≤ s.fab →
      let step := if unfrozen s v then v.owners.all (atStep s) else v.step
      drained (freeze { s with saves := s.saves.modify k (fun v => { v with step := step }) } v) true v.owners.contains = true →
      ∃ u, exec (.saveQuiesce k) s = .next u ∧ u.saves[k]? = some { v with quiet := true, step := step } ∧
        Memory.read u.mem (v.dirA + 0x90) = 3 ∧ Memory.read u.mem (v.dirB + 0x90) = 3 ∧
        ∀ o ∈ v.owners, ∀ w, owner? s o = some w → ∃ w', owner? u o = some w' ∧ w'.frozen = true)
    ∧ (∀ k v aOk bOk, s.saves[k]? = some v → v.restore = false → v.quiet = true →
        (∀ o ∈ v.owners, ∃ w, owner? s o = some w ∧ w.killed = false) → ∃ u,
        exec (.saveStreamDone k aOk bOk) s = .next u ∧ u.saves = s.saves.eraseIdx k ∧
        (∀ n, v.cmd = some n → ∀ c ∈ u.cmds, c.n = n →
          c.phase = if aOk || bOk then .done 0x0001 (saveBytes s v.owners) else .done 0x000A 0) ∧
        ∀ o ∈ v.owners, ∀ w, owner? s o = some w → ∃ w', owner? u o = some w' ∧ w'.frozen = false ∧ w'.saving = false ∧
          w'.extents = w.extents ∧ w'.placed = (w.placed && !(v.stop && (aOk || bOk))))
    ∧ (∀ k v im, s.saves[k]? = some v → v.restore = true → anyImage s v.dirA v.dirB = some im →
        (failedLines s v.dirA v.dirB).1 = [] → (im.snaps.map (·.o)).Nodup →
        (∀ o ∈ v.owners, ∀ w, owner? s o = some w → w.killed = false) → ∃ u,
        exec (.restoreStreamDone k) s = .next u ∧ u.saves = s.saves.eraseIdx k ∧
        (∀ n, v.cmd = some n → ∀ c ∈ u.cmds, c.n = n →
          c.phase = .done 0x0001 (if v.device then 0xFFFFFFFF else v.owners.headD 0)) ∧
        ∀ x ∈ im.snaps, x.o ∈ v.owners → (owner? s x.o).isSome = true → ∃ w', owner? u x.o = some w' ∧ w'.placed = true ∧
          w'.frozen = false ∧ w'.map = x.owner.map ∧ w'.extents = x.owner.extents ∧ w'.gen = x.owner.gen)
    ∧ (∃ u, exec .powerLoss s = .next u ∧ u.power = .off ∧ u.owners = [] ∧ u.threads = [] ∧ u.cqen = false ∧
        ∀ a, Memory.read u.mem a = if hostBase ≤ a then Memory.read s.mem a else 0)
    ∧ (s.power = .off → ∃ u, exec .powerUp s = .next u ∧ u.power = .zeroing ∧ u.owners = [] ∧ u.redirects = [] ∧
        (∀ b, getD descDefault u.desc b = 0x7F) ∧
        ∀ a, Memory.read u.mem a = if hostBase ≤ a then Memory.read s.mem a else 0)
    ∧ (s.power = .zeroing → ∃ u, exec .powerUpZeroingDone s = .next u ∧ u.power = .ready ∧ timeNs u = 0 ∧
        u.nextT = s.fab + 2 ^ s.period * 1400000 ∧ u.mem = s.mem ∧ u.redirects = [] ∧ accepting u = true)
    ∧ (∀ die col, accepting s = true → ∃ u, exec (.supplyFault die col) s = .next u ∧ (posAt u die col).out = true ∧
        u.mem = s.mem ∧ ∀ o w, (posAt s die col).own = some o → owner? s o = some w →
          ∃ w', owner? u o = some w' ∧ w'.killed = true)

/-! ## The steward and faults -/

/-- R30, R66, R78, R82 to R94, R112 and R132 to R135: control intervals, governor windows, frame moves, error windows,
single faults, balancing, and the ends of migrations. It takes the model's readings of logs 21, 49, 51,
62, 63, 76 and 85. -/
def Obligations.StewardAndFaults : Prop :=
  ∀ s : State,
    (∀ temps power package, accepting s = true → s.controlAt + 28000 ≤ s.fab → ∃ u,
      exec (.controlInterval temps power package) s = .next u ∧ u.controlAt = s.controlAt + 28000 ∧ u.cap = package.cap.getD s.cap ∧
      (s.hotSeen = false → (∀ t ∈ temps, t.temp < 115) → u.power = s.power ∧ u.hotSeen = false) ∧
      ((s.hotSeen = true ∨ ∃ t ∈ temps, 115 ≤ t.temp) → s.power = .ready →
        (paused s = false → s.saves = [] → u.power = .hot) ∧
        (paused s = true ∨ s.saves ≠ [] → u.power = .ready ∧ u.hotSeen = true)))
    ∧ (∀ o j w c, owner? s o = some w → core? s o j = some c →
      let x := tempAt s (placeOf s o j)
      let u := core? (controlCore s o j) o j
      (w.plumb = true → u = some { c with
        skip := if 100 ≤ x then min 7 (c.skip + 1) else if x ≤ 95 then c.skip - 1 else c.skip })
      ∧ (w.plumb = false → x ≤ 95 → u = some { c with slots := min 64 (c.slots + 1), half := false, floorN := 0 })
      ∧ (w.plumb = false → 95 < x → x < 100 → u = some { c with floorN := 0 })
      ∧ (w.plumb = false → 100 ≤ x → c.slots ≤ 8 → u = some { c with floorN := c.floorN + 1 })
      ∧ (w.plumb = false → 100 ≤ x → 8 < c.slots → occupant s o j (c.slots - 1) = none →
          slotComing s o j (c.slots - 1) = false → u = some { c with slots := c.slots - 1, half := false }))
    ∧ (∀ die col, let p : Place := ⟨die, col, 0, false⟩
      let e := engineAt s p
      let d := getD slopeReset s.slopes die
      windowOver s p = true → ∃ u, exec (.governorWindow die col) s = .next u ∧ u.mem = s.mem ∧
        (engineAt u p).prev = max e.used (e.prev - d) ∧ (engineAt u p).used = 0 ∧ (engineAt u p).winCyc = 0 ∧
        (engineAt u p).winAt = s.fab ∧ (engineAt u p).budget = e.nextBudget ∧ u.clusters = s.clusters ∧
        (e.prev - d ≤ e.used → u.owners = s.owners ∧ (engineAt u p).payer = none ∧ (engineAt u p).rampAt = none) ∧
        ∀ o w, e.used < e.prev - d → e.payer.or (posAt s die col).own = some o → owner? s o = some w →
          owner? u o = some { w with energy := w.energy + (e.prev - d - e.used) * Config.ballastEnergy die col })
    ∧ (∀ src dst, paused s = false → frameInHbm src = true → frameInHbm dst = true →
        octetOf (src * frameBytes) ≠ octetOf (dst * frameBytes) → frameUsed s src = true → frameUsed s dst = false →
        frameTaken s dst = false → (∀ m ∈ s.moves, m.src ≠ src) → ∃ u, exec (.frameMove src dst) s = .next u ∧
        u.moves = s.moves ++ [⟨src, dst, 0⟩] ∧ u.mem = s.mem)
    ∧ (∀ src m, paused s = false → s.moves.find? (·.src == src) = some m → ∃ u, exec (.frameLineMove src) s = .next u ∧
        u.mem = s.mem ∧
        (m.next + 1 < 8192 → u.redirects = s.redirects ∧ u.moves.find? (·.src == src) = some { m with next := m.next + 1 }) ∧
        (8192 ≤ m.next + 1 → lookup u.redirects src = some m.dst ∧ ∀ x ∈ u.moves, x.src ≠ src))
    ∧ (accepting s = true → s.errAt + 140000000 ≤ s.fab → ∃ u, exec .errorRateWindow s = .next u ∧
        u.errAt = s.errAt + 140000000 ∧ (∀ e ∈ u.errs, e.count = 0) ∧ u.mem = s.mem)
    ∧ (∀ e o w, e.last = none → owner? s o = some w → concerns w e = true → limitOf w e.kind < e.count * 10 →
        ∃ w', owner? (windowOf1 s e) o = some w' ∧ w'.adv = min 0xFFFF (w.adv + 1) ∧ w'.advSrc = e.kind + 1 ∧
          w'.due = w.standing.isSome)
    ∧ (s.patrolAt + 22400000 ≤ s.fab → ∃ u, exec .patrolScrub s = .next u ∧ u.patrolAt = s.patrolAt + 22400000 ∧
        u.mem = s.mem ∧ ∀ p ∈ u.flips, ∃ pa, p = .hbm pa)
    ∧ (∀ p, (faultSite s p).isSome = true → lasting p = true → (∀ pa, p = .hbm pa → pa % 64 = 0) → p ∉ s.flips → ∃ u, exec (.singleFault p) s = .next u ∧ u.flips = p :: s.flips ∧
        u.mem = s.mem ∧ u.threads = s.threads ∧ u.poison = s.poison ∧ u.spadPz = s.spadPz)
    ∧ (∀ o j b, (core? s o j).isSome = true → FaultPlace.tileBlock o j b ∈ s.flips → ∃ u, exec (.singleFault (.tileBlock o j b)) s = .next u ∧
        markAt u (.spad o j (64 * b)) = 3 ∧ u.mem = s.mem ∧ u.spad = s.spad)
    ∧ (∀ pa, rangeOf pa = .hbm → ∃ u, exec (.singleFault (.hbm pa)) s = .next u ∧ u.mem = s.mem ∧
        (FaultPlace.hbm (pa / 64 * 64) ∈ s.flips → markAt u (.mem pa) = 1) ∧
        (FaultPlace.hbm (pa / 64 * 64) ∉ s.flips → u.flips = .hbm (pa / 64 * 64) :: s.flips ∧ u.poison = s.poison))
    ∧ (paused s = false → s.balanceAt + 4096 ≤ s.fab → ∃ u, exec .balancingInterval s = .next u ∧
        u.balanceAt = s.balanceAt + 4096)
    ∧ (∀ o w j k es c', shipment s o w j = some (k, es, c') → k ∈ neighbours w j ∧ ∃ c x, core? s o j = some c ∧
        core? s o k = some x ∧ loadOf x + 2 ≤ loadOf c ∧ es.length ≤ 32 ∧ es.length ≤ (loadOf c - loadOf x) / 2 ∧
        ∀ k' ∈ neighbours w j, ∀ y, core? s o k' = some y → loadOf x ≤ loadOf y)
    ∧ (∀ o tid t j sl gb vb, thr? s o tid = some t → t.o = o → t.tid = tid → t.mig = some (j, sl, gb, vb) →
        paused s = false → mayMove s o tid = true → ∃ u t', exec (.threadMigrationDone o tid) s = .next u ∧
        thr? u o tid = some t' ∧ t'.core = j ∧ t'.slot = sl ∧ t'.gbase = gb ∧ t'.vbase = vb ∧ t'.mig = none ∧
        t'.pc = t.pc ∧ t'.status = t.status ∧ t'.masks = t.masks ∧ u.mem = s.mem ∧ u.spad = s.spad ∧
        (∀ r : GReg, r.toNat < t.gsize → readG u t' r = readG s t r) ∧
        ∀ r : VReg, r.toNat < t.vsize → readV u t' r = readV s t r)
    ∧ (∀ o j k w a b, owner? s o = some w → partnerOf w j = some k → w.map[j]? = some a →
        w.map[k]? = some b → a.mv = true → ∃ u w', exec (.coreMigrationDone o j) s = .next u ∧ owner? u o = some w' ∧
        w'.map = (w.map.set j { b with mv := false }).set k { a with mv := false } ∧ u.mem = s.mem ∧ u.threads = s.threads ∧
        ∀ c, core? s o j = some c → j ≠ k → ∃ c', core? u o j = some c' ∧ c'.l1 = [] ∧
          ⟨k, s.fab + 1400000⟩ ∈ c'.forwards)
    ∧ (∀ o j c, core? s o j = some c → ∃ u, exec (.forwardExpiry o j) s = .next u ∧ u.mem = s.mem ∧
        core? u o j = some { c with forwards := c.forwards.filter (fun f => s.fab < f.til) })
    ∧ (∀ o j w c q rest, owner? s o = some w → core? s o j = some c → c.reclaim = q :: rest → stopped s o = false →
        (placeOf s o j).mv = false →
        (q.begun = false → ∃ u, exec (.reclaimWalk o j) s = .next u ∧ u.mem = s.mem ∧
          core? u o j = some { c with reclaim := { q with begun := true } :: rest })
        ∧ (q.begun = true → ∀ u,
          (reclaimStep s w o q = (u, true) → exec (.reclaimChildAck o j) s = .next u)
          ∧ (reclaimStep s w o q = (u, false) → ∃ u', exec (.reclaimChildAck o j) s = .next u' ∧ u'.mem = u.mem ∧
              ∀ c', core? u' o j = some c' → ∀ x ∈ c'.reclaim, x.set = q.set → x.ent ≠ q.ent)))
    ∧ (∀ o j w c, owner? s o = some w → core? s o j = some c → c.reclaim = [] → c.scan = true → stopped s o = false →
        (placeOf s o j).mv = false → ∃ u, exec (.reclaimWalk o j) s = .next u ∧ u.mem = s.mem ∧
          core? u o j = some { c with reclaim := scanFound s w j, scan := false })

/-! ## Waits, traps and kills -/

/-- R79, R108, R123 to R125, R152 and R333: the end of a translation walk, a wait limit, the four actions on a trap,
and the end of a kill drain. It takes the model's readings of logs 57 and 60. -/
def Obligations.ThreadEvents : Prop :=
  ∀ s : State,
    (∀ n k w, s.walks.find? (·.id == n) = some k → owner? s k.o = some w → walkRuns s k = true → ∃ u,
      exec (.translationWalkDone n) s = .next u ∧ u.walks = s.walks.filter (·.id != n) ∧ u.mem = s.mem ∧
      ∀ tid ∈ k.joined, ∀ t, thr? s k.o tid = some t → t.status = .waiting (.walk k.id) → ∃ t', thr? u k.o tid = some t' ∧
        t'.status = .ready ∧ t'.pc = t.pc ∧ (k.page, walkPage s w (k.page * 65536)) ∈ t'.walks)
    ∧ (∀ o tid t w n r q, thr? s o tid = some t → owner? s o = some w → stopped s o = false → t.status = .waiting (.reply r) →
      reqAt s r = some q → t.wcount = some n → t.wlim ≠ 0xFFFFFFFF → t.wlim.toNat < n → ∃ u t' k,
      exec (.waitLimitExpiry o tid) s = .next u ∧ thr? u o tid = some t' ∧ t'.status = .trapped ∧ t'.kept = some k ∧
      k.trap.cause = (match q.kind with
        | .lds _ _ _ _ => 0x06
        | _ => 0x07) ∧ k.trap.va = q.vaW ∧ k.trap.info = BitVec.ofNat 64 t.wlim.toNat ∧ (∀ x ∈ u.reqs, x.id ≠ r) ∧
      u.mem = s.mem ∧ u.gfile = s.gfile)
    ∧ (∀ o tid t w k, thr? s o tid = some t → owner? s o = some w → t.o = o → t.tid = tid → t.kept = some k →
      t.status = .trapped → stopped s o = false → t.mig = none → k.item = .none →
      (actionFor w k.trap.cause).1 < 4 →
      ((actionFor w k.trap.cause).1 = 0 → logFull s = false → ∃ u t', exec (.trapDispatch o tid) s = .next u ∧
        thr? u o tid = some t' ∧ t'.status = .dying ∧ u.mem = s.mem)
      ∧ ((actionFor w k.trap.cause).1 = 1 → replays t k.trap.pc k.trap.cause < 255 → ∃ u,
        exec (.trapDispatch o tid) s = .next u ∧ thr? u o tid = some (returnReplay (refetch t)) ∧ u.mem = s.mem ∧
        ∀ x ∈ (refetch t).streams, x.out = false → ∀ a b d, x.fetched.head? ≠ some (.fault a b d))
      ∧ ((actionFor w k.trap.cause).1 = 2 ∨ (actionFor w k.trap.cause).1 = 1 ∧ 255 ≤ replays t k.trap.pc k.trap.cause →
        s.log.length < logSize → s.logWait = [] → ∃ u t' r, exec (.trapDispatch o tid) s = .next u ∧ thr? u o tid = some t' ∧
        t'.status = .parked ∧ u.log = s.log ++ [r] ∧ r.kind = 1 ∧ r.cause = k.trap.cause ∧ r.item = tid)
      ∧ (∀ h, (actionFor w k.trap.cause).1 = 3 → thr? s o (actionFor w k.trap.cause).2 = some h → h.status ≠ .dying →
        (actionFor w k.trap.cause).2 ≠ tid → thrKey o (actionFor w k.trap.cause).2 ≠ thrKey o tid → h.inbox.length < 8 →
        (∀ p ∈ w.undelivered, p.1 ≠ (actionFor w k.trap.cause).2) → recordReady s t = true → ∃ u t' h', exec (.trapDispatch o tid) s = .next u ∧
        thr? u o tid = some t' ∧ t'.status = .parked ∧ thr? u o (actionFor w k.trap.cause).2 = some h' ∧
        h'.inbox = h.inbox ++ [{ k.trap with action := 3 }]))
    ∧ (∀ o tid t, thr? s o tid = some t → t.o = o → t.tid = tid → t.status = .dying → logFull s = false → paused s = false →
      (t.waitAt + 11200 ≤ s.fab ∨ threadMoves s o tid = false) →
      let u := runFates (fun x => nextFate x o tid) fateSteps s
      exec (.killDrainEnd o (some tid)) s = .next u ∧
      (failAccess s t = none → failEntry s o (fun e => e.tid == tid && !e.orphan) = none →
        failOneJob s o (fun b => b.tid == tid && !b.orphan) = none → failLink s t = none → thr? u o tid = none))
    ∧ (∀ o w, owner? s o = some w → w.killed = true → w.placed = true → logFull s = false → paused s = false →
      (w.killAt + 11200 ≤ s.fab ∨ drained s false (· == o) = true ∧ ownMsgs s w = []) → nextOwnerFate o s = none →
      ∃ u w', exec (.killDrainEnd o none) s = .next u ∧
      owner? u o = some w' ∧ w'.placed = false ∧ w'.launched = false ∧ w'.extents = w.extents ∧ w'.map = [] ∧
      (∀ j < 1024, core? u o j = none) ∧ ∀ r ∈ u.reqs, r.o ≠ o)

/-! ## Units and ports -/

/-- What a matrix unit adds to an accumulator for one chunk: a NaN product, or infinities of both signs, give a NaN sum; of
finite products the leading bit of the largest stands at 2^(q + 63), each is truncated toward zero to a multiple of 2^q,
and the exact total is rounded once to F32. -/
def ChunkSums (ftz : Bool) : Prop :=
  let rne := fun (x : Exact) => (F32.round 0 ftz .arith 0 x).1
  (∀ ps : List (Option FVal), none ∈ ps ∨ some .nan ∈ ps ∨ some (.inf false) ∈ ps ∧ some (.inf true) ∈ ps →
    chunkSum ftz ps = F32.enc .nan)
  ∧ ∀ (vs : List (Bool × Nat × Int)) (q : Int), (∃ v ∈ vs, v.2.1 ≠ 0 ∧ (Nat.log2 v.2.1 : Int) + v.2.2 = q + 63) →
    (∀ v ∈ vs, v.2.1 ≠ 0 → (Nat.log2 v.2.1 : Int) + v.2.2 ≤ q + 63) →
    let term := fun (v : Bool × Nat × Int) =>
      let a : Nat := if q ≤ v.2.2 then v.2.1 * 2 ^ (v.2.2 - q).toNat else v.2.1 / 2 ^ (q - v.2.2).toNat
      if v.1 = true then -(a : Int) else a
    let total := (vs.map term).sum
    chunkSum ftz (vs.map (fun v => some (.fin v.1 v.2.1 v.2.2))) =
      if total = 0 then rne (.zero false) else rne (.mag (decide (total < 0)) total.natAbs 1 q)

/-- A block that a unit reads or writes: in memory, its 64 bytes and its descriptor. -/
def UnitBlocks (s : State) (w : Owner) (o k : Nat) (mx : Bool) (va : Nat) : Prop :=
  (∀ u t p l, unitLoc s w o k mx false va 64 = .ok u (t, p, l) → markAt u p = 0 →
    ∃ u', readBlk s w o k mx false va = .ok u' (bytesVec (readAt u p 64), descAt u p) ∧ u'.mem = u.mem)
  ∧ (∀ u t p l, unitLoc s w o k mx false va 64 = .ok u (t, p, l) → markAt u p ≠ 0 →
    readBlk s w o k mx false va = .fault u (mkTrap Cause.poison (markAt u p - 1) (BitVec.ofNat 64 va)))
  ∧ ∀ u t pa l v d, unitLoc s w o k mx true va 64 = .ok u (t, .mem pa, l) →
    let u' := writeBlk s w o k mx false va v d
    Memory.readN u'.mem pa 64 = vecBytes v ∧ (∀ a, (a < pa ∨ pa + 64 ≤ a) → Memory.read u'.mem a = Memory.read u.mem a)
    ∧ ∀ x, d = some x → descAt u' (.mem pa) = x

/-- R115, R131, R203, R225, R246, R247, R256 to R258, R263, R264, R397, R398 and R401: how a unit takes a job, what it
computes and writes, how the job ends and how it suspends. A matrix unit reads a chunk's blocks one by one; with all of
them read, every used column adds the rounded sum of its products to its accumulator; the last chunk of the rows forms
the outputs, which are written block by block, the last one with the commit. A copy unit writes each block that it has
read, a conversion the rounded elements of its row. It takes the model's readings of logs 42, 52 and 61. -/
def Obligations.JobEvents : Prop :=
  (∀ ftz, ChunkSums ftz)
  ∧ (∀ s w o k mx va, UnitBlocks s w o k mx va)
  ∧ (∀ (tick : Nat) (l : List Nat) (res : Nat → URes Unit) (p : Nat), pickAccess tick l res = some p →
      p ∈ l ∧ ((∃ q ∈ l, (res q).isOk = true) → (res p).isOk = true))
  ∧ (∀ o c cl b x bs dva f i e v, codeFmt x.cfmt = some f → i < x.drb / 64 → e < perBlock x.cfmt →
      (decodeEls b.ftz bs)[perBlock x.cfmt * i + e]? = some v → ∃ y, (convOuts o c cl b x bs dva)[i]? = some y ∧
      y.1 = dva + 64 * i ∧ y.2.2 = some (x.cfmt * 4096 + x.cscale) ∧ velem (fmtBits x.cfmt) e y.2.1 =
        (f.round b.rm b.ftz .sat (ditherCopy o c (cl.ditherCu + (perBlock x.cfmt * i + e)))
          (v.scale (127 - (x.cscale : Int))).exact).1 % 2 ^ fmtBits x.cfmt)
  ∧ ∀ (s : State) (o c : Nat) (w : Owner) (cl : Cluster), owner? s o = some w → clus? s o c = some cl →
    (∀ j b, stopped s o = false → cl.mx = none → nextJob s o c true cl.rrMx = some (j, b) → ∃ u cl' b',
      exec (.jobStart o c .mx) s = .next u ∧ u.mem = s.mem ∧ clus? u o c = some cl' ∧ cl'.rrMx = (j % 8 + 1) % 8 ∧
      cl'.mx = some ⟨j, b.id, b.pos, 0, [], [], [], false, false, []⟩ ∧
      jobAt u o j b.id = some b' ∧ b'.state = .running ∧ b'.spec = b'.pos)
    ∧ (∀ j b, stopped s o = false → cl.cu = none → nextJob s o c false cl.rrCu = some (j, b) →
      (∀ r d, b.kind ≠ .slout r d) → ∃ u cl' b', exec (.jobStart o c .cu) s = .next u ∧ u.mem = s.mem ∧
      clus? u o c = some cl' ∧ cl'.cu = some (j, b.id) ∧ cl'.rrCu = (j % 8 + 1) % 8 ∧
      jobAt u o j b.id = some b' ∧ b'.state = .running)
    ∧ (∀ r b x, runOf s o c = some (r, b, x) →
      let pl := clusPlace s o c
      let nx := (xAddrs r x).length
      let na := (aAddrs r x).length
      (chunkReady s o c r b x = true → budgetUsed s o c = true → ∃ u, exec (.engineChunkCycle o c) s = .next u ∧
        u.mem = s.mem ∧ clus? u o c = some { cl with stall := (cl.stall + 1) % 2 ^ 48 } ∧
        engineAt u pl = { engineAt s pl with winCyc := cyclesGone s pl + 1 })
      ∧ (chunkReady s o c r b x = true → budgetUsed s o c = false → gotAll b (cycleNeeds r x) = none →
        ∀ p u q, pickAccess s.tick ((cycleNeeds r x).zipIdx.filter (fun p => (lookup b.got p.2).isNone))
            (fun p => readBlk s w o r.k true x.fe p.1) = some p →
          readBlk s w o r.k true x.fe p.1 = .ok u q → cycleChk r x p.2 q = none → jobAt u o r.k r.id = some b → ∃ u' b',
          exec (.engineChunkCycle o c) s = .next u' ∧ u'.mem = u.mem ∧ jobAt u' o r.k r.id = some b' ∧
          lookup b'.got p.2 = some q ∧ b'.pos = b.pos)
      ∧ (chunkReady s o c r b x = true → budgetUsed s o c = false → (r.ck ≠ 0 → r.acc.length = x.n) → ∀ bs,
        gotAll b (cycleNeeds r x) = some bs → (∀ col < x.n, bFault s o c x col r.ck = none) → ∃ u cl' r' b',
        exec (.engineChunkCycle o c) s = .next u ∧ u.mem = s.mem ∧ clus? u o c = some cl' ∧ cl'.mx = some r' ∧
        cl'.carry = cl.carry ∧ jobAt u o r.k r.id = some b' ∧ b'.pos = b.pos ∧ b'.got = [] ∧
        engineAt u pl = { engineAt s pl with used := (engineAt s pl).used + 1, winCyc := cyclesGone s pl + 1 } ∧
        let av := decodeEls b.ftz ((bs.drop nx).take na)
        let sel := fun (i : Nat) => if x.sp24 = true
          then 4 * (i / 2) + velem 2 (i % 256) (bs.getD (nx + na + i / 256) (0, 0)).1 else i
        let first := fun (j : Nat) => if x.mode = 1 then BitVec.ofNat 32 (velem 32 (j % 16) (bs.getD (j / 16) (0, 0)).1) else 0
        let prods := fun (j : Nat) => (List.range av.length).map (fun i => mulV (av.getD i (.fin false 0 0))
          ((decodeEls b.ftz (bBlocks s o c x j r.ck)).getD (sel i) (.fin false 0 0)))
        let sums := fun (j : Nat) => chunkSum b.ftz (if x.sp24 = true then some (.fin false 0 0) :: prods j else prods j)
        let new := (List.range x.n).map (fun j => BitVec.ofNat 32 (F32.round 0 b.ftz .arith 0 (addE 0
          (F32.dec b.ftz (if r.ck = 0 then first j else r.acc.getD j 0).toNat) (F32.dec b.ftz (sums j)))).1)
        (r.ck + 1 < x.kc → r'.acc = new ∧ r'.ck = r.ck + 1 ∧ r'.row = r.row ∧ r'.rows = r.rows)
        ∧ (x.kc ≤ r.ck + 1 → r'.ck = 0 ∧ r'.row = r.row + 1 ∧ r'.rows = r.rows ++ [new]
          ∧ (r.rows.length + 1 = chunkLen x b → x.mode ≠ 2 → b'.out = ((cAddrs x b.pos (r.rows.length + 1)).zip
              ((r.rows ++ [new]).zipIdx.flatMap (fun p => outRow o c x b.rm b.ftz (cl.ditherMx + p.2 * x.n) p.1))).map
                (fun p => (p.1, p.2, some (x.cfmt * 4096 + x.cscale))))))
      ∧ (writesC s o r b x = true → b.cancel = false → ∀ p u,
        pickAccess s.tick b.out (fun q => reachBlk s w o r.k true true x.fe anyPlace q.1) = some p →
        reachBlk s w o r.k true true x.fe anyPlace p.1 = .ok u () → jobAt u o r.k r.id = some b →
        ∃ u' b', exec (.chunkCommit o c) s = .next u' ∧ jobAt u' o r.k r.id = some b' ∧
          u'.mem = (writeBlk u w o r.k true x.fe p.1 p.2.1 p.2.2).mem ∧ b'.out = b.out.erase p ∧
          (2 ≤ b.out.length → b'.pos = b.pos ∧ b'.gfl = b.gfl) ∧
          (b.out.length = 1 → b'.pos = b.pos + r.rows.length ∧ b'.gfl = (b.gfl || r.gfl))))
    ∧ (∀ k b va n desc pat u, cuJob s cl o = some (k, b) → b.kind = .fill va n desc pat → stopped s o = false →
      b.landed = false → victim s o b = false →
      reachBlk s w o k false true false anyPlace (va.toNat + 64 * b.pos) = .ok u () →
      jobAt u o k b.id = some b → ∃ u' b', exec (.copyBlock o c) s = .next u' ∧
      u'.mem = (writeBlk u w o k false false (va.toNat + 64 * b.pos) pat (if desc = 0 then none else some desc)).mem ∧
      jobAt u' o k b.id = some b' ∧ b'.pos = b.pos + 1)
    ∧ (∀ k b blk, cuJob s cl o = some (k, b) → b.kind = .copy blk → stopped s o = false → b.landed = false → victim s o b = false →
      let x := cuBlock blk
      let per := x.rowb / 64
      let src := x.sva + b.pos * x.sstr
      let dst := x.dva + b.pos * x.dstr
      (b.out = [] → x.conv = false → ∀ u q, readBlk s w o k false x.fe (src + 64 * b.col) = .ok u q → jobAt u o k b.id = some b →
        ∃ u' b', exec (.copyBlock o c) s = .next u' ∧ u'.mem = u.mem ∧ jobAt u' o k b.id = some b' ∧ b'.pos = b.pos ∧
        b'.out = [(dst + 64 * b.col, q.1, if x.dsc = true then some q.2 else none)] ∧ b'.col = b.col + 1)
      ∧ (b.out = [] → x.conv = true → ∀ bs, gotAll b (blocksFrom src per) = some bs → ∃ u' b', exec (.copyBlock o c) s = .next u' ∧
        u'.mem = s.mem ∧ jobAt u' o k b.id = some b' ∧ b'.pos = b.pos ∧ b'.out = convOuts o c cl b x bs dst ∧ b'.col = per)
      ∧ (∀ p rest u, b.out = p :: rest → reachBlk s w o k false true x.fe anyPlace p.1 = .ok u () → jobAt u o k b.id = some b →
        ∃ u' b', exec (.copyBlock o c) s = .next u' ∧ u'.mem = (writeBlk u w o k false x.fe p.1 p.2.1 p.2.2).mem ∧
        jobAt u' o k b.id = some b' ∧ b'.out = rest ∧
        (rest = [] → per ≤ b.col → b'.pos = b.pos + 1 ∧ b'.col = 0) ∧ (rest ≠ [] ∨ b.col < per → b'.pos = b.pos)))
    ∧ (∀ unit k b x, unitJob s o cl unit = some (k, b) → core? s o k = some x → stopped s o = false → isCarry b = false →
      (b.landed = true → arrivalOf b = none → b.rootHeld = false → ∃ u x', exec (.jobEnd o c unit) s = .next u ∧
        core? u o k = some x' ∧ (∀ y ∈ x'.jobs, y.id ≠ b.id) ∧
        x'.outcomes.head? = some (b.id, 1, if b.gfl = true ∧ b.orphan = false then some b.tid else none)))
    ∧ (∀ unit k b s' t, unitJob s o cl unit = some (k, b) → jobFault s o c w cl unit k b = some (s', t) → b.cancel = false →
      jobAt s' o k b.id = some b → ∃ u b', exec (.jobSuspend o c unit) s = .next u ∧
        u.mem = s'.mem ∧ jobAt u o k b.id = some b' ∧ b'.state = .suspended t.cause t.va t.info ∧ b'.pos = b.pos)

/-- R26 to R28: what a port does with the frames it receives, and when no ack comes. A frame whose FCS or XCRC fails is
answered with a nak; a data frame in order is taken and acknowledged, one ahead is dropped; an ack frees, a nak or a
timeout of 10 microseconds transmits again, and once a frame has been transmitted again 16 times without an ack the port
goes down. A nak names the SEQ that the port expects (R27); that an ack names the SEQ of the frame it answers, and the
silence on a frame ahead and on data that finds no room, are the model's (log 20). -/
def Obligations.LinkFrames : Prop :=
  ∀ (s : State) (p : Nat) (f : Frame), (portAt s p).down = false → (portAt s p).seqRx < 2 ^ 32 →
    let q := portAt s p
    (f.fcs = true → f.etype ≠ 0x88B5 → ∃ u, exec (.dataFrame p f) s = .next u ∧
      portAt u p = { q with drops := q.drops + 1 } ∧ u.bufs = s.bufs)
    ∧ (f.etype = 0x88B5 → (f.type = 1 ∨ 4 < f.type.toNat ∨ f.type = 0) → frameGood f = false → ∃ u n, exec (.dataFrame p f) s = .next u ∧
      portAt u p = { q with outBox := q.outBox ++ [n] } ∧ n.type = 3 ∧ n.seq.toNat = q.seqRx ∧ u.bufs = s.bufs)
    ∧ (f.etype = 0x88B5 → (4 < f.type.toNat ∨ f.type = 0) → frameGood f = true → ∃ u, exec (.dataFrame p f) s = .next u ∧
        portAt u p = { q with drops := q.drops + 1 } ∧ u.bufs = s.bufs)
    ∧ (f.etype = 0x88B5 → frameGood f = true → malformed f = false → ∀ o g, groupOwner s f.group.toNat = some (o, g) →
      (f.type = 1 → seqAhead f.seq.toNat q.seqRx = true → exec (.dataFrame p f) s = .next s)
      ∧ (f.type = 1 → f.seq.toNat = q.seqRx → roomFor69 s p o f = false → exec (.dataFrame p f) s = .next s)
      ∧ (f.type = 1 → f.seq.toNat = q.seqRx → roomFor69 s p o f = true → granted s o f.group.toNat f.srank.toNat f.step.toNat = true →
          consumedStep s o f.group.toNat f.srank.toNat f.step.toNat = false → ∃ u a, exec (.dataFrame p f) s = .next u ∧
          portAt u p = { q with seqRx := (q.seqRx + 1) % 2 ^ 32, outBox := q.outBox ++ [a] } ∧ a.type = 2 ∧
          a.seq = f.seq ∧ ∃ b ∈ u.bufs, b.o = o ∧ b.group = f.group.toNat ∧ b.src = f.srank.toNat ∧ b.step = f.step.toNat ∧
            (lookup b.frags f.frag.toNat).isSome = true)
      ∧ (f.type = 4 → f.seq.toNat = q.seqRx → ∃ u a, exec (.creditFrame p f) s = .next u ∧
          portAt u p = { q with seqRx := (q.seqRx + 1) % 2 ^ 32, outBox := q.outBox ++ [a] } ∧ a.type = 2 ∧
          a.seq = f.seq ∧ ⟨o, f.group.toNat, f.srank.toNat, f.step.toNat⟩ ∈ u.credits ∧ u.bufs = s.bufs)
      ∧ (f.type = 2 → ∃ u, exec (.ackFrame p f) s = .next u ∧
          (portAt u p).sent = q.sent.filter (fun x => seqAhead x.seq.toNat f.seq.toNat) ∧
          (portAt u p).seqTx = q.seqTx ∧ u.bufs = s.bufs)
      ∧ (f.type = 3 →
          let again := (q.sent.take 512).filter (fun x => !seqAhead f.seq.toNat x.seq.toNat)
          (again = [] → exec (.nakFrame p f) s = .next s)
          ∧ (again ≠ [] → ∃ u, exec (.nakFrame p f) s = .next u ∧ Resent s p again u)))
    ∧ (q.sent ≠ [] → q.since + 14000 ≤ s.fab → ∃ u, exec (.retransmitTimeout p) s = .next u ∧ Resent s p (q.sent.take 512) u)
end

