-- ==== Sys2Proof/Laws/Encoding.lean ====
section
/-!
SUPPORT. The fields of a word and the word of fields, bytes and numbers, and the round trips of every qualifier code.
-/

namespace Sys2Proof

/-- Every field of a word is read back where it was put (R293). -/
@[simp] theorem fieldsOf_wordOf (f : Fields) : fieldsOf (wordOf f) = f := by
  obtain ⟨len, kind, opc, d, a, b, c, q, imm⟩ := f
  simp only [fieldsOf, wordOf, Fields.mk.injEq]
  refine ⟨?_, ?_, ?_, ?_, ?_, ?_, ?_, ?_, ?_⟩ <;>
  · apply BitVec.eq_of_getLsbD_eq
    intro i hi
    simp only [BitVec.getLsbD_extractLsb', BitVec.getLsbD_append]
    interval_cases i <;> simp

theorem leBytes_length (n v : Nat) : (leBytes n v).length = n := by
  induction n generalizing v with
  | zero => rfl
  | succ n ih => simp [leBytes, ih]

/-- A number of n bytes, written and read back (R3). -/
theorem leNat_leBytes (n v : Nat) : leNat (leBytes n v) = v % 256 ^ n := by
  induction n generalizing v with
  | zero => simp [leBytes, leNat, Nat.mod_one]
  | succ n ih =>
    simp only [leBytes, leNat, ih, BitVec.toNat_ofNat]
    rw [show (2 : Nat) ^ 8 = 256 from rfl, pow_succ, Nat.mul_comm (256 ^ n) 256, Nat.mod_mul]

theorem wordOfBytes_leBytes (w : BitVec 64) (rest : List Byte) : wordOfBytes (leBytes 8 w.toNat ++ rest) = w := by
  unfold wordOfBytes
  rw [List.take_append_of_le_length (by rw [leBytes_length]), List.take_of_length_le (by rw [leBytes_length]), leNat_leBytes]
  apply BitVec.eq_of_toNat_eq
  rw [BitVec.toNat_ofNat, show (256 : Nat) ^ 8 = 2 ^ 64 from rfl, Nat.mod_mod, Nat.mod_eq_of_lt w.isLt]

theorem low_leBytes (v : BitVec 32) (rest : List Byte) :
    (wordOfBytes (leBytes 4 v.toNat ++ rest)).extractLsb' 0 32 = v := by
  unfold wordOfBytes
  apply BitVec.eq_of_toNat_eq
  rw [List.take_append, List.take_of_length_le (by rw [leBytes_length]; omega)]
  have h : ∀ l r : List Byte, l.length = 4 → leNat (l ++ r) = leNat l + 2 ^ 32 * leNat r := by
    intro l r hl
    match l, hl with
    | [a, b, c, d], _ => simp only [List.cons_append, List.nil_append, leNat]; ring
  rw [BitVec.extractLsb'_toNat, BitVec.toNat_ofNat, h _ _ (leBytes_length 4 _), leNat_leBytes]
  rw [Nat.shiftRight_zero, Nat.mod_mod_of_dvd _ (by decide : 2 ^ 32 ∣ 2 ^ 64), Nat.add_mul_mod_self_left,
    show (256 : Nat) ^ 4 = 2 ^ 32 from rfl, Nat.mod_mod, Nat.mod_eq_of_lt v.isLt]

/-! ## What the decoder makes of encoded fields -/

theorem decode_bytesOf (f : Fields) (e : Ext) (rest : List Byte) (hl : lengthBytes f.len ≤ (bytesOf (f, e)).length) :
    ∃ w1, decode (bytesOf (f, e) ++ rest) = decodeWords (wordOf f) w1 ∧
      (∀ v, e = .ext v → w1.extractLsb' 0 32 = v) ∧ (∀ v, e = .lit v → w1 = v) := by
  have hw : ∀ l, wordOfBytes (leBytes 8 (wordOf f).toNat ++ l) = wordOf f := wordOfBytes_leBytes _
  have hlen : (wordOf f).extractLsb' 0 2 = f.len := congrArg Fields.len (fieldsOf_wordOf f)
  have hd : ∀ l : List Byte, (leBytes 8 (wordOf f).toNat ++ l).drop 8 = l := fun l => by
    rw [List.drop_append_of_le_length (by rw [leBytes_length]), List.drop_of_length_le (by rw [leBytes_length]), List.nil_append]
  cases e with
  | none =>
    refine ⟨wordOfBytes rest, ?_, by simp, by simp⟩
    simp only [bytesOf] at hl ⊢
    unfold decode
    simp only [hw, hlen, hd]
    exact if_neg (by rw [List.length_append]; omega)
  | ext v =>
    refine ⟨wordOfBytes (leBytes 4 v.toNat ++ rest), ?_, ?_, by simp⟩
    · simp only [bytesOf] at hl ⊢
      unfold decode
      simp only [List.append_assoc, hw, hlen, hd]
      exact if_neg (by rw [List.length_append, List.length_append] at *; omega)
    · rintro v' h
      cases h
      exact low_leBytes v rest
  | lit v =>
    refine ⟨wordOfBytes (leBytes 8 v.toNat ++ rest), ?_, by simp, ?_⟩
    · simp only [bytesOf] at hl ⊢
      unfold decode
      simp only [List.append_assoc, hw, hlen, hd]
      exact if_neg (by rw [List.length_append, List.length_append] at *; omega)
    · rintro v' h
      cases h
      exact wordOfBytes_leBytes v rest

theorem decode_x (f : Fields) (rest : List Byte) (h0 : f.len = 0) (hk : f.kind = 0) :
    decode (bytesOf (f, .none) ++ rest) = finish1 8 (decodeX f .none) := by
  obtain ⟨w1, h, -, -⟩ := decode_bytesOf f .none rest (by simp [bytesOf, leBytes_length, h0, lengthBytes])
  rw [h]
  simp [decodeWords, h0, hk]

theorem decode_v (f : Fields) (rest : List Byte) (h0 : f.len = 0) (hk : f.kind = 1) :
    decode (bytesOf (f, .none) ++ rest) = finish1 8 (decodeV f) := by
  obtain ⟨w1, h, -, -⟩ := decode_bytesOf f .none rest (by simp [bytesOf, leBytes_length, h0, lengthBytes])
  rw [h]
  simp [decodeWords, h0, hk]

theorem decode_e (f : Fields) (rest : List Byte) (h0 : f.len = 0) (hk : f.kind = 2) :
    decode (bytesOf (f, .none) ++ rest) = finish1 8 (decodeE f) := by
  obtain ⟨w1, h, -, -⟩ := decode_bytesOf f .none rest (by simp [bytesOf, leBytes_length, h0, lengthBytes])
  rw [h]
  simp [decodeWords, h0, hk]

theorem decode_xExt (f : Fields) (v : BitVec 32) (rest : List Byte) (h0 : f.len = 1) (hk : f.kind = 0)
    (hb : isFormatB f.opc = false) :
    decode (bytesOf (f, .ext v) ++ rest) = finish1 12 (decodeX f (.ext v)) := by
  obtain ⟨w1, h, h1, -⟩ := decode_bytesOf f (.ext v) rest (by simp [bytesOf, leBytes_length, h0, lengthBytes])
  rw [h]
  simp [decodeWords, h0, hk, hb, h1 v rfl]

theorem decode_xLit (f : Fields) (v : BitVec 64) (rest : List Byte) (h0 : f.len = 2) (hk : f.kind = 1)
    (hb : isFormatB f.opc = false) :
    decode (bytesOf (f, .lit v) ++ rest) = finish1 16 (decodeX f (.lit v)) := by
  obtain ⟨w1, h, -, h1⟩ := decode_bytesOf f (.lit v) rest (by simp [bytesOf, leBytes_length, h0, lengthBytes])
  rw [h]
  simp [decodeWords, h0, hk, hb, h1 v rfl]

/-! ## Qualifier codes (R303) -/

@[simp] theorem itypeOf_code (t : IType) : itypeOf (itypeCode t) = t := by cases t <;> rfl
@[simp] theorem vtypeOf_code (t : VType) : vtypeOf (vtypeCode t) = some t := by cases t <;> rfl
@[simp] theorem rndOf_code (r : Rnd) : rndOf (rndCode r) = some r := by cases r <;> rfl
@[simp] theorem scopeOf_code (s : Scope) : scopeOf (scopeCode s) = some s := by cases s <;> rfl
@[simp] theorem condOf_code (c : Cond) : condOf (condCode c) = some c := by cases c <;> rfl
theorem ordOf_code (o : Ord) (t : BitVec 3) : ordOf (memQ o t) = some o := by
  revert t
  cases o with
  | plain => decide
  | acq s | rel s | ar s => cases s <;> decide
@[simp] theorem memQ_type (o : Ord) (t : BitVec 3) : (memQ o t).extractLsb' 0 3 = t := by
  revert t
  cases o with
  | plain => decide
  | acq s | rel s | ar s => cases s <;> decide

end Sys2Proof
end

