-- ==== Sys2Proof/Laws/Issue.lean ====
section
/-!
SUPPORT. What issuing a bundle does, once for every operation: completion, waiting and trapping.
-/

namespace Sys2Proof.Machine

theorem lowestOf_none {l : List (Option TrapInfo)} (h : ∀ x ∈ l, x = none) : lowestOf l = none := by
  unfold lowestOf
  induction l with
  | nil => rfl
  | cons a l ih =>
    have ha := h a (by simp)
    subst ha
    exact ih (fun x hx => h x (by simp [hx]))

theorem lowestOf_append {l : List (Option TrapInfo)} (h : ∀ x ∈ l, x = none) (r : List (Option TrapInfo)) :
    lowestOf (l ++ r) = lowestOf r := by
  have := lowestOf_none h
  unfold lowestOf at *
  rw [List.foldl_append, this]

theorem fpxOf_none {t : Thread} {xf vf : BitVec 8} (h : fpxTrap t.fpc (xf ||| vf) = none) :
    fpxOf t xf vf = (none, none) := by
  unfold fpxOf
  split <;> simp [h]

section
variable {s : State} {c : Cur} {t : Thread} {w : Owner} {i : Instr} {fl : BitVec 8}

theorem Issues.no_wait (h : Issues s c t w i fl) :
    (popsIn t c i).find? (fun p => popWaits (bare s) t p.1) = none := by
  rw [List.find?_eq_none]
  intro p hp
  obtain ⟨v, hv⟩ := h.pops p hp
  simp [popWaits, hv, h.due p hp]

theorem pushMiss_none {u : Uses} (h : ∀ k ∈ pushesOf t u, ∃ l, pushChk s w t k = .ok l) : pushMiss s w t u = none := by
  unfold pushMiss
  rw [List.filterMap_eq_nil_iff.mpr]
  · rfl
  · intro k hk
    obtain ⟨l, hl⟩ := h k hk
    simp [hl]

theorem pushTraps_none {u : Uses} (h : ∀ k ∈ pushesOf t u, ∃ l, pushChk s w t k = .ok l) :
    ∀ x ∈ pushTraps s w t u, x = none := by
  intro x hx
  simp only [pushTraps, List.mem_map] at hx
  obtain ⟨k, hk, rfl⟩ := hx
  obtain ⟨l, hl⟩ := h k hk
  simp [hl]

theorem popTraps_none {u : Uses} (h : ∀ p ∈ popsOf t u, ∃ v, popRes t p.1 = .elem v) :
    ∀ x ∈ popTraps t u, x = none := by
  intro x hx
  simp only [popTraps, List.mem_map] at hx
  obtain ⟨p, hp, rfl⟩ := hx
  obtain ⟨v, hv⟩ := h p hp
  simp [hv]

theorem Issues.quietX (h : Issues s c t w i fl) :
    ∀ x ∈ popTraps t (uses i) ++ pushTraps (bare s) w t (uses i), x = none := by
  intro x hx
  rcases List.mem_append.mp hx with hx | hx
  · exact popTraps_none (fun p hp => h.pops p (by simp [popsIn, hp])) x hx
  · exact pushTraps_none (fun k hk => h.push k (by simp [pushesIn, hk])) x hx

theorem Issues.quietV (h : Issues s c t w i fl) :
    ∀ x ∈ popTraps t (usesV c) ++ pushTraps (bare s) w t (usesV c), x = none := by
  intro x hx
  rcases List.mem_append.mp hx with hx | hx
  · exact popTraps_none (fun p hp => h.pops p (by simp [popsIn, hp])) x hx
  · exact pushTraps_none (fun k hk => h.push k (by simp [pushesIn, hk])) x hx

/-- Issue with every check of the core passed but the operation's own. -/
theorem runX_issue (h : Issues s c t w i fl) (sem : Env → XRes) (hf : (sem (envX (bare s) c t w i)).flags = fl) :
    runX i sem s = .next (match sem (envX (bare s) c t w i) with
      | .again s1 (.walk k) => putWait s1 c (.walk k) none
      | .trapC ti => trapsTo s c t w i ti
      | x => settleX (bare s) c (bundleOf (bare s) c t w i) x) := by
  have hx := h.quietX
  have hv := h.quietV
  have m1 : pushMiss (bare s) w t (uses i) = none := pushMiss_none (fun k hk => h.push k (by simp [pushesIn, hk]))
  have m2 : pushMiss (bare s) w t (usesV c) = none := pushMiss_none (fun k hk => h.push k (by simp [pushesIn, hk]))
  have hfp := fpxOf_none (hf ▸ h.fpx)
  unfold runX
  simp only [h.cur, h.thr, h.own, h.enc]
  unfold issueOk
  simp only [h.no_wait, m1, m2, hfp, h.vtrap, h.room, lowestOf_append hx, lowestOf_append hv]
  cases hsem : sem (envX (bare s) c t w i) with
  | again s1 why => cases why <;> rfl
  | _ => rfl

theorem runX_ok {sem : Env → XRes} {s' : State} {wx : Wr} (h : Issues s c t w i wx.flags)
    (hs : sem (envX (bare s) c t w i) = .ok s' wx) : runX i sem s = .next (retiresTo s c t w i s' wx) := by
  rw [runX_issue h sem (by rw [hs]; rfl), hs]
  rfl

theorem runX_done {sem : Env → XRes} {wx : Wr} (h : Issues s c t w i wx.flags)
    (hs : sem (envX (bare s) c t w i) = .ok (envX (bare s) c t w i).s wx) :
    runX i sem s = .next (doneWith s c t w i wx) := runX_ok h hs

theorem runX_wait {sem : Env → XRes} {s' : State} {why : Wait} (h : Issues s c t w i 0)
    (hs : sem (envX (bare s) c t w i) = .wait s' why) :
    runX i sem s = .next (putWait s' c why (some (bundleOf (bare s) c t w i))) := by
  rw [runX_issue h sem (by rw [hs]; rfl), hs]
  rfl

theorem runX_again {sem : Env → XRes} {s' : State} {why : Wait} (h : Issues s c t w i 0)
    (hs : sem (envX (bare s) c t w i) = .again s' why) : runX i sem s = .next (putWait s' c why none) := by
  rw [runX_issue h sem (by rw [hs]; rfl), hs]
  cases why <;> rfl

theorem runX_trapC {sem : Env → XRes} {ti : TrapInfo} (h : Issues s c t w i 0)
    (hs : sem (envX (bare s) c t w i) = .trapC ti) :
    runX i sem s = .next (trapsTo s c t w i ti) := by
  rw [runX_issue h sem (by rw [hs]; rfl), hs]

theorem runX_trapT {sem : Env → XRes} {s' : State} {ti : TrapInfo} (h : Issues s c t w i 0)
    (hs : sem (envX (bare s) c t w i) = .trapT s' ti) :
    runX i sem s = .next (takeTrap s' c.o c.tid ti c.pc (some (lenBits c.len)) false false) := by
  rw [runX_issue h sem (by rw [hs]; rfl), hs]
  rfl

theorem runX_sub {sem : Env → XRes} {s' : State} {wx : Wr} {k id : Nat} (h : Issues s c t w i wx.flags)
    (hs : sem (envX (bare s) c t w i) = .sub s' wx k id) :
    runX i sem s = .next (settleX (bare s) c (bundleOf (bare s) c t w i) (.sub s' wx k id)) := by
  rw [runX_issue h sem (by rw [hs]; rfl), hs]

theorem runV_done {sem : Env → Half} {hh : Half} (h : Issues s c t w i hh.w.flags)
    (hs : sem (envX (bare s) c t w i) = hh) (ht : hh.trap = none) :
    runV i sem s = .next (retiresTo s c t w i (takeDraws (envX (bare s) c t w i).s t hh.draws) hh.w) := by
  apply runX_ok h
  simp only [hs, Half.asX, ht]
  rfl

/-- A bundle whose encoding or registers are not in order takes IENC or REGW (R302, R142). -/
theorem runX_bad {sem : Env → XRes} {ti : TrapInfo} {vh : Bool} (hc : s.cur = some c) (ht : thr? s c.o c.tid = some t)
    (ho : owner? s c.o = some w) (hb : bundleCheck s t i c.v = some (ti, vh)) :
    runX i sem s = .next (takeTrap (bare s) c.o c.tid ti c.pc (some (lenBits c.len)) false vh) := by
  unfold runX
  simp only [hc, ht, ho, hb]

end

/-! ## What the environment of a first half reads -/

@[simp] theorem takeDraws_gfile (s : State) (t : Thread) (n : Nat) : (takeDraws s t n).gfile = s.gfile := by
  unfold takeDraws; split <;> rfl
@[simp] theorem takeDraws_vfile (s : State) (t : Thread) (n : Nat) : (takeDraws s t n).vfile = s.vfile := by
  unfold takeDraws; split <;> rfl
@[simp] theorem takeDraws_threads (s : State) (t : Thread) (n : Nat) : (takeDraws s t n).threads = s.threads := by
  unfold takeDraws; split <;> rfl
@[simp] theorem takeDraws_owners (s : State) (t : Thread) (n : Nat) : (takeDraws s t n).owners = s.owners := by
  unfold takeDraws; split <;> rfl
@[simp] theorem takeDraws_mem (s : State) (t : Thread) (n : Nat) : (takeDraws s t n).mem = s.mem := by
  unfold takeDraws; split <;> rfl
@[simp] theorem takeDraws_spad (s : State) (t : Thread) (n : Nat) : (takeDraws s t n).spad = s.spad := by
  unfold takeDraws; split <;> rfl
@[simp] theorem takeDraws_bsram (s : State) (t : Thread) (n : Nat) : (takeDraws s t n).bsram = s.bsram := by
  unfold takeDraws; split <;> rfl

@[simp] theorem envX_t (s : State) (c : Cur) (t : Thread) (w : Owner) (i : Instr) : (envX s c t w i).t = t := rfl
@[simp] theorem envX_c (s : State) (c : Cur) (t : Thread) (w : Owner) (i : Instr) : (envX s c t w i).c = c := rfl
@[simp] theorem envX_w (s : State) (c : Cur) (t : Thread) (w : Owner) (i : Instr) : (envX s c t w i).w = w := rfl
@[simp] theorem envX_pops (s : State) (c : Cur) (t : Thread) (w : Owner) (i : Instr) :
    (envX s c t w i).pops = popVals t (popsIn t c i) := rfl
theorem readG_congr {s s' : State} (h : s'.gfile = s.gfile) (t : Thread) (r : GReg) : readG s' t r = readG s t r := by
  unfold readG; rw [h]
theorem readV_congr {s s' : State} (h : s'.vfile = s.vfile) (t : Thread) (r : VReg) : readV s' t r = readV s t r := by
  unfold readV; rw [h]
@[simp] theorem envX_g (s : State) (c : Cur) (t : Thread) (w : Owner) (i : Instr) (r : GReg) :
    (envX (bare s) c t w i).g r = readG s t r :=
  readG_congr (s' := (envX (bare s) c t w i).s) (s := s)
    (by show (takeDraws (bare s) t _).gfile = s.gfile; rw [takeDraws_gfile]; rfl) t r
@[simp] theorem envX_old (s : State) (c : Cur) (t : Thread) (w : Owner) (i : Instr) (r : VReg) :
    (envX (bare s) c t w i).old r = readV s t r :=
  readV_congr (s' := (envX (bare s) c t w i).s) (s := s)
    (by show (takeDraws (bare s) t _).vfile = s.vfile; rw [takeDraws_vfile]; rfl) t r
@[simp] theorem envX_v (s : State) (c : Cur) (t : Thread) (w : Owner) (i : Instr) (r : VReg) :
    (envX (bare s) c t w i).v r
      = (((popVals t (popsIn t c i)).find? (·.1 == r)).map (·.2)).getD (readV s t r) := by
  have h : readV (envX (bare s) c t w i).s t r = readV s t r :=
    readV_congr (by show (takeDraws (bare s) t _).vfile = s.vfile; rw [takeDraws_vfile]; rfl) t r
  unfold Env.v
  simp only [envX_t, envX_pops, h]
  cases ((popVals t (popsIn t c i)).find? (·.1 == r)).map (·.2) <;> rfl
@[simp] theorem envX_m (s : State) (c : Cur) (t : Thread) (w : Owner) (i : Instr) (r : MReg) :
    (envX s c t w i).m r = readM t r := rfl
@[simp] theorem envX_next (s : State) (c : Cur) (t : Thread) (w : Owner) (i : Instr) :
    (envX s c t w i).next = c.pc + BitVec.ofNat 64 c.len := rfl

end Sys2Proof.Machine
end

