-- ==== Sys2Proof/Laws/Lanes.lean ====
section
/-!
SUPPORT. Sub-elements and elements: reading one element of a joined value, and of what a masked element-wise operation
answers.
-/

namespace Sys2Proof.Machine

theorem el_lt (w i x : Nat) : el w i x < 2 ^ w := Nat.mod_lt _ (by positivity)

theorem joinEls_lt (w : Nat) (l : List Nat) : joinEls w l < 2 ^ (w * l.length) := by
  induction l with
  | nil => simp [joinEls]
  | cons x l ih =>
    have hx : x % 2 ^ w < 2 ^ w := Nat.mod_lt _ (by positivity)
    have : 2 ^ (w * (l.length + 1)) = 2 ^ w * 2 ^ (w * l.length) := by rw [← pow_add]; ring_nf
    simp only [joinEls, List.length_cons, this]
    calc x % 2 ^ w + 2 ^ w * joinEls w l < 2 ^ w + 2 ^ w * joinEls w l := by omega
      _ = 2 ^ w * (joinEls w l + 1) := by ring
      _ ≤ 2 ^ w * 2 ^ (w * l.length) := Nat.mul_le_mul_left _ ih

/-- Element j of joined elements is entry j, cut to its width. -/
theorem el_joinEls (w : Nat) : ∀ (l : List Nat) (j : Nat) (h : j < l.length), el w j (joinEls w l) = l[j] % 2 ^ w
  | x :: l, 0, _ => by
    simp [joinEls, el]
  | x :: l, j + 1, h => by
    have h' : j < l.length := by simpa using h
    have ih := el_joinEls w l j h'
    have hx : x % 2 ^ w < 2 ^ w := Nat.mod_lt _ (by positivity)
    simp only [joinEls, el, List.getElem_cons_succ] at *
    rw [← ih]
    congr 1
    have : 2 ^ (w * (j + 1)) = 2 ^ w * 2 ^ (w * j) := by rw [← pow_add]; ring_nf
    rw [this, ← Nat.div_div_eq_div_mul, Nat.add_mul_div_left _ _ (by positivity), Nat.div_eq_of_lt hx, Nat.zero_add]

theorem extract_toNat {n : Nat} (x : BitVec n) (w i : Nat) : (x.extractLsb' (w * i) w).toNat = el w i x.toNat := by
  simp [el, BitVec.extractLsb'_toNat, Nat.shiftRight_eq_div_pow]

theorem velem_eq (w i : Nat) (v : Vec) : velem w i v = (v.extractLsb' (w * i) w).toNat := (extract_toNat v w i).symm

theorem extract_of_el {n w i y : Nat} {x : BitVec n} (h : el w i x.toNat = y % 2 ^ w) :
    x.extractLsb' (w * i) w = BitVec.ofNat w y := by
  apply BitVec.eq_of_toNat_eq
  rw [extract_toNat, h, BitVec.toNat_ofNat]

/-- Sub-element j of a joined word (R310). -/
theorem extract_joinWord {w : Nat} (hw : w ∣ 64) (f : Nat → Nat) {j : Nat} (hj : j < 64 / w) :
    (joinWord w f).extractLsb' (w * j) w = BitVec.ofNat w (f j) := by
  apply extract_of_el
  have hl : joinEls w ((List.range (64 / w)).map f) < 2 ^ 64 := by
    have := joinEls_lt w ((List.range (64 / w)).map f)
    rwa [List.length_map, List.length_range, Nat.mul_div_cancel' hw] at this
  unfold joinWord
  rw [BitVec.toNat_ofNat, Nat.mod_eq_of_lt hl, el_joinEls _ _ _ (by simpa using hj)]
  simp

/-- Element i of a vector of n elements. -/
theorem extract_vecOfEls {w : Nat} (hw : w ∣ 512) {l : List Nat} (hl : l.length = 512 / w) {i : Nat} (hi : i < 512 / w) :
    (vecOfEls w l).extractLsb' (w * i) w = BitVec.ofNat w (l[i]'(hl ▸ hi)) := by
  apply extract_of_el
  have h : joinEls w l < 2 ^ 512 := by
    have := joinEls_lt w l
    rwa [hl, Nat.mul_div_cancel' hw] at this
  unfold vecOfEls
  rw [BitVec.toNat_ofNat, Nat.mod_eq_of_lt h, el_joinEls _ _ _ (hl ▸ hi)]

theorem velem_vecOfEls {w : Nat} (hw : w ∣ 512) {l : List Nat} (hl : l.length = 512 / w) {i : Nat} (hi : i < 512 / w) :
    velem w i (vecOfEls w l) = l[i]'(hl ▸ hi) % 2 ^ w := by
  rw [velem_eq, extract_vecOfEls hw hl hi, BitVec.toNat_ofNat]

/-- The number of active elements below i: the number of the draw that element i takes (R236). -/
def rankOf (act : Nat → Bool) (i : Nat) : Nat := ((List.range i).filter act).length

theorem runEls_length (act : Nat → Bool) (old : Nat → Nat) (f : Nat → Nat → Res8) :
    ∀ (l : List Nat) (k : Nat), (runEls act old f l k).1.length = l.length
  | [], _ => rfl
  | i :: l, k => by
    unfold runEls
    split <;> simp [runEls_length act old f l]

theorem runEls_getElem (act : Nat → Bool) (old : Nat → Nat) (f : Nat → Nat → Res8) :
    ∀ (l : List Nat) (k j : Nat) (h : j < (runEls act old f l k).1.length),
      (runEls act old f l k).1[j] =
        if act (l[j]'(by rwa [runEls_length] at h)) then
          (f (l[j]'(by rwa [runEls_length] at h)) (k + ((l.take j).filter act).length)).1
        else old (l[j]'(by rwa [runEls_length] at h))
  | [], k, j, h => by simp [runEls] at h
  | i :: l, k, 0, h => by
    by_cases ha : act i <;> simp [runEls, ha]
  | i :: l, k, j + 1, h => by
    have h' : j < l.length := by rw [runEls_length] at h; simpa using h
    by_cases ha : act i
    · have := runEls_getElem act old f l (k + 1) j (by rw [runEls_length]; exact h')
      simp only [runEls, ha, if_true, List.getElem_cons_succ, this, List.take_succ_cons, List.filter_cons_of_pos,
        List.length_cons]
      rw [Nat.add_right_comm, Nat.add_assoc]
    · have := runEls_getElem act old f l k j (by rw [runEls_length]; exact h')
      simp only [runEls, ha, Bool.false_eq_true, if_false, List.getElem_cons_succ, this, List.take_succ_cons,
        List.filter_cons_of_neg (a := i) (p := act) (by simpa using ha)]

/-- Element i of a masked operation: what f gives an active element, the old value of an inactive one. -/
theorem runEls_range (act : Nat → Bool) (old : Nat → Nat) (f : Nat → Nat → Res8) (n i : Nat) (h : i < n) :
    (runEls act old f (List.range n) 0).1[i]'(by rw [runEls_length]; simpa using h)
      = if act i then (f i (rankOf act i)).1 else old i := by
  rw [runEls_getElem]
  simp [rankOf, List.take_range, Nat.min_eq_left h.le]

/-- A flag is raised exactly where some active element raises it (R148). -/
theorem runEls_flag (act : Nat → Bool) (old : Nat → Nat) (f : Nat → Nat → Res8) (b : Nat) :
    ∀ (l : List Nat) (k : Nat), (runEls act old f l k).2.getLsbD b = true ↔
      ∃ j, ∃ h : j < l.length, act l[j] = true ∧ (f l[j] (k + ((l.take j).filter act).length)).2.getLsbD b = true
  | [], k => by simp [runEls]
  | i :: l, k => by
    by_cases ha : act i
    · have ih := runEls_flag act old f b l (k + 1)
      simp only [runEls, ha, if_true, BitVec.getLsbD_or, Bool.or_eq_true, ih]
      constructor
      · rintro (h | ⟨j, hj, h1, h2⟩)
        · exact ⟨0, by simp, by simpa using ha, by simpa using h⟩
        · refine ⟨j + 1, by simpa using hj, by simpa using h1, ?_⟩
          simp only [List.take_succ_cons, List.filter_cons_of_pos ha, List.length_cons, List.getElem_cons_succ]
          have e : k + ((List.filter act (List.take j l)).length + 1) = k + 1 + (List.filter act (List.take j l)).length := by
            omega
          simpa only [e] using h2
      · rintro ⟨j, hj, h1, h2⟩
        cases j with
        | zero => exact Or.inl (by simpa using h2)
        | succ j =>
          refine Or.inr ⟨j, by simpa using hj, by simpa using h1, ?_⟩
          simp only [List.take_succ_cons, List.filter_cons_of_pos ha, List.length_cons, List.getElem_cons_succ] at h2
          have e : k + ((List.filter act (List.take j l)).length + 1) = k + 1 + (List.filter act (List.take j l)).length := by
            omega
          simpa only [e] using h2
    · have ih := runEls_flag act old f b l k
      simp only [runEls, ha, Bool.false_eq_true, if_false, ih]
      constructor
      · rintro ⟨j, hj, h1, h2⟩
        refine ⟨j + 1, by simpa using hj, by simpa using h1, ?_⟩
        simpa [List.filter_cons_of_neg (a := i) (p := act) (by simpa using ha)] using h2
      · rintro ⟨j, hj, h1, h2⟩
        cases j with
        | zero => exact absurd (by simpa using h1) ha
        | succ j =>
          refine ⟨j, by simpa using hj, by simpa using h1, ?_⟩
          simpa [List.filter_cons_of_neg (a := i) (p := act) (by simpa using ha)] using h2

theorem runEls_flag_range (act : Nat → Bool) (old : Nat → Nat) (f : Nat → Nat → Res8) (n b : Nat) :
    (runEls act old f (List.range n) 0).2.getLsbD b = true ↔
      ∃ i < n, act i = true ∧ (f i (rankOf act i)).2.getLsbD b = true := by
  rw [runEls_flag]
  constructor
  · rintro ⟨j, hj, h1, h2⟩
    have hj' : j < n := by simpa using hj
    refine ⟨j, hj', by simpa using h1, ?_⟩
    simpa [rankOf, List.take_range, Nat.min_eq_left hj'.le] using h2
  · rintro ⟨j, hj, h1, h2⟩
    refine ⟨j, by simpa using hj, by simpa using h1, ?_⟩
    simpa [rankOf, List.take_range, Nat.min_eq_left hj.le] using h2

/-- An operation that raises nothing on any element raises nothing. -/
theorem runEls_quiet (act : Nat → Bool) (old : Nat → Nat) (f : Nat → Nat → Res8) (hf : ∀ i k, (f i k).2 = 0) :
    ∀ (l : List Nat) (k : Nat), (runEls act old f l k).2 = 0
  | [], _ => rfl
  | i :: l, k => by
    unfold runEls
    split <;> simp [hf, runEls_quiet act old f hf l]

/-! ## The bits of a vector replaced -/

/-- One bit of a vector with bits replaced. -/
theorem setBits_bit (v : Vec) (p n x : Nat) (h : p + n ≤ 512) (b : Nat) :
    (setBits v p n x).getLsbD b = if p ≤ b ∧ b < p + n then x.testBit (b - p) else v.getLsbD b := by
  have h1 : v.toNat % 2 ^ p < 2 ^ p := Nat.mod_lt _ (by positivity)
  have h2 : x % 2 ^ n < 2 ^ n := Nat.mod_lt _ (by positivity)
  have hlo : 2 ^ p * (x % 2 ^ n) + v.toNat % 2 ^ p < 2 ^ (p + n) := by
    rw [pow_add]
    calc 2 ^ p * (x % 2 ^ n) + v.toNat % 2 ^ p < 2 ^ p * (x % 2 ^ n) + 2 ^ p := by omega
      _ = 2 ^ p * (x % 2 ^ n + 1) := by ring
      _ ≤ 2 ^ p * 2 ^ n := Nat.mul_le_mul_left _ h2
  have e : v.toNat % 2 ^ p + x % 2 ^ n * 2 ^ p + v.toNat / 2 ^ (p + n) * 2 ^ (p + n)
      = 2 ^ (p + n) * (v.toNat / 2 ^ (p + n)) + (2 ^ p * (x % 2 ^ n) + v.toNat % 2 ^ p) := by ring
  unfold setBits
  simp only [e, BitVec.getLsbD_ofNat]
  rw [Nat.testBit_two_pow_mul_add _ hlo]
  by_cases hb : b < p + n
  · have h512 : b < 512 := by omega
    rw [if_pos hb, Nat.testBit_two_pow_mul_add _ h1]
    by_cases hp : b < p
    · have hn : ¬ (p ≤ b ∧ b < p + n) := by omega
      rw [if_neg hn, if_pos hp, Nat.testBit_mod_two_pow]
      simp [hp, h512, BitVec.getLsbD]
    · have hy : p ≤ b ∧ b < p + n := by omega
      have hz : b - p < n := by omega
      rw [if_pos hy, if_neg hp, Nat.testBit_mod_two_pow]
      simp [hz, h512]
  · have hn : ¬ (p ≤ b ∧ b < p + n) := by omega
    rw [if_neg hn, if_neg hb, Nat.testBit_div_two_pow]
    have : b - (p + n) + (p + n) = b := by omega
    rw [this, BitVec.getLsbD]
    by_cases h512 : b < 512
    · simp [h512]
    · simp only [h512, decide_false, Bool.false_and]
      exact (BitVec.testBit_toNat v ▸ BitVec.getLsbD_of_ge v b (by omega)).symm

end Sys2Proof.Machine
end

