-- ==== Sys2Proof/Laws/Maps.lean ====
section
/-!
SUPPORT. Laws of the sparse maps: reads after writes, and that every operation keeps the canonical form.
-/

namespace Sys2Proof.Machine

section
variable {α : Type}

/-! ## Reads after writes -/

@[simp] theorem lookup_put_self (m : SMap α) (i : Nat) (x : α) : lookup (put m i x) i = some x := by
  induction m with
  | nil => simp [put, lookup]
  | cons p m ih =>
    obtain ⟨k, v⟩ := p
    simp only [put]
    split
    · simp [lookup]
    · split
      · simp [lookup]
      · rename_i h1 h2
        simp [lookup, h2, ih]

theorem lookup_put_ne (m : SMap α) {i j : Nat} (x : α) (h : j ≠ i) : lookup (put m i x) j = lookup m j := by
  induction m with
  | nil => simp [put, lookup, h]
  | cons p m ih =>
    obtain ⟨k, v⟩ := p
    simp only [put]
    split
    · simp [lookup, h]
    · split
      · rename_i h1 h2
        subst h2
        simp [lookup, h]
      · simp only [lookup, ih]

@[simp] theorem lookup_drop_self (m : SMap α) (i : Nat) : lookup (drop m i) i = none := by
  induction m with
  | nil => rfl
  | cons p m ih =>
    obtain ⟨k, v⟩ := p
    simp only [drop]
    split
    · exact ih
    · rename_i h
      simp [lookup, h, ih]

theorem lookup_drop_ne (m : SMap α) {i j : Nat} (h : j ≠ i) : lookup (drop m i) j = lookup m j := by
  induction m with
  | nil => rfl
  | cons p m ih =>
    obtain ⟨k, v⟩ := p
    simp only [drop]
    split
    · rename_i hk
      subst hk
      simp [lookup, h, ih]
    · simp only [lookup, ih]

@[simp] theorem getD_put_self (d : α) (m : SMap α) (i : Nat) (x : α) : getD d (put m i x) i = x := by simp [getD]

theorem getD_put_ne (d : α) (m : SMap α) {i j : Nat} (x : α) (h : j ≠ i) : getD d (put m i x) j = getD d m j := by
  simp [getD, lookup_put_ne m x h]

@[simp] theorem getD_setD_self [DecidableEq α] (d : α) (m : SMap α) (i : Nat) (x : α) : getD d (setD d m i x) i = x := by
  by_cases hx : x = d <;> simp [setD, getD, hx]

theorem getD_setD_ne [DecidableEq α] (d : α) (m : SMap α) {i j : Nat} (x : α) (h : j ≠ i) :
    getD d (setD d m i x) j = getD d m j := by
  by_cases hx : x = d <;> simp [setD, getD, hx, lookup_put_ne m x h, lookup_drop_ne m h]

/-- A second write of a key takes the place of the first. -/
@[simp] theorem put_put (m : SMap α) (i : Nat) (x y : α) : put (put m i x) i y = put m i y := by
  induction m with
  | nil => simp [put]
  | cons p m ih =>
    obtain ⟨k, v⟩ := p
    by_cases h1 : i < k
    · simp [put, h1]
    · by_cases h2 : i = k
      · subst h2; simp [put]
      · simp [put, h1, h2, ih]

@[simp] theorem upd_of_lookup (m : SMap α) (i : Nat) (f : α → α) {x : α} (h : lookup m i = some x) :
    upd m i f = put m i (f x) := by simp [upd, h]

theorem upd_none (m : SMap α) (i : Nat) (f : α → α) (h : lookup m i = none) : upd m i f = m := by simp [upd, h]

/-- Updating a record reads back as the updated record. -/
theorem lookup_upd_self (m : SMap α) (i : Nat) (f : α → α) : lookup (upd m i f) i = (lookup m i).map f := by
  cases h : lookup m i with
  | none => simp [upd, h]
  | some x => simp [upd, h]

theorem lookup_upd_ne (m : SMap α) {i j : Nat} (f : α → α) (h : j ≠ i) : lookup (upd m i f) j = lookup m j := by
  unfold upd
  split
  · exact lookup_put_ne m _ h
  · rfl

/-! ## The canonical form -/

/-- Every key of a map lies above a bound. -/
def above (b : Nat) (m : SMap α) : Bool := m.all (fun p => decide (b < p.1))

theorem rising_cons (k : Nat) (v : α) (m : SMap α) : rising ((k, v) :: m) = true ↔ above k m = true ∧ rising m = true := by
  induction m generalizing k v with
  | nil => simp [rising, above]
  | cons p m ih =>
    obtain ⟨k', v'⟩ := p
    simp only [rising, Bool.and_eq_true, decide_eq_true_eq, above, List.all_cons]
    constructor
    · rintro ⟨h, hr⟩
      refine ⟨⟨h, ?_⟩, hr⟩
      have := ((ih k' v').1 hr).1
      simp only [above, List.all_eq_true, decide_eq_true_eq] at this ⊢
      intro p hp
      exact Nat.lt_trans h (this p hp)
    · rintro ⟨⟨h, _⟩, hr⟩
      exact ⟨h, hr⟩

theorem above_put {b i : Nat} {m : SMap α} {x : α} (hb : b < i) (h : above b m = true) : above b (put m i x) = true := by
  induction m with
  | nil => simp [put, above, hb]
  | cons p m ih =>
    obtain ⟨k, v⟩ := p
    simp only [above, List.all_cons, Bool.and_eq_true, decide_eq_true_eq] at h ih ⊢
    simp only [put]
    split
    · simp [hb, h.1]; simpa using h.2
    · split
      · simp [hb]; simpa using h.2
      · simp only [List.all_cons, Bool.and_eq_true, decide_eq_true_eq]
        exact ⟨h.1, ih h.2⟩

theorem rising_put {m : SMap α} (i : Nat) (x : α) (h : rising m = true) : rising (put m i x) = true := by
  induction m with
  | nil => rfl
  | cons p m ih =>
    obtain ⟨k, v⟩ := p
    have hk := (rising_cons k v m).1 h
    simp only [put]
    split
    · rename_i hi
      refine (rising_cons i x _).2 ⟨?_, h⟩
      have := hk.1
      simp only [above, List.all_cons, Bool.and_eq_true, decide_eq_true_eq, List.all_eq_true] at this ⊢
      exact ⟨hi, fun p hp => Nat.lt_trans hi (this p hp)⟩
    · split
      · rename_i hi; subst hi
        exact (rising_cons i x m).2 hk
      · rename_i h1 h2
        exact (rising_cons k v _).2 ⟨above_put (by omega) hk.1, ih hk.2⟩

theorem rising_of_sublist {m n : SMap α} (hs : n.Sublist m) (h : rising m = true) : rising n = true := by
  induction hs with
  | slnil => rfl
  | cons p _ ih => exact ih ((rising_cons p.1 p.2 _).1 h).2
  | cons_cons p hs ih =>
    have hk := (rising_cons p.1 p.2 _).1 h
    refine (rising_cons p.1 p.2 _).2 ⟨?_, ih hk.2⟩
    have := hk.1
    simp only [above, List.all_eq_true] at this ⊢
    exact fun q hq => this q (hs.subset hq)

theorem drop_sublist (m : SMap α) (i : Nat) : (drop m i).Sublist m := by
  induction m with
  | nil => exact List.Sublist.slnil
  | cons p m ih =>
    obtain ⟨k, v⟩ := p
    simp only [drop]
    split
    · exact ih.cons _
    · exact ih.cons_cons _

theorem mem_put {m : SMap α} {i : Nat} {x : α} {p : Nat × α} (h : p ∈ put m i x) : p = (i, x) ∨ p ∈ m := by
  induction m with
  | nil => simpa [put] using h
  | cons q m ih =>
    obtain ⟨k, v⟩ := q
    simp only [put] at h
    split at h
    · simpa using h
    · split at h
      · simp only [List.mem_cons] at h ⊢; tauto
      · simp only [List.mem_cons] at h ⊢
        rcases h with h | h
        · exact .inr (.inl h)
        · rcases ih h with h | h
          · exact .inl h
          · exact .inr (.inr h)

/-- A key at or below a bound that every key exceeds is not listed. -/
theorem lookup_of_above {b i : Nat} {m : SMap α} (h : above b m = true) (hi : i ≤ b) : lookup m i = none := by
  induction m with
  | nil => rfl
  | cons p m ih =>
    obtain ⟨k, v⟩ := p
    simp only [above, List.all_cons, Bool.and_eq_true, decide_eq_true_eq] at h ih
    have : i ≠ k := by omega
    simp [lookup, this, ih h.2]

variable [DecidableEq α]

theorem wfMap_of_sublist {d : α} {m n : SMap α} (hs : n.Sublist m) (h : wfMap d m = true) : wfMap d n = true := by
  simp only [wfMap, Bool.and_eq_true, List.all_eq_true] at h ⊢
  exact ⟨rising_of_sublist hs h.1, fun p hp => h.2 p (hs.subset hp)⟩

theorem wfMap_drop {d : α} {m : SMap α} (i : Nat) (h : wfMap d m = true) : wfMap d (drop m i) = true :=
  wfMap_of_sublist (drop_sublist m i) h

theorem wfMap_clearRange {d : α} {m : SMap α} (lo n : Nat) (h : wfMap d m = true) : wfMap d (clearRange m lo n) = true :=
  wfMap_of_sublist List.filter_sublist h

theorem wfMap_setD {d : α} {m : SMap α} (i : Nat) (x : α) (h : wfMap d m = true) : wfMap d (setD d m i x) = true := by
  by_cases hx : x = d
  · simp only [setD, hx, if_true]; exact wfMap_drop i h
  · simp only [setD, hx, if_false]
    simp only [wfMap, Bool.and_eq_true, List.all_eq_true] at h ⊢
    refine ⟨rising_put i x h.1, fun p hp => ?_⟩
    rcases mem_put hp with rfl | hp
    · simpa using hx
    · exact h.2 p hp

end

/-! ## Memory -/

@[simp] theorem Memory.read_write_self (m : Memory) (a : Nat) (b : Byte) : Memory.read (Memory.write m a b) a = b :=
  getD_setD_self memDefault m a b

theorem Memory.read_write_ne (m : Memory) {a x : Nat} (b : Byte) (h : x ≠ a) :
    Memory.read (Memory.write m a b) x = Memory.read m x := getD_setD_ne memDefault m b h

theorem Memory.wf_write {m : Memory} (a : Nat) (b : Byte) (h : Memory.wf m = true) : Memory.wf (Memory.write m a b) = true :=
  wfMap_setD a b h

theorem Memory.wf_writeN {m : Memory} (bs : List Byte) (a : Nat) (h : Memory.wf m = true) :
    Memory.wf (Memory.writeN m a bs) = true := by
  induction bs generalizing m a with
  | nil => exact h
  | cons b bs ih => exact ih (a + 1) (Memory.wf_write a b h)

theorem Memory.wf_writeMasked {m : Memory} (bs : List (Byte × Bool)) (a : Nat) (h : Memory.wf m = true) :
    Memory.wf (Memory.writeMasked m a bs) = true := by
  induction bs generalizing m a with
  | nil => exact h
  | cons p bs ih =>
    obtain ⟨b, on⟩ := p
    simp only [Memory.writeMasked]
    refine ih (a + 1) ?_
    split
    · exact Memory.wf_write a b h
    · exact h

theorem Memory.wf_clearRange {m : Memory} (lo n : Nat) (h : Memory.wf m = true) : Memory.wf (clearRange m lo n) = true :=
  wfMap_clearRange lo n h

/-- A write of a run of bytes leaves every byte outside the run as it was. -/
theorem Memory.read_writeN_outside {m : Memory} (bs : List Byte) (a x : Nat) (h : x < a ∨ a + bs.length ≤ x) :
    Memory.read (Memory.writeN m a bs) x = Memory.read m x := by
  induction bs generalizing m a with
  | nil => rfl
  | cons b bs ih =>
    simp only [List.length_cons] at h
    simp only [Memory.writeN]
    rw [ih (a + 1) (by omega), Memory.read_write_ne m b (by omega)]

theorem Memory.read_writeMasked_outside {m : Memory} (bs : List (Byte × Bool)) (a x : Nat)
    (h : x < a ∨ a + bs.length ≤ x) : Memory.read (Memory.writeMasked m a bs) x = Memory.read m x := by
  induction bs generalizing m a with
  | nil => rfl
  | cons p bs ih =>
    obtain ⟨b, on⟩ := p
    simp only [List.length_cons] at h
    simp only [Memory.writeMasked]
    rw [ih (a + 1) (by omega)]
    split
    · exact Memory.read_write_ne m b (by omega)
    · rfl

/-- A run of bytes reads back as it was written. -/
theorem Memory.readN_writeN {m : Memory} (bs : List Byte) (a : Nat) :
    Memory.readN (Memory.writeN m a bs) a bs.length = bs := by
  induction bs generalizing m a with
  | nil => rfl
  | cons b bs ih =>
    simp only [Memory.writeN, List.length_cons, Memory.readN]
    rw [ih (a + 1), Memory.read_writeN_outside bs (a + 1) a (by omega), Memory.read_write_self]

theorem Memory.readN_length (m : Memory) (n a : Nat) : (Memory.readN m a n).length = n := by
  induction n generalizing a with
  | zero => rfl
  | succ n ih => simp [Memory.readN, ih]

end Sys2Proof.Machine
end

