-- ==== Sys2Proof/Laws/State.lean ====
section
/-!
SUPPORT. What each update of the state leaves as it was: one lemma per field, and reads of the records that an update
writes.
-/

namespace Sys2Proof.Machine

/-! ## onOwner -/

@[simp] theorem onOwner_power (s : State) (o : Nat) (f : Owner → Owner) : (onOwner s o f).power = s.power := rfl
@[simp] theorem onOwner_saving (s : State) (o : Nat) (f : Owner → Owner) : (onOwner s o f).saving = s.saving := rfl
@[simp] theorem onOwner_restoring (s : State) (o : Nat) (f : Owner → Owner) : (onOwner s o f).restoring = s.restoring := rfl
@[simp] theorem onOwner_cqbase (s : State) (o : Nat) (f : Owner → Owner) : (onOwner s o f).cqbase = s.cqbase := rfl
@[simp] theorem onOwner_cqen (s : State) (o : Nat) (f : Owner → Owner) : (onOwner s o f).cqen = s.cqen := rfl
@[simp] theorem onOwner_cqsize (s : State) (o : Nat) (f : Owner → Owner) : (onOwner s o f).cqsize = s.cqsize := rfl
@[simp] theorem onOwner_cqirq (s : State) (o : Nat) (f : Owner → Owner) : (onOwner s o f).cqirq = s.cqirq := rfl
@[simp] theorem onOwner_cqtail (s : State) (o : Nat) (f : Owner → Owner) : (onOwner s o f).cqtail = s.cqtail := rfl
@[simp] theorem onOwner_cqhead (s : State) (o : Nat) (f : Owner → Owner) : (onOwner s o f).cqhead = s.cqhead := rfl
@[simp] theorem onOwner_badEntry (s : State) (o : Nat) (f : Owner → Owner) : (onOwner s o f).badEntry = s.badEntry := rfl
@[simp] theorem onOwner_baseFault (s : State) (o : Nat) (f : Owner → Owner) : (onOwner s o f).baseFault = s.baseFault := rfl
@[simp] theorem onOwner_badSize (s : State) (o : Nat) (f : Owner → Owner) : (onOwner s o f).badSize = s.badSize := rfl
@[simp] theorem onOwner_cmds (s : State) (o : Nat) (f : Owner → Owner) : (onOwner s o f).cmds = s.cmds := rfl
@[simp] theorem onOwner_msix (s : State) (o : Nat) (f : Owner → Owner) : (onOwner s o f).msix = s.msix := rfl
@[simp] theorem onOwner_hostAns (s : State) (o : Nat) (f : Owner → Owner) : (onOwner s o f).hostAns = s.hostAns := rfl
@[simp] theorem onOwner_mem (s : State) (o : Nat) (f : Owner → Owner) : (onOwner s o f).mem = s.mem := rfl
@[simp] theorem onOwner_desc (s : State) (o : Nat) (f : Owner → Owner) : (onOwner s o f).desc = s.desc := rfl
@[simp] theorem onOwner_fe (s : State) (o : Nat) (f : Owner → Owner) : (onOwner s o f).fe = s.fe := rfl
@[simp] theorem onOwner_tags (s : State) (o : Nat) (f : Owner → Owner) : (onOwner s o f).tags = s.tags := rfl
@[simp] theorem onOwner_poison (s : State) (o : Nat) (f : Owner → Owner) : (onOwner s o f).poison = s.poison := rfl
@[simp] theorem onOwner_redirects (s : State) (o : Nat) (f : Owner → Owner) : (onOwner s o f).redirects = s.redirects := rfl
@[simp] theorem onOwner_asleep (s : State) (o : Nat) (f : Owner → Owner) : (onOwner s o f).asleep = s.asleep := rfl
@[simp] theorem onOwner_moves (s : State) (o : Nat) (f : Owner → Owner) : (onOwner s o f).moves = s.moves := rfl
@[simp] theorem onOwner_table (s : State) (o : Nat) (f : Owner → Owner) : (onOwner s o f).table = s.table := rfl
@[simp] theorem onOwner_period (s : State) (o : Nat) (f : Owner → Owner) : (onOwner s o f).period = s.period := rfl
@[simp] theorem onOwner_fab (s : State) (o : Nat) (f : Owner → Owner) : (onOwner s o f).fab = s.fab := rfl
@[simp] theorem onOwner_readyAt (s : State) (o : Nat) (f : Owner → Owner) : (onOwner s o f).readyAt = s.readyAt := rfl
@[simp] theorem onOwner_nextT (s : State) (o : Nat) (f : Owner → Owner) : (onOwner s o f).nextT = s.nextT := rfl
@[simp] theorem onOwner_deferred (s : State) (o : Nat) (f : Owner → Owner) : (onOwner s o f).deferred = s.deferred := rfl
@[simp] theorem onOwner_trowel (s : State) (o : Nat) (f : Owner → Owner) : (onOwner s o f).trowel = s.trowel := rfl
@[simp] theorem onOwner_since (s : State) (o : Nat) (f : Owner → Owner) : (onOwner s o f).since = s.since := rfl
@[simp] theorem onOwner_slot (s : State) (o : Nat) (f : Owner → Owner) : (onOwner s o f).slot = s.slot := rfl
@[simp] theorem onOwner_done (s : State) (o : Nat) (f : Owner → Owner) : (onOwner s o f).done = s.done := rfl
@[simp] theorem onOwner_flags (s : State) (o : Nat) (f : Owner → Owner) : (onOwner s o f).flags = s.flags := rfl
@[simp] theorem onOwner_swapAt (s : State) (o : Nat) (f : Owner → Owner) : (onOwner s o f).swapAt = s.swapAt := rfl
@[simp] theorem onOwner_failed (s : State) (o : Nat) (f : Owner → Owner) : (onOwner s o f).failed = s.failed := rfl
@[simp] theorem onOwner_launches (s : State) (o : Nat) (f : Owner → Owner) : (onOwner s o f).launches = s.launches := rfl
@[simp] theorem onOwner_threads (s : State) (o : Nat) (f : Owner → Owner) : (onOwner s o f).threads = s.threads := rfl
@[simp] theorem onOwner_cores (s : State) (o : Nat) (f : Owner → Owner) : (onOwner s o f).cores = s.cores := rfl
@[simp] theorem onOwner_clusters (s : State) (o : Nat) (f : Owner → Owner) : (onOwner s o f).clusters = s.clusters := rfl
@[simp] theorem onOwner_gfile (s : State) (o : Nat) (f : Owner → Owner) : (onOwner s o f).gfile = s.gfile := rfl
@[simp] theorem onOwner_vfile (s : State) (o : Nat) (f : Owner → Owner) : (onOwner s o f).vfile = s.vfile := rfl
@[simp] theorem onOwner_spad (s : State) (o : Nat) (f : Owner → Owner) : (onOwner s o f).spad = s.spad := rfl
@[simp] theorem onOwner_spadFE (s : State) (o : Nat) (f : Owner → Owner) : (onOwner s o f).spadFE = s.spadFE := rfl
@[simp] theorem onOwner_spadPz (s : State) (o : Nat) (f : Owner → Owner) : (onOwner s o f).spadPz = s.spadPz := rfl
@[simp] theorem onOwner_bsram (s : State) (o : Nat) (f : Owner → Owner) : (onOwner s o f).bsram = s.bsram := rfl
@[simp] theorem onOwner_bdesc (s : State) (o : Nat) (f : Owner → Owner) : (onOwner s o f).bdesc = s.bdesc := rfl
@[simp] theorem onOwner_bpz (s : State) (o : Nat) (f : Owner → Owner) : (onOwner s o f).bpz = s.bpz := rfl
@[simp] theorem onOwner_reqs (s : State) (o : Nat) (f : Owner → Owner) : (onOwner s o f).reqs = s.reqs := rfl
@[simp] theorem onOwner_replies (s : State) (o : Nat) (f : Owner → Owner) : (onOwner s o f).replies = s.replies := rfl
@[simp] theorem onOwner_combines (s : State) (o : Nat) (f : Owner → Owner) : (onOwner s o f).combines = s.combines := rfl
@[simp] theorem onOwner_walks (s : State) (o : Nat) (f : Owner → Owner) : (onOwner s o f).walks = s.walks := rfl
@[simp] theorem onOwner_rwrites (s : State) (o : Nat) (f : Owner → Owner) : (onOwner s o f).rwrites = s.rwrites := rfl
@[simp] theorem onOwner_barriers (s : State) (o : Nat) (f : Owner → Owner) : (onOwner s o f).barriers = s.barriers := rfl
@[simp] theorem onOwner_saves (s : State) (o : Nat) (f : Owner → Owner) : (onOwner s o f).saves = s.saves := rfl
@[simp] theorem onOwner_images (s : State) (o : Nat) (f : Owner → Owner) : (onOwner s o f).images = s.images := rfl
@[simp] theorem onOwner_log (s : State) (o : Nat) (f : Owner → Owner) : (onOwner s o f).log = s.log := rfl
@[simp] theorem onOwner_dropped (s : State) (o : Nat) (f : Owner → Owner) : (onOwner s o f).dropped = s.dropped := rfl
@[simp] theorem onOwner_errs (s : State) (o : Nat) (f : Owner → Owner) : (onOwner s o f).errs = s.errs := rfl
@[simp] theorem onOwner_flips (s : State) (o : Nat) (f : Owner → Owner) : (onOwner s o f).flips = s.flips := rfl
@[simp] theorem onOwner_errAt (s : State) (o : Nat) (f : Owner → Owner) : (onOwner s o f).errAt = s.errAt := rfl
@[simp] theorem onOwner_controlAt (s : State) (o : Nat) (f : Owner → Owner) : (onOwner s o f).controlAt = s.controlAt := rfl
@[simp] theorem onOwner_temps (s : State) (o : Nat) (f : Owner → Owner) : (onOwner s o f).temps = s.temps := rfl
@[simp] theorem onOwner_balanceAt (s : State) (o : Nat) (f : Owner → Owner) : (onOwner s o f).balanceAt = s.balanceAt := rfl
@[simp] theorem onOwner_patrolAt (s : State) (o : Nat) (f : Owner → Owner) : (onOwner s o f).patrolAt = s.patrolAt := rfl
@[simp] theorem onOwner_slopes (s : State) (o : Nat) (f : Owner → Owner) : (onOwner s o f).slopes = s.slopes := rfl
@[simp] theorem onOwner_cap (s : State) (o : Nat) (f : Owner → Owner) : (onOwner s o f).cap = s.cap := rfl
@[simp] theorem onOwner_ports (s : State) (o : Nat) (f : Owner → Owner) : (onOwner s o f).ports = s.ports := rfl
@[simp] theorem onOwner_bufs (s : State) (o : Nat) (f : Owner → Owner) : (onOwner s o f).bufs = s.bufs := rfl
@[simp] theorem onOwner_credits (s : State) (o : Nat) (f : Owner → Owner) : (onOwner s o f).credits = s.credits := rfl
@[simp] theorem onOwner_reduces (s : State) (o : Nat) (f : Owner → Owner) : (onOwner s o f).reduces = s.reduces := rfl
@[simp] theorem onOwner_agenda (s : State) (o : Nat) (f : Owner → Owner) : (onOwner s o f).agenda = s.agenda := rfl
@[simp] theorem onOwner_tick (s : State) (o : Nat) (f : Owner → Owner) : (onOwner s o f).tick = s.tick := rfl
@[simp] theorem onOwner_nextId (s : State) (o : Nat) (f : Owner → Owner) : (onOwner s o f).nextId = s.nextId := rfl
@[simp] theorem onOwner_cur (s : State) (o : Nat) (f : Owner → Owner) : (onOwner s o f).cur = s.cur := rfl
@[simp] theorem onOwner_logWait (s : State) (o : Nat) (f : Owner → Owner) : (onOwner s o f).logWait = s.logWait := rfl
@[simp] theorem onOwner_engines (s : State) (o : Nat) (f : Owner → Owner) : (onOwner s o f).engines = s.engines := rfl
@[simp] theorem onOwner_epochTop (s : State) (o : Nat) (f : Owner → Owner) : (onOwner s o f).epochTop = s.epochTop := rfl
@[simp] theorem onOwner_capDue (s : State) (o : Nat) (f : Owner → Owner) : (onOwner s o f).capDue = s.capDue := rfl
@[simp] theorem onOwner_early (s : State) (o : Nat) (f : Owner → Owner) : (onOwner s o f).early = s.early := rfl
@[simp] theorem onOwner_hotSeen (s : State) (o : Nat) (f : Owner → Owner) : (onOwner s o f).hotSeen = s.hotSeen := rfl

/-! ## onCore -/

@[simp] theorem onCore_power (s : State) (o j : Nat) (f : Core → Core) : (onCore s o j f).power = s.power := rfl
@[simp] theorem onCore_saving (s : State) (o j : Nat) (f : Core → Core) : (onCore s o j f).saving = s.saving := rfl
@[simp] theorem onCore_restoring (s : State) (o j : Nat) (f : Core → Core) : (onCore s o j f).restoring = s.restoring := rfl
@[simp] theorem onCore_cqbase (s : State) (o j : Nat) (f : Core → Core) : (onCore s o j f).cqbase = s.cqbase := rfl
@[simp] theorem onCore_cqen (s : State) (o j : Nat) (f : Core → Core) : (onCore s o j f).cqen = s.cqen := rfl
@[simp] theorem onCore_cqsize (s : State) (o j : Nat) (f : Core → Core) : (onCore s o j f).cqsize = s.cqsize := rfl
@[simp] theorem onCore_cqirq (s : State) (o j : Nat) (f : Core → Core) : (onCore s o j f).cqirq = s.cqirq := rfl
@[simp] theorem onCore_cqtail (s : State) (o j : Nat) (f : Core → Core) : (onCore s o j f).cqtail = s.cqtail := rfl
@[simp] theorem onCore_cqhead (s : State) (o j : Nat) (f : Core → Core) : (onCore s o j f).cqhead = s.cqhead := rfl
@[simp] theorem onCore_badEntry (s : State) (o j : Nat) (f : Core → Core) : (onCore s o j f).badEntry = s.badEntry := rfl
@[simp] theorem onCore_baseFault (s : State) (o j : Nat) (f : Core → Core) : (onCore s o j f).baseFault = s.baseFault := rfl
@[simp] theorem onCore_badSize (s : State) (o j : Nat) (f : Core → Core) : (onCore s o j f).badSize = s.badSize := rfl
@[simp] theorem onCore_cmds (s : State) (o j : Nat) (f : Core → Core) : (onCore s o j f).cmds = s.cmds := rfl
@[simp] theorem onCore_msix (s : State) (o j : Nat) (f : Core → Core) : (onCore s o j f).msix = s.msix := rfl
@[simp] theorem onCore_hostAns (s : State) (o j : Nat) (f : Core → Core) : (onCore s o j f).hostAns = s.hostAns := rfl
@[simp] theorem onCore_mem (s : State) (o j : Nat) (f : Core → Core) : (onCore s o j f).mem = s.mem := rfl
@[simp] theorem onCore_desc (s : State) (o j : Nat) (f : Core → Core) : (onCore s o j f).desc = s.desc := rfl
@[simp] theorem onCore_fe (s : State) (o j : Nat) (f : Core → Core) : (onCore s o j f).fe = s.fe := rfl
@[simp] theorem onCore_tags (s : State) (o j : Nat) (f : Core → Core) : (onCore s o j f).tags = s.tags := rfl
@[simp] theorem onCore_poison (s : State) (o j : Nat) (f : Core → Core) : (onCore s o j f).poison = s.poison := rfl
@[simp] theorem onCore_redirects (s : State) (o j : Nat) (f : Core → Core) : (onCore s o j f).redirects = s.redirects := rfl
@[simp] theorem onCore_asleep (s : State) (o j : Nat) (f : Core → Core) : (onCore s o j f).asleep = s.asleep := rfl
@[simp] theorem onCore_moves (s : State) (o j : Nat) (f : Core → Core) : (onCore s o j f).moves = s.moves := rfl
@[simp] theorem onCore_table (s : State) (o j : Nat) (f : Core → Core) : (onCore s o j f).table = s.table := rfl
@[simp] theorem onCore_period (s : State) (o j : Nat) (f : Core → Core) : (onCore s o j f).period = s.period := rfl
@[simp] theorem onCore_fab (s : State) (o j : Nat) (f : Core → Core) : (onCore s o j f).fab = s.fab := rfl
@[simp] theorem onCore_readyAt (s : State) (o j : Nat) (f : Core → Core) : (onCore s o j f).readyAt = s.readyAt := rfl
@[simp] theorem onCore_nextT (s : State) (o j : Nat) (f : Core → Core) : (onCore s o j f).nextT = s.nextT := rfl
@[simp] theorem onCore_deferred (s : State) (o j : Nat) (f : Core → Core) : (onCore s o j f).deferred = s.deferred := rfl
@[simp] theorem onCore_trowel (s : State) (o j : Nat) (f : Core → Core) : (onCore s o j f).trowel = s.trowel := rfl
@[simp] theorem onCore_since (s : State) (o j : Nat) (f : Core → Core) : (onCore s o j f).since = s.since := rfl
@[simp] theorem onCore_slot (s : State) (o j : Nat) (f : Core → Core) : (onCore s o j f).slot = s.slot := rfl
@[simp] theorem onCore_done (s : State) (o j : Nat) (f : Core → Core) : (onCore s o j f).done = s.done := rfl
@[simp] theorem onCore_flags (s : State) (o j : Nat) (f : Core → Core) : (onCore s o j f).flags = s.flags := rfl
@[simp] theorem onCore_swapAt (s : State) (o j : Nat) (f : Core → Core) : (onCore s o j f).swapAt = s.swapAt := rfl
@[simp] theorem onCore_failed (s : State) (o j : Nat) (f : Core → Core) : (onCore s o j f).failed = s.failed := rfl
@[simp] theorem onCore_owners (s : State) (o j : Nat) (f : Core → Core) : (onCore s o j f).owners = s.owners := rfl
@[simp] theorem onCore_launches (s : State) (o j : Nat) (f : Core → Core) : (onCore s o j f).launches = s.launches := rfl
@[simp] theorem onCore_threads (s : State) (o j : Nat) (f : Core → Core) : (onCore s o j f).threads = s.threads := rfl
@[simp] theorem onCore_clusters (s : State) (o j : Nat) (f : Core → Core) : (onCore s o j f).clusters = s.clusters := rfl
@[simp] theorem onCore_gfile (s : State) (o j : Nat) (f : Core → Core) : (onCore s o j f).gfile = s.gfile := rfl
@[simp] theorem onCore_vfile (s : State) (o j : Nat) (f : Core → Core) : (onCore s o j f).vfile = s.vfile := rfl
@[simp] theorem onCore_spad (s : State) (o j : Nat) (f : Core → Core) : (onCore s o j f).spad = s.spad := rfl
@[simp] theorem onCore_spadFE (s : State) (o j : Nat) (f : Core → Core) : (onCore s o j f).spadFE = s.spadFE := rfl
@[simp] theorem onCore_spadPz (s : State) (o j : Nat) (f : Core → Core) : (onCore s o j f).spadPz = s.spadPz := rfl
@[simp] theorem onCore_bsram (s : State) (o j : Nat) (f : Core → Core) : (onCore s o j f).bsram = s.bsram := rfl
@[simp] theorem onCore_bdesc (s : State) (o j : Nat) (f : Core → Core) : (onCore s o j f).bdesc = s.bdesc := rfl
@[simp] theorem onCore_bpz (s : State) (o j : Nat) (f : Core → Core) : (onCore s o j f).bpz = s.bpz := rfl
@[simp] theorem onCore_reqs (s : State) (o j : Nat) (f : Core → Core) : (onCore s o j f).reqs = s.reqs := rfl
@[simp] theorem onCore_replies (s : State) (o j : Nat) (f : Core → Core) : (onCore s o j f).replies = s.replies := rfl
@[simp] theorem onCore_combines (s : State) (o j : Nat) (f : Core → Core) : (onCore s o j f).combines = s.combines := rfl
@[simp] theorem onCore_walks (s : State) (o j : Nat) (f : Core → Core) : (onCore s o j f).walks = s.walks := rfl
@[simp] theorem onCore_rwrites (s : State) (o j : Nat) (f : Core → Core) : (onCore s o j f).rwrites = s.rwrites := rfl
@[simp] theorem onCore_barriers (s : State) (o j : Nat) (f : Core → Core) : (onCore s o j f).barriers = s.barriers := rfl
@[simp] theorem onCore_saves (s : State) (o j : Nat) (f : Core → Core) : (onCore s o j f).saves = s.saves := rfl
@[simp] theorem onCore_images (s : State) (o j : Nat) (f : Core → Core) : (onCore s o j f).images = s.images := rfl
@[simp] theorem onCore_log (s : State) (o j : Nat) (f : Core → Core) : (onCore s o j f).log = s.log := rfl
@[simp] theorem onCore_dropped (s : State) (o j : Nat) (f : Core → Core) : (onCore s o j f).dropped = s.dropped := rfl
@[simp] theorem onCore_errs (s : State) (o j : Nat) (f : Core → Core) : (onCore s o j f).errs = s.errs := rfl
@[simp] theorem onCore_flips (s : State) (o j : Nat) (f : Core → Core) : (onCore s o j f).flips = s.flips := rfl
@[simp] theorem onCore_errAt (s : State) (o j : Nat) (f : Core → Core) : (onCore s o j f).errAt = s.errAt := rfl
@[simp] theorem onCore_controlAt (s : State) (o j : Nat) (f : Core → Core) : (onCore s o j f).controlAt = s.controlAt := rfl
@[simp] theorem onCore_temps (s : State) (o j : Nat) (f : Core → Core) : (onCore s o j f).temps = s.temps := rfl
@[simp] theorem onCore_balanceAt (s : State) (o j : Nat) (f : Core → Core) : (onCore s o j f).balanceAt = s.balanceAt := rfl
@[simp] theorem onCore_patrolAt (s : State) (o j : Nat) (f : Core → Core) : (onCore s o j f).patrolAt = s.patrolAt := rfl
@[simp] theorem onCore_slopes (s : State) (o j : Nat) (f : Core → Core) : (onCore s o j f).slopes = s.slopes := rfl
@[simp] theorem onCore_cap (s : State) (o j : Nat) (f : Core → Core) : (onCore s o j f).cap = s.cap := rfl
@[simp] theorem onCore_ports (s : State) (o j : Nat) (f : Core → Core) : (onCore s o j f).ports = s.ports := rfl
@[simp] theorem onCore_bufs (s : State) (o j : Nat) (f : Core → Core) : (onCore s o j f).bufs = s.bufs := rfl
@[simp] theorem onCore_credits (s : State) (o j : Nat) (f : Core → Core) : (onCore s o j f).credits = s.credits := rfl
@[simp] theorem onCore_reduces (s : State) (o j : Nat) (f : Core → Core) : (onCore s o j f).reduces = s.reduces := rfl
@[simp] theorem onCore_agenda (s : State) (o j : Nat) (f : Core → Core) : (onCore s o j f).agenda = s.agenda := rfl
@[simp] theorem onCore_tick (s : State) (o j : Nat) (f : Core → Core) : (onCore s o j f).tick = s.tick := rfl
@[simp] theorem onCore_nextId (s : State) (o j : Nat) (f : Core → Core) : (onCore s o j f).nextId = s.nextId := rfl
@[simp] theorem onCore_cur (s : State) (o j : Nat) (f : Core → Core) : (onCore s o j f).cur = s.cur := rfl
@[simp] theorem onCore_logWait (s : State) (o j : Nat) (f : Core → Core) : (onCore s o j f).logWait = s.logWait := rfl
@[simp] theorem onCore_engines (s : State) (o j : Nat) (f : Core → Core) : (onCore s o j f).engines = s.engines := rfl
@[simp] theorem onCore_epochTop (s : State) (o j : Nat) (f : Core → Core) : (onCore s o j f).epochTop = s.epochTop := rfl
@[simp] theorem onCore_capDue (s : State) (o j : Nat) (f : Core → Core) : (onCore s o j f).capDue = s.capDue := rfl
@[simp] theorem onCore_early (s : State) (o j : Nat) (f : Core → Core) : (onCore s o j f).early = s.early := rfl
@[simp] theorem onCore_hotSeen (s : State) (o j : Nat) (f : Core → Core) : (onCore s o j f).hotSeen = s.hotSeen := rfl

/-! ## onClus -/

@[simp] theorem onClus_power (s : State) (o c : Nat) (f : Cluster → Cluster) : (onClus s o c f).power = s.power := rfl
@[simp] theorem onClus_saving (s : State) (o c : Nat) (f : Cluster → Cluster) : (onClus s o c f).saving = s.saving := rfl
@[simp] theorem onClus_restoring (s : State) (o c : Nat) (f : Cluster → Cluster) : (onClus s o c f).restoring = s.restoring := rfl
@[simp] theorem onClus_cqbase (s : State) (o c : Nat) (f : Cluster → Cluster) : (onClus s o c f).cqbase = s.cqbase := rfl
@[simp] theorem onClus_cqen (s : State) (o c : Nat) (f : Cluster → Cluster) : (onClus s o c f).cqen = s.cqen := rfl
@[simp] theorem onClus_cqsize (s : State) (o c : Nat) (f : Cluster → Cluster) : (onClus s o c f).cqsize = s.cqsize := rfl
@[simp] theorem onClus_cqirq (s : State) (o c : Nat) (f : Cluster → Cluster) : (onClus s o c f).cqirq = s.cqirq := rfl
@[simp] theorem onClus_cqtail (s : State) (o c : Nat) (f : Cluster → Cluster) : (onClus s o c f).cqtail = s.cqtail := rfl
@[simp] theorem onClus_cqhead (s : State) (o c : Nat) (f : Cluster → Cluster) : (onClus s o c f).cqhead = s.cqhead := rfl
@[simp] theorem onClus_badEntry (s : State) (o c : Nat) (f : Cluster → Cluster) : (onClus s o c f).badEntry = s.badEntry := rfl
@[simp] theorem onClus_baseFault (s : State) (o c : Nat) (f : Cluster → Cluster) : (onClus s o c f).baseFault = s.baseFault := rfl
@[simp] theorem onClus_badSize (s : State) (o c : Nat) (f : Cluster → Cluster) : (onClus s o c f).badSize = s.badSize := rfl
@[simp] theorem onClus_cmds (s : State) (o c : Nat) (f : Cluster → Cluster) : (onClus s o c f).cmds = s.cmds := rfl
@[simp] theorem onClus_msix (s : State) (o c : Nat) (f : Cluster → Cluster) : (onClus s o c f).msix = s.msix := rfl
@[simp] theorem onClus_hostAns (s : State) (o c : Nat) (f : Cluster → Cluster) : (onClus s o c f).hostAns = s.hostAns := rfl
@[simp] theorem onClus_mem (s : State) (o c : Nat) (f : Cluster → Cluster) : (onClus s o c f).mem = s.mem := rfl
@[simp] theorem onClus_desc (s : State) (o c : Nat) (f : Cluster → Cluster) : (onClus s o c f).desc = s.desc := rfl
@[simp] theorem onClus_fe (s : State) (o c : Nat) (f : Cluster → Cluster) : (onClus s o c f).fe = s.fe := rfl
@[simp] theorem onClus_tags (s : State) (o c : Nat) (f : Cluster → Cluster) : (onClus s o c f).tags = s.tags := rfl
@[simp] theorem onClus_poison (s : State) (o c : Nat) (f : Cluster → Cluster) : (onClus s o c f).poison = s.poison := rfl
@[simp] theorem onClus_redirects (s : State) (o c : Nat) (f : Cluster → Cluster) : (onClus s o c f).redirects = s.redirects := rfl
@[simp] theorem onClus_asleep (s : State) (o c : Nat) (f : Cluster → Cluster) : (onClus s o c f).asleep = s.asleep := rfl
@[simp] theorem onClus_moves (s : State) (o c : Nat) (f : Cluster → Cluster) : (onClus s o c f).moves = s.moves := rfl
@[simp] theorem onClus_table (s : State) (o c : Nat) (f : Cluster → Cluster) : (onClus s o c f).table = s.table := rfl
@[simp] theorem onClus_period (s : State) (o c : Nat) (f : Cluster → Cluster) : (onClus s o c f).period = s.period := rfl
@[simp] theorem onClus_fab (s : State) (o c : Nat) (f : Cluster → Cluster) : (onClus s o c f).fab = s.fab := rfl
@[simp] theorem onClus_readyAt (s : State) (o c : Nat) (f : Cluster → Cluster) : (onClus s o c f).readyAt = s.readyAt := rfl
@[simp] theorem onClus_nextT (s : State) (o c : Nat) (f : Cluster → Cluster) : (onClus s o c f).nextT = s.nextT := rfl
@[simp] theorem onClus_deferred (s : State) (o c : Nat) (f : Cluster → Cluster) : (onClus s o c f).deferred = s.deferred := rfl
@[simp] theorem onClus_trowel (s : State) (o c : Nat) (f : Cluster → Cluster) : (onClus s o c f).trowel = s.trowel := rfl
@[simp] theorem onClus_since (s : State) (o c : Nat) (f : Cluster → Cluster) : (onClus s o c f).since = s.since := rfl
@[simp] theorem onClus_slot (s : State) (o c : Nat) (f : Cluster → Cluster) : (onClus s o c f).slot = s.slot := rfl
@[simp] theorem onClus_done (s : State) (o c : Nat) (f : Cluster → Cluster) : (onClus s o c f).done = s.done := rfl
@[simp] theorem onClus_flags (s : State) (o c : Nat) (f : Cluster → Cluster) : (onClus s o c f).flags = s.flags := rfl
@[simp] theorem onClus_swapAt (s : State) (o c : Nat) (f : Cluster → Cluster) : (onClus s o c f).swapAt = s.swapAt := rfl
@[simp] theorem onClus_failed (s : State) (o c : Nat) (f : Cluster → Cluster) : (onClus s o c f).failed = s.failed := rfl
@[simp] theorem onClus_owners (s : State) (o c : Nat) (f : Cluster → Cluster) : (onClus s o c f).owners = s.owners := rfl
@[simp] theorem onClus_launches (s : State) (o c : Nat) (f : Cluster → Cluster) : (onClus s o c f).launches = s.launches := rfl
@[simp] theorem onClus_threads (s : State) (o c : Nat) (f : Cluster → Cluster) : (onClus s o c f).threads = s.threads := rfl
@[simp] theorem onClus_cores (s : State) (o c : Nat) (f : Cluster → Cluster) : (onClus s o c f).cores = s.cores := rfl
@[simp] theorem onClus_gfile (s : State) (o c : Nat) (f : Cluster → Cluster) : (onClus s o c f).gfile = s.gfile := rfl
@[simp] theorem onClus_vfile (s : State) (o c : Nat) (f : Cluster → Cluster) : (onClus s o c f).vfile = s.vfile := rfl
@[simp] theorem onClus_spad (s : State) (o c : Nat) (f : Cluster → Cluster) : (onClus s o c f).spad = s.spad := rfl
@[simp] theorem onClus_spadFE (s : State) (o c : Nat) (f : Cluster → Cluster) : (onClus s o c f).spadFE = s.spadFE := rfl
@[simp] theorem onClus_spadPz (s : State) (o c : Nat) (f : Cluster → Cluster) : (onClus s o c f).spadPz = s.spadPz := rfl
@[simp] theorem onClus_bsram (s : State) (o c : Nat) (f : Cluster → Cluster) : (onClus s o c f).bsram = s.bsram := rfl
@[simp] theorem onClus_bdesc (s : State) (o c : Nat) (f : Cluster → Cluster) : (onClus s o c f).bdesc = s.bdesc := rfl
@[simp] theorem onClus_bpz (s : State) (o c : Nat) (f : Cluster → Cluster) : (onClus s o c f).bpz = s.bpz := rfl
@[simp] theorem onClus_reqs (s : State) (o c : Nat) (f : Cluster → Cluster) : (onClus s o c f).reqs = s.reqs := rfl
@[simp] theorem onClus_replies (s : State) (o c : Nat) (f : Cluster → Cluster) : (onClus s o c f).replies = s.replies := rfl
@[simp] theorem onClus_combines (s : State) (o c : Nat) (f : Cluster → Cluster) : (onClus s o c f).combines = s.combines := rfl
@[simp] theorem onClus_walks (s : State) (o c : Nat) (f : Cluster → Cluster) : (onClus s o c f).walks = s.walks := rfl
@[simp] theorem onClus_rwrites (s : State) (o c : Nat) (f : Cluster → Cluster) : (onClus s o c f).rwrites = s.rwrites := rfl
@[simp] theorem onClus_barriers (s : State) (o c : Nat) (f : Cluster → Cluster) : (onClus s o c f).barriers = s.barriers := rfl
@[simp] theorem onClus_saves (s : State) (o c : Nat) (f : Cluster → Cluster) : (onClus s o c f).saves = s.saves := rfl
@[simp] theorem onClus_images (s : State) (o c : Nat) (f : Cluster → Cluster) : (onClus s o c f).images = s.images := rfl
@[simp] theorem onClus_log (s : State) (o c : Nat) (f : Cluster → Cluster) : (onClus s o c f).log = s.log := rfl
@[simp] theorem onClus_dropped (s : State) (o c : Nat) (f : Cluster → Cluster) : (onClus s o c f).dropped = s.dropped := rfl
@[simp] theorem onClus_errs (s : State) (o c : Nat) (f : Cluster → Cluster) : (onClus s o c f).errs = s.errs := rfl
@[simp] theorem onClus_flips (s : State) (o c : Nat) (f : Cluster → Cluster) : (onClus s o c f).flips = s.flips := rfl
@[simp] theorem onClus_errAt (s : State) (o c : Nat) (f : Cluster → Cluster) : (onClus s o c f).errAt = s.errAt := rfl
@[simp] theorem onClus_controlAt (s : State) (o c : Nat) (f : Cluster → Cluster) : (onClus s o c f).controlAt = s.controlAt := rfl
@[simp] theorem onClus_temps (s : State) (o c : Nat) (f : Cluster → Cluster) : (onClus s o c f).temps = s.temps := rfl
@[simp] theorem onClus_balanceAt (s : State) (o c : Nat) (f : Cluster → Cluster) : (onClus s o c f).balanceAt = s.balanceAt := rfl
@[simp] theorem onClus_patrolAt (s : State) (o c : Nat) (f : Cluster → Cluster) : (onClus s o c f).patrolAt = s.patrolAt := rfl
@[simp] theorem onClus_slopes (s : State) (o c : Nat) (f : Cluster → Cluster) : (onClus s o c f).slopes = s.slopes := rfl
@[simp] theorem onClus_cap (s : State) (o c : Nat) (f : Cluster → Cluster) : (onClus s o c f).cap = s.cap := rfl
@[simp] theorem onClus_ports (s : State) (o c : Nat) (f : Cluster → Cluster) : (onClus s o c f).ports = s.ports := rfl
@[simp] theorem onClus_bufs (s : State) (o c : Nat) (f : Cluster → Cluster) : (onClus s o c f).bufs = s.bufs := rfl
@[simp] theorem onClus_credits (s : State) (o c : Nat) (f : Cluster → Cluster) : (onClus s o c f).credits = s.credits := rfl
@[simp] theorem onClus_reduces (s : State) (o c : Nat) (f : Cluster → Cluster) : (onClus s o c f).reduces = s.reduces := rfl
@[simp] theorem onClus_agenda (s : State) (o c : Nat) (f : Cluster → Cluster) : (onClus s o c f).agenda = s.agenda := rfl
@[simp] theorem onClus_tick (s : State) (o c : Nat) (f : Cluster → Cluster) : (onClus s o c f).tick = s.tick := rfl
@[simp] theorem onClus_nextId (s : State) (o c : Nat) (f : Cluster → Cluster) : (onClus s o c f).nextId = s.nextId := rfl
@[simp] theorem onClus_cur (s : State) (o c : Nat) (f : Cluster → Cluster) : (onClus s o c f).cur = s.cur := rfl
@[simp] theorem onClus_logWait (s : State) (o c : Nat) (f : Cluster → Cluster) : (onClus s o c f).logWait = s.logWait := rfl
@[simp] theorem onClus_engines (s : State) (o c : Nat) (f : Cluster → Cluster) : (onClus s o c f).engines = s.engines := rfl
@[simp] theorem onClus_epochTop (s : State) (o c : Nat) (f : Cluster → Cluster) : (onClus s o c f).epochTop = s.epochTop := rfl
@[simp] theorem onClus_capDue (s : State) (o c : Nat) (f : Cluster → Cluster) : (onClus s o c f).capDue = s.capDue := rfl
@[simp] theorem onClus_early (s : State) (o c : Nat) (f : Cluster → Cluster) : (onClus s o c f).early = s.early := rfl
@[simp] theorem onClus_hotSeen (s : State) (o c : Nat) (f : Cluster → Cluster) : (onClus s o c f).hotSeen = s.hotSeen := rfl

/-! ## onThr -/

@[simp] theorem onThr_power (s : State) (o tid : Nat) (f : Thread → Thread) : (onThr s o tid f).power = s.power := rfl
@[simp] theorem onThr_saving (s : State) (o tid : Nat) (f : Thread → Thread) : (onThr s o tid f).saving = s.saving := rfl
@[simp] theorem onThr_restoring (s : State) (o tid : Nat) (f : Thread → Thread) : (onThr s o tid f).restoring = s.restoring := rfl
@[simp] theorem onThr_cqbase (s : State) (o tid : Nat) (f : Thread → Thread) : (onThr s o tid f).cqbase = s.cqbase := rfl
@[simp] theorem onThr_cqen (s : State) (o tid : Nat) (f : Thread → Thread) : (onThr s o tid f).cqen = s.cqen := rfl
@[simp] theorem onThr_cqsize (s : State) (o tid : Nat) (f : Thread → Thread) : (onThr s o tid f).cqsize = s.cqsize := rfl
@[simp] theorem onThr_cqirq (s : State) (o tid : Nat) (f : Thread → Thread) : (onThr s o tid f).cqirq = s.cqirq := rfl
@[simp] theorem onThr_cqtail (s : State) (o tid : Nat) (f : Thread → Thread) : (onThr s o tid f).cqtail = s.cqtail := rfl
@[simp] theorem onThr_cqhead (s : State) (o tid : Nat) (f : Thread → Thread) : (onThr s o tid f).cqhead = s.cqhead := rfl
@[simp] theorem onThr_badEntry (s : State) (o tid : Nat) (f : Thread → Thread) : (onThr s o tid f).badEntry = s.badEntry := rfl
@[simp] theorem onThr_baseFault (s : State) (o tid : Nat) (f : Thread → Thread) : (onThr s o tid f).baseFault = s.baseFault := rfl
@[simp] theorem onThr_badSize (s : State) (o tid : Nat) (f : Thread → Thread) : (onThr s o tid f).badSize = s.badSize := rfl
@[simp] theorem onThr_cmds (s : State) (o tid : Nat) (f : Thread → Thread) : (onThr s o tid f).cmds = s.cmds := rfl
@[simp] theorem onThr_msix (s : State) (o tid : Nat) (f : Thread → Thread) : (onThr s o tid f).msix = s.msix := rfl
@[simp] theorem onThr_hostAns (s : State) (o tid : Nat) (f : Thread → Thread) : (onThr s o tid f).hostAns = s.hostAns := rfl
@[simp] theorem onThr_mem (s : State) (o tid : Nat) (f : Thread → Thread) : (onThr s o tid f).mem = s.mem := rfl
@[simp] theorem onThr_desc (s : State) (o tid : Nat) (f : Thread → Thread) : (onThr s o tid f).desc = s.desc := rfl
@[simp] theorem onThr_fe (s : State) (o tid : Nat) (f : Thread → Thread) : (onThr s o tid f).fe = s.fe := rfl
@[simp] theorem onThr_tags (s : State) (o tid : Nat) (f : Thread → Thread) : (onThr s o tid f).tags = s.tags := rfl
@[simp] theorem onThr_poison (s : State) (o tid : Nat) (f : Thread → Thread) : (onThr s o tid f).poison = s.poison := rfl
@[simp] theorem onThr_redirects (s : State) (o tid : Nat) (f : Thread → Thread) : (onThr s o tid f).redirects = s.redirects := rfl
@[simp] theorem onThr_asleep (s : State) (o tid : Nat) (f : Thread → Thread) : (onThr s o tid f).asleep = s.asleep := rfl
@[simp] theorem onThr_moves (s : State) (o tid : Nat) (f : Thread → Thread) : (onThr s o tid f).moves = s.moves := rfl
@[simp] theorem onThr_table (s : State) (o tid : Nat) (f : Thread → Thread) : (onThr s o tid f).table = s.table := rfl
@[simp] theorem onThr_period (s : State) (o tid : Nat) (f : Thread → Thread) : (onThr s o tid f).period = s.period := rfl
@[simp] theorem onThr_fab (s : State) (o tid : Nat) (f : Thread → Thread) : (onThr s o tid f).fab = s.fab := rfl
@[simp] theorem onThr_readyAt (s : State) (o tid : Nat) (f : Thread → Thread) : (onThr s o tid f).readyAt = s.readyAt := rfl
@[simp] theorem onThr_nextT (s : State) (o tid : Nat) (f : Thread → Thread) : (onThr s o tid f).nextT = s.nextT := rfl
@[simp] theorem onThr_deferred (s : State) (o tid : Nat) (f : Thread → Thread) : (onThr s o tid f).deferred = s.deferred := rfl
@[simp] theorem onThr_trowel (s : State) (o tid : Nat) (f : Thread → Thread) : (onThr s o tid f).trowel = s.trowel := rfl
@[simp] theorem onThr_since (s : State) (o tid : Nat) (f : Thread → Thread) : (onThr s o tid f).since = s.since := rfl
@[simp] theorem onThr_slot (s : State) (o tid : Nat) (f : Thread → Thread) : (onThr s o tid f).slot = s.slot := rfl
@[simp] theorem onThr_done (s : State) (o tid : Nat) (f : Thread → Thread) : (onThr s o tid f).done = s.done := rfl
@[simp] theorem onThr_flags (s : State) (o tid : Nat) (f : Thread → Thread) : (onThr s o tid f).flags = s.flags := rfl
@[simp] theorem onThr_swapAt (s : State) (o tid : Nat) (f : Thread → Thread) : (onThr s o tid f).swapAt = s.swapAt := rfl
@[simp] theorem onThr_failed (s : State) (o tid : Nat) (f : Thread → Thread) : (onThr s o tid f).failed = s.failed := rfl
@[simp] theorem onThr_owners (s : State) (o tid : Nat) (f : Thread → Thread) : (onThr s o tid f).owners = s.owners := rfl
@[simp] theorem onThr_launches (s : State) (o tid : Nat) (f : Thread → Thread) : (onThr s o tid f).launches = s.launches := rfl
@[simp] theorem onThr_cores (s : State) (o tid : Nat) (f : Thread → Thread) : (onThr s o tid f).cores = s.cores := rfl
@[simp] theorem onThr_clusters (s : State) (o tid : Nat) (f : Thread → Thread) : (onThr s o tid f).clusters = s.clusters := rfl
@[simp] theorem onThr_gfile (s : State) (o tid : Nat) (f : Thread → Thread) : (onThr s o tid f).gfile = s.gfile := rfl
@[simp] theorem onThr_vfile (s : State) (o tid : Nat) (f : Thread → Thread) : (onThr s o tid f).vfile = s.vfile := rfl
@[simp] theorem onThr_spad (s : State) (o tid : Nat) (f : Thread → Thread) : (onThr s o tid f).spad = s.spad := rfl
@[simp] theorem onThr_spadFE (s : State) (o tid : Nat) (f : Thread → Thread) : (onThr s o tid f).spadFE = s.spadFE := rfl
@[simp] theorem onThr_spadPz (s : State) (o tid : Nat) (f : Thread → Thread) : (onThr s o tid f).spadPz = s.spadPz := rfl
@[simp] theorem onThr_bsram (s : State) (o tid : Nat) (f : Thread → Thread) : (onThr s o tid f).bsram = s.bsram := rfl
@[simp] theorem onThr_bdesc (s : State) (o tid : Nat) (f : Thread → Thread) : (onThr s o tid f).bdesc = s.bdesc := rfl
@[simp] theorem onThr_bpz (s : State) (o tid : Nat) (f : Thread → Thread) : (onThr s o tid f).bpz = s.bpz := rfl
@[simp] theorem onThr_reqs (s : State) (o tid : Nat) (f : Thread → Thread) : (onThr s o tid f).reqs = s.reqs := rfl
@[simp] theorem onThr_replies (s : State) (o tid : Nat) (f : Thread → Thread) : (onThr s o tid f).replies = s.replies := rfl
@[simp] theorem onThr_combines (s : State) (o tid : Nat) (f : Thread → Thread) : (onThr s o tid f).combines = s.combines := rfl
@[simp] theorem onThr_walks (s : State) (o tid : Nat) (f : Thread → Thread) : (onThr s o tid f).walks = s.walks := rfl
@[simp] theorem onThr_rwrites (s : State) (o tid : Nat) (f : Thread → Thread) : (onThr s o tid f).rwrites = s.rwrites := rfl
@[simp] theorem onThr_barriers (s : State) (o tid : Nat) (f : Thread → Thread) : (onThr s o tid f).barriers = s.barriers := rfl
@[simp] theorem onThr_saves (s : State) (o tid : Nat) (f : Thread → Thread) : (onThr s o tid f).saves = s.saves := rfl
@[simp] theorem onThr_images (s : State) (o tid : Nat) (f : Thread → Thread) : (onThr s o tid f).images = s.images := rfl
@[simp] theorem onThr_log (s : State) (o tid : Nat) (f : Thread → Thread) : (onThr s o tid f).log = s.log := rfl
@[simp] theorem onThr_dropped (s : State) (o tid : Nat) (f : Thread → Thread) : (onThr s o tid f).dropped = s.dropped := rfl
@[simp] theorem onThr_errs (s : State) (o tid : Nat) (f : Thread → Thread) : (onThr s o tid f).errs = s.errs := rfl
@[simp] theorem onThr_flips (s : State) (o tid : Nat) (f : Thread → Thread) : (onThr s o tid f).flips = s.flips := rfl
@[simp] theorem onThr_errAt (s : State) (o tid : Nat) (f : Thread → Thread) : (onThr s o tid f).errAt = s.errAt := rfl
@[simp] theorem onThr_controlAt (s : State) (o tid : Nat) (f : Thread → Thread) : (onThr s o tid f).controlAt = s.controlAt := rfl
@[simp] theorem onThr_temps (s : State) (o tid : Nat) (f : Thread → Thread) : (onThr s o tid f).temps = s.temps := rfl
@[simp] theorem onThr_balanceAt (s : State) (o tid : Nat) (f : Thread → Thread) : (onThr s o tid f).balanceAt = s.balanceAt := rfl
@[simp] theorem onThr_patrolAt (s : State) (o tid : Nat) (f : Thread → Thread) : (onThr s o tid f).patrolAt = s.patrolAt := rfl
@[simp] theorem onThr_slopes (s : State) (o tid : Nat) (f : Thread → Thread) : (onThr s o tid f).slopes = s.slopes := rfl
@[simp] theorem onThr_cap (s : State) (o tid : Nat) (f : Thread → Thread) : (onThr s o tid f).cap = s.cap := rfl
@[simp] theorem onThr_ports (s : State) (o tid : Nat) (f : Thread → Thread) : (onThr s o tid f).ports = s.ports := rfl
@[simp] theorem onThr_bufs (s : State) (o tid : Nat) (f : Thread → Thread) : (onThr s o tid f).bufs = s.bufs := rfl
@[simp] theorem onThr_credits (s : State) (o tid : Nat) (f : Thread → Thread) : (onThr s o tid f).credits = s.credits := rfl
@[simp] theorem onThr_reduces (s : State) (o tid : Nat) (f : Thread → Thread) : (onThr s o tid f).reduces = s.reduces := rfl
@[simp] theorem onThr_agenda (s : State) (o tid : Nat) (f : Thread → Thread) : (onThr s o tid f).agenda = s.agenda := rfl
@[simp] theorem onThr_tick (s : State) (o tid : Nat) (f : Thread → Thread) : (onThr s o tid f).tick = s.tick := rfl
@[simp] theorem onThr_nextId (s : State) (o tid : Nat) (f : Thread → Thread) : (onThr s o tid f).nextId = s.nextId := rfl
@[simp] theorem onThr_cur (s : State) (o tid : Nat) (f : Thread → Thread) : (onThr s o tid f).cur = s.cur := rfl
@[simp] theorem onThr_logWait (s : State) (o tid : Nat) (f : Thread → Thread) : (onThr s o tid f).logWait = s.logWait := rfl
@[simp] theorem onThr_engines (s : State) (o tid : Nat) (f : Thread → Thread) : (onThr s o tid f).engines = s.engines := rfl
@[simp] theorem onThr_epochTop (s : State) (o tid : Nat) (f : Thread → Thread) : (onThr s o tid f).epochTop = s.epochTop := rfl
@[simp] theorem onThr_capDue (s : State) (o tid : Nat) (f : Thread → Thread) : (onThr s o tid f).capDue = s.capDue := rfl
@[simp] theorem onThr_early (s : State) (o tid : Nat) (f : Thread → Thread) : (onThr s o tid f).early = s.early := rfl
@[simp] theorem onThr_hotSeen (s : State) (o tid : Nat) (f : Thread → Thread) : (onThr s o tid f).hotSeen = s.hotSeen := rfl

/-! ## onLch -/

@[simp] theorem onLch_power (s : State) (o id : Nat) (f : Launch → Launch) : (onLch s o id f).power = s.power := rfl
@[simp] theorem onLch_saving (s : State) (o id : Nat) (f : Launch → Launch) : (onLch s o id f).saving = s.saving := rfl
@[simp] theorem onLch_restoring (s : State) (o id : Nat) (f : Launch → Launch) : (onLch s o id f).restoring = s.restoring := rfl
@[simp] theorem onLch_cqbase (s : State) (o id : Nat) (f : Launch → Launch) : (onLch s o id f).cqbase = s.cqbase := rfl
@[simp] theorem onLch_cqen (s : State) (o id : Nat) (f : Launch → Launch) : (onLch s o id f).cqen = s.cqen := rfl
@[simp] theorem onLch_cqsize (s : State) (o id : Nat) (f : Launch → Launch) : (onLch s o id f).cqsize = s.cqsize := rfl
@[simp] theorem onLch_cqirq (s : State) (o id : Nat) (f : Launch → Launch) : (onLch s o id f).cqirq = s.cqirq := rfl
@[simp] theorem onLch_cqtail (s : State) (o id : Nat) (f : Launch → Launch) : (onLch s o id f).cqtail = s.cqtail := rfl
@[simp] theorem onLch_cqhead (s : State) (o id : Nat) (f : Launch → Launch) : (onLch s o id f).cqhead = s.cqhead := rfl
@[simp] theorem onLch_badEntry (s : State) (o id : Nat) (f : Launch → Launch) : (onLch s o id f).badEntry = s.badEntry := rfl
@[simp] theorem onLch_baseFault (s : State) (o id : Nat) (f : Launch → Launch) : (onLch s o id f).baseFault = s.baseFault := rfl
@[simp] theorem onLch_badSize (s : State) (o id : Nat) (f : Launch → Launch) : (onLch s o id f).badSize = s.badSize := rfl
@[simp] theorem onLch_cmds (s : State) (o id : Nat) (f : Launch → Launch) : (onLch s o id f).cmds = s.cmds := rfl
@[simp] theorem onLch_msix (s : State) (o id : Nat) (f : Launch → Launch) : (onLch s o id f).msix = s.msix := rfl
@[simp] theorem onLch_hostAns (s : State) (o id : Nat) (f : Launch → Launch) : (onLch s o id f).hostAns = s.hostAns := rfl
@[simp] theorem onLch_mem (s : State) (o id : Nat) (f : Launch → Launch) : (onLch s o id f).mem = s.mem := rfl
@[simp] theorem onLch_desc (s : State) (o id : Nat) (f : Launch → Launch) : (onLch s o id f).desc = s.desc := rfl
@[simp] theorem onLch_fe (s : State) (o id : Nat) (f : Launch → Launch) : (onLch s o id f).fe = s.fe := rfl
@[simp] theorem onLch_tags (s : State) (o id : Nat) (f : Launch → Launch) : (onLch s o id f).tags = s.tags := rfl
@[simp] theorem onLch_poison (s : State) (o id : Nat) (f : Launch → Launch) : (onLch s o id f).poison = s.poison := rfl
@[simp] theorem onLch_redirects (s : State) (o id : Nat) (f : Launch → Launch) : (onLch s o id f).redirects = s.redirects := rfl
@[simp] theorem onLch_asleep (s : State) (o id : Nat) (f : Launch → Launch) : (onLch s o id f).asleep = s.asleep := rfl
@[simp] theorem onLch_moves (s : State) (o id : Nat) (f : Launch → Launch) : (onLch s o id f).moves = s.moves := rfl
@[simp] theorem onLch_table (s : State) (o id : Nat) (f : Launch → Launch) : (onLch s o id f).table = s.table := rfl
@[simp] theorem onLch_period (s : State) (o id : Nat) (f : Launch → Launch) : (onLch s o id f).period = s.period := rfl
@[simp] theorem onLch_fab (s : State) (o id : Nat) (f : Launch → Launch) : (onLch s o id f).fab = s.fab := rfl
@[simp] theorem onLch_readyAt (s : State) (o id : Nat) (f : Launch → Launch) : (onLch s o id f).readyAt = s.readyAt := rfl
@[simp] theorem onLch_nextT (s : State) (o id : Nat) (f : Launch → Launch) : (onLch s o id f).nextT = s.nextT := rfl
@[simp] theorem onLch_deferred (s : State) (o id : Nat) (f : Launch → Launch) : (onLch s o id f).deferred = s.deferred := rfl
@[simp] theorem onLch_trowel (s : State) (o id : Nat) (f : Launch → Launch) : (onLch s o id f).trowel = s.trowel := rfl
@[simp] theorem onLch_since (s : State) (o id : Nat) (f : Launch → Launch) : (onLch s o id f).since = s.since := rfl
@[simp] theorem onLch_slot (s : State) (o id : Nat) (f : Launch → Launch) : (onLch s o id f).slot = s.slot := rfl
@[simp] theorem onLch_done (s : State) (o id : Nat) (f : Launch → Launch) : (onLch s o id f).done = s.done := rfl
@[simp] theorem onLch_flags (s : State) (o id : Nat) (f : Launch → Launch) : (onLch s o id f).flags = s.flags := rfl
@[simp] theorem onLch_swapAt (s : State) (o id : Nat) (f : Launch → Launch) : (onLch s o id f).swapAt = s.swapAt := rfl
@[simp] theorem onLch_failed (s : State) (o id : Nat) (f : Launch → Launch) : (onLch s o id f).failed = s.failed := rfl
@[simp] theorem onLch_owners (s : State) (o id : Nat) (f : Launch → Launch) : (onLch s o id f).owners = s.owners := rfl
@[simp] theorem onLch_threads (s : State) (o id : Nat) (f : Launch → Launch) : (onLch s o id f).threads = s.threads := rfl
@[simp] theorem onLch_cores (s : State) (o id : Nat) (f : Launch → Launch) : (onLch s o id f).cores = s.cores := rfl
@[simp] theorem onLch_clusters (s : State) (o id : Nat) (f : Launch → Launch) : (onLch s o id f).clusters = s.clusters := rfl
@[simp] theorem onLch_gfile (s : State) (o id : Nat) (f : Launch → Launch) : (onLch s o id f).gfile = s.gfile := rfl
@[simp] theorem onLch_vfile (s : State) (o id : Nat) (f : Launch → Launch) : (onLch s o id f).vfile = s.vfile := rfl
@[simp] theorem onLch_spad (s : State) (o id : Nat) (f : Launch → Launch) : (onLch s o id f).spad = s.spad := rfl
@[simp] theorem onLch_spadFE (s : State) (o id : Nat) (f : Launch → Launch) : (onLch s o id f).spadFE = s.spadFE := rfl
@[simp] theorem onLch_spadPz (s : State) (o id : Nat) (f : Launch → Launch) : (onLch s o id f).spadPz = s.spadPz := rfl
@[simp] theorem onLch_bsram (s : State) (o id : Nat) (f : Launch → Launch) : (onLch s o id f).bsram = s.bsram := rfl
@[simp] theorem onLch_bdesc (s : State) (o id : Nat) (f : Launch → Launch) : (onLch s o id f).bdesc = s.bdesc := rfl
@[simp] theorem onLch_bpz (s : State) (o id : Nat) (f : Launch → Launch) : (onLch s o id f).bpz = s.bpz := rfl
@[simp] theorem onLch_reqs (s : State) (o id : Nat) (f : Launch → Launch) : (onLch s o id f).reqs = s.reqs := rfl
@[simp] theorem onLch_replies (s : State) (o id : Nat) (f : Launch → Launch) : (onLch s o id f).replies = s.replies := rfl
@[simp] theorem onLch_combines (s : State) (o id : Nat) (f : Launch → Launch) : (onLch s o id f).combines = s.combines := rfl
@[simp] theorem onLch_walks (s : State) (o id : Nat) (f : Launch → Launch) : (onLch s o id f).walks = s.walks := rfl
@[simp] theorem onLch_rwrites (s : State) (o id : Nat) (f : Launch → Launch) : (onLch s o id f).rwrites = s.rwrites := rfl
@[simp] theorem onLch_barriers (s : State) (o id : Nat) (f : Launch → Launch) : (onLch s o id f).barriers = s.barriers := rfl
@[simp] theorem onLch_saves (s : State) (o id : Nat) (f : Launch → Launch) : (onLch s o id f).saves = s.saves := rfl
@[simp] theorem onLch_images (s : State) (o id : Nat) (f : Launch → Launch) : (onLch s o id f).images = s.images := rfl
@[simp] theorem onLch_log (s : State) (o id : Nat) (f : Launch → Launch) : (onLch s o id f).log = s.log := rfl
@[simp] theorem onLch_dropped (s : State) (o id : Nat) (f : Launch → Launch) : (onLch s o id f).dropped = s.dropped := rfl
@[simp] theorem onLch_errs (s : State) (o id : Nat) (f : Launch → Launch) : (onLch s o id f).errs = s.errs := rfl
@[simp] theorem onLch_flips (s : State) (o id : Nat) (f : Launch → Launch) : (onLch s o id f).flips = s.flips := rfl
@[simp] theorem onLch_errAt (s : State) (o id : Nat) (f : Launch → Launch) : (onLch s o id f).errAt = s.errAt := rfl
@[simp] theorem onLch_controlAt (s : State) (o id : Nat) (f : Launch → Launch) : (onLch s o id f).controlAt = s.controlAt := rfl
@[simp] theorem onLch_temps (s : State) (o id : Nat) (f : Launch → Launch) : (onLch s o id f).temps = s.temps := rfl
@[simp] theorem onLch_balanceAt (s : State) (o id : Nat) (f : Launch → Launch) : (onLch s o id f).balanceAt = s.balanceAt := rfl
@[simp] theorem onLch_patrolAt (s : State) (o id : Nat) (f : Launch → Launch) : (onLch s o id f).patrolAt = s.patrolAt := rfl
@[simp] theorem onLch_slopes (s : State) (o id : Nat) (f : Launch → Launch) : (onLch s o id f).slopes = s.slopes := rfl
@[simp] theorem onLch_cap (s : State) (o id : Nat) (f : Launch → Launch) : (onLch s o id f).cap = s.cap := rfl
@[simp] theorem onLch_ports (s : State) (o id : Nat) (f : Launch → Launch) : (onLch s o id f).ports = s.ports := rfl
@[simp] theorem onLch_bufs (s : State) (o id : Nat) (f : Launch → Launch) : (onLch s o id f).bufs = s.bufs := rfl
@[simp] theorem onLch_credits (s : State) (o id : Nat) (f : Launch → Launch) : (onLch s o id f).credits = s.credits := rfl
@[simp] theorem onLch_reduces (s : State) (o id : Nat) (f : Launch → Launch) : (onLch s o id f).reduces = s.reduces := rfl
@[simp] theorem onLch_agenda (s : State) (o id : Nat) (f : Launch → Launch) : (onLch s o id f).agenda = s.agenda := rfl
@[simp] theorem onLch_tick (s : State) (o id : Nat) (f : Launch → Launch) : (onLch s o id f).tick = s.tick := rfl
@[simp] theorem onLch_nextId (s : State) (o id : Nat) (f : Launch → Launch) : (onLch s o id f).nextId = s.nextId := rfl
@[simp] theorem onLch_cur (s : State) (o id : Nat) (f : Launch → Launch) : (onLch s o id f).cur = s.cur := rfl
@[simp] theorem onLch_logWait (s : State) (o id : Nat) (f : Launch → Launch) : (onLch s o id f).logWait = s.logWait := rfl
@[simp] theorem onLch_engines (s : State) (o id : Nat) (f : Launch → Launch) : (onLch s o id f).engines = s.engines := rfl
@[simp] theorem onLch_epochTop (s : State) (o id : Nat) (f : Launch → Launch) : (onLch s o id f).epochTop = s.epochTop := rfl
@[simp] theorem onLch_capDue (s : State) (o id : Nat) (f : Launch → Launch) : (onLch s o id f).capDue = s.capDue := rfl
@[simp] theorem onLch_early (s : State) (o id : Nat) (f : Launch → Launch) : (onLch s o id f).early = s.early := rfl
@[simp] theorem onLch_hotSeen (s : State) (o id : Nat) (f : Launch → Launch) : (onLch s o id f).hotSeen = s.hotSeen := rfl

/-! ## bare -/

@[simp] theorem bare_power (s : State) : (bare s).power = s.power := rfl
@[simp] theorem bare_saving (s : State) : (bare s).saving = s.saving := rfl
@[simp] theorem bare_restoring (s : State) : (bare s).restoring = s.restoring := rfl
@[simp] theorem bare_cqbase (s : State) : (bare s).cqbase = s.cqbase := rfl
@[simp] theorem bare_cqen (s : State) : (bare s).cqen = s.cqen := rfl
@[simp] theorem bare_cqsize (s : State) : (bare s).cqsize = s.cqsize := rfl
@[simp] theorem bare_cqirq (s : State) : (bare s).cqirq = s.cqirq := rfl
@[simp] theorem bare_cqtail (s : State) : (bare s).cqtail = s.cqtail := rfl
@[simp] theorem bare_cqhead (s : State) : (bare s).cqhead = s.cqhead := rfl
@[simp] theorem bare_badEntry (s : State) : (bare s).badEntry = s.badEntry := rfl
@[simp] theorem bare_baseFault (s : State) : (bare s).baseFault = s.baseFault := rfl
@[simp] theorem bare_badSize (s : State) : (bare s).badSize = s.badSize := rfl
@[simp] theorem bare_cmds (s : State) : (bare s).cmds = s.cmds := rfl
@[simp] theorem bare_msix (s : State) : (bare s).msix = s.msix := rfl
@[simp] theorem bare_hostAns (s : State) : (bare s).hostAns = s.hostAns := rfl
@[simp] theorem bare_mem (s : State) : (bare s).mem = s.mem := rfl
@[simp] theorem bare_desc (s : State) : (bare s).desc = s.desc := rfl
@[simp] theorem bare_fe (s : State) : (bare s).fe = s.fe := rfl
@[simp] theorem bare_tags (s : State) : (bare s).tags = s.tags := rfl
@[simp] theorem bare_poison (s : State) : (bare s).poison = s.poison := rfl
@[simp] theorem bare_redirects (s : State) : (bare s).redirects = s.redirects := rfl
@[simp] theorem bare_asleep (s : State) : (bare s).asleep = s.asleep := rfl
@[simp] theorem bare_moves (s : State) : (bare s).moves = s.moves := rfl
@[simp] theorem bare_table (s : State) : (bare s).table = s.table := rfl
@[simp] theorem bare_period (s : State) : (bare s).period = s.period := rfl
@[simp] theorem bare_fab (s : State) : (bare s).fab = s.fab := rfl
@[simp] theorem bare_readyAt (s : State) : (bare s).readyAt = s.readyAt := rfl
@[simp] theorem bare_nextT (s : State) : (bare s).nextT = s.nextT := rfl
@[simp] theorem bare_deferred (s : State) : (bare s).deferred = s.deferred := rfl
@[simp] theorem bare_trowel (s : State) : (bare s).trowel = s.trowel := rfl
@[simp] theorem bare_since (s : State) : (bare s).since = s.since := rfl
@[simp] theorem bare_slot (s : State) : (bare s).slot = s.slot := rfl
@[simp] theorem bare_done (s : State) : (bare s).done = s.done := rfl
@[simp] theorem bare_flags (s : State) : (bare s).flags = s.flags := rfl
@[simp] theorem bare_swapAt (s : State) : (bare s).swapAt = s.swapAt := rfl
@[simp] theorem bare_failed (s : State) : (bare s).failed = s.failed := rfl
@[simp] theorem bare_owners (s : State) : (bare s).owners = s.owners := rfl
@[simp] theorem bare_launches (s : State) : (bare s).launches = s.launches := rfl
@[simp] theorem bare_threads (s : State) : (bare s).threads = s.threads := rfl
@[simp] theorem bare_cores (s : State) : (bare s).cores = s.cores := rfl
@[simp] theorem bare_clusters (s : State) : (bare s).clusters = s.clusters := rfl
@[simp] theorem bare_gfile (s : State) : (bare s).gfile = s.gfile := rfl
@[simp] theorem bare_vfile (s : State) : (bare s).vfile = s.vfile := rfl
@[simp] theorem bare_spad (s : State) : (bare s).spad = s.spad := rfl
@[simp] theorem bare_spadFE (s : State) : (bare s).spadFE = s.spadFE := rfl
@[simp] theorem bare_spadPz (s : State) : (bare s).spadPz = s.spadPz := rfl
@[simp] theorem bare_bsram (s : State) : (bare s).bsram = s.bsram := rfl
@[simp] theorem bare_bdesc (s : State) : (bare s).bdesc = s.bdesc := rfl
@[simp] theorem bare_bpz (s : State) : (bare s).bpz = s.bpz := rfl
@[simp] theorem bare_reqs (s : State) : (bare s).reqs = s.reqs := rfl
@[simp] theorem bare_replies (s : State) : (bare s).replies = s.replies := rfl
@[simp] theorem bare_combines (s : State) : (bare s).combines = s.combines := rfl
@[simp] theorem bare_walks (s : State) : (bare s).walks = s.walks := rfl
@[simp] theorem bare_rwrites (s : State) : (bare s).rwrites = s.rwrites := rfl
@[simp] theorem bare_barriers (s : State) : (bare s).barriers = s.barriers := rfl
@[simp] theorem bare_saves (s : State) : (bare s).saves = s.saves := rfl
@[simp] theorem bare_images (s : State) : (bare s).images = s.images := rfl
@[simp] theorem bare_log (s : State) : (bare s).log = s.log := rfl
@[simp] theorem bare_dropped (s : State) : (bare s).dropped = s.dropped := rfl
@[simp] theorem bare_errs (s : State) : (bare s).errs = s.errs := rfl
@[simp] theorem bare_flips (s : State) : (bare s).flips = s.flips := rfl
@[simp] theorem bare_errAt (s : State) : (bare s).errAt = s.errAt := rfl
@[simp] theorem bare_controlAt (s : State) : (bare s).controlAt = s.controlAt := rfl
@[simp] theorem bare_temps (s : State) : (bare s).temps = s.temps := rfl
@[simp] theorem bare_balanceAt (s : State) : (bare s).balanceAt = s.balanceAt := rfl
@[simp] theorem bare_patrolAt (s : State) : (bare s).patrolAt = s.patrolAt := rfl
@[simp] theorem bare_slopes (s : State) : (bare s).slopes = s.slopes := rfl
@[simp] theorem bare_cap (s : State) : (bare s).cap = s.cap := rfl
@[simp] theorem bare_ports (s : State) : (bare s).ports = s.ports := rfl
@[simp] theorem bare_bufs (s : State) : (bare s).bufs = s.bufs := rfl
@[simp] theorem bare_credits (s : State) : (bare s).credits = s.credits := rfl
@[simp] theorem bare_reduces (s : State) : (bare s).reduces = s.reduces := rfl
@[simp] theorem bare_agenda (s : State) : (bare s).agenda = s.agenda := rfl
@[simp] theorem bare_tick (s : State) : (bare s).tick = s.tick := rfl
@[simp] theorem bare_nextId (s : State) : (bare s).nextId = s.nextId := rfl
@[simp] theorem bare_logWait (s : State) : (bare s).logWait = s.logWait := rfl
@[simp] theorem bare_engines (s : State) : (bare s).engines = s.engines := rfl
@[simp] theorem bare_epochTop (s : State) : (bare s).epochTop = s.epochTop := rfl
@[simp] theorem bare_capDue (s : State) : (bare s).capDue = s.capDue := rfl
@[simp] theorem bare_early (s : State) : (bare s).early = s.early := rfl
@[simp] theorem bare_hotSeen (s : State) : (bare s).hotSeen = s.hotSeen := rfl

/-! ## addReq -/

@[simp] theorem addReq_power (s : State) (r : Req) : (addReq s r).power = s.power := rfl
@[simp] theorem addReq_saving (s : State) (r : Req) : (addReq s r).saving = s.saving := rfl
@[simp] theorem addReq_restoring (s : State) (r : Req) : (addReq s r).restoring = s.restoring := rfl
@[simp] theorem addReq_cqbase (s : State) (r : Req) : (addReq s r).cqbase = s.cqbase := rfl
@[simp] theorem addReq_cqen (s : State) (r : Req) : (addReq s r).cqen = s.cqen := rfl
@[simp] theorem addReq_cqsize (s : State) (r : Req) : (addReq s r).cqsize = s.cqsize := rfl
@[simp] theorem addReq_cqirq (s : State) (r : Req) : (addReq s r).cqirq = s.cqirq := rfl
@[simp] theorem addReq_cqtail (s : State) (r : Req) : (addReq s r).cqtail = s.cqtail := rfl
@[simp] theorem addReq_cqhead (s : State) (r : Req) : (addReq s r).cqhead = s.cqhead := rfl
@[simp] theorem addReq_badEntry (s : State) (r : Req) : (addReq s r).badEntry = s.badEntry := rfl
@[simp] theorem addReq_baseFault (s : State) (r : Req) : (addReq s r).baseFault = s.baseFault := rfl
@[simp] theorem addReq_badSize (s : State) (r : Req) : (addReq s r).badSize = s.badSize := rfl
@[simp] theorem addReq_cmds (s : State) (r : Req) : (addReq s r).cmds = s.cmds := rfl
@[simp] theorem addReq_msix (s : State) (r : Req) : (addReq s r).msix = s.msix := rfl
@[simp] theorem addReq_hostAns (s : State) (r : Req) : (addReq s r).hostAns = s.hostAns := rfl
@[simp] theorem addReq_mem (s : State) (r : Req) : (addReq s r).mem = s.mem := rfl
@[simp] theorem addReq_desc (s : State) (r : Req) : (addReq s r).desc = s.desc := rfl
@[simp] theorem addReq_fe (s : State) (r : Req) : (addReq s r).fe = s.fe := rfl
@[simp] theorem addReq_tags (s : State) (r : Req) : (addReq s r).tags = s.tags := rfl
@[simp] theorem addReq_poison (s : State) (r : Req) : (addReq s r).poison = s.poison := rfl
@[simp] theorem addReq_redirects (s : State) (r : Req) : (addReq s r).redirects = s.redirects := rfl
@[simp] theorem addReq_asleep (s : State) (r : Req) : (addReq s r).asleep = s.asleep := rfl
@[simp] theorem addReq_moves (s : State) (r : Req) : (addReq s r).moves = s.moves := rfl
@[simp] theorem addReq_table (s : State) (r : Req) : (addReq s r).table = s.table := rfl
@[simp] theorem addReq_period (s : State) (r : Req) : (addReq s r).period = s.period := rfl
@[simp] theorem addReq_fab (s : State) (r : Req) : (addReq s r).fab = s.fab := rfl
@[simp] theorem addReq_readyAt (s : State) (r : Req) : (addReq s r).readyAt = s.readyAt := rfl
@[simp] theorem addReq_nextT (s : State) (r : Req) : (addReq s r).nextT = s.nextT := rfl
@[simp] theorem addReq_deferred (s : State) (r : Req) : (addReq s r).deferred = s.deferred := rfl
@[simp] theorem addReq_trowel (s : State) (r : Req) : (addReq s r).trowel = s.trowel := rfl
@[simp] theorem addReq_since (s : State) (r : Req) : (addReq s r).since = s.since := rfl
@[simp] theorem addReq_slot (s : State) (r : Req) : (addReq s r).slot = s.slot := rfl
@[simp] theorem addReq_done (s : State) (r : Req) : (addReq s r).done = s.done := rfl
@[simp] theorem addReq_flags (s : State) (r : Req) : (addReq s r).flags = s.flags := rfl
@[simp] theorem addReq_swapAt (s : State) (r : Req) : (addReq s r).swapAt = s.swapAt := rfl
@[simp] theorem addReq_failed (s : State) (r : Req) : (addReq s r).failed = s.failed := rfl
@[simp] theorem addReq_owners (s : State) (r : Req) : (addReq s r).owners = s.owners := rfl
@[simp] theorem addReq_launches (s : State) (r : Req) : (addReq s r).launches = s.launches := rfl
@[simp] theorem addReq_threads (s : State) (r : Req) : (addReq s r).threads = s.threads := rfl
@[simp] theorem addReq_cores (s : State) (r : Req) : (addReq s r).cores = s.cores := rfl
@[simp] theorem addReq_clusters (s : State) (r : Req) : (addReq s r).clusters = s.clusters := rfl
@[simp] theorem addReq_gfile (s : State) (r : Req) : (addReq s r).gfile = s.gfile := rfl
@[simp] theorem addReq_vfile (s : State) (r : Req) : (addReq s r).vfile = s.vfile := rfl
@[simp] theorem addReq_spad (s : State) (r : Req) : (addReq s r).spad = s.spad := rfl
@[simp] theorem addReq_spadFE (s : State) (r : Req) : (addReq s r).spadFE = s.spadFE := rfl
@[simp] theorem addReq_spadPz (s : State) (r : Req) : (addReq s r).spadPz = s.spadPz := rfl
@[simp] theorem addReq_bsram (s : State) (r : Req) : (addReq s r).bsram = s.bsram := rfl
@[simp] theorem addReq_bdesc (s : State) (r : Req) : (addReq s r).bdesc = s.bdesc := rfl
@[simp] theorem addReq_bpz (s : State) (r : Req) : (addReq s r).bpz = s.bpz := rfl
@[simp] theorem addReq_replies (s : State) (r : Req) : (addReq s r).replies = s.replies := rfl
@[simp] theorem addReq_combines (s : State) (r : Req) : (addReq s r).combines = s.combines := rfl
@[simp] theorem addReq_walks (s : State) (r : Req) : (addReq s r).walks = s.walks := rfl
@[simp] theorem addReq_rwrites (s : State) (r : Req) : (addReq s r).rwrites = s.rwrites := rfl
@[simp] theorem addReq_barriers (s : State) (r : Req) : (addReq s r).barriers = s.barriers := rfl
@[simp] theorem addReq_saves (s : State) (r : Req) : (addReq s r).saves = s.saves := rfl
@[simp] theorem addReq_images (s : State) (r : Req) : (addReq s r).images = s.images := rfl
@[simp] theorem addReq_log (s : State) (r : Req) : (addReq s r).log = s.log := rfl
@[simp] theorem addReq_dropped (s : State) (r : Req) : (addReq s r).dropped = s.dropped := rfl
@[simp] theorem addReq_errs (s : State) (r : Req) : (addReq s r).errs = s.errs := rfl
@[simp] theorem addReq_flips (s : State) (r : Req) : (addReq s r).flips = s.flips := rfl
@[simp] theorem addReq_errAt (s : State) (r : Req) : (addReq s r).errAt = s.errAt := rfl
@[simp] theorem addReq_controlAt (s : State) (r : Req) : (addReq s r).controlAt = s.controlAt := rfl
@[simp] theorem addReq_temps (s : State) (r : Req) : (addReq s r).temps = s.temps := rfl
@[simp] theorem addReq_balanceAt (s : State) (r : Req) : (addReq s r).balanceAt = s.balanceAt := rfl
@[simp] theorem addReq_patrolAt (s : State) (r : Req) : (addReq s r).patrolAt = s.patrolAt := rfl
@[simp] theorem addReq_slopes (s : State) (r : Req) : (addReq s r).slopes = s.slopes := rfl
@[simp] theorem addReq_cap (s : State) (r : Req) : (addReq s r).cap = s.cap := rfl
@[simp] theorem addReq_ports (s : State) (r : Req) : (addReq s r).ports = s.ports := rfl
@[simp] theorem addReq_bufs (s : State) (r : Req) : (addReq s r).bufs = s.bufs := rfl
@[simp] theorem addReq_credits (s : State) (r : Req) : (addReq s r).credits = s.credits := rfl
@[simp] theorem addReq_reduces (s : State) (r : Req) : (addReq s r).reduces = s.reduces := rfl
@[simp] theorem addReq_agenda (s : State) (r : Req) : (addReq s r).agenda = s.agenda := rfl
@[simp] theorem addReq_tick (s : State) (r : Req) : (addReq s r).tick = s.tick := rfl
@[simp] theorem addReq_cur (s : State) (r : Req) : (addReq s r).cur = s.cur := rfl
@[simp] theorem addReq_logWait (s : State) (r : Req) : (addReq s r).logWait = s.logWait := rfl
@[simp] theorem addReq_engines (s : State) (r : Req) : (addReq s r).engines = s.engines := rfl
@[simp] theorem addReq_epochTop (s : State) (r : Req) : (addReq s r).epochTop = s.epochTop := rfl
@[simp] theorem addReq_capDue (s : State) (r : Req) : (addReq s r).capDue = s.capDue := rfl
@[simp] theorem addReq_early (s : State) (r : Req) : (addReq s r).early = s.early := rfl
@[simp] theorem addReq_hotSeen (s : State) (r : Req) : (addReq s r).hotSeen = s.hotSeen := rfl

/-! ## writeV -/

@[simp] theorem writeV_power (s : State) (t : Thread) (r : VReg) (v : Vec) : (writeV s t r v).power = s.power := rfl
@[simp] theorem writeV_saving (s : State) (t : Thread) (r : VReg) (v : Vec) : (writeV s t r v).saving = s.saving := rfl
@[simp] theorem writeV_restoring (s : State) (t : Thread) (r : VReg) (v : Vec) : (writeV s t r v).restoring = s.restoring := rfl
@[simp] theorem writeV_cqbase (s : State) (t : Thread) (r : VReg) (v : Vec) : (writeV s t r v).cqbase = s.cqbase := rfl
@[simp] theorem writeV_cqen (s : State) (t : Thread) (r : VReg) (v : Vec) : (writeV s t r v).cqen = s.cqen := rfl
@[simp] theorem writeV_cqsize (s : State) (t : Thread) (r : VReg) (v : Vec) : (writeV s t r v).cqsize = s.cqsize := rfl
@[simp] theorem writeV_cqirq (s : State) (t : Thread) (r : VReg) (v : Vec) : (writeV s t r v).cqirq = s.cqirq := rfl
@[simp] theorem writeV_cqtail (s : State) (t : Thread) (r : VReg) (v : Vec) : (writeV s t r v).cqtail = s.cqtail := rfl
@[simp] theorem writeV_cqhead (s : State) (t : Thread) (r : VReg) (v : Vec) : (writeV s t r v).cqhead = s.cqhead := rfl
@[simp] theorem writeV_badEntry (s : State) (t : Thread) (r : VReg) (v : Vec) : (writeV s t r v).badEntry = s.badEntry := rfl
@[simp] theorem writeV_baseFault (s : State) (t : Thread) (r : VReg) (v : Vec) : (writeV s t r v).baseFault = s.baseFault := rfl
@[simp] theorem writeV_badSize (s : State) (t : Thread) (r : VReg) (v : Vec) : (writeV s t r v).badSize = s.badSize := rfl
@[simp] theorem writeV_cmds (s : State) (t : Thread) (r : VReg) (v : Vec) : (writeV s t r v).cmds = s.cmds := rfl
@[simp] theorem writeV_msix (s : State) (t : Thread) (r : VReg) (v : Vec) : (writeV s t r v).msix = s.msix := rfl
@[simp] theorem writeV_hostAns (s : State) (t : Thread) (r : VReg) (v : Vec) : (writeV s t r v).hostAns = s.hostAns := rfl
@[simp] theorem writeV_mem (s : State) (t : Thread) (r : VReg) (v : Vec) : (writeV s t r v).mem = s.mem := rfl
@[simp] theorem writeV_desc (s : State) (t : Thread) (r : VReg) (v : Vec) : (writeV s t r v).desc = s.desc := rfl
@[simp] theorem writeV_fe (s : State) (t : Thread) (r : VReg) (v : Vec) : (writeV s t r v).fe = s.fe := rfl
@[simp] theorem writeV_tags (s : State) (t : Thread) (r : VReg) (v : Vec) : (writeV s t r v).tags = s.tags := rfl
@[simp] theorem writeV_poison (s : State) (t : Thread) (r : VReg) (v : Vec) : (writeV s t r v).poison = s.poison := rfl
@[simp] theorem writeV_redirects (s : State) (t : Thread) (r : VReg) (v : Vec) : (writeV s t r v).redirects = s.redirects := rfl
@[simp] theorem writeV_asleep (s : State) (t : Thread) (r : VReg) (v : Vec) : (writeV s t r v).asleep = s.asleep := rfl
@[simp] theorem writeV_moves (s : State) (t : Thread) (r : VReg) (v : Vec) : (writeV s t r v).moves = s.moves := rfl
@[simp] theorem writeV_table (s : State) (t : Thread) (r : VReg) (v : Vec) : (writeV s t r v).table = s.table := rfl
@[simp] theorem writeV_period (s : State) (t : Thread) (r : VReg) (v : Vec) : (writeV s t r v).period = s.period := rfl
@[simp] theorem writeV_fab (s : State) (t : Thread) (r : VReg) (v : Vec) : (writeV s t r v).fab = s.fab := rfl
@[simp] theorem writeV_readyAt (s : State) (t : Thread) (r : VReg) (v : Vec) : (writeV s t r v).readyAt = s.readyAt := rfl
@[simp] theorem writeV_nextT (s : State) (t : Thread) (r : VReg) (v : Vec) : (writeV s t r v).nextT = s.nextT := rfl
@[simp] theorem writeV_deferred (s : State) (t : Thread) (r : VReg) (v : Vec) : (writeV s t r v).deferred = s.deferred := rfl
@[simp] theorem writeV_trowel (s : State) (t : Thread) (r : VReg) (v : Vec) : (writeV s t r v).trowel = s.trowel := rfl
@[simp] theorem writeV_since (s : State) (t : Thread) (r : VReg) (v : Vec) : (writeV s t r v).since = s.since := rfl
@[simp] theorem writeV_slot (s : State) (t : Thread) (r : VReg) (v : Vec) : (writeV s t r v).slot = s.slot := rfl
@[simp] theorem writeV_done (s : State) (t : Thread) (r : VReg) (v : Vec) : (writeV s t r v).done = s.done := rfl
@[simp] theorem writeV_flags (s : State) (t : Thread) (r : VReg) (v : Vec) : (writeV s t r v).flags = s.flags := rfl
@[simp] theorem writeV_swapAt (s : State) (t : Thread) (r : VReg) (v : Vec) : (writeV s t r v).swapAt = s.swapAt := rfl
@[simp] theorem writeV_failed (s : State) (t : Thread) (r : VReg) (v : Vec) : (writeV s t r v).failed = s.failed := rfl
@[simp] theorem writeV_owners (s : State) (t : Thread) (r : VReg) (v : Vec) : (writeV s t r v).owners = s.owners := rfl
@[simp] theorem writeV_launches (s : State) (t : Thread) (r : VReg) (v : Vec) : (writeV s t r v).launches = s.launches := rfl
@[simp] theorem writeV_threads (s : State) (t : Thread) (r : VReg) (v : Vec) : (writeV s t r v).threads = s.threads := rfl
@[simp] theorem writeV_cores (s : State) (t : Thread) (r : VReg) (v : Vec) : (writeV s t r v).cores = s.cores := rfl
@[simp] theorem writeV_clusters (s : State) (t : Thread) (r : VReg) (v : Vec) : (writeV s t r v).clusters = s.clusters := rfl
@[simp] theorem writeV_gfile (s : State) (t : Thread) (r : VReg) (v : Vec) : (writeV s t r v).gfile = s.gfile := rfl
@[simp] theorem writeV_spad (s : State) (t : Thread) (r : VReg) (v : Vec) : (writeV s t r v).spad = s.spad := rfl
@[simp] theorem writeV_spadFE (s : State) (t : Thread) (r : VReg) (v : Vec) : (writeV s t r v).spadFE = s.spadFE := rfl
@[simp] theorem writeV_spadPz (s : State) (t : Thread) (r : VReg) (v : Vec) : (writeV s t r v).spadPz = s.spadPz := rfl
@[simp] theorem writeV_bsram (s : State) (t : Thread) (r : VReg) (v : Vec) : (writeV s t r v).bsram = s.bsram := rfl
@[simp] theorem writeV_bdesc (s : State) (t : Thread) (r : VReg) (v : Vec) : (writeV s t r v).bdesc = s.bdesc := rfl
@[simp] theorem writeV_bpz (s : State) (t : Thread) (r : VReg) (v : Vec) : (writeV s t r v).bpz = s.bpz := rfl
@[simp] theorem writeV_reqs (s : State) (t : Thread) (r : VReg) (v : Vec) : (writeV s t r v).reqs = s.reqs := rfl
@[simp] theorem writeV_replies (s : State) (t : Thread) (r : VReg) (v : Vec) : (writeV s t r v).replies = s.replies := rfl
@[simp] theorem writeV_combines (s : State) (t : Thread) (r : VReg) (v : Vec) : (writeV s t r v).combines = s.combines := rfl
@[simp] theorem writeV_walks (s : State) (t : Thread) (r : VReg) (v : Vec) : (writeV s t r v).walks = s.walks := rfl
@[simp] theorem writeV_rwrites (s : State) (t : Thread) (r : VReg) (v : Vec) : (writeV s t r v).rwrites = s.rwrites := rfl
@[simp] theorem writeV_barriers (s : State) (t : Thread) (r : VReg) (v : Vec) : (writeV s t r v).barriers = s.barriers := rfl
@[simp] theorem writeV_saves (s : State) (t : Thread) (r : VReg) (v : Vec) : (writeV s t r v).saves = s.saves := rfl
@[simp] theorem writeV_images (s : State) (t : Thread) (r : VReg) (v : Vec) : (writeV s t r v).images = s.images := rfl
@[simp] theorem writeV_log (s : State) (t : Thread) (r : VReg) (v : Vec) : (writeV s t r v).log = s.log := rfl
@[simp] theorem writeV_dropped (s : State) (t : Thread) (r : VReg) (v : Vec) : (writeV s t r v).dropped = s.dropped := rfl
@[simp] theorem writeV_errs (s : State) (t : Thread) (r : VReg) (v : Vec) : (writeV s t r v).errs = s.errs := rfl
@[simp] theorem writeV_flips (s : State) (t : Thread) (r : VReg) (v : Vec) : (writeV s t r v).flips = s.flips := rfl
@[simp] theorem writeV_errAt (s : State) (t : Thread) (r : VReg) (v : Vec) : (writeV s t r v).errAt = s.errAt := rfl
@[simp] theorem writeV_controlAt (s : State) (t : Thread) (r : VReg) (v : Vec) : (writeV s t r v).controlAt = s.controlAt := rfl
@[simp] theorem writeV_temps (s : State) (t : Thread) (r : VReg) (v : Vec) : (writeV s t r v).temps = s.temps := rfl
@[simp] theorem writeV_balanceAt (s : State) (t : Thread) (r : VReg) (v : Vec) : (writeV s t r v).balanceAt = s.balanceAt := rfl
@[simp] theorem writeV_patrolAt (s : State) (t : Thread) (r : VReg) (v : Vec) : (writeV s t r v).patrolAt = s.patrolAt := rfl
@[simp] theorem writeV_slopes (s : State) (t : Thread) (r : VReg) (v : Vec) : (writeV s t r v).slopes = s.slopes := rfl
@[simp] theorem writeV_cap (s : State) (t : Thread) (r : VReg) (v : Vec) : (writeV s t r v).cap = s.cap := rfl
@[simp] theorem writeV_ports (s : State) (t : Thread) (r : VReg) (v : Vec) : (writeV s t r v).ports = s.ports := rfl
@[simp] theorem writeV_bufs (s : State) (t : Thread) (r : VReg) (v : Vec) : (writeV s t r v).bufs = s.bufs := rfl
@[simp] theorem writeV_credits (s : State) (t : Thread) (r : VReg) (v : Vec) : (writeV s t r v).credits = s.credits := rfl
@[simp] theorem writeV_reduces (s : State) (t : Thread) (r : VReg) (v : Vec) : (writeV s t r v).reduces = s.reduces := rfl
@[simp] theorem writeV_agenda (s : State) (t : Thread) (r : VReg) (v : Vec) : (writeV s t r v).agenda = s.agenda := rfl
@[simp] theorem writeV_tick (s : State) (t : Thread) (r : VReg) (v : Vec) : (writeV s t r v).tick = s.tick := rfl
@[simp] theorem writeV_nextId (s : State) (t : Thread) (r : VReg) (v : Vec) : (writeV s t r v).nextId = s.nextId := rfl
@[simp] theorem writeV_cur (s : State) (t : Thread) (r : VReg) (v : Vec) : (writeV s t r v).cur = s.cur := rfl
@[simp] theorem writeV_logWait (s : State) (t : Thread) (r : VReg) (v : Vec) : (writeV s t r v).logWait = s.logWait := rfl
@[simp] theorem writeV_engines (s : State) (t : Thread) (r : VReg) (v : Vec) : (writeV s t r v).engines = s.engines := rfl
@[simp] theorem writeV_epochTop (s : State) (t : Thread) (r : VReg) (v : Vec) : (writeV s t r v).epochTop = s.epochTop := rfl
@[simp] theorem writeV_capDue (s : State) (t : Thread) (r : VReg) (v : Vec) : (writeV s t r v).capDue = s.capDue := rfl
@[simp] theorem writeV_early (s : State) (t : Thread) (r : VReg) (v : Vec) : (writeV s t r v).early = s.early := rfl
@[simp] theorem writeV_hotSeen (s : State) (t : Thread) (r : VReg) (v : Vec) : (writeV s t r v).hotSeen = s.hotSeen := rfl

/-! ## writeG -/

@[simp] theorem writeG_power (s : State) (t : Thread) (r : GReg) (v : Word) : (writeG s t r v).power = s.power := by unfold writeG; split <;> rfl
@[simp] theorem writeG_saving (s : State) (t : Thread) (r : GReg) (v : Word) : (writeG s t r v).saving = s.saving := by unfold writeG; split <;> rfl
@[simp] theorem writeG_restoring (s : State) (t : Thread) (r : GReg) (v : Word) : (writeG s t r v).restoring = s.restoring := by unfold writeG; split <;> rfl
@[simp] theorem writeG_cqbase (s : State) (t : Thread) (r : GReg) (v : Word) : (writeG s t r v).cqbase = s.cqbase := by unfold writeG; split <;> rfl
@[simp] theorem writeG_cqen (s : State) (t : Thread) (r : GReg) (v : Word) : (writeG s t r v).cqen = s.cqen := by unfold writeG; split <;> rfl
@[simp] theorem writeG_cqsize (s : State) (t : Thread) (r : GReg) (v : Word) : (writeG s t r v).cqsize = s.cqsize := by unfold writeG; split <;> rfl
@[simp] theorem writeG_cqirq (s : State) (t : Thread) (r : GReg) (v : Word) : (writeG s t r v).cqirq = s.cqirq := by unfold writeG; split <;> rfl
@[simp] theorem writeG_cqtail (s : State) (t : Thread) (r : GReg) (v : Word) : (writeG s t r v).cqtail = s.cqtail := by unfold writeG; split <;> rfl
@[simp] theorem writeG_cqhead (s : State) (t : Thread) (r : GReg) (v : Word) : (writeG s t r v).cqhead = s.cqhead := by unfold writeG; split <;> rfl
@[simp] theorem writeG_badEntry (s : State) (t : Thread) (r : GReg) (v : Word) : (writeG s t r v).badEntry = s.badEntry := by unfold writeG; split <;> rfl
@[simp] theorem writeG_baseFault (s : State) (t : Thread) (r : GReg) (v : Word) : (writeG s t r v).baseFault = s.baseFault := by unfold writeG; split <;> rfl
@[simp] theorem writeG_badSize (s : State) (t : Thread) (r : GReg) (v : Word) : (writeG s t r v).badSize = s.badSize := by unfold writeG; split <;> rfl
@[simp] theorem writeG_cmds (s : State) (t : Thread) (r : GReg) (v : Word) : (writeG s t r v).cmds = s.cmds := by unfold writeG; split <;> rfl
@[simp] theorem writeG_msix (s : State) (t : Thread) (r : GReg) (v : Word) : (writeG s t r v).msix = s.msix := by unfold writeG; split <;> rfl
@[simp] theorem writeG_hostAns (s : State) (t : Thread) (r : GReg) (v : Word) : (writeG s t r v).hostAns = s.hostAns := by unfold writeG; split <;> rfl
@[simp] theorem writeG_mem (s : State) (t : Thread) (r : GReg) (v : Word) : (writeG s t r v).mem = s.mem := by unfold writeG; split <;> rfl
@[simp] theorem writeG_desc (s : State) (t : Thread) (r : GReg) (v : Word) : (writeG s t r v).desc = s.desc := by unfold writeG; split <;> rfl
@[simp] theorem writeG_fe (s : State) (t : Thread) (r : GReg) (v : Word) : (writeG s t r v).fe = s.fe := by unfold writeG; split <;> rfl
@[simp] theorem writeG_tags (s : State) (t : Thread) (r : GReg) (v : Word) : (writeG s t r v).tags = s.tags := by unfold writeG; split <;> rfl
@[simp] theorem writeG_poison (s : State) (t : Thread) (r : GReg) (v : Word) : (writeG s t r v).poison = s.poison := by unfold writeG; split <;> rfl
@[simp] theorem writeG_redirects (s : State) (t : Thread) (r : GReg) (v : Word) : (writeG s t r v).redirects = s.redirects := by unfold writeG; split <;> rfl
@[simp] theorem writeG_asleep (s : State) (t : Thread) (r : GReg) (v : Word) : (writeG s t r v).asleep = s.asleep := by unfold writeG; split <;> rfl
@[simp] theorem writeG_moves (s : State) (t : Thread) (r : GReg) (v : Word) : (writeG s t r v).moves = s.moves := by unfold writeG; split <;> rfl
@[simp] theorem writeG_table (s : State) (t : Thread) (r : GReg) (v : Word) : (writeG s t r v).table = s.table := by unfold writeG; split <;> rfl
@[simp] theorem writeG_period (s : State) (t : Thread) (r : GReg) (v : Word) : (writeG s t r v).period = s.period := by unfold writeG; split <;> rfl
@[simp] theorem writeG_fab (s : State) (t : Thread) (r : GReg) (v : Word) : (writeG s t r v).fab = s.fab := by unfold writeG; split <;> rfl
@[simp] theorem writeG_readyAt (s : State) (t : Thread) (r : GReg) (v : Word) : (writeG s t r v).readyAt = s.readyAt := by unfold writeG; split <;> rfl
@[simp] theorem writeG_nextT (s : State) (t : Thread) (r : GReg) (v : Word) : (writeG s t r v).nextT = s.nextT := by unfold writeG; split <;> rfl
@[simp] theorem writeG_deferred (s : State) (t : Thread) (r : GReg) (v : Word) : (writeG s t r v).deferred = s.deferred := by unfold writeG; split <;> rfl
@[simp] theorem writeG_trowel (s : State) (t : Thread) (r : GReg) (v : Word) : (writeG s t r v).trowel = s.trowel := by unfold writeG; split <;> rfl
@[simp] theorem writeG_since (s : State) (t : Thread) (r : GReg) (v : Word) : (writeG s t r v).since = s.since := by unfold writeG; split <;> rfl
@[simp] theorem writeG_slot (s : State) (t : Thread) (r : GReg) (v : Word) : (writeG s t r v).slot = s.slot := by unfold writeG; split <;> rfl
@[simp] theorem writeG_done (s : State) (t : Thread) (r : GReg) (v : Word) : (writeG s t r v).done = s.done := by unfold writeG; split <;> rfl
@[simp] theorem writeG_flags (s : State) (t : Thread) (r : GReg) (v : Word) : (writeG s t r v).flags = s.flags := by unfold writeG; split <;> rfl
@[simp] theorem writeG_swapAt (s : State) (t : Thread) (r : GReg) (v : Word) : (writeG s t r v).swapAt = s.swapAt := by unfold writeG; split <;> rfl
@[simp] theorem writeG_failed (s : State) (t : Thread) (r : GReg) (v : Word) : (writeG s t r v).failed = s.failed := by unfold writeG; split <;> rfl
@[simp] theorem writeG_owners (s : State) (t : Thread) (r : GReg) (v : Word) : (writeG s t r v).owners = s.owners := by unfold writeG; split <;> rfl
@[simp] theorem writeG_launches (s : State) (t : Thread) (r : GReg) (v : Word) : (writeG s t r v).launches = s.launches := by unfold writeG; split <;> rfl
@[simp] theorem writeG_threads (s : State) (t : Thread) (r : GReg) (v : Word) : (writeG s t r v).threads = s.threads := by unfold writeG; split <;> rfl
@[simp] theorem writeG_cores (s : State) (t : Thread) (r : GReg) (v : Word) : (writeG s t r v).cores = s.cores := by unfold writeG; split <;> rfl
@[simp] theorem writeG_clusters (s : State) (t : Thread) (r : GReg) (v : Word) : (writeG s t r v).clusters = s.clusters := by unfold writeG; split <;> rfl
@[simp] theorem writeG_vfile (s : State) (t : Thread) (r : GReg) (v : Word) : (writeG s t r v).vfile = s.vfile := by unfold writeG; split <;> rfl
@[simp] theorem writeG_spad (s : State) (t : Thread) (r : GReg) (v : Word) : (writeG s t r v).spad = s.spad := by unfold writeG; split <;> rfl
@[simp] theorem writeG_spadFE (s : State) (t : Thread) (r : GReg) (v : Word) : (writeG s t r v).spadFE = s.spadFE := by unfold writeG; split <;> rfl
@[simp] theorem writeG_spadPz (s : State) (t : Thread) (r : GReg) (v : Word) : (writeG s t r v).spadPz = s.spadPz := by unfold writeG; split <;> rfl
@[simp] theorem writeG_bsram (s : State) (t : Thread) (r : GReg) (v : Word) : (writeG s t r v).bsram = s.bsram := by unfold writeG; split <;> rfl
@[simp] theorem writeG_bdesc (s : State) (t : Thread) (r : GReg) (v : Word) : (writeG s t r v).bdesc = s.bdesc := by unfold writeG; split <;> rfl
@[simp] theorem writeG_bpz (s : State) (t : Thread) (r : GReg) (v : Word) : (writeG s t r v).bpz = s.bpz := by unfold writeG; split <;> rfl
@[simp] theorem writeG_reqs (s : State) (t : Thread) (r : GReg) (v : Word) : (writeG s t r v).reqs = s.reqs := by unfold writeG; split <;> rfl
@[simp] theorem writeG_replies (s : State) (t : Thread) (r : GReg) (v : Word) : (writeG s t r v).replies = s.replies := by unfold writeG; split <;> rfl
@[simp] theorem writeG_combines (s : State) (t : Thread) (r : GReg) (v : Word) : (writeG s t r v).combines = s.combines := by unfold writeG; split <;> rfl
@[simp] theorem writeG_walks (s : State) (t : Thread) (r : GReg) (v : Word) : (writeG s t r v).walks = s.walks := by unfold writeG; split <;> rfl
@[simp] theorem writeG_rwrites (s : State) (t : Thread) (r : GReg) (v : Word) : (writeG s t r v).rwrites = s.rwrites := by unfold writeG; split <;> rfl
@[simp] theorem writeG_barriers (s : State) (t : Thread) (r : GReg) (v : Word) : (writeG s t r v).barriers = s.barriers := by unfold writeG; split <;> rfl
@[simp] theorem writeG_saves (s : State) (t : Thread) (r : GReg) (v : Word) : (writeG s t r v).saves = s.saves := by unfold writeG; split <;> rfl
@[simp] theorem writeG_images (s : State) (t : Thread) (r : GReg) (v : Word) : (writeG s t r v).images = s.images := by unfold writeG; split <;> rfl
@[simp] theorem writeG_log (s : State) (t : Thread) (r : GReg) (v : Word) : (writeG s t r v).log = s.log := by unfold writeG; split <;> rfl
@[simp] theorem writeG_dropped (s : State) (t : Thread) (r : GReg) (v : Word) : (writeG s t r v).dropped = s.dropped := by unfold writeG; split <;> rfl
@[simp] theorem writeG_errs (s : State) (t : Thread) (r : GReg) (v : Word) : (writeG s t r v).errs = s.errs := by unfold writeG; split <;> rfl
@[simp] theorem writeG_flips (s : State) (t : Thread) (r : GReg) (v : Word) : (writeG s t r v).flips = s.flips := by unfold writeG; split <;> rfl
@[simp] theorem writeG_errAt (s : State) (t : Thread) (r : GReg) (v : Word) : (writeG s t r v).errAt = s.errAt := by unfold writeG; split <;> rfl
@[simp] theorem writeG_controlAt (s : State) (t : Thread) (r : GReg) (v : Word) : (writeG s t r v).controlAt = s.controlAt := by unfold writeG; split <;> rfl
@[simp] theorem writeG_temps (s : State) (t : Thread) (r : GReg) (v : Word) : (writeG s t r v).temps = s.temps := by unfold writeG; split <;> rfl
@[simp] theorem writeG_balanceAt (s : State) (t : Thread) (r : GReg) (v : Word) : (writeG s t r v).balanceAt = s.balanceAt := by unfold writeG; split <;> rfl
@[simp] theorem writeG_patrolAt (s : State) (t : Thread) (r : GReg) (v : Word) : (writeG s t r v).patrolAt = s.patrolAt := by unfold writeG; split <;> rfl
@[simp] theorem writeG_slopes (s : State) (t : Thread) (r : GReg) (v : Word) : (writeG s t r v).slopes = s.slopes := by unfold writeG; split <;> rfl
@[simp] theorem writeG_cap (s : State) (t : Thread) (r : GReg) (v : Word) : (writeG s t r v).cap = s.cap := by unfold writeG; split <;> rfl
@[simp] theorem writeG_ports (s : State) (t : Thread) (r : GReg) (v : Word) : (writeG s t r v).ports = s.ports := by unfold writeG; split <;> rfl
@[simp] theorem writeG_bufs (s : State) (t : Thread) (r : GReg) (v : Word) : (writeG s t r v).bufs = s.bufs := by unfold writeG; split <;> rfl
@[simp] theorem writeG_credits (s : State) (t : Thread) (r : GReg) (v : Word) : (writeG s t r v).credits = s.credits := by unfold writeG; split <;> rfl
@[simp] theorem writeG_reduces (s : State) (t : Thread) (r : GReg) (v : Word) : (writeG s t r v).reduces = s.reduces := by unfold writeG; split <;> rfl
@[simp] theorem writeG_agenda (s : State) (t : Thread) (r : GReg) (v : Word) : (writeG s t r v).agenda = s.agenda := by unfold writeG; split <;> rfl
@[simp] theorem writeG_tick (s : State) (t : Thread) (r : GReg) (v : Word) : (writeG s t r v).tick = s.tick := by unfold writeG; split <;> rfl
@[simp] theorem writeG_nextId (s : State) (t : Thread) (r : GReg) (v : Word) : (writeG s t r v).nextId = s.nextId := by unfold writeG; split <;> rfl
@[simp] theorem writeG_cur (s : State) (t : Thread) (r : GReg) (v : Word) : (writeG s t r v).cur = s.cur := by unfold writeG; split <;> rfl
@[simp] theorem writeG_logWait (s : State) (t : Thread) (r : GReg) (v : Word) : (writeG s t r v).logWait = s.logWait := by unfold writeG; split <;> rfl
@[simp] theorem writeG_engines (s : State) (t : Thread) (r : GReg) (v : Word) : (writeG s t r v).engines = s.engines := by unfold writeG; split <;> rfl
@[simp] theorem writeG_epochTop (s : State) (t : Thread) (r : GReg) (v : Word) : (writeG s t r v).epochTop = s.epochTop := by unfold writeG; split <;> rfl
@[simp] theorem writeG_capDue (s : State) (t : Thread) (r : GReg) (v : Word) : (writeG s t r v).capDue = s.capDue := by unfold writeG; split <;> rfl
@[simp] theorem writeG_early (s : State) (t : Thread) (r : GReg) (v : Word) : (writeG s t r v).early = s.early := by unfold writeG; split <;> rfl
@[simp] theorem writeG_hotSeen (s : State) (t : Thread) (r : GReg) (v : Word) : (writeG s t r v).hotSeen = s.hotSeen := by unfold writeG; split <;> rfl

/-! ## What the updates write -/

@[simp] theorem onOwner_owners (s : State) (o : Nat) (f : Owner → Owner) : (onOwner s o f).owners = upd s.owners o f := rfl
@[simp] theorem onCore_cores (s : State) (o j : Nat) (f : Core → Core) :
    (onCore s o j f).cores = upd s.cores (coreKey o j) f := rfl
@[simp] theorem onClus_clusters (s : State) (o c : Nat) (f : Cluster → Cluster) :
    (onClus s o c f).clusters = upd s.clusters (clusKey o c) f := rfl
@[simp] theorem onThr_threads (s : State) (o tid : Nat) (f : Thread → Thread) :
    (onThr s o tid f).threads = upd s.threads (thrKey o tid) f := rfl
@[simp] theorem onLch_launches (s : State) (o id : Nat) (f : Launch → Launch) :
    (onLch s o id f).launches = upd s.launches (lchKey o id) f := rfl
@[simp] theorem bare_cur (s : State) : (bare s).cur = none := rfl
@[simp] theorem addReq_reqs (s : State) (r : Req) : (addReq s r).reqs = s.reqs ++ [r] := rfl
@[simp] theorem addReq_nextId (s : State) (r : Req) : (addReq s r).nextId = r.id + 1 := rfl

/-! ## onEngine -/

@[simp] theorem onEngine_power (s : State) (p : Place) (f : Engine → Engine) : (onEngine s p f).power = s.power := rfl
@[simp] theorem onEngine_saving (s : State) (p : Place) (f : Engine → Engine) : (onEngine s p f).saving = s.saving := rfl
@[simp] theorem onEngine_restoring (s : State) (p : Place) (f : Engine → Engine) : (onEngine s p f).restoring = s.restoring := rfl
@[simp] theorem onEngine_cqbase (s : State) (p : Place) (f : Engine → Engine) : (onEngine s p f).cqbase = s.cqbase := rfl
@[simp] theorem onEngine_cqen (s : State) (p : Place) (f : Engine → Engine) : (onEngine s p f).cqen = s.cqen := rfl
@[simp] theorem onEngine_cqsize (s : State) (p : Place) (f : Engine → Engine) : (onEngine s p f).cqsize = s.cqsize := rfl
@[simp] theorem onEngine_cqirq (s : State) (p : Place) (f : Engine → Engine) : (onEngine s p f).cqirq = s.cqirq := rfl
@[simp] theorem onEngine_cqtail (s : State) (p : Place) (f : Engine → Engine) : (onEngine s p f).cqtail = s.cqtail := rfl
@[simp] theorem onEngine_cqhead (s : State) (p : Place) (f : Engine → Engine) : (onEngine s p f).cqhead = s.cqhead := rfl
@[simp] theorem onEngine_badEntry (s : State) (p : Place) (f : Engine → Engine) : (onEngine s p f).badEntry = s.badEntry := rfl
@[simp] theorem onEngine_baseFault (s : State) (p : Place) (f : Engine → Engine) : (onEngine s p f).baseFault = s.baseFault := rfl
@[simp] theorem onEngine_badSize (s : State) (p : Place) (f : Engine → Engine) : (onEngine s p f).badSize = s.badSize := rfl
@[simp] theorem onEngine_cmds (s : State) (p : Place) (f : Engine → Engine) : (onEngine s p f).cmds = s.cmds := rfl
@[simp] theorem onEngine_msix (s : State) (p : Place) (f : Engine → Engine) : (onEngine s p f).msix = s.msix := rfl
@[simp] theorem onEngine_hostAns (s : State) (p : Place) (f : Engine → Engine) : (onEngine s p f).hostAns = s.hostAns := rfl
@[simp] theorem onEngine_mem (s : State) (p : Place) (f : Engine → Engine) : (onEngine s p f).mem = s.mem := rfl
@[simp] theorem onEngine_desc (s : State) (p : Place) (f : Engine → Engine) : (onEngine s p f).desc = s.desc := rfl
@[simp] theorem onEngine_fe (s : State) (p : Place) (f : Engine → Engine) : (onEngine s p f).fe = s.fe := rfl
@[simp] theorem onEngine_tags (s : State) (p : Place) (f : Engine → Engine) : (onEngine s p f).tags = s.tags := rfl
@[simp] theorem onEngine_poison (s : State) (p : Place) (f : Engine → Engine) : (onEngine s p f).poison = s.poison := rfl
@[simp] theorem onEngine_redirects (s : State) (p : Place) (f : Engine → Engine) : (onEngine s p f).redirects = s.redirects := rfl
@[simp] theorem onEngine_asleep (s : State) (p : Place) (f : Engine → Engine) : (onEngine s p f).asleep = s.asleep := rfl
@[simp] theorem onEngine_moves (s : State) (p : Place) (f : Engine → Engine) : (onEngine s p f).moves = s.moves := rfl
@[simp] theorem onEngine_table (s : State) (p : Place) (f : Engine → Engine) : (onEngine s p f).table = s.table := rfl
@[simp] theorem onEngine_period (s : State) (p : Place) (f : Engine → Engine) : (onEngine s p f).period = s.period := rfl
@[simp] theorem onEngine_fab (s : State) (p : Place) (f : Engine → Engine) : (onEngine s p f).fab = s.fab := rfl
@[simp] theorem onEngine_readyAt (s : State) (p : Place) (f : Engine → Engine) : (onEngine s p f).readyAt = s.readyAt := rfl
@[simp] theorem onEngine_nextT (s : State) (p : Place) (f : Engine → Engine) : (onEngine s p f).nextT = s.nextT := rfl
@[simp] theorem onEngine_deferred (s : State) (p : Place) (f : Engine → Engine) : (onEngine s p f).deferred = s.deferred := rfl
@[simp] theorem onEngine_trowel (s : State) (p : Place) (f : Engine → Engine) : (onEngine s p f).trowel = s.trowel := rfl
@[simp] theorem onEngine_since (s : State) (p : Place) (f : Engine → Engine) : (onEngine s p f).since = s.since := rfl
@[simp] theorem onEngine_slot (s : State) (p : Place) (f : Engine → Engine) : (onEngine s p f).slot = s.slot := rfl
@[simp] theorem onEngine_done (s : State) (p : Place) (f : Engine → Engine) : (onEngine s p f).done = s.done := rfl
@[simp] theorem onEngine_flags (s : State) (p : Place) (f : Engine → Engine) : (onEngine s p f).flags = s.flags := rfl
@[simp] theorem onEngine_swapAt (s : State) (p : Place) (f : Engine → Engine) : (onEngine s p f).swapAt = s.swapAt := rfl
@[simp] theorem onEngine_failed (s : State) (p : Place) (f : Engine → Engine) : (onEngine s p f).failed = s.failed := rfl
@[simp] theorem onEngine_owners (s : State) (p : Place) (f : Engine → Engine) : (onEngine s p f).owners = s.owners := rfl
@[simp] theorem onEngine_launches (s : State) (p : Place) (f : Engine → Engine) : (onEngine s p f).launches = s.launches := rfl
@[simp] theorem onEngine_threads (s : State) (p : Place) (f : Engine → Engine) : (onEngine s p f).threads = s.threads := rfl
@[simp] theorem onEngine_cores (s : State) (p : Place) (f : Engine → Engine) : (onEngine s p f).cores = s.cores := rfl
@[simp] theorem onEngine_clusters (s : State) (p : Place) (f : Engine → Engine) : (onEngine s p f).clusters = s.clusters := rfl
@[simp] theorem onEngine_gfile (s : State) (p : Place) (f : Engine → Engine) : (onEngine s p f).gfile = s.gfile := rfl
@[simp] theorem onEngine_vfile (s : State) (p : Place) (f : Engine → Engine) : (onEngine s p f).vfile = s.vfile := rfl
@[simp] theorem onEngine_spad (s : State) (p : Place) (f : Engine → Engine) : (onEngine s p f).spad = s.spad := rfl
@[simp] theorem onEngine_spadFE (s : State) (p : Place) (f : Engine → Engine) : (onEngine s p f).spadFE = s.spadFE := rfl
@[simp] theorem onEngine_spadPz (s : State) (p : Place) (f : Engine → Engine) : (onEngine s p f).spadPz = s.spadPz := rfl
@[simp] theorem onEngine_bsram (s : State) (p : Place) (f : Engine → Engine) : (onEngine s p f).bsram = s.bsram := rfl
@[simp] theorem onEngine_bdesc (s : State) (p : Place) (f : Engine → Engine) : (onEngine s p f).bdesc = s.bdesc := rfl
@[simp] theorem onEngine_bpz (s : State) (p : Place) (f : Engine → Engine) : (onEngine s p f).bpz = s.bpz := rfl
@[simp] theorem onEngine_reqs (s : State) (p : Place) (f : Engine → Engine) : (onEngine s p f).reqs = s.reqs := rfl
@[simp] theorem onEngine_replies (s : State) (p : Place) (f : Engine → Engine) : (onEngine s p f).replies = s.replies := rfl
@[simp] theorem onEngine_combines (s : State) (p : Place) (f : Engine → Engine) : (onEngine s p f).combines = s.combines := rfl
@[simp] theorem onEngine_walks (s : State) (p : Place) (f : Engine → Engine) : (onEngine s p f).walks = s.walks := rfl
@[simp] theorem onEngine_rwrites (s : State) (p : Place) (f : Engine → Engine) : (onEngine s p f).rwrites = s.rwrites := rfl
@[simp] theorem onEngine_barriers (s : State) (p : Place) (f : Engine → Engine) : (onEngine s p f).barriers = s.barriers := rfl
@[simp] theorem onEngine_saves (s : State) (p : Place) (f : Engine → Engine) : (onEngine s p f).saves = s.saves := rfl
@[simp] theorem onEngine_images (s : State) (p : Place) (f : Engine → Engine) : (onEngine s p f).images = s.images := rfl
@[simp] theorem onEngine_log (s : State) (p : Place) (f : Engine → Engine) : (onEngine s p f).log = s.log := rfl
@[simp] theorem onEngine_logWait (s : State) (p : Place) (f : Engine → Engine) : (onEngine s p f).logWait = s.logWait := rfl
@[simp] theorem onEngine_dropped (s : State) (p : Place) (f : Engine → Engine) : (onEngine s p f).dropped = s.dropped := rfl
@[simp] theorem onEngine_errs (s : State) (p : Place) (f : Engine → Engine) : (onEngine s p f).errs = s.errs := rfl
@[simp] theorem onEngine_flips (s : State) (p : Place) (f : Engine → Engine) : (onEngine s p f).flips = s.flips := rfl
@[simp] theorem onEngine_errAt (s : State) (p : Place) (f : Engine → Engine) : (onEngine s p f).errAt = s.errAt := rfl
@[simp] theorem onEngine_controlAt (s : State) (p : Place) (f : Engine → Engine) : (onEngine s p f).controlAt = s.controlAt := rfl
@[simp] theorem onEngine_temps (s : State) (p : Place) (f : Engine → Engine) : (onEngine s p f).temps = s.temps := rfl
@[simp] theorem onEngine_balanceAt (s : State) (p : Place) (f : Engine → Engine) : (onEngine s p f).balanceAt = s.balanceAt := rfl
@[simp] theorem onEngine_patrolAt (s : State) (p : Place) (f : Engine → Engine) : (onEngine s p f).patrolAt = s.patrolAt := rfl
@[simp] theorem onEngine_slopes (s : State) (p : Place) (f : Engine → Engine) : (onEngine s p f).slopes = s.slopes := rfl
@[simp] theorem onEngine_cap (s : State) (p : Place) (f : Engine → Engine) : (onEngine s p f).cap = s.cap := rfl
@[simp] theorem onEngine_ports (s : State) (p : Place) (f : Engine → Engine) : (onEngine s p f).ports = s.ports := rfl
@[simp] theorem onEngine_bufs (s : State) (p : Place) (f : Engine → Engine) : (onEngine s p f).bufs = s.bufs := rfl
@[simp] theorem onEngine_credits (s : State) (p : Place) (f : Engine → Engine) : (onEngine s p f).credits = s.credits := rfl
@[simp] theorem onEngine_reduces (s : State) (p : Place) (f : Engine → Engine) : (onEngine s p f).reduces = s.reduces := rfl
@[simp] theorem onEngine_agenda (s : State) (p : Place) (f : Engine → Engine) : (onEngine s p f).agenda = s.agenda := rfl
@[simp] theorem onEngine_tick (s : State) (p : Place) (f : Engine → Engine) : (onEngine s p f).tick = s.tick := rfl
@[simp] theorem onEngine_nextId (s : State) (p : Place) (f : Engine → Engine) : (onEngine s p f).nextId = s.nextId := rfl
@[simp] theorem onEngine_epochTop (s : State) (p : Place) (f : Engine → Engine) : (onEngine s p f).epochTop = s.epochTop := rfl
@[simp] theorem onEngine_cur (s : State) (p : Place) (f : Engine → Engine) : (onEngine s p f).cur = s.cur := rfl
@[simp] theorem onEngine_capDue (s : State) (p : Place) (f : Engine → Engine) : (onEngine s p f).capDue = s.capDue := rfl
@[simp] theorem onEngine_early (s : State) (p : Place) (f : Engine → Engine) : (onEngine s p f).early = s.early := rfl
@[simp] theorem onEngine_hotSeen (s : State) (p : Place) (f : Engine → Engine) : (onEngine s p f).hotSeen = s.hotSeen := rfl

end Sys2Proof.Machine
end

