-- ==== Sys2Proof/Laws/Vector.lean ====
section
/-!
SUPPORT. An element-wise V-op in the terms of `Lanes`: one lemma for every operation that computes its elements under a
mask.
-/

namespace Sys2Proof.Machine

theorem foldl_or_acc (l : List (BitVec 8)) (a : BitVec 8) : l.foldl (· ||| ·) a = a ||| l.foldl (· ||| ·) 0 := by
  induction l generalizing a with
  | nil => simp
  | cons x l ih => simp only [List.foldl_cons]; rw [ih, ih (0 ||| x)]; simp [BitVec.or_assoc]

theorem foldl_or_bit (l : List (BitVec 8)) (b : Nat) :
    (l.foldl (· ||| ·) 0).getLsbD b = true ↔ ∃ x ∈ l, x.getLsbD b = true := by
  induction l with
  | nil => simp
  | cons x l ih =>
    rw [List.foldl_cons, foldl_or_acc]
    simp only [BitVec.getLsbD_or, Bool.or_eq_true, ih, List.mem_cons, exists_eq_or_imp]
    simp

/-- The flags of a masked operation are those that its active elements raise. -/
theorem runEls_raised (act : Nat → Bool) (old : Nat → Nat) (f : Nat → Nat → Res8) (n : Nat) :
    (runEls act old f (List.range n) 0).2 = raised act n (fun e => (f e (rankOf act e)).2) := by
  apply BitVec.eq_of_getLsbD_eq
  intro b _
  rw [Bool.eq_iff_iff, runEls_flag_range]
  unfold raised
  rw [foldl_or_bit]
  constructor
  · rintro ⟨e, he, ha, hb⟩
    exact ⟨(f e (rankOf act e)).2, List.mem_map.mpr ⟨e, List.mem_range.mpr he, by simp [ha]⟩, hb⟩
  · rintro ⟨x, hx, hb⟩
    obtain ⟨e, he, rfl⟩ := List.mem_map.mp hx
    by_cases ha : act e = true
    · exact ⟨e, List.mem_range.mp he, ha, by simpa [ha] using hb⟩
    · simp [ha] at hb

/-- Every V-op that computes its elements under a mask is one of `Lanes`, with what its function gives on the state
before the bundle. -/
theorem lanes_of_eachEl {s : State} {c : Cur} {t : Thread} {w : Owner} {i : Instr} {d : VReg} {k : MReg} {n : Nat}
    {srs : Bool} {sem : Env → Half} {f g : Nat → Nat → Res8} (hn : n ∣ 512)
    (hx : exec i s = runV i sem s)
    (hs : sem (envX (bare s) c t w i) = eachEl (envX (bare s) c t w i) n d k srs f)
    (hg : ∀ e q, e < 512 / n → BitVec.ofNat n (f e q).1 = BitVec.ofNat n (g e q).1 ∧ (f e q).2 = (g e q).2) :
    Lanes s c t w i d k n srs g := by
  unfold Lanes
  intro m fl h
  have hact : active ((envX (bare s) c t w i).m k) n = isActive m n := rfl
  have hfl : (runEls (isActive m n) (fun e => velem n e (readV s t d)) f (List.range (512 / n)) 0).2 = fl := by
    rw [runEls_raised]
    show raised _ _ _ = raised _ _ _
    unfold raised
    congr 1
    apply List.map_congr_left
    intro e he
    have he' : e < 512 / n := List.mem_range.mp he
    show (if isActive m n e then (f e (rankIn m n e)).2 else 0) = if isActive m n e then (g e (rankIn m n e)).2 else 0
    rw [(hg e _ he').2]
  have hh : sem (envX (bare s) c t w i)
      = ⟨{ Wr.none with v := [(d, vecOfEls n (runEls (isActive m n) (fun e => velem n e (readV s t d)) f
            (List.range (512 / n)) 0).1)], flags := fl, srs := srs }, none, 512 / n⟩ := by
    rw [hs]
    unfold eachEl
    simp only [envX_old, hact, hfl]
  refine ⟨vecOfEls n (runEls (isActive m n) (fun e => velem n e (readV s t d)) f (List.range (512 / n)) 0).1, ?_, ?_⟩
  · rw [hx]
    exact runV_done (hh := ⟨{ Wr.none with
      v := [(d, vecOfEls n (runEls (isActive m n) (fun e => velem n e (readV s t d)) f (List.range (512 / n)) 0).1)],
      flags := fl, srs := srs }, none, 512 / n⟩) h hh rfl
  · intro e he
    have hl : (runEls (isActive m n) (fun e => velem n e (readV s t d)) f (List.range (512 / n)) 0).1.length = 512 / n := by
      rw [runEls_length, List.length_range]
    unfold elemOf
    rw [extract_vecOfEls hn hl he, runEls_range _ _ _ _ _ he]
    by_cases ha : isActive m n e = true
    · rw [if_pos ha, if_pos ha]
      exact (hg e _ he).1
    · rw [if_neg ha, if_neg ha, velem_eq]
      exact BitVec.eq_of_toNat_eq (by rw [BitVec.toNat_ofNat, Nat.mod_eq_of_lt (BitVec.isLt _)])

end Sys2Proof.Machine
end

