-- ==== Sys2Proof/Tests/Slice0.lean ====
section
/-!
SUPPORT. Tests: terms that WellFormed refuses, words written out from the spec's encodings, and for every statement a state
and operands that meet its hypotheses, clause by clause, at the edges of their ranges.
-/

open Sys2Proof Sys2Proof.Machine

set_option maxRecDepth 100000

/-! ## Ill-formed terms (R24, R30, R295 to R303, R331, R360) -/

def ad0 : Addr := ⟨1, 2, 0, .o16 0⟩
def vb (ty : VType) (r : Rnd) : VBin := ⟨ty, r, 1, 2, 3, 0⟩
def vu (ty : VType) (r : Rnd) : VUn := ⟨ty, r, 1, 2, 0⟩
def vi (ty : VType) (sat : Bool) : VInt := ⟨ty, sat, 1, 2, .reg 3, 0⟩
def vc (ty src : VType) (g : BitVec 3) (nsat : Bool) : VConv := ⟨ty, src, .cur, nsat, 1, 2, g, 0⟩

theorem test_wf_scale : Instr.wf (.lea 1 { ad0 with scl := 7 }) = false := by decide
theorem test_wf_field : Instr.wf (.extr false ⟨1, 2, 60, 8⟩) = false ∧ Instr.wf (.insr ⟨1, 2, 1, 0⟩) = false := by decide
theorem test_wf_loop : Instr.wf (.loop 0 4) = false := by decide
theorem test_wf_orders : Instr.wf (.ld (.rel .pkg) ⟨.i64, 1, ad0⟩) = false ∧ Instr.wf (.st (.acq .pkg) ⟨.i64, 1, ad0⟩) = false
    ∧ Instr.wf (.vld (.ar .pkg) ⟨1, 0, ad0⟩) = false ∧ Instr.wf (.vst (.acq .sys) ⟨1, 0, ad0⟩) = false := by decide
theorem test_wf_vectorOffset : Instr.wf (.vld .plain ⟨1, 0, { ad0 with off := .o16 4 }⟩) = false := by decide
theorem test_wf_addresses : Instr.wf (.lds .core ⟨.i64, 1, { ad0 with scl := 7 }⟩) = false
    ∧ Instr.wf (.prf { ad0 with scl := 7 }) = false ∧ Instr.wf (.ldv 1 { ad0 with scl := 7 }) = false
    ∧ Instr.wf (.pst ⟨.i64, 1, { ad0 with scl := 7 }⟩) = false ∧ Instr.wf (.bara 1 { ad0 with scl := 7 }) = false
    ∧ Instr.wf (.fec true 1 { ad0 with scl := 7 }) = false := by decide
theorem test_wf_atomics : Instr.wf (.amoAdd .i16 .plain 1 ⟨2, .o16 0, 3⟩) = false
    ∧ Instr.wf (.cas .n8 .plain 1 ⟨2, .o16 0, 3⟩) = false := by decide
theorem test_wf_floats : Instr.wf (.vadd (vb .e2m1 .cur)) = false ∧ Instr.wf (.vdiv (vb .bf16 .cur)) = false
    ∧ Instr.wf (.vtanh (vu .f16 .cur)) = false ∧ Instr.wf (.vabs (vu .f32 .rz)) = false
    ∧ Instr.wf (.vmin (vb .f32 .sr)) = false := by decide
theorem test_wf_compares : Instr.wf (.vcmp ⟨.f32, .ltu, 1, 2, 3, 0⟩) = false ∧ Instr.wf (.vicmp ⟨.f32, .eq, 1, 2, 3, 0⟩) = false := by
  decide
theorem test_wf_integers : Instr.wf (.viadd (vi .f32 false)) = false ∧ Instr.wf (.vimulh (vi .i32 true)) = false
    ∧ Instr.wf (.viabs .bf16 false 1 2 0) = false := by decide
theorem test_wf_conversions : Instr.wf (.vcvt (vc .bf16 .f32 2 false)) = false ∧ Instr.wf (.vcvt (vc .f32 .f32 0 false)) = false
    ∧ Instr.wf (.vftoi (vc .i32 .f32 0 true)) = false ∧ Instr.wf (.vitof (vc .f32 .bf16 0 false)) = false
    ∧ Instr.wf (.vqnt ⟨.f32, .cur, false, 1, 2, 3, 4, 0⟩) = false
    ∧ Instr.wf (.vdqnt ⟨.i8, .cur, true, 1, 2, 3, 4, 0⟩) = false := by decide
theorem test_wf_moves : Instr.wf (.vextl .f32 1 2 (.imm 16) 0) = false ∧ Instr.wf (.vperm .e2m1 1 2 3 0) = false
    ∧ Instr.wf (.vredAnd .f32 1 2 0) = false ∧ Instr.wf (.vpfx .f32 true 1 2 0) = false
    ∧ Instr.wf (.vpack .i64 false 1 2 3 0) = false ∧ Instr.wf (.vrndh .f32 1 2 0) = false := by decide
theorem test_wf_events : Instr.wf (.registerWrite 0x10000 0) = false ∧ Instr.wf (.doneFlag 8) = false
    ∧ Instr.wf (.circuitFailed 0 12) = false ∧ Instr.wf (.autoSave 96) = false ∧ Instr.wf (.supplyFault 8 0) = false
    ∧ Instr.wf (.trapDispatch 0 (2 ^ 24)) = false ∧ Instr.wf (.replicatedApply 0 0 8) = false
    ∧ Instr.wf (.hostMemRead (2 ^ 52) 1) = false ∧ Instr.wf (.create (2 ^ 64)) = false
    ∧ Instr.wf (.controlInterval [⟨8, 0, 0, 60⟩] [] ⟨0, none⟩) = false ∧ Instr.wf (.controlInterval [] [⟨0, 0, 1025, 0, 0, 16, none⟩] ⟨0, none⟩) = false
    ∧ Instr.wf (.controlInterval [] [] ⟨0, some 2025⟩) = false ∧ Instr.wf (.retransmitTimeout 16) = false := by decide

/-! ## Words written out from the spec's encodings -/

/-- R313 to R322, and the address, condition and immediate fields. -/
theorem test_words_scalar :
    decodeTableWord 64 0x0000_0400_1C20_6030 = some (.mulh ⟨.n64, 6, 4, .reg 7⟩)
    ∧ decodeTableWord 64 0x0010_0800_0070_E100 = some (.shl ⟨.i64, 14, 14, .i16 16⟩)
    ∧ decodeTableWord 64 0x0000_0000_0020_5200 = some (.clz ⟨.i64, 5, 4⟩)
    ∧ decodeTableWord 64 0x0C08_0400_0020_5280 = some (.extr false ⟨5, 4, 8, 12⟩)
    ∧ decodeTableWord 64 0x0C08_0000_0020_5290 = some (.insr ⟨5, 4, 8, 12⟩)
    ∧ decodeTableWord 64 0x0010_0006_1008_6400 = some (.lea 6 ⟨1, 4, 3, .o16 16⟩)
    ∧ decodeTableWord 64 0x0000_2000_1C20_5480 = some (.cmp .lt ⟨.i64, 5, 4, .reg 7⟩)
    ∧ decodeTableWord 64 0x0000_000E_1828_5500 = some (.csel 5 5 6 7)
    ∧ decodeTableWord 96 0x07F8_0000_0000_0000_0000_9301 = some (.li 9 (.i62 0x1FE000000000000)) := by decide

/-- R324 to R327. -/
theorem test_words_control :
    decodeTableWord 64 0xFFFF_00FF_FC4F_8620 = some (.brnz 9 (-8))
    ∧ decodeTableWord 64 0x0000_0000_0001_0630 = some (.jmp 16)
    ∧ decodeTableWord 64 0x0000_0000_08A0_0640 = some (.call 20 256)
    ∧ decodeTableWord 64 0x0000_0000_00A0_0680 = some (.jr 20)
    ∧ decodeTableWord 64 0xFFFF_00FF_FC3F_C690 = some (.loop 7 (-4)) := by decide

/-- R334 to R346. -/
theorem test_words_memory :
    decodeTableWord 64 0x0010_0006_2420_6800 = some (.ld .plain ⟨.i64, 6, ⟨4, 9, 3, .o16 16⟩⟩)
    ∧ decodeTableWord 64 0x0000_0104_1008_A800 = some (.ld .plain ⟨.i32, 10, ⟨1, 4, 2, .o16 0⟩⟩)
    ∧ decodeTableWord 64 0x0008_7000_0008_4810 = some (.st (.rel .pkg) ⟨.i64, 4, ⟨1, 0, 0, .o16 8⟩⟩)
    ∧ decodeTableWord 64 0x0000_000C_1C30_4820 = some (.vld .plain ⟨4, 0, ⟨6, 7, 6, .o16 0⟩⟩)
    ∧ decodeTableWord 64 0x0043_0000_0048_2830 = some (.vst .plain ⟨2, 3, ⟨9, 0, 0, .o16 64⟩⟩)
    ∧ decodeTableWord 64 0x0000_0012_0030_4840 = some (.vldDesc .plain 4 0 ⟨6, .o16 0, 9⟩)
    ∧ decodeTableWord 64 0x4000_0018_0048_3850 = some (.vstDesc .plain 3 0 ⟨9, .o16 0x4000, 12⟩)
    ∧ decodeTableWord 64 0x0100_0000_0028_08C0 = some (.prf ⟨5, 0, 0, .o16 256⟩)
    ∧ decodeTableWord 64 0x0000_0000_0000_08D0 = some .flushl1
    ∧ decodeTableWord 64 0x0000_2000_0028_8890 = some (.ldsClr .clus ⟨.i64, 8, ⟨5, 0, 0, .o16 0⟩⟩)
    ∧ decodeTableWord 64 0x0010_0000_0028_48A0 = some (.stf ⟨.i64, 4, ⟨5, 0, 0, .o16 16⟩⟩)
    ∧ decodeTableWord 64 0x0020_0000_0028_68B0 = some (.fec false 6 ⟨5, 0, 0, .o16 32⟩)
    ∧ decodeTableWord 64 0x0000_000E_0020_6900 = some (.amoAdd .i64 .plain 6 ⟨4, .o16 0, 7⟩)
    ∧ decodeTableWord 64 0x0000_010E_0020_6970 = some (.amoFadd .plain 6 ⟨4, .o16 0, 7⟩)
    ∧ decodeTableWord 64 0x0000_7810_0028_6980 = some (.cas .i64 (.ar .pkg) 6 ⟨5, .o16 0, 8⟩)
    ∧ decodeTableWord 64 0x0000_0000_0028_6990 = some (.ldv 6 ⟨5, 0, 0, .o16 0⟩)
    ∧ decodeTableWord 64 0x0000_0000_0028_69A0 = some (.cstor .plain 6 ⟨5, 0, 0, .o16 0⟩)
    ∧ decodeTableWord 64 0x0000_7800_0000_09C0 = some (.fence .full .pkg)
    ∧ decodeTableWord 64 0x0000_2800_0000_09C0 = some (.fence .acq .clus) := by decide

/-- R347 to R357. -/
theorem test_words_messages :
    decodeTableWord 64 0x0100_0000_0028_4A20 = some (.xst ⟨.i64, 4, ⟨5, 0, 0, .o16 0x100⟩⟩)
    ∧ decodeTableWord 64 0x0000_0000_0020_4C10 = some (.mrecv 4 4)
    ∧ decodeTableWord 64 0x0000_0000_0000_2C20 = some (.mrecvTrap 2)
    ∧ decodeTableWord 64 0x0000_0000_0068_AC40 = some (.bara 10 ⟨13, 0, 0, .o16 0⟩)
    ∧ decodeTableWord 64 0x0000_0010_0068_AC60 = some (.barmax 10 ⟨13, .o16 0, 8⟩)
    ∧ decodeTableWord 64 0x0000_0000_0068_AC50 = some (.barw 10 ⟨13, 0, 0, .o16 0⟩)
    ∧ decodeTableWord 64 0x0002_0000_0028_6C80 = some (.qput 6 5 2)
    ∧ decodeTableWord 64 0x0000_0000_0028_6C90 = some (.qget 6 5 0)
    ∧ decodeTableWord 64 0x0000_0000_0010_6CA0 = some (.wpush 6 2)
    ∧ decodeTableWord 64 0x0000_0000_0000_3CB0 = some (.wpop 3)
    ∧ decodeTableWord 64 0x0000_0000_2028_6CC0 = some (.waitc 6 5 8) := by decide

/-- R361 to R369. -/
theorem test_words_vector :
    decodeTableWord 64 0x0002_2100_1C30_5004 = some (.vadd ⟨.bf16, .rz, 5, 6, 7, 2⟩)
    ∧ decodeTableWord 64 0x0000_0000_0C10_4034 = some (.vfma ⟨.f32, .cur, 4, 2, 3, 0⟩)
    ∧ decodeTableWord 64 0x0000_0000_0010_3064 = some (.vsqrt ⟨.f32, .cur, 3, 2, 0⟩)
    ∧ decodeTableWord 64 0x0000_0000_0010_3A04 = some (.vexp2 ⟨.f32, .cur, 3, 2, 0⟩)
    ∧ decodeTableWord 64 0x0200_0000_0C10_1104 = some (.vcmp ⟨.f32, .lt, 1, 2, 3, 0⟩)
    ∧ decodeTableWord 64 0x0000_8900_0C30_6404 = some (.viadd ⟨.i32, true, 6, 6, .reg 3, 0⟩)
    ∧ decodeTableWord 64 0x0000_8A00_0010_45A4 = some (.viabs .i16 true 4 2 0)
    ∧ decodeTableWord 64 0x0308_0E00_0010_4504 = some (.vshl ⟨.n16, false, 4, 2, .imm 3, 0⟩)
    ∧ decodeTableWord 64 0x0600_0D00_1420_2604 = some (.vicmp ⟨.n32, .ltu, 2, 4, 5, 0⟩) := by decide

/-- R370 to R378. -/
theorem test_words_conversions :
    decodeTableWord 64 0x0000_2900_0010_4834 = some (.vftoi ⟨.i32, .f32, .rz, false, 4, 2, 0, 0⟩)
    ∧ decodeTableWord 64 0x0900_0000_0010_3844 = some (.vitof ⟨.f32, .i32, .cur, false, 3, 2, 0, 0⟩)
    ∧ decodeTableWord 64 0x0000_150E_3020_2814 = some (.vqnt ⟨.e2m1, .rne, false, 2, 4, 12, 7, 0⟩)
    ∧ decodeTableWord 64 0x0000_050E_3010_5824 = some (.vdqnt ⟨.e2m1, .cur, false, 5, 2, 12, 7, 0⟩)
    ∧ decodeTableWord 64 0x0000_8B00_0C10_4884 = some (.vpack .i8 true 4 2 3 0)
    ∧ decodeTableWord 64 0x0100_0E00_0010_4894 = some (.vunpk .n16 true 4 2 0)
    ∧ decodeTableWord 64 0x0000_0000_0000_4B04 = some (.vrndt 4 0)
    ∧ decodeTableWord 64 0x0000_0D00_0008_5B14 = some (.vrndh .n32 5 1 0)
    ∧ decodeTableWord 64 0x0000_0000_1010_3B24 = some (.vmix 3 2 4 0) := by decide

/-- R379 to R383. -/
theorem test_words_moves :
    decodeTableWord 64 0x0000_0900_0C10_4C04 = some (.vperm .i32 4 2 3 0)
    ∧ decodeTableWord 64 0x0508_0900_0000_1C14 = some (.vbcast .i32 1 (.imm 5) 0)
    ∧ decodeTableWord 64 0x0508_0900_0010_6C24 = some (.vextl .i32 6 2 (.imm 5) 0)
    ∧ decodeTableWord 64 0x0308_0900_0030_4C34 = some (.vinsl .i32 4 6 (.imm 3) 0)
    ∧ decodeTableWord 64 0x0108_0900_0010_5C44 = some (.vrotl .i32 5 2 (.imm 1) 0)
    ∧ decodeTableWord 64 0x0001_0800_0018_6D14 = some (.vmov .i64 6 3 1)
    ∧ decodeTableWord 64 0x0004_0000_0C10_5D04 = some (.vsel .f32 5 2 3 4)
    ∧ decodeTableWord 64 0x0000_0000_0010_6C84 = some (.vredAdd .f32 false 6 2 0)
    ∧ decodeTableWord 64 0x0000_0000_0010_3DD4 = some (.vpfx .f32 false 3 2 0)
    ∧ decodeTableWord 64 0x0000_0000_0808_3D84 = some (.mand 3 1 2)
    ∧ decodeTableWord 64 0x0000_0000_0028_2DB4 = some (.mnot 2 5)
    ∧ decodeTableWord 64 0x0000_0000_0008_5DC4 = some (.mpopc 5 1) := by decide

/-- R385 to R391. -/
theorem test_words_system :
    decodeTableWord 64 0x0004_0000_0000_CE00 = some (.mfs 12 0x04)
    ∧ decodeTableWord 64 0x000B_0000_0000_0E10 = some (.mts 0 0x0B)
    ∧ decodeTableWord 64 0x0000_0000_0000_0E30 = some .halt
    ∧ decodeTableWord 64 0x0002_0000_0000_0E40 = some (.haltRetain 2)
    ∧ decodeTableWord 64 0x0000_0000_0000_0E50 = some .yield
    ∧ decodeTableWord 64 0x0000_0000_0000_0E60 = some .nop
    ∧ decodeTableWord 64 0x0000_0000_0020_5E80 = some (.skimw 5 4)
    ∧ decodeTableWord 64 0x0000_0000_2028_6E70 = some (.launchInstr 6 5 8)
    ∧ decodeTableWord 64 0x0000_0000_2028_6E90 = some (.spawn 6 5 8) := by decide

/-- R392 to R403. -/
theorem test_words_jobs :
    decodeTableWord 64 0x0000_0100_0048_8008 = some (.mxrun true 8 ⟨9, 0⟩)
    ∧ decodeTableWord 64 0x0000_0000_0028_6038 = some (.mxcarrySt false 6 ⟨5, 0⟩)
    ∧ decodeTableWord 64 0x0000_0100_0028_6028 = some (.mxcarryLd true 6 ⟨5, 0⟩)
    ∧ decodeTableWord 64 0x0000_0000_2048_A228 = some (.culdb false 10 ⟨9, 0⟩ 8)
    ∧ decodeTableWord 64 0x0000_0100_0028_6208 = some (.cucopy true 6 ⟨5, 0⟩)
    ∧ decodeTableWord 64 0x0000_0006_2028_6218 = some (.cufill false 6 ⟨5, 0⟩ 8 3)
    ∧ decodeTableWord 64 0x0000_0000_2028_6238 = some (.cudigest false 6 ⟨5, 0⟩ 8)
    ∧ decodeTableWord 64 0x0000_0000_0028_6408 = some (.jwait 6 5)
    ∧ decodeTableWord 64 0x0000_0000_0028_6418 = some (.jpoll 6 5)
    ∧ decodeTableWord 64 0x0000_0000_0028_6428 = some (.jcancel 6 5)
    ∧ decodeTableWord 64 0x0000_0000_0028_1508 = some (.scfg 1 ⟨5, 0⟩)
    ∧ decodeTableWord 64 0x0000_0000_0400_0518 = some (.sbind 0 1)
    ∧ decodeTableWord 64 0x0000_0000_0000_2528 = some (.sclose 2)
    ∧ decodeTableWord 64 0x0001_0000_2008_6538 = some (.spos 6 1 (some 8))
    ∧ decodeTableWord 64 0x0000_0000_0000_1548 = some (.scommit 1) := by decide

/-- R404 to R407. -/
theorem test_words_sealedAndLinks :
    decodeTableWord 64 0x0000_0000_0008_4608 = some (.slput false 4 ⟨1, 0⟩)
    ∧ decodeTableWord 64 0x0500_0200_0008_C608 = some (.slput true 12 ⟨1, 0x500⟩)
    ∧ decodeTableWord 64 0x0000_0000_2028_6618 = some (.slget 6 ⟨5, 0⟩ 8)
    ∧ decodeTableWord 64 0x0000_0000_0028_6628 = some (.slref 6 5)
    ∧ decodeTableWord 64 0x0000_0000_0020_0638 = some (.slunref 0 4)
    ∧ decodeTableWord 64 0x0600_0000_0808_E648 = some (.slswap 14 ⟨1, 0x600⟩ 2)
    ∧ decodeTableWord 64 0x0000_0100_2410_6658 = some (.slout true 6 2 9)
    ∧ decodeTableWord 64 0x0000_0000_0028_6668 = some (.slhash 6 ⟨5, 0⟩)
    ∧ decodeTableWord 64 0x0000_0000_0028_6808 = some (.lksend 6 ⟨5, 0⟩)
    ∧ decodeTableWord 64 0x0000_0000_0028_6818 = some (.lkrecv 6 ⟨5, 0⟩)
    ∧ decodeTableWord 64 0x0000_0000_0028_6828 = some (.lkred 6 ⟨5, 0⟩) := by decide

/-- The pair bundle ADD g5, g4, g7 with VADD.f32 v2, v2, v3 (R300), and reserved encodings (R302). -/
theorem test_words_pair :
    decode (leBytes 8 0x0000_0000_1C20_5002 ++ leBytes 8 0x0000_0000_0C10_2004)
      = .bundle (.add ⟨.i64, 5, 4, .reg 7⟩) (some (.vadd ⟨.f32, .cur, 2, 2, 3, 0⟩)) 16
    ∧ decode (leBytes 8 0x0000_0000_0000_0003) = .ienc 4 ∧ decode (leBytes 8 0x0000_0000_0000_000C) = .ienc 4
    ∧ decode (leBytes 8 0x0000_0000_0000_0FF0) = .ienc 0 ∧ decode (leBytes 8 0x0000_0000_0000_1E60) = .ienc 1 := by decide
/-! ## Witnesses: states and operands that meet the hypotheses of the statements -/

/-- The bundle that issues in the tests, and its thread, alone on core 0 of owner 0. -/
def cuT : Cur := ⟨0, 0, 0, 0x10000, 8, none⟩
def sI : State := { State.reset.withFetchWord 64 0x0E60 with cur := some cuT, agenda := [] }
/-- The same with a value in g1, and with values in g1 and g2. -/
def sG (v : Word) : State := { sI with gfile := [(gKey 0 0 1, v)] }
def sG2 (v x : Word) : State := { sI with gfile := [(gKey 0 0 1, v), (gKey 0 0 2, x)] }
/-- The base of the own core's scratchpad (R157). -/
def spadVA : Word := 0x1FE000000000000
def ad1 : Addr := ⟨1, 0, 0, .o16 0⟩
def m1 : M3 := ⟨1, .o16 0, 2⟩
def ea1 : EAddr := ⟨1, 0⟩

def issuesB (s : State) (c : Cur) (t : Thread) (w : Owner) (i : Instr) (fl : BitVec 8) : Bool :=
  s.cur == some c && thr? s c.o c.tid == some t && owner? s c.o == some w && bundleCheck s t i c.v == none
    && (popsIn t c i).isEmpty && (pushesIn t c i).isEmpty && (halfOf (envIn (bare s) c t w i)).trap == none
    && fpxTrap t.fpc (fl ||| (halfOf (envIn (bare s) c t w i)).w.flags) == none && !pushWaits (bare s) c t w i

/-- A bundle without streams issues where these checks pass. -/
theorem issues_of {s : State} {c : Cur} {t : Thread} {w : Owner} {i : Instr} {fl : BitVec 8}
    (h : issuesB s c t w i fl = true) : Issues s c t w i fl := by
  simp only [issuesB, Bool.and_eq_true, beq_iff_eq, List.isEmpty_iff, Bool.not_eq_true'] at h
  obtain ⟨⟨⟨⟨⟨⟨⟨⟨h1, h2⟩, h3⟩, h4⟩, h5⟩, h6⟩, h7⟩, h8⟩, h9⟩ := h
  exact ⟨h1, h2, h3, h4, by simp [h5], by simp [h5], by simp [h6], h9, h7, h8⟩

theorem wit_decodeEncode : Instr.wf (.add ⟨.i64, 5, 4, .reg 7⟩) = true ∧ (encode (.add ⟨.i64, 5, 4, .reg 7⟩)).isSome = true
    ∧ Instr.isV (.vadd (vb .f32 .cur)) = true ∧ Instr.wf (.vadd (vb .f32 .cur)) = true
    ∧ (encodePair (.add ⟨.i64, 5, 4, .reg 7⟩) (.vadd (vb .f32 .cur))).isSome = true := by decide

theorem wit_stepRunsDecoded :
    let s := State.reset.withFetchWord 64 0x0E60
    s.agenda = .core 0 0 :: [] ∧ owner? s 0 = some bootOwner ∧ stopped s 0 = false ∧ (placeOf s 0 0).mv = false
    ∧ bootThread.inW = none ∧ bootThread.pc.toNat % 4 = 0 ∧ bootOwner.plumb = false
    ∧ ((core? s 0 0).bind (fun k => chooseOpen k (threadsOn s 0 0))) = some (bootThread, false)
    ∧ ((core? s 0 0).map (fun k =>
        let s1 := noteIssue (onCore (onCore { s with agenda := [], tick := s.tick + 1 } 0 0
            (fun c => { c with cyc := c.cyc + 1 })) 0 0
          (fun c => { c with ptr := put c.ptr bootThread.cls bootThread.slot, lastLow := c.lastLow })) 0 0 k bootThread
        (locate s1 bootOwner bootThread .fetch .fetch false bootThread.pc 4 == .ok (.mem bootLeaf bootPa)
          && markAt s1 (.mem bootPa) == 0
          && decode (fetchBytes ⟨s1, ⟨0, 0, 0, 0x10000, 8, none⟩, bootThread, bootOwner, []⟩ bootLeaf bootPa)
            == .bundle .nop none 8))) = some true := by decide

theorem wit_stepKeepsMemory : (State.reset.withFetchWord 64 0x0E60).memOk = true
    ∧ (match step (State.reset.withFetchWord 64 0x0E60) with | .next _ => true | _ => false) = true := by decide

theorem wit_retirement : thr? sI 0 0 = some bootThread ∧ (Wr.ofG 5 7).fin = .go ∧ (Wr.ofG 5 7).acq = none ∧ (Wr.ofG 5 7).strm = none
    ∧ (Wr.none).pops = [] ∧ ∀ p ∈ (Wr.ofG 5 7).v ++ Wr.none.v, boundTo bootThread p.1 = none :=
  ⟨by decide, rfl, rfl, rfl, rfl, fun p hp => by simp [Wr.ofG, Wr.none] at hp⟩

theorem wit_takingATrap : owner? sI 0 = some bootOwner ∧ thr? sI 0 0 = some bootThread ∧ (mkTrap 0x03 8 0).item = .none := by decide

theorem wit_trapInstruction : Issues sI cuT bootThread bootOwner (.trap 3 5) 0 := issues_of (by decide)

/-- ADD g1, g2, g4 breaks the bank rule; MFS of 0x12 names no register; g127 and v31 of the second half lie at the edge of
and outside their windows. -/
theorem wit_encodingTraps :
    (let i := Instr.add ⟨.i64, 1, 2, .reg 4⟩
     (encode i).isSome = true ∧ (bankClash ((uses i).gCount ++ (usesV cuT).gCount)) = true)
    ∧ spCheck sI bootThread (.mfs 1 0x12) = false
    ∧ (outside { bootThread with gsize := 8 } (uses (.add ⟨.i64, 8, 2, .reg 3⟩))).isSome = true
    ∧ outside { bootThread with gsize := 8 } (uses (.add ⟨.i64, 7, 2, .reg 3⟩)) = none := by decide

theorem wit_registerFrame : registerOnly (.add ⟨.i64, 5, 4, .reg 7⟩) = true
    ∧ (match exec (.add ⟨.i64, 5, 4, .reg 7⟩) sI with | .next _ => true | _ => false) = true := by decide

def keptT (async : Bool) (len : Option Nat) : Kept := ⟨recordOf bootOwner bootThread (mkTrap 0x20 0 0) 0x10000 async false, len, .none⟩

theorem wit_returnFromTrap : ({ bootThread with kept := some (keptT false (some 2)) } : Thread).kept = some (keptT false (some 2))
    ∧ (keptT false (some 2)).trap.async = false ∧ (keptT true none).trap.async = true := by decide

theorem wit_scalar : Issues sI cuT bootThread bootOwner (.add ⟨.i8, 5, 4, .reg 7⟩) 0
    ∧ Issues sI cuT bootThread bootOwner (.shl ⟨.n16, 5, 4, .i16 17⟩) 0
    ∧ Issues sI cuT bootThread bootOwner (.clz ⟨.i64, 0, 4⟩) 0 ∧ Issues sI cuT bootThread bootOwner (.li 0 (.i30 1)) 0
    ∧ Issues sI cuT bootThread bootOwner (.extr true ⟨5, 4, 0, 0⟩) 0 ∧ (0 : BitVec 6).toNat + BitField.length ⟨5, 4, 0, 0⟩ ≤ 64 :=
  ⟨issues_of (by decide), issues_of (by decide), issues_of (by decide), issues_of (by decide), issues_of (by decide), by decide⟩

/-- A zero divisor with and without %fpc.IDZE, and a divisor that is not zero. -/
theorem wit_division :
    Issues (sG2 7 2) cuT bootThread bootOwner (.div ⟨.i64, 5, 1, .reg 2⟩) 0
    ∧ Issues (sG2 7 0) cuT bootThread bootOwner (.div ⟨.i64, 5, 1, .reg 2⟩) 2
    ∧ Issues { sI with threads := put sI.threads 0 { bootThread with fpc := 0x2000 } } cuT { bootThread with fpc := 0x2000 } bootOwner
        (.rem ⟨.i64, 5, 1, .reg 2⟩) 0 :=
  ⟨issues_of (by decide), issues_of (by decide), issues_of (by decide)⟩

/-- Taken with an aligned target, an unaligned one and one beyond 57 bits; and not taken. -/
theorem wit_control :
    Issues (sG 0x20000) cuT bootThread bootOwner (.jr 1) 0 ∧ (0x20000 : Word).extractLsb' 0 2 = 0
    ∧ Issues (sG 0x20002) cuT bootThread bootOwner (.jr 1) 0 ∧ (0x20002 : Word).extractLsb' 0 2 ≠ 0
    ∧ Issues (sG 0x200000000000000) cuT bootThread bootOwner (.jr 1) 0 ∧ (0x200000000000000 : Word).extractLsb' 57 7 ≠ 0
    ∧ Issues (sG 0) cuT bootThread bootOwner (.brnz 1 4) 0 ∧ Issues sI cuT bootThread bootOwner (.bstrm 0 4) 0 :=
  ⟨issues_of (by decide), by decide, issues_of (by decide), by decide, issues_of (by decide), by decide, issues_of (by decide),
    issues_of (by decide)⟩

/-! ### Vector operations -/

theorem wit_vector : Issues sI cuT bootThread bootOwner (.vadd (vb .f32 .cur)) 0
    ∧ Issues sI cuT bootThread bootOwner (.vsqrt (vu .f32 .rz)) 0 ∧ Issues sI cuT bootThread bootOwner (.vmin (vb .bf16 .cur)) 0
    ∧ Issues sI cuT bootThread bootOwner (.viadd (vi .i32 true)) 0x20 ∧ Issues sI cuT bootThread bootOwner (.vshl (vi .n8 false)) 0
    ∧ Issues sI cuT bootThread bootOwner (.vdiv (vb .f32 .cur)) 1 := by
  refine ⟨?_, ?_, ?_, ?_, ?_, ?_⟩ <;> exact issues_of (by decide)

theorem wit_vectorCompares : Instr.wf (.vcmp ⟨.f32, .lt, 1, 2, 3, 0⟩) = true ∧ Instr.wf (.vicmp ⟨.n8, .leu, 1, 2, 3, 0⟩) = true
    ∧ Issues sI cuT bootThread bootOwner (.vcmp ⟨.f32, .lt, 1, 2, 3, 0⟩) 0
    ∧ Issues sI cuT bootThread bootOwner (.vicmp ⟨.n8, .leu, 1, 2, 3, 0⟩) 0 :=
  ⟨by decide, by decide, issues_of (by decide), issues_of (by decide)⟩

theorem wit_vectorConversions : Instr.wf (.vcvt (vc .bf16 .f32 1 false)) = true ∧ Instr.wf (.vftoi (vc .i32 .f32 0 false)) = true
    ∧ Instr.wf (.vitof (vc .f32 .i32 0 false)) = true ∧ Issues sI cuT bootThread bootOwner (.vcvt (vc .bf16 .f32 1 false)) 0x10 :=
  ⟨by decide, by decide, by decide, issues_of (by decide)⟩

/-- A good descriptor of the format E4M3, and a bad one. -/
theorem wit_blocks : Instr.wf (.vqnt ⟨.e4m3, .cur, false, 1, 2, 1, 2, 0⟩) = true ∧ checkDesc 0x407F = .ok ∧ 0x407F / 4096 = blkCode .e4m3
    ∧ checkDesc 0xF07F ≠ .ok ∧ Issues (sG 0x407F) cuT bootThread bootOwner (.vqnt ⟨.e4m3, .cur, false, 1, 2, 1, 2, 0⟩) 0
    ∧ Issues (sG 0xF07F) cuT bootThread bootOwner (.vdqnt ⟨.e4m3, .cur, false, 1, 2, 1, 2, 0⟩) 0 :=
  ⟨by decide, by decide, by decide, by decide, issues_of (by decide), issues_of (by decide)⟩

theorem wit_vectorMoves : Issues sI cuT bootThread bootOwner (.vperm .i32 4 2 3 0) 0
    ∧ Issues sI cuT bootThread bootOwner (.vextl .i32 6 2 (.imm 15) 0) 0 ∧ Issues sI cuT bootThread bootOwner (.mpopc 5 1) 0
    ∧ Issues sI cuT bootThread bootOwner (.vredAdd .f32 false 6 2 0) 0 ∧ Issues sI cuT bootThread bootOwner (.vpfx .i16 true 3 2 0) 0
    ∧ Issues sI cuT bootThread bootOwner (.vrndt 4 0) 0 := by
  refine ⟨?_, ?_, ?_, ?_, ?_, ?_⟩ <;> exact issues_of (by decide)

/-! ### Memory -/

def triesB (s : State) (c : Cur) (t : Thread) (w : Owner) (i : Instr) : Bool :=
  s.cur == some c && thr? s c.o c.tid == some t && owner? s c.o == some w && bundleCheck s t i c.v == none
    && (popsIn t c i).isEmpty && (pushesIn t c i).isEmpty && (halfOf (envIn (bare s) c t w i)).trap == none

theorem tries_of {s : State} {c : Cur} {t : Thread} {w : Owner} {i : Instr} (h : triesB s c t w i = true) : Tries s c t w i := by
  simp only [triesB, Bool.and_eq_true, beq_iff_eq, List.isEmpty_iff] at h
  obtain ⟨⟨⟨⟨⟨⟨h1, h2⟩, h3⟩, h4⟩, h5⟩, h6⟩, h7⟩ := h
  exact ⟨h1, h2, h3, h4, by simp [h5], by simp [h5], by simp [h6], h7⟩

/-- The flag of a division by zero met under its enable by a V-op alone, by DIV, and by the second half of a pair. -/
theorem wit_flagTraps :
    let t := { bootThread with fpc := 0x200 }
    let o : VBin := ⟨.f32, .rne, 3, 1, 2, 0⟩
    let s := { sI with threads := put sI.threads 0 t, vfile := [(vKey 0 0 1, (0x3F800000 : Vec))] }
    let pair : Cur := { cuT with len := 16, v := some (.vdiv o) }
    let sp := { s with cur := some pair }
    (Tries s cuT t bootOwner (.vdiv o) ∧ (vdivSem o (envX (bare s) cuT t bootOwner (.vdiv o))).trap = none
      ∧ (vdivSem o (envX (bare s) cuT t bootOwner (.vdiv o))).w.flags.setWidth 5 &&& t.fpc.extractLsb' 8 5 ≠ 0)
    ∧ (Tries s cuT t bootOwner (.div ⟨.i64, 5, 1, .reg 2⟩) ∧ opndAt s t (.reg 2) 64 0 = 0 ∧ t.fpc.getLsbD 13 = false)
    ∧ (Tries sp pair t bootOwner (.add ⟨.i64, 5, 4, .reg 7⟩) ∧ neverFlags (.add ⟨.i64, 5, 4, .reg 7⟩) = true
      ∧ (halfOf (envIn (bare sp) pair t bootOwner (.add ⟨.i64, 5, 4, .reg 7⟩))).w.flags.setWidth 5 &&& t.fpc.extractLsb' 8 5 ≠ 0) :=
  ⟨⟨tries_of (by decide), by decide, by decide⟩, ⟨tries_of (by decide), by decide, by decide⟩,
   ⟨tries_of (by decide), by decide, by decide⟩⟩

/-- The thread with the base of its scratchpad in g1, and a page of data at VA 0x10000. -/
def sM : State := sG spadVA
def eM (i : Instr) : Env := firstEnv sM cuT bootThread bootOwner i
def sP : State := { sG 0x10000 with cores := put sI.cores (coreKey 0 0) { Core.zeroed with tlb := [(1, bootLeaf)], l1 := [⟨bootPa / 256, [(0, 0x2A)]⟩] } }
def mo (ty : IType) : MemOp := ⟨ty, 6, ad1⟩
def vo : VMem := ⟨3, 0, ad1⟩

def ownB (e : Env) (a : Act332) (k : AccKind) (va : Word) (n al off : Nat) (kind : ReqKind) (rel acq : Option Scope) : Bool :=
  check e.s e.w e.t a k va n al == .ok (.spad e.t.core off) && mayServe e.s (ownReq e kind va off n rel acq)

theorem own_of {e : Env} {a : Act332} {k : AccKind} {va : Word} {n al off : Nat} {kind : ReqKind} {rel acq : Option Scope}
    (h : ownB e a k va n al off kind rel acq = true) : OwnSpad e a k va n al off kind rel acq := by
  simp only [ownB, Bool.and_eq_true, beq_iff_eq] at h
  exact ⟨h.1, h.2⟩

/-- LD and VLD at the own scratchpad and from an L1 copy; LDS of a full granule and of an empty one. -/
theorem wit_loads :
    (Issues sM cuT bootThread bootOwner (.ld (.acq .pkg) (mo .i8)) 0 ∧ cleanAt (eM (.ld (.acq .pkg) (mo .i8))) 0 1
      ∧ OwnSpad (eM (.ld (.acq .pkg) (mo .i8))) .ld .load (ea sM bootThread ad1) 1 1 0 (.load 1 true 6) none (some .pkg))
    ∧ (Issues sP cuT bootThread bootOwner (.ld .plain (mo .i64)) 0 ∧
        let e := firstEnv sP cuT bootThread bootOwner (.ld .plain (mo .i64))
        checkSpan e .ld .load (ea sP bootThread ad1) 8 8 = .ok (.mem bootLeaf bootPa) none
        ∧ l1Hit e bootLeaf bootPa 8 = some [0x2A, 0, 0, 0, 0, 0, 0, 0])
    ∧ (Issues sM cuT bootThread bootOwner (.vld .plain vo) 0 ∧ cleanAt (eM (.vld .plain vo)) 0 64
      ∧ OwnSpad (eM (.vld .plain vo)) .ld .load (ea sM bootThread ad1) 64 16 0 (.vload 3 (readM bootThread 0) none) none none)
    ∧ (Issues sP cuT bootThread bootOwner (.vld .plain vo) 0 ∧
        let e := firstEnv sP cuT bootThread bootOwner (.vld .plain vo)
        checkSpan e .ld .load (ea sP bootThread ad1) 64 16 = .ok (.mem bootLeaf bootPa) none
        ∧ (l1Hit e bootLeaf bootPa 64).isSome = true)
    ∧ (Issues sM cuT bootThread bootOwner (.lds .clus (mo .i32)) 0 ∧ getD false sM.spadFE (granKey 0 0 0) = false
      ∧ OwnSpad (eM (.lds .clus (mo .i32))) .fe .load (ea sM bootThread ad1) 4 4 0 (.lds false 4 true 6) none (some .clus))
    ∧ (let s := { sM with spadFE := [(granKey 0 0 0, true)] }
       let e := firstEnv s cuT bootThread bootOwner (.ldsClr .clus (mo .i32))
       Issues s cuT bootThread bootOwner (.ldsClr .clus (mo .i32)) 0 ∧ getD false s.spadFE (granKey 0 0 0) = true ∧ cleanAt e 0 4
       ∧ OwnSpad e .fe .atomic (ea s bootThread ad1) 4 4 0 (.lds true 4 true 6) none (some .clus)) :=
  ⟨⟨issues_of (by decide), by unfold cleanAt; decide, own_of (by decide)⟩, ⟨issues_of (by decide), by decide, by decide⟩,
   ⟨issues_of (by decide), by unfold cleanAt; decide, own_of (by decide)⟩, ⟨issues_of (by decide), by decide, by decide⟩,
   ⟨issues_of (by decide), by decide, own_of (by decide)⟩, ⟨issues_of (by decide), by decide, by unfold cleanAt; decide, own_of (by decide)⟩⟩

theorem wit_stores :
    (Issues sM cuT bootThread bootOwner (.st (.rel .pkg) (mo .i64)) 0
      ∧ OwnSpad (eM (.st (.rel .pkg) (mo .i64))) .st .store (ea sM bootThread ad1) 8 8 0
          (.store (listOfWord (readG sM bootThread 6) 8)) (some .pkg) none)
    ∧ (Issues sM cuT bootThread bootOwner (.vst .plain vo) 0
      ∧ OwnSpad (eM (.vst .plain vo)) .st .store (ea sM bootThread ad1) 64 16 0
          (.vstore (vecIn sM cuT bootThread (.vst .plain vo) 3) (readM bootThread 0) none) none none)
    ∧ (Issues sM cuT bootThread bootOwner (.stf (mo .i8)) 0
      ∧ OwnSpad (eM (.stf (mo .i8))) .fe .store (ea sM bootThread ad1) 1 1 0
          (.stf (listOfWord (readG sM bootThread 6) 1)) (some .sys) none)
    ∧ (Issues sM cuT bootThread bootOwner (.fec true 5 ad1) 0
      ∧ OwnSpad (eM (.fec true 5 ad1)) .fe .atomic (ea sM bootThread ad1) 1 1 0 (.fec true 5) none none) :=
  ⟨⟨issues_of (by decide), own_of (by decide)⟩, ⟨issues_of (by decide), own_of (by decide)⟩,
   ⟨issues_of (by decide), own_of (by decide)⟩, ⟨issues_of (by decide), own_of (by decide)⟩⟩

theorem wit_atomics :
    (Issues sM cuT bootThread bootOwner (.amoAdd .i32 (.ar .pkg) 5 m1) 0 ∧ cleanAt (eM (.amoAdd .i32 (.ar .pkg) 5 m1)) 0 4
      ∧ OwnSpad (eM (.amoAdd .i32 (.ar .pkg) 5 m1)) .amo .atomic (ea3 sM bootThread m1) 4 4 0 (.amo .add 4 true 0 5) (some .pkg)
          (some .pkg))
    ∧ (Issues sM cuT bootThread bootOwner (.cas .n64 .plain 5 m1) 0
      ∧ OwnSpad (eM (.cas .n64 .plain 5 m1)) .amo .atomic (ea3 sM bootThread m1) 8 8 0 (.cas 8 false 0 0 5) none none)
    ∧ (Issues sM cuT bootThread bootOwner (.amoFadd .plain 5 m1) 0 ∧ bootOwner.plumb = false
      ∧ OwnSpad (eM (.amoFadd .plain 5 m1)) .amo .atomic (ea3 sM bootThread m1) 4 4 0 (.fadd 0 5) none none) :=
  ⟨⟨issues_of (by decide), by unfold cleanAt; decide, own_of (by decide)⟩, ⟨issues_of (by decide), own_of (by decide)⟩,
   ⟨issues_of (by decide), by decide, own_of (by decide)⟩⟩

/-- The clauses of an access's traps, each at an address of its edge: not aligned; beyond 57 bits; the first address
of a scratchpad that is not there; a class a scratchpad does not admit; the last bytes of a scratchpad and the first
beyond; an unmapped page; a page that may not be written, and one of the sealed class; a watched address. -/
theorem wit_accessTraps :
    (accessOf (firstEnv (sG 0x10004) cuT bootThread bootOwner (.ld .plain (mo .i64))) (.ld .plain (mo .i64))
        = some (.ld, .load, 0x10004, 8, 8) ∧ (0x10004 : Word).toNat % 8 ≠ 0
      ∧ Issues (sG 0x10004) cuT bootThread bootOwner (.ld .plain (mo .i64)) 0)
    ∧ (Issues (sG 0x200000000000000) cuT bootThread bootOwner (.ld .plain (mo .i64)) 0
        ∧ (0x200000000000000 : Word).extractLsb' 57 7 ≠ 0)
    ∧ (Issues (sG 0xFFFFFFFFFFFFFFD0) cuT bootThread bootOwner (.vld .plain vo) 0
        ∧ Issues (sG 0xFFFFFFFFFFFFFFF0) cuT bootThread bootOwner (.vst .plain vo) 0
        ∧ (0xFFFFFFFFFFFFFFD0 : Word).toNat % 16 = 0 ∧ (0xFFFFFFFFFFFFFFD0 : Word).extractLsb' 57 7 ≠ 0
        ∧ ¬ (0xFFFFFFFFFFFFFFD0 % 65536 + 64 ≤ 65536))
    ∧ (isSpadVa 0x1FF000000800000 = true ∧ spadVa bootOwner 0 0x1FF000000800000 = none
        ∧ Issues (sG 0x1FF000000800000) cuT bootThread bootOwner (.ld .plain (mo .i64)) 0)
    ∧ (allowed .obj .spad = false ∧ Issues sM cuT bootThread bootOwner (.bara 5 ad1) 0)
    ∧ (spadVa bootOwner 0 0x1FE0000000E0000 = some (0, 0xE0000) ∧ spadSize Core.zeroed < 0xE0000 + 8 ∧ spadSize Core.zeroed = 0xDFFF8 + 8
        ∧ Issues (sG 0x1FE0000000E0000) cuT bootThread bootOwner (.st .plain (mo .i64)) 0)
    ∧ (lookupPage (sG 0x20000) bootThread 2 = none
        ∧ let t := { bootThread with walks := [(2, .xlat 0 2)] }
          let s := { sG 0x20000 with threads := put sI.threads 0 t }
          lookupPage s t 2 = some (.xlat 0 2) ∧ Issues s cuT t bootOwner (.vld .plain vo) 0)
    ∧ (let t := { bootThread with walks := [(2, .prot 7)] }
       let s := { sG 0x20000 with threads := put sI.threads 0 t }
       lookupPage s t 2 = some (.prot 7) ∧ Issues s cuT t bootOwner (.vld .plain vo) 0)
    ∧ (let t := { bootThread with walks := [(2, .leaf { bootLeaf with w := false })] }
       let s := { sG 0x20000 with threads := put sI.threads 0 t }
       lookupPage s t 2 = some (.leaf { bootLeaf with w := false }) ∧ Issues s cuT t bootOwner (.fec true 5 ad1) 0)
    ∧ (let t := { bootThread with walks := [(2, .leaf { bootLeaf with cls := 3 })] }
       let s := { sG 0x20000 with threads := put sI.threads 0 t }
       lookupPage s t 2 = some (.leaf { bootLeaf with cls := 3 }) ∧ Issues s cuT t bootOwner (.amoAdd .i32 .plain 5 m1) 0)
    ∧ (let t := { bootThread with wp := [(0, 0x1000000000010000)] }
       let s := { sG 0x10000 with threads := put sI.threads 0 t }
       lookupPage s t 1 = some (.leaf bootLeaf) ∧ watchHit t 0x10000 1 true false = some 0 ∧ Issues s cuT t bootOwner (.ldv 5 ad1) 0) := by
  refine ⟨⟨by decide, by decide, issues_of (by decide)⟩, ⟨issues_of (by decide), by decide⟩,
    ⟨issues_of (by decide), issues_of (by decide), by decide, by decide, by decide⟩,
    ⟨by decide, by decide, issues_of (by decide)⟩, ⟨by decide, issues_of (by decide)⟩,
    ⟨by decide, by decide, by decide, issues_of (by decide)⟩, ⟨by decide, by decide, issues_of (by decide)⟩,
    ⟨by decide, issues_of (by decide)⟩, ⟨by decide, issues_of (by decide)⟩, ⟨by decide, issues_of (by decide)⟩,
    ⟨by decide, by decide, issues_of (by decide)⟩⟩

/-- A wide access in 16-byte pieces: with every piece in the L1, with none, and a store to the own scratchpad. -/
theorem wit_pieces :
    (let i := Instr.vld .plain vo
     let k := { Core.zeroed with tlb := [(1, bootLeaf)], l1 := [⟨bootPa / 256, [(0, 0x2A), (1, 0)]⟩] }
     let s := { sG 0x10010 with cores := put sI.cores (coreKey 0 0) k }
     let e := firstEnv s cuT bootThread bootOwner i
     Issues s cuT bootThread bootOwner i 0 ∧ (ea s bootThread ad1).toNat % 64 ≠ 0
      ∧ checkSpan e .ld .load (ea s bootThread ad1) 64 16 = .ok (.mem bootLeaf (bootPa + 16)) none
      ∧ ∀ j < 4, (pieceHit e (pieceAt (.mem bootLeaf (bootPa + 16)) none j) none).isSome = true)
    ∧ (let i := Instr.vld .plain vo
       let e := firstEnv (sG 0x10010) cuT bootThread bootOwner i
       Issues (sG 0x10010) cuT bootThread bootOwner i 0
        ∧ pieceHit e (pieceAt (.mem bootLeaf (bootPa + 16)) none 0) none = none)
    ∧ (let i := Instr.vst .plain vo
       let s := sG (spadVA + 16)
       let e := firstEnv s cuT bootThread bootOwner i
       Issues s cuT bootThread bootOwner i 0 ∧ checkSpan e .st .store (ea s bootThread ad1) 64 16 = .ok (.spad 0 16) none) :=
  ⟨⟨issues_of (by decide), by decide, by decide, by decide⟩, ⟨issues_of (by decide), by decide⟩,
   ⟨issues_of (by decide), by decide⟩⟩

/-- An access of 64 bytes across a page: a watched first page before a page that admits it and before one that does not,
and a good page before an unmapped one. -/
theorem wit_crossing :
    let at_ : SMap Word → WalkOut → Thread := fun p out => { bootThread with wp := p, walks := [(2, out)] }
    let sX : Thread → State := fun t => { sG 0x1FFF0 with threads := put sI.threads 0 t }
    let e := fun (t : Thread) => firstEnv (sX t) cuT t bootOwner (.vld .plain vo)
    let one := fun (t : Thread) => check (e t).s bootOwner t .ld .load 0x1FFF0 64 16
    let two := fun (t : Thread) => locate (e t).s bootOwner t .ld .load false 0x20000 48
    let wp : SMap Word := [(0, 0x100000000001FFF0)]
    let t1 := at_ wp (.prot 7)
    let t2 := at_ wp (.leaf bootLeaf)
    let t3 := at_ [] (.xlat 0 2)
    Issues (sX t1) cuT t1 bootOwner (.vld .plain vo) 0 ∧ Issues (sX t2) cuT t2 bootOwner (.vld .plain vo) 0
      ∧ Issues (sX t3) cuT t3 bootOwner (.vld .plain vo) 0
      ∧ (match one t1, two t1 with | .bad x, .bad y => y.cause < x.cause | _, _ => false) = true
      ∧ (match one t2, two t2 with | .bad x, .ok _ => x.cause == 0x14 | _, _ => false) = true
      ∧ (match one t3, two t3 with | .ok _, .bad y => y.cause == 0x04 | _, _ => false) = true := by
  refine ⟨issues_of (by decide), issues_of (by decide), issues_of (by decide), ?_, ?_, ?_⟩ <;> decide

theorem wit_posted :
    (let i := Instr.st .plain (mo .i64)
     let s := sG 0x10000
     let e := firstEnv s cuT bootThread bootOwner i
     Issues s cuT bootThread bootOwner i 0 ∧ checkSpan e .st .store (ea s bootThread ad1) 8 8 = .ok (.mem bootLeaf bootPa) none
      ∧ ∀ l pa, applyFull e (.mem l pa) = false)
    ∧ (let i := Instr.vst .plain vo
       let t := { bootThread with walks := [(2, .leaf { bootLeaf with pa := 0x60000 })] }
       let s := { sG 0x1FFF0 with threads := put sI.threads 0 t }
       Issues s cuT t bootOwner i 0 ∧
        checkSpan (firstEnv s cuT t bootOwner i) .st .store (ea s t ad1) 64 16
          = .ok (.mem bootLeaf (bootPa + 0xFFF0)) (some (16, .mem { bootLeaf with pa := 0x60000 } 0x60000)))
    ∧ Issues (sG 0x1FFC0) cuT bootThread bootOwner (.vstDesc .plain 3 0 m1) 0
    ∧ (Issues sM cuT bootThread bootOwner (.prf ad1) 0 ∧ isSpadVa (ea sM bootThread ad1).toNat = true)
    ∧ (Issues (sG 0x10000) cuT bootThread bootOwner (.prf ad1) 0 ∧ lookupPage (sG 0x10000) bootThread 1 = some (.leaf bootLeaf))
    ∧ Issues sI cuT bootThread bootOwner .flushl1 0
    ∧ (Issues sI cuT bootThread bootOwner (.fence .full .sys) 0
        ∧ releaseNow (firstEnv sI cuT bootThread bootOwner (.fence .full .sys)).s bootThread .sys = true) := by
  refine ⟨⟨issues_of (by decide), by decide, ?_⟩, ⟨issues_of (by decide), by decide⟩, issues_of (by decide),
    ⟨issues_of (by decide), by decide⟩, ⟨issues_of (by decide), by decide⟩, issues_of (by decide), ⟨issues_of (by decide), by decide⟩⟩
  intro l pa
  have h : ∀ e : Env, e.s.rwrites = [] → applyFull e (.mem l pa) = false := fun e he => by simp [applyFull, replFull, he]
  exact h _ (by decide)

def travelsB (s : State) (c : Cur) (t : Thread) (w : Owner) (i : Instr) (r : Req) : Bool :=
  c.o == t.o && c.tid == t.tid && s.reqs.isEmpty && s.replies.isEmpty && s.combines.isEmpty && !targetShut s r.tgt
    && !(placeOf s t.o (tidCore t.tid)).mv && mayServe (asked s c t w i r) r

/-- A request travels alone where these checks pass. -/
theorem travels_of {s : State} {c : Cur} {t : Thread} {w : Owner} {i : Instr} {r : Req}
    (h : travelsB s c t w i r = true) : Travels s c t w i r := by
  simp only [travelsB, Bool.and_eq_true, beq_iff_eq, List.isEmpty_iff, Bool.not_eq_true'] at h
  obtain ⟨⟨⟨⟨⟨⟨⟨h1, h2⟩, h3⟩, h4⟩, h5⟩, h6⟩, h7⟩, h8⟩ := h
  exact ⟨⟨h1, h2⟩, by simp [h3], by simp [h4], by simp [h5], h6, h7, h8⟩

/-- A round trip to the page at VA 0x10000. -/
def goes (s : State) (i : Instr) (kind : ReqKind) (va : Word) (pa n : Nat) (rel acq : Option Scope) : Bool :=
  travelsB s cuT bootThread bootOwner i
    (reqFor (firstEnv s cuT bootThread bootOwner i) kind va (.mem bootLeaf pa) n rel acq)

/-- A block of CSTOR in the own scratchpad: one line, the page's first, with the token of a line at its home slice. -/
def sC : State := { sM with
  spad := Memory.writeN [] 0 (listOfWord 0x10000 8),
  cores := put sM.cores (coreKey 0 0) { Core.zeroed with tlb := [(1, bootLeaf)], l2 := [⟨bootPa / 256, [0], [], 0, 0⟩] } }

theorem wit_descriptors :
    (let i := Instr.vldDesc (.acq .pkg) 3 0 m1
     let s := sG 0x10000
     let e := firstEnv s cuT bootThread bootOwner i
     Issues s cuT bootThread bootOwner i 0 ∧ check e.s bootOwner bootThread .vldDesc .load 0x10000 64 64 = .ok (.mem bootLeaf bootPa)
      ∧ goes s i (.vload 3 (readM bootThread 0) (some 2)) 0x10000 bootPa 64 none (some .pkg) = true)
    ∧ (let i := Instr.ldv 5 ad1
       let s := sG 0x10000
       Issues s cuT bootThread bootOwner i 0 ∧ (core? s 0 (homeCore bootLeaf (bootPa / 256))).isSome = true
        ∧ goes s i (.ldv 5) 0x10000 bootPa 1 none none = true)
    ∧ (let i := Instr.cstor .plain 5 ad1
       let e := firstEnv sC cuT bootThread bootOwner i
       Issues sC cuT bootThread bootOwner i 0 ∧ homeArea e .load spadVA (64 + 256 * 1) = (some 0, none)
        ∧ (∀ j < 4, BitVec.ofNat 64 (Memory.nat sC.spad (8 * j) 8) = if j = 0 then 0x10000 else 0)
        ∧ check e.s bootOwner bootThread .ldv .store 0x10000 256 256 = .ok (.mem bootLeaf bootPa)
        ∧ ((core? sC 0 0).bind (fun k => tokenOf k (bootPa / 256))) = some 0
        ∧ pendingOn e (homeTarget e) [(0, 1088)] = false ∧ markIn e.s (.spad 0 0 0) 64 = 0 ∧ markIn e.s (.spad 0 0 64) 256 = 0
        ∧ goes sC i (.cstor [(0, bootPa, 0)] [0] [Memory.readN sC.spad 64 256] 5) 0x10000 bootPa 256 none none = true) :=
  ⟨⟨issues_of (by decide), by decide, by decide⟩, ⟨issues_of (by decide), by decide, by decide⟩,
   ⟨issues_of (by decide), by decide, by decide, by decide, by decide, by decide, by decide, by decide⟩⟩

/-- A barrier object of two agents in the page, with one arrival to come, and with two. -/
def sB (pend : Nat) : State :=
  let obj := listOfWord (BitVec.ofNat 64 pend) 4 ++ listOfWord 2 4 ++ listOfWord 0xFFFF 2
  { sG 0x10040 with mem := Memory.writeN (sG 0).mem 0x50040 obj }

theorem wit_barriers :
    (Issues (sB 1) cuT bootThread bootOwner (.bara 5 ad1) 0 ∧ (readBar (sB 1) 0x50040).mbz = true ∧ (readBar (sB 1) 0x50040).narr = 2
      ∧ (readBar (sB 1) 0x50040).pend = 1
      ∧ check (firstEnv (sB 1) cuT bootThread bootOwner (.bara 5 ad1)).s bootOwner bootThread .obj .atomic 0x10040 64 64
          = .ok (.mem bootLeaf 0x50040)
      ∧ goes (sB 1) (.bara 5 ad1) (.arrive none 5) 0x10040 0x50040 64 (some .pkg) none = true ∧ markIn (sB 1) (.mem 0x50040) 64 = 0)
    ∧ (Issues (sB 2) cuT bootThread bootOwner (.barmax 5 m1) 0 ∧ (readBar (sB 2) 0x50040).pend = 2
      ∧ goes (sB 2) (.barmax 5 m1) (.arrive (some 0) 5) 0x10040 0x50040 64 (some .pkg) none = true)
    ∧ (Issues (sB 1) cuT bootThread bootOwner (.barw 6 ad1) 0 ∧ (readBar (sB 1) 0x50040).gen = 0xFFFF
      ∧ (barRec (sB 1) 0 0x50040).toTell.contains 0 = false ∧ (barRec (sB 1) 0 0x50040).woken = []
      ∧ (barRec { sB 1 with barriers := [⟨0, 0x50040, [0], [0], true, 1, []⟩] } 0 0x50040).toTell.contains 0 = true
      ∧ goes (sB 1) (.barw 6 ad1) (.barw 0) 0x10040 0x50040 64 none none = true) := by
  refine ⟨⟨issues_of (by decide), ?_⟩, ⟨issues_of (by decide), ?_⟩, ⟨issues_of (by decide), ?_⟩⟩ <;> decide

/-- A queue of two elements of 8 bytes at VA 0x10100, empty, and with one element. -/
def sQ (tail : Word) : State := { sG spadVA with
  launches := put sI.launches (lchKey 0 1) { bootLaunch with queues := [⟨0x10100, 2, 8⟩] },
  mem := Memory.writeN (sG 0).mem 0x50108 (listOfWord tail 8) }

theorem wit_queues :
    queueOf (sQ 0) 0 1 0 = some ⟨0x10100, 2, 8⟩ ∧ markIn (sQ 0) (.mem 0x50100) 256 = 0
    ∧ (let i := Instr.qput 5 1 0
       let e := firstEnv (sQ 1) cuT bootThread bootOwner i
       Issues (sQ 1) cuT bootThread bootOwner i 0 ∧ homeArea e .load spadVA 8 = (some 0, none)
        ∧ queueChk e ⟨0x10100, 2, 8⟩ = .ok bootLeaf 0x50100 ∧ pendingOn e (homeTarget e) [(0, 8)] = false
        ∧ Memory.nat (sQ 1).mem 0x50108 8 = 1 ∧ markIn e.s (.spad 0 0 0) 8 = 0
        ∧ goes (sQ 1) i (.qput 1 0 [0, 0, 0, 0, 0, 0, 0, 0] 5) 0x10100 0x50100 16 (some .pkg) none = true)
    ∧ (let i := Instr.qget 5 1 0
       Issues (sQ 1) cuT bootThread bootOwner i 0 ∧ bootThread.retiring = false ∧ markIn (sQ 1) (.mem 0x50200) 8 = 0
        ∧ goes (sQ 1) i (.qget 1 0 0 0 5) 0x10100 0x50100 16 none none = true)
    ∧ (goes (sQ 2) (.qput 5 1 0) (.qput 1 0 [0, 0, 0, 0, 0, 0, 0, 0] 5) 0x10100 0x50100 16 (some .pkg) none = true
        ∧ 0 + 2 ≤ Memory.nat (sQ 2).mem 0x50108 8)
    ∧ (goes (sQ 0) (.qget 5 1 0) (.qget 1 0 0 0 5) 0x10100 0x50100 16 none none = true ∧ tokenFor (sQ 0) 0 1 0 0 = false
        ∧ (let l := { bootLaunch with stages := [{ bootStage with inq := some 0 }], queues := [⟨0x10100, 2, 8⟩],
                                      dyn := bootLaunch.dyn.map (fun d => { d with shrink := 1 }) }
           let s := { sQ 0 with launches := put sI.launches (lchKey 0 1) l }
           goes s (.qget 5 1 0) (.qget 1 0 0 0 5) 0x10100 0x50100 16 none none = true ∧ tokenFor s 0 1 0 0 = true))
    ∧ (let t := { bootThread with retiring := true }
       Issues { sQ 0 with threads := put sI.threads 0 t } cuT t bootOwner (.qget 5 1 0) 0) := by
  refine ⟨?_, ?_, ⟨issues_of (by decide), ?_⟩, ⟨issues_of (by decide), ?_⟩, ?_, ?_, issues_of (by decide)⟩ <;> decide

/-- Requests of the thread at slice 0 for 8 bytes of the page. -/
def rq (kind : ReqKind) : Req :=
  { reqFor (firstEnv sI cuT bootThread bootOwner .nop) kind 0x10040 (.mem bootLeaf 0x50040) 8 none none with id := 7 }
def sR (kind : ReqKind) : State := { sI with reqs := [rq kind], nextId := 8 }
def atBank (kind : ReqKind) : Bool :=
  reqAt (sR kind) 7 == some (rq kind) && mayServe (sR kind) (rq kind) && !targetShut (sR kind) (rq kind).tgt
    && spotOf (rq kind) == .mem 0x50040 && (rq kind).tgt == .bank 0 0 0

/-- The bundle that waits for the reply of request 7. -/
def bT : Bundle := ⟨.ld .plain (mo .i64), 0x10000, 8, Wr.none, []⟩
def tW : Thread := { bootThread with status := .waiting (.reply 7), pend := some bT }
def pR (trap : Option (Nat × Word × Word × Word)) : Reply :=
  ⟨7, 0, 0, 0, .bank 0 0 0, [(6, 1)], [], none, trap, true, false, [], [], none, [], none, 0x10040⟩
def sW (trap : Option (Nat × Word × Word × Word)) : State :=
  { sI with threads := put sI.threads 0 tW, replies := [pR trap], nextId := 8 }

/-- What an entry or a request that has not left its core keeps of its issue. -/
def iss0 : Issue := ⟨0, [], none, none⟩

/-- What a release waits for: a store of the thread that is not performed yet. -/
def unperformed (s : State) : State := { s with reqs := [rq (.store [1])], nextId := 8 }

theorem wit_releases :
    (∀ i ∈ [Instr.fence .rel .pkg, .fence .full .sys, .wpush 5 3, .launchInstr 5 1 2, .spawn 5 1 2, .mts 1 0x0C, .lksend 5 ea1],
      issuesB (unperformed sI) cuT bootThread bootOwner i 0 = true
        ∧ releaseNow (firstEnv (unperformed sI) cuT bootThread bootOwner i).s bootThread .pkg = false)
    ∧ Issues sI cuT bootThread bootOwner (.fence .rel .pkg) 0 ∧ Issues sI cuT bootThread bootOwner (.fence .acq .pkg) 0
    ∧ releaseNow (firstEnv sI cuT bootThread bootOwner (.fence .rel .pkg)).s bootThread .pkg = true :=
  ⟨by decide, issues_of (by decide), issues_of (by decide), by decide⟩

/-- A replicated write of the thread that no die has room to receive. -/
theorem wit_applyFull :
    let l := { bootLeaf with cls := 1 }
    let t := { bootThread with walks := [(2, .leaf l)] }
    let x : RWrite := ⟨5, 0, 0, 0, [1], 0x50040, [(9, true)], false, [1], [1]⟩
    let s := { sG 0x20000 with threads := put sI.threads 0 t, rwrites := List.replicate 4096 x }
    let i := Instr.st .plain (mo .i64)
    let e := firstEnv s cuT t bootOwner i
    Issues s cuT t bootOwner i 0 ∧ checkSpan e .st .store (ea s t ad1) 8 8 = .ok (.mem l l.pa) none
      ∧ applyFull e (.mem l l.pa) = true :=
  ⟨issues_of (by decide), by decide, by decide⟩

theorem wit_requests : atBank (.store [1, 2, 3, 4, 5, 6, 7, 8]) = true ∧ atBank (.load 8 true 6) = true
    ∧ atBank (.amo .max 8 true 5 6) = true ∧ markIn (sR (.load 8 true 6)) (.mem 0x50040) 8 = 0
    ∧ mayServe (sR (.load 8 true 6)) { rq (.load 8 true 6) with id := 9 } = false
    ∧ (let p := { pR none with part := some (7, 3) }
       let got := fun (n : Nat) => (List.range n).map (fun j => { pR none with part := some (7, j) })
       let s := fun (n : Nat) => { sW none with threads := put sI.threads 0 { tW with got := got n }, replies := [p] }
       (s 2).replies = [p] ∧ replyAt (s 3) 7 = some p ∧ inOrder (s 3) p = true ∧ homeMoves (s 3) p = false
        ∧ (got 2).length < 3 ∧ 3 ≤ (got 3).length)
    ∧ (replyAt (sW none) 7 = some (pR none) ∧ inOrder (sW none) (pR none) = true ∧ isRecord (sW none) 7 = false
      ∧ thr? (sW none) 0 0 = some tW)
    ∧ replyAt (sW (some (0x0F, 1, 0x10040, 0))) 7 = some (pR (some (0x0F, 1, 0x10040, 0))) := by decide

/-- The journal with room and with none; an address at the end of the scratchpads and one past it. -/
theorem wit_postedEntries :
    (Issues sM cuT bootThread bootOwner (.pst (mo .i64)) 0 ∧ spadVa bootOwner 0 spadVA.toNat = some (0, 0)
      ∧ watchHit bootThread spadVA.toNat 8 false true = none ∧ core? sM 0 0 = some { Core.zeroed with tlb := [(1, bootLeaf)] })
    ∧ (let s := { sM with cores := put sM.cores (coreKey 0 0) { Core.zeroed with
                            journal := List.replicate 256 ⟨0, 0, 1, 0, .pst, false, 0, 0, [], false, 0, false, none, .ready, iss0⟩ } }
       Issues s cuT bootThread bootOwner (.pstF (mo .i64)) 0)
    ∧ (Issues sM cuT bootThread bootOwner (.xst (mo .i8)) 0 ∧ Issues (sG 0x1FE000000000004) cuT bootThread bootOwner (.xstF (mo .i64)) 0
        ∧ (0x1FE000000000004 : Word).toNat % 8 ≠ 0)
    ∧ (Issues (sG 0x1FF000000800000) cuT bootThread bootOwner (.msend 2 1) 0 ∧ spadVa bootOwner 0 0x1FF000000800000 = none
        ∧ spadVa bootOwner 0 0x1FF0000007FFFC0 = some (7, 0xFFFC0)) :=
  ⟨⟨issues_of (by decide), by decide, by decide, by decide⟩, issues_of (by decide),
   ⟨issues_of (by decide), issues_of (by decide), by decide⟩, ⟨issues_of (by decide), by decide, by decide⟩⟩

/-- A mailbox at the end of the scratchpad, full and empty; the inbox with a record and empty; the work list with room, full,
with an entry and with a cursor alone; WAITC with another word and with the same. -/
theorem wit_receives :
    (let i := Instr.mrecv 3 1
     let s := { sG 0x1FE0000000DFFC0 with spadFE := (List.range 4).map (fun g => (granKey 0 0 0xDFFC0 + g, true)) }
     let e := firstEnv s cuT bootThread bootOwner i
     Issues s cuT bootThread bootOwner i 0 ∧ spadVa bootOwner 0 0x1FE0000000DFFC0 = some (0, 0xDFFC0)
      ∧ core? s 0 0 = some { Core.zeroed with tlb := [(1, bootLeaf)] } ∧ 0xDFFC0 + 64 ≤ spadSize Core.zeroed
      ∧ inShadow Core.zeroed 0xDFFC0 64 = false ∧ mayServe e.s (ownReq e (.mrecv 3) 0x1FE0000000DFFC0 0xDFFC0 64 none none) = true
      ∧ (∀ g < 4, getD false s.spadFE (granKey 0 0 0xDFFC0 + g) = true) ∧ markIn e.s (.spad 0 0 0xDFFC0) 64 = 0)
    ∧ (Issues sM cuT bootThread bootOwner (.mrecv 3 1) 0 ∧ getD false sM.spadFE (granKey 0 0 0) = false)
    ∧ Issues sI cuT bootThread bootOwner (.mrecvTrap 3) 0
    ∧ (let t := { bootThread with inbox := [recordOf bootOwner bootThread (mkTrap 0x20 0 0) 0x10000 false false] }
       Issues { sI with threads := put sI.threads 0 t } cuT t bootOwner (.mrecvTrap 3) 0)
    ∧ (Issues sI cuT bootThread bootOwner (.wpush 5 3) 0
        ∧ releaseNow (firstEnv sI cuT bootThread bootOwner (.wpush 5 3)).s bootThread .pkg = true)
    ∧ (let w16 := List.replicate 256 (⟨List.replicate 16 1⟩ : WorkEnt)
       let s := { sI with cores := put sI.cores (coreKey 0 0) { Core.zeroed with work := w16 } }
       Issues s cuT bootThread bootOwner (.wpush 5 3) 0 ∧ Issues s cuT bootThread bootOwner (.wpop 3) 0)
    ∧ (let s := { sI with cores := put sI.cores (coreKey 0 0) { Core.zeroed with cursors := [⟨1, 0, 3, 1, 4⟩] } }
       Issues s cuT bootThread bootOwner (.wpop 3) 0)
    ∧ (let i := Instr.waitc 5 1 2
       let e := firstEnv sM cuT bootThread bootOwner i
       Issues sM cuT bootThread bootOwner i 0 ∧ markIn e.s (.spad 0 0 0) 8 = 0
        ∧ OwnSpad e .waitc .load (readG sM bootThread 1) 8 8 0 (.waitc 0 5) none none)
    ∧ (let s := { sG2 spadVA 1 with cur := some cuT }
       let e := firstEnv s cuT bootThread bootOwner (.waitc 5 1 2)
       Issues s cuT bootThread bootOwner (.waitc 5 1 2) 0
        ∧ OwnSpad e .waitc .load (readG s bootThread 1) 8 8 0 (.waitc 1 5) none none) :=
  ⟨⟨issues_of (by decide), by decide, by decide, by decide, by decide, by decide, by decide, by decide⟩,
   ⟨issues_of (by decide), by decide⟩, issues_of (by decide), issues_of (by decide), ⟨issues_of (by decide), by decide⟩,
   ⟨issues_of (by decide), issues_of (by decide)⟩, issues_of (by decide),
   ⟨issues_of (by decide), by decide, own_of (by decide)⟩, ⟨issues_of (by decide), own_of (by decide)⟩⟩

/-- An entry of core 0's journal for core 1, whose exchange area is one bank of 4 KiB. -/
def jE (kind : PostKind) (off n : Nat) (ph : Bool) (p : JPhase) : JEnt :=
  ⟨4, 0, 1, 1, kind, false, 0x1FF000000100000, off, List.replicate n 7, ph, 0, false, none, p, iss0⟩
def kX : Core := { Core.zeroed with xb := 1 }
def sJ (e : JEnt) (k : Core) : State :=
  { sI with cores := put (put sI.cores (coreKey 0 0) { Core.zeroed with journal := [e] }) (coreKey 0 1) k }
def posted (e : JEnt) (k : Core) : Bool := entryAt (sJ e k) 0 0 4 == some e && core? (sJ e k) 0 1 == some k && maySend (sJ e k) 0 e
  && !quietNet (sJ e k) 0 && !heldThere (sJ e k) 0 e && !stopped (sJ e k) 0
  && entryNext (sJ e k) 0 0 e && lands (sJ e k) 0 e
/-- The same entry sent to the tile of core 2, which holds no forwarding entry for core 1, or one that lives, or one
that has lived. -/
def jL (kind : PostKind) : JEnt := { jE kind 0 8 false .ready with tile := some ⟨0, 0, 2, false⟩ }
def sL (kind : PostKind) (l : List Forward) : State :=
  { sJ (jL kind) kX with cores := put (sJ (jL kind) kX).cores (coreKey 0 2) { Core.zeroed with forwards := l } }
def late (kind : PostKind) : Bool :=
  let s := sL kind []
  entryAt s 0 0 4 == some (jL kind) && core? s 0 1 == some kX && maySend s 0 (jL kind) && !quietNet s 0 && !heldThere s 0 (jL kind) && entryNext s 0 0 (jL kind)
    && !lands s 0 (jL kind)

/-- Deliveries at a vacated tile: late with no forwarding entry or an expired one, forwarded by a live one (R135). -/
theorem wit_late : late .pst = true ∧ late .xst = true ∧ lands (sL .pst [⟨1, 0⟩]) 0 (jL .pst) = false
    ∧ lands (sL .pst [⟨1, sI.fab + 1⟩]) 0 (jL .pst) = true
    ∧ entryAt (sJ { jL .pst with phase := .late } kX) 0 0 4 = some { jL .pst with phase := .late }
    ∧ thr? (sJ { jL .pst with phase := .late } kX) 0 0 = some bootThread := by decide

/-- The last bytes and the first beyond; the shadow's edge; a mailbox that is empty and one that messages wait for, with
room among the held ones and with none; packets of this phase and the next, with room and with none. -/
theorem wit_journalEvents :
    posted (jE .pst 0xDFFF8 8 false .ready) Core.zeroed = true ∧ posted (jE .pst 0xDFFFC 8 false .ready) Core.zeroed = true
    ∧ posted (jE .pst 0xDEFFF 1 false .ready) kX = true ∧ inShadow kX 0xDEFFF 1 = false ∧ inShadow kX 0xDF000 1 = true
    ∧ posted (jE .msend 0 64 false .ready) Core.zeroed = true
    ∧ posted (jE .msend 0 64 false .ready) { Core.zeroed with msgs := List.replicate 15 ⟨0, []⟩ } = true
    ∧ posted (jE .msend 0 64 false .ready) { Core.zeroed with msgs := List.replicate 16 ⟨0, []⟩ } = true
    ∧ posted (jE .xst 0xDF000 8 false .ready) Core.zeroed = true ∧ shadowLo kX = 0xDF000
    ∧ posted (jE .xst 0xDEFF8 8 false .ready) kX = true ∧ posted (jE .xst 0xDF000 8 false .ready) kX = true
    ∧ posted (jE .xst 0xDFFF8 8 true .ready) { kX with phase := List.replicate 15 ⟨0, [], false⟩ } = true
    ∧ heldThere (sJ (jE .xst 0xDFFF8 8 true .ready) { kX with phase := List.replicate 16 ⟨0, [], false⟩ }) 0
        (jE .xst 0xDFFF8 8 true .ready) = true
    ∧ entryAt (sJ (jE .pst 0 8 false .acked) Core.zeroed) 0 0 4 = some (jE .pst 0 8 false .acked)
    ∧ entryAt (sJ (jE .pst 0 8 false (.refusing 0)) Core.zeroed) 0 0 4 = some (jE .pst 0 8 false (.refusing 0))
    ∧ entryAt (sJ (jE .msend 0 64 false (.busy 0)) Core.zeroed) 0 0 4 = some (jE .msend 0 64 false (.busy 0)) := by decide

/-- A member of an exchange barrier; a replicated write of die 0 for die 1, in turn and out of turn; two AMOs. -/
def rW (n : Nat) (buf : List Nat) : RWrite := ⟨5, 0, 0, 0, [n], 0x50040, [(9, true)], false, [1], buf⟩
def sX : State := { sI with cores := put sI.cores (coreKey 0 0) kX, barriers := [⟨0, 0x50040, [], [0], true, 1, []⟩] }
def aA : Req := { rq (.amo .add 8 true 5 6) with id := 3 }
def aB : Req := { rq (.amo .add 8 true 7 2) with id := 4, tid := 1, core := 1 }
def sA : State := { sI with reqs := [aA, aB], nextId := 8 }

theorem wit_swaps :
    ((barRec sX 0 0x50040).toTell.contains 0 = true ∧ (placeOf sX 0 0).mv = false ∧ core? sX 0 0 = some kX ∧ kX.phase = [] ∧ 2 * kX.xb * 4096 ≤ spadSize kX)
    ∧ (let s := { sI with rwrites := [rW 1 []] }
       s.rwrites.find? (fun y => y.o == 0 && y.id == 5 && y.pending.contains 1 && !y.buffered.contains 1) = some (rW 1 [])
        ∧ s.rwrites.find? (fun y => y.src == 0 && y.pending.contains 1 && !y.buffered.contains 1) = some (rW 1 [])
        ∧ (s.rwrites.filter (fun y => y.buffered.contains 1)).length < 4096 ∧ quietNet s 0 = false)
    ∧ (let s := { sI with rwrites := [rW 1 [1]] }
       s.rwrites.find? (fun y => y.o == 0 && y.id == 5 && y.buffered.contains 1) = some (rW 1 [1]) ∧ owner? s 0 = some bootOwner
        ∧ paused s = false ∧ vcReady bootOwner (rW 1 [1]) 1 = true ∧ vcReady bootOwner (rW 2 [1]) 1 = false)
    ∧ (reqAt sA 3 = some aA ∧ reqAt sA 4 = some aB ∧ combinable sA aA aB = true ∧ combinable sA aA { aB with n := 4, kind := .load 8 true 1 } = false)
    ∧ (let s := { sI with replies := [{ pR none with val := some 9 }], combines := [⟨7, aA, aB, (0, 0, 0)⟩] }
       replyAt s 7 = some { pR none with val := some 9 } ∧ s.combines.find? (fun x => x.id == 7) = some ⟨7, aA, aB, (0, 0, 0)⟩) := by decide

/-! ### Special registers, threads and jobs -/

def plumbOwner : Owner := { bootOwner with plumb := true }
def sPl : State := { sI with owners := put sI.owners 0 plumbOwner }

theorem wit_special :
    Issues sI cuT bootThread bootOwner (.mfs 5 0x17) 0 ∧ Issues sPl cuT bootThread plumbOwner (.mfs 5 0x06) 0
    ∧ (Issues (sG 0xFDFFFFFFFFFFFFFF) cuT bootThread bootOwner (.mts 1 0x14) 0 ∧ (0x14 : BitVec 8) ≠ 0x0C ∧ cuT.v = none)
    ∧ Issues sPl cuT bootThread plumbOwner (.rdcyc 5) 0 ∧ core? sI 0 0 = some { Core.zeroed with tlb := [(1, bootLeaf)] }
    ∧ (Issues (sG 0) cuT bootThread bootOwner (.skimw 5 1) 0 ∧ bootOwner.gen % 2 ^ 48 = 0)
    ∧ (Issues (sG 1) cuT bootThread bootOwner (.skimw 5 1) 0 ∧ (1 : Word).toNat % 2 ^ 48 ≠ bootOwner.gen % 2 ^ 48) :=
  ⟨issues_of (by decide), issues_of (by decide), ⟨issues_of (by decide), by decide, rfl⟩, issues_of (by decide), by decide,
   ⟨issues_of (by decide), by decide⟩, ⟨issues_of (by decide), by decide⟩⟩

/-- A parked thread in slot 1, and a value of %trapc that names it and a disposition. -/
def tPk : Thread := { bootThread with tid := 1, slot := 1, status := .parked, kept := some (keptT false (some 0)) }
def sD (t : Thread) (disp : Word) : State :=
  { sG (1 + disp * 0x1000000) with threads := put (put sI.threads (thrKey 0 0) bootThread) (thrKey 0 1) t }

theorem wit_dispositions :
    (∀ d : BitVec 2, issuesB (sD tPk (d.setWidth 64)) cuT bootThread bootOwner (.mts 1 0x0C) 0 = true
      ∧ thr? (sD tPk (d.setWidth 64)) 0 1 = some tPk)
    ∧ releaseNow (firstEnv (sD tPk 1) cuT bootThread bootOwner (.mts 1 0x0C)).s bootThread .pkg = true
    ∧ tPk.mig = none ∧ tPk.status = .parked ∧ tPk.kept = some (keptT false (some 0)) ∧ (keptT false (some 0)).item = .none
    ∧ (keptT false none).trap.async = false ∧ (keptT false none).len = none
    ∧ thr? sI 0 1 = none
    ∧ Issues (sD { tPk with mig := some (1, 0, 0, 0) } 1) cuT bootThread bootOwner (.mts 1 0x0C) 0 := by
  refine ⟨by decide, ?_, ?_, ?_, ?_, ?_, ?_, ?_, ?_, issues_of (by decide)⟩ <;> decide

theorem wit_ends : cuT.o = bootThread.o ∧ cuT.tid = bootThread.tid ∧ cuT.v = none ∧ Issues sI cuT bootThread bootOwner .halt 0
    ∧ Issues sI cuT bootThread bootOwner (.haltRetain 0) 0 ∧ lch? sI 0 1 = some bootLaunch ∧ bootThread.inbox = []
    ∧ (let t := { bootThread with sbanks := 2 }
       Issues { sI with threads := put sI.threads 0 t } cuT t bootOwner (.haltRetain 0) 0)
    ∧ Issues sI cuT bootThread bootOwner .yield 0 :=
  ⟨by decide, by decide, rfl, issues_of (by decide), issues_of (by decide), by decide, by decide, issues_of (by decide),
   issues_of (by decide)⟩

def launch2 : Launch := { bootLaunch with stages := [{ bootStage with tmax := 2 }] }
def sS (l : Launch) (a b : Word) : State := { sG2 a b with launches := put sI.launches (lchKey 0 1) l }

/-- A header that is aligned and one that is not; a stage with room, one without, one that is not there; a core that is
not there; and a core with a grant to give. -/
theorem wit_launchAndSpawn :
    (Issues (sG2 0x10000 7) cuT bootThread bootOwner (.launchInstr 5 1 2) 0 ∧ Issues (sG2 0x10020 7) cuT bootThread bootOwner (.launchInstr 5 1 2) 0
      ∧ releaseNow (firstEnv (sG2 0x10000 7) cuT bootThread bootOwner (.launchInstr 5 1 2)).s bootThread .pkg = true)
    ∧ (Issues (sS bootLaunch 0 0) cuT bootThread bootOwner (.spawn 5 1 2) 0 ∧ bootLaunch.stages[0]? = some bootStage
        ∧ (stageThreads (sS bootLaunch 0 0) 0 1 0).length = 1)
    ∧ (Issues (sS bootLaunch 1 0) cuT bootThread bootOwner (.spawn 5 1 2) 0 ∧ bootLaunch.stages[1]? = none)
    ∧ (Issues (sS launch2 0 8) cuT bootThread bootOwner (.spawn 5 1 2) 0 ∧ ncores bootOwner = 8)
    ∧ (Issues (sS launch2 0 7) cuT bootThread bootOwner (.spawn 5 1 2) 0
        ∧ (grantOn (sS launch2 0 7) 0 7 launch2 0 { bootStage with tmax := 2 }).isSome = true)
    ∧ releaseNow (firstEnv (sS launch2 0 7) cuT bootThread bootOwner (.spawn 5 1 2)).s bootThread .pkg = true :=
  ⟨⟨issues_of (by decide), issues_of (by decide), by decide⟩, ⟨issues_of (by decide), by decide, by decide⟩,
   ⟨issues_of (by decide), by decide⟩, ⟨issues_of (by decide), by decide⟩, ⟨issues_of (by decide), by decide⟩, by decide⟩

/-- A block of 64 bytes in the own scratchpad, given by its bytes that are not zero. -/
def blockOf (l : List (Nat × Byte)) : List Byte := (List.range 64).map (fun k => getD 0 l k)
def sBlk (l : List (Nat × Byte)) : State := { sM with spad := Memory.writeN [] 0 (blockOf l) }
def ead : EAddr := ⟨1, 0⟩
def mxB : List (Nat × Byte) := [(9, 0x10), (44, 1), (48, 1), (49, 1), (53, 1), (54, 127)]
def cuB : List (Nat × Byte) := [(9, 0x10), (16, 64), (20, 1)]

def ownBlkB (s : State) (i : Instr) (off : Nat) : Bool :=
  let e := firstEnv s cuT bootThread bootOwner i
  check e.s bootOwner bootThread .ld .load spadVA 64 64 == .ok (.spad 0 off)
    && !pendingOn e (.scratch 0 0) [(off, 64)] && markIn e.s (.spad 0 0 off) 64 == 0

theorem ownBlk_of {s : State} {i : Instr} (h : ownBlkB s i 0 = true) :
    OwnBlock (firstEnv s cuT bootThread bootOwner i) spadVA 0 := by
  simp only [ownBlkB, Bool.and_eq_true, beq_iff_eq, Bool.not_eq_true'] at h
  obtain ⟨⟨h1, h2⟩, h3⟩ := h
  exact ⟨by decide, by decide, h1, h2, h3⟩

theorem wit_jobSubmission :
    (Issues (sBlk mxB) cuT bootThread bootOwner (.mxrun false 5 ead) 0
      ∧ OwnBlock (firstEnv (sBlk mxB) cuT bootThread bootOwner (.mxrun false 5 ead)) spadVA 0
      ∧ (let b := Memory.readN (sBlk mxB).spad 0 64
         (mxBlock b).ok b = true))
    ∧ (Issues (sBlk []) cuT bootThread bootOwner (.mxrun true 5 ead) 0 ∧
        let b := Memory.readN (sBlk []).spad 0 64
        (mxBlock b).ok b = false)
    ∧ (Issues (sBlk cuB) cuT bootThread bootOwner (.cucopy true 5 ead) 0
      ∧ OwnBlock (firstEnv (sBlk cuB) cuT bootThread bootOwner (.cucopy true 5 ead)) spadVA 0
      ∧ (let b := Memory.readN (sBlk cuB).spad 0 64
         (cuBlock b).ok b = true))
    ∧ Issues (sG 0x10020) cuT bootThread bootOwner (.mxrun false 5 ead) 0
    ∧ (Issues (sG 0x10000) cuT bootThread bootOwner (.mxrun false 5 ead) 0 ∧ isSpadVa 0x10000 = false)
    ∧ Issues (sG 0x10000) cuT bootThread bootOwner (.mxcarryLd false 5 ead) 0
    ∧ Issues (sG 0x200000000000000) cuT bootThread bootOwner (.mxcarrySt true 5 ead) 0
    ∧ Issues (sG2 0x10000 64) cuT bootThread bootOwner (.cufill false 5 ead 2 3) 0
    ∧ Issues (sG2 0x10000 0x10000000000) cuT bootThread bootOwner (.cufill false 5 ead 2 3) 0
    ∧ Issues (sG2 0x10000 0x10040) cuT bootThread bootOwner (.culdb false 5 ead 2) 0
    ∧ Issues (sG2 0x10000 0x10000040) cuT bootThread bootOwner (.culdb false 5 ead 2) 0
    ∧ Issues (sG2 0x10000 64) cuT bootThread bootOwner (.cudigest false 7 ead 2) 0
    ∧ (Issues (sG2 5 0x10000) cuT bootThread bootOwner (.slout false 5 1 2) 0 ∧ bootOwner.sen = false)
    ∧ (releaseNow (firstEnv (sBlk mxB) cuT bootThread bootOwner (.mxrun false 5 ead)).s bootThread .clus = true
        ∧ mayTakeEntry (firstEnv (sBlk mxB) cuT bootThread bootOwner (.mxrun false 5 ead)).s bootThread = true) :=
  ⟨⟨issues_of (by decide), ownBlk_of (by decide), by decide⟩, ⟨issues_of (by decide), by decide⟩,
   ⟨issues_of (by decide), ownBlk_of (by decide), by decide⟩, issues_of (by decide), ⟨issues_of (by decide), by decide⟩,
   issues_of (by decide), issues_of (by decide), issues_of (by decide), issues_of (by decide), issues_of (by decide),
   issues_of (by decide), issues_of (by decide), ⟨issues_of (by decide), by decide⟩, ⟨by decide, by decide⟩⟩

/-- Job 0x2003 of core 1: in a state, or ended. -/
def jb (st : JobState) : Job :=
  ⟨0x2003, 0, 1, .fill 0x10000 64 0 0, 0, false, .none, st, 0, 0, false, false, false, false, none, false, false, [], 0, [], []⟩
def sK (k : Core) : State := { sG 0x2003 with cores := put sI.cores (coreKey 0 1) k }
def kEnded : Core := { Core.zeroed with outcomes := [(0x2003, 1, some 0)] }
def kJob (st : JobState) : Core := { Core.zeroed with jobs := [jb st] }

theorem wit_jobControl :
    (core? (sK kEnded) 0 (tidClus 0 * 8 + 0x2003 / 8192) = some kEnded ∧ Issues (sK kEnded) cuT bootThread bootOwner (.jwait 5 1) 0x40
      ∧ Issues (sK kEnded) cuT bootThread bootOwner (.jpoll 5 1) 0x40 ∧ Issues (sK kEnded) cuT bootThread bootOwner (.jcancel 5 1) 0
      ∧ kEnded.jobs.find? (·.id == 0x2003) = none)
    ∧ (Issues (sK (kJob .running)) cuT bootThread bootOwner (.jwait 5 1) 0
      ∧ (kJob .running).jobs.find? (·.id == 0x2003) = some (jb .running) ∧ (jb .running).isRunning = true)
    ∧ Issues (sK (kJob (.suspended 4 0x10000 9))) cuT bootThread bootOwner (.jpoll 5 1) 0
    ∧ Issues (sK (kJob .queued)) cuT bootThread bootOwner (.jcancel 5 1) 0
    ∧ (let cl := { Cluster.zeroed with mx := some ⟨1, 0x2003, 0, 0, [], [], [], false, true, []⟩ }
       let s := { sK (kJob .running) with clusters := put sI.clusters (clusKey 0 0) cl }
       Issues s cuT bootThread bootOwner (.jcancel 5 1) 0 ∧ mustFinish s 0 1 (jb .running) = true)
    ∧ (Issues { sK kEnded with owners := put sI.owners 0 plumbOwner } cuT bootThread plumbOwner (.jpoll 5 1) 0 ∧ plumbOwner.plumb = true) :=
  ⟨⟨by decide, issues_of (by decide), issues_of (by decide), issues_of (by decide), by decide⟩,
   ⟨issues_of (by decide), by decide, by decide⟩, issues_of (by decide), issues_of (by decide), ⟨issues_of (by decide), by decide⟩, ⟨issues_of (by decide), by decide⟩⟩

def strm (out : Bool) : Stream := ⟨spadVA, 4, 1, 1, 64, 0, 0, out, 8, 2, some 3, [], []⟩
def tS (out : Bool) : Thread := { bootThread with streams := [strm out] }
def sT (t : Thread) (v : Word) : State := { sG v with threads := put sI.threads 0 t }

theorem wit_streams :
    (Issues (sBlk []) cuT bootThread bootOwner (.scfg 0 ead) 0
      ∧ OwnBlock (firstEnv (sBlk []) cuT bootThread bootOwner (.scfg 0 ead)) spadVA 0)
    ∧ Issues (sBlk [(48, 2)]) cuT bootThread bootOwner (.scfg 3 ead) 0 ∧ Issues (sG 0x1FE000000000020) cuT bootThread bootOwner (.scfg 0 ead) 0
    ∧ (let e := firstEnv (sG 0x10000) cuT bootThread bootOwner (.scfg 0 ead)
       Issues (sG 0x10000) cuT bootThread bootOwner (.scfg 0 ead) 0
        ∧ check e.s bootOwner bootThread .ld .load 0x10000 64 64 = .ok (.mem bootLeaf bootPa)
        ∧ pendingOn e (targetAt e (.mem bootLeaf bootPa)) [(bootPa, 64)] = false ∧ l1Hit e bootLeaf bootPa 64 = none
        ∧ targetAt e (.mem bootLeaf bootPa) = .bank 0 0 0 ∧ bootLeaf.cls ≠ 2 ∧ markIn (sG 0x10000) (.mem bootPa) 64 = 0)
    ∧ (let e := firstEnv sP cuT bootThread bootOwner (.scfg 0 ead)
       Issues sP cuT bootThread bootOwner (.scfg 0 ead) 0 ∧ (l1Hit e bootLeaf bootPa 64).isSome = true)
    ∧ Issues (sT (tS false) 0) cuT (tS false) bootOwner (.sbind 0 1) 0 ∧ Issues (sT (tS false) 0) cuT (tS false) bootOwner (.sclose 0) 0
    ∧ Issues (sT (tS false) 0) cuT (tS false) bootOwner (.spos 5 0 none) 0
    ∧ (Issues (sT (tS false) 4) cuT (tS false) bootOwner (.spos 5 0 (some 1)) 0 ∧ streamAt (tS false) 0 = strm false)
    ∧ Issues (sT (tS false) 5) cuT (tS false) bootOwner (.spos 5 0 (some 1)) 0
    ∧ Issues (sT (tS false) 0) cuT (tS false) bootOwner (.scommit 0) 0
    ∧ (Issues (sT (tS true) 0) cuT (tS true) bootOwner (.scommit 0) 0 ∧ (sT (tS true) 0).reqs.any (isPush (tS true) 0) = false)
    ∧ (let s := { sT (tS true) 0 with reqs := [rq (.push 0 0)] }
       Issues s cuT (tS true) bootOwner (.scommit 0) 0 ∧ s.reqs.any (isPush (tS true) 0) = true)
    ∧ (boundTo (tS true) 3 = some 0 ∧ spadVa bootOwner 0 ((strm true).addr 2).toNat = some (0, 128)
        ∧ isSpadVa ((strm true).addr 2).toNat = true) :=
  ⟨⟨issues_of (by decide), ownBlk_of (by decide)⟩, issues_of (by decide), issues_of (by decide),
   ⟨issues_of (by decide), by decide, by decide, by decide, by decide, by decide, by decide⟩, ⟨issues_of (by decide), by decide⟩,
   issues_of (by decide), issues_of (by decide), issues_of (by decide), ⟨issues_of (by decide), by decide⟩, issues_of (by decide), issues_of (by decide),
   ⟨issues_of (by decide), by decide⟩, ⟨issues_of (by decide), by decide⟩, ⟨by decide, by decide, by decide⟩⟩

/-! ### Sealed lines and links -/

/-- An owner with a region of 16 sets at VA 0x20000, its first page at PA 0x60000; a line of name 0x1000 in set 0. -/
def sealOwner : Owner := { bootOwner with sen := true, vbase := 0x20000, nb := 4, extents := [⟨0x10000, 16, false⟩] }
def sealLeaf : Leaf := ⟨0x60000, true, false, false, false, 2, false, 0, 0, 2⟩
def sealMem (m : Memory) : Memory :=
  Memory.writeN (Memory.writeN m 0x40010 (listOfWord 0x6213 8)) 0x60000 (listOfWord 0x1000 8 ++ listOfWord 1 4 ++ listOfWord 1 4)
def sSeal (v x : Word) : State :=
  let s := sG2 v x
  { s with
    owners := put s.owners 0 sealOwner,
    cores := put s.cores (coreKey 0 0) { Core.zeroed with tlb := [(1, bootLeaf), (2, sealLeaf)] },
    mem := sealMem s.mem,
    tags := [(0x601, sealH sealOwner (List.replicate 256 0) 0x007F007F007F007F % 2 ^ 48)] }

def setLineB (s : State) (i : Instr) (k : AccKind) (name : Nat) : Bool :=
  setChk (firstEnv s cuT bootThread sealOwner i) k (setOfName sealOwner name) == .ok (.mem sealLeaf 0x60000)
    && sealTrans s sealOwner (setVa sealOwner (setOfName sealOwner name)) k k.writes == .ok (.mem sealLeaf 0x60000)
    && markIn s (.mem 0x60000) 256 == 0

theorem setLine_of {s : State} {i : Instr} {k : AccKind} {name : Nat} (h : setLineB s i k name = true) :
    SetLine s (firstEnv s cuT bootThread sealOwner i) k name sealLeaf 0x60000 := by
  simp only [setLineB, Bool.and_eq_true, beq_iff_eq] at h
  exact ⟨rfl, h.1.1, h.1.2, h.2⟩

def goesS (s : State) (i : Instr) (kind : ReqKind) (l : Leaf) (pa n : Nat) (va : Word) (rel acq : Option Scope) : Bool :=
  travelsB s cuT bootThread sealOwner i (reqFor (firstEnv s cuT bootThread sealOwner i) kind va (.mem l pa) n rel acq)

theorem wit_sealedRefs :
    (let i := Instr.slref 5 1
     let s := sSeal 0x1000 0
     Issues s cuT bootThread sealOwner i 0 ∧ SetLine s (firstEnv s cuT bootThread sealOwner i) .atomic 0x1000 sealLeaf 0x60000
      ∧ owner? s 0 = some sealOwner ∧ goesS s i (.slref 0x1000 5) sealLeaf 0x60000 256 0x20000 none none = true
      ∧ findName s 0x60000 0x1000 = some 0 ∧ (readEnt s 0x60000 0).cnt = 1 ∧ setVa sealOwner (setOfName sealOwner 0x1000) = 0x20000)
    ∧ (let i := Instr.slunref 5 1
       let s := sSeal 0x1000 0
       Issues s cuT bootThread sealOwner i 0 ∧ goesS s i (.slunref 0x1000 5) sealLeaf 0x60000 256 0x20000 none none = true)
    ∧ (Issues (sG 0x1000) cuT bootThread bootOwner (.slref 5 1) 0 ∧ bootOwner.sen = false) :=
  ⟨⟨issues_of (by decide), setLine_of (by decide), by decide, by decide, by decide, by decide, by decide⟩,
   ⟨issues_of (by decide), by decide⟩, ⟨issues_of (by decide), by decide⟩⟩

theorem wit_sealedLines :
    (let i := Instr.slget 5 ead 2
     let s := { sSeal spadVA 0x1000 with cur := some cuT }
     let e := firstEnv s cuT bootThread sealOwner i
     Issues s cuT bootThread sealOwner i 0 ∧ SetLine s e .load 0x1000 sealLeaf 0x60000
      ∧ homeArea e .store spadVA 320 = (some 0, none) ∧ watchHit bootThread spadVA.toNat 320 false true = none
      ∧ goesS s i (.slget 0x1000 0 5) sealLeaf 0x60000 256 0x20000 none none = true
      ∧ sealTrans s sealOwner 0x20100 .load false = .ok (.mem sealLeaf 0x60100)
      ∧ sealH sealOwner (Memory.readN s.mem 0x60100 256) (descWord s 0x60100) % 2 ^ 48 = getD 0 s.tags 0x601
      ∧ markIn s (.mem 0x60100) 256 = 0)
    ∧ (let i := Instr.slhash 5 ead
       let s := sSeal spadVA 0
       let e := firstEnv s cuT bootThread sealOwner i
       Issues s cuT bootThread sealOwner i 0 ∧ check e.s sealOwner bootThread .ld .load spadVA 256 256 = .ok (.spad 0 0)
        ∧ pendingOn e (.scratch 0 0) [(0, 256)] = false ∧ markIn e.s (.spad 0 0 0) 256 = 0) :=
  ⟨⟨issues_of (by decide), setLine_of (by decide), by decide, by decide, by decide, by decide, by decide, by decide⟩,
   ⟨issues_of (by decide), by decide, by decide, by decide⟩⟩

theorem wit_sealedRoots :
    (let i := Instr.slput false 5 ead
     let s := sSeal spadVA 0
     let e := firstEnv s cuT bootThread sealOwner i
     let line := Memory.readN s.spad 0 256
     let name := sealh sealOwner line 0x007F007F007F007F * 16
     let r := reqFor e (.slput false line 0x007F007F007F007F 5) (BitVec.ofNat 64 (setVa sealOwner (setOfName sealOwner name)))
       (.mem sealLeaf 0x60000) 256 none none
     Issues s cuT bootThread sealOwner i 0 ∧ SetLine s e .atomic name sealLeaf 0x60000
      ∧ check e.s sealOwner bootThread .ld .load spadVA 256 256 = .ok (.spad 0 0) ∧ Travels s cuT bootThread sealOwner i r
      ∧ (match slPut (asked s cuT bootThread sealOwner i r) sealOwner 0 false line 0x007F007F007F007F with
         | .ok _ _ => true
         | .trap _ _ _ _ _ => false) = true)
    ∧ (let i := Instr.slswap 5 ead 2
       let s := sSeal 0x10080 0x1000
       let e := firstEnv s cuT bootThread sealOwner i
       let r := reqFor e (.slswap 0 0x1000 5) 0x10080 (.mem bootLeaf 0x50080) 8 (some .pkg) (some .pkg)
       Issues s cuT bootThread sealOwner i 0 ∧ check e.s sealOwner bootThread .obj .atomic 0x10080 8 8 = .ok (.mem bootLeaf 0x50080)
        ∧ Travels s cuT bootThread sealOwner i r
        ∧ (match slSwap (asked s cuT bootThread sealOwner i r) sealOwner r 0 0x1000 with
           | .ok _ _ => true
           | .trap _ _ _ _ _ => false) = true)
    ∧ (let i := Instr.slswap 5 ead 2
       let s := sSeal 0x10000 0
       Issues s cuT bootThread sealOwner i 0 ∧ markIn s (.mem 0x50000) 8 = 0 ∧ Memory.nat s.mem 0x50000 8 ≠ 0
        ∧ goesS s i (.slswap 0 0 5) bootLeaf 0x50000 8 0x10000 (some .pkg) (some .pkg) = true) :=
  ⟨⟨issues_of (by decide), setLine_of (by decide), by decide, travels_of (by decide), by decide⟩,
   ⟨issues_of (by decide), by decide, travels_of (by decide), by decide⟩,
   ⟨issues_of (by decide), by decide, by decide, by decide⟩⟩

/-- A line of zeros that stands in slot 0 of its set, and the set without it but with another name there. -/
def zName : Nat := sealh sealOwner (List.replicate 256 0) 0x007F007F007F007F * 16
def sPut : State :=
  let s := sSeal spadVA 0
  { s with mem := Memory.writeN s.mem 0x60000 (listOfWord (BitVec.ofNat 64 zName) 8) }

theorem wit_sealedNames :
    (let s := sPut
     let i := Instr.slput false 5 ead
     let e := firstEnv s cuT bootThread sealOwner i
     let r := reqFor e (.slput false (List.replicate 256 0) 0x007F007F007F007F 5)
       (BitVec.ofNat 64 (setVa sealOwner (setOfName sealOwner zName))) (.mem sealLeaf 0x60000) 256 none none
     Issues s cuT bootThread sealOwner i 0 ∧ SetLine s e .atomic zName sealLeaf 0x60000 ∧ Travels s cuT bootThread sealOwner i r
      ∧ sealTrans s sealOwner (setVa sealOwner (setOfName sealOwner zName) + 256) .atomic true = .ok (.mem sealLeaf 0x60100)
      ∧ (readEnt s 0x60000 0).live = true ∧ (readEnt s 0x60000 0).name = zName ∧ (readEnt s 0x60000 0).int = false
      ∧ Memory.readN s.mem 0x60100 256 = List.replicate 256 0 ∧ descWord s 0x60100 = 0x007F007F007F007F)
    ∧ (let s := sSeal spadVA 0
       sealTrans s sealOwner (setVa sealOwner (setOfName sealOwner zName) + 512) .atomic true = .ok (.mem sealLeaf 0x60200)
        ∧ (readEnt s 0x60000 1).live = false ∧ (readEnt s 0x60000 1).recl = false ∧ (readEnt s 0x60000 0).live = true
        ∧ (readEnt s 0x60000 0).name / 16 ≠ zName / 16)
    ∧ (let s := sSeal 0x10080 0x1000
       Named s sealOwner 0x1000 0x60000 0 ∧ (readEnt s 0x60000 0).cnt < 0xFFFFFFFF ∧ apart 0x50080 8 0x60000 256
        ∧ Memory.nat s.mem 0x50080 8 = 0) :=
  ⟨⟨issues_of (by decide), setLine_of (by decide), travels_of (by decide), by decide, by decide, by decide, by decide, by decide,
    by decide⟩, ⟨by decide, by decide, by decide, by decide, by decide⟩,
   ⟨⟨by decide, ⟨sealLeaf, by decide⟩, by decide, by decide⟩, by decide, .inl (by decide), by decide⟩⟩

/-- Group 5 of two members, the rank given, its block at VA 0x10100. -/
def grp (rank : Nat) : Group := ⟨0x10100, [], 5, 2, rank, [(0, 0), (1, 1)], [], false⟩
def linkOwner (rank : Nat) : Owner := { bootOwner with groups := [grp rank] }
def lkBlk (peer step : Byte) : List (Nat × Byte) :=
  [(1, 1), (2, 1), (9, 2), (10, 1), (16, 64), (20, peer), (24, step), (33, 3), (34, 1)]
def sLk (rank : Nat) (peer step : Byte) (bufs : List StepBuf) : State :=
  { sBlk (lkBlk peer step) with owners := put sI.owners 0 (linkOwner rank), bufs := bufs }
def lkEnv (rank : Nat) (s : State) (i : Instr) : Env := firstEnv s cuT bootThread (linkOwner rank) i
def inBuf (n : Nat) : StepBuf := ⟨0, 5, 1, 3, 0, 1, [(0, List.replicate n 0)], false, false⟩
def fmtBuf : StepBuf := ⟨0, 5, 1, 3, 1, 1, [(0, List.replicate 64 0)], false, false⟩

def linkB (e : Env) (x : LkBlock) (g : Group) (red : Bool) : Bool :=
  let b := Memory.readN e.s.spad (spadKey e.t.o e.t.core 0) 64
  check e.s e.w e.t .ld .load spadVA 64 64 == .ok (.spad e.t.core 0)
    && !pendingOn e (.scratch e.t.o e.t.core) [(0, 64)] && markIn e.s (.spad e.t.o e.t.core 0) 64 == 0
    && x == lkBlock b && x.ok b red && findGroup e e.s x.gva == .ok g

theorem linkB_of {e : Env} {x : LkBlock} {g : Group} {red : Bool} (h : linkB e x g red = true) :
    LinkBlock e spadVA 0 x g red := by
  simp only [linkB, Bool.and_eq_true, beq_iff_eq, Bool.not_eq_true'] at h
  obtain ⟨⟨⟨⟨⟨h1, h2⟩, h3⟩, h4⟩, h5⟩, h6⟩ := h
  exact ⟨⟨by decide, by decide, h1, h2, h3⟩, h4, h5, h6⟩

def xLk (peer step : Nat) : LkBlock := ⟨0x10100, 0x10200, 64, peer, 0, 0, step, 0x10300⟩

/-- A send with its credit and without; to the own rank; a receive with a whole message, with one too long and with none. -/
theorem wit_links :
    (let s := sLk 0 1 3 []
     let i := Instr.lksend 5 ead
     Issues s cuT bootThread (linkOwner 0) i 0 ∧ releaseNow (lkEnv 0 s i).s bootThread .sys = true
      ∧ LinkBlock (lkEnv 0 s i) spadVA 0 (xLk 1 3) (grp 0) false
      ∧ lkRead s (linkOwner 0) 1 0x10200 = .inr (List.replicate 64 0)
      ∧ linkRefused s (lkEnv 0 s i) (grp 0) 0 1 3 = none ∧ hasCredit s 0 (grp 0) 1 3 = true)
    ∧ (let s := sLk 0 1 8 []
       Issues s cuT bootThread (linkOwner 0) (.lksend 5 ead) 0 ∧ hasCredit s 0 (grp 0) 1 8 = false)
    ∧ (let s := sLk 0 0 3 []
       LinkBlock (lkEnv 0 s (.lksend 5 ead)) spadVA 0 (xLk 0 3) (grp 0) false
        ∧ linkRefused s (lkEnv 0 s (.lksend 5 ead)) (grp 0) 0 0 3 = some 2)
    ∧ (let s := sLk 0 1 3 [inBuf 64]
       let i := Instr.lkrecv 5 ead
       Issues s cuT bootThread (linkOwner 0) i 0 ∧ LinkBlock (lkEnv 0 s i) spadVA 0 (xLk 1 3) (grp 0) false
        ∧ lkWritable s (linkOwner 0) 1 0x10200 = none ∧ linkRefused s (lkEnv 0 s i) (grp 0) 1 1 3 = none
        ∧ wholeMsg s 0 5 1 3 = some (0, List.replicate 64 0))
    ∧ wholeMsg (sLk 0 1 3 []) 0 5 1 3 = none ∧ wholeMsg (sLk 0 1 3 [inBuf 128]) 0 5 1 3 = some (0, List.replicate 128 0) := by
  refine ⟨⟨issues_of (by decide), by decide, linkB_of (by decide), by decide, by decide, by decide⟩,
    ⟨issues_of (by decide), by decide⟩, ⟨linkB_of (by decide), by decide⟩,
    ⟨issues_of (by decide), linkB_of (by decide), by decide, by decide, by decide⟩, by decide, by decide⟩

/-- A group of which a port has failed since its last operation. -/
theorem wit_linkFailed :
    let g := { grp 0 with failed := true }
    let w := { linkOwner 0 with groups := [g] }
    let s := { sLk 0 0 3 [] with owners := put sI.owners 0 w }
    findGroup (firstEnv s cuT bootThread w (.lkred 5 ead)) s 0x10100 = .ok g := by decide

/-- A reduction at the root, whose one child's message has arrived. -/
theorem wit_linkReduction :
    let s := sLk 0 0 3 [fmtBuf]
    let i := Instr.lkred 5 ead
    Issues s cuT bootThread (linkOwner 0) i 0 ∧ releaseNow (lkEnv 0 s i).s bootThread .sys = true
      ∧ LinkBlock (lkEnv 0 s i) spadVA 0 (xLk 0 3) (grp 0) true
      ∧ lkRead s (linkOwner 0) 1 0x10200 = .inr (List.replicate 64 0) ∧ lkWritable s (linkOwner 0) 1 0x10300 = none
      ∧ (redPeers (grp 0)).all (fun p => !(portAt s (peerPort (grp 0) p)).down) = true
      ∧ (threadsOf s 0).all (fun t => t.status == .ready) = true
      ∧ (let r : Reduce := ⟨0, 0, 5, 3, vtypeCode 0, 0, redFmt 0, 0x10300, List.replicate 64 0, [], false, none, none⟩
         let u := putWait { lkEnv 0 s i with s := openGroup (lkEnv 0 s i).s 0 (grp 0) }.s cuT (.linkRed 5 3) none
         let p := redStep { u with reduces := [r] } (grp 0) r
         (match redEnd p.1 (linkOwner 0) (grp 0) p.2 with
          | .inr (some _) => true
          | _ => false) = true) := by
  refine ⟨issues_of (by decide), by decide, linkB_of (by decide), by decide, by decide, by decide, by decide, by decide⟩

/-! ### The host -/

/-- The register window with the ring off and on, at each size of its edge; a ring in the reserved range; a block of a closed
extent, of an open one and of a hole. -/
def sH (en : Bool) (size base : Nat) : State := { sI with cqen := en, cqsize := size, cqbase := base }

theorem wit_host :
    (powered sI = true ∧ sI.cqen = false ∧ (sH true 4 0).cqen = true)
    ∧ (sH false 3 0).cqsize < 4 ∧ 12 < (sH false 13 0).cqsize
    ∧ ((0xF00000000 ≤ 0xF00000000 ∧ rangeOf 0xF00000000 = .hole) ∧ rangeOf 0xEFFFFFFFF = .hbm ∧ rangeOf 0xFFFFFFFFF = .hole
        ∧ rangeOf 0x1000000000 = .hbm)
    ∧ (bootOwner.extents.head?.any (fun e => e.has 0x10000 && e.has 0x5FFFF && !e.has 0xFFFF && !e.has 0x60000)) = true
    ∧ (accepting sI = true ∧ (1 : Nat) % 2 ^ 4 = (0 + 1) % 2 ^ 4 ∧ Memory.nat (sH true 4 0x100000).mem 0x100002 2 = 0
        ∧ Memory.nat { sH true 4 0x100000 with mem := Memory.write (sH true 4 0x100000).mem 0x100002 1 }.mem 0x100002 2 ≠ 0)
    ∧ (judge sI 0x5FFFF = .closed 0 ∧ judge sI 0x60000 = .open_ ∧ judge sI 0xF00000000 = .hole
        ∧ extentOwner sI 0x10000 = some (0, bootOwner, ⟨0x10000, 5, false⟩) ∧ bootOwner.placed = true ∧ bootOwner.launched = true)
    ∧ ((0x60000 : Nat) % 64 + 64 ≤ 64 ∧ (0x6003F : Nat) % 64 + 1 ≤ 64 ∧ sI.log.length < logSize ∧ sI.logWait = []
        ∧ coverOf sI 0x60000 = none) := by decide

def cmd (op owner a0 a1 a2 : Nat) : Cmd := ⟨0, 0x700000, op, 1, owner, a0, a1, a2, .taken, none⟩
def withCmd (s : State) (c : Cmd) : State := { s with cmds := [c], nextId := 1 }
def isNow (s : State) (c : Cmd) : Bool := cmdNow (withCmd s c) 0 c.op == some c

/-- The device ready, with the control block of an owner of one position at 0x200000. -/
def s0 : State := { State.reset with power := .ready }
def ocbMem : Memory :=
  let m := Memory.writeN [] 0x200000 (listOfWord 0x300000 8 ++ listOfWord 1 8 ++ listOfWord 1 8)
  Memory.writeN (Memory.writeN m 0x200030 (listOfWord 2 8)) 0x200100 (listOfWord 0x300000 8 ++ listOfWord 0x100000001 8)
def sOcb : State := { s0 with mem := ocbMem }

theorem wit_create :
    isNow sOcb (cmd 1 0 0x200000 0 0) = true ∧ isNow s0 (cmd 1 0 0x200001 0 0) = true ∧ paused s0 = false
    ∧ inHbm 0x200000 768 = true ∧ inHbm 0xEFFFFFD00 768 = true ∧ inHbm 0xEFFFFFE00 768 = false
    ∧ (let b := Memory.readN ocbMem 0x200000 768
       ocbOk b = true ∧ regionOk (Memory.readN ocbMem (fieldOf b 0 8 + 0x800) 64) = true ∧ posMask b = [(0, 0)]
        ∧ (posMask b).all (posFree sOcb) = true ∧ lowestFree sOcb = some 0
        ∧ (ocbExtents b).all (fun e => (liveExtents sOcb none ++ ringRange (withCmd sOcb (cmd 1 0 0x200000 0 0)) ++ areasInUse sOcb).all
            (fun r => !meets (e.base, e.len * 65536) r)) = true
        ∧ posFree { sOcb with table := setD (Pos.vacant 0) [] 0 { Pos.vacant 0 with own := some 9 } } (0, 0) = false)
    ∧ ocbOk (Memory.readN [] 0x200000 768) = false := by decide

theorem wit_commands :
    (isNow sI (cmd 2 0 0 0 0) = true ∧ beforeSwap sI = false ∧ logFull sI = false ∧ bootOwner.saving = false ∧ bootOwner.killed = false)
    ∧ isNow sI (cmd 2 1 0 0 0) = true ∧ owner? sI 1 = none
    ∧ (∀ e ∈ bootOwner.extents, e.base % 65536 = 0)
    ∧ (isNow sI (cmd 3 0 0x10000 0 0) = true ∧ stopped sI 0 = false
        ∧ (match launchIn (withCmd sI (cmd 3 0 0x10000 0 0)) 0 bootOwner 0x10000 0 0 with
           | (_, .inr _) => true
           | (_, .inl _) => false) = true)
    ∧ (isNow sI (cmd 7 0xFFFFFFFF 7 12 3) = true ∧ dieHeld sI 7 = false ∧ isNow sI (cmd 7 0xFFFFFFFF 0 4 3) = true ∧ dieHeld sI 0 = true
        ∧ sI.period = 3)
    ∧ (isNow sI (cmd 8 0xFFFFFFFF 0x60000 64 0) = true ∧ bufferOk 0x60000 64 = true
        ∧ (liveExtents sI none ++ areasInUse sI).all (fun r => !meets (0x60000, 64) r) = true)
    ∧ (let c := { cmd 8 0 0 0 0 with phase := .done 2 0 }
       (withCmd sI c).cmds.find? (·.n == 0) = some c ∧ mayStart (withCmd sI c) c = true) := by decide

/-- A launch that succeeds: the header at VA 0x10000, its record at 0x10040, one stage of one thread on another code page. -/
def hdrBytes : List Byte :=
  listOfWord 0x4837584B 4 ++ listOfWord 1 2 ++ listOfWord 7 2 ++ listOfWord 0 8 ++ listOfWord 0x10040 8 ++ List.replicate 40 0
def recBytes1 : List Byte :=
  listOfWord 1 8 ++ List.replicate 56 0 ++ listOfWord 0x10000 8 ++ listOfWord 0x10001 4 ++ listOfWord 1 4 ++ listOfWord 0xFFFF00 8
def sHdr : State := { sI with mem := Memory.writeN sI.mem bootPa (hdrBytes ++ recBytes1) }

theorem wit_launch : (match launchIn (withCmd sHdr (cmd 3 0 0x10000 0 0)) 0 bootOwner 0x10000 0 0 with
    | (_, .inl id) => id == 2
    | (_, .inr _) => false) = true := by decide

/-- A save area of the owner: directories at 0x100000 and 0x100100, each with one segment. -/
def dirBytes (copy base : Nat) (state : Nat) : List Byte :=
  listOfWord 0 4 ++ listOfWord (BitVec.ofNat 64 copy) 4 ++ listOfWord 2 8 ++ listOfWord (BitVec.ofNat 64 base) 8 ++ listOfWord 0x400 8
    ++ List.replicate 112 0 ++ listOfWord (BitVec.ofNat 64 state) 8 ++ List.replicate 8 0 ++ listOfWord 1 8
def sArea (state : Nat) : State := { sI with
  mem := Memory.writeN (Memory.writeN sI.mem 0x100000 (dirBytes 0 0x8000000000 state)) 0x100100 (dirBytes 1 0x10000000 state) }
def arm : Standing := ⟨0x100000, 0x100100, 1⟩
def imageA (w : Owner) : Image :=
  ⟨0x100000, false, 0, 2, [(0, 0x8000000000, 0x4000000)], [], 3, [snapOf sI 0 0 w], [], false, [], []⟩

theorem wit_saveCommands :
    areaOk (sArea 0) [0] 0x100000 0x100100 = true
    ∧ saveRefused (withCmd (sArea 0) (cmd 5 0 0x100000 0x100100 0)) [0] 0x100000 0x100100 = none
    ∧ saveRefused (withCmd sI (cmd 5 0 0x100000 0x100100 0)) [0] 0x100000 0x100100 = some 0x000A ∧ saveWaits sI [0] = false
    ∧ isNow (sArea 0) (cmd 4 0 0x100000 0x100100 0) = true ∧ isNow (sArea 0) (cmd 5 0 0x100000 0x100100 0x10002) = true
    ∧ isNow (sArea 0) (cmd 5 0 0 0 4) = true := by decide

/-! ### Rotations, saves and power -/

theorem wit_rotation :
    (sI.power = .ready ∧ sI.trowel = .run ∧ { sI with nextT := 140000 }.nextT ≤ sI.fab + 140000)
    ∧ (let s := { sI with trowel := .warn, nextT := 0 }
       s.saves = [] ∧ s.deferred = [] ∧ s.nextT ≤ s.fab)
    ∧ (let s := { sI with trowel := .drain }
       drained s false (fun _ => true) = true)
    ∧ (let s := { sR (.load 8 true 6) with trowel := .drain, fab := 11200 }
       drained s false (fun _ => true) = false ∧ s.since + 11200 ≤ s.fab)
    ∧ (let s := { sI with trowel := .chunk, slot := 924 }
       streaming s = true ∧ s.slot < dieSlots s 0 ∧ ¬ (925 < dieSlots s 0) ∧ dieFailed s 0 = false)
    ∧ (let s := { sI with trowel := .stream, done := (List.range 8).map (fun d => (d, 5)), flags := List.range 7 }
       streaming s = true ∧ (7, 5) ∈ s.done ∧ 7 ∉ s.flags ∧ s.swapAt = none ∧ ∀ d < 8, d ∈ 7 :: s.flags)
    ∧ (let s := { sI with trowel := .stream, swapAt := some 0 }
       streaming s = true ∧ moves s 0 0 = true ∧ moves { s with failed := [(0, 0)] } 0 0 = false)
    ∧ (let s := { sI with trowel := .stream }
       (circuits s 7).find? (·.1 == 9) = some (9, 3) ∧ 9 + 3 ≤ 12 ∧ (7, 9) ∉ s.failed) := by decide

/-- The stream of a circuit of three columns, R59's program by hand: in slot 0 the columns 1 and 2 receive chunk 0, the
first column receives it in slot 1, and the last chunk reaches it in slot 924. -/
theorem test_stream_chunks :
    (let s := { sI with trowel := .chunk, slot := 0 }
     recvChunk s 0 1 = some 0 ∧ recvChunk s 0 0 = none ∧ chunkIn s 0 1 0 = false ∧ sendChunk s 0 1 = none)
    ∧ (let s := { sI with trowel := .stream, slot := 1 }
       chunkIn s 0 1 0 = true ∧ recvChunk s 0 0 = some 0 ∧ recvChunk s 0 2 = some 1)
    ∧ (let s := { sI with trowel := .stream, slot := 924 }
       recvChunk s 0 0 = some 923 ∧ recvChunk s 0 1 = none ∧ chunkIn s 0 0 923 = false ∧ chunkIn s 0 1 923 = true)
    ∧ (let s := { sI with trowel := .stream, slot := 925 }
       moves s 0 0 = true ∧ circSlots (posAt s 0 0).clen ≤ s.slot ∧ chunkIn s 0 0 923 = true
         ∧ chunkHolder s 0 1 5 = (posAt s 0 0).own) := by decide

def sRun (q : Bool) : State :=
  { sArea 3 with saves := [⟨some 0, [0], 0x100000, 0x100100, true, false, false, q, 0, false⟩], cmds := [cmd 4 0 0x100000 0x100100 0] }
def sArm : State := { sArea 0 with owners := put sI.owners 0 { bootOwner with standing := some arm, due := true }, fab := 1400000000 }

/-- The first and the last block of an image of one column, the block beyond it, and a block written since. -/
theorem wit_image :
    (let s := { sI with images := [imageA bootOwner] }
     (coverOf s 0x8000000000).map (·.2) = some (0, 0) ∧ (coverOf s (0x8000000000 + 45744127)).map (·.2) = some (0, 714751)
      ∧ coverOf s (0x8000000000 + 45744128) = none ∧ coverOf (spoil s 0x8000000000 1) 0x8000000000 = none) := by decide

theorem wit_saves :
    (let w := { bootOwner with standing := some arm, due := true, lastAuto := some 0 }
     let s := { sArm with owners := put sI.owners 0 w }
     owner? s 0 = some w ∧ (0 : Nat) + 1400000000 ≤ s.fab ∧ saveWaits s [0] = false ∧ areaOk s [0] arm.dirA arm.dirB = true)
    ∧ (let v : SaveRun := ⟨some 0, [0], 0x100000, 0x100100, true, false, false, false, 0, false⟩
       let step := if unfrozen (sRun false) v then v.owners.all (atStep (sRun false)) else v.step
       (sRun false).saves[0]? = some v
        ∧ drained (freeze { sRun false with saves := (sRun false).saves.modify 0 (fun v => { v with step := step }) } v) true
            v.owners.contains = true ∧ v.til ≤ (sRun false).fab)
    ∧ (sRun true).saves[0]? = some ⟨some 0, [0], 0x100000, 0x100100, true, false, false, true, 0, false⟩ ∧ owner? (sRun true) 0 = some bootOwner
    ∧ (let v : SaveRun := ⟨some 0, [0], 0x100000, 0x100100, false, true, false, true, 0, false⟩
       let s := { sArea 1 with owners := put sI.owners 0 { bootOwner with placed := false }, saves := [v], images := [imageA bootOwner] }
       s.saves[0]? = some v ∧ anyImage s 0x100000 0x100100 = some (imageA bootOwner)
        ∧ (failedLines s 0x100000 0x100100).1 = [] ∧ ((imageA bootOwner).snaps.map (·.o)).Nodup ∧ bootOwner.killed = false
        ∧ restoreRefused (withCmd { s with saves := [], table := [] } (cmd 6 0 0x100000 0x100100 0)) (cmd 6 0 0x100000 0x100100 0) = none)
    ∧ { sI with power := .off }.power = .off ∧ State.reset.power = .zeroing ∧ accepting sI = true := by decide

/-! ### The steward, threads, units and links -/

def hotCore (n x : Nat) : State :=
  { sI with temps := [(((0 * 12 + 0) * 8 + 0), x)], cores := put sI.cores (coreKey 0 0) { Core.zeroed with slots := n } }

theorem wit_steward :
    (accepting sI = true ∧ sI.controlAt + 28000 ≤ { sI with fab := 28000 }.fab ∧ sI.hotSeen = false ∧ sI.power = .ready
        ∧ sI.saves = [] ∧ paused { sI with trowel := .stream } = true ∧ (0x60001 : Nat) / 64 * 64 = 0x60000)
    ∧ (tempAt (hotCore 9 100) (placeOf (hotCore 9 100) 0 0) = 100 ∧ tempAt (hotCore 9 95) (placeOf (hotCore 9 95) 0 0) = 95
        ∧ occupant (hotCore 9 100) 0 0 8 = none ∧ slotComing (hotCore 9 100) 0 0 8 = false
        ∧ core? (hotCore 8 100) 0 0 = some { Core.zeroed with slots := 8 } ∧ owner? (hotCore 8 100) 0 = some bootOwner)
    ∧ (let s := { sI with engines := [(posKey 0 0, { Engine.idle with used := 9, prev := 100, winCyc := 1024 })] }
       windowOver s ⟨0, 0, 0, false⟩ = true ∧ (posAt s 0 0).own = some 0 ∧ clus? s 0 (posAt s 0 0).lcl = some Cluster.zeroed)
    ∧ (frameInHbm 0 = true ∧ frameInHbm 7680 = true ∧ octetOf (0 * frameBytes) ≠ octetOf (7680 * frameBytes) ∧ frameUsed sI 0 = true
        ∧ frameUsed sI 7680 = false ∧ frameTaken sI 7680 = false)
    ∧ (let s := { sI with moves := [⟨0, 7680, 8191⟩] }
       s.moves.find? (·.src == 0) = some ⟨0, 7680, 8191⟩ ∧ ¬ (8191 + 1 < 8192))
    ∧ (let e : ErrRate := ⟨3, 0, 4096, none⟩
       concerns bootOwner e = true ∧ limitOf bootOwner 3 < 4096 * 10)
    ∧ (lasting (.hbm 0x60000) = true ∧ rangeOf 0x60000 = .hbm ∧ FaultPlace.hbm 0x60000 ∉ sI.flips
        ∧ (faultSite sI (.hbm 0x60000)).isSome = true ∧ (core? sI 0 0).isSome = true
        ∧ FaultPlace.tileBlock 0 0 5 ∈ { sI with flips := [.tileBlock 0 0 5] }.flips)
    ∧ (let c := { Core.zeroed with work := List.replicate 2 ⟨List.replicate 16 1⟩ }
       let s := { sI with cores := put sI.cores (coreKey 0 0) c }
       (shipment s 0 bootOwner 0).isSome = true ∧ loadOf c = 2)
    ∧ (let t := { bootThread with mig := some (1, 3, 8, 4) }
       let s := { sI with threads := put sI.threads 0 t }
       thr? s 0 0 = some t ∧ mayMove s 0 0 = true)
    ∧ (let w := { bootOwner with map := (List.range 8).map (fun k => ⟨0, 0, k, k < 2⟩) }
       partnerOf w 0 = some 1 ∧ w.map[0]? = some ⟨0, 0, 0, true⟩)
    ∧ (let s := { sSeal 0 0 with cores := put (sSeal 0 0).cores (coreKey 0 0) { Core.zeroed with reclaim := [⟨0, 1, true, false⟩] } }
       owner? s 0 = some sealOwner ∧ stopped s 0 = false ∧ (placeOf s 0 0).mv = false) := by decide

def tTrap (n : Nat) : Thread := { bootThread with status := .trapped, kept := some (keptT false (some 0)), replN := n, replPc := 0x10000, replCause := 0x20 }
def actOwner (a : Nat × Nat) : Owner := { bootOwner with actions := [(0x20, a)] }
def sTr (t : Thread) (w : Owner) : State := { sI with threads := put sI.threads 0 t, owners := put sI.owners 0 w }

/-- Each action at its edge: a replay that is the last and one too many; a handler whose inbox has one place left. -/
theorem wit_threads :
    (let k : Walk := ⟨7, 0, 0, 1, [0], []⟩
     let s := { sI with walks := [k], threads := put sI.threads 0 { bootThread with status := .waiting (.walk 7) } }
     s.walks.find? (·.id == 7) = some k ∧ walkRuns s k = true)
    ∧ (let t := { bootThread with status := .waiting (.reply 7), wcount := some 6, wlim := 5 }
       let s := { sR (.load 8 true 6) with threads := put sI.threads 0 t }
       thr? s 0 0 = some t ∧ stopped s 0 = false ∧ reqAt s 7 = some (rq (.load 8 true 6)) ∧ (5 : BitVec 32).toNat < 6)
    ∧ (thr? (sTr (tTrap 254) (actOwner (1, 0))) 0 0 = some (tTrap 254) ∧ (actionFor (actOwner (1, 0)) 0x20).1 = 1
        ∧ replays (tTrap 254) 0x10000 0x20 < 255 ∧ 255 ≤ replays (tTrap 255) 0x10000 0x20 ∧ (tTrap 0).mig = none
        ∧ (keptT false (some 0)).trap.cause = 0x20 ∧ (keptT false (some 0)).trap.pc = 0x10000)
    ∧ ((actionFor bootOwner 0x20).1 = 0 ∧ logFull (sTr (tTrap 0) bootOwner) = false ∧ (actionFor (actOwner (2, 0)) 0x20).1 = 2)
    ∧ (let h := { bootThread with tid := 1, slot := 1, inbox := List.replicate 7 (keptT false none).trap }
       let s := { sTr (tTrap 0) (actOwner (3, 1)) with threads := put (put sI.threads 0 (tTrap 0)) (thrKey 0 1) h }
       (actionFor (actOwner (3, 1)) 0x20) = (3, 1) ∧ thr? s 0 1 = some h ∧ h.inbox.length < 8 ∧ thrKey 0 1 ≠ thrKey 0 0)
    ∧ (let t := { bootThread with status := .dying }
       let s := { sI with threads := put sI.threads 0 t }
       thr? s 0 0 = some t ∧ threadMoves s 0 0 = false ∧ logFull s = false ∧ paused s = false ∧ failAccess s t = none
        ∧ failEntry s 0 (fun e => e.tid == 0 && !e.orphan) = none ∧ failOneJob s 0 (fun b => b.tid == 0 && !b.orphan) = none
        ∧ failLink s t = none)
    ∧ (let w := { bootOwner with killed := true }
       let s := { sR (.store [1]) with owners := put sI.owners 0 w, fab := 11200, threads := [], launches := [] }
       owner? s 0 = some w ∧ drained s false (· == 0) = false ∧ w.killAt + 11200 ≤ s.fab ∧ nextOwnerFate 0 s = none)
    ∧ recordReady (sTr (tTrap 0) (actOwner (3, 1))) (tTrap 0) = true ∧ (sTr (tTrap 0) (actOwner (2, 0))).logWait = [] := by decide

/-- A queued job of core 1, a chunk ready and a full one, a block to fill, an ended job and one that meets a fault. -/
def mxB2 : List (Nat × Byte) := [(2, 1), (9, 0x10), (10, 1), (44, 1), (48, 1), (49, 1), (53, 1), (54, 127)]
def mxK : JobKind := .mxrun (blockOf mxB2)
def jm (st : JobState) (pos : Nat) : Job := ⟨0x2003, 0, 1, mxK, 0, false, .none, st, pos, 0, false, false, false, false, none, false, false, [], 0, [], []⟩
def sJob (b : Job) (cl : Cluster) : State :=
  { sI with
    desc := (List.range 8).map (fun i => (bootPa / 64 + i, 0x207F)), bdesc := (List.range 8).map (fun i => (bBlk 0 0 0 + i, 0x207F)),
    cores := put sI.cores (coreKey 0 1) { Core.zeroed with jobs := [b] }, clusters := put sI.clusters (clusKey 0 0) cl }
def eR (rows : List (List (BitVec 32))) : ERun := ⟨1, 0x2003, 0, 0, [], rows, [], false, false, []⟩
def clMx (r : ERun) : Cluster := { Cluster.zeroed with mx := some r, tlbMx := [(1, bootLeaf)] }
def clCu : Cluster := { Cluster.zeroed with cu := some (1, 0x2003), tlbCu := [(1, bootLeaf)], outCu := [(2, .xlat 0 2)] }

/-- The check of a unit's result that is done. -/
def done? {α : Type} : URes α → Bool
  | .ok _ _ => true
  | .wait | .held | .miss _ | .fault _ _ => false

/-- The job with all blocks of its chunk cycle read, its one block of C formed, and a copy or conversion of one row. -/
def xM : MxBlock := mxBlock (blockOf mxB2)
def jGot : Job := { jm .running 0 with got := (List.range 8).map (fun i => (i, (0 : Vec), 0x207F)) }
def jOut : Job := { jm .running 0 with out := [(0x11000, 0, some 0x107F)] }
def cpB (conv : Byte) : List (Nat × Byte) := [(2, 1), (9, 0x10), (10, 1), (16, 64), (20, 1), (32, 4 * conv), (33, 2 * conv), (34, 127 * conv), (35, 4 * conv)]
def jCp (conv : Byte) : Job := { jb .running with kind := .copy (blockOf (cpB conv)) }

theorem wit_jobEvents :
    (clus? (sJob (jm .queued 0) Cluster.zeroed) 0 0 = some Cluster.zeroed ∧ stopped (sJob (jm .queued 0) Cluster.zeroed) 0 = false
      ∧ nextJob (sJob (jm .queued 0) Cluster.zeroed) 0 0 true 0 = some (1, jm .queued 0))
    ∧ nextJob (sJob (jb .queued) Cluster.zeroed) 0 0 false 0 = some (1, jb .queued)
    ∧ (let s := sJob (jm .running 0) (clMx (eR []))
       runOf s 0 0 = some (eR [], jm .running 0, xM) ∧ chunkReady s 0 0 (eR []) (jm .running 0) xM = true
        ∧ budgetUsed s 0 0 = false ∧ gotAll (jm .running 0) (cycleNeeds (eR []) xM) = none
        ∧ budgetUsed { s with engines := [(posKey 0 0, { Engine.idle with budget := 0 })] } 0 0 = true
        ∧ (List.range 8).all (fun i => done? (readBlk s bootOwner 0 1 true false (0x10000 + 64 * i))) = true
        ∧ cycleChk (eR []) xM 0 (0, 0x207F) = none ∧ cycleNeeds (eR []) xM = blocksFrom 0x10000 8)
    ∧ (let s := sJob jGot (clMx (eR []))
       runOf s 0 0 = some (eR [], jGot, xM) ∧ chunkReady s 0 0 (eR []) jGot xM = true ∧ (gotAll jGot (cycleNeeds (eR []) xM)).isSome = true
        ∧ xM.n = 1 ∧ bFault s 0 0 xM 0 0 = none ∧ xM.kc = 1 ∧ chunkLen xM jGot = 1)
    ∧ (let s := sJob jOut (clMx (eR [[0]]))
       runOf s 0 0 = some (eR [[0]], jOut, xM) ∧ writesC s 0 (eR [[0]]) jOut xM = true ∧ jOut.cancel = false
        ∧ done? (reachBlk s bootOwner 0 1 true true false anyPlace 0x11000) = true)
    ∧ (let s := sJob (jb .running) clCu
       cuJob s clCu 0 = some (1, jb .running) ∧ (jb .running).landed = false
        ∧ victim s 0 (jb .running) = false ∧ done? (reachBlk s bootOwner 0 1 false true false anyPlace 0x10000) = true)
    ∧ (let s := sJob (jCp 0) clCu
       cuJob s clCu 0 = some (1, jCp 0) ∧ (jCp 0).landed = false ∧ (cuBlock (blockOf (cpB 0))).conv = false
        ∧ done? (readBlk s bootOwner 0 1 false false 0x10000) = true ∧ done? (reachBlk s bootOwner 0 1 false true false anyPlace 0x11000) = true)
    ∧ (let b := { jCp 1 with got := [(0, 0, 0x407F)] }
       (cuBlock (blockOf (cpB 1))).conv = true ∧ (cuBlock (blockOf (cpB 1))).ok (blockOf (cpB 1)) = true ∧ (gotAll b (blocksFrom 0x10000 1)).isSome = true)
    ∧ (let b := { jb .running with pos := 1 }
       unitJob (sJob b clCu) 0 clCu .cu = some (1, b) ∧ b.landed = true ∧ arrivalOf b = none ∧ b.rootHeld = false ∧ isCarry b = false)
    ∧ (let b := { jb .running with kind := .fill 0x20000 64 0 0 }
       ((jobFault (sJob b clCu) 0 0 bootOwner clCu .cu 1 b).bind (fun p => jobAt p.1 0 1 b.id)) = some b ∧ b.cancel = false)
    ∧ (([none].any (fun (p : Option FVal) => p.isNone)) = true ∧ (Nat.log2 1 : Int) + 63 = 0 + 63 ∧ (Nat.log2 1 : Int) + 0 ≤ 0 + 63
        ∧ (codeFmt 2).isSome = true ∧ perBlock 2 = 32) := by
  refine ⟨by decide, by decide, by decide, by decide, by decide, by decide, by decide, by decide, by decide, by decide, by decide⟩

/-- Frames of group 5: well sealed and not, of each type; the last step that needs no credit; the last repetition. -/
def fr (type : BitVec 8) (step seq : Nat) : Frame := sealFrame { frameOf (grp 1) type 0 step 0 1 0 [] with seq := BitVec.ofNat 32 seq }
def sFr (q : Port) : State := { sI with owners := put sI.owners 0 (linkOwner 0), ports := [(1, q)] }
def qFr : Port := { Port.idle with seqRx := 0xFFFFFFFF, sent := [fr 1 3 4] }

theorem wit_linkFrames :
    ((portAt (sFr qFr) 1).down = false ∧ (portAt (sFr qFr) 1).seqRx < 2 ^ 32 ∧ qFr.sent ≠ [])
    ∧ (frameGood (fr 1 7 0xFFFFFFFF) = true ∧ malformed (fr 1 7 0xFFFFFFFF) = false ∧ groupOwner (sFr qFr) 5 = some (0, grp 0)
        ∧ (fr 1 7 0xFFFFFFFF).seq.toNat = 0xFFFFFFFF ∧ granted (sFr qFr) 0 5 1 7 = true ∧ granted (sFr qFr) 0 5 1 8 = false
        ∧ consumedStep (sFr qFr) 0 5 1 7 = false)
    ∧ (frameGood (fr 1 7 0) = true ∧ seqAhead 0 0xFFFFFFFF = true)
    ∧ frameGood { fr 1 7 0 with fcs := false } = false ∧ frameGood (fr 5 7 0) = true ∧ frameGood (fr 0 7 0) = true
    ∧ (frameGood (fr 4 15 0xFFFFFFFF) = true ∧ malformed (fr 4 15 0) = false ∧ malformed (fr 2 0 4) = false ∧ malformed (fr 3 0 4) = false)
    ∧ (roomFor69 (sFr qFr) 1 0 (fr 1 7 0) = true ∧ { fr 1 7 0 with etype := 0x0800 }.etype ≠ 0x88B5
        ∧ roomFor69 { sFr qFr with bufs := [⟨0, 5, 1, 9, 0, 1, (List.range 16).map (fun i => (i, List.replicate 8192 0)), false, false⟩] } 1 0 { fr 1 7 0 with pay := [0] } = false)
    ∧ (getD 0 [(4, 15)] (fr 1 3 4).seq.toNat < 16 ∧ 16 ≤ getD 0 [(4, 16)] (fr 1 3 4).seq.toNat
        ∧ qFr.since + 14000 ≤ { sFr qFr with fab := 14000 }.fab) := by decide
end

section
/-!
SUPPORT. Rules of the link ports (R24 to R28): what each update of a port reads back as, and what the fault log, the
counts of errors and the drops leave as they were.
-/

namespace Sys2Proof.Machine

/-! ## The fault log and the counts of errors -/

/-- A record touches nothing but the ring, its waiting records and the counts of dropped ones (R80, R81). -/
theorem addLog_eq (s : State) (r : LogRec) :
    ∃ l d w, addLog s r = { s with log := l, dropped := d, logWait := w } := by
  unfold addLog
  dsimp only
  split
  · exact ⟨_, _, _, rfl⟩
  · split
    · exact ⟨_, _, _, rfl⟩
    · split <;> exact ⟨_, _, _, rfl⟩

@[simp] theorem addLog_ports (s : State) (r : LogRec) : (addLog s r).ports = s.ports := by
  obtain ⟨l, d, w, h⟩ := addLog_eq s r
  rw [h]

@[simp] theorem addLog_bufs (s : State) (r : LogRec) : (addLog s r).bufs = s.bufs := by
  obtain ⟨l, d, w, h⟩ := addLog_eq s r
  rw [h]

@[simp] theorem logLink_ports (s : State) (o : Nat) (m : Nat × Nat) : (logLink s o m).ports = s.ports := addLog_ports _ _

theorem foldl_logLink_ports (l : List (Nat × Nat × Nat)) (s : State) :
    (l.foldl (fun s x => logLink s x.1 x.2) s).ports = s.ports := by
  induction l generalizing s with
  | nil => rfl
  | cons x l ih => rw [List.foldl_cons, ih, logLink_ports]

/-- A count of corrected errors touches the counts alone (R66). -/
theorem countErr_eq (s : State) (kind index n : Nat) : ∃ e, countErr s kind index n = { s with errs := e } := by
  unfold countErr
  split <;> exact ⟨_, rfl⟩

@[simp] theorem countErr_ports (s : State) (kind index n : Nat) : (countErr s kind index n).ports = s.ports := by
  obtain ⟨e, h⟩ := countErr_eq s kind index n
  rw [h]

/-! ## Ports -/

theorem portAt_congr {s u : State} (h : u.ports = s.ports) (p : Nat) : portAt u p = portAt s p := by
  unfold portAt
  rw [h]

@[simp] theorem portAt_onPort (s : State) (p : Nat) (f : Port → Port) : portAt (onPort s p f) p = f (portAt s p) :=
  getD_setD_self _ _ _ _

@[simp] theorem onPort_bufs (s : State) (p : Nat) (f : Port → Port) : (onPort s p f).bufs = s.bufs := rfl
@[simp] theorem onPort_credits (s : State) (p : Nat) (f : Port → Port) : (onPort s p f).credits = s.credits := rfl

@[simp] theorem countDrop_bufs (s : State) (p : Nat) : (countDrop s p).bufs = s.bufs := addLog_bufs _ _

/-- A drop is counted in its port (R26). -/
theorem portAt_countDrop (s : State) (p : Nat) :
    portAt (countDrop s p) p = { portAt s p with drops := (portAt s p).drops + 1 } := by
  unfold countDrop
  rw [portAt_congr (addLog_ports _ _), portAt_onPort]

/-- A port that goes down holds nothing (R27). -/
theorem portAt_portDown (s : State) (p : Nat) :
    portAt (portDown s p) p = { portAt s p with down := true, sent := [], tries := [], owed := [], failed := [] } := by
  have h : (markGroups (failPort s p) (heldMsgs (portAt s p))).ports = s.ports := foldl_logLink_ports _ s
  unfold portDown
  rw [portAt_onPort, portAt_congr h]

/-! ## Replies -/

@[simp] theorem reply_bufs (s : State) (p : Nat) (ty : BitVec 8) (f : Frame) (n : Nat) : (reply s p ty f n).bufs = s.bufs := rfl
@[simp] theorem reply_credits (s : State) (p : Nat) (ty : BitVec 8) (f : Frame) (n : Nat) :
    (reply s p ty f n).credits = s.credits := rfl

theorem portAt_reply (s : State) (p : Nat) (ty : BitVec 8) (f : Frame) (n : Nat) :
    portAt (reply s p ty f n) p = { portAt s p with outBox := (portAt s p).outBox ++ [controlFrame ty f n] } :=
  portAt_onPort _ _ _

/-- The number before the next one modulo 2^32 is the number itself. -/
theorem seq_before_next {n : Nat} (h : n < 2 ^ 32) : ((n + 1) % 2 ^ 32 + 2 ^ 32 - 1) % 2 ^ 32 = n := by omega

theorem seqAhead_self (n : Nat) : seqAhead n n = false := by
  simp [seqAhead]

/-! ## Frames taken -/

/-- A fragment that has been stored is in the buffer of its step. -/
theorem storeFrag_mem (s : State) (o : Nat) (f : Frame) :
    ∃ b ∈ (storeFrag s o f).bufs, b.o = o ∧ b.group = f.group.toNat ∧ b.src = f.srank.toNat ∧ b.step = f.step.toNat ∧
      (lookup b.frags f.frag.toNat).isSome = true := by
  unfold storeFrag
  dsimp only
  split
  case isTrue h =>
    obtain ⟨b, hb, his⟩ := List.any_eq_true.mp h
    have hid : b.o = o ∧ b.group = f.group.toNat ∧ b.src = f.srank.toNat ∧ b.step = f.step.toNat := by
      simpa only [Bool.and_eq_true, beq_iff_eq, and_assoc] using his
    obtain ⟨ho, hg, hsrc, hst⟩ := hid
    refine ⟨_, List.mem_map_of_mem hb, ?_⟩
    cases hl : lookup b.frags f.frag.toNat <;> simp [hl, ho, hg, hsrc, hst]
  case isFalse h => exact ⟨_, List.mem_append_right _ (List.mem_singleton_self _), rfl, rfl, rfl, rfl, by simp [lookup]⟩

theorem storeFrag_ports (s : State) (o : Nat) (f : Frame) : (storeFrag s o f).ports = s.ports := by
  unfold storeFrag
  dsimp only
  split <;> rfl

theorem takeCredit_ports (s : State) (o : Nat) (f : Frame) : (takeCredit s o f).ports = s.ports := by
  unfold takeCredit
  dsimp only
  split <;> rfl

theorem takeCredit_bufs (s : State) (o : Nat) (f : Frame) : (takeCredit s o f).bufs = s.bufs := by
  unfold takeCredit
  dsimp only
  split <;> rfl

theorem takeCredit_mem (s : State) (o : Nat) (f : Frame) :
    (⟨o, f.group.toNat, f.srank.toNat, f.step.toNat⟩ : Credit) ∈ (takeCredit s o f).credits := by
  unfold takeCredit
  dsimp only
  split
  case isTrue h => exact List.contains_iff_mem.mp h
  case isFalse h => exact List.mem_append_right _ (List.mem_singleton_self _)

/-- A data frame whose step has credit is stored (R28). -/
theorem takeData_granted {s : State} {p o : Nat} {f : Frame} (hg : granted s o f.group.toNat f.srank.toNat f.step.toNat = true)
    (hc : consumedStep s o f.group.toNat f.srank.toNat f.step.toNat = false) : takeData s p o f = storeFrag s o f := by
  simp [takeData, hg, hc]

/-- The port after a frame taken in order: the next number is expected, and the frame is acknowledged by its own. -/
theorem portAt_ackOf_inOrder {s u : State} {p : Nat} {f : Frame} (hlt : (portAt s p).seqRx < 2 ^ 32)
    (hseq : f.seq.toNat = (portAt s p).seqRx) (hu : u.ports = (onPort s p (fun q =>
      { q with seqRx := ((portAt s p).seqRx + 1) % 2 ^ 32 })).ports) :
    portAt (ackOf u p f) p = { portAt s p with
      seqRx := ((portAt s p).seqRx + 1) % 2 ^ 32, outBox := (portAt s p).outBox ++ [controlFrame 2 f f.seq.toNat] } := by
  unfold ackOf
  rw [portAt_reply, portAt_congr hu, portAt_onPort]
  dsimp only
  rw [seq_before_next hlt, hseq]

/-- A numbered frame ahead of the expected SEQ is dropped (R27). -/
theorem numbered_ahead {s : State} {p o : Nat} {f : Frame} (h : seqAhead f.seq.toNat (portAt s p).seqRx = true) :
    numbered s p o f = s := by
  have hne : f.seq.toNat ≠ (portAt s p).seqRx := by
    intro he
    rw [he, seqAhead_self] at h
    exact absurd h (by decide)
  simp [numbered, hne, h]

/-- Data that finds no room is left alone (log 20). -/
theorem numbered_noRoom {s : State} {p o : Nat} {f : Frame} (hty : f.type = 1) (hseq : f.seq.toNat = (portAt s p).seqRx)
    (h : roomFor69 s p o f = false) : numbered s p o f = s := by
  simp [numbered, hty, hseq, h]

/-- The state in which a frame in order is taken: its number has been received. -/
def seqTaken (s : State) (p : Nat) : State := onPort s p (fun q => { q with seqRx := ((portAt s p).seqRx + 1) % 2 ^ 32 })

theorem numbered_data {s : State} {p o : Nat} {f : Frame} (hty : f.type = 1) (hseq : f.seq.toNat = (portAt s p).seqRx)
    (h : roomFor69 s p o f = true) : numbered s p o f = ackOf (takeData (seqTaken s p) p o f) p f := by
  simp [numbered, hty, hseq, h, seqTaken]

theorem numbered_credit {s : State} {p o : Nat} {f : Frame} (hty : f.type = 4) (hseq : f.seq.toNat = (portAt s p).seqRx) :
    numbered s p o f = ackOf (takeCredit (seqTaken s p) o f) p f := by
  simp [numbered, hty, hseq, seqTaken]

/-! ## The sender -/

/-- An ack frees the frames up to its SEQ (R27). -/
theorem portAt_takeAck (s : State) (p : Nat) (f : Frame) :
    (portAt (takeAck s p f) p).sent = (portAt s p).sent.filter (fun x => seqAhead x.seq.toNat f.seq.toNat) ∧
      (portAt (takeAck s p f) p).seqTx = (portAt s p).seqTx := by
  unfold takeAck
  rw [portAt_onPort]
  dsimp only
  split
  case isTrue h =>
    have hle := List.length_filter_le (fun x : Frame => seqAhead x.seq.toNat f.seq.toNat) (portAt s p).sent
    exact ⟨(List.filter_eq_self.mpr (List.length_filter_eq_length_iff.mp (by omega))).symm, rfl⟩
  case isFalse h => exact ⟨rfl, rfl⟩

theorem takeAck_bufs (s : State) (p : Nat) (f : Frame) : (takeAck s p f).bufs = s.bufs := rfl

/-- The counts of transmissions after these frames have been transmitted again. -/
def triesAfter (again : List Frame) (m : SMap Nat) : SMap Nat :=
  again.foldl (fun m f => put m f.seq.toNat (getD 0 m f.seq.toNat + 1)) m

theorem getD_triesAfter (again : List Frame) (m : SMap Nat) (n : Nat) :
    getD 0 (triesAfter again m) n = getD 0 m n + (again.filter (fun f => f.seq.toNat == n)).length := by
  induction again generalizing m with
  | nil => rfl
  | cons f l ih =>
    have hstep : triesAfter (f :: l) m = triesAfter l (put m f.seq.toNat (getD 0 m f.seq.toNat + 1)) := rfl
    rw [hstep, ih, List.filter_cons]
    by_cases h : f.seq.toNat = n
    · subst h
      simp only [getD_put_self, beq_self_eq_true, if_true, List.length_cons]
      omega
    · rw [getD_put_ne _ _ _ (Ne.symm h), if_neg (by simpa using h)]

/-- With nothing to transmit again the state stays as it is. -/
theorem resend_nil {s : State} {p : Nat} {old : Frame → Bool}
    (h : ((portAt s p).sent.take 512).filter (fun f => !old f) = []) : resend s p old = s := by
  simp [resend, windowOf, h]

/-- Frames of the window that are not old are transmitted again, or the port goes down (R27). -/
theorem resend_resent {s : State} {p : Nat} {old : Frame → Bool} {again : List Frame}
    (h : ((portAt s p).sent.take 512).filter (fun f => !old f) = again) (hne : again ≠ []) :
    Resent s p again (resend s p old) := by
  have hr : resend s p old = if again.any (fun f => 16 ≤ getD 0 (portAt s p).tries f.seq.toNat) then portDown s p
      else onPort (countErr s 4 p again.length) p (fun q =>
        { q with outBox := q.outBox ++ again, since := s.fab, tries := triesAfter again q.tries }) := by
    simp [resend, windowOf, h, hne, triesAfter]
  rw [hr]
  constructor
  · intro hlt
    rw [if_neg (by simpa using hlt)]
    refine ⟨triesAfter again (portAt s p).tries, ?_, getD_triesAfter again _⟩
    rw [portAt_onPort, portAt_congr (countErr_ports _ _ _ _)]
  · intro hge
    rw [if_pos (by simpa using hge), portAt_portDown]

/-! ## The reception of a frame -/

section
variable {s : State} {p : Nat} {f : Frame}

theorem receiveFrame_foreign (hup : (portAt s p).down = false) (hfcs : f.fcs = true) (het : f.etype ≠ 0x88B5) :
    receiveFrame p f s = countDrop s p := by
  rw [receiveFrame, if_neg (by simp [hup]), if_pos (by simpa [hfcs] using het)]

theorem receiveFrame_bad (hup : (portAt s p).down = false) (het : f.etype = 0x88B5) (hbad : frameGood f = false) :
    receiveFrame p f s = nakOf s p f := by
  simp [receiveFrame, hup, het, hbad]

theorem receiveFrame_malformed (hup : (portAt s p).down = false) (het : f.etype = 0x88B5) (hok : frameGood f = true)
    (hm : malformed f = true) : receiveFrame p f s = countDrop s p := by
  simp [receiveFrame, hup, het, hok, hm]

/-- A frame that is not dropped acts by its TYPE. -/
theorem receiveFrame_kept {o : Nat} {g : Group} (hup : (portAt s p).down = false) (het : f.etype = 0x88B5)
    (hok : frameGood f = true) (hm : malformed f = false) (hg : groupOwner s f.group.toNat = some (o, g)) :
    receiveFrame p f s = if f.type = 2 then takeAck s p f
      else if f.type = 3 then resend s p (fun g => seqAhead f.seq.toNat g.seq.toNat) else numbered s p o f := by
  simp [receiveFrame, hup, het, hok, hm, hg]

/-- A reserved TYPE is malformed (R26). -/
theorem malformed_of_reserved (h : 4 < f.type.toNat ∨ f.type = 0) : malformed f = true := by
  rcases h with h | h
  · simp [malformed, show ¬ f.type.toNat ≤ 4 by omega]
  · simp [malformed, h]

theorem exec_dataFrame (h : f.etype ≠ 0x88B5 ∨ f.type = 1 ∨ 4 < f.type.toNat ∨ f.type = 0) :
    exec (.dataFrame p f) s = .next (receiveFrame p f s) := by
  have hc : (f.etype = 0x88B5 && 2 ≤ f.type.toNat && f.type.toNat ≤ 4) = false := by
    rcases h with h | h | h | h
    · rw [decide_eq_false h]
      rfl
    · simp [h]
    · simp [show ¬ f.type.toNat ≤ 4 by omega]
    · simp [h]
  show execDataFrame p f s = _
  rw [execDataFrame, hc]
  rfl

theorem exec_ackFrame (h : f.type = 2) : exec (.ackFrame p f) s = .next (receiveFrame p f s) := if_pos h
theorem exec_nakFrame (h : f.type = 3) : exec (.nakFrame p f) s = .next (receiveFrame p f s) := if_pos h
theorem exec_creditFrame (h : f.type = 4) : exec (.creditFrame p f) s = .next (receiveFrame p f s) := if_pos h

theorem exec_retransmitTimeout (hup : (portAt s p).down = false) (hne : (portAt s p).sent ≠ [])
    (hfab : (portAt s p).since + 14000 ≤ s.fab) :
    exec (.retransmitTimeout p) s = .next (resend s p (fun _ => false)) := by
  show execRetransmitTimeout p s = _
  simp [execRetransmitTimeout, hup, hne, ackWait, show ¬ s.fab < (portAt s p).since + 14000 by omega]

end

end Sys2Proof.Machine
end

section
/-!
The settling of LinkFrames (R26 to R28).
-/

namespace Sys2Proof.Machine

/-- A frame that the rules drop is counted, and no buffer changes. -/
theorem dataFrame_dropped {s u : State} {p : Nat} (h : u = countDrop s p) :
    portAt u p = { portAt s p with drops := (portAt s p).drops + 1 } ∧ u.bufs = s.bufs := by
  subst h
  exact ⟨portAt_countDrop s p, countDrop_bufs s p⟩

/-- Data in order with room and credit is taken and acknowledged (R27, R28). -/
theorem dataFrame_taken {s : State} {p o : Nat} {f : Frame} (hlt : (portAt s p).seqRx < 2 ^ 32) (hty : f.type = 1)
    (hseq : f.seq.toNat = (portAt s p).seqRx) (hroom : roomFor69 s p o f = true)
    (hg : granted s o f.group.toNat f.srank.toNat f.step.toNat = true)
    (hc : consumedStep s o f.group.toNat f.srank.toNat f.step.toNat = false) :
    portAt (numbered s p o f) p = { portAt s p with
        seqRx := ((portAt s p).seqRx + 1) % 2 ^ 32, outBox := (portAt s p).outBox ++ [controlFrame 2 f f.seq.toNat] } ∧
      ∃ b ∈ (numbered s p o f).bufs, b.o = o ∧ b.group = f.group.toNat ∧
          b.src = f.srank.toNat ∧ b.step = f.step.toNat ∧
        (lookup b.frags f.frag.toNat).isSome = true := by
  rw [numbered_data hty hseq hroom, takeData_granted (s := seqTaken s p) hg hc]
  exact ⟨portAt_ackOf_inOrder hlt hseq (storeFrag_ports _ _ _), storeFrag_mem (seqTaken s p) o f⟩

/-- A credit in order is taken and acknowledged (R27, R28). -/
theorem creditFrame_taken {s : State} {p o : Nat} {f : Frame} (hlt : (portAt s p).seqRx < 2 ^ 32) (hty : f.type = 4)
    (hseq : f.seq.toNat = (portAt s p).seqRx) :
    portAt (numbered s p o f) p = { portAt s p with
        seqRx := ((portAt s p).seqRx + 1) % 2 ^ 32, outBox := (portAt s p).outBox ++ [controlFrame 2 f f.seq.toNat] } ∧
      (⟨o, f.group.toNat, f.srank.toNat, f.step.toNat⟩ : Credit) ∈ (numbered s p o f).credits ∧
      (numbered s p o f).bufs = s.bufs := by
  rw [numbered_credit hty hseq]
  exact ⟨portAt_ackOf_inOrder hlt hseq (takeCredit_ports _ _ _), takeCredit_mem (seqTaken s p) o f,
    takeCredit_bufs (seqTaken s p) o f⟩

theorem controlFrame_seq_self (ty : BitVec 8) (f : Frame) : (controlFrame ty f f.seq.toNat).seq = f.seq := by
  simp [controlFrame, sealFrame]

end Sys2Proof.Machine

open Sys2Proof Sys2Proof.Machine

/-- Settles O60, by the cases of a received frame: of another EtherType, failing its checks, malformed, or kept and then
acting by its TYPE. -/
theorem linkFrames : Obligations.LinkFrames := by
  unfold Obligations.LinkFrames
  intro s p f hup hlt q
  refine ⟨?foreign, ?bad, ?reserved, ?kept, ?timeout⟩
  case foreign =>
    intro hfcs het
    exact ⟨_, exec_dataFrame (.inl het), dataFrame_dropped (receiveFrame_foreign hup hfcs het)⟩
  case bad =>
    intro het hty hbad
    refine ⟨nakOf s p f, controlFrame 3 f q.seqRx, ?_, portAt_reply s p 3 f _, rfl, ?_, rfl⟩
    · rw [exec_dataFrame (.inr hty), receiveFrame_bad hup het hbad]
    · exact (BitVec.toNat_ofNat _ 32).trans (Nat.mod_eq_of_lt hlt)
  case reserved =>
    intro het hty hok
    exact ⟨_, exec_dataFrame (.inr (.inr hty)),
      dataFrame_dropped (receiveFrame_malformed hup het hok (malformed_of_reserved hty))⟩
  case kept =>
    intro het hok hm o g hg
    have hkept := receiveFrame_kept hup het hok hm hg
    refine ⟨?ahead, ?noRoom, ?data, ?credit, ?ack, ?nak⟩
    case ahead =>
      intro hty hah
      rw [exec_dataFrame (.inr (.inl hty)), hkept]
      simp [hty, numbered_ahead hah]
    case noRoom =>
      intro hty hseq hroom
      rw [exec_dataFrame (.inr (.inl hty)), hkept]
      simp [hty, numbered_noRoom hty hseq hroom]
    case data =>
      intro hty hseq hroom hgr hcs
      obtain ⟨hport, hbuf⟩ := dataFrame_taken hlt hty hseq hroom hgr hcs
      refine ⟨numbered s p o f, controlFrame 2 f f.seq.toNat, ?_, hport, rfl, controlFrame_seq_self 2 f, hbuf⟩
      rw [exec_dataFrame (.inr (.inl hty)), hkept]
      simp [hty]
    case credit =>
      intro hty hseq
      obtain ⟨hport, hcr, hbuf⟩ := creditFrame_taken (o := o) hlt hty hseq
      refine ⟨numbered s p o f, controlFrame 2 f f.seq.toNat, ?_, hport, rfl, controlFrame_seq_self 2 f, hcr, hbuf⟩
      rw [exec_creditFrame hty, hkept]
      simp [hty]
    case ack =>
      intro hty
      refine ⟨takeAck s p f, ?_, (portAt_takeAck s p f).1, (portAt_takeAck s p f).2, takeAck_bufs s p f⟩
      rw [exec_ackFrame hty, hkept, if_pos hty]
    case nak =>
      intro hty again
      have hexec : exec (.nakFrame p f) s = .next (resend s p (fun g => seqAhead f.seq.toNat g.seq.toNat)) := by
        rw [exec_nakFrame hty, hkept, if_neg (by simp [hty]), if_pos hty]
      refine ⟨fun hnil => ?_, fun hne => ⟨_, hexec, resend_resent rfl hne⟩⟩
      rw [hexec, resend_nil hnil]
  case timeout =>
    intro hne hfab
    refine ⟨_, exec_retransmitTimeout hup hne hfab, resend_resent (by simp [q]) ?_⟩
    simpa using hne
end

section
/-!
SUPPORT. Rules of the link instructions (R406, R407): their block, their answers at the link unit, and a reduction's
wait.
-/

namespace Sys2Proof.Machine

/-! ## The block of a link operation -/

/-- Only a scratchpad address locates in a scratchpad (R44, R332). -/
theorem ofWalk_ne_spad (w : Owner) (a : Act332) (k : AccKind) (wr : Bool) (va : Word) (out : WalkOut) (j off : Nat) :
    ofWalk w a k wr va out ≠ .ok (.spad j off) := by
  cases out with
  | leaf l =>
    simp only [ofWalk, permit]
    repeat' split
    all_goals simp
  | xlat level entry => simp [ofWalk]
  | prot reason => simp [ofWalk]

/-- An access located in the thread's own core's scratchpad has passed that core's layout check (R157, R158). -/
theorem locate_own_layout {s : State} {w : Owner} {t : Thread} {a : Act332} {k : AccKind} {wr : Bool} {va : Word}
    {n off : Nat} (h : locate s w t a k wr va n = .ok (.spad t.core off)) :
    layoutMiss s t.o (.spad t.core off) n = false := by
  unfold locate at h
  split at h
  · cases h
  · split at h
    case isFalse =>
      split at h
      · cases h
      · exact absurd h (ofWalk_ne_spad _ _ _ _ _ _ _ _)
    case isTrue =>
      cases hv : spadVa w (tidCore t.tid) va.toNat with
      | none => simp [hv] at h
      | some p =>
        obtain ⟨j, off'⟩ := p
        simp only [hv] at h
        split at h
        · cases h
        · split at h
          · cases h
          · split at h
            case isFalse hj =>
              injection h with h
              injection h with hj' _
              exact absurd hj' hj
            case isTrue hj =>
              subst hj
              cases hc : core? s t.o t.core with
              | none => simp [hc] at h
              | some c =>
                simp only [hc] at h
                split at h
                case isTrue => cases h
                case isFalse hl =>
                  injection h with h
                  injection h with _ ho
                  subst ho
                  simpa [layoutMiss, hc] using hl

theorem check_own_layout {s : State} {w : Owner} {t : Thread} {a : Act332} {k : AccKind} {va : Word} {n al off : Nat}
    (h : check s w t a k va n al = .ok (.spad t.core off)) : layoutMiss s t.o (.spad t.core off) n = false := by
  unfold check at h
  split at h
  · cases h
  · split at h
    case h_1 l hl =>
      split at h
      · cases h
      · rw [h] at hl
        exact locate_own_layout hl
    case h_2 hno => exact absurd h (hno _)

theorem blockChk_own {e : Env} {va : Word} {off : Nat} (h : OwnBlock e va off) :
    blockChk e va = .ok (.spad e.t.core off) := by
  obtain ⟨hal, hsp, hchk, _, _⟩ := h
  have htop : va.extractLsb' 57 7 = 0 := by
    by_contra hne
    have hbad : locate e.s e.w e.t .ld .load AccKind.load.writes va 64 = .bad (protTrap .load 2 va) :=
      if_pos (by simpa using hne)
    simp [check, hal, hbad] at hchk
  simp [blockChk, hal, hsp, htop, hchk]

/-- The bytes of an operand block in order are read within the bundle (R191, R394). -/
theorem withBytes_own {e : Env} {va : Word} {off : Nat} (h : OwnBlock e va off) (f : State → List Byte → XRes) :
    withBytes e (.spad e.t.core off) va 64 f = f e.s (Memory.readN e.s.spad (spadKey e.t.o e.t.core off) 64) := by
  obtain ⟨_, _, hchk, hpend, hmark⟩ := h
  simp [withBytes, targetAt, spotAt, readAt, hpend, check_own_layout hchk, hmark]

/-- What the link unit's answer is at the core: a trap leaves closed the group that the operation would have opened
(R6, R407). -/
def linkAnswer (s : State) (o : Nat) (g : Group) : XRes → XRes
  | .trapT s1 ti => .trapT (linkTrapped s s1 o g) ti
  | r => r

/-- A link operation with its block in order answers as the link unit does with the group open (R406, R407). -/
theorem linkOp_block {e : Env} {ad : EAddr} {red : Bool} {off : Nat} {x : LkBlock} {g : Group}
    (h : LinkBlock e (eaE e.s e.t ad) off x g red) (f : State → LkBlock → Group → XRes) :
    linkOp e ad red f = linkAnswer e.s e.t.o g (f (openGroup e.s e.t.o g) x g) := by
  obtain ⟨hown, hblk, hgood, hgroup⟩ := h
  simp only [linkOp, blockChk_own hown, withChk, withBytes_own hown, ← hblk, hgroup, hgood, if_true]
  cases f (openGroup e.s e.t.o g) x g <;> rfl

theorem firstEnv_ea (s : State) (c : Cur) (t : Thread) (w : Owner) (i : Instr) (ad : EAddr) :
    eaE (firstEnv s c t w i).s (firstEnv s c t w i).t ad = eaE s t ad :=
  congrArg (· + ad.off.signExtend 64) (envX_g s c t w i ad.a)

section
variable {s : State} {c : Cur} {t : Thread} {w : Owner} {i : Instr}

/-- A link operation traps on the address of its block as every operation with an operand block does (R394, R406). -/
theorem blockTraps_of_linkOp {sem : Env → XRes} {ad : EAddr} {red : Bool} {f : State → LkBlock → Group → XRes}
    (hx : exec i s = runX i sem s) (hsem : sem (firstEnv s c t w i) = linkOp (firstEnv s c t w i) ad red f) :
    BlockTraps s c t w i (eaE s t ad) := by
  have hbad : ∀ ti, blockChk (firstEnv s c t w i) (eaE s t ad) = .bad ti → Issues s c t w i 0 →
      exec i s = .next (trapsTo s c t w i ti) := by
    intro ti hb his
    rw [hx]
    refine runX_trapC his (hsem.trans ?_)
    simp only [linkOp, firstEnv_ea, hb, withChk]
  intro his
  constructor
  · intro hal
    exact hbad _ (if_pos hal) his
  · intro hal hpl
    refine hbad _ ?_ his
    have hc : (!isSpadVa (eaE s t ad).toNat || (eaE s t ad).extractLsb' 57 7 != 0) = true := by
      simpa [Bool.or_eq_true] using hpl
    unfold blockChk
    rw [if_neg (not_not.mpr hal), if_pos hc]
    rfl

/-! ## LKF -/

/-- A link operation that the link unit refuses takes LKF, whose record names the group, the reason and the step
(R407). -/
theorem runX_lkf {sem : Env → XRes} {g : Group} {s1 : State} {reason step : Nat} (h : Issues s c t w i 0)
    (hs : sem (firstEnv s c t w i) = linkAnswer (firstEnv s c t w i).s t.o g (.trapT s1 (lkfTrap g.group reason step))) :
    runX i sem s = .next (takeTrap (linkTrapped (firstEnv s c t w i).s s1 t.o g) c.o c.tid
      { mkTrap 0x16 (g.group + reason * 65536) 0 with pos := BitVec.ofNat 64 step } c.pc (some (lenBits c.len)) false false) :=
  runX_trapT h hs

/-! ## LKSEND -/

section
variable {e : Env} {ad : EAddr} {d : GReg} {off : Nat} {x : LkBlock} {g : Group}

/-- Before its release conditions are met a link operation that releases waits, to issue again. -/
theorem lksendSem_early (h : releaseNow e.s e.t .sys = false) : lksendSem d ad e = .again e.s .release := by
  simp [lksendSem, h]

/-- Once they are met it is an operation on its block. -/
theorem lksendSem_linkOp (h : releaseNow e.s e.t .sys = true) : ∃ f, lksendSem d ad e = linkOp e ad false f :=
  ⟨_, if_neg (by simp [h])⟩

theorem lksendSem_refused {bs : List Byte} {n : Nat} (hrel : releaseNow e.s e.t .sys = true)
    (hb : LinkBlock e (eaE e.s e.t ad) off x g false)
    (hr : lkRead (openGroup e.s e.t.o g) e.w (x.len / 64) x.buf = .inr bs)
    (hn : linkRefused (openGroup e.s e.t.o g) e g 0 x.peer x.step = some n) :
    lksendSem d ad e
      = linkAnswer e.s e.t.o g (.trapT (openGroup e.s e.t.o g) (lkfTrap g.group n x.step)) := by
  simp only [lksendSem, hrel, linkOp_block hb, hr, hn]
  rfl

theorem lksendSem_credit {bs : List Byte} (hrel : releaseNow e.s e.t .sys = true)
    (hb : LinkBlock e (eaE e.s e.t ad) off x g false)
    (hr : lkRead (openGroup e.s e.t.o g) e.w (x.len / 64) x.buf = .inr bs)
    (hn : linkRefused (openGroup e.s e.t.o g) e g 0 x.peer x.step = none)
    (hc : hasCredit (openGroup e.s e.t.o g) e.t.o g x.peer x.step = true) :
    lksendSem d ad e
      = .ok (sendNow (openGroup e.s e.t.o g) e.t.o e.t.tid g x.peer x.step bs) (Wr.ofG d 0) := by
  simp only [lksendSem, hrel, linkOp_block hb, hr, hn, hc]
  rfl

theorem lksendSem_noCredit {bs : List Byte} (hrel : releaseNow e.s e.t .sys = true)
    (hb : LinkBlock e (eaE e.s e.t ad) off x g false)
    (hr : lkRead (openGroup e.s e.t.o g) e.w (x.len / 64) x.buf = .inr bs)
    (hn : linkRefused (openGroup e.s e.t.o g) e g 0 x.peer x.step = none)
    (hc : hasCredit (openGroup e.s e.t.o g) e.t.o g x.peer x.step = false) :
    lksendSem d ad e
      = .wait (openGroup e.s e.t.o g) (.linkSend g.group x.peer x.step (BitVec.ofNat 64 x.buf) x.len) := by
  simp only [lksendSem, hrel, linkOp_block hb, hr, hn, hc]
  rfl

/-! ## LKRECV -/

theorem lkrecvSem_refused {n : Nat} (hb : LinkBlock e (eaE e.s e.t ad) off x g false)
    (hw : lkWritable (openGroup e.s e.t.o g) e.w (x.len / 64) x.buf = none)
    (hn : linkRefused (openGroup e.s e.t.o g) e g 1 x.peer x.step = some n) :
    lkrecvSem d ad e
      = linkAnswer e.s e.t.o g (.trapT (openGroup e.s e.t.o g) (lkfTrap g.group n x.step)) := by
  simp only [lkrecvSem, linkOp_block hb, hw, hn]

theorem lkrecvSem_noMsg (hb : LinkBlock e (eaE e.s e.t ad) off x g false)
    (hw : lkWritable (openGroup e.s e.t.o g) e.w (x.len / 64) x.buf = none)
    (hn : linkRefused (openGroup e.s e.t.o g) e g 1 x.peer x.step = none)
    (hm : wholeMsg (openGroup e.s e.t.o g) e.t.o g.group x.peer x.step = none) :
    lkrecvSem d ad e
      = .wait (openGroup e.s e.t.o g) (.linkRecv g.group x.peer x.step (BitVec.ofNat 64 x.buf) x.len) := by
  simp only [lkrecvSem, linkOp_block hb, hw, hn, hm]
  rfl

/-- A message of another format or too long for the buffer is refused with reason 4. -/
theorem lkrecvSem_misfit {m : Nat × List Byte} (hb : LinkBlock e (eaE e.s e.t ad) off x g false)
    (hw : lkWritable (openGroup e.s e.t.o g) e.w (x.len / 64) x.buf = none)
    (hn : linkRefused (openGroup e.s e.t.o g) e g 1 x.peer x.step = none)
    (hm : wholeMsg (openGroup e.s e.t.o g) e.t.o g.group x.peer x.step = some m) (hbad : m.1 ≠ 0 ∨ x.len < m.2.length) :
    lkrecvSem d ad e
      = linkAnswer e.s e.t.o g (.trapT (openGroup e.s e.t.o g) (lkfTrap g.group 4 x.step)) := by
  have htake : takeMsg (openGroup e.s e.t.o g) e.w e.t.o g x.peer x.step x.buf x.len m
      = .inl (lkfTrap g.group 4 x.step) := if_pos hbad
  simp only [lkrecvSem, linkOp_block hb, hw, hn, hm, htake]

theorem lkrecvSem_taken {m : Nat × List Byte} (hb : LinkBlock e (eaE e.s e.t ad) off x g false)
    (hw : lkWritable (openGroup e.s e.t.o g) e.w (x.len / 64) x.buf = none)
    (hn : linkRefused (openGroup e.s e.t.o g) e g 1 x.peer x.step = none)
    (hm : wholeMsg (openGroup e.s e.t.o g) e.t.o g.group x.peer x.step = some m) (hfmt : m.1 = 0) (hlen : m.2.length ≤ x.len)
    (hfit : lkWritable (openGroup e.s e.t.o g) e.w ((m.2.length + 63) / 64) x.buf = none) :
    lkrecvSem d ad e
      = .ok (useStep (consumeStep (lkWrite e.w e.t.o (m.2.length / 64) x.buf m.2 (openGroup e.s e.t.o g)) e.t.o g x.peer x.step)
          e.t.o g.group 1 x.peer x.step) (lkrecvWr d m.2.length) := by
  have hok : ¬ (m.1 ≠ 0 ∨ x.len < m.2.length) := by
    rw [hfmt]
    omega
  simp only [lkrecvSem, linkOp_block hb, hw, hn, hm, takeMsg, if_neg hok, hfit]
  rfl

/-! ## LKRED -/

/-- A reduction that starts: its operands, with nothing received. -/
def startReduce (o tid : Nat) (g : Group) (x : LkBlock) (bs : List Byte) : Reduce :=
  ⟨o, tid, g.group, x.step, vtypeCode x.ty, x.op, redFmt x.ty, BitVec.ofNat 64 x.dva, bs, [], false, none, none⟩

theorem lkredSem_down {bs : List Byte} (hrel : releaseNow e.s e.t .sys = true)
    (hb : LinkBlock e (eaE e.s e.t ad) off x g true)
    (hr : lkRead (openGroup e.s e.t.o g) e.w (x.len / 64) x.buf = .inr bs)
    (hw : lkWritable (openGroup e.s e.t.o g) e.w (x.len / 64) x.dva = none)
    (hdown : g.failed = true ∨ ∃ p ∈ redPeers g, (portAt (openGroup e.s e.t.o g) (peerPort g p)).down = true) :
    lkredSem d ad e
      = linkAnswer e.s e.t.o g (.trapT (openGroup e.s e.t.o g) (lkfTrap g.group 0 x.step)) := by
  have hc : (g.failed || (redPeers g).any (fun p => (portAt (openGroup e.s e.t.o g) (peerPort g p)).down)) = true := by
    simpa [List.any_eq_true] using hdown
  simp only [lkredSem, hrel, linkOp_block hb, hr, hw, hc, if_true]
  rfl

/-- No thread of the owner waits on a message of the step. -/
theorem othersWait_none {u : State} {o tid : Nat} {p : Wait → Bool}
    (h : ∀ t' ∈ threadsOf u o, ∀ y, t'.status = .waiting y → p y = false) : othersWait u o tid p = false := by
  unfold othersWait
  rw [List.any_eq_false]
  intro t' ht'
  cases hst : t'.status with
  | waiting y => simp [h t' ht' y hst]
  | _ => simp

theorem lkredSem_starts {bs : List Byte} (hrel : releaseNow e.s e.t .sys = true)
    (hb : LinkBlock e (eaE e.s e.t ad) off x g true)
    (hr : lkRead (openGroup e.s e.t.o g) e.w (x.len / 64) x.buf = .inr bs)
    (hw : lkWritable (openGroup e.s e.t.o g) e.w (x.len / 64) x.dva = none) (hf : g.failed = false)
    (hup : (redPeers g).all (fun p => !(portAt (openGroup e.s e.t.o g) (peerPort g p)).down) = true)
    (hused : g.used.all (fun u => u.2.2 != x.step) = true)
    (hred : (openGroup e.s e.t.o g).reduces.all (fun r => !(r.o == e.t.o && r.group == g.group && r.step == x.step)) = true)
    (hothers : ∀ t' ∈ threadsOf (openGroup e.s e.t.o g) e.t.o, 
        ∀ gr p st buf n, t'.status ≠ .waiting (.linkSend gr p st buf n)
      ∧ t'.status ≠ .waiting (.linkRecv gr p st buf n)) :
    lkredSem d ad e = .wait { openGroup e.s e.t.o g with
      reduces := (openGroup e.s e.t.o g).reduces ++ [startReduce e.t.o e.t.tid g x bs] } (.linkRed g.group x.step) := by
  have hdown : (g.failed || (redPeers g).any (fun p => (portAt (openGroup e.s e.t.o g) (peerPort g p)).down)) = false := by
    rw [hf, Bool.false_or, List.any_eq_false]
    intro p hp
    simpa using List.all_eq_true.mp hup p hp
  have hstep : g.used.any (fun u => u.2.2 == x.step) = false := by
    rw [List.any_eq_false]
    intro u hu
    simpa using List.all_eq_true.mp hused u hu
  have hnone : ∀ b : Reduce → Bool, (openGroup e.s e.t.o g).reduces.any
      (fun r => r.o == e.t.o && r.group == g.group && r.step == x.step && b r) = false := by
    intro b
    rw [List.any_eq_false]
    intro r hr
    have := List.all_eq_true.mp hred r hr
    simp only [Bool.not_eq_true'] at this
    simp [this]
  have hwait : ∀ q : Wait → Bool, 
      (∀ y, (∀ gr p st buf n, y ≠ .linkSend gr p st buf n ∧ y ≠ .linkRecv gr p st buf n) →
        q y = false) →
      othersWait (openGroup e.s e.t.o g) e.t.o e.t.tid q = false := by
    intro q hq
    refine othersWait_none (fun t' ht' y hy => hq y (fun gr p st buf n => ?_))
    obtain ⟨h1, h2⟩ := hothers t' ht' gr p st buf n
    exact ⟨fun h => h1 (by rw [hy, h]), fun h => h2 (by rw [hy, h])⟩
  simp only [lkredSem, hrel, linkOp_block hb, hr, hw, hdown, hstep, hnone]
  rw [hwait]
  · rfl
  · intro y hy
    cases y with
    | linkSend gr p st buf n => exact absurd rfl (hy gr p st buf n).1
    | linkRecv gr p st buf n => exact absurd rfl (hy gr p st buf n).2
    | _ => rfl

end

/-- A thread's wait for a reduction counts from its start (R407). -/
def redWaiting (t : Thread) (gr step : Nat) (b : Bundle) (tick : Nat) : Thread :=
  { t with status := .waiting (.linkRed gr step), pend := some b, wcount := some 0, waitAt := tick }

/-- The state in which a reduction has started and its thread waits for it (R29, R407). -/
def reducing (s1 : State) (c : Cur) (r : Reduce) (b : Bundle) : State :=
  putWait { s1 with reduces := s1.reduces ++ [r] } c (.linkRed r.group r.step) (some b)

theorem reducing_eq (s1 : State) (c : Cur) (r : Reduce) (b : Bundle) : reducing s1 c r b
    = onThr { s1 with reduces := s1.reduces ++ [r] } c.o c.tid (fun t => redWaiting t r.group r.step b s1.tick) := by
  have hp : ∀ u, plumbWait u c (.linkRed r.group r.step) = u := by
    intro u
    unfold plumbWait
    split <;> rfl
  unfold reducing putWait
  rw [hp]
  rfl

theorem lookup_reducing {s1 : State} {c : Cur} {t : Thread} (r : Reduce) (b : Bundle)
    (ht : lookup s1.threads (thrKey c.o c.tid) = some t) :
    lookup (reducing s1 c r b).threads (thrKey c.o c.tid) = some (redWaiting t r.group r.step b s1.tick) := by
  have hsame : lookup ({ s1 with reduces := s1.reduces ++ [r] } : State).threads (thrKey c.o c.tid) = some t := ht
  rw [reducing_eq, onThr_threads, lookup_upd_self, hsame]
  rfl

/-- A reduction that starts is the only one of its owner, group and step. -/
theorem find_reducing {s1 : State} {c : Cur} {r : Reduce} {b : Bundle}
    (h : s1.reduces.all (fun y => !(y.o == r.o && y.group == r.group && y.step == r.step)) = true) :
    (reducing s1 c r b).reduces.find? (fun y => y.o == r.o && y.group == r.group && y.step == r.step) = some r := by
  have hno : s1.reduces.find? (fun y => y.o == r.o && y.group == r.group && y.step == r.step) = none := by
    rw [List.find?_eq_none]
    intro y hy
    have hy' := List.all_eq_true.mp h y hy
    simp only [Bool.not_eq_true'] at hy'
    simp [hy']
  rw [reducing_eq, onThr_reduces, List.find?_append, hno]
  simp

theorem portAt_reducing (s1 : State) (c : Cur) (r : Reduce) (b : Bundle) (q : Nat) :
    portAt (reducing s1 c r b) q = portAt s1 q := by
  rw [reducing_eq]
  rfl

/-- The state after one step of a reduction, which stands for the reduction in the list (R29). -/
def reduceStepped (u : State) (g : Group) (r : Reduce) (step : Nat) : State :=
  let p := redStep u g r
  { p.1 with reduces := p.1.reduces.map (fun y => if y.o = r.o ∧ y.group = g.group ∧ y.step = step then p.2 else y) }

/-- A thread that waits for its reduction goes on once the reduction ends: its result has been written, and the wait ends
with an acquire at .sys (R29, R407). -/
theorem settleThread_linkRed {u : State} {t' : Thread} {g : Group} {r : Reduce} {d : GReg} {key step : Nat} {v : State}
    (ht : lookup u.threads key = some t') (hstop : stopped u t'.o = false) (hmig : t'.mig = none) (has : t'.async = [])
    (hst : t'.status = .waiting (.linkRed g.group step)) (hres : resultReg t' = some d) (hw : owner? u t'.o = some w)
    (hg : groupAt u t'.o g.group = some g)
    (hr : u.reduces.find? (fun r => r.o == t'.o && r.group == g.group && r.step == step) = some r)
    (hup : (redPeers g).any (fun p => (portAt u (peerPort g p)).down) = false)
    (hend : redEnd (reduceStepped u g r step) w g (redStep u g r).2 = .inr (some v)) :
    settleThread u key = finishWait (dropReduce v t'.o g.group step) t'.o t'.tid { Wr.ofG d 0 with acq := some .sys } := by
  have hgive : give (resultReg t') 0 = Wr.ofG d 0 := by rw [hres]; rfl
  have hred : settleRed u t' w g.group step
      = finishWait (dropReduce v t'.o g.group step) t'.o t'.tid { Wr.ofG d 0 with acq := some .sys } := by
    simp only [reduceStepped] at hend
    simp only [settleRed, hg, hr, hup, hend, hgive]
    rfl
  rw [← hred]
  simp only [settleThread, ht, hstop, hmig, has, hw, hst]
  rfl

/-- Settling a reduction that has just started, where nothing more has to come: its thread's wait ends (R29, R407). -/
theorem reducing_settles {s1 v : State} {r : Reduce} {b : Bundle} {g : Group} {d : GReg}
    (ht : lookup s1.threads (thrKey c.o c.tid) = some t) (hto : t.o = r.o) (hgr : g.group = r.group)
    (hmig : t.mig = none) (has : t.async = []) (hres : resultReg (redWaiting t r.group r.step b s1.tick) = some d)
    (hnew : s1.reduces.all (fun y => !(y.o == r.o && y.group == r.group && y.step == r.step)) = true)
    (hup : (redPeers g).all (fun p => !(portAt s1 (peerPort g p)).down) = true)
    (hstop : stopped (reducing s1 c r b) t.o = false) (hg : groupAt (reducing s1 c r b) t.o g.group = some g)
    (hw : owner? (reducing s1 c r b) t.o = some w)
    (hend : redEnd (reduceStepped (reducing s1 c r b) g r r.step) w g (redStep (reducing s1 c r b) g r).2 = .inr (some v)) :
    settleThread (reducing s1 c r b) (thrKey c.o c.tid)
      = finishWait (dropReduce v t.o g.group r.step) t.o t.tid { Wr.ofG d 0 with acq := some .sys } := by
  have hfind := find_reducing (c := c) (b := b) hnew
  rw [← hto, ← hgr] at hfind
  have hdown : (redPeers g).any (fun q => (portAt (reducing s1 c r b) (peerPort g q)).down) = false := by
    rw [List.any_eq_false]
    intro q hq
    rw [portAt_reducing]
    simpa using List.all_eq_true.mp hup q hq
  exact settleThread_linkRed (t' := redWaiting t r.group r.step b s1.tick) (lookup_reducing r b ht) hstop hmig has
    (by rw [hgr]; rfl) hres hw hg hfind hdown hend

end

end Sys2Proof.Machine
end

section
/-!
The settling of LinkOperations (R28, R29, R406, R407).
-/

open Sys2Proof Sys2Proof.Machine

/-- Settles O52, by the answers of the three operations' meanings, one for each state of the group, the step and the
message; a reduction's end is what settling makes of its thread's wait. -/
theorem linkOperations : Obligations.LinkOperations := by
  unfold Obligations.LinkOperations
  intro s c t w d ad off x g va lkf
  have hva : ∀ i, eaE (firstEnv s c t w i).s (firstEnv s c t w i).t ad = va := fun i => firstEnv_ea s c t w i ad
  refine ⟨?send, ?recv, ?red⟩
  case send =>
    intro i e s1 his
    refine ⟨fun hrel => runX_again his (lksendSem_early hrel), fun hrel => ?traps, fun hrel hb bs hr => ?block⟩
    case traps =>
      obtain ⟨f, hf⟩ := lksendSem_linkOp (e := e) (d := d) (ad := ad) hrel
      exact blockTraps_of_linkOp (sem := lksendSem d ad) rfl hf
    case block =>
      rw [← hva i] at hb
      refine ⟨fun n hn => runX_lkf his (lksendSem_refused hrel hb hr hn), fun hn => ⟨fun hc => ?_, fun hc => ?_⟩⟩
      · exact runX_ok his (lksendSem_credit hrel hb hr hn hc)
      · exact runX_wait his (lksendSem_noCredit hrel hb hr hn hc)
  case recv =>
    intro i e s1
    refine ⟨blockTraps_of_linkOp (sem := lkrecvSem d ad) rfl rfl, fun his hb hw => ?_⟩
    rw [← hva i] at hb
    refine ⟨fun n hn => runX_lkf his (lkrecvSem_refused hb hw hn), fun hn => ⟨fun hm => ?_, fun fmt bs hm => ⟨?_, ?_⟩⟩⟩
    · exact runX_wait his (lkrecvSem_noMsg hb hw hn hm)
    · exact fun hbad => runX_lkf his (lkrecvSem_misfit hb hw hn hm hbad)
    · exact fun hfmt hlen hfit => runX_ok his (lkrecvSem_taken hb hw hn hm hfmt hlen hfit)
  case red =>
    intro i e s1 his hrel hb bs hr hw
    rw [← hva i] at hb
    refine ⟨fun hdown => runX_lkf his (lkredSem_down hrel hb hr hw hdown), ?starts⟩
    intro hf hup hused hred hothers r u
    have hthr : threadsOf s1 t.o = threadsOf s t.o := by
      show ((takeDraws (bare s) t _).threads.map (·.2)).filter _ = _
      rw [takeDraws_threads]
      rfl
    refine ⟨runX_wait his (lkredSem_starts hrel hb hr hw hf hup hused hred (hthr ▸ hothers)), ?ends⟩
    intro hco hct hstop hmig has hg ho p u' v hend
    have hthis : lookup s1.threads (thrKey c.o c.tid) = some t := by
      show lookup (takeDraws (bare s) t _).threads _ = _
      rw [takeDraws_threads]
      exact his.thr
    have hsettled := reducing_settles (r := r) (b := bundleOf (bare s) c t w i)
      hthis rfl rfl hmig has rfl hred hup hstop hg ho hend
    rw [hco, hct] at hsettled
    exact hsettled
end

section
/-!
SUPPORT. What no update of an owner, a core, a launch, memory or the fault log touches: the stage of the package, its
clocks and its saves (R30, R56, R66, R72, R82, R109).
-/

namespace Sys2Proof.Machine

/-- The stage of the package: its power and pause states, the starts of its intervals, the power cap and the saves that
run. -/
structure Stage where
  power     : Power
  trowel    : Trowel
  fab       : Nat
  controlAt : Nat
  errAt     : Nat
  balanceAt : Nat
  cap       : Nat
  hotSeen   : Bool
  saves     : List SaveRun

def stageOf (s : State) : Stage :=
  ⟨s.power, s.trowel, s.fab, s.controlAt, s.errAt, s.balanceAt, s.cap, s.hotSeen, s.saves⟩

/-- What every step of a fold leaves alone, the fold leaves alone. -/
theorem foldl_keeps {α β : Type} (g : State → β) {f : State → α → State} (h : ∀ s a, g (f s a) = g s) (l : List α)
    (s : State) : g (l.foldl f s) = g s := by
  induction l generalizing s with
  | nil => rfl
  | cons a l ih => rw [List.foldl_cons, ih, h]

/-! ## Updates of records, the log and memory -/

@[simp] theorem stageOf_onOwner (s : State) (o : Nat) (f : Owner → Owner) : stageOf (onOwner s o f) = stageOf s := rfl
@[simp] theorem stageOf_onCore (s : State) (o j : Nat) (f : Core → Core) : stageOf (onCore s o j f) = stageOf s := rfl
@[simp] theorem stageOf_onThr (s : State) (o tid : Nat) (f : Thread → Thread) : stageOf (onThr s o tid f) = stageOf s := rfl
@[simp] theorem stageOf_onLch (s : State) (o id : Nat) (f : Launch → Launch) : stageOf (onLch s o id f) = stageOf s := rfl
@[simp] theorem stageOf_onEngine (s : State) (p : Place) (f : Engine → Engine) : stageOf (onEngine s p f) = stageOf s := rfl

@[simp] theorem stageOf_addLog (s : State) (r : LogRec) : stageOf (addLog s r) = stageOf s := by
  obtain ⟨l, d, w, h⟩ := addLog_eq s r
  rw [h]
  rfl

@[simp] theorem stageOf_dropL1 (s : State) (o j : Nat) : stageOf (dropL1 s o j) = stageOf s := rfl

@[simp] theorem stageOf_writeG (s : State) (t : Thread) (r : GReg) (v : Word) : stageOf (writeG s t r v) = stageOf s := by
  unfold writeG
  split <;> rfl

@[simp] theorem stageOf_spoil (s : State) (pa n : Nat) : stageOf (spoil s pa n) = stageOf s := by
  unfold spoil
  split <;> rfl

@[simp] theorem stageOf_writeAt (s : State) (p : Spot) (bs : List Byte) : stageOf (writeAt s p bs) = stageOf s := by
  cases p with
  | mem a => exact stageOf_spoil _ _ _
  | spad o j a => rfl
  | bsram o c a => rfl

@[simp] theorem stageOf_stackRead (s : State) (pa : Nat) : stageOf (stackRead s pa) = stageOf s := by
  unfold stackRead
  split <;> rfl

@[simp] theorem stageOf_stackSide (s : State) (t : Target) (pa : Nat) : stageOf (stackSide s t pa) = stageOf s := by
  unfold stackSide
  repeat' split
  all_goals simp

@[simp] theorem stageOf_touchWrite (s : State) (t : Target) (pa : Nat) : stageOf (touchWrite s t pa) = stageOf s := by
  unfold touchWrite
  split <;> simp

@[simp] theorem stageOf_touchSpan (s : State) (t : Target) (pa n : Nat) : stageOf (touchSpan s t pa n) = stageOf s := by
  unfold touchSpan
  refine foldl_keeps stageOf (fun u a => ?_) _ s
  split
  · exact stageOf_touchWrite _ _ _
  · split <;> simp

@[simp] theorem stageOf_ownerWrite (s : State) (w : Owner) (o va : Nat) (bs : List Byte) :
    stageOf (ownerWrite s w o va bs).1 = stageOf s := by
  unfold ownerWrite
  split
  · dsimp only
    split
    · exact foldl_keeps stageOf (fun u d => stageOf_writeAt u _ _) _ s
    · simp
  · rfl
  · rfl
  · rfl

@[simp] theorem stageOf_maySleep (s : State) (q : Nat) : stageOf (maySleep s q) = stageOf s := by
  unfold maySleep
  dsimp only
  split <;> rfl

@[simp] theorem stageOf_wakeOctets (s : State) (pa n : Nat) : stageOf (wakeOctets s pa n) = stageOf s := by
  unfold wakeOctets
  split <;> rfl

@[simp] theorem stageOf_restAll (s : State) : stageOf (restAll s) = stageOf s := foldl_keeps stageOf stageOf_maySleep _ s

/-! ## The steward's passes (R82 to R91) -/

@[simp] theorem stageOf_rankOwner (s : State) (o : Nat) : stageOf (rankOwner s o) = stageOf s := by
  unfold rankOwner
  split <;> rfl

@[simp] theorem stageOf_rankAll (s : State) : stageOf (rankAll s) = stageOf s := foldl_keeps stageOf stageOf_rankOwner _ s

@[simp] theorem stageOf_heatCore (s : State) (o j : Nat) (w : Owner) (c : Core) : stageOf (heatCore s o j w c) = stageOf s := by
  unfold heatCore
  dsimp only
  split
  · rfl
  · split
    · rfl
    · split
      · rfl
      · split
        · rfl
        · split <;> rfl

@[simp] theorem stageOf_controlCore (s : State) (o j : Nat) : stageOf (controlCore s o j) = stageOf s := by
  unfold controlCore
  split
  · dsimp only
    split
    · rfl
    · split
      · exact stageOf_heatCore _ _ _ _ _
      · split <;> rfl
  · rfl

@[simp] theorem stageOf_exchangeCore (s : State) (o j : Nat) : stageOf (exchangeCore s o j) = stageOf s := by
  unfold exchangeCore
  split
  · dsimp only
    split
    · rfl
    · split <;> rfl
  · rfl

@[simp] theorem stageOf_controlColumn (power : List PowerReading) (lower : Bool) (s : State) (p : Place) :
    stageOf (controlColumn power lower s p) = stageOf s := rfl

/-- A save that starts is one more among the saves, and touches nothing else of the stage (R72). -/
theorem stageOf_startSave (s : State) (cmd : Option Nat) (os : List Nat) (a b : Nat) (stop device : Bool) :
    ∃ v, stageOf (startSave s cmd os a b stop device) = { stageOf s with saves := v } := by
  have hwarn := foldl_keeps stageOf (fun u o => stageOf_onOwner u o (fun w => { w with saving := true, warn := true })) os s
  have hwake := foldl_keeps stageOf (fun u (r : Nat × Nat) => stageOf_wakeOctets u r.1 r.2)
  exact ⟨(startSave s cmd os a b stop device).saves,
    congrArg (fun x : Stage => { x with saves := (startSave s cmd os a b stop device).saves }) ((hwake _ _).trans hwarn)⟩

/-! ## Balancing (R101, R109 to R114) -/

@[simp] theorem stageOf_setDyn (s : State) (o lid k : Nat) (f : StageDyn → StageDyn) :
    stageOf (setDyn s o lid k f) = stageOf s := rfl

@[simp] theorem stageOf_releaseHeld (s : State) (o lid : Nat) : stageOf (releaseHeld s o lid) = stageOf s := rfl

@[simp] theorem stageOf_clearBanks (s : State) (o j : Nat) (g : Grant) (e : StageEnt) :
    stageOf (clearBanks s o j g e) = stageOf s := by
  unfold clearBanks
  split <;> rfl

theorem stageOf_createOn (s : State) (o : Nat) (w : Owner) (l : Launch) (k : Nat) (e : StageEnt) (j : Nat) (g : Grant) :
    stageOf (createOn s o w l k e j g).1 = stageOf s := by
  unfold createOn
  split
  · rfl
  · dsimp only
    rw [stageOf_onLch, stageOf_writeG, stageOf_writeG, stageOf_writeG, stageOf_writeG]
    show stageOf (clearBanks _ o j g e) = _
    rw [stageOf_clearBanks]
    show stageOf (dropL1 _ o j) = _
    rw [stageOf_dropL1]
    split <;> rfl

theorem stageOf_createPlaced {s u : State} {o : Nat} {w : Owner} {lid k : Nat} (h : createPlaced s o w lid k = some u) :
    stageOf u = stageOf s := by
  unfold createPlaced at h
  split at h
  · cases h
  · split at h
    · cases h
    · split at h
      · cases h
      · injection h with h
        rw [← h, stageOf_createOn]

@[simp] theorem stageOf_createUpTo (o : Nat) (w : Owner) (lid k n : Nat) (s : State) :
    stageOf (createUpTo o w lid k n s) = stageOf s := by
  induction n generalizing s with
  | zero => rfl
  | succ n ih =>
    unfold createUpTo
    split
    case h_1 u hu => rw [ih, stageOf_createPlaced hu]
    case h_2 => rfl

@[simp] theorem stageOf_balanceStage (s : State) (o : Nat) (w : Owner) (lid k : Nat) (e : StageEnt) (depth u : Nat) :
    stageOf (balanceStage s o w lid k e depth u) = stageOf s := by
  unfold balanceStage
  dsimp only
  split
  · rfl
  · split
    · simp
    · split <;> rfl

@[simp] theorem stageOf_balanceOwner (s : State) (o : Nat) (w : Owner) : stageOf (balanceOwner s o w) = stageOf s :=
  foldl_keeps stageOf (fun _ _ => stageOf_balanceStage _ _ _ _ _ _ _ _) _ s

@[simp] theorem stageOf_receive (s : State) (o src dst out : Nat) (es : List WorkEnt) :
    stageOf (receive s o src dst out es) = stageOf s := by
  unfold receive
  split <;> rfl

@[simp] theorem stageOf_takeShips (o : Nat) (w : Owner) (ds : List Nat) (ships : List Ship) (s : State) :
    stageOf (takeShips o w ds ships s) = stageOf s := by
  induction ds generalizing ships s with
  | nil => rfl
  | cons dst ds ih =>
    unfold takeShips
    rw [ih]
    refine foldl_keeps stageOf (fun u src => ?_) _ s
    split
    · exact stageOf_receive _ _ _ _ _ _
    · rfl

@[simp] theorem stageOf_levelOwner (s : State) (o : Nat) (w : Owner) : stageOf (levelOwner s o w) = stageOf s := by
  unfold levelOwner
  rw [stageOf_takeShips]
  exact foldl_keeps stageOf (fun u x => stageOf_onCore u o _ _) _ s

@[simp] theorem stageOf_endLaunch (s : State) (o : Nat) (l : Launch) : stageOf (endLaunch s o l) = stageOf s := by
  unfold endLaunch
  split
  · rfl
  · dsimp only
    split <;> rfl

@[simp] theorem stageOf_writeDone (o : Nat) (s : State) (d : Nat × Nat × Nat) : stageOf (writeDone o s d) = stageOf s := by
  unfold writeDone
  split
  · rfl
  case h_2 w _ =>
    split
    · rfl
    · dsimp only
      have hw := stageOf_ownerWrite (onOwner s o (fun w => { w with doneq := w.doneq.erase d })) w o d.1
        (listOfWord (BitVec.ofNat 64 d.2.1) 8)
      split
      case h_1 u hu => rw [hu] at hw; exact hw
      case h_2 u ti hu => rw [hu] at hw; exact (stageOf_addLog _ _).trans hw

@[simp] theorem stageOf_flushDone (s : State) (o : Nat) : stageOf (flushDone s o) = stageOf s := by
  unfold flushDone
  split
  · exact foldl_keeps stageOf (stageOf_writeDone o) _ s
  · rfl

@[simp] theorem stageOf_balanceAll (s : State) (o : Nat) : stageOf (balanceAll s o) = stageOf s := by
  unfold balanceAll
  split
  · rfl
  · split
    · rfl
    · dsimp only
      rw [stageOf_flushDone, foldl_keeps stageOf (fun u l => stageOf_endLaunch u o l)]
      split <;> simp

/-! ## Error-rate windows (R66) -/

/-- The window of one structure touches owners, counts and the log alone. -/
theorem stageOf_windowOf1 (s : State) (e : ErrRate) : stageOf (windowOf1 s e) = stageOf s := by
  unfold windowOf1
  dsimp only
  split_ifs
  · rfl
  · exact stageOf_addLog _ _

end Sys2Proof.Machine
end

section
/-!
SUPPORT. Rules of the steward (R30, R66, R78, R82 to R94): control intervals, governor windows, frame moves, error windows
and single faults.
-/

namespace Sys2Proof.Machine

/-! ## Records read back -/

theorem owner?_onOwner (s : State) (o : Nat) (f : Owner → Owner) : owner? (onOwner s o f) o = (owner? s o).map f :=
  lookup_upd_self _ _ _

theorem core?_onCore (s : State) (o j : Nat) (f : Core → Core) : core? (onCore s o j f) o j = (core? s o j).map f :=
  lookup_upd_self _ _ _

theorem core?_onCore_ne (s : State) (o : Nat) {i j : Nat} (f : Core → Core) (h : i ≠ j) :
    core? (onCore s o j f) o i = core? s o i :=
  lookup_upd_ne _ _ (by unfold coreKey; omega)

theorem thr?_onThr (s : State) (o tid : Nat) (f : Thread → Thread) : thr? (onThr s o tid f) o tid = (thr? s o tid).map f :=
  lookup_upd_self _ _ _

@[simp] theorem engineAt_onEngine (s : State) (p : Place) (f : Engine → Engine) :
    engineAt (onEngine s p f) p = f (engineAt s p) := getD_setD_self _ _ _ _

theorem mem_of_lookup {α : Type} {m : SMap α} {i : Nat} {x : α} (h : lookup m i = some x) : (i, x) ∈ m := by
  induction m with
  | nil => cases h
  | cons p m ih =>
    obtain ⟨k, v⟩ := p
    by_cases hk : i = k
    · subst hk
      simp only [lookup, if_true, Option.some.injEq] at h
      simp [h]
    · simp only [lookup, hk, if_false] at h
      exact List.mem_cons_of_mem _ (ih h)

/-- Reading a table whose records have all been replaced. -/
theorem lookup_map {α : Type} (m : SMap α) (f : α → α) (i : Nat) :
    lookup (m.map (fun p => (p.1, f p.2))) i = (lookup m i).map f := by
  induction m with
  | nil => rfl
  | cons p m ih =>
    obtain ⟨k, v⟩ := p
    by_cases hk : i = k
    · simp [lookup, hk]
    · simp [lookup, hk, ih]

theorem paused_congr {s u : State} (h : u.trowel = s.trowel) : paused u = paused s := by
  unfold paused
  rw [h]

/-! ## Control intervals (R30, R82) -/

/-- An interval's readings are taken. -/
def readingsTaken (temps : List TileReading) (power : List PowerReading) (package : PackageReading) (s : State) : State :=
  { s with
    controlAt := s.controlAt + controlPeriod
    temps := temps.foldl (fun (m : SMap Nat) (t : TileReading) => setD 60 m (t.die * 96 + t.col * 8 + t.row) t.temp) s.temps
    owners := s.owners.map (fun (p : Nat × Owner) =>
      (p.1, if p.2.placed then { p.2 with energy := p.2.energy + Config.energyUse p.1 s.tick } else p.2))
    slopes := power.foldl (fun (m : SMap Nat) (r : PowerReading) => setD slopeReset m r.die r.d) s.slopes
    cap := package.cap.getD s.cap }

/-- The interval's pass over the cores: rankings, slots and exchanges. -/
def coresPassed (s : State) : State :=
  let s := rankAll s
  let s := (allCores s).foldl (fun s p => controlCore s p.1 p.2) s
  (allCores s).foldl (fun s p => exchangeCore s p.1 p.2) s

/-- The interval's pass over the columns. -/
def columnsPassed (power : List PowerReading) (watts : Nat) (s : State) : State :=
  allColumns.foldl (controlColumn power (aboveCap s watts)) { s with capDue := aboveCap s watts }

/-- A control interval but for the stop at 115 degrees. -/
def intervalPassed (temps : List TileReading) (power : List PowerReading) (package : PackageReading) (s : State) : State :=
  let s := columnsPassed power package.watts (coresPassed (readingsTaken temps power package s))
  { rankAll (restAll s) with hotSeen := s.hotSeen || temps.any (fun t => 115 ≤ t.temp) }

@[simp] theorem stageOf_coresPassed (s : State) : stageOf (coresPassed s) = stageOf s :=
  (foldl_keeps stageOf (fun u (p : Nat × Nat) => stageOf_exchangeCore u p.1 p.2) _ _).trans
    ((foldl_keeps stageOf (fun u (p : Nat × Nat) => stageOf_controlCore u p.1 p.2) _ _).trans (stageOf_rankAll s))

@[simp] theorem stageOf_columnsPassed (power : List PowerReading) (watts : Nat) (s : State) :
    stageOf (columnsPassed power watts s) = stageOf s :=
  foldl_keeps stageOf (stageOf_controlColumn power (aboveCap s watts)) _ _

theorem stageOf_withHot (s : State) (h : Bool) : stageOf { s with hotSeen := h } = { stageOf s with hotSeen := h } := rfl

/-- What an interval leaves of the stage: its start, the cap, and whether 115 degrees have been seen (R30). -/
theorem stageOf_intervalPassed (temps : List TileReading) (power : List PowerReading) (package : PackageReading) (s : State) :
    stageOf (intervalPassed temps power package s) = { stageOf s with
      controlAt := s.controlAt + 28000, cap := package.cap.getD s.cap,
      hotSeen := s.hotSeen || temps.any (fun t => 115 ≤ t.temp) } := by
  have h : stageOf (columnsPassed power package.watts (coresPassed (readingsTaken temps power package s)))
      = { stageOf s with controlAt := s.controlAt + 28000, cap := package.cap.getD s.cap } := by
    rw [stageOf_columnsPassed, stageOf_coresPassed]
    rfl
  unfold intervalPassed
  generalize columnsPassed power package.watts (coresPassed (readingsTaken temps power package s)) = x at h
  have hhot : x.hotSeen = s.hotSeen := congrArg Stage.hotSeen h
  exact (stageOf_withHot (rankAll (restAll x)) _).trans (by rw [stageOf_rankAll, stageOf_restAll, h, hhot])

/-- The stage but for the saves that run. -/
def stageBut (s : State) : Stage := { stageOf s with saves := [] }

theorem stageBut_startSave (s : State) (cmd : Option Nat) (os : List Nat) (a b : Nat) (stop device : Bool) :
    stageBut (startSave s cmd os a b stop device) = stageBut s := by
  obtain ⟨v, h⟩ := stageOf_startSave s cmd os a b stop device
  simp only [stageBut, h]

/-- The stop at 115 degrees: the package is hot, and saves have started (R30, R74). -/
theorem stageBut_saveAndStop (s : State) : stageBut (saveAndStop s) = { stageBut s with power := .hot, hotSeen := false } := by
  unfold saveAndStop
  refine foldl_keeps stageBut (fun u p => ?_) _ { s with power := .hot, hotSeen := false }
  split
  · split
    · rw [stageBut_startSave]
      simp [stageBut, bumpSeq]
    · rfl
  · rfl

/-- Whether an interval stops the package (R30, R63, R74). -/
def stopsNow (v : State) : Bool := v.hotSeen && !paused v && v.saves.isEmpty && v.power == .ready

theorem exec_controlInterval {temps : List TileReading} {power : List PowerReading} {package : PackageReading} {s : State}
    (hacc : accepting s = true) (hdue : s.controlAt + 28000 ≤ s.fab) :
    exec (.controlInterval temps power package) s = .next (if stopsNow (intervalPassed temps power package s) = true
      then saveAndStop (intervalPassed temps power package s) else intervalPassed temps power package s) := by
  have hgo : ¬ ((!accepting s || decide (s.fab < s.controlAt + controlPeriod)) = true) := by
    simp [hacc, controlPeriod, Nat.not_lt.mpr hdue]
  show execControlInterval temps power package s = _
  unfold execControlInterval
  rw [if_neg hgo]
  exact (apply_ite Host.Outcome.next _ _ _).symm

/-- What a control interval leaves of the stage (R30, R63, R74, R82). -/
theorem controlInterval_stage {temps : List TileReading} {power : List PowerReading} {package : PackageReading} {s : State}
    (hacc : accepting s = true) (hdue : s.controlAt + 28000 ≤ s.fab) : ∃ u,
    exec (.controlInterval temps power package) s = .next u ∧
      u.controlAt = s.controlAt + 28000 ∧ u.cap = package.cap.getD s.cap ∧
    (s.hotSeen = false → (∀ t ∈ temps, t.temp < 115) → u.power = s.power ∧ u.hotSeen = false) ∧
    ((s.hotSeen = true ∨ ∃ t ∈ temps, 115 ≤ t.temp) → s.power = .ready →
      (paused s = false → s.saves = [] → u.power = .hot) ∧
      (paused s = true ∨ s.saves ≠ [] → u.power = .ready ∧ u.hotSeen = true)) := by
  have hv := stageOf_intervalPassed temps power package s
  rw [exec_controlInterval hacc hdue]
  generalize intervalPassed temps power package s = v at hv
  have hctl : v.controlAt = s.controlAt + 28000 := congrArg Stage.controlAt hv
  have hcap : v.cap = package.cap.getD s.cap := congrArg Stage.cap hv
  have hpow : v.power = s.power := congrArg Stage.power hv
  have hhot : v.hotSeen = (s.hotSeen || temps.any (fun t => 115 ≤ t.temp)) := congrArg Stage.hotSeen hv
  have hsav : v.saves = s.saves := congrArg Stage.saves hv
  have hpau : paused v = paused s := paused_congr (congrArg Stage.trowel hv)
  have hstop := stageBut_saveAndStop v
  refine ⟨_, rfl, ?_, ?_, ?_, ?_⟩
  · split
    · exact (congrArg Stage.controlAt hstop).trans hctl
    · exact hctl
  · split
    · exact (congrArg Stage.cap hstop).trans hcap
    · exact hcap
  · intro hs hcool
    have hcold : v.hotSeen = false := by
      rw [hhot, hs, Bool.false_or, List.any_eq_false]
      intro t ht
      have := hcool t ht
      simp only [decide_eq_true_eq]
      omega
    rw [if_neg (by simp [stopsNow, hcold])]
    exact ⟨hpow, hcold⟩
  · intro hs hready
    have hseen : v.hotSeen = true := by
      rw [hhot]
      simpa [List.any_eq_true] using hs
    constructor
    · intro hp hsv
      rw [if_pos (by simp [stopsNow, hseen, hpau, hp, hsav, hsv, hpow, hready])]
      exact congrArg Stage.power hstop
    · intro hwait
      have hno : stopsNow v = false := by
        rcases hwait with h | h <;> simp [stopsNow, hpau, hsav, h]
      rw [if_neg (by simp [hno])]
      exact ⟨hpow.trans hready, hseen⟩

/-! ## Slots of a core (R83, R84) -/

section
variable {s : State} {o j : Nat} {w : Owner} {c : Core}

theorem controlCore_plumb (ho : owner? s o = some w) (hc : core? s o j = some c) (hp : w.plumb = true) :
    core? (controlCore s o j) o j = some { c with
      skip := if 100 ≤ tempAt s (placeOf s o j) then min 7 (c.skip + 1)
        else if tempAt s (placeOf s o j) ≤ 95 then c.skip - 1 else c.skip } := by
  simp only [controlCore, ho, hc, hp, if_true, core?_onCore, Option.map_some]

theorem controlCore_cool (ho : owner? s o = some w) (hc : core? s o j = some c) (hp : w.plumb = false)
    (ht : tempAt s (placeOf s o j) ≤ 95) :
    core? (controlCore s o j) o j = some { c with slots := min 64 (c.slots + 1), half := false, floorN := 0 } := by
  have hn : ¬ 100 ≤ tempAt s (placeOf s o j) := by omega
  simp only [controlCore, ho, hc, hp, Bool.false_eq_true, if_false, hn, ht, if_true, core?_onCore, Option.map_some]
  rfl

theorem controlCore_warm (ho : owner? s o = some w) (hc : core? s o j = some c) (hp : w.plumb = false)
    (h95 : 95 < tempAt s (placeOf s o j)) (h100 : tempAt s (placeOf s o j) < 100) :
    core? (controlCore s o j) o j = some { c with floorN := 0 } := by
  have hn : ¬ 100 ≤ tempAt s (placeOf s o j) := by omega
  have hn' : ¬ tempAt s (placeOf s o j) ≤ 95 := by omega
  simp only [controlCore, ho, hc, hp, Bool.false_eq_true, if_false, hn, hn', core?_onCore, Option.map_some]

/-- A hot core is heated. -/
theorem controlCore_hot (ho : owner? s o = some w) (hc : core? s o j = some c) (hp : w.plumb = false)
    (h100 : 100 ≤ tempAt s (placeOf s o j)) : controlCore s o j = heatCore s o j w c := by
  simp only [controlCore, ho, hc, hp, Bool.false_eq_true, if_false, h100, if_true]

theorem heatCore_floor (hc : core? s o j = some c) (hs : c.slots ≤ 8) :
    core? (heatCore s o j w c) o j = some { c with floorN := c.floorN + 1 } := by
  simp only [heatCore, hs, if_true, core?_onCore, hc, Option.map_some]

theorem heatCore_empty (hc : core? s o j = some c) (hs : 8 < c.slots) (hocc : occupant s o j (c.slots - 1) = none)
    (hcom : slotComing s o j (c.slots - 1) = false) :
    core? (heatCore s o j w c) o j = some { c with slots := c.slots - 1, half := false } := by
  simp only [heatCore, Nat.not_le.mpr hs, if_false, hcom, Bool.false_eq_true, hocc, core?_onCore, hc, Option.map_some]

end

/-! ## Governor windows (R87 to R89) -/

section
variable {s : State} {die col : Nat}

/-- The engine of a column after a window's end, with its ballast n and who pays for it. -/
def windowEnded (s : State) (e : Engine) (n : Nat) (payer : Option Nat) : Engine :=
  { e with used := 0, prev := e.used + n, winCyc := 0, winAt := s.fab, payer := payer,
           rampAt := if n = 0 then none else some (e.rampAt.getD e.winAt), budget := e.nextBudget }

/-- The column's engine begins its next window (R87). -/
def windowClosed (s : State) (die col n : Nat) (payer : Option Nat) : State :=
  onEngine
    { s with capDue := s.capDue || (n == 0 && (engineAt s ⟨die, col, 0, false⟩).rampAt.isSome) }
    ⟨die, col, 0, false⟩
    (fun e => windowEnded s e n payer)

/-- The state after a window's end, its ballast charged to its payer (R87, R89). -/
def windowCharged (s : State) (die col n : Nat) (payer : Option Nat) : State :=
  match payer with
  | some o => onOwner (windowClosed s die col n payer) o
      (fun w => { w with energy := w.energy + n * Config.ballastEnergy die col })
  | none => windowClosed s die col n payer

/-- Who pays for a window's ballast: nobody where there is none. -/
def payerOf (s : State) (die col n : Nat) : Option Nat :=
  if n = 0 then none else (engineAt s ⟨die, col, 0, false⟩).payer.or (posAt s die col).own

theorem exec_governorWindow (h : windowOver s ⟨die, col, 0, false⟩ = true) :
    let e := engineAt s ⟨die, col, 0, false⟩
    let n := e.prev - getD slopeReset s.slopes die - e.used
    exec (.governorWindow die col) s = .next (windowCharged s die col n (payerOf s die col n)) := by
  show execGovernorWindow die col s = _
  unfold execGovernorWindow
  dsimp only
  rw [h]
  rfl

theorem engineAt_windowClosed (s : State) (die col n : Nat) (payer : Option Nat) :
    engineAt (windowClosed s die col n payer) ⟨die, col, 0, false⟩
      = windowEnded s (engineAt s ⟨die, col, 0, false⟩) n payer := engineAt_onEngine _ _ _

theorem engineAt_windowCharged (s : State) (die col n : Nat) (payer : Option Nat) :
    engineAt (windowCharged s die col n payer) ⟨die, col, 0, false⟩
      = windowEnded s (engineAt s ⟨die, col, 0, false⟩) n payer := by
  cases payer <;> exact engineAt_windowClosed s die col n _

theorem windowCharged_mem (s : State) (die col n : Nat) (payer : Option Nat) : (windowCharged s die col n payer).mem = s.mem := by
  cases payer <;> rfl

theorem windowCharged_clusters (s : State) (die col n : Nat) (payer : Option Nat) :
    (windowCharged s die col n payer).clusters = s.clusters := by
  cases payer <;> rfl

theorem payerOf_zero (s : State) (die col : Nat) : payerOf s die col 0 = none := rfl

theorem owner?_windowCharged {o n : Nat} {w : Owner} (hw : owner? s o = some w) :
    owner? (windowCharged s die col n (some o)) o = some { w with energy := w.energy + n * Config.ballastEnergy die col } := by
  have hclosed : owner? (windowClosed s die col n (some o)) o = some w := hw
  have h := owner?_onOwner (windowClosed s die col n (some o)) o
    (fun w => { w with energy := w.energy + n * Config.ballastEnergy die col })
  rw [hclosed] at h
  exact h

end

/-! ## Frame moves (R92 to R94) -/

@[simp] theorem wakeOctets_mem (s : State) (pa n : Nat) : (wakeOctets s pa n).mem = s.mem := by
  unfold wakeOctets
  split <;> rfl

@[simp] theorem wakeOctets_moves (s : State) (pa n : Nat) : (wakeOctets s pa n).moves = s.moves := by
  unfold wakeOctets
  split <;> rfl

/-- An octet's rest touches the sleeping octets alone (R94). -/
theorem maySleep_eq (s : State) (q : Nat) : ∃ l, maySleep s q = { s with asleep := l } := by
  unfold maySleep
  dsimp only
  split
  · exact ⟨s.asleep, rfl⟩
  · exact ⟨_, rfl⟩

@[simp] theorem maySleep_mem (s : State) (q : Nat) : (maySleep s q).mem = s.mem := by
  obtain ⟨l, h⟩ := maySleep_eq s q
  rw [h]

@[simp] theorem maySleep_moves (s : State) (q : Nat) : (maySleep s q).moves = s.moves := by
  obtain ⟨l, h⟩ := maySleep_eq s q
  rw [h]

@[simp] theorem maySleep_redirects (s : State) (q : Nat) : (maySleep s q).redirects = s.redirects := by
  obtain ⟨l, h⟩ := maySleep_eq s q
  rw [h]

theorem exec_frameMove {s : State} {src dst : Nat} (hp : paused s = false) (hs : frameInHbm src = true)
    (hd : frameInHbm dst = true) (hoct : octetOf (src * frameBytes) ≠ octetOf (dst * frameBytes))
    (hus : frameUsed s src = true) (hud : frameUsed s dst = false) (ht : frameTaken s dst = false)
    (hm : ∀ m ∈ s.moves, m.src ≠ src) :
    exec (.frameMove src dst) s
      = .next (wakeOctets { s with moves := s.moves ++ [⟨src, dst, 0⟩] } (dst * frameBytes) frameBytes) := by
  have hany : s.moves.any (fun m => m.src == src) = false := by
    rw [List.any_eq_false]
    intro m hmem
    simpa using hm m hmem
  show execFrameMove src dst s = _
  unfold execFrameMove
  rw [if_neg (by simp [hp, hs, hd, hoct, hus, hud, ht, hany])]

/-- A frame's next line moves. -/
def lineMoved (src : Nat) (m : FrameRun) : FrameRun := if m.src = src then { m with next := m.next + 1 } else m

theorem find_lineMoved {l : List FrameRun} {src : Nat} {m : FrameRun} (h : l.find? (·.src == src) = some m) :
    (l.map (lineMoved src)).find? (·.src == src) = some { m with next := m.next + 1 } := by
  have hsrc : m.src = src := by simpa using List.find?_some h
  have hkeep : (fun x : FrameRun => x.src == src) ∘ lineMoved src = fun x => x.src == src := by
    funext x
    by_cases hx : x.src = src <;> simp [lineMoved, hx]
  rw [List.find?_map, hkeep, h]
  simp [lineMoved, hsrc]

section
variable {s : State} {src : Nat} {m : FrameRun}

theorem exec_frameLineMove_line (hp : paused s = false) (hm : s.moves.find? (·.src == src) = some m)
    (hn : m.next + 1 < 8192) : exec (.frameLineMove src) s = .next { moveToken s (src * frameLines + m.next) with
      moves := s.moves.map (lineMoved src) } := by
  show execFrameLineMove src s = _
  simp only [execFrameLineMove, hm, hp, Bool.false_eq_true, if_false, frameLines, hn, if_true]
  rfl

/-- The octets that a frame may let rest when it has moved: its old place and its own (R94). -/
def octetsLeft (s : State) (src : Nat) : List Nat :=
  ((lookup s.redirects src).toList ++ [src]).map (fun f => octetOf (f * frameBytes))

theorem exec_frameLineMove_last (hp : paused s = false) (hm : s.moves.find? (·.src == src) = some m)
    (hn : 8192 ≤ m.next + 1) : exec (.frameLineMove src) s
      = .next ((octetsLeft s src).foldl maySleep { moveToken s (src * frameLines + m.next) with
          moves := s.moves.filter (·.src != src), redirects := put s.redirects src m.dst }) := by
  show execFrameLineMove src s = _
  simp only [execFrameLineMove, hm, hp, Bool.false_eq_true, if_false, frameLines, Nat.not_lt.mpr hn]
  rfl

end

/-! ## Error-rate windows (R66 to R68) -/

@[simp] theorem addLog_mem (s : State) (r : LogRec) : (addLog s r).mem = s.mem := by
  obtain ⟨l, d, w, h⟩ := addLog_eq s r
  rw [h]

@[simp] theorem addLog_owners (s : State) (r : LogRec) : (addLog s r).owners = s.owners := by
  obtain ⟨l, d, w, h⟩ := addLog_eq s r
  rw [h]

theorem windowOf1_mem (s : State) (e : ErrRate) : (windowOf1 s e).mem = s.mem := by
  unfold windowOf1
  dsimp only
  split_ifs
  · rfl
  · exact addLog_mem _ _

theorem exec_errorRateWindow {s : State} (hacc : accepting s = true) (hdue : s.errAt + 140000000 ≤ s.fab) :
    exec .errorRateWindow s = .next { s.errs.foldl windowOf1 s with
      errs := (s.errs.foldl windowOf1 s).errs.map (fun e => { e with count := 0 }),
      errAt := (s.errs.foldl windowOf1 s).errAt + errPeriod } := by
  show execErrorRateWindow s = _
  unfold execErrorRateWindow
  rw [if_neg (by simp [hacc, errPeriod, Nat.not_lt.mpr hdue])]

/-- An owner that a structure concerns, and whose limit its rate exceeds, is advised (R66, R67). -/
theorem owner?_windowOf1 {s : State} {e : ErrRate} {o : Nat} {w : Owner} (hl : e.last = none) (hw : owner? s o = some w)
    (hc : concerns w e = true) (hr : limitOf w e.kind < e.count * 10) :
    owner? (windowOf1 s e) o = some (advise w e.kind) := by
  have hhit : (concerns w e && decide (limitOf w e.kind < e.count * 10)) = true := by simp [hc, hr]
  have hany : s.owners.any (fun p => concerns p.2 e && decide (limitOf p.2 e.kind < e.count * 10)) = true :=
    List.any_eq_true.mpr ⟨(o, w), mem_of_lookup hw, hhit⟩
  have hread := lookup_map (addLog s { blankLog with kind := 4, item := e.kind * 256 + e.index, aux := e.count * 10 }).owners
    (fun x => if (concerns x e && decide (limitOf x e.kind < e.count * 10)) = true then advise x e.kind else x) o
  rw [addLog_owners, show lookup s.owners o = some w from hw, Option.map_some, if_pos hhit] at hread
  unfold windowOf1
  simp only [hl, hany, Bool.or_true, Bool.not_true, Bool.or_false, Bool.false_eq_true, if_false]
  simpa only [owner?, addLog_owners] using hread

end Sys2Proof.Machine
end

section
/-!
SUPPORT. Rules of single faults (R78), of shipments (R112), of the ends of migrations (R132 to R135) and of reclaim walks
(R221).
-/

namespace Sys2Proof.Machine

/-! ## Single faults (R78) -/

/-- A fault that stays in its structure does nothing besides its record. -/
theorem oneFault_lasting {p : FaultPlace} (s : State) (h : lasting p = true) : oneFault s p = s := by
  cases p with
  | transBuf o j | engineArray o c | switchRec r | saveCopy copy die line => cases h
  | _ => rfl

/-- The state that differs from another in its log and its counts of errors alone. -/
def SameButLog (s u : State) : Prop := ∃ e l d w, u = { s with errs := e, log := l, dropped := d, logWait := w }

theorem sameButLog_refl (s : State) : SameButLog s s := ⟨s.errs, s.log, s.dropped, s.logWait, rfl⟩

theorem SameButLog.countErr {s u : State} (h : SameButLog s u) (kind index n : Nat) : SameButLog s (countErr u kind index n) := by
  obtain ⟨e, l, d, w, rfl⟩ := h
  obtain ⟨e', h'⟩ := countErr_eq { s with errs := e, log := l, dropped := d, logWait := w } kind index n
  exact ⟨e', l, d, w, h'⟩

theorem SameButLog.addLog {s u : State} (h : SameButLog s u) (r : LogRec) : SameButLog s (addLog u r) := by
  obtain ⟨e, l, d, w, rfl⟩ := h
  obtain ⟨l', d', w', h'⟩ := addLog_eq { s with errs := e, log := l, dropped := d, logWait := w } r
  exact ⟨e, l', d', w', h'⟩

section
variable {s : State} {p : FaultPlace}

/-- A first fault of a lasting place is masked: it stands at its place, and beside it only the log and the counts of errors
have changed (R66, R78). -/
theorem exec_singleFault_first (hsite : (faultSite s (wholeBlock p)).isSome = true) (hlast : lasting (wholeBlock p) = true)
    (hnew : wholeBlock p ∉ s.flips) :
    ∃ v, SameButLog s v ∧ exec (.singleFault p) s = .next { v with flips := wholeBlock p :: v.flips } := by
  obtain ⟨⟨pl, o⟩, hs⟩ := Option.isSome_iff_exists.mp hsite
  show ∃ v, SameButLog s v ∧ execSingleFault p s = _
  unfold execSingleFault
  simp only [hs]
  rw [if_neg (by simp [hnew])]
  simp only [oneFault_lasting _ hlast, hlast, if_true]
  refine ⟨_, ?_, rfl⟩
  split
  · refine SameButLog.addLog ?_ _
    split
    · exact (sameButLog_refl s).countErr _ _ _
    · exact sameButLog_refl s
  · split
    · exact (sameButLog_refl s).countErr _ _ _
    · exact sameButLog_refl s

/-- A second fault of a lasting place is detected: the structure's uncorrectable error, and its record (R63, R78). -/
theorem exec_singleFault_second (hsite : (faultSite s (wholeBlock p)).isSome = true) (hlast : lasting (wholeBlock p) = true)
    (hold : wholeBlock p ∈ s.flips) : ∃ r, exec (.singleFault p) s
      = .next (addLog (twoFaults { s with flips := s.flips.filter (· != wholeBlock p) } (wholeBlock p)) r) := by
  obtain ⟨⟨pl, o⟩, hs⟩ := Option.isSome_iff_exists.mp hsite
  have hyes : (lasting (wholeBlock p) && s.flips.contains (wholeBlock p)) = true := by simp [hlast, hold]
  show ∃ r, execSingleFault p s = _
  unfold execSingleFault
  simp only [hs, hyes, if_true]
  exact ⟨_, rfl⟩

end

@[simp] theorem addLog_spad (s : State) (r : LogRec) : (addLog s r).spad = s.spad := by
  obtain ⟨l, d, w, h⟩ := addLog_eq s r
  rw [h]

@[simp] theorem markAt_addLog (s : State) (r : LogRec) (p : Spot) : markAt (addLog s r) p = markAt s p := by
  obtain ⟨l, d, w, h⟩ := addLog_eq s r
  rw [h]
  rfl

theorem markAt_setMark_mem (s : State) (pa m : Nat) : markAt (setMark s (.mem (pa / 64 * 64)) m) (.mem pa) = m := by
  have h : pa / 64 * 64 / 64 = pa / 64 := by omega
  simp [markAt, setMark, h]

theorem markAt_setMark_spad (s : State) (o j off : Nat) {m : Nat} (h : m ≠ 0) :
    markAt (setMark s (.spad o j off) m) (.spad o j off) = 3 := by
  simp [markAt, setMark, h]

/-- A block of device memory lies in the range of each of its bytes (R20). -/
theorem rangeOf_block {pa : Nat} (h : rangeOf pa = .hbm) : rangeOf (pa / 64 * 64) = .hbm := by
  have hlow : pa < 16 * stackSpan ∧ pa % stackSpan < stackUse := by
    unfold rangeOf at h
    split at h
    case isTrue h1 =>
      split at h
      case isTrue h2 => exact ⟨h1, h2⟩
      case isFalse => cases h
    case isFalse => split_ifs at h
  have hblock : pa / 64 * 64 < 16 * stackSpan ∧ pa / 64 * 64 % stackSpan < stackUse := by
    simp only [stackSpan, stackUse] at hlow ⊢
    omega
  unfold rangeOf
  rw [if_pos hblock.1, if_pos hblock.2]

theorem wholeBlock_of_aligned {p : FaultPlace} (h : ∀ pa, p = .hbm pa → pa % 64 = 0) : wholeBlock p = p := by
  cases p with
  | hbm pa =>
    have := h pa rfl
    simp only [wholeBlock, FaultPlace.hbm.injEq]
    omega
  | _ => rfl

/-! ## Shipments (R112) -/

/-- The better of a candidate and the best so far: the smaller load, of equal ones the first. -/
def lesser (b : Option (Nat × Nat)) (x : Nat × Nat) : Option (Nat × Nat) :=
  match b with
  | some y => if x.2 < y.2 then some x else some y
  | none => some x

/-- The best of a list is one of it, or what there was, and none of it is better. -/
theorem foldl_lesser {l : List (Nat × Nat)} {b : Option (Nat × Nat)} {y : Nat × Nat} (h : l.foldl lesser b = some y) :
    (y ∈ l ∨ b = some y) ∧ (∀ x ∈ l, y.2 ≤ x.2) ∧ ∀ z, b = some z → y.2 ≤ z.2 := by
  induction l generalizing b with
  | nil => exact ⟨.inr h, by simp, fun z hz => by rw [Option.some.inj (h.symm.trans hz)]⟩
  | cons a l ih =>
    obtain ⟨hmem, hle, hacc⟩ := ih h
    cases b with
    | none =>
      have ha := hacc a rfl
      refine ⟨.inl ?_, ?_, by simp⟩
      · rcases hmem with hm | hm
        · exact List.mem_cons_of_mem _ hm
        · exact (Option.some.inj hm) ▸ List.mem_cons_self
      · exact List.forall_mem_cons.mpr ⟨ha, hle⟩
    | some z =>
      by_cases hz : a.2 < z.2
      · have hlz : lesser (some z) a = some a := if_pos hz
        have ha := hacc a hlz
        refine ⟨?_, List.forall_mem_cons.mpr ⟨ha, hle⟩, ?_⟩
        · rcases hmem with hm | hm
          · exact .inl (List.mem_cons_of_mem _ hm)
          · exact .inl ((Option.some.inj (hlz.symm.trans hm)) ▸ List.mem_cons_self)
        · intro z' hz'
          obtain rfl := Option.some.inj hz'
          omega
      · have hlz : lesser (some z) a = some z := if_neg hz
        have hyz := hacc z hlz
        refine ⟨?_, List.forall_mem_cons.mpr ⟨by omega, hle⟩, ?_⟩
        · rcases hmem with hm | hm
          · exact .inl (List.mem_cons_of_mem _ hm)
          · exact .inr (hlz.symm.trans hm)
        · intro z' hz'
          obtain rfl := Option.some.inj hz'
          exact hyz

theorem takeTops_length (n : Nat) (cs : List Cursor) : (takeTops n cs).1.length ≤ n := by
  induction n generalizing cs with
  | zero => exact Nat.le_refl 0
  | succ n ih =>
    unfold takeTops
    split
    · exact Nat.zero_le _
    · exact Nat.succ_le_succ (ih _)

/-- The neighbours of a core that exist, with their loads. -/
def loadsAround (s : State) (o : Nat) (w : Owner) (j : Nat) : List (Nat × Nat) :=
  (neighbours w j).filterMap (fun k => (core? s o k).map (fun x => (k, loadOf x)))

theorem mem_loadsAround {s : State} {o j k m : Nat} {w : Owner} :
    (k, m) ∈ loadsAround s o w j ↔ k ∈ neighbours w j ∧ ∃ x, core? s o k = some x ∧ m = loadOf x := by
  unfold loadsAround
  rw [List.mem_filterMap]
  constructor
  · rintro ⟨k', hk', h⟩
    obtain ⟨x, hx, hkm⟩ := Option.map_eq_some_iff.mp h
    obtain ⟨rfl, rfl⟩ := Prod.mk.inj hkm
    exact ⟨hk', x, hx, rfl⟩
  · rintro ⟨hk, x, hx, rfl⟩
    exact ⟨k, hk, by rw [hx]; rfl⟩

/-- What a core ships is at most 32 entries and at most half of what its load exceeds that of its least-loaded neighbour
by, the receiver (R112). -/
theorem shipment_some {s : State} {o j k : Nat} {w : Owner} {es : List WorkEnt} {c' : Core}
    (h : shipment s o w j = some (k, es, c')) : k ∈ neighbours w j ∧ ∃ c x, core? s o j = some c ∧
      core? s o k = some x ∧ loadOf x + 2 ≤ loadOf c ∧ es.length ≤ 32 ∧ es.length ≤ (loadOf c - loadOf x) / 2 ∧
      ∀ k' ∈ neighbours w j, ∀ y, core? s o k' = some y → loadOf x ≤ loadOf y := by
  unfold shipment at h
  split at h
  case h_1 => cases h
  case h_2 c hc =>
    dsimp only at h
    split at h
    case h_1 => cases h
    case h_2 k1 m hbest =>
      obtain ⟨hmem, hle, -⟩ := foldl_lesser (l := loadsAround s o w j) (b := none) hbest
      split at h
      case isTrue => cases h
      case isFalse hload =>
        injection h with h
        obtain ⟨rfl, rfl, -⟩ := h
        have hin : (k, m) ∈ loadsAround s o w j := hmem.resolve_right (by simp)
        obtain ⟨hk, x, hx, rfl⟩ := mem_loadsAround.mp hin
        have hold : (c.work.take (Nat.min 32 ((loadOf c - loadOf x) / 2))).length ≤ Nat.min 32 ((loadOf c - loadOf x) / 2) :=
          List.length_take_le _ _
        have htop := takeTops_length (Nat.min 32 ((loadOf c - loadOf x) / 2)
          - (c.work.take (Nat.min 32 ((loadOf c - loadOf x) / 2))).length) c.cursors
        have h32 : Nat.min 32 ((loadOf c - loadOf x) / 2) ≤ 32 := Nat.min_le_left _ _
        have hhalf : Nat.min 32 ((loadOf c - loadOf x) / 2) ≤ (loadOf c - loadOf x) / 2 := Nat.min_le_right _ _
        refine ⟨hk, c, x, hc, hx, by omega, ?_, ?_, ?_⟩
        · rw [List.length_append]
          omega
        · rw [List.length_append]
          omega
        · intro k' hk' y hy
          exact hle (k', loadOf y) (mem_loadsAround.mpr ⟨hk', y, hy, rfl⟩)

/-- A balancing interval of the package begins where the last one ended (R109). -/
theorem exec_balancingInterval {s : State} (hp : paused s = false) (hdue : s.balanceAt + 4096 ≤ s.fab) :
    exec .balancingInterval s
      = .next ((s.owners.map (·.1)).foldl balanceAll { s with balanceAt := s.balanceAt + balancePeriod }) := by
  have hnow : ¬ s.fab < s.balanceAt + balancePeriod := Nat.not_lt.mpr hdue
  show execBalancingInterval s = _
  simp only [execBalancingInterval, hp, Bool.false_eq_true, if_false, hnow]

/-! ## Thread migration (R132, R133) -/

/-- Values written to consecutive registers of a window, from the n-th on. -/
def writeRun {α : Type} [DecidableEq α] (d : α) (key : Nat → Nat) (l : List α) (n : Nat) (m : SMap α) : SMap α :=
  (l.zipIdx n).foldl (fun m x => setD d m (key x.2) x.1) m

section
variable {α : Type} [DecidableEq α] {d : α} {key : Nat → Nat}

theorem getD_writeRun_before (hkey : Function.Injective key) (l : List α) {i n : Nat} (h : i < n) (m : SMap α) :
    getD d (writeRun d key l n m) (key i) = getD d m (key i) := by
  induction l generalizing n m with
  | nil => rfl
  | cons a l ih =>
    have hne : key i ≠ key n := fun he => absurd (hkey he) (by omega)
    exact (ih (by omega) _).trans (getD_setD_ne d m a hne)

/-- A run reads back as it was written. -/
theorem getD_writeRun (hkey : Function.Injective key) (l : List α) (n : Nat) (m : SMap α) {i : Nat} (h : i < l.length) :
    getD d (writeRun d key l n m) (key (n + i)) = l[i] := by
  induction l generalizing n m i with
  | nil => cases h
  | cons a l ih =>
    cases i with
    | zero => exact (getD_writeRun_before hkey l (Nat.lt_succ_self n) _).trans (getD_setD_self d m (key n) a)
    | succ i =>
      have hi : n + (i + 1) = n + 1 + i := by omega
      rw [hi]
      exact ih (n + 1) (setD d m (key n) a) (Nat.lt_of_succ_lt_succ h)

end

section
variable {s : State} {t : Thread} {j gb vb sl : Nat}

theorem moveWindows_gfile (s : State) (t : Thread) (j gb vb : Nat) : (moveWindows s t j gb vb).gfile
    = writeRun 0 (fun i => gKey t.o j (gb + i))
        ((List.range t.gsize).map (fun i => getD 0 s.gfile (gKey t.o t.core (t.gbase + i)))) 0
      (clearRange s.gfile (gKey t.o t.core t.gbase) t.gsize) := rfl

theorem moveWindows_vfile (s : State) (t : Thread) (j gb vb : Nat) : (moveWindows s t j gb vb).vfile
    = writeRun 0 (fun i => vKey t.o j (vb + i))
        ((List.range t.vsize).map (fun i => getD 0 s.vfile (vKey t.o t.core (t.vbase + i)))) 0
      (clearRange s.vfile (vKey t.o t.core t.vbase) t.vsize) := rfl

/-- The windows of a thread that moves take their values with them (R132). -/
theorem getD_moveWindows_gfile {i : Nat} (h : i < t.gsize) :
    getD 0 (moveWindows s t j gb vb).gfile (gKey t.o j (gb + i)) = getD 0 s.gfile (gKey t.o t.core (t.gbase + i)) := by
  have hinj : Function.Injective (fun i => gKey t.o j (gb + i)) := fun a b hab => by
    simp only [gKey] at hab
    omega
  have hrun := getD_writeRun (d := (0 : Word)) hinj
    ((List.range t.gsize).map (fun i => getD 0 s.gfile (gKey t.o t.core (t.gbase + i)))) 0
    (clearRange s.gfile (gKey t.o t.core t.gbase) t.gsize) (i := i) (by simpa using h)
  rw [moveWindows_gfile]
  simpa using hrun

theorem getD_moveWindows_vfile {i : Nat} (h : i < t.vsize) :
    getD 0 (moveWindows s t j gb vb).vfile (vKey t.o j (vb + i)) = getD 0 s.vfile (vKey t.o t.core (t.vbase + i)) := by
  have hinj : Function.Injective (fun i => vKey t.o j (vb + i)) := fun a b hab => by
    simp only [vKey] at hab
    omega
  have hrun := getD_writeRun (d := (0 : Vec)) hinj
    ((List.range t.vsize).map (fun i => getD 0 s.vfile (vKey t.o t.core (t.vbase + i)))) 0
    (clearRange s.vfile (vKey t.o t.core t.vbase) t.vsize) (i := i) (by simpa using h)
  rw [moveWindows_vfile]
  simpa using hrun

/-- A thread at the place to which it has migrated (R132, R133). -/
def movedThread (t : Thread) (j sl gb vb : Nat) : Thread :=
  { t with core := j, slot := sl, gbase := gb, vbase := vb, mig := none, due := none, relDue := 0,
           streams := t.streams.map (fun x => { x with fetched := [], dues := [] }),
           redirect := !(j == tidCore t.tid && sl == tidSlot t.tid) }

@[simp] theorem dropL1_threads (s : State) (o i : Nat) : (dropL1 s o i).threads = s.threads := rfl
@[simp] theorem dropL1_fab (s : State) (o i : Nat) : (dropL1 s o i).fab = s.fab := rfl
@[simp] theorem dropL1_mem (s : State) (o i : Nat) : (dropL1 s o i).mem = s.mem := rfl
@[simp] theorem dropL1_spad (s : State) (o i : Nat) : (dropL1 s o i).spad = s.spad := rfl
@[simp] theorem dropL1_gfile (s : State) (o i : Nat) : (dropL1 s o i).gfile = s.gfile := rfl
@[simp] theorem dropL1_vfile (s : State) (o i : Nat) : (dropL1 s o i).vfile = s.vfile := rfl

/-- What a thread that moves leaves behind: its windows moved, both cores' L1s empty (R132). -/
def windowsMoved (s : State) (t : Thread) (j gb vb : Nat) : State :=
  dropL1 (dropL1 (moveWindows s t j gb vb) t.o t.core) t.o j

/-- The requests of a thread that moves: its stream fetches are withdrawn, the others answer to its new core (R132). -/
def trafficMoved (s : State) (t : Thread) (j : Nat) : State :=
  { s with reqs := (s.reqs.filter (fun r => !(r.o == t.o && r.tid == t.tid && !r.kind.isAccess))).map (fun r =>
      if r.o = t.o ∧ r.tid = t.tid then { r with core := j } else r) }

@[simp] theorem trafficMoved_threads (s : State) (t : Thread) (i : Nat) : (trafficMoved s t i).threads = s.threads := rfl
@[simp] theorem trafficMoved_mem (s : State) (t : Thread) (i : Nat) : (trafficMoved s t i).mem = s.mem := rfl
@[simp] theorem trafficMoved_spad (s : State) (t : Thread) (i : Nat) : (trafficMoved s t i).spad = s.spad := rfl
@[simp] theorem trafficMoved_gfile (s : State) (t : Thread) (i : Nat) : (trafficMoved s t i).gfile = s.gfile := rfl
@[simp] theorem trafficMoved_vfile (s : State) (t : Thread) (i : Nat) : (trafficMoved s t i).vfile = s.vfile := rfl
@[simp] theorem moveWindows_threads (s : State) (t : Thread) (i gb vb : Nat) :
    (moveWindows s t i gb vb).threads = s.threads := rfl
@[simp] theorem moveWindows_mem (s : State) (t : Thread) (i gb vb : Nat) : (moveWindows s t i gb vb).mem = s.mem := rfl
@[simp] theorem moveWindows_spad (s : State) (t : Thread) (i gb vb : Nat) : (moveWindows s t i gb vb).spad = s.spad := rfl

theorem migrate_eq (s : State) (t : Thread) (j sl gb vb : Nat) : migrate s t j sl gb vb
    = onThr (trafficMoved (windowsMoved s t j gb vb) t j) t.o t.tid (fun x => movedThread x j sl gb vb) := by
  unfold migrate trafficMoved windowsMoved movedThread
  rfl

theorem thr?_migrate (h : thr? s t.o t.tid = some t) :
    thr? (migrate s t j sl gb vb) t.o t.tid = some (movedThread t j sl gb vb) := by
  have hsame : thr? (trafficMoved (windowsMoved s t j gb vb) t j) t.o t.tid = some t := by
    simpa [thr?, windowsMoved] using h
  rw [migrate_eq, thr?_onThr, hsame]
  rfl

theorem migrate_mem (s : State) (t : Thread) (j sl gb vb : Nat) : (migrate s t j sl gb vb).mem = s.mem := by
  simp [migrate_eq, windowsMoved]

theorem migrate_spad (s : State) (t : Thread) (j sl gb vb : Nat) : (migrate s t j sl gb vb).spad = s.spad := by
  simp [migrate_eq, windowsMoved]

theorem migrate_gfile (s : State) (t : Thread) (j sl gb vb : Nat) :
    (migrate s t j sl gb vb).gfile = (moveWindows s t j gb vb).gfile := by
  simp [migrate_eq, windowsMoved]

theorem migrate_vfile (s : State) (t : Thread) (j sl gb vb : Nat) :
    (migrate s t j sl gb vb).vfile = (moveWindows s t j gb vb).vfile := by
  simp [migrate_eq, windowsMoved]

theorem readG_migrate {r : GReg} (h : r.toNat < t.gsize) :
    readG (migrate s t j sl gb vb) (movedThread t j sl gb vb) r = readG s t r := by
  by_cases hr : r = 0
  · simp [readG, hr]
  · simp only [readG, hr, if_false, migrate_gfile]
    exact getD_moveWindows_gfile h

theorem readV_migrate {r : VReg} (h : r.toNat < t.vsize) :
    readV (migrate s t j sl gb vb) (movedThread t j sl gb vb) r = readV s t r := by
  simp only [readV, migrate_vfile]
  exact getD_moveWindows_vfile h

end

theorem exec_threadMigrationDone {s : State} {o tid : Nat} {t : Thread} {j sl gb vb : Nat} (ht : thr? s o tid = some t)
    (hmig : t.mig = some (j, sl, gb, vb)) (hp : paused s = false) (hm : mayMove s o tid = true) :
    exec (.threadMigrationDone o tid) s = .next (migrate s t j sl gb vb) := by
  show execThreadMigrationDone o tid s = _
  simp [execThreadMigrationDone, ht, hmig, hp, hm]

/-! ## Core migration (R134, R135) -/

theorem core?_dropL1 (s : State) (o j : Nat) : core? (dropL1 s o j) o j = (core? s o j).map (fun c => { c with l1 := [] }) :=
  core?_onCore s o j _

theorem core?_dropL1_ne (s : State) (o : Nat) {i j : Nat} (h : i ≠ j) : core? (dropL1 s o j) o i = core? s o i :=
  core?_onCore_ne s o _ h

section
variable {s : State} {o j k : Nat} {w : Owner} {a b : Place}

/-- The owner with the places of two of its cores exchanged (R134). -/
def exchanged (w : Owner) (j k : Nat) (a b : Place) : Owner :=
  { w with map := (w.map.set j { b with mv := false }).set k { a with mv := false }, exch := drop (drop w.exch j) k }

/-- The exchange of two cores' places, with their L1s emptied (R134). -/
def placesExchanged (s : State) (o j k : Nat) (a b : Place) : State :=
  onOwner (dropL1 (dropL1 s o j) o k) o (fun w => exchanged w j k a b)

theorem owner?_onCore (s : State) (o j : Nat) (f : Core → Core) (i : Nat) : owner? (onCore s o j f) i = owner? s i := rfl

theorem owner?_dropL1 (s : State) (o j i : Nat) : owner? (dropL1 s o j) i = owner? s i := rfl

theorem placesExchanged_fab (s : State) (o j k : Nat) (a b : Place) : (placesExchanged s o j k a b).fab = s.fab := by
  simp [placesExchanged]

theorem owner?_placesExchanged (s : State) (o j k : Nat) (a b : Place) :
    owner? (placesExchanged s o j k a b) o = (owner? s o).map (fun w => exchanged w j k a b) := by
  rw [placesExchanged, owner?_onOwner, owner?_dropL1, owner?_dropL1]

/-- What a core forwards (R135). -/
def forwardsOf (s : State) (o i : Nat) : List Forward :=
  match core? s o i with
  | some c => c.forwards
  | none => []

/-- A core that has left its tile to core i: the entry stands for 1 ms (R135). -/
def forwardsTo (fab i : Nat) (l : List Forward) (c : Core) : Core :=
  { c with forwards := ⟨i, fab + forwardLife⟩ :: l.filter (·.index != i) }

theorem exec_coreMigrationDone (hw : owner? s o = some w) (hpart : partnerOf w j = some k) (ha : w.map[j]? = some a)
    (hb : w.map[k]? = some b) (hmv : a.mv = true) : exec (.coreMigrationDone o j) s
      = .next (let u := placesExchanged s o j k a b
          onCore (onCore u o j (forwardsTo u.fab k (forwardsOf u o k))) o k (forwardsTo u.fab j (forwardsOf u o j))) := by
  have haj : w.map.getD j ⟨0, 0, 0, false⟩ = a := by simp [List.getD_eq_getElem?_getD, ha]
  have hbk : w.map.getD k ⟨0, 0, 0, false⟩ = b := by simp [List.getD_eq_getElem?_getD, hb]
  have hpl : placeOf s o j = a := by simp only [placeOf, hw, haj]
  show execCoreMigrationDone o j s = _
  simp only [execCoreMigrationDone, hw, hpl, hmv, Bool.not_true, Bool.false_eq_true, if_false, hpart, haj, hbk]
  rfl

/-- The core that has moved: its L1 is empty, and it forwards to where it was (R134, R135). -/
theorem core?_placesExchanged {c : Core} (hc : core? s o j = some c) (hjk : j ≠ k) (f g : Core → Core) :
    core? (onCore (onCore (placesExchanged s o j k a b) o j f) o k g) o j = some (f { c with l1 := [] }) := by
  rw [core?_onCore_ne _ _ _ hjk, core?_onCore]
  show (core? (dropL1 (dropL1 s o j) o k) o j).map f = _
  rw [core?_dropL1_ne _ _ hjk, core?_dropL1, hc]
  rfl

end

/-! ## Reclaim walks (R221) -/

section
variable {s : State} {o j : Nat} {w : Owner} {c : Core}

theorem exec_reclaimWalk_begin {q : Reclaim} {rest : List Reclaim} (hw : owner? s o = some w) (hc : core? s o j = some c)
    (hr : c.reclaim = q :: rest) (hs : stopped s o = false) (hmv : (placeOf s o j).mv = false) (hq : q.begun = false) :
    exec (.reclaimWalk o j) s
      = .next (onCore s o j (fun c => { c with reclaim := { q with begun := true } :: c.reclaim.drop 1 })) := by
  show execReclaimWalk o j s = _
  simp [execReclaimWalk, hw, hc, hr, hs, hmv, hq]

theorem exec_reclaimWalk_scan (hw : owner? s o = some w) (hc : core? s o j = some c) (hr : c.reclaim = [])
    (hs : stopped s o = false) (hmv : (placeOf s o j).mv = false) (hscan : c.scan = true) :
    exec (.reclaimWalk o j) s = .next (onCore s o j (fun c => { c with reclaim := scanFound s w j, scan := false })) := by
  show execReclaimWalk o j s = _
  simp [execReclaimWalk, hw, hc, hr, hs, hmv, hscan]

/-- A walk that has ended leaves the list. -/
def walkEnded (u : State) (o j : Nat) (q : Reclaim) : State :=
  onCore u o j (fun c => { c with reclaim := c.reclaim.filter (fun x => !(x.set == q.set && x.ent == q.ent)) })

theorem exec_reclaimChildAck {q : Reclaim} {rest : List Reclaim} {u : State} {more : Bool} (hw : owner? s o = some w)
    (hc : core? s o j = some c) (hr : c.reclaim = q :: rest) (hs : stopped s o = false) (hmv : (placeOf s o j).mv = false)
    (hq : q.begun = true) (hu : reclaimStep s w o q = (u, more)) :
    exec (.reclaimChildAck o j) s = .next (if more then u else walkEnded u o j q) := by
  show execReclaimChildAck o j s = _
  simp only [execReclaimChildAck, hw, hc, hr, hs, hmv, hq, hu]
  cases more <;> rfl

theorem walkEnded_gone (u : State) (o j : Nat) (q : Reclaim) :
    ∀ c', core? (walkEnded u o j q) o j = some c' → ∀ x ∈ c'.reclaim, x.set = q.set → x.ent ≠ q.ent := by
  intro c' hc' x hx hset hent
  unfold walkEnded at hc'
  rw [core?_onCore] at hc'
  obtain ⟨c, -, rfl⟩ := Option.map_eq_some_iff.mp hc'
  have := (List.mem_filter.mp hx).2
  simp [hset, hent] at this

end

end Sys2Proof.Machine
end

section
/-!
The settling of StewardAndFaults: one lemma for each event that changes more than one field, and their assembly.
-/

namespace Sys2Proof.Machine

section
variable {s : State}

/-- The end of a governor window (R87 to R89). -/
theorem governorWindow_ends {die col : Nat} (h : windowOver s ⟨die, col, 0, false⟩ = true) :
    let p : Place := ⟨die, col, 0, false⟩
    let e := engineAt s p
    let d := getD slopeReset s.slopes die
    ∃ u, exec (.governorWindow die col) s = .next u ∧ u.mem = s.mem ∧
      (engineAt u p).prev = max e.used (e.prev - d) ∧ (engineAt u p).used = 0 ∧ (engineAt u p).winCyc = 0 ∧
      (engineAt u p).winAt = s.fab ∧ (engineAt u p).budget = e.nextBudget ∧ u.clusters = s.clusters ∧
      (e.prev - d ≤ e.used → u.owners = s.owners ∧ (engineAt u p).payer = none ∧ (engineAt u p).rampAt = none) ∧
      ∀ o w, e.used < e.prev - d → e.payer.or (posAt s die col).own = some o → owner? s o = some w →
        owner? u o = some { w with energy := w.energy + (e.prev - d - e.used) * Config.ballastEnergy die col } := by
  intro p e d
  have heng := engineAt_windowCharged s die col (e.prev - d - e.used) (payerOf s die col (e.prev - d - e.used))
  refine ⟨_, exec_governorWindow h, windowCharged_mem _ _ _ _ _, ?_, ?_, ?_, ?_, ?_, windowCharged_clusters _ _ _ _ _, ?_, ?_⟩
  · rw [heng]
    show e.used + (e.prev - d - e.used) = max e.used (e.prev - d)
    omega
  · rw [heng]
    rfl
  · rw [heng]
    rfl
  · rw [heng]
    rfl
  · rw [heng]
    rfl
  · intro hle
    have hn : e.prev - d - e.used = 0 := by omega
    rw [hn] at heng ⊢
    rw [heng]
    exact ⟨rfl, rfl, rfl⟩
  · intro o w hlt hpay hw
    have hp : payerOf s die col (e.prev - d - e.used) = some o := (if_neg (by omega)).trans hpay
    rw [hp]
    exact owner?_windowCharged hw

/-- A frame move starts (R92, R93). -/
theorem frameMove_starts {src dst : Nat} (hp : paused s = false) (hs : frameInHbm src = true) (hd : frameInHbm dst = true)
    (hoct : octetOf (src * frameBytes) ≠ octetOf (dst * frameBytes)) (hus : frameUsed s src = true)
    (hud : frameUsed s dst = false) (ht : frameTaken s dst = false) (hm : ∀ m ∈ s.moves, m.src ≠ src) :
    ∃ u, exec (.frameMove src dst) s = .next u ∧ u.moves = s.moves ++ [⟨src, dst, 0⟩] ∧ u.mem = s.mem :=
  ⟨_, exec_frameMove hp hs hd hoct hus hud ht hm, wakeOctets_moves _ _ _, wakeOctets_mem _ _ _⟩

theorem foldl_maySleep_mem (l : List Nat) (u : State) : (l.foldl maySleep u).mem = u.mem := foldl_keeps (·.mem) maySleep_mem l u
theorem foldl_maySleep_moves (l : List Nat) (u : State) : (l.foldl maySleep u).moves = u.moves :=
  foldl_keeps (·.moves) maySleep_moves l u
theorem foldl_maySleep_redirects (l : List Nat) (u : State) : (l.foldl maySleep u).redirects = u.redirects :=
  foldl_keeps (·.redirects) maySleep_redirects l u

/-- A line of a frame moves, and after the last the frame's redirect stands (R93). -/
theorem frameLineMove_steps {src : Nat} {m : FrameRun} (hp : paused s = false)
    (hm : s.moves.find? (·.src == src) = some m) : ∃ u, exec (.frameLineMove src) s = .next u ∧ u.mem = s.mem ∧
      (m.next + 1 < 8192 → u.redirects = s.redirects ∧ u.moves.find? (·.src == src) = some { m with next := m.next + 1 }) ∧
      (8192 ≤ m.next + 1 → lookup u.redirects src = some m.dst ∧ ∀ x ∈ u.moves, x.src ≠ src) := by
  by_cases hn : m.next + 1 < 8192
  · exact ⟨_, exec_frameLineMove_line hp hm hn, rfl,
      fun _ => ⟨rfl, find_lineMoved hm⟩, fun h => absurd hn (Nat.not_lt.mpr h)⟩
  · refine ⟨_, exec_frameLineMove_last hp hm (Nat.le_of_not_lt hn),
      foldl_maySleep_mem _ _, fun h => absurd h hn, fun _ => ⟨?_, ?_⟩⟩
    · rw [foldl_maySleep_redirects]
      exact lookup_put_self _ _ _
    · rw [foldl_maySleep_moves]
      intro x hx
      simpa using (List.mem_filter.mp hx).2

/-- An error-rate window ends: counts begin again at zero (R66). -/
theorem errorRateWindow_ends (hacc : accepting s = true) (hdue : s.errAt + 140000000 ≤ s.fab) : ∃ u,
    exec .errorRateWindow s = .next u ∧
      u.errAt = s.errAt + 140000000 ∧ (∀ e ∈ u.errs, e.count = 0) ∧ u.mem = s.mem := by
  refine ⟨_, exec_errorRateWindow hacc hdue, ?_, ?_, foldl_keeps (·.mem) windowOf1_mem s.errs s⟩
  · have h : (s.errs.foldl windowOf1 s).errAt = s.errAt :=
      congrArg Stage.errAt (foldl_keeps stageOf stageOf_windowOf1 s.errs s)
    exact congrArg (· + errPeriod) h
  · intro e he
    obtain ⟨e', -, rfl⟩ := List.mem_map.mp he
    rfl

/-- A patrol pass masks the single faults that stand but those of the stacks (R78). -/
theorem patrolScrub_masks (hdue : s.patrolAt + 22400000 ≤ s.fab) : ∃ u, exec .patrolScrub s = .next u ∧
    u.patrolAt = s.patrolAt + 22400000 ∧ u.mem = s.mem ∧ ∀ p ∈ u.flips, ∃ pa, p = .hbm pa := by
  refine ⟨_, if_neg (Nat.not_lt.mpr hdue), rfl, rfl, fun p hp => ?_⟩
  have hkept := (List.mem_filter.mp hp).2
  cases p with
  | hbm pa => exact ⟨pa, rfl⟩
  | _ => cases hkept

/-- A first fault of a place that lasts is masked and stands (R78). -/
theorem singleFault_masked {p : FaultPlace} (hsite : (faultSite s p).isSome = true) (hlast : lasting p = true)
    (hal : ∀ pa, p = .hbm pa → pa % 64 = 0) (hnew : p ∉ s.flips) : ∃ u, exec (.singleFault p) s = .next u ∧
      u.flips = p :: s.flips ∧ u.mem = s.mem ∧ u.threads = s.threads ∧ u.poison = s.poison ∧ u.spadPz = s.spadPz := by
  have hwhole := wholeBlock_of_aligned hal
  rw [← hwhole] at hsite hlast hnew
  obtain ⟨v, ⟨e, l, d, w, rfl⟩, hexec⟩ := exec_singleFault_first hsite hlast hnew
  exact ⟨_, hexec, by rw [hwhole], rfl, rfl, rfl, rfl⟩

/-- A second fault of a scratchpad block poisons it (R63, R78). -/
theorem singleFault_tileBlock {o j b : Nat} (hc : (core? s o j).isSome = true) (hold : FaultPlace.tileBlock o j b ∈ s.flips) :
    ∃ u, exec (.singleFault (.tileBlock o j b)) s = .next u ∧ markAt u (.spad o j (64 * b)) = 3 ∧ u.mem = s.mem ∧
      u.spad = s.spad := by
  have hsite : (faultSite s (wholeBlock (.tileBlock o j b))).isSome = true := by
    simpa [faultSite, wholeBlock, tileOf] using hc
  obtain ⟨r, hexec⟩ := exec_singleFault_second (p := .tileBlock o j b) hsite rfl hold
  refine ⟨_, hexec, ?_, addLog_mem _ _, addLog_spad _ _⟩
  rw [markAt_addLog]
  exact markAt_setMark_spad _ o j (64 * b) (by decide)

/-- A fault of a stack's block is masked once, and detected the second time (R63, R78). -/
theorem singleFault_hbm {pa : Nat} (hr : rangeOf pa = .hbm) : ∃ u,
     exec (.singleFault (.hbm pa)) s = .next u ∧ u.mem = s.mem ∧
    (FaultPlace.hbm (pa / 64 * 64) ∈ s.flips → markAt u (.mem pa) = 1) ∧
    (FaultPlace.hbm (pa / 64 * 64) ∉ s.flips → u.flips = .hbm (pa / 64 * 64) :: s.flips ∧ u.poison = s.poison) := by
  have hsite : (faultSite s (wholeBlock (.hbm pa))).isSome = true := by
    simp [faultSite, wholeBlock, rangeOf_block hr]
  by_cases hold : FaultPlace.hbm (pa / 64 * 64) ∈ s.flips
  · obtain ⟨r, hexec⟩ := exec_singleFault_second (p := .hbm pa) hsite rfl hold
    refine ⟨_, hexec, addLog_mem _ _, fun _ => ?_, fun h => absurd hold h⟩
    rw [markAt_addLog]
    exact markAt_setMark_mem _ pa 1
  · obtain ⟨v, ⟨e, l, d, w, rfl⟩, hexec⟩ := exec_singleFault_first (p := .hbm pa) hsite rfl hold
    exact ⟨_, hexec, rfl, fun h => absurd h hold, fun _ => ⟨rfl, rfl⟩⟩

/-- A thread that migrates keeps its registers, its place in the program and its status (R132). -/
theorem threadMigration_moves {o tid j sl gb vb : Nat} {t : Thread} (ht : thr? s o tid = some t) (ho : t.o = o)
    (htid : t.tid = tid) (hmig : t.mig = some (j, sl, gb, vb)) (hp : paused s = false) (hm : mayMove s o tid = true) :
    ∃ u t', exec (.threadMigrationDone o tid) s = .next u ∧
      thr? u o tid = some t' ∧ t'.core = j ∧ t'.slot = sl ∧ t'.gbase = gb ∧ t'.vbase = vb ∧ t'.mig = none ∧
      t'.pc = t.pc ∧ t'.status = t.status ∧ t'.masks = t.masks ∧ u.mem = s.mem ∧ u.spad = s.spad ∧
      (∀ r : GReg, r.toNat < t.gsize → readG u t' r = readG s t r) ∧
      ∀ r : VReg, r.toNat < t.vsize → readV u t' r = readV s t r := by
  have hexec := exec_threadMigrationDone ht hmig hp hm
  subst ho htid
  exact ⟨_, movedThread t j sl gb vb, hexec, thr?_migrate ht, rfl, rfl, rfl, rfl, rfl, rfl, rfl, rfl, migrate_mem _ _ _ _ _ _,
    migrate_spad _ _ _ _ _ _, fun _ => readG_migrate, fun _ => readV_migrate⟩

/-- Two cores exchange their tiles (R134, R135). -/
theorem coreMigration_exchanges {o j k : Nat} {w : Owner} {a b : Place} (hw : owner? s o = some w)
    (hpart : partnerOf w j = some k) (ha : w.map[j]? = some a) (hb : w.map[k]? = some b) (hmv : a.mv = true) :
    ∃ u w', exec (.coreMigrationDone o j) s = .next u ∧ owner? u o = some w' ∧
      w'.map = (w.map.set j { b with mv := false }).set k { a with mv := false } ∧ u.mem = s.mem ∧ u.threads = s.threads ∧
      ∀ c, core? s o j = some c → j ≠ k → ∃ c', core? u o j = some c' ∧ c'.l1 = [] ∧
        ⟨k, s.fab + 1400000⟩ ∈ c'.forwards := by
  refine ⟨_, exchanged w j k a b, exec_coreMigrationDone hw hpart ha hb hmv, ?_, rfl, ?_, ?_, fun c hc hjk => ?_⟩
  · rw [owner?_onCore, owner?_onCore, owner?_placesExchanged, hw]
    rfl
  · simp [placesExchanged]
  · simp [placesExchanged]
  · refine ⟨_, core?_placesExchanged hc hjk _ _, rfl, ?_⟩
    rw [← placesExchanged_fab s o j k a b]
    exact List.mem_cons_self

end

end Sys2Proof.Machine

open Sys2Proof Sys2Proof.Machine

/-- Settles O57, event by event. -/
theorem stewardAndFaults : Obligations.StewardAndFaults := by
  unfold Obligations.StewardAndFaults
  intro s
  refine ⟨?control, ?slots, ?governor, ?frame, ?line, ?window, ?advice, ?patrol, ?masked, ?block, ?stack, ?balance, ?ship, ?thread,
    ?core, ?expiry, ?reclaim, ?scan⟩
  case control => exact fun temps power package => controlInterval_stage
  case slots =>
    intro o j w c ho hc x u
    refine ⟨controlCore_plumb ho hc, controlCore_cool ho hc, controlCore_warm ho hc, fun hp hx hs => ?_, fun hp hx hs hocc hcom => ?_⟩
    · show core? (controlCore s o j) o j = _
      rw [controlCore_hot ho hc hp hx, heatCore_floor hc hs]
    · show core? (controlCore s o j) o j = _
      rw [controlCore_hot ho hc hp hx, heatCore_empty hc hs hocc hcom]
  case governor =>
    intro die col p e d h
    exact governorWindow_ends h
  case frame => exact fun src dst => frameMove_starts
  case line => exact fun src m => frameLineMove_steps
  case window => exact errorRateWindow_ends
  case advice => exact fun e o w hl hw hc hr => ⟨_, owner?_windowOf1 hl hw hc hr, rfl, rfl, rfl⟩
  case patrol => exact patrolScrub_masks
  case masked => exact fun p => singleFault_masked
  case block => exact fun o j b => singleFault_tileBlock
  case stack => exact fun pa => singleFault_hbm
  case balance =>
    intro hp hdue
    exact ⟨_, exec_balancingInterval hp hdue, congrArg Stage.balanceAt (foldl_keeps stageOf stageOf_balanceAll _ _)⟩
  case ship => exact fun o w j k es c' => shipment_some
  case thread => exact fun o tid t j sl gb vb => threadMigration_moves
  case core => exact fun o j k w a b => coreMigration_exchanges
  case expiry =>
    intro o j c hc
    refine ⟨_, rfl, rfl, ?_⟩
    rw [core?_onCore, hc]
    rfl
  case reclaim =>
    intro o j w c q rest hw hc hr hs hmv
    refine ⟨fun hq => ⟨_, exec_reclaimWalk_begin hw hc hr hs hmv hq, rfl, ?_⟩, fun hq u => ⟨fun hu => ?_, fun hu => ?_⟩⟩
    · rw [core?_onCore, hc, Option.map_some, hr]
      rfl
    · exact exec_reclaimChildAck hw hc hr hs hmv hq hu
    · exact ⟨_, exec_reclaimChildAck hw hc hr hs hmv hq hu, rfl, walkEnded_gone u o j q⟩
  case scan =>
    intro o j w c hw hc hr hscan hs hmv
    refine ⟨_, exec_reclaimWalk_scan hw hc hr hs hmv hscan, rfl, ?_⟩
    rw [core?_onCore, hc]
    rfl
end

section
open Sys2Proof Sys2Proof.Machine

/-- Settles O5: each clause is the value that reset writes; a fresh table vacates the 96 columns of the package. -/
theorem resetState : Obligations.ResetState := by
  unfold Obligations.ResetState
  refine ⟨rfl, rfl, ?_, fun _ => ⟨rfl, rfl, rfl⟩, fun _ => ⟨rfl, rfl, rfl⟩, rfl, rfl, rfl, rfl⟩
  intro die hd col hc
  decide +revert

end

section
/-!
SUPPORT. The canonical form of the memories (log 2) is kept by every function of the model that answers a state: one rule
for each, in the order of the model's files. A rule is put together as its function is, from the rules of the functions
that it calls; only the writes of memory, scratchpads and B SRAM turn on the laws of the maps (Laws/Maps.lean).
-/

namespace Sys2Proof.Machine

/-! ## What an answer holds -/

/-- Whether the state of an answer has its memories in canonical form. -/
def XRes.memOk : XRes → Bool
  | .ok s _ | .wait s _ | .again s _ | .trapT s _ | .sub s _ _ _ => s.memOk
  | .trapC _ => true

def SRes.memOk : SRes → Bool
  | .ok s _ | .trap s _ _ _ _ => s.memOk

def Served.memOk : Served → Bool
  | .done s _ => s.memOk
  | .hold | .no => true

def URes.memOk {α : Type} : URes α → Bool
  | .ok s _ | .fault s _ => s.memOk
  | .wait | .held | .miss _ => true

def memOkNext : Host.Outcome State Fault Refusal → Bool
  | .next s => s.memOk
  | .fault _ | .refused _ => true

variable {s : State} {e : Env}

theorem SRes.memOk_of_ok {x : SRes} {u : State} {v : Nat} (e : x = .ok u v) (h : x.memOk = true) : u.memOk = true := by
  subst e
  exact h

theorem SRes.memOk_of_trap {x : SRes} {u : State} {c va i p : Nat} (e : x = .trap u c va i p) (h : x.memOk = true) :
    u.memOk = true := by
  subst e
  exact h

theorem XRes.memOk_of_again {x : XRes} {u : State} {y : Wait} (e : x = .again u y) (h : x.memOk = true) :
    u.memOk = true := by
  subst e
  exact h

theorem XRes.memOk_of_trapT {x : XRes} {u : State} {t : TrapInfo} (e : x = .trapT u t) (h : x.memOk = true) :
    u.memOk = true := by
  subst e
  exact h

theorem Served.memOk_of_done {x : Served} {u : State} {p : Reply} (e : x = .done u p) (h : x.memOk = true) :
    u.memOk = true := by
  subst e
  exact h

theorem URes.memOk_of_ok {α : Type} {x : URes α} {u : State} {v : α} (e : x = .ok u v) (h : x.memOk = true) :
    u.memOk = true := by
  subst e
  exact h

theorem memOk_of_fst {α : Type} {p : State × α} {u : State} {a : α} (e : p = (u, a)) (h : p.1.memOk = true) :
    u.memOk = true := by
  subst e
  exact h

theorem memOk_of_some {x : Option State} {u : State} (e : x = some u) (h : x.all State.memOk = true) : u.memOk = true := by
  subst e
  exact h

theorem memOk_of_some_fst {α : Type} {x : Option (State × α)} {p : State × α} (e : x = some p)
    (h : x.all (fun p => p.1.memOk) = true) : p.1.memOk = true := by
  subst e
  exact h

/-! ## Control structures -/

theorem ite_keeps {α : Type} (p : α → Bool) {c : Prop} [Decidable c] {a b : α} (ha : p a = true) (hb : p b = true) :
    p (if c then a else b) = true := by
  split
  · exact ha
  · exact hb

theorem memOk_ite {c : Prop} [Decidable c] {a b : State} (ha : a.memOk = true) (hb : b.memOk = true) :
    (if c then a else b).memOk = true := ite_keeps State.memOk ha hb

theorem XRes.memOk_ite {c : Prop} [Decidable c] {a b : XRes} (ha : a.memOk = true) (hb : b.memOk = true) :
    (if c then a else b).memOk = true := ite_keeps XRes.memOk ha hb

theorem SRes.memOk_ite {c : Prop} [Decidable c] {a b : SRes} (ha : a.memOk = true) (hb : b.memOk = true) :
    (if c then a else b).memOk = true := ite_keeps SRes.memOk ha hb

theorem Served.memOk_ite {c : Prop} [Decidable c] {a b : Served} (ha : a.memOk = true) (hb : b.memOk = true) :
    (if c then a else b).memOk = true := ite_keeps Served.memOk ha hb

theorem URes.memOk_ite {α : Type} {c : Prop} [Decidable c] {a b : URes α} (ha : a.memOk = true) (hb : b.memOk = true) :
    (if c then a else b).memOk = true := ite_keeps URes.memOk ha hb

theorem memOkNext_ite {c : Prop} [Decidable c] {a b : Host.Outcome State Fault Refusal} (ha : memOkNext a = true)
    (hb : memOkNext b = true) : memOkNext (if c then a else b) = true := ite_keeps memOkNext ha hb

theorem memOk_ite_opt {c : Prop} [Decidable c] {a b : Option State} (ha : a.all State.memOk = true)
    (hb : b.all State.memOk = true) : (if c then a else b).all State.memOk = true :=
  ite_keeps (Option.all State.memOk) ha hb

theorem memOk_foldl {α : Type} {f : State → α → State} {l : List α}
    (hf : ∀ u a, u.memOk = true → (f u a).memOk = true) (h : s.memOk = true) : (l.foldl f s).memOk = true := by
  induction l generalizing s with
  | nil => exact h
  | cons a l ih => exact ih (hf s a h)

theorem memOk_foldl_fst {α β : Type} {f : State × β → α → State × β} {p : State × β} {l : List α}
    (hf : ∀ p a, p.1.memOk = true → (f p a).1.memOk = true) (h : p.1.memOk = true) : (l.foldl f p).1.memOk = true := by
  induction l generalizing p with
  | nil => exact h
  | cons a l ih => exact ih (hf p a h)

theorem memOk_bind {x : Option State} {f : State → Option State} (h : x.all State.memOk = true)
    (hf : ∀ u, u.memOk = true → (f u).all State.memOk = true) : (x.bind f).all State.memOk = true := by
  cases x with
  | none => rfl
  | some u => exact hf u h

theorem memOk_map {α : Type} {x : Option α} {f : α → State} (hf : ∀ a, (f a).memOk = true) :
    (x.map f).all State.memOk = true := by
  cases x with
  | none => rfl
  | some a => exact hf a

theorem memOk_findSome {α : Type} {l : List α} {f : α → Option State} (hf : ∀ a, (f a).all State.memOk = true) :
    (l.findSome? f).all State.memOk = true := by
  induction l with
  | nil => rfl
  | cons a l ih =>
    have ha := hf a
    simp only [List.findSome?_cons]
    split
    next h0 => rwa [h0] at ha
    · exact ih

/-! ## The three memories -/

theorem memOk_iff : s.memOk = true ↔ Memory.wf s.mem = true ∧ Memory.wf s.spad = true ∧ Memory.wf s.bsram = true := by
  simp [State.memOk, and_assoc]

theorem wf_mem (h : s.memOk = true) : Memory.wf s.mem = true := (memOk_iff.1 h).1
theorem wf_spad (h : s.memOk = true) : Memory.wf s.spad = true := (memOk_iff.1 h).2.1
theorem wf_bsram (h : s.memOk = true) : Memory.wf s.bsram = true := (memOk_iff.1 h).2.2

/-- The canonical form speaks of the three memories alone. -/
theorem memOk_of_eq {u : State} (h : s.memOk = true) (hm : u.mem = s.mem) (hs : u.spad = s.spad) (hb : u.bsram = s.bsram) :
    u.memOk = true := by
  rw [memOk_iff, hm, hs, hb]
  exact memOk_iff.1 h

theorem memOk_withMem {m : Memory} (h : s.memOk = true) (hm : Memory.wf m = true) :
    ({ s with mem := m } : State).memOk = true := by
  have hs := wf_spad h
  have hb := wf_bsram h
  exact memOk_iff.2 ⟨hm, hs, hb⟩

theorem memOk_withSpad {m : Memory} (h : s.memOk = true) (hm : Memory.wf m = true) :
    ({ s with spad := m } : State).memOk = true := by
  have hr := wf_mem h
  have hb := wf_bsram h
  exact memOk_iff.2 ⟨hr, hm, hb⟩

theorem memOk_withBsram {m : Memory} (h : s.memOk = true) (hm : Memory.wf m = true) :
    ({ s with bsram := m } : State).memOk = true := by
  have hr := wf_mem h
  have hs := wf_spad h
  exact memOk_iff.2 ⟨hr, hs, hm⟩

/-! ## Acc -/

theorem memOk_onOwner {o f} (h : s.memOk = true) : (onOwner s o f).memOk = true := h

theorem memOk_onCore {o j f} (h : s.memOk = true) : (onCore s o j f).memOk = true := h

theorem memOk_onClus {o c f} (h : s.memOk = true) : (onClus s o c f).memOk = true := h

theorem memOk_onThr {o tid f} (h : s.memOk = true) : (onThr s o tid f).memOk = true := h

theorem memOk_onLch {o id f} (h : s.memOk = true) : (onLch s o id f).memOk = true := h

theorem memOk_onEngine {p f} (h : s.memOk = true) : (onEngine s p f).memOk = true := h

theorem memOk_writeG {t r v} (h : s.memOk = true) : (writeG s t r v).memOk = true := memOk_ite h h

theorem memOk_writeV {t r v} (h : s.memOk = true) : (writeV s t r v).memOk = true := h

theorem memOk_addLog {r} (h : s.memOk = true) : (addLog s r).memOk = true := by
  unfold addLog
  dsimp only
  split
  · exact h
  · split
    · exact h
    · exact memOk_ite h h

theorem memOk_unblockLog (h : s.memOk = true) : (unblockLog s).memOk = true := h

theorem memOk_countErr {kind index n} (h : s.memOk = true) : (countErr s kind index n).memOk = true := memOk_ite h h

/-! ## ImageBytes -/

theorem memOk_spoil {pa n} (h : s.memOk = true) : (spoil s pa n).memOk = true := memOk_ite h h

theorem memOk_settleBlock {pa} (h : s.memOk = true) : (settleBlock s pa).memOk = true := by
  unfold settleBlock
  split
  · exact memOk_spoil (memOk_withMem h (Memory.wf_writeN _ _ (wf_mem h)))
  · exact h

theorem memOk_settleRange {pa n} (h : s.memOk = true) : (settleRange s pa n).memOk = true :=
  memOk_foldl (fun _ _ hu => memOk_foldl (fun _ _ hu1 => memOk_settleBlock hu1) hu) h

/-! ## Xlate -/

theorem memOk_unitKeep {o c mx page out} (h : s.memOk = true) : (unitKeep s o c mx page out).memOk = true := by
  unfold unitKeep
  split
  · exact memOk_onClus h
  · exact h
  · exact h

theorem memOk_plumbDue {o tid t} (h : s.memOk = true) : (plumbDue s o tid t).memOk = true := by
  unfold plumbDue
  split
  · exact memOk_onThr h
  · exact h

theorem memOk_postDue {o tid t} (h : s.memOk = true) : (postDue s o tid t).memOk = true := by
  unfold postDue
  split
  · exact memOk_onThr h
  · exact h

/-! ## Mops -/

theorem memOk_setMark {p m} (h : s.memOk = true) : (setMark s p m).memOk = true := by
  unfold setMark
  split <;> exact h

theorem memOk_writeAt {p bs} (h : s.memOk = true) : (writeAt s p bs).memOk = true := by
  cases p with
  | mem a => exact memOk_spoil (memOk_withMem h (Memory.wf_writeN _ _ (wf_mem h)))
  | spad o j a => exact memOk_withSpad h (Memory.wf_writeN _ _ (wf_spad h))
  | bsram o c a => exact memOk_withBsram h (Memory.wf_writeN _ _ (wf_bsram h))

theorem memOk_writeMaskAt {p bs} (h : s.memOk = true) : (writeMaskAt s p bs).memOk = true := by
  cases p with
  | mem a => exact memOk_spoil (memOk_withMem h (Memory.wf_writeMasked _ _ (wf_mem h)))
  | spad o j a => exact memOk_withSpad h (Memory.wf_writeMasked _ _ (wf_spad h))
  | bsram o c a => exact memOk_withBsram h (Memory.wf_writeMasked _ _ (wf_bsram h))

theorem memOk_writeBlocks {p bs} (h : s.memOk = true) : (writeBlocks s p bs).memOk = true :=
  memOk_foldl (fun _ _ hu => memOk_setMark hu) (memOk_writeAt h)

theorem memOk_setDesc {p d} (h : s.memOk = true) : (setDesc s p d).memOk = true := by
  unfold setDesc
  split <;> exact h

theorem memOk_setFull {p b} (h : s.memOk = true) : (setFull s p b).memOk = true := by
  unfold setFull
  split <;> exact h

theorem memOk_setAllFull {p b} (h : s.memOk = true) : (setAllFull s p b).memOk = true :=
  memOk_foldl (fun _ _ hu => memOk_setFull hu) h

theorem memOk_stackRead {pa} (h : s.memOk = true) : (stackRead s pa).memOk = true := memOk_ite h h

theorem memOk_stackSide {t pa} (h : s.memOk = true) : (stackSide s t pa).memOk = true := by
  unfold stackSide
  split
  · split
    · exact memOk_ite h (memOk_stackRead h)
    · exact memOk_stackRead h
  · split
    · exact memOk_ite h (memOk_stackRead h)
    · exact memOk_stackRead h
  · exact memOk_stackRead h
  all_goals exact h

theorem memOk_touchRead {t pa} (h : s.memOk = true) : (touchRead s t pa).memOk = true := by
  unfold touchRead
  split
  · exact memOk_onCore (memOk_stackSide h)
  · exact memOk_stackSide h

theorem memOk_touchWrite {t pa} (h : s.memOk = true) : (touchWrite s t pa).memOk = true := by
  unfold touchWrite
  split
  · exact memOk_onCore (memOk_stackSide h)
  · exact memOk_stackSide h

theorem memOk_touchSpan {t pa n} (h : s.memOk = true) : (touchSpan s t pa n).memOk = true := by
  unfold touchSpan
  refine memOk_foldl (fun _ _ hu => ?_) h
  split
  · exact memOk_touchWrite hu
  · split
    · exact memOk_onCore (memOk_stackSide hu)
    · exact memOk_stackSide hu

theorem memOk_readSpan {t pa n} (h : s.memOk = true) : (readSpan s t pa n).memOk = true :=
  memOk_foldl (fun _ _ hu => memOk_touchRead hu) h

theorem memOk_touchLine {t pa} (h : s.memOk = true) : (touchLine s t pa).memOk = true := by
  unfold touchLine
  dsimp only
  split
  · exact memOk_onCore (memOk_foldl (fun _ _ hu => memOk_stackSide hu) h)
  · exact h

/-! ## Ops -/

theorem memOk_raiseGfl {o ti} (h : s.memOk = true) : (raiseGfl s o ti).memOk = true := by
  unfold raiseGfl
  split
  · split
    · split
      · exact memOk_ite (memOk_onThr h) h
      · exact h
    · exact h
  · exact h
  · exact h

theorem memOk_takeTrap {o tid ti pc len async vhalf} (h : s.memOk = true) :
    (takeTrap s o tid ti pc len async vhalf).memOk = true := by
  unfold takeTrap
  dsimp only
  split
  · exact memOk_of_eq (memOk_raiseGfl h) rfl rfl rfl
  · exact memOk_raiseGfl h

theorem memOk_dropL1 {o j} (h : s.memOk = true) : (dropL1 s o j).memOk = true := memOk_of_eq h rfl rfl rfl

theorem memOk_acquire {o tid sc} (h : s.memOk = true) : (acquire s o tid sc).memOk = true := by
  unfold acquire
  dsimp only
  split
  · exact memOk_onThr (memOk_ite h (memOk_dropL1 h))
  · exact h

theorem memOk_storeIssue {o core pa bs} (h : s.memOk = true) : (storeIssue s o core pa bs).memOk = true :=
  memOk_of_eq h rfl rfl rfl

theorem memOk_pushStream {t n v} (h : s.memOk = true) : (pushStream s t n v).1.memOk = true := by
  unfold pushStream
  extract_lets x va
  split
  · exact h
  next w _ =>
    extract_lets loc
    clear_value loc
    split
    · exact h
    · extract_lets tgt pa leaf r u
      have hu : u.memOk = true := by
        clear_value leaf
        cases leaf with
        | none => exact h
        | some l => exact memOk_storeIssue h
      exact memOk_of_eq hu rfl rfl rfl

theorem memOk_applyRegs {o tid w} (h : s.memOk = true) : (applyRegs s o tid w).memOk = true := by
  unfold applyRegs
  dsimp only
  split
  · exact h
  · exact memOk_onThr (memOk_foldl (fun _ _ hu => memOk_writeV hu) (memOk_foldl (fun _ _ hu => memOk_writeG hu) h))

theorem memOk_applyStreams {o tid w} (h : s.memOk = true) : (applyStreams s o tid w).memOk = true := by
  unfold applyStreams
  split
  · exact h
  · refine memOk_foldl_fst (fun _ _ hu => ?_) h
    split
    · split
      · exact memOk_pushStream hu
      · exact hu
    · exact hu

theorem memOk_freeThread {o tid} (h : s.memOk = true) : (freeThread s o tid).memOk = true := h

theorem memOk_advance {o tid npc} (h : s.memOk = true) : (advance s o tid npc).memOk = true := memOk_onThr h

/-! ## SealOps -/

theorem memOk_writeEnt {t pa e x} (h : s.memOk = true) : (writeEnt s t pa e x).memOk = true :=
  memOk_touchWrite (memOk_writeAt h)

theorem memOk_fillCheck {w t l va pa} (h : s.memOk = true) : (fillCheck s w t l va pa).memOk = true := by
  unfold fillCheck
  dsimp only
  split
  · exact h
  · split
    · exact h
    · split
      · exact h
      · exact memOk_ite h (memOk_ite h (memOk_foldl (fun _ _ hu => memOk_setMark hu) h))

theorem memOk_badRes {t} (h : s.memOk = true) : (badRes s t).memOk = true := h

theorem memOk_withSet {f : State → Target → ℕ → SRes} {w o set k wr} (h : s.memOk = true)
    (hf : ∀ (u : State) x1 x2, u.memOk = true → (f u x1 x2).memOk = true) : (withSet s w o set k wr f).memOk = true := by
  unfold withSet
  dsimp only
  split
  · exact SRes.memOk_ite h (hf _ _ _ (memOk_touchRead h))
  · exact memOk_badRes h
  · exact h
  · exact h

theorem memOk_queueReclaim {t set e} (h : s.memOk = true) : (queueReclaim s t set e).memOk = true := by
  unfold queueReclaim
  split
  · exact h
  · exact memOk_onCore h

theorem memOk_dropOne {t set pa e} (h : s.memOk = true) : (dropOne s t set pa e).memOk = true :=
  memOk_ite (memOk_ite (memOk_queueReclaim (memOk_writeEnt h)) (memOk_writeEnt h)) (memOk_writeEnt h)

theorem memOk_slRef {w o name child} (h : s.memOk = true) : (slRef s w o name child).memOk = true := by
  unfold slRef
  dsimp only
  refine memOk_withSet h (fun _ _ _ hu => ?_)
  split
  · exact hu
  · exact SRes.memOk_ite hu (memOk_writeEnt hu)

theorem memOk_slUnref {w o name} (h : s.memOk = true) : (slUnref s w o name).memOk = true := by
  unfold slUnref
  dsimp only
  refine memOk_withSet h (fun _ _ _ hu => ?_)
  split
  · exact hu
  · exact memOk_dropOne hu

theorem memOk_logDetected {o cause item addr} (h : s.memOk = true) : (logDetected s o cause item addr).memOk = true :=
  memOk_addLog h

theorem memOk_unrefChild {w o name} (h : s.memOk = true) : (unrefChild s w o name).memOk = true := by
  unfold unrefChild
  split
  next h0 => exact SRes.memOk_of_ok h0 (memOk_slUnref h)
  next h0 =>
    have hu := SRes.memOk_of_trap h0 (memOk_slUnref h)
    exact memOk_logDetected hu

theorem memOk_undoChildren {w o names} (h : s.memOk = true) : (undoChildren s w o names).memOk = true :=
  memOk_foldl (fun _ _ hu => memOk_unrefChild hu) h

theorem memOk_poolOf {w o set e k wr} (h : s.memOk = true) : (poolOf s w o set e k wr).1.memOk = true := by
  unfold poolOf
  dsimp only
  split
  · split <;> exact memOk_touchRead (memOk_fillCheck h)
  all_goals exact h

theorem memOk_slGet {w o name} (h : s.memOk = true) : (slGet s w o name).1.memOk = true := by
  unfold slGet
  dsimp only
  split
  · split
    · exact h
    · split
      · exact memOk_touchRead h
      · split
        next h2 => exact memOk_of_fst h2 (memOk_poolOf (memOk_touchRead h))
        next h2 => exact memOk_of_fst h2 (memOk_poolOf (memOk_touchRead h))
        next h2 => exact memOk_of_fst h2 (memOk_poolOf (memOk_touchRead h))
  all_goals exact h

theorem memOk_refChildren {w o names done} (h : s.memOk = true) : (refChildren w o names s done).1.memOk = true := by
  induction names generalizing s done with
  | nil => exact h
  | cons n ns ih =>
    unfold refChildren
    split
    · exact ih h
    · split
      next h0 => exact ih (SRes.memOk_of_ok h0 (memOk_slRef h))
      next h0 => exact memOk_undoChildren (SRes.memOk_of_trap h0 (memOk_slRef h))

theorem memOk_findSame {w o set pa hash int line d es} (h : s.memOk = true) :
    (findSame w o set pa hash int line d es s).1.memOk = true := by
  induction es generalizing s with
  | nil => exact h
  | cons e es ih =>
    unfold findSame
    dsimp only
    split
    · split
      next h0 =>
        have hu := memOk_of_fst h0 (memOk_poolOf h)
        split
        · exact hu
        · split
          · exact hu
          · exact ih hu
      next h0 => exact memOk_of_fst h0 (memOk_poolOf h)
      next h0 => exact memOk_of_fst h0 (memOk_poolOf h)
    · exact ih h

theorem memOk_slPutSet {w o int line d hgt kids} (h : s.memOk = true) :
    (slPutSet s w o int line d hgt kids).memOk = true := by
  unfold slPutSet
  dsimp only
  generalize hr : withSet s w o _ _ _ _ = r
  have hk : r.memOk = true := by
    rw [← hr]
    refine memOk_withSet h (fun _ _ _ hu => ?_)
    split
    next h0 => exact memOk_of_fst h0 (memOk_findSame hu)
    next h0 =>
      have hv := memOk_of_fst h0 (memOk_findSame hu)
      split
      · exact hv
      · exact memOk_undoChildren (memOk_writeEnt hv)
    next h0 =>
      have hv := memOk_of_fst h0 (memOk_findSame hu)
      split
      · exact hv
      · split
        · exact hv
        · split
          next h1 =>
            exact memOk_writeEnt (memOk_touchLine
              (memOk_foldl (fun _ _ hx => memOk_setDesc hx) (memOk_writeBlocks (memOk_of_fst h1 (memOk_poolOf hv)))))
          next h1 => exact memOk_of_fst h1 (memOk_poolOf hv)
          next h1 => exact memOk_of_fst h1 (memOk_poolOf hv)
  cases r with
  | ok u v => exact hk
  | trap u c v i p => exact memOk_undoChildren hk

theorem memOk_slPut {w o int line d} (h : s.memOk = true) : (slPut s w o int line d).memOk = true := by
  unfold slPut
  dsimp only
  split
  · split
    · exact h
    · have hr := memOk_refChildren h (w := w) (o := o) (names := (lineWords 32 line).map (·.toNat)) (done := [])
      split
      next h0 => exact SRes.memOk_of_trap (congrArg Prod.fst h0) hr
      next h0 =>
        have hu := SRes.memOk_of_ok (congrArg Prod.fst h0) hr
        split
        · exact memOk_undoChildren hu
        · exact memOk_slPutSet hu
  · split
    · exact h
    · exact memOk_slPutSet h

theorem memOk_reclaimStep {w o q} (h : s.memOk = true) : (reclaimStep s w o q).1.memOk = true := by
  unfold reclaimStep
  dsimp only
  split
  · split
    next h1 =>
      have hu := memOk_of_fst h1 (memOk_poolOf h)
      split
      · exact memOk_writeEnt (memOk_unrefChild hu)
      · exact memOk_writeEnt (memOk_ite (memOk_unrefChild hu) hu)
    next h1 =>
      have hu := memOk_of_fst h1 (memOk_poolOf h)
      exact memOk_logDetected hu
    next h1 => exact memOk_of_fst h1 (memOk_poolOf h)
  · exact memOk_logDetected h
  · exact h
  · exact h

theorem memOk_finishWalks {w o j n} (h : s.memOk = true) : (finishWalks w o j n s).memOk = true := by
  induction n generalizing s with
  | zero => exact h
  | succ n ih =>
    unfold finishWalks
    split
    · exact h
    · split
      · exact h
      · split
        next h0 => exact ih (memOk_of_fst h0 (memOk_reclaimStep h))
        next h0 => exact ih (memOk_onCore (memOk_of_fst h0 (memOk_reclaimStep h)))

theorem memOk_finishSlice {w o j} (h : s.memOk = true) : (finishSlice s w o j).memOk = true := by
  unfold finishSlice
  dsimp only
  split
  · exact memOk_ite (memOk_finishWalks (memOk_onCore (memOk_finishWalks h))) (memOk_finishWalks h)
  · exact memOk_finishWalks h

theorem memOk_finishReclaims {w o n} (h : s.memOk = true) : (finishReclaims w o n s).memOk = true := by
  induction n generalizing s with
  | zero => exact h
  | succ n ih => exact memOk_ite (ih (memOk_foldl (fun _ _ hu => memOk_finishSlice hu) h)) h

/-! ## JobOps -/

theorem memOk_logOf {o kind cause itemk item} (h : s.memOk = true) : (logOf s o kind cause itemk item).memOk = true :=
  memOk_addLog h

theorem memOk_logNamed {o j cause itemk item addr known applied aux} (h : s.memOk = true) :
    (logNamed s o j cause itemk item addr known applied aux).memOk = true := memOk_addLog h

theorem memOk_logItem {o j cause itemk item addr known applied} (h : s.memOk = true) :
    (logItem s o j cause itemk item addr known applied).memOk = true := memOk_logNamed h

theorem memOk_closeJob {o k id code} (h : s.memOk = true) : (closeJob s o k id code).memOk = true := by
  unfold closeJob
  dsimp only
  split
  · exact h
  · split
    · exact memOk_unrefChild (memOk_onClus (memOk_onCore h))
    · exact memOk_onClus (memOk_onCore h)

theorem memOk_logJob {o k b cause} (h : s.memOk = true) : (logJob s o k b cause).memOk = true := memOk_addLog h

theorem memOk_failChained {o k n id} (h : s.memOk = true) : (failChained o k n s id).memOk = true := by
  induction n generalizing s id with
  | zero => exact h
  | succ n ih =>
    unfold failChained
    split
    · exact h
    · exact memOk_foldl (fun _ _ hu => ih (memOk_closeJob (memOk_logJob hu))) h

theorem memOk_cancelJob {o k id} (h : s.memOk = true) : (cancelJob s o k id).memOk = true :=
  memOk_failChained (memOk_closeJob h)

theorem memOk_failJob {o k id cause} (h : s.memOk = true) : (failJob s o k id cause).memOk = true := by
  unfold failJob
  split
  · exact h
  · exact memOk_failChained (memOk_closeJob (memOk_logJob h))

theorem memOk_releaseGate {o k id ended} (h : s.memOk = true) : (releaseGate s o k id ended).memOk = true :=
  memOk_onCore h

theorem memOk_doneJob {o k id} (h : s.memOk = true) : (doneJob s o k id).memOk = true :=
  memOk_releaseGate (memOk_closeJob h)

theorem memOk_suspendJob {o k id cause va info} (h : s.memOk = true) :
    (suspendJob s o k id cause va info).memOk = true := by
  unfold suspendJob
  dsimp only
  split
  · exact h
  · exact memOk_onCore (memOk_onClus h)

theorem memOk_restartJob {o k id} (h : s.memOk = true) : (restartJob s o k id).memOk = true := by
  unfold restartJob
  split
  · exact h
  · exact memOk_ite h (memOk_onCore h)

/-! ## Sched -/

theorem memOk_clearAbove {o j lo} (h : s.memOk = true) : (clearAbove s o j lo).memOk = true :=
  memOk_withSpad h (Memory.wf_clearRange _ _ (wf_spad h))

theorem memOk_clearBanks {o j g e} (h : s.memOk = true) : (clearBanks s o j g e).memOk = true := memOk_ite h h

theorem memOk_createOn {o w l k e j g} (h : s.memOk = true) : (createOn s o w l k e j g).1.memOk = true := by
  unfold createOn
  split
  · exact h
  · extract_lets held idx dyn made t u1 c1 c2 u2 u3 u4 u5 u6 u7 u8 d
    have h1 : u1.memOk = true := memOk_ite (memOk_clearAbove h) h
    have h2 : u2.memOk = true := memOk_of_eq h1 rfl rfl rfl
    have h3 : u3.memOk = true := memOk_clearBanks h2
    have h4 : u4.memOk = true := h3
    have h8 : u8.memOk = true := memOk_writeG (memOk_writeG (memOk_writeG (memOk_writeG h4)))
    exact h8

theorem memOk_createPlaced {o w lid k} (h : s.memOk = true) : (createPlaced s o w lid k).all State.memOk = true := by
  unfold createPlaced
  split
  · rfl
  · split
    · rfl
    · split
      · rfl
      · exact memOk_createOn h

theorem memOk_createN {o w lid k n} (h : s.memOk = true) : (createN o w lid k n s).all State.memOk = true := by
  induction n generalizing s with
  | zero => exact h
  | succ n ih => exact memOk_bind (memOk_createPlaced h) (fun _ hu => ih hu)

theorem memOk_createUpTo {o w lid k n} (h : s.memOk = true) : (createUpTo o w lid k n s).memOk = true := by
  induction n generalizing s with
  | zero => exact h
  | succ n ih =>
    unfold createUpTo
    split
    next h0 => exact ih (memOk_of_some h0 (memOk_createPlaced h))
    · exact h

theorem memOk_releaseHeld {o lid} (h : s.memOk = true) : (releaseHeld s o lid).memOk = true := h

theorem memOk_logTrap {t r} (h : s.memOk = true) : (logTrap s t r).memOk = true := memOk_addLog h

theorem memOk_parkRecord {o r} (h : s.memOk = true) : (parkRecord s o r).memOk = true := by
  unfold parkRecord
  dsimp only
  split
  · exact memOk_onThr (memOk_logTrap h)
  · exact h

theorem memOk_inboxToPark {t} (h : s.memOk = true) : (inboxToPark s t).memOk = true := by
  unfold inboxToPark
  dsimp only
  split
  · exact h
  · exact memOk_onOwner (memOk_foldl (fun _ _ hu => memOk_parkRecord hu) h)

theorem memOk_failItem {o i} (h : s.memOk = true) : (failItem s o i).memOk = true := by
  unfold failItem
  split
  · exact h
  · exact memOk_logItem (memOk_onCore h)
  · exact memOk_logItem h

theorem memOk_orphanItems {o tid} (h : s.memOk = true) : (orphanItems s o tid).memOk = true := h

theorem memOk_failRefused {o tid} (h : s.memOk = true) : (failRefused s o tid).memOk = true :=
  memOk_foldl (fun _ _ hu => memOk_foldl (fun _ _ hu1 => memOk_failItem hu1) hu) h

theorem memOk_failSuspended {o tid} (h : s.memOk = true) : (failSuspended s o tid).memOk = true := by
  unfold failSuspended
  dsimp only
  split
  · exact h
  · exact memOk_foldl (fun _ _ hu => memOk_failJob hu) h

theorem memOk_endThread {t keep} (h : s.memOk = true) : (endThread s t keep).memOk = true := by
  unfold endThread
  extract_lets u1 u2 u3 u4 u5 u6 u7
  have h2 : u2.memOk = true := memOk_foldl (fun _ _ hu => memOk_failItem hu) (memOk_inboxToPark h)
  have h3 : u3.memOk = true := by
    unfold u3
    split
    · exact memOk_ite (memOk_failItem h2) h2
    · exact h2
  have h5 : u5.memOk = true := memOk_orphanItems (memOk_failSuspended (memOk_failRefused h3))
  have h7 : u7.memOk = true := by
    unfold u7
    split
    · exact memOk_onCore (s := u6) h5
    · exact h5
  exact memOk_freeThread h7

theorem memOk_haltThread {t} (h : s.memOk = true) : (haltThread s t).memOk = true := memOk_endThread h

theorem memOk_retainThread {t k} (h : s.memOk = true) : (retainThread s t k).memOk = true :=
  memOk_ite (memOk_endThread h) (memOk_endThread h)

theorem memOk_yieldThread {t} (h : s.memOk = true) : (yieldThread s t).memOk = true := memOk_ite h (memOk_onThr h)

/-! ## Operands -/

theorem memOk_Env_give {d v} (h : e.s.memOk = true) : (Env.give e d v).memOk = true := h

/-! ## Exec -/

theorem memOk_walkFor {t page} (h : s.memOk = true) : (walkFor s t page).1.memOk = true := by
  unfold walkFor
  split <;> exact h

theorem memOk_unslot {c} (h : s.memOk = true) : (unslot s c).memOk = true := memOk_onThr (memOk_onCore h)

theorem memOk_plumbWait {c why} (h : s.memOk = true) : (plumbWait s c why).memOk = true := by
  unfold plumbWait
  split
  · exact h
  · split
    · exact memOk_unslot h
    · exact memOk_foldl (fun _ _ hu => memOk_plumbDue hu) h
    · exact memOk_onThr h
    · exact memOk_onThr h
    · exact memOk_onThr h
    · exact h

theorem memOk_putWait {c why pend} (h : s.memOk = true) : (putWait s c why pend).memOk = true :=
  memOk_onThr (memOk_plumbWait h)

theorem memOk_retire {o tid pc len wx wv} (h : s.memOk = true) : (retire s o tid pc len wx wv).memOk = true := by
  unfold retire
  dsimp only
  split
  · refine memOk_advance ?_
    split
    · exact memOk_acquire (memOk_applyStreams (memOk_applyRegs h))
    · exact memOk_applyStreams (memOk_applyRegs h)
  · refine memOk_haltThread ?_
    refine memOk_advance ?_
    split
    · exact memOk_acquire (memOk_applyStreams (memOk_applyRegs h))
    · exact memOk_applyStreams (memOk_applyRegs h)
  · refine memOk_retainThread ?_
    refine memOk_advance ?_
    split
    · exact memOk_acquire (memOk_applyStreams (memOk_applyRegs h))
    · exact memOk_applyStreams (memOk_applyRegs h)
  · refine memOk_yieldThread ?_
    refine memOk_advance ?_
    split
    · exact memOk_acquire (memOk_applyStreams (memOk_applyRegs h))
    · exact memOk_applyStreams (memOk_applyRegs h)
  · refine memOk_advance ?_
    split
    · exact memOk_acquire (memOk_applyStreams (memOk_applyRegs h))
    · exact memOk_applyStreams (memOk_applyRegs h)

theorem memOk_finishWait {o tid wx} (h : s.memOk = true) : (finishWait s o tid wx).memOk = true := by
  unfold finishWait
  split
  · split
    · exact memOk_retire h
    · exact h
  · exact h

theorem memOk_trapWait {o tid ti} (h : s.memOk = true) : (trapWait s o tid ti).memOk = true := by
  unfold trapWait
  split
  · split <;> exact memOk_takeTrap h
  · exact h

theorem memOk_takeDraws {t n} (h : s.memOk = true) : (takeDraws s t n).memOk = true := memOk_ite h (memOk_onCore h)

theorem memOk_settleX {x : XRes} {c b} (h : s.memOk = true) (hx : x.memOk = true) : (settleX s c b x).memOk = true := by
  cases x with
  | ok u w => exact memOk_retire hx
  | wait u why => exact memOk_putWait hx
  | again u why => exact memOk_putWait hx
  | trapC t => exact memOk_takeTrap h
  | trapT u t => exact memOk_takeTrap hx
  | sub u w k id => exact memOk_putWait (memOk_onThr (memOk_applyRegs hx))

theorem memOk_bare (h : s.memOk = true) : (bare s).memOk = true := h

theorem memOk_envX {c t w i} (h : s.memOk = true) : (envX s c t w i).s.memOk = true := memOk_takeDraws h

theorem memOk_issueOk {sem : Env → XRes} {c t w i} (h : s.memOk = true)
    (hsem : ∀ (e : Env), e.s.memOk = true → (sem e).memOk = true) : (issueOk s c t w i sem).memOk = true := by
  unfold issueOk
  dsimp only
  split
  · exact memOk_putWait h
  · split
    · exact memOk_putWait (memOk_walkFor h)
    · exact memOk_putWait (memOk_walkFor h)
    · split
      next h3 =>
        have hu := XRes.memOk_of_again h3 (hsem _ (memOk_envX h))
        exact memOk_putWait hu
      · split
        · exact memOk_takeTrap (memOk_takeDraws h)
        · exact memOk_ite (memOk_putWait h) (memOk_settleX h (hsem _ (memOk_envX h)))
      · split
        · exact memOk_takeTrap (memOk_takeDraws h)
        · exact memOk_ite (memOk_putWait h) (memOk_settleX h (hsem _ (memOk_envX h)))
      · split
        · exact memOk_takeTrap (memOk_takeDraws h)
        · exact memOk_ite (memOk_putWait h) (memOk_settleX h (hsem _ (memOk_envX h)))
      · split
        · exact memOk_takeTrap (memOk_takeDraws h)
        · exact memOk_ite (memOk_putWait h) (memOk_settleX h (hsem _ (memOk_envX h)))
      · split
        · exact memOk_takeTrap (memOk_takeDraws h)
        · exact memOk_ite (memOk_putWait h) (memOk_settleX h (hsem _ (memOk_envX h)))
      · split
        · exact memOk_takeTrap (memOk_takeDraws h)
        · exact memOk_ite (memOk_putWait h) (memOk_settleX h (hsem _ (memOk_envX h)))

theorem memOk_runX {sem : Env → XRes} {i}
    (hsem : ∀ (e : Env), e.s.memOk = true → (sem e).memOk = true) (h : s.memOk = true) :
    memOkNext (runX i sem s) = true := by
  unfold runX
  split
  · rfl
  · split
    · split
      · exact memOk_takeTrap (memOk_bare h)
      · exact memOk_issueOk (memOk_bare h) hsem
    · rfl

theorem memOk_Half_asX {half t} (h : s.memOk = true) : (Half.asX half s t).memOk = true := by
  unfold Half.asX
  split
  · rfl
  · exact memOk_takeDraws h

/-! ## Targets -/

theorem memOk_reqTouch {r wr} (h : s.memOk = true) : (reqTouch s r wr).memOk = true :=
  memOk_ite (memOk_touchWrite h) (memOk_touchRead h)

theorem memOk_reqWrite {r bs} (h : s.memOk = true) : (reqWrite s r bs).memOk = true :=
  memOk_ite h (memOk_reqTouch (memOk_ite (memOk_writeBlocks h) (memOk_writeMaskAt h)))

theorem memOk_serveRead {f : State → List Byte → Served} {r} (h : s.memOk = true)
    (hf : ∀ (u : State) bs, u.memOk = true → (f u bs).memOk = true) : (serveRead s r f).memOk = true := by
  have hfill : State.memOk (match owner? s r.o, r.leaf with
      | some w, some l => fillCheck s w r.tgt l r.va r.pa
      | _, _ => s) = true := by
    split
    · exact memOk_fillCheck h
    · exact h
  exact Served.memOk_ite h (Served.memOk_ite hfill (hf _ _ (memOk_reqTouch hfill)))

theorem memOk_serveWrite {f : State → Served} {r} (h : s.memOk = true)
    (hf : ∀ (u : State), u.memOk = true → (f u).memOk = true) : (serveWrite s r f).memOk = true :=
  Served.memOk_ite h (hf _ h)

theorem memOk_replStore {r die bs} (h : s.memOk = true) : (replStore s r die bs).memOk = true := by
  unfold replStore
  dsimp only
  split
  · exact h
  · exact memOk_ite (memOk_onOwner h) (memOk_of_eq h rfl rfl rfl)

theorem memOk_storeAt {r bs} (h : s.memOk = true) : (storeAt s r bs).memOk = true := by
  unfold storeAt
  split
  · exact memOk_ite h (memOk_reqWrite (memOk_replStore h))
  all_goals exact memOk_reqWrite h

theorem memOk_setBar {b} (h : s.memOk = true) : (setBar s b).memOk = true := h

theorem memOk_arriveAt {o t pa core v} (h : s.memOk = true) : (arriveAt s o t pa core v).all State.memOk = true :=
  memOk_ite_opt rfl (memOk_ite_opt (memOk_touchWrite (memOk_setBar (memOk_writeAt (memOk_writeAt (memOk_writeAt h)))))
    (memOk_touchWrite (memOk_setBar (memOk_writeAt (memOk_writeAt h)))))

theorem memOk_writeLine {o j pa data} (h : s.memOk = true) : (writeLine s o j pa data).memOk = true :=
  memOk_touchLine (memOk_writeBlocks h)

theorem memOk_cstorAt {o lines toks datas} (h : s.memOk = true) : (cstorAt s o lines toks datas).1.memOk = true := by
  unfold cstorAt
  dsimp only
  split
  · exact h
  · split
    · exact h
    · split
      · exact h
      · exact memOk_foldl (fun _ _ hu => memOk_writeLine hu) h

theorem memOk_sealReply {x : SRes} {r d shown} (h : x.memOk = true) : (sealReply r d shown x).1.memOk = true := by
  cases x <;> exact h

theorem memOk_slSwap {w r exp new} (h : s.memOk = true) : (slSwap s w r exp new).memOk = true := by
  unfold slSwap
  dsimp only
  split
  next h0 => exact SRes.memOk_of_trap h0 (SRes.memOk_ite h (memOk_slRef h))
  next h0 =>
    have hu1 := SRes.memOk_of_ok h0 (SRes.memOk_ite h (memOk_slRef h))
    split
    · exact memOk_ite hu1 (memOk_unrefChild hu1)
    · split
      · split
        · exact memOk_reqWrite hu1
        · split
          next h2 => exact SRes.memOk_of_ok h2 (memOk_slUnref (memOk_reqWrite hu1))
          next h2 =>
            have hu3 := SRes.memOk_of_trap h2 (memOk_slUnref (memOk_reqWrite hu1))
            exact memOk_logDetected hu3
      · exact memOk_reqTouch (memOk_ite hu1 (memOk_unrefChild hu1))

theorem memOk_serve0 {r} (h : s.memOk = true) : (serve0 s r).memOk = true := by
  unfold serve0
  dsimp only
  split
  · exact memOk_serveRead h (fun _ _ hu1 => hu1)
  · exact memOk_serveRead h (fun _ _ hu1 => hu1)
  · exact memOk_serveWrite h (fun _ hu1 => memOk_storeAt hu1)
  · refine memOk_serveWrite h (fun _ hu1 => ?_)
    split
    · exact memOk_setDesc (memOk_ite (memOk_reqTouch (memOk_storeAt hu1)) (memOk_storeAt hu1))
    · exact memOk_storeAt hu1
  · exact Served.memOk_ite h (Served.memOk_ite rfl (memOk_serveRead h (fun _ _ hu1 => memOk_ite (memOk_reqTouch
    (memOk_setFull hu1)) hu1)))
  · exact memOk_serveWrite h (fun _ hu1 => memOk_setFull (memOk_reqWrite hu1))
  · exact memOk_serveWrite h (fun _ hu1 => memOk_reqTouch (memOk_setFull hu1))
  · refine memOk_reqTouch ?_
    split
    · exact memOk_fillCheck h
    · exact h
  · exact memOk_serveRead h (fun _ _ hu1 => memOk_reqWrite hu1)
  · exact memOk_serveRead h (fun _ _ hu1 => memOk_reqWrite hu1)
  · exact memOk_serveRead h (fun _ _ hu1 => memOk_ite (memOk_reqWrite hu1) hu1)
  · split
    · rfl
    · exact memOk_foldl (fun _ _ hu2 => memOk_touchRead hu2) h
  · exact memOk_cstorAt h
  · refine memOk_serveRead h (fun _ _ hu1 => ?_)
    split
    · exact hu1
    next h2 => exact memOk_of_some h2 (memOk_arriveAt hu1)
  · exact memOk_serveRead h (fun _ _ hu1 => Served.memOk_ite rfl hu1)
  · split
    · rfl
    · exact Served.memOk_ite h (Served.memOk_ite rfl (memOk_touchWrite (memOk_writeAt (memOk_touchSpan
        (memOk_writeAt h)))))
  · split
    · rfl
    · exact Served.memOk_ite h (Served.memOk_ite (Served.memOk_ite h (memOk_touchWrite (memOk_readSpan (memOk_writeAt
      h)))) (Served.memOk_ite (memOk_onThr (memOk_onLch h)) rfl))
  · exact memOk_serveRead h (fun _ _ hu1 => Served.memOk_ite rfl hu1)
  · exact Served.memOk_ite h (Served.memOk_ite rfl (memOk_serveRead h (fun _ _ hu1 => memOk_setAllFull hu1)))
  · split
    · rfl
    · exact memOk_sealReply (memOk_slPut h)
  · split
    · rfl
    · split
      next h2 => exact memOk_of_fst h2 (memOk_slGet h)
      next h2 => exact memOk_of_fst h2 (memOk_slGet h)
      · rfl
  · split
    · rfl
    · exact memOk_sealReply (memOk_slRef h)
  · split
    · rfl
    · exact memOk_sealReply (memOk_slUnref h)
  · split
    · rfl
    · exact memOk_sealReply (memOk_slSwap h)
  · exact memOk_serveRead h (fun _ _ hu1 => hu1)
  · exact memOk_serveWrite h (fun _ hu1 => memOk_storeAt hu1)

theorem memOk_noteEarly {s0 : State} {r} (h' : s.memOk = true) : (noteEarly s0 s r).memOk = true := by
  unfold noteEarly
  split
  · exact memOk_ite h' h'
  · exact h'

theorem memOk_serve {r} (h : s.memOk = true) : (serve s r).memOk = true := by
  unfold serve
  split
  next h0 =>
    have hu := Served.memOk_of_done h0 (memOk_serve0 h)
    exact memOk_ite (memOk_noteEarly hu) hu
  · rfl
  · rfl

theorem memOk_landL1 {p} (h : s.memOk = true) : (landL1 s p).memOk = true := memOk_onCore h

theorem memOk_landBundle {t p} (h : s.memOk = true) : (landBundle s t p).memOk = true := by
  unfold landBundle
  dsimp only
  split
  · exact memOk_trapWait h
  · exact memOk_finishWait (memOk_foldl (fun _ _ hu => memOk_writeAt hu) h)

theorem memOk_landPart {t p} (h : s.memOk = true) : (landPart s t p).memOk = true :=
  memOk_ite (memOk_onThr h) (memOk_landBundle h)

theorem memOk_land {p} (h : s.memOk = true) : (land s p).memOk = true := by
  unfold land
  dsimp only
  split
  · exact memOk_landL1 h
  · split
    · exact memOk_onThr (memOk_landL1 h)
    · split
      · exact memOk_ite (memOk_landPart (memOk_landL1 h)) (memOk_landL1 h)
      · exact memOk_ite (memOk_landBundle (memOk_landL1 h)) (memOk_onThr (memOk_landL1 h))

/-! ## Launch -/

theorem memOk_ownerFill {w o va n} (h : s.memOk = true) : (ownerFill s w o va n).memOk = true := by
  unfold ownerFill
  dsimp only
  refine memOk_foldl (fun _ _ hu => ?_) h
  split
  · exact memOk_touchRead (memOk_fillCheck hu)
  all_goals exact hu

theorem memOk_ownerWrite {w o va bs} (h : s.memOk = true) : (ownerWrite s w o va bs).1.memOk = true := by
  unfold ownerWrite
  dsimp only
  split
  · split
    · exact memOk_foldl (fun _ _ hu => memOk_writeAt hu) h
    · exact memOk_touchSpan (memOk_writeAt h)
  all_goals exact h

theorem memOk_writeDone {o d} (h : s.memOk = true) : (writeDone o s d).memOk = true := by
  unfold writeDone
  dsimp only
  split
  · exact h
  · split
    · exact h
    · split
      next h1 => exact memOk_of_fst h1 (memOk_ownerWrite (memOk_onOwner h))
      next h1 =>
        have hu := memOk_of_fst h1 (memOk_ownerWrite (memOk_onOwner h))
        exact memOk_logDetected hu

theorem memOk_flushDone {o} (h : s.memOk = true) : (flushDone s o).memOk = true := by
  unfold flushDone
  split
  · exact memOk_foldl (fun _ _ hu => memOk_writeDone hu) h
  · exact h

theorem memOk_fillPipeline {w o va} (h : s.memOk = true) : (fillPipeline s w o va).memOk = true := by
  unfold fillPipeline
  dsimp only
  split
  · exact memOk_ownerFill (memOk_ownerFill h)
  · exact memOk_ownerFill h

theorem memOk_zeroQueues {w o qs} (h : s.memOk = true) : (zeroQueues w o qs s).1.memOk = true := by
  induction qs generalizing s with
  | nil => exact h
  | cons q qs ih =>
    unfold zeroQueues
    split
    next h0 => exact ih (memOk_of_fst h0 (memOk_ownerWrite h))
    next h0 => exact memOk_of_fst h0 (memOk_ownerWrite h)

theorem memOk_createStages {o w lid es} (h : s.memOk = true) : (createStages o w lid es s).all State.memOk = true := by
  induction es generalizing s with
  | nil => exact h
  | cons e es ih => exact memOk_bind (memOk_createN h) (fun _ hu => ih hu)

theorem memOk_placeCursors {o lid es} (h : s.memOk = true) : (placeCursors s o lid es).memOk = true :=
  memOk_foldl (fun _ _ hu => memOk_ite hu (memOk_foldl (fun _ _ hu1 => memOk_onCore hu1) hu)) h

theorem memOk_launchIn {o w hdr arg seed} (h : s.memOk = true) : (launchIn s o w hdr arg seed).1.memOk = true := by
  unfold launchIn
  dsimp only
  split
  · exact h
  · split
    · exact memOk_ownerFill h
    · split
      · exact memOk_fillPipeline (memOk_ownerFill h)
      · split
        next h2 => exact memOk_of_fst h2 (memOk_zeroQueues (memOk_fillPipeline (memOk_ownerFill h)))
        next h2 =>
          have hu3 := memOk_of_fst h2 (memOk_zeroQueues (memOk_fillPipeline (memOk_ownerFill h)))
          split
          · exact hu3
          next h4 =>
            have hu5 := memOk_of_some h4 (memOk_createStages hu3)
            exact memOk_releaseHeld (memOk_onOwner (memOk_placeCursors hu5))

theorem memOk_spawnOn {o w lid k j} (h : s.memOk = true) : (spawnOn s o w lid k j).1.memOk = true := by
  unfold spawnOn
  split
  · exact h
  · split
    · exact h
    · split
      · exact h
      · split
        · exact h
        · split
          · exact h
          · exact memOk_onThr (memOk_createOn h)

/-! ## SaveDir -/

theorem memOk_writeDir {pa state step bytes mask} (h : s.memOk = true) :
    (writeDir s pa state step bytes mask).memOk = true := memOk_writeAt h

theorem memOk_writeState {pa state} (h : s.memOk = true) : (writeState s pa state).memOk = true := memOk_writeAt h

theorem memOk_loseCopy {dir} (h : s.memOk = true) : (loseCopy s dir).memOk = true :=
  memOk_of_eq (memOk_writeState h) rfl rfl rfl

theorem memOk_maySleep {q} (h : s.memOk = true) : (maySleep s q).memOk = true := memOk_ite h h

theorem memOk_restOctets {rs} (h : s.memOk = true) : (restOctets s rs).memOk = true :=
  memOk_foldl (fun _ _ hu => memOk_maySleep hu) h

theorem memOk_restAll (h : s.memOk = true) : (restAll s).memOk = true :=
  memOk_foldl (fun _ _ hu => memOk_maySleep hu) h

theorem memOk_wakeOctets {pa n} (h : s.memOk = true) : (wakeOctets s pa n).memOk = true := memOk_ite h h

/-! ## HostIf -/

theorem memOk_enableRing (h : s.memOk = true) : (enableRing s).memOk = true :=
  memOk_ite h (memOk_ite h (memOk_wakeOctets h))

theorem memOk_execRingEnable (h : s.memOk = true) : memOkNext (execRingEnable s) = true :=
  memOkNext_ite h (memOk_enableRing h)

theorem memOk_disableRing (h : s.memOk = true) : (disableRing s).memOk = true := memOk_ite (memOk_restOctets h) h

theorem memOk_execRingDisable (h : s.memOk = true) : memOkNext (execRingDisable s) = true :=
  memOkNext_ite (memOk_disableRing h) h

theorem memOk_takeHead (h : s.memOk = true) : (takeHead s).memOk = true := memOk_ite h h

theorem memOk_takeEntries {n} (h : s.memOk = true) : (takeEntries n s).memOk = true := by
  induction n generalizing s with
  | zero => exact h
  | succ n ih => exact ih (memOk_takeHead h)

theorem memOk_notify (h : s.memOk = true) : (notify s).memOk = true := memOk_ite (memOk_takeEntries h) h

theorem memOk_execDoorbell (h : s.memOk = true) : memOkNext (execDoorbell s) = true := memOk_notify h

theorem memOk_writeCqctl {v} (h : s.memOk = true) : (writeCqctl s v).memOk = true :=
  memOk_ite (memOk_enableRing h) (memOk_ite (memOk_disableRing h) h)

theorem memOk_regWrite {off v} (h : s.memOk = true) : (regWrite s off v).memOk = true := by
  unfold regWrite
  split
  · exact memOk_ite h h
  · exact memOk_writeCqctl h
  · exact h
  · exact memOk_notify h
  · exact h
  · exact h

theorem memOk_execRegisterWrite {off v} (h : s.memOk = true) : memOkNext (execRegisterWrite off v s) = true :=
  memOkNext_ite (memOk_regWrite h) h

theorem memOk_execHostMemRead {pa len} (h : s.memOk = true) : memOkNext (execHostMemRead pa len s) = true :=
  memOkNext_ite h (memOk_wakeOctets (memOk_of_eq h rfl rfl rfl))

theorem memOk_hostBlock {pa bs} (h : s.memOk = true) : (hostBlock s pa bs).memOk = true := by
  unfold hostBlock
  dsimp only
  split
  · exact memOk_ite (memOk_writeBlocks (memOk_stackRead h)) (memOk_writeAt (memOk_settleBlock (memOk_stackRead h)))
  · exact memOk_addLog h
  · exact memOk_addLog h

theorem memOk_hostWrite {k pa bs} (h : s.memOk = true) : (hostWrite k pa bs s).memOk = true := by
  induction k generalizing s pa bs with
  | zero => exact h
  | succ k ih => exact memOk_ite h (ih (memOk_hostBlock h))

theorem memOk_execHostMemWrite {pa data} (h : s.memOk = true) : memOkNext (execHostMemWrite pa data s) = true :=
  memOkNext_ite (memOk_wakeOctets (memOk_hostWrite h)) h

/-! ## Access -/

theorem memOk_addReq {r} (h : s.memOk = true) : (addReq s r).memOk = true := h

theorem memOk_complete {p} (h : s.memOk = true) : (complete s e p).memOk = true := by
  unfold complete
  dsimp only
  split
  · exact h
  · exact memOk_foldl (fun _ _ hu => memOk_writeAt hu) h

theorem memOk_ask {r} (h : e.s.memOk = true) : (ask e r).memOk = true := by
  unfold ask
  split
  · split
    next h0 =>
      have hu := Served.memOk_of_done h0 (memOk_serve h)
      exact memOk_complete hu
    · exact memOk_addReq h
    · exact memOk_addReq h
  · exact memOk_addReq h

theorem memOk_enterStore {r} (h : s.memOk = true) : (enterStore s r).memOk = true := by
  unfold enterStore
  split
  · exact memOk_addReq h
  · exact memOk_ite (memOk_addReq h) (memOk_ite h (memOk_addReq h))

theorem memOk_fenced {r} (h : s.memOk = true) : (fenced s r).memOk = true := memOk_ite h (memOk_onThr h)

theorem memOk_post {r bs} (h : e.s.memOk = true) : (post e r bs).memOk = true := by
  unfold post
  split
  · exact memOk_ask h
  all_goals exact memOk_postDue (memOk_fenced (memOk_enterStore (memOk_storeIssue h)))

theorem memOk_withSpan {f : Loc → Option (ℕ × Loc) → XRes} {c} (h : e.s.memOk = true)
    (hf : ∀ x0 x1, (f x0 x1).memOk = true) : (withSpan e c f).memOk = true := by
  unfold withSpan
  dsimp only
  split
  · exact hf _ _
  · exact memOk_walkFor h
  · rfl

theorem memOk_withChk {f : Loc → XRes} {c} (h : e.s.memOk = true)
    (hf : ∀ x0, (f x0).memOk = true) : (withChk e c f).memOk = true := by
  unfold withChk
  dsimp only
  split
  · exact hf _
  · exact memOk_walkFor h
  · rfl

theorem memOk_l1Touch {pa n} (h : s.memOk = true) : (l1Touch s e pa n).memOk = true := memOk_onCore h

theorem memOk_loadPieces {d k va l more acq} (h : e.s.memOk = true) : (loadPieces e d k va l more acq).memOk = true := by
  unfold loadPieces
  dsimp only
  generalize hp : (List.range 4).foldl _ _ = p
  have hk : p.1.memOk = true := by
    rw [← hp]
    refine memOk_foldl_fst (fun _ _ hu => ?_) h
    split
    · exact memOk_plumbDue (memOk_l1Touch hu)
    · exact memOk_addReq hu
  split
  · exact hk
  · exact hk

theorem memOk_storePieces {v m va l more rel} (h : e.s.memOk = true) :
    (storePieces e v m va l more rel).memOk = true := by
  unfold storePieces
  dsimp only
  split
  · exact memOk_onThr (memOk_foldl (fun _ _ hu => memOk_addReq (memOk_ite hu (memOk_postDue (memOk_storeIssue hu)))) h)
  · exact memOk_ite (memOk_onThr (memOk_foldl (fun _ _ hu => memOk_addReq (memOk_ite hu (memOk_postDue
      (memOk_storeIssue hu)))) h)) (memOk_foldl (fun _ _ hu => memOk_addReq (memOk_ite hu (memOk_postDue
      (memOk_storeIssue hu)))) h)

theorem memOk_poisonT {mark va} (h : s.memOk = true) : (poisonT s mark va).memOk = true := h

theorem memOk_fillHere {l pa n bs} (h : s.memOk = true) : (fillHere s e l pa n bs).memOk = true :=
  memOk_ite (memOk_onCore h) h

theorem memOk_withBytes {f : State → List Byte → XRes} {loc va n} (h : e.s.memOk = true)
    (hf : ∀ (u : State) bs, u.memOk = true → (f u bs).memOk = true) : (withBytes e loc va n f).memOk = true := by
  have hd : ∀ u o tid tgt, State.memOk u = true → (plumbDue u o tid tgt).memOk = true := fun _ _ _ _
      hu => memOk_plumbDue hu
  refine XRes.memOk_ite h (XRes.memOk_ite h ?_)
  cases loc with
  | spad j off => exact XRes.memOk_ite (memOk_poisonT h) (hf _ _ h)
  | mem l pa =>
    dsimp only
    split
    · exact hf _ _ (hd _ _ _ _ (memOk_l1Touch h))
    · have hfill := memOk_fillCheck (hd _ e.t.o e.t.tid (targetAt e (.mem l pa)) h) (w := e.w)
        (t := targetAt e (.mem l pa)) (l := l) (va := va.toNat) (pa := pa)
      exact XRes.memOk_ite (memOk_poisonT hfill) (hf _ _ (memOk_fillHere (memOk_foldl
          (fun _ _ hu => memOk_touchRead hu) hfill)))

theorem memOk_takeEntry {kind full va dest off data} (h : e.s.memOk = true) :
    (takeEntry e kind full va dest off data).memOk = true :=
  XRes.memOk_ite h (memOk_postDue (memOk_of_eq (memOk_ite (memOk_onThr (memOk_onCore h)) (memOk_onCore h)) rfl rfl rfl))

/-! ## Jobs -/

theorem memOk_submit {wf d kind gate} (h : e.s.memOk = true) : (submit e wf d kind gate).memOk = true := by
  unfold submit
  dsimp only
  split
  · exact h
  · split
    · exact h
    · split
      · exact h
      · exact XRes.memOk_ite (memOk_ite (memOk_failJob (memOk_onCore h)) (memOk_onCore h)) (memOk_ite (memOk_failJob
          (memOk_onCore h)) (memOk_onCore h))

theorem memOk_fieldTrap {va} : (fieldTrap va).memOk = true := rfl

theorem memOk_mxrunSem {wf d ad} (h : e.s.memOk = true) : (mxrunSem wf d ad e).memOk = true :=
  memOk_withChk h (fun _ => memOk_withBytes h (fun _ _ hu => XRes.memOk_ite memOk_fieldTrap (memOk_submit hu)))

theorem memOk_carrySem {ld wf d ad} (h : e.s.memOk = true) : (carrySem ld wf d ad e).memOk = true := by
  unfold carrySem
  dsimp only
  split
  · rfl
  · exact memOk_submit h

theorem memOk_cucopySem {wf d ad} (h : e.s.memOk = true) : (cucopySem wf d ad e).memOk = true :=
  memOk_withChk h (fun _ => memOk_withBytes h (fun _ _ hu => XRes.memOk_ite memOk_fieldTrap (memOk_submit hu)))

theorem memOk_cufillSem {wf d ad b c} (h : e.s.memOk = true) : (cufillSem wf d ad b c e).memOk = true := by
  unfold cufillSem
  dsimp only
  split
  · rfl
  · exact XRes.memOk_ite memOk_fieldTrap (memOk_submit h)

theorem memOk_culdbSem {wf d ad b} (h : e.s.memOk = true) : (culdbSem wf d ad b e).memOk = true := by
  unfold culdbSem
  dsimp only
  split
  · rfl
  · exact XRes.memOk_ite memOk_fieldTrap (memOk_submit h)

theorem memOk_cudigestSem {wf d ad b} (h : e.s.memOk = true) : (cudigestSem wf d ad b e).memOk = true :=
  XRes.memOk_ite rfl (XRes.memOk_ite memOk_fieldTrap (memOk_submit h))

theorem memOk_sloutSem {wf d a b} (h : e.s.memOk = true) : (sloutSem wf d a b e).memOk = true := by
  unfold sloutSem
  split
  · rfl
  · exact memOk_submit h

theorem memOk_jwaitSem {d a} (h : e.s.memOk = true) : (jwaitSem d a e).memOk = true := by
  unfold jwaitSem
  dsimp only
  split
  · exact XRes.memOk_ite rfl h
  · exact h

theorem memOk_jpollSem {d a} (h : e.s.memOk = true) : (jpollSem d a e).memOk = true := by
  unfold jpollSem
  dsimp only
  split
  · exact XRes.memOk_ite rfl (XRes.memOk_ite rfl (memOk_Env_give h))
  · exact XRes.memOk_ite rfl h

theorem memOk_jcancelSem {d a} (h : e.s.memOk = true) : (jcancelSem d a e).memOk = true := by
  unfold jcancelSem
  dsimp only
  split
  · exact h
  · exact XRes.memOk_ite (memOk_onCore h) (memOk_cancelJob h)

/-! ## Net -/

theorem memOk_dropReq {r} (h : s.memOk = true) : (dropReq s r).memOk = true := h

theorem memOk_answered {r p} (h : s.memOk = true) : (answered s r p).memOk = true :=
  memOk_ite (memOk_dropReq (memOk_ite (memOk_onThr h) h)) (memOk_ite (memOk_land (memOk_dropReq (memOk_ite
    (memOk_onThr h) h))) (memOk_of_eq (memOk_ite (memOk_onThr h) h) rfl rfl rfl))

theorem memOk_startCount {o tid} (h : s.memOk = true) : (startCount s o tid).memOk = true := memOk_onThr h

theorem memOk_holdReq {q} (h : s.memOk = true) : (holdReq s q).memOk = true := memOk_startCount h

theorem memOk_targetStep {r} (h : s.memOk = true) : (targetStep s r).memOk = true := by
  unfold targetStep
  split
  · exact h
  · split
    · exact h
    · split
      next h1 =>
        have hu := Served.memOk_of_done h1 (memOk_serve h)
        exact memOk_answered hu
      · exact memOk_holdReq h
      · exact memOk_dropReq h

theorem memOk_execTargetRequest {r} (h : s.memOk = true) : memOkNext (execTargetRequest r s) = true :=
  memOk_targetStep h

theorem memOk_serveHeld {r} (h : s.memOk = true) : (serveHeld s r).memOk = true := by
  unfold serveHeld
  split
  · exact h
  · split
    · exact h
    · split
      next h1 =>
        have hu := Served.memOk_of_done h1 (memOk_serve h)
        exact memOk_answered hu
      · exact h
      · exact h

theorem memOk_serveAllHeld (h : s.memOk = true) : (serveAllHeld s).memOk = true :=
  memOk_foldl (fun _ _ hu => memOk_serveHeld hu) h

theorem memOk_execReplyArrival {r} (h : s.memOk = true) : memOkNext (execReplyArrival r s) = true := by
  unfold execReplyArrival
  split
  · exact h
  · exact memOkNext_ite h (memOk_land h)

theorem memOk_execAmoCombine {up low} (h : s.memOk = true) : memOkNext (execAmoCombine up low s) = true := by
  unfold execAmoCombine
  dsimp only
  split
  · exact memOkNext_ite (memOk_of_eq h rfl rfl rfl) h
  · exact h

theorem memOk_execCombinedReplySplit {r} (h : s.memOk = true) : memOkNext (execCombinedReplySplit r s) = true := by
  unfold execCombinedReplySplit
  dsimp only
  split
  · exact memOk_of_eq h rfl rfl rfl
  · exact h

theorem memOk_onEntry {o j seq f} (h : s.memOk = true) : (onEntry s o j seq f).memOk = true := memOk_onCore h

theorem memOk_storeSpad {o j off data full} (h : s.memOk = true) : (storeSpad s o j off data full).memOk = true :=
  memOk_ite (memOk_setFull (memOk_writeAt h)) (memOk_writeAt h)

theorem memOk_putMsg {o j off data} (h : s.memOk = true) : (putMsg s o j off data).memOk = true :=
  memOk_setAllFull (memOk_writeAt h)

theorem memOk_arrivePosted {o e} (h : s.memOk = true) : (arrivePosted s o e).1.memOk = true := by
  unfold arrivePosted
  dsimp only
  split
  · exact h
  · split
    · exact h
    · split
      · exact h
      · split
        · split
          · exact memOk_putMsg h
          · split
            · exact memOk_onCore h
            · exact h
        · exact memOk_storeSpad h
        · exact memOk_storeSpad h

theorem memOk_execPostedStoreArrival {o j seq} (h : s.memOk = true) :
    memOkNext (execPostedStoreArrival o j seq s) = true := by
  unfold execPostedStoreArrival
  split
  · exact h
  · exact memOkNext_ite h (memOkNext_ite (memOk_onEntry h) (memOk_onEntry (memOk_arrivePosted h)))

theorem memOk_arriveXst {o e} (h : s.memOk = true) : (arriveXst s o e).all (fun p => p.1.memOk) = true := by
  unfold arriveXst
  split
  · exact h
  · split
    · exact h
    · split
      · exact h
      · split
        · exact memOk_storeSpad h
        · split
          · exact memOk_onCore h
          · rfl

theorem memOk_execXstPacket {o j seq} (h : s.memOk = true) : memOkNext (execXstPacket o j seq s) = true := by
  unfold execXstPacket
  split
  · exact h
  · split
    · exact h
    · split
      · exact memOk_onEntry h
      · split
        next h1 =>
          have hu := memOk_of_some_fst h1 (memOk_arriveXst h)
          exact memOk_onEntry hu
        · exact h

theorem memOk_execJournalAck {o j seq} (h : s.memOk = true) : memOkNext (execJournalAck o j seq s) = true := by
  unfold execJournalAck
  split
  · exact h
  · exact memOkNext_ite (memOk_onCore h) h

theorem memOk_refuseEntry {o j e cause reason} (h : s.memOk = true) : (refuseEntry s o j e cause reason).memOk = true :=
  memOk_ite (memOk_failItem h) (memOk_onThr (memOk_onEntry h))

theorem memOk_execJournalRefusal {o j seq} (h : s.memOk = true) : memOkNext (execJournalRefusal o j seq s) = true := by
  unfold execJournalRefusal
  split
  · exact h
  · split
    · exact memOk_refuseEntry h
    · exact memOk_refuseEntry h
    all_goals exact h

theorem memOk_execMsendResend {o j seq} (h : s.memOk = true) : memOkNext (execMsendResend o j seq s) = true := by
  unfold execMsendResend
  dsimp only
  split
  · exact h
  · split
    · exact memOkNext_ite (memOk_onEntry h) h
    all_goals exact h

theorem memOk_deliverMsgs {o j n} (h : s.memOk = true) : (deliverMsgs o j n s).memOk = true := by
  induction n generalizing s with
  | zero => exact h
  | succ n ih =>
    unfold deliverMsgs
    split
    · exact h
    · split
      · exact h
      · split
        · exact h
        · exact ih (memOk_putMsg (memOk_onCore h))

theorem memOk_swapSpad {o j a b n} (h : s.memOk = true) : (swapSpad s o j a b n).memOk = true :=
  memOk_foldl (fun _ _ hu => memOk_setMark (memOk_setMark hu)) (memOk_foldl (fun _ _ hu => memOk_setFull
    (memOk_setFull hu)) (memOk_writeAt (memOk_writeAt h)))

theorem memOk_exchangeSwap {o j} (h : s.memOk = true) : (exchangeSwap s o j).memOk = true := by
  unfold exchangeSwap
  dsimp only
  split
  · exact h
  · exact memOk_foldl (fun _ _ hu => memOk_storeSpad hu) (memOk_onCore (memOk_swapSpad h))

theorem memOk_execBarrierCompletion {o j obj} (h : s.memOk = true) : memOkNext (execBarrierCompletion o j obj s) = true :=
  memOkNext_ite h (memOkNext_ite (memOk_setBar (memOk_exchangeSwap h)) h)

theorem memOk_onRw {w f} (h : s.memOk = true) : (onRw s w f).memOk = true := h

theorem memOk_execReplicatedWriteReceived {o w die} (h : s.memOk = true) :
    memOkNext (execReplicatedWriteReceived o w die s) = true := by
  unfold execReplicatedWriteReceived
  dsimp only
  split
  · exact h
  · exact memOkNext_ite h (memOk_onRw h)

theorem memOk_execReplicatedApply {o w die} (h : s.memOk = true) : memOkNext (execReplicatedApply o w die s) = true := by
  unfold execReplicatedApply
  dsimp only
  split
  · exact memOkNext_ite h (memOk_onRw (memOk_onOwner (memOk_touchWrite (memOk_ite (memOk_writeBlocks h)
      (memOk_writeMaskAt h)))))
  · exact h

theorem memOk_wakeWalker {w k out tid} (h : s.memOk = true) : (wakeWalker w k out s tid).memOk = true := memOk_onThr h

theorem memOk_wakeUnit {k out u} (h : s.memOk = true) : (wakeUnit k out s u).memOk = true := memOk_onClus h

theorem memOk_execTranslationWalkDone {w} (h : s.memOk = true) : memOkNext (execTranslationWalkDone w s) = true := by
  unfold execTranslationWalkDone
  dsimp only
  split
  · exact h
  · split
    · exact h
    · split
      · exact h
      · refine memOk_foldl (fun _ _ hu => memOk_wakeUnit hu) ?_
        refine memOk_foldl (fun _ _ hu => memOk_wakeWalker hu) ?_
        split
        · exact memOk_onCore h
        · exact h
        · exact h

theorem memOk_withdraw {t} (h : s.memOk = true) : (withdraw s t).memOk = true := by
  unfold withdraw
  split <;> exact h

theorem memOk_execWaitLimitExpiry {o tid} (h : s.memOk = true) : memOkNext (execWaitLimitExpiry o tid s) = true := by
  unfold execWaitLimitExpiry
  dsimp only
  split
  · exact h
  · exact memOkNext_ite h (memOk_trapWait (memOk_withdraw h))

theorem memOk_execHostSnoop {line} (h : s.memOk = true) : memOkNext (execHostSnoop line s) = true := h

/-! ## Engine -/

theorem URes.memOk_bind {α β : Type} {r : URes α} {f : State → α → URes β} (h : r.memOk = true)
    (hf : ∀ (u : State) x, u.memOk = true → (f u x).memOk = true) : (r.bind f).memOk = true := by
  cases r with
  | ok u x => exact hf u x h
  | fault u t => exact h
  | wait => rfl
  | held => rfl
  | miss page => rfl

theorem memOk_unitMem {w o k mx wr va out} (h : s.memOk = true) : (unitMem s w o k mx wr va out).memOk = true := by
  unfold unitMem
  dsimp only
  split
  · exact URes.memOk_ite h (URes.memOk_ite rfl (memOk_fillCheck h))
  all_goals exact h

theorem memOk_unitLoc {w o k mx wr va n} (h : s.memOk = true) : (unitLoc s w o k mx wr va n).memOk = true := by
  unfold unitLoc
  dsimp only
  split
  · exact h
  · split
    · split
      · exact h
      · split
        · exact h
        · exact URes.memOk_ite h (URes.memOk_ite rfl h)
    · split
      · rfl
      · exact memOk_unitMem (memOk_unitKeep h)

theorem memOk_unitWalk {o k mx page} (h : s.memOk = true) : (unitWalk s o k mx page).memOk = true := by
  unfold unitWalk
  dsimp only
  split <;> exact h

theorem memOk_walksUsed {o c mx} (h : s.memOk = true) : (walksUsed s o c mx).memOk = true := memOk_onClus h

theorem memOk_readBlk {w o k mx fe va} (h : s.memOk = true) : (readBlk s w o k mx fe va).memOk = true :=
  URes.memOk_bind (memOk_unitLoc h) (fun _ _ hu => URes.memOk_ite rfl (URes.memOk_ite hu (memOk_touchRead (memOk_ite
    (memOk_setAllFull hu) hu))))

theorem memOk_writeBlk {w o k mx fe va x d} (h : s.memOk = true) : (writeBlk s w o k mx fe va x d).memOk = true := by
  unfold writeBlk
  dsimp only
  split
  next h0 =>
    have hu := URes.memOk_of_ok h0 (memOk_unitLoc h)
    refine memOk_touchWrite ?_
    split
    · refine memOk_setAllFull ?_
      split
      · exact memOk_setDesc (memOk_writeBlocks hu)
      · exact memOk_writeBlocks hu
    · split
      · exact memOk_setDesc (memOk_writeBlocks hu)
      · exact memOk_writeBlocks hu
  all_goals exact h

theorem memOk_reachBlk {w o k mx wr fe takes va} (h : s.memOk = true) :
    (reachBlk s w o k mx wr fe takes va).memOk = true :=
  URes.memOk_bind (memOk_unitLoc h) (fun _ _ hu => URes.memOk_ite hu (URes.memOk_ite rfl hu))

theorem memOk_reachAll {w o k mx wr takes vas} (h : s.memOk = true) :
    (reachAll w o k mx wr takes vas s).memOk = true := by
  induction vas generalizing s with
  | nil => exact h
  | cons va vas ih => exact URes.memOk_bind (memOk_reachBlk h) (fun _ _ hu => ih hu)

theorem memOk_onJob {o k id f} (h : s.memOk = true) : (onJob s o k id f).memOk = true := memOk_onCore h

theorem memOk_readNext {w o k mx fe b need chk} (h : s.memOk = true) :
    (readNext s w o k mx fe b need chk).memOk = true := by
  unfold readNext
  dsimp only
  split
  · exact h
  · refine URes.memOk_bind (memOk_readBlk h) (fun _ _ hu => ?_)
    split
    · exact hu
    · exact memOk_onJob hu

theorem memOk_writeNext {w o k mx fe inOrder takes b} (h : s.memOk = true) :
    (writeNext s w o k mx fe inOrder takes b).memOk = true := by
  unfold writeNext
  dsimp only
  split
  · exact h
  · exact URes.memOk_bind (memOk_reachBlk h) (fun _ _ hu => memOk_onJob (memOk_writeBlk hu))

theorem memOk_nextChunk {w o c r b x} (h : s.memOk = true) : (nextChunk s w o c r b x).memOk = true := by
  unfold nextChunk
  split
  · exact URes.memOk_bind (memOk_readNext h) (fun _ _ hu => hu)
  · split <;> exact h

theorem memOk_setRun {o c r} (h : s.memOk = true) : (setRun s o c r).memOk = true := memOk_onClus h

theorem memOk_rerun {o c r b} (h : s.memOk = true) : (rerun s o c r b).memOk = true := memOk_onJob (memOk_setRun h)

theorem memOk_feWait {o k id} (h : s.memOk = true) : (feWait s o k id).memOk = true := memOk_onJob h

theorem memOk_notDone {α : Type} {x : URes α} {o k id mx} (h : s.memOk = true) :
    (notDone s o k id mx x).memOk = true := by
  unfold notDone
  split
  · exact memOk_feWait h
  · exact memOk_unitWalk h
  all_goals exact h

theorem memOk_heldCycles {o c n} (h : s.memOk = true) : (heldCycles s o c n).memOk = true :=
  memOk_onEngine (memOk_onClus h)

theorem memOk_formOutputs {o c r b x} (h : s.memOk = true) : (formOutputs s o c r b x).memOk = true := by
  unfold formOutputs
  dsimp only
  split
  · exact h
  · exact memOk_onJob (memOk_onClus h)

theorem memOk_takeCycle {o c r r' b x} (h : s.memOk = true) : (takeCycle s o c r r' b x).memOk = true :=
  memOk_ite (memOk_formOutputs (memOk_ite (memOk_releaseGate (memOk_onJob (memOk_onJob (memOk_setRun (memOk_onEngine
    (memOk_walksUsed h)))))) (memOk_onJob (memOk_setRun (memOk_onEngine (memOk_walksUsed h)))))) (memOk_ite
    (memOk_releaseGate (memOk_onJob (memOk_onJob (memOk_setRun (memOk_onEngine (memOk_walksUsed h)))))) (memOk_onJob
    (memOk_setRun (memOk_onEngine (memOk_walksUsed h)))))

theorem memOk_engineCycle {o c w r b x} (h : s.memOk = true) : (engineCycle s o c w r b x).memOk = true := by
  unfold engineCycle
  split
  · exact memOk_heldCycles h
  · split
    next h0 =>
      have hu := URes.memOk_of_ok h0 (memOk_nextChunk h)
      exact memOk_ite (memOk_takeCycle hu) (memOk_onJob (memOk_setRun (memOk_walksUsed hu)))
    · exact memOk_notDone h

theorem memOk_execEngineChunkCycle {o c} (h : s.memOk = true) : memOkNext (execEngineChunkCycle o c s) = true := by
  unfold execEngineChunkCycle
  split
  · exact memOkNext_ite (memOk_engineCycle h) h
  · exact h

theorem memOk_commitChunk {o c r b} (h : s.memOk = true) : (commitChunk s o c r b).memOk = true :=
  memOk_ite (memOk_cancelJob (memOk_onJob (memOk_onClus h))) (memOk_onJob (memOk_onClus h))

theorem memOk_execChunkCommit {o c} (h : s.memOk = true) : memOkNext (execChunkCommit o c s) = true := by
  unfold execChunkCommit
  dsimp only
  split
  · split
    · exact h
    · split
      next h2 =>
        have hu := URes.memOk_of_ok h2 (memOk_writeNext h)
        exact memOk_ite (memOk_commitChunk (memOk_onJob (memOk_walksUsed hu))) (memOk_onJob (memOk_walksUsed hu))
      · exact memOk_notDone h
  · exact h

theorem memOk_startMx {o c j b} (h : s.memOk = true) : (startMx s o c j b).memOk = true :=
  memOk_onJob (memOk_onClus (memOk_onClus h))

theorem memOk_startCu {o c j w b} (h : s.memOk = true) : (startCu s o c j w b).memOk = true := by
  unfold startCu
  dsimp only
  split
  · split
    · exact memOk_onJob (memOk_onClus h)
    · split
      next h1 =>
        have hu := SRes.memOk_of_ok h1 (memOk_slRef (memOk_onJob (memOk_onClus h)))
        exact memOk_onJob hu
      next h1 =>
        have hu := SRes.memOk_of_trap h1 (memOk_slRef (memOk_onJob (memOk_onClus h)))
        exact memOk_suspendJob hu
  · exact memOk_onJob (memOk_onClus h)

theorem memOk_execJobStart {o c u} (h : s.memOk = true) : memOkNext (execJobStart o c u s) = true := by
  unfold execJobStart
  split
  · split
    · exact h
    · split
      · split
        · exact h
        · split
          · exact memOk_startMx h
          · exact h
      · split
        · exact h
        · split
          · exact memOk_startCu h
          · exact h
  · exact h

theorem memOk_copyWrite {w o k b x} (h : s.memOk = true) : (copyWrite s w o k b x).memOk = true :=
  URes.memOk_bind (memOk_writeNext h) (fun _ _ hu => memOk_onJob hu)

theorem memOk_copyStep {o c w cl k b x} (h : s.memOk = true) : (copyStep s o c w cl k b x).memOk = true := by
  unfold copyStep
  dsimp only
  split
  · exact memOk_copyWrite h
  · split
    · split
      · exact URes.memOk_bind (memOk_readNext h) (fun _ _ hu1 => memOk_onJob hu1)
      · exact memOk_onJob (memOk_ite (memOk_onClus h) h)
    · exact URes.memOk_bind (memOk_readBlk h) (fun _ _ hu => memOk_onJob hu)

theorem memOk_leafIn {w o d name n} (h : s.memOk = true) : (leafIn w o d name s n).1.memOk = true := by
  induction d generalizing s name n with
  | zero => exact h
  | succ d ih =>
    unfold leafIn
    split
    · exact h
    · split
      next h0 =>
        have hu := memOk_of_fst h0 (memOk_slGet h)
        split
        · exact hu
        · refine memOk_foldl_fst (fun p child hp => ?_) hu
          split
          · exact ih hp
          · exact hp
      next h0 => exact memOk_of_fst h0 (memOk_slGet h)
      next h0 => exact memOk_of_fst h0 (memOk_slGet h)

theorem memOk_sloutStep {w o k b root dst} (h : s.memOk = true) : (sloutStep s w o k b root dst).memOk = true := by
  unfold sloutStep
  split
  · exact URes.memOk_bind (memOk_writeNext h) (fun _ _ hu => memOk_onJob hu)
  · split
    next h0 => exact memOk_of_fst h0 (memOk_leafIn h)
    next h0 =>
      have hu1 := memOk_of_fst h0 (memOk_leafIn h)
      exact memOk_onJob hu1
    next h0 =>
      have hu1 := memOk_of_fst h0 (memOk_leafIn h)
      exact memOk_onJob hu1

theorem memOk_digestStep {w o k b va len dst} (h : s.memOk = true) : (digestStep s w o k b va len dst).memOk = true := by
  unfold digestStep
  dsimp only
  split
  · split
    · exact URes.memOk_bind (memOk_readNext h) (fun _ _ hu1 => memOk_onJob hu1)
    · exact memOk_onJob h
  · exact URes.memOk_bind (memOk_reachBlk h) (fun _ _ hu => memOk_onJob (memOk_writeBlk hu))

theorem memOk_nextBlock {o c w cl k b} (h : s.memOk = true) : (nextBlock s o c w cl k b).memOk = true := by
  unfold nextBlock
  dsimp only
  split
  · exact memOk_copyStep h
  · exact URes.memOk_bind (memOk_reachBlk h) (fun _ _ hu => memOk_onJob (memOk_writeBlk hu))
  · exact URes.memOk_bind (memOk_readBlk h) (fun _ _ hu => memOk_onJob (memOk_setDesc (memOk_writeBlocks hu)))
  · exact memOk_digestStep h
  · exact memOk_sloutStep h
  all_goals exact h

theorem memOk_execCopyBlock {o c} (h : s.memOk = true) : memOkNext (execCopyBlock o c s) = true := by
  unfold execCopyBlock
  split
  · split
    · exact h
    · split
      · exact h
      · split
        next h3 =>
          have hu := URes.memOk_of_ok h3 (memOk_nextBlock h)
          exact memOk_walksUsed (memOk_onJob hu)
        · exact memOk_notDone h
  · exact h

theorem memOk_carryStep {o c w cl k b} (h : s.memOk = true) : (carryStep s o c w cl k b).memOk = true := by
  unfold carryStep
  dsimp only
  split
  · exact URes.memOk_ite (URes.memOk_bind (memOk_reachAll h) (fun _ _ hu1 => memOk_onJob hu1)) (URes.memOk_bind
      (memOk_writeNext h) (fun _ _ hu1 => hu1))
  · split
    · exact URes.memOk_bind (memOk_reachAll h) (fun _ _ hu2 => URes.memOk_bind (memOk_readNext hu2) (fun _ _ hu3 => hu3))
    · exact memOk_onClus h
  · exact h

theorem memOk_stale {o k b va gen held} (h : s.memOk = true) : (stale s o k b va gen held).memOk = true :=
  memOk_ite (memOk_failItem h) (memOk_onThr h)

theorem memOk_arriveJob {w o k mx b va gen tag} (h : s.memOk = true) :
    (arriveJob s w o k mx b va gen tag).memOk = true := by
  unfold arriveJob
  dsimp only
  split
  · exact h
  · split
    · exact h
    · split
      · rfl
      · split
        · split
          · rfl
          · split
            · exact memOk_unitKeep h
            · split
              · exact memOk_unitKeep h
              · split
                · exact memOk_stale (memOk_unitKeep h)
                · split
                  next h2 => exact memOk_of_some h2 (memOk_arriveAt (memOk_unitKeep h))
                  · exact memOk_unitKeep h
        all_goals exact memOk_unitKeep h

theorem memOk_endJob {w o k mx b} (h : s.memOk = true) : (endJob s w o k mx b).memOk = true := by
  unfold endJob
  split
  · exact memOk_doneJob h
  · split
    next h1 =>
      have hu := URes.memOk_of_ok h1 (memOk_arriveJob h)
      exact memOk_doneJob (memOk_walksUsed hu)
    · exact memOk_notDone h

theorem memOk_execJobEnd {o c u} (h : s.memOk = true) : memOkNext (execJobEnd o c u s) = true := by
  unfold execJobEnd
  split
  · split
    · exact h
    · split
      · exact h
      · split
        · split
          · exact h
          · split
            next h3 =>
              have hu := URes.memOk_of_ok h3 (memOk_carryStep h)
              exact memOk_doneJob (memOk_walksUsed hu)
            next h3 =>
              have hu := URes.memOk_of_ok h3 (memOk_carryStep h)
              exact memOk_onJob (memOk_walksUsed hu)
            · exact memOk_notDone h
        · exact memOkNext_ite (memOk_endJob h) h
  · exact h

theorem memOk_faultOf {α : Type} {x : URes α} {w b} (h : s.memOk = true) (hx : x.memOk = true) :
    (faultOf s w b x).all (fun p => p.1.memOk) = true := by
  cases x with
  | ok u v => rfl
  | fault u t => exact hx
  | wait => exact ite_keeps (Option.all fun p : State × TrapInfo => p.1.memOk) h rfl
  | held => rfl
  | miss page => rfl

theorem memOk_jobFault {o c w cl u k b} (h : s.memOk = true) :
    (jobFault s o c w cl u k b).all (fun p => p.1.memOk) = true := by
  unfold jobFault
  dsimp only
  split
  · split
    · split
      · rfl
      · exact memOk_faultOf h (memOk_arriveJob h)
    · rfl
  · split
    · split
      · rfl
      · exact memOk_faultOf h (memOk_carryStep h)
    · split
      · split
        · rfl
        · exact memOk_faultOf h (memOk_nextBlock h)
      · split
        · split
          · exact memOk_faultOf h (memOk_writeNext h)
          · split
            · exact memOk_faultOf h (memOk_nextChunk h)
            · rfl
        · rfl

theorem memOk_execJobSuspend {o c u} (h : s.memOk = true) : memOkNext (execJobSuspend o c u s) = true := by
  unfold execJobSuspend
  dsimp only
  split
  · split
    · exact h
    · split
      next h3 =>
        have hu := memOk_of_some_fst h3 (memOk_jobFault h)
        exact memOkNext_ite (memOk_cancelJob (memOk_walksUsed hu)) (memOk_suspendJob (memOk_walksUsed hu))
      · exact h
  · exact h

theorem memOk_execReclaimWalk {o j} (h : s.memOk = true) : memOkNext (execReclaimWalk o j s) = true := by
  unfold execReclaimWalk
  split
  · split <;> exact memOkNext_ite h (memOk_onCore h)
  · exact h

theorem memOk_execReclaimChildAck {o j} (h : s.memOk = true) : memOkNext (execReclaimChildAck o j s) = true := by
  unfold execReclaimChildAck
  split
  · split
    · exact h
    · split
      · exact h
      · split
        next h3 => exact memOk_of_fst h3 (memOk_reclaimStep h)
        next h3 =>
          have hu := memOk_of_fst h3 (memOk_reclaimStep h)
          exact memOk_onCore hu
  · exact h

/-! ## Drain -/

theorem memOk_abandonRun {o c} (h : s.memOk = true) : (abandonRun s o c).memOk = true := by
  unfold abandonRun
  split
  · exact h
  · exact memOk_ite h (memOk_rerun h)

theorem memOk_abandonAll {o} (h : s.memOk = true) : (abandonAll s o).memOk = true :=
  memOk_foldl (fun _ _ hu => memOk_abandonRun hu) h

theorem memOk_trapWaiter {o tid r va applied} (h : s.memOk = true) : (trapWaiter s o tid r va applied).memOk = true := by
  unfold trapWaiter
  split
  · exact h
  · exact memOk_ite (memOk_trapWait h) h

theorem memOk_failAs {applied q} (h : s.memOk = true) : (failAs applied s q).memOk = true :=
  memOk_ite (memOk_dropReq h) (memOk_logNamed (memOk_trapWaiter (memOk_dropReq h)))

theorem memOk_failReq {r} (h : s.memOk = true) : (failReq s r).memOk = true :=
  memOk_failAs h

theorem memOk_failReply {p} (h : s.memOk = true) : (failReply s p).memOk = true :=
  memOk_ite (memOk_logNamed (memOk_trapWaiter h)) h

theorem memOk_failCombine {c} (h : s.memOk = true) : (failCombine s c).memOk = true := memOk_failAs (memOk_failAs h)

theorem memOk_logPosted {o j e} (h : s.memOk = true) : (logPosted s o j e).memOk = true :=
  memOk_ite (memOk_refuseEntry h) (memOk_logItem (memOk_refuseEntry h))

theorem memOk_failPosted {o j e} (h : s.memOk = true) : (failPosted s o j e).memOk = true :=
  memOk_ite h (memOk_logPosted h)

theorem memOk_failChunk {o c} (h : s.memOk = true) : (failChunk s o c).memOk = true := by
  unfold failChunk
  split
  · exact memOk_ite (memOk_failJob h) h
  · exact h

theorem memOk_failWalk {k} (h : s.memOk = true) : (failWalk s k).memOk = true :=
  memOk_foldl (fun _ _ hu => memOk_onThr hu) h

theorem memOk_failMissing {save mine} (h : s.memOk = true) : (failMissing s save mine).memOk = true := by
  unfold failMissing
  extract_lets u1 u2 u3 u4 u5 u6 seen
  have h1 : u1.memOk = true := memOk_foldl (fun _ _ hu => memOk_failCombine hu) h
  have h2 : u2.memOk = true := memOk_foldl (fun _ _ hu => memOk_failReq hu) h1
  have h3 : u3.memOk = true := memOk_foldl (fun _ _ hu => memOk_failReply hu) h2
  have h4 : u4.memOk = true := memOk_foldl (fun _ _ hu => memOk_failWalk hu) h3
  have h5 : u5.memOk = true := memOk_foldl (fun _ _ hu => memOk_foldl (fun _ _ hv => memOk_failPosted hv) hu) h4
  have h6 : u6.memOk = true := memOk_foldl (fun _ _ hu => memOk_failChunk hu) h5
  exact memOk_of_eq h6 rfl rfl rfl

theorem memOk_setSpecs {mine} (h : s.memOk = true) : (setSpecs s mine).memOk = true := h

theorem memOk_emptyBuffers {mine} (h : s.memOk = true) : (emptyBuffers s mine).memOk = true := h

theorem memOk_shiftWaits {mine n} (h : s.memOk = true) : (shiftWaits s mine n).memOk = true := h

theorem memOk_emptySlices {mine} (h : s.memOk = true) : (emptySlices s mine).memOk = true := h

theorem memOk_thaw {os n} (h : s.memOk = true) : (thaw s os n).memOk = true :=
  memOk_foldl (fun _ _ hu => memOk_onOwner hu) (memOk_emptySlices (memOk_emptyBuffers (memOk_shiftWaits h)))

/-! ## Links -/

theorem memOk_lkWrite {w o n va bs} (h : s.memOk = true) : (lkWrite w o n va bs s).memOk = true := by
  induction n generalizing s va bs with
  | zero => exact h
  | succ n ih =>
    unfold lkWrite
    split
    · exact h
    · exact ih (memOk_touchWrite (memOk_writeAt h))

theorem memOk_onPort {p f} (h : s.memOk = true) : (onPort s p f).memOk = true := h

theorem memOk_enqueue {p f} (h : s.memOk = true) : (enqueue s p f).memOk = true := memOk_ite h (memOk_onPort h)

theorem memOk_sendMsg {g peer step fmt bs} (h : s.memOk = true) : (sendMsg s g peer step fmt bs).memOk = true :=
  memOk_foldl (fun _ _ hu => memOk_enqueue hu) h

theorem memOk_consumeStep {o g src step} (h : s.memOk = true) : (consumeStep s o g src step).memOk = true := h

theorem memOk_grantCredits (h : s.memOk = true) : (grantCredits s).memOk = true := by
  unfold grantCredits
  dsimp only
  refine memOk_foldl (fun _ _ hu => ?_) h
  split
  · exact hu
  · exact memOk_ite hu (memOk_enqueue hu)

theorem memOk_openGroup {o g} (h : s.memOk = true) : (openGroup s o g).memOk = true := memOk_onOwner h

theorem memOk_linkTrapped {s1 : State} {o g} (h : s.memOk = true) (h' : s1.memOk = true) :
    (linkTrapped s s1 o g).memOk = true := memOk_ite h' h

theorem memOk_useStep {o group dir peer step} (h : s.memOk = true) : (useStep s o group dir peer step).memOk = true :=
  memOk_onOwner h

theorem memOk_linkOp {f : State → LkBlock → Group → XRes} {ad red} (h : e.s.memOk = true)
    (hf : ∀ (u : State) x1 x2, u.memOk = true → (f u x1 x2).memOk = true) : (linkOp e ad red f).memOk = true := by
  unfold linkOp
  dsimp only
  refine memOk_withChk h (fun _ => ?_)
  refine memOk_withBytes h (fun _ _ hu => ?_)
  split
  · exact XRes.memOk_ite rfl hu
  · exact hu
  · split
    · split
      next h2 =>
        have hu3 := XRes.memOk_of_trapT h2 (hf _ _ _ (memOk_openGroup hu))
        exact memOk_linkTrapped hu hu3
      · exact hf _ _ _ (memOk_openGroup hu)
    · exact hu

theorem memOk_oweFrames {p n o tid} (h : s.memOk = true) : (oweFrames s p n o tid).memOk = true := memOk_onPort h

theorem memOk_sendNow {o tid g peer step bs} (h : s.memOk = true) : (sendNow s o tid g peer step bs).memOk = true :=
  memOk_useStep (memOk_oweFrames (memOk_sendMsg h))

theorem memOk_lksendSem {d ad} (h : e.s.memOk = true) : (lksendSem d ad e).memOk = true := by
  unfold lksendSem
  split
  · exact h
  · refine memOk_linkOp h (fun _ _ _ hu => ?_)
    split
    · rfl
    · split
      · exact hu
      · exact XRes.memOk_ite (memOk_sendNow hu) hu

theorem memOk_takeMsg {w o g peer step buf len m n} {u : State} (h : s.memOk = true)
    (e : takeMsg s w o g peer step buf len m = .inr (u, n)) : u.memOk = true := by
  unfold takeMsg at e
  split at e
  · cases e
  · split at e
    · cases e
    · cases e
      exact memOk_useStep (memOk_consumeStep (memOk_lkWrite h))

theorem memOk_lkrecvSem {d ad} (h : e.s.memOk = true) : (lkrecvSem d ad e).memOk = true := by
  unfold lkrecvSem
  refine memOk_linkOp h (fun _ _ _ hu => ?_)
  split
  · rfl
  · split
    · exact hu
    · split
      · exact hu
      · split
        · exact hu
        next h0 => exact memOk_takeMsg hu h0

theorem memOk_lkredSem {x ad} (h : e.s.memOk = true) : (lkredSem x ad e).memOk = true := by
  unfold lkredSem
  dsimp only
  split
  · exact h
  · refine memOk_linkOp h (fun _ _ _ hu => ?_)
    split
    · rfl
    · rfl
    · exact XRes.memOk_ite hu (XRes.memOk_ite hu (memOk_ite hu hu))

theorem memOk_redTake {g r} (h : s.memOk = true) : (redTake s g r).1.memOk = true := by
  refine memOk_foldl_fst (fun _ _ hu => ?_) h
  split
  · exact hu
  · split
    · exact hu
    · split <;> exact memOk_consumeStep hu

theorem memOk_redStep {g r} (h : s.memOk = true) : (redStep s g r).1.memOk = true := by
  unfold redStep
  dsimp only
  split
  · exact memOk_redTake h
  · split
    · exact memOk_redTake h
    · split
      · split
        · refine memOk_consumeStep ?_
          split
          · exact memOk_sendMsg (memOk_redTake h)
          · exact memOk_redTake h
        · refine memOk_consumeStep ?_
          split
          · exact memOk_sendMsg (memOk_redTake h)
          · exact memOk_redTake h
      · split
        · exact memOk_sendMsg (memOk_redTake h)
        · exact memOk_redTake h

/-! ## System -/

theorem memOk_mfsSem {d r} (h : e.s.memOk = true) : (mfsSem d r e).memOk = true :=
  XRes.memOk_ite rfl (memOk_Env_give h)

theorem memOk_replayItem {o i} (h : s.memOk = true) : (replayItem s o i).memOk = true := by
  unfold replayItem
  dsimp only
  split
  · exact h
  · exact memOk_onCore h
  · exact memOk_restartJob h

theorem memOk_skipItem {o k} (h : s.memOk = true) : (skipItem s o k).memOk = true := by
  unfold skipItem
  split
  · exact h
  · exact memOk_failItem h
  · exact memOk_ite (memOk_cancelJob h) h

theorem memOk_logLink {o m} (h : s.memOk = true) : (logLink s o m).memOk = true := memOk_logItem h

theorem memOk_stopThread {t} (h : s.memOk = true) : (stopThread s t).memOk = true := h

theorem memOk_killThread {o tid} (h : s.memOk = true) : (killThread s o tid).memOk = true := by
  unfold killThread
  dsimp only
  split
  · exact h
  · refine memOk_stopThread ?_
    split
    · exact memOk_logTrap h
    · exact h

theorem memOk_disposeOf {o d} (h : s.memOk = true) : (disposeOf s o d).memOk = true := by
  unfold disposeOf
  dsimp only
  split
  · exact h
  · split
    · exact memOk_ite (memOk_onThr h) h
    · exact memOk_ite (memOk_killThread (memOk_ite (memOk_onThr h) h)) (memOk_ite (memOk_acquire (memOk_onThr
        (memOk_replayItem (memOk_ite (memOk_onThr h) h)))) (memOk_acquire (memOk_onThr (memOk_skipItem (memOk_ite
        (memOk_onThr h) h)))))

theorem memOk_trapcSem {a} (h : e.s.memOk = true) : (trapcSem a e).memOk = true :=
  XRes.memOk_ite h (XRes.memOk_ite h (memOk_onThr (memOk_ite (memOk_disposeOf h) h)))

theorem memOk_mtsSem {a r} (h : e.s.memOk = true) : (mtsSem a r e).memOk = true := XRes.memOk_ite (memOk_trapcSem h) h

theorem memOk_trapSem {n a} : (trapSem n a e).memOk = true := rfl

theorem memOk_haltSem (h : e.s.memOk = true) : (haltSem e).memOk = true := h

theorem memOk_haltRetainSem {k} (h : e.s.memOk = true) : (haltRetainSem k e).memOk = true := h

theorem memOk_yieldSem (h : e.s.memOk = true) : (yieldSem e).memOk = true := h

theorem memOk_nopSem (h : e.s.memOk = true) : (nopSem e).memOk = true := h

theorem memOk_rdcycSem {d} (h : e.s.memOk = true) : (rdcycSem d e).memOk = true :=
  XRes.memOk_ite (memOk_Env_give h) (memOk_Env_give h)

theorem memOk_skimwSem {d a} (h : e.s.memOk = true) : (skimwSem d a e).memOk = true :=
  XRes.memOk_ite rfl (XRes.memOk_ite h (memOk_Env_give h))

theorem memOk_launchSem {d a b} (h : e.s.memOk = true) : (launchSem d a b e).memOk = true :=
  XRes.memOk_ite h (memOk_launchIn h)

theorem memOk_spawnSem {d a b} (h : e.s.memOk = true) : (spawnSem d a b e).memOk = true :=
  XRes.memOk_ite h (memOk_spawnOn h)

/-! ## Kill -/

theorem memOk_failAccess {t} (h : s.memOk = true) : (failAccess s t).all State.memOk = true := by
  unfold failAccess
  dsimp only
  split
  · exact memOk_ite_opt rfl (memOk_onThr h)
  · exact memOk_ite_opt rfl (memOk_onThr h)
  · exact memOk_ite_opt rfl (memOk_logNamed (memOk_onThr h))
  · exact memOk_ite_opt (memOk_onThr h) (memOk_logNamed (memOk_onThr h))

theorem memOk_failEntry {o mine} (h : s.memOk = true) : (failEntry s o mine).all State.memOk = true := by
  refine memOk_findSome (fun _ => ?_)
  split
  · exact memOk_map (fun _ => memOk_logItem (memOk_onCore h))
  · rfl

theorem memOk_failOneJob {o mine} (h : s.memOk = true) : (failOneJob s o mine).all State.memOk = true := by
  refine memOk_findSome (fun _ => ?_)
  split
  · refine memOk_map (fun _ => memOk_failJob ?_)
    split
    · exact memOk_ite (memOk_endJob h) h
    · exact h
  · rfl

theorem memOk_giveUpMsg {m} (h : s.memOk = true) : (giveUpMsg s m).memOk = true := h

theorem memOk_failMsg {o m} (h : s.memOk = true) : (failMsg s o m).memOk = true := memOk_logLink (memOk_giveUpMsg h)

theorem memOk_failLink {t} (h : s.memOk = true) : (failLink s t).all State.memOk = true := by
  unfold failLink
  split
  · exact memOk_failMsg h
  · exact memOk_failMsg h
  · exact memOk_logLink (memOk_onThr h)
  · rfl

theorem memOk_nextFate {o tid} (h : s.memOk = true) : (nextFate s o tid).all State.memOk = true := by
  unfold nextFate
  split
  · rfl
  · split
    next h1 => exact memOk_of_some h1 (memOk_failAccess h)
    · split
      next h2 => exact memOk_of_some h2 (memOk_failEntry h)
      · split
        next h3 => exact memOk_of_some h3 (memOk_failOneJob h)
        · split
          next h4 => exact memOk_of_some h4 (memOk_failLink h)
          · exact memOk_endThread h

theorem memOk_runFates {f : State → Option State} {n}
    (hf : ∀ u : State, u.memOk = true → (f u).all State.memOk = true) (h : s.memOk = true) :
      (runFates f n s).memOk = true := by
  induction n generalizing s with
  | zero => exact h
  | succ n ih =>
    unfold runFates
    split
    · exact h
    · split
      next h0 => exact ih (memOk_of_some h0 (hf s h))
      · exact h

theorem memOk_logRange {o place itemk item n} (h : s.memOk = true) : (logRange s o place itemk item n).memOk = true :=
  memOk_ite h (memOk_addLog h)

theorem memOk_failLaunch {o w} (h : s.memOk = true) : (failLaunch s o w).all State.memOk = true := by
  refine memOk_map (fun _ => memOk_foldl (fun _ _ hu => ?_) h)
  split
  · exact memOk_logRange hu
  · exact hu

theorem memOk_failWork {o} (h : s.memOk = true) : (failWork s o).all State.memOk = true :=
  memOk_map (fun _ => memOk_logRange (memOk_onCore h))

theorem memOk_nextOwnerFate {o} (h : s.memOk = true) : (nextOwnerFate o s).all State.memOk = true := by
  unfold nextOwnerFate
  split
  · rfl
  · exact memOk_nextFate h
  · split
    next h0 => exact memOk_of_some h0 (memOk_failEntry h)
    · split
      next h0 => exact memOk_of_some h0 (memOk_failOneJob h)
      · split
        next h0 => exact memOk_of_some h0 (memOk_failLaunch h)
        · split
          next h0 => exact memOk_of_some h0 (memOk_failWork h)
          · exact memOk_map (fun _ => memOk_failMsg h)

theorem memOk_stopOwner {o} (h : s.memOk = true) : (stopOwner s o).memOk = true :=
  memOk_onOwner (memOk_foldl (fun _ _ hu => memOk_stopThread hu) (memOk_abandonAll h))

theorem memOk_killOwner {o cause} (h : s.memOk = true) : (killOwner s o cause).memOk = true := by
  unfold killOwner
  split
  · exact h
  · exact memOk_ite h (memOk_stopOwner (memOk_logOf h))

theorem memOk_emptyColumns {o} (h : s.memOk = true) : (emptyColumns s o).memOk = true :=
  memOk_withBsram (memOk_withSpad h (Memory.wf_clearRange _ _ (wf_spad h))) (Memory.wf_clearRange _ _ (wf_bsram h))

theorem memOk_emptyNet {o} (h : s.memOk = true) : (emptyNet s o).memOk = true := h

theorem memOk_freePositions {o} (h : s.memOk = true) : (freePositions s o).memOk = true := h

theorem memOk_unplace {o} (h : s.memOk = true) : (unplace s o).memOk = true :=
  memOk_onOwner (memOk_freePositions (memOk_emptyNet (memOk_emptyColumns h)))

theorem memOk_dropSave {o v} (h : s.memOk = true) : (dropSave o s v).memOk = true :=
  memOk_ite h (memOk_thaw (memOk_loseCopy (memOk_loseCopy h)))

theorem memOk_faultCmds {o} (h : s.memOk = true) : (faultCmds s o).memOk = true :=
  memOk_of_eq (memOk_foldl (fun _ _ hu => memOk_dropSave hu) h) rfl rfl rfl

theorem memOk_leavePlace {o} (h : s.memOk = true) : (leavePlace s o).memOk = true := by
  unfold leavePlace
  split
  · exact h
  · exact memOk_faultCmds (memOk_unplace (memOk_finishReclaims h))

theorem memOk_execKillDrainEnd {o tid} (h : s.memOk = true) : memOkNext (execKillDrainEnd o tid s) = true := by
  unfold execKillDrainEnd
  dsimp only
  split
  · exact h
  · split
    · split
      · exact memOkNext_ite (memOk_runFates (fun _ hu => memOk_nextFate hu) h) h
      · exact h
    · split
      · exact memOkNext_ite (memOk_ite (memOk_runFates (fun _ hu => memOk_nextOwnerFate hu) h) (memOk_leavePlace
          (memOk_runFates (fun _ hu => memOk_nextOwnerFate hu) h))) h
      · exact h

theorem memOk_forwardTo {o half r} (h : s.memOk = true) : (forwardTo s o half r).memOk = true := by
  unfold forwardTo
  split
  · exact memOk_ite (memOk_onThr h) (memOk_onOwner h)
  · exact h

theorem memOk_parkThread {o tid code} (h : s.memOk = true) : (parkThread s o tid code).memOk = true := memOk_onThr h

theorem memOk_dispatch {w t k} (h : s.memOk = true) : (dispatch s w t k).memOk = true := by
  unfold dispatch
  dsimp only
  split
  · exact memOk_killThread h
  · exact memOk_onThr (memOk_replayItem h)
  · exact memOk_logTrap (memOk_parkThread h)
  · exact memOk_forwardTo (memOk_parkThread h)

theorem memOk_execTrapDispatch {o tid} (h : s.memOk = true) : memOkNext (execTrapDispatch o tid s) = true := by
  unfold execTrapDispatch
  split
  · split
    · exact memOkNext_ite (memOk_dispatch h) h
    · exact h
  · exact h

/-! ## Commands -/

theorem memOk_onCmd {n f} (h : s.memOk = true) : (onCmd s n f).memOk = true := h

theorem memOk_finish {c status result} (h : s.memOk = true) : (finish s c status result).memOk = true :=
  memOk_ite (memOk_of_eq (memOk_writeAt (memOk_writeAt h)) rfl rfl rfl) (memOk_restOctets (memOk_of_eq (memOk_writeAt
    (memOk_writeAt h)) rfl rfl rfl))

theorem memOk_setPos {die col p} (h : s.memOk = true) : (setPos s die col p).memOk = true := h

theorem memOk_grant {o ps} (h : s.memOk = true) : (grant s o ps).memOk = true :=
  memOk_foldl (fun _ _ hu => memOk_setPos hu) h

theorem memOk_zeroColumns {o n} (h : s.memOk = true) : (zeroColumns s o n).memOk = true :=
  memOk_foldl (fun _ _ hu => hu) (memOk_foldl (fun _ _ hu => hu) h)

theorem memOk_createIn {pa held} (h : s.memOk = true) : (createIn s pa held).1.memOk = true := by
  unfold createIn
  dsimp only
  split
  · exact h
  · split
    · exact memOk_wakeOctets h
    · split
      · exact memOk_wakeOctets h
      · split
        · exact memOk_wakeOctets h
        · split
          · exact memOk_wakeOctets h
          · exact memOk_zeroColumns (memOk_grant (memOk_of_eq (memOk_foldl (fun _ _ hu => memOk_settleRange
              (memOk_wakeOctets hu)) (memOk_wakeOctets h)) rfl rfl rfl))

theorem memOk_createCmd {c} (h : s.memOk = true) : (createCmd s c).memOk = true := by
  unfold createCmd
  split
  · exact memOk_finish h
  · split
    next h0 =>
      have hu := memOk_of_fst h0 (memOk_createIn h)
      exact memOk_finish (memOk_restOctets hu)
    next h0 =>
      have hu := memOk_of_fst h0 (memOk_createIn h)
      exact memOk_finish (memOk_restOctets hu)

theorem memOk_execCreate {n} (h : s.memOk = true) : memOkNext (execCreate n s) = true := by
  unfold execCreate
  split
  · exact h
  · exact memOkNext_ite h (memOk_createCmd h)

theorem memOk_startCreates (h : s.memOk = true) : (startCreates s).memOk = true := by
  refine memOk_foldl (f := fun s c => match cmdNow s c.n 1 with
    | some c => createCmd s c
    | none => s) (fun u c hu => ?_) h (l := s.cmds)
  split
  · exact memOk_createCmd hu
  · exact hu

theorem memOk_writeEnergy {w} (h : s.memOk = true) : (writeEnergy s w).memOk = true := memOk_writeAt h

theorem memOk_zeroRange {pa n} (h : s.memOk = true) : (zeroRange s pa n).memOk = true :=
  memOk_spoil (memOk_withMem h (Memory.wf_clearRange _ _ (wf_mem h)))

theorem memOk_destroyNow {o w} (h : s.memOk = true) : (destroyNow s o w).memOk = true :=
  memOk_restOctets (memOk_of_eq (memOk_foldl (fun _ _ hu => memOk_zeroRange hu) (memOk_writeEnergy h)) rfl rfl rfl)

theorem memOk_execDestroy {n} (h : s.memOk = true) : memOkNext (execDestroy n s) = true := by
  unfold execDestroy
  split
  · exact h
  · split
    · exact memOk_finish h
    · split
      · exact memOk_finish h
      · exact memOkNext_ite h (memOkNext_ite (memOk_finish (memOk_destroyNow h)) (memOk_onCmd (memOk_ite h
          (memOk_stopOwner h))))

theorem memOk_execLaunch {n} (h : s.memOk = true) : memOkNext (execLaunch n s) = true := by
  unfold execLaunch
  split
  · exact h
  · split
    · exact memOk_finish h
    · split
      · exact memOk_finish h
      · split
        · exact h
        · split
          next h2 =>
            have hu := memOk_of_fst h2 (memOk_launchIn h)
            exact memOk_finish (memOk_onOwner hu)
          next h2 =>
            have hu := memOk_of_fst h2 (memOk_launchIn h)
            exact memOk_finish hu

theorem memOk_setCircuits {die len} (h : s.memOk = true) : (setCircuits s die len).memOk = true :=
  memOk_foldl (fun _ _ hu => memOk_setPos hu) h

theorem memOk_setPeriod {x} (h : s.memOk = true) : (setPeriod s x).memOk = true := memOk_ite h h

theorem memOk_execSetcirc {n} (h : s.memOk = true) : memOkNext (execSetcirc n s) = true := by
  unfold execSetcirc
  dsimp only
  split
  · exact h
  · exact memOkNext_ite (memOk_finish h) (memOkNext_ite h (memOkNext_ite (memOkNext_ite (memOk_finish h) (memOk_finish
      (memOk_setPeriod h))) (memOkNext_ite (memOk_finish h) (memOk_finish (memOk_setPeriod (memOk_setCircuits h))))))

theorem memOk_readLog {pa n} (h : s.memOk = true) : (readLog s pa n).1.memOk = true :=
  memOk_unblockLog (memOk_of_eq (memOk_wakeOctets (memOk_writeBlocks (memOk_foldl
    (fun _ _ hu => memOk_writeEnergy hu) h))) rfl rfl rfl)

theorem memOk_execReadlog {n} (h : s.memOk = true) : memOkNext (execReadlog n s) = true := by
  unfold execReadlog
  dsimp only
  split
  · exact h
  · exact memOkNext_ite (memOk_finish h) (memOkNext_ite (memOk_finish h) (memOk_finish (memOk_readLog h)))

theorem memOk_execCommandComplete {n} (h : s.memOk = true) : memOkNext (execCommandComplete n s) = true := by
  unfold execCommandComplete
  split
  · exact h
  · split
    · exact h
    · exact memOkNext_ite (memOk_finish h) h
    · split
      · exact h
      · split
        · exact memOk_finish h
        · exact memOkNext_ite h (memOk_finish (memOk_destroyNow h))

/-! ## Sync -/

theorem memOk_postedSem {kind full o} (h : e.s.memOk = true) : (postedSem kind full o e).memOk = true := by
  unfold postedSem
  dsimp only
  refine memOk_withChk h (fun _ => ?_)
  split
  · exact memOk_takeEntry h
  · rfl

theorem memOk_pstSem {o} (h : e.s.memOk = true) : (pstSem o e).memOk = true := memOk_postedSem h

theorem memOk_pstFSem {o} (h : e.s.memOk = true) : (pstFSem o e).memOk = true := memOk_postedSem h

theorem memOk_xstSem {o} (h : e.s.memOk = true) : (xstSem o e).memOk = true := memOk_postedSem h

theorem memOk_xstFSem {o} (h : e.s.memOk = true) : (xstFSem o e).memOk = true := memOk_postedSem h

theorem memOk_msendSem {v a} (h : e.s.memOk = true) : (msendSem v a e).memOk = true := by
  unfold msendSem
  refine memOk_withChk h (fun _ => ?_)
  split
  · exact memOk_takeEntry h
  · rfl

theorem memOk_mrecvSem {v a} (h : e.s.memOk = true) : (mrecvSem v a e).memOk = true :=
  memOk_withChk h (fun _ => memOk_ask h)

theorem memOk_mrecvTrapSem {v} (h : e.s.memOk = true) : (mrecvTrapSem v e).memOk = true := by
  unfold mrecvTrapSem
  split
  · exact memOk_onThr h
  · exact h

theorem memOk_arriveSem {va d v} (h : e.s.memOk = true) : (arriveSem va d v e).memOk = true :=
  memOk_withChk h (fun _ => memOk_ask h)

theorem memOk_baraSem {d ad} (h : e.s.memOk = true) : (baraSem d ad e).memOk = true := memOk_arriveSem h

theorem memOk_barmaxSem {d m} (h : e.s.memOk = true) : (barmaxSem d m e).memOk = true := memOk_arriveSem h

theorem memOk_barwSem {d ad} (h : e.s.memOk = true) : (barwSem d ad e).memOk = true :=
  memOk_withChk h (fun _ => memOk_ask h)

theorem memOk_queueOp {f : QueueEnt → Leaf → ℕ → ℕ → XRes} {a q put} (h : e.s.memOk = true)
    (hf : ∀ x0 x1 x2 x3, (f x0 x1 x2 x3).memOk = true) : (queueOp e a q put f).memOk = true := by
  unfold queueOp
  dsimp only
  split
  · split
    · rfl
    · exact h
  · split
    · exact memOk_walkFor h
    · rfl
    · rfl
    · exact h
    · exact hf _ _ _ _

theorem memOk_qputSem {d a q} (h : e.s.memOk = true) : (qputSem d a q e).memOk = true :=
  memOk_queueOp h (fun _ _ _ _ => XRes.memOk_ite h (XRes.memOk_ite (memOk_poisonT h) (memOk_ask h)))

theorem memOk_qgetSem {d a q} (h : e.s.memOk = true) : (qgetSem d a q e).memOk = true :=
  memOk_queueOp h (fun _ _ _ _ => XRes.memOk_ite (memOk_Env_give h) (memOk_ask h))

theorem memOk_wpushSem {d v} (h : e.s.memOk = true) : (wpushSem d v e).memOk = true := by
  unfold wpushSem
  split
  · exact h
  · split
    · exact memOk_Env_give h
    · exact XRes.memOk_ite (memOk_Env_give h) (memOk_onCore h)

theorem memOk_wpopSem {v} (h : e.s.memOk = true) : (wpopSem v e).memOk = true := by
  unfold wpopSem
  dsimp only
  split <;> exact h

theorem memOk_waitcSem {d a b} (h : e.s.memOk = true) : (waitcSem d a b e).memOk = true :=
  memOk_withChk h (fun _ => memOk_ask h)

/-! ## Balance -/

theorem memOk_setDyn {o lid k f} (h : s.memOk = true) : (setDyn s o lid k f).memOk = true := memOk_onLch h

theorem memOk_balanceStage {o w lid k e depth u} (h : s.memOk = true) :
    (balanceStage s o w lid k e depth u).memOk = true := by
  unfold balanceStage
  dsimp only
  split
  · exact h
  · exact memOk_ite (memOk_releaseHeld (memOk_createUpTo (memOk_setDyn h))) (memOk_ite (memOk_setDyn h) (memOk_setDyn h))

theorem memOk_balanceOwner {o w} (h : s.memOk = true) : (balanceOwner s o w).memOk = true :=
  memOk_foldl (fun _ _ hu => memOk_balanceStage hu) h

theorem memOk_receive {o src dst out es} (h : s.memOk = true) : (receive s o src dst out es).memOk = true := by
  unfold receive
  dsimp only
  split
  · exact h
  · exact memOk_onCore (memOk_onCore h)

theorem memOk_takeShips {o w ds ships} (h : s.memOk = true) : (takeShips o w ds ships s).memOk = true := by
  induction ds generalizing s ships with
  | nil => exact h
  | cons dst ds ih =>
    refine ih (memOk_foldl (fun _ _ hu => ?_) h)
    split
    · exact memOk_receive hu
    · exact hu

theorem memOk_levelOwner {o w} (h : s.memOk = true) : (levelOwner s o w).memOk = true :=
  memOk_takeShips (memOk_foldl (fun _ _ hu => memOk_onCore hu) h)

theorem memOk_endLaunch {o l} (h : s.memOk = true) : (endLaunch s o l).memOk = true :=
  memOk_ite h (memOk_ite h (memOk_onOwner h))

theorem memOk_balanceAll {o} (h : s.memOk = true) : (balanceAll s o).memOk = true := by
  unfold balanceAll
  dsimp only
  split
  · exact h
  · exact memOk_ite h (memOk_flushDone (memOk_foldl (fun _ _ hu => memOk_endLaunch hu) (memOk_ite (memOk_onOwner h)
      (memOk_levelOwner (memOk_balanceOwner (memOk_onOwner h))))))

theorem memOk_execBalancingInterval (h : s.memOk = true) : memOkNext (execBalancingInterval s) = true :=
  memOkNext_ite h (memOk_foldl (fun _ _ hu => memOk_balanceAll hu) (memOk_ite h h))

theorem memOk_moveWindows {t j gb vb} (h : s.memOk = true) : (moveWindows s t j gb vb).memOk = true := h

theorem memOk_migrate {t j sl gb vb} (h : s.memOk = true) : (migrate s t j sl gb vb).memOk = true := by
  unfold migrate
  extract_lets u1 u2 u3
  have h2 : u2.memOk = true := memOk_dropL1 (memOk_dropL1 (memOk_moveWindows h))
  clear_value u2
  have h3 : u3.memOk = true := memOk_of_eq h2 rfl rfl rfl
  exact memOk_onThr h3

theorem memOk_execThreadMigrationDone {o tid} (h : s.memOk = true) :
    memOkNext (execThreadMigrationDone o tid s) = true := by
  unfold execThreadMigrationDone
  split
  · exact h
  · split
    · exact memOkNext_ite h (memOk_migrate h)
    · exact h

theorem memOk_execCoreMigrationDone {o j} (h : s.memOk = true) : memOkNext (execCoreMigrationDone o j s) = true := by
  unfold execCoreMigrationDone
  dsimp only
  split
  · exact h
  · split
    · exact h
    · split
      · exact h
      · exact memOk_onCore (memOk_onCore (memOk_onOwner (memOk_dropL1 (memOk_dropL1 h))))

theorem memOk_execForwardExpiry {o j} (h : s.memOk = true) : memOkNext (execForwardExpiry o j s) = true :=
  memOk_onCore h

/-! ## Rotation -/

theorem memOk_execWarn (h : s.memOk = true) : memOkNext (execWarn s) = true := memOkNext_ite h h

theorem memOk_beginPause (h : s.memOk = true) : (beginPause s).memOk = true :=
  memOk_of_eq (memOk_foldl (fun _ _ hu => memOk_abandonAll hu) (memOk_startCreates h)) rfl rfl rfl

theorem memOk_execDrain (h : s.memOk = true) : memOkNext (execDrain s) = true := by
  unfold execDrain
  extract_lets u
  have hu : u.memOk = true := memOk_of_eq h rfl rfl rfl
  exact memOkNext_ite h (memOkNext_ite (memOk_beginPause hu) hu)

theorem memOk_execDeferredInstant (h : s.memOk = true) : memOkNext (execDeferredInstant s) = true := by
  unfold execDeferredInstant
  dsimp only
  split
  · exact h
  · split
    · exact h
    · exact memOk_of_eq (memOk_beginPause h) rfl rfl rfl

theorem memOk_sendFlags (h : s.memOk = true) : (sendFlags s).memOk = true := h

theorem memOk_chunkAct (h : s.memOk = true) : (chunkAct s).memOk = true := memOk_sendFlags (memOk_of_eq h rfl rfl rfl)

theorem memOk_execChunk (h : s.memOk = true) : memOkNext (execChunk s) = true := memOkNext_ite (memOk_chunkAct h) h

theorem memOk_execDrainTimeout (h : s.memOk = true) : memOkNext (execDrainTimeout s) = true :=
  memOkNext_ite (memOk_chunkAct (memOk_failMissing h)) h

theorem memOk_execStreamSlot (h : s.memOk = true) : memOkNext (execStreamSlot s) = true :=
  memOkNext_ite (memOk_sendFlags h) h

theorem memOk_findSwap (h : s.memOk = true) : (findSwap s).memOk = true := memOk_ite h h

theorem memOk_execDoneFlag {die} (h : s.memOk = true) : memOkNext (execDoneFlag die s) = true :=
  memOkNext_ite (memOk_findSwap h) h

theorem memOk_swapMaps (h : s.memOk = true) : (swapMaps s).memOk = true := h

theorem memOk_swapHeld (h : s.memOk = true) : (swapHeld s).memOk = true := h

theorem memOk_leaveRamps (h : s.memOk = true) : (leaveRamps s).memOk = true := by
  unfold leaveRamps
  dsimp only
  refine memOk_foldl (fun _ _ hu => ?_) h
  split
  · exact memOk_ite (memOk_onEngine hu) hu
  · exact hu

theorem memOk_rankOwner {o} (h : s.memOk = true) : (rankOwner s o).memOk = true := by
  unfold rankOwner
  dsimp only
  split
  · exact h
  · exact memOk_onOwner h

theorem memOk_rankAll (h : s.memOk = true) : (rankAll s).memOk = true :=
  memOk_foldl (fun _ _ hu => memOk_rankOwner hu) h

theorem memOk_execSwap (h : s.memOk = true) : memOkNext (execSwap s) = true := by
  unfold execSwap
  split
  · have hu : State.memOk (swapHeld (swapMaps (leaveRamps s))) = true :=
      memOk_swapHeld (memOk_swapMaps (memOk_leaveRamps h))
    generalize swapHeld (swapMaps (leaveRamps s)) = u at hu ⊢
    exact memOkNext_ite (memOk_rankAll (memOk_of_eq hu rfl rfl rfl)) h
  · exact h

theorem memOk_execResume (h : s.memOk = true) : memOkNext (execResume s) = true :=
  memOkNext_ite h (memOk_of_eq h rfl rfl rfl)

theorem memOk_failColumns {die cols} (h : s.memOk = true) : (failColumns s die cols).memOk = true :=
  memOk_foldl (fun _ _ hu => memOk_killOwner hu) (memOk_foldl (fun _ _ hu => memOk_setPos hu) h)

theorem memOk_execCircuitFailed {die cstart} (h : s.memOk = true) :
    memOkNext (execCircuitFailed die cstart s) = true := by
  unfold execCircuitFailed
  dsimp only
  split
  · exact h
  · exact memOkNext_ite (memOk_findSwap (memOk_sendFlags (memOk_failColumns (memOk_addLog h)))) h

/-! ## Save -/

theorem memOk_startSave {cmd os a b stop device} (h : s.memOk = true) :
    (startSave s cmd os a b stop device).memOk = true := by
  unfold startSave
  extract_lets u1 u2
  have h1 : u1.memOk = true := memOk_foldl (fun _ _ hu => memOk_onOwner hu) h
  have h2 : u2.memOk = true := memOk_foldl (fun _ _ hu => memOk_wakeOctets hu) h1
  exact memOk_of_eq h2 rfl rfl rfl

theorem memOk_saveCmd {c os stop device} (h : s.memOk = true) : (saveCmd s c os stop device).memOk = true := by
  unfold saveCmd
  split
  · exact h
  · split
    · exact memOk_finish h
    · exact memOk_onCmd (memOk_startSave h)

theorem memOk_execPreempt {n} (h : s.memOk = true) : memOkNext (execPreempt n s) = true := by
  unfold execPreempt
  split
  · exact h
  · exact memOkNext_ite (memOk_finish h) (memOkNext_ite (memOk_finish h) (memOk_saveCmd h))

theorem memOk_execSave {n} (h : s.memOk = true) : memOkNext (execSave n s) = true := by
  unfold execSave
  split
  · exact h
  · exact memOkNext_ite (memOk_finish h) (memOkNext_ite h (memOkNext_ite (memOk_saveCmd h) (memOkNext_ite
      (memOk_finish h) (memOk_saveCmd h))))

theorem memOk_execSaveArm {n} (h : s.memOk = true) : memOkNext (execSaveArm n s) = true := by
  unfold execSaveArm
  dsimp only
  split
  · exact h
  · split
    · exact h
    · split
      · exact memOk_finish h
      · split
        · exact memOk_finish h
        · exact memOk_finish (memOk_restOctets (memOk_onOwner (memOk_foldl (fun _ _ hu => memOk_wakeOctets hu) h)))

theorem memOk_execSaveDisarm {n} (h : s.memOk = true) : memOkNext (execSaveDisarm n s) = true := by
  unfold execSaveDisarm
  dsimp only
  split
  · exact h
  · exact memOkNext_ite h (memOkNext_ite (memOk_finish h) (memOk_finish (memOk_restOctets (memOk_onOwner h))))

theorem memOk_bumpSeq {pa} (h : s.memOk = true) : (bumpSeq s pa).memOk = true := memOk_writeAt h

theorem memOk_execAutoSave {o} (h : s.memOk = true) : memOkNext (execAutoSave o s) = true := by
  unfold execAutoSave
  dsimp only
  split
  · exact h
  · split
    · exact h
    · exact memOkNext_ite h (memOkNext_ite (memOk_onOwner h) (memOk_startSave (memOk_onOwner (memOk_bumpSeq
        (memOk_bumpSeq (memOk_onOwner h))))))

theorem memOk_onSave {k f} (h : s.memOk = true) : (onSave s k f).memOk = true := h

theorem memOk_freeze {v} (h : s.memOk = true) : (freeze s v).memOk = true := by
  unfold freeze
  refine memOk_foldl (fun _ _ hu => ?_) h
  split
  · exact memOk_ite hu (memOk_onOwner (memOk_abandonAll hu))
  · exact hu

theorem memOk_quietNow {k v} (h : s.memOk = true) : (quietNow s k v).memOk = true :=
  memOk_onSave (memOk_writeState (memOk_writeState (memOk_setSpecs h)))

theorem memOk_execSaveQuiesce {n} (h : s.memOk = true) : memOkNext (execSaveQuiesce n s) = true := by
  unfold execSaveQuiesce
  dsimp only
  split
  · exact h
  · exact memOkNext_ite h (memOkNext_ite (memOk_quietNow (memOk_freeze (memOk_ite (memOk_onSave h) h))) (memOkNext_ite
      (memOk_quietNow (memOk_failMissing (memOk_freeze (memOk_ite (memOk_onSave h) h)))) (memOk_freeze (memOk_ite
      (memOk_onSave h) h))))

theorem memOk_keepImage {im} (h : s.memOk = true) : (keepImage s im).memOk = true := memOk_foldl (fun _ _ hu => hu) h

theorem memOk_completeCopy {v dir copyB} (h : s.memOk = true) : (completeCopy s v dir copyB).memOk = true :=
  memOk_keepImage (memOk_writeDir h)

theorem memOk_failCopy {v dir} (h : s.memOk = true) : (failCopy s v dir).memOk = true :=
  memOk_addLog (memOk_loseCopy h)

theorem memOk_vacate {o} (h : s.memOk = true) : (vacate s o).memOk = true := memOk_unplace h

theorem memOk_closeSave {n v status result} (h : s.memOk = true) : (closeSave s n v status result).memOk = true := by
  unfold closeSave
  dsimp only
  split
  · exact memOk_onCmd (memOk_restOctets h)
  · exact memOk_restOctets h

theorem memOk_endSave {n v aOk bOk} (h : s.memOk = true) : (endSave s n v aOk bOk).memOk = true :=
  memOk_ite (memOk_closeSave (memOk_thaw (memOk_ite (memOk_completeCopy (memOk_ite (memOk_completeCopy h)
    (memOk_failCopy h))) (memOk_failCopy (memOk_ite (memOk_completeCopy h) (memOk_failCopy h)))))) (memOk_closeSave
    (memOk_ite (memOk_foldl (fun _ _ hu => memOk_vacate hu) (memOk_ite (memOk_foldl (fun _ _ hu => memOk_onOwner hu)
    (memOk_ite (memOk_completeCopy (memOk_ite (memOk_completeCopy h) (memOk_failCopy h))) (memOk_failCopy (memOk_ite
    (memOk_completeCopy h) (memOk_failCopy h))))) (memOk_ite (memOk_completeCopy (memOk_ite (memOk_completeCopy h)
    (memOk_failCopy h))) (memOk_failCopy (memOk_ite (memOk_completeCopy h) (memOk_failCopy h)))))) (memOk_thaw
    (memOk_ite (memOk_foldl (fun _ _ hu => memOk_onOwner hu) (memOk_ite (memOk_completeCopy (memOk_ite
    (memOk_completeCopy h) (memOk_failCopy h))) (memOk_failCopy (memOk_ite (memOk_completeCopy h) (memOk_failCopy h)))))
    (memOk_ite (memOk_completeCopy (memOk_ite (memOk_completeCopy h) (memOk_failCopy h))) (memOk_failCopy (memOk_ite
    (memOk_completeCopy h) (memOk_failCopy h))))))))

theorem memOk_execSaveStreamDone {n aOk bOk} (h : s.memOk = true) :
    memOkNext (execSaveStreamDone n aOk bOk s) = true := by
  unfold execSaveStreamDone
  dsimp only
  split
  · exact h
  · exact memOkNext_ite h (memOk_endSave h)

theorem memOk_setFromImage {im} (h : s.memOk = true) : (setFromImage s im).memOk = true :=
  memOk_ite (memOk_foldl (fun _ _ hu => memOk_foldl (fun _ _ hu1 => memOk_setPos hu1) hu) h) (memOk_setPeriod
    (memOk_foldl (fun _ _ hu => memOk_foldl (fun _ _ hu1 => memOk_setPos hu1) hu) h))

theorem memOk_reserve {x} (h : s.memOk = true) : (reserve s x).memOk = true :=
  memOk_ite (memOk_onOwner (memOk_foldl (fun _ _ hu => memOk_setPos hu) h)) (memOk_of_eq (memOk_foldl
    (fun _ _ hu => memOk_setPos hu) h) rfl rfl rfl)

theorem memOk_logLost {o die part a b} (h : s.memOk = true) : (logLost s o die part a b).memOk = true := memOk_addLog h

theorem memOk_noImage {o a b} (h : s.memOk = true) : (noImage s o a b).memOk = true := by
  unfold noImage
  dsimp only
  refine memOk_foldl (fun _ _ hu => ?_) h
  split
  · exact hu
  · exact memOk_foldl (fun _ _ hu1 => memOk_logLost hu1) hu

theorem memOk_execRestore {n} (h : s.memOk = true) : memOkNext (execRestore n s) = true := by
  unfold execRestore
  dsimp only
  split
  · exact h
  · split
    · exact memOk_finish h
    · split
      · exact h
      · split
        · exact memOkNext_ite (memOk_finish (memOk_noImage h)) (memOk_finish h)
        · split
          · exact h
          · exact memOk_onCmd (memOk_of_eq (memOk_foldl (fun _ _ hu => memOk_reserve hu) (memOk_ite
              (memOk_setFromImage h) h)) rfl rfl rfl)

/-- Putting the entries of a map back keeps the canonical form, whatever the entries. -/
theorem wf_mergeD {m x : Memory} (h : Memory.wf m = true) : Memory.wf (mergeD memDefault m x) = true := by
  unfold mergeD
  induction x generalizing m with
  | nil => exact h
  | cons p x ih => exact ih (wfMap_setD p.1 p.2 h)

theorem memOk_placeSnap {x} (h : s.memOk = true) : (placeSnap s x).memOk = true := by
  unfold placeSnap
  split
  · exact h
  · exact memOk_foldl (fun _ _ hu => memOk_foldl (fun _ _ hv => memOk_setFull hv)
        (memOk_setMark (memOk_setDesc (memOk_writeAt hu))))
      (memOk_withBsram (memOk_withSpad h (wf_mergeD (wf_spad h))) (wf_mergeD (wf_bsram h)))

theorem memOk_giveBack {o} (h : s.memOk = true) : (giveBack s o).memOk = true := memOk_onOwner (memOk_freePositions h)

theorem memOk_restoreOne {acc : State × List ℕ} {im lost x} (h : acc.1.memOk = true) :
    (restoreOne im lost acc x).1.memOk = true := by
  unfold restoreOne
  split
  · exact memOk_giveBack h
  · split
    · exact memOk_giveBack h
    · exact memOk_placeSnap h

theorem memOk_logMasked {v im ln n} (h : s.memOk = true) : (logMasked s v im ln n).memOk = true := memOk_addLog h

theorem memOk_endRestore {n v} (h : s.memOk = true) : (endRestore s n v).memOk = true := by
  unfold endRestore
  split
  · exact memOk_closeSave (memOk_foldl (fun _ _ hu => memOk_giveBack hu) (memOk_noImage h))
  · dsimp only
    generalize hr : List.foldl (restoreOne _ _) _ _ = r
    have hk : r.1.memOk = true := by
      rw [← hr]
      refine memOk_foldl_fst (fun _ _ hu => memOk_restoreOne hu) (memOk_foldl (fun _ _ hu => memOk_logLost hu)
        (memOk_foldl (fun _ _ hu => memOk_logMasked hu) (memOk_ite (memOk_foldl (fun _ _ hu => ?_) h) h)))
      exact memOk_ite hu (memOk_logMasked hu)
    split
    · exact memOk_closeSave hk
    · split <;> exact memOk_closeSave hk

theorem memOk_execRestoreStreamDone {n} (h : s.memOk = true) : memOkNext (execRestoreStreamDone n s) = true := by
  unfold execRestoreStreamDone
  split
  · exact h
  · exact memOkNext_ite (memOk_endRestore h) h

/-! ## Steward -/

theorem memOk_heatCore {o j w c} (h : s.memOk = true) : (heatCore s o j w c).memOk = true := by
  unfold heatCore
  dsimp only
  split
  · exact memOk_onCore h
  · split
    · exact memOk_onCore h
    · split
      · exact memOk_onCore h
      · split
        · exact memOk_onCore h
        · split
          · exact memOk_onCore h
          · exact memOk_onCore (memOk_onThr h)

theorem memOk_controlCore {o j} (h : s.memOk = true) : (controlCore s o j).memOk = true := by
  unfold controlCore
  dsimp only
  split
  · exact memOk_ite (memOk_onCore h) (memOk_ite (memOk_heatCore h) (memOk_ite (memOk_onCore h) (memOk_onCore h)))
  · exact h

theorem memOk_exchangeCore {o j} (h : s.memOk = true) : (exchangeCore s o j).memOk = true := by
  unfold exchangeCore
  dsimp only
  split
  · split
    · exact h
    · split
      · exact h
      · exact memOk_onCore (memOk_onOwner h)
  · exact h

theorem memOk_controlColumn {power lower p} (h : s.memOk = true) : (controlColumn power lower s p).memOk = true :=
  memOk_onEngine h

theorem memOk_saveAndStop (h : s.memOk = true) : (saveAndStop s).memOk = true := by
  unfold saveAndStop
  extract_lets u
  have hu : u.memOk = true := memOk_of_eq h rfl rfl rfl
  refine memOk_foldl (fun v p hv => ?_) hu
  split
  · exact memOk_ite (memOk_startSave (memOk_bumpSeq (memOk_bumpSeq hv))) hv
  · exact hv

theorem memOk_execControlInterval {temps power package} (h : s.memOk = true) :
    memOkNext (execControlInterval temps power package s) = true := by
  unfold execControlInterval
  extract_lets heat use steps u1 u2 u3 u4 lower u5 u6
  refine memOkNext_ite h ?_
  have h1 : u1.memOk = true := memOk_of_eq h rfl rfl rfl
  have h2 : u2.memOk = true := memOk_rankAll h1
  have h4 : u4.memOk = true := memOk_foldl (fun _ _ hu => memOk_exchangeCore hu)
    (memOk_foldl (fun _ _ hu => memOk_controlCore hu) h2)
  clear_value u4
  have h5 : u5.memOk = true := memOk_foldl (fun _ _ hu => memOk_controlColumn hu) (memOk_of_eq h4 rfl rfl rfl)
  clear_value u5
  have h6 : u6.memOk = true := by
    have hr := memOk_rankAll (memOk_restAll h5)
    unfold u6
    generalize rankAll (restAll u5) = v at hr ⊢
    exact memOk_of_eq hr rfl rfl rfl
  clear_value u6
  exact memOkNext_ite (memOk_saveAndStop h6) h6

theorem memOk_execGovernorWindow {die col} (h : s.memOk = true) : memOkNext (execGovernorWindow die col s) = true := by
  unfold execGovernorWindow
  dsimp only
  split
  · exact h
  · split
    · exact memOk_onOwner (memOk_onEngine h)
    · exact memOk_onEngine h

theorem memOk_execFrameMove {src dst} (h : s.memOk = true) : memOkNext (execFrameMove src dst s) = true :=
  memOkNext_ite h (memOk_wakeOctets h)

theorem memOk_execFrameLineMove {src} (h : s.memOk = true) : memOkNext (execFrameLineMove src s) = true := by
  unfold execFrameLineMove
  dsimp only
  split
  · exact h
  · exact memOkNext_ite h (memOkNext_ite (memOk_of_eq h rfl rfl rfl) (memOk_foldl (fun _ _ hu => memOk_maySleep hu)
      (memOk_of_eq h rfl rfl rfl)))

/-! ## Faults -/

theorem memOk_lostPower (h : s.memOk = true) : (lostPower s).memOk = true :=
  memOk_withMem (s := { lostPower s with mem := [] }) rfl (wfMap_of_sublist List.filter_sublist (wf_mem h))

theorem memOk_execPowerLoss (h : s.memOk = true) : memOkNext (execPowerLoss s) = true := memOk_lostPower h

theorem memOk_execPowerUp (h : s.memOk = true) : memOkNext (execPowerUp s) = true :=
  memOkNext_ite (memOk_of_eq (memOk_lostPower h) rfl rfl rfl) h

theorem memOk_execPowerUpZeroingDone (h : s.memOk = true) : memOkNext (execPowerUpZeroingDone s) = true :=
  memOkNext_ite h h

theorem memOk_killContext {o j hit} (h : s.memOk = true) : (killContext s o j hit).memOk = true :=
  memOk_foldl (fun _ _ hu => memOk_ite hu (memOk_killThread hu)) h

theorem memOk_l2Error {o j line} (h : s.memOk = true) : (l2Error s o j line).memOk = true := by
  unfold l2Error
  split
  · exact h
  · split
    · exact h
    · exact memOk_ite (memOk_onCore h) (memOk_foldl (fun _ _ hu => memOk_setMark hu) h)

theorem memOk_twoFaults {p} (h : s.memOk = true) : (twoFaults s p).memOk = true := by
  unfold twoFaults
  split
  · exact memOk_killContext h
  · exact memOk_killContext h
  · exact memOk_killContext h
  · exact memOk_setMark h
  · exact memOk_l2Error h
  · exact memOk_l2Error h
  · split
    · split
      · exact h
      all_goals exact memOk_logPosted h
    · exact h
  · exact memOk_failJob h
  · exact memOk_setMark h
  · exact memOk_setMark h
  · split
    · exact memOk_failJob h
    · exact h
  · exact h

theorem memOk_oneFault {p} (h : s.memOk = true) : (oneFault s p).memOk = true := by
  unfold oneFault
  split
  · exact memOk_onCore h
  · split
    · exact memOk_rerun h
    · exact h
  · split
    · exact memOk_failCombine h
    · exact h
  · exact h
  · exact h

theorem memOk_execSingleFault {at_} (h : s.memOk = true) : memOkNext (execSingleFault at_ s) = true := by
  unfold execSingleFault
  dsimp only
  split
  · exact h
  next site o _ =>
    refine memOkNext_ite (memOk_addLog (memOk_twoFaults h)) ?_
    have hcount : State.memOk (match counted (wholeBlock at_) site with
        | some x => countErr s x.1 x.2 1
        | none => s) = true := by
      split
      · exact memOk_countErr h
      · exact h
    have hone := memOk_oneFault (p := wholeBlock at_) hcount
    refine memOk_ite ?_ ?_
    · split
      · exact memOk_addLog hone
      · exact hone
    · split
      · exact memOk_addLog hone
      · exact hone

theorem memOk_execPatrolScrub (h : s.memOk = true) : memOkNext (execPatrolScrub s) = true := memOkNext_ite h h

theorem memOk_execSupplyFault {die col} (h : s.memOk = true) : memOkNext (execSupplyFault die col s) = true :=
  memOkNext_ite h (memOk_failColumns (memOk_addLog h))

theorem memOk_windowOf1 {e} (h : s.memOk = true) : (windowOf1 s e).memOk = true :=
  memOk_ite h (memOk_of_eq (memOk_addLog h) rfl rfl rfl)

theorem memOk_execErrorRateWindow (h : s.memOk = true) : memOkNext (execErrorRateWindow s) = true :=
  memOkNext_ite h (memOk_of_eq (memOk_foldl (fun _ _ hu => memOk_windowOf1 hu) h) rfl rfl rfl)

/-! ## LinkIn -/

theorem memOk_reply {p type f seq} (h : s.memOk = true) : (reply s p type f seq).memOk = true := memOk_onPort h

theorem memOk_ackOf {p f} (h : s.memOk = true) : (ackOf s p f).memOk = true := memOk_reply h

theorem memOk_nakOf {p f} (h : s.memOk = true) : (nakOf s p f).memOk = true := memOk_reply h

theorem memOk_countDrop {p} (h : s.memOk = true) : (countDrop s p).memOk = true := memOk_addLog (memOk_onPort h)

theorem memOk_storeFrag {o f} (h : s.memOk = true) : (storeFrag s o f).memOk = true := memOk_ite h h

theorem memOk_takeData {p o f} (h : s.memOk = true) : (takeData s p o f).memOk = true :=
  memOk_ite (memOk_storeFrag h) (memOk_logOf (memOk_countDrop h))

theorem memOk_takeCredit {o f} (h : s.memOk = true) : (takeCredit s o f).memOk = true := memOk_ite h h

theorem memOk_numbered {p o f} (h : s.memOk = true) : (numbered s p o f).memOk = true :=
  memOk_ite (memOk_ite h (memOk_ackOf (memOk_ite (memOk_takeData (memOk_onPort h)) (memOk_takeCredit
    (memOk_onPort h))))) (memOk_ite h (memOk_ackOf h))

theorem memOk_takeAck {p f} (h : s.memOk = true) : (takeAck s p f).memOk = true := memOk_onPort h

theorem memOk_failPort {p} (h : s.memOk = true) : (failPort s p).memOk = true :=
  memOk_foldl (fun _ _ hu => memOk_logLink hu) h

theorem memOk_markGroups {ms} (h : s.memOk = true) : (markGroups s ms).memOk = true := h

theorem memOk_portDown {p} (h : s.memOk = true) : (portDown s p).memOk = true :=
  memOk_onPort (memOk_markGroups (memOk_failPort h))

theorem memOk_resend {p old} (h : s.memOk = true) : (resend s p old).memOk = true :=
  memOk_ite h (memOk_ite (memOk_portDown h) (memOk_onPort (memOk_countErr h)))

theorem memOk_receiveFrame {p f} (h : s.memOk = true) : (receiveFrame p f s).memOk = true := by
  unfold receiveFrame
  split
  · exact h
  · split
    · exact memOk_countDrop h
    · split
      · exact memOk_nakOf h
      · split
        · exact memOk_countDrop h
        · split
          · exact memOk_countDrop h
          · exact memOk_ite (memOk_takeAck h) (memOk_ite (memOk_resend h) (memOk_numbered h))

theorem memOk_execDataFrame {port f} (h : s.memOk = true) : memOkNext (execDataFrame port f s) = true :=
  memOkNext_ite h (memOk_receiveFrame h)

theorem memOk_execAckFrame {port f} (h : s.memOk = true) : memOkNext (execAckFrame port f s) = true :=
  memOkNext_ite (memOk_receiveFrame h) h

theorem memOk_execNakFrame {port f} (h : s.memOk = true) : memOkNext (execNakFrame port f s) = true :=
  memOkNext_ite (memOk_receiveFrame h) h

theorem memOk_execCreditFrame {port f} (h : s.memOk = true) : memOkNext (execCreditFrame port f s) = true :=
  memOkNext_ite (memOk_receiveFrame h) h

theorem memOk_execRetransmitTimeout {port} (h : s.memOk = true) : memOkNext (execRetransmitTimeout port s) = true :=
  memOkNext_ite h (memOk_resend h)

/-! ## Memory -/

theorem memOk_ldSem {ord o} (h : e.s.memOk = true) : (ldSem ord o e).memOk = true := by
  unfold ldSem
  dsimp only
  refine memOk_withSpan h (fun _ _ => ?_)
  split
  · split
    · exact memOk_plumbDue (memOk_l1Touch h)
    · exact memOk_ask h
  · exact memOk_ask h

theorem memOk_stSem {ord o} (h : e.s.memOk = true) : (stSem ord o e).memOk = true :=
  memOk_withSpan h (fun _ _ => XRes.memOk_ite h (memOk_post h))

theorem memOk_vloadSem {ord d k va desc} (h : e.s.memOk = true) : (vloadSem ord d k va desc e).memOk = true := by
  unfold vloadSem
  dsimp only
  refine memOk_withSpan h (fun _ _ => ?_)
  split
  · exact memOk_loadPieces h
  · split
    · split
      · exact memOk_plumbDue (memOk_l1Touch h)
      · exact memOk_ask h
    · exact memOk_ask h

theorem memOk_vldSem {ord o} (h : e.s.memOk = true) : (vldSem ord o e).memOk = true := memOk_vloadSem h

theorem memOk_vldDescSem {ord d k m} (h : e.s.memOk = true) : (vldDescSem ord d k m e).memOk = true := memOk_vloadSem h

theorem memOk_vstoreSem {ord d k va desc} (h : e.s.memOk = true) : (vstoreSem ord d k va desc e).memOk = true :=
  memOk_withSpan h (fun _ _ => XRes.memOk_ite h (XRes.memOk_ite (memOk_storePieces h) (memOk_post h)))

theorem memOk_vstSem {ord o} (h : e.s.memOk = true) : (vstSem ord o e).memOk = true := memOk_vstoreSem h

theorem memOk_vstDescSem {ord d k m} (h : e.s.memOk = true) : (vstDescSem ord d k m e).memOk = true :=
  memOk_vstoreSem h

theorem memOk_prfSem {ad} (h : e.s.memOk = true) : (prfSem ad e).memOk = true := by
  unfold prfSem
  dsimp only
  split
  · exact h
  · split
    · exact memOk_walkFor h
    · exact XRes.memOk_ite h (memOk_addReq h)
    · exact h
    · exact h

theorem memOk_flushl1Sem (h : e.s.memOk = true) : (flushl1Sem e).memOk = true := memOk_dropL1 h

theorem memOk_ldsGen {clr sc o} (h : e.s.memOk = true) : (ldsGen clr sc o e).memOk = true :=
  memOk_withSpan h (fun _ _ => memOk_ask h)

theorem memOk_ldsSem {sc o} (h : e.s.memOk = true) : (ldsSem sc o e).memOk = true := memOk_ldsGen h

theorem memOk_ldsClrSem {sc o} (h : e.s.memOk = true) : (ldsClrSem sc o e).memOk = true := memOk_ldsGen h

theorem memOk_stfSem {o} (h : e.s.memOk = true) : (stfSem o e).memOk = true :=
  memOk_withSpan h (fun _ _ => memOk_post h)

theorem memOk_fecSem {full d ad} (h : e.s.memOk = true) : (fecSem full d ad e).memOk = true :=
  memOk_withSpan h (fun _ _ => memOk_ask h)

theorem memOk_rmwAsk {kind va n ord loc} (h : e.s.memOk = true) : (rmwAsk e kind va n ord loc).memOk = true :=
  memOk_ask h

theorem memOk_amoSem {op ty ord d m} (h : e.s.memOk = true) : (amoSem op ty ord d m e).memOk = true :=
  memOk_withSpan h (fun _ _ => memOk_rmwAsk h)

theorem memOk_amoFaddSem {ord d m} (h : e.s.memOk = true) : (amoFaddSem ord d m e).memOk = true := by
  unfold amoFaddSem
  dsimp only
  split
  · exact memOk_walkFor h
  · exact XRes.memOk_ite rfl rfl
  · exact XRes.memOk_ite rfl (memOk_rmwAsk h)

theorem memOk_casSem {ty ord d m} (h : e.s.memOk = true) : (casSem ty ord d m e).memOk = true :=
  memOk_withSpan h (fun _ _ => memOk_rmwAsk h)

theorem memOk_ldvSem {d ad} (h : e.s.memOk = true) : (ldvSem d ad e).memOk = true :=
  memOk_withSpan h (fun _ _ => memOk_ask h)

theorem memOk_cstorSem {ord d ad} (h : e.s.memOk = true) : (cstorSem ord d ad e).memOk = true := by
  unfold cstorSem
  dsimp only
  split
  · rfl
  · split
    · exact h
    · split
      · exact memOk_poisonT h
      · split
        · exact memOk_walkFor h
        · split
          · rfl
          · split
            · exact memOk_poisonT h
            · split
              · rfl
              · exact memOk_ask h

theorem memOk_fenceSem {k sc} (h : e.s.memOk = true) : (fenceSem k sc e).memOk = true := by
  unfold fenceSem
  dsimp only
  split
  · exact h
  · exact memOk_of_eq h rfl rfl rfl
  · exact XRes.memOk_ite h h

/-! ## Scalar -/

theorem memOk_aluSem {o f} (h : e.s.memOk = true) : (aluSem o f e).memOk = true := memOk_Env_give h

theorem memOk_divSem {o f} (h : e.s.memOk = true) : (divSem o f e).memOk = true := XRes.memOk_ite rfl h

theorem memOk_cmpSem {cc o} (h : e.s.memOk = true) : (cmpSem cc o e).memOk = true := memOk_aluSem h

theorem memOk_unSem {o f} (h : e.s.memOk = true) : (unSem o f e).memOk = true := memOk_Env_give h

theorem memOk_extrSem {sgn f} (h : e.s.memOk = true) : (extrSem sgn f e).memOk = true := memOk_Env_give h

theorem memOk_insrSem {f} (h : e.s.memOk = true) : (insrSem f e).memOk = true := memOk_Env_give h

theorem memOk_transfer {t w} (h : e.s.memOk = true) : (transfer e t w).memOk = true := by
  unfold transfer
  split
  · rfl
  · exact h

theorem memOk_takeIf {b off w} (h : e.s.memOk = true) : (takeIf b off w e).memOk = true :=
  XRes.memOk_ite (memOk_transfer h) h

/-! ## Sealed -/

theorem memOk_sealAsk {k set acq rel kind} (h : e.s.memOk = true) : (sealAsk e k set acq rel kind).memOk = true :=
  memOk_withChk h (fun _ => memOk_ask h)

theorem memOk_slputSem {int d ad} (h : e.s.memOk = true) : (slputSem int d ad e).memOk = true := by
  unfold slputSem
  dsimp only
  split
  · exact memOk_walkFor h
  · rfl
  · split
    · rfl
    · exact memOk_withBytes h (fun _ _ hu => memOk_sealAsk hu)

theorem memOk_slhashSem {d ad} (h : e.s.memOk = true) : (slhashSem d ad e).memOk = true :=
  memOk_withChk h (fun _ => memOk_withBytes h (fun _ _ hu => hu))

theorem memOk_slgetSem {d ad b} (h : e.s.memOk = true) : (slgetSem d ad b e).memOk = true := by
  unfold slgetSem
  dsimp only
  split
  · rfl
  · exact memOk_sealAsk h

theorem memOk_slrefSem {d a} (h : e.s.memOk = true) : (slrefSem d a e).memOk = true := by
  unfold slrefSem
  split
  · rfl
  · exact memOk_sealAsk h

theorem memOk_slunrefSem {d a} (h : e.s.memOk = true) : (slunrefSem d a e).memOk = true := by
  unfold slunrefSem
  split
  · rfl
  · exact memOk_sealAsk h

theorem memOk_slswapSem {d ad b} (h : e.s.memOk = true) : (slswapSem d ad b e).memOk = true := by
  unfold slswapSem
  dsimp only
  split
  · exact memOk_walkFor h
  · rfl
  · split
    · rfl
    · exact memOk_ask h

/-! ## Streams -/

theorem memOk_scfgSem {n ad} (h : e.s.memOk = true) : (scfgSem n ad e).memOk = true := by
  unfold scfgSem
  dsimp only
  refine memOk_withChk h (fun _ => ?_)
  refine memOk_withBytes h (fun _ _ hu => ?_)
  split
  · exact hu
  · rfl

theorem memOk_sbindSem {n k} (h : e.s.memOk = true) : (sbindSem n k e).memOk = true := h

theorem memOk_scloseSem {n} (h : e.s.memOk = true) : (scloseSem n e).memOk = true := h

theorem memOk_sposSem {d n set} (h : e.s.memOk = true) : (sposSem d n set e).memOk = true := by
  unfold sposSem
  dsimp only
  split
  · exact h
  · exact XRes.memOk_ite rfl h

theorem memOk_scommitSem {n} (h : e.s.memOk = true) : (scommitSem n e).memOk = true :=
  XRes.memOk_ite (XRes.memOk_ite h h) h

/-! ## Cycle -/

theorem memOk_fetchCheck (h : s.memOk = true) : (fetchCheck s e).memOk = true := by
  unfold fetchCheck
  split
  · exact memOk_ite h (memOk_fillCheck h)
  · exact h

theorem memOk_fetchFill (h : s.memOk = true) : (fetchFill s e).memOk = true := by
  unfold fetchFill
  split
  · exact memOk_ite (memOk_l1Touch h) (memOk_fillHere (memOk_touchRead h))
  · exact h

theorem memOk_noteIssue {o j c t} (h : s.memOk = true) : (noteIssue s o j c t).memOk = true :=
  memOk_of_eq h rfl rfl rfl

theorem memOk_issueFrom {o j t} (h : s.memOk = true) : (issueFrom s o j t).1.memOk = true := by
  unfold issueFrom
  dsimp only
  split
  · exact h
  · split
    · exact memOk_onThr h
    · split
      · exact memOk_putWait (memOk_walkFor (memOk_fetchCheck h))
      · exact memOk_takeTrap (memOk_fetchCheck h)
      · exact memOk_of_eq (memOk_fetchFill (memOk_fetchCheck h)) rfl rfl rfl

theorem memOk_countSlot {o j c} (h : s.memOk = true) : (countSlot s o j c).memOk = true := memOk_ite h h

theorem memOk_cycleOf {o j} (h : s.memOk = true) : (cycleOf s o j).1.memOk = true := by
  unfold cycleOf
  dsimp only
  split
  · split
    · exact h
    · split
      · split
        · exact h
        · split
          · split
            · exact memOk_issueFrom (memOk_noteIssue (memOk_onCore (memOk_countSlot h)))
            · exact memOk_onCore (memOk_countSlot h)
          · exact memOk_onCore (memOk_countSlot h)
      · split
        · exact memOk_onCore h
        · exact memOk_issueFrom (memOk_noteIssue (memOk_onCore (memOk_onCore h)))
  · exact h

/-! ## Settle -/

theorem memOk_takeAsync {t} (h : s.memOk = true) : (takeAsync s t).memOk = true := by
  unfold takeAsync
  dsimp only
  split
  · exact h
  · exact memOk_ite h (memOk_takeTrap (memOk_onThr (memOk_withdraw h)))

theorem memOk_wake {t} (h : s.memOk = true) : (wake s t).memOk = true := memOk_onThr h

theorem memOk_linkFail {t ti} (h : s.memOk = true) : (linkFail s t ti).memOk = true := memOk_trapWait h

/-! ## Links -/

theorem memOk_redEnd {w g r} {u : State} (h : s.memOk = true) (e : redEnd s w g r = .inr (some u)) : u.memOk = true := by
  unfold redEnd at e
  split at e
  · cases e
  · cases e
  · split at e
    · cases e
    · split at e
      · cases e
      · cases e
        exact memOk_useStep (memOk_lkWrite (memOk_foldl (fun _ _ hu => memOk_sendMsg hu) h))

/-! ## Settle -/

theorem memOk_settleSend {t w gr peer step buf len} (h : s.memOk = true) :
    (settleSend s t w gr peer step buf len).memOk = true := by
  unfold settleSend
  split
  · exact h
  · split
    · exact memOk_linkFail h
    · split
      · exact h
      · split
        · exact memOk_linkFail h
        · exact memOk_finishWait (memOk_sendNow h)

theorem memOk_settleRecv {t w gr peer step buf len} (h : s.memOk = true) :
    (settleRecv s t w gr peer step buf len).memOk = true := by
  unfold settleRecv
  split
  · exact h
  · split
    · exact memOk_ite (memOk_linkFail h) h
    · split
      · exact memOk_linkFail h
      next h0 => exact memOk_finishWait (memOk_takeMsg h h0)

theorem memOk_dropReduce {o gr step} (h : s.memOk = true) : (dropReduce s o gr step).memOk = true := h

theorem memOk_settleRed {t w gr step} (h : s.memOk = true) : (settleRed s t w gr step).memOk = true := by
  unfold settleRed
  split
  next g r _ _ =>
    refine memOk_ite (memOk_linkFail (memOk_dropReduce h)) ?_
    extract_lets p src u
    have hu : u.memOk = true := memOk_of_eq (memOk_redStep h) rfl rfl rfl
    clear_value u
    split
    · exact memOk_linkFail hu
    · exact hu
    next h0 => exact memOk_finishWait (memOk_dropReduce (memOk_redEnd hu h0))
  · exact h

theorem memOk_settleWait {w t why} (h : s.memOk = true) : (settleWait s w t why).memOk = true := by
  unfold settleWait
  dsimp only
  split
  · exact h
  · exact h
  · split
    · exact memOk_ite (memOk_wake h) h
    · exact h
  · exact memOk_ite (memOk_onThr (memOk_wake h)) h
  · exact memOk_ite (memOk_wake h) h
  · exact memOk_ite (memOk_wake h) h
  · split
    · exact memOk_ite (memOk_trapWait h) h
    · exact memOk_finishWait h
  · exact memOk_ite (memOk_finishWait h) h
  · exact memOk_ite h (memOk_finishWait h)
  · split
    · split
      · exact memOk_finishWait (memOk_onThr h)
      · exact h
    · exact h
  · exact memOk_ite h (memOk_wake h)
  · exact memOk_settleSend h
  · exact memOk_settleRecv h
  · exact memOk_settleRed h
  · exact memOk_ite h (memOk_wake h)
  · exact memOk_ite h (memOk_wake h)

theorem memOk_settleThread {key} (h : s.memOk = true) : (settleThread s key).memOk = true := by
  unfold settleThread
  split
  · exact h
  · split
    · exact h
    · split
      · exact memOk_takeAsync h
      · split
        · exact memOk_settleWait h
        · exact h

theorem memOk_walkStream {t page} (h : s.memOk = true) : (walkStream s t page).memOk = true :=
  memOk_ite h (memOk_walkFor h)

theorem memOk_askElement {w t n} (h : s.memOk = true) : (askElement s w t n).memOk = true := by
  unfold askElement
  dsimp only
  split
  · exact memOk_onThr h
  · exact memOk_walkStream h
  · split
    · exact memOk_onThr (memOk_l1Touch h)
    · exact memOk_addReq (memOk_onThr h)

theorem memOk_askAhead {key n k} (h : s.memOk = true) : (askAhead key n k s).memOk = true := by
  induction k generalizing s with
  | zero => exact h
  | succ k ih =>
    unfold askAhead
    split
    · exact h
    · dsimp only
      split
      · exact h
      · exact memOk_ite h (ih (memOk_askElement h))

theorem memOk_settleStreams {key} (h : s.memOk = true) : (settleStreams s key).memOk = true :=
  memOk_foldl (fun _ _ hu => memOk_askAhead hu) h

theorem memOk_deliverRecords {o n} (h : s.memOk = true) : (deliverRecords o n s).memOk = true := by
  induction n generalizing s with
  | zero => exact h
  | succ n ih =>
    unfold deliverRecords
    split
    · exact h
    · split
      · exact h
      · exact ih (memOk_onOwner (memOk_onThr h))

theorem memOk_settleOwner {o} (h : s.memOk = true) : (settleOwner s o).memOk = true := by
  unfold settleOwner
  extract_lets u
  have hu : u.memOk = true := memOk_ite h (memOk_flushDone h)
  refine memOk_ite hu ?_
  split
  · exact memOk_deliverRecords hu
  · exact hu

theorem memOk_sendEntry {o x} (h : s.memOk = true) : (sendEntry o s x).memOk = true := by
  unfold sendEntry
  split
  · exact memOk_ite (memOk_of_eq h rfl rfl rfl) h
  · exact h

theorem memOk_sendEntries {o j} (h : s.memOk = true) : (sendEntries s o j).memOk = true := by
  unfold sendEntries
  split
  · exact memOk_foldl (fun _ _ hu => memOk_sendEntry hu) h
  · exact h

theorem memOk_sendReq {q} (h : s.memOk = true) : (sendReq s q).memOk = true := by
  unfold sendReq
  dsimp only
  split
  · exact memOk_ite h h
  · exact h

theorem memOk_sendReqs (h : s.memOk = true) : (sendReqs s).memOk = true :=
  memOk_foldl (fun _ _ hu => memOk_sendReq hu) h

theorem memOk_settleEarly (h : s.memOk = true) : (settleEarly s).memOk = true := h

theorem memOk_settleYields (h : s.memOk = true) : (settleYields s).memOk = true := h

theorem memOk_settleCore {key} (h : s.memOk = true) : (settleCore s key).memOk = true :=
  memOk_ite h (memOk_sendEntries (memOk_deliverMsgs h))

theorem memOk_settle (h : s.memOk = true) : (settle s).memOk = true :=
  memOk_settleEarly (memOk_sendReqs (memOk_foldl (fun _ _ hu => memOk_settleStreams hu) (memOk_foldl
    (fun _ _ hu => memOk_settleThread hu) (memOk_foldl (fun _ _ hu => memOk_settleOwner hu) (memOk_serveAllHeld
    (memOk_sendReqs (memOk_foldl (fun _ _ hu => memOk_settleCore hu) (memOk_settleYields (memOk_grantCredits h)))))))))

/-! ## Turn -/

theorem memOk_countHeld {t : State} {n key} (h' : t.memOk = true) : (countHeld s n t key).memOk = true := by
  unfold countHeld
  dsimp only
  split
  · exact memOk_ite (memOk_ite h' (memOk_heldCycles h')) h'
  · exact h'

theorem memOk_passTime {n} (h : s.memOk = true) : (passTime s n).memOk = true :=
  memOk_of_eq (memOk_foldl (fun _ _ hu => memOk_countHeld hu) h) rfl rfl rfl

theorem memOk_afterAct (h : s.memOk = true) : (afterAct s).memOk = true := memOk_settle h

/-! ## Dispatch -/

theorem memOk_runV {sem : Env → Half} {i} (h : s.memOk = true) : memOkNext (runV i sem s) = true :=
  memOk_runX (fun _ he => memOk_Half_asX he) h

theorem memOk_exec (h : s.memOk = true) (i : Instr) : memOkNext (exec i s) = true := by
  cases i with
  | registerWrite _ _ => exact memOk_execRegisterWrite h
  | create _ => exact memOk_execCreate h
  | destroy _ => exact memOk_execDestroy h
  | launch _ => exact memOk_execLaunch h
  | preempt _ => exact memOk_execPreempt h
  | save _ => exact memOk_execSave h
  | saveArm _ => exact memOk_execSaveArm h
  | saveDisarm _ => exact memOk_execSaveDisarm h
  | restore _ => exact memOk_execRestore h
  | setcirc _ => exact memOk_execSetcirc h
  | readlog _ => exact memOk_execReadlog h
  | commandComplete _ => exact memOk_execCommandComplete h
  | hostMemRead _ _ => exact memOk_execHostMemRead h
  | hostMemWrite _ _ => exact memOk_execHostMemWrite h
  | hostSnoop _ => exact memOk_execHostSnoop h
  | doneFlag _ => exact memOk_execDoneFlag h
  | circuitFailed die cstart =>
    show memOkNext (execCircuitFailed die cstart s) = true
    exact memOk_execCircuitFailed h
  | saveQuiesce _ => exact memOk_execSaveQuiesce h
  | saveStreamDone _ _ _ => exact memOk_execSaveStreamDone h
  | restoreStreamDone _ => exact memOk_execRestoreStreamDone h
  | autoSave _ => exact memOk_execAutoSave h
  | supplyFault _ _ => exact memOk_execSupplyFault h
  | killDrainEnd _ _ => exact memOk_execKillDrainEnd h
  | controlInterval _ _ _ => exact memOk_execControlInterval h
  | threadMigrationDone _ _ => exact memOk_execThreadMigrationDone h
  | coreMigrationDone _ _ => exact memOk_execCoreMigrationDone h
  | forwardExpiry _ _ => exact memOk_execForwardExpiry h
  | governorWindow _ _ => exact memOk_execGovernorWindow h
  | frameMove _ _ => exact memOk_execFrameMove h
  | frameLineMove _ => exact memOk_execFrameLineMove h
  | trapDispatch _ _ => exact memOk_execTrapDispatch h
  | waitLimitExpiry _ _ => exact memOk_execWaitLimitExpiry h
  | translationWalkDone _ => exact memOk_execTranslationWalkDone h
  | targetRequest _ => exact memOk_execTargetRequest h
  | replyArrival _ => exact memOk_execReplyArrival h
  | amoCombine _ _ => exact memOk_execAmoCombine h
  | combinedReplySplit _ => exact memOk_execCombinedReplySplit h
  | postedStoreArrival _ _ _ => exact memOk_execPostedStoreArrival h
  | journalAck _ _ _ => exact memOk_execJournalAck h
  | journalRefusal _ _ _ => exact memOk_execJournalRefusal h
  | msendResend _ _ _ => exact memOk_execMsendResend h
  | xstPacket _ _ _ => exact memOk_execXstPacket h
  | barrierCompletion _ _ _ => exact memOk_execBarrierCompletion h
  | replicatedWriteReceived _ _ _ => exact memOk_execReplicatedWriteReceived h
  | replicatedApply _ _ _ => exact memOk_execReplicatedApply h
  | reclaimWalk _ _ => exact memOk_execReclaimWalk h
  | reclaimChildAck _ _ => exact memOk_execReclaimChildAck h
  | jobStart _ _ _ => exact memOk_execJobStart h
  | engineChunkCycle _ _ => exact memOk_execEngineChunkCycle h
  | chunkCommit _ _ => exact memOk_execChunkCommit h
  | copyBlock _ _ => exact memOk_execCopyBlock h
  | jobEnd _ _ _ => exact memOk_execJobEnd h
  | jobSuspend _ _ _ => exact memOk_execJobSuspend h
  | dataFrame _ _ => exact memOk_execDataFrame h
  | ackFrame _ _ => exact memOk_execAckFrame h
  | nakFrame _ _ => exact memOk_execNakFrame h
  | creditFrame _ _ => exact memOk_execCreditFrame h
  | retransmitTimeout _ => exact memOk_execRetransmitTimeout h
  | add _ | sub _ | mul _ | mulh _ | and _ | or _ | xor _ | andn _ | orn _ | shl _ | shr _ | sar _ | rot _ | min _
    | max _ => exact memOk_runX (fun _ => memOk_aluSem) h
  | div _ | rem _ => exact memOk_runX (fun _ => memOk_divSem) h
  | clz _ | ctz _ | popc _ | brev _ => exact memOk_runX (fun _ => memOk_unSem) h
  | extr _ _ => exact memOk_runX (fun _ => memOk_extrSem) h
  | insr _ => exact memOk_runX (fun _ => memOk_insrSem) h
  | li _ _ | lea _ _ | csel _ _ _ _ => exact memOk_runX (fun _ => memOk_Env_give) h
  | cmp _ _ => exact memOk_runX (fun _ => memOk_cmpSem) h
  | brcc _ _ _ | brz _ _ | brnz _ _ | jmp _ | call _ _ | loop _ _
    | bstrm _ _ => exact memOk_runX (fun _ => memOk_takeIf) h
  | jr _ => exact memOk_runX (fun _ => memOk_transfer) h
  | ld _ _ => exact memOk_runX (fun _ => memOk_ldSem) h
  | st _ _ => exact memOk_runX (fun _ => memOk_stSem) h
  | vld _ _ => exact memOk_runX (fun _ => memOk_vldSem) h
  | vst _ _ => exact memOk_runX (fun _ => memOk_vstSem) h
  | vldDesc _ _ _ _ => exact memOk_runX (fun _ => memOk_vldDescSem) h
  | vstDesc _ _ _ _ => exact memOk_runX (fun _ => memOk_vstDescSem) h
  | lds _ _ => exact memOk_runX (fun _ => memOk_ldsSem) h
  | ldsClr _ _ => exact memOk_runX (fun _ => memOk_ldsClrSem) h
  | stf _ => exact memOk_runX (fun _ => memOk_stfSem) h
  | fec _ _ _ => exact memOk_runX (fun _ => memOk_fecSem) h
  | prf _ => exact memOk_runX (fun _ => memOk_prfSem) h
  | amoAdd _ _ _ _ | amoAnd _ _ _ _ | amoOr _ _ _ _ | amoXor _ _ _ _ | amoMin _ _ _ _ | amoMax _ _ _ _
    | amoSwap _ _ _ _ => exact memOk_runX (fun _ => memOk_amoSem) h
  | amoFadd _ _ _ => exact memOk_runX (fun _ => memOk_amoFaddSem) h
  | cas _ _ _ _ => exact memOk_runX (fun _ => memOk_casSem) h
  | ldv _ _ => exact memOk_runX (fun _ => memOk_ldvSem) h
  | cstor _ _ _ => exact memOk_runX (fun _ => memOk_cstorSem) h
  | fence _ _ => exact memOk_runX (fun _ => memOk_fenceSem) h
  | pst _ => exact memOk_runX (fun _ => memOk_pstSem) h
  | pstF _ => exact memOk_runX (fun _ => memOk_pstFSem) h
  | xst _ => exact memOk_runX (fun _ => memOk_xstSem) h
  | xstF _ => exact memOk_runX (fun _ => memOk_xstFSem) h
  | msend _ _ => exact memOk_runX (fun _ => memOk_msendSem) h
  | mrecv _ _ => exact memOk_runX (fun _ => memOk_mrecvSem) h
  | mrecvTrap _ => exact memOk_runX (fun _ => memOk_mrecvTrapSem) h
  | bara _ _ => exact memOk_runX (fun _ => memOk_baraSem) h
  | barmax _ _ => exact memOk_runX (fun _ => memOk_barmaxSem) h
  | barw _ _ => exact memOk_runX (fun _ => memOk_barwSem) h
  | qput _ _ _ => exact memOk_runX (fun _ => memOk_qputSem) h
  | qget _ _ _ => exact memOk_runX (fun _ => memOk_qgetSem) h
  | wpush _ _ => exact memOk_runX (fun _ => memOk_wpushSem) h
  | wpop _ => exact memOk_runX (fun _ => memOk_wpopSem) h
  | waitc _ _ _ => exact memOk_runX (fun _ => memOk_waitcSem) h
  | mfs _ _ => exact memOk_runX (fun _ => memOk_mfsSem) h
  | mts _ _ => exact memOk_runX (fun _ => memOk_mtsSem) h
  | trap _ _ => exact memOk_runX (fun _ _ => memOk_trapSem) h
  | haltRetain _ => exact memOk_runX (fun _ => memOk_haltRetainSem) h
  | nopLong _ _ | nop => exact memOk_runX (fun _ => memOk_nopSem) h
  | launchInstr _ _ _ => exact memOk_runX (fun _ => memOk_launchSem) h
  | skimw _ _ => exact memOk_runX (fun _ => memOk_skimwSem) h
  | spawn _ _ _ => exact memOk_runX (fun _ => memOk_spawnSem) h
  | rdcyc _ => exact memOk_runX (fun _ => memOk_rdcycSem) h
  | mxrun _ _ _ => exact memOk_runX (fun _ => memOk_mxrunSem) h
  | mxcarryLd _ _ _ | mxcarrySt _ _ _ => exact memOk_runX (fun _ => memOk_carrySem) h
  | cucopy _ _ _ => exact memOk_runX (fun _ => memOk_cucopySem) h
  | cufill _ _ _ _ _ => exact memOk_runX (fun _ => memOk_cufillSem) h
  | culdb _ _ _ _ => exact memOk_runX (fun _ => memOk_culdbSem) h
  | cudigest _ _ _ _ => exact memOk_runX (fun _ => memOk_cudigestSem) h
  | jwait _ _ => exact memOk_runX (fun _ => memOk_jwaitSem) h
  | jpoll _ _ => exact memOk_runX (fun _ => memOk_jpollSem) h
  | jcancel _ _ => exact memOk_runX (fun _ => memOk_jcancelSem) h
  | scfg _ _ => exact memOk_runX (fun _ => memOk_scfgSem) h
  | sbind _ _ => exact memOk_runX (fun _ => memOk_sbindSem) h
  | sclose _ => exact memOk_runX (fun _ => memOk_scloseSem) h
  | spos _ _ _ => exact memOk_runX (fun _ => memOk_sposSem) h
  | scommit _ => exact memOk_runX (fun _ => memOk_scommitSem) h
  | slput _ _ _ => exact memOk_runX (fun _ => memOk_slputSem) h
  | slget _ _ _ => exact memOk_runX (fun _ => memOk_slgetSem) h
  | slref _ _ => exact memOk_runX (fun _ => memOk_slrefSem) h
  | slunref _ _ => exact memOk_runX (fun _ => memOk_slunrefSem) h
  | slswap _ _ _ => exact memOk_runX (fun _ => memOk_slswapSem) h
  | slout _ _ _ _ => exact memOk_runX (fun _ => memOk_sloutSem) h
  | slhash _ _ => exact memOk_runX (fun _ => memOk_slhashSem) h
  | lksend _ _ => exact memOk_runX (fun _ => memOk_lksendSem) h
  | lkrecv _ _ => exact memOk_runX (fun _ => memOk_lkrecvSem) h
  | lkred _ _ => exact memOk_runX (fun _ => memOk_lkredSem) h
  | singleFault _ => exact memOk_execSingleFault h
  | powerUp => exact memOk_execPowerUp h
  | powerUpZeroingDone => exact memOk_execPowerUpZeroingDone h
  | doorbell => exact memOk_execDoorbell h
  | ringEnable => exact memOk_execRingEnable h
  | ringDisable => exact memOk_execRingDisable h
  | warn => exact memOk_execWarn h
  | drain => exact memOk_execDrain h
  | drainTimeout => exact memOk_execDrainTimeout h
  | chunk => exact memOk_execChunk h
  | streamSlot => exact memOk_execStreamSlot h
  | swap => exact memOk_execSwap h
  | resume => exact memOk_execResume h
  | deferredInstant => exact memOk_execDeferredInstant h
  | errorRateWindow => exact memOk_execErrorRateWindow h
  | patrolScrub => exact memOk_execPatrolScrub h
  | balancingInterval => exact memOk_execBalancingInterval h
  | flushl1 => exact memOk_runX (fun _ => memOk_flushl1Sem) h
  | halt => exact memOk_runX (fun _ => memOk_haltSem) h
  | yield => exact memOk_runX (fun _ => memOk_yieldSem) h
  | powerLoss => exact memOk_execPowerLoss h
  | _ => exact memOk_runV h

/-! ## The step -/

theorem memOk_nextAct (h : s.memOk = true) : (nextAct s).2.memOk = true := by
  unfold nextAct
  split
  · exact h
  · exact h

theorem memOk_perform {i} (h : s.memOk = true) : memOkNext (perform i s) = true := by
  have hx := memOk_exec h i
  unfold perform
  split
  next h0 =>
    rw [h0] at hx
    exact memOk_afterAct hx
  · rfl
  · rfl

theorem memOk_act {a} (h : s.memOk = true) : memOkNext (act a s) = true := by
  cases a with
  | event i => exact memOk_perform h
  | pass n => exact memOk_afterAct (memOk_passTime h)
  | core o j =>
    have hc := memOk_cycleOf h (o := o) (j := j)
    unfold act
    dsimp only
    split
    next h0 => exact memOk_perform (memOk_of_fst h0 hc)
    next h0 => exact memOk_afterAct (memOk_of_fst h0 hc)

theorem memOk_step (h : s.memOk = true) : memOkNext (step s) = true := memOk_act (memOk_nextAct h)

end Sys2Proof.Machine
end

section
open Sys2Proof Sys2Proof.Machine

/-- Settles O6: the canonical form is kept by every function that the step calls. -/
theorem stepKeepsMemory : Obligations.StepKeepsMemory := by
  unfold Obligations.StepKeepsMemory
  intro s s' h hs
  have hk := memOk_step h
  rwa [hs] at hk

end

section
/-!
SUPPORT. The host's side of the device: the register window and the ring (R32 to R36), an access inside one block (R46,
R411), and the octets that wake and rest (R94).
-/

namespace Sys2Proof.Machine

variable {s : State} {pa n : Nat}

/-! ## Octets (R94) -/

/-- Waking octets touches the sleeping ones alone, and only takes some out. -/
theorem wakeOctets_eq (s : State) (pa n : Nat) :
    ∃ q, wakeOctets s pa n = { s with asleep := q } ∧ ∀ x ∈ q, x ∈ s.asleep := by
  unfold wakeOctets
  split
  · exact ⟨s.asleep, rfl, fun _ hx => hx⟩
  · exact ⟨_, rfl, fun _ hx => (List.mem_filter.1 hx).1⟩

/-- One octet's rest adds to the sleeping ones. -/
theorem maySleep_grows (s : State) (q : Nat) :
    ∃ l, maySleep s q = { s with asleep := l } ∧ ∀ x ∈ s.asleep, x ∈ l := by
  unfold maySleep
  dsimp only
  split
  · exact ⟨s.asleep, rfl, fun _ hx => hx⟩
  · exact ⟨_, rfl, fun _ hx => List.mem_append_left _ hx⟩

theorem foldl_maySleep_grows (qs : List Nat) (s : State) :
    ∃ l, qs.foldl maySleep s = { s with asleep := l } ∧ ∀ x ∈ s.asleep, x ∈ l := by
  induction qs generalizing s with
  | nil => exact ⟨s.asleep, rfl, fun _ hx => hx⟩
  | cons q qs ih =>
    obtain ⟨l, hl, hsub⟩ := maySleep_grows s q
    obtain ⟨l', hl', hsub'⟩ := ih (maySleep s q)
    rw [hl] at hl' hsub'
    exact ⟨l', by rw [List.foldl_cons, hl, hl'], fun x hx => hsub' x (hsub x hx)⟩

theorem restOctets_grows (s : State) (rs : List (Nat × Nat)) :
    ∃ l, restOctets s rs = { s with asleep := l } ∧ ∀ x ∈ s.asleep, x ∈ l := foldl_maySleep_grows _ s

/-- A block of 64 bytes lies in one octet. -/
theorem octetOf_sameBlock {a b : Nat} (h : a / 64 = b / 64) : octetOf a = octetOf b := by
  have hspan : a / stackSpan = b / stackSpan := by
    simp only [stackSpan]
    omega
  have hoct : a % stackSpan / 0x3C0000000 = b % stackSpan / 0x3C0000000 := by
    simp only [stackSpan] at hspan ⊢
    omega
  simp only [octetOf, stackOf, hspan, hoct]

/-- An access inside a block wakes the block's octet. -/
theorem not_mem_wakeOctets_block (hn : 0 < n) (hb : pa % 64 + n ≤ 64) : octetOf pa ∉ (wakeOctets s pa n).asleep := by
  have hlast : octetOf (pa + n - 1) = octetOf pa := octetOf_sameBlock (by omega)
  unfold wakeOctets
  split
  next h =>
    have hempty : s.asleep = [] := by simpa [hn.ne'] using h
    simp [hempty]
  · simp [hlast]

/-! ## The ring (R33) -/

/-- The ranges of addresses begin and end at multiples of 64 KiB (R19, R21). -/
theorem rangeOf_chunk (pa : Nat) : rangeOf pa = rangeOf (pa / 65536 * 65536) := by
  have h1 : pa < 16 * stackSpan ↔ pa / 65536 * 65536 < 16 * stackSpan := by
    simp only [stackSpan]
    omega
  have h2 : pa % stackSpan < stackUse ↔ pa / 65536 * 65536 % stackSpan < stackUse := by
    simp only [stackSpan, stackUse]
    omega
  have h3 : pa < hostBase ↔ pa / 65536 * 65536 < hostBase := by
    simp only [hostBase]
    omega
  have h4 : pa < 2 ^ 52 ↔ pa / 65536 * 65536 < 2 ^ 52 := by omega
  simp only [rangeOf, h1, h2, h3, h4]

theorem ringInHole_iff (hbase : s.cqbase % 65536 = 0) :
    ringInHole s = true ↔
      ∃ pa, s.cqbase ≤ pa ∧ pa < s.cqbase + 2 ^ s.cqsize * 64 ∧
        (rangeOf pa = .hole ∨ rangeOf pa = .reserved) := by
  simp only [ringInHole, List.any_eq_true, List.mem_range, Bool.or_eq_true, beq_iff_eq]
  generalize 2 ^ s.cqsize * 64 = m
  constructor
  · rintro ⟨i, hi, hr⟩
    exact ⟨s.cqbase + i * 65536, by omega, by omega, hr⟩
  · rintro ⟨pa, hlo, hhi, hr⟩
    refine ⟨(pa - s.cqbase) / 65536, by omega, ?_⟩
    rwa [show s.cqbase + (pa - s.cqbase) / 65536 * 65536 = pa / 65536 * 65536 by omega, ← rangeOf_chunk]

/-- Two ranges meet where they have an address in common. -/
theorem meets_iff {a b : Nat × Nat} :
    meets a b = true ↔ ∃ x, (a.1 ≤ x ∧ x < a.1 + a.2) ∧ b.1 ≤ x ∧ x < b.1 + b.2 := by
  simp only [meets, Bool.and_eq_true, bne_iff_ne, decide_eq_true_eq]
  constructor
  · rintro ⟨⟨⟨_, _⟩, _⟩, _⟩
    exact ⟨max a.1 b.1, by omega, by omega⟩
  · rintro ⟨x, _, _⟩
    omega

theorem mem_liveExtents {r : Nat × Nat} :
    r ∈ liveExtents s none ↔ ∃ p ∈ s.owners, ∃ e ∈ p.2.extents, r = (e.base, e.len * 65536) := by
  simp only [liveExtents, List.mem_flatMap, reduceCtorEq, if_false, List.mem_map, eq_comm]

/-- A range of addresses meets an extent where the extent has one of them. -/
theorem meetsExtents_iff {a m : Nat} : (liveExtents s none).any (meets (a, m)) = true ↔
    ∃ p ∈ s.owners, ∃ e ∈ p.2.extents, ∃ pa, a ≤ pa ∧ pa < a + m ∧ e.has pa = true := by
  simp only [List.any_eq_true, mem_liveExtents, Extent.has, Bool.and_eq_true, decide_eq_true_eq]
  constructor
  · rintro ⟨_, ⟨p, hp, e, he, rfl⟩, hmeet⟩
    obtain ⟨x, ⟨h1, h2⟩, h3⟩ := meets_iff.1 hmeet
    exact ⟨p, hp, e, he, x, h1, h2, h3⟩
  · rintro ⟨p, hp, e, he, x, h1, h2, h3⟩
    exact ⟨_, ⟨p, hp, e, he, rfl⟩, meets_iff.2 ⟨x, ⟨h1, h2⟩, h3⟩⟩

theorem exec_ringEnable (hp : powered s = true) (hen : s.cqen = false) : exec .ringEnable s = .next (enableRing s) := by
  show execRingEnable s = _
  unfold execRingEnable
  simp [hp, hen]

theorem enableRing_badSize (hen : s.cqen = false) (h : s.cqsize < 4 ∨ 12 < s.cqsize) :
    enableRing s = { s with badSize := true } := by
  unfold enableRing
  rw [if_pos h, ← hen]

theorem enableRing_baseFault (hen : s.cqen = false) (h : ¬ (s.cqsize < 4 ∨ 12 < s.cqsize))
    (hbad : ringInHole s = true ∨ (liveExtents s none).any (meets (s.cqbase, 2 ^ s.cqsize * 64)) = true) :
    enableRing s = { s with baseFault := true } := by
  unfold enableRing
  rw [if_neg h]
  dsimp only
  rw [if_pos (by simpa using hbad), ← hen]

theorem enableRing_ok (h : ¬ (s.cqsize < 4 ∨ 12 < s.cqsize)) (hhole : ringInHole s = false)
    (hext : (liveExtents s none).any (meets (s.cqbase, 2 ^ s.cqsize * 64)) = false) :
    enableRing s = wakeOctets { s with cqen := true, cqhead := 0 } s.cqbase (2 ^ s.cqsize * 64) := by
  unfold enableRing
  rw [if_neg h]
  dsimp only
  rw [if_neg (by simp [hhole, hext])]

theorem exec_ringDisable (hp : powered s = true) :
    ∃ q, exec .ringDisable s = .next { s with cqen := false, asleep := q } ∧ ∀ x ∈ s.asleep, x ∈ q := by
  have hx : exec .ringDisable s = .next (disableRing s) := by
    show execRingDisable s = _
    unfold execRingDisable
    rw [if_pos hp]
  rw [hx]
  unfold disableRing
  dsimp only
  split
  · obtain ⟨q, hq, hsub⟩ := restOctets_grows { s with cqen := false } (ringRange s)
    exact ⟨q, by rw [hq], hsub⟩
  · exact ⟨s.asleep, rfl, fun _ h => h⟩

/-! ## Entries (R35, R36) -/

theorem Memory.readN_drop (m : Memory) (n k a : Nat) : (Memory.readN m a n).drop k = Memory.readN m (a + k) (n - k) := by
  induction k generalizing a n with
  | zero => rfl
  | succ k ih =>
    cases n with
    | zero => simp [Memory.readN]
    | succ n =>
      rw [Memory.readN, List.drop_succ_cons, ih]
      congr 1 <;> omega

theorem Memory.readN_take (m : Memory) (n k a : Nat) : (Memory.readN m a n).take k = Memory.readN m a (min k n) := by
  induction k generalizing a n with
  | zero => simp [Memory.readN]
  | succ k ih =>
    cases n with
    | zero => simp [Memory.readN]
    | succ n =>
      rw [Memory.readN, List.take_succ_cons, ih, Nat.succ_min_succ, Memory.readN]

theorem Memory.nat_eq_foldr (m : Memory) (a n : Nat) :
    Memory.nat m a n = (Memory.readN m a n).foldr (fun b x => b.toNat + 256 * x) 0 := by
  induction n generalizing a with
  | zero => rfl
  | succ n ih => rw [Memory.nat, Memory.readN, List.foldr_cons, ih]

/-- A number is zero when its bytes are. -/
theorem Memory.nat_eq_zero_iff (m : Memory) (a n : Nat) :
    Memory.nat m a n = 0 ↔ (Memory.readN m a n).all (· == 0) = true := by
  induction n generalizing a with
  | zero => simp [Memory.nat, Memory.readN]
  | succ n ih =>
    have hb : (Memory.read m a).toNat = 0 ↔ Memory.read m a = 0 := by
      rw [← BitVec.toNat_inj]
      rfl
    simp only [Memory.nat, Memory.readN, List.all_cons, Bool.and_eq_true, beq_iff_eq, ← ih, ← hb]
    omega

theorem fieldOf_readN {off k : Nat} (m : Memory) (h : off + k ≤ n) :
    fieldOf (Memory.readN m pa n) off k = Memory.nat m (pa + off) k := by
  rw [fieldOf, Memory.readN_drop, Memory.readN_take, Memory.nat_eq_foldr, min_eq_left (by omega)]

theorem zeroIn_readN {off k : Nat} (m : Memory) (h : off + k ≤ n) :
    zeroIn (Memory.readN m pa n) off k = (Memory.readN m (pa + off) k).all (· == 0) := by
  rw [zeroIn, Memory.readN_drop, Memory.readN_take, min_eq_left (by omega)]

theorem Memory.readN_append (m : Memory) (a k l : Nat) :
    Memory.readN m a (k + l) = Memory.readN m a k ++ Memory.readN m (a + k) l := by
  induction k generalizing a with
  | zero => simp [Memory.readN]
  | succ k ih =>
    rw [Nat.succ_add, Memory.readN, Memory.readN, ih, List.cons_append, Nat.add_right_comm a 1 k]
    rfl

/-- The reserved bytes at an entry's end are three numbers of 8 bytes (R36). -/
theorem zeroIn_tail (m : Memory) : zeroIn (Memory.readN m pa 64) 40 24 = false ↔
    ¬ (Memory.nat m (pa + 40) 8 = 0 ∧ Memory.nat m (pa + 48) 8 = 0 ∧ Memory.nat m (pa + 56) 8 = 0) := by
  rw [← Bool.not_eq_true, not_iff_not, zeroIn_readN m (by omega),
    Memory.readN_append m _ 8 16, Memory.readN_append m _ 8 8]
  simp only [List.all_append, Bool.and_eq_true, ← Memory.nat_eq_zero_iff, Nat.add_assoc]

theorem exec_doorbell_one (hen : s.cqen = true) (hacc : accepting s = true) (hsize : 1 ≤ s.cqsize)
    (htail : s.cqtail % 2 ^ s.cqsize = (s.cqhead + 1) % 2 ^ s.cqsize) : exec .doorbell s = .next (takeHead s) := by
  have hone : outstanding s = 1 := by
    have hN : 2 ≤ 2 ^ s.cqsize := by
      calc 2 = 2 ^ 1 := rfl
        _ ≤ 2 ^ s.cqsize := Nat.pow_le_pow_right (by omega) hsize
    unfold outstanding
    rw [htail, Nat.add_mod s.cqhead 1, Nat.mod_eq_of_lt (show 1 < 2 ^ s.cqsize by omega)]
    generalize 2 ^ s.cqsize = N at hN
    have hh : s.cqhead % N < N := Nat.mod_lt _ (by omega)
    rcases Nat.lt_or_ge (s.cqhead % N + 1) N with hlt | hge
    · rw [Nat.mod_eq_of_lt hlt, show s.cqhead % N + 1 + N - s.cqhead % N = N + 1 by omega, Nat.add_mod_left,
        Nat.mod_eq_of_lt (by omega)]
    · rw [show s.cqhead % N + 1 = N by omega, Nat.mod_self, show 0 + N - s.cqhead % N = 1 by omega,
        Nat.mod_eq_of_lt (by omega)]
  show Host.Outcome.next (notify s) = _
  rw [notify, hen, hacc, hone]
  rfl

/-! ## An access inside one block (R46, R411) -/

theorem extentOwner_some {o : Nat} {w : Owner} {e : Extent} (h : extentOwner s pa = some (o, w, e)) :
    (o, w) ∈ s.owners ∧ e ∈ w.extents ∧ e.has pa = true := by
  obtain ⟨p, hp, hf⟩ := List.exists_of_findSome?_eq_some h
  obtain ⟨e', he, heq⟩ := Option.map_eq_some_iff.1 hf
  have hfind : p.2.extents.find? (·.has pa) = some e' := he
  cases heq
  exact ⟨hp, List.mem_of_find?_eq_some hfind, by simpa using List.find?_some hfind⟩

/-- Outside the holes and the reserved range an access is judged by the extent that it falls into. -/
theorem judge_of_range (h : ¬ (rangeOf pa = .hole ∨ rangeOf pa = .reserved)) :
    judge s pa = match extentOwner s pa with
      | some (o, w, e) => if w.placed && w.launched && !e.host then .closed o else .open_
      | none => .open_ := by
  unfold judge
  cases hr : rangeOf pa with
  | hbm => rfl
  | host => rfl
  | hole => exact absurd (Or.inl hr) h
  | reserved => exact absurd (Or.inr hr) h

theorem judge_hole (h : rangeOf pa = .hole ∨ rangeOf pa = .reserved) : judge s pa = .hole := by
  unfold judge
  rcases h with h | h <;> rw [h]

theorem judge_closed (h : ¬ (rangeOf pa = .hole ∨ rangeOf pa = .reserved)) {o : Nat} {w : Owner} {e : Extent}
    (hx : extentOwner s pa = some (o, w, e)) (hp : w.placed = true) (hl : w.launched = true) (he : e.host = false) :
    judge s pa = .closed o := by
  rw [judge_of_range h, hx]
  simp [hp, hl, he]

theorem judge_open (hr : rangeOf pa = .hbm ∨ rangeOf pa = .host)
    (h : ∀ p ∈ s.owners, ∀ e ∈ p.2.extents, e.has pa = true →
      p.2.placed = false ∨ p.2.launched = false ∨ e.host = true) :
    judge s pa = .open_ := by
  rw [judge_of_range (by rcases hr with hr | hr <;> simp [hr])]
  cases hx : extentOwner s pa with
  | none => rfl
  | some x =>
    obtain ⟨o, w, e⟩ := x
    obtain ⟨hmem, he, hhas⟩ := extentOwner_some hx
    rcases h _ hmem e he hhas with h | h | h <;> simp_all

theorem blockPart_block (h : pa % 64 + n ≤ 64) : blockPart pa n = n := by
  exact min_eq_left (by omega)

theorem blockPart_zero (pa : Nat) : blockPart pa 0 = 0 := Nat.zero_min _

/-- A read of nothing answers nothing. -/
theorem hostRead_zero (k : Nat) : hostRead s k pa 0 = [] := by
  induction k generalizing pa with
  | zero => rfl
  | succ k ih =>
    rw [hostRead, blockPart_zero]
    simp [bytesNow, ih]

/-- What a read inside one block answers: poison, or the bytes. -/
def blockAnswer (s : State) (pa n : Nat) : List (Option Byte) :=
  if judge s pa = .open_ ∧ markAt s (.mem pa) = 0 then (bytesNow s pa n).map some else List.replicate n none

theorem hostRead_block (h : pa % 64 + n ≤ 64) (k : Nat) : hostRead s (k + 1) pa n = blockAnswer s pa n := by
  rw [hostRead, blockPart_block h, blockAnswer, Nat.sub_self, hostRead_zero, List.append_nil]
  by_cases h1 : judge s pa = .open_ <;> by_cases h2 : markAt s (.mem pa) = 0 <;> simp [h1, h2]

theorem hostWrite_nil (k : Nat) : hostWrite k pa [] s = s := by
  cases k with
  | zero => rfl
  | succ k => rw [hostWrite, List.length_nil, blockPart_zero, if_pos rfl]

theorem hostWrite_block {bs : List Byte} (hn : 0 < bs.length) (h : pa % 64 + bs.length ≤ 64) (k : Nat) :
    hostWrite (k + 1) pa bs s = hostBlock s pa bs := by
  rw [hostWrite, blockPart_block h, if_neg hn.ne', List.drop_length, List.take_length, hostWrite_nil]

theorem exec_hostMemRead (hp : powered s = true) (h : pa % 64 + n ≤ 64) : exec (.hostMemRead pa n) s
    = .next (wakeOctets { readLines s pa n with hostAns := s.hostAns ++ [⟨pa, blockAnswer s pa n⟩] } pa n) := by
  show execHostMemRead pa n s = _
  unfold execHostMemRead
  simp only [hp, Bool.not_true, Bool.false_eq_true, if_false, hostRead_block h]

theorem exec_hostMemWrite {bs : List Byte} (hp : powered s = true) (hn : 0 < bs.length) (h : pa % 64 + bs.length ≤ 64) :
    exec (.hostMemWrite pa bs) s = .next (wakeOctets (hostBlock s pa bs) pa bs.length) := by
  show execHostMemWrite pa bs s = _
  unfold execHostMemWrite
  rw [if_pos hp, hostWrite_block hn h]

/-- A read inside a block rewrites that block's corrected line, where the host may read it (R78). -/
theorem mem_readLines (hn : 0 < n) (h : pa % 64 + n ≤ 64) {x : FaultPlace} : x ∈ (readLines s pa n).flips ↔
    x ∈ s.flips ∧ ∀ a, x = .hbm a → a / 64 = pa / 64 → judge s a ≠ .open_ := by
  have hlast : (pa + n - 1) / 64 = pa / 64 := by omega
  simp only [readLines, List.mem_filter, hlast]
  refine and_congr_right fun _ => ?_
  cases x with
  | hbm a =>
    by_cases hblk : a / 64 = pa / 64
    · simp [hn.ne', hblk]
    · have hside : a / 64 < pa / 64 ∨ pa / 64 < a / 64 := by omega
      rcases hside with hside | hside <;> simp [hblk, hside]
  | _ => simp

/-- A read that reaches the stack touches its corrected lines alone. -/
theorem stackRead_eq (s : State) (pa : Nat) : ∃ fl, stackRead s pa = { s with flips := fl } := by
  unfold stackRead
  split
  · exact ⟨s.flips, rfl⟩
  · exact ⟨_, rfl⟩

/-- A write takes its blocks out of the images, and touches nothing else of the state. -/
theorem spoil_eq (s : State) (pa n : Nat) : ∃ ims, spoil s pa n = { s with images := ims } := by
  unfold spoil
  split
  · exact ⟨s.images, rfl⟩
  · exact ⟨_, rfl⟩

theorem settleBlock_eq (s : State) (pa : Nat) : ∃ m ims, settleBlock s pa = { s with mem := m, images := ims } ∧
    (coverOf s pa = none → m = s.mem) := by
  unfold settleBlock
  cases h : coverOf s pa with
  | none => exact ⟨s.mem, s.images, rfl, fun _ => rfl⟩
  | some x =>
    obtain ⟨im, die, blk⟩ := x
    obtain ⟨ims, hims⟩ := spoil_eq { s with mem := Memory.writeN s.mem (pa / 64 * 64) (imageBlock im die blk) }
      (pa / 64 * 64) 64
    exact ⟨_, ims, hims, fun hnone => by cases hnone⟩

theorem writeAt_mem_eq (s : State) (pa : Nat) (bs : List Byte) :
    ∃ ims, writeAt s (.mem pa) bs = { s with mem := Memory.writeN s.mem pa bs, images := ims } :=
  spoil_eq { s with mem := Memory.writeN s.mem pa bs } pa bs.length

/-- A host write of an open block: its bytes go into memory, over the block as it read when an image still covered it,
and a whole block loses its mark. -/
theorem hostBlock_open {bs : List Byte} (hj : judge s pa = .open_) : ∃ m fl ims pz,
    hostBlock s pa bs = { s with mem := Memory.writeN m pa bs, flips := fl, images := ims, poison := pz } ∧
    (coverOf s pa = none → m = s.mem) ∧
    ∀ b, getD 0 pz b = if b = pa / 64 ∧ bs.length = 64 then 0 else getD 0 s.poison b := by
  obtain ⟨fl, hfl⟩ := stackRead_eq s pa
  unfold hostBlock
  rw [hj]
  dsimp only
  rw [hfl]
  by_cases h64 : bs.length = 64
  · obtain ⟨ims, hw⟩ := writeAt_mem_eq { s with flips := fl } pa bs
    refine ⟨s.mem, fl, ims, setD 0 s.poison (pa / 64) 0, ?_, fun _ => rfl, fun b => ?_⟩
    · rw [if_pos h64, writeBlocks, h64, hw]
      rfl
    · by_cases hb : b = pa / 64
      · simp [hb, h64]
      · simp [hb, getD_setD_ne 0 s.poison 0 hb]
  · obtain ⟨m, ims, hset, hm⟩ := settleBlock_eq { s with flips := fl } pa
    obtain ⟨ims', hw⟩ := writeAt_mem_eq (settleBlock { s with flips := fl } pa) pa bs
    refine ⟨m, fl, ims', s.poison, ?_, hm, fun b => by simp [h64]⟩
    rw [if_neg h64, hw, hset]

/-- With room in the ring a record is appended to it (R80). -/
theorem addLog_room (r : LogRec) (hlen : s.log.length < logSize) (hwait : s.logWait = []) :
    ∃ a d, addLog s r = { s with log := s.log ++ [{ r with time := timeNs s, aux := a }], dropped := d } := by
  unfold addLog
  dsimp only
  rw [if_pos (by simp [hlen, hwait])]
  exact ⟨_, _, rfl⟩

/-- A write of a block that is not open is dropped and leaves a record of kind 6 (R46, R80). -/
theorem hostBlock_shut {bs : List Byte} (hj : judge s pa ≠ .open_) : ∃ o, hostBlock s pa bs
    = addLog s { blankLog with kind := 6, owner := o, addr := pa / 64 * 64 } ∧
      ∀ o', judge s pa = .closed o' → o = o' := by
  unfold hostBlock
  cases h : judge s pa with
  | open_ => exact absurd h hj
  | hole => exact ⟨blankLog.owner, rfl, fun o' h' => by cases h'⟩
  | closed o => exact ⟨o, rfl, fun o' h' => by cases h'; rfl⟩

end Sys2Proof.Machine
end

section
open Sys2Proof Sys2Proof.Machine

/-- Settles O53: the window, the ring and its entries, accesses inside one block, and snoops. -/
theorem hostInterface : Obligations.HostInterface := by
  unfold Obligations.HostInterface
  refine ⟨?window, ?enable, ?doorbell, ?access, ?snoop⟩
  case window =>
    intro s v hp
    have hx : ∀ off, exec (.registerWrite off v) s = .next (regWrite s off v) := fun off => by
      show execRegisterWrite off v s = _
      rw [execRegisterWrite, if_pos hp]
    refine ⟨fun off hoff => ?_, fun hen => ?_, fun hen => ?_, fun hen hv => ?_, fun hen hv => ?_, hx _, hx _, hx _,
      exec_ringDisable hp⟩
    · simp only [List.mem_cons, List.not_mem_nil, or_false, not_or] at hoff
      obtain ⟨h8, h10, h18, h28, h30⟩ := hoff
      rw [hx]
      unfold regWrite
      split
      · exact absurd rfl h8
      · exact absurd rfl h10
      · exact absurd rfl h18
      · exact absurd rfl h28
      · exact absurd rfl h30
      · rfl
    · rw [hx, regWrite, hen]
      rfl
    · rw [hx, regWrite, hen]
      rfl
    · rw [hx, regWrite, writeCqctl, hen, hv]
      rfl
    · rw [hx, regWrite, writeCqctl, hen, hv]
      rfl
  case enable =>
    intro s hp hen hbase
    refine ⟨fun hsize => by rw [exec_ringEnable hp hen, enableRing_badSize hen hsize], fun hlo hhi => ?_⟩
    have hsize : ¬ (s.cqsize < 4 ∨ 12 < s.cqsize) := by omega
    rw [exec_ringEnable hp hen]
    refine ⟨fun h => ?_, fun h => ?_, fun h => ?_⟩
    · rw [enableRing_baseFault hen hsize (.inl ((ringInHole_iff hbase).2 h))]
    · rw [enableRing_baseFault hen hsize (.inr (meetsExtents_iff.2 h))]
    · have hhole : ringInHole s = false := by
        rw [Bool.eq_false_iff, ne_eq, ringInHole_iff hbase]
        rintro ⟨pa, h1, h2, hr⟩
        rcases (h pa h1 h2).1 with hr' | hr' <;> simp [hr'] at hr
      have hext : (liveExtents s none).any (meets (s.cqbase, 2 ^ s.cqsize * 64)) = false := by
        rw [Bool.eq_false_iff, ne_eq, meetsExtents_iff]
        rintro ⟨p, hpo, e, he, pa, h1, h2, hhas⟩
        simp [(h pa h1 h2).2 p hpo e he] at hhas
      rw [enableRing_ok hsize hhole hext]
      obtain ⟨q, hq, hsub⟩ := wakeOctets_eq { s with cqen := true, cqhead := 0 } s.cqbase (2 ^ s.cqsize * 64)
      exact ⟨q, by rw [hq], hsub⟩
  case doorbell =>
    intro s hen hacc hsize htail
    rw [exec_doorbell_one hen hacc hsize htail]
    have hfield : ∀ off k, off + k ≤ 64 → fieldOf (readAt s (.mem (s.cqbase + 64 * s.cqhead)) 64) off k
        = Memory.nat s.mem (s.cqbase + 64 * s.cqhead + off) k := fun off k h => fieldOf_readN s.mem h
    refine ⟨fun hstat => ?_, fun hstat => ⟨cmdOf s.nextId (s.cqbase + 64 * s.cqhead)
      (readAt s (.mem (s.cqbase + 64 * s.cqhead)) 64), ?_, rfl, rfl, hfield 0 1 (by omega), hfield 1 1 (by omega),
      hfield 4 4 (by omega), hfield 8 8 (by omega), hfield 16 8 (by omega), hfield 24 8 (by omega), ?_⟩⟩
    · unfold takeHead
      dsimp only
      rw [if_pos (by rwa [hfield 2 2 (by omega)])]
    · unfold takeHead
      dsimp only
      rw [if_neg (by rw [hfield 2 2 (by omega)]; exact fun h => h hstat)]
    · simp only [cmdOf, hfield 0 1 (by omega), hfield 1 1 (by omega)]
      simp only [readAt, zeroIn_tail]
      rw [← ite_not]
      refine if_congr ?_ rfl rfl
      omega
  case access =>
    intro s pa n bs hp hn hb hlen
    subst hlen
    refine ⟨?read, ?plain, ?covered, ?opened, ?hole, ?closed, ?write, ?dropped⟩
    case read =>
      rw [exec_hostMemRead hp hb]
      obtain ⟨q, hq, hsub⟩ := wakeOctets_eq
        { readLines s pa bs.length with hostAns := s.hostAns ++ [⟨pa, blockAnswer s pa bs.length⟩] } pa bs.length
      refine ⟨q, (readLines s pa bs.length).flips, by rw [hq]; rfl, fun x hx => ⟨hsub x hx, ?_⟩,
        fun x => mem_readLines hn hb⟩
      rintro rfl
      have hnot := not_mem_wakeOctets_block (s := { readLines s pa bs.length with
        hostAns := s.hostAns ++ [⟨pa, blockAnswer s pa bs.length⟩] }) hn hb
      rw [hq] at hnot
      exact hnot hx
    case plain =>
      intro hc
      rw [bytesNow, blockNow, hc]
      dsimp only
      rw [Memory.readN_drop, Memory.readN_take, show pa / 64 * 64 + pa % 64 = pa by omega, min_eq_left (by omega)]
    case covered =>
      intro im die blk hc
      rw [bytesNow, blockNow, hc]
    case opened => exact fun ⟨hr, hx⟩ => judge_open hr hx
    case hole => exact judge_hole
    case closed => exact fun hr o w e hx hpl hl he => judge_closed hr hx hpl hl he
    case write =>
      rintro ⟨hr, hx⟩
      obtain ⟨m, fl, ims, pz, hu, hm, hpz⟩ := hostBlock_open (bs := bs) (judge_open hr hx)
      obtain ⟨q, hq, -⟩ := wakeOctets_eq (hostBlock s pa bs) pa bs.length
      rw [exec_hostMemWrite hp hn hb, hq, hu]
      refine ⟨_, rfl, Memory.readN_writeN bs pa, fun hc a ha => ?_, hpz, rfl, rfl, rfl, rfl, rfl⟩
      rw [Memory.read_writeN_outside bs pa a ha, hm hc]
    case dropped =>
      intro hj hroom hwait
      obtain ⟨o, hu, ho⟩ := hostBlock_shut (bs := bs) hj
      obtain ⟨a, d, hlog⟩ := addLog_room { blankLog with kind := 6, owner := o, addr := pa / 64 * 64 } hroom hwait
      obtain ⟨q, hq, -⟩ := wakeOctets_eq (hostBlock s pa bs) pa bs.length
      rw [exec_hostMemWrite hp hn hb, hq, hu, hlog]
      exact ⟨_, _, rfl, rfl, rfl, rfl, rfl, rfl, rfl, fun o' h => ho o' h⟩
  case snoop =>
    intro s line
    refine ⟨_, rfl, fun p hp l hl hline x hx => ?_, rfl, rfl, rfl, rfl⟩
    obtain ⟨c, -, rfl⟩ := List.mem_map.1 hp
    obtain ⟨l', -, rfl⟩ := List.mem_map.1 hl
    by_cases h : l'.line = line / 4
    · rw [if_pos h] at hx
      simpa using (List.mem_filter.1 hx).2
    · rw [if_neg h] at hline
      exact absurd hline h

end

section
/-!
SUPPORT. A state at which DESTROY leaves a thread of its owner running: the map of threads holds the thread's record under a
key that is not its own, and stopping a thread writes the record at the thread's own key (R79).
-/

namespace Sys2Proof.Machine

/-- A DESTROY of owner 0, taken and free to start. -/
def destroySample : Cmd := ⟨0, 0, 2, 0, 0, 0, 0, 0, .taken, none⟩

/-- A placed owner 0 whose only thread, thread 0, stands at key 5 of the map, where thread 5's record belongs. -/
def strayState : State := { State.reset with
  power := .ready
  owners := [(0, bootOwner)]
  threads := [(5, bootThread)]
  cmds := [destroySample] }

/-- What the DESTROY answers there. -/
def strayDestroyed : State := onCmd (stopOwner strayState 0) 0 (fun c => { c with phase := .running })

theorem cmdNow_stray : cmdNow strayState 0 2 = some destroySample := by decide

theorem exec_destroy_stray : exec (.destroy 0) strayState = .next strayDestroyed := by
  have howner : owner? strayState destroySample.owner = some bootOwner := rfl
  have hwait : (beforeSwap strayState || logFull strayState || bootOwner.saving) = false := rfl
  show execDestroy 0 strayState = _
  unfold execDestroy
  rw [cmdNow_stray]
  dsimp only
  rw [if_neg (by decide), howner]
  dsimp only
  rw [hwait]
  rfl

theorem onCmd_threads (s : State) (n : Nat) (f : Cmd → Cmd) : (onCmd s n f).threads = s.threads := rfl

/-- Stopping an owner writes its threads' records at their own keys. -/
theorem stopOwner_threads (s : State) (o : Nat) :
    (stopOwner s o).threads = ((threadsOf s o).foldl stopThread (abandonAll s o)).threads := rfl

theorem lookup_stopThread_ne (s : State) (t : Thread) {k : Nat} (h : k ≠ thrKey t.o t.tid) :
    lookup (stopThread s t).threads k = lookup s.threads k := lookup_put_ne _ _ h

/-- The record at key 5 is ready still; the dying one stands at key 0. -/
theorem mem_threadsOf_strayDestroyed : bootThread ∈ threadsOf strayDestroyed 0 := by
  have hmine : threadsOf strayState 0 = [bootThread] := rfl
  have hidle : abandonAll strayState 0 = strayState := rfl
  have hkept : lookup strayDestroyed.threads 5 = some bootThread := by
    calc lookup strayDestroyed.threads 5 = lookup (stopThread strayState bootThread).threads 5 := by
          rw [strayDestroyed, onCmd_threads, stopOwner_threads, hmine, hidle, List.foldl_cons, List.foldl_nil]
      _ = lookup strayState.threads 5 := lookup_stopThread_ne strayState bootThread (by decide)
      _ = some bootThread := rfl
  exact List.mem_filter.2 ⟨List.mem_map.2 ⟨_, mem_of_lookup hkept, rfl⟩, rfl⟩

end Sys2Proof.Machine
end

section
open Sys2Proof Sys2Proof.Machine

/-- Refutes O54: the clause of DESTROY says of every state that all threads of its placed owner are dying afterwards, but a
thread's record that stands in the map under another thread's key stays ready. -/
theorem not_hostCommands : ¬ Obligations.HostCommands := by
  unfold Obligations.HostCommands
  rintro ⟨-, h⟩
  obtain ⟨-, hdestroy, -⟩ := h strayState 0 destroySample
  obtain ⟨-, hplaced⟩ := hdestroy cmdNow_stray rfl rfl rfl
  obtain ⟨-, hlive⟩ := hplaced bootOwner rfl rfl rfl rfl
  obtain ⟨u, w', hu, -, -, -, -, hdying⟩ := hlive rfl rfl
  rw [exec_destroy_stray] at hu
  obtain rfl : strayDestroyed = u := by simpa using hu
  exact absurd (hdying bootThread mem_threadsOf_strayDestroyed) (by decide)

end

section
/-!
SUPPORT. Saves, restores and power (R45, R49, R63, R68, R72 to R76): what each stage does to the owners, and what it leaves
of the owners, the saves in progress, the commands and the clock.
-/

namespace Sys2Proof.Machine

/-! ## Owners through a fold -/

/-- A step that changes the record of the owner it names and no other's, and twice as once, folded over a list of owners. -/
theorem owner?_foldl {step : State → Nat → State} {f : Owner → Owner}
    (hstep : ∀ u o q, owner? (step u o) q = if q = o then (owner? u q).map f else owner? u q)
    (hidem : ∀ w, f (f w) = f w) (os : List Nat) (s : State) (q : Nat) :
    owner? (os.foldl step s) q = if q ∈ os then (owner? s q).map f else owner? s q := by
  induction os generalizing s with
  | nil => simp
  | cons o os ih =>
    rw [List.foldl_cons, ih, hstep]
    by_cases hq : q = o
    · have hf : f ∘ f = f := funext hidem
      simp [hq, Option.map_map, hf]
    · simp [hq]

theorem owner?_onOwner_ite (s : State) (o q : Nat) (f : Owner → Owner) :
    owner? (onOwner s o f) q = if q = o then (owner? s q).map f else owner? s q := by
  by_cases hq : q = o
  · rw [if_pos hq, hq, owner?_onOwner]
  · rw [if_neg hq]
    exact lookup_upd_ne s.owners f hq

/-- A property that a step establishes for the owner it names and keeps for every other,
established for a list of owners. -/
theorem owner?_foldl_of_mem {step : State → Nat → State} {P : Owner → Prop}
    (hnow : ∀ u o w, owner? u o = some w → ∃ w', owner? (step u o) o = some w' ∧ P w')
    (hkeep : ∀ u o q w, owner? u q = some w → ∃ w', owner? (step u o) q = some w' ∧ (P w → P w'))
    (os : List Nat) (s : State) (q : Nat) (w : Owner) (hw : owner? s q = some w) :
    ∃ w', owner? (os.foldl step s) q = some w' ∧ (q ∈ os ∨ P w → P w') := by
  induction os generalizing s w with
  | nil => exact ⟨w, hw, fun h => h.resolve_left (by simp)⟩
  | cons o os ih =>
    obtain ⟨w1, hw1, hP⟩ : ∃ w1, owner? (step s o) q = some w1 ∧ (q = o ∨ P w → P w1) := by
      by_cases hq : q = o
      · subst hq
        obtain ⟨w1, hw1, hP⟩ := hnow s q w hw
        exact ⟨w1, hw1, fun _ => hP⟩
      · obtain ⟨w1, hw1, hP⟩ := hkeep s o q w hw
        exact ⟨w1, hw1, fun h => hP (h.resolve_left hq)⟩
    obtain ⟨w', hw', hP'⟩ := ih (step s o) w1 hw1
    refine ⟨w', hw', fun h => hP' ?_⟩
    rcases h with h | h
    · rcases List.mem_cons.1 h with h | h
      · exact .inr (hP (.inl h))
      · exact .inl h
    · exact .inr (hP (.inr h))

/-- A map of records that looks at their keys, read at a key. -/
theorem lookup_mapOn {α : Type} (m : SMap α) (c : Nat → Bool) (f : α → α) (i : Nat) :
    lookup (m.map (fun p => if c p.1 then (p.1, f p.2) else p)) i = (lookup m i).map (fun x => if c i then f x else x) := by
  induction m with
  | nil => rfl
  | cons p m ih =>
    obtain ⟨k, x⟩ := p
    have hkey : (if c k then (k, f x) else (k, x)) = (k, if c k then f x else x) := by split <;> rfl
    by_cases hi : i = k
    · subst hi
      simp [lookup, hkey]
    · simp [lookup, hkey, hi, ih]

/-! ## What stands on the books: owners, saves in progress, commands, and the clock -/

def rollOf (s : State) : SMap Owner × List SaveRun × List Cmd × Nat := (s.owners, s.saves, s.cmds, s.fab)

section
variable {s u : State}

theorem owner?_of_roll (h : rollOf u = rollOf s) (o : Nat) : owner? u o = owner? s o := by
  have howners : u.owners = s.owners := congrArg (·.1) h
  rw [owner?, owner?, howners]

theorem saves_of_roll (h : rollOf u = rollOf s) : u.saves = s.saves := congrArg (·.2.1) h
theorem fab_of_roll (h : rollOf u = rollOf s) : u.fab = s.fab := congrArg (·.2.2.2) h

end

@[simp] theorem rollOf_addLog (s : State) (r : LogRec) : rollOf (addLog s r) = rollOf s := by
  obtain ⟨l, d, w, h⟩ := addLog_eq s r
  rw [h]
  rfl

@[simp] theorem rollOf_writeAt (s : State) (p : Spot) (bs : List Byte) : rollOf (writeAt s p bs) = rollOf s := by
  cases p with
  | mem a =>
    obtain ⟨ims, h⟩ := writeAt_mem_eq s a bs
    rw [h]
    rfl
  | spad o j a => rfl
  | bsram o c a => rfl

@[simp] theorem rollOf_setMark (s : State) (p : Spot) (m : Nat) : rollOf (setMark s p m) = rollOf s := by
  cases p <;> rfl

@[simp] theorem rollOf_setDesc (s : State) (p : Spot) (d : Nat) : rollOf (setDesc s p d) = rollOf s := by
  cases p <;> rfl

@[simp] theorem rollOf_setFull (s : State) (p : Spot) (b : Bool) : rollOf (setFull s p b) = rollOf s := by
  cases p <;> rfl

@[simp] theorem rollOf_restOctets (s : State) (rs : List (Nat × Nat)) : rollOf (restOctets s rs) = rollOf s := by
  obtain ⟨q, h, -⟩ := restOctets_grows s rs
  rw [h]
  rfl

@[simp] theorem rollOf_bumpSeq (s : State) (pa : Nat) : rollOf (bumpSeq s pa) = rollOf s := rollOf_writeAt _ _ _
@[simp] theorem rollOf_writeState (s : State) (pa x : Nat) : rollOf (writeState s pa x) = rollOf s := rollOf_writeAt _ _ _
@[simp] theorem rollOf_setSpecs (s : State) (mine : Nat → Bool) : rollOf (setSpecs s mine) = rollOf s := rfl
@[simp] theorem rollOf_loseCopy (s : State) (dir : Nat) : rollOf (loseCopy s dir) = rollOf s := rollOf_writeState s dir 2

@[simp] theorem rollOf_failCopy (s : State) (v : SaveRun) (dir : Nat) : rollOf (failCopy s v dir) = rollOf s := by
  rw [failCopy, rollOf_addLog, rollOf_loseCopy]

@[simp] theorem rollOf_keepImage (s : State) (im : Image) : rollOf (keepImage s im) = rollOf s := by
  unfold keepImage
  extract_lets u
  refine (foldl_keeps rollOf (fun _ _ => ?_) im.segs u).trans rfl
  rfl

@[simp] theorem rollOf_completeCopy (s : State) (v : SaveRun) (dir : Nat) (copyB : Bool) :
    rollOf (completeCopy s v dir copyB) = rollOf s := by
  rw [completeCopy, rollOf_keepImage, writeDir, rollOf_writeAt]

@[simp] theorem rollOf_logMasked (s : State) (v : SaveRun) (im : Image) (ln n : Nat) :
    rollOf (logMasked s v im ln n) = rollOf s := rollOf_addLog _ _

/-- Chunks that are abandoned touch their cores and clusters alone (R265). -/
theorem abandonAll_eq (s : State) (o : Nat) : ∃ cs cl, abandonAll s o = { s with cores := cs, clusters := cl } := by
  unfold abandonAll
  induction clustersOf s o generalizing s with
  | nil => exact ⟨s.cores, s.clusters, rfl⟩
  | cons c l ih =>
    obtain ⟨cs, cl, h⟩ : ∃ cs cl, abandonRun s o c = { s with cores := cs, clusters := cl } := by
      unfold abandonRun
      split
      · exact ⟨s.cores, s.clusters, rfl⟩
      · split
        · exact ⟨s.cores, s.clusters, rfl⟩
        · exact ⟨_, _, rfl⟩
    obtain ⟨cs', cl', h'⟩ := ih (abandonRun s o c)
    rw [h] at h'
    exact ⟨cs', cl', by rw [List.foldl_cons, h, h']⟩

@[simp] theorem rollOf_abandonAll (s : State) (o : Nat) : rollOf (abandonAll s o) = rollOf s := by
  obtain ⟨cs, cl, h⟩ := abandonAll_eq s o
  rw [h]
  rfl

/-! ## Ending a save or a restore (R35, R72, R75) -/

/-- What the end of a save or a restore leaves: its run is gone, its command is done, and the owners are as before. -/
theorem closeSave_saves (s : State) (k : Nat) (v : SaveRun) (status result : Nat) :
    (closeSave s k v status result).saves = s.saves.eraseIdx k := by
  have h := saves_of_roll (rollOf_restOctets { s with
    saves := s.saves.eraseIdx k, saving := s.saving && !(v.device && !v.restore),
    restoring := s.restoring && !(v.device && v.restore) } (areaOf s v.dirA ++ areaOf s v.dirB))
  unfold closeSave
  dsimp only
  split
  · exact h
  · exact h

theorem owner?_closeSave (s : State) (k : Nat) (v : SaveRun) (status result o : Nat) :
    owner? (closeSave s k v status result) o = owner? s o := by
  have h := owner?_of_roll (rollOf_restOctets { s with
    saves := s.saves.eraseIdx k, saving := s.saving && !(v.device && !v.restore),
    restoring := s.restoring && !(v.device && v.restore) } (areaOf s v.dirA ++ areaOf s v.dirB)) o
  unfold closeSave
  dsimp only
  split
  · exact h
  · exact h

theorem closeSave_phase {s : State} {k : Nat} {v : SaveRun} {status result n : Nat} (hv : v.cmd = some n) :
    ∀ c ∈ (closeSave s k v status result).cmds, c.n = n → c.phase = .done status result := by
  unfold closeSave
  rw [hv]
  intro c hc hn
  obtain ⟨c', -, rfl⟩ := List.mem_map.1 hc
  by_cases h : c'.n = n
  · rw [if_pos h]
  · rw [if_neg h] at hn
    exact absurd hn h

/-! ## Numbers in memory -/

/-- A word written as n bytes reads as its low n bytes. -/
theorem Memory.nat_writeN_listOfWord (m : Memory) (a : Nat) (w : Word) (n : Nat) :
    Memory.nat (Memory.writeN m a (listOfWord w n)) a n = w.toNat % 256 ^ n := by
  have hlen : (listOfWord w n).length = n := by simp [listOfWord]
  have hread := Memory.readN_writeN (m := m) (listOfWord w n) a
  rw [hlen] at hread
  rw [Memory.nat_eq_foldr, hread, listOfWord, List.range_eq_range']
  have hsum : ∀ k i, ((List.range' i k).map (fun i => w.extractLsb' (8 * i) 8)).foldr (fun b x => b.toNat + 256 * x) 0
      = w.toNat / 256 ^ i % 256 ^ k := by
    intro k
    induction k with
    | zero => intro i; simp [Nat.mod_one]
    | succ k ih =>
      intro i
      have hbyte : (w.extractLsb' (8 * i) 8).toNat = w.toNat / 256 ^ i % 256 := by
        rw [BitVec.extractLsb'_toNat, Nat.shiftRight_eq_div_pow, pow_mul]
        rfl
      rw [List.range'_succ, List.map_cons, List.foldr_cons, ih, hbyte, pow_succ' 256 k, Nat.mod_mul, pow_succ,
        Nat.div_div_eq_div_mul]
  simpa using hsum n 0

/-- A number that a write does not reach reads as before. -/
theorem Memory.nat_writeN_outside (m : Memory) (bs : List Byte) (a x n : Nat) (h : x + n ≤ a ∨ a + bs.length ≤ x) :
    Memory.nat (Memory.writeN m a bs) x n = Memory.nat m x n := by
  induction n generalizing x with
  | zero => rfl
  | succ n ih =>
    rw [Memory.nat, Memory.nat, Memory.read_writeN_outside bs a x (by omega), ih (x + 1) (by omega)]

theorem writeAt_mem_mem (s : State) (pa : Nat) (bs : List Byte) :
    (writeAt s (.mem pa) bs).mem = Memory.writeN s.mem pa bs := by
  obtain ⟨ims, h⟩ := writeAt_mem_eq s pa bs
  rw [h]

/-! ## Automatic saves (R68, R70) -/

theorem readDir_seq (s : State) (pa : Nat) : (readDir s pa).seq = Memory.nat s.mem pa 4 :=
  fieldOf_readN s.mem (by omega)

theorem bumpSeq_mem (s : State) (pa : Nat) : (bumpSeq s pa).mem
    = Memory.writeN s.mem pa (listOfWord (BitVec.ofNat 64 (Memory.nat s.mem pa 4 + 1)) 4) := by
  rw [bumpSeq, writeAt_mem_mem, readDir_seq]

theorem Memory.nat_bumpSeq (s : State) (pa : Nat) :
    Memory.nat (bumpSeq s pa).mem pa 4 = (Memory.nat s.mem pa 4 + 1) % 2 ^ 32 := by
  rw [bumpSeq_mem, Memory.nat_writeN_listOfWord, BitVec.toNat_ofNat]
  omega

theorem Memory.nat_bumpSeq_outside (s : State) {pa x : Nat} (h : x + 4 ≤ pa ∨ pa + 4 ≤ x) :
    Memory.nat (bumpSeq s pa).mem x 4 = Memory.nat s.mem x 4 := by
  rw [bumpSeq_mem, Memory.nat_writeN_outside _ _ _ _ _ (by simpa [listOfWord] using h)]

/-- The directories of an area are two, each at a multiple of 256 bytes. -/
theorem areaOk_apart {s : State} {os : List Nat} {a b : Nat} (h : areaOk s os a b = true) :
    a % 256 = 0 ∧ b % 256 = 0 ∧ a ≠ b := by
  simp only [areaOk, dirOk, Bool.and_eq_true, beq_iff_eq] at h
  obtain ⟨⟨⟨⟨⟨⟨⟨⟨⟨⟨ha, -⟩, -⟩, hA⟩, -⟩, -⟩, ⟨⟨⟨⟨⟨hb, -⟩, -⟩, hB⟩, -⟩, -⟩⟩, -⟩, -⟩, -⟩, -⟩ := h
  refine ⟨ha, hb, fun hab => ?_⟩
  rw [← hab, hA] at hB
  cases hB

/-- The checks of an area look at an owner's positions, not at its other fields. -/
theorem areaOk_onOwner (s : State) (o a b : Nat) (os : List Nat) {f : Owner → Owner} (hf : ∀ w, (f w).map = w.map) :
    areaOk (onOwner s o f) os a b = areaOk s os a b := by
  have hcols : ∀ die q, (owner? (onOwner s o f) q).map (fun w => colsOn w die)
      = (owner? s q).map (fun w => colsOn w die) := by
    intro die q
    rw [owner?_onOwner_ite]
    split
    · rw [Option.map_map]
      exact congrFun (congrArg Option.map (funext fun w => by simp [colsOn, hf])) _
    · rfl
  have hneed : ∀ die, segNeed (onOwner s o f) os die = segNeed s os die := fun die => by simp only [segNeed, hcols]
  have hdir : ∀ pa, readDir (onOwner s o f) pa = readDir s pa := fun _ => rfl
  have hsegs : ∀ d copyB, segsOk (onOwner s o f) os d copyB = segsOk s os d copyB := fun d copyB => by
    simp only [segsOk, hneed]
  simp only [areaOk, hdir, hsegs]

section
variable {s : State} {cmd : Option Nat} {os : List Nat} {a b : Nat} {stop device : Bool}

/-- Owners to be saved, with their WARN begun. -/
def warnOwners (s : State) (os : List Nat) : State :=
  os.foldl (fun s o => onOwner s o (fun w => { w with saving := true, warn := true })) s

theorem startSave_eq (s : State) (cmd : Option Nat) (os : List Nat) (a b : Nat) (stop device : Bool) : ∃ q x,
    startSave s cmd os a b stop device = { warnOwners s os with
      asleep := q, saving := x,
      saves := s.saves ++ [⟨cmd, os, a, b, stop, false, device, false, s.fab + 140000, false⟩] } := by
  have hroll : ∀ l u, ∃ q, List.foldl (fun s (r : Nat × Nat) => wakeOctets s r.1 r.2) u l = { u with asleep := q } := by
    intro l
    induction l with
    | nil => exact fun u => ⟨u.asleep, rfl⟩
    | cons r l ih =>
      intro u
      obtain ⟨q, hq, -⟩ := wakeOctets_eq u r.1 r.2
      obtain ⟨q', hq'⟩ := ih (wakeOctets u r.1 r.2)
      rw [hq] at hq'
      exact ⟨q', by rw [List.foldl_cons, hq, hq']⟩
  have hwarn : (warnOwners s os).saves = s.saves ∧ (warnOwners s os).fab = s.fab :=
    ⟨foldl_keeps (·.saves) (fun u o => onOwner_saves u o _) os s, foldl_keeps (·.fab) (fun u o => onOwner_fab u o _) os s⟩
  obtain ⟨hsaves, hfab⟩ := hwarn
  obtain ⟨q, hq⟩ := hroll (areaOf (warnOwners s os) a ++ areaOf (warnOwners s os) b) (warnOwners s os)
  refine ⟨q, (warnOwners s os).saving || device, ?_⟩
  rw [← hsaves, ← hfab]
  unfold startSave
  dsimp only
  rw [show List.foldl (fun s o => onOwner s o _) s os = warnOwners s os from rfl, hq]
  rfl

end

/-- What an automatic save does before it starts: the advisory is answered, and both directories' numbers rise. -/
def autoBumped (s : State) (o : Nat) (a : Standing) : State :=
  bumpSeq (bumpSeq (onOwner s o (fun w => { w with due := false })) a.dirA) a.dirB

/-- The save that the steward then starts. -/
def autoSaved (s : State) (o : Nat) (a : Standing) : State :=
  startSave (onOwner (autoBumped s o a) o (fun w => { w with lastAuto := some s.fab })) none [o] a.dirA a.dirB false false

section
variable {s : State} {o : Nat} {w : Owner} {a : Standing}

theorem rollOf_autoBumped (s : State) (o : Nat) (a : Standing) :
    rollOf (autoBumped s o a) = rollOf (onOwner s o (fun w => { w with due := false })) := by
  rw [autoBumped, rollOf_bumpSeq, rollOf_bumpSeq]

theorem autoBumped_fab (s : State) (o : Nat) (a : Standing) : (autoBumped s o a).fab = s.fab :=
  (fab_of_roll (rollOf_autoBumped s o a)).trans (onOwner_fab s o _)

theorem exec_autoSave (hw : owner? s o = some w) (hs : w.standing = some a) (hdue : w.due = true) (hpl : w.placed = true)
    (hearly : ∀ x, w.lastAuto = some x → x + 1400000000 ≤ s.fab) (hwait : saveWaits s [o] = false)
    (hok : areaOk s [o] a.dirA a.dirB = true) : exec (.autoSave o) s = .next (autoSaved s o a) := by
  have hok' : areaOk (onOwner s o (fun w => { w with due := false })) [o] a.dirA a.dirB = true :=
    (areaOk_onOwner s o a.dirA a.dirB [o] (f := fun w => { w with due := false }) (fun _ => rfl)).trans hok
  show execAutoSave o s = _
  unfold execAutoSave
  rw [hw]
  dsimp only
  rw [hs]
  dsimp only
  refine (if_neg ?ready).trans ((if_neg (by simp [hok'])).trans ?start)
  case ready =>
    cases hl : w.lastAuto with
    | none => simp [hdue, hwait, hpl]
    | some x =>
      have hlate : ¬ s.fab < x + second := Nat.not_lt.2 (hearly x hl)
      simp [hdue, hwait, hpl, hlate]
  case start =>
    change Host.Outcome.next (startSave (onOwner (autoBumped s o a) o
      (fun w => { w with lastAuto := some (autoBumped s o a).fab })) none [o] a.dirA a.dirB false false) = _
    rw [autoBumped_fab]
    rfl

theorem autoSaved_saves (s : State) (o : Nat) (a : Standing) : (autoSaved s o a).saves
    = s.saves ++ [⟨none, [o], a.dirA, a.dirB, false, false, false, false, s.fab + 140000, false⟩] := by
  obtain ⟨q, x, hu⟩ := startSave_eq (onOwner (autoBumped s o a) o (fun w => { w with lastAuto := some s.fab })) none [o]
    a.dirA a.dirB false false
  rw [autoSaved, hu, onOwner_saves, onOwner_fab, autoBumped_fab, saves_of_roll (rollOf_autoBumped s o a)]
  rfl

theorem autoSaved_mem (s : State) (o : Nat) (a : Standing) : (autoSaved s o a).mem = (autoBumped s o a).mem := by
  obtain ⟨q, x, hu⟩ := startSave_eq (onOwner (autoBumped s o a) o (fun w => { w with lastAuto := some s.fab })) none [o]
    a.dirA a.dirB false false
  rw [autoSaved, hu]
  rfl

/-- Both directories' numbers rise by one. -/
theorem autoSaved_seqs (hok : areaOk s [o] a.dirA a.dirB = true) :
    Memory.nat (autoSaved s o a).mem a.dirA 4 = (Memory.nat s.mem a.dirA 4 + 1) % 2 ^ 32 ∧
    Memory.nat (autoSaved s o a).mem a.dirB 4 = (Memory.nat s.mem a.dirB 4 + 1) % 2 ^ 32 := by
  obtain ⟨hA, hB, hne⟩ := areaOk_apart hok
  have hapart : a.dirA + 4 ≤ a.dirB ∨ a.dirB + 4 ≤ a.dirA := by omega
  rw [autoSaved_mem, autoBumped, Memory.nat_bumpSeq_outside _ hapart, Memory.nat_bumpSeq, Memory.nat_bumpSeq,
    Memory.nat_bumpSeq_outside _ hapart.symm]
  exact ⟨rfl, rfl⟩

theorem owner?_autoSaved (hw : owner? s o = some w) (a : Standing) : owner? (autoSaved s o a) o
    = some { w with due := false, lastAuto := some s.fab, saving := true, warn := true } := by
  have hbumped : owner? (autoBumped s o a) o = some { w with due := false } := by
    rw [owner?_of_roll (rollOf_autoBumped s o a), owner?_onOwner, hw]
    rfl
  obtain ⟨q, x, hu⟩ := startSave_eq (onOwner (autoBumped s o a) o (fun w => { w with lastAuto := some s.fab })) none [o]
    a.dirA a.dirB false false
  have hwarn : owner? (autoSaved s o a) o
      = owner? (onOwner (onOwner (autoBumped s o a) o (fun w => { w with lastAuto := some s.fab })) o
          (fun w => { w with saving := true, warn := true })) o := by
    rw [autoSaved, hu]
    rfl
  rw [hwarn, owner?_onOwner, owner?_onOwner, hbumped]
  rfl

end

/-! ## The quiesce of a save (R72, R74) -/

/-- An owner at T_s. -/
def frozenOwner (w : Owner) : Owner := if w.frozen then w else { w with frozen := true, warn := false }

theorem frozenOwner_frozen (w : Owner) : (frozenOwner w).frozen = true := by
  unfold frozenOwner
  split
  next h => exact h
  next => rfl

/-- One owner's columns stop. -/
def freezeOne (s : State) (o : Nat) : State :=
  match owner? s o with
  | some w => if w.frozen then s else onOwner (abandonAll s o) o (fun w => { w with frozen := true, warn := false })
  | none => s

theorem freeze_eq (s : State) (v : SaveRun) : freeze s v = v.owners.foldl freezeOne s := rfl

theorem owner?_freezeOne (s : State) (o q : Nat) :
    owner? (freezeOne s o) q = if q = o then (owner? s q).map frozenOwner else owner? s q := by
  unfold freezeOne
  cases hw : owner? s o with
  | none =>
    by_cases hq : q = o
    · simp [hq, hw]
    · simp [hq]
  | some w =>
    by_cases hf : w.frozen = true
    · by_cases hq : q = o
      · simp [hq, hw, hf, frozenOwner]
      · simp [hq, hf]
    · dsimp only
      rw [if_neg hf, owner?_onOwner_ite, owner?_of_roll (rollOf_abandonAll s o)]
      by_cases hq : q = o
      · simp [hq, hw, hf, frozenOwner]
      · simp [hq]

theorem freezeOne_saves (s : State) (o : Nat) : (freezeOne s o).saves = s.saves := by
  unfold freezeOne
  split
  · split
    · rfl
    · exact (onOwner_saves _ o _).trans (saves_of_roll (rollOf_abandonAll s o))
  · rfl

theorem freeze_saves (s : State) (v : SaveRun) : (freeze s v).saves = s.saves :=
  foldl_keeps (·.saves) freezeOne_saves _ s

theorem owner?_freeze {s : State} {v : SaveRun} {o : Nat} {w : Owner} (ho : o ∈ v.owners) (hw : owner? s o = some w) :
    owner? (freeze s v) o = some (frozenOwner w) := by
  have hidem : ∀ w, frozenOwner (frozenOwner w) = frozenOwner w := fun w => by
    rw [frozenOwner, if_pos (frozenOwner_frozen w)]
  rw [freeze_eq, owner?_foldl owner?_freezeOne hidem, if_pos ho, hw]
  rfl

/-- A save whose STEP is settled. -/
def stepMarked (s : State) (k : Nat) (step : Bool) : State :=
  { s with saves := s.saves.modify k (fun v => { v with step := step }) }

theorem getElem?_stepMarked {s : State} {k : Nat} {v : SaveRun} (h : s.saves[k]? = some v) (step : Bool) :
    (stepMarked s k step).saves[k]? = some { v with step := step } := by
  simp [stepMarked, h]

/-- A change of an element is known by its value there. -/
theorem modify_congr_at {α : Type} {l : List α} {k : Nat} {x : α} {f g : α → α} (h : l[k]? = some x) (hfg : f x = g x) :
    l.modify k f = l.modify k g := by
  refine List.ext_getElem? fun i => ?_
  rw [List.getElem?_modify, List.getElem?_modify]
  by_cases hi : k = i
  · subst hi
    simp [h, hfg]
  · simp [hi]

/-- A save keeps the STEP that it has. -/
theorem stepMarked_self {s : State} {k : Nat} {v : SaveRun} (h : s.saves[k]? = some v) : stepMarked s k v.step = s := by
  have hlist : s.saves.modify k (fun x => { x with step := v.step }) = s.saves.modify k id := modify_congr_at h rfl
  rw [stepMarked, hlist, List.modify_id]

section
variable {s : State} {k : Nat} {v : SaveRun} {step : Bool}

theorem exec_saveQuiesce (hv : s.saves[k]? = some v) (hr : v.restore = false) (hq : v.quiet = false) (ht : v.til ≤ s.fab)
    (hstep : step = if unfrozen s v then v.owners.all (atStep s) else v.step)
    (hd : drained (freeze (stepMarked s k step) v) true v.owners.contains = true) :
    exec (.saveQuiesce k) s = .next (quietNow (freeze (stepMarked s k step) v) k v) := by
  have hmark : (if unfrozen s v then onSave s k (fun x => { x with step := x.owners.all (atStep s) }) else s)
      = stepMarked s k step := by
    rw [hstep]
    by_cases hu : unfrozen s v = true
    · have hlist : s.saves.modify k (fun x => { x with step := x.owners.all (atStep s) })
          = s.saves.modify k (fun x => { x with step := v.owners.all (atStep s) }) := modify_congr_at hv rfl
      rw [if_pos hu, if_pos hu, onSave, stepMarked, hlist]
    · rw [if_neg hu, if_neg hu, stepMarked_self hv]
  show execSaveQuiesce k s = _
  unfold execSaveQuiesce
  rw [hv]
  refine (if_neg (by simp [hr, hq, ht])).trans ?_
  dsimp only
  rw [hmark, if_pos hd]

theorem getElem?_quietNow {u : State} {x : SaveRun} (h : u.saves[k]? = some x) (v : SaveRun) :
    (quietNow u k v).saves[k]? = some { x with quiet := true } := by
  have hsaves : (writeState (writeState (setSpecs u v.owners.contains) v.dirA 3) v.dirB 3).saves = u.saves :=
    saves_of_roll (by rw [rollOf_writeState, rollOf_writeState, rollOf_setSpecs])
  simp [quietNow, onSave, hsaves, h]

theorem owner?_quietNow (u : State) (v : SaveRun) (k o : Nat) : owner? (quietNow u k v) o = owner? u o :=
  owner?_of_roll (by rw [rollOf_writeState, rollOf_writeState, rollOf_setSpecs])
    (u := writeState (writeState (setSpecs u v.owners.contains) v.dirA 3) v.dirB 3) o

theorem writeState_mem (s : State) (pa x : Nat) :
    (writeState s pa x).mem = Memory.write s.mem (pa + 0x90) (BitVec.ofNat 8 x) := writeAt_mem_mem _ _ _

/-- Both copies' STATEs read in progress. -/
theorem quietNow_states (u : State) (k : Nat) (v : SaveRun) :
    Memory.read (quietNow u k v).mem (v.dirA + 0x90) = 3 ∧ Memory.read (quietNow u k v).mem (v.dirB + 0x90) = 3 := by
  have hmem : (quietNow u k v).mem = Memory.write (Memory.write u.mem (v.dirA + 0x90) 3) (v.dirB + 0x90) 3 := by
    show (writeState (writeState (setSpecs u v.owners.contains) v.dirA 3) v.dirB 3).mem = _
    rw [writeState_mem, writeState_mem]
    rfl
  rw [hmem]
  refine ⟨?_, Memory.read_write_self _ _ _⟩
  by_cases h : v.dirA + 0x90 = v.dirB + 0x90
  · rw [h, Memory.read_write_self]
  · rw [Memory.read_write_ne _ _ h, Memory.read_write_self]

end

/-! ## The end of a save (R72, R74) -/

/-- An owner as its columns run on after a save. -/
def thawedOwner (w : Owner) : Owner := { w with frozen := false, saving := false, warn := false }

theorem owner?_shiftWaits (s : State) (mine : Nat → Bool) (n o : Nat) : owner? (shiftWaits s mine n) o
    = (owner? s o).map (fun w => if mine o then { w with balanceAt := w.balanceAt + n } else w) :=
  lookup_mapOn s.owners mine (fun w => { w with balanceAt := w.balanceAt + n }) o

theorem owner?_thaw {s : State} {os : List Nat} {n o : Nat} {w : Owner} (ho : o ∈ os) (hw : owner? s o = some w) :
    owner? (thaw s os n) o = some (thawedOwner { w with balanceAt := w.balanceAt + n }) := by
  have hin : owner? (emptySlices (emptyBuffers (shiftWaits s os.contains n) os.contains) os.contains) o
      = some { w with balanceAt := w.balanceAt + n } := by
    have h := owner?_shiftWaits s os.contains n o
    rw [hw, List.contains_iff_mem.2 ho] at h
    exact h
  have hfold := owner?_foldl (step := fun s o => onOwner s o thawedOwner) (f := thawedOwner)
    (fun u o q => owner?_onOwner_ite u o q _) (fun _ => rfl) os
    (emptySlices (emptyBuffers (shiftWaits s os.contains n) os.contains) os.contains) o
  rw [if_pos ho, hin] at hfold
  exact hfold

theorem thaw_saves (s : State) (os : List Nat) (n : Nat) : (thaw s os n).saves = s.saves :=
  foldl_keeps (·.saves) (fun u o => onOwner_saves u o _) os _

/-- An owner that is live and not placed. -/
def vacatedOwner (w : Owner) : Owner :=
  { w with placed := false, launched := false, map := [], undelivered := [], warn := false, saving := false,
           frozen := false, exch := [], doneq := [] }

theorem owner?_vacate (s : State) (o q : Nat) :
    owner? (vacate s o) q = if q = o then (owner? s q).map vacatedOwner else owner? s q := owner?_onOwner_ite _ o q _

theorem owner?_foldl_vacate {s : State} {os : List Nat} {o : Nat} {w : Owner} (ho : o ∈ os) (hw : owner? s o = some w) :
    owner? (os.foldl vacate s) o = some (vacatedOwner w) := by
  rw [owner?_foldl owner?_vacate (fun _ => rfl), if_pos ho, hw]
  rfl

theorem vacate_saves (s : State) (o : Nat) : (vacate s o).saves = s.saves := by
  rw [vacate, unplace, onOwner_saves]
  rfl

theorem foldl_vacate_saves (s : State) (os : List Nat) : (os.foldl vacate s).saves = s.saves :=
  foldl_keeps (·.saves) vacate_saves os s

/-- Both copies, each complete or failed. -/
def copiesEnded (s : State) (v : SaveRun) (aOk bOk : Bool) : State :=
  let s := if aOk then completeCopy s v v.dirA false else failCopy s v v.dirA
  if bOk then completeCopy s v v.dirB true else failCopy s v v.dirB

theorem rollOf_copiesEnded (s : State) (v : SaveRun) (aOk bOk : Bool) : rollOf (copiesEnded s v aOk bOk) = rollOf s := by
  unfold copiesEnded
  cases aOk <;> cases bOk <;> simp

/-- The steward's own saves are noted in their owners' advisory records. -/
def autoNoted (s : State) (v : SaveRun) : State :=
  if v.cmd.isNone then v.owners.foldl (fun s o => onOwner s o (fun w => { w with auto := true })) s else s

theorem autoNoted_saves (s : State) (v : SaveRun) : (autoNoted s v).saves = s.saves := by
  unfold autoNoted
  split
  · exact foldl_keeps (·.saves) (fun u o => onOwner_saves u o _) _ s
  · rfl

theorem owner?_autoNoted {s : State} {v : SaveRun} {o : Nat} {w : Owner} (hw : owner? s o = some w) :
    ∃ x, owner? (autoNoted s v) o = some { w with auto := x } := by
  unfold autoNoted
  split
  · rw [owner?_foldl (f := fun w => { w with auto := true }) (fun u o q => owner?_onOwner_ite u o q _) (fun _ => rfl)]
    by_cases ho : o ∈ v.owners
    · exact ⟨true, by rw [if_pos ho, hw]; rfl⟩
    · exact ⟨w.auto, by rw [if_neg ho, hw]⟩
  · exact ⟨w.auto, hw⟩

theorem endSave_eq (s : State) (k : Nat) (v : SaveRun) (aOk bOk : Bool) : endSave s k v aOk bOk
    = if !aOk && !bOk then closeSave (thaw (copiesEnded s v aOk bOk) v.owners (s.fab - v.til)) k v 0x000A 0
      else closeSave (if v.stop then v.owners.foldl vacate (autoNoted (copiesEnded s v aOk bOk) v)
        else thaw (autoNoted (copiesEnded s v aOk bOk) v) v.owners (s.fab - v.til)) k v 0x0001 (saveBytes s v.owners) := rfl

/-! ## The end of a restore (R75, R76) -/

/-- What a restore logs of lines that copy B masks. -/
def masksLogged (s : State) (v : SaveRun) (im : Image) : State :=
  let mine := fun (ln : Nat) => v.owners.any (fun o => lineOf im o ln)
  let ls := failedLines s v.dirA v.dirB
  let s := if ls.2.2 then (List.range 8).foldl (fun s die =>
      let n := dieLines im v.owners die - (ls.1.filter (fun ln => mine ln && ln / 2 ^ 24 == die)).length
      if n = 0 then s else logMasked s v im (die * 2 ^ 24) n) s else s
  (ls.2.1.filter mine).foldl (fun s ln => logMasked s v im ln 1) s

theorem rollOf_masksLogged (s : State) (v : SaveRun) (im : Image) : rollOf (masksLogged s v im) = rollOf s := by
  unfold masksLogged
  dsimp only
  rw [foldl_keeps rollOf (fun u ln => rollOf_logMasked u v im ln 1)]
  split
  · refine foldl_keeps rollOf (fun u die => ?_) _ s
    split
    · rfl
    · exact rollOf_logMasked _ _ _ _ _
  · rfl

/-- An owner's image goes back over that owner's record and no other. -/
theorem rollOf_placeSnap (s : State) (x : Snap) : rollOf (placeSnap s x)
    = ((match owner? s x.o with
        | some w => put s.owners x.o (ownerBack s x w)
        | none => s.owners), s.saves, s.cmds, s.fab) := by
  unfold placeSnap
  cases owner? s x.o with
  | none => rfl
  | some w =>
    refine (foldl_keeps rollOf (fun a d => ?_) x.dirty _).trans rfl
    refine (foldl_keeps rollOf (fun b f => rollOf_setFull _ _ _) _ _).trans ?_
    rw [rollOf_setMark, rollOf_setDesc, rollOf_writeAt]

theorem placeSnap_saves (s : State) (x : Snap) : (placeSnap s x).saves = s.saves := congrArg (·.2.1) (rollOf_placeSnap s x)

theorem owner?_placeSnap (s : State) (x : Snap) (q : Nat) :
    owner? (placeSnap s x) q = if q = x.o then (owner? s q).map (ownerBack s x) else owner? s q := by
  have howners : (placeSnap s x).owners = match owner? s x.o with
      | some w => put s.owners x.o (ownerBack s x w)
      | none => s.owners := congrArg (·.1) (rollOf_placeSnap s x)
  rw [owner?, howners]
  cases hw : owner? s x.o with
  | none =>
    by_cases hq : q = x.o
    · rw [if_pos hq, hq, hw]
      exact hw
    · rw [if_neg hq]
      rfl
  | some w =>
    by_cases hq : q = x.o
    · rw [if_pos hq, hq, hw]
      exact lookup_put_self _ _ _
    · rw [if_neg hq]
      exact lookup_put_ne _ _ hq

theorem foldl_placeSnap_saves (s : State) (xs : List Snap) : (xs.foldl placeSnap s).saves = s.saves :=
  foldl_keeps (·.saves) placeSnap_saves xs s

theorem owner?_foldl_placeSnap_ne {xs : List Snap} {q : Nat} (h : ∀ y ∈ xs, y.o ≠ q) (s : State) :
    owner? (xs.foldl placeSnap s) q = owner? s q := by
  induction xs generalizing s with
  | nil => rfl
  | cons y xs ih =>
    rw [List.foldl_cons, ih (fun z hz => h z (List.mem_cons_of_mem _ hz)), owner?_placeSnap,
      if_neg (Ne.symm (h y List.mem_cons_self))]

/-- An owner whose image is among those put back has its saved record. -/
theorem owner?_foldl_placeSnap {xs : List Snap} {x : Snap} (hnd : (xs.map (·.o)).Nodup) (hx : x ∈ xs) (s : State)
    (hsome : (owner? s x.o).isSome = true) : ∃ t w, owner? (xs.foldl placeSnap s) x.o = some (ownerBack t x w) := by
  induction xs generalizing s with
  | nil => cases hx
  | cons y xs ih =>
    obtain ⟨hy, hnd'⟩ := List.nodup_cons.1 hnd
    rw [List.foldl_cons]
    rcases List.mem_cons.1 hx with rfl | hx
    · have hothers : ∀ z ∈ xs, z.o ≠ x.o := fun z hz h => hy (List.mem_map.2 ⟨z, hz, h⟩)
      obtain ⟨w, hw⟩ := Option.isSome_iff_exists.1 hsome
      exact ⟨s, w, by rw [owner?_foldl_placeSnap_ne hothers, owner?_placeSnap, if_pos rfl, hw]; rfl⟩
    · have hne : x.o ≠ y.o := fun h => hy (List.mem_map.2 ⟨x, hx, h⟩)
      exact ih hnd' hx (placeSnap s y) (by rwa [owner?_placeSnap, if_neg hne])

/-- With no line lost and no owner killed, every owner's image goes back. -/
theorem foldl_restoreOne {xs : List Snap} (im : Image) (hnd : (xs.map (·.o)).Nodup) (s : State)
    (hlive : ∀ x ∈ xs, ∀ w, owner? s x.o = some w → w.killed = false) (l : List Nat) :
    xs.foldl (restoreOne im []) (s, l) = (xs.foldl placeSnap s, l) := by
  induction xs generalizing s with
  | nil => rfl
  | cons y xs ih =>
    obtain ⟨hy, hnd'⟩ := List.nodup_cons.1 hnd
    have hone : restoreOne im [] (s, l) y = (placeSnap s y, l) := by
      have hno : ¬ (owner? s y.o).any (·.killed) = true := by
        cases hw : owner? s y.o with
        | none => simp
        | some w => simp [hlive y List.mem_cons_self w hw]
      rw [restoreOne, if_neg hno]
      rfl
    rw [List.foldl_cons, hone, List.foldl_cons]
    refine ih hnd' (placeSnap s y) fun x hx w hw => ?_
    have hne : x.o ≠ y.o := fun h => hy (List.mem_map.2 ⟨x, hx, h⟩)
    rw [owner?_placeSnap, if_neg hne] at hw
    exact hlive x (List.mem_cons_of_mem _ hx) w hw

/-- The images that a restore puts back. -/
def backSnaps (im : Image) (v : SaveRun) : List Snap := im.snaps.filter (fun x => v.owners.contains x.o)

/-- The end of a restore whose image is found, with the logged masks as a step of their own. -/
theorem endRestore_eq {s : State} {k : Nat} {v : SaveRun} {im : Image} (him : anyImage s v.dirA v.dirB = some im) :
    endRestore s k v =
      let dead := v.owners.any (fun o => (owner? s o).any (·.killed))
      let ls := failedLines s v.dirA v.dirB
      let s := (ls.1.filter (fun ln => v.owners.any (fun o => lineOf im o ln))).foldl (fun s ln =>
        let o := lineOwner im v.owners ln
        logLost s o (ln / 2 ^ 24) (linePart im o ln) (lineAt s v.dirA ln) (lineAt s v.dirB ln)) (masksLogged s v im)
      let r := (backSnaps im v).foldl (restoreOne im ls.1) (s, [])
      if dead then closeSave r.1 k v 0x000B 0
      else match r.2 with
      | [] => closeSave r.1 k v 0x0001 (if v.device then 0xFFFFFFFF else v.owners.headD 0)
      | o :: _ => closeSave r.1 k v 0x0009 o := by
  unfold endRestore
  rw [him]
  rfl

theorem exec_restoreStreamDone {s : State} {k : Nat} {v : SaveRun} {im : Image} (hv : s.saves[k]? = some v)
    (hr : v.restore = true) (him : anyImage s v.dirA v.dirB = some im) (hlost : (failedLines s v.dirA v.dirB).1 = [])
    (hnd : (im.snaps.map (·.o)).Nodup) (hlive : ∀ o ∈ v.owners, ∀ w, owner? s o = some w → w.killed = false) :
    exec (.restoreStreamDone k) s = .next (closeSave ((backSnaps im v).foldl placeSnap (masksLogged s v im)) k v 0x0001
      (if v.device then 0xFFFFFFFF else v.owners.headD 0)) := by
  have hdead : (v.owners.any (fun o => (owner? s o).any (·.killed))) = false := by
    rw [List.any_eq_false]
    intro o ho
    cases hw : owner? s o with
    | none => simp
    | some w => simp [hlive o ho w hw]
  have hfold : (backSnaps im v).foldl (restoreOne im []) (masksLogged s v im, [])
      = ((backSnaps im v).foldl placeSnap (masksLogged s v im), []) := by
    refine foldl_restoreOne im (hnd.sublist (List.filter_sublist.map _)) _ (fun x hx w hw => ?_) []
    rw [owner?_of_roll (rollOf_masksLogged s v im)] at hw
    exact hlive x.o (List.contains_iff_mem.1 (List.mem_filter.1 hx).2) w hw
  have hend : endRestore s k v = closeSave ((backSnaps im v).foldl placeSnap (masksLogged s v im)) k v 0x0001
      (if v.device then 0xFFFFFFFF else v.owners.headD 0) := by
    rw [endRestore_eq him]
    dsimp only
    rw [hdead, hlost, List.filter_nil, List.foldl_nil, hfold]
    rfl
  show execRestoreStreamDone k s = _
  unfold execRestoreStreamDone
  rw [hv]
  refine (if_pos hr).trans ?_
  rw [hend]

/-! ## Power (R45, R49, R69) -/

theorem lookup_filter_key {α : Type} (m : SMap α) (c : Nat → Bool) (i : Nat) :
    lookup (m.filter (fun p => c p.1)) i = if c i then lookup m i else none := by
  induction m with
  | nil => simp [lookup]
  | cons p m ih =>
    obtain ⟨k, x⟩ := p
    by_cases hi : i = k
    · subst hi
      by_cases hc : c i = true
      · simp [hc, lookup]
      · simp [hc, ih]
    · by_cases hc : c k = true
      · simp [hc, lookup, hi, ih]
      · simp [hc, lookup, hi, ih]

/-- Device memory is lost with the power, host memory is not. -/
theorem read_hostPart (m : Memory) (a : Nat) :
    Memory.read (hostPart m) a = if hostBase ≤ a then Memory.read m a else 0 := by
  have h := lookup_filter_key m (fun k => decide (hostBase ≤ k)) a
  rw [Memory.read, hostPart, getD, h]
  by_cases ha : hostBase ≤ a
  · simp [ha, Memory.read, getD]
  · simp [ha]
    rfl

/-! ## A failing supply (R63) -/

theorem foldl_stopThread_eq (l : List Thread) (s : State) : ∃ ts, l.foldl stopThread s = { s with threads := ts } := by
  induction l generalizing s with
  | nil => exact ⟨s.threads, rfl⟩
  | cons t l ih =>
    obtain ⟨ts, h⟩ := ih (stopThread s t)
    exact ⟨ts, h⟩

theorem rollOf_logOf (s : State) (o kind cause itemk item : Nat) : rollOf (logOf s o kind cause itemk item) = rollOf s :=
  rollOf_addLog _ _

/-- An owner that is stopped is killed; its threads, cores and clusters change, and no other owner. -/
theorem stopOwner_eq (s : State) (o : Nat) : ∃ cs cl ts, stopOwner s o
    = { s with cores := cs, clusters := cl, threads := ts,
               owners := upd s.owners o (fun w => { w with killed := true, killAt := s.fab }) } := by
  obtain ⟨cs, cl, habandon⟩ := abandonAll_eq s o
  obtain ⟨ts, hstop⟩ := foldl_stopThread_eq (threadsOf s o) (abandonAll s o)
  refine ⟨cs, cl, ts, ?_⟩
  unfold stopOwner
  rw [hstop, habandon]
  rfl

theorem killOwner_eq (s : State) (o cause : Nat) : ∃ cs cl ts ws l d w, killOwner s o cause
    = { s with cores := cs, clusters := cl, threads := ts, owners := ws, log := l, dropped := d, logWait := w } := by
  unfold killOwner
  split
  · exact ⟨_, _, _, _, _, _, _, rfl⟩
  · split
    · exact ⟨_, _, _, _, _, _, _, rfl⟩
    · obtain ⟨l, d, w, hlog⟩ := addLog_eq s { blankLog with kind := 9, cause := cause, owner := o, itemk := 0, item := 0 }
      obtain ⟨cs, cl, ts, hstop⟩ := stopOwner_eq (logOf s o 9 cause 0 0) o
      rw [hstop, logOf, hlog]
      exact ⟨_, _, _, _, _, _, _, rfl⟩

theorem owner?_killOwner_self {s : State} {o cause : Nat} {w : Owner} (hw : owner? s o = some w) :
    ∃ w', owner? (killOwner s o cause) o = some w' ∧ w'.killed = true := by
  unfold killOwner
  rw [hw]
  dsimp only
  split
  next h => exact ⟨w, hw, h⟩
  next =>
    obtain ⟨cs, cl, ts, hstop⟩ := stopOwner_eq (logOf s o 9 cause 0 0) o
    have hlog : owner? (logOf s o 9 cause 0 0) o = some w := by rw [owner?_of_roll (rollOf_logOf s o 9 cause 0 0), hw]
    have hset := owner?_onOwner (logOf s o 9 cause 0 0) o
      (fun w => { w with killed := true, killAt := (logOf s o 9 cause 0 0).fab })
    rw [hlog] at hset
    exact ⟨_, by rw [hstop]; exact hset, rfl⟩

theorem owner?_killOwner_ne {s : State} {o q cause : Nat} (hq : q ≠ o) : owner? (killOwner s o cause) q = owner? s q := by
  unfold killOwner
  split
  · rfl
  · split
    · rfl
    · obtain ⟨cs, cl, ts, hstop⟩ := stopOwner_eq (logOf s o 9 cause 0 0) o
      have hset := owner?_onOwner_ite (logOf s o 9 cause 0 0) o q
        (fun w => { w with killed := true, killAt := (logOf s o 9 cause 0 0).fab })
      rw [if_neg hq, owner?_of_roll (rollOf_logOf s o 9 cause 0 0)] at hset
      rw [hstop]
      exact hset

theorem killOwner_mem (s : State) (o cause : Nat) : (killOwner s o cause).mem = s.mem := by
  obtain ⟨cs, cl, ts, ws, l, d, w, h⟩ := killOwner_eq s o cause
  rw [h]

theorem killOwner_table (s : State) (o cause : Nat) : (killOwner s o cause).table = s.table := by
  obtain ⟨cs, cl, ts, ws, l, d, w, h⟩ := killOwner_eq s o cause
  rw [h]

/-- Owners that are killed one after the other are all killed. -/
theorem owner?_foldl_killOwner {os : List Nat} {o cause : Nat} {s : State} {w : Owner} (ho : o ∈ os)
    (hw : owner? s o = some w) :
    ∃ w', owner? (os.foldl (fun s o => killOwner s o cause) s) o = some w' ∧ w'.killed = true := by
  obtain ⟨w', hw', hk⟩ := owner?_foldl_of_mem (P := fun w => w.killed = true) (step := fun s o => killOwner s o cause)
    (fun u o w hw => owner?_killOwner_self hw)
    (fun u o q w hw => by
      by_cases hq : q = o
      · subst hq
        obtain ⟨w', hw', hk⟩ := owner?_killOwner_self (cause := cause) hw
        exact ⟨w', hw', fun _ => hk⟩
      · exact ⟨w, by rw [owner?_killOwner_ne hq, hw], id⟩) os s o w hw
  exact ⟨w', hw', hk (.inl ho)⟩

/-- A column goes out of service, and the owner on it is killed. -/
theorem supplyFault_effect {s : State} {die col : Nat} (hacc : accepting s = true) :
    ∃ u, exec (.supplyFault die col) s = .next u ∧ (posAt u die col).out = true ∧
      u.mem = s.mem ∧ ∀ o w, (posAt s die col).own = some o → owner? s o = some w →
        ∃ w', owner? u o = some w' ∧ w'.killed = true := by
  obtain ⟨l, d, lw, hlog⟩ := addLog_eq s { blankLog with kind := 6, place := whereOf ⟨die, col, 0, false⟩ 0 }
  generalize hs1 : addLog s { blankLog with kind := 6, place := whereOf ⟨die, col, 0, false⟩ 0 } = s1 at hlog
  have hx : exec (.supplyFault die col) s = .next (failColumns s1 die [col]) := by
    show execSupplyFault die col s = _
    unfold execSupplyFault
    rw [hacc, hs1]
    rfl
  have hpos : posAt s1 die col = posAt s die col := by rw [hlog]; rfl
  refine ⟨_, hx, ?_, ?_, fun o w hown hw => ?_⟩
  · have htable := foldl_keeps (·.table) (fun u o => killOwner_table u o 0)
      ([col].filterMap (fun c => (posAt s1 die c).own)).dedup
      (setPos s1 die col { posAt s1 die col with out := true })
    have hat : posAt (failColumns s1 die [col]) die col
        = posAt (setPos s1 die col { posAt s1 die col with out := true }) die col := by
      show getD _ _ _ = getD _ _ _
      exact congrArg (fun m => getD (Pos.vacant col) m (posKey die col)) htable
    rw [hat, posAt, setPos, getD_setD_self]
  · have hmem := foldl_keeps (·.mem) (fun u o => killOwner_mem u o 0)
      ([col].filterMap (fun c => (posAt s1 die c).own)).dedup
      (setPos s1 die col { posAt s1 die col with out := true })
    refine hmem.trans ?_
    rw [hlog]
    rfl
  · refine owner?_foldl_killOwner (w := w) (List.mem_dedup.2 (List.mem_filterMap.2 ⟨col, List.mem_singleton_self _, ?_⟩)) ?_
    · rw [hpos, hown]
    · rw [hlog]
      exact hw

/-! ## The stages put together -/

section
variable {s : State} {k : Nat} {v : SaveRun} {aOk bOk : Bool}

/-- A save that is not ended by a kill ends when both copies are complete or failed. -/
theorem exec_saveStreamDone (hv : s.saves[k]? = some v) (hr : v.restore = false) (hq : v.quiet = true)
    (hlive : ∀ o ∈ v.owners, ∃ w, owner? s o = some w ∧ w.killed = false) :
    exec (.saveStreamDone k aOk bOk) s = .next (endSave s k v aOk bOk) := by
  show execSaveStreamDone k aOk bOk s = _
  unfold execSaveStreamDone
  rw [hv]
  refine if_neg ?_
  rw [hr, hq, Bool.false_or, Bool.not_true, Bool.false_or, Bool.not_eq_true, List.any_eq_false]
  intro o ho
  obtain ⟨w, hw, hk⟩ := hlive o ho
  simp [hw, hk]

theorem endSave_saves (s : State) (k : Nat) (v : SaveRun) (aOk bOk : Bool) :
    (endSave s k v aOk bOk).saves = s.saves.eraseIdx k := by
  have hcopies : (copiesEnded s v aOk bOk).saves = s.saves := saves_of_roll (rollOf_copiesEnded s v aOk bOk)
  rw [endSave_eq]
  split
  · rw [closeSave_saves, thaw_saves, hcopies]
  · split
    · rw [closeSave_saves, foldl_vacate_saves, autoNoted_saves, hcopies]
    · rw [closeSave_saves, thaw_saves, autoNoted_saves, hcopies]

/-- The answer of a save's command: SAVED with its bytes where one copy is complete, and a failed save where none is. -/
theorem endSave_phase {n : Nat} (hn : v.cmd = some n) : ∀ c ∈ (endSave s k v aOk bOk).cmds, c.n = n →
    c.phase = if aOk || bOk then .done 0x0001 (saveBytes s v.owners) else .done 0x000A 0 := by
  rw [endSave_eq, ← Bool.not_or]
  cases aOk || bOk
  · exact closeSave_phase hn
  · exact closeSave_phase hn

/-- After a save its owners run on, or are vacated where a stopping save has a complete copy. -/
theorem owner?_endSave {o : Nat} {w : Owner} (ho : o ∈ v.owners) (hw : owner? s o = some w) :
    ∃ w', owner? (endSave s k v aOk bOk) o = some w' ∧ w'.frozen = false ∧ w'.saving = false ∧ w'.extents = w.extents ∧
      w'.placed = (w.placed && !(v.stop && (aOk || bOk))) := by
  have hcopies : owner? (copiesEnded s v aOk bOk) o = some w := by
    rw [owner?_of_roll (rollOf_copiesEnded s v aOk bOk), hw]
  obtain ⟨x, hnoted⟩ := owner?_autoNoted (v := v) hcopies
  rw [endSave_eq, ← Bool.not_or]
  cases hok : aOk || bOk
  · refine ⟨_, (owner?_closeSave _ _ _ _ _ _).trans (owner?_thaw ho hcopies), rfl, rfl, rfl, ?_⟩
    simp [thawedOwner]
  · cases hstop : v.stop
    · refine ⟨_, (owner?_closeSave _ _ _ _ _ _).trans (owner?_thaw ho hnoted), rfl, rfl, rfl, ?_⟩
      simp [thawedOwner]
    · refine ⟨_, (owner?_closeSave _ _ _ _ _ _).trans (owner?_foldl_vacate ho hnoted), rfl, rfl, rfl, ?_⟩
      simp [vacatedOwner]

end

/-- After a restore an owner whose image went back has the record of the image, running. -/
theorem owner?_restored {s : State} {v : SaveRun} {im : Image} {x : Snap} (hnd : (im.snaps.map (·.o)).Nodup)
    (hx : x ∈ im.snaps) (ho : x.o ∈ v.owners) (hsome : (owner? s x.o).isSome = true) :
    ∃ w', owner? ((backSnaps im v).foldl placeSnap (masksLogged s v im)) x.o = some w' ∧ w'.placed = true ∧
      w'.frozen = false ∧ w'.map = x.owner.map ∧ w'.extents = x.owner.extents ∧ w'.gen = x.owner.gen := by
  have hback : x ∈ backSnaps im v := List.mem_filter.2 ⟨hx, List.contains_iff_mem.2 ho⟩
  have hthere : (owner? (masksLogged s v im) x.o).isSome = true := by
    rw [owner?_of_roll (rollOf_masksLogged s v im), hsome]
  obtain ⟨t, w, h⟩ := owner?_foldl_placeSnap (hnd.sublist (List.filter_sublist.map _)) hback _ hthere
  exact ⟨_, h, rfl, rfl, rfl, rfl, rfl⟩

/-- The device as its zeroing ends: time starts, and nothing sleeps, moves or stands redirected (R45, R49). -/
def readied (s : State) : State :=
  { s with
    power := .ready, readyAt := s.fab, nextT := s.fab + periodFab s.period, controlAt := s.fab, errAt := s.fab,
    patrolAt := s.fab, asleep := [], redirects := [], moves := [] }

theorem exec_powerUpZeroingDone {s : State} (h : s.power = .zeroing) :
    exec .powerUpZeroingDone s = .next (readied s) := by
  show execPowerUpZeroingDone s = _
  unfold execPowerUpZeroingDone
  exact if_neg (by simp [h])

end Sys2Proof.Machine
end

section
open Sys2Proof Sys2Proof.Machine

/-- Settles O56: a save's stages, a restore's end, and power, each by what its event does to the owners it names. -/
theorem savesAndPower : Obligations.SavesAndPower := by
  unfold Obligations.SavesAndPower
  intro s
  refine ⟨?auto, ?quiesce, ?ended, ?restored, ?lost, ?up, ?ready, fun die col hacc => supplyFault_effect hacc⟩
  case auto =>
    intro o w a hw hs hdue hpl hearly hwait hok
    obtain ⟨hA, hB⟩ := autoSaved_seqs hok
    exact ⟨_, exec_autoSave hw hs hdue hpl hearly hwait hok, autoSaved_saves s o a, hA, hB, _, owner?_autoSaved hw a,
      rfl, rfl, rfl⟩
  case quiesce =>
    intro k v hv hr hq ht step hd
    obtain ⟨hA, hB⟩ := quietNow_states (freeze (stepMarked s k step) v) k v
    refine ⟨_, exec_saveQuiesce hv hr hq ht rfl hd, ?_, hA, hB, fun o ho w hw => ?_⟩
    · exact getElem?_quietNow ((congrArg (·[k]?) (freeze_saves _ v)).trans (getElem?_stepMarked hv step)) v
    · exact ⟨_, (owner?_quietNow _ v k o).trans (owner?_freeze ho hw), frozenOwner_frozen w⟩
  case ended =>
    intro k v aOk bOk hv hr hq hlive
    exact ⟨_, exec_saveStreamDone hv hr hq hlive, endSave_saves s k v aOk bOk, fun n hn => endSave_phase hn,
      fun o ho w hw => owner?_endSave ho hw⟩
  case restored =>
    intro k v im hv hr him hlost hnd hlive
    refine ⟨_, exec_restoreStreamDone hv hr him hlost hnd hlive, ?_, fun n hn => closeSave_phase hn,
      fun x hx ho hsome => ?_⟩
    · rw [closeSave_saves, foldl_placeSnap_saves, saves_of_roll (rollOf_masksLogged s v im)]
    · obtain ⟨w', hw', h⟩ := owner?_restored hnd hx ho hsome
      exact ⟨w', (owner?_closeSave _ _ _ _ _ _).trans hw', h⟩
  case lost => exact ⟨lostPower s, rfl, rfl, rfl, rfl, rfl, read_hostPart s.mem⟩
  case up =>
    intro hoff
    exact ⟨{ lostPower s with power := .zeroing }, if_pos hoff, rfl, rfl, rfl, fun _ => rfl, read_hostPart s.mem⟩
  case ready =>
    intro hzero
    exact ⟨readied s, exec_powerUpZeroingDone hzero, rfl, by simp [readied, timeNs, nsOf], rfl, rfl, rfl, rfl⟩

end

section
/-!
SUPPORT. The skim pause (R49, R56 to R63): what its phases leave of the position table, the schedule of instants, the
clock and the threads.
-/

namespace Sys2Proof.Machine

/-! ## What a drain that times out leaves (R63): the position table and the next instant -/

def scheduleOf (s : State) : SMap Pos × Nat := (s.table, s.nextT)

section
variable {s u : State}

theorem table_of_schedule (h : scheduleOf u = scheduleOf s) : u.table = s.table := congrArg (·.1) h
theorem nextT_of_schedule (h : scheduleOf u = scheduleOf s) : u.nextT = s.nextT := congrArg (·.2) h

end

/-- The state in which a sealed operation ends, done or trapped. -/
def SRes.state : SRes → State
  | .ok s _ => s
  | .trap s _ _ _ _ => s

@[simp] theorem scheduleOf_addLog (s : State) (r : LogRec) : scheduleOf (addLog s r) = scheduleOf s := by
  obtain ⟨l, d, w, h⟩ := addLog_eq s r
  rw [h]
  rfl

@[simp] theorem scheduleOf_onCore (s : State) (o j : Nat) (f : Core → Core) : scheduleOf (onCore s o j f) = scheduleOf s := rfl

@[simp] theorem scheduleOf_onThr (s : State) (o tid : Nat) (f : Thread → Thread) : scheduleOf (onThr s o tid f) = scheduleOf s :=
  rfl

@[simp] theorem scheduleOf_stackRead (s : State) (pa : Nat) : scheduleOf (stackRead s pa) = scheduleOf s := by
  obtain ⟨fl, h⟩ := stackRead_eq s pa
  rw [h]
  rfl

@[simp] theorem scheduleOf_stackSide (s : State) (t : Target) (pa : Nat) : scheduleOf (stackSide s t pa) = scheduleOf s := by
  unfold stackSide
  repeat' split
  all_goals simp

@[simp] theorem scheduleOf_touchRead (s : State) (t : Target) (pa : Nat) : scheduleOf (touchRead s t pa) = scheduleOf s := by
  unfold touchRead
  split <;> simp

@[simp] theorem scheduleOf_touchWrite (s : State) (t : Target) (pa : Nat) : scheduleOf (touchWrite s t pa) = scheduleOf s := by
  unfold touchWrite
  split <;> simp

@[simp] theorem scheduleOf_writeEnt (s : State) (t : Target) (pa e : Nat) (x : SEnt) :
    scheduleOf (writeEnt s t pa e x) = scheduleOf s := by
  obtain ⟨ims, h⟩ := writeAt_mem_eq s (pa + 16 * e) (entBytes x)
  rw [writeEnt, scheduleOf_touchWrite, h]
  rfl

@[simp] theorem scheduleOf_queueReclaim (s : State) (t : Target) (set e : Nat) :
    scheduleOf (queueReclaim s t set e) = scheduleOf s := by
  unfold queueReclaim
  split <;> rfl

@[simp] theorem scheduleOf_dropOne (s : State) (t : Target) (set pa e : Nat) :
    scheduleOf (dropOne s t set pa e) = scheduleOf s := by
  unfold dropOne
  dsimp only
  repeat' split
  all_goals simp

theorem scheduleOf_withSet {f : State → Target → Nat → SRes} (hf : ∀ u t pa, scheduleOf (f u t pa).state = scheduleOf u)
    (s : State) (w : Owner) (o set : Nat) (k : AccKind) (wr : Bool) :
    scheduleOf (withSet s w o set k wr f).state = scheduleOf s := by
  unfold withSet
  dsimp only
  split
  · split
    · rfl
    · rw [hf, scheduleOf_touchRead]
  · rfl
  · rfl
  · rfl

theorem scheduleOf_slUnref (s : State) (w : Owner) (o name : Nat) : scheduleOf (slUnref s w o name).state = scheduleOf s := by
  refine scheduleOf_withSet (fun u t pa => ?_) s w o _ _ _
  split
  · rfl
  · exact scheduleOf_dropOne _ _ _ _ _

@[simp] theorem scheduleOf_unrefChild (s : State) (w : Owner) (o name : Nat) :
    scheduleOf (unrefChild s w o name) = scheduleOf s := by
  have hend := scheduleOf_slUnref s w o name
  unfold unrefChild
  split
  next h => rwa [h] at hend
  next h =>
    rw [h] at hend
    exact (scheduleOf_addLog _ _).trans hend

/-! ### Jobs -/

@[simp] theorem scheduleOf_closeJob (s : State) (o k id code : Nat) : scheduleOf (closeJob s o k id code) = scheduleOf s := by
  unfold closeJob
  dsimp only
  split
  · rfl
  · split
    · rw [scheduleOf_unrefChild]
      rfl
    · rfl

@[simp] theorem scheduleOf_logJob (s : State) (o k : Nat) (b : Job) (cause : Nat) :
    scheduleOf (logJob s o k b cause) = scheduleOf s := scheduleOf_addLog _ _

@[simp] theorem scheduleOf_failChained (o k n : Nat) (s : State) (id : Nat) :
    scheduleOf (failChained o k n s id) = scheduleOf s := by
  induction n generalizing s id with
  | zero => rfl
  | succ n ih =>
    unfold failChained
    split
    · rfl
    · exact foldl_keeps scheduleOf (fun u b => by rw [ih, scheduleOf_closeJob, scheduleOf_logJob]) _ s

@[simp] theorem scheduleOf_failJob (s : State) (o k id cause : Nat) : scheduleOf (failJob s o k id cause) = scheduleOf s := by
  unfold failJob
  split
  · rfl
  · rw [scheduleOf_failChained, scheduleOf_closeJob, scheduleOf_logJob]

/-! ### Traps and items -/

@[simp] theorem scheduleOf_raiseGfl (s : State) (o : Nat) (ti : TrapInfo) : scheduleOf (raiseGfl s o ti) = scheduleOf s := by
  unfold raiseGfl
  repeat' split
  all_goals rfl

@[simp] theorem scheduleOf_takeTrap (s : State) (o tid : Nat) (ti : TrapInfo) (pc : Word) (len : Option Nat)
    (async vhalf : Bool) : scheduleOf (takeTrap s o tid ti pc len async vhalf) = scheduleOf s := by
  rw [← scheduleOf_raiseGfl s o ti]
  unfold takeTrap
  dsimp only
  split <;> rfl

@[simp] theorem scheduleOf_trapWait (s : State) (o tid : Nat) (ti : TrapInfo) :
    scheduleOf (trapWait s o tid ti) = scheduleOf s := by
  unfold trapWait
  repeat' split
  all_goals simp

@[simp] theorem scheduleOf_trapWaiter (s : State) (o tid r : Nat) (va : Word) (applied : Bool) :
    scheduleOf (trapWaiter s o tid r va applied) = scheduleOf s := by
  unfold trapWaiter
  repeat' split
  all_goals simp

@[simp] theorem scheduleOf_logNamed (s : State) (o j cause itemk item addr : Nat) (known applied : Bool) (aux : Nat) :
    scheduleOf (logNamed s o j cause itemk item addr known applied aux) = scheduleOf s := scheduleOf_addLog _ _

@[simp] theorem scheduleOf_logItem (s : State) (o j cause itemk item addr : Nat) (known applied : Bool) :
    scheduleOf (logItem s o j cause itemk item addr known applied) = scheduleOf s := scheduleOf_addLog _ _

@[simp] theorem scheduleOf_failItem (s : State) (o : Nat) (i : Item) : scheduleOf (failItem s o i) = scheduleOf s := by
  cases i with
  | none => rfl
  | journal j q => exact scheduleOf_logItem _ _ _ _ _ _ _ _ _
  | job k id => exact scheduleOf_logItem _ _ _ _ _ _ _ _ _

@[simp] theorem scheduleOf_refuseEntry (s : State) (o j : Nat) (e : JEnt) (cause reason : Nat) :
    scheduleOf (refuseEntry s o j e cause reason) = scheduleOf s := by
  unfold refuseEntry
  split
  · exact scheduleOf_failItem _ _ _
  · rfl

/-! ### What is missing, item by item -/

@[simp] theorem scheduleOf_failAs (applied : Bool) (s : State) (q : Req) : scheduleOf (failAs applied s q) = scheduleOf s := by
  unfold failAs
  dsimp only
  split
  · rfl
  · rw [scheduleOf_logNamed, scheduleOf_trapWaiter]
    rfl

@[simp] theorem scheduleOf_failReply (s : State) (p : Reply) : scheduleOf (failReply s p) = scheduleOf s := by
  unfold failReply
  extract_lets u base off
  split
  · exact (scheduleOf_logNamed _ _ _ _ _ _ _ _ _ _).trans (scheduleOf_trapWaiter u _ _ _ _ _)
  · rfl

@[simp] theorem scheduleOf_failCombine (s : State) (c : Combine) : scheduleOf (failCombine s c) = scheduleOf s := by
  rw [failCombine, scheduleOf_failAs, scheduleOf_failAs]
  rfl

@[simp] theorem scheduleOf_failPosted (s : State) (o j : Nat) (e : JEnt) : scheduleOf (failPosted s o j e) = scheduleOf s := by
  unfold failPosted logPosted
  dsimp only
  repeat' split
  all_goals simp

@[simp] theorem scheduleOf_failChunk (s : State) (o c : Nat) : scheduleOf (failChunk s o c) = scheduleOf s := by
  unfold failChunk
  repeat' split
  all_goals simp

@[simp] theorem scheduleOf_failWalk (s : State) (k : Walk) : scheduleOf (failWalk s k) = scheduleOf s :=
  foldl_keeps scheduleOf (fun u tid => scheduleOf_onThr u k.o tid _) k.joined { s with walks := s.walks.filter (·.id != k.id) }

theorem scheduleOf_failMissing (s : State) (save : Bool) (mine : Nat → Bool) :
    scheduleOf (failMissing s save mine) = scheduleOf s := by
  unfold failMissing
  extract_lets u1 u2 u3 u4 u5 u6 seen
  calc scheduleOf u6
    _ = scheduleOf u5 := foldl_keeps scheduleOf (fun u p => scheduleOf_failChunk u _ _) _ u5
    _ = scheduleOf u4 :=
      foldl_keeps scheduleOf (fun u p => foldl_keeps scheduleOf (fun v e => scheduleOf_failPosted v _ _ e) _ u) _ u4
    _ = scheduleOf u3 := foldl_keeps scheduleOf scheduleOf_failWalk _ u3
    _ = scheduleOf u2 := foldl_keeps scheduleOf scheduleOf_failReply _ u2
    _ = scheduleOf u1 := foldl_keeps scheduleOf (scheduleOf_failAs false) _ u1
    _ = scheduleOf s := foldl_keeps scheduleOf scheduleOf_failCombine _ s

/-! ## What the CREATEs of an instant T leave (R38): the threads, the next instant and the clock -/

def courseOf (s : State) : SMap Thread × Nat × Nat := (s.threads, s.nextT, s.fab)

@[simp] theorem courseOf_wakeOctets (s : State) (pa n : Nat) : courseOf (wakeOctets s pa n) = courseOf s := by
  obtain ⟨q, h, -⟩ := wakeOctets_eq s pa n
  rw [h]
  rfl

@[simp] theorem courseOf_restOctets (s : State) (rs : List (Nat × Nat)) : courseOf (restOctets s rs) = courseOf s := by
  obtain ⟨q, h, -⟩ := restOctets_grows s rs
  rw [h]
  rfl

@[simp] theorem courseOf_writeAt_mem (s : State) (pa : Nat) (bs : List Byte) :
    courseOf (writeAt s (.mem pa) bs) = courseOf s := by
  obtain ⟨ims, h⟩ := writeAt_mem_eq s pa bs
  rw [h]
  rfl

@[simp] theorem courseOf_settleBlock (s : State) (pa : Nat) : courseOf (settleBlock s pa) = courseOf s := by
  obtain ⟨m, ims, h, -⟩ := settleBlock_eq s pa
  rw [h]
  rfl

@[simp] theorem courseOf_settleRange (s : State) (pa n : Nat) : courseOf (settleRange s pa n) = courseOf s :=
  foldl_keeps courseOf (fun u _ => foldl_keeps courseOf (fun v _ => courseOf_settleBlock v _) _ u) _ s

@[simp] theorem courseOf_grant (s : State) (o : Nat) (ps : List (Nat × Nat)) : courseOf (grant s o ps) = courseOf s := by
  refine foldl_keeps courseOf (fun u p => ?_) _ s
  rfl

@[simp] theorem courseOf_zeroColumns (s : State) (o n : Nat) : courseOf (zeroColumns s o n) = courseOf s := by
  unfold zeroColumns
  extract_lets e core u
  have hu : courseOf u = courseOf s := by
    refine foldl_keeps courseOf (fun v j => ?_) _ s
    rfl
  rw [← hu]
  refine foldl_keeps courseOf (fun v c => ?_) _ u
  rfl

theorem courseOf_createIn (s : State) (pa : Nat) (held : Option (List (Nat × Nat) × Nat)) :
    courseOf (createIn s pa held).1 = courseOf s := by
  unfold createIn
  split
  · rfl
  · extract_lets u b mine v ps w
    have hu : courseOf u = courseOf s := courseOf_wakeOctets s pa _
    have hv : courseOf v = courseOf u :=
      foldl_keeps courseOf (fun t _ => (courseOf_settleRange _ _ _).trans (courseOf_wakeOctets t _ _)) mine u
    split
    · exact hu
    · split
      · exact hu
      · split
        · exact hu
        · split
          · exact hu
          · rw [courseOf_zeroColumns, courseOf_grant, ← hu, ← hv]
            rfl

@[simp] theorem courseOf_finish (s : State) (c : Cmd) (status result : Nat) :
    courseOf (finish s c status result) = courseOf s := by
  unfold finish
  extract_lets u v ring x
  have hx : courseOf x = courseOf s := (courseOf_writeAt_mem u _ _).trans (courseOf_writeAt_mem s _ _)
  split
  · exact hx
  · rw [courseOf_restOctets, hx]

@[simp] theorem courseOf_createCmd (s : State) (c : Cmd) : courseOf (createCmd s c) = courseOf s := by
  have hin := courseOf_createIn s c.a0 c.held
  unfold createCmd
  split
  · exact courseOf_finish _ _ _ _
  · split
    next h =>
      rw [h] at hin
      rw [courseOf_finish, courseOf_restOctets, hin]
    next h =>
      rw [h] at hin
      rw [courseOf_finish, courseOf_restOctets, hin]

/-- One entry's turn at the instant T: a CREATE that may start runs. -/
def createTurn (s : State) (c : Cmd) : State :=
  match cmdNow s c.n 1 with
  | some c => createCmd s c
  | none => s

theorem startCreates_eq (s : State) : startCreates s = { s.cmds.foldl createTurn s with
    cmds := (s.cmds.foldl createTurn s).cmds.map (keepPositions (s.cmds.foldl createTurn s)) } := rfl

theorem courseOf_startCreates (s : State) : courseOf (startCreates s) = courseOf s := by
  refine foldl_keeps courseOf (f := createTurn) (fun u c => ?_) s.cmds s
  unfold createTurn
  split
  · exact courseOf_createCmd _ _
  · rfl

theorem cmdNow_some {s : State} {n op : Nat} {c : Cmd} (h : cmdNow s n op = some c) : c ∈ s.cmds ∧ c.op = op := by
  unfold cmdNow at h
  split at h
  next c' hfind =>
    split at h
    next hc =>
      obtain ⟨hop, -⟩ := hc
      rw [Option.some.injEq] at h
      exact ⟨h ▸ List.mem_of_find?_eq_some hfind, h ▸ hop⟩
    next => cases h
  next => cases h

/-- With no CREATE among the commands taken, the instant T changes nothing for their sake. -/
theorem startCreates_none {s : State} (h : ∀ c ∈ s.cmds, c.op ≠ 1) : startCreates s = s := by
  have hnone : ∀ n, cmdNow s n 1 = none := fun n => by
    cases hc : cmdNow s n 1 with
    | none => rfl
    | some c =>
      obtain ⟨hmem, hop⟩ := cmdNow_some hc
      exact absurd hop (h c hmem)
  have hturn : ∀ cs : List Cmd, cs.foldl createTurn s = s := fun cs => by
    induction cs with
    | nil => rfl
    | cons c cs ih => rw [List.foldl_cons, createTurn, hnone, ih]
  have hkeep : s.cmds.map (keepPositions s) = s.cmds :=
    (List.map_congr_left fun c hc => if_neg fun hand => h c hc hand.1).trans (List.map_id _)
  rw [startCreates_eq, hturn, hkeep]

/-! ## The instant T (R56 to R58) -/

/-- A step that replaces one part of the state, folded over a list, replaces that part. -/
theorem foldl_replaces {α β : Type} {set : State → β → State} (hid : ∀ s, ∃ b, s = set s b)
    (hset : ∀ s b c, set (set s b) c = set s c) {f : State → α → State} (hf : ∀ s a, ∃ b, f s a = set s b) (l : List α)
    (s : State) : ∃ b, l.foldl f s = set s b := by
  induction l generalizing s with
  | nil => exact hid s
  | cons a l ih =>
    obtain ⟨b, hb⟩ := hf s a
    obtain ⟨c, hc⟩ := ih (f s a)
    exact ⟨c, by rw [List.foldl_cons, hc, hb, hset]⟩

def withUnits (s : State) (x : SMap Core × SMap Cluster) : State := { s with cores := x.1, clusters := x.2 }

theorem foldl_abandonAll_eq (os : List Nat) (s : State) : ∃ x, os.foldl abandonAll s = withUnits s x := by
  refine foldl_replaces (set := withUnits) (fun s => ⟨(s.cores, s.clusters), rfl⟩) (fun _ _ _ => rfl) (fun s o => ?_) os s
  obtain ⟨cs, cl, h⟩ := abandonAll_eq s o
  exact ⟨(cs, cl), h⟩

theorem beginPause_eq (s : State) : ∃ cs cl, beginPause s = { startCreates s with
    cores := cs, clusters := cl, trowel := .drain, since := s.fab, slot := 0, done := [], flags := [], swapAt := none,
    failed := [] } := by
  obtain ⟨⟨cs, cl⟩, h⟩ := foldl_abandonAll_eq ((startCreates s).owners.map (·.1)) (startCreates s)
  have hfab : (startCreates s).fab = s.fab := congrArg (·.2.2) (courseOf_startCreates s)
  refine ⟨cs, cl, ?_⟩
  unfold beginPause
  dsimp only
  rw [h, ← hfab]
  rfl

/-- The pause begins: no thread changes, and without a CREATE neither memory nor the position table (R56, R58). -/
theorem beginPause_drains (s : State) : (beginPause s).trowel = .drain ∧ (beginPause s).since = s.fab ∧
    (beginPause s).slot = 0 ∧ (beginPause s).nextT = s.nextT ∧ (beginPause s).threads = s.threads ∧
    ((∀ c ∈ s.cmds, c.op ≠ 1) → (beginPause s).mem = s.mem ∧ (beginPause s).owners = s.owners ∧
      (beginPause s).table = s.table) := by
  obtain ⟨cs, cl, h⟩ := beginPause_eq s
  have hcourse := courseOf_startCreates s
  rw [h]
  refine ⟨rfl, rfl, rfl, congrArg (·.2.1) hcourse, congrArg (·.1) hcourse, fun hnone => ?_⟩
  rw [startCreates_none hnone]
  exact ⟨rfl, rfl, rfl⟩

theorem exec_warn {s : State} (hp : s.power = .ready) (hr : s.trowel = .run) (ht : s.nextT ≤ s.fab + 140000) :
    exec .warn s = .next { s with trowel := .warn } := by
  have hearly : ¬ (s.fab + warnLead < s.nextT) := not_lt.2 ht
  exact if_neg (by simp [hp, hr, hearly])

section
variable {s : State} (hwarn : s.trowel = .warn) (ht : s.nextT ≤ s.fab)
include hwarn ht

/-- The instant T has come: WARN ends with the pause, or with its deferral. -/
theorem exec_drain_due : exec .drain s = .next
    (if s.saves.isEmpty && s.deferred.isEmpty then beginPause { s with nextT := s.nextT + 2 ^ s.period * 1400000 }
     else { s with nextT := s.nextT + 2 ^ s.period * 1400000, deferred := s.deferred ++ [s.nextT] }) := by
  have hdue : ¬ ((s.trowel != .warn || decide (s.fab < s.nextT)) = true) := by simp [hwarn, ht]
  refine (if_neg hdue).trans ?_
  split <;> rfl

theorem exec_drain_begins (hs : s.saves = []) (hd : s.deferred = []) :
    exec .drain s = .next (beginPause { s with nextT := s.nextT + 2 ^ s.period * 1400000 }) := by
  rw [exec_drain_due hwarn ht, hs, hd]
  rfl

theorem exec_drain_defers (h : s.saves ≠ [] ∨ s.deferred ≠ []) :
    exec .drain s = .next { s with nextT := s.nextT + 2 ^ s.period * 1400000, deferred := s.deferred ++ [s.nextT] } := by
  rw [exec_drain_due hwarn ht, if_neg]
  simpa [List.isEmpty_iff, imp_iff_not_or] using h

end

theorem exec_deferredInstant {s : State} {x : Nat} {rest : List Nat} (hp : paused s = false) (hs : s.saves = [])
    (hd : s.deferred = x :: rest) : exec .deferredInstant s = .next { beginPause s with deferred := rest } := by
  show execDeferredInstant s = _
  unfold execDeferredInstant
  rw [hp, hs, hd]
  rfl

/-! ## CHUNK (R56, R58, R63) -/

theorem exec_chunk {s : State} (ht : s.trowel = .drain) (hd : drained s false (fun _ => true) = true) :
    exec .chunk s = .next (chunkAct s) := if_pos (by simp [ht, hd])

theorem exec_drainTimeout {s : State} (ht : s.trowel = .drain) (hd : drained s false (fun _ => true) = false)
    (hlate : s.since + 11200 ≤ s.fab) :
    exec .drainTimeout s = .next (chunkAct (failMissing s false (fun _ => true))) := by
  have hlimit : s.since + drainLimit ≤ s.fab := hlate
  exact if_pos (by simp [ht, hd, hlimit])

theorem chunkAct_trowel (s : State) : (chunkAct s).trowel = .chunk := rfl
theorem chunkAct_mem (s : State) : (chunkAct s).mem = s.mem := rfl
theorem scheduleOf_chunkAct (s : State) : scheduleOf (chunkAct s) = scheduleOf s := rfl
theorem chunkAct_threads (s : State) : (chunkAct s).threads = s.threads.map (fun p => (p.1, dropFetched p.2)) := rfl

/-- At CHUNK no job is ahead of its committed position (R56). -/
theorem chunkAct_specs (s : State) : ∀ p ∈ (chunkAct s).cores, ∀ b ∈ p.2.jobs, b.spec = b.pos := by
  intro p hp b hb
  obtain ⟨q, -, rfl⟩ := List.mem_map.1 hp
  obtain ⟨x, -, rfl⟩ := List.mem_map.1 hb
  rfl

theorem drainTimeout_keeps (s : State) : (chunkAct (failMissing s false (fun _ => true))).table = s.table ∧
    (chunkAct (failMissing s false (fun _ => true))).nextT = s.nextT := by
  have h := (scheduleOf_chunkAct _).trans (scheduleOf_failMissing s false (fun _ => true))
  exact ⟨table_of_schedule h, nextT_of_schedule h⟩

/-! ## Done flags sent (R60) -/

/-- A die sends its flag where it has not yet and its last slot has ended. -/
def flagStep (s : State) (l : List (Nat × Nat)) (d : Nat) : List (Nat × Nat) :=
  if l.any (·.1 == d) || s.slot < dieSlots s d || dieFailed s d then l else l ++ [(d, s.fab)]

theorem sendFlags_done (s : State) : (sendFlags s).done = (List.range 8).foldl (flagStep s) s.done := by
  unfold sendFlags flagStep
  rfl

theorem flagStep_keeps (s : State) {l : List (Nat × Nat)} {p : Nat × Nat} (h : p ∈ l) (d : Nat) : p ∈ flagStep s l d := by
  unfold flagStep
  split
  · exact h
  · exact List.mem_append_left _ h

theorem foldl_flagStep_keeps (s : State) {l : List (Nat × Nat)} {p : Nat × Nat} (h : p ∈ l) (ds : List Nat) :
    p ∈ ds.foldl (flagStep s) l := by
  induction ds generalizing l with
  | nil => exact h
  | cons d ds ih => exact ih (flagStep_keeps s h d)

section
variable {s : State} {l : List (Nat × Nat)} {d : Nat} (hslots : dieSlots s d ≤ s.slot) (hlive : dieFailed s d = false)
  (hnew : ∀ p ∈ l, p.1 ≠ d)
include hslots hlive hnew

theorem flagStep_self : flagStep s l d = l ++ [(d, s.fab)] := by
  have hany : l.any (·.1 == d) = false := List.any_eq_false.2 fun p hp => by simp [hnew p hp]
  exact if_neg (by simp [hany, hlive, hslots])

/-- A die whose last slot has ended sends its flag with the count as its stamp. -/
theorem foldl_flagStep_sends {ds : List Nat} (hd : d ∈ ds) : (d, s.fab) ∈ ds.foldl (flagStep s) l := by
  induction ds generalizing l with
  | nil => cases hd
  | cons e ds ih =>
    by_cases he : e = d
    · subst he
      rw [List.foldl_cons, flagStep_self hslots hlive hnew]
      exact foldl_flagStep_keeps s (List.mem_append_right _ (List.mem_singleton_self _)) ds
    · refine ih (fun p hp => ?_) ((List.mem_cons.1 hd).resolve_left (Ne.symm he))
      unfold flagStep at hp
      split at hp
      · exact hnew p hp
      · rcases List.mem_append.1 hp with hp | hp
        · exact hnew p hp
        · rw [List.mem_singleton.1 hp]
          exact he

end

/-! ## A slot of the stream (R59) -/

/-- The state as one more slot has ended. -/
def slotEnded (s : State) : State := { s with trowel := .stream, slot := s.slot + 1, fab := s.fab + 18 }

theorem exec_streamSlot {s : State} (hs : streaming s = true) (hd : ∃ d < 8, s.slot < dieSlots s d) :
    exec .streamSlot s = .next (sendFlags (slotEnded s)) := by
  obtain ⟨d, hd8, hd⟩ := hd
  have hany : (List.range 8).any (fun d => s.slot < dieSlots s d) = true :=
    List.any_eq_true.2 ⟨d, List.mem_range.2 hd8, decide_eq_true hd⟩
  exact if_pos (by rw [hs, hany]; rfl)

/-- In a slot each column's receive buffer is written as the chunk that it holds. -/
theorem chunkIn_slotEnded (s : State) (d c m : Nat) :
    chunkIn (slotEnded s) d c m = (chunkIn s d c m || recvChunk s d c == some m) := by
  have hmoves : moves (slotEnded s) d c = moves s d c := rfl
  have hpos : posAt (slotEnded s) d c = posAt s d c := rfl
  unfold chunkIn recvChunk
  rw [hmoves, hpos]
  dsimp only
  generalize (if c = (posAt s d c).cstart then (posAt s d c).clen - 2 else 0) = lag
  rw [show (slotEnded s).slot = s.slot + 1 from rfl, Bool.eq_iff_iff]
  by_cases hm : moves s d c = true
  · simp only [hm, Bool.true_and, Bool.and_eq_true, Bool.or_eq_true, decide_eq_true_eq, beq_iff_eq,
      Option.ite_none_right_eq_some, Option.some.injEq]
    omega
  · simp [hm]

theorem chunkIn_sendFlags (s : State) (d c m : Nat) : chunkIn (sendFlags s) d c m = chunkIn s d c m := by
  unfold chunkIn moves posAt
  rfl

/-- A chunk that has been written has been sent in a slot before. -/
theorem chunkIn_sent {s : State} {d c m : Nat} (h : chunkIn s d c m = true) : m < s.slot := by
  simp only [chunkIn, Bool.and_eq_true, decide_eq_true_eq] at h
  omega

/-- After a circuit's slots every chunk of its columns is the predecessor's. -/
theorem chunkHolder_all {s : State} {d c m : Nat} (hm : moves s d c = true) (hlt : m < 924)
    (hslots : circSlots (posAt s d c).clen ≤ s.slot) : chunkHolder s d c m = (posAt s d (predCol s d c)).own := by
  have hlen : 2 ≤ (posAt s d c).clen := by
    simp only [moves, Bool.and_eq_true, decide_eq_true_eq] at hm
    exact hm.1
  have hin : chunkIn s d c m = true := by
    rw [circSlots, if_neg (by omega)] at hslots
    simp only [chunkIn, hm, Bool.true_and, Bool.and_eq_true, decide_eq_true_eq]
    refine ⟨hlt, ?_⟩
    split <;> omega
  unfold chunkHolder
  rw [hin]
  rfl

/-! ## Done flags received, and the swap cycle (R60, R63) -/

/-- The largest of a list's numbers bounds them all and is one of them. -/
theorem foldl_max_largest {l : List Nat} (h : l ≠ []) : (∀ x ∈ l, x ≤ l.foldl Nat.max 0) ∧ l.foldl Nat.max 0 ∈ l := by
  have hmax : (0 :: l).max? = some (l.foldl Nat.max 0) := List.max?_cons'
  obtain ⟨hmem, hle⟩ := List.max?_eq_some_iff.1 hmax
  refine ⟨fun x hx => hle x (List.mem_cons_of_mem _ hx), ?_⟩
  rcases List.mem_cons.1 hmem with h0 | hl
  · obtain ⟨x, hx⟩ := List.exists_mem_of_ne_nil l h
    have hx0 : x = l.foldl Nat.max 0 := by
      have := hle x (List.mem_cons_of_mem _ hx)
      omega
    exact hx0 ▸ hx
  · exact hl

theorem findSwap_eq (s : State) : ∃ x, findSwap s = { s with swapAt := x } := by
  unfold findSwap
  split <;> exact ⟨_, rfl⟩

/-- With every die known to be done the swap cycle is 256 cycles after the largest stamp. -/
theorem findSwap_swapAt {s : State} {die x : Nat} (hnone : s.swapAt = none) (hsent : (die, x) ∈ s.done) (hflag : die ∈ s.flags)
    (hall : ∀ d < 8, d ∈ s.flags ∨ dieFailed s d = true) : ∃ m, (findSwap s).swapAt = some (m + 256) ∧
      (∀ p ∈ s.done, p.1 ∈ s.flags → p.2 ≤ m) ∧ ∃ p ∈ s.done, p.1 ∈ s.flags ∧ p.2 = m := by
  have hstamp : ∀ y, y ∈ (s.done.filter (fun p => s.flags.contains p.1)).map (·.2) ↔ ∃ p ∈ s.done, p.1 ∈ s.flags ∧ p.2 = y := by
    simp [and_assoc]
  have hne : (s.done.filter (fun p => s.flags.contains p.1)).map (·.2) ≠ [] :=
    List.ne_nil_of_mem ((hstamp x).2 ⟨_, hsent, hflag, rfl⟩)
  obtain ⟨hle, hmem⟩ := foldl_max_largest hne
  refine ⟨_, ?_, fun p hp hf => hle _ ((hstamp p.2).2 ⟨p, hp, hf, rfl⟩), (hstamp _).1 hmem⟩
  have hknown : (List.range 8).all (fun d => s.flags.contains d || dieFailed s d) = true :=
    List.all_eq_true.2 fun d hd => by simpa using hall d (List.mem_range.1 hd)
  exact congrArg State.swapAt (if_pos (by rw [hnone, hknown]; rfl))

section
variable {s : State} {die x : Nat} (hs : streaming s = true) (hsent : (die, x) ∈ s.done) (hnew : die ∉ s.flags)

theorem exec_doneFlag_lost (hlost : Config.flagLost s.since die = true) : exec (.doneFlag die) s = .next s :=
  if_neg (by simp [hlost])

include hs hsent hnew in
theorem exec_doneFlag_taken (hlost : Config.flagLost s.since die = false) :
    exec (.doneFlag die) s = .next (findSwap { s with flags := die :: s.flags }) := by
  have hany : s.done.any (·.1 == die) = true := List.any_eq_true.2 ⟨_, hsent, by simp⟩
  exact if_pos (by simp [hs, hany, hlost, hnew])

end

/-! ## The position table -/

theorem lookup_setD_ne {α : Type} [DecidableEq α] (d : α) (m : SMap α) {i j : Nat} (x : α) (h : j ≠ i) :
    lookup (setD d m i x) j = lookup m j := by
  unfold setD
  split
  · exact lookup_drop_ne m h
  · exact lookup_put_ne m x h

theorem posAt_setPos_self (s : State) (die col : Nat) (p : Pos) : posAt (setPos s die col p) die col = p :=
  getD_setD_self _ _ _ _

theorem posAt_setPos_ne (s : State) {die col d c : Nat} (p : Pos) (h : posKey d c ≠ posKey die col) :
    posAt (setPos s die col p) d c = posAt s d c := by
  unfold posAt getD
  rw [show (setPos s die col p).table = setD (Pos.vacant col) s.table (posKey die col) p from rfl, lookup_setD_ne _ _ _ h]

/-! ## SWAP (R50, R52, R60) -/

/-- The positions of the package. -/
def allPositions : List (Nat × Nat) := (List.range 8).flatMap (fun d => (List.range 12).map (fun c => (d, c)))

theorem mem_allPositions {p : Nat × Nat} : p ∈ allPositions ↔ p.1 < 8 ∧ p.2 < 12 := by
  simp only [allPositions, List.mem_flatMap, List.mem_map, List.mem_range]
  constructor
  · rintro ⟨d, hd, c, hc, rfl⟩
    exact ⟨hd, hc⟩
  · rintro ⟨hd, hc⟩
    exact ⟨p.1, hd, p.2, hc, rfl⟩

/-- A position as its column's predecessor's holder arrives. -/
def arrived (s : State) (die col : Nat) : Pos :=
  { posAt s die col with own := (posAt s die (predCol s die col)).own, lcl := (posAt s die (predCol s die col)).lcl }

def swapStep (s t : State) (p : Nat × Nat) : State := if moves s p.1 p.2 then setPos t p.1 p.2 (arrived s p.1 p.2) else t

theorem swapTable_eq (s : State) : swapTable s = allPositions.foldl (swapStep s) s := rfl

theorem posAt_swapStep (s t : State) {p q : Nat × Nat} (hp : p.2 < 12) (hq : q.2 < 12) :
    posAt (swapStep s t p) q.1 q.2 = if q = p ∧ moves s q.1 q.2 = true then arrived s q.1 q.2 else posAt t q.1 q.2 := by
  unfold swapStep
  by_cases hqp : q = p
  · subst hqp
    by_cases hm : moves s q.1 q.2 = true
    · rw [if_pos hm, if_pos ⟨rfl, hm⟩, posAt_setPos_self]
    · rw [if_neg hm, if_neg (hm ·.2)]
  · have hkey : posKey q.1 q.2 ≠ posKey p.1 p.2 := fun h => by
      unfold posKey at h
      exact hqp (Prod.ext (by omega) (by omega))
    rw [if_neg (c := q = p ∧ _) (hqp ·.1)]
    split
    · exact posAt_setPos_ne t _ hkey
    · rfl

theorem posAt_foldl_swapStep (s t : State) {ps : List (Nat × Nat)} (hps : ∀ p ∈ ps, p.2 < 12) {q : Nat × Nat} (hq : q.2 < 12) :
    posAt (ps.foldl (swapStep s) t) q.1 q.2
      = if q ∈ ps ∧ moves s q.1 q.2 = true then arrived s q.1 q.2 else posAt t q.1 q.2 := by
  induction ps generalizing t with
  | nil => simp
  | cons p ps ih =>
    rw [List.foldl_cons, ih _ (fun p' hp' => hps p' (List.mem_cons_of_mem _ hp')),
      posAt_swapStep s t (hps p List.mem_cons_self) hq]
    by_cases hm : moves s q.1 q.2 = true
    · by_cases hqp : q = p
      · subst hqp
        simp [hm]
      · simp [hm, hqp]
    · simp [hm]

/-- The holder of each position of a circuit that moves is its predecessor's. -/
theorem posAt_swapTable (s : State) {die col : Nat} (hd : die < 8) (hc : col < 12) :
    posAt (swapTable s) die col = if moves s die col = true then arrived s die col else posAt s die col := by
  have h := posAt_foldl_swapStep s s (ps := allPositions) (fun p hp => (mem_allPositions.1 hp).2) (q := (die, col)) hc
  rw [← swapTable_eq] at h
  rw [h]
  simp [mem_allPositions, hd, hc]

/-- A column's holder leaves its engine's ramp (R89). -/
def rampStep (s t : State) (p : Nat × Nat) : State :=
  match (posAt s p.1 p.2).own with
  | some o =>
    let e := engineAt s ⟨p.1, p.2, 0, false⟩
    if moves s p.1 p.2 && e.used + e.prev != 0 then
      onEngine t ⟨p.1, p.2, 0, false⟩ (fun e => { e with payer := e.payer.or (some o) })
    else t
  | none => t

theorem leaveRamps_eq (s : State) : ∃ es, leaveRamps s = { s with engines := es } := by
  refine foldl_replaces (f := rampStep s) (set := fun s es => { s with engines := es }) (fun s => ⟨s.engines, rfl⟩)
    (fun _ _ _ => rfl) (fun t p => ?_) allPositions s
  unfold rampStep
  split
  · dsimp only
    split
    · exact ⟨_, rfl⟩
    · exact ⟨t.engines, rfl⟩
  · exact ⟨t.engines, rfl⟩

theorem rankAll_eq (s : State) : ∃ ws, rankAll s = { s with owners := ws } := by
  refine foldl_replaces (set := fun s ws => { s with owners := ws }) (fun s => ⟨s.owners, rfl⟩) (fun _ _ _ => rfl)
    (fun t o => ?_) _ s
  unfold rankOwner
  split
  · exact ⟨t.owners, rfl⟩
  · exact ⟨_, rfl⟩

/-- The core map of an owner. -/
def mapOf (s : State) (o : Nat) : Option (List Place) := (owner? s o).map (·.map)

/-- A ranking of the cores leaves where they stand. -/
theorem mapOf_rankOwner (o : Nat) (s : State) (q : Nat) : mapOf (rankOwner s q) o = mapOf s o := by
  unfold rankOwner
  split
  · rfl
  · dsimp only
    rw [mapOf, owner?_onOwner_ite]
    split
    · rw [Option.map_map]
      rfl
    · rfl

theorem mapOf_rankAll (s : State) (o : Nat) : mapOf (rankAll s) o = mapOf s o :=
  foldl_keeps (mapOf · o) (mapOf_rankOwner o) _ s

/-- A core-map entry after SWAP: on a circuit that moves, its column is the successor. -/
def placeMoved (s : State) (e : Place) : Place := if moves s e.die e.col then { e with col := succCol s e.die e.col } else e

theorem mapOf_swapMaps (s : State) (o : Nat) : mapOf (swapMaps s) o = (mapOf s o).map (·.map (placeMoved s)) := by
  have h := lookup_map s.owners (fun w => { w with map := w.map.map (placeMoved s) }) o
  unfold mapOf
  rw [show owner? (swapMaps s) o = (owner? s o).map (fun w => { w with map := w.map.map (placeMoved s) }) from h,
    Option.map_map, Option.map_map]
  rfl

/-- The device after the swap cycle, before its rankings. -/
def swapped (s : State) : State :=
  { swapHeld (swapMaps (leaveRamps s)) with table := (swapTable s).table, trowel := .resume }

theorem swapped_owners (s : State) : (swapped s).owners = (swapMaps (leaveRamps s)).owners := by
  unfold swapped
  rfl

theorem mapOf_swapped (s : State) (o : Nat) : mapOf (swapped s) o = mapOf (swapMaps (leaveRamps s)) o := by
  rw [mapOf, mapOf, owner?, owner?, swapped_owners]

theorem placeMoved_leaveRamps (s : State) : placeMoved (leaveRamps s) = placeMoved s := by
  obtain ⟨es, h⟩ := leaveRamps_eq s
  unfold placeMoved moves succCol posAt
  rw [h]

theorem mapOf_leaveRamps (s : State) (o : Nat) : mapOf (leaveRamps s) o = mapOf s o := by
  obtain ⟨es, h⟩ := leaveRamps_eq s
  unfold mapOf
  rw [owner?, h, owner?]

theorem exec_swap {s : State} {x : Nat} (hs : streaming s = true) (hx : s.swapAt = some x) (hnow : x ≤ s.fab) :
    exec .swap s = .next (rankAll (swapped s)) := by
  show execSwap s = _
  unfold execSwap
  rw [hx]
  exact if_pos (by simp [hs, hnow])

theorem rankAll_swapped (s : State) : ∃ ws es cs, rankAll (swapped s)
    = { s with owners := ws, engines := es, cmds := cs, table := (swapTable s).table, trowel := .resume } := by
  obtain ⟨es, he⟩ := leaveRamps_eq s
  obtain ⟨ws, hw⟩ := rankAll_eq (swapped s)
  refine ⟨ws, es, (swapped s).cmds, ?_⟩
  rw [hw]
  unfold swapped
  rw [he]
  rfl

theorem owner?_swapped {s : State} {o : Nat} {w : Owner} (hw : owner? s o = some w) :
    ∃ w', owner? (rankAll (swapped s)) o = some w' ∧ w'.map = w.map.map (placeMoved s) := by
  have hmap : mapOf (rankAll (swapped s)) o = some (w.map.map (placeMoved s)) := by
    rw [mapOf_rankAll, mapOf_swapped, mapOf_swapMaps, placeMoved_leaveRamps, mapOf_leaveRamps, mapOf, hw]
    rfl
  exact Option.map_eq_some_iff.1 hmap

/-! ## RESUME (R54, R56, R61) -/

/-- The device as the pause ends. -/
def resumed (s : State) : State :=
  { shiftWaits (emptyBuffers s (fun _ => true)) (fun _ => true) (s.fab - s.since) with
    owners := (shiftWaits s (fun _ => true) (s.fab - s.since)).owners.map (fun p =>
      (p.1, if p.2.placed then { p.2 with gen := p.2.gen + 1 } else p.2)),
    cmds := s.cmds.map (fun c => { c with held := c.held.map (fun h => (h.1, h.2 + 1)) }),
    trowel := if s.deferred.isEmpty then .run else .warn, balanceAt := s.balanceAt + (s.fab - s.since),
    swapAt := none, done := [], flags := [], failed := [] }

theorem exec_resume {s : State} (h : s.trowel = .resume) : exec .resume s = .next (resumed s) :=
  if_neg (by simp [h])

theorem resumed_trowel (s : State) : (resumed s).trowel = if s.deferred = [] then .run else .warn := by
  unfold resumed
  cases s.deferred <;> rfl

theorem resumed_mem (s : State) : (resumed s).mem = s.mem := rfl
theorem resumed_table (s : State) : (resumed s).table = s.table := rfl
theorem resumed_threads (s : State) : (resumed s).threads = s.threads.map (fun p => (p.1, { p.2 with walks := [] })) := rfl

/-- A placed owner's generation goes up, and its balancing interval is as much longer as the pause was long. -/
theorem owner?_resumed {s : State} {o : Nat} {w : Owner} (hw : owner? s o = some w) : owner? (resumed s) o = some { w with
    gen := if w.placed = true then w.gen + 1 else w.gen, balanceAt := w.balanceAt + (s.fab - s.since) } := by
  have hshift := owner?_shiftWaits s (fun _ => true) (s.fab - s.since) o
  have h := lookup_map (shiftWaits s (fun _ => true) (s.fab - s.since)).owners
    (fun w => if w.placed then { w with gen := w.gen + 1 } else w) o
  rw [hw] at hshift
  refine h.trans ?_
  rw [show lookup _ o = _ from hshift]
  cases hp : w.placed <;> simp [hp]

/-- After RESUME no core has an L1 line, a translation or a resolved tile from before (R54, R139). -/
theorem resumed_cores (s : State) :
    ∀ p ∈ (resumed s).cores, p.2.l1 = [] ∧ p.2.tlb = [] ∧ p.2.tcache = [] ∧ ∀ e ∈ p.2.journal, e.tile = none := by
  intro p hp
  obtain ⟨q, hq, rfl⟩ := List.mem_map.1 hp
  obtain ⟨r, -, rfl⟩ := List.mem_map.1 hq
  refine ⟨rfl, rfl, rfl, fun e he => ?_⟩
  obtain ⟨x, -, rfl⟩ := List.mem_map.1 he
  rfl

theorem resumed_clusters (s : State) : ∀ p ∈ (resumed s).clusters, p.2.tlbMx = [] ∧ p.2.tlbCu = [] := by
  intro p hp
  obtain ⟨q, -, rfl⟩ := List.mem_map.1 hp
  exact ⟨rfl, rfl⟩

/-! ## A circuit fails (R63) -/

/-- A column goes out of service. -/
def outColumn (die : Nat) (s : State) (c : Nat) : State := setPos s die c { posAt s die c with out := true }

theorem foldl_outColumn_eq (die : Nat) (cols : List Nat) (s : State) :
    ∃ t, cols.foldl (outColumn die) s = { s with table := t } :=
  foldl_replaces (set := fun s t => { s with table := t }) (fun s => ⟨s.table, rfl⟩) (fun _ _ _ => rfl)
    (fun _ _ => ⟨_, rfl⟩) cols s

theorem foldl_outColumn_out {die c : Nat} {cols : List Nat} {s : State} (h : c ∈ cols ∨ (posAt s die c).out = true) :
    (posAt (cols.foldl (outColumn die) s) die c).out = true := by
  induction cols generalizing s with
  | nil => exact h.resolve_left (by simp)
  | cons a cols ih =>
    refine ih ?_
    by_cases hc : c = a
    · subst hc
      refine .inr ?_
      rw [outColumn, posAt_setPos_self]
    · rcases h with h | h
      · exact .inl ((List.mem_cons.1 h).resolve_left hc)
      · refine .inr ?_
        rw [outColumn, posAt_setPos_ne s _ (by unfold posKey; omega), h]

/-- The owners with positions on the columns. -/
def holdersOn (s : State) (die : Nat) (cols : List Nat) : List Nat := (cols.filterMap (fun c => (posAt s die c).own)).dedup

theorem failColumns_eq (s : State) (die : Nat) (cols : List Nat) : failColumns s die cols
    = (holdersOn s die cols).foldl (fun s o => killOwner s o 0) (cols.foldl (outColumn die) s) := rfl

theorem failColumns_table (s : State) (die : Nat) (cols : List Nat) :
    (failColumns s die cols).table = (cols.foldl (outColumn die) s).table :=
  foldl_keeps (·.table) (fun u o => killOwner_table u o 0) _ _

theorem failColumns_mem (s : State) (die : Nat) (cols : List Nat) : (failColumns s die cols).mem = s.mem := by
  obtain ⟨t, h⟩ := foldl_outColumn_eq die cols s
  refine (foldl_keeps (·.mem) (fun u o => killOwner_mem u o 0) (holdersOn s die cols) (cols.foldl (outColumn die) s)).trans ?_
  rw [h]

theorem killOwner_failed (s : State) (o cause : Nat) : (killOwner s o cause).failed = s.failed := by
  obtain ⟨cs, cl, ts, ws, l, d, w, h⟩ := killOwner_eq s o cause
  rw [h]

theorem failColumns_failed (s : State) (die : Nat) (cols : List Nat) : (failColumns s die cols).failed = s.failed := by
  obtain ⟨t, h⟩ := foldl_outColumn_eq die cols s
  refine (foldl_keeps (·.failed) (fun u o => killOwner_failed u o 0) (holdersOn s die cols)
    (cols.foldl (outColumn die) s)).trans ?_
  rw [h]

theorem failColumns_out {s : State} {die c : Nat} {cols : List Nat} (h : c ∈ cols) :
    (posAt (failColumns s die cols) die c).out = true := by
  unfold posAt
  rw [failColumns_table]
  exact foldl_outColumn_out (.inl h)

/-- The owners on columns that fail are killed. -/
theorem failColumns_kills {s : State} {die c o : Nat} {cols : List Nat} {w : Owner} (hc : c ∈ cols)
    (ho : (posAt s die c).own = some o) (hw : owner? s o = some w) :
    ∃ w', owner? (failColumns s die cols) o = some w' ∧ w'.killed = true := by
  obtain ⟨t, h⟩ := foldl_outColumn_eq die cols s
  rw [failColumns_eq, h]
  exact owner?_foldl_killOwner (w := w) (List.mem_dedup.2 (List.mem_filterMap.2 ⟨c, hc, ho⟩)) hw

/-- A failed circuit is logged and noted. -/
def failNoted (s : State) (die cstart : Nat) : State :=
  { addLog s { blankLog with kind := 0xA, place := whereOf ⟨die, cstart, 0, false⟩ 0 } with failed := (die, cstart) :: s.failed }

theorem failNoted_eq (s : State) (die cstart : Nat) : ∃ l d w, failNoted s die cstart
    = { s with log := l, dropped := d, logWait := w, failed := (die, cstart) :: s.failed } := by
  obtain ⟨l, d, w, h⟩ := addLog_eq s { blankLog with kind := 0xA, place := whereOf ⟨die, cstart, 0, false⟩ 0 }
  refine ⟨l, d, w, ?_⟩
  rw [failNoted, h]

/-- The columns of a circuit. -/
def circuitCols (cstart n : Nat) : List Nat := (List.range n).map (cstart + ·)

/-- The device after a circuit has failed, before the flags that this lets go. -/
def circuitOut (s : State) (die cstart n : Nat) : State := failColumns (failNoted s die cstart) die (circuitCols cstart n)

theorem exec_circuitFailed {s : State} {die cstart n : Nat} (hs : streaming s = true) (hx : s.swapAt = none)
    (hnew : (die, cstart) ∉ s.failed) (hc : (circuits s die).find? (·.1 == cstart) = some (cstart, n)) (hn : 2 ≤ n) :
    exec (.circuitFailed die cstart) s = .next (findSwap (sendFlags (circuitOut s die cstart n))) := by
  obtain ⟨l, d, w, hlog⟩ := addLog_eq s { blankLog with kind := 0xA, place := whereOf ⟨die, cstart, 0, false⟩ 0 }
  have hnoted : ∀ u, u = addLog s { blankLog with kind := 0xA, place := whereOf ⟨die, cstart, 0, false⟩ 0 } →
      { u with failed := (die, cstart) :: u.failed } = failNoted s die cstart := by
    rintro u rfl
    rw [failNoted, hlog]
  show execCircuitFailed die cstart s = _
  unfold execCircuitFailed
  rw [hc]
  dsimp only
  rw [if_pos (by simp [hs, hx, hnew, hn]), hnoted _ rfl]
  rfl

theorem findSwap_sendFlags_eq (s : State) : ∃ x l, findSwap (sendFlags s) = { s with swapAt := x, done := l } := by
  obtain ⟨x, h⟩ := findSwap_eq (sendFlags s)
  exact ⟨x, _, h⟩

/-! ## The phases put together -/

section
variable {s : State}

theorem streamSlot_writes (hs : streaming s = true) (hd : ∃ d < 8, s.slot < dieSlots s d) : ∃ u,
    exec .streamSlot s = .next u ∧ u.trowel = .stream ∧ u.slot = s.slot + 1 ∧ u.fab = s.fab + 18 ∧ u.mem = s.mem ∧
    u.table = s.table ∧
    (∀ d < 8, dieFailed s d = false → (∀ p ∈ s.done, p.1 ≠ d) → dieSlots s d ≤ s.slot + 1 → (d, s.fab + 18) ∈ u.done) ∧
    ∀ d c m, chunkIn u d c m = (chunkIn s d c m || recvChunk s d c == some m) := by
  refine ⟨_, exec_streamSlot hs hd, rfl, rfl, rfl, rfl, rfl, fun d hd8 hlive hnew hslots => ?_, fun d c m => ?_⟩
  · rw [sendFlags_done]
    exact foldl_flagStep_sends (s := slotEnded s) hslots hlive hnew (List.mem_range.2 hd8)
  · rw [chunkIn_sendFlags, chunkIn_slotEnded]

theorem doneFlag_reaches {die x : Nat} (hs : streaming s = true) (hsent : (die, x) ∈ s.done) (hnew : die ∉ s.flags)
    (hnone : s.swapAt = none) : ∃ u, exec (.doneFlag die) s = .next u ∧ (Config.flagLost s.since die = true → u = s) ∧
      (Config.flagLost s.since die = false → u.flags = die :: s.flags ∧ u.done = s.done ∧
        ((∀ d < 8, d ∈ u.flags ∨ dieFailed s d = true) → ∃ m, u.swapAt = some (m + 256) ∧
          (∀ p ∈ s.done, p.1 ∈ u.flags → p.2 ≤ m) ∧ ∃ p ∈ s.done, p.1 ∈ u.flags ∧ p.2 = m)) := by
  cases hlost : Config.flagLost s.since die
  · refine ⟨_, exec_doneFlag_taken hs hsent hnew hlost, fun h => (Bool.false_ne_true h).elim, fun _ => ?_⟩
    obtain ⟨y, h⟩ := findSwap_eq { s with flags := die :: s.flags }
    have hflags : (findSwap { s with flags := die :: s.flags }).flags = die :: s.flags := by rw [h]
    have hdone : (findSwap { s with flags := die :: s.flags }).done = s.done := by rw [h]
    refine ⟨hflags, hdone, fun hall => ?_⟩
    rw [hflags] at hall ⊢
    exact findSwap_swapAt (s := { s with flags := die :: s.flags }) hnone hsent List.mem_cons_self hall
  · exact ⟨s, exec_doneFlag_lost hlost, fun _ => rfl, fun h => (Bool.false_ne_true h.symm).elim⟩

theorem swap_moves {x : Nat} (hs : streaming s = true) (hx : s.swapAt = some x) (hnow : x ≤ s.fab) : ∃ u,
    exec .swap s = .next u ∧ u.trowel = .resume ∧ u.mem = s.mem ∧ u.cores = s.cores ∧ u.threads = s.threads ∧
    (∀ die < 8, ∀ col < 12, posAt u die col = if moves s die col = true then arrived s die col else posAt s die col) ∧
    ∀ o w, owner? s o = some w → ∃ w', owner? u o = some w' ∧ w'.map = w.map.map (placeMoved s) := by
  obtain ⟨ws, es, cs, hu⟩ := rankAll_swapped s
  refine ⟨_, exec_swap hs hx hnow, ?_, ?_, ?_, ?_, fun die hd col hc => ?_, fun o w hw => owner?_swapped hw⟩
  · rw [hu]
  · rw [hu]
  · rw [hu]
  · rw [hu]
  · have htable : (rankAll (swapped s)).table = (swapTable s).table := by rw [hu]
    rw [← posAt_swapTable s hd hc, posAt, posAt, htable]

theorem circuitFailed_kills {die cstart n : Nat} (hs : streaming s = true) (hx : s.swapAt = none)
    (hnew : (die, cstart) ∉ s.failed) (hc : (circuits s die).find? (·.1 == cstart) = some (cstart, n)) (hn : 2 ≤ n) : ∃ u,
    exec (.circuitFailed die cstart) s = .next u ∧ (die, cstart) ∈ u.failed ∧ u.mem = s.mem ∧
    ∀ i < n, (posAt u die (cstart + i)).out = true ∧
      ∀ o w, (posAt s die (cstart + i)).own = some o → owner? s o = some w →
        ∃ w', owner? u o = some w' ∧ w'.killed = true := by
  obtain ⟨y, l, hu⟩ := findSwap_sendFlags_eq (circuitOut s die cstart n)
  obtain ⟨l', d', w', hnoted⟩ := failNoted_eq s die cstart
  have hcol : ∀ i < n, cstart + i ∈ circuitCols cstart n := fun i hi => List.mem_map_of_mem (List.mem_range.2 hi)
  refine ⟨_, exec_circuitFailed hs hx hnew hc hn, ?_, ?_, fun i hi => ⟨?_, fun o w ho hw => ?_⟩⟩
  · rw [hu]
    show _ ∈ (circuitOut s die cstart n).failed
    rw [circuitOut, failColumns_failed]
    exact List.mem_cons_self
  · rw [hu]
    show (circuitOut s die cstart n).mem = s.mem
    rw [circuitOut, failColumns_mem, hnoted]
  · rw [hu]
    exact failColumns_out (hcol i hi)
  · rw [hu]
    refine failColumns_kills (hcol i hi) (w := w) ?_ ?_
    · rw [hnoted]
      exact ho
    · rw [hnoted]
      exact hw

end

end Sys2Proof.Machine
end

section
namespace Sys2Proof
open Sys2Proof.Machine

/-- Settles O55: the phases of a skim pause one by one, from WARN to RESUME, and the failure of a circuit. -/
theorem rotation : Obligations.Rotation := by
  unfold Obligations.Rotation
  intro s
  refine ⟨exec_warn, ?drain, ?deferred, ?chunk, ?timeout, streamSlot_writes, fun d c m => chunkIn_sent,
    fun d c m => chunkHolder_all, fun die x => doneFlag_reaches, fun x => swap_moves, ?resume,
    fun die cstart n hs hx hnew hc hn _ => circuitFailed_kills hs hx hnew hc hn⟩
  case drain =>
    intro hwarn ht
    exact ⟨fun hs hd => ⟨_, exec_drain_begins hwarn ht hs hd, beginPause_drains _⟩, exec_drain_defers hwarn ht⟩
  case deferred =>
    intro x rest hp hs hd
    obtain ⟨htrowel, hsince, -, hnext, hthreads, hrest⟩ := beginPause_drains s
    exact ⟨_, exec_deferredInstant hp hs hd, htrowel, hsince, rfl, hnext, hthreads, hrest⟩
  case chunk =>
    intro ht hd
    exact ⟨_, exec_chunk ht hd, chunkAct_trowel s, chunkAct_mem s, table_of_schedule (scheduleOf_chunkAct s),
      chunkAct_threads s, chunkAct_specs s⟩
  case timeout =>
    intro ht hd hlate
    obtain ⟨htable, hnext⟩ := drainTimeout_keeps s
    exact ⟨_, exec_drainTimeout ht hd hlate, chunkAct_trowel _, htable, hnext⟩
  case resume =>
    intro ht
    exact ⟨_, exec_resume ht, resumed_trowel s, resumed_mem s, resumed_threads s, resumed_table s,
      fun o w hw => owner?_resumed hw, resumed_cores s, resumed_clusters s⟩

end Sys2Proof
end

section
/-!
SUPPORT. What happens to waiting, trapped and dying threads, and to owners that leave (R79, R108, R123 to R125, R152, R333).
-/

namespace Sys2Proof.Machine

/-! ## Threads read back -/

theorem thrKey_ne {o x tid : Nat} (h : x ≠ tid) : thrKey o x ≠ thrKey o tid := by
  unfold thrKey
  omega

theorem thr?_onThr_ne (s : State) (o : Nat) {x tid : Nat} (f : Thread → Thread) (h : thrKey o x ≠ thrKey o tid) :
    thr? (onThr s o tid f) o x = thr? s o x := lookup_upd_ne _ _ h

theorem thr?_congr {s u : State} (h : u.threads = s.threads) (o tid : Nat) : thr? u o tid = thr? s o tid := by
  unfold thr?
  rw [h]

@[simp] theorem addLog_threads (s : State) (r : LogRec) : (addLog s r).threads = s.threads := by
  obtain ⟨l, d, w, h⟩ := addLog_eq s r
  rw [h]

/-! ## The end of a walk (R79, R108, R138) -/

/-- The device after a walk has left the list and its translation, where it is one, is kept. -/
def walkKept (s : State) (k : Walk) (out : WalkOut) : State :=
  let s' := { s with walks := s.walks.filter (·.id != k.id) }
  match out with
  | .leaf l => onCore s' k.o k.core (fun c =>
      { c with tlb := if k.joined.isEmpty then c.tlb else keepLeaf c.tlb 64 k.page l s.tick,
               tcache := keepWay c.tcache k.page l s.tick })
  | .xlat _ _ | .prot _ => s'

/-- The device after everything that joined a walk has its outcome. -/
def walkEnd (s : State) (w : Owner) (k : Walk) (out : WalkOut) : State :=
  k.units.foldl (wakeUnit k out) (k.joined.foldl (wakeWalker w k out) (walkKept s k out))

/-- The translation is written to its core alone. -/
theorem walkKept_eq (s : State) (k : Walk) (out : WalkOut) :
    ∃ cs, walkKept s k out = { s with walks := s.walks.filter (·.id != k.id), cores := cs } := by
  unfold walkKept
  cases out <;> exact ⟨_, rfl⟩

section
variable {s : State} {w : Owner} {k : Walk} {out : WalkOut}

theorem exec_translationWalkDone {n : Nat} (hk : s.walks.find? (·.id == n) = some k) (hw : owner? s k.o = some w)
    (hr : walkRuns s k = true) :
    exec (.translationWalkDone n) s = .next (walkEnd s w k (walkPage s w (k.page * 65536))) := by
  have hid : k.id = n := by simpa using List.find?_some hk
  subst hid
  show execTranslationWalkDone k.id s = _
  simp only [execTranslationWalkDone, hk, hw, hr, Bool.not_true, Bool.false_eq_true, if_false]
  rfl

/-- Units that wake change their clusters alone. -/
theorem foldl_wakeUnit_eq (us : List (Nat × Bool)) (u : State) :
    ∃ cl, us.foldl (wakeUnit k out) u = { u with clusters := cl } := by
  induction us generalizing u with
  | nil => exact ⟨u.clusters, rfl⟩
  | cons x us ih =>
    obtain ⟨cl, h⟩ := ih (wakeUnit k out u x)
    exact ⟨cl, h⟩

/-- Threads that wake, and no other part of the device, change. -/
theorem foldl_wakeWalker_eq (l : List Nat) (u : State) :
    ∃ ts, l.foldl (wakeWalker w k out) u = { u with threads := ts } := by
  induction l generalizing u with
  | nil => exact ⟨u.threads, rfl⟩
  | cons x l ih =>
    obtain ⟨ts, h⟩ := ih (wakeWalker w k out u x)
    exact ⟨ts, h⟩

/-- The end of a walk takes it off the list and reaches cores, threads and clusters; the walks of others and memory stay. -/
theorem walkEnd_eq (s : State) (w : Owner) (k : Walk) (out : WalkOut) : ∃ cs ts cl, walkEnd s w k out
    = { s with walks := s.walks.filter (·.id != k.id), cores := cs, threads := ts, clusters := cl } := by
  obtain ⟨cs, hkept⟩ := walkKept_eq s k out
  obtain ⟨ts, hthreads⟩ := foldl_wakeWalker_eq (w := w) (k := k) (out := out) k.joined (walkKept s k out)
  obtain ⟨cl, hunits⟩ := foldl_wakeUnit_eq (k := k) (out := out) k.units
    (k.joined.foldl (wakeWalker w k out) (walkKept s k out))
  exact ⟨cs, ts, cl, by rw [walkEnd, hunits, hthreads, hkept]⟩

/-- A thread that waited at `pc` for the walk is ready there with the outcome. -/
def Woken (k : Walk) (out : WalkOut) (pc : Word) (tid : Nat) (s : State) : Prop :=
  ∃ t, thr? s k.o tid = some t ∧ t.status = .ready ∧ t.pc = pc ∧ (k.page, out) ∈ t.walks

/-- A thread that waits for the walk wakes at its turn. -/
theorem woken_wakeWalker {tid : Nat} {t : Thread} (ht : thr? s k.o tid = some t) (hwait : t.status = .waiting (.walk k.id)) :
    Woken k out t.pc tid (wakeWalker w k out s tid) := by
  refine ⟨_, (thr?_onThr _ _ _ _).trans (congrArg _ ht), ?_⟩
  simp [hwait]

/-- The turns of the others, and a second turn of its own, leave a woken thread ready. -/
theorem Woken.stays {pc : Word} {tid : Nat} (h : Woken k out pc tid s) (x : Nat) :
    Woken k out pc tid (wakeWalker w k out s x) := by
  obtain ⟨t, ht, hready, hpc, hout⟩ := h
  by_cases hx : tid = x
  · subst hx
    refine ⟨_, (thr?_onThr _ _ _ _).trans (congrArg _ ht), ?_⟩
    simp [hready, hpc, hout]
  · exact ⟨t, (thr?_onThr_ne s k.o _ (thrKey_ne hx)).trans ht, hready, hpc, hout⟩

theorem Woken.stays_foldl {pc : Word} {tid : Nat} (h : Woken k out pc tid s) (l : List Nat) :
    Woken k out pc tid (l.foldl (wakeWalker w k out) s) := by
  induction l generalizing s with
  | nil => exact h
  | cons x l ih => exact ih (h.stays x)

theorem woken_foldl_wakeWalker {l : List Nat} {tid : Nat} {t : Thread} (hin : tid ∈ l) (ht : thr? s k.o tid = some t)
    (hwait : t.status = .waiting (.walk k.id)) : Woken k out t.pc tid (l.foldl (wakeWalker w k out) s) := by
  induction l generalizing s with
  | nil => cases hin
  | cons x l ih =>
    by_cases hx : tid = x
    · subst hx
      exact (woken_wakeWalker ht hwait).stays_foldl l
    · exact ih ((List.mem_cons.1 hin).resolve_left hx) ((thr?_onThr_ne s k.o _ (thrKey_ne hx)).trans ht)

theorem walkEnd_wakes {tid : Nat} {t : Thread} (hin : tid ∈ k.joined) (ht : thr? s k.o tid = some t)
    (hwait : t.status = .waiting (.walk k.id)) : Woken k out t.pc tid (walkEnd s w k out) := by
  obtain ⟨cs, h⟩ := walkKept_eq s k out
  have hkept : thr? (walkKept s k out) k.o tid = some t := by
    rw [h]
    exact ht
  obtain ⟨t', ht', hwoken⟩ := woken_foldl_wakeWalker (w := w) (out := out) hin hkept hwait
  obtain ⟨cl, hunits⟩ := foldl_wakeUnit_eq (k := k) (out := out) k.units
    (k.joined.foldl (wakeWalker w k out) (walkKept s k out))
  refine ⟨t', ?_, hwoken⟩
  rw [walkEnd, hunits]
  exact ht'

end

/-! ## Wait limits (R152, R333) -/

section
variable {s : State} {o tid : Nat} {t : Thread} {w : Owner}

/-- A trap that no item is bound to is kept by its thread and counted by its owner; it touches nothing else (R123, R124). -/
theorem takeTrap_keeps {ti : TrapInfo} (hw : owner? s o = some w) (ht : thr? s o tid = some t) (hi : ti.item = .none)
    (pc : Word) (len : Option Nat) (async vhalf : Bool) : ∃ t' k ws,
    takeTrap s o tid ti pc len async vhalf = { s with owners := ws, threads := put s.threads (thrKey o tid) t' } ∧
    t'.status = .trapped ∧ t'.kept = some k ∧ k.trap = recordOf w t ti pc async vhalf := by
  have hgfl : raiseGfl s o ti = s := by rw [raiseGfl, hi]
  unfold takeTrap
  simp only [hgfl, hw, ht]
  exact ⟨_, _, _, rfl, rfl, rfl, rfl⟩

theorem trapWait_keeps {ti : TrapInfo} (hw : owner? s o = some w) (ht : thr? s o tid = some t) (hi : ti.item = .none) :
    ∃ t' k ws pc, trapWait s o tid ti = { s with owners := ws, threads := put s.threads (thrKey o tid) t' } ∧
    t'.status = .trapped ∧ t'.kept = some k ∧ k.trap = recordOf w t ti pc false false := by
  have htake : ∃ pc len, trapWait s o tid ti = takeTrap s o tid ti pc len false false := by
    unfold trapWait
    rw [ht]
    dsimp only
    split
    · exact ⟨_, _, rfl⟩
    · exact ⟨_, _, rfl⟩
  obtain ⟨pc, len, htake⟩ := htake
  obtain ⟨t', k, ws, h⟩ := takeTrap_keeps hw ht hi pc len false false
  exact ⟨t', k, ws, pc, htake ▸ h⟩

/-- The trap of a wait that has reached its limit. -/
def limitTrap (s : State) (t : Thread) : TrapInfo := mkTrap (waitCause s t).1 t.wlim.toNat (waitCause s t).2

theorem exec_waitLimitExpiry (ht : thr? s o tid = some t) (hs : stopped s o = false) (hl : limitPassed t = true) :
    exec (.waitLimitExpiry o tid) s = .next (trapWait (withdraw s t) o tid (limitTrap s t)) := by
  show execWaitLimitExpiry o tid s = _
  simp only [execWaitLimitExpiry, ht, hs, hl, Bool.not_true, Bool.or_self, Bool.false_eq_true, if_false]
  rfl

theorem limitPassed_of_lt {n : Nat} {y : Wait} (hst : t.status = .waiting y) (hc : t.wcount = some n)
    (hlim : t.wlim ≠ 0xFFFFFFFF) (hlt : t.wlim.toNat < n) : limitPassed t = true := by
  simp only [limitPassed, hst, hc, Bool.and_eq_true, bne_iff_ne, decide_eq_true_eq]
  exact ⟨hlim, hlt⟩

/-- The wait of an empty granule ends in FEWAIT, any other wait for a target in MWAIT. -/
theorem waitCause_reply {r : Nat} {q : Req} (hst : t.status = .waiting (.reply r)) (hq : reqAt s r = some q) : waitCause s t
    = (match q.kind with
        | .lds _ _ _ _ => 0x06
        | _ => 0x07, q.vaW) := by
  simp only [waitCause, hst, hq] <;> rfl

theorem withdraw_reply {r : Nat} (hst : t.status = .waiting (.reply r)) :
    withdraw s t = { s with reqs := s.reqs.filter (fun q => !(q.id == r || q.base == r)) } := by
  simp only [withdraw, hst]

end

/-! ## The four actions on a trap (R123 to R125) -/

section
variable {s : State} {o tid : Nat} {t : Thread} {w : Owner} {k : Kept}

theorem actionOf_zero (h : (actionFor w k.trap.cause).1 = 0) : actionOf s w t k = 0 := by simp [actionOf, h]

theorem actionOf_replay (h : (actionFor w k.trap.cause).1 = 1) (hn : replays t k.trap.pc k.trap.cause < 255) :
    actionOf s w t k = 1 := by
  simp [actionOf, h, hn]

/-- The 256th consecutive replay becomes a park (R124). -/
theorem actionOf_park
    (h : (actionFor w k.trap.cause).1 = 2 ∨ (actionFor w k.trap.cause).1 = 1 ∧ 255 ≤ replays t k.trap.pc k.trap.cause) :
    actionOf s w t k = 2 := by
  rcases h with h | ⟨h, hn⟩
  · simp [actionOf, h]
  · simp [actionOf, h, hn]

theorem actionOf_forward {h : Thread} (ha : (actionFor w k.trap.cause).1 = 3)
    (hh : thr? s t.o (actionFor w k.trap.cause).2 = some h) (hlive : h.status ≠ .dying)
    (hself : (actionFor w k.trap.cause).2 ≠ t.tid) : actionOf s w t k = 3 := by
  simp [actionOf, ha, hh, hlive, hself]

/-- A trapped thread that stands still is dispatched, unless a kill must wait for the ring or a forwarded record for what its
thread issued before. -/
theorem exec_trapDispatch (ht : thr? s o tid = some t) (hw : owner? s o = some w) (hk : t.kept = some k)
    (hst : t.status = .trapped) (hs : stopped s o = false) (hmig : t.mig = none)
    (hlog : actionOf s w t k = 0 → logFull s = false) (hrec : actionOf s w t k = 3 → recordReady s t = true) :
    exec (.trapDispatch o tid) s = .next (dispatch s w t k) := by
  have hkill : (!(actionOf s w t k == 0 && logFull s)) = true := by
    by_cases h0 : actionOf s w t k = 0
    · simp [hlog h0]
    · simp [h0]
  have hfwd : actionOf s w t k ≠ 3 ∨ recordReady s t = true := by
    by_cases h3 : actionOf s w t k = 3
    · exact .inr (hrec h3)
    · exact .inl h3
  show execTrapDispatch o tid s = _
  simp only [execTrapDispatch, ht, hw, hk]
  exact if_pos ⟨hst, by simp [hs], by simp [hmig], hkill, hfwd⟩

/-- A killed thread is dying, and its kept trap is logged (R79). -/
theorem killThread_dies (ht : thr? s o tid = some t) (ho : t.o = o) (htid : t.tid = tid) :
    ∃ t', thr? (killThread s o tid) o tid = some t' ∧ t'.status = .dying ∧ (killThread s o tid).mem = s.mem := by
  subst ho htid
  unfold killThread
  rw [ht]
  refine ⟨_, lookup_put_self _ _ _, rfl, ?_⟩
  dsimp only [stopThread]
  split
  · exact addLog_mem _ _
  · rfl

theorem forget_out (x : Stream) : x.forget.out = x.out := by
  unfold Stream.forget
  split <;> rfl

/-- A stream to read from holds no fetch fault as its bundle is replayed (R131). -/
theorem refetch_clears : ∀ x ∈ (refetch t).streams, x.out = false → ∀ a b d, x.fetched.head? ≠ some (.fault a b d) := by
  intro x hx hout a b d
  obtain ⟨y, -, rfl⟩ := List.mem_map.1 hx
  split at hout
  next hhead =>
    have hy : y.out = false := by rwa [forget_out] at hout
    simp [Stream.forget, hy]
  next e hother hhead =>
    rw [hhead]
    rintro ⟨⟩
    exact hother a b d rfl
  next hhead => simp [hhead]

theorem thr?_parkThread (ht : thr? s o tid = some t) (code : Nat) :
    ∃ t', thr? (parkThread s o tid code) o tid = some t' ∧ t'.status = .parked :=
  ⟨_, (thr?_onThr _ _ _ _).trans (congrArg _ ht), rfl⟩

/-- With room in the ring its last record is the one added (R80). -/
theorem addLog_last (r : LogRec) (hlen : s.log.length < logSize) (hwait : s.logWait = []) : ∃ x,
    (addLog s r).log = s.log ++ [x] ∧ x.kind = r.kind ∧ x.cause = r.cause ∧ x.item = r.item := by
  obtain ⟨a, d, h⟩ := addLog_room r hlen hwait
  exact ⟨{ r with time := timeNs s, aux := a }, by rw [h], rfl, rfl, rfl⟩

/-- A trap is logged with its cause and the thread's packed id (R80). -/
theorem logTrap_last (r : TrapRec) (hlen : s.log.length < logSize) (hwait : s.logWait = []) : ∃ x,
    (logTrap s t r).log = s.log ++ [x] ∧ x.kind = 1 ∧ x.cause = r.cause ∧ x.item = t.tid := addLog_last _ hlen hwait

/-- A record goes straight to an inbox with room, when none is pending for it (R125). -/
theorem forwardTo_inbox {h : Thread} {x : Nat} {r : TrapRec} (hh : thr? s o x = some h) (hw : owner? s o = some w)
    (hlen : h.inbox.length < 8) (hnone : ∀ p ∈ w.undelivered, p.1 ≠ x) :
    forwardTo s o x r = onThr s o x (fun t => { t with inbox := t.inbox ++ [r] }) := by
  have hall : w.undelivered.all (·.1 != x) = true := by simpa using hnone
  simp only [forwardTo, hh, hw, hlen, hall, decide_true, Bool.and_self, if_true]

end

/-! ## The end of a thread's kill drain (R79) -/

/-- The fates of items come to rest where none is left. -/
theorem runFates_of_none {f : State → Option State} {s : State} (h : f s = none) (n : Nat) : runFates f n s = s := by
  cases n with
  | zero => rfl
  | succ n => simp [runFates, h]

/-- With one item left, its fate is the last. -/
theorem runFates_of_last {f : State → Option State} {s u : State} {n : Nat} (hn : 0 < n) (hfull : logFull s = false)
    (h : f s = some u) (hlast : f u = none) : runFates f n s = u := by
  obtain ⟨m, rfl⟩ := Nat.exists_eq_succ_of_ne_zero hn.ne'
  simp only [runFates, hfull, h, Bool.false_eq_true, if_false]
  exact runFates_of_none hlast m

theorem fateSteps_pos : 0 < fateSteps := Nat.pow_pos (by decide)

section
variable {s : State} {o tid : Nat} {t : Thread}

theorem thr?_endThread (s : State) (t : Thread) (keep : Option Nat) : thr? (endThread s t keep) t.o t.tid = none :=
  lookup_drop_self _ _

/-- A thread with every item decided leaves. -/
theorem nextFate_leaves (ht : thr? s o tid = some t) (ha : failAccess s t = none)
    (he : failEntry s o (fun e => e.tid == tid && !e.orphan) = none)
    (hj : failOneJob s o (fun b => b.tid == tid && !b.orphan) = none) (hl : failLink s t = none) :
    nextFate s o tid = some (endThread { s with walks := s.walks.map (fun k =>
      if k.o = o then { k with joined := k.joined.erase tid } else k) } t none) := by
  simp only [nextFate, ht, ha, he, hj, hl]

theorem nextFate_of_gone (h : thr? s o tid = none) : nextFate s o tid = none := by
  simp only [nextFate, h]

theorem exec_killDrainEnd_thread (ht : thr? s o tid = some t) (hst : t.status = .dying) (hfull : logFull s = false)
    (hp : paused s = false) (hover : t.waitAt + 11200 ≤ s.fab ∨ threadMoves s o tid = false) :
    exec (.killDrainEnd o (some tid)) s = .next (runFates (fun x => nextFate x o tid) fateSteps s) := by
  have hdrain : drainOver s o (some tid) t.waitAt = true := by
    rcases hover with h | h <;> simp [drainOver, h]
  show execKillDrainEnd o (some tid) s = _
  simp only [execKillDrainEnd, hfull, hp, Bool.or_self, Bool.false_eq_true, if_false, ht]
  exact if_pos ⟨hst, hdrain⟩

theorem thr?_runFates_leaves (ht : thr? s o tid = some t) (ho : t.o = o) (htid : t.tid = tid) (hfull : logFull s = false)
    (ha : failAccess s t = none) (he : failEntry s o (fun e => e.tid == tid && !e.orphan) = none)
    (hj : failOneJob s o (fun b => b.tid == tid && !b.orphan) = none) (hl : failLink s t = none) :
    thr? (runFates (fun x => nextFate x o tid) fateSteps s) o tid = none := by
  subst ho htid
  have hgone := thr?_endThread { s with walks := s.walks.map (fun k =>
    if k.o = t.o then { k with joined := k.joined.erase t.tid } else k) } t none
  rw [runFates_of_last fateSteps_pos hfull (nextFate_leaves ht ha he hj hl) (nextFate_of_gone hgone)]
  exact hgone

end

/-! ## Reclaim walks leave the books as they are (R221) -/

@[simp] theorem rollOf_onCore (s : State) (o j : Nat) (f : Core → Core) : rollOf (onCore s o j f) = rollOf s := rfl

@[simp] theorem rollOf_stackRead (s : State) (pa : Nat) : rollOf (stackRead s pa) = rollOf s := by
  obtain ⟨fl, h⟩ := stackRead_eq s pa
  rw [h]
  rfl

@[simp] theorem rollOf_stackSide (s : State) (t : Target) (pa : Nat) : rollOf (stackSide s t pa) = rollOf s := by
  unfold stackSide
  repeat' split
  all_goals simp

@[simp] theorem rollOf_touchRead (s : State) (t : Target) (pa : Nat) : rollOf (touchRead s t pa) = rollOf s := by
  unfold touchRead
  split <;> simp

@[simp] theorem rollOf_touchWrite (s : State) (t : Target) (pa : Nat) : rollOf (touchWrite s t pa) = rollOf s := by
  unfold touchWrite
  split <;> simp

@[simp] theorem rollOf_writeEnt (s : State) (t : Target) (pa e : Nat) (x : SEnt) : rollOf (writeEnt s t pa e x) = rollOf s := by
  rw [writeEnt, rollOf_touchWrite, rollOf_writeAt]

@[simp] theorem rollOf_queueReclaim (s : State) (t : Target) (set e : Nat) : rollOf (queueReclaim s t set e) = rollOf s := by
  unfold queueReclaim
  split <;> rfl

@[simp] theorem rollOf_dropOne (s : State) (t : Target) (set pa e : Nat) : rollOf (dropOne s t set pa e) = rollOf s := by
  unfold dropOne
  dsimp only
  repeat' split
  all_goals simp

theorem rollOf_withSet {f : State → Target → Nat → SRes} (hf : ∀ u t pa, rollOf (f u t pa).state = rollOf u)
    (s : State) (w : Owner) (o set : Nat) (k : AccKind) (wr : Bool) :
    rollOf (withSet s w o set k wr f).state = rollOf s := by
  unfold withSet
  dsimp only
  split
  · split
    · rfl
    · rw [hf, rollOf_touchRead]
  · rfl
  · rfl
  · rfl

theorem rollOf_slUnref (s : State) (w : Owner) (o name : Nat) : rollOf (slUnref s w o name).state = rollOf s := by
  refine rollOf_withSet (fun u t pa => ?_) s w o _ _ _
  split
  · rfl
  · exact rollOf_dropOne _ _ _ _ _

@[simp] theorem rollOf_logDetected (s : State) (o cause item addr : Nat) : rollOf (logDetected s o cause item addr) = rollOf s :=
  rollOf_addLog _ _

@[simp] theorem rollOf_unrefChild (s : State) (w : Owner) (o name : Nat) : rollOf (unrefChild s w o name) = rollOf s := by
  have hend := rollOf_slUnref s w o name
  unfold unrefChild
  cases h : slUnref s w o name with
  | ok u v => rwa [h] at hend
  | trap u cause va info pos =>
    rw [h] at hend
    exact (rollOf_logDetected _ _ _ _ _).trans hend

@[simp] theorem rollOf_fillCheck (s : State) (w : Owner) (t : Target) (l : Leaf) (va pa : Nat) :
    rollOf (fillCheck s w t l va pa) = rollOf s := by
  unfold fillCheck
  dsimp only
  repeat' split
  all_goals rfl

theorem rollOf_poolOf (s : State) (w : Owner) (o set e : Nat) (k : AccKind) (wr : Bool) :
    rollOf (poolOf s w o set e k wr).1 = rollOf s := by
  unfold poolOf
  dsimp only
  repeat' split
  all_goals simp

theorem rollOf_reclaimStep (s : State) (w : Owner) (o : Nat) (q : Reclaim) : rollOf (reclaimStep s w o q).1 = rollOf s := by
  have hpool := rollOf_poolOf s w o q.set q.ent .load false
  unfold reclaimStep
  dsimp only
  split
  · split <;> rename_i h <;> rw [h] at hpool
    · split
      · simpa using hpool
      · split <;> simpa using hpool
    · simpa using hpool
    · exact hpool
  · simp
  · rfl
  · rfl

theorem rollOf_finishWalks (w : Owner) (o j n : Nat) (s : State) : rollOf (finishWalks w o j n s) = rollOf s := by
  induction n generalizing s with
  | zero => rfl
  | succ n ih =>
    unfold finishWalks
    split
    · rfl
    · split
      · rfl
      next q qs _ =>
        have hstep := rollOf_reclaimStep s w o q
        split <;> rename_i h <;> rw [h] at hstep
        · rw [ih, hstep]
        · rw [ih, rollOf_onCore, hstep]

theorem rollOf_finishSlice (s : State) (w : Owner) (o j : Nat) : rollOf (finishSlice s w o j) = rollOf s := by
  unfold finishSlice
  extract_lets steps u
  have hu : rollOf u = rollOf s := rollOf_finishWalks w o j steps s
  clear_value steps u
  split
  · split
    · rw [rollOf_finishWalks, rollOf_onCore, hu]
    · exact hu
  · exact hu

theorem rollOf_finishReclaims (w : Owner) (o n : Nat) (s : State) : rollOf (finishReclaims w o n s) = rollOf s := by
  induction n generalizing s with
  | zero => rfl
  | succ n ih =>
    unfold finishReclaims
    split
    · rw [ih, foldl_keeps rollOf (fun u j => rollOf_finishSlice u w o j)]
    · rfl

/-! ## An owner leaves its positions (R79) -/

/-- What an owner holds: its record, and which of its cores stand; and all requests on their way. -/
def holdingsOf (o : Nat) (s : State) : Option Owner × (Nat → Bool) × List Req :=
  (owner? s o, fun j => (core? s o j).isSome, s.reqs)

/-- A map of records that leaves their keys alone leaves the same keys listed. -/
theorem isSome_lookup_map {α : Type} {f : Nat × α → Nat × α} (hf : ∀ p, (f p).1 = p.1) (m : SMap α) (i : Nat) :
    (lookup (m.map f) i).isSome = (lookup m i).isSome := by
  induction m with
  | nil => rfl
  | cons p m ih =>
    have hcons : (p :: m).map f = (p.1, (f p).2) :: m.map f := by rw [List.map_cons, ← hf p]
    rw [hcons]
    by_cases hi : i = p.1
    · simp [lookup, hi]
    · simp [lookup, hi, ih]

/-- Others resume: their cores stay, and the owner itself is as it was. -/
theorem holdingsOf_thaw {o : Nat} {os : List Nat} (ho : o ∉ os) (s : State) (n : Nat) :
    holdingsOf o (thaw s os n) = holdingsOf o s := by
  have hc : os.contains o = false := by simpa using ho
  have howner : owner? (thaw s os n) o = owner? s o := by
    have h := owner?_foldl (step := fun s o => onOwner s o thawedOwner) (f := thawedOwner)
      (fun u o q => owner?_onOwner_ite u o q _) (fun _ => rfl) os
      (emptySlices (emptyBuffers (shiftWaits s os.contains n) os.contains) os.contains) o
    rw [if_neg ho] at h
    refine h.trans ((owner?_shiftWaits s os.contains n o).trans ?_)
    simp only [hc, Bool.false_eq_true, if_false, Option.map_id']
  have hcores : ∀ j, (core? (thaw s os n) o j).isSome = (core? s o j).isSome := by
    intro j
    unfold core? thaw
    rw [foldl_keeps (·.cores) (fun u q => onOwner_cores u q _)]
    refine (isSome_lookup_map (fun p => ?_) _ _).trans ((isSome_lookup_map (fun p => ?_) _ _).trans
      (isSome_lookup_map (fun p => ?_) _ _))
    all_goals split <;> rfl
  have hreqs : (thaw s os n).reqs = s.reqs := foldl_keeps (·.reqs) (fun u q => onOwner_reqs u q _) os _
  unfold holdingsOf
  simp only [howner, hcores, hreqs]

theorem holdingsOf_loseCopy (o : Nat) (s : State) (dir : Nat) : holdingsOf o (loseCopy s dir) = holdingsOf o s := by
  obtain ⟨ims, h⟩ := writeAt_mem_eq s (dir + 0x90) [BitVec.ofNat 8 2]
  simp only [loseCopy, writeState, h]
  rfl

theorem holdingsOf_dropSave (o : Nat) (s : State) (v : SaveRun) : holdingsOf o (dropSave o s v) = holdingsOf o s := by
  unfold dropSave
  split
  · rfl
  · rw [holdingsOf_thaw (by simp), holdingsOf_loseCopy, holdingsOf_loseCopy]

theorem holdingsOf_faultCmds (o : Nat) (s : State) : holdingsOf o (faultCmds s o) = holdingsOf o s :=
  foldl_keeps (holdingsOf o) (holdingsOf_dropSave o) s.saves s

/-- The positions of an owner that leaves are empty, and none of its requests is on its way. -/
theorem holdingsOf_unplace {o : Nat} {w : Owner} {s : State} (hw : owner? s o = some w) :
    owner? (unplace s o) o = some (vacatedOwner w) ∧ (∀ j < 1024, core? (unplace s o) o j = none) ∧
      ∀ r ∈ (unplace s o).reqs, r.o ≠ o := by
  refine ⟨?_, fun j hj => ?_, fun r hr => ?_⟩
  · exact (owner?_onOwner _ o vacatedOwner).trans (congrArg _ hw)
  · refine (lookup_filter_key s.cores (fun i => !(coreKey o 0 ≤ i && i < coreKey o 0 + 1024)) _).trans (if_neg ?_)
    simp [coreKey, hj]
  · simpa using (List.mem_filter.1 hr).2

theorem leavePlace_leaves {o : Nat} {w : Owner} {s : State} (hw : owner? s o = some w) :
    owner? (leavePlace s o) o = some (vacatedOwner w) ∧ (∀ j < 1024, core? (leavePlace s o) o j = none) ∧
      ∀ r ∈ (leavePlace s o).reqs, r.o ≠ o := by
  have hfinished : owner? (finishReclaims w o fateSteps s) o = some w :=
    (owner?_of_roll (rollOf_finishReclaims w o fateSteps s) o).trans hw
  obtain ⟨howner, hcores, hreqs⟩ := holdingsOf_unplace hfinished
  have hleave : leavePlace s o = faultCmds (unplace (finishReclaims w o fateSteps s) o) o := by
    unfold leavePlace
    rw [hw]
  have hkeep := holdingsOf_faultCmds o (unplace (finishReclaims w o fateSteps s) o)
  rw [← hleave] at hkeep
  obtain ⟨hown, hrest⟩ := Prod.mk.inj hkeep
  obtain ⟨hstand, hnet⟩ := Prod.mk.inj hrest
  refine ⟨hown.trans howner, fun j hj => ?_, ?_⟩
  · have h := congrFun hstand j
    simpa [hcores j hj] using h
  · rwa [hnet]

/-- With every item decided, the end of the drain empties the owner's positions. -/
theorem exec_killDrainEnd_owner {o : Nat} {w : Owner} {s : State} (hw : owner? s o = some w) (hk : w.killed = true)
    (hpl : w.placed = true) (hfull : logFull s = false) (hp : paused s = false)
    (hover : w.killAt + 11200 ≤ s.fab ∨ drained s false (· == o) = true ∧ ownMsgs s w = [])
    (hlast : nextOwnerFate o s = none) : exec (.killDrainEnd o none) s = .next (leavePlace s o) := by
  have hdrain : drainOver s o none w.killAt = true := by
    rcases hover with h | ⟨h, hm⟩
    · simp [drainOver, h]
    · simp [drainOver, hw, h, hm]
  show execKillDrainEnd o none s = _
  simp [execKillDrainEnd, hfull, hp, hw, hk, hpl, hdrain, runFates_of_none hlast, hlast]

/-! ## The events put together -/

section
variable {s : State} {o tid : Nat} {t : Thread} {w : Owner} {k : Kept}

theorem waitLimit_traps {n r : Nat} {q : Req} (ht : thr? s o tid = some t) (hw : owner? s o = some w)
    (hs : stopped s o = false) (hst : t.status = .waiting (.reply r)) (hq : reqAt s r = some q) (hc : t.wcount = some n)
    (hlim : t.wlim ≠ 0xFFFFFFFF) (hlt : t.wlim.toNat < n) : ∃ u t' k,
    exec (.waitLimitExpiry o tid) s = .next u ∧ thr? u o tid = some t' ∧ t'.status = .trapped ∧ t'.kept = some k ∧
    k.trap.cause = (match q.kind with
      | .lds _ _ _ _ => 0x06
      | _ => 0x07) ∧ k.trap.va = q.vaW ∧ k.trap.info = BitVec.ofNat 64 t.wlim.toNat ∧ (∀ x ∈ u.reqs, x.id ≠ r) ∧
    u.mem = s.mem ∧ u.gfile = s.gfile := by
  have hreqs := withdraw_reply (s := s) hst
  have hw' : owner? (withdraw s t) o = some w := by
    rw [hreqs]
    exact hw
  have ht' : thr? (withdraw s t) o tid = some t := by
    rw [hreqs]
    exact ht
  obtain ⟨t', k, ws, pc, htrap, htrapped, hkept, hrec⟩ := trapWait_keeps (ti := limitTrap s t) hw' ht' rfl
  refine ⟨_, t', k, exec_waitLimitExpiry ht hs (limitPassed_of_lt hst hc hlim hlt), ?_, htrapped, hkept, ?_⟩
  · rw [htrap]
    exact lookup_put_self _ _ _
  · rw [htrap, hreqs, hrec, limitTrap, waitCause_reply hst hq]
    refine ⟨rfl, rfl, rfl, fun x hx => ?_, rfl, rfl⟩
    have hx' := (List.mem_filter.1 hx).2
    simp only [Bool.not_eq_true', Bool.or_eq_false_iff, beq_eq_false_iff_ne] at hx'
    exact hx'.1

/-- What a trapped thread must meet for its trap to be dispatched, whatever the action. -/
structure Dispatchable (s : State) (o tid : Nat) (t : Thread) (w : Owner) (k : Kept) : Prop where
  thr    : thr? s o tid = some t
  own    : owner? s o = some w
  o_eq   : t.o = o
  tid_eq : t.tid = tid
  kept   : t.kept = some k
  status : t.status = .trapped
  runs   : stopped s o = false
  stays  : t.mig = none
  item   : k.item = .none

theorem Dispatchable.exec_kill (h : Dispatchable s o tid t w k) (ha : (actionFor w k.trap.cause).1 = 0)
    (hfull : logFull s = false) : ∃ u t', exec (.trapDispatch o tid) s = .next u ∧
    thr? u o tid = some t' ∧ t'.status = .dying ∧ u.mem = s.mem := by
  have h0 : actionOf s w t k = 0 := actionOf_zero ha
  obtain ⟨t', ht', hdies, hmem⟩ := killThread_dies h.thr h.o_eq h.tid_eq
  refine ⟨_, t', exec_trapDispatch h.thr h.own h.kept h.status h.runs h.stays (fun _ => hfull) (by simp [h0]), ?_⟩
  simp only [dispatch, h0, h.o_eq, h.tid_eq]
  exact ⟨ht', hdies, hmem⟩

theorem Dispatchable.exec_replay (h : Dispatchable s o tid t w k) (ha : (actionFor w k.trap.cause).1 = 1)
    (hn : replays t k.trap.pc k.trap.cause < 255) : ∃ u, exec (.trapDispatch o tid) s = .next u ∧
    thr? u o tid = some (returnReplay (refetch t)) ∧ u.mem = s.mem ∧
    ∀ x ∈ (refetch t).streams, x.out = false → ∀ a b d, x.fetched.head? ≠ some (.fault a b d) := by
  have h1 : actionOf s w t k = 1 := actionOf_replay ha hn
  refine ⟨_, exec_trapDispatch h.thr h.own h.kept h.status h.runs h.stays (by simp [h1]) (by simp [h1]), ?_, ?_,
    refetch_clears⟩
  · simp only [dispatch, h1, h.o_eq, h.tid_eq, h.item, replayItem]
    rw [thr?_onThr, h.thr]
    rfl
  · simp only [dispatch, h1, h.item, replayItem]
    rfl

theorem Dispatchable.exec_park (h : Dispatchable s o tid t w k)
    (ha : (actionFor w k.trap.cause).1 = 2 ∨ (actionFor w k.trap.cause).1 = 1 ∧ 255 ≤ replays t k.trap.pc k.trap.cause)
    (hlen : s.log.length < logSize) (hwait : s.logWait = []) : ∃ u t' r, exec (.trapDispatch o tid) s = .next u ∧
    thr? u o tid = some t' ∧ t'.status = .parked ∧ u.log = s.log ++ [r] ∧ r.kind = 1 ∧ r.cause = k.trap.cause ∧
    r.item = tid := by
  have h2 : actionOf s w t k = 2 := actionOf_park ha
  obtain ⟨t', ht', hparked⟩ := thr?_parkThread h.thr 2
  obtain ⟨r, hlog, hkind, hcause, hitem⟩ := logTrap_last (s := parkThread s o tid 2) (t := t)
    { k.trap with action := 2 } hlen hwait
  refine ⟨_, t', r, exec_trapDispatch h.thr h.own h.kept h.status h.runs h.stays (by simp [h2]) (by simp [h2]), ?_,
    hparked, ?_, hkind, hcause, hitem.trans h.tid_eq⟩
  · simp only [dispatch, h2, h.o_eq, h.tid_eq]
    exact (thr?_congr (addLog_threads _ _) _ _).trans ht'
  · simp only [dispatch, h2, h.o_eq, h.tid_eq]
    exact hlog

theorem Dispatchable.exec_forward (h : Dispatchable s o tid t w k) {x : Thread} (ha : (actionFor w k.trap.cause).1 = 3)
    (hx : thr? s o (actionFor w k.trap.cause).2 = some x) (hlive : x.status ≠ .dying)
    (hself : (actionFor w k.trap.cause).2 ≠ tid) (hlen : x.inbox.length < 8)
    (hnone : ∀ p ∈ w.undelivered, p.1 ≠ (actionFor w k.trap.cause).2) (hready : recordReady s t = true) :
    ∃ u t' x', exec (.trapDispatch o tid) s = .next u ∧ thr? u o tid = some t' ∧ t'.status = .parked ∧
    thr? u o (actionFor w k.trap.cause).2 = some x' ∧ x'.inbox = x.inbox ++ [{ k.trap with action := 3 }] := by
  have h3 : actionOf s w t k = 3 := actionOf_forward ha (by rwa [h.o_eq]) hlive (by rwa [h.tid_eq])
  obtain ⟨t', ht', hparked⟩ := thr?_parkThread h.thr 3
  have hkey := thrKey_ne (o := o) hself
  have hx' : thr? (parkThread s o tid 3) o (actionFor w k.trap.cause).2 = some x := (thr?_onThr_ne s o _ hkey).trans hx
  have hsent : dispatch s w t k = onThr (parkThread s o tid 3) o (actionFor w k.trap.cause).2
      (fun t => { t with inbox := t.inbox ++ [{ k.trap with action := 3 }] }) := by
    simp only [dispatch, h3, h.o_eq, h.tid_eq]
    exact forwardTo_inbox hx' h.own hlen hnone
  refine ⟨_, t', { x with inbox := x.inbox ++ [{ k.trap with action := 3 }] },
    exec_trapDispatch h.thr h.own h.kept h.status h.runs h.stays (by simp [h3]) (fun _ => hready), ?_, hparked, ?_, rfl⟩
  · rw [hsent, thr?_onThr_ne _ _ _ hkey.symm, ht']
  · rw [hsent, thr?_onThr, hx']
    rfl

end

end Sys2Proof.Machine
end

section
namespace Sys2Proof
open Sys2Proof.Machine

/-- Settles O58: each event at the states that the clause names; an owner's reclaim walks, however many, leave its record
as it was. -/
theorem threadEvents : Obligations.ThreadEvents := by
  unfold Obligations.ThreadEvents
  intro s
  refine ⟨?walk, fun o tid t w n r q ht hw hs hst hq hc hlim hlt => waitLimit_traps ht hw hs hst hq hc hlim hlt, ?trap,
    ?thread, ?owner⟩
  case walk =>
    intro n k w hk hw hr
    have hid : k.id = n := by simpa using List.find?_some hk
    obtain ⟨cs, ts, cl, hend⟩ := walkEnd_eq s w k (walkPage s w (k.page * 65536))
    refine ⟨_, exec_translationWalkDone hk hw hr, ?_, ?_, fun tid hin t ht hwait => walkEnd_wakes hin ht hwait⟩
    · rw [hend, hid]
    · rw [hend]
  case trap =>
    intro o tid t w k ht hw ho htid hk hst hs hmig hitem _
    have h : Dispatchable s o tid t w k := ⟨ht, hw, ho, htid, hk, hst, hs, hmig, hitem⟩
    exact ⟨h.exec_kill, h.exec_replay, h.exec_park, fun x ha hx hlive hself _ hlen hnone hready =>
      h.exec_forward ha hx hlive hself hlen hnone hready⟩
  case thread =>
    intro o tid t ht ho htid hst hfull hp hover
    exact ⟨exec_killDrainEnd_thread ht hst hfull hp hover, thr?_runFates_leaves ht ho htid hfull⟩
  case owner =>
    intro o w hw hk hpl hfull hp hover hlast
    obtain ⟨howner, hcores, hreqs⟩ := leavePlace_leaves hw
    exact ⟨_, _, exec_killDrainEnd_owner hw hk hpl hfull hp hover hlast, howner, rfl, rfl, rfl, rfl, hcores, hreqs⟩

end Sys2Proof
end

section
/-!
SUPPORT. The cycle of a core that issues a bundle (R86, R106, R108, R301), from the act on the agenda to `exec` of the
bundle's first operation.
-/

namespace Sys2Proof.Machine

theorem nextAct_head {s : State} {a : Act} {rest : List Act} (h : s.agenda = a :: rest) :
    nextAct s = (a, { s with agenda := rest, tick := s.tick + 1 }) := by
  simp only [nextAct, h]

section
variable {s : State} {o j : Nat} {w : Owner} {k : Core} {t : Thread} {i : Instr} {v : Option Instr} {len : Nat}

/-- Bytes that decode to a bundle, at an aligned address of a page that may be fetched, in an L1 copy or in a block with no
mark, are fetched as that bundle. -/
theorem fetchAt_bundle {e : Env} {l : Leaf} {pa : Nat} (hpc : e.t.pc.toNat % 4 = 0)
    (hloc : locate e.s e.w e.t .fetch .fetch false e.t.pc 4 = .ok (.mem l pa))
    (hmark : (l1Hit e l pa 4).isSome = true ∨ markAt e.s (spotAt e (.mem l pa)) = 0)
    (hdec : decode (fetchBytes e l pa) = .bundle i v len) : fetchAt e = .bundle i v len := by
  have hclean : (if (l1Hit e l pa 4).isSome then 0 else markAt e.s (spotAt e (.mem l pa))) = 0 := by
    rcases hmark with h | h <;> simp [h]
  simp [fetchAt, hpc, hloc, hclean, fetchOf, hdec]

/-- A thread that waits for no job issues the bundle that its fetch finds. -/
theorem issueFrom_bundle (hw : owner? s o = some w) (hin : t.inW = none)
    (hf : let e0 : Env := ⟨s, ⟨o, t.tid, j, t.pc, 8, none⟩, t, w, []⟩
      fetchAt { e0 with s := fetchCheck s e0 } = .bundle i v len) :
    let e0 : Env := ⟨s, ⟨o, t.tid, j, t.pc, 8, none⟩, t, w, []⟩
    issueFrom s o j t = ({ fetchFill (fetchCheck s e0) { e0 with s := fetchCheck s e0 } with
      cur := some ⟨o, t.tid, j, t.pc, len, v⟩ }, some i) := by
  dsimp only at hf ⊢
  simp only [issueFrom, hw, hin, hf]

/-- In open mode the thread that the core's choice names issues (R106). -/
theorem cycleOf_open {low : Bool} (hw : owner? s o = some w) (hk : core? s o j = some k) (hs : stopped s o = false)
    (hmv : (placeOf s o j).mv = false) (hp : w.plumb = false) (hc : chooseOpen k (threadsOn s o j) = some (t, low)) :
    cycleOf s o j = issueFrom (noteIssue (onCore (onCore s o j (fun c => { c with cyc := c.cyc + 1 })) o j
      (fun c => { c with ptr := put c.ptr t.cls t.slot, lastLow := if low then some t.cls else c.lastLow })) o j k t) o j t := by
  simp only [cycleOf, hw, hk, hs, hmv, hp, hc, Bool.or_self, Bool.false_eq_true, if_false]

/-- A skip level that takes effect stretches no core. -/
theorem stretched_frameLevel (s : State) (o j : Nat) (k : Core) : stretched s o j (frameLevel k) = stretched s o j k := by
  unfold frameLevel
  split <;> rfl

/-- In plumb mode the thread whose slot comes issues, where nothing stretches the core and its deadline has come (R108). -/
theorem cycleOf_plumb (hw : owner? s o = some w) (hk : core? s o j = some k) (hs : stopped s o = false)
    (hmv : (placeOf s o j).mv = false) (hp : w.plumb = true) (hst : stretched s o j k = false) (hready : t.status = .ready)
    (hmig : t.mig = none) (hdue : ∀ d, t.due = some d → d ≤ (frameLevel k).cyc)
    (hc : choosePlumb (frameLevel k) (threadsOn (countSlot s o j (frameLevel k)) o j) = some t) :
    cycleOf s o j = issueFrom (noteIssue (onCore (countSlot s o j (frameLevel k)) o j
      (fun _ => { frameLevel k with cyc := (frameLevel k).cyc + 1 })) o j (frameLevel k) t) o j t := by
  have hnow : t.due.all (· ≤ (frameLevel k).cyc) = true := by
    cases hd : t.due with
    | none => rfl
    | some d => simpa using hdue d hd
  have hthreads : threadsOn (onCore (countSlot s o j (frameLevel k)) o j
      (fun _ => { frameLevel k with cyc := (frameLevel k).cyc + 1 })) o j
      = threadsOn (countSlot s o j (frameLevel k)) o j := rfl
  simp only [cycleOf, hw, hk, hs, hmv, hp, hst, hthreads, hc, hready, hmig, hnow, Bool.or_self, Bool.false_eq_true, if_false,
    if_true, Option.isNone_none, and_self]

theorem owner?_congr {s u : State} (h : u.owners = s.owners) (o : Nat) : owner? u o = owner? s o := by
  rw [owner?, owner?, h]

theorem noteIssue_owners (s : State) (o j : Nat) (k : Core) (t : Thread) : (noteIssue s o j k t).owners = s.owners := rfl

/-- A core's act whose cycle issues a bundle is `exec` of its first operation, and what follows at once. -/
theorem step_of_cycle {a : State} {rest : List Act} (hag : s.agenda = .core o j :: rest)
    (hc : cycleOf { s with agenda := rest, tick := s.tick + 1 } o j = (a, some i)) : step s = perform i a := by
  simp only [step, nextAct_head hag, act, hc]

@[simp] theorem countSlot_owners (s : State) (o j : Nat) (k : Core) : (countSlot s o j k).owners = s.owners := by
  unfold countSlot
  split <;> rfl

end

end Sys2Proof.Machine
end

section
namespace Sys2Proof
open Sys2Proof.Machine

/-- Settles O4, by the core's choice in open and in plumb mode; what is issued and run from there is the same in both. -/
theorem stepRunsDecoded : Obligations.StepRunsDecoded := by
  unfold Obligations.StepRunsDecoded
  intro s o j rest w k t l pa i v len hag hw hk hs hmv hin hpc s1 hopen hplumb e0 s2 e hloc hmark hdec
  have hfetch : fetchAt e = .bundle i v len := fetchAt_bundle (e := e) hpc hloc hmark hdec
  have hissue (hw1 : owner? s1 o = some w) := issueFrom_bundle (j := j) hw1 hin hfetch
  cases hp : w.plumb with
  | false =>
    obtain ⟨low, hc, hs1⟩ := hopen hp
    have hcycle := cycleOf_open (s := { s with agenda := rest, tick := s.tick + 1 }) hw hk hs hmv hp hc
    rw [← hs1] at hcycle
    refine step_of_cycle hag (hcycle.trans (hissue ?_))
    rw [hs1]
    exact (owner?_congr (by rw [noteIssue_owners, onCore_owners, onCore_owners]) o).trans hw
  | true =>
    obtain ⟨hst, hready, hmig, hdue, hc, hs1⟩ := hplumb hp
    rw [stretched_frameLevel] at hst
    have hcycle := cycleOf_plumb (s := { s with agenda := rest, tick := s.tick + 1 }) hw hk hs hmv hp hst hready hmig hdue hc
    rw [← hs1] at hcycle
    refine step_of_cycle hag (hcycle.trans (hissue ?_))
    rw [hs1]
    exact (owner?_congr (by rw [noteIssue_owners, onCore_owners, countSlot_owners]) o).trans hw

end Sys2Proof
end

section
/-!
SUPPORT. Bundles that end with their thread's retirement (R117, R387, R388): the state in which the thread has gone on to
its next bundle, and what HALT, HALT.retain and YIELD make of it.
-/

namespace Sys2Proof.Machine

/-! ## Retiring a bundle that writes nothing -/

/-- A thread at its next bundle, with nothing left of the one that has retired. -/
def wentOn (t : Thread) (npc : Word) : Thread :=
  { t with pc := npc, status := .ready, pend := none, inW := none, wcount := none, walks := [], replN := 0, turn := none, got := [] }

/-- The state with a thread at its next bundle. -/
def goneOn (s : State) (o tid : Nat) (t : Thread) (npc : Word) : State :=
  { s with threads := put s.threads (thrKey o tid) (wentOn t npc) }

/-- What ends with a retirement (R300). -/
def endsWith (f : Fin) (s : State) (t : Thread) : State :=
  match f with
  | .go => s
  | .halt => haltThread s t
  | .retain k => retainThread s t k
  | .yield => yieldThread s t

section
variable {s : State} {o tid : Nat} {t : Thread}

theorem applyRegs_none {w : Wr} (ht : thr? s o tid = some t) (hg : w.g = []) (hv : w.v = []) (hm : w.m = []) (hsp : w.sp = [])
    (hfl : w.flags = 0) (hsrs : w.srs = false) : applyRegs s o tid w = { s with threads := put s.threads (thrKey o tid) t } := by
  have hflags : orFlags t 0 false = t := by simp [orFlags]
  simp only [applyRegs, ht, hg, hv, hm, hsp, hfl, hsrs, List.foldl_nil, onThr]
  rw [upd_of_lookup _ _ _ ht, hflags]

theorem applyStreams_none {w : Wr} (ht : thr? s o tid = some t) (hv : w.v = []) (hp : w.pops = []) (hs : w.strm = none) :
    applyStreams s o tid w = { s with threads := put s.threads (thrKey o tid) t } := by
  simp only [applyStreams, ht, hv, hp, hs, List.foldl_nil]

theorem advance_eq (ht : thr? s o tid = some t) (npc : Word) : advance s o tid npc = goneOn s o tid t npc := by
  rw [advance, onThr, upd_of_lookup _ _ _ ht]
  rfl

theorem join_none_ending (f : Fin) : ({ Wr.none with fin := f } : Wr).join Wr.none = { Wr.none with fin := f } := by
  simp [Wr.join, Wr.none]

/-- A bundle that writes nothing retires: its thread goes on at the next bundle, and then what ends with it. -/
theorem retire_none {f : Fin} {pc : Word} {len : Nat} (ht : thr? s o tid = some t) :
    retire s o tid pc len { Wr.none with fin := f } Wr.none
      = endsWith f (goneOn s o tid t (pc + BitVec.ofNat 64 len)) (wentOn t (pc + BitVec.ofNat 64 len)) := by
  have hput : ∀ (u : State) (t : Thread), thr? { u with threads := put u.threads (thrKey o tid) t } o tid = some t :=
    fun u t => lookup_put_self _ _ _
  have hregs := applyRegs_none (w := { Wr.none with fin := f }) ht rfl rfl rfl rfl rfl rfl
  have hstrms := applyStreams_none (w := { Wr.none with fin := f }) (hput s t) rfl rfl rfl
  have hdone : advance (applyStreams (applyRegs s o tid { Wr.none with fin := f }) o tid { Wr.none with fin := f }) o tid
      (pc + BitVec.ofNat 64 len) = goneOn s o tid t (pc + BitVec.ofNat 64 len) := by
    rw [hregs, hstrms, advance_eq (hput _ t)]
    simp only [goneOn, put_put]
  have hthr : thr? (goneOn s o tid t (pc + BitVec.ofNat 64 len)) o tid = some (wentOn t (pc + BitVec.ofNat 64 len)) :=
    lookup_put_self _ _ _
  have hacq : ({ Wr.none with fin := f } : Wr).acq = none := rfl
  have hnpc : ({ Wr.none with fin := f } : Wr).npc = none := rfl
  unfold retire
  simp only [join_none_ending, hacq, hnpc, Option.getD_none, hdone, hthr]
  cases f <;> rfl

end


/-! ## A lone bundle that names no register -/

section
variable {s : State} {c : Cur} {t : Thread} {w : Owner} {i : Instr}

theorem wrV_lone (hv : c.v = none) (hu : uses i = Uses.empty) : wrV s c t w i = Wr.none := by
  have hpops : popsIn t c i = [] := by
    rw [popsIn, usesV, hv, hu]
    rfl
  simp only [wrV, halfOf, envIn, hv, hpops, List.map_nil]
  rfl

theorem firstEnv_lone (hv : c.v = none) : (envX (bare s) c t w i).s = bare s := by
  simp only [envX, halfOf, envIn, hv]
  rfl

theorem doneWith_ending {fl : BitVec 8} {f : Fin} (h : Issues s c t w i fl) (hv : c.v = none) (hu : uses i = Uses.empty) :
    doneWith s c t w i { Wr.none with fin := f } = endsWith f (goneOn (bare s) c.o c.tid t (c.pc + BitVec.ofNat 64 c.len))
      (wentOn t (c.pc + BitVec.ofNat 64 c.len)) := by
  rw [doneWith, retiresTo, wrV_lone hv hu, firstEnv_lone hv]
  exact retire_none h.thr

end

/-! ## The retained sets of the cores while a thread ends (R117, R198) -/

/-- What the end of a thread with no job of its own leaves alone: the cores' retained sets and jobs, and the next request
number. -/
def shelfOf (s : State) : (Nat → Option (List Retained × List Job)) × Nat :=
  (fun key => (lookup s.cores key).map (fun k => (k.retained, k.jobs)), s.nextId)

theorem shelfOf_onCore (s : State) (o j : Nat) {f : Core → Core} (hf : ∀ k, (f k).retained = k.retained ∧ (f k).jobs = k.jobs) :
    shelfOf (onCore s o j f) = shelfOf s := by
  refine Prod.ext (funext fun key => ?_) rfl
  show (lookup (upd s.cores (coreKey o j) f) key).map _ = _
  by_cases h : key = coreKey o j
  · subst h
    rw [lookup_upd_self, Option.map_map]
    congr 1
    funext k
    simp [hf k]
  · rw [lookup_upd_ne _ _ h]
    rfl

@[simp] theorem shelfOf_addLog (s : State) (r : LogRec) : shelfOf (addLog s r) = shelfOf s := by
  obtain ⟨l, d, x, h⟩ := addLog_eq s r
  rw [h]
  rfl

@[simp] theorem shelfOf_parkRecord (s : State) (o : Nat) (r : TrapRec) : shelfOf (parkRecord s o r) = shelfOf s := by
  unfold parkRecord
  split
  · exact shelfOf_addLog _ _
  · rfl

@[simp] theorem shelfOf_inboxToPark (s : State) (t : Thread) : shelfOf (inboxToPark s t) = shelfOf s := by
  unfold inboxToPark
  split
  · rfl
  · exact foldl_keeps shelfOf (fun u r => shelfOf_parkRecord u t.o r) _ s

@[simp] theorem shelfOf_failItem (s : State) (o : Nat) (i : Item) : shelfOf (failItem s o i) = shelfOf s := by
  cases i with
  | none => rfl
  | journal j q => exact (shelfOf_addLog _ _).trans (shelfOf_onCore _ _ _ fun _ => ⟨rfl, rfl⟩)
  | job k id => exact shelfOf_addLog _ _

@[simp] theorem shelfOf_failRefused (s : State) (o tid : Nat) : shelfOf (failRefused s o tid) = shelfOf s :=
  foldl_keeps shelfOf (fun u _ => foldl_keeps shelfOf (fun v _ => shelfOf_failItem v o _) _ u) _ s

theorem core_of_shelf {s u : State} {o j : Nat} {k : Core} (h : shelfOf u = shelfOf s) (hk : core? s o j = some k) :
    ∃ k', core? u o j = some k' ∧ k'.retained = k.retained ∧ k'.jobs = k.jobs := by
  have hkey : (core? u o j).map (fun k => (k.retained, k.jobs)) = (core? s o j).map (fun k => (k.retained, k.jobs)) :=
    congrFun (congrArg Prod.fst h) (coreKey o j)
  rw [hk] at hkey
  obtain ⟨k', hk', heq⟩ := Option.map_eq_some_iff.1 hkey
  exact ⟨k', hk', Prod.mk.inj heq⟩

/-- With no job on its home core a thread leaves none suspended. -/
theorem failSuspended_none {s : State} {o tid : Nat} {k : Core} (hk : core? s o (tidCore tid) = some k) (hj : k.jobs = []) :
    failSuspended s o tid = s := by
  simp [failSuspended, hk, hj]

/-- What a thread with no asynchronous trap and no record kept has left behind, before its context is free. -/
def departed (s : State) (t : Thread) : State :=
  failSuspended (failRefused (inboxToPark s t) t.o t.tid) t.o t.tid

/-- The retained set that a thread leaves for stage n. -/
def leftSet (s : State) (t : Thread) (n : Nat) : Retained := ⟨t.launch, n, t.sbase, t.sbanks, t.tid, s.nextId, t.born⟩

/-- A core whose items of a thread go on with no thread to report to. -/
def orphaned (tid : Nat) (k : Core) : Core :=
  { k with journal := k.journal.map (fun e => if e.tid = tid then { e with orphan := true } else e),
           jobs := k.jobs.map (fun b => if b.tid = tid then { b with orphan := true } else b),
           outcomes := k.outcomes.map (fun x => if x.2.2 = some tid then (x.1, x.2.1, none) else x) }

theorem lookup_orphanItems (s : State) (o tid key : Nat) : lookup (orphanItems s o tid).cores key
    = (lookup s.cores key).map (fun k => if decide (key / 1024 = o) = true then orphaned tid k else k) := by
  rw [← lookup_mapOn s.cores (fun key => decide (key / 1024 = o)) (orphaned tid) key]
  simp only [orphanItems, orphaned, decide_eq_true_eq]

/-- The core on which a thread leaves its banks, with the set that it leaves. -/
def keepsSet (s : State) (t : Thread) (keep : Option Nat) : State :=
  match keep with
  | some n => onCore s t.o (tidCore t.tid) (fun k => { k with retained := k.retained ++ [leftSet s t n] })
  | none => s

theorem endThread_cores {s : State} {t : Thread} (keep : Option Nat) (ha : t.async = []) (hk : t.kept = none) :
    (endThread s t keep).cores = (keepsSet (orphanItems (departed s t) t.o t.tid) t keep).cores := by
  simp only [endThread, departed, ha, hk, List.foldl_nil]
  cases keep <;> rfl

theorem departed_shelf {s : State} {t : Thread} {k : Core} (hk : core? s t.o (tidCore t.tid) = some k) (hj : k.jobs = []) :
    shelfOf (departed s t) = shelfOf s := by
  have hu : shelfOf (failRefused (inboxToPark s t) t.o t.tid) = shelfOf s := by simp
  obtain ⟨k', hk', -, hjobs⟩ := core_of_shelf hu hk
  rw [departed, failSuspended_none hk' (hjobs.trans hj), hu]

/-- A thread with nothing pending that leaves its home core, where no job stands, leaves there the set that it keeps and the
sets of others. -/
theorem retained_endThread {s : State} {t : Thread} {k : Core} (keep : Option Nat)
    (hk : core? s t.o (tidCore t.tid) = some k) (hj : k.jobs = []) (ha : t.async = []) (hkept : t.kept = none) :
    ∃ k', core? (endThread s t keep) t.o (tidCore t.tid) = some k' ∧
      k'.retained = k.retained ++ (keep.map (leftSet s t)).toList := by
  have hshelf := departed_shelf hk hj
  have hnext : (departed s t).nextId = s.nextId := congrArg Prod.snd hshelf
  obtain ⟨d, hd, hret, -⟩ := core_of_shelf hshelf hk
  have horph : ∃ d', core? (orphanItems (departed s t) t.o t.tid) t.o (tidCore t.tid) = some d' ∧ d'.retained = k.retained := by
    refine ⟨_, (lookup_orphanItems _ _ _ _).trans (congrArg _ hd), ?_⟩
    rw [← hret]
    split <;> rfl
  obtain ⟨d', hd', hret'⟩ := horph
  rw [core?, endThread_cores keep ha hkept, ← core?]
  cases keep with
  | none => exact ⟨d', hd', by simp [hret']⟩
  | some n =>
    refine ⟨_, (core?_onCore _ _ _ _).trans (congrArg _ hd'), ?_⟩
    have hset : leftSet (orphanItems (departed s t) t.o t.tid) t n = leftSet s t n := by
      simp only [leftSet, orphanItems, hnext]
    simp [hret', hset]

/-- HALT.retain keeps its thread's banks for a stage that exists, where it holds some and the core holds no set for the stage
(R117, R387). -/
theorem retainThread_keeps {s : State} {t : Thread} {k : Core} {l : Launch} (n : Nat)
    (hk : core? s t.o (tidCore t.tid) = some k) (hl : lch? s t.o t.launch = some l) :
    retainThread s t n = endThread s t
      (if n < l.stages.length ∧ t.sbanks ≠ 0 ∧ (retainedFor k t.launch n).isNone = true then some n else none) := by
  have hcond : (decide (l.stages.length ≤ n) || t.sbanks == 0 || (retainedFor k t.launch n).isSome) = true
      ↔ ¬ (n < l.stages.length ∧ t.sbanks ≠ 0 ∧ (retainedFor k t.launch n).isNone = true) := by
    simp only [Bool.or_eq_true, decide_eq_true_eq, beq_iff_eq, ← Option.not_isSome, Bool.not_eq_true', not_and_or, not_lt, not_not,
      Bool.not_eq_false, or_assoc, ne_eq]
  simp only [retainThread, hk, hl]
  by_cases h : n < l.stages.length ∧ t.sbanks ≠ 0 ∧ (retainedFor k t.launch n).isNone = true
  · rw [if_pos h, if_neg (fun hc => hcond.1 hc h)]
  · rw [if_neg h, if_pos (hcond.2 h)]

theorem thr?_retainThread (s : State) (t : Thread) (n : Nat) : thr? (retainThread s t n) t.o t.tid = none := by
  unfold retainThread
  dsimp only
  split_ifs
  · exact thr?_endThread _ _ _
  · exact thr?_endThread _ _ _

/-! ## A YIELD takes effect (R388) -/

/-- A YIELD changes nothing but its own thread's turn: in open mode it is given up from the cycle in which it issued. -/
theorem yieldThread_thr {s : State} {t : Thread} (ht : thr? s t.o t.tid = some t) : ∃ t',
    thr? (yieldThread s t) t.o t.tid = some t' ∧ t'.status = t.status ∧ t'.pc = t.pc ∧
    ∀ k, core? s t.o t.core = some k → plumbOf s t.o = false → t'.yieldAt = some (k.cyc - 1) := by
  cases hp : plumbOf s t.o with
  | true => exact ⟨t, by simp only [yieldThread, hp, if_true, ht], rfl, rfl, fun k _ h => nomatch h⟩
  | false =>
    simp only [yieldThread, hp, Bool.false_eq_true, if_false]
    refine ⟨_, (thr?_onThr _ _ _ _).trans (congrArg _ ht), rfl, rfl, fun k hk _ => ?_⟩
    simp only [hk]

theorem yieldThread_files (s : State) (t : Thread) : (yieldThread s t).gfile = s.gfile ∧ (yieldThread s t).mem = s.mem := by
  unfold yieldThread
  split <;> exact ⟨rfl, rfl⟩

end Sys2Proof.Machine
end

section
namespace Sys2Proof
open Sys2Proof.Machine

/-- Settles O46: each bundle writes nothing, so that its thread goes on to the next bundle before the bundle's ending takes
effect on it. -/
theorem endsAndYields : Obligations.EndsAndYields := by
  unfold Obligations.EndsAndYields
  intro s c t w ho htid hv
  let next := c.pc + BitVec.ofNat 64 c.len
  refine ⟨?halt, ?retain, ?yield⟩
  case halt =>
    intro h
    refine ⟨_, runX_done h rfl, rfl, ?_⟩
    rw [doneWith_ending h hv rfl]
    exact thr?_endThread _ (wentOn t _) none
  case retain =>
    intro n i h
    refine ⟨_, runX_done h rfl, rfl, ?_, ?_⟩
    · rw [doneWith_ending h hv rfl]
      exact thr?_retainThread _ (wentOn t _) n.toNat
    · intro k l hk hhome hl _ hasync hkept _ hjobs
      rw [doneWith_ending h hv rfl]
      have hcore : core? (goneOn (bare s) c.o c.tid t next) (wentOn t next).o (tidCore (wentOn t next).tid) = some k :=
        (congrArg (core? s t.o) hhome).trans hk
      have hkeep := retainThread_keeps (s := goneOn (bare s) c.o c.tid t next) (t := wentOn t next) n.toNat hcore hl
      obtain ⟨k', hk', hsets⟩ := retained_endThread (if n.toNat < l.stages.length ∧ (wentOn t next).sbanks ≠ 0 ∧
        (retainedFor k (wentOn t next).launch n.toNat).isNone = true then some n.toNat else none) hcore hjobs hasync hkept
      rw [← hkeep] at hk'
      refine ⟨k', ?_, ?_⟩
      · rw [← hhome]
        exact hk'
      · rw [hsets]
        show _ = if n.toNat < l.stages.length ∧ (wentOn t next).sbanks ≠ 0 ∧
          (retainedFor k (wentOn t next).launch n.toNat).isNone = true then _ else _
        split <;> simp [leftSet, wentOn, goneOn, bare]
  case yield =>
    intro h
    have hthr : thr? (goneOn (bare s) c.o c.tid t next) (wentOn t next).o (wentOn t next).tid = some (wentOn t next) := by
      rw [ho, htid]
      exact lookup_put_self _ _ _
    obtain ⟨t', ht', hst, hpc, hturn⟩ := yieldThread_thr hthr
    obtain ⟨hg, hm⟩ := yieldThread_files (goneOn (bare s) c.o c.tid t next) (wentOn t next)
    have hexec : exec .yield s = .next (yieldThread (goneOn (bare s) c.o c.tid t next) (wentOn t next)) :=
      (runX_done (wx := { Wr.none with fin := .yield }) h rfl).trans (congrArg _ (doneWith_ending h hv rfl))
    refine ⟨_, t', hexec, ht', hst, hpc, hg, hm, ?_⟩
    intro k hk hp
    refine hturn k hk ?_
    have hown : owner? s t.o = some w := ho ▸ h.own
    show (match owner? s t.o with
      | some w => w.plumb
      | none => false) = false
    rw [hown]
    exact hp

end Sys2Proof
end

section
/-!
SUPPORT. What a LAUNCH and a SPAWN create and what they leave alone (R100, R102 to R104, R118, R390, R391).
-/

namespace Sys2Proof.Machine

/-! ## Threads, launches and owners through the scheduler's reads and writes -/

/-- What no access of the scheduler to an owner's memory touches. -/
def rosterOf (s : State) : SMap Thread × SMap Launch × SMap Owner := (s.threads, s.launches, s.owners)

@[simp] theorem rosterOf_onCore (s : State) (o j : Nat) (f : Core → Core) : rosterOf (onCore s o j f) = rosterOf s := rfl

@[simp] theorem rosterOf_stackRead (s : State) (pa : Nat) : rosterOf (stackRead s pa) = rosterOf s := by
  obtain ⟨fl, h⟩ := stackRead_eq s pa
  rw [h]
  rfl

@[simp] theorem rosterOf_stackSide (s : State) (t : Target) (pa : Nat) : rosterOf (stackSide s t pa) = rosterOf s := by
  unfold stackSide
  repeat' split
  all_goals simp

@[simp] theorem rosterOf_touchRead (s : State) (t : Target) (pa : Nat) : rosterOf (touchRead s t pa) = rosterOf s := by
  unfold touchRead
  split <;> simp

@[simp] theorem rosterOf_touchWrite (s : State) (t : Target) (pa : Nat) : rosterOf (touchWrite s t pa) = rosterOf s := by
  unfold touchWrite
  split <;> simp

@[simp] theorem rosterOf_touchSpan (s : State) (t : Target) (pa n : Nat) : rosterOf (touchSpan s t pa n) = rosterOf s := by
  unfold touchSpan
  refine foldl_keeps rosterOf (fun u a => ?_) _ s
  split
  · exact rosterOf_touchWrite _ _ _
  · split <;> simp

@[simp] theorem rosterOf_setMark (s : State) (p : Spot) (m : Nat) : rosterOf (setMark s p m) = rosterOf s := by
  cases p <;> rfl

@[simp] theorem rosterOf_fillCheck (s : State) (w : Owner) (t : Target) (l : Leaf) (va pa : Nat) :
    rosterOf (fillCheck s w t l va pa) = rosterOf s := by
  unfold fillCheck
  split
  · rfl
  · dsimp only
    split
    · rfl
    · split
      · rfl
      · split
        · rfl
        · split
          · rfl
          · exact foldl_keeps rosterOf (fun u _ => rosterOf_setMark u _ _) _ s

@[simp] theorem rosterOf_writeAt_mem (s : State) (pa : Nat) (bs : List Byte) :
    rosterOf (writeAt s (.mem pa) bs) = rosterOf s := by
  obtain ⟨ims, h⟩ := spoil_eq { s with mem := Memory.writeN s.mem pa bs } pa bs.length
  rw [writeAt, h]
  rfl

@[simp] theorem rosterOf_ownerFill (s : State) (w : Owner) (o va n : Nat) : rosterOf (ownerFill s w o va n) = rosterOf s := by
  refine foldl_keeps rosterOf (fun u a => ?_) _ s
  split
  · exact (rosterOf_touchRead _ _ _).trans (rosterOf_fillCheck _ _ _ _ _ _)
  all_goals rfl

@[simp] theorem rosterOf_ownerWrite (s : State) (w : Owner) (o va : Nat) (bs : List Byte) :
    rosterOf (ownerWrite s w o va bs).1 = rosterOf s := by
  unfold ownerWrite
  split
  · dsimp only
    split
    · exact foldl_keeps rosterOf (fun u d => rosterOf_writeAt_mem u _ _) _ s
    · simp
  all_goals rfl

@[simp] theorem rosterOf_fillPipeline (s : State) (w : Owner) (o va : Nat) : rosterOf (fillPipeline s w o va) = rosterOf s := by
  unfold fillPipeline
  dsimp only
  split <;> simp

@[simp] theorem rosterOf_zeroQueues (w : Owner) (o : Nat) (qs : List QueueEnt) (s : State) :
    rosterOf (zeroQueues w o qs s).1 = rosterOf s := by
  induction qs generalizing s with
  | nil => rfl
  | cons q qs ih =>
    have hw := rosterOf_ownerWrite s w o q.qva.toNat (List.replicate 256 0)
    unfold zeroQueues
    split <;> rename_i h <;> rw [h] at hw
    · rw [ih, hw]
    · exact hw

@[simp] theorem rosterOf_takeDraws (s : State) (t : Thread) (n : Nat) : rosterOf (takeDraws s t n) = rosterOf s := by
  unfold takeDraws
  split <;> rfl

/-! ## Creating a thread (R102, R103) -/

/-- The memory and the launches of a state. -/
def booksOf (s : State) : Memory × SMap Launch := (s.mem, s.launches)

theorem booksOf_clearBanks (s : State) (o j : Nat) (g : Grant) (e : StageEnt) : booksOf (clearBanks s o j g e) = booksOf s := by
  unfold clearBanks
  split <;> rfl

theorem booksOf_writeG (s : State) (t : Thread) (r : GReg) (v : Word) : booksOf (writeG s t r v) = booksOf s := by
  unfold writeG
  split <;> rfl

/-- A created thread stands in its context, its windows and banks as its grant says; memory is as it was, and of the launch
nothing but what its stages keep has changed. -/
theorem createOn_eq {s : State} {o j : Nat} {c : Core} (w : Owner) (l : Launch) (k : Nat) (e : StageEnt) (g : Grant)
    (hc : core? s o j = some c) : ∃ (u : State) (f : Launch → Launch) (idx inc : Nat),
    createOn s o w l k e j g = (onLch u o l.id f, packId j g.slot) ∧ u.mem = s.mem ∧ u.launches = s.launches ∧
    thr? u o (packId j g.slot) = some (newThread w o l k e j g idx inc l.seed s.nextId) ∧
    ∀ x, (f x).arg = x.arg ∧ (f x).seed = x.seed := by
  unfold createOn
  split
  next hnone => exact nomatch hnone.symm.trans hc
  next c' _ =>
    extract_lets held idx dyn made t u1 c1 c2 u2 u3 u4 u5 u6 u7 u8 d
    have h1 : booksOf u1 = booksOf s := by
      unfold u1
      split <;> rfl
    have h2 : booksOf u2 = booksOf u1 := rfl
    have h3 : booksOf u3 = booksOf u2 := booksOf_clearBanks (zeroWindows u2 o j g e) o j g e
    have h8 : booksOf u8 = booksOf u3 := by
      simp only [u8, u7, u6, u5, booksOf_writeG]
      rfl
    have hthr : thr? u8 o (packId j g.slot) = thr? u4 o (packId j g.slot) :=
      thr?_congr (by simp only [u8, u7, u6, u5, writeG_threads]) _ _
    refine ⟨u8, _, idx, made % 256, rfl, ?_, ?_, ?_, fun x => ⟨rfl, rfl⟩⟩
    · exact congrArg Prod.fst (h8.trans (h3.trans (h2.trans h1)))
    · exact congrArg Prod.snd (h8.trans (h3.trans (h2.trans h1)))
    · rw [hthr]
      exact lookup_put_self _ _ _

/-! ## The grant of a core whose dither source moves (R102, R236) -/

/-- Replacing the listed value of a key by one that a test takes for the same leaves the test of all the same. -/
theorem all_upd {α : Type} {m : SMap α} {i : Nat} {f : α → α} {P : Nat × α → Bool} (hf : ∀ x, P (i, f x) = P (i, x)) :
    (upd m i f).all P = m.all P := by
  have hput : ∀ (m : SMap α) (x : α), lookup m i = some x → (put m i (f x)).all P = m.all P := by
    intro m
    induction m with
    | nil => intro x hx; cases hx
    | cons p m ih =>
      obtain ⟨k, v⟩ := p
      intro x hx
      by_cases hk : i = k
      · subst hk
        have hv : v = x := by simpa [lookup] using hx
        simp [put, hf, hv]
      · simp only [lookup, hk, if_false] at hx
        by_cases hlt : i < k
        · have hmem : P (i, x) = true ∨ m.all P = false := by
            cases hall : m.all P with
            | false => exact .inr rfl
            | true => exact .inl (List.all_eq_true.1 hall _ (mem_of_lookup hx))
          simp only [put, hlt, if_true, List.all_cons, hf]
          rcases hmem with h | h <;> simp [h]
        · simp only [put, hlt, hk, if_false, List.all_cons, ih x hx]
  unfold upd
  split
  next x hx => exact hput m x hx
  · rfl

section
variable {s : State} {o j : Nat}

/-- What of a core the dither source is. -/
def drawn (n : Nat) (c : Core) : Core := { c with dither := c.dither + n }

theorem takeDraws_eq (s : State) (t : Thread) (n : Nat) : takeDraws s t n = s ∨ takeDraws s t n = onCore s t.o t.core (drawn n) := by
  unfold takeDraws
  split
  · exact .inl rfl
  · exact .inr rfl

theorem core?_drawn (s : State) (o' j' o j n : Nat) : ∃ m,
    core? (onCore s o' j' (drawn n)) o j = (core? s o j).map (fun c => { c with dither := c.dither + m }) := by
  by_cases h : coreKey o j = coreKey o' j'
  · refine ⟨n, ?_⟩
    show lookup (upd s.cores (coreKey o' j') (drawn n)) (coreKey o j) = _
    rw [h, lookup_upd_self, core?, h]
    rfl
  · refine ⟨0, ?_⟩
    exact (lookup_upd_ne _ _ h).trans (by simp [core?])

theorem entriesAcked_drawn (s : State) (o' j' n o tid born id : Nat) :
    entriesAcked (onCore s o' j' (drawn n)) o tid born id = entriesAcked s o tid born id :=
  all_upd fun _ => rfl

theorem setReady_drawn (s : State) (o' j' n o : Nat) (r : Retained) : setReady (onCore s o' j' (drawn n)) o r = setReady s o r := by
  simp only [setReady, releaseOk, entriesAcked_drawn, onCore_reqs, onCore_rwrites]

theorem grantOn_drawn (s : State) (o' j' n o j : Nat) (l : Launch) (k : Nat) (e : StageEnt) :
    grantOn (onCore s o' j' (drawn n)) o j l k e = grantOn s o j l k e := by
  obtain ⟨m, hm⟩ := core?_drawn s o' j' o j n
  simp only [grantOn, hm, setReady_drawn]
  cases core? s o j <;> rfl

theorem grantOn_takeDraws (s : State) (t : Thread) (n o j : Nat) (l : Launch) (k : Nat) (e : StageEnt) :
    grantOn (takeDraws s t n) o j l k e = grantOn s o j l k e := by
  rcases takeDraws_eq s t n with h | h <;> rw [h]
  exact grantOn_drawn ..

theorem lch?_takeDraws (s : State) (t : Thread) (n o lid : Nat) : lch? (takeDraws s t n) o lid = lch? s o lid := by
  rcases takeDraws_eq s t n with h | h <;> rw [h]
  rfl

theorem stageThreads_takeDraws (s : State) (t : Thread) (n o l k : Nat) :
    stageThreads (takeDraws s t n) o l k = stageThreads s o l k := by
  simp only [stageThreads, threadsOf, takeDraws_threads]

end

/-! ## SPAWN (R118, R391) -/

section
variable {s : State} {o lid k j : Nat} {w : Owner} {l : Launch} {e : StageEnt}

theorem spawnOn_noLaunch (hl : lch? s o lid = none) : spawnOn s o w lid k j = (s, .inr 3) := by
  simp only [spawnOn, hl]

theorem spawnOn_noStage (hl : lch? s o lid = some l) (he : l.stages[k]? = none) : spawnOn s o w lid k j = (s, .inr 3) := by
  simp only [spawnOn, hl, he]

theorem spawnOn_full (hl : lch? s o lid = some l) (he : l.stages[k]? = some e)
    (hn : e.tmax ≤ (stageThreads s o lid k).length) : spawnOn s o w lid k j = (s, .inr 1) := by
  simp only [spawnOn, hl, he, hn, if_true]

theorem spawnOn_noRoom (hl : lch? s o lid = some l) (he : l.stages[k]? = some e)
    (hn : (stageThreads s o lid k).length < e.tmax) (hg : ncores w ≤ j ∨ grantOn s o j l k e = none) :
    spawnOn s o w lid k j = (s, .inr 2) := by
  simp only [spawnOn, hl, he, Nat.not_le.2 hn, if_false]
  split_ifs with hj
  · rfl
  · rw [hg.resolve_left hj]

/-- With a grant on the core that it names a SPAWN creates its thread there, ready. -/
theorem spawnOn_creates {g : Grant} (hl : lch? s o lid = some l) (he : l.stages[k]? = some e)
    (hn : (stageThreads s o lid k).length < e.tmax) (hj : j < ncores w) (hg : grantOn s o j l k e = some g) :
    ∃ u idx inc, spawnOn s o w lid k j = (u, .inl (packId j g.slot)) ∧ u.mem = s.mem ∧
      thr? u o (packId j g.slot) = some { newThread w o l k e j g idx inc l.seed s.nextId with status := .ready } := by
  have hcore : ∃ c, core? s o j = some c := by
    cases hc : core? s o j with
    | none => simp [grantOn, hc] at hg
    | some c => exact ⟨c, rfl⟩
  obtain ⟨c, hc⟩ := hcore
  obtain ⟨u, f, idx, inc, hcreate, hmem, -, hthr, -⟩ := createOn_eq w l k e g hc
  refine ⟨onThr (onLch u o l.id f) o (packId j g.slot) (fun t => { t with status := .ready }), idx, inc, ?_, hmem, ?_⟩
  · simp only [spawnOn, hl, he, Nat.not_le.2 hn, Nat.not_le.2 hj, hg, hcreate, if_false]
  · exact (thr?_onThr _ _ _ _).trans (congrArg _ hthr)

end

/-! ## LAUNCH (R100, R390) -/

/-- A launch stands with the argument and the seed that it was given. -/
def Given (o id : Nat) (arg seed : Word) (s : State) : Prop := ∃ l, lch? s o id = some l ∧ l.arg = arg ∧ l.seed = seed

section
variable {s u : State} {o id : Nat} {arg seed : Word} {w : Owner}

theorem Given.congr (h : Given o id arg seed s) (hu : u.launches = s.launches) : Given o id arg seed u := by
  obtain ⟨l, hl, hgiven⟩ := h
  exact ⟨l, (congrArg (lookup · _) hu).trans hl, hgiven⟩

theorem given_put (v : State) {l : Launch} (harg : l.arg = arg) (hseed : l.seed = seed) :
    Given o id arg seed { v with launches := put v.launches (lchKey o id) l } :=
  ⟨l, lookup_put_self _ _ _, harg, hseed⟩

theorem Given.onLch (h : Given o id arg seed s) (o' id' : Nat) {f : Launch → Launch}
    (hf : ∀ x, (f x).arg = x.arg ∧ (f x).seed = x.seed) : Given o id arg seed (onLch s o' id' f) := by
  obtain ⟨l, hl, hgiven⟩ := h
  by_cases hk : lchKey o id = lchKey o' id'
  · refine ⟨f l, ?_, (hf l).1.trans hgiven.1, (hf l).2.trans hgiven.2⟩
    show lookup (upd s.launches (lchKey o' id') f) (lchKey o id) = _
    rw [hk, lookup_upd_self, ← hk]
    exact congrArg _ hl
  · exact ⟨l, (lookup_upd_ne _ _ hk).trans hl, hgiven⟩

theorem Given.createOn (h : Given o id arg seed s) (o' : Nat) (w : Owner) (l : Launch) (k : Nat) (e : StageEnt) (j : Nat)
    (g : Grant) : Given o id arg seed (createOn s o' w l k e j g).1 := by
  cases hc : core? s o' j with
  | none =>
    unfold Machine.createOn
    rw [hc]
    exact h
  | some c =>
    obtain ⟨v, f, idx, inc, hcreate, -, hlaunches, -, hf⟩ := createOn_eq w l k e g hc
    rw [hcreate]
    exact (h.congr hlaunches).onLch o' l.id hf

theorem Given.createPlaced {lid k : Nat} (h : Given o id arg seed s) (hu : createPlaced s o w lid k = some u) :
    Given o id arg seed u := by
  unfold Machine.createPlaced at hu
  split at hu
  · cases hu
  · split at hu
    · cases hu
    · split at hu
      · cases hu
      · injection hu with hu
        exact hu ▸ h.createOn ..

theorem Given.createN {lid k n : Nat} (h : Given o id arg seed s) (hu : createN o w lid k n s = some u) :
    Given o id arg seed u := by
  induction n generalizing s with
  | zero => exact Option.some.inj hu ▸ h
  | succ n ih =>
    obtain ⟨v, hv, hu⟩ := Option.bind_eq_some_iff.1 hu
    exact ih (h.createPlaced hv) hu

theorem Given.createStages {lid : Nat} {es : List (StageEnt × Nat)} (h : Given o id arg seed s)
    (hu : createStages o w lid es s = some u) : Given o id arg seed u := by
  induction es generalizing s with
  | nil => exact Option.some.inj hu ▸ h
  | cons e es ih =>
    obtain ⟨v, hv, hu⟩ := Option.bind_eq_some_iff.1 hu
    exact ih (h.createN hv) hu

theorem placeCursors_launches (s : State) (o lid : Nat) (es : List (StageEnt × Nat)) :
    (placeCursors s o lid es).launches = s.launches := by
  refine foldl_keeps State.launches (fun u p => ?_) es s
  split
  · rfl
  · dsimp only
    refine foldl_keeps State.launches ?_ _ u
    exact fun _ _ => rfl

theorem launchIn_misaligned {hdr : Nat} (h : hdr % 64 ≠ 0) : launchIn s o w hdr arg seed = (s, .inr 8) := by
  unfold launchIn
  exact if_pos h

/-- A launch is refused and creates nothing, or it stands under the owner's next launch id (R36, R100). -/
theorem launchIn_cases (s : State) (o : Nat) (w : Owner) (hdr : Nat) (arg seed : Word) :
    (∃ u n, launchIn s o w hdr arg seed = (u, .inr n) ∧ (n = 8 ∨ n = 6) ∧ rosterOf u = rosterOf s) ∨
    ∃ u, launchIn s o w hdr arg seed = (u, .inl (nextLaunch w)) ∧ Given o (nextLaunch w) arg seed u := by
  unfold launchIn
  dsimp only
  split
  · exact .inl ⟨_, 8, rfl, .inl rfl, rfl⟩
  · split
    · exact .inl ⟨_, 8, rfl, .inl rfl, rosterOf_ownerFill ..⟩
    next hd _ =>
      have hfill : rosterOf (fillPipeline (ownerFill s w o hdr 64) w o hd.pipe) = rosterOf s :=
        (rosterOf_fillPipeline ..).trans (rosterOf_ownerFill ..)
      split
      · exact .inl ⟨_, 8, rfl, .inl rfl, hfill⟩
      next p _ =>
        have hzero := (rosterOf_zeroQueues w o p.queues (fillPipeline (ownerFill s w o hdr 64) w o hd.pipe)).trans hfill
        split <;> rename_i hq <;> rw [hq] at hzero
        · exact .inl ⟨_, 8, rfl, .inl rfl, hzero⟩
        · split
          · exact .inl ⟨_, 6, rfl, .inr rfl, hzero⟩
          next u3 hu3 =>
            have hgiven : Given o (nextLaunch w) arg seed u3 := (given_put _ rfl rfl).createStages hu3
            exact .inr ⟨_, rfl, hgiven.congr (placeCursors_launches u3 o (nextLaunch w) _)⟩

end

/-! ## What gD receives (R390, R391) -/

/-- A launch id is none of the reasons: it has 32 bits. -/
theorem nextLaunch_lt (w : Owner) : nextLaunch w < 2 ^ 32 := by
  unfold nextLaunch
  split
  · decide
  · exact Nat.mod_lt _ (by decide)

theorem idOrReason_inl (n : Nat) : idOrReason (.inl n) = BitVec.ofNat 64 n := rfl

theorem idOrReason_inr (n : Nat) : idOrReason (.inr n) = BitVec.ofNat 64 (2 ^ 63 + n) := rfl

theorem ofNat_ne_reason {id n : Nat} (hid : id < 2 ^ 32) (hn : n < 2 ^ 63) :
    BitVec.ofNat 64 id ≠ BitVec.ofNat 64 (2 ^ 63 + n) := by
  intro h
  have hval := congrArg BitVec.toNat h
  rw [BitVec.toNat_ofNat, BitVec.toNat_ofNat, Nat.mod_eq_of_lt (by omega), Nat.mod_eq_of_lt (by omega)] at hval
  omega

section
variable {e : Env} {d a b : GReg}

theorem launchSem_early (h : releaseNow e.s e.t .pkg = false) : launchSem d a b e = .again e.s .release := by
  simp only [launchSem, h, Bool.not_false, if_true]

theorem launchSem_released (h : releaseNow e.s e.t .pkg = true) {u : State} {x : Nat ⊕ Nat}
    (hl : launchIn e.s e.t.o e.w (e.g a).toNat (e.g b) e.t.rngk = (u, x)) :
    launchSem d a b e = .ok u (Wr.ofG d (idOrReason x)) := by
  simp only [launchSem, h, hl, Bool.not_true, Bool.false_eq_true, if_false]

theorem spawnSem_early (h : releaseNow e.s e.t .pkg = false
    ∨ setWaits e.s e.t.o e.t.launch ((e.g a).toNat % 16) (e.g b).toNat = true) : spawnSem d a b e = .again e.s .release := by
  rcases h with h | h <;> simp [spawnSem, h]

theorem spawnSem_released (h : releaseNow e.s e.t .pkg = true)
    (hlate : setWaits e.s e.t.o e.t.launch ((e.g a).toNat % 16) (e.g b).toNat = false) {u : State} {x : Nat ⊕ Nat}
    (hs : spawnOn e.s e.t.o e.w e.t.launch ((e.g a).toNat % 16) (e.g b).toNat = (u, x)) :
    spawnSem d a b e = .ok u (Wr.ofG d (idOrReason x)) := by
  simp only [spawnSem, h, hlate, hs, Bool.not_true, Bool.or_self, Bool.false_eq_true, if_false]

end

end Sys2Proof.Machine
end

section
namespace Sys2Proof
open Sys2Proof.Machine

/-- Settles O47: a LAUNCH by the two outcomes of its four steps, a SPAWN by the reasons in the order in which it is refused. -/
theorem launchAndSpawn : Obligations.LaunchAndSpawn := by
  unfold Obligations.LaunchAndSpawn
  intro s c t w d a b
  refine ⟨?launch, ?spawn⟩
  case launch =>
    intro i e h
    refine ⟨fun hrel => runX_again h (launchSem_early hrel), fun hrel => ?_⟩
    have hroster : rosterOf e.s = rosterOf s := rosterOf_takeDraws (bare s) t _
    have hga : e.g a = readG s t a := envX_g (bare s) c t w i a
    have hgb : e.g b = readG s t b := envX_g (bare s) c t w i b
    have hexec {u : State} {x : Nat ⊕ Nat} (hl : launchIn e.s t.o w (readG s t a).toNat (readG s t b) t.rngk = (u, x)) :
        exec i s = .next (retiresTo s c t w i u (Wr.ofG d (idOrReason x))) := by
      refine runX_ok h (launchSem_released hrel ?_)
      rw [hga, hgb]
      exact hl
    rcases launchIn_cases e.s t.o w (readG s t a).toNat (readG s t b) t.rngk with ⟨u, n, hl, hn, hu⟩ | ⟨u, hl, hgiven⟩
    · have hlists := hu.trans hroster
      refine ⟨u, _, hexec hl, fun _ => ?_, fun hmis => ?_, fun h8 h6 => ?_⟩
      · exact ⟨congrArg (·.1) hlists, congrArg (·.2.1) hlists, congrArg (·.2.2) hlists⟩
      · obtain ⟨hs, hr⟩ := Prod.mk.inj (hl.symm.trans (launchIn_misaligned hmis))
        exact ⟨congrArg idOrReason hr, hs⟩
      · rcases hn with rfl | rfl
        · exact absurd rfl h8
        · exact absurd rfl h6
    · have hid := nextLaunch_lt w
      refine ⟨u, _, hexec hl, fun hx => ?_, fun hmis => ?_, fun _ _ => ⟨rfl, hgiven⟩⟩
      · rcases hx with hx | hx
        · exact absurd hx (ofNat_ne_reason hid (by decide))
        · exact absurd hx (ofNat_ne_reason hid (by decide))
      · exact nomatch (Prod.mk.inj (hl.symm.trans (launchIn_misaligned hmis))).2
  case spawn =>
    intro i e k j h late
    have hga : e.g a = readG s t a := envX_g (bare s) c t w i a
    have hgb : e.g b = readG s t b := envX_g (bare s) c t w i b
    have hcore : setWaits e.s t.o t.launch ((e.g a).toNat % 16) (e.g b).toNat = late := by
      rw [hga, hgb]
    refine ⟨fun hearly => runX_again h (spawnSem_early (hearly.imp_right hcore.trans)), fun hrel hlate => ?_⟩
    have hexec {u : State} {x : Nat ⊕ Nat} (hs : spawnOn e.s t.o w t.launch k j = (u, x)) :
        exec i s = .next (retiresTo s c t w i u (Wr.ofG d (idOrReason x))) := by
      refine runX_ok h (spawnSem_released hrel (hcore.trans hlate) ?_)
      rw [hga, hgb]
      exact hs
    have hlch : lch? e.s t.o t.launch = lch? s t.o t.launch := lch?_takeDraws (bare s) t _ _ _
    have hlive : stageThreads e.s t.o t.launch k = stageThreads s t.o t.launch k := stageThreads_takeDraws (bare s) t _ _ _ _
    intro fails
    have hfail {n : Nat} (hs : spawnOn e.s t.o w t.launch k j = (e.s, .inr n)) : fails n := by
      have hdone := hexec hs
      rw [idOrReason_inr] at hdone
      exact hdone
    refine ⟨fun hnone => hfail (spawnOn_noLaunch (hlch.trans hnone)), fun l hl => ?_⟩
    refine ⟨fun hnone => hfail (spawnOn_noStage (hlch.trans hl) hnone), fun x hx => ⟨fun hfull => ?_, fun hfree hroom => ?_, ?_⟩⟩
    · exact hfail (spawnOn_full (hlch.trans hl) hx (hlive ▸ hfull))
    · exact hfail (spawnOn_noRoom (hlch.trans hl) hx (hlive ▸ hfree) (hroom.imp_right (grantOn_takeDraws ..).trans))
    · intro g hfree hj hg
      obtain ⟨u, idx, inc, hs, hmem, hthr⟩ :=
        spawnOn_creates (hlch.trans hl) hx (hlive ▸ hfree) hj ((grantOn_takeDraws ..).trans hg)
      have hcreated := hexec hs
      rw [idOrReason_inl] at hcreated
      exact ⟨u, _, hcreated, hthr, rfl, rfl, rfl, rfl, rfl, rfl, rfl, rfl, rfl, rfl, rfl, hmem.trans (takeDraws_mem ..)⟩

end Sys2Proof
end

section
/-!
SUPPORT. What a unit's access and its arithmetic come to by themselves: the sum of a chunk's products (R246), the access that a unit
makes next (R203), and the blocks that a converted row is written as (R398).
-/

namespace Sys2Proof.Machine

/-! ## Chunk sums (R246) -/

/-- A dyadic triple as a value. -/
def finVal (v : Bool × Nat × Int) : FVal := .fin v.1 v.2.1 v.2.2

theorem chunkSum_special {ftz : Bool} {ps : List (Option FVal)}
    (h : none ∈ ps ∨ some .nan ∈ ps ∨ some (.inf false) ∈ ps ∧ some (.inf true) ∈ ps) : chunkSum ftz ps = F32.enc .nan := by
  have hvals {v : FVal} (hv : some v ∈ ps) : v ∈ ps.filterMap id := List.mem_filterMap.2 ⟨_, hv, rfl⟩
  refine if_pos (Bool.or_eq_true_iff.2 ?_)
  rcases h with hnone | hnan | ⟨hpos, hneg⟩
  · exact .inl (Bool.or_eq_true_iff.2 (.inl (List.any_eq_true.2 ⟨none, hnone, rfl⟩)))
  · exact .inl (Bool.or_eq_true_iff.2 (.inr (List.any_eq_true.2 ⟨.nan, hvals hnan, rfl⟩)))
  · exact .inr (Bool.and_eq_true_iff.2
      ⟨List.any_eq_true.2 ⟨.inf false, hvals hpos, rfl⟩, List.any_eq_true.2 ⟨.inf true, hvals hneg, rfl⟩⟩)

/-- The largest of some numbers is one that is among them and that none exceeds. -/
theorem foldl_max_eq {x m : Int} {xs : List Int} (hm : m ∈ x :: xs) (hle : ∀ y ∈ x :: xs, y ≤ m) : xs.foldl max x = m := by
  induction xs generalizing x with
  | nil => exact (List.mem_singleton.1 hm).symm
  | cons y ys ih =>
    have hx : x ≤ m := hle x (by simp)
    have hy : y ≤ m := hle y (by simp)
    refine ih ?_ ?_
    · rcases List.mem_cons.1 hm with h | hm
      · exact List.mem_cons.2 (.inl (by omega))
      · rcases List.mem_cons.1 hm with h | hm
        · exact List.mem_cons.2 (.inl (by omega))
        · exact List.mem_cons.2 (.inr hm)
    · intro z hz
      rcases List.mem_cons.1 hz with h | hz
      · omega
      · exact hle z (by simp [hz])

/-- Where the leading bit of a value that is not zero stands. -/
def leadOf (v : FVal) : Option Int :=
  match v with
  | .fin _ m e => if m = 0 then none else some ((Nat.log2 m : Int) + e)
  | .nan | .inf _ => none

theorem leads_cons {vs : List (Bool × Nat × Int)} {q : Int} (htop : ∃ v ∈ vs, v.2.1 ≠ 0 ∧ (Nat.log2 v.2.1 : Int) + v.2.2 = q + 63)
    (hle : ∀ v ∈ vs, v.2.1 ≠ 0 → (Nat.log2 v.2.1 : Int) + v.2.2 ≤ q + 63) :
    ∃ x xs, (vs.map finVal).filterMap leadOf = x :: xs ∧ xs.foldl max x = q + 63 := by
  have hmem (y : Int) : y ∈ (vs.map finVal).filterMap leadOf ↔ ∃ v ∈ vs, v.2.1 ≠ 0 ∧ (Nat.log2 v.2.1 : Int) + v.2.2 = y := by
    simp [leadOf, finVal]
  have hq := (hmem _).2 htop
  cases hl : (vs.map finVal).filterMap leadOf with
  | nil => rw [hl] at hq; cases hq
  | cons x xs =>
    refine ⟨x, xs, rfl, foldl_max_eq (hl ▸ hq) fun y hy => ?_⟩
    obtain ⟨v, hv, hne, rfl⟩ := (hmem y).1 (hl ▸ hy)
    exact hle v hv hne

theorem chunkSum_finite (ftz : Bool) {vs : List (Bool × Nat × Int)} {q : Int}
    (htop : ∃ v ∈ vs, v.2.1 ≠ 0 ∧ (Nat.log2 v.2.1 : Int) + v.2.2 = q + 63)
    (hle : ∀ v ∈ vs, v.2.1 ≠ 0 → (Nat.log2 v.2.1 : Int) + v.2.2 ≤ q + 63) :
    let total := (vs.map (fun v => truncProd q (finVal v))).sum
    chunkSum ftz (vs.map (fun v => some (finVal v))) = if total = 0 then (F32.round 0 ftz .arith 0 (.zero false)).1
      else (F32.round 0 ftz .arith 0 (.mag (decide (total < 0)) total.natAbs 1 q)).1 := by
  obtain ⟨x, xs, hleads, hmax⟩ := leads_cons htop hle
  have hvals : (vs.map (fun v => some (finVal v))).filterMap id = vs.map finVal := by
    rw [List.filterMap_map]
    exact congrFun List.filterMap_eq_map vs
  have hsum : ((vs.map finVal).map (truncProd q)).foldl (· + ·) 0 = (vs.map (fun v => truncProd q (finVal v))).sum := by
    rw [List.map_map]
    exact List.sum_eq_foldl.symm
  have hnone : (vs.map (fun v => some (finVal v))).any (·.isNone) = false := by simp
  have hnan : (vs.map finVal).any (·.isNan) = false := by simp [finVal, FVal.isNan]
  have hinf (b : Bool) : (vs.map finVal).any (· == .inf b) = false := by simp [finVal]
  unfold chunkSum
  extract_lets total vals bad posInf negInf round exps
  have hv : vals = vs.map finVal := hvals
  have hexps : exps = x :: xs := (congrArg (List.filterMap leadOf) hv).trans hleads
  have hbad : bad = false := by rw [← hv] at hnan; simp only [bad, hnone, hnan, Bool.or_self]
  have hpos : posInf = false := (congrArg (List.any · (· == .inf false)) hv).trans (hinf false)
  have hneg : negInf = false := (congrArg (List.any · (· == .inf true)) hv).trans (hinf true)
  simp only [hbad, hpos, hneg, hexps, hmax, hv, hsum, Bool.or_self, Bool.and_self, Bool.false_eq_true, if_false,
    Int.add_sub_cancel]
  rfl

theorem chunkSums (ftz : Bool) : ChunkSums ftz :=
  ⟨fun _ h => chunkSum_special h, fun _ _ htop hle => chunkSum_finite ftz htop hle⟩

/-! ## The next access of a unit (R203) -/

theorem pickAccess_mem {α β : Type} {tick : Nat} {l : List α} {res : α → URes β} {p : α} (h : pickAccess tick l res = some p) :
    p ∈ l ∧ ((∃ q ∈ l, (res q).isOk = true) → (res p).isOk = true) := by
  unfold pickAccess at h
  extract_lets oks bad from_ at h
  have hp : p ∈ from_ := List.mem_of_getElem? h
  cases hoks : oks.isEmpty with
  | false =>
    have hmem : p ∈ oks := by
      simp only [from_, hoks, Bool.not_false, if_true] at hp
      exact hp
    obtain ⟨hl, hok⟩ := List.mem_filter.1 hmem
    exact ⟨hl, fun _ => hok⟩
  | true =>
    refine ⟨?_, fun ⟨q, hq, hok⟩ => ?_⟩
    · simp only [from_, hoks, Bool.not_true, Bool.false_eq_true, if_false] at hp
      split at hp
      · exact (List.mem_filter.1 hp).1
      · exact hp
    · have hmem : q ∈ oks := List.mem_filter.2 ⟨hq, hok⟩
      rw [List.isEmpty_iff.1 hoks] at hmem
      cases hmem

/-! ## The blocks of a conversion (R398) -/

/-- Element i of a vector that takes the elements of a list, which may leave its upper ones zero. -/
theorem velem_vecOfEls_of_le {w : Nat} {l : List Nat} (hl : w * l.length ≤ 512) {i : Nat} (hi : i < l.length) :
    velem w i (vecOfEls w l) = l[i] % 2 ^ w := by
  have hlt := (joinEls_lt w l).trans_le (Nat.pow_le_pow_right Nat.two_pos hl)
  rw [velem, vecOfEls, BitVec.toNat_ofNat, Nat.mod_eq_of_lt hlt, el_joinEls _ _ _ hi]

theorem fmtBits_perBlock (c : Nat) : fmtBits c * perBlock c = 512 := by
  unfold perBlock fmtBits
  split_ifs <;> rfl

theorem convOuts_get {o c : Nat} {cl : Cluster} {b : Job} {x : CuBlock} {bs : List (Vec × Nat)} {dva i e : Nat} {f : Fmt}
    {v : FVal} (hf : codeFmt x.cfmt = some f) (hi : i < x.drb / 64) (he : e < perBlock x.cfmt)
    (hv : (decodeEls b.ftz bs)[perBlock x.cfmt * i + e]? = some v) : ∃ y, (convOuts o c cl b x bs dva)[i]? = some y ∧
    y.1 = dva + 64 * i ∧ y.2.2 = some (x.cfmt * 4096 + x.cscale) ∧ velem (fmtBits x.cfmt) e y.2.1 =
      (f.round b.rm b.ftz .sat (ditherCopy o c (cl.ditherCu + (perBlock x.cfmt * i + e)))
        (v.scale (127 - (x.cscale : Int))).exact).1 % 2 ^ fmtBits x.cfmt := by
  let ys := (decodeEls b.ftz bs).zipIdx.map (fun p => convEl o c x b.rm b.ftz (cl.ditherCu + p.2) p.1)
  let row := (ys.drop (perBlock x.cfmt * i)).take (perBlock x.cfmt)
  have hrow : row[e]? = some (convEl o c x b.rm b.ftz (cl.ditherCu + (perBlock x.cfmt * i + e)) v) := by
    simp [row, ys, he, hv]
  obtain ⟨hlen, hget⟩ := List.getElem?_eq_some_iff.1 hrow
  have hfit : fmtBits x.cfmt * row.length ≤ 512 := by
    rw [← fmtBits_perBlock x.cfmt]
    exact Nat.mul_le_mul_left _ (List.length_take_le _ _)
  refine ⟨(dva + 64 * i, vecOfEls (fmtBits x.cfmt) row, some (x.cfmt * 4096 + x.cscale)), ?_, rfl, rfl, ?_⟩
  · simp [convOuts, hi, row, ys]
  · rw [velem_vecOfEls_of_le hfit hlen, hget, convEl, hf]

end Sys2Proof.Machine
end

section
/-!
SUPPORT. The jobs of the cores, what the accesses of a unit leave alone, and the blocks that a unit reads and writes (R115, R137, R204,
R225).
-/

namespace Sys2Proof.Machine

/-! ## The jobs of the cores (R115) -/

/-- The jobs of every core, by the core's key. -/
def jobsOf (s : State) (key : Nat) : Option (List Job) := (lookup s.cores key).map (·.jobs)

theorem jobAt_eq (s : State) (o k id : Nat) : jobAt s o k id = (jobsOf s (coreKey o k)).bind (List.find? (·.id == id)) := by
  unfold jobAt jobsOf core?
  cases lookup s.cores (coreKey o k) <;> rfl

theorem jobAt_congr {s u : State} (h : jobsOf u = jobsOf s) (o k id : Nat) : jobAt u o k id = jobAt s o k id := by
  rw [jobAt_eq, jobAt_eq, h]

theorem find_id {l : List Job} {id : Nat} {b : Job} (h : l.find? (·.id == id) = some b) : b.id = id := by
  simpa using List.find?_some h

theorem jobAt_id {s : State} {o k id : Nat} {b : Job} (h : jobAt s o k id = some b) : b.id = id := by
  unfold jobAt at h
  split at h
  · exact find_id h
  · cases h

theorem jobsOf_onCore (s : State) (o j : Nat) {f : Core → Core} (hf : ∀ c, (f c).jobs = c.jobs) :
    jobsOf (onCore s o j f) = jobsOf s := by
  funext key
  show (lookup (upd s.cores (coreKey o j) f) key).map _ = _
  by_cases h : key = coreKey o j
  · subst h
    rw [lookup_upd_self, Option.map_map]
    exact congrArg (Option.map · _) (funext hf)
  · rw [lookup_upd_ne _ _ h]
    rfl

/-- A core with other jobs: what its jobs are then. -/
theorem jobAt_onCore {s : State} {o k : Nat} {c : Core} (f : Core → Core) (id : Nat) (hc : core? s o k = some c) :
    jobAt (onCore s o k f) o k id = (f c).jobs.find? (·.id == id) := by
  rw [jobAt, core?_onCore, hc]
  rfl

theorem core_of_jobAt {s : State} {o k id : Nat} {b : Job} (h : jobAt s o k id = some b) :
    ∃ c, core? s o k = some c ∧ c.jobs.find? (·.id == id) = some b := by
  unfold jobAt at h
  split at h
  next c hc => exact ⟨c, hc, h⟩
  · cases h

/-- Updates that leave ids alone find the same job, updated. -/
theorem find?_map_of_id {l : List Job} (id : Nat) {f : Job → Job} (hf : ∀ x, (f x).id = x.id) :
    (l.map f).find? (·.id == id) = (l.find? (·.id == id)).map f := by
  have hpred : ((fun x : Job => x.id == id) ∘ f) = fun x => x.id == id := by
    funext x
    simp only [Function.comp_apply, hf]
  rw [List.find?_map, hpred]

theorem jobAt_onJob {s : State} {o k id : Nat} {b : Job} {f : Job → Job} (hf : ∀ x, (f x).id = x.id)
    (h : jobAt s o k id = some b) : jobAt (onJob s o k id f) o k id = some (f b) := by
  obtain ⟨c, hc, hfind⟩ := core_of_jobAt h
  have hid (x : Job) : (if x.id = id then f x else x).id = x.id := by
    split
    · exact hf x
    · rfl
  refine (jobAt_onCore _ id hc).trans ?_
  rw [find?_map_of_id id hid, hfind]
  exact congrArg some (if_pos (find_id hfind))

/-- The gate of a job after another has posted OPC, or ended. -/
def gateAfter (id : Nat) (ended : Bool) : JobGate → JobGate
  | .ended x => if x = id ∧ ended then .none else .ended x
  | .opc x => if x = id then .none else .opc x
  | .none => .none

theorem jobAt_releaseGate {s : State} {o k i : Nat} {b : Job} (id : Nat) (ended : Bool) (h : jobAt s o k i = some b) :
    jobAt (releaseGate s o k id ended) o k i = some { b with gate := gateAfter id ended b.gate } := by
  obtain ⟨c, hc, hfind⟩ := core_of_jobAt h
  exact (jobAt_onCore _ i hc).trans ((find?_map_of_id (f := fun b => { b with gate := gateAfter id ended b.gate }) i
    fun _ => rfl).trans (congrArg _ hfind))

@[simp] theorem onJob_mem (s : State) (o k id : Nat) (f : Job → Job) : (onJob s o k id f).mem = s.mem := rfl
@[simp] theorem setRun_mem (s : State) (o c : Nat) (r : ERun) : (setRun s o c r).mem = s.mem := rfl
@[simp] theorem walksUsed_mem (s : State) (o c : Nat) (mx : Bool) : (walksUsed s o c mx).mem = s.mem := rfl

@[simp] theorem jobAt_onClus (s : State) (o c : Nat) (f : Cluster → Cluster) (o' k id : Nat) :
    jobAt (onClus s o c f) o' k id = jobAt s o' k id := rfl

@[simp] theorem jobAt_onEngine (s : State) (p : Place) (f : Engine → Engine) (o k id : Nat) :
    jobAt (onEngine s p f) o k id = jobAt s o k id := rfl

@[simp] theorem jobAt_setRun (s : State) (o c : Nat) (r : ERun) (o' k id : Nat) :
    jobAt (setRun s o c r) o' k id = jobAt s o' k id := rfl

@[simp] theorem jobAt_walksUsed (s : State) (o c : Nat) (mx : Bool) (o' k id : Nat) :
    jobAt (walksUsed s o c mx) o' k id = jobAt s o' k id := rfl

/-! ## What the accesses of a unit leave alone (R137, R170, R180) -/

/-- Memory, its descriptors and the jobs of the cores. -/
def heldOf (s : State) : Memory × SMap Nat × (Nat → Option (List Job)) := (s.mem, s.desc, jobsOf s)

theorem heldOf_onCore (s : State) (o j : Nat) {f : Core → Core} (hf : ∀ c, (f c).jobs = c.jobs) :
    heldOf (onCore s o j f) = heldOf s :=
  congrArg (fun jobs => (s.mem, s.desc, jobs)) (jobsOf_onCore s o j hf)

@[simp] theorem heldOf_stackRead (s : State) (pa : Nat) : heldOf (stackRead s pa) = heldOf s := by
  obtain ⟨fl, h⟩ := stackRead_eq s pa
  rw [h]
  rfl

@[simp] theorem heldOf_stackSide (s : State) (t : Target) (pa : Nat) : heldOf (stackSide s t pa) = heldOf s := by
  unfold stackSide
  repeat' split
  all_goals simp

theorem presentSec_jobs (c : Core) (line sec : Nat) : (presentSec c line sec).jobs = c.jobs := by
  unfold presentSec
  dsimp only
  split <;> rfl

theorem bumpLine_jobs (c : Core) (line sec : Nat) : (bumpLine c line sec).jobs = c.jobs := rfl

@[simp] theorem heldOf_touchRead (s : State) (t : Target) (pa : Nat) : heldOf (touchRead s t pa) = heldOf s := by
  unfold touchRead
  split
  · exact (heldOf_onCore _ _ _ fun c => presentSec_jobs c _ _).trans (heldOf_stackSide s t pa)
  · exact heldOf_stackSide s t pa

@[simp] theorem heldOf_touchWrite (s : State) (t : Target) (pa : Nat) : heldOf (touchWrite s t pa) = heldOf s := by
  unfold touchWrite
  split
  · exact (heldOf_onCore _ _ _ fun c => (bumpLine_jobs _ _ _).trans (presentSec_jobs c _ _)).trans (heldOf_stackSide s t pa)
  · exact heldOf_stackSide s t pa

@[simp] theorem heldOf_setMark (s : State) (p : Spot) (m : Nat) : heldOf (setMark s p m) = heldOf s := by
  cases p <;> rfl

@[simp] theorem heldOf_setAllFull (s : State) (p : Spot) (b : Bool) : heldOf (setAllFull s p b) = heldOf s :=
  foldl_keeps heldOf (fun u _ => by cases p <;> rfl) _ s

@[simp] theorem heldOf_fillCheck (s : State) (w : Owner) (t : Target) (l : Leaf) (va pa : Nat) :
    heldOf (fillCheck s w t l va pa) = heldOf s := by
  unfold fillCheck
  split
  · rfl
  · dsimp only
    split
    · rfl
    · split
      · rfl
      · split
        · rfl
        · split
          · rfl
          · exact foldl_keeps heldOf (fun u _ => heldOf_setMark u _ _) _ s

@[simp] theorem heldOf_unitKeep (s : State) (o c : Nat) (mx : Bool) (page : Nat) (out : WalkOut) :
    heldOf (unitKeep s o c mx page out) = heldOf s := by
  cases out <;> rfl

theorem jobsOf_writeAt (s : State) (p : Spot) (bs : List Byte) : jobsOf (writeAt s p bs) = jobsOf s := by
  cases p with
  | mem a =>
    obtain ⟨ims, h⟩ := spoil_eq { s with mem := Memory.writeN s.mem a bs } a bs.length
    rw [writeAt, h]
    rfl
  | spad o j a => rfl
  | bsram o c a => rfl

theorem heldOf_writeBlocks (s : State) (p : Spot) (bs : List Byte) : heldOf (writeBlocks s p bs) = heldOf (writeAt s p bs) :=
  foldl_keeps heldOf (fun u _ => heldOf_setMark u _ _) _ _

theorem jobsOf_setDesc (s : State) (p : Spot) (d : Nat) : jobsOf (setDesc s p d) = jobsOf s := by
  cases p <;> rfl

/-! ## Blocks of a unit (R204, R225) -/

section
variable {s u : State} {w : Owner} {o k : Nat} {mx wr : Bool} {va n : Nat} {x : Target × Spot × Option Leaf}

theorem heldOf_unitMem {out : WalkOut} (h : unitMem s w o k mx wr va out = .ok u x) : heldOf u = heldOf s := by
  unfold unitMem at h
  dsimp only at h
  split at h
  · split at h
    · cases h
    · split at h
      · cases h
      · injection h with hu
        exact hu ▸ heldOf_fillCheck ..
  all_goals cases h

theorem heldOf_unitLoc (h : unitLoc s w o k mx wr va n = .ok u x) : heldOf u = heldOf s := by
  unfold unitLoc at h
  dsimp only at h
  split at h
  · cases h
  · split at h
    · split at h
      · cases h
      · split at h
        · cases h
        · split at h
          · cases h
          · split at h
            · cases h
            · injection h with hu
              exact hu ▸ rfl
    · split at h
      · cases h
      · exact (heldOf_unitMem h).trans (heldOf_unitKeep ..)

end

section
variable {s u : State} {w : Owner} {o k : Nat} {mx fe : Bool} {va : Nat} {t : Target} {p : Spot} {l : Option Leaf}

theorem readBlk_clean (h : unitLoc s w o k mx false va 64 = .ok u (t, p, l)) (hm : markAt u p = 0) :
    readBlk s w o k mx false va = .ok (touchRead u t p.addr) (bytesVec (readAt u p 64), descAt u p) := by
  simp [readBlk, h, URes.bind, hm]

theorem readBlk_marked (h : unitLoc s w o k mx false va 64 = .ok u (t, p, l)) (hm : markAt u p ≠ 0) :
    readBlk s w o k mx false va = .fault u (mkTrap Cause.poison (markAt u p - 1) (BitVec.ofNat 64 va)) := by
  simp [readBlk, h, URes.bind, hm]

/-- The bytes of a block and its descriptor, where one is given, at its place. -/
def laid (u : State) (p : Spot) (v : Vec) (d : Option Nat) : State :=
  match d with
  | some d => setDesc (writeBlocks u p (vecBytes v)) p d
  | none => writeBlocks u p (vecBytes v)

theorem heldOf_writeBlk (h : unitLoc s w o k mx true va 64 = .ok u (t, p, l)) (v : Vec) (d : Option Nat) :
    heldOf (writeBlk s w o k mx fe va v d) = heldOf (laid u p v d) := by
  simp only [writeBlk, h, heldOf_touchWrite]
  split
  · exact heldOf_setAllFull ..
  · rfl

theorem jobsOf_laid (u : State) (p : Spot) (v : Vec) (d : Option Nat) : jobsOf (laid u p v d) = jobsOf u := by
  have hblocks : jobsOf (writeBlocks u p (vecBytes v)) = jobsOf u :=
    (congrArg (·.2.2) (heldOf_writeBlocks u p (vecBytes v))).trans (jobsOf_writeAt ..)
  cases d with
  | none => exact hblocks
  | some d => exact (jobsOf_setDesc ..).trans hblocks

/-- A write of a block leaves the jobs alone. -/
theorem jobsOf_writeBlk (s : State) (w : Owner) (o k : Nat) (mx fe : Bool) (va : Nat) (v : Vec) (d : Option Nat) :
    jobsOf (writeBlk s w o k mx fe va v d) = jobsOf s := by
  cases hl : unitLoc s w o k mx true va 64 with
  | ok u x =>
    obtain ⟨t, p, l⟩ := x
    calc jobsOf (writeBlk s w o k mx fe va v d)
        = jobsOf (laid u p v d) := congrArg (·.2.2) (heldOf_writeBlk hl v d)
      _ = jobsOf u := jobsOf_laid u p v d
      _ = jobsOf s := congrArg (·.2.2) (heldOf_unitLoc hl)
  | _ => simp only [writeBlk, hl]

theorem laid_mem (u : State) (pa : Nat) (v : Vec) (d : Option Nat) :
    (laid u (.mem pa) v d).mem = Memory.writeN u.mem pa (vecBytes v) := by
  have hblocks : (writeBlocks u (.mem pa) (vecBytes v)).mem = Memory.writeN u.mem pa (vecBytes v) := by
    refine (congrArg (·.1) (heldOf_writeBlocks u (.mem pa) (vecBytes v))).trans ?_
    obtain ⟨ims, h⟩ := spoil_eq { u with mem := Memory.writeN u.mem pa (vecBytes v) } pa (vecBytes v).length
    show (spoil _ _ _).mem = _
    rw [h]
  cases d <;> exact hblocks

theorem vecBytes_length (v : Vec) : (vecBytes v).length = 64 := by simp [vecBytes]

theorem unitBlocks (s : State) (w : Owner) (o k : Nat) (mx : Bool) (va : Nat) : UnitBlocks s w o k mx va := by
  refine ⟨fun u t p l h hm => ⟨_, readBlk_clean h hm, congrArg (·.1) (heldOf_touchRead u t p.addr)⟩,
    fun u t p l h hm => readBlk_marked h hm, fun u t pa l v d h => ?_⟩
  have hheld := heldOf_writeBlk (fe := false) h v d
  have hmem : (writeBlk s w o k mx false va v d).mem = Memory.writeN u.mem pa (vecBytes v) :=
    (congrArg (·.1) hheld).trans (laid_mem u pa v d)
  refine ⟨?_, fun a ha => ?_, fun x hx => ?_⟩
  · rw [hmem, ← vecBytes_length v]
    exact Memory.readN_writeN _ _
  · rw [hmem]
    exact Memory.read_writeN_outside _ _ _ (by rw [vecBytes_length]; exact ha)
  · subst hx
    have hdesc : (writeBlk s w o k mx false va v (some x)).desc = setD descDefault _ (pa / 64) x := congrArg (·.2.1) hheld
    show getD descDefault _ (pa / 64) = x
    rw [hdesc]
    exact getD_setD_self _ _ _ _

end

end Sys2Proof.Machine
end

section
/-!
SUPPORT. How a unit takes a job, what the copy unit's steps leave, and how a job ends and suspends (R115, R131, R225, R261, R264, R398).
-/

namespace Sys2Proof.Machine

theorem clus?_onClus (s : State) (o c : Nat) (f : Cluster → Cluster) : clus? (onClus s o c f) o c = (clus? s o c).map f :=
  lookup_upd_self _ _ _

/-! ## How a unit takes a job (R115, R261) -/

section
variable {s : State} {o c j : Nat} {w : Owner} {cl : Cluster} {b : Job}

theorem jobAt_of_nextJob {mx : Bool} {ptr : Nat} (h : nextJob s o c mx ptr = some (j, b)) : ∃ b0, jobAt s o j b.id = some b0 := by
  obtain ⟨i, -, hi⟩ := List.exists_of_findSome?_eq_some h
  split at hi
  next x hx =>
    obtain ⟨b', hb', heq⟩ := Option.map_eq_some_iff.1 hi
    cases heq
    have hmem : b ∈ x.jobs := by
      unfold offered at hb'
      dsimp only at hb'
      split at hb'
      next b1 hhead =>
        split at hb'
        · cases hb'
          exact (List.mem_filter.1 (List.mem_of_head? hhead)).1
        · cases hb'
      · cases hb'
    simp only [jobAt, hx]
    exact Option.isSome_iff_exists.1 (List.find?_isSome.2 ⟨b, hmem, beq_self_eq_true _⟩)
  · cases hi

theorem exec_jobStart_mx (hw : owner? s o = some w) (hcl : clus? s o c = some cl) (hs : stopped s o = false)
    (hmx : cl.mx = none) (hn : nextJob s o c true cl.rrMx = some (j, b)) :
    exec (.jobStart o c .mx) s = .next (startMx s o c j b) := by
  show execJobStart o c .mx s = _
  simp only [execJobStart, hw, hcl, hs, hmx, hn, Option.isSome_none, Bool.false_eq_true, if_false]

theorem exec_jobStart_cu (hw : owner? s o = some w) (hcl : clus? s o c = some cl) (hs : stopped s o = false)
    (hcu : cl.cu = none) (hn : nextJob s o c false cl.rrCu = some (j, b)) :
    exec (.jobStart o c .cu) s = .next (startCu s o c j w b) := by
  show execJobStart o c .cu s = _
  simp only [execJobStart, hw, hcl, hs, hcu, hn, Option.isSome_none, Bool.false_eq_true, if_false]

theorem startMx_spec {b0 : Job} (hcl : clus? s o c = some cl) (hb : jobAt s o j b.id = some b0) : ∃ cl',
    let u := startMx s o c j b
    u.mem = s.mem ∧ clus? u o c = some cl' ∧ cl'.rrMx = (j % 8 + 1) % 8 ∧
    cl'.mx = some ⟨j, b.id, b.pos, 0, [], [], [], false, false, []⟩ ∧
    jobAt u o j b.id = some { b0 with state := .running, spec := b0.pos } := by
  have hclus : ∀ f, clus? (onClus (onClus s o c f) o c (fun cl => { cl with
      carry := startCarry cl b, rrMx := (j % 8 + 1) % 8, mx := some ⟨j, b.id, b.pos, 0, [], [], [], false, false, []⟩ })) o c =
      some { f cl with
        carry := startCarry (f cl) b, rrMx := (j % 8 + 1) % 8, mx := some ⟨j, b.id, b.pos, 0, [], [], [], false, false, []⟩ } := by
    intro f
    rw [clus?_onClus, clus?_onClus, hcl]
    rfl
  exact ⟨_, rfl, hclus _, rfl, rfl, jobAt_onJob (fun _ => rfl) ((jobAt_onClus ..).trans ((jobAt_onClus ..).trans hb))⟩

/-- A job of the copy unit that takes no reference starts with nothing but its state and its unit's. -/
theorem startCu_plain (hk : ∀ r d, b.kind ≠ .slout r d) : startCu s o c j w b =
    onJob (onClus s o c (fun cl => { cl with rrCu := (j % 8 + 1) % 8, cu := some (j, b.id) })) o j b.id
      (fun b => { b with state := .running }) := by
  unfold startCu
  split
  next r d hkind => exact absurd hkind (hk r d)
  · rfl

theorem startCu_spec {b0 : Job} (hcl : clus? s o c = some cl) (hb : jobAt s o j b.id = some b0)
    (hk : ∀ r d, b.kind ≠ .slout r d) : let u := startCu s o c j w b
    u.mem = s.mem ∧ clus? u o c = some { cl with rrCu := (j % 8 + 1) % 8, cu := some (j, b.id) } ∧
    jobAt u o j b.id = some { b0 with state := .running } := by
  dsimp only
  rw [startCu_plain hk]
  exact ⟨rfl, (clus?_onClus ..).trans (congrArg _ hcl), jobAt_onJob (fun _ => rfl) ((jobAt_onClus ..).trans hb)⟩

end

/-! ## The steps of the copy unit (R225, R398) -/

section
variable {s u : State} {o c k : Nat} {w : Owner} {cl : Cluster} {b b1 : Job}

theorem jobAt_of_cuJob (h : cuJob s cl o = some (k, b)) : jobAt s o k b.id = some b := by
  unfold cuJob at h
  split at h
  · obtain ⟨b', hb', heq⟩ := Option.map_eq_some_iff.1 h
    cases heq
    rw [jobAt_id hb']
    exact hb'
  · cases h

/-- A step of the copy unit that is done: the job waits for no granules any more. -/
theorem exec_copyBlock_ok (hw : owner? s o = some w) (hcl : clus? s o c = some cl) (hjob : cuJob s cl o = some (k, b))
    (hs : stopped s o = false) (hl : b.landed = false) (hv : victim s o b = false)
    (hn : nextBlock s o c w cl k b = .ok u ()) (hu : jobAt u o k b.id = some b1) :
    ∃ u', exec (.copyBlock o c) s = .next u' ∧ u'.mem = u.mem ∧ jobAt u' o k b.id = some { b1 with fewait := none } := by
  refine ⟨walksUsed (onJob u o k b.id (fun b => { b with fewait := none })) o c false, ?_, rfl, ?_⟩
  · show execCopyBlock o c s = _
    simp only [execCopyBlock, hw, hcl, hjob, hs, hl, hv, hn, Bool.or_self, Bool.false_eq_true, if_false]
  · exact (jobAt_walksUsed ..).trans (jobAt_onJob (fun _ => rfl) hu)

end

section
variable {s u : State} {o c k : Nat} {w : Owner} {cl : Cluster} {b : Job} {x : CuBlock}

theorem nextBlock_copy {blk : List Byte} (hk : b.kind = .copy blk) :
    nextBlock s o c w cl k b = copyStep s o c w cl k b (cuBlock blk) := by
  simp only [nextBlock, hk]

/-- A fill writes the block of its position and goes on to the next (R399). -/
theorem nextBlock_fill {va : Word} {n desc : Nat} {pat : Vec} (hk : b.kind = .fill va n desc pat)
    (hr : reachBlk s w o k false true false anyPlace (va.toNat + 64 * b.pos) = .ok u ()) :
    nextBlock s o c w cl k b = .ok (onJob (writeBlk u w o k false false (va.toNat + 64 * b.pos) pat
      (if desc = 0 then none else some desc)) o k b.id (fun b => { b with pos := b.pos + 1, spec := b.pos + 1 })) () := by
  simp only [nextBlock, hk, hr, URes.bind]

theorem copyStep_read (ho : b.out = []) (hconv : x.conv = false) {q : Vec × Nat}
    (hr : readBlk s w o k false x.fe (x.sva + b.pos * x.sstr + 64 * b.col) = .ok u q) :
    copyStep s o c w cl k b x = .ok (onJob u o k b.id (fun j => { j with
      spec := j.pos + 1, col := j.col + 1,
      out := [(x.dva + b.pos * x.dstr + 64 * j.col, q.1, if x.dsc then some q.2 else none)] })) () := by
  simp only [copyStep, ho, hconv, hr, URes.bind, List.isEmpty_nil, Bool.not_true, Bool.false_eq_true, if_false]

/-- The dither source of the copy unit moves past the draws of a conversion (R236). -/
def convDrawn (s : State) (o c : Nat) (b : Job) (bs : List (Vec × Nat)) : State :=
  if b.rm = 4 then onClus s o c (fun cl => { cl with ditherCu := cl.ditherCu + (decodeEls b.ftz bs).length }) else s

theorem heldOf_convDrawn (s : State) (o c : Nat) (b : Job) (bs : List (Vec × Nat)) : heldOf (convDrawn s o c b bs) = heldOf s := by
  unfold convDrawn
  split <;> rfl

theorem copyStep_convert (ho : b.out = []) (hconv : x.conv = true) {bs : List (Vec × Nat)}
    (hg : gotAll b (blocksFrom (x.sva + b.pos * x.sstr) (x.rowb / 64)) = some bs) :
    copyStep s o c w cl k b x = .ok (onJob (convDrawn s o c b bs) o k b.id (fun j => { j with
      got := [], col := x.rowb / 64, out := convOuts o c cl j x bs (x.dva + b.pos * x.dstr) })) () := by
  simp only [copyStep, ho, hconv, hg, List.isEmpty_nil, Bool.not_true, Bool.false_eq_true, if_false, if_true]
  rfl

/-- A block that is written leaves the list of a job. -/
def lessBlock (p : Nat × Vec × Option Nat) (j : Job) : Job := { j with out := j.out.erase p }

/-- With its last block a row is committed. -/
def rowDone (x : CuBlock) (j : Job) : Job :=
  if j.out.isEmpty ∧ x.rowb / 64 ≤ j.col then { j with pos := j.pos + 1, col := 0 } else j

theorem writeNext_ok {mx fe inOrder : Bool} {takes : Option Leaf → Spot → Bool} {p : Nat × Vec × Option Nat}
    (hp : (if inOrder then b.out.head? else pickAccess s.tick b.out (fun q => reachBlk s w o k mx true fe takes q.1)) = some p)
    (hr : reachBlk s w o k mx true fe takes p.1 = .ok u ()) : writeNext s w o k mx fe inOrder takes b =
      .ok (onJob (writeBlk u w o k mx fe p.1 p.2.1 p.2.2) o k b.id (lessBlock p)) () := by
  simp only [writeNext, hp, hr, URes.bind]
  rfl

theorem copyStep_write {p : Nat × Vec × Option Nat} {rest : List (Nat × Vec × Option Nat)} (ho : b.out = p :: rest)
    (hr : reachBlk s w o k false true x.fe anyPlace p.1 = .ok u ()) : copyStep s o c w cl k b x =
      .ok (onJob (onJob (writeBlk u w o k false x.fe p.1 p.2.1 p.2.2) o k b.id (lessBlock p)) o k b.id (rowDone x)) () := by
  have hw := writeNext_ok (fe := x.fe) (inOrder := true) (takes := anyPlace) (b := b) (p := p) (by simp [ho]) hr
  simp only [copyStep, copyWrite, ho, hw, URes.bind, List.isEmpty_cons, Bool.not_false, if_true]
  rfl

theorem rowDone_id (x : CuBlock) (j : Job) : (rowDone x j).id = j.id := by
  unfold rowDone
  split <;> rfl

theorem rowDone_lessBlock {p : Nat × Vec × Option Nat} {rest : List (Nat × Vec × Option Nat)} (ho : b.out = p :: rest) :
    let j := rowDone x (lessBlock p b)
    j.out = rest ∧ (rest = [] → x.rowb / 64 ≤ b.col → j.pos = b.pos + 1 ∧ j.col = 0) ∧
    (rest ≠ [] ∨ b.col < x.rowb / 64 → j.pos = b.pos) := by
  have hout : (lessBlock p b).out = rest := by simp [lessBlock, ho]
  dsimp only
  have hcond : ((lessBlock p b).out.isEmpty = true ∧ x.rowb / 64 ≤ (lessBlock p b).col) ↔ rest = [] ∧ x.rowb / 64 ≤ b.col := by
    rw [hout, List.isEmpty_iff]
    rfl
  unfold rowDone
  split
  next h =>
    obtain ⟨hrest, hcol⟩ := hcond.1 h
    exact ⟨hout, fun _ _ => ⟨rfl, rfl⟩, fun hmore => absurd hcol (Nat.not_le.2 (hmore.resolve_left (absurd hrest)))⟩
  next h => exact ⟨hout, fun hrest hcol => absurd (hcond.2 ⟨hrest, hcol⟩) h, fun _ => rfl⟩

theorem jobAt_written {mx fe : Bool} {id va : Nat} {v : Vec} {d : Option Nat} {f : Job → Job} (hf : ∀ x, (f x).id = x.id)
    (h : jobAt s o k id = some b) : jobAt (onJob (writeBlk s w o k mx fe va v d) o k id f) o k id = some (f b) :=
  jobAt_onJob hf ((jobAt_congr (jobsOf_writeBlk ..) ..).trans h)

end

/-! ## How a job ends and suspends (R131, R264) -/

section
variable {s : State} {o c k : Nat} {w : Owner} {cl : Cluster} {b : Job} {unit : JUnit}

theorem jobAt_of_unitJob (h : unitJob s o cl unit = some (k, b)) : jobAt s o k b.id = some b := by
  cases unit with
  | cu => exact jobAt_of_cuJob h
  | mx =>
    unfold unitJob at h
    dsimp only at h
    split at h
    · obtain ⟨b', hb', heq⟩ := Option.map_eq_some_iff.1 h
      cases heq
      rw [jobAt_id hb']
      exact hb'
    · cases h

theorem exec_jobEnd_done (hw : owner? s o = some w) (hcl : clus? s o c = some cl) (hjob : unitJob s o cl unit = some (k, b))
    (hs : stopped s o = false) (hcarry : isCarry b = false) (hl : b.landed = true) (ha : arrivalOf b = none) :
    exec (.jobEnd o c unit) s = .next (doneJob s o k b.id) := by
  show execJobEnd o c unit s = _
  simp only [execJobEnd, hw, hcl, hjob, hs, hcarry, hl, endJob, ha, Bool.false_eq_true, if_false, if_true]

/-- A job that ends done and holds no root leaves its core's entries with its outcome. -/
theorem core?_doneJob {x : Core} (hx : core? s o k = some x) (hb : jobAt s o k b.id = some b) (hr : b.rootHeld = false) :
    ∃ x', core? (doneJob s o k b.id) o k = some x' ∧ (∀ y ∈ x'.jobs, y.id ≠ b.id) ∧
      x'.outcomes.head? = some (b.id, 1, if b.gfl && !b.orphan then some b.tid else none) := by
  have hclose : core? (closeJob s o k b.id 1) o k = some { x with
      jobs := x.jobs.filter (·.id != b.id),
      outcomes := ((b.id, 1, if b.gfl && !b.orphan then some b.tid else none) :: x.outcomes).take 256 } := by
    simp only [closeJob, hb, hr]
    split
    next hroot _ => cases hroot
    · exact (core?_onCore ..).trans (congrArg _ hx)
  refine ⟨_, (core?_onCore ..).trans (congrArg _ hclose), fun y hy => ?_, rfl⟩
  obtain ⟨z, hz, rfl⟩ := List.mem_map.1 hy
  simpa using (List.mem_filter.1 hz).2

theorem exec_jobSuspend_suspends {s' : State} {t : TrapInfo} (hw : owner? s o = some w) (hcl : clus? s o c = some cl)
    (hjob : unitJob s o cl unit = some (k, b)) (hf : jobFault s o c w cl unit k b = some (s', t)) (hc : b.cancel = false) :
    exec (.jobSuspend o c unit) s = .next (suspendJob (walksUsed s' o c (unit == .mx)) o k b.id t.cause t.va t.info) := by
  show execJobSuspend o c unit s = _
  simp only [execJobSuspend, hw, hcl, hjob, hf, hc, Bool.false_eq_true, if_false]

theorem suspendJob_eq (cause : Nat) (va info : Word) (hb : jobAt s o k b.id = some b) :
    (suspendJob s o k b.id cause va info).mem = s.mem ∧ jobAt (suspendJob s o k b.id cause va info) o k b.id = some { b with
      state := .suspended cause va info, fewait := none, col := 0, got := [], out := [] } := by
  simp only [suspendJob, hb]
  exact ⟨rfl, jobAt_onJob (s := onClus s o (k / 8) _) (fun _ => rfl) ((jobAt_onClus ..).trans hb)⟩

end

end Sys2Proof.Machine
end

section
/-!
SUPPORT. What one chunk cycle adds to the accumulators of the columns (R246, R257).
-/

namespace Sys2Proof.Machine

/-! ## The sums of a chunk cycle (R246, R257) -/

theorem zip_map_range {α β : Type} (l : List α) (g : Nat → Nat) (h : α × Nat → β) (d : α) :
    (l.zip ((List.range l.length).map g)).map h = (List.range l.length).map (fun i => h (l.getD i d, g i)) := by
  refine List.ext_getElem (by simp) fun i hi _ => ?_
  simp only [List.length_map, List.length_zip, List.length_range, Nat.min_self] at hi
  simp [hi]

/-- The entry at a place of a list of groups of sixteen. -/
theorem getElem?_flatMap_sixteen {α β : Type} (l : List α) (g : α → Nat → β) (j : Nat) :
    (l.flatMap (fun a => (List.range 16).map (g a)))[j]? = (l[j / 16]?).map (fun a => g a (j % 16)) := by
  induction l generalizing j with
  | nil => simp
  | cons a l ih =>
    rw [List.flatMap_cons]
    by_cases hj : j < 16
    · have hdiv : j / 16 = 0 := by omega
      have hmod : j % 16 = j := by omega
      rw [List.getElem?_append_left (by simpa using hj), hdiv, hmod]
      simp [hj]
    · obtain ⟨i, rfl⟩ : ∃ i, j = i + 16 := ⟨j - 16, by omega⟩
      have hdiv : (i + 16) / 16 = i / 16 + 1 := by omega
      have hmod : (i + 16) % 16 = i % 16 := by omega
      rw [List.getElem?_append_right (by simp), hdiv, hmod]
      simp [ih]

section
variable {s : State} {o c : Nat} {r : ERun} {b : Job} {x : MxBlock}

theorem startRow_eq (r : ERun) (x : MxBlock) (bs : List (Vec × Nat)) :
    ∃ acc gains, startRow r x bs = { r with acc := acc, gains := gains } := by
  unfold startRow
  dsimp only
  split
  · exact ⟨_, _, rfl⟩
  · split
    · exact ⟨_, _, rfl⟩
    · split <;> exact ⟨_, _, rfl⟩

/-- The first accumulator of a column: its X value where X gives the first accumulators, else zero (R257, R258). -/
def firstAcc (x : MxBlock) (bs : List (Vec × Nat)) (j : Nat) : BitVec 32 :=
  if x.mode = 1 then BitVec.ofNat 32 (velem 32 (j % 16) (bs.getD (j / 16) (0, 0)).1) else 0

theorem xAddrs_length (hck : r.ck = 0) (hmode : x.mode ≠ 0) : (xAddrs r x).length = (x.n + 15) / 16 := by
  simp only [xAddrs, hck, hmode, blocksFrom, MxBlock.xRow, ne_eq, not_false_eq_true, and_self, if_true, List.length_map,
    List.length_range]
  omega

/-- The accumulators that a chunk cycle starts from. -/
theorem startRow_acc {bs : List (Vec × Nat)} (hlen : (xAddrs r x).length ≤ bs.length) (hacc : r.ck ≠ 0 → r.acc.length = x.n) :
    (startRow r x (bs.take (xAddrs r x).length)).acc =
      (List.range x.n).map (fun j => if r.ck = 0 then firstAcc x bs j else r.acc.getD j 0) := by
  by_cases hck : r.ck = 0
  · have hzero (hmode : x.mode ≠ 1) : List.replicate x.n (0 : BitVec 32) = (List.range x.n).map (firstAcc x bs) := by
      refine List.ext_getElem (by simp) fun j _ _ => ?_
      simp [firstAcc, hmode]
    simp only [hck, if_true]
    unfold startRow
    simp only [hck, ne_eq, not_true, if_false]
    split_ifs with h0 h1
    · exact hzero (by omega)
    · have hn := xAddrs_length hck h0
      rw [hn] at hlen ⊢
      have hget (j : Nat) (hj : j < x.n) : ((bs.take ((x.n + 15) / 16)).flatMap
          (fun b => (List.range 16).map (fun i => BitVec.ofNat 32 (velem 32 i b.1))))[j]? = some (firstAcc x bs j) := by
        have hin : j / 16 < (x.n + 15) / 16 := by omega
        have hbs : j / 16 < bs.length := by omega
        rw [getElem?_flatMap_sixteen, List.getElem?_take_of_lt hin, List.getElem?_eq_getElem hbs]
        simp [firstAcc, h1, hbs]
      refine List.ext_getElem? fun j => ?_
      rw [List.getElem?_take]
      split_ifs with hj
      · rw [hget j hj]
        simp [hj]
      · simp [hj]
    · exact hzero h1
  · simp only [hck, if_false]
    unfold startRow
    rw [if_pos hck]
    refine List.ext_getElem (by simpa using hacc hck) fun j hj _ => ?_
    simp [hj]

/-- Which element of a column's chunk element i of A meets: itself, or in 2:4 the one that its index names (R262). -/
def metBy (x : MxBlock) (bs : List (Vec × Nat)) (m i : Nat) : Nat :=
  if x.sp24 = true then 4 * (i / 2) + velem 2 (i % 256) (bs.getD (m + i / 256) (0, 0)).1 else i

/-- The products of a chunk's elements with those that they meet. -/
def prodsOf (av bv : List FVal) (met : Nat → Nat) : List (Option FVal) :=
  (List.range av.length).map (fun i => mulV (av.getD i (.fin false 0 0)) (bv.getD (met i) (.fin false 0 0)))

/-- The chunk sum of a column. -/
def colSum (s : State) (o c : Nat) (x : MxBlock) (ftz : Bool) (av : List FVal) (met : Nat → Nat) (j ck : Nat) : Nat :=
  let ps := prodsOf av (decodeEls ftz (bBlocks s o c x j ck)) met
  chunkSum ftz (if x.sp24 = true then some (.fin false 0 0) :: ps else ps)

theorem selected_eq (bs : List (Vec × Nat)) (m n : Nat) (h : x.sp24 = true) :
    selected ((bs.drop m).map (·.1)) n = (List.range n).map (metBy x bs m) := by
  refine List.map_congr_left fun i _ => ?_
  have hget : ((bs.drop m).map (·.1)).getD (i / 256) 0 = (bs.getD (m + i / 256) (0, 0)).1 := by
    simp only [List.getD_eq_getElem?_getD, List.getElem?_map, List.getElem?_drop]
    cases bs[m + i / 256]? <;> rfl
  rw [metBy, if_pos h, hget]

/-- A chunk cycle adds to each column's accumulator the sum of its products (R257). -/
theorem chunkAccs_eq (ftz : Bool) (a bs : List (Vec × Nat)) (ck : Nat) (first : Nat → BitVec 32) (m : Nat) :
    chunkAccs s o c x ftz a ((bs.drop m).map (·.1)) ck ((List.range x.n).map first) = (List.range x.n).map (fun j =>
      BitVec.ofNat 32 (accStep ftz (first j).toNat (colSum s o c x ftz (decodeEls ftz a) (metBy x bs m) j ck))) := by
  have hsel : (if x.sp24 = true then selected ((bs.drop m).map (·.1)) (decodeEls ftz a).length
      else List.range (decodeEls ftz a).length) = (List.range (decodeEls ftz a).length).map (metBy x bs m) := by
    split_ifs with hsp
    · exact selected_eq bs m _ hsp
    · have hid : metBy x bs m = id := funext fun i => if_neg hsp
      rw [hid, List.map_id]
  have hprods (j : Nat) : ((decodeEls ftz a).zip ((List.range (decodeEls ftz a).length).map (metBy x bs m))).map (fun q =>
      mulV q.1 ((decodeEls ftz (bBlocks s o c x j ck)).toArray.getD q.2 (.fin false 0 0))) =
      prodsOf (decodeEls ftz a) (decodeEls ftz (bBlocks s o c x j ck)) (metBy x bs m) := by
    rw [zip_map_range _ _ _ (.fin false 0 0)]
    simp [prodsOf]
  unfold chunkAccs
  dsimp only
  rw [hsel]
  refine List.ext_getElem (by simp) fun j _ _ => ?_
  simp only [List.getElem_map, List.getElem_zipIdx, List.getElem_range, Nat.zero_add, hprods]
  rfl

end

end Sys2Proof.Machine
end

section
/-!
SUPPORT. A chunk cycle of a matrix engine, from the blocks it reads to the commit of its chunk (R203, R256 to R258, R263, R264).
-/

namespace Sys2Proof.Machine

/-! ## The blocks that a unit has read (R203, R256) -/

theorem length_of_mapM {α β : Type} {f : α → Option β} {l : List α} {bs : List β} (h : l.mapM f = some bs) :
    bs.length = l.length := by
  induction l generalizing bs with
  | nil => cases h; rfl
  | cons a l ih =>
    rw [List.mapM_cons] at h
    obtain ⟨y, -, h⟩ := Option.bind_eq_some_iff.1 h
    obtain ⟨ys, hys, h⟩ := Option.bind_eq_some_iff.1 h
    cases h
    exact congrArg (· + 1) (ih hys)

theorem gotAll_length {b : Job} {need : List Nat} {bs : List (Vec × Nat)} (h : gotAll b need = some bs) :
    bs.length = need.length :=
  (length_of_mapM h).trans (List.length_range ..)

section
variable {s u : State} {w : Owner} {o k : Nat} {mx fe : Bool} {b : Job}

theorem readNext_ok {need : List Nat} {chk : Nat → Vec × Nat → Option TrapInfo} {p : Nat × Nat} {q : Vec × Nat}
    (hp : pickAccess s.tick (need.zipIdx.filter (fun p => (lookup b.got p.2).isNone)) (fun p => readBlk s w o k mx fe p.1) = some p)
    (hr : readBlk s w o k mx fe p.1 = .ok u q) (hc : chk p.2 q = none) :
    readNext s w o k mx fe b need chk = .ok (onJob u o k b.id (fun b => { b with got := put b.got p.2 q })) () := by
  simp only [readNext, hp, hr, hc, URes.bind]

end

/-! ## A chunk cycle and its run (R257) -/

section
variable {s u : State} {o c : Nat} {w : Owner} {cl : Cluster} {r r' : ERun} {b : Job} {x : MxBlock} {bs : List (Vec × Nat)}

/-- The accumulators after a chunk cycle. -/
def newAccs (s : State) (o c : Nat) (r : ERun) (b : Job) (x : MxBlock) (bs : List (Vec × Nat)) : List (BitVec 32) :=
  let nx := (xAddrs r x).length
  let na := (aAddrs r x).length
  (List.range x.n).map (fun j => BitVec.ofNat 32 (accStep b.ftz
    (if r.ck = 0 then firstAcc x bs j else r.acc.getD j 0).toNat
    (colSum s o c x b.ftz (decodeEls b.ftz ((bs.drop nx).take na)) (metBy x bs (nx + na)) j r.ck)))

/-- The run after a chunk cycle: the next one of its row, or of the next row. -/
theorem sumChunk_eq (hlen : (xAddrs r x).length ≤ bs.length) (hacc : r.ck ≠ 0 → r.acc.length = x.n) : ∃ gains,
    sumChunk s o c r b x bs =
      if r.ck + 1 < x.kc then { r with acc := newAccs s o c r b x bs, ck := r.ck + 1, gains := gains }
      else { r with acc := newAccs s o c r b x bs, ck := 0, row := r.row + 1, rows := r.rows ++ [newAccs s o c r b x bs],
                    gains := gains } := by
  have hstart := startRow_acc hlen hacc
  obtain ⟨acc, gains, hrow⟩ := startRow_eq r x (bs.take (xAddrs r x).length)
  rw [hrow] at hstart
  have haccs : chunkAccs s o c x b.ftz ((bs.drop (xAddrs r x).length).take (aAddrs r x).length)
      ((bs.drop ((xAddrs r x).length + (aAddrs r x).length)).map (·.1)) r.ck acc = newAccs s o c r b x bs :=
    (congrArg _ hstart).trans (chunkAccs_eq ..)
  refine ⟨gains, ?_⟩
  unfold sumChunk
  dsimp only
  rw [hrow, haccs]

theorem sumChunk_spec (hlen : (xAddrs r x).length ≤ bs.length) (hacc : r.ck ≠ 0 → r.acc.length = x.n) :
    let r' := sumChunk s o c r b x bs
    let new := newAccs s o c r b x bs
    (r'.k = r.k ∧ r'.id = r.id) ∧ (r.ck + 1 < x.kc → r'.acc = new ∧ r'.ck = r.ck + 1 ∧ r'.row = r.row ∧ r'.rows = r.rows) ∧
    (x.kc ≤ r.ck + 1 → r'.ck = 0 ∧ r'.row = r.row + 1 ∧ r'.rows = r.rows ++ [new]) := by
  obtain ⟨gains, hsum⟩ := sumChunk_eq (s := s) (o := o) (c := c) (b := b) hlen hacc
  dsimp only
  rw [hsum]
  split_ifs with hck
  · exact ⟨⟨rfl, rfl⟩, fun _ => ⟨rfl, rfl, rfl, rfl⟩, fun h => absurd hck (by omega)⟩
  · exact ⟨⟨rfl, rfl⟩, fun h => absurd h hck, fun _ => ⟨rfl, rfl, rfl⟩⟩

theorem xAddrs_le_cycleNeeds (hg : gotAll b (cycleNeeds r x) = some bs) : (xAddrs r x).length ≤ bs.length := by
  rw [gotAll_length hg]
  simp only [cycleNeeds, List.length_append]
  omega

theorem nextChunk_taken (hg : gotAll b (cycleNeeds r x) = some bs) (hf : ∀ col < x.n, bFault s o c x col r.ck = none) :
    nextChunk s w o c r b x = .ok s (sumChunk s o c r b x bs) := by
  have hnone : (List.range x.n).filterMap (fun col => bFault s o c x col r.ck) = [] :=
    List.filterMap_eq_nil_iff.2 fun col hcol => hf col (List.mem_range.1 hcol)
  simp only [nextChunk, hg, hnone, List.head?_nil]

theorem nextChunk_read {p : Nat × Nat} {q : Vec × Nat} (hg : gotAll b (cycleNeeds r x) = none)
    (hp : pickAccess s.tick ((cycleNeeds r x).zipIdx.filter (fun p => (lookup b.got p.2).isNone))
      (fun p => readBlk s w o r.k true x.fe p.1) = some p)
    (hr : readBlk s w o r.k true x.fe p.1 = .ok u q) (hc : cycleChk r x p.2 q = none) :
    nextChunk s w o c r b x = .ok (onJob u o r.k b.id (fun b => { b with got := put b.got p.2 q })) { r with fe := r.fe || x.fe } := by
  simp only [nextChunk, hg, readNext_ok hp hr hc, URes.bind]

theorem runOf_spec (hcl : clus? s o c = some cl) (h : runOf s o c = some (r, b, x)) :
    cl.mx = some r ∧ jobAt s o r.k r.id = some b := by
  simp only [runOf, hcl] at h
  split at h
  · cases h
  next r' hr =>
    split at h
    next b' hb =>
      split at h
      · cases h
        exact ⟨hr, hb⟩
      · cases h
    · cases h

theorem exec_engineChunkCycle (hw : owner? s o = some w) (hcl : clus? s o c = some cl) (hrun : runOf s o c = some (r, b, x))
    (hready : chunkReady s o c r b x = true) : exec (.engineChunkCycle o c) s = .next (engineCycle s o c w r b x) := by
  show execEngineChunkCycle o c s = _
  simp only [execEngineChunkCycle, hw, hcl, hrun, hready, if_true]

theorem engineCycle_held (hbud : budgetUsed s o c = true) : engineCycle s o c w r b x = heldCycles s o c 1 := by
  simp only [engineCycle, hbud, if_true]

theorem engineCycle_read (hbud : budgetUsed s o c = false) (hg : gotAll b (cycleNeeds r x) = none)
    (hn : nextChunk s w o c r b x = .ok u r') : engineCycle s o c w r b x =
      onJob (setRun (walksUsed u o c true) o c r') o r.k r.id (fun b => { b with fewait := none }) := by
  simp only [engineCycle, hbud, hn, hg, Option.isSome_none, Bool.false_eq_true, if_false]

theorem engineCycle_taken (hbud : budgetUsed s o c = false) (hg : gotAll b (cycleNeeds r x) = some bs)
    (hn : nextChunk s w o c r b x = .ok u r') : engineCycle s o c w r b x = takeCycle u o c r r' b x := by
  simp only [engineCycle, hbud, hn, hg, Option.isSome_some, Bool.false_eq_true, if_false, if_true]

end

/-! ## Memory, the clusters and the engines while jobs change -/

/-- Memory, the clusters and the engines. -/
def boardOf (s : State) : Memory × SMap Cluster × SMap Engine := (s.mem, s.clusters, s.engines)

@[simp] theorem boardOf_onJob (s : State) (o k id : Nat) (f : Job → Job) : boardOf (onJob s o k id f) = boardOf s := rfl

@[simp] theorem boardOf_releaseGate (s : State) (o k id : Nat) (ended : Bool) : boardOf (releaseGate s o k id ended) = boardOf s :=
  rfl

theorem clus?_congr {s u : State} (h : boardOf u = boardOf s) (o c : Nat) : clus? u o c = clus? s o c :=
  congrArg (fun m : Memory × SMap Cluster × SMap Engine => lookup m.2.1 (clusKey o c)) h

theorem engineAt_congr {s u : State} (h : boardOf u = boardOf s) (p : Place) : engineAt u p = engineAt s p :=
  congrArg (fun m : Memory × SMap Cluster × SMap Engine => getD Engine.idle m.2.2 (posKey p.die p.col)) h

theorem clus?_onEngine (s : State) (p : Place) (f : Engine → Engine) (o c : Nat) : clus? (onEngine s p f) o c = clus? s o c := rfl

theorem engineAt_onClus (s : State) (o c : Nat) (f : Cluster → Cluster) (p : Place) : engineAt (onClus s o c f) p = engineAt s p :=
  rfl

/-! ## What an engine cycle leaves (R87, R203) -/

theorem heldCycles_spec {s : State} {o c : Nat} {cl : Cluster} (hcl : clus? s o c = some cl) (n : Nat) :
    let u := heldCycles s o c n
    u.mem = s.mem ∧ clus? u o c = some { cl with stall := (cl.stall + n) % 2 ^ 48 } ∧
    engineAt u (clusPlace s o c) = { engineAt s (clusPlace s o c) with winCyc := cyclesGone s (clusPlace s o c) + n } := by
  refine ⟨rfl, ?_, ?_⟩
  · exact (clus?_onEngine ..).trans ((clus?_onClus ..).trans (congrArg _ hcl))
  · exact engineAt_onEngine ..

theorem readCycle_spec {u : State} {o c : Nat} {b : Job} {r : ERun} (i : Nat) (q : Vec × Nat) (r' : ERun)
    (hu : jobAt u o r.k r.id = some b) : let u' := onJob (setRun (walksUsed (onJob u o r.k r.id
        (fun b => { b with got := put b.got i q })) o c true) o c r') o r.k r.id (fun b => { b with fewait := none })
    u'.mem = u.mem ∧ ∃ b', jobAt u' o r.k r.id = some b' ∧ lookup b'.got i = some q ∧ b'.pos = b.pos := by
  have hread := jobAt_onJob (f := fun b => { b with got := put b.got i q }) (fun _ => rfl) hu
  refine ⟨?_, _, jobAt_onJob (fun _ => rfl) ((jobAt_setRun ..).trans ((jobAt_walksUsed ..).trans hread)),
    lookup_put_self _ _ _, rfl⟩
  rw [onJob_mem, setRun_mem, walksUsed_mem, onJob_mem]

/-! ## What a chunk cycle leaves (R257, R258, R264) -/

section
variable {s : State} {o c : Nat} {cl : Cluster} {r r' : ERun} {b : Job} {x : MxBlock}

/-- The blocks that a chunk with no scan writes. -/
def outsOf (o c : Nat) (cl : Cluster) (r : ERun) (b : Job) (x : MxBlock) : List (Nat × Vec × Option Nat) :=
  ((cAddrs x b.pos r.rows.length).zip (r.rows.zipIdx.flatMap
    (fun p => outRow o c x b.rm b.ftz (cl.ditherMx + p.2 * x.n) p.1))).map (fun p => (p.1, p.2, some (x.cfmt * 4096 + x.cscale)))

/-- The outputs of a chunk stand in its job; its run takes what the commit gives, and no engine changes. -/
theorem formOutputs_spec (hcl : clus? s o c = some cl) (hb : jobAt s o r.k r.id = some b) (b0 : Job) :
    ∃ cl' cnew gfl outs, let u := formOutputs s o c r b0 x
    u.mem = s.mem ∧ clus? u o c = some cl' ∧ cl'.mx = some { r with cnew := cnew, gfl := gfl } ∧ cl'.carry = cl.carry ∧
    jobAt u o r.k r.id = some { b with out := outs } ∧ (∀ p, engineAt u p = engineAt s p) ∧
    (x.mode ≠ 2 → outs = outsOf o c cl r b0 x) := by
  simp only [formOutputs, hcl]
  refine ⟨_, _, _, _, rfl, (clus?_onClus ..).trans (congrArg _ hcl), rfl, rfl,
    jobAt_onJob (fun _ => rfl) ((jobAt_onClus ..).trans hb), fun _ => rfl, fun hmode => ?_⟩
  simp only [hmode, if_false]
  rfl

/-- The chunk cycle is counted and the run goes on, before any output is formed. -/
def cycled (s : State) (o c : Nat) (r r' : ERun) (x : MxBlock) : State :=
  let p := clusPlace s o c
  let n := cyclesGone s p + 1
  let s := onEngine (walksUsed s o c true) p (fun e => { e with used := e.used + 1, winCyc := n })
  let s := onJob (setRun s o c r') o r.k r.id (fun b => { b with fewait := none, got := [], spec := Nat.max b.spec (r.row + 1) })
  if r.row + 1 = x.m ∧ r.ck + 1 = x.kc ∧ x.opc then
    releaseGate (onJob s o r.k r.id (fun b => { b with opc := true })) o r.k r.id false
  else s

theorem takeCycle_eq (s : State) (o c : Nat) (r r' : ERun) (b : Job) (x : MxBlock) :
    takeCycle s o c r r' b x = if chunkFull r' x b then formOutputs (cycled s o c r r' x) o c r' b x
      else cycled s o c r r' x := rfl

theorem boardOf_cycled (s : State) (o c : Nat) (r r' : ERun) (x : MxBlock) :
    boardOf (cycled s o c r r' x) = boardOf (setRun (onEngine (walksUsed s o c true) (clusPlace s o c)
      (fun e => { e with used := e.used + 1, winCyc := cyclesGone s (clusPlace s o c) + 1 })) o c r') := by
  unfold cycled
  dsimp only
  split
  · rw [boardOf_releaseGate, boardOf_onJob, boardOf_onJob]
  · rw [boardOf_onJob]

theorem clus?_cycled (hcl : clus? s o c = some cl) :
    clus? (cycled s o c r r' x) o c = some { cl with outMx := [], mx := some r' } := by
  rw [clus?_congr (boardOf_cycled s o c r r' x), setRun, clus?_onClus, clus?_onEngine, walksUsed, clus?_onClus, hcl]
  rfl

theorem engineAt_cycled (s : State) (o c : Nat) (r r' : ERun) (x : MxBlock) :
    engineAt (cycled s o c r r' x) (clusPlace s o c) = { engineAt s (clusPlace s o c) with
      used := (engineAt s (clusPlace s o c)).used + 1, winCyc := cyclesGone s (clusPlace s o c) + 1 } := by
  rw [engineAt_congr (boardOf_cycled s o c r r' x), setRun, engineAt_onClus, engineAt_onEngine, walksUsed, engineAt_onClus]

theorem jobAt_cycled (hb : jobAt s o r.k r.id = some b) :
    ∃ b', jobAt (cycled s o c r r' x) o r.k r.id = some b' ∧ b'.pos = b.pos ∧ b'.got = [] := by
  have hjob : jobAt (setRun (onEngine (walksUsed s o c true) (clusPlace s o c)
      (fun e => { e with used := e.used + 1, winCyc := cyclesGone s (clusPlace s o c) + 1 })) o c r') o r.k r.id = some b :=
    (jobAt_setRun ..).trans ((jobAt_onEngine ..).trans ((jobAt_walksUsed ..).trans hb))
  unfold cycled
  dsimp only
  split
  · exact ⟨_, jobAt_releaseGate _ _ (jobAt_onJob (fun _ => rfl) (jobAt_onJob (fun _ => rfl) hjob)), rfl, rfl⟩
  · exact ⟨_, jobAt_onJob (fun _ => rfl) hjob, rfl, rfl⟩

/-- What a chunk cycle leaves: the run after it, and with the last row of its chunk the outputs. -/
theorem takeCycle_spec (hcl : clus? s o c = some cl) (hb : jobAt s o r.k r.id = some b) (hk : r'.k = r.k) (hid : r'.id = r.id) :
    ∃ cl' cnew gfl b', let u := takeCycle s o c r r' b x
    u.mem = s.mem ∧ clus? u o c = some cl' ∧ cl'.mx = some { r' with cnew := cnew, gfl := gfl } ∧ cl'.carry = cl.carry ∧
    jobAt u o r.k r.id = some b' ∧ b'.pos = b.pos ∧ b'.got = [] ∧
    engineAt u (clusPlace s o c) = { engineAt s (clusPlace s o c) with
      used := (engineAt s (clusPlace s o c)).used + 1, winCyc := cyclesGone s (clusPlace s o c) + 1 } ∧
    (chunkFull r' x b = true → x.mode ≠ 2 → b'.out = outsOf o c cl r' b x) := by
  have hmem : (cycled s o c r r' x).mem = s.mem := congrArg (·.1) (boardOf_cycled s o c r r' x)
  have hclus := clus?_cycled (r := r) (r' := r') (x := x) hcl
  have heng := engineAt_cycled s o c r r' x
  obtain ⟨b3, hb3, hpos, hgot⟩ := jobAt_cycled (c := c) (r' := r') (x := x) hb
  rw [takeCycle_eq]
  cases hfull : chunkFull r' x b with
  | false =>
    exact ⟨_, r'.cnew, r'.gfl, b3, hmem, hclus, rfl, rfl, hb3, hpos, hgot, heng, fun h => nomatch h⟩
  | true =>
    rw [← hk, ← hid] at hb3 ⊢
    obtain ⟨cl', cnew, gfl, outs, hm, hcl', hmx, hcarry, hjob, he, houts⟩ := formOutputs_spec (x := x) hclus hb3 b
    exact ⟨cl', cnew, gfl, _, hm.trans hmem, hcl', hmx, hcarry, hjob, hpos, hgot, (he _).trans heng, fun _ hmode => houts hmode⟩

theorem outsOf_append {new : List (BitVec 32)} (hrows : r'.rows = r.rows ++ [new]) : outsOf o c cl r' b x =
    ((cAddrs x b.pos (r.rows.length + 1)).zip ((r.rows ++ [new]).zipIdx.flatMap
      (fun p => outRow o c x b.rm b.ftz (cl.ditherMx + p.2 * x.n) p.1))).map (fun p => (p.1, p.2, some (x.cfmt * 4096 + x.cscale))) := by
  rw [outsOf, hrows, List.length_append]
  rfl

theorem chunkFull_append {new : List (BitVec 32)} (hrows : r'.rows = r.rows ++ [new])
    (hlast : r.rows.length + 1 = chunkLen x b) : chunkFull r' x b = true := by
  rw [chunkFull, hrows, List.length_append, ← hlast]
  exact beq_self_eq_true _

end

/-! ## The commit of a chunk (R263) -/

section
variable {s u : State} {o c : Nat} {w : Owner} {r : ERun} {b : Job} {x : MxBlock} {p : Nat × Vec × Option Nat}

theorem exec_chunkCommit (hw : owner? s o = some w) (hrun : runOf s o c = some (r, b, x)) (hwr : writesC s o r b x = true)
    (hn : writeNext s w o r.k true x.fe false anyPlace b = .ok u ()) : exec (.chunkCommit o c) s = .next
      (if b.out.length ≤ 1 then
        commitChunk (onJob (walksUsed u o c true) o r.k r.id (fun b => { b with fewait := none })) o c r b
      else onJob (walksUsed u o c true) o r.k r.id (fun b => { b with fewait := none })) := by
  show execChunkCommit o c s = _
  simp only [execChunkCommit, hw, hrun, hwr, hn, Bool.not_true, Bool.false_eq_true, if_false]

theorem commitChunk_spec {b1 : Job} (hcancel : b.cancel = false) (hb : jobAt s o r.k r.id = some b1) :
    (commitChunk s o c r b).mem = s.mem ∧ jobAt (commitChunk s o c r b) o r.k r.id =
      some { b1 with pos := b1.pos + r.rows.length, gfl := b1.gfl || r.gfl } := by
  simp only [commitChunk, hcancel, Bool.false_eq_true, if_false]
  exact ⟨rfl, jobAt_onJob (fun _ => rfl) ((jobAt_onClus ..).trans hb)⟩

/-- What the write of a block leaves, and with the last block of its chunk the commit. -/
theorem chunkCommit_spec {b1 : Job} (hw : owner? s o = some w) (hrun : runOf s o c = some (r, b, x))
    (hwr : writesC s o r b x = true) (hn : writeNext s w o r.k true x.fe false anyPlace b = .ok u ()) (hcancel : b.cancel = false)
    (hu : jobAt u o r.k r.id = some b1) : ∃ u' b', exec (.chunkCommit o c) s = .next u' ∧ u'.mem = u.mem ∧
      jobAt u' o r.k r.id = some b' ∧ b'.out = b1.out ∧
      (2 ≤ b.out.length → b'.pos = b1.pos ∧ b'.gfl = b1.gfl) ∧
      (b.out.length ≤ 1 → b'.pos = b1.pos + r.rows.length ∧ b'.gfl = (b1.gfl || r.gfl)) := by
  have hexec := exec_chunkCommit hw hrun hwr hn
  have hjob := jobAt_onJob (f := fun b => { b with fewait := none }) (fun _ => rfl)
    ((jobAt_walksUsed u o c true o r.k r.id).trans hu)
  by_cases hlast : b.out.length ≤ 1
  · rw [if_pos hlast] at hexec
    obtain ⟨hmem, hcommit⟩ := commitChunk_spec (c := c) hcancel hjob
    exact ⟨_, _, hexec, hmem.trans ((onJob_mem ..).trans (walksUsed_mem ..)), hcommit, rfl, fun h => by omega, fun _ => ⟨rfl, rfl⟩⟩
  · rw [if_neg hlast] at hexec
    exact ⟨_, _, hexec, (onJob_mem ..).trans (walksUsed_mem ..), hjob, rfl, fun _ => ⟨rfl, rfl⟩, fun h => absurd h hlast⟩

end

end Sys2Proof.Machine
end

section
namespace Sys2Proof
open Sys2Proof.Machine

/-- Settles O59: the sums and the blocks by themselves, then for each event what its step answers where it is done, and the job
and its unit read back from that state. -/
theorem jobEvents : Obligations.JobEvents := by
  unfold Obligations.JobEvents
  refine ⟨chunkSums, unitBlocks, fun _ _ _ _ => pickAccess_mem, fun _ _ _ _ _ _ _ _ _ _ _ => convOuts_get,
    fun s o c w cl hw hcl => ⟨?startMx, ?startCu, ?engine, ?fill, ?copy, ?ends, ?suspends⟩⟩
  case startMx =>
    intro j b hs hmx hn
    obtain ⟨b0, hb0⟩ := jobAt_of_nextJob hn
    obtain ⟨cl', hmem, hcl', hptr, hrun, hjob⟩ := startMx_spec hcl hb0
    exact ⟨_, cl', _, exec_jobStart_mx hw hcl hs hmx hn, hmem, hcl', hptr, hrun, hjob, rfl, rfl⟩
  case startCu =>
    intro j b hs hcu hn hkind
    obtain ⟨b0, hb0⟩ := jobAt_of_nextJob hn
    obtain ⟨hmem, hcl', hjob⟩ := startCu_spec (w := w) hcl hb0 hkind
    exact ⟨_, _, _, exec_jobStart_cu hw hcl hs hcu hn, hmem, hcl', rfl, rfl, hjob, rfl⟩
  case engine =>
    intro r b x hrun pl nx na
    obtain ⟨hmx, hjob⟩ := runOf_spec hcl hrun
    refine ⟨fun hready hbud => ?held, fun hready hbud hg p u q hp hr hchk hu => ?read, fun hready hbud hacc bs hg hf => ?taken,
      fun hwr hcancel p u hp hr hu => ?commit⟩
    case held =>
      obtain ⟨hmem, hcl', heng⟩ := heldCycles_spec hcl 1
      have hexec := exec_engineChunkCycle hw hcl hrun hready
      rw [engineCycle_held hbud] at hexec
      exact ⟨_, hexec, hmem, hcl', heng⟩
    case read =>
      have hexec := exec_engineChunkCycle hw hcl hrun hready
      rw [engineCycle_read hbud hg (nextChunk_read hg hp hr hchk), jobAt_id hjob] at hexec
      obtain ⟨hmem, b', hb', hgot, hpos⟩ := readCycle_spec (c := c) p.2 q { r with fe := r.fe || x.fe } hu
      exact ⟨_, b', hexec, hmem, hb', hgot, hpos⟩
    case taken =>
      have hexec := exec_engineChunkCycle hw hcl hrun hready
      rw [engineCycle_taken hbud hg (nextChunk_taken hg hf)] at hexec
      obtain ⟨⟨hk, hid⟩, hnext, hlast⟩ := sumChunk_spec (s := s) (o := o) (c := c) (b := b) (xAddrs_le_cycleNeeds hg) hacc
      obtain ⟨cl', cnew, gfl, b', hmem, hcl', hmx', hcarry, hb', hpos, hgot, heng, hout⟩ := takeCycle_spec (x := x) hcl hjob hk hid
      refine ⟨_, cl', _, b', hexec, hmem, hcl', hmx', hcarry, hb', hpos, hgot, heng, hnext, fun hkc => ?_⟩
      obtain ⟨hck, hrow, hrows⟩ := hlast hkc
      exact ⟨hck, hrow, hrows, fun hn hmode => (hout (chunkFull_append hrows hn) hmode).trans (outsOf_append hrows)⟩
    case commit =>
      have hn := writeNext_ok (fe := x.fe) (inOrder := false) (takes := anyPlace) hp hr
      rw [jobAt_id hjob] at hn
      obtain ⟨u', b', hexec, hmem, hb', hout, hmore, hlast⟩ := chunkCommit_spec hw hrun hwr hn hcancel (jobAt_written (fun _ => rfl) hu)
      exact ⟨u', b', hexec, hb', hmem, hout, hmore, fun h => hlast h.le⟩
  case fill =>
    intro k b va n desc pat u hcu hkind hs hl hv hr hu
    obtain ⟨u', hexec, hmem, hjob⟩ := exec_copyBlock_ok hw hcl hcu hs hl hv (nextBlock_fill hkind hr)
      (jobAt_written (fun _ => rfl) hu)
    exact ⟨u', _, hexec, hmem, hjob, rfl⟩
  case copy =>
    intro k b blk hcu hkind hs hl hv x per src dst
    have hexec {u : State} {b1 : Job} (hstep : copyStep s o c w cl k b x = .ok u ()) (hu : jobAt u o k b.id = some b1) :=
      exec_copyBlock_ok hw hcl hcu hs hl hv ((nextBlock_copy hkind).trans hstep) hu
    refine ⟨fun hout hconv u q hr hu => ?read, fun hout hconv bs hg => ?convert, fun p rest u hout hr hu => ?write⟩
    case read =>
      obtain ⟨u', hx, hmem, hjob⟩ := hexec (copyStep_read hout hconv hr) (jobAt_onJob (fun _ => rfl) hu)
      exact ⟨u', _, hx, hmem, hjob, rfl, rfl, rfl⟩
    case convert =>
      have hb := (jobAt_congr (congrArg (·.2.2) (heldOf_convDrawn s o c b bs)) ..).trans (jobAt_of_cuJob hcu)
      obtain ⟨u', hx, hmem, hjob⟩ := hexec (copyStep_convert hout hconv hg) (jobAt_onJob (fun _ => rfl) hb)
      exact ⟨u', _, hx, hmem.trans (congrArg (·.1) (heldOf_convDrawn s o c b bs)), hjob, rfl, rfl, rfl⟩
    case write =>
      obtain ⟨u', hx, hmem, hjob⟩ := hexec (copyStep_write hout hr) (jobAt_onJob (rowDone_id x) (jobAt_written (fun _ => rfl) hu))
      obtain ⟨hleft, hdone, hgoes⟩ := rowDone_lessBlock (x := x) hout
      exact ⟨u', _, hx, hmem, hjob, hleft, hdone, hgoes⟩
  case ends =>
    intro unit k b x hjob hx hs hcarry hl ha hr
    obtain ⟨x', hx', hgone, hout⟩ := core?_doneJob hx (jobAt_of_unitJob hjob) hr
    refine ⟨_, x', exec_jobEnd_done hw hcl hjob hs hcarry hl ha, hx', hgone, hout.trans ?_⟩
    simp
  case suspends =>
    intro unit k b s' t hjob hf hcancel hb
    obtain ⟨hmem, hj⟩ := suspendJob_eq t.cause t.va t.info ((jobAt_walksUsed s' o c (unit == .mx) ..).trans hb)
    exact ⟨_, _, exec_jobSuspend_suspends hw hcl hjob hf hcancel, hmem, hj, rfl, rfl⟩

end Sys2Proof
end

section
/-!
SUPPORT. What taking an exception writes, and what each return from one makes of the thread (R120, R123, R124, R126).
-/

namespace Sys2Proof.Machine

/-- A thread that has trapped, with its record and the bits of its bundle's length. -/
def trappedThread (w : Owner) (t : Thread) (ti : TrapInfo) (pc : Word) (len : Option Nat) (async vh : Bool) : Thread :=
  { t with
    status := .trapped, kept := some ⟨recordOf w t ti pc async vh, len, ti.item⟩, pend := none, wcount := none, walks := [],
    turn := none, got := [] }

/-- A trap that no item is bound to writes two records and nothing else, its thread's and its owner's. -/
theorem takeTrap_eq {s : State} {o tid : Nat} {ti : TrapInfo} {w : Owner} {t : Thread} (hw : owner? s o = some w)
    (ht : thr? s o tid = some t) (hitem : ti.item = .none) (pc : Word) (len : Option Nat) (async vh : Bool) :
    takeTrap s o tid ti pc len async vh = { s with
      owners := put s.owners o { w with trapSeq := w.trapSeq + 1 }
      threads := put s.threads (thrKey o tid) (trappedThread w t ti pc len async vh) } := by
  simp only [takeTrap, raiseGfl, hitem, hw, ht, trappedThread]

section
variable {t : Thread} {k : Kept}

theorem returnReplay_eq (hk : t.kept = some k) : returnReplay t = { t with
    status := .ready, kept := none, pc := k.trap.pc, replPc := k.trap.pc, replCause := k.trap.cause,
    replN := replays t k.trap.pc k.trap.cause + 1 } := by
  simp only [returnReplay, hk]

theorem returnSkip_eq (hk : t.kept = some k) : returnSkip t = { t with
    status := .ready, kept := none, replN := 0,
    pc := if k.trap.async then k.trap.pc else k.trap.pc + BitVec.ofNat 64 (skipBytes (k.len.getD 0)),
    inW := if k.trap.async then t.inW else none } := by
  simp only [returnSkip, hk]

theorem returnSkip_pc_async (hk : t.kept = some k) (ha : k.trap.async = true) : (returnSkip t).pc = k.trap.pc := by
  rw [returnSkip_eq hk]
  exact if_pos ha

theorem returnSkip_pc_sync {n : Nat} (hk : t.kept = some k) (ha : k.trap.async = false) (hlen : k.len = some n) :
    (returnSkip t).pc = k.trap.pc + BitVec.ofNat 64 (skipBytes n) := by
  rw [returnSkip_eq hk, hlen]
  exact if_neg (by simp [ha])

end

end Sys2Proof.Machine
end

section
namespace Sys2Proof
open Sys2Proof.Machine

/-- Settles O8: the trap's two records are read back, and every other key of their maps keeps its record. -/
theorem takingATrap : Obligations.TakingATrap := by
  unfold Obligations.TakingATrap
  intro s o tid ti pc len async vh w t hw ht hitem
  rw [takeTrap_eq hw ht hitem]
  refine ⟨⟨_, _, lookup_put_self _ _ _, rfl, rfl, ?record⟩, ⟨_, lookup_put_self _ _ _, rfl⟩, fun k hk => lookup_put_ne _ _ hk,
    fun k hk => lookup_put_ne _ _ hk, ?frame⟩
  case record => simp [recordOf, replays, trappedThread]
  case frame => simp

/-- Settles O12: both returns are read off the kept record, the skip's address by the bits of the bundle's length. -/
theorem returnFromTrap : Obligations.ReturnFromTrap := by
  unfold Obligations.ReturnFromTrap
  intro t k hk
  refine ⟨?_, ?_, ?_, ?_, ?_, ?_, ?_, ?_, returnSkip_pc_async hk, returnSkip_pc_sync hk, returnSkip_pc_sync hk,
    returnSkip_pc_sync hk, ?_⟩
  all_goals simp only [returnReplay_eq hk, returnSkip_eq hk, replays, and_self]

end Sys2Proof
end

section
/-!
SUPPORT. The flags of a bundle that meet %fpc.FEN (R148, R383): what a bundle takes that completes but for them.
-/

namespace Sys2Proof.Machine

/-! ## A bundle that is stopped by its flags alone -/

section
variable {s : State} {c : Cur} {t : Thread} {w : Owner} {i : Instr}

theorem Tries.no_wait (h : Tries s c t w i) : (popsIn t c i).find? (fun p => popWaits (bare s) t p.1) = none := by
  rw [List.find?_eq_none]
  intro p hp
  obtain ⟨v, hv⟩ := h.pops p hp
  simp [popWaits, hv, h.due p hp]

/-- What a half names of the bundle's pops and pushes meets no walk and no trap. -/
theorem Tries.quiet (h : Tries s c t w i) {u : Uses} (hpop : ∀ p ∈ popsOf t u, p ∈ popsIn t c i)
    (hpush : ∀ k ∈ pushesOf t u, k ∈ pushesIn t c i) :
    pushMiss (bare s) w t u = none ∧ ∀ x ∈ popTraps t u ++ pushTraps (bare s) w t u, x = none := by
  have hpushed : ∀ k ∈ pushesOf t u, ∃ l, pushChk (bare s) w t k = .ok l := fun k hk => h.push k (hpush k hk)
  refine ⟨pushMiss_none hpushed, fun x hx => ?_⟩
  rcases List.mem_append.mp hx with hx | hx
  · exact popTraps_none (fun p hp => h.pops p (hpop p hp)) x hx
  · exact pushTraps_none hpushed x hx

theorem fpxTrap_enabled {fl : BitVec 8} {fpc : Word} (h : enabledFlags fpc fl = true) :
    fpxTrap fpc fl = some (mkTrap 0x11 fl.toNat 0) := if_pos h

/-- FPX takes the flags of both halves, and is the second half's where the first raised no enabled one. -/
theorem runX_fpx {sem : Env → XRes} {s' : State} {wx : Wr} {fl : BitVec 8} (h : Tries s c t w i)
    (hs : sem (envX (bare s) c t w i) = .ok s' wx) (hfl : wx.flags ||| (halfOf (envIn (bare s) c t w i)).w.flags = fl)
    (hon : enabledFlags t.fpc fl = true) : runX i sem s = .next (takesFpx s c t w i fl (!enabledFlags t.fpc wx.flags)) := by
  obtain ⟨hmissX, hquietX⟩ := h.quiet (u := uses i) (fun p hp => by simp [popsIn, hp]) (fun k hk => by simp [pushesIn, hk])
  obtain ⟨hmissV, hquietV⟩ := h.quiet (u := usesV c) (fun p hp => by simp [popsIn, hp]) (fun k hk => by simp [pushesIn, hk])
  have htrap := fpxTrap_enabled hon
  unfold runX
  simp only [h.cur, h.thr, h.own, h.enc]
  unfold issueOk
  simp only [h.no_wait, hmissX, hmissV, hs, h.vtrap, lowestOf_append hquietX, lowestOf_append hquietV, XRes.flags, XRes.core,
    fpxOf, hfl, htrap]
  cases enabledFlags t.fpc wx.flags <;> rfl

end

/-! ## What completes -/

/-- A V-op alone is its half run as a first half (R300, R359). -/
theorem exec_vSemOf {i : Instr} {f : Env → Half} (h : vSemOf i = some f) (s : State) : exec i s = runV i f s := by
  cases i <;> cases h <;> rfl

/-- The scalar operations that raise no flag complete with none. -/
theorem exec_neverFlags {i : Instr} (h : neverFlags i = true) (s : State) :
    ∃ sem : Env → XRes, exec i s = runX i sem s ∧ ∀ e, ∃ wx, sem e = .ok e.s wx ∧ wx.flags = 0 := by
  cases i <;> cases h <;> exact ⟨_, rfl, fun e => ⟨_, rfl, rfl⟩⟩

/-! ## Division by zero (R244, R315) -/

/-- OpB(j) of R311 as the operations compute it. -/
theorem opB_eq {e : Env} {s : State} {t : Thread} (hg : ∀ r, e.g r = readG s t r) (src : Src) (n j : Nat) :
    opB e n src j = (opndAt s t src n j).toNat := by
  cases src with
  | reg b => simp [opB, opndAt, el, hg, Nat.shiftRight_eq_div_pow]
  | _ => simp [opB, opndAt, el, srcWord]

theorem anyZero_iff {e : Env} {s : State} {t : Thread} (hg : ∀ r, e.g r = readG s t r) (o : Alu) :
    anyZero e o = true ↔ ∃ j < 64 / iw o.ty, opndAt s t o.src (iw o.ty) j = 0 := by
  have hzero (j : Nat) : opB e (iw o.ty) o.src j = 0 ↔ opndAt s t o.src (iw o.ty) j = 0 := by
    rw [opB_eq hg, BitVec.toNat_eq]
    simp
  simp only [anyZero, List.any_eq_true, List.mem_range, beq_iff_eq, hzero]

section
variable {e : Env} {o : Alu} {f : Nat × Nat → Nat}

theorem divSem_byZero (hz : anyZero e o = true) (hidz : fpcIDZE e.t.fpc = false) :
    ∃ wx, divSem o f e = .ok e.s wx ∧ wx.flags = 2 := by
  simp only [divSem, hz, hidz, Bool.and_false, Bool.false_eq_true, if_false, if_true]
  exact ⟨_, rfl, rfl⟩

theorem divSem_nonzero (hz : anyZero e o = false) : ∃ wx, divSem o f e = .ok e.s wx ∧ wx.flags = 0 := by
  simp only [divSem, hz, Bool.false_and, Bool.false_eq_true, if_false]
  exact ⟨_, rfl, rfl⟩

end

/-- DZ is enabled by bit 1 of FEN. -/
theorem enabledFlags_dz (fpc : Word) : enabledFlags fpc 2 = fpc.getLsbD 9 := by
  have hbit : ∀ x : BitVec 5, ((2#8).setWidth 5 &&& x != 0) = x.getLsbD 1 := by decide
  exact (hbit (fpcFEN fpc)).trans (by simp [fpcFEN])

theorem enabledFlags_zero (fpc : Word) : enabledFlags fpc 0 = false := by simp [enabledFlags]

end Sys2Proof.Machine
end

section
namespace Sys2Proof
open Sys2Proof.Machine

/-- Settles O11: each of the operations named completes but for its flags, which the issue then finds enabled. -/
theorem flagTraps : Obligations.FlagTraps := by
  unfold Obligations.FlagTraps
  intro s c t w i h vf on
  have hon {fl : BitVec 8} (hfl : on fl) : enabledFlags t.fpc fl = true := bne_iff_ne.2 hfl
  have hsecond {sem : Env → XRes} {s' : State} {wx : Wr} (hs : sem (envX (bare s) c t w i) = .ok s' wx) (hwx : wx.flags = 0)
      (hvf : on vf) : runX i sem s = .next (takesFpx s c t w i vf true) := by
    have hrun := runX_fpx h hs (by rw [hwx]; exact BitVec.zero_or) (hon hvf)
    rwa [hwx, enabledFlags_zero] at hrun
  refine ⟨fun f hf hv => ?vector, fun o hi => ?division, fun hnever hvf => ?scalar⟩
  case vector =>
    intro x htrap hfl
    have hdone : (f (envX (bare s) c t w i)).asX (envX (bare s) c t w i).s t
        = .ok (takeDraws (envX (bare s) c t w i).s t x.draws) x.w := by
      simp only [Half.asX, x, htrap]
    have hlone : (halfOf (envIn (bare s) c t w i)).w.flags = 0 := by
      simp only [halfOf, envIn, hv]
      rfl
    have hrun := runX_fpx (sem := fun e => (f e).asX e.s e.t) h hdone (by rw [hlone]; exact BitVec.or_zero) (hon hfl)
    rw [hon hfl] at hrun
    exact (exec_vSemOf hf s).trans hrun
  case division =>
    have hexec : ∃ f, exec i s = runX i (divSem o f) s := by
      rcases hi with rfl | rfl
      · exact ⟨_, rfl⟩
      · exact ⟨_, rfl⟩
    obtain ⟨f, hexec⟩ := hexec
    have hzero := anyZero_iff (envX_g s c t w i) o
    rw [hexec]
    refine ⟨fun hz hidz hfl => ?_, fun hz hvf => ?_⟩
    · obtain ⟨wx, hs, hwx⟩ := divSem_byZero (f := f) (hzero.2 hz) hidz
      have hrun := runX_fpx h hs (by rw [hwx]) (hon hfl)
      rwa [hwx, enabledFlags_dz] at hrun
    · obtain ⟨wx, hs, hwx⟩ := divSem_nonzero (f := f) (Bool.eq_false_iff.2 (mt hzero.1 hz))
      exact hsecond hs hwx hvf
  case scalar =>
    obtain ⟨sem, hexec, hsem⟩ := exec_neverFlags hnever s
    obtain ⟨wx, hs, hwx⟩ := hsem (envX (bare s) c t w i)
    exact hexec.trans (hsecond hs hwx hvf)

end Sys2Proof
end

section
/-!
SUPPORT. Posted stores, exchange stores and messages at their issue (R129, R347 to R349): their one address check, and the
journal entry they take or wait for.
-/

namespace Sys2Proof.Machine

theorem takeDraws_nextId (s : State) (t : Thread) (n : Nat) : (takeDraws s t n).nextId = s.nextId := by
  rcases takeDraws_eq s t n with h | h <;> rw [h]
  rfl

/-! ## The check of the address (R347) -/

section
variable {e : Env} {va : Word} {n : Nat}

theorem postChk_ok {j off : Nat} (hal : va.toNat % n = 0) (hrange : va.extractLsb' 57 7 = 0) (hspad : isSpadVa va.toNat = true)
    (hplace : spadVa e.w (tidCore e.t.tid) va.toNat = some (j, off)) (hwatch : watchHit e.t va.toNat n false true = none) :
    postChk e va n = .ok (.spad j off) := by
  simp [postChk, hal, hrange, hspad, hplace, hwatch]

theorem postChk_misaligned (hal : va.toNat % n ≠ 0) : postChk e va n = .bad (mkTrap 0x03 (n % 256) va) := if_pos hal

theorem postChk_outside (hal : va.toNat % n = 0) (hrange : va.extractLsb' 57 7 ≠ 0) :
    postChk e va n = .bad (protTrap .store 2 va) := by
  rw [postChk, if_neg (not_not.2 hal), if_pos (bne_iff_ne.2 hrange)]

theorem postChk_noCore (hal : va.toNat % n = 0) (hrange : va.extractLsb' 57 7 = 0) (hspad : isSpadVa va.toNat = true)
    (hplace : spadVa e.w (tidCore e.t.tid) va.toNat = none) : postChk e va n = .bad (protTrap .store 2 va) := by
  simp [postChk, hal, hrange, hspad, hplace]

end

/-! ## The entry (R129) -/

/-- The state of a thread's core with one more entry in its journal. -/
def entered (s : State) (t : Thread) (k : Core) (x : JEnt) : State :=
  { s with cores := put s.cores (coreKey t.o t.core) { k with jseq := k.jseq + 1, journal := k.journal ++ [x] } }

section
variable {e : Env} {kind : PostKind} {full : Bool} {va : Word} {j off : Nat} {data : List Byte} {k : Core}

theorem takeEntry_full (hk : core? e.s e.t.o e.t.core = some k) (h : 256 ≤ k.entriesHeld (k.cyc - 1)) :
    takeEntry e kind full va j off data = .again e.s .journal := by
  simp [takeEntry, journalFull, hk, h]

theorem takeEntry_free (hk : core? e.s e.t.o e.t.core = some k) (h : k.entriesHeld (k.cyc - 1) < 256) :
    takeEntry e kind full va j off data =
      let x := entered e.s e.t k ⟨k.jseq, e.t.tid, e.t.launch, j, kind, full, va, off, data, k.xph, e.s.nextId, false, none, .ready,
        issueOf e.s e.t true (.scratch e.t.o j)⟩
      let y := if full = true ∨ kind = .msend then onThr x e.t.o e.t.tid (fun q => { q with fenceAt := e.s.nextId + 1 }) else x
      .ok (postDue { y with nextId := e.s.nextId + 1 } e.t.o e.t.tid (.scratch e.t.o j)) Wr.none := by
  have hroom : journalFull e = false := by simp [journalFull, hk, h]
  have hcore (f : Core → Core) :
      onCore e.s e.t.o e.t.core f = { e.s with cores := put e.s.cores (coreKey e.t.o e.t.core) (f k) } := by
    rw [onCore, upd_of_lookup _ _ _ hk]
  have hfences : (full || kind == .msend) = true ↔ full = true ∨ kind = .msend := by simp
  unfold takeEntry
  rw [hroom, hcore]
  dsimp only
  rw [if_neg Bool.false_ne_true]
  by_cases hf : full = true ∨ kind = .msend
  · rw [if_pos hf, if_pos (hfences.2 hf)]
    rfl
  · rw [if_neg hf, if_neg (mt hfences.1 hf)]
    rfl

end

/-! ## The operations -/

section
variable {s : State} {c : Cur} {t : Thread} {w : Owner} {i : Instr} {sem : Env → XRes} {va : Word}

/-- An operation that takes an entry wherever its address passes. -/
theorem takesEntry_of {kind : PostKind} {full : Bool} {data : List Byte} (hexec : exec i s = runX i sem s)
    (hsem : ∀ j off, postChk (firstEnv s c t w i) va data.length = .ok (.spad j off) →
      sem (firstEnv s c t w i) = takeEntry (firstEnv s c t w i) kind full va j off data) :
    TakesEntry s c t w i va kind full data := by
  intro h hal hrange hspad hwatch j off k hplace hk
  have hs := hsem j off (postChk_ok hal hrange hspad hplace hwatch)
  have hnext : (firstEnv s c t w i).s.nextId = s.nextId := takeDraws_nextId _ _ _
  rw [hexec]
  refine ⟨fun hroom => ?_, fun hfull => runX_again h (hs.trans (takeEntry_full hk hfull))⟩
  rw [← hnext]
  exact runX_ok h (hs.trans (takeEntry_free hk hroom))

/-- An operation that traps wherever its address is refused. -/
theorem postTraps_of {n : Nat} (hexec : exec i s = runX i sem s)
    (hsem : ∀ ti, postChk (firstEnv s c t w i) va n = .bad ti → sem (firstEnv s c t w i) = .trapC ti) :
    PostTraps s c t w i va n := by
  intro h
  rw [hexec]
  exact ⟨fun hal => runX_trapC h (hsem _ (postChk_misaligned hal)),
    fun hal hrange => runX_trapC h (hsem _ (postChk_outside hal hrange)),
    fun hal hrange hspad hplace => runX_trapC h (hsem _ (postChk_noCore hal hrange hspad hplace))⟩

theorem firstEnv_addr (s : State) (c : Cur) (t : Thread) (w : Owner) (i : Instr) (a : Addr) :
    ea (firstEnv s c t w i).s (firstEnv s c t w i).t a = ea s t a := by
  have hg (r : GReg) : readG (firstEnv s c t w i).s (firstEnv s c t w i).t r = readG s t r := envX_g s c t w i r
  simp only [ea, hg]

theorem listOfWord_length (x : Word) (n : Nat) : (listOfWord x n).length = n := by simp [listOfWord]

/-- A posted or exchange store posts the bytes of its register, at its address. -/
theorem posted_entry {kind : PostKind} {full : Bool} {o : MemOp} (hexec : exec i s = runX i (postedSem kind full o) s) :
    TakesEntry s c t w i (ea s t o.ad) kind full (listOfWord (readG s t o.d) (bytesOfType o.ty))
      ∧ PostTraps s c t w i (ea s t o.ad) (bytesOfType o.ty) := by
  have hva := firstEnv_addr s c t w i o.ad
  have hdata : (firstEnv s c t w i).g o.d = readG s t o.d := envX_g s c t w i o.d
  refine ⟨takesEntry_of hexec fun j off hok => ?_, postTraps_of hexec fun ti hbad => ?_⟩
  · rw [listOfWord_length] at hok
    simp only [postedSem, hva, hok, withChk, hdata]
  · simp only [postedSem, hva, hbad, withChk]

/-- A message posts the 64 bytes of its vector. -/
theorem msend_entry {v : VReg} {a : GReg} (hexec : exec i s = runX i (msendSem v a) s) :
    TakesEntry s c t w i (readG s t a) .msend false (vecBytes (vecIn s c t i v)) ∧ PostTraps s c t w i (readG s t a) 64 := by
  have hva : (firstEnv s c t w i).g a = readG s t a := envX_g s c t w i a
  have hdata : (firstEnv s c t w i).v v = vecIn s c t i v := envX_v s c t w i v
  refine ⟨takesEntry_of hexec fun j off hok => ?_, postTraps_of hexec fun ti hbad => ?_⟩
  · rw [vecBytes_length] at hok
    simp only [msendSem, hva, hok, withChk, hdata]
  · simp only [msendSem, hva, hbad, withChk]

end

end Sys2Proof.Machine
end

section
namespace Sys2Proof
open Sys2Proof.Machine

/-- Settles O40: the five operations are two, a store and a message, over one check and one taking of an entry. -/
theorem postedEntries : Obligations.PostedEntries := by
  unfold Obligations.PostedEntries
  intro s c t w data
  exact ⟨fun _ => posted_entry rfl, fun _ => posted_entry rfl, fun _ => posted_entry rfl, fun _ => posted_entry rfl,
    fun _ _ => msend_entry rfl⟩

end Sys2Proof
end

section
/-!
SUPPORT. The journal's events (R129, R130, R135, R182, R347 to R349): an entry found again after each, and what its target
does with what it carries.
-/

namespace Sys2Proof.Machine

/-! ## Bytes that are stored -/

theorem Memory.read_writeN (m : Memory) (bs : List Byte) (a x : Nat) :
    Memory.read (Memory.writeN m a bs) x = if a ≤ x ∧ x < a + bs.length then bs.getD (x - a) 0 else Memory.read m x := by
  induction bs generalizing m a with
  | nil =>
    rw [if_neg (by simp only [List.length_nil]; omega)]
    rfl
  | cons b bs ih =>
    simp only [Memory.writeN, ih, List.length_cons]
    by_cases hx : x = a
    · subst hx
      rw [if_neg (by omega), if_pos (by omega), Memory.read_write_self, Nat.sub_self, List.getD_cons_zero]
    · by_cases hin : a + 1 ≤ x ∧ x < a + 1 + bs.length
      · rw [if_pos hin, if_pos (by omega), show x - a = x - (a + 1) + 1 by omega, List.getD_cons_succ]
      · rw [if_neg hin, if_neg (by omega), Memory.read_write_ne m b hx]

theorem stored_writeN (m : Memory) (key : Nat) (bs : List Byte) : Stored m (Memory.writeN m key bs) key (allOn bs) := by
  intro a
  rw [Memory.read_writeN]
  have hlen : (allOn bs).length = bs.length := List.length_map _
  by_cases hin : key ≤ a ∧ a < key + bs.length
  · have hget : (allOn bs).getD (a - key) (0, false) = (bs.getD (a - key) 0, true) := by
      have hlt : a - key < bs.length := by omega
      simp [allOn, hlt]
    rw [if_pos hin, hget, if_pos ⟨hin.1, hlen ▸ hin.2, rfl⟩]
  · rw [if_neg hin, if_neg (by rw [hlen]; tauto)]

section
variable (s : State) (o j off : Nat) (data : List Byte)

theorem storeSpad_eq (full : Bool) : ∃ fe, storeSpad s o j off data full
    = { s with spad := Memory.writeN s.spad (spadKey o j off) data, spadFE := fe } ∧
    (full = true → getD false fe (granKey o j off) = true) := by
  cases full with
  | false => exact ⟨s.spadFE, rfl, fun h => by cases h⟩
  | true => exact ⟨_, rfl, fun _ => getD_setD_self ..⟩

theorem foldl_setFull (l : List Nat) : l.foldl (fun s i => setFull s ((Spot.spad o j off).add (16 * i)) true) s
    = { s with spadFE := l.foldl (fun m i => setD false m (granKey o j (off + 16 * i)) true) s.spadFE } := by
  induction l generalizing s with
  | nil => rfl
  | cons i l ih => exact ih _

theorem getD_foldl_setD {key : Nat → Nat} {l : List Nat} {m : SMap Bool} {g : Nat} (h : g ∈ l ∨ getD false m (key g) = true) :
    getD false (l.foldl (fun m i => setD false m (key i) true) m) (key g) = true := by
  induction l generalizing m with
  | nil => exact h.resolve_left List.not_mem_nil
  | cons i l ih =>
    refine ih ?_
    by_cases hkey : key g = key i
    · exact .inr (hkey ▸ getD_setD_self ..)
    · rw [getD_setD_ne _ _ _ hkey]
      exact h.imp_left fun hmem => (List.mem_cons.1 hmem).resolve_left fun hg => hkey (congrArg key hg)

/-- A message that is written fills the four granules of its mailbox. -/
theorem putMsg_eq : ∃ fe, putMsg s o j off data
    = { s with spad := Memory.writeN s.spad (spadKey o j off) data, spadFE := fe } ∧
    ∀ g < 4, getD false fe (granKey o j (off + 16 * g)) = true :=
  ⟨_, foldl_setFull (writeAt s (.spad o j off) data) o j off (List.range 4),
    fun _ hg => getD_foldl_setD (key := fun i => granKey o j (off + 16 * i)) (.inl (List.mem_range.2 hg))⟩

end

/-! ## An entry after an update of its core -/

section
variable {s u : State} {o j seq : Nat} {e : JEnt} {k : Core}

theorem entryAt_eq (s : State) (o j q : Nat) : entryAt s o j q = (core? s o j).bind (fun c => c.journal.find? (·.seq == q)) := by
  unfold entryAt
  cases core? s o j <;> rfl

theorem entryAt_congr (h : u.cores = s.cores) (o j q : Nat) : entryAt u o j q = entryAt s o j q := by
  rw [entryAt_eq, entryAt_eq, core?, core?, h]

theorem core?_onCore_self (s : State) (o j : Nat) (f : Core → Core) : core? (onCore s o j f) o j = (core? s o j).map f :=
  lookup_upd_self ..

theorem core_of_entryAt (h : entryAt s o j seq = some e) : ∃ c, core? s o j = some c ∧ c.journal.find? (·.seq == seq) = some e := by
  rw [entryAt_eq] at h
  exact Option.bind_eq_some_iff.1 h

theorem entryAt_seq (h : entryAt s o j seq = some e) : e.seq = seq := by
  obtain ⟨c, -, hfind⟩ := core_of_entryAt h
  simpa using List.find?_some hfind

/-- An update of any core that leaves journals alone. -/
theorem entryAt_onCore (i : Nat) {f : Core → Core} (hf : ∀ c, (f c).journal = c.journal) :
    entryAt (onCore s o i f) o j seq = entryAt s o j seq := by
  have hcore : core? (onCore s o i f) o j = core? s o j ∨ core? (onCore s o i f) o j = (core? s o j).map f := by
    by_cases hk : coreKey o j = coreKey o i
    · right
      simp only [core?, hk]
      exact lookup_upd_self ..
    · exact .inl (lookup_upd_ne _ _ hk)
  rcases hcore with hcore | hcore
  · rw [entryAt_eq, entryAt_eq, hcore]
  · rw [entryAt_eq, entryAt_eq, hcore]
    cases core? s o j <;> simp [hf]

theorem entryAt_onEntry (h : entryAt s o j seq = some e) {f : JEnt → JEnt} (hf : ∀ x, (f x).seq = x.seq) :
    entryAt (onEntry s o j seq f) o j seq = some (f e) := by
  obtain ⟨c, hc, hfind⟩ := core_of_entryAt h
  have hseq : ((·.seq == seq) : JEnt → Bool) ∘ (fun x => if x.seq = seq then f x else x) = (·.seq == seq) := by
    funext x
    by_cases hx : x.seq = seq <;> simp [hx, hf]
  rw [entryAt_eq, onEntry, core?_onCore_self, hc]
  simp only [Option.map_some, Option.bind_some, List.find?_map, hseq, hfind, entryAt_seq h, if_true]

/-- What an update of an entry leaves of every core but its journal. -/
theorem core?_onEntry {i : Nat} (hk : core? s o i = some k) (j seq : Nat) (f : JEnt → JEnt) :
    ∃ k', core? (onEntry s o j seq f) o i = some k' ∧ k'.msgs = k.msgs ∧ k'.phase = k.phase := by
  by_cases hij : coreKey o i = coreKey o j
  · refine ⟨{ k with journal := k.journal.map (fun x => if x.seq = seq then f x else x) }, ?_, rfl, rfl⟩
    rw [core?] at hk
    rw [core?, onEntry, onCore_cores, hij, lookup_upd_self, ← hij, hk]
    rfl
  · exact ⟨k, (lookup_upd_ne _ _ hij).trans hk, rfl, rfl⟩

end

/-! ## Arrivals (R129, R182, R347 to R349) -/

/-- The state with an entry in another phase. -/
def phased (s : State) (o j seq : Nat) (ph : JPhase) : State := onEntry s o j seq (fun x => { x with phase := ph })

section
variable {s u : State} {o j seq : Nat} {e : JEnt} {k : Core} {ph : JPhase}

theorem entryAt_phased (h : entryAt u o j seq = some e) : entryAt (phased u o j seq ph) o j seq = some { e with phase := ph } :=
  entryAt_onEntry h fun _ => rfl

/-- What is sent may leave, and stands first on its path before an open tile. -/
structure Arriving (s : State) (o j : Nat) (e : JEnt) : Prop where
  quiet : quietNet s o = false
  may   : maySend s o e = true
  here  : heldThere s o e = false
  next  : entryNext s o j e = true

theorem exec_arrival_stays (he : entryAt s o j seq = some e)
    (h : quietNet s o = true ∨ maySend s o e = false ∨ heldThere s o e = true ∨ entryNext s o j e = false) :
    exec (.postedStoreArrival o j seq) s = .next s ∧ exec (.xstPacket o j seq) s = .next s := by
  have hstays (b : Bool) : (b || quietNet s o || !maySend s o e || heldThere s o e || !entryNext s o j e) = true := by
    rcases h with h | h | h | h <;> simp [h]
  constructor
  · show execPostedStoreArrival o j seq s = _
    simp only [execPostedStoreArrival, he]
    exact if_pos (hstays _)
  · show execXstPacket o j seq s = _
    simp only [execXstPacket, he]
    exact if_pos (hstays _)

theorem exec_posted_late (he : entryAt s o j seq = some e) (h : Arriving s o j e) (hkind : e.kind ≠ .xst)
    (hl : lands s o e = false) : exec (.postedStoreArrival o j seq) s = .next (phased s o j seq .late) := by
  show execPostedStoreArrival o j seq s = _
  simp [execPostedStoreArrival, he, hkind, h.quiet, h.may, h.here, h.next, hl, phased]

theorem exec_posted_lands (he : entryAt s o j seq = some e) (h : Arriving s o j e) (hkind : e.kind ≠ .xst)
    (hl : lands s o e = true) : exec (.postedStoreArrival o j seq) s
      = .next (phased (arrivePosted s o e).1 o j seq (arrivePosted s o e).2) := by
  show execPostedStoreArrival o j seq s = _
  simp [execPostedStoreArrival, he, hkind, h.quiet, h.may, h.here, h.next, hl, phased]

theorem exec_xst_late (he : entryAt s o j seq = some e) (h : Arriving s o j e) (hkind : e.kind = .xst)
    (hl : lands s o e = false) : exec (.xstPacket o j seq) s = .next (phased s o j seq .late) := by
  show execXstPacket o j seq s = _
  simp [execXstPacket, he, hkind, h.quiet, h.may, h.here, h.next, hl, phased]

theorem exec_xst_lands (he : entryAt s o j seq = some e) (h : Arriving s o j e) (hkind : e.kind = .xst)
    (hl : lands s o e = true) (ha : arriveXst s o e = some (u, ph)) :
    exec (.xstPacket o j seq) s = .next (phased u o j seq ph) := by
  show execXstPacket o j seq s = _
  simp [execXstPacket, he, hkind, h.quiet, h.may, h.here, h.next, hl, ha, phased]

/-- A core with a full phase buffer takes nothing. -/
theorem heldThere_full (hk : core? s o e.dest = some k) (h : 16 ≤ k.phase.length) : heldThere s o e = true := by
  simp [heldThere, inputStopped, hk, h]

theorem phase_room (hk : core? s o e.dest = some k) (h : heldThere s o e = false) : k.phase.length < 16 := by
  by_contra hfull
  rw [heldThere_full hk (by omega)] at h
  cases h

theorem arrivePosted_beyond (hk : core? s o e.dest = some k) (h : spadSize k < e.off + e.data.length) :
    arrivePosted s o e = (s, .refusing 0) := by
  simp [arrivePosted, hk, h]

theorem arrivePosted_shadow (hk : core? s o e.dest = some k) (h : e.off + e.data.length ≤ spadSize k)
    (hsh : inShadow k e.off e.data.length = true) : arrivePosted s o e = (s, .refusing 4) := by
  simp [arrivePosted, hk, Nat.not_lt.2 h, hsh]

/-- A place within the core's layout. -/
structure Fits (s : State) (o : Nat) (e : JEnt) (k : Core) : Prop where
  core  : core? s o e.dest = some k
  size  : e.off + e.data.length ≤ spadSize k
  clear : inShadow k e.off e.data.length = false

theorem arrivePosted_store (h : Fits s o e k) (hkind : e.kind = .pst) :
    arrivePosted s o e = (storeSpad s o e.dest e.off e.data e.full, .acked) := by
  simp [arrivePosted, h.core, Nat.not_lt.2 h.size, h.clear, hkind]

/-- The mailbox of a message is empty and no earlier message is held for it. -/
def Vacant (s : State) (o : Nat) (e : JEnt) (k : Core) : Prop :=
  (∀ m ∈ k.msgs, m.off ≠ e.off) ∧ ∀ g < 4, fullAt s (.spad o e.dest (e.off + 16 * g)) = false

theorem vacant_iff : (k.msgs.all (·.off != e.off) && allFull s (.spad o e.dest e.off) false) = true ↔ Vacant s o e k := by
  simp [Vacant, allFull, Spot.add]

theorem arrivePosted_message (h : Fits s o e k) (hkind : e.kind = .msend) : arrivePosted s o e =
    if (k.msgs.all (·.off != e.off) && allFull s (.spad o e.dest e.off) false) = true then
      (putMsg s o e.dest e.off e.data, .acked)
    else if k.msgs.length < 16 then
      (onCore s o e.dest (fun c => { c with msgs := c.msgs ++ [⟨e.off, e.data⟩] }), .acked)
    else (s, .busy (s.fab + 1024)) := by
  simp [arrivePosted, h.core, Nat.not_lt.2 h.size, h.clear, hkind]

theorem arrivePosted_vacant (h : Fits s o e k) (hkind : e.kind = .msend) (hv : Vacant s o e k) :
    arrivePosted s o e = (putMsg s o e.dest e.off e.data, .acked) := by
  rw [arrivePosted_message h hkind, if_pos (vacant_iff.2 hv)]

theorem arrivePosted_held (h : Fits s o e k) (hkind : e.kind = .msend) (hv : ¬ Vacant s o e k) (hroom : k.msgs.length < 16) :
    arrivePosted s o e = (onCore s o e.dest (fun c => { c with msgs := c.msgs ++ [⟨e.off, e.data⟩] }), .acked) := by
  rw [arrivePosted_message h hkind, if_neg (mt vacant_iff.1 hv), if_pos hroom]

theorem arrivePosted_busy (h : Fits s o e k) (hkind : e.kind = .msend) (hv : ¬ Vacant s o e k) (hfull : 16 ≤ k.msgs.length) :
    arrivePosted s o e = (s, .busy (s.fab + 1024)) := by
  rw [arrivePosted_message h hkind, if_neg (mt vacant_iff.1 hv), if_neg (Nat.not_lt.2 hfull)]

/-- An arrival touches the scratchpads and the cores alone. -/
theorem arrivePosted_keeps (s : State) (o : Nat) (e : JEnt) :
    (arrivePosted s o e).1.mem = s.mem ∧ (arrivePosted s o e).1.threads = s.threads := by
  have hstore : (storeSpad s o e.dest e.off e.data e.full).mem = s.mem
      ∧ (storeSpad s o e.dest e.off e.data e.full).threads = s.threads := by
    obtain ⟨fe, h, -⟩ := storeSpad_eq s o e.dest e.off e.data e.full
    rw [h]
    exact ⟨rfl, rfl⟩
  have hput : (putMsg s o e.dest e.off e.data).mem = s.mem ∧ (putMsg s o e.dest e.off e.data).threads = s.threads := by
    obtain ⟨fe, h, -⟩ := putMsg_eq s o e.dest e.off e.data
    rw [h]
    exact ⟨rfl, rfl⟩
  unfold arrivePosted
  split
  · exact ⟨rfl, rfl⟩
  · dsimp only
    split
    · exact ⟨rfl, rfl⟩
    split
    · exact ⟨rfl, rfl⟩
    split
    · split
      · exact hput
      · split
        · exact ⟨rfl, rfl⟩
        · exact ⟨rfl, rfl⟩
    · exact hstore
    · exact hstore

theorem arriveXst_noShadow (hk : core? s o e.dest = some k) (h : k.xb = 0) : arriveXst s o e = some (s, .refusing 4) := by
  simp [arriveXst, hk, h]

theorem arriveXst_outside (hk : core? s o e.dest = some k) (hx : k.xb ≠ 0)
    (h : e.off < shadowLo k ∨ spadSize k < e.off + e.data.length) : arriveXst s o e = some (s, .refusing 0) := by
  simp [arriveXst, hk, hx, h]

/-- A place in the core's shadow banks. -/
structure InBanks (s : State) (o : Nat) (e : JEnt) (k : Core) : Prop where
  core  : core? s o e.dest = some k
  banks : k.xb ≠ 0
  low   : shadowLo k ≤ e.off
  high  : e.off + e.data.length ≤ spadSize k

theorem arriveXst_now (h : InBanks s o e k) (hph : k.xph = e.xph) :
    arriveXst s o e = some (storeSpad s o e.dest e.off e.data e.full, .acked) := by
  simp [arriveXst, h.core, h.banks, Nat.not_lt.2 h.low, Nat.not_lt.2 h.high, hph]

theorem arriveXst_later (h : InBanks s o e k) (hph : k.xph ≠ e.xph) (hroom : k.phase.length < 16) : arriveXst s o e
    = some (onCore s o e.dest (fun c => { c with phase := c.phase ++ [⟨e.off, e.data, e.full⟩] }), .acked) := by
  simp [arriveXst, h.core, h.banks, Nat.not_lt.2 h.low, Nat.not_lt.2 h.high, hph, hroom]

/-- A store that has landed: its bytes, its entry acknowledged and, where it sets them, its granules full. -/
theorem stored_acked (he : entryAt s o j seq = some e) :
    let u := phased (storeSpad s o e.dest e.off e.data e.full) o j seq .acked
    Stored s.spad u.spad (spadKey o e.dest e.off) (allOn e.data) ∧ entryAt u o j seq = some { e with phase := .acked } ∧
      (e.full = true → getD false u.spadFE (granKey o e.dest e.off) = true) := by
  obtain ⟨fe, h, hfull⟩ := storeSpad_eq s o e.dest e.off e.data e.full
  rw [h]
  exact ⟨stored_writeN _ _ _, entryAt_phased he, hfull⟩

theorem message_acked (he : entryAt s o j seq = some e) :
    let u := phased (putMsg s o e.dest e.off e.data) o j seq .acked
    Stored s.spad u.spad (spadKey o e.dest e.off) (allOn e.data) ∧ entryAt u o j seq = some { e with phase := .acked } ∧
      ∀ g < 4, fullAt u (.spad o e.dest (e.off + 16 * g)) = true := by
  obtain ⟨fe, h, hfull⟩ := putMsg_eq s o e.dest e.off e.data
  rw [h]
  exact ⟨stored_writeN _ _ _, entryAt_phased he, hfull⟩

/-- What its target holds back for later: the entry is acknowledged, and the core's record has what `f` adds. -/
theorem kept_acked (he : entryAt s o j seq = some e) (hk : core? s o e.dest = some k) {f : Core → Core}
    (hf : ∀ c, (f c).journal = c.journal) : ∃ k',
    let u := phased (onCore s o e.dest f) o j seq .acked
    u.spad = s.spad ∧ entryAt u o j seq = some { e with phase := .acked } ∧ core? u o e.dest = some k' ∧
      k'.msgs = (f k).msgs ∧ k'.phase = (f k).phase := by
  have hf' : core? (onCore s o e.dest f) o e.dest = some (f k) := by rw [core?_onCore_self, hk, Option.map_some]
  obtain ⟨k', hk', hmsgs, hphase⟩ := core?_onEntry hf' j seq (fun x => { x with phase := .acked })
  exact ⟨k', rfl, entryAt_phased ((entryAt_onCore _ hf).trans he), hk', hmsgs, hphase⟩

end

/-! ## Acknowledgements, refusals and resends (R130, R135, R349) -/

section
variable {s : State} {o j seq : Nat} {e : JEnt}

/-- The core of an acknowledged entry, which is freed. -/
def freedOf (seq : Nat) (e : JEnt) (c : Core) : Core :=
  { c with journal := c.journal.filter (·.seq != seq), postDues := e.iss.due.toList ++ c.postDues.filter (c.cyc ≤ ·) }

theorem exec_journalAck (he : entryAt s o j seq = some e) (hph : e.phase = .acked) :
    exec (.journalAck o j seq) s = .next (onCore s o j (freedOf seq e)) := by
  show execJournalAck o j seq s = _
  simp only [execJournalAck, he]
  exact if_pos hph

theorem entryAt_freed_self (s : State) (o j seq : Nat) (e : JEnt) : entryAt (onCore s o j (freedOf seq e)) o j seq = none := by
  rw [entryAt_eq, core?_onCore_self]
  cases core? s o j with
  | none => rfl
  | some c => simp [freedOf]

theorem entryAt_freed_ne (s : State) (o j : Nat) {seq q : Nat} (e : JEnt) (hq : q ≠ seq) :
    entryAt (onCore s o j (freedOf seq e)) o j q = entryAt s o j q := by
  have hother (x : JEnt) : decide ((x.seq != seq) = true ∧ (x.seq == q) = true) = (x.seq == q) := by
    by_cases hx : x.seq = q
    · simp [hx, hq]
    · simp [hx]
  rw [entryAt_eq, entryAt_eq, core?_onCore_self]
  cases core? s o j with
  | none => rfl
  | some c => simp only [freedOf, Option.map_some, Option.bind_some, List.find?_filter, hother]

/-- A refusal stands in the entry and is pending on its thread. -/
theorem refuseEntry_spec {t : Thread} {cause reason : Nat} (he : entryAt s o j seq = some e) (horphan : e.orphan = false)
    (ht : thr? s o e.tid = some t) :
    entryAt (refuseEntry s o j e cause reason) o j seq = some { e with phase := .refused cause reason e.applied } ∧
    thr? (refuseEntry s o j e cause reason) o e.tid = some { t with async := t.async
      ++ [⟨cause, e.va, BitVec.ofNat 64 (e.seq % 256 + (if cause = Cause.pstref then reason * 256 else 0)), 0, .journal j e.seq,
        e.applied⟩] } := by
  obtain rfl := entryAt_seq he
  have hpending : refuseEntry s o j e cause reason
      = onThr (onEntry s o j e.seq (fun x => { x with phase := .refused cause reason x.applied })) o e.tid (fun t => { t with
        async := t.async ++ [⟨cause, e.va, BitVec.ofNat 64 (e.seq % 256 + (if cause = Cause.pstref then reason * 256 else 0)), 0,
          .journal j e.seq, e.applied⟩] }) := if_neg (by simp [horphan])
  rw [hpending]
  constructor
  · exact (entryAt_congr rfl ..).trans
      (entryAt_onEntry he (f := fun x => { x with phase := .refused cause reason x.applied }) fun _ => rfl)
  · exact (lookup_upd_self ..).trans (congrArg (Option.map _) ht)

theorem exec_journalRefusal_refusing {reason : Nat} (he : entryAt s o j seq = some e) (hph : e.phase = .refusing reason) :
    exec (.journalRefusal o j seq) s = .next (refuseEntry s o j e 0x08 reason) := by
  show execJournalRefusal o j seq s = _
  simp only [execJournalRefusal, he, hph]
  rfl

theorem exec_journalRefusal_late (he : entryAt s o j seq = some e) (hph : e.phase = .late) :
    exec (.journalRefusal o j seq) s = .next (refuseEntry s o j e 0x15 0) := by
  show execJournalRefusal o j seq s = _
  simp only [execJournalRefusal, he, hph]
  rfl

theorem exec_msendResend {til : Nat} (he : entryAt s o j seq = some e) (hph : e.phase = .busy til) (htil : til ≤ s.fab)
    (hs : stopped s o = false) :
    exec (.msendResend o j seq) s = .next (onEntry s o j seq (fun x => { x.unsent with phase := .ready })) := by
  show execMsendResend o j seq s = _
  simp [execMsendResend, he, hph, htil, hs]

end

end Sys2Proof.Machine
end

section
namespace Sys2Proof
open Sys2Proof.Machine

/-- Settles O42: each event by what its entry meets, the entry read back from the state that it leaves. -/
theorem journalEvents : Obligations.JournalEvents := by
  unfold Obligations.JournalEvents
  intro s o j seq e he key n
  refine ⟨exec_arrival_stays he, fun k hk => ⟨heldThere_full hk, fun hmay hquiet hhere hnext => ?arrives⟩, fun hph => ?ack,
    fun reason t hph horphan ht => ?refused, fun t hph horphan ht => ?late, fun til hph htil hs => ?resent⟩
  case arrives =>
    have h : Arriving s o j e := ⟨hquiet, hmay, hhere, hnext⟩
    refine ⟨fun hl => ⟨fun hkind => ⟨_, exec_posted_late he h hkind hl, rfl, entryAt_phased he⟩,
      fun hkind => ⟨_, exec_xst_late he h hkind hl, rfl, entryAt_phased he⟩⟩, fun hl => ⟨fun hkind => ?posted, fun hkind => ?xst⟩⟩
    case posted =>
      obtain ⟨hmem, hthreads⟩ := arrivePosted_keeps s o e
      refine ⟨_, exec_posted_lands he h hkind hl, hmem, hthreads, fun hbeyond => ?_, fun hsize hshadow => ?_, fun hsize hclear => ?_⟩
      · rw [arrivePosted_beyond hk hbeyond]
        exact ⟨rfl, entryAt_phased he⟩
      · rw [arrivePosted_shadow hk hsize hshadow]
        exact ⟨rfl, entryAt_phased he⟩
      have hfits : Fits s o e k := ⟨hk, hsize, hclear⟩
      refine ⟨fun hpst => ?_, fun hmsg => ⟨fun hvacant => ?_, fun hvacant hroom => ?_, fun hvacant hfull => ?_⟩⟩
      · rw [arrivePosted_store hfits hpst]
        exact stored_acked he
      · rw [arrivePosted_vacant hfits hmsg hvacant]
        exact message_acked he
      · rw [arrivePosted_held hfits hmsg hvacant hroom]
        obtain ⟨k', hspad, hentry, hk', hmsgs, -⟩ := kept_acked he hk
          (f := fun c => { c with msgs := c.msgs ++ [⟨e.off, e.data⟩] }) fun _ => rfl
        exact ⟨hspad, hentry, k', hk', hmsgs⟩
      · rw [arrivePosted_busy hfits hmsg hvacant hfull]
        exact ⟨rfl, entryAt_phased he⟩
    case xst =>
      refine ⟨fun hxb => ⟨_, exec_xst_lands he h hkind hl (arriveXst_noShadow hk hxb), rfl, entryAt_phased he⟩,
        fun hxb hout => ⟨_, exec_xst_lands he h hkind hl (arriveXst_outside hk hxb hout), rfl, entryAt_phased he⟩,
        fun hxb hlow hhigh => ?_⟩
      have hbanks : InBanks s o e k := ⟨hk, hxb, hlow, hhigh⟩
      refine ⟨fun hnow => ⟨_, exec_xst_lands he h hkind hl (arriveXst_now hbanks hnow), stored_acked he⟩, fun hlater => ?_⟩
      obtain ⟨k', hspad, hentry, hk', -, hphase⟩ := kept_acked he hk
        (f := fun c => { c with phase := c.phase ++ [⟨e.off, e.data, e.full⟩] }) fun _ => rfl
      exact ⟨_, k', exec_xst_lands he h hkind hl (arriveXst_later hbanks hlater (phase_room hk hhere)), hspad, hentry, hk', hphase⟩
  case ack => exact ⟨_, exec_journalAck he hph, entryAt_freed_self .., rfl, fun q hq => entryAt_freed_ne s o j e hq⟩
  case refused =>
    have happlied : e.applied = false := by rw [JEnt.applied, hph]
    obtain ⟨hentry, hthr⟩ := refuseEntry_spec (cause := 0x08) (reason := reason) he horphan ht
    rw [happlied] at hentry hthr
    exact ⟨_, exec_journalRefusal_refusing he hph, hentry, hthr⟩
  case late =>
    have happlied : e.applied = false := by rw [JEnt.applied, hph]
    obtain ⟨hentry, hthr⟩ := refuseEntry_spec (cause := 0x15) (reason := 0) he horphan ht
    rw [happlied] at hentry hthr
    exact ⟨_, exec_journalRefusal_late he hph, hentry, hthr⟩
  case resent => exact ⟨_, exec_msendResend he hph htil hs, entryAt_onEntry he fun _ => rfl⟩

end Sys2Proof
end

section
/-!
SUPPORT. A write of %trapc that kills a thread whose record stands under another thread's key (R79, R126): the record found
there stays parked, and the dying one is written at the thread's own key.
-/

namespace Sys2Proof.Machine

/-- A disposition that is accepted takes effect before the writer's own %trapc is written. -/
theorem trapcSem_accepted {e : Env} {a : GReg} (hrel : releaseNow e.s e.t .pkg = true)
    (hheld : dispHeld e.s e.t.o (dispOf (e.g a)).tid = false) (hok : dispOk e.s e.t.o (dispOf (e.g a)) = true) :
    trapcSem a e = .ok (onThr (disposeOf e.s e.t.o (dispOf (e.g a))) e.t.o e.t.tid
      (fun x => { x with trapc := trapcAfter (e.g a) true })) Wr.none := by
  simp [trapcSem, hrel, hheld, hok]

/-- The retirement of a bundle that writes nothing leaves every other thread's record. -/
theorem thr?_retire_none_ne (s : State) {o tid p x : Nat} (pc : Word) (len : Nat) (h : thrKey p x ≠ thrKey o tid) :
    thr? (retire s o tid pc len Wr.none Wr.none) p x = thr? s p x := by
  cases ht : thr? s o tid with
  | none =>
    have hgone : ∀ f, onThr s o tid f = s := fun f => by
      rw [onThr, upd_none _ _ _ ht]
    have hacq : (Wr.none.join Wr.none).acq = none := rfl
    simp only [retire, applyRegs, applyStreams, ht, hacq, advance, hgone]
  | some t =>
    have hret := retire_none (f := .go) (pc := pc) (len := len) ht
    exact (congrArg (fun u => thr? u p x) hret).trans (lookup_put_ne _ _ h)

/-- A parked thread of number 2. -/
def strayThread : Thread := { tPk with tid := 2, slot := 2 }

/-- Its record stands where thread 1's belongs, and %trapc is to name thread 1 and kill it. -/
def strayParked : State := sD strayThread 0

/-- The disposition that g1 holds there. -/
def strayKill : Disp := ⟨1, 0, false, true, 0⟩

/-- The state of the kill, before the writer goes on. -/
def strayKilled : State := disposeOf (firstEnv strayParked cuT bootThread bootOwner (.mts 1 0x0C)).s 0 strayKill

theorem strayParked_issues : Issues strayParked cuT bootThread bootOwner (.mts 1 0x0C) 0 := issues_of (by decide)

theorem strayParked_g1 : readG strayParked bootThread 1 = 1 := by decide

theorem strayParked_released :
    releaseNow (firstEnv strayParked cuT bootThread bootOwner (.mts 1 0x0C)).s bootThread .pkg = true := by decide

theorem thr?_strayParked : thr? strayParked 0 1 = some strayThread := by decide

/-- The write is accepted. -/
theorem exec_strayParked : exec (.mts 1 0x0C) strayParked = .next (retiresTo strayParked cuT bootThread bootOwner (.mts 1 0x0C)
    (onThr strayKilled 0 0 (fun x => { x with trapc := trapcAfter 1 true })) Wr.none) := by
  have hg : (firstEnv strayParked cuT bootThread bootOwner (.mts 1 0x0C)).g 1 = 1 :=
    (envX_g strayParked cuT bootThread bootOwner (.mts 1 0x0C) 1).trans strayParked_g1
  have hdisp : dispOf 1 = strayKill := by decide
  have hsem := trapcSem_accepted (e := firstEnv strayParked cuT bootThread bootOwner (.mts 1 0x0C)) (a := 1)
    strayParked_released (by decide) (by decide)
  rw [hg, hdisp] at hsem
  exact runX_ok (sem := mtsSem 1 0x0C) (wx := Wr.none) strayParked_issues ((if_pos rfl).trans hsem)

/-- The record that %trapc names is parked still. -/
theorem thr?_strayKilled : thr? strayKilled 0 1 = some strayThread := by decide

theorem wrV_strayParked : wrV (bare strayParked) cuT bootThread bootOwner (.mts 1 0x0C) = Wr.none := by decide

/-- What the writer's retirement leaves of the record that its %trapc names. -/
theorem thr?_written (u : State) (f : Thread → Thread) :
    thr? (retiresTo strayParked cuT bootThread bootOwner (.mts 1 0x0C) (onThr u 0 0 f) Wr.none) 0 1 = thr? u 0 1 := by
  rw [retiresTo, wrV_strayParked, thr?_retire_none_ne _ _ _ (by decide), thr?_onThr_ne _ _ _ (by decide)]

end Sys2Proof.Machine
end

section
open Sys2Proof Sys2Proof.Machine

/-- Refutes O45: its clause of a kill says of every record found where a disposition's thread belongs that it is dying
afterwards, but a record that stands under another thread's key stays parked. -/
theorem not_dispositions : ¬ Obligations.Dispositions := by
  unfold Obligations.Dispositions
  intro h
  obtain ⟨-, hreleased⟩ := h strayParked cuT bootThread bootOwner 1 strayParked_issues
  obtain ⟨-, hfound⟩ := hreleased strayParked_released
  rw [strayParked_g1] at hfound
  obtain ⟨-, -, hparked⟩ := hfound strayThread thr?_strayParked
  obtain ⟨-, hkill, -⟩ := hparked _ rfl rfl (by decide) rfl
  obtain ⟨u, y, hexec, hy, hdying⟩ := hkill (by decide)
  rw [exec_strayParked] at hexec
  injection hexec with hstate
  have hthr := congrArg (fun v => thr? v 0 1) hstate
  dsimp only at hthr
  have hkept : thr? strayKilled 0 1 = thr? u 0 1 := (thr?_written strayKilled _).symm.trans (hthr.trans (thr?_written u _))
  obtain rfl : strayThread = y := Option.some.inj (thr?_strayKilled.symm.trans (hkept.trans hy))
  exact absurd hdying (by decide)

end

section
/-!
SUPPORT. What a bundle that ends with its registers writes (R143, R145, R148): its general and vector registers entry by
entry, the record of its thread, and what each register reads back as.
-/

namespace Sys2Proof.Machine

/-! ## Reads after a list of writes -/

/-- The last write of a name counts. -/
def lastWrite {ρ α : Type} [DecidableEq ρ] (l : List (ρ × α)) (r : ρ) : Option α := (l.reverse.find? (fun p => p.1 = r)).map (·.2)

/-- What a name reads after a list of writes: `rd` reads the name `r`, which a write of another name leaves as it was. -/
theorem read_foldl_write {σ ρ α : Type} [DecidableEq ρ] {write : σ → ρ → α → σ} {rd : σ → α} {r : ρ}
    (hself : ∀ m v, rd (write m r v) = v) (hne : ∀ m q v, q ≠ r → rd (write m q v) = rd m) (l : List (ρ × α)) (m : σ) :
    rd (l.foldl (fun m p => write m p.1 p.2) m) = (lastWrite l r).getD (rd m) := by
  induction l using List.reverseRecOn with
  | nil => rfl
  | append_singleton l p ih =>
    rw [List.foldl_append, List.foldl_cons, List.foldl_nil, lastWrite, List.reverse_append, List.reverse_singleton,
      List.singleton_append]
    by_cases hp : p.1 = r
    · rw [List.find?_cons_of_pos (by simpa using hp), hp, hself]
      rfl
    · rw [List.find?_cons_of_neg (by simpa using hp), hne _ _ _ hp]
      exact ih

/-! ## The entries of the register files -/

section
variable (t : Thread)

/-- An entry of the general file written; a write to g0 is discarded. -/
def gEntry (m : SMap Word) (r : GReg) (v : Word) : SMap Word :=
  if r = 0 then m else setD 0 m (gKey t.o t.core (t.gbase + r.toNat)) v

def vEntry (m : SMap Vec) (r : VReg) (v : Vec) : SMap Vec := setD 0 m (vKey t.o t.core (t.vbase + r.toNat)) v

/-- The general file after a bundle's writes. -/
def gWritten (l : List (GReg × Word)) (m : SMap Word) : SMap Word := l.foldl (fun m p => gEntry t m p.1 p.2) m

/-- The vector file after a bundle's writes. -/
def vWritten (l : List (VReg × Vec)) (m : SMap Vec) : SMap Vec := l.foldl (fun m p => vEntry t m p.1 p.2) m

/-- The thread's masks, special registers, flags and rounding request after a bundle's writes. -/
def regsWritten (w : Wr) : Thread :=
  orFlags (w.sp.foldl (fun t p => writeSp t p.1 p.2) (w.m.foldl (fun t p => writeM t p.1 p.2) t)) w.flags w.srs

theorem writeG_eq (s : State) (r : GReg) (v : Word) : writeG s t r v = { s with gfile := gEntry t s.gfile r v } := by
  unfold writeG gEntry
  split <;> rfl

theorem foldl_writeG (l : List (GReg × Word)) (s : State) :
    l.foldl (fun s p => writeG s t p.1 p.2) s = { s with gfile := gWritten t l s.gfile } := by
  induction l generalizing s with
  | nil => rfl
  | cons p l ih => rw [List.foldl_cons, ih, writeG_eq]; rfl

theorem foldl_writeV (l : List (VReg × Vec)) (s : State) :
    l.foldl (fun s p => writeV s t p.1 p.2) s = { s with vfile := vWritten t l s.vfile } := by
  induction l generalizing s with
  | nil => rfl
  | cons p l ih => rw [List.foldl_cons, ih]; rfl

variable {t}

/-- Two registers of a thread are two entries of the file. -/
theorem gKey_ne {q r : GReg} (h : q ≠ r) : gKey t.o t.core (t.gbase + r.toNat) ≠ gKey t.o t.core (t.gbase + q.toNat) := by
  intro heq
  simp only [gKey] at heq
  exact h (BitVec.eq_of_toNat_eq (by omega))

theorem vKey_ne {q r : VReg} (h : q ≠ r) : vKey t.o t.core (t.vbase + r.toNat) ≠ vKey t.o t.core (t.vbase + q.toNat) := by
  intro heq
  simp only [vKey] at heq
  exact h (BitVec.eq_of_toNat_eq (by omega))

theorem lookup_gEntry_ne {k : Nat} {r : GReg} (h : k ≠ gKey t.o t.core (t.gbase + r.toNat)) (m : SMap Word) (v : Word) :
    lookup (gEntry t m r v) k = lookup m k := by
  unfold gEntry
  split
  · rfl
  · exact lookup_setD_ne _ _ _ h

theorem readG_gWritten {s u : State} {l : List (GReg × Word)} (h : u.gfile = gWritten t l s.gfile) (r : GReg) :
    readG u t r = if r = 0 then 0 else (lastWrite l r).getD (readG s t r) := by
  by_cases hr : r = 0
  · rw [readG, if_pos hr, if_pos hr]
  · have hself (m : SMap Word) (v : Word) : getD 0 (gEntry t m r v) (gKey t.o t.core (t.gbase + r.toNat)) = v := by
      rw [gEntry, if_neg hr, getD_setD_self]
    have hne (m : SMap Word) (q : GReg) (v : Word) (hq : q ≠ r) := congrArg (·.getD 0) (lookup_gEntry_ne (gKey_ne (t := t) hq) m v)
    rw [readG, readG, if_neg hr, if_neg hr, if_neg hr, h]
    exact read_foldl_write (write := gEntry t) (rd := fun m => getD 0 m (gKey t.o t.core (t.gbase + r.toNat))) hself hne l s.gfile

theorem readV_vWritten {s u : State} {l : List (VReg × Vec)} (h : u.vfile = vWritten t l s.vfile) (r : VReg) :
    readV u t r = (lastWrite l r).getD (readV s t r) := by
  rw [readV, readV, h]
  exact read_foldl_write (write := vEntry t) (rd := fun m => getD 0 m (vKey t.o t.core (t.vbase + r.toNat)))
    (fun _ _ => getD_setD_self ..) (fun _ _ _ hq => getD_setD_ne _ _ _ (vKey_ne hq)) l s.vfile

/-- An entry that no write names is as it was. -/
theorem lookup_gWritten {l : List (GReg × Word)} {k : Nat} (h : ∀ p ∈ l, k ≠ gKey t.o t.core (t.gbase + p.1.toNat))
    (m : SMap Word) : lookup (gWritten t l m) k = lookup m k := by
  induction l generalizing m with
  | nil => rfl
  | cons p l ih => exact (ih (fun q hq => h q (List.mem_cons_of_mem _ hq)) _).trans (lookup_gEntry_ne (h p List.mem_cons_self) _ _)

theorem lookup_vWritten {l : List (VReg × Vec)} {k : Nat} (h : ∀ p ∈ l, k ≠ vKey t.o t.core (t.vbase + p.1.toNat))
    (m : SMap Vec) : lookup (vWritten t l m) k = lookup m k := by
  induction l generalizing m with
  | nil => rfl
  | cons p l ih =>
    exact (ih (fun q hq => h q (List.mem_cons_of_mem _ hq)) _).trans (lookup_setD_ne _ _ _ (h p List.mem_cons_self))

end

/-! ## The record of the thread -/

/-- Masks, pc, streams and the special registers that no list of writes names are kept by writes of masks. -/
theorem foldl_writeM_eq (l : List (MReg × BitVec 64)) (t : Thread) :
    ∃ ms, l.foldl (fun t p => writeM t p.1 p.2) t = { t with masks := ms } := by
  induction l generalizing t with
  | nil => exact ⟨t.masks, rfl⟩
  | cons p l ih =>
    obtain ⟨ms, h⟩ := ih (writeM t p.1 p.2)
    refine ⟨ms, h.trans ?_⟩
    unfold writeM
    split <;> rfl

theorem readM_foldl_writeM (l : List (MReg × BitVec 64)) (t : Thread) (r : MReg) :
    readM (l.foldl (fun t p => writeM t p.1 p.2) t) r = if r = 0 then BitVec.allOnes 64 else (lastWrite l r).getD (readM t r) := by
  by_cases hr : r = 0
  · rw [readM, if_pos hr, if_pos hr]
  · have hself (t : Thread) (v : BitVec 64) : readM (writeM t r v) r = v := by
      rw [writeM, if_neg hr, readM, if_neg hr, getD_setD_self]
    have hne (t : Thread) (q : MReg) (v : BitVec 64) (hq : q ≠ r) : readM (writeM t q v) r = readM t r := by
      rw [readM, readM, if_neg hr, if_neg hr, writeM]
      split
      · rfl
      · exact getD_setD_ne _ _ _ (fun h => hq (BitVec.eq_of_toNat_eq h.symm))
    rw [if_neg hr]
    exact read_foldl_write (write := writeM) (rd := fun t => readM t r) hself hne l t

/-- Special registers are no masks and no streams. -/
theorem foldl_writeSp_keeps (l : List (BitVec 8 × Word)) (t : Thread) : (l.foldl (fun t p => writeSp t p.1 p.2) t).masks = t.masks
    ∧ (l.foldl (fun t p => writeSp t p.1 p.2) t).streams = t.streams := by
  induction l generalizing t with
  | nil => exact ⟨rfl, rfl⟩
  | cons p l ih =>
    obtain ⟨hm, hs⟩ := ih (writeSp t p.1 p.2)
    have hw : (writeSp t p.1 p.2).masks = t.masks ∧ (writeSp t p.1 p.2).streams = t.streams := by
      unfold writeSp
      split <;> exact ⟨rfl, rfl⟩
    exact ⟨hm.trans hw.1, hs.trans hw.2⟩

theorem readM_congr {t t' : Thread} (h : t'.masks = t.masks) (r : MReg) : readM t' r = readM t r := by
  rw [readM, readM, h]

theorem readM_regsWritten (t : Thread) (w : Wr) (r : MReg) :
    readM (regsWritten t w) r = if r = 0 then BitVec.allOnes 64 else (lastWrite w.m r).getD (readM t r) :=
  (readM_congr (foldl_writeSp_keeps w.sp _).1 r).trans (readM_foldl_writeM w.m t r)

theorem regsWritten_streams (t : Thread) (w : Wr) : (regsWritten t w).streams = t.streams := by
  obtain ⟨ms, h⟩ := foldl_writeM_eq w.m t
  exact (foldl_writeSp_keeps w.sp _).2.trans (by rw [h])

/-- With no special register written, only masks change and what the flags and the rounding request set. -/
theorem regsWritten_noSp {w : Wr} (h : w.sp = []) (t : Thread) :
    ∃ ms, regsWritten t w = orFlags { t with masks := ms } w.flags w.srs := by
  obtain ⟨ms, hm⟩ := foldl_writeM_eq w.m t
  exact ⟨ms, by rw [regsWritten, h, hm]; rfl⟩

/-! ## Retirement -/

/-- The record of a thread replaced. -/
def withThread (s : State) (o tid : Nat) (t : Thread) : State := { s with threads := put s.threads (thrKey o tid) t }

/-- The two register files after a bundle's writes. -/
def filesWritten (s : State) (t : Thread) (w : Wr) : State :=
  { s with gfile := gWritten t w.g s.gfile, vfile := vWritten t w.v s.vfile }

section
variable {s : State} {o tid : Nat} {t : Thread}

@[simp] theorem thr?_withThread (s : State) (o tid : Nat) (t : Thread) : thr? (withThread s o tid t) o tid = some t :=
  lookup_put_self _ _ _

@[simp] theorem withThread_withThread (s : State) (o tid : Nat) (t t' : Thread) :
    withThread (withThread s o tid t) o tid t' = withThread s o tid t' := by
  simp only [withThread, put_put]

theorem goneOn_withThread (s : State) (o tid : Nat) (t t' : Thread) (npc : Word) :
    goneOn (withThread s o tid t) o tid t' npc = withThread s o tid (wentOn t' npc) := withThread_withThread ..

/-- The registers of a bundle are two files and the record of its thread. -/
theorem applyRegs_eq (ht : thr? s o tid = some t) (w : Wr) :
    applyRegs s o tid w = withThread (filesWritten s t w) o tid (regsWritten t w) := by
  simp only [applyRegs, ht, foldl_writeG, foldl_writeV, onThr]
  rw [upd_of_lookup _ _ _ ht]
  rfl

theorem boundTo_congr {t t' : Thread} (h : t'.streams = t.streams) (v : VReg) : boundTo t' v = boundTo t v := by
  simp only [boundTo, streamAt, h]

/-- A write of a vector register that an output stream is bound to pushes an element (R162). -/
def pushWrite (acc : State × Thread) (p : VReg × Vec) : State × Thread :=
  match boundTo acc.2 p.1 with
  | some n => if (streamAt acc.2 n).out then pushStream acc.1 acc.2 n p.2 else acc
  | none => acc

/-- The effect of a stream instruction, where the bundle has one. -/
def strmAfter (t : Thread) (op : Option StrmOp) : Thread := (op.map (strmOp t)).getD t

/-- The thread and the requests after a bundle's pops and pushes. -/
def streamed (s : State) (t : Thread) (w : Wr) : State × Thread := w.v.foldl pushWrite (s, w.pops.foldl popStream t)

theorem applyStreams_eq (ht : thr? s o tid = some t) (w : Wr) : applyStreams s o tid w
    = withThread (streamed s t w).1 o tid (strmAfter (streamed s t w).2 w.strm) := by
  unfold applyStreams
  rw [ht]
  cases w.strm <;> rfl

/-- Writes of vector registers that no stream is bound to push nothing. -/
theorem foldl_pushWrite_unbound {l : List (VReg × Vec)} (h : ∀ p ∈ l, boundTo t p.1 = none) :
    l.foldl pushWrite (s, t) = (s, t) := by
  induction l with
  | nil => rfl
  | cons p l ih =>
    have hp : pushWrite (s, t) p = (s, t) := by simp only [pushWrite, h p List.mem_cons_self]
    rw [List.foldl_cons, hp]
    exact ih (fun q hq => h q (List.mem_cons_of_mem _ hq))

theorem streamed_unbound {w : Wr} (hv : ∀ p ∈ w.v, boundTo t p.1 = none) (hp : w.pops = []) : streamed s t w = (s, t) := by
  rw [streamed, hp]
  exact foldl_pushWrite_unbound hv

/-- The state in which a bundle's thread has gone on, with its registers written and its streams moved. -/
def registersRetired (s : State) (o tid : Nat) (t : Thread) (w : Wr) (npc : Word) : State :=
  let r := streamed (withThread (filesWritten s t w) o tid (regsWritten t w)) (regsWritten t w) w
  withThread r.1 o tid (wentOn (strmAfter r.2 w.strm) npc)

/-- A bundle that ends with no acquire and leaves its thread running writes its registers, moves its streams and goes on. -/
theorem retire_go {pc : Word} {len : Nat} {wx wv : Wr} (ht : thr? s o tid = some t) (hfin : wx.fin = .go) (hacq : wx.acq = none) :
    retire s o tid pc len wx wv = registersRetired s o tid t (wx.join wv) (wx.npc.getD (pc + BitVec.ofNat 64 len)) := by
  have hfin' : (wx.join wv).fin = .go := hfin
  have hacq' : (wx.join wv).acq = none := hacq
  unfold retire
  simp only [applyRegs_eq ht, applyStreams_eq (thr?_withThread ..), hacq', hfin', advance_eq (thr?_withThread ..),
    goneOn_withThread, thr?_withThread]
  rfl

/-- With no stream touched, two register files and one thread's record are written. -/
theorem registersRetired_unbound {w : Wr} (hv : ∀ p ∈ w.v, boundTo t p.1 = none) (hp : w.pops = []) (hs : w.strm = none)
    (npc : Word) : registersRetired s o tid t w npc = withThread (filesWritten s t w) o tid (wentOn (regsWritten t w) npc) := by
  have hunbound : ∀ p ∈ w.v, boundTo (regsWritten t w) p.1 = none :=
    fun p h => (boundTo_congr (regsWritten_streams t w) p.1).trans (hv p h)
  rw [registersRetired, streamed_unbound hunbound hp, hs]
  exact withThread_withThread ..

end

end Sys2Proof.Machine
end

section
namespace Sys2Proof
open Sys2Proof.Machine

/-- Settles O7: such a bundle changes the two register files and its thread's record, each as its last writes say. -/
theorem retirement : Obligations.Retirement := by
  unfold Obligations.Retirement
  intro s o tid len pc wx wv t ht hfin hacq hstrm hpops hunbound s'
  have hs' : s' = _ := (retire_go ht hfin hacq).trans (registersRetired_unbound (w := wx.join wv) hunbound hpops hstrm _)
  rw [hs']
  refine ⟨fun r => readG_gWritten rfl r, fun r => readV_vWritten rfl r, ⟨_, thr?_withThread .., rfl, rfl,
    fun r => readM_regsWritten t (wx.join wv) r, fun hx hv => ?_⟩, fun k hk => lookup_gWritten hk _,
    fun k hk => lookup_vWritten hk _, fun k hk => lookup_put_ne _ _ hk, rfl, rfl, rfl, rfl, rfl, rfl, rfl⟩
  obtain ⟨ms, hregs⟩ := regsWritten_noSp (w := wx.join wv) (by rw [Wr.join, hx, hv]; rfl) t
  rw [hregs]
  exact ⟨rfl, rfl, rfl, rfl, rfl, rfl, rfl⟩

end Sys2Proof
end

section
/-!
SUPPORT. The checks of a decoded bundle's encoding and registers (R142, R144, R145, R302): which of them fails first, for
every instruction that a core issues.
-/

namespace Sys2Proof.Machine

/-- Every instruction that has an encoding is one that a core issues; events have none. -/
theorem exec_encoded {i : Instr} (h : (encode i).isSome = true) : ∃ sem : Env → XRes, ∀ s, exec i s = runX i sem s := by
  cases i <;> cases h <;> exact ⟨_, fun _ => rfl⟩

/-- The two halves break the bank rule, or write one register. -/
def halvesClash (t : Thread) (a b : Uses) : Bool :=
  bankClash (a.gCount ++ b.gCount) || bankClash (a.vCount t ++ b.vCount t) || writeClash a b

section
variable {s : State} {c : Cur} {t : Thread} {i : Instr}

theorem bundleCheck_clash (h : halvesClash t (uses i) (usesV c) = true) : bundleCheck s t i c.v
    = some (mkTrap 0x01 2 0, (usesV c).clash t && !(uses i).clash t && !writeClash (uses i) (usesV c)) := if_pos h

theorem bundleCheck_special (h : halvesClash t (uses i) (usesV c) = false) (hsp : spCheck s t i = false) :
    bundleCheck s t i c.v = some (mkTrap 0x01 5 0, false) :=
  (if_neg (ne_true_of_eq_false h)).trans (if_pos (by rw [hsp]; rfl))

/-- With no encoding at fault, the windows are what is left to check. -/
theorem bundleCheck_windows (h : halvesClash t (uses i) (usesV c) = false) (hsp : spCheck s t i = true) :
    bundleCheck s t i c.v = ((outside t (uses i)).map (fun n => (mkTrap 0x02 n 0, false))).or
      ((outside t (usesV c)).map (fun n => (mkTrap 0x02 n 0, true))) := by
  refine ((if_neg (ne_true_of_eq_false h)).trans (if_neg (by rw [hsp]; decide))).trans ?_
  show (match outside t (uses i), outside t (usesV c) with
    | some n, _ => some (mkTrap Cause.regw n 0, false)
    | none, some n => some (mkTrap Cause.regw n 0, true)
    | none, none => none) = _
  cases outside t (uses i) <;> cases outside t (usesV c) <;> rfl

end

end Sys2Proof.Machine
end

section
namespace Sys2Proof
open Sys2Proof.Machine

/-- Settles O10: the check of the bundle finds the fault, and a bundle that fails it takes its trap. -/
theorem encodingTraps : Obligations.EncodingTraps := by
  unfold Obligations.EncodingTraps
  intro i s c t w henc hc ht ho a b clash vonly
  obtain ⟨sem, hexec⟩ := exec_encoded henc
  have htrap {ti : TrapInfo} {vh : Bool} (h : bundleCheck s t i c.v = some (ti, vh)) :
      exec i s = .next (takeTrap (bare s) c.o c.tid ti c.pc (some (lenBits c.len)) false vh) :=
    (hexec s).trans (runX_bad hc ht ho h)
  refine ⟨fun hclash => htrap (bundleCheck_clash hclash), fun hclash hsp => htrap (bundleCheck_special hclash hsp),
    fun hclash hsp n hn => htrap ?first, fun hclash hsp hin n hn => htrap ?second⟩
  case first => rw [bundleCheck_windows hclash hsp, hn]; rfl
  case second => rw [bundleCheck_windows hclash hsp, hin, hn]; rfl

end Sys2Proof
end

section
/-!
SUPPORT. What MFS, MTS, RDCYC and SKIMW find and leave (R146 to R153, R385, R389): the state that a first half reads, and
the special registers a write changes.
-/

namespace Sys2Proof.Machine

/-! ## The state that a first half reads -/

section
variable (s : State) (c : Cur) (t : Thread) (w : Owner) (i : Instr)

/-- It differs from the state before the bundle in the cores alone, whose dither sources the second half has moved. -/
theorem firstEnv_cores : ∃ cs, (firstEnv s c t w i).s = { bare s with cores := cs } := by
  rcases takeDraws_eq (bare s) t (halfOf (envIn (bare s) c t w i)).draws with h | h
  · exact ⟨s.cores, h⟩
  · exact ⟨_, h⟩

variable {s c t w i} in
theorem onCoreOf_firstEnv {k : Core} (hk : core? s t.o t.core = some k) {f : Core → Word} (hf : ∀ n, f { k with dither := n } = f k) :
    onCoreOf (firstEnv s c t w i) f = f k := by
  have hcore : ∃ n, core? (firstEnv s c t w i).s t.o t.core = some { k with dither := n } := by
    rcases takeDraws_eq (bare s) t (halfOf (envIn (bare s) c t w i)).draws with h | h
    · exact ⟨k.dither, (congrArg (core? · t.o t.core) h).trans hk⟩
    · obtain ⟨m, hm⟩ := core?_drawn (bare s) t.o t.core t.o t.core (halfOf (envIn (bare s) c t w i)).draws
      refine ⟨k.dither + m, (congrArg (core? · t.o t.core) h).trans (hm.trans ?_)⟩
      exact congrArg (Option.map _) hk
  obtain ⟨n, hn⟩ := hcore
  have hn' : core? (firstEnv s c t w i).s (firstEnv s c t w i).t.o (firstEnv s c t w i).t.core = some { k with dither := n } := hn
  rw [onCoreOf, hn']
  exact hf n

theorem timeNs_firstEnv : timeNs (firstEnv s c t w i).s = timeNs s := by
  obtain ⟨cs, h⟩ := firstEnv_cores s c t w i
  rw [h]
  rfl

theorem skimOf_firstEnv : skimOf (firstEnv s c t w i).s t.o w = skimOf s t.o w := by
  obtain ⟨cs, h⟩ := firstEnv_cores s c t w i
  rw [h]
  rfl

variable {s c t w i} in
theorem onClusOf_firstEnv {k : Cluster} (hk : clus? s t.o (t.core / 8) = some k) (f : Cluster → Word) :
    onClusOf (firstEnv s c t w i) f = f k := by
  obtain ⟨cs, h⟩ := firstEnv_cores s c t w i
  have hclus : clus? (firstEnv s c t w i).s (firstEnv s c t w i).t.o ((firstEnv s c t w i).t.core / 8) = some k := by
    rw [h]
    exact hk
  rw [onClusOf, hclus]

theorem budget_firstEnv (o k : Nat) : (engineAt (firstEnv s c t w i).s (clusPlace (firstEnv s c t w i).s o k)).budget
    = (engineAt s (clusPlace s o k)).budget := by
  obtain ⟨cs, h⟩ := firstEnv_cores s c t w i
  rw [h]
  rfl

end

/-! ## MFS -/

theorem spPlumb_iff (r : BitVec 8) : spPlumb r.toNat = true ↔ r = 0x06 ∨ r = 0x07 ∨ r = 0x0D ∨ r = 0x0E ∨ r = 0x0F := by
  simp [spPlumb, BitVec.toNat_eq, or_assoc]

section
variable {s : State} {c : Cur} {t : Thread} {w : Owner} {d : GReg} {r : BitVec 8}

theorem exec_mfs_timed (h : Issues s c t w (.mfs d r) 0) (hp : w.plumb = true) (hr : spPlumb r.toNat = true) :
    exec (.mfs d r) s = .next (trapsTo s c t w (.mfs d r) (mkTrap 0x10 0 0)) :=
  runX_trapC (sem := mfsSem d r) h (if_pos (by rw [envX_w, hp, hr]; rfl))

theorem exec_mfs (h : Issues s c t w (.mfs d r) 0) (hr : ¬ (w.plumb = true ∧ spPlumb r.toNat = true)) :
    exec (.mfs d r) s
      = .next (doneWith s c t w (.mfs d r) (Wr.ofG d (readSp (firstEnv s c t w (.mfs d r)) r.toNat))) :=
  runX_done (sem := mfsSem d r) h (if_neg (by rwa [envX_w, Bool.and_eq_true]))

end

/-! ## MTS -/

theorem orFlags_none (t : Thread) : orFlags t 0#8 false = t := by simp [orFlags]

/-- A write of a special register that is no watchpoint changes that register, under its mask, and no other. -/
theorem writeSp_regs (t : Thread) (r : BitVec 8) (v : Word) :
    (writeSp t r v).fpc = (if r = 0x00 then v &&& 0x13F0F else t.fpc) ∧
    (writeSp t r v).stat = (if r = 0x01 then v &&& 0x7F else t.stat) ∧
    (writeSp t r v).rngs0 = (if r = 0x08 then v else t.rngs0) ∧ (writeSp t r v).rngs1 = t.rngs1 ∧
    (writeSp t r v).rngk = (if r = 0x0A then v else t.rngk) ∧
    (writeSp t r v).wlim = (if r = 0x0B then v.setWidth 32 else t.wlim) ∧ (writeSp t r v).trapc = t.trapc := by
  unfold writeSp
  split <;> simp_all [BitVec.toNat_eq]

theorem getD_setD {α : Type} [DecidableEq α] (d : α) (m : SMap α) (i j : Nat) (x : α) :
    getD d (setD d m i x) j = if j = i then x else getD d m j := by
  by_cases h : j = i
  · rw [if_pos h, h, getD_setD_self]
  · rw [if_neg h, getD_setD_ne _ _ _ h]

/-- A watchpoint is written under its mask, the others stay. -/
theorem writeSp_wp (t : Thread) (r : BitVec 8) (v : Word) {k : Nat} (hk : k < 4) :
    getD 0 (writeSp t r v).wp k = if r.toNat = 0x14 + k then v &&& 0x3FFFFFFFFFFFFFFF else getD 0 t.wp k := by
  unfold writeSp
  split <;> grind [getD_setD]

section
variable {s : State} {c : Cur} {t : Thread} {w : Owner} {i : Instr}

/-- A bundle with no second half whose first names no vector register pops nothing and has no second half's writes. -/
theorem wrV_noPops (hv : c.v = none) (hpops : popsOf t (uses i) = []) : wrV s c t w i = Wr.none := by
  have hin : popsIn t c i = [] := by
    rw [popsIn, usesV, hv, hpops]
    rfl
  simp only [wrV, halfOf, envIn, hv, hin, List.map_nil]
  rfl

variable {a : GReg} {r : BitVec 8} {x : Word}

/-- MTS alone in its bundle leaves its thread at the next bundle, with the special register written. -/
theorem thr?_mts (h : Issues s c t w (.mts a r) 0) (hv : c.v = none) :
    thr? (doneWith s c t w (.mts a r) (Wr.ofSp r x)) c.o c.tid
      = some (wentOn (writeSp t r x) (c.pc + BitVec.ofNat 64 c.len)) := by
  have hthr : thr? (envX (bare s) c t w (.mts a r)).s c.o c.tid = some t :=
    (thr?_congr (takeDraws_threads ..) c.o c.tid).trans h.thr
  have hregs : regsWritten t ((Wr.ofSp r x).join Wr.none) = writeSp t r x := by
    simp [regsWritten, Wr.join, Wr.ofSp, Wr.none, orFlags_none]
  rw [doneWith, retiresTo, wrV_noPops hv rfl, retire_go hthr rfl rfl,
    registersRetired_unbound (by simp [Wr.join, Wr.ofSp, Wr.none]) rfl rfl, thr?_withThread, hregs]
  rfl

theorem exec_mts (h : Issues s c t w (.mts a r) 0) (hr : r ≠ 0x0C) :
    exec (.mts a r) s = .next (doneWith s c t w (.mts a r) (Wr.ofSp r (readG s t a))) :=
  runX_done (sem := mtsSem a r) h ((if_neg hr).trans (by rw [envX_g]))

end

/-! ## RDCYC and SKIMW -/

section
variable {s : State} {c : Cur} {t : Thread} {w : Owner} {d a : GReg}

theorem exec_rdcyc_plumb (h : Issues s c t w (.rdcyc d) 0) (hp : w.plumb = true) :
    exec (.rdcyc d) s = .next (doneWith s c t w (.rdcyc d) (Wr.ofG d (BitVec.ofNat 64 (t.slots.getD 0)))) :=
  runX_done (sem := rdcycSem d) h (if_pos hp)

theorem exec_rdcyc_open (h : Issues s c t w (.rdcyc d) 0) (hp : w.plumb = false) : exec (.rdcyc d) s
    = .next (doneWith s c t w (.rdcyc d) (Wr.ofG d (onCoreOf (firstEnv s c t w (.rdcyc d)) (fun k => BitVec.ofNat 64 k.cyc)))) :=
  runX_done (sem := rdcycSem d) h (if_neg (ne_true_of_eq_false hp))

/-- The skim count that SKIMW names is the low 48 bits of its register. -/
theorem skimw_want (i : Instr) : ((envX (bare s) c t w i).g a |>.extractLsb' 0 48).toNat = (readG s t a).toNat % 2 ^ 48 := by
  simp

theorem exec_skimw_plumb (h : Issues s c t w (.skimw d a) 0) (hp : w.plumb = true) :
    exec (.skimw d a) s = .next (trapsTo s c t w (.skimw d a) (mkTrap 0x10 0 0)) :=
  runX_trapC (sem := skimwSem d a) h (if_pos hp)

theorem exec_skimw_passed (h : Issues s c t w (.skimw d a) 0) (hp : w.plumb = false)
    (hgen : w.gen % 2 ^ 48 ≠ (readG s t a).toNat % 2 ^ 48) : exec (.skimw d a) s
      = .next (doneWith s c t w (.skimw d a) (Wr.ofG d (BitVec.ofNat 64 (w.gen % 2 ^ 48)))) :=
  runX_done (sem := skimwSem d a) h ((if_neg (ne_true_of_eq_false hp)).trans (if_neg (by rw [skimw_want]; exact hgen)))

theorem exec_skimw_waits (h : Issues s c t w (.skimw d a) 0) (hp : w.plumb = false)
    (hgen : w.gen % 2 ^ 48 = (readG s t a).toNat % 2 ^ 48) : exec (.skimw d a) s
      = .next (putWait (firstEnv s c t w (.skimw d a)).s c (.skim ((readG s t a).toNat % 2 ^ 48))
        (some (bundleOf (bare s) c t w (.skimw d a)))) :=
  runX_wait (sem := skimwSem d a) h ((if_neg (ne_true_of_eq_false hp)).trans
    ((if_pos (by rw [skimw_want]; exact hgen)).trans (by rw [skimw_want]; rfl)))

end

end Sys2Proof.Machine
end

section
namespace Sys2Proof
open Sys2Proof.Machine

/-- Settles O44: a special register reads as the record that holds it, which the draws of the second half leave alone; a
write changes its register under its mask. -/
theorem specialRegisters : Obligations.SpecialRegisters := by
  unfold Obligations.SpecialRegisters
  intro s c t w
  refine ⟨?mfs, ?mts, ?rdcyc, ?skimw⟩
  case mfs =>
    intro d r i hissue timed gives
    refine ⟨fun hp ht => exec_mfs_timed hissue hp ((spPlumb_iff r).2 ht), fun hfree => ?_⟩
    have hgives {n : BitVec 8} {x : Word} (hn : r = n) (hx : readSp (firstEnv s c t w i) n.toNat = x) : gives x := by
      subst hn hx
      exact exec_mfs hissue (by rwa [spPlumb_iff])
    refine ⟨(hgives · rfl), (hgives · rfl), (hgives · rfl), (hgives · rfl), (hgives · rfl), (hgives · rfl),
      fun k hk => ⟨(hgives · (onCoreOf_firstEnv hk fun _ => rfl)), (hgives · (onCoreOf_firstEnv hk fun _ => rfl))⟩,
      (hgives · (congrArg (BitVec.ofNat 64) (timeNs_firstEnv ..))), (hgives · rfl), (hgives · rfl), (hgives · rfl), (hgives · rfl),
      (hgives · rfl), fun k hk h => hgives h ?stall, (hgives · (skimOf_firstEnv ..)), (hgives · rfl), (hgives · rfl),
      fun k hk h => ?watch⟩
    case stall =>
      exact (onClusOf_firstEnv hk _).trans (congrArg (mxstallOf k) (budget_firstEnv ..))
    case watch =>
      refine hgives (n := BitVec.ofNat 8 (0x14 + k)) (BitVec.eq_of_toNat_eq (by simp; omega)) ?_
      interval_cases k <;> rfl
  case mts =>
    intro a r i x hissue hr hv
    obtain ⟨hfpc, hstat, hs0, hs1, hkey, hlim, htrapc⟩ := writeSp_regs t r x
    exact ⟨_, _, exec_mts hissue hr, rfl, thr?_mts hissue hv, hfpc, hstat, hs0, hs1, hkey, hlim, htrapc,
      fun k hk => writeSp_wp t r x hk⟩
  case rdcyc =>
    intro d i hissue
    refine ⟨exec_rdcyc_plumb hissue, fun k hk hp => ?_⟩
    rw [← onCoreOf_firstEnv (c := c) (w := w) (i := i) hk (f := fun k => BitVec.ofNat 64 k.cyc) fun _ => rfl]
    exact exec_rdcyc_open hissue hp
  case skimw =>
    intro d a i want hissue
    exact ⟨exec_skimw_plumb hissue, exec_skimw_passed hissue, exec_skimw_waits hissue⟩

end Sys2Proof
end

section
/-!
SUPPORT. What each operation on registers writes (R310, R359): registers that it names as destinations, and nothing else;
and the traps that it may meet, to none of which an item is bound.
-/

namespace Sys2Proof.Machine

/-! ## Traps without an item -/

/-- No item is bound to the trap, where there is one. -/
def plainTrap (x : Option TrapInfo) : Prop := ∀ ti ∈ x, ti.item = .none

theorem plainTrap_none : plainTrap none := nofun

theorem plainTrap_some {ti : TrapInfo} (h : ti.item = .none) : plainTrap (some ti) := by
  rintro _ ⟨⟩
  exact h

theorem plainTrap_lowest {a b : Option TrapInfo} (ha : plainTrap a) (hb : plainTrap b) : plainTrap (lowest a b) := by
  unfold lowest
  split
  · split
    · exact hb
    · exact ha
  · exact ha
  · exact hb

theorem plainTrap_lowestOf {l : List (Option TrapInfo)} (h : ∀ x ∈ l, plainTrap x) : plainTrap (lowestOf l) :=
  List.foldlRecOn l lowest plainTrap_none fun _ hb a ha => plainTrap_lowest hb (h a ha)

theorem pickTrap_plain {x v : Option TrapInfo} {ti : TrapInfo} {vh : Bool} (hx : plainTrap x) (hv : plainTrap v)
    (h : pickTrap x v = some (ti, vh)) : ti.item = .none := by
  unfold pickTrap at h
  split at h
  · split at h
    · cases h; exact hv _ rfl
    · cases h; exact hx _ rfl
  · cases h; exact hx _ rfl
  · cases h; exact hv _ rfl
  · cases h

/-- A check of an access meets only traps without an item. -/
def Chk.plain : Chk → Prop
  | .bad t => t.item = .none
  | .ok _ | .miss _ => True

theorem Chk.plain_ite {c : Prop} [Decidable c] {a b : Chk} (ha : a.plain) (hb : b.plain) : (if c then a else b).plain := by
  split
  · exact ha
  · exact hb

theorem permit_plain (w : Owner) (a : Act332) (k : AccKind) (wr : Bool) (va : Word) (l : Leaf) (pa : Nat) :
    (permit w a k wr va l pa).plain :=
  Chk.plain_ite rfl (Chk.plain_ite rfl (Chk.plain_ite rfl (Chk.plain_ite rfl (Chk.plain_ite rfl trivial))))

theorem ofWalk_plain (w : Owner) (a : Act332) (k : AccKind) (wr : Bool) (va : Word) (out : WalkOut) :
    (ofWalk w a k wr va out).plain := by
  cases out with
  | leaf l => exact permit_plain ..
  | xlat _ _ => rfl
  | prot _ => rfl

theorem locate_plain (s : State) (w : Owner) (t : Thread) (a : Act332) (k : AccKind) (wr : Bool) (va : Word) (n : Nat) :
    (locate s w t a k wr va n).plain := by
  refine Chk.plain_ite rfl (Chk.plain_ite ?spad ?page)
  case spad =>
    split
    · rfl
    · refine Chk.plain_ite rfl (Chk.plain_ite rfl (Chk.plain_ite ?own trivial))
      split
      · exact Chk.plain_ite rfl trivial
      · rfl
  case page =>
    split
    · trivial
    · exact ofWalk_plain ..

theorem pushChk_plain (s : State) (w : Owner) (t : Thread) (k : Nat) : (pushChk s w t k).plain := by
  refine Chk.plain_ite rfl ?_
  have hloc := locate_plain s w t .st .stream true ((streamAt t k).addr (streamAt t k).pos) 64
  split
  · refine Chk.plain_ite rfl ?_
    split
    · rfl
    · trivial
  · exact hloc

theorem popRes_plain {t : Thread} {k : Nat} {ti : TrapInfo} (h : popRes t k = .trap ti) : ti.item = .none := by
  unfold popRes at h
  dsimp only at h
  split at h
  · cases h; rfl
  · split at h
    · cases h; rfl
    · split at h
      · cases h; rfl
      · cases h
    · cases h
    · cases h

theorem popTraps_plain (t : Thread) (u : Uses) : ∀ x ∈ popTraps t u, plainTrap x := by
  intro x hx
  simp only [popTraps, List.mem_map] at hx
  obtain ⟨p, -, rfl⟩ := hx
  split
  · rename_i hp
    exact plainTrap_some (popRes_plain hp)
  · exact plainTrap_none
  · exact plainTrap_none

theorem pushTraps_plain (s : State) (w : Owner) (t : Thread) (u : Uses) : ∀ x ∈ pushTraps s w t u, plainTrap x := by
  intro x hx
  simp only [pushTraps, List.mem_map] at hx
  obtain ⟨k, -, rfl⟩ := hx
  have hk := pushChk_plain s w t k
  split
  · rename_i hbad
    exact plainTrap_some (by rwa [hbad] at hk)
  · exact plainTrap_none
  · exact plainTrap_none

theorem fpxTrap_plain (fpc : Word) (fl : BitVec 8) : plainTrap (fpxTrap fpc fl) := by
  unfold fpxTrap
  split
  · exact plainTrap_some rfl
  · exact plainTrap_none

theorem fpxOf_plain (t : Thread) (xf vf : BitVec 8) : plainTrap (fpxOf t xf vf).1 ∧ plainTrap (fpxOf t xf vf).2 := by
  unfold fpxOf
  split
  · exact ⟨fpxTrap_plain _ _, plainTrap_none⟩
  · exact ⟨plainTrap_none, fpxTrap_plain _ _⟩

/-- The trap of a half: its pops, its pushes, its own and FPX. -/
theorem halfTrap_plain {s : State} {w : Owner} {t : Thread} {u : Uses} {own fpx : Option TrapInfo} (hown : plainTrap own)
    (hfpx : plainTrap fpx) : plainTrap (lowestOf (popTraps t u ++ pushTraps s w t u ++ [own, fpx])) := by
  refine plainTrap_lowestOf fun x hx => ?_
  simp only [List.mem_append, List.mem_cons, List.not_mem_nil, or_false] at hx
  rcases hx with (hpop | hpush) | rfl | rfl
  · exact popTraps_plain t u x hpop
  · exact pushTraps_plain s w t u x hpush
  · exact hown
  · exact hfpx

/-! ## What a half writes -/

/-- A half writes registers that the operation names as destinations, of the special ones %rngs0 alone, and ends with its
registers. -/
structure NamesOnly (u : Uses) (w : Wr) : Prop where
  g   : ∀ p ∈ w.g, p.1.toNat ∈ u.dst false ++ u.also
  v   : ∀ p ∈ w.v, p.1.toNat ∈ u.dst true
  m   : ∀ p ∈ w.m, p.1.toNat ∈ u.md
  sp  : ∀ p ∈ w.sp, p.1 = 0x08 ∧ 0x08 ∈ u.sd
  fin : w.fin = .go
  acq : w.acq = none

/-- The same of what a V-op answers. -/
structure HalfNames (u : Uses) (h : Half) : Prop where
  trap  : plainTrap h.trap
  names : NamesOnly u h.w

section
variable {u : Uses} {f : BitVec 8} {b : Bool}

theorem namesOnly_none : NamesOnly u Wr.none :=
  ⟨List.forall_mem_nil _, List.forall_mem_nil _, List.forall_mem_nil _, List.forall_mem_nil _, rfl, rfl⟩

theorem namesOnly_g {d : GReg} (h : d.toNat ∈ u.dst false) (x : Word) : NamesOnly u { Wr.none with g := [(d, x)], flags := f } :=
  ⟨List.forall_mem_singleton.2 (List.mem_append_left _ h), List.forall_mem_nil _, List.forall_mem_nil _, List.forall_mem_nil _,
    rfl, rfl⟩

theorem namesOnly_v {d : VReg} (h : d.toNat ∈ u.dst true) (x : Vec) :
    NamesOnly u { Wr.none with v := [(d, x)], flags := f, srs := b } :=
  ⟨List.forall_mem_nil _, List.forall_mem_singleton.2 h, List.forall_mem_nil _, List.forall_mem_nil _, rfl, rfl⟩

theorem namesOnly_m {d : MReg} (h : d.toNat ∈ u.md) (x : BitVec 64) : NamesOnly u (Wr.ofM d x) :=
  ⟨List.forall_mem_nil _, List.forall_mem_nil _, List.forall_mem_singleton.2 h, List.forall_mem_nil _, rfl, rfl⟩

variable {e : Env}

theorem eachEl_names {d : VReg} (h : d.toNat ∈ u.dst true) (w : Nat) (k : MReg) (g : Nat → Nat → Res8) :
    HalfNames u (eachEl e w d k b g) := ⟨plainTrap_none, namesOnly_v h _⟩

theorem reduceTo_names {d : VReg} (h : d.toNat ∈ u.dst true) (ty : VType) (a : VReg) (k : MReg) (idn : Nat) (leaf : Nat → Nat)
    (g : Nat → Nat → Res8) : HalfNames u (reduceTo e ty d a k idn leaf g) := ⟨plainTrap_none, namesOnly_v h _⟩

theorem convEls_names {o : VConv} (h : o.d.toNat ∈ u.dst true) (f : Nat → Nat → Res8) : HalfNames u (convEls e o f) :=
  ⟨plainTrap_none, namesOnly_v h _⟩

theorem ofM_names {d : MReg} (h : d.toNat ∈ u.md) (x : BitVec 64) : HalfNames u ⟨Wr.ofM d x, none, 0⟩ :=
  ⟨plainTrap_none, namesOnly_m h x⟩

theorem ofV_names {d : VReg} (h : d.toNat ∈ u.dst true) (x : Vec) : HalfNames u ⟨Wr.ofV d x, none, 0⟩ :=
  ⟨plainTrap_none, namesOnly_v h x⟩

theorem ofG_names {d : GReg} (h : d.toNat ∈ u.dst false) (x : Word) : HalfNames u ⟨Wr.ofG d x, none, 0⟩ :=
  ⟨plainTrap_none, namesOnly_g h x⟩

theorem blkTrap_plain (ty : VType) (ds : Nat) : plainTrap (blkTrap ty ds) := by
  unfold blkTrap
  split
  · exact plainTrap_none
  · exact plainTrap_some rfl

/-- VQNT also writes the scale of its descriptor register, which is read through no update port (R373). -/
theorem vqntSem_names (o : VBlk) : HalfNames (uses (.vqnt o)) (vqntSem o e) := by
  have hplain := blkTrap_plain o.ty ((e.g o.s).toNat % 65536)
  unfold vqntSem
  dsimp only
  split
  · rename_i htrap
    exact ⟨by rwa [htrap] at hplain, namesOnly_none⟩
  · refine ⟨plainTrap_none, ⟨?_, List.forall_mem_singleton.2 (.head _), List.forall_mem_nil _, List.forall_mem_nil _, rfl, rfl⟩⟩
    dsimp only
    split
    · exact List.forall_mem_singleton.2 (List.mem_append_right _ (.head _))
    · exact List.forall_mem_nil _

theorem vdqntSem_names (o : VBlk) : HalfNames (uses (.vdqnt o)) (vdqntSem o e) := by
  have hplain := blkTrap_plain o.ty ((e.g o.s).toNat % 65536)
  unfold vdqntSem
  dsimp only
  split
  · rename_i htrap
    exact ⟨by rwa [htrap] at hplain, namesOnly_none⟩
  · exact eachEl_names (.head _) ..

/-- VRNDT also moves %rngs0 on (R376). -/
theorem vrndtSem_names (d : VReg) (k : MReg) : HalfNames (uses (.vrndt d k)) (vrndtSem d k e) :=
  ⟨plainTrap_none, ⟨List.forall_mem_nil _, List.forall_mem_singleton.2 (.head _), List.forall_mem_nil _,
    List.forall_mem_singleton.2 ⟨rfl, .head _⟩, rfl, rfl⟩⟩

end

/-- A V-op writes the registers that it names. -/
theorem vSemOf_names {i : Instr} {f : Env → Half} (h : vSemOf i = some f) (e : Env) : HalfNames (uses i) (f e) := by
  cases i with
  | vcmp | vicmp | mand | mor | mxor | mnot => cases h; exact ofM_names (.head _) _
  | vredAdd | vredMin | vredMax | vredAnd | vredOr | vredXor => cases h; exact reduceTo_names (.head _) ..
  | vextl | mpopc => cases h; exact ofG_names (.head _) _
  | vinsl | vsel => cases h; exact ofV_names (.head _) _
  | vpfx => cases h; exact ⟨plainTrap_none, namesOnly_v (.head _) _⟩
  | vqnt o => cases h; exact vqntSem_names o
  | vdqnt o => cases h; exact vdqntSem_names o
  | vrndt d k => cases h; exact vrndtSem_names d k
  | vcvt | vftoi | vitof => cases h; exact convEls_names (.head _) _
  | vadd | vsub | vmul | vdiv | vfma | vfms | vsqrt | vexp2 | vlog2 | vrcp | vrsq | vsinp | vcosp | vtanh | vabs | vneg | vmin
  | vmax | vcpys | viadd | visub | vimul | vimulh | vand | vor | vxor | vandn | vimin | vimax | viabs | vshl | vshr | vsar | vrot
  | vpack | vunpk | vrndh | vmix | vperm | vbcast | vrotl | vmov =>
    cases h
    apply eachEl_names
    exact .head _
  | _ => cases h

end Sys2Proof.Machine
end

section
/-!
SUPPORT. What a bundle of operations on registers leaves as it was, whether it retires, waits or traps (R145, R310, R359).
-/

namespace Sys2Proof.Machine

/-! ## Stores, threads and contexts that stay -/

/-- The places of bytes, the clusters and the launches: what no write of a register reaches. -/
def restOf (s : State) := (s.mem, s.spad, s.bsram, s.clusters, s.launches)

/-- The same with the register files. -/
def storesOf (s : State) := (restOf s, s.gfile, s.vfile)

/-- The masks and the special registers of a thread. -/
def contextOf (t : Thread) := (t.masks, t.fpc, t.stat, t.rngs0, t.rngk, t.wlim, t.trapc, t.wp)

/-- No store and no thread differs between the two states. -/
structure SameStores (s u : State) : Prop where
  stores  : storesOf u = storesOf s
  threads : u.threads = s.threads

/-- No store differs and no thread but this one, which keeps its masks and special registers. -/
structure Stays (o tid : Nat) (s u : State) : Prop where
  stores  : storesOf u = storesOf s
  others  : ∀ k, k ≠ thrKey o tid → lookup u.threads k = lookup s.threads k
  context : (thr? u o tid).map contextOf = (thr? s o tid).map contextOf

section
variable {s u v : State} {o tid : Nat}

theorem SameStores.thr_eq (h : SameStores s u) (o tid : Nat) : thr? u o tid = thr? s o tid :=
  congrArg (lookup · (thrKey o tid)) h.threads

theorem SameStores.trans (h : SameStores s u) (h' : SameStores u v) : SameStores s v :=
  ⟨h'.stores.trans h.stores, h'.threads.trans h.threads⟩

theorem SameStores.stays (h : SameStores s u) : Stays o tid s u :=
  ⟨h.stores, fun k _ => congrArg (lookup · k) h.threads, congrArg (Option.map contextOf) (h.thr_eq o tid)⟩

theorem Stays.refl (s : State) : Stays o tid s s := ⟨rfl, fun _ _ => rfl, rfl⟩

theorem Stays.trans (h : Stays o tid s u) (h' : Stays o tid u v) : Stays o tid s v :=
  ⟨h'.stores.trans h.stores, fun k hk => (h'.others k hk).trans (h.others k hk), h'.context.trans h.context⟩

theorem sameStores_takeDraws (s : State) (t : Thread) (n : Nat) : SameStores s (takeDraws s t n) := by
  rcases takeDraws_eq s t n with h | h
  · rw [h]; exact ⟨rfl, rfl⟩
  · rw [h]; exact ⟨rfl, rfl⟩

theorem sameStores_walkFor (s : State) (t : Thread) (page : Nat) : SameStores s (walkFor s t page).1 := by
  unfold walkFor
  split
  · exact ⟨rfl, rfl⟩
  · exact ⟨rfl, rfl⟩

theorem stays_onThr (s : State) {f : Thread → Thread} (hf : ∀ t, contextOf (f t) = contextOf t) : Stays o tid s (onThr s o tid f) := by
  refine ⟨rfl, fun k hk => lookup_upd_ne _ _ hk, ?_⟩
  rw [thr?_onThr, Option.map_map]
  exact congrArg (Option.map · (thr? s o tid)) (funext hf)

theorem stays_onCore (s : State) {j : Nat} (f : Core → Core) : Stays o tid s (onCore s o j f) := ⟨rfl, fun _ _ => rfl, rfl⟩

theorem stays_plumbDue (s : State) (tgt : Target) : Stays o tid s (plumbDue s o tid tgt) := by
  unfold plumbDue
  split
  · exact stays_onThr s fun _ => rfl
  · exact .refl s

theorem stays_foldl_plumbDue (l : List Req) (s : State) : Stays o tid s (l.foldl (fun s q => plumbDue s o tid q.tgt) s) := by
  induction l generalizing s with
  | nil => exact .refl s
  | cons q l ih => exact (stays_plumbDue s q.tgt).trans (ih _)

theorem stays_plumbWait (s : State) (c : Cur) (why : Wait) : Stays c.o c.tid s (plumbWait s c why) := by
  unfold plumbWait
  split
  · exact .refl s
  · split
    · exact (stays_onCore s _).trans (stays_onThr _ fun _ => rfl)
    · exact stays_foldl_plumbDue _ s
    · exact stays_onThr s fun _ => rfl
    · exact stays_onThr s fun _ => rfl
    · exact stays_onThr s fun _ => rfl
    · exact .refl s

/-- A wait changes how its thread stands. -/
theorem stays_putWait (s : State) (c : Cur) (why : Wait) (pend : Option Bundle) : Stays c.o c.tid s (putWait s c why pend) :=
  (stays_plumbWait s c why).trans (stays_onThr _ fun _ => rfl)

/-- A trap that no item is bound to leaves a record with its thread. -/
theorem stays_takeTrap (s : State) {ti : TrapInfo} (h : ti.item = .none) (pc : Word) (len : Option Nat) (async vh : Bool) :
    Stays o tid s (takeTrap s o tid ti pc len async vh) := by
  have hgfl : raiseGfl s o ti = s := by rw [raiseGfl, h]
  unfold takeTrap
  rw [hgfl]
  dsimp only
  split
  · rename_i ht
    refine ⟨rfl, fun k hk => lookup_put_ne _ _ hk, ?_⟩
    rw [ht, thr?, lookup_put_self]
    rfl
  · exact .refl s

/-! ## The streams of a bundle -/

theorem contextOf_popStreams (l : List Nat) (t : Thread) : contextOf (l.foldl popStream t) = contextOf t := by
  induction l generalizing t with
  | nil => rfl
  | cons n l ih => exact ih (popStream t n)

theorem contextOf_strmAfter (t : Thread) (op : Option StrmOp) : contextOf (strmAfter t op) = contextOf t := by
  cases op with
  | none => rfl
  | some op =>
    cases op with
    | bind n k =>
      show contextOf (strmOp t (.bind n k)) = _
      unfold strmOp
      dsimp only
      split <;> rfl
    | cfg | close | seek | refetch => rfl

/-- A push asks for a store, and moves its stream. -/
theorem pushStream_keeps (s : State) (t : Thread) (n : Nat) (x : Vec) :
    SameStores s (pushStream s t n x).1 ∧ contextOf (pushStream s t n x).2 = contextOf t := by
  unfold pushStream
  dsimp only
  split
  · exact ⟨⟨rfl, rfl⟩, rfl⟩
  · split
    · exact ⟨⟨rfl, rfl⟩, rfl⟩
    · refine ⟨?_, rfl⟩
      split
      · exact ⟨rfl, rfl⟩
      · exact ⟨rfl, rfl⟩

theorem pushWrite_keeps (acc : State × Thread) (p : VReg × Vec) :
    SameStores acc.1 (pushWrite acc p).1 ∧ contextOf (pushWrite acc p).2 = contextOf acc.2 := by
  unfold pushWrite
  split
  · split
    · exact pushStream_keeps ..
    · exact ⟨⟨rfl, rfl⟩, rfl⟩
  · exact ⟨⟨rfl, rfl⟩, rfl⟩

theorem foldl_pushWrite_keeps (l : List (VReg × Vec)) (acc : State × Thread) :
    SameStores acc.1 (l.foldl pushWrite acc).1 ∧ contextOf (l.foldl pushWrite acc).2 = contextOf acc.2 := by
  induction l generalizing acc with
  | nil => exact ⟨⟨rfl, rfl⟩, rfl⟩
  | cons p l ih =>
    obtain ⟨hstores, hctx⟩ := pushWrite_keeps acc p
    obtain ⟨hstores', hctx'⟩ := ih (pushWrite acc p)
    exact ⟨hstores.trans hstores', hctx'.trans hctx⟩

/-- Pops and pushes are requests and positions of streams. -/
theorem streamed_keeps (s : State) (t : Thread) (w : Wr) :
    SameStores s (streamed s t w).1 ∧ contextOf (streamed s t w).2 = contextOf t := by
  obtain ⟨hstores, hctx⟩ := foldl_pushWrite_keeps w.v (s, w.pops.foldl popStream t)
  exact ⟨hstores, hctx.trans (contextOf_popStreams w.pops t)⟩

end

/-! ## The frame of a bundle on registers -/

/-- What a thread keeps of its masks and special registers where the halves of a bundle name `a` and `b`. -/
structure ContextKept (a b : Uses) (t t' : Thread) : Prop where
  masks : ∀ m : MReg, m.toNat ∉ a.md ++ b.md → readM t' m = readM t m
  fpc   : ∀ n, n ≠ 16 → t'.fpc.getLsbD n = t.fpc.getLsbD n
  stat  : t'.stat ||| t.stat = t'.stat
  rngs0 : 0x08 ∉ a.sd ++ b.sd → t'.rngs0 = t.rngs0
  fixed : t'.rngk = t.rngk ∧ t'.wlim = t.wlim ∧ t'.trapc = t.trapc ∧ t'.wp = t.wp

/-- The frame of a bundle of thread `t` whose halves name `a` and `b`. -/
structure Framed (s u : State) (o tid : Nat) (t : Thread) (a b : Uses) : Prop where
  rest   : restOf u = restOf s
  gfile  : ∀ k, (∀ n ∈ a.dst false ++ a.also ++ b.dst false ++ b.also, k ≠ gKey t.o t.core (t.gbase + n)) →
    lookup u.gfile k = lookup s.gfile k
  vfile  : ∀ k, (∀ n ∈ a.dst true ++ b.dst true, k ≠ vKey t.o t.core (t.vbase + n)) → lookup u.vfile k = lookup s.vfile k
  others : ∀ k, k ≠ thrKey o tid → lookup u.threads k = lookup s.threads k
  thread : ∀ t', thr? u o tid = some t' → ContextKept a b t t'

section
variable {s u v : State} {o tid : Nat} {t t' : Thread} {a b : Uses} {w : Wr}

theorem ContextKept.of_eq (h : contextOf t' = contextOf t) : ContextKept a b t t' := by
  simp only [contextOf, Prod.mk.injEq] at h
  obtain ⟨hmasks, hfpc, hstat, hrngs0, hrest⟩ := h
  refine ⟨fun m _ => readM_congr hmasks m, fun n _ => by rw [hfpc], ?_, fun _ => hrngs0, hrest⟩
  rw [hstat]
  exact BitVec.or_self

theorem ContextKept.trans_eq {t'' : Thread} (h : ContextKept a b t t') (heq : contextOf t'' = contextOf t') :
    ContextKept a b t t'' := by
  simp only [contextOf, Prod.mk.injEq] at heq
  obtain ⟨hmasks, hfpc, hstat, hrngs0, hrngk, hwlim, htrapc, hwp⟩ := heq
  refine ⟨fun m hm => (readM_congr hmasks m).trans (h.masks m hm), fun n hn => by rw [hfpc, h.fpc n hn], ?_,
    fun hsd => hrngs0.trans (h.rngs0 hsd), ?_⟩
  · rw [hstat]
    exact h.stat
  · rw [hrngk, hwlim, htrapc, hwp]
    exact h.fixed

theorem SameStores.framed (h : SameStores s u) (hf : Framed u v o tid t a b) : Framed s v o tid t a b := by
  obtain ⟨hrest, hg, hv⟩ : restOf u = restOf s ∧ u.gfile = s.gfile ∧ u.vfile = s.vfile := by
    simpa only [storesOf, Prod.mk.injEq] using h.stores
  exact ⟨hf.rest.trans hrest, fun k hk => by rw [hf.gfile k hk, hg], fun k hk => by rw [hf.vfile k hk, hv],
    fun k hk => by rw [hf.others k hk, h.threads], hf.thread⟩

theorem Stays.framed (h : Stays o tid s u) (ht : thr? s o tid = some t) : Framed s u o tid t a b := by
  obtain ⟨hrest, hg, hv⟩ : restOf u = restOf s ∧ u.gfile = s.gfile ∧ u.vfile = s.vfile := by
    simpa only [storesOf, Prod.mk.injEq] using h.stores
  refine ⟨hrest, fun k _ => by rw [hg], fun k _ => by rw [hv], h.others, fun t' ht' => .of_eq ?_⟩
  have hctx := h.context
  rw [ht', ht] at hctx
  exact Option.some.inj hctx

/-! ## The thread's record after a bundle's writes -/

/-- Of the special registers, the writes of a bundle on registers reach %rngs0. -/
theorem foldl_writeSp_rngs0 {l : List (BitVec 8 × Word)} (h : ∀ p ∈ l, p.1 = 0x08) (t : Thread) :
    ∃ x, l.foldl (fun t p => writeSp t p.1 p.2) t = { t with rngs0 := x } := by
  induction l generalizing t with
  | nil => exact ⟨t.rngs0, rfl⟩
  | cons p l ih =>
    obtain ⟨x, hx⟩ := ih (fun q hq => h q (List.mem_cons_of_mem _ hq)) (writeSp t p.1 p.2)
    refine ⟨x, hx.trans ?_⟩
    rw [h p List.mem_cons_self]
    rfl

theorem lastWrite_none {ρ α : Type} [DecidableEq ρ] {l : List (ρ × α)} {r : ρ} (h : ∀ p ∈ l, p.1 ≠ r) : lastWrite l r = none := by
  rw [lastWrite, List.find?_eq_none.2 fun p hp => by simpa using h p (List.mem_reverse.1 hp)]
  rfl

theorem readM_regsWritten_unnamed {m : MReg} (h : ∀ p ∈ w.m, p.1 ≠ m) (t : Thread) : readM (regsWritten t w) m = readM t m := by
  rw [readM_regsWritten, lastWrite_none h]
  split
  · rename_i hm
    rw [readM, if_pos hm]
  · rfl

/-- The rounding request is bit 16 of %fpc (R147, R148). -/
theorem orFlags_fpc (t : Thread) (f : BitVec 8) (srs : Bool) {n : Nat} (h : n ≠ 16) :
    (orFlags t f srs).fpc.getLsbD n = t.fpc.getLsbD n := by
  have hbit : (0x10000 : Word).getLsbD n = false := by
    rw [show (0x10000 : Word) = BitVec.twoPow 64 16 from rfl, BitVec.getLsbD_twoPow]
    simp [Ne.symm h]
  unfold orFlags
  dsimp only
  split
  · rw [BitVec.getLsbD_or, hbit, Bool.or_false]
  · rfl

/-- The writes of a whole bundle are among what its halves name. -/
structure JoinNames (a b : Uses) (w : Wr) : Prop where
  g  : ∀ p ∈ w.g, p.1.toNat ∈ a.dst false ++ a.also ++ b.dst false ++ b.also
  v  : ∀ p ∈ w.v, p.1.toNat ∈ a.dst true ++ b.dst true
  m  : ∀ p ∈ w.m, p.1.toNat ∈ a.md ++ b.md
  sp : ∀ p ∈ w.sp, p.1 = 0x08 ∧ 0x08 ∈ a.sd ++ b.sd

theorem NamesOnly.join {wx wv : Wr} (hx : NamesOnly a wx) (hv : NamesOnly b wv) : JoinNames a b (wx.join wv) where
  g := List.forall_mem_append.2 ⟨fun p hp => by rw [List.append_assoc]; exact List.mem_append_left _ (hx.g p hp),
    fun p hp => by rw [List.append_assoc]; exact List.mem_append_right _ (hv.g p hp)⟩
  v := List.forall_mem_append.2 ⟨fun p hp => List.mem_append_left _ (hx.v p hp), fun p hp => List.mem_append_right _ (hv.v p hp)⟩
  m := List.forall_mem_append.2 ⟨fun p hp => List.mem_append_left _ (hx.m p hp), fun p hp => List.mem_append_right _ (hv.m p hp)⟩
  sp := List.forall_mem_append.2 ⟨fun p hp => ⟨(hx.sp p hp).1, List.mem_append_left _ (hx.sp p hp).2⟩,
    fun p hp => ⟨(hv.sp p hp).1, List.mem_append_right _ (hv.sp p hp).2⟩⟩

theorem JoinNames.context (h : JoinNames a b w) (t : Thread) : ContextKept a b t (regsWritten t w) := by
  obtain ⟨ms, hms⟩ := foldl_writeM_eq w.m t
  obtain ⟨x, hx⟩ := foldl_writeSp_rngs0 (fun p hp => (h.sp p hp).1) { t with masks := ms }
  have hregs : regsWritten t w = orFlags { t with masks := ms, rngs0 := x } w.flags w.srs := by rw [regsWritten, hms, hx]
  refine ⟨fun m hm => readM_regsWritten_unnamed (fun p hp heq => hm (by rw [← heq]; exact h.m p hp)) t, ?_, ?_, fun hsd => ?_, ?_⟩
  · intro n hn
    rw [hregs]
    exact orFlags_fpc _ _ _ hn
  · rw [hregs]
    show t.stat ||| _ ||| t.stat = t.stat ||| _
    rw [BitVec.or_comm, ← BitVec.or_assoc, BitVec.or_self]
  · have hsp : w.sp = [] := List.eq_nil_iff_forall_not_mem.2 fun p hp => hsd (h.sp p hp).2
    obtain ⟨ms', hnosp⟩ := regsWritten_noSp hsp t
    rw [hnosp]
    rfl
  · rw [hregs]
    exact ⟨rfl, rfl, rfl, rfl⟩

/-- A retiring bundle writes what its halves name. -/
theorem JoinNames.framed (h : JoinNames a b w) (npc : Word) : Framed s (registersRetired s o tid t w npc) o tid t a b := by
  obtain ⟨hsame, hctx⟩ := streamed_keeps (withThread (filesWritten s t w) o tid (regsWritten t w)) (regsWritten t w) w
  obtain ⟨hrest, hg, hv⟩ := by simpa only [storesOf, Prod.mk.injEq] using hsame.stores
  refine ⟨hrest, fun k hk => ?_, fun k hk => ?_, fun k hk => ?_, fun t' ht' => ?_⟩
  · exact (congrArg (lookup · k) hg).trans (lookup_gWritten (fun p hp => hk _ (h.g p hp)) _)
  · exact (congrArg (lookup · k) hv).trans (lookup_vWritten (fun p hp => hk _ (h.v p hp)) _)
  · exact (lookup_put_ne _ _ hk).trans ((congrArg (lookup · k) hsame.threads).trans (lookup_put_ne _ _ hk))
  · rw [registersRetired, thr?_withThread, Option.some.injEq] at ht'
    rw [← ht']
    exact (h.context t).trans_eq ((contextOf_strmAfter _ w.strm).trans hctx)

end

end Sys2Proof.Machine
end

section
/-!
SUPPORT. How the operations on registers end: with writes of what they name, or with a trap that no item is bound to
(R120, R310, R323, R359); and what their bundle comes to at issue.
-/

namespace Sys2Proof.Machine

/-- A first half on registers completes with writes of what it names, or traps. -/
def XRes.onlyRegs (s : State) (u : Uses) : XRes → Prop
  | .ok s1 w => SameStores s s1 ∧ NamesOnly u w
  | .trapC ti => ti.item = .none
  | .wait _ _ | .again _ _ | .trapT _ _ | .sub _ _ _ _ => False

section
variable {e : Env} {u : Uses} {w : Wr}

theorem onlyRegs_ok (h : NamesOnly u w) : (XRes.ok e.s w).onlyRegs e.s u := ⟨⟨rfl, rfl⟩, h⟩

theorem onlyRegs_give {d : GReg} (h : d.toNat ∈ u.dst false) (x : Word) : (e.give d x).onlyRegs e.s u :=
  onlyRegs_ok (namesOnly_g h x)

theorem onlyRegs_div {o : Alu} (h : o.d.toNat ∈ u.dst false) (f : Nat × Nat → Nat) : (divSem o f e).onlyRegs e.s u := by
  unfold divSem
  dsimp only
  split
  · rfl
  · exact onlyRegs_ok (namesOnly_g h _)

theorem targetTrap_plain (x : Word) : plainTrap (targetTrap x) := by
  unfold targetTrap
  split
  · exact plainTrap_some rfl
  · split
    · exact plainTrap_some rfl
    · exact plainTrap_none

theorem onlyRegs_transfer (h : NamesOnly u w) (x : Word) : (transfer e x w).onlyRegs e.s u := by
  have hplain := targetTrap_plain x
  unfold transfer
  split
  · rename_i htrap
    exact hplain _ htrap
  · exact onlyRegs_ok ⟨h.g, h.v, h.m, h.sp, h.fin, h.acq⟩

theorem onlyRegs_takeIf (h : NamesOnly u w) (b : Bool) (off : BitVec 37) : (takeIf b off w e).onlyRegs e.s u := by
  unfold takeIf
  split
  · exact onlyRegs_transfer h _
  · exact onlyRegs_ok h

/-- MFS completes, or takes PLUMB. -/
theorem onlyRegs_mfs (d : GReg) (r : BitVec 8) : (mfsSem d r e).onlyRegs e.s (uses (.mfs d r)) := by
  unfold mfsSem
  split
  · rfl
  · exact onlyRegs_give (.head _) _

theorem onlyRegs_rdcyc (d : GReg) : (rdcycSem d e).onlyRegs e.s (uses (.rdcyc d)) := by
  unfold rdcycSem
  split
  · exact onlyRegs_give (.head _) _
  · exact onlyRegs_give (.head _) _

/-- A V-op alone moves the dither source past its draws (R383). -/
theorem onlyRegs_asX {h : Half} (hn : HalfNames u h) : (h.asX e.s e.t).onlyRegs e.s u := by
  unfold Half.asX
  split
  · rename_i htrap
    exact hn.trap _ htrap
  · exact ⟨sameStores_takeDraws .., hn.names⟩

end

theorem vSemOf_of_isV {i : Instr} (h : i.isV = true) : ∃ f, vSemOf i = some f := by
  cases i <;> cases h <;> exact ⟨_, rfl⟩

/-- Every operation on registers alone is the first half of a bundle, and writes what it names. -/
theorem exec_registerOnly {i : Instr} (h : registerOnly i = true) :
    ∃ sem : Env → XRes, (∀ s, exec i s = runX i sem s) ∧ ∀ e, (sem e).onlyRegs e.s (uses i) := by
  have hvector (hv : i.isV = true) : ∃ sem : Env → XRes, (∀ s, exec i s = runX i sem s) ∧ ∀ e, (sem e).onlyRegs e.s (uses i) := by
    obtain ⟨f, hf⟩ := vSemOf_of_isV hv
    exact ⟨_, exec_vSemOf hf, fun e => onlyRegs_asX (vSemOf_names hf e)⟩
  cases i with
  | div | rem => exact ⟨_, fun _ => rfl, fun _ => onlyRegs_div (.head _) _⟩
  | brcc | brz | brnz | jmp | bstrm => exact ⟨_, fun _ => rfl, fun _ => onlyRegs_takeIf namesOnly_none _ _⟩
  | call | loop => exact ⟨_, fun _ => rfl, fun _ => onlyRegs_takeIf (namesOnly_g (.head _) _) _ _⟩
  | jr => exact ⟨_, fun _ => rfl, fun _ => onlyRegs_transfer namesOnly_none _⟩
  | nop | nopLong => exact ⟨_, fun _ => rfl, fun _ => onlyRegs_ok namesOnly_none⟩
  | mfs d r => exact ⟨_, fun _ => rfl, fun _ => onlyRegs_mfs d r⟩
  | rdcyc d => exact ⟨_, fun _ => rfl, fun _ => onlyRegs_rdcyc d⟩
  | add | sub | mul | mulh | and | or | xor | andn | orn | shl | shr | sar | rot | min | max | cmp | clz | ctz | popc | brev
  | extr | insr | li | lea | csel => exact ⟨_, fun _ => rfl, fun _ => onlyRegs_give (.head _) _⟩
  | _ => exact hvector h

/-! ## The second half -/

section
variable {s : State} {c : Cur} {t : Thread} {w : Owner} {i : Instr}

theorem halfOf_names (e : Env) : HalfNames (usesV e.c) (halfOf e) := by
  unfold halfOf usesV
  split
  · split
    · rename_i hf
      exact vSemOf_names hf e
    · exact ⟨plainTrap_none, namesOnly_none⟩
  · exact ⟨plainTrap_none, namesOnly_none⟩

theorem wrV_names (s : State) (c : Cur) (t : Thread) (w : Owner) (i : Instr) : NamesOnly (usesV c) (wrV s c t w i) := by
  have h := (halfOf_names (envIn s c t w i)).names
  exact ⟨h.g, h.v, h.m, h.sp, h.fin, h.acq⟩

/-! ## At issue -/

theorem onlyRegs_core_plain {x : XRes} {u : Uses} (h : x.onlyRegs s u) : plainTrap x.core := by
  cases x with
  | trapC ti => exact plainTrap_some h
  | ok | wait | again | trapT | sub => exact plainTrap_none

/-- A completing bundle retires in the frame. -/
theorem settleX_framed {x : XRes} {a b : Uses} {k : Bundle} (ht : thr? s c.o c.tid = some t) (hx : x.onlyRegs s a)
    (hk : NamesOnly b k.vw) : Framed s (settleX s c k x) c.o c.tid t a b := by
  cases x with
  | ok s1 wx =>
    obtain ⟨hsame, hnames⟩ := hx
    have hretire := retire_go (pc := c.pc) (len := c.len) (wv := k.vw) ((hsame.thr_eq c.o c.tid).trans ht) hnames.fin hnames.acq
    show Framed s (retire s1 c.o c.tid c.pc c.len wx k.vw) c.o c.tid t a b
    rw [hretire]
    exact hsame.framed ((hnames.join hk).framed _)
  | trapC ti => exact (stays_takeTrap s hx ..).framed ht
  | wait | again | trapT | sub => exact hx.elim

theorem XRes.onlyRegs.of_sameStores {x : XRes} {u : Uses} {s1 : State} (h : SameStores s s1) (hx : x.onlyRegs s1 u) : x.onlyRegs s u := by
  cases x with
  | ok s2 wx => exact ⟨h.trans hx.1, hx.2⟩
  | trapC ti => exact hx
  | wait | again | trapT | sub => exact hx.elim

theorem issueOk_framed {sem : Env → XRes} (ht : thr? s c.o c.tid = some t)
    (hsem : (sem (envX s c t w i)).onlyRegs (envX s c t w i).s (uses i)) :
    Framed s (issueOk s c t w i sem) c.o c.tid t (uses i) (usesV c) := by
  have hx := XRes.onlyRegs.of_sameStores (sameStores_takeDraws s t (halfOf (envIn s c t w i)).draws) hsem
  have hwalk (page : Nat) : Framed s (putWait (walkFor s t page).1 c (walkFor s t page).2 none) c.o c.tid t (uses i) (usesV c) :=
    ((sameStores_walkFor s t page).stays.trans (stays_putWait ..)).framed ht
  unfold issueOk
  dsimp only
  cases hs : sem (envX s c t w i) with
  | wait | again | trapT | sub =>
    rw [hs] at hsem
    exact hsem.elim
  | ok | trapC =>
    rw [hs] at hx
    split
    · exact (stays_putWait ..).framed ht
    · split
      · exact hwalk _
      · exact hwalk _
      · dsimp only
        split
        · rename_i hpick
          have hplain := pickTrap_plain (halfTrap_plain (onlyRegs_core_plain hx) (fpxOf_plain ..).1)
            (halfTrap_plain (halfOf_names _).trap (fpxOf_plain ..).2) hpick
          exact ((sameStores_takeDraws ..).stays.trans (stays_takeTrap _ hplain ..)).framed ht
        · split
          · exact (stays_putWait ..).framed ht
          · exact settleX_framed ht hx (wrV_names ..)

theorem bundleCheck_plain {ti : TrapInfo} {vh : Bool} (h : bundleCheck s t i c.v = some (ti, vh)) : ti.item = .none := by
  cases hclash : halvesClash t (uses i) (usesV c) with
  | true =>
    rw [bundleCheck_clash hclash] at h
    cases h
    rfl
  | false =>
    cases hsp : spCheck s t i with
    | false =>
      rw [bundleCheck_special hclash hsp] at h
      cases h
      rfl
    | true =>
      rw [bundleCheck_windows hclash hsp, Option.or_eq_some_iff, Option.map_eq_some_iff] at h
      rcases h with ⟨n, -, hn⟩ | ⟨-, hv⟩
      · cases hn
        rfl
      · obtain ⟨n, -, hn⟩ := Option.map_eq_some_iff.1 hv
        cases hn
        rfl

theorem runX_framed {sem : Env → XRes} {s' : State} (hsem : ∀ e, (sem e).onlyRegs e.s (uses i)) (hc : s.cur = some c)
    (ht : thr? s c.o c.tid = some t) (hrun : runX i sem s = .next s') : Framed s s' c.o c.tid t (uses i) (usesV c) := by
  have hbare : SameStores s (bare s) := ⟨rfl, rfl⟩
  have htbare : thr? (bare s) c.o c.tid = some t := ht
  unfold runX at hrun
  cases hw : owner? s c.o with
  | none =>
    simp only [hc, ht, hw] at hrun
    cases hrun
  | some w =>
    simp only [hc, ht, hw] at hrun
    split at hrun
    · rename_i hbad
      cases hrun
      exact hbare.framed ((stays_takeTrap _ (bundleCheck_plain hbad) ..).framed htbare)
    · cases hrun
      exact hbare.framed (issueOk_framed htbare (hsem _))

end

end Sys2Proof.Machine
end

section
namespace Sys2Proof
open Sys2Proof.Machine

/-- Settles O13: the operation is a first half that writes what it names, and so is the second half; each way to end is in
the frame. -/
theorem registerFrame : Obligations.RegisterFrame := by
  unfold Obligations.RegisterFrame
  intro i s s' c t hi hexec hc ht gs vs
  obtain ⟨sem, hrun, hsem⟩ := exec_registerOnly hi
  obtain ⟨hrest, hg, hv, hothers, hthread⟩ := runX_framed hsem hc ht ((hrun s).symm.trans hexec)
  obtain ⟨hmem, hspad, hbsram, hclusters, hlaunches⟩ := by simpa only [restOf, Prod.mk.injEq] using hrest
  refine ⟨fun a => by rw [hmem, hspad, hbsram]; exact ⟨rfl, rfl, rfl⟩, hg, hv, hothers, fun t' ht' => ?_, hclusters, hlaunches⟩
  obtain ⟨hmasks, hfpc, hstat, hrngs0, hfixed⟩ := hthread t' ht'
  exact ⟨hmasks, hfpc, hstat, hrngs0, hfixed⟩

end Sys2Proof
end

section
/-!
SUPPORT. Requests at their targets and replies at their cores (R174, R191, R192, R194, R333): what a target reads and writes in
memory, and what a reply leaves of its thread.
-/

namespace Sys2Proof.Machine

/-! ## Numbers of up to eight bytes (R330) -/

theorem Memory.nat_digit (m : Memory) {n k : Nat} (a : Nat) (h : k < n) :
    Memory.nat m a n / 256 ^ k % 256 = (Memory.read m (a + k)).toNat := by
  have hbyte : (Memory.read m a).toNat < 256 := (Memory.read m a).isLt
  induction n generalizing a k with
  | zero => omega
  | succ n ih =>
    rw [Memory.nat]
    cases k with
    | zero => rw [Nat.pow_zero, Nat.div_one, Nat.add_mul_mod_self_left, Nat.mod_eq_of_lt hbyte, Nat.add_zero]
    | succ k =>
      rw [Nat.pow_succ', ← Nat.div_div_eq_div_mul, Nat.add_mul_div_left _ _ (by omega), Nat.div_eq_of_lt hbyte, Nat.zero_add,
        ih (a + 1) (by omega) (Memory.read m (a + 1)).isLt, Nat.add_right_comm]
      rfl

theorem wordOfList_readN (m : Memory) (a n : Nat) : wordOfList (Memory.readN m a n) = BitVec.ofNat 64 (Memory.nat m a n) := by
  rw [wordOfList, Memory.nat_eq_foldr]

/-- An extension keeps the bits of its value and repeats, or not, the highest of them. -/
theorem extend_getLsbD (sgn : Bool) {n b : Nat} (w : Word) (hn : 0 < n) (hb : b < 64) : (extend sgn n w).getLsbD b
    = if b < 8 * n then w.getLsbD b else sgn && w.getLsbD (8 * n - 1) := by
  cases sgn with
  | false =>
    have hs : extend false n w = (w.setWidth (8 * n)).setWidth 64 := rfl
    rw [hs, BitVec.getLsbD_setWidth, BitVec.getLsbD_setWidth]
    split <;> simp_all
  | true =>
    have hs : extend true n w = (w.setWidth (8 * n)).signExtend 64 := rfl
    rw [hs, BitVec.getLsbD_signExtend]
    simp only [hb, decide_true, Bool.true_and, BitVec.getLsbD_setWidth, BitVec.msb_eq_getLsbD_last]
    split
    · simp_all
    · simp [show 8 * n - 1 < 8 * n by omega]

/-- What a load of n bytes gives (R330, R334). -/
theorem loaded_readN (sgn : Bool) {n : Nat} (m : Memory) (key : Nat) (h0 : 0 < n) (h8 : n ≤ 8) :
    Loaded sgn n m key (extend sgn n (wordOfList (Memory.readN m key n))) := by
  refine ⟨fun k hk => ?_, fun b hb hhigh => ?_⟩
  · have hlow : (extend sgn n (wordOfList (Memory.readN m key n))).extractLsb' (8 * k) 8
        = (wordOfList (Memory.readN m key n)).extractLsb' (8 * k) 8 := by
      refine BitVec.eq_of_getLsbD_eq fun i hi => ?_
      rw [BitVec.getLsbD_extractLsb', BitVec.getLsbD_extractLsb', extend_getLsbD _ _ h0 (by omega), if_pos (by omega)]
    refine BitVec.eq_of_toNat_eq ?_
    rw [hlow, wordOfList_readN, BitVec.extractLsb'_toNat, BitVec.toNat_ofNat, Nat.shiftRight_eq_div_pow, ← Memory.nat_digit m key hk,
      show (2 : Nat) ^ (8 * k) = 256 ^ k by rw [Nat.pow_mul]]
    have h64 : (2 : Nat) ^ 64 = 256 ^ k * 256 ^ (8 - k) := by
      rw [← Nat.pow_add, show k + (8 - k) = 8 by omega]
      norm_num
    rw [h64, Nat.mod_mul_right_div_self, show 8 - k = (7 - k) + 1 by omega, Nat.pow_succ]
    exact Nat.mod_mul_left_mod _ _ _
  · rw [extend_getLsbD _ _ h0 hb, if_neg (by omega), extend_getLsbD _ _ h0 (by omega), if_pos (by omega)]

/-- An operation on n bytes sees nothing of its old value beyond them. -/
theorem amoOp_extend (op : AmoOp) {n : Nat} (sgn sgn' : Bool) (w y : Word) (h0 : 0 < n) (h8 : n ≤ 8) :
    amoOp op n sgn (extend sgn' n w) y = amoOp op n sgn w y := by
  have hbits : (extend sgn' n w).setWidth (8 * n) = w.setWidth (8 * n) := by
    refine BitVec.eq_of_getLsbD_eq fun i hi => ?_
    rw [BitVec.getLsbD_setWidth, BitVec.getLsbD_setWidth, extend_getLsbD _ _ h0 (by omega), if_pos hi]
  have hmod : (extend sgn' n w).toNat % 2 ^ (8 * n) = w.toNat % 2 ^ (8 * n) := by
    simpa only [BitVec.toNat_setWidth] using congrArg BitVec.toNat hbits
  simp only [amoOp, hmod]

/-! ## What a touch of a sector changes (R170, R180) -/

theorem stackSide_eq (s : State) (t : Target) (pa : Nat) : ∃ fl, stackSide s t pa = { s with flips := fl } := by
  have hread := stackRead_eq s pa
  have hnone : ∃ fl, s = { s with flips := fl } := ⟨s.flips, rfl⟩
  unfold stackSide
  cases t with
  | bank | replica =>
    dsimp only
    split
    · split
      · exact hnone
      · exact hread
    · exact hread
  | stack => exact hread
  | scratch | hostLine | device => exact hnone

theorem touchRead_eq (s : State) (t : Target) (pa : Nat) : ∃ cs fl, touchRead s t pa = { s with cores := cs, flips := fl } := by
  obtain ⟨fl, h⟩ := stackSide_eq s t pa
  unfold touchRead
  rw [h]
  split
  · exact ⟨_, fl, rfl⟩
  · exact ⟨s.cores, fl, rfl⟩

theorem touchWrite_eq (s : State) (t : Target) (pa : Nat) : ∃ cs fl, touchWrite s t pa = { s with cores := cs, flips := fl } := by
  obtain ⟨fl, h⟩ := stackSide_eq s t pa
  unfold touchWrite
  rw [h]
  split
  · exact ⟨_, fl, rfl⟩
  · exact ⟨s.cores, fl, rfl⟩

/-! ## Bytes written under a mask (R335) -/

theorem stored_writeMasked (m : Memory) (key : Nat) (bs : List (Byte × Bool)) : Stored m (Memory.writeMasked m key bs) key bs := by
  intro a
  induction bs generalizing m key with
  | nil =>
    rw [if_neg (by simp only [List.length_nil]; omega)]
    rfl
  | cons p bs ih =>
    obtain ⟨b, on⟩ := p
    rw [Memory.writeMasked, ih, List.length_cons]
    by_cases ha : a = key
    · subst ha
      rw [if_neg (by omega), Nat.sub_self, List.getD_cons_zero]
      cases on <;> simp
    · have hrest : Memory.read (if on = true then Memory.write m key b else m) a = Memory.read m a := by
        split
        · exact Memory.read_write_ne m b ha
        · rfl
      rw [hrest]
      by_cases hlt : key < a
      · have hsub : a - key = a - (key + 1) + 1 := by omega
        rw [hsub, List.getD_cons_succ]
        exact if_congr (and_congr (by omega) (and_congr (by omega) Iff.rfl)) rfl rfl
      · rw [if_neg (by omega), if_neg (by omega)]

theorem writeMaskAt_mem_eq (s : State) (pa : Nat) (bs : List (Byte × Bool)) :
    ∃ ims, writeMaskAt s (.mem pa) bs = { s with mem := Memory.writeMasked s.mem pa bs, images := ims } :=
  spoil_eq { s with mem := Memory.writeMasked s.mem pa bs } pa bs.length

theorem stored_of_all_off {m : Memory} {key : Nat} {bs : List (Byte × Bool)} (h : bs.all (fun b => !b.2) = true) :
    Stored m m key bs := by
  intro a
  refine (if_neg fun hin => ?_).symm
  obtain ⟨hle, hlt, hon⟩ := hin
  have hidx : a - key < bs.length := by omega
  have hoff := List.all_eq_true.1 h _ (List.getElem_mem hidx)
  rw [List.getD_eq_getElem _ _ hidx] at hon
  simp [hon] at hoff

/-! ## A request at its target in memory -/

section
variable {s u : State} {r : Req} {pa : Nat} {p : Reply}

theorem layoutBad_mem (h : r.tgt.isScratch = false) : layoutBad s r = false := by
  unfold layoutBad
  cases htgt : r.tgt with
  | scratch o j => rw [htgt] at h; cases h
  | _ => rfl

theorem fillCheck_unsealed (w : Owner) {l : Leaf} (t : Target) (va pa : Nat) (h : l.cls ≠ 2) : fillCheck s w t l va pa = s := by
  unfold fillCheck
  split
  · rfl
  · simp [h]

/-- A write at a target that replaces no block whole stores its bytes, and nothing else that a program reads. -/
theorem reqWrite_eq {bs : List (Byte × Bool)} (hspot : spotOf r = .mem pa) (hpart : r.replaces bs = false) :
    ∃ m ims cs fl, reqWrite s r bs = { s with mem := m, images := ims, cores := cs, flips := fl } ∧ Stored s.mem m pa bs := by
  unfold reqWrite
  split
  next hoff => exact ⟨s.mem, s.images, s.cores, s.flips, rfl, stored_of_all_off hoff⟩
  next =>
    obtain ⟨ims, hims⟩ := writeMaskAt_mem_eq s pa bs
    obtain ⟨cs, fl, htouch⟩ := touchWrite_eq (writeMaskAt s (.mem pa) bs) r.tgt (spotOf r).addr
    refine ⟨_, ims, cs, fl, ?_, stored_writeMasked s.mem pa bs⟩
    simp only [hpart, hspot, reqTouch, if_true, Bool.false_eq_true, if_false] at htouch ⊢
    rw [htouch, hims]

theorem storeAt_single (h : ∀ o die j b, r.tgt ≠ .replica o die j b) (bs : List (Byte × Bool)) :
    storeAt s r bs = reqWrite s r bs := by
  unfold storeAt
  cases htgt : r.tgt with
  | replica o die j b => exact absurd htgt (h o die j b)
  | _ => rfl

theorem replaces_of_short {bs : List (Byte × Bool)} (h : r.n ≤ 8) : r.replaces bs = false := by
  have hn : r.n ≠ 64 := by omega
  simp [Req.replaces, hn]

/-- A read of clean bytes outside the sealed region goes on with them. -/
theorem serveRead_clean (f : State → List Byte → Served) (hmem : r.tgt.isScratch = false) (hcls : ∀ l, r.leaf = some l → l.cls ≠ 2)
    (hclean : reqMark s r = 0) : serveRead s r f = f (reqTouch s r false) (reqRead s r) := by
  unfold serveRead
  rw [layoutBad_mem hmem]
  cases how : owner? s r.o with
  | none => simp [hclean]
  | some w =>
    cases hl : r.leaf with
    | none => simp [hclean]
    | some l => simp [fillCheck_unsealed w r.tgt r.va r.pa (hcls l hl), hclean]

/-- What is served without a trap may be kept as an early release, and its reply may bring an L1 copy up to date. -/
theorem serve_done (h : serve0 s r = .done u p) (htrap : p.trap = none) :
    ∃ es ps, serve s r = .done { u with early := es } { p with patch := ps } := by
  have hearly : ∃ es, noteEarly s u r = { u with early := es } := by
    unfold noteEarly
    split
    · split
      · exact ⟨u.early, rfl⟩
      · exact ⟨_, rfl⟩
    · exact ⟨u.early, rfl⟩
  obtain ⟨es, hes⟩ := hearly
  have hnone : p.trap.isNone = true := by rw [htrap]; rfl
  unfold serve
  rw [h]
  simp only [hnone, if_true, hes, Bool.and_true]
  split
  · exact ⟨es, _, rfl⟩
  · exact ⟨es, p.patch, rfl⟩

/-! ## The request's turn -/

theorem filter_bne {α : Type} (l : List α) (f : α → Nat) (n : Nat) :
    l.filter (fun x => f x != n) = l.filter (fun x => f x ≠ n) := List.filter_congr fun _ _ => Bool.eq_iff_iff.2 (by simp)

theorem exec_targetRequest_early (hr : reqAt s r.id = some r) (hturn : mayServe s r = false) :
    exec (.targetRequest r.id) s = .next s := by
  show Host.Outcome.next (targetStep s r.id) = _
  simp [targetStep, hr, hturn]

/-- A core waits for the answer of a posted store only where it goes to another scratchpad (R330). -/
theorem wantsReply_of_isStore (h : r.kind.isStore = true) : wantsReply r = r.tgt.isScratch := by
  unfold wantsReply
  cases hk : r.kind with
  | store | vstore | stf | push => rfl
  | _ => rw [hk] at h; cases h

variable (hr : reqAt s r.id = some r) (hheld : r.held = false) (hone : r.combined = none) (hopen : targetShut s r.tgt = false)
  (hturn : mayServe s r = true)
include hr hheld hone hopen hturn

theorem exec_targetRequest_done (h : serve s r = .done u p) : exec (.targetRequest r.id) s = .next (answered u r p) := by
  show Host.Outcome.next (targetStep s r.id) = _
  simp [targetStep, hr, hheld, hone, hopen, hturn, h]

variable (hmem : r.tgt.isScratch = false)
include hmem

/-- A posted store leaves when it is performed; its core waits for no reply (R334). -/
theorem exec_targetRequest_posted (h : serve0 s r = .done u r.reply) (hkind : r.kind.isStore = true) :
    ∃ es, exec (.targetRequest r.id) s = .next { u with early := es, reqs := u.reqs.filter (·.id != r.id) } := by
  obtain ⟨es, ps, hserve⟩ := serve_done h rfl
  refine ⟨es, (exec_targetRequest_done hr hheld hone hopen hturn hserve).trans ?_⟩
  have hquiet : wantsReply r = false := (wantsReply_of_isStore hkind).trans hmem
  simp [answered, hheld, hquiet, Req.reply, dropReq]

/-- What another request asks for is on its way back once it is performed (R333). -/
theorem exec_targetRequest_replies (h : serve0 s r = .done u p) (htrap : p.trap = none) (hwants : wantsReply r = true) :
    ∃ es ps, exec (.targetRequest r.id) s = .next { u with
      early := es, reqs := u.reqs.filter (·.id != r.id), replies := u.replies ++ [{ p with patch := ps }] } := by
  obtain ⟨es, ps, hserve⟩ := serve_done h htrap
  refine ⟨es, ps, (exec_targetRequest_done hr hheld hone hopen hturn hserve).trans ?_⟩
  have hnet : r.tgt ≠ .scratch r.o r.core := fun htgt => by rw [htgt] at hmem; cases hmem
  simp [answered, hheld, hwants, hnet, dropReq]

variable (hspot : spotOf r = .mem pa)
include hspot

/-- ST at its target (R334). -/
theorem target_store {data : List Byte} (hk : r.kind = .store data) (h8 : r.n ≤ 8) (hsingle : ∀ o die j b, r.tgt ≠ .replica o die j b) :
    ∃ u, exec (.targetRequest r.id) s = .next u ∧ Stored s.mem u.mem pa (allOn data) ∧ u.spad = s.spad ∧
      u.replies = s.replies ∧ u.reqs = s.reqs.filter (·.id ≠ r.id) := by
  obtain ⟨m, ims, cs, fl, hwrite, hstored⟩ := reqWrite_eq (s := s) hspot (replaces_of_short (bs := allOn data) h8)
  have hserve : serve0 s r = .done (reqWrite s r (allOn data)) r.reply := by
    simp only [serve0, hk, serveWrite, layoutBad_mem hmem, Bool.false_eq_true, if_false, storeAt_single hsingle]
  obtain ⟨es, hexec⟩ := exec_targetRequest_posted hr hheld hone hopen hturn hmem hserve (by rw [hk]; rfl)
  rw [hwrite] at hexec
  exact ⟨_, hexec, hstored, rfl, rfl, filter_bne ..⟩

/-- LD at its target (R334). -/
theorem target_load {n : Nat} {sgn : Bool} {d : GReg} (hk : r.kind = .load n sgn d) (hn : r.n = n) (h0 : 0 < n) (h8 : n ≤ 8)
    (hclean : markIn s (.mem pa) n = 0) (hcls : ∀ l, r.leaf = some l → l.cls ≠ 2) :
    ∃ u p x, exec (.targetRequest r.id) s = .next u ∧ u.mem = s.mem ∧ u.spad = s.spad ∧
      u.reqs = s.reqs.filter (·.id ≠ r.id) ∧ u.replies = s.replies ++ [p] ∧ p.id = r.id ∧ p.trap = none ∧
      Loaded sgn n s.mem pa x ∧ p.g = [(d, x)] ∧ p.v = [] ∧ p.acq = r.acq := by
  obtain ⟨cs, fl, htouch⟩ := touchRead_eq s r.tgt (spotOf r).addr
  have hread : reqRead s r = Memory.readN s.mem pa n := by rw [reqRead, hspot, hn]; rfl
  have hserve : serve0 s r = .done (reqTouch s r false) { r.reply with
      g := [(d, extend sgn n (wordOfList (Memory.readN s.mem pa n)))], acq := r.acq,
      fill := fillsOf (reqTouch s r false) r (sectorsOf r) } := by
    simp only [serve0, hk]
    rw [serveRead_clean _ hmem hcls (by rw [reqMark, hspot, hn, hclean]), hread]
  obtain ⟨es, ps, hexec⟩ := exec_targetRequest_replies hr hheld hone hopen hturn hmem hserve rfl (by simp [wantsReply, hk])
  rw [show reqTouch s r false = touchRead s r.tgt (spotOf r).addr from rfl, htouch] at hexec
  exact ⟨_, _, _, hexec, rfl, rfl, filter_bne .., rfl, rfl, rfl,
    loaded_readN sgn s.mem pa h0 h8, rfl, rfl, rfl⟩

/-- An AMO at its target (R341). -/
theorem target_amo {op : AmoOp} {n : Nat} {sgn : Bool} {y : Word} {d : GReg} (hk : r.kind = .amo op n sgn y d) (hn : r.n = n)
    (h0 : 0 < n) (h8 : n ≤ 8) (hclean : markIn s (.mem pa) n = 0) (hcls : ∀ l, r.leaf = some l → l.cls ≠ 2) :
    ∃ u p x, exec (.targetRequest r.id) s = .next u ∧
      Loaded sgn n s.mem pa x ∧ Stored s.mem u.mem pa (allOn (listOfWord (amoOp op n sgn x y) n)) ∧
      u.spad = s.spad ∧ u.reqs = s.reqs.filter (·.id ≠ r.id) ∧ u.replies = s.replies ++ [p] ∧ p.id = r.id ∧
      p.trap = none ∧ p.g = [(d, x)] := by
  obtain ⟨cs, fl, htouch⟩ := touchRead_eq s r.tgt (spotOf r).addr
  have hread : reqRead s r = Memory.readN s.mem pa n := by rw [reqRead, hspot, hn]; rfl
  have hloaded := loaded_readN sgn s.mem pa h0 h8
  generalize hold : wordOfList (Memory.readN s.mem pa n) = old at hloaded
  obtain ⟨m, ims, cs', fl', hwrite, hstored⟩ := reqWrite_eq (s := reqTouch s r false) hspot
    (replaces_of_short (bs := allOn (listOfWord (amoOp op n sgn old y) n)) (by omega))
  have hserve : serve0 s r = .done (reqWrite (reqTouch s r false) r (allOn (listOfWord (amoOp op n sgn old y) n)))
      { r.reply with g := [(d, extend sgn n old)], acq := r.acq, val := some old } := by
    simp only [serve0, hk]
    rw [serveRead_clean _ hmem hcls (by rw [reqMark, hspot, hn, hclean]), hread, hold]
  obtain ⟨es, ps, hexec⟩ := exec_targetRequest_replies hr hheld hone hopen hturn hmem hserve rfl (by simp [wantsReply, hk])
  have hreqTouch : reqTouch s r false = { s with cores := cs, flips := fl } := htouch
  rw [hwrite, hreqTouch] at hexec
  rw [hreqTouch] at hstored
  refine ⟨_, _, extend sgn n old, hexec, hloaded, ?_, rfl, filter_bne .., rfl, rfl, rfl, rfl⟩
  rw [amoOp_extend op sgn sgn old y h0 h8]
  exact hstored

end
end Sys2Proof.Machine
end

section
/-!
SUPPORT. A reply at its core (R145, R191, R333): which bundle it ends, and how.
-/

namespace Sys2Proof.Machine

/-- The state with a reply off the network. -/
def delivered (s : State) (p : Reply) : State := { s with replies := s.replies.filter (·.id ≠ p.id) }

/-- The state as a reply finds its thread: it has left the network and taught the L1. -/
def learnt (s : State) (p : Reply) : State := landL1 (delivered s p) p

section
variable {s : State} {p : Reply} {t : Thread} {b : Bundle}

theorem exec_replyArrival_lands (hp : replyAt s p.id = some p) (hord : inOrder s p = true) (hrec : isRecord s p.id = false)
    (hhome : homeMoves s p = false) :
    exec (.replyArrival p.id) s = .next (land (delivered s p) p) := by
  show execReplyArrival p.id s = _
  simp only [execReplyArrival, hp, hord, hrec, hhome, Bool.not_true, Bool.or_false, Bool.false_eq_true, if_false, delivered,
    filter_bne]

/-- A reply to the request that a bundle waits for goes to that bundle. -/
theorem land_whole (ht : thr? s p.o p.tid = some t) (hpart : p.part = none) (hwait : t.status = .waiting (.reply p.id)) :
    land s p = landBundle (landL1 s p) t p := by
  have ht' : thr? (landL1 s p) p.o p.tid = some t := ht
  simp [land, ht', hpart, hwait]

theorem land_piece {base j : Nat} (ht : thr? s p.o p.tid = some t) (hpart : p.part = some (base, j))
    (hwait : t.status = .waiting (.reply base)) : land s p = landPart (landL1 s p) t p := by
  have ht' : thr? (landL1 s p) p.o p.tid = some t := ht
  simp [land, ht', hpart, hwait]

theorem landBundle_retires (ht : thr? s p.o p.tid = some t) (hb : t.pend = some b) (htrap : p.trap = none) (hw : p.writes = []) :
    landBundle s t p = retire s p.o p.tid b.pc b.len (p.wr s t) b.vw := by
  simp [landBundle, Reply.info, htrap, hw, finishWait, ht, hb]

theorem landBundle_traps {cause : Nat} {info va pos : Word} (ht : thr? s p.o p.tid = some t) (hb : t.pend = some b)
    (htrap : p.trap = some (cause, info, va, pos)) :
    landBundle s t p = takeTrap s p.o p.tid ⟨cause, info, va, pos, 0, p.known, p.applied, .none⟩ b.pc (some (lenBits b.len)) false
      false := by
  simp [landBundle, Reply.info, htrap, trapWait, ht, hb, lenBits]

/-- Pieces joined into one reply are the thread's of their first. -/
theorem joinParts_thread (l : List Reply) (p : Reply) : (l.foldl joinParts p).o = p.o ∧ (l.foldl joinParts p).tid = p.tid := by
  induction l generalizing p with
  | nil => exact ⟨rfl, rfl⟩
  | cons q l ih => exact ih (joinParts p q)

/-- The arrival of p ends the bundle b of its thread with what q carries: it retires, or takes q's cause. -/
def EndsBundle (s : State) (p : Reply) (t : Thread) (b : Bundle) (q : Reply) : Prop :=
  (q.trap = none → q.writes = [] → exec (.replyArrival p.id) s = .next (retire (learnt s p) p.o p.tid b.pc b.len
    { Wr.none with g := q.g, v := q.v.map (fun x => (x.1, mergeLanes x.2.1 (readV s t x.1) x.2.2)), acq := q.acq } b.vw))
  ∧ ∀ cause info va pos, q.trap = some (cause, info, va, pos) →
    exec (.replyArrival p.id) s = .next (takeTrap (learnt s p) p.o p.tid
      ⟨cause, info, va, pos, 0, q.known, q.applied, .none⟩ b.pc (some (lenBits b.len)) false false)

theorem endsBundle_of_landBundle {q : Reply} (ht : thr? s p.o p.tid = some t) (hb : t.pend = some b)
    (hq : q.o = p.o ∧ q.tid = p.tid) (h : exec (.replyArrival p.id) s = .next (landBundle (learnt s p) t q)) :
    EndsBundle s p t b q := by
  obtain ⟨ho, htid⟩ := hq
  have ht' : thr? (learnt s p) q.o q.tid = some t := by rw [ho, htid]; exact ht
  rw [EndsBundle, h, ← ho, ← htid]
  refine ⟨fun htrap hw => ?_, fun cause info va pos htrap => ?_⟩
  · rw [landBundle_retires ht' hb htrap hw]
    rfl
  · rw [landBundle_traps ht' hb htrap]

variable (hp : replyAt s p.id = some p) (hord : inOrder s p = true) (hrec : isRecord s p.id = false)
  (hhome : homeMoves s p = false) (ht : thr? s p.o p.tid = some t)
include hp hord hrec hhome ht

theorem exec_replyArrival_whole (hb : t.pend = some b) (hpart : p.part = none) (hwait : t.status = .waiting (.reply p.id)) :
    EndsBundle s p t b p :=
  endsBundle_of_landBundle ht hb ⟨rfl, rfl⟩
    ((exec_replyArrival_lands hp hord hrec hhome).trans (congrArg _ (land_whole ht hpart hwait)))

variable {base j : Nat} (hpart : p.part = some (base, j)) (hwait : t.status = .waiting (.reply base))
include hpart hwait

/-- One of the first three pieces is kept (R191). -/
theorem exec_replyArrival_early (hgot : t.got.length < 3) :
    exec (.replyArrival p.id) s = .next (onThr (learnt s p) p.o p.tid (fun x => { x with got := x.got ++ [p] })) := by
  rw [exec_replyArrival_lands hp hord hrec hhome, land_piece (s := delivered s p) ht hpart hwait, landPart, if_pos hgot]
  rfl

/-- The fourth ends the wait with all of them. -/
theorem exec_replyArrival_last (hb : t.pend = some b) (hgot : 3 ≤ t.got.length) : EndsBundle s p t b (t.got.foldl joinParts p) := by
  refine endsBundle_of_landBundle ht hb (joinParts_thread _ _) ?_
  rw [exec_replyArrival_lands hp hord hrec hhome, land_piece (s := delivered s p) ht hpart hwait, landPart,
    if_neg (Nat.not_lt.2 hgot)]
  rfl

end

end Sys2Proof.Machine
end

section
namespace Sys2Proof
open Sys2Proof.Machine

/-- Settles O39: a request by its turn and its kind; a reply by whether it is whole or a piece, and by whether it carries a
cause. -/
theorem requestsAndReplies : Obligations.RequestsAndReplies := by
  unfold Obligations.RequestsAndReplies
  refine ⟨fun s q pa hr hheld hone hopen _ hspot hmem hsingle hcls => ⟨exec_targetRequest_early hr, fun hturn => ⟨?_, ?_, ?_⟩⟩,
    fun s p t b hp hord hrec hhome ht hb => ⟨learnt s p, rfl, rfl, rfl, rfl, ?_⟩⟩
  · exact fun data hk _ h8 => target_store hr hheld hone hopen hturn hmem hspot hk h8 hsingle
  · exact fun n sgn d hk hn h8 h0 hclean => target_load hr hheld hone hopen hturn hmem hspot hk hn h0 h8 hclean hcls
  · exact fun op n sgn y d hk hn h8 h0 hclean => target_amo hr hheld hone hopen hturn hmem hspot hk hn h0 h8 hclean hcls
  · exact ⟨exec_replyArrival_whole hp hord hrec hhome ht hb, fun base j hpart hwait =>
      ⟨exec_replyArrival_early hp hord hrec hhome ht hpart hwait, exec_replyArrival_last hp hord hrec hhome ht hpart hwait hb⟩⟩

end Sys2Proof
end

section
/-!
SUPPORT. Exchange swaps (R134, R158, R183), replicated writes at a die (R186), and AMOs combined at a switch (R177).
-/

namespace Sys2Proof.Machine

/-! ## Two runs of bytes that change places -/

theorem Memory.getD_readN (m : Memory) {n k : Nat} (a : Nat) (h : k < n) :
    (Memory.readN m a n).getD k 0 = Memory.read m (a + k) := by
  induction n generalizing a k with
  | zero => omega
  | succ n ih =>
    cases k with
    | zero => rfl
    | succ k =>
      rw [Memory.readN, List.getD_cons_succ, ih (a + 1) (by omega), Nat.add_right_comm]
      rfl

/-- Memory with the n bytes from lo on and the n that follow them exchanged. -/
def Memory.exchanged (m : Memory) (lo n : Nat) : Memory :=
  Memory.writeN (Memory.writeN m lo (Memory.readN m (lo + n) n)) (lo + n) (Memory.readN m lo n)

theorem Memory.read_exchanged (m : Memory) (lo n a : Nat) : Memory.read (Memory.exchanged m lo n) a
    = if lo ≤ a ∧ a < lo + n then Memory.read m (a + n)
      else if lo + n ≤ a ∧ a < lo + n + n then Memory.read m (a - n) else Memory.read m a := by
  simp only [Memory.exchanged, Memory.read_writeN, Memory.readN_length]
  by_cases hfront : lo ≤ a ∧ a < lo + n
  · rw [if_neg (by omega), if_pos hfront, if_pos hfront, Memory.getD_readN _ _ (by omega)]
    congr 1
    omega
  · rw [if_neg hfront, if_neg hfront]
    by_cases hback : lo + n ≤ a ∧ a < lo + n + n
    · rw [if_pos hback, if_pos hback, Memory.getD_readN _ _ (by omega)]
      congr 1
      omega
    · rw [if_neg hback, if_neg hback]

/-! ## The exchange swap (R158, R183) -/

/-- The state but for the full/empty bits and the poison marks of scratchpads. -/
def unmarked (s : State) : State := { s with spadFE := [], spadPz := [] }

theorem eq_of_unmarked {s u : State} (h : unmarked u = unmarked s) : u = { s with spadFE := u.spadFE, spadPz := u.spadPz } :=
  calc u = { unmarked u with spadFE := u.spadFE, spadPz := u.spadPz } := rfl
    _ = { unmarked s with spadFE := u.spadFE, spadPz := u.spadPz } := by rw [h]

theorem unmarked_setFull (s : State) (o j off n : Nat) (b : Bool) : unmarked (setFull s ((Spot.spad o j off).add n) b) = unmarked s := rfl
theorem unmarked_setMark (s : State) (o j off n m : Nat) : unmarked (setMark s ((Spot.spad o j off).add n) m) = unmarked s := rfl

theorem swapSpad_eq (s : State) (o j lo n : Nat) : ∃ fe pz, swapSpad s o j lo (lo + n) n
    = { s with spad := Memory.exchanged s.spad (spadKey o j lo) n, spadFE := fe, spadPz := pz } := by
  refine ⟨_, _, eq_of_unmarked (s := { s with spad := Memory.exchanged s.spad (spadKey o j lo) n }) ?_⟩
  unfold swapSpad
  dsimp only
  rw [foldl_keeps unmarked, foldl_keeps unmarked]
  · simp only [writeAt, readAt, Memory.exchanged, spadKey, Nat.add_assoc]
  · exact fun u i => (unmarked_setFull _ _ _ _ _ _).trans (unmarked_setFull _ _ _ _ _ _)
  · exact fun u i => (unmarked_setMark _ _ _ _ _ _).trans (unmarked_setMark _ _ _ _ _ _)

section
variable {s : State} {o j obj : Nat} {k : Core}

/-- The core after its swap: the other phase, with no packet held for it. -/
def Core.swapped (k : Core) : Core := { k with xph := !k.xph, phase := [] }

theorem exchangeSwap_eq (hk : core? s o j = some k) (hphase : k.phase = []) (hroom : 2 * k.xb * 4096 ≤ spadSize k) :
    ∃ fe pz, exchangeSwap s o j = { s with
      spad := Memory.exchanged s.spad (spadKey o j (frontLo k)) (k.xb * 4096), spadFE := fe, spadPz := pz,
      cores := put s.cores (coreKey o j) k.swapped } := by
  have hshadow : shadowLo k = frontLo k + k.xb * 4096 := by
    unfold shadowLo frontLo
    omega
  obtain ⟨fe, pz, hswap⟩ := swapSpad_eq s o j (frontLo k) (k.xb * 4096)
  refine ⟨fe, pz, ?_⟩
  simp only [exchangeSwap, hk, hphase, List.foldl_nil, hshadow, hswap, onCore, upd_of_lookup _ _ _ hk]
  rfl

theorem barRec_names (s : State) (o pa : Nat) : (barRec s o pa).o = o ∧ (barRec s o pa).pa = pa := by
  unfold barRec
  cases hfind : s.barriers.find? (fun b => b.o == o && b.pa == pa) with
  | none => exact ⟨rfl, rfl⟩
  | some b => simpa using List.find?_some hfind

theorem barRec_setBar (s : State) (b : Barrier) : barRec (setBar s b) b.o b.pa = b := by
  simp [barRec, setBar]

theorem exec_barrierCompletion_held (hmv : (placeOf s o j).mv = true) : exec (.barrierCompletion o j obj) s = .next s := by
  show execBarrierCompletion o j obj s = _
  simp [execBarrierCompletion, hmv]

theorem exec_barrierCompletion_swaps (hmv : (placeOf s o j).mv = false) (htell : (barRec s o obj).toTell.contains j = true) :
    exec (.barrierCompletion o j obj) s
      = .next (setBar (exchangeSwap s o j) { barRec s o obj with toTell := (barRec s o obj).toTell.erase j }) := by
  show execBarrierCompletion o j obj s = _
  simp only [execBarrierCompletion, hmv, htell, Bool.false_eq_true, if_false, if_true]

/-- A member core that a completion reaches has swapped its banks once, and is not told again. -/
theorem barrierCompletion_swaps (hmv : (placeOf s o j).mv = false) (htell : (barRec s o obj).toTell.contains j = true)
    (hk : core? s o j = some k) (hphase : k.phase = []) (hroom : 2 * k.xb * 4096 ≤ spadSize k) :
    ∃ u k', exec (.barrierCompletion o j obj) s = .next u ∧ core? u o j = some k' ∧
      k' = { k with xph := !k.xph, phase := [] } ∧ (barRec u o obj).toTell = (barRec s o obj).toTell.erase j ∧
      u.mem = s.mem ∧
      ∀ a, Memory.read u.spad a
        = if spadKey o j (frontLo k) ≤ a ∧ a < spadKey o j (shadowLo k) then Memory.read s.spad (a + k.xb * 4096)
          else if spadKey o j (shadowLo k) ≤ a ∧ a < spadKey o j (spadSize k) then Memory.read s.spad (a - k.xb * 4096)
          else Memory.read s.spad a := by
  have hshadow : spadKey o j (shadowLo k) = spadKey o j (frontLo k) + k.xb * 4096 := by
    unfold spadKey shadowLo frontLo
    omega
  have hend : spadKey o j (spadSize k) = spadKey o j (frontLo k) + k.xb * 4096 + k.xb * 4096 := by
    unfold spadKey frontLo
    omega
  have htold := barRec_setBar (exchangeSwap s o j) { barRec s o obj with toTell := (barRec s o obj).toTell.erase j }
  rw [(barRec_names s o obj).1, (barRec_names s o obj).2] at htold
  obtain ⟨fe, pz, hswap⟩ := exchangeSwap_eq hk hphase hroom
  refine ⟨_, k.swapped, exec_barrierCompletion_swaps hmv htell, ?_, rfl, congrArg Barrier.toTell htold, ?_, fun a => ?_⟩
  · rw [hswap]
    exact lookup_put_self ..
  · rw [hswap]
    rfl
  · rw [hswap, hshadow, hend]
    exact Memory.read_exchanged ..

end

/-! ## Replicated writes (R186) -/

section
variable {s : State} {o w die : Nat} {x : RWrite} {ow : Owner}

/-- A write that is still pending somewhere stands as it was changed. -/
theorem mem_onRw {f : RWrite → RWrite} (hx : x ∈ s.rwrites) (hpend : (f x).pending ≠ []) : f x ∈ (onRw s x f).rwrites := by
  refine List.mem_filter.2 ⟨List.mem_map.2 ⟨x, hx, if_pos ⟨rfl, rfl⟩⟩, ?_⟩
  simpa using hpend

theorem replicatedWrite_buffered
    (hx : s.rwrites.find? (fun y => y.o == o && y.id == w && y.pending.contains die && !y.buffered.contains die) = some x)
    (hfirst : s.rwrites.find? (fun y => y.src == x.src && y.pending.contains die && !y.buffered.contains die) = some x)
    (hroom : (s.rwrites.filter (fun y => y.buffered.contains die)).length < 4096) (hnet : quietNet s o = false) :
    ∃ u, exec (.replicatedWriteReceived o w die) s = .next u ∧ { x with buffered := x.buffered ++ [die] } ∈ u.rwrites ∧
      u.mem = s.mem := by
  refine ⟨onRw s x (fun y => { y with buffered := y.buffered ++ [die] }), ?_, mem_onRw (List.mem_of_find?_eq_some hx) ?_, rfl⟩
  · show execReplicatedWriteReceived o w die s = _
    simp only [execReplicatedWriteReceived, hx, hfirst, hnet, bne_self_eq_false, Bool.or_false, Bool.false_or, decide_eq_true_eq,
      if_neg (Nat.not_le.2 hroom)]
  · intro hnil
    have hin := List.find?_some hx
    simp [show x.pending = [] from hnil] at hin

/-- The vector clock of a die lets a write in: it is the next of its source, and what its source had seen is there. -/
theorem vcReady_iff (ow : Owner) (x : RWrite) (die : Nat) : vcReady ow x die = true ↔
    ∀ d < 8, if d = x.src then (getD 0 ow.vclk (die * 8 + d) + 1) % 2 ^ 32 = x.vc.getD d 0
      else (getD 0 ow.vclk (die * 8 + d) + 2 ^ 32 - x.vc.getD d 0) % 2 ^ 32 < 2 ^ 31 := by
  simp only [vcReady, List.all_eq_true, List.mem_range]
  refine forall₂_congr fun d _ => ?_
  split <;> simp [serialGe]

theorem allOn_fst {l : List (Byte × Bool)} (h : ∀ b ∈ l, b.2 = true) : allOn (l.map (·.1)) = l := by
  rw [allOn, List.map_map]
  refine (List.map_congr_left (g := id) fun b hb => ?_).trans (List.map_id l)
  show (b.1, true) = b
  rw [← h b hb]

theorem writeBlocks_mem_eq (s : State) (pa : Nat) (bs : List Byte) : ∃ ims pz,
    writeBlocks s (.mem pa) bs = { s with mem := Memory.writeN s.mem pa bs, images := ims, poison := pz } := by
  have hmarks (l : List Nat) (u : State) :
      ∃ pz, l.foldl (fun s i => setMark s ((Spot.mem pa).add (64 * i)) 0) u = { u with poison := pz } := by
    induction l generalizing u with
    | nil => exact ⟨u.poison, rfl⟩
    | cons i l ih => exact ih (setMark u ((Spot.mem pa).add (64 * i)) 0)
  obtain ⟨ims, hims⟩ := writeAt_mem_eq s pa bs
  obtain ⟨pz, hpz⟩ := hmarks (List.range (bs.length / 64)) (writeAt s (.mem pa) bs)
  exact ⟨ims, pz, by rw [writeBlocks, hpz, hims]⟩

/-- The bytes of a replicated write at a die's copy. -/
def copyWritten (s : State) (die : Nat) (x : RWrite) : State :=
  if x.whole then writeBlocks s (.mem (replPa die x.off)) (x.data.map (·.1)) else writeMaskAt s (.mem (replPa die x.off)) x.data

theorem copyWritten_eq (s : State) (die : Nat) (hwhole : x.whole = true → ∀ b ∈ x.data, b.2 = true) : ∃ m ims pz,
    copyWritten s die x = { s with mem := m, images := ims, poison := pz } ∧ Stored s.mem m (replPa die x.off) x.data := by
  unfold copyWritten
  split
  next hw =>
    obtain ⟨ims, pz, h⟩ := writeBlocks_mem_eq s (replPa die x.off) (x.data.map (·.1))
    refine ⟨_, ims, pz, h, ?_⟩
    have hstored := stored_writeN s.mem (replPa die x.off) (x.data.map (·.1))
    rwa [allOn_fst (hwhole hw)] at hstored
  next =>
    obtain ⟨ims, h⟩ := writeMaskAt_mem_eq s (replPa die x.off) x.data
    exact ⟨_, ims, s.poison, h, stored_writeMasked _ _ _⟩

section
variable (hx : s.rwrites.find? (fun y => y.o == o && y.id == w && y.buffered.contains die) = some x) (how : owner? s o = some ow)
include hx how

theorem exec_replicatedApply_early (h : ¬ vcReady ow x die = true ∨ paused s = true) : exec (.replicatedApply o w die) s = .next s := by
  have hwait : (!vcReady ow x die || paused s) = true := by
    rcases h with h | h <;> simp [h]
  show execReplicatedApply o w die s = _
  simp only [execReplicatedApply, hx, how, hwait, if_true]

/-- A write whose turn it is stands in the die's copy, and in its clock. -/
theorem exec_replicatedApply_stores (hready : vcReady ow x die = true) (hrun : paused s = false)
    (hwhole : x.whole = true → ∀ b ∈ x.data, b.2 = true) : ∃ u ow', exec (.replicatedApply o w die) s = .next u ∧
      Stored s.mem u.mem (replPa die x.off) x.data ∧ owner? u o = some ow' ∧
      getD 0 ow'.vclk (die * 8 + x.src) = x.vc.getD x.src 0 ∧ u.spad = s.spad ∧ u.threads = s.threads := by
  obtain ⟨m, ims, pz, hcopy, hstored⟩ := copyWritten_eq s die hwhole
  obtain ⟨cs, fl, htouch⟩ := touchWrite_eq (copyWritten s die x)
    (.replica o die (replHome ow die (x.off / 256)) (x.off / 256 % 4)) (replPa die x.off)
  rw [hcopy] at htouch
  refine ⟨onRw (onOwner { s with mem := m, images := ims, poison := pz, cores := cs, flips := fl } o
      (fun v => { v with vclk := setD 0 v.vclk (die * 8 + x.src) (x.vc.getD x.src 0) })) x
      (fun y => { y with buffered := y.buffered.erase die, pending := y.pending.erase die }),
    { ow with vclk := setD 0 ow.vclk (die * 8 + x.src) (x.vc.getD x.src 0) }, ?_, hstored, ?_, getD_setD_self .., rfl, rfl⟩
  · show execReplicatedApply o w die s = _
    simp only [execReplicatedApply, hx, how, hready, hrun, Bool.not_true, Bool.or_false, Bool.false_eq_true, if_false]
    rw [← htouch, ← hcopy]
    rfl
  · exact (owner?_onOwner _ o _).trans (congrArg (Option.map _) how)

end
end

/-! ## Combining (R177) -/

section
variable {s : State} {up low r : Nat} {a b : Req} {op : AmoOp} {n : Nat} {g : Bool} {y z : Word} {d d' : GReg}

/-- The request that stands for a, and for another that it was combined with. -/
def joinedReq (s : State) (a : Req) (kind : ReqKind) : Req := { a with id := s.nextId, tid := noThread, kind := kind, acq := none }

/-- The state with both sides marked as carried by their record's request. -/
def sidesMarked (s : State) (up low : Nat) : State :=
  onReq (onReq s up (fun x => { x with combined := some (up, low) })) low (fun x => { x with combined := some (up, low) })

theorem meetSwitch_of_combinable (h : combinable s a b = true) : ∃ l, meetSwitch s a b = some l := by
  unfold combinable at h
  split at h
  · rw [Bool.and_eq_true] at h
    exact Option.isSome_iff_exists.1 h.2
  · cases h

section
variable (hup : reqAt s up = some a) (hlow : reqAt s low = some b)
include hup hlow

theorem exec_amoCombine_apart (h : combinable s a b = false) : exec (.amoCombine up low) s = .next s := by
  show execAmoCombine up low s = _
  simp [execAmoCombine, hup, hlow, h]

/-- The request that stands for two carries the operation on both operands, and its record what both were. -/
theorem exec_amoCombine_joins (ha : a.kind = .amo op n g y d) (hb : b.kind = .amo op n g z d') (h : combinable s a b = true) :
    ∃ u q l, exec (.amoCombine up low) s = .next u ∧ meetSwitch s a b = some l ∧
      u.combines = s.combines ++ [⟨s.nextId, a, b, l⟩] ∧ q ∈ u.reqs ∧ q.id = s.nextId ∧
      q.kind = .amo op n g (amoOp op n g y z) d ∧ q.tgt = a.tgt ∧ q.pa = a.pa ∧ u.mem = s.mem := by
  obtain ⟨l, hl⟩ := meetSwitch_of_combinable h
  have hmeet : (meetSwitch (sidesMarked s up low) a b).getD (0, 0, 0) = l := congrArg (Option.getD · (0, 0, 0)) hl
  refine ⟨{ sidesMarked s up low with
      reqs := (sidesMarked s up low).reqs ++ [joinedReq s a (.amo op n g (amoOp op n g y z) d)]
      combines := s.combines ++ [⟨s.nextId, a, b, l⟩]
      nextId := s.nextId + 1 },
    joinedReq s a (.amo op n g (amoOp op n g y z) d), l, ?_, hl, rfl, List.mem_append_right _ (List.mem_singleton.2 rfl),
    rfl, rfl, rfl, rfl, rfl⟩
  show execAmoCombine up low s = _
  simp only [execAmoCombine, hup, hlow, h, if_true, combineKind, ha, hb]
  rw [← hmeet]
  rfl

end

/-- The reply splits into one for each side: the upper was applied first (R177). -/
theorem exec_combinedReplySplit_both {p : Reply} {k : Combine} {v : Word} (hp : replyAt s r = some p)
    (hk : s.combines.find? (fun x => x.id == r) = some k) (hv : p.val = some v) (hup : k.upper.kind = .amo op n g y d)
    (hlow : k.lower.kind = .amo op n g z d') : ∃ u p1 p2, exec (.combinedReplySplit r) s = .next u ∧
      u.replies = s.replies.flatMap (fun q => if q.id = r then [p1, p2] else [q]) ∧
      p1.id = k.upper.id ∧ p1.g = [(d, extend g n v)] ∧ p2.id = k.lower.id ∧ p2.g = [(d', extend g n (amoOp op n g v y))] ∧
      u.mem = s.mem := by
  refine ⟨{ dropReq (dropReq s k.upper.id) k.lower.id with
      replies := s.replies.flatMap (fun q => if q.id = r then
        [sideReply p k.upper v, sideReply p k.lower (lowerOld k.upper.kind v)] else [q])
      combines := s.combines.filter (·.id != r) },
    sideReply p k.upper v, sideReply p k.lower (lowerOld k.upper.kind v), ?_, rfl, rfl, ?_, rfl, ?_, rfl⟩
  · show execCombinedReplySplit r s = _
    simp only [execCombinedReplySplit, hp, hk, hv, Option.getD_some]
    rfl
  · simp only [sideReply, hup]
  · simp only [sideReply, hlow, hup, lowerOld]

end

end Sys2Proof.Machine
end

section
namespace Sys2Proof
open Sys2Proof.Machine

/-- Settles O43: a completion by whether its tile is being exchanged, a replicated write as it arrives and as its turn comes,
two AMOs as they meet and as their reply splits. -/
theorem swapsReplicasAndCombining : Obligations.SwapsReplicasAndCombining := by
  unfold Obligations.SwapsReplicasAndCombining
  refine ⟨fun s o j obj k htell hk => ⟨exec_barrierCompletion_held, fun hmv => barrierCompletion_swaps hmv htell hk⟩,
    fun s o w die x => replicatedWrite_buffered, fun s o w die x ow hx how => ?_,
    fun s up low a b op n g y z d d' hup hlow ha hb =>
      ⟨exec_amoCombine_apart hup hlow, exec_amoCombine_joins hup hlow ha hb⟩,
    fun s r p k op n g y z v d d' => exec_combinedReplySplit_both⟩
  intro its mine hwhole ready
  have hready : vcReady ow x die = true ↔ ready := vcReady_iff ow x die
  rw [← hready]
  exact ⟨exec_replicatedApply_early hx how, fun h hrun => exec_replicatedApply_stores hx how h hrun hwhole⟩

end Sys2Proof
end

section
/-!
SUPPORT. What leaves a core and lets its bundle go on (R168, R169, R193, R197, R334 to R337, R346): stores to memory, whole or in
pieces, a prefetch, an emptied L1 and the fences.
-/

namespace Sys2Proof.Machine

/-! ## What a first half reads at issue -/

section
variable (s : State) (c : Cur) (t : Thread) (w : Owner) (i : Instr)

theorem firstEnv_addr3 (m : M3) : ea3 (firstEnv s c t w i).s (firstEnv s c t w i).t m = ea3 s t m := by
  have hg (r : GReg) : readG (firstEnv s c t w i).s (firstEnv s c t w i).t r = readG s t r := envX_g s c t w i r
  simp only [ea3, hg]

/-- Draws of the dither source leave every translation as it is. -/
theorem firstEnv_lookupPage (page : Nat) : lookupPage (firstEnv s c t w i).s (firstEnv s c t w i).t page = lookupPage s t page := by
  have hcore : ∃ n, core? (firstEnv s c t w i).s t.o t.core = (core? s t.o t.core).map (fun k => { k with dither := k.dither + n }) := by
    show ∃ n, core? (takeDraws (bare s) t _) t.o t.core = _
    rcases takeDraws_eq (bare s) t (halfOf (envIn (bare s) c t w i)).draws with h | h <;> rw [h]
    · exact ⟨0, by simp [core?]⟩
    · exact core?_drawn (bare s) t.o t.core t.o t.core _
  obtain ⟨n, hn⟩ := hcore
  show lookupPage _ t page = _
  simp only [lookupPage, hn]
  cases core? s t.o t.core <;> rfl

theorem firstEnv_nextId : (firstEnv s c t w i).s.nextId = s.nextId := takeDraws_nextId _ _ _

end

/-! ## Where a store goes (R192) -/

theorem targetOf_network (s : State) (w : Owner) (o j : Nat) (l : Leaf) (pa : Nat) : (targetOf s w o j l pa).isScratch = false := by
  unfold targetOf
  dsimp only
  split_ifs <;> rfl

/-- A store to memory is asked for, and its bundle goes on (R334). -/
theorem post_network {e : Env} {r : Req} (bs : List (Byte × Bool)) (h : r.tgt.isScratch = false) : post e r bs
    = .ok (postDue (fenced (enterStore (storeIssue e.s r.o r.core r.pa bs) r) r) r.o r.tid r.tgt) Wr.none := by
  unfold post
  cases htgt : r.tgt with
  | scratch o j => rw [htgt] at h; cases h
  | _ => rfl

/-- What passes its checks is aligned as they ask. -/
theorem aligned_of_checkSpan {e : Env} {a : Act332} {k : AccKind} {va : Word} {n al : Nat} {loc : Loc} {more : Option (Nat × Loc)}
    (h : checkSpan e a k va n al = .ok loc more) : va.toNat % al = 0 := by
  by_contra hal
  have hbad : check e.s e.w e.t a k va n al = .bad (mkTrap Cause.align (n % 256) va) := if_pos hal
  have hone : checkSpan e a k va n al = Span.of (check e.s e.w e.t a k va n al) := by
    unfold checkSpan
    exact if_pos (by simp [hal])
  rw [hone, hbad] at h
  cases h

/-! ## Stores that are posted, and stores that wait for a buffer (R186, R334) -/

section
variable {s : State} {c : Cur} {t : Thread} {w : Owner} {i : Instr} {sem : Env → XRes}

/-- The bundle retires with its store to memory among the requests, wherever `ready` holds of the place. -/
def Posts (s : State) (c : Cur) (t : Thread) (w : Owner) (i : Instr) (a : Act332) (va : Word) (n al : Nat) (kind : ReqKind)
    (rel : Option Scope) (bs : List (Byte × Bool)) (ready : Leaf → Nat → Prop) : Prop :=
  let e := firstEnv s c t w i
  Issues s c t w i 0 → ∀ l pa, checkSpan e a .store va n al = .ok (.mem l pa) none → ready l pa →
    let r := reqFor e kind va (.mem l pa) n rel none
    exec i s = .next (retiresTo s c t w i
      (postDue (fenced (enterStore (storeIssue e.s t.o t.core pa bs) r) r) t.o t.tid r.tgt) Wr.none)

/-- The bundle waits, to issue again, wherever its store must wait for a full buffer of replicated writes. -/
def WaitsForRoom (s : State) (c : Cur) (t : Thread) (w : Owner) (i : Instr) (a : Act332) (va : Word) (n al : Nat) : Prop :=
  let e := firstEnv s c t w i
  Issues s c t w i 0 → ∀ loc more, checkSpan e a .store va n al = .ok loc more → applyFull e loc = true →
    exec i s = .next (putWait e.s c .apply none)

theorem posts_of {a : Act332} {va : Word} {n al : Nat} {kind : ReqKind} {rel : Option Scope} {bs : List (Byte × Bool)}
    {ready : Leaf → Nat → Prop} (hexec : exec i s = runX i sem s)
    (hsem : ∀ l pa, checkSpan (firstEnv s c t w i) a .store va n al = .ok (.mem l pa) none → ready l pa →
      sem (firstEnv s c t w i) = post (firstEnv s c t w i) (reqFor (firstEnv s c t w i) kind va (.mem l pa) n rel none) bs) :
    Posts s c t w i a va n al kind rel bs ready := by
  intro h l pa hok hready r
  rw [hexec]
  exact runX_ok h ((hsem l pa hok hready).trans (post_network bs (targetOf_network ..)))

theorem waitsForRoom_of {a : Act332} {va : Word} {n al : Nat} (hexec : exec i s = runX i sem s)
    (hsem : ∀ loc more, checkSpan (firstEnv s c t w i) a .store va n al = .ok loc more → applyFull (firstEnv s c t w i) loc = true →
      sem (firstEnv s c t w i) = .again (firstEnv s c t w i).s .apply) :
    WaitsForRoom s c t w i a va n al := by
  intro h loc more hok hfull
  rw [hexec]
  exact runX_again h (hsem loc more hok hfull)

/-- ST (R334). -/
theorem st_posts (ord : Ord) (o : MemOp) :
    let n := bytesOfType o.ty
    WaitsForRoom s c t w (.st ord o) .st (ea s t o.ad) n n ∧
    Posts s c t w (.st ord o) .st (ea s t o.ad) n n (.store (listOfWord (readG s t o.d) n)) (ordRel ord)
      (allOn (listOfWord (readG s t o.d) n)) (fun l pa => applyFull (firstEnv s c t w (.st ord o)) (.mem l pa) = false) := by
  have hva := firstEnv_addr s c t w (.st ord o) o.ad
  have hdata : (firstEnv s c t w (.st ord o)).g o.d = readG s t o.d := envX_g ..
  refine ⟨waitsForRoom_of (sem := stSem ord o) rfl fun loc more hok hfull => ?_,
    posts_of (sem := stSem ord o) rfl fun l pa hok hroom => ?_⟩
  · simp only [stSem, hva, hok, withSpan, hfull, if_true]
  · simp only [stSem, hva, hok, withSpan, hroom, hdata, Bool.false_eq_true, if_false]

/-- STF (R339). -/
theorem stf_posts (o : MemOp) :
    Posts s c t w (.stf o) .fe (ea s t o.ad) (bytesOfType o.ty) (bytesOfType o.ty)
      (.stf (listOfWord (readG s t o.d) (bytesOfType o.ty))) (some .sys) (allOn (listOfWord (readG s t o.d) (bytesOfType o.ty)))
      (fun _ _ => True) := by
  have hva := firstEnv_addr s c t w (.stf o) o.ad
  have hdata : (firstEnv s c t w (.stf o)).g o.d = readG s t o.d := envX_g ..
  refine posts_of (sem := stfSem o) rfl fun l pa hok _ => ?_
  simp only [stfSem, hva, hok, withSpan, hdata]

/-! ## Vector stores (R191, R335, R336) -/

section
variable {ord : Ord} {d : VReg} {k : MReg} {va : Word} {desc : Option (BitVec 16)} {e : Env} {loc : Loc} {more : Option (Nat × Loc)}
  (hok : checkSpan e (if desc.isSome then .vstDesc else .st) .store va 64 (if desc.isSome then 64 else 16) = .ok loc more)
include hok

theorem vstoreSem_full (hfull : applyFull e loc = true) : vstoreSem ord d k va desc e = .again e.s .apply := by
  simp only [vstoreSem, hok, withSpan, hfull, if_true]

variable (hroom : applyFull e loc = false)
include hroom

theorem vstoreSem_whole (hal : va.toNat % 64 = 0) : vstoreSem ord d k va desc e
    = post e (reqFor e (.vstore (e.v d) (e.m k) desc) va loc 64 (ordRel ord) none) (maskBytes (e.v d) (e.m k)) := by
  simp only [vstoreSem, hok, withSpan, hroom, Bool.false_eq_true, if_false, hal, ne_eq, not_true_eq_false]

theorem vstoreSem_pieces (hal : va.toNat % 64 ≠ 0) : vstoreSem ord d k va desc e
    = storePieces e (e.v d) (e.m k) va loc more (ordRel ord) := by
  simp only [vstoreSem, hok, withSpan, hroom, Bool.false_eq_true, if_false, if_pos hal]

end

theorem firstEnv_v (r : VReg) : (firstEnv s c t w i).v r = vecIn s c t i r := envX_v ..
theorem firstEnv_m (k : MReg) : (firstEnv s c t w i).m k = readM t k := rfl

/-- A vector store aligned to its block. -/
theorem vstore_posts {ord : Ord} {d : VReg} {k : MReg} {va : Word} {desc : Option (BitVec 16)}
    (hexec : exec i s = runX i sem s) (hsem : sem (firstEnv s c t w i) = vstoreSem ord d k va desc (firstEnv s c t w i)) :
    let a := if desc.isSome then .vstDesc else .st
    let al := if desc.isSome then 64 else 16
    WaitsForRoom s c t w i a va 64 al ∧
    (va.toNat % 64 = 0 → Posts s c t w i a va 64 al (.vstore (vecIn s c t i d) (readM t k) desc) (ordRel ord)
      (maskBytes (vecIn s c t i d) (readM t k)) (fun l pa => applyFull (firstEnv s c t w i) (.mem l pa) = false)) := by
  refine ⟨waitsForRoom_of hexec fun loc more hok hfull => hsem.trans (vstoreSem_full hok hfull),
    fun hal => posts_of hexec fun l pa hok hroom => ?_⟩
  rw [hsem, vstoreSem_whole hok hroom hal, firstEnv_v, firstEnv_m]

/-- VST.desc, whose checks ask for the alignment of a block (R336). -/
theorem vstDesc_posts (ord : Ord) (d : VReg) (k : MReg) (m : M3) :
    WaitsForRoom s c t w (.vstDesc ord d k m) .vstDesc (ea3 s t m) 64 64 ∧
    Posts s c t w (.vstDesc ord d k m) .vstDesc (ea3 s t m) 64 64
      (.vstore (vecIn s c t (.vstDesc ord d k m) d) (readM t k) (some ((readG s t m.c).setWidth 16))) (ordRel ord)
      (maskBytes (vecIn s c t (.vstDesc ord d k m) d) (readM t k))
      (fun l pa => applyFull (firstEnv s c t w (.vstDesc ord d k m)) (.mem l pa) = false) := by
  have hc : (firstEnv s c t w (.vstDesc ord d k m)).g m.c = readG s t m.c := envX_g ..
  obtain ⟨hwait, hposts⟩ := vstore_posts (s := s) (c := c) (t := t) (w := w) (i := .vstDesc ord d k m)
    (sem := vstDescSem ord d k m) (ord := ord) (d := d) (k := k) (va := ea3 s t m) (desc := some ((readG s t m.c).setWidth 16)) rfl
    (by rw [vstDescSem, firstEnv_addr3, hc])
  exact ⟨hwait, fun h l pa hok => hposts (aligned_of_checkSpan hok) h l pa hok⟩

end

/-! ## The four pieces of a store at a lesser alignment (R191) -/

/-- What every store, and every wait for one, leaves alone: bytes, descriptors, bits, tags, registers and owners. -/
def bytesOf (s : State) : (Memory × Memory × Memory) × (SMap Nat × SMap Bool × SMap Bool × SMap Nat) × (SMap Word × SMap Vec)
    × SMap Owner × SMap Launch :=
  ((s.mem, s.spad, s.bsram), (s.desc, s.fe, s.spadFE, s.tags), (s.gfile, s.vfile), s.owners, s.launches)

theorem keepsBytes_of {s u : State} (h : bytesOf u = bytesOf s) : KeepsBytes s u := by
  simpa only [bytesOf, Prod.mk.injEq, KeepsBytes, and_assoc] using h

section
variable (e : Env) (v : Vec) (m : BitVec 64) (va : Word) (l : Loc) (more : Option (Nat × Loc)) (rel : Option Scope)

/-- The request of piece i of a wide store. -/
def storePiece (i : Nat) : Req := pieceReq e (.vstore (v >>> (128 * i)) (m >>> (16 * i)) none) va l more rel none i

/-- The state with piece i asked for. -/
def askPiece (s : State) (i : Nat) : State :=
  let r := storePiece e v m va l more rel i
  addReq (if r.tgt.isScratch then s
    else postDue (storeIssue s r.o r.core r.pa ((maskBytes (v >>> (128 * i)) (m >>> (16 * i))).take 16)) r.o r.tid r.tgt) r

theorem storePieces_mem {lf : Leaf} {pa : Nat} : storePieces e v m va (.mem lf pa) more rel
    = let u := (List.range 4).foldl (askPiece e v m va (.mem lf pa) more rel) e.s
      .ok (if rel.isSome then onThr u e.t.o e.t.tid (fun t => { t with fenceAt := u.nextId }) else u) Wr.none := rfl

theorem postDue_eq (s : State) (o tid : Nat) (t : Target) : ∃ ts, postDue s o tid t = { s with threads := ts } := by
  unfold postDue
  split
  · exact ⟨_, rfl⟩
  · exact ⟨s.threads, rfl⟩

/-- Asking for a piece adds its request, after those on their way, whose fills of its sectors install nothing. -/
theorem askPiece_eq (s : State) (i : Nat) : bytesOf (askPiece e v m va l more rel s i) = bytesOf s ∧
    (askPiece e v m va l more rel s i).nextId = e.s.nextId + i + 1 ∧
    storePiece e v m va l more rel i ∈ (askPiece e v m va l more rel s i).reqs ∧
    ∀ q ∈ s.reqs, ∃ nf, { q with noFill := nf } ∈ (askPiece e v m va l more rel s i).reqs := by
  unfold askPiece
  dsimp only
  generalize hr : storePiece e v m va l more rel i = r
  have hid : r.id = e.s.nextId + i := by rw [← hr]; rfl
  have hlast (l : List Req) : r ∈ l ++ [r] := List.mem_append_right l (List.mem_singleton.2 rfl)
  cases hnet : r.tgt.isScratch with
  | true => exact ⟨rfl, congrArg (· + 1) hid, hlast _, fun q hq => ⟨q.noFill, List.mem_append_left _ hq⟩⟩
  | false =>
    obtain ⟨ts, h⟩ := postDue_eq
      (storeIssue s r.o r.core r.pa ((maskBytes (v >>> (128 * i)) (m >>> (16 * i))).take 16)) r.o r.tid r.tgt
    simp only [Bool.false_eq_true, if_false, h]
    refine ⟨rfl, congrArg (· + 1) hid, hlast _, fun q hq => ?_⟩
    by_cases hmine : q.o = r.o ∧ q.core = r.core
    · exact ⟨_, List.mem_append_left _ (List.mem_map.2 ⟨q, hq, if_pos hmine⟩)⟩
    · exact ⟨q.noFill, List.mem_append_left _ (List.mem_map.2 ⟨q, hq, if_neg hmine⟩)⟩

/-- The first n pieces are on their way, each as it was asked for but for the fills that later ones stop. -/
theorem askPieces_ask (n : Nat) : let u := (List.range n).foldl (askPiece e v m va l more rel) e.s
    bytesOf u = bytesOf e.s ∧ u.nextId = e.s.nextId + n ∧
    ∀ j < n, ∃ nf, { storePiece e v m va l more rel j with noFill := nf } ∈ u.reqs := by
  induction n with
  | zero => exact ⟨rfl, rfl, fun j hj => absurd hj (Nat.not_lt_zero j)⟩
  | succ n ih =>
    rw [List.range_succ, List.foldl_append]
    obtain ⟨hbytes, -, hreqs⟩ := ih
    obtain ⟨hb, hid, hlast, hearlier⟩ := askPiece_eq e v m va l more rel
      ((List.range n).foldl (askPiece e v m va l more rel) e.s) n
    refine ⟨hb.trans hbytes, hid, fun j hj => ?_⟩
    rcases Nat.lt_succ_iff_lt_or_eq.1 hj with hlt | rfl
    · obtain ⟨nf, hq⟩ := hreqs j hlt
      exact hearlier { storePiece e v m va l more rel j with noFill := nf } hq
    · exact ⟨_, hlast⟩

end

section
variable {s : State} {c : Cur} {t : Thread} {w : Owner}

theorem bytesOf_firstEnv (i : Instr) : bytesOf (firstEnv s c t w i).s = bytesOf s := by
  show bytesOf (takeDraws (bare s) t _) = _
  rcases takeDraws_eq (bare s) t (halfOf (envIn (bare s) c t w i)).draws with h | h <;> rw [h] <;> rfl

/-- VST at a lesser alignment, to memory: four stores, and the bundle goes on. -/
theorem vst_pieces {ord : Ord} {o : VMem} (h : Issues s c t w (.vst ord o) 0) {l : Leaf} {pa : Nat} {more : Option (Nat × Loc)}
    (hal : (ea s t o.ad).toNat % 64 ≠ 0)
    (hok : checkSpan (firstEnv s c t w (.vst ord o)) .st .store (ea s t o.ad) 64 16 = .ok (.mem l pa) more)
    (hroom : applyFull (firstEnv s c t w (.vst ord o)) (.mem l pa) = false) :
    ∃ u, exec (.vst ord o) s = .next (retiresTo s c t w (.vst ord o) u Wr.none) ∧ KeepsBytes s u ∧ u.nextId = s.nextId + 4 ∧
      ∀ j < 4, ∃ nf, { storePiece (firstEnv s c t w (.vst ord o)) (vecIn s c t (.vst ord o) o.d) (readM t o.k) (ea s t o.ad)
        (.mem l pa) more (ordRel ord) j with noFill := nf } ∈ u.reqs := by
  have hva := firstEnv_addr s c t w (.vst ord o) o.ad
  have hsem : vstSem ord o (firstEnv s c t w (.vst ord o)) = storePieces (firstEnv s c t w (.vst ord o))
      (vecIn s c t (.vst ord o) o.d) (readM t o.k) (ea s t o.ad) (.mem l pa) more (ordRel ord) := by
    rw [vstSem, hva, vstoreSem_pieces (desc := none) hok hroom hal, firstEnv_v, firstEnv_m]
  rw [storePieces_mem] at hsem
  obtain ⟨hbytes, hid, hreqs⟩ := askPieces_ask (firstEnv s c t w (.vst ord o)) (vecIn s c t (.vst ord o) o.d) (readM t o.k)
    (ea s t o.ad) (.mem l pa) more (ordRel ord) 4
  refine ⟨_, runX_ok h hsem, keepsBytes_of ?_, ?_, fun j hj => ?_⟩
  · refine Eq.trans ?_ (hbytes.trans (bytesOf_firstEnv _))
    split <;> rfl
  · rw [← firstEnv_nextId s c t w (.vst ord o), ← hid]
    split <;> rfl
  · obtain ⟨nf, hq⟩ := hreqs j hj
    refine ⟨nf, ?_⟩
    split <;> exact hq

/-! ## PRF (R332, R337) -/

section
variable {ad : Addr} (h : Issues s c t w (.prf ad) 0)
include h

theorem exec_prf_nowhere (hva : (ea s t ad).extractLsb' 57 7 ≠ 0 ∨ isSpadVa (ea s t ad).toNat = true) :
    exec (.prf ad) s = .next (doneWith s c t w (.prf ad) Wr.none) := by
  have hsem : prfSem ad (firstEnv s c t w (.prf ad)) = .ok (firstEnv s c t w (.prf ad)).s Wr.none := by
    have hout : ((ea s t ad).extractLsb' 57 7 != 0 || isSpadVa (ea s t ad).toNat) = true := by
      simpa only [Bool.or_eq_true, bne_iff_ne] using hva
    simp only [prfSem, firstEnv_addr, hout, if_true]
  exact runX_done h hsem

variable (hrange : (ea s t ad).extractLsb' 57 7 = 0) (hspad : isSpadVa (ea s t ad).toNat = false)
include hrange hspad

theorem exec_prf_leaf {l : Leaf} (hpage : lookupPage s t ((ea s t ad).toNat / 65536) = some (.leaf l)) :
    let pa := l.pa + (ea s t ad).toNat % 65536
    exec (.prf ad) s = .next (if l.cls = 3 ∨ l.cls = 4 ∨ isEHost w pa = true then doneWith s c t w (.prf ad) Wr.none
      else retiresTo s c t w (.prf ad) (addReq (firstEnv s c t w (.prf ad)).s
        (reqFor (firstEnv s c t w (.prf ad)) .prf (ea s t ad) (.mem l pa) 1 none none)) Wr.none) := by
  intro pa
  have hin : ((ea s t ad).extractLsb' 57 7 != 0 || isSpadVa (ea s t ad).toNat) = false := by simp [hrange, hspad]
  have hsem : prfSem ad (firstEnv s c t w (.prf ad))
      = if l.cls = 3 ∨ l.cls = 4 ∨ isEHost w pa = true then .ok (firstEnv s c t w (.prf ad)).s Wr.none
        else .ok (addReq (firstEnv s c t w (.prf ad)).s
          (reqFor (firstEnv s c t w (.prf ad)) .prf (ea s t ad) (.mem l pa) 1 none none)) Wr.none := by
    simp only [prfSem, firstEnv_addr, firstEnv_lookupPage, hin, hpage, Bool.false_eq_true, if_false]
    rfl
  by_cases hnone : l.cls = 3 ∨ l.cls = 4 ∨ isEHost w pa = true
  · rw [if_pos hnone] at hsem ⊢
    exact runX_done h hsem
  · rw [if_neg hnone] at hsem ⊢
    exact runX_ok h hsem

theorem exec_prf_fault {out : WalkOut} (hpage : lookupPage s t ((ea s t ad).toNat / 65536) = some out) (hout : ∀ l, out ≠ .leaf l) :
    exec (.prf ad) s = .next (doneWith s c t w (.prf ad) Wr.none) := by
  have hin : ((ea s t ad).extractLsb' 57 7 != 0 || isSpadVa (ea s t ad).toNat) = false := by simp [hrange, hspad]
  have hsem : prfSem ad (firstEnv s c t w (.prf ad)) = .ok (firstEnv s c t w (.prf ad)).s Wr.none := by
    simp only [prfSem, firstEnv_addr, firstEnv_lookupPage, hin, hpage, Bool.false_eq_true, if_false]
    cases out with
    | leaf l => exact absurd rfl (hout l)
    | _ => rfl
  exact runX_done h hsem

end

/-! ## Fences (R197, R346) -/

theorem exec_fence (k : FenceKind) (sc : Scope) (h : Issues s c t w (.fence k sc) 0) :
    let i := Instr.fence k sc
    let e := firstEnv s c t w i
    (k = .acq → exec i s = .next (doneWith s c t w i { Wr.none with acq := some sc }))
    ∧ (k = .full → releaseNow e.s t sc = true → exec i s = .next (doneWith s c t w i { Wr.none with acq := some sc }))
    ∧ (k = .rel → exec i s = .next (retiresTo s c t w i
        { onThr e.s t.o t.tid (fun x => noteFence x (wideScope t sc) s.nextId) with nextId := s.nextId + 1 } Wr.none))
    ∧ (k = .full → releaseNow e.s t sc = false → exec i s = .next (putWait e.s c .release none)) := by
  intro i e
  have hexec : exec i s = runX i (fenceSem k sc) s := rfl
  rw [hexec]
  refine ⟨?_, ?_, ?_, ?_⟩
  · rintro rfl
    exact runX_done h rfl
  · rintro rfl hmet
    exact runX_done h (if_pos hmet)
  · rintro rfl
    rw [← firstEnv_nextId s c t w i]
    exact runX_ok h rfl
  · rintro rfl hunmet
    exact runX_again h (if_neg (Bool.eq_false_iff.1 hunmet))

end

end Sys2Proof.Machine
end

section
namespace Sys2Proof
open Sys2Proof.Machine

/-- Settles O35: the stores by their check and their buffer, a store in pieces by its four requests; PRF by where its address
lies; FLUSHL1 and the fences by their meanings. -/
theorem postedToMemory : Obligations.PostedToMemory := by
  unfold Obligations.PostedToMemory
  intro s c t w posts waits
  refine ⟨fun ord o => st_posts ord o, fun ord o => ?_, fun ord d k m => vstDesc_posts ord d k m, fun o => stf_posts o,
    fun ad h => ⟨exec_prf_nowhere h, fun hrange hspad l => exec_prf_leaf h hrange hspad,
      fun hrange hspad out => exec_prf_fault h hrange hspad⟩,
    fun h => runX_ok h rfl, fun k sc h => exec_fence k sc h⟩
  obtain ⟨hwait, hposts⟩ := vstore_posts (s := s) (c := c) (t := t) (w := w) (i := .vst ord o) (sem := vstSem ord o)
    (ord := ord) (d := o.d) (k := o.k) (va := ea s t o.ad) (desc := none) rfl (by rw [vstSem, firstEnv_addr])
  refine ⟨hwait, hposts, fun h l pa more hal hok hroom => ?_⟩
  obtain ⟨u, hexec, hkeeps, hnext, hreqs⟩ := vst_pieces h hal hok hroom
  refine ⟨u, hexec, hkeeps, hnext, fun j hj => ?_⟩
  obtain ⟨nf, hq⟩ := hreqs j hj
  have hnextId := firstEnv_nextId s c t w (.vst ord o)
  exact ⟨_, hq, congrArg (· + j) hnextId, rfl, rfl, rfl, rfl, congrArg (fun n => some (n, j)) hnextId, rfl⟩

end Sys2Proof
end

section
/-!
SUPPORT. Accesses at a core's own scratchpad (R157, R167, R330): their check, their answer within the bundle, and what a store
there leaves (R191, R334, R335, R339, R340).
-/

namespace Sys2Proof.Machine

/-! ## What a first half reads at issue -/

section
variable (s : State) (c : Cur) (t : Thread) (w : Owner) (i : Instr)

/-- What does not depend on the cores is read as it was before the bundle. -/
theorem firstEnv_reads {α : Type} (f : State → α) (hf : ∀ cs, f { bare s with cores := cs } = f s) :
    f (firstEnv s c t w i).s = f s := by
  obtain ⟨cs, h⟩ := firstEnv_cores s c t w i
  rw [h, hf]

theorem firstEnv_spad : (firstEnv s c t w i).s.spad = s.spad := firstEnv_reads s c t w i (·.spad) fun _ => rfl
theorem firstEnv_spadFE : (firstEnv s c t w i).s.spadFE = s.spadFE := firstEnv_reads s c t w i (·.spadFE) fun _ => rfl
theorem firstEnv_spadPz : (firstEnv s c t w i).s.spadPz = s.spadPz := firstEnv_reads s c t w i (·.spadPz) fun _ => rfl
theorem firstEnv_reqs : (firstEnv s c t w i).s.reqs = s.reqs := firstEnv_reads s c t w i (·.reqs) fun _ => rfl
theorem firstEnv_g (r : GReg) : (firstEnv s c t w i).g r = readG s t r := envX_g ..

end

/-! ## The check of a scratchpad access (R157, R330) -/

/-- What passes its checks has been located. -/
theorem locate_of_check {s : State} {w : Owner} {t : Thread} {a : Act332} {k : AccKind} {va : Word} {n al : Nat} {l : Loc}
    (h : check s w t a k va n al = .ok l) : locate s w t a k k.writes va n = .ok l := by
  unfold check at h
  split at h
  · cases h
  · split at h
    next hloc =>
      split at h
      · cases h
      · rwa [h] at hloc
    next => exact h

/-- Only an address of the scratchpad range locates in a scratchpad. -/
theorem isSpadVa_of_locate {s : State} {w : Owner} {t : Thread} {a : Act332} {k : AccKind} {wr : Bool} {va : Word} {n j off : Nat}
    (h : locate s w t a k wr va n = .ok (.spad j off)) : isSpadVa va.toNat = true := by
  by_contra hout
  unfold locate at h
  rw [if_neg hout] at h
  split at h
  · cases h
  · split at h
    · cases h
    · exact ofWalk_ne_spad _ _ _ _ _ _ _ _ h

/-- An access of the scratchpad has no second page. -/
theorem checkSpan_spad {e : Env} {a : Act332} {k : AccKind} {va : Word} {n al j off : Nat}
    (h : check e.s e.w e.t a k va n al = .ok (.spad j off)) : checkSpan e a k va n al = .ok (.spad j off) none := by
  have hspad := isSpadVa_of_locate (locate_of_check h)
  simp only [checkSpan, hspad, Bool.or_true, Bool.true_or, if_true, h, Span.of]

/-! ## An access that its core answers at once (R167) -/

theorem noteEarly_nextId (s0 s : State) (r : Req) (n : Nat) :
    { noteEarly s0 s r with nextId := n } = noteEarly s0 { s with nextId := n } r := by
  unfold noteEarly
  split
  · split <;> rfl
  · rfl

/-- A release at .sys is never performed before what it orders (R197). -/
theorem noteEarly_sys {s u : State} {r : Req} (hturn : mayServe s r = true) (hrel : r.rel = some .sys) : noteEarly s u r = u := by
  have hok : releaseOk s r.o r.tid r.iss.born .sys r.base = true := by
    simp only [mayServe, Bool.and_eq_true] at hturn
    obtain ⟨⟨⟨-, hleft⟩, -⟩, -⟩ := hturn
    simp only [hasLeft, hrel, mayBeEarly, scopeRank, Bool.and_eq_true] at hleft
    obtain ⟨-, hmet⟩ := hleft
    simpa using hmet
  simp only [noteEarly, hrel, hok, if_true]

section
variable {e : Env} {a : Act332} {k : AccKind} {va : Word} {n al off : Nat} {kind : ReqKind} {rel acq : Option Scope}
  (h : OwnSpad e a k va n al off kind rel acq)
include h

theorem layoutBad_own : layoutBad e.s (ownReq e kind va off n rel acq) = false := check_own_layout h.chk

/-- What is answered without a trap, and without bytes for a second place, goes on with the reply in its bundle. -/
theorem ask_own {u : State} {p : Reply} (hserve : serve0 e.s (ownReq e kind va off n rel acq) = .done u p)
    (hid : p.id = e.s.nextId) (htrap : p.trap = none) (hw : p.writes = []) :
    let u' := noteEarly e.s { u with nextId := e.s.nextId + 1 } (ownReq e kind va off n rel acq)
    ask e (ownReq e kind va off n rel acq) = .ok u' (p.wr u' e.t) := by
  have hlocal : isLocal e (ownReq e kind va off n rel acq) = true := beq_self_eq_true _
  have hanswer : ∃ ps, serve e.s (ownReq e kind va off n rel acq)
      = .done (noteEarly e.s u (ownReq e kind va off n rel acq)) { p with patch := ps } := by
    have hnone : p.trap.isNone = true := by rw [htrap]; rfl
    simp only [serve, hserve, hnone, if_true]
    split
    · exact ⟨_, rfl⟩
    · exact ⟨p.patch, rfl⟩
  obtain ⟨ps, hps⟩ := hanswer
  rw [← noteEarly_nextId]
  simp only [ask, hlocal, h.ord, Bool.and_true, if_true, hps, complete, Reply.info, htrap, Option.map_none, hw, List.foldl_nil, hid]
  rfl

/-- The same of a reply that brings general registers alone. -/
theorem ask_own_g {u : State} {g : List (GReg × Word)} (hserve : serve0 e.s (ownReq e kind va off n rel acq)
      = .done u { (ownReq e kind va off n rel acq).reply with g := g }) :
    ask e (ownReq e kind va off n rel acq)
      = .ok (noteEarly e.s { u with nextId := e.s.nextId + 1 } (ownReq e kind va off n rel acq)) { Wr.none with g := g } :=
  ask_own h hserve rfl rfl rfl

end

/-! ## Bytes stored in the own scratchpad (R335, R411) -/

section
variable (s : State) (e : Env) (kind : ReqKind) (va : Word) (off n : Nat) (rel acq : Option Scope) (bs : List (Byte × Bool))

/-- A write that replaces no block whole stores its bytes. -/
theorem reqWrite_own_part (hpart : (ownReq e kind va off n rel acq).replaces bs = false) : ∃ m,
    reqWrite s (ownReq e kind va off n rel acq) bs = { s with spad := m } ∧ Stored s.spad m (spadKey e.t.o e.t.core off) bs := by
  unfold reqWrite
  split
  next hoff => exact ⟨s.spad, rfl, stored_of_all_off hoff⟩
  next =>
    rw [hpart]
    exact ⟨_, rfl, stored_writeMasked s.spad _ bs⟩

/-- A write of a whole block stores its bytes and clears its mark. -/
theorem reqWrite_own_block (hwhole : (ownReq e kind va off n rel acq).replaces bs = true) (hlen : bs.length = 64) : ∃ m,
    reqWrite s (ownReq e kind va off n rel acq) bs
      = { s with spad := m, spadPz := setD false s.spadPz (spadBlk e.t.o e.t.core off) false }
    ∧ Stored s.spad m (spadKey e.t.o e.t.core off) bs := by
  have hon : ∀ b ∈ bs, b.2 = true := by
    simp only [Req.replaces, Bool.and_eq_true, List.all_eq_true] at hwhole
    obtain ⟨⟨-, hall⟩, -⟩ := hwhole
    exact hall
  have hsome : ¬ bs.all (fun b => !b.2) = true := by
    obtain ⟨b, hb⟩ := List.exists_mem_of_length_pos (l := bs) (by omega)
    simpa using ⟨b.1, (Prod.ext rfl (hon b hb).symm : (b.1, true) = b) ▸ hb⟩
  have hone : (bs.map (·.1)).length / 64 = 1 := by rw [List.length_map, hlen]
  have hstored := stored_writeN s.spad (spadKey e.t.o e.t.core off) (bs.map (·.1))
  rw [allOn_fst hon] at hstored
  refine ⟨_, ?_, hstored⟩
  unfold reqWrite
  rw [if_neg hsome, hwhole, if_pos rfl, writeBlocks, hone]
  rfl

end

/-! ## The kinds of a store at their target -/

section
variable {s : State} {r : Req}

theorem serve0_store {data : List Byte} (hk : r.kind = .store data) :
    serve0 s r = serveWrite s r (fun s => .done (storeAt s r (allOn data)) r.reply) := by
  simp only [serve0, hk]

theorem serve0_vstore {v : Vec} {m : BitVec 64} (hk : r.kind = .vstore v m none) :
    serve0 s r = serveWrite s r (fun s => .done (storeAt s r ((maskBytes v m).take r.n)) r.reply) := by
  simp only [serve0, hk]

theorem serve0_stf {data : List Byte} (hk : r.kind = .stf data) :
    serve0 s r = serveWrite s r (fun s => .done (setFull (reqWrite s r (allOn data)) (spotOf r) true) r.reply) := by
  simp only [serve0, hk]

theorem serve0_fec {full : Bool} {d : GReg} (hk : r.kind = .fec full d) :
    serve0 s r = serveWrite s r (fun s => .done (reqTouch (setFull s (spotOf r) full) r true)
      { r.reply with g := [(d, if fullAt s (spotOf r) then 1 else 0)] }) := by
  simp only [serve0, hk]

theorem serveWrite_own {e : Env} {a : Act332} {k : AccKind} {va : Word} {n al off : Nat} {kind : ReqKind} {rel acq : Option Scope}
    (h : OwnSpad e a k va n al off kind rel acq) (f : State → Served) :
    serveWrite e.s (ownReq e kind va off n rel acq) f = f e.s :=
  if_neg (Bool.eq_false_iff.1 (layoutBad_own h))

end

/-! ## What the store operations ask (R334, R335, R339, R340) -/

section
variable {e : Env} {a : Act332} {k : AccKind} {va : Word} {n al off : Nat} {rel : Option Scope}

/-- A scalar store. -/
theorem ask_store_own {data : List Byte} (h8 : n ≤ 8) (h : OwnSpad e a k va n al off (.store data) rel none) :
    ∃ m, Stored e.s.spad m (spadKey e.t.o e.t.core off) (allOn data) ∧
      ask e (ownReq e (.store data) va off n rel none)
        = .ok (noteEarly e.s { oneMore e.s with spad := m } (ownReq e (.store data) va off n rel none)) Wr.none := by
  obtain ⟨m, hwrite, hstored⟩ := reqWrite_own_part e.s e (.store data) va off n rel none (allOn data) (replaces_of_short h8)
  have hserve : serve0 e.s (ownReq e (.store data) va off n rel none)
      = .done { e.s with spad := m } (ownReq e (.store data) va off n rel none).reply := by
    rw [serve0_store rfl, serveWrite_own h, ← hwrite]
    rfl
  exact ⟨m, hstored, ask_own_g (g := []) h hserve⟩

/-- STF leaves its granule full; it is a release at .sys, which waits for all that it orders. -/
theorem ask_stf_own {data : List Byte} (h8 : n ≤ 8) (h : OwnSpad e a k va n al off (.stf data) (some .sys) none) :
    ∃ m, Stored e.s.spad m (spadKey e.t.o e.t.core off) (allOn data) ∧
      ask e (ownReq e (.stf data) va off n (some .sys) none) = .ok { oneMore e.s with
        spad := m, spadFE := setD false e.s.spadFE (granKey e.t.o e.t.core off) true } Wr.none := by
  obtain ⟨m, hwrite, hstored⟩ :=
    reqWrite_own_part e.s e (.stf data) va off n (some .sys) none (allOn data) (replaces_of_short h8)
  have hserve : serve0 e.s (ownReq e (.stf data) va off n (some .sys) none)
      = .done { e.s with spad := m, spadFE := setD false e.s.spadFE (granKey e.t.o e.t.core off) true }
        (ownReq e (.stf data) va off n (some .sys) none).reply := by
    rw [serve0_stf rfl, serveWrite_own h, hwrite]
    rfl
  have hsys : (ownReq e (.stf data) va off n (some .sys) none).rel = some .sys := by
    simp [ownReq, reqFor, wideScope, scopeRank]
  refine ⟨m, hstored, (ask_own_g (g := []) h hserve).trans ?_⟩
  rw [noteEarly_sys h.ord hsys]
  rfl

/-- FEC answers the granule's bit as it was. -/
theorem ask_fec_own {full : Bool} {d : GReg} (h : OwnSpad e a k va n al off (.fec full d) none none) :
    ask e (ownReq e (.fec full d) va off n none none)
      = .ok { oneMore e.s with spadFE := setD false e.s.spadFE (granKey e.t.o e.t.core off) full }
        (Wr.ofG d (if getD false e.s.spadFE (granKey e.t.o e.t.core off) = true then 1 else 0)) := by
  have hserve : serve0 e.s (ownReq e (.fec full d) va off n none none)
      = .done { e.s with spadFE := setD false e.s.spadFE (granKey e.t.o e.t.core off) full }
        { (ownReq e (.fec full d) va off n none none).reply with
          g := [(d, if getD false e.s.spadFE (granKey e.t.o e.t.core off) = true then 1 else 0)] } := by
    rw [serve0_fec rfl, serveWrite_own h]
    rfl
  exact ask_own_g h hserve

theorem maskBytes_length (v : Vec) (m : BitVec 64) : (maskBytes v m).length = 64 := by
  simp [maskBytes, vecBytes_length]

theorem maskBytes_all_on (v : Vec) (m : BitVec 64) : (maskBytes v m).all (·.2) = true ↔ m = BitVec.allOnes 64 := by
  have hlanes : (maskBytes v m).all (·.2) = true ↔ ∀ b < 64, m.getLsbD b = true := by
    simp only [List.all_eq_true, List.forall_mem_iff_forall_getElem, maskBytes_length]
    exact forall₂_congr fun b hb => by simp [maskBytes]
  rw [hlanes]
  constructor
  · intro hon
    refine BitVec.eq_of_getLsbD_eq fun b hb => ?_
    rw [hon b hb, BitVec.getLsbD_allOnes, decide_eq_true hb]
  · rintro rfl b hb
    rw [BitVec.getLsbD_allOnes, decide_eq_true hb]

/-- A vector store of a whole block clears its mark where it writes every byte. -/
theorem ask_vstore_own {v : Vec} {m : BitVec 64} (h : OwnSpad e a k va 64 al off (.vstore v m none) rel none) :
    ∃ sp, Stored e.s.spad sp (spadKey e.t.o e.t.core off) (maskBytes v m) ∧
      ask e (ownReq e (.vstore v m none) va off 64 rel none) = .ok (noteEarly e.s { oneMore e.s with
          spad := sp,
          spadPz := if off % 64 = 0 ∧ m = BitVec.allOnes 64 then setD false e.s.spadPz (spadBlk e.t.o e.t.core off) false
            else e.s.spadPz }
        (ownReq e (.vstore v m none) va off 64 rel none)) Wr.none := by
  have hreplaces : (ownReq e (.vstore v m none) va off 64 rel none).replaces (maskBytes v m) = true
      ↔ off % 64 = 0 ∧ m = BitVec.allOnes 64 := by
    rw [← maskBytes_all_on v m]
    simp [Req.replaces, ownReq, reqFor]
  have hserve (u : State) (hwrite : reqWrite e.s (ownReq e (.vstore v m none) va off 64 rel none) (maskBytes v m) = u) :
      serve0 e.s (ownReq e (.vstore v m none) va off 64 rel none)
        = .done u (ownReq e (.vstore v m none) va off 64 rel none).reply := by
    have htake : (maskBytes v m).take (ownReq e (.vstore v m none) va off 64 rel none).n = maskBytes v m :=
      List.take_of_length_le (maskBytes_length v m).le
    rw [serve0_vstore rfl, serveWrite_own h, ← hwrite, htake]
    rfl
  by_cases hwhole : off % 64 = 0 ∧ m = BitVec.allOnes 64
  · obtain ⟨sp, hwrite, hstored⟩ := reqWrite_own_block e.s e (.vstore v m none) va off 64 rel none (maskBytes v m)
      (hreplaces.2 hwhole) (maskBytes_length v m)
    rw [if_pos hwhole]
    exact ⟨sp, hstored, ask_own_g (g := []) h (hserve _ hwrite)⟩
  · obtain ⟨sp, hwrite, hstored⟩ := reqWrite_own_part e.s e (.vstore v m none) va off 64 rel none (maskBytes v m)
      (Bool.eq_false_iff.2 (mt hreplaces.1 hwhole))
    rw [if_neg hwhole]
    exact ⟨sp, hstored, ask_own_g (g := []) h (hserve _ hwrite)⟩

end

/-! ## A wide store's four pieces at a scratchpad (R191) -/

section
variable (e : Env) (v : Vec) (m : BitVec 64) (va : Word) (rel : Option Scope) (j off : Nat)

/-- The first n pieces are asked for, one after the other. -/
theorem askPieces_spad (n : Nat) : (List.range n).foldl (askPiece e v m va (.spad j off) none rel) e.s
    = { e.s with
        nextId := e.s.nextId + n
        reqs := e.s.reqs ++ (List.range n).map (storePiece e v m va (.spad j off) none rel) } := by
  induction n with
  | zero => simp
  | succ n ih =>
    rw [List.range_succ, List.foldl_append, ih, List.map_append, ← List.append_assoc]
    rfl

theorem storePieces_spad : storePieces e v m va (.spad j off) none rel
    = .wait (onThr { e.s with
        nextId := e.s.nextId + 4
        reqs := e.s.reqs ++ (List.range 4).map (storePiece e v m va (.spad j off) none rel) }
        e.t.o e.t.tid (fun t => { t with got := [] })) (.reply e.s.nextId) := by
  rw [← askPieces_spad]
  rfl

end

/-! ## The instructions -/

theorem bytesOfType_le (ty : IType) : bytesOfType ty ≤ 8 := by cases ty <;> decide

section
variable {e : Env} {off : Nat}

theorem stSem_own {ord : Ord} {o : MemOp} (hok : checkSpan e .st .store (ea e.s e.t o.ad) (bytesOfType o.ty) (bytesOfType o.ty)
      = .ok (.spad e.t.core off) none) :
    stSem ord o e = ask e (ownReq e (.store (listOfWord (e.g o.d) (bytesOfType o.ty))) (ea e.s e.t o.ad) off (bytesOfType o.ty)
      (ordRel ord) none) := by
  simp only [stSem, hok, withSpan]
  rfl

theorem stfSem_own {o : MemOp} (hok : checkSpan e .fe .store (ea e.s e.t o.ad) (bytesOfType o.ty) (bytesOfType o.ty)
      = .ok (.spad e.t.core off) none) :
    stfSem o e = ask e (ownReq e (.stf (listOfWord (e.g o.d) (bytesOfType o.ty))) (ea e.s e.t o.ad) off (bytesOfType o.ty)
      (some .sys) none) := by
  simp only [stfSem, hok, withSpan]
  rfl

theorem fecSem_own {full : Bool} {d : GReg} {ad : Addr}
    (hok : checkSpan e .fe .atomic (ea e.s e.t ad) 1 1 = .ok (.spad e.t.core off) none) :
    fecSem full d ad e = ask e (ownReq e (.fec full d) (ea e.s e.t ad) off 1 none none) := by
  simp only [fecSem, hok, withSpan]
  rfl

end

section
variable {s : State} {c : Cur} {t : Thread} {w : Owner} {off : Nat}

theorem exec_st_own {ord : Ord} {o : MemOp} (hissue : Issues s c t w (.st ord o) 0) :
    let e := firstEnv s c t w (.st ord o)
    let n := bytesOfType o.ty
    let data := listOfWord (readG s t o.d) n
    OwnSpad e .st .store (ea s t o.ad) n n off (.store data) (ordRel ord) none →
    ∃ m', Stored s.spad m' (spadKey t.o t.core off) (allOn data) ∧
      exec (.st ord o) s = .next (retiresTo s c t w (.st ord o) (noteEarly e.s { oneMore e.s with spad := m' }
        (ownReq e (.store data) (ea s t o.ad) off n (ordRel ord) none)) Wr.none) := by
  intro e n data h
  obtain ⟨m', hstored, hask⟩ := ask_store_own (bytesOfType_le o.ty) h
  have hsem := stSem_own (e := e) (ord := ord) (o := o) (by rw [firstEnv_addr]; exact checkSpan_spad h.chk)
  rw [firstEnv_addr, firstEnv_g] at hsem
  rw [firstEnv_spad] at hstored
  exact ⟨m', hstored, runX_ok (sem := stSem ord o) hissue (hsem.trans hask)⟩

/-- A vector store aligned to its block. -/
theorem exec_vst_own {ord : Ord} {o : VMem} (hissue : Issues s c t w (.vst ord o) 0) (hal : (ea s t o.ad).toNat % 64 = 0) :
    let e := firstEnv s c t w (.vst ord o)
    let v := vecIn s c t (.vst ord o) o.d
    let m := readM t o.k
    OwnSpad e .st .store (ea s t o.ad) 64 16 off (.vstore v m none) (ordRel ord) none →
    ∃ m' pz, Stored s.spad m' (spadKey t.o t.core off) (maskBytes v m) ∧
      pz = (if off % 64 = 0 ∧ m = BitVec.allOnes 64 then setD false s.spadPz (spadBlk t.o t.core off) false else s.spadPz) ∧
      exec (.vst ord o) s = .next (retiresTo s c t w (.vst ord o) (noteEarly e.s { oneMore e.s with spad := m', spadPz := pz }
        (ownReq e (.vstore v m none) (ea s t o.ad) off 64 (ordRel ord) none)) Wr.none) := by
  intro e v m h
  obtain ⟨m', hstored, hask⟩ := ask_vstore_own h
  have hsem : vstSem ord o e = ask e (ownReq e (.vstore v m none) (ea s t o.ad) off 64 (ordRel ord) none) := by
    rw [vstSem, firstEnv_addr, vstoreSem_whole (desc := none) (checkSpan_spad h.chk) rfl hal, firstEnv_v, firstEnv_m]
    rfl
  rw [firstEnv_spad] at hstored
  rw [firstEnv_spadPz] at hask
  exact ⟨m', _, hstored, rfl, runX_ok (sem := vstSem ord o) hissue (hsem.trans hask)⟩

/-- A vector store to a scratchpad at a lesser alignment: four pieces, whose answers its bundle waits for. -/
theorem exec_vst_pieces {ord : Ord} {o : VMem} (hissue : Issues s c t w (.vst ord o) 0) {j : Nat}
    (hal : (ea s t o.ad).toNat % 64 ≠ 0)
    (hok : checkSpan (firstEnv s c t w (.vst ord o)) .st .store (ea s t o.ad) 64 16 = .ok (.spad j off) none) :
    let e := firstEnv s c t w (.vst ord o)
    exec (.vst ord o) s = .next (putWait (onThr
      { e.s with
        nextId := s.nextId + 4
        reqs := s.reqs ++ (List.range 4).map
          (storePiece e (vecIn s c t (.vst ord o) o.d) (readM t o.k) (ea s t o.ad) (.spad j off) none (ordRel ord)) }
      t.o t.tid (fun x => { x with got := [] })) c (.reply s.nextId) (some (bundleOf (bare s) c t w (.vst ord o)))) := by
  intro e
  refine runX_wait (sem := vstSem ord o) hissue ?_
  show vstSem ord o e = _
  rw [vstSem, firstEnv_addr, vstoreSem_pieces (desc := none) hok rfl hal, firstEnv_v, firstEnv_m, storePieces_spad,
    firstEnv_nextId, firstEnv_reqs]
  rfl

theorem exec_stf_own {o : MemOp} (hissue : Issues s c t w (.stf o) 0) :
    let e := firstEnv s c t w (.stf o)
    let n := bytesOfType o.ty
    let data := listOfWord (readG s t o.d) n
    OwnSpad e .fe .store (ea s t o.ad) n n off (.stf data) (some .sys) none →
    ∃ m', Stored s.spad m' (spadKey t.o t.core off) (allOn data) ∧
      exec (.stf o) s = .next (retiresTo s c t w (.stf o)
        { oneMore e.s with spad := m', spadFE := setD false s.spadFE (granKey t.o t.core off) true } Wr.none) := by
  intro e n data h
  obtain ⟨m', hstored, hask⟩ := ask_stf_own (bytesOfType_le o.ty) h
  have hsem := stfSem_own (e := e) (o := o) (by rw [firstEnv_addr]; exact checkSpan_spad h.chk)
  rw [firstEnv_addr, firstEnv_g] at hsem
  rw [firstEnv_spad] at hstored
  rw [firstEnv_spadFE] at hask
  exact ⟨m', hstored, runX_ok (sem := stfSem o) hissue (hsem.trans hask)⟩

theorem exec_fec_own {full : Bool} {d : GReg} {ad : Addr} (hissue : Issues s c t w (.fec full d ad) 0) :
    let e := firstEnv s c t w (.fec full d ad)
    OwnSpad e .fe .atomic (ea s t ad) 1 1 off (.fec full d) none none →
    exec (.fec full d ad) s = .next (retiresTo s c t w (.fec full d ad)
      { oneMore e.s with spadFE := setD false s.spadFE (granKey t.o t.core off) full }
      (Wr.ofG d (if getD false s.spadFE (granKey t.o t.core off) = true then 1 else 0))) := by
  intro e h
  have hask := ask_fec_own h
  have hsem := fecSem_own (e := e) (full := full) (d := d) (ad := ad) (by rw [firstEnv_addr]; exact checkSpan_spad h.chk)
  rw [firstEnv_addr] at hsem
  rw [firstEnv_spadFE] at hask
  exact runX_ok (sem := fecSem full d ad) hissue (hsem.trans hask)

end

end Sys2Proof.Machine
end

section
namespace Sys2Proof
open Sys2Proof.Machine

/-- Settles O32: each store is answered within its bundle by its own core's scratchpad; the pieces of a VST at a lesser
alignment are requests. -/
theorem storesAtTheCore : Obligations.StoresAtTheCore := by
  unfold Obligations.StoresAtTheCore
  intro s c t w off key
  exact ⟨fun ord o => exec_st_own, fun ord o hissue => ⟨exec_vst_own hissue, fun j => exec_vst_pieces hissue⟩,
    fun o => exec_stf_own, fun full d ad => exec_fec_own⟩

end Sys2Proof
end

section
/-!
SUPPORT. A root record that is a page-table entry (R41, R42, R224): SLSWAP takes the new name for it, and the slice's walk for
the old name's set line, which follows, finds no page.
-/

namespace Sys2Proof.Machine

set_option maxRecDepth 4000

/-- The page-table entry of the sealed region's page (VA 0x20000), which is the live name of the region's set 1 as well. -/
def entryName : Word := 0x6213

/-- The page of the table of level 0, at VA 0x30000. -/
def tableLeaf : Leaf := ⟨0x40000, true, false, false, false, 0, false, 0, 0, 3⟩

/-- Memory with that page mapped, and with the name in entry 0 of set 1 (PA 0x61100): CNT 1, LIVE. -/
def entryNamedMem (m : Memory) : Memory :=
  Memory.writeN (Memory.writeN m 0x40018 (listOfWord 0x4013 8)) 0x61100
    (listOfWord entryName 8 ++ listOfWord 1 4 ++ listOfWord 1 4)

/-- The state: g1 points at the page-table entry, g5 expects its value, and g2 is 0. -/
def sEntryRoot : State :=
  { sSeal 0x30010 0 with
    gfile := [(gKey 0 0 1, 0x30010), (gKey 0 0 5, entryName)]
    mem := entryNamedMem (sSeal 0x30010 0).mem
    cores := put (sSeal 0x30010 0).cores (coreKey 0 0)
      { Core.zeroed with tlb := [(1, bootLeaf), (2, sealLeaf), (3, tableLeaf)] } }

/-- SLSWAP g5, [g1], g2. -/
def swapEntry : Instr := .slswap 5 ead 2

/-- The request that it makes there. -/
def swapEntryReq : Req :=
  reqFor (firstEnv sEntryRoot cuT bootThread sealOwner swapEntry) (.slswap entryName 0 5) 0x30010 (.mem tableLeaf 0x40010) 8
    (some .pkg) (some .pkg)

/-- The state once the request is on its way. -/
def entryAsked : State := asked sEntryRoot cuT bootThread sealOwner swapEntry swapEntryReq

theorem swapEntry_issues : Issues sEntryRoot cuT bootThread sealOwner swapEntry 0 := issues_of (by decide)

theorem swapEntryReq_travels : Travels sEntryRoot cuT bootThread sealOwner swapEntry swapEntryReq := travels_of (by decide)

theorem swapEntry_check : check (firstEnv sEntryRoot cuT bootThread sealOwner swapEntry).s sealOwner bootThread .obj .atomic 0x30010
    8 8 = .ok (.mem tableLeaf 0x40010) := by decide

theorem readEnt_sEntryRoot : readEnt sEntryRoot 0x61100 0 = ⟨entryName.toNat, 1, true, false, false, 0, 0⟩ := by decide

theorem entryRoot_clean : markIn sEntryRoot (.mem 0x40010) 8 = 0 := by decide

theorem nat_entryRoot : Memory.nat sEntryRoot.mem 0x40010 8 = entryName.toNat := by decide

/-- Before the swap the slice finds the name: its set line's walk passes the entry that is also the root. -/
theorem entryName_named : Named sEntryRoot sealOwner entryName.toNat 0x61100 0 :=
  ⟨by decide, ⟨sealLeaf, by decide⟩, by decide, by decide⟩

/-- After the swap of the root that walk ends without a page. -/
theorem readEnt_entrySwapped : readEnt (targetStep entryAsked swapEntryReq.id) 0x61100 0 = readEnt sEntryRoot 0x61100 0 := by
  decide

end Sys2Proof.Machine
end

section
open Sys2Proof Sys2Proof.Machine

/-- Refutes O51: its clause of a swap from one name to another says that the old name's entry counts one less, but where the
root record is the page-table entry through which that name's set line is reached, the slice no longer finds the entry
(R224 logs the failed decrement), and CNT stays 1. -/
theorem not_sealedOperations : ¬ Obligations.SealedOperations := by
  unfold Obligations.SealedOperations
  intro h
  obtain ⟨-, -, -, -, -, hswap, -⟩ := h sEntryRoot cuT bootThread sealOwner 5
  obtain ⟨-, -, hnamed⟩ := hswap ead 2 tableLeaf 0x40010 swapEntry_issues rfl (by decide) swapEntry_check swapEntryReq_travels
  obtain ⟨u2, u3, wx, -, htarget, -, -, -, -, -, hunref, -⟩ :=
    hnamed entryRoot_clean nat_entryRoot (by decide) 0 0 0x61100 0 (fun hnew => absurd rfl hnew)
      (fun _ => ⟨entryName_named, .inl (by decide)⟩) (fun hnew => absurd rfl hnew)
  obtain rfl : targetStep entryAsked swapEntryReq.id = u2 := Host.Outcome.next.inj htarget
  have hcount := hunref (by decide)
  rw [readEnt_entrySwapped, readEnt_sEntryRoot] at hcount
  exact absurd hcount (by decide)

end

section
/-!
SUPPORT. Sub-elements as bit vectors: the two readings of a number (R243), the shifts of R245, the relations of R321, the
division of R244, and what a per-sub-element operation leaves in gD (R312).
-/

namespace Sys2Proof.Machine

/-! ## The two readings of a number (R243) -/

theorem sv_toNat {n : Nat} (x : BitVec n) : sv n x.toNat = x.toInt := (BitVec.toInt_eq_toNat_cond x).symm

theorem readAs_toNat {n : Nat} (sgn : Bool) (x : BitVec n) : readAs sgn n x.toNat = asInt sgn x := by
  cases sgn
  · rfl
  · exact sv_toNat x

theorem wrapTo_eq (n : Nat) (v : Int) : wrapTo n v = (BitVec.ofInt n v).toNat := rfl

theorem ofNat_toNat_self {n : Nat} (x : BitVec n) : BitVec.ofNat n x.toNat = x := by simp

theorem ofNat_wrapTo (n : Nat) (v : Int) : BitVec.ofNat n (wrapTo n v) = BitVec.ofInt n v := by
  rw [wrapTo_eq, ofNat_toNat_self]

theorem ofNat_allOnes (n : Nat) : BitVec.ofNat n (2 ^ n - 1) = BitVec.allOnes n :=
  BitVec.eq_of_toNat_eq (by
    rw [BitVec.toNat_ofNat, BitVec.toNat_allOnes, Nat.mod_eq_of_lt (Nat.sub_lt (Nat.two_pow_pos n) one_pos)])

theorem ofInt_neg_one (n : Nat) : BitVec.ofInt n (-1) = BitVec.allOnes n := by
  rw [BitVec.ofInt_neg]
  exact BitVec.neg_one_eq_allOnes

/-! ## Shifts (R245) -/

section
variable {n : Nat} (x : BitVec n) (k : Nat)

theorem ofNat_shlEl : BitVec.ofNat n (shlEl n x.toNat k) = x <<< k := by
  apply BitVec.eq_of_toNat_eq
  rw [BitVec.toNat_ofNat, BitVec.toNat_shiftLeft, Nat.shiftLeft_eq, shlEl]
  split
  next hk =>
    have hout : 2 ^ n ∣ x.toNat * 2 ^ k := (pow_dvd_pow 2 hk).mul_left _
    rw [Nat.zero_mod, Nat.mod_eq_zero_of_dvd hout]
  next => rw [Nat.mod_mod]

theorem ofNat_shrEl : BitVec.ofNat n (shrEl n x.toNat k) = x >>> k := by
  apply BitVec.eq_of_toNat_eq
  rw [BitVec.toNat_ofNat, BitVec.toNat_ushiftRight, Nat.shiftRight_eq_div_pow, shrEl]
  split
  next hk => rw [Nat.zero_mod, Nat.div_eq_of_lt (x.isLt.trans_le (Nat.pow_le_pow_right two_pos hk))]
  next => exact Nat.mod_eq_of_lt ((Nat.div_le_self _ _).trans_lt x.isLt)

/-- From the width on, every bit is the sign. -/
theorem sshiftRight_of_le (hk : n ≤ k) : x.sshiftRight k = if x.msb then BitVec.allOnes n else 0 := by
  ext b hb
  rw [BitVec.getElem_sshiftRight, dif_neg (by omega)]
  cases x.msb <;> simp

theorem ofNat_sarEl : BitVec.ofNat n (sarEl n x.toNat k) = x.sshiftRight k := by
  rw [sarEl]
  split
  next hk =>
    rw [sshiftRight_of_le x k hk]
    split
    next hneg => rw [BitVec.msb_eq_false_iff_two_mul_lt.mpr hneg]; rfl
    next hneg => rw [BitVec.msb_eq_true_iff_two_mul_ge.mpr (Nat.le_of_not_lt hneg), ofNat_allOnes]; rfl
  next => rw [ofNat_wrapTo, sv_toNat, BitVec.sshiftRight, Int.shiftRight_eq_div_pow]

theorem ofNat_rotEl : BitVec.ofNat n (rotEl n x.toNat k) = x.rotateLeft k := by
  have hhigh : x.toNat / 2 ^ (n - k % n) < 2 ^ n := (Nat.div_le_self _ _).trans_lt x.isLt
  apply BitVec.eq_of_toNat_eq
  rw [BitVec.toNat_ofNat, BitVec.toNat_rotateLeft, rotEl, Nat.shiftLeft_eq, Nat.shiftRight_eq_div_pow, Nat.mod_mod,
    Nat.or_mod_two_pow, Nat.mod_eq_of_lt hhigh]

end

/-! ## Relations (R321) -/

theorem iCond_iff {n : Nat} (cc : Cond) (x y : BitVec n) : iCond cc n x.toNat y.toNat = true ↔ holds cc x y := by
  cases cc <;> simp [iCond, holds, sv_toNat, BitVec.toNat_inj]

/-! ## Division (R244) -/

section
variable {n : Nat} (sgn : Bool) (x y : BitVec n)

theorem ofInt_tdiv : BitVec.ofInt n (x.toInt.tdiv y.toInt) = x.sdiv y :=
  BitVec.eq_of_toInt_eq (by rw [BitVec.toInt_ofInt, BitVec.toInt_sdiv])

theorem ofInt_tmod : BitVec.ofInt n (x.toInt.tmod y.toInt) = x.srem y := by
  rw [← BitVec.toInt_srem, BitVec.ofInt_toInt]

theorem natCast_tdiv : BitVec.ofInt n ((x.toNat : Int).tdiv y.toNat) = x / y := by
  rw [← Int.ofNat_tdiv, BitVec.ofInt_natCast, ← BitVec.toNat_udiv, ofNat_toNat_self]

theorem natCast_tmod : BitVec.ofInt n ((x.toNat : Int).tmod y.toNat) = x % y := by
  rw [← Int.ofNat_tmod, BitVec.ofInt_natCast, ← BitVec.toNat_umod, ofNat_toNat_self]

/-- A zero divisor: the quotient is -1 or all ones, or 1 where a negative number was divided; the remainder is the dividend. -/
theorem divPair_zero : (BitVec.ofNat n (divPair sgn n x.toNat 0).1
      = if sgn ∧ x.toInt < 0 then 1 else BitVec.allOnes n) ∧ (divPair sgn n x.toNat 0).2 = x.toNat := by
  refine ⟨?_, rfl⟩
  simp only [divPair, readAs_toNat, if_true]
  cases sgn
  case false => exact ofNat_allOnes n
  case true =>
    by_cases hneg : x.toInt < 0
    · simp [asInt, hneg, Int.not_le.mpr hneg]
    · simp only [asInt, if_true, hneg, Int.not_lt.mp hneg, and_false, if_false, ofNat_wrapTo, ofInt_neg_one]

variable {y} in
theorem divPair_ne (hy : y ≠ 0) :
    (BitVec.ofNat n (divPair sgn n x.toNat y.toNat).1 = if sgn then x.sdiv y else x / y)
    ∧ BitVec.ofNat n (divPair sgn n x.toNat y.toNat).2 = if sgn then x.srem y else x % y := by
  have hnat : y.toNat ≠ 0 := fun h => hy (BitVec.eq_of_toNat_eq h)
  simp only [divPair, readAs_toNat, if_neg hnat, ofNat_wrapTo]
  cases sgn
  case false => exact ⟨natCast_tdiv x y, natCast_tmod x y⟩
  case true => exact ⟨ofInt_tdiv x y, ofInt_tmod x y⟩

theorem ofNat_divPair_fst : BitVec.ofNat n (divPair sgn n x.toNat y.toNat).1
    = if y = 0 then (if sgn ∧ x.toInt < 0 then 1 else BitVec.allOnes n) else if sgn then x.sdiv y else x / y := by
  split
  next hy => exact hy ▸ (divPair_zero sgn x).1
  next hy => exact (divPair_ne sgn x hy).1

theorem ofNat_divPair_snd : BitVec.ofNat n (divPair sgn n x.toNat y.toNat).2
    = if y = 0 then x else if sgn then x.srem y else x % y := by
  split
  next hy =>
    have hrem : (divPair sgn n x.toNat y.toNat).2 = x.toNat := hy ▸ (divPair_zero sgn x).2
    rw [hrem, ofNat_toNat_self]
  next hy => exact (divPair_ne sgn x hy).2

end

/-! ## Per-sub-element operations (R312) -/

theorem iw_dvd (ty : IType) : iw ty ∣ 64 := by cases ty <;> decide

/-- Sub-element j of what a per-sub-element operation computes. -/
theorem extract_aluResult {e : Env} {s : State} {t : Thread} (hg : ∀ r, e.g r = readG s t r) (o : Alu)
    (g : Nat → Bool → Nat → Nat → Nat) {j : Nat} (hj : j < 64 / iw o.ty) :
    (aluResult e o g).extractLsb' (iw o.ty * j) (iw o.ty)
      = BitVec.ofNat (iw o.ty) (g (iw o.ty) (isSigned o.ty)
          ((readG s t o.a).extractLsb' (iw o.ty * j) (iw o.ty)).toNat (opndAt s t o.src (iw o.ty) j).toNat) := by
  unfold aluResult
  rw [extract_joinWord (iw_dvd o.ty) _ hj, opB_eq hg, hg, extract_toNat]

/-- An operation that joins what it computes of each pair of sub-elements gives that for each of them. -/
theorem aluGives_of {mk : Alu → Instr} {g : Nat → Bool → Nat → Nat → Nat}
    {f : (n : Nat) → Bool → BitVec n → BitVec n → BitVec n} (hexec : ∀ o s, exec (mk o) s = runX (mk o) (aluSem o g) s)
    (hg : ∀ n sgn (x y : BitVec n), BitVec.ofNat n (g n sgn x.toNat y.toNat) = f n sgn x y) : AluGives mk f := by
  intro s c t w o h
  refine ⟨aluResult (envX (bare s) c t w (mk o)) o g, ?_, fun j hj => ?_⟩
  · rw [hexec]
    exact runX_done h rfl
  · rw [extract_aluResult (envX_g s c t w (mk o)) o g hj, hg]

/-! ## DIV and REM (R315) -/

/-- Some sub-element of the second operand is zero. -/
def ZeroDivides (s : State) (t : Thread) (o : Alu) : Prop := ∃ j < 64 / iw o.ty, opndAt s t o.src (iw o.ty) j = 0

theorem anyZero_envX {s : State} {t : Thread} {o : Alu} (c : Cur) (w : Owner) (i : Instr) :
    anyZero (envX (bare s) c t w i) o = true ↔ ZeroDivides s t o := anyZero_iff (envX_g s c t w i) o

section
variable {s : State} {c : Cur} {t : Thread} {w : Owner} {i : Instr} {o : Alu} {f : Nat × Nat → Nat}

/-- They retire where no sub-element divides by zero, or where IDZE is 0; DZ tells which. -/
theorem runX_divSem {fl : BitVec 8} (hzero : ZeroDivides s t o → fl = 2) (hne : ¬ ZeroDivides s t o → fl = 0)
    (hidz : ¬ (ZeroDivides s t o ∧ t.fpc.getLsbD 13 = true)) (h : Issues s c t w i fl) :
    runX i (divSem o f) s = .next (doneWith s c t w i
      { Wr.ofG o.d (aluResult (envX (bare s) c t w i) o (fun n sgn x y => f (divPair sgn n x y))) with flags := fl }) := by
  rw [← anyZero_envX c w i] at hzero hne hidz
  refine runX_done h ?_
  unfold divSem
  cases hz : anyZero (envX (bare s) c t w i) o
  case false => simp [hne (by simp [hz])]
  case true =>
    have hoff : fpcIDZE t.fpc = false := by simpa [hz, fpcIDZE] using hidz
    simp [hoff, hzero hz, fDZ]

/-- With IDZE a zero divisor raises IDZ. -/
theorem runX_divSem_idz (hzero : ZeroDivides s t o) (hidz : t.fpc.getLsbD 13 = true) (h : Issues s c t w i 0) :
    runX i (divSem o f) s = .next (trapsTo s c t w i (mkTrap 0x12 0 0)) := by
  refine runX_trapC h ?_
  have hz := (anyZero_envX c w i).2 hzero
  have hon : fpcIDZE t.fpc = true := hidz
  simp [divSem, hz, hon, Cause.idz]

end

end Sys2Proof.Machine
end

section
namespace Sys2Proof
open Sys2Proof.Machine

/-- Settles O15: each operation joins what it computes of every pair of sub-elements, and that is the shift or the relation
there. -/
theorem scalarShiftsAndCompares : Obligations.ScalarShiftsAndCompares := by
  unfold Obligations.ScalarShiftsAndCompares
  refine ⟨?shl, ?shr, ?sar, ?rot, fun cc => ?cmp⟩
  case shl => exact aluGives_of (fun _ _ => rfl) fun _ _ x _ => ofNat_shlEl x _
  case shr => exact aluGives_of (fun _ _ => rfl) fun _ _ x _ => ofNat_shrEl x _
  case sar => exact aluGives_of (fun _ _ => rfl) fun _ _ x _ => ofNat_sarEl x _
  case rot => exact aluGives_of (fun _ _ => rfl) fun _ _ x _ => ofNat_rotEl x _
  case cmp =>
    refine aluGives_of (g := fun n _ x y => if iCond cc n x y then 1 else 0) (fun _ _ => rfl) fun n _ x y => ?_
    by_cases hc : holds cc x y
    · rw [if_pos ((iCond_iff cc x y).2 hc), if_pos hc]
    · rw [if_neg (mt (iCond_iff cc x y).1 hc), if_neg hc]
      rfl

/-- Settles O16, by whether some sub-element divides by zero, and if so by IDZE. -/
theorem scalarDivision : Obligations.ScalarDivision := by
  unfold Obligations.ScalarDivision
  intro s c t w o n sgn x y zero fl hzero hne
  refine ⟨fun hidz => ⟨fun h => ⟨_, runX_divSem hzero hne hidz h, fun j hj => ?div⟩,
    fun h => ⟨_, runX_divSem hzero hne hidz h, fun j hj => ?rem⟩⟩,
    fun hz hon => ⟨runX_divSem_idz hz hon, runX_divSem_idz hz hon⟩⟩
  case div =>
    rw [extract_aluResult (envX_g s c t w _) o _ hj]
    exact ofNat_divPair_fst sgn (x j) (y j)
  case rem =>
    rw [extract_aluResult (envX_g s c t w _) o _ hj]
    exact ofNat_divPair_snd sgn (x j) (y j)

end Sys2Proof
end

section
/-!
SUPPORT. Reductions over the fixed pairwise tree and VPFX (R241, R380, R381): the levels that the model folds are the tree's, its
nodes are those of R380, and absent operands give the other.
-/

namespace Sys2Proof.Machine

/-! ## The pairwise tree (R241) -/

section
variable (f : Nat → Nat → Res8)

theorem nodeOf_eq (a b : Option Nat × BitVec 8) :
    nodeOf f a b = ((joinOpt f a.1 b.1).1, (joinOpt f a.1 b.1).2 ||| (a.2 ||| b.2)) := by
  obtain ⟨_ | x, p⟩ := a <;> obtain ⟨_ | y, q⟩ := b <;> simp [nodeOf, joinOpt, BitVec.or_comm]

theorem treeFold_flags (k : Nat) (l : List (Option Nat)) (fl : BitVec 8) :
    treeFold f k l fl = ((treeFold f k l 0).1, fl ||| (treeFold f k l 0).2) := by
  induction k generalizing l fl with
  | zero => simp [treeFold]
  | succ k ih =>
    simp only [treeFold]
    rw [ih _ (fl ||| _), ih _ (0 ||| _)]
    simp [BitVec.or_assoc]

theorem treeFold_succ (k : Nat) (l : List (Option Nat)) : treeFold f (k + 1) l 0
    = ((treeFold f k (treeLevel f l).1 0).1, (treeLevel f l).2 ||| (treeFold f k (treeLevel f l).1 0).2) := by
  rw [treeFold, treeFold_flags]
  simp

/-- A level of two lists, the first of an even length, is the level of each. -/
theorem treeLevel_append (m : Nat) (l r : List (Option Nat)) (hl : l.length = 2 * m) :
    treeLevel f (l ++ r) = ((treeLevel f l).1 ++ (treeLevel f r).1, (treeLevel f l).2 ||| (treeLevel f r).2) := by
  induction m generalizing l with
  | zero =>
    obtain rfl := List.eq_nil_of_length_eq_zero hl
    simp [treeLevel]
  | succ m ih =>
    match l, hl with
    | x :: y :: l, hl =>
      have hrest := ih l (by simpa [Nat.mul_succ] using hl)
      simp [treeLevel, hrest, BitVec.or_assoc]

theorem treeLevel_length (m : Nat) (l : List (Option Nat)) (hl : l.length = 2 * m) : (treeLevel f l).1.length = m := by
  induction m generalizing l with
  | zero =>
    obtain rfl := List.eq_nil_of_length_eq_zero hl
    rfl
  | succ m ih =>
    match l, hl with
    | x :: y :: l, hl => simpa [treeLevel] using ih l (by simpa [Nat.mul_succ] using hl)

/-- Two halves of 2 ^ k elements meet in one node. -/
theorem treeFold_append (k : Nat) (l r : List (Option Nat)) (hl : l.length = 2 ^ k) (hr : r.length = 2 ^ k) :
    treeFold f (k + 1) (l ++ r) 0 = nodeOf f (treeFold f k l 0) (treeFold f k r 0) := by
  induction k generalizing l r with
  | zero =>
    obtain ⟨x, rfl⟩ := List.length_eq_one_iff.mp hl
    obtain ⟨y, rfl⟩ := List.length_eq_one_iff.mp hr
    simp [treeFold, treeLevel, nodeOf_eq]
  | succ k ih =>
    rw [pow_succ'] at hl hr
    have hnode := ih _ _ (treeLevel_length f _ l hl) (treeLevel_length f _ r hr)
    rw [treeFold_succ, treeLevel_append f _ l r hl, hnode, treeFold_succ f k l, treeFold_succ f k r]
    simp only [nodeOf_eq, Prod.mk.injEq, true_and]
    ac_rfl

/-- The node over elements j * 2 ^ k on. -/
theorem treeFold_eq_pairTree (leaf : Nat → Option Nat) (k j : Nat) :
    treeFold f k ((List.range' (j * 2 ^ k) (2 ^ k)).map leaf) 0 = pairTree f leaf k j := by
  induction k generalizing j with
  | zero => simp [treeFold, pairTree]
  | succ k ih =>
    have hhalves : List.range' (j * 2 ^ (k + 1)) (2 ^ (k + 1))
        = List.range' (2 * j * 2 ^ k) (2 ^ k) ++ List.range' ((2 * j + 1) * 2 ^ k) (2 ^ k) := by
      rw [Nat.succ_mul (2 * j), List.range'_append_1]
      congr 1 <;> ring
    rw [hhalves, List.map_append, treeFold_append f k _ _ (by simp) (by simp), ih, ih]
    rfl

end

/-! ## The distance-doubling tree (R381) -/

section
variable (f : Nat → Nat → Res8)

theorem prefixRound_eq (leaf : Nat → Option Nat) (k n : Nat) :
    (prefixRound f (2 ^ k) ((List.range n).map (prefixTree f leaf k))).1
      = (List.range n).map (prefixTree f leaf (k + 1)) := by
  apply List.ext_getElem
  · simp [prefixRound]
  · intro e he _
    have hn : e < n := by simpa [prefixRound] using he
    simp only [prefixRound, List.getElem_map, List.getElem_zipIdx, List.getElem_range, Nat.zero_add, prefixTree]
    split
    · rfl
    · have hlow : e - 2 ^ k < n := (Nat.sub_le _ _).trans_lt hn
      simp [nodeOf_eq, hlow]

/-- After r more rounds every element holds what the tree gives there. -/
theorem prefixRounds_from (leaf : Nat → Option Nat) (n r : Nat) : ∀ k fl,
    (prefixRounds f r (2 ^ k) ((List.range n).map (prefixTree f leaf k)) fl).1
      = (List.range n).map (prefixTree f leaf (k + r)) := by
  induction r with
  | zero => exact fun _ _ => rfl
  | succ r ih =>
    intro k fl
    rw [prefixRounds, ← pow_succ', prefixRound_eq, ih, Nat.succ_add_eq_add_succ]

theorem prefixRounds_eq (leaf : Nat → Option Nat) (n r : Nat) :
    (prefixRounds f r 1 ((List.range n).map leaf) 0).1 = (List.range n).map (prefixTree f leaf r) := by
  have hfrom := prefixRounds_from f leaf n r 0 0
  rwa [Nat.zero_add] at hfrom

end

theorem joinOpt_quiet {f : Nat → Nat → Res8} (hf : ∀ x y, (f x y).2 = 0) (x y : Option Nat) : (joinOpt f x y).2 = 0 := by
  cases x <;> cases y <;> simp [joinOpt, hf]

theorem foldl_or_zeros (l : List (BitVec 8)) (hl : ∀ x ∈ l, x = 0) : l.foldl (· ||| ·) 0 = 0 := by
  induction l with
  | nil => rfl
  | cons x l ih =>
    obtain rfl := hl x (by simp)
    exact ih fun y hy => hl y (by simp [hy])

/-- Nodes that raise nothing raise nothing together. -/
theorem prefixRound_quiet {f : Nat → Nat → Res8} (hf : ∀ x y, (f x y).2 = 0) (dist : Nat) (l : List (Option Nat)) :
    (prefixRound f dist l).2 = 0 := by
  refine foldl_or_zeros _ fun x hx => ?_
  simp only [List.map_map, List.mem_map] at hx
  obtain ⟨p, -, rfl⟩ := hx
  simp only [Function.comp]
  split
  · rfl
  · exact joinOpt_quiet hf _ _

theorem prefixRounds_quiet {f : Nat → Nat → Res8} (hf : ∀ x y, (f x y).2 = 0) (r dist : Nat) (l : List (Option Nat)) :
    (prefixRounds f r dist l 0).2 = 0 := by
  induction r generalizing dist l with
  | zero => rfl
  | succ r ih =>
    rw [prefixRounds, prefixRound_quiet hf]
    exact ih _ _

/-! ## Equal nodes give equal trees -/

section
variable {f g : Nat → Nat → Res8} {P : Nat → Prop} {leaf : Nat → Option Nat}

theorem nodeOf_congr (hfg : ∀ x y, P x → P y → f x y = g x y) {a b : Option Nat × BitVec 8} (ha : ∀ x ∈ a.1, P x)
    (hb : ∀ y ∈ b.1, P y) : nodeOf f a b = nodeOf g a b := by
  obtain ⟨_ | x, p⟩ := a <;> obtain ⟨_ | y, q⟩ := b
  case some.some => simp only [nodeOf, hfg x y (ha x rfl) (hb y rfl)]
  all_goals rfl

theorem nodeOf_keeps (hP : ∀ x y, P x → P y → P (f x y).1) {a b : Option Nat × BitVec 8} (ha : ∀ x ∈ a.1, P x)
    (hb : ∀ y ∈ b.1, P y) : ∀ z ∈ (nodeOf f a b).1, P z := by
  obtain ⟨_ | x, p⟩ := a <;> obtain ⟨_ | y, q⟩ := b
  case some.some => rintro _ ⟨⟩; exact hP x y (ha x rfl) (hb y rfl)
  all_goals assumption

theorem pairTree_keeps (hP : ∀ x y, P x → P y → P (f x y).1) (hleaf : ∀ e, ∀ x ∈ leaf e, P x) (k j : Nat) :
    ∀ x ∈ (pairTree f leaf k j).1, P x := by
  induction k generalizing j with
  | zero => exact hleaf j
  | succ k ih => exact nodeOf_keeps hP (ih _) (ih _)

/-- Nodes that agree on the values that a tree meets give one tree. -/
theorem pairTree_congr (hfg : ∀ x y, P x → P y → f x y = g x y) (hP : ∀ x y, P x → P y → P (f x y).1)
    (hleaf : ∀ e, ∀ x ∈ leaf e, P x) (k j : Nat) : pairTree f leaf k j = pairTree g leaf k j := by
  induction k generalizing j with
  | zero => rfl
  | succ k ih =>
    rw [pairTree, pairTree, ← ih, ← ih]
    exact nodeOf_congr hfg (pairTree_keeps hP hleaf k _) (pairTree_keeps hP hleaf k _)

theorem prefixTree_keeps (hP : ∀ x y, P x → P y → P (f x y).1) (hleaf : ∀ e, ∀ x ∈ leaf e, P x) (k e : Nat) :
    ∀ x ∈ prefixTree f leaf k e, P x := by
  induction k generalizing e with
  | zero => exact hleaf e
  | succ k ih =>
    rw [prefixTree]
    split
    · exact ih e
    · exact nodeOf_keeps hP (ih _) (ih _)

theorem prefixTree_congr (hfg : ∀ x y, P x → P y → f x y = g x y) (hP : ∀ x y, P x → P y → P (f x y).1)
    (hleaf : ∀ e, ∀ x ∈ leaf e, P x) (k e : Nat) : prefixTree f leaf k e = prefixTree g leaf k e := by
  induction k generalizing e with
  | zero => rfl
  | succ k ih =>
    rw [prefixTree, prefixTree, ← ih, ← ih]
    split
    · rfl
    · rw [nodeOf_congr hfg (prefixTree_keeps hP hleaf k _) (prefixTree_keeps hP hleaf k _)]

end

end Sys2Proof.Machine
end

section
/-!
SUPPORT. What a reduction and VPFX leave (R380, R381): the nodes of R380 as the model computes them, and the elements taken in.
-/

namespace Sys2Proof.Machine

/-! ## The nodes of R380 -/

theorem wrapTo_lt (n : Nat) (v : Int) : wrapTo n v < 2 ^ n := (BitVec.ofInt n v).isLt

theorem readAs_of_lt {n x : Nat} (sgn : Bool) (hx : x < 2 ^ n) : readAs sgn n x = asInt sgn (BitVec.ofNat n x) := by
  rw [← readAs_toNat, BitVec.toNat_ofNat, Nat.mod_eq_of_lt hx]

theorem intOut_eq_clampTo (sat sgn : Bool) (n : Nat) (v : Int) : intOut sat sgn n v = clampTo sat sgn n v := by
  simp only [intOut, clampTo, wrapTo_eq, fSAT]
  cases sat <;> simp

theorem intOut_lt (sat sgn : Bool) (n : Nat) (v : Int) : (intOut sat sgn n v).1 < 2 ^ n := by
  rw [intOut_eq_clampTo]
  dsimp only [clampTo]
  split_ifs <;> exact BitVec.isLt _

/-- A number that an element of an integer type can hold; the nodes of a float type read the low bits of any number. -/
def Held (ty : VType) (x : Nat) : Prop := ty.isFloat = false → x < 2 ^ ty.width

section
variable (t : Thread) (ty : VType)

/-- The node of R380 for .min, as the statement has it. -/
def lowNodeOf (x y : Nat) : Res8 :=
  let f := fmtOf ty
  let ftz := t.fpc.getLsbD 3
  if ty.isFloat then (f.enc (minV (f.dec ftz x) (f.dec ftz y)), 0)
  else (if asInt ty.signed (BitVec.ofNat ty.width x) ≤ asInt ty.signed (BitVec.ofNat ty.width y) then x else y, 0)

/-- The node of R380 for .max. -/
def highNodeOf (x y : Nat) : Res8 :=
  let f := fmtOf ty
  let ftz := t.fpc.getLsbD 3
  if ty.isFloat then (f.enc (maxV (f.dec ftz x) (f.dec ftz y)), 0)
  else (if asInt ty.signed (BitVec.ofNat ty.width x) ≥ asInt ty.signed (BitVec.ofNat ty.width y) then x else y, 0)

variable (sat : Bool) {x y : Nat}

theorem sumNode_eq (hx : Held ty x) (hy : Held ty y) :
    sumNode ty (fpcFTZ t.fpc) sat x y = addNodeOf t ty sat x y := by
  unfold sumNode addNodeOf
  cases hf : ty.isFloat
  case true => rfl
  case false =>
    simp only [Bool.false_eq_true, if_false, readAs_of_lt _ (hx hf), readAs_of_lt _ (hy hf)]
    exact intOut_eq_clampTo ..

theorem sumNode_held (ftz : Bool) (x y : Nat) : Held ty (sumNode ty ftz sat x y).1 := by
  intro hf
  simp only [sumNode, hf, Bool.false_eq_true, if_false]
  exact intOut_lt ..

/-- Integers that wrap raise nothing. -/
theorem sumNode_quiet (hf : ty.isFloat = false) (ftz : Bool) (x y : Nat) : (sumNode ty ftz false x y).2 = 0 := by
  simp [sumNode, hf, intOut]

/-- Two integers are compared as the type reads them. -/
theorem lowNode_highNode_eq (hx : Held ty x) (hy : Held ty y) :
    lowNode ty (fpcFTZ t.fpc) x y = lowNodeOf t ty x y ∧ highNode ty (fpcFTZ t.fpc) x y = highNodeOf t ty x y := by
  unfold lowNode lowNodeOf highNode highNodeOf
  cases hf : ty.isFloat
  case true => exact ⟨rfl, rfl⟩
  case false =>
    simp only [Bool.false_eq_true, if_false, readAs_of_lt _ (hx hf), readAs_of_lt _ (hy hf)]
    exact ⟨trivial, trivial⟩

theorem lowNode_highNode_held (ftz : Bool) (hx : Held ty x) (hy : Held ty y) :
    Held ty (lowNode ty ftz x y).1 ∧ Held ty (highNode ty ftz x y).1 := by
  simp only [Held]
  refine forall_and.mp fun hf => ?_
  simp only [lowNode, highNode, hf, Bool.false_eq_true, if_false]
  constructor
  all_goals
    split
    · exact hx hf
    · exact hy hf

theorem quietOf_held (hx : x < 2 ^ ty.width) : Held ty (quietOf t ty x) := by
  intro hf
  simpa [quietOf, hf] using hx

end

/-! ## Reductions -/

theorem elements_pow (ty : VType) : 2 ^ Nat.log2 (512 / ty.width) = 512 / ty.width := by cases ty <;> rfl

theorem width_dvd (ty : VType) : ty.width ∣ 512 := by cases ty <;> decide

theorem envX_velem (s : State) (c : Cur) (t : Thread) (w : Owner) (i : Instr) (n e : Nat) (a : VReg) :
    velem n e ((envX (bare s) c t w i).v a) = (elemOf n e (vecIn s c t i a)).toNat := by
  rw [velem_eq, envX_v]
  rfl

/-- What a tree takes in of element e, after `leaf`: nothing of an inactive one. -/
def leafOf (s : State) (c : Cur) (t : Thread) (i : Instr) (ty : VType) (a : VReg) (k : MReg) (leaf : Nat → Nat) (e : Nat) :
    Option Nat :=
  if isActive (readM t k) ty.width e then some (leaf (elemOf ty.width e (vecIn s c t i a)).toNat) else none

/-- The vector that VPFX writes: of each active element what a list has for it, of the others the old value. -/
def activeOf (ty : VType) (m : BitVec 64) (old : Vec) (l : List (Option Nat)) : Vec :=
  vecOfEls ty.width (l.zipIdx.map fun p => if active m ty.width p.2 then p.1.getD 0 else velem ty.width p.2 old)

section
variable {s : State} {c : Cur} {t : Thread} {w : Owner} {i : Instr} {ty : VType} {d a : VReg} {k : MReg} {idn : Nat}
  {sem : Env → Half} {leaf : Nat → Nat} {f g : Nat → Nat → Res8} {P : Nat → Prop}

theorem leafOf_keeps (hleaf : ∀ x < 2 ^ ty.width, P (leaf x)) (e : Nat) : ∀ x ∈ leafOf s c t i ty a k leaf e, P x := by
  intro x hx
  obtain ⟨-, rfl⟩ := Option.ite_some_none_eq_some.mp hx
  exact hleaf _ (BitVec.isLt _)

theorem reduceTo_envX : reduceTo (envX (bare s) c t w i) ty d a k idn leaf f =
    let r := pairTree f (leafOf s c t i ty a k leaf) (Nat.log2 (512 / ty.width)) 0
    ⟨{ Wr.ofV d (BitVec.ofNat 512 (r.1.getD idn)) with flags := r.2 }, none, 0⟩ := by
  have hlevels := treeFold_eq_pairTree f (leafOf s c t i ty a k leaf) (Nat.log2 (512 / ty.width)) 0
  rw [Nat.zero_mul, elements_pow, ← List.range_eq_range'] at hlevels
  rw [← hlevels]
  simp only [reduceTo, envX_velem]
  rfl

/-- A fold of levels whose nodes are, on the values that meet there, those of g is a reduction by g. -/
theorem reduces_of (hexec : exec i s = runV i sem s)
    (hsem : sem (envX (bare s) c t w i) = reduceTo (envX (bare s) c t w i) ty d a k idn leaf f)
    (hfg : ∀ x y, P x → P y → f x y = g x y) (hP : ∀ x y, P x → P y → P (f x y).1)
    (hleaf : ∀ x < 2 ^ ty.width, P (leaf x)) : Reduces s c t w i ty d a k idn leaf g := by
  have htree : pairTree f (leafOf s c t i ty a k leaf) (Nat.log2 (512 / ty.width)) 0
      = pairTree g (leafOf s c t i ty a k leaf) (Nat.log2 (512 / ty.width)) 0 :=
    pairTree_congr hfg hP (leafOf_keeps hleaf) _ _
  rw [reduceTo_envX, htree] at hsem
  intro h
  rw [hexec]
  exact runV_done h hsem rfl

/-! ## VPFX (R381) -/

/-- Active elements take what a list has for them, the others keep their value. -/
theorem elemOf_activeOf (m : BitVec 64) (old : Vec) (p : Nat → Option Nat) {e : Nat} (he : e < 512 / ty.width) :
    elemOf ty.width e (activeOf ty m old ((List.range (512 / ty.width)).map p))
      = if isActive m ty.width e then BitVec.ofNat ty.width ((p e).getD 0) else elemOf ty.width e old := by
  refine (extract_vecOfEls (width_dvd ty) (by simp) he).trans ?_
  simp only [List.getElem_map, List.getElem_zipIdx, List.getElem_range, Nat.zero_add, velem_eq]
  show BitVec.ofNat ty.width (if isActive m ty.width e then _ else _) = _
  split
  · rfl
  · exact ofNat_toNat_self _

theorem vpfxSem_envX (sat : Bool) : vpfxSem ty sat d a k (envX (bare s) c t w i) =
    let r := prefixRounds (sumNode ty (fpcFTZ t.fpc) sat) (Nat.log2 (512 / ty.width)) 1
      ((List.range (512 / ty.width)).map (leafOf s c t i ty a k (quietOf t ty))) 0
    ⟨{ Wr.ofV d (activeOf ty (readM t k) (readV s t d) r.1) with flags := r.2 }, none, 0⟩ := by
  simp only [vpfxSem, envX_velem, envX_old]
  rfl

/-- What VPFX leaves in each element. -/
theorem elemOf_prefixRounds (sat : Bool) {e : Nat} (he : e < 512 / ty.width) :
    elemOf ty.width e (activeOf ty (readM t k) (readV s t d)
        (prefixRounds (sumNode ty (fpcFTZ t.fpc) sat) (Nat.log2 (512 / ty.width)) 1
          ((List.range (512 / ty.width)).map (leafOf s c t i ty a k (quietOf t ty))) 0).1)
      = if isActive (readM t k) ty.width e
        then BitVec.ofNat ty.width ((prefixTree (addNodeOf t ty sat) (leafOf s c t i ty a k (quietOf t ty))
          (Nat.log2 (512 / ty.width)) e).getD 0)
        else elemOf ty.width e (readV s t d) := by
  have htree : prefixTree (sumNode ty (fpcFTZ t.fpc) sat) (leafOf s c t i ty a k (quietOf t ty)) (Nat.log2 (512 / ty.width)) e
      = prefixTree (addNodeOf t ty sat) (leafOf s c t i ty a k (quietOf t ty)) (Nat.log2 (512 / ty.width)) e :=
    prefixTree_congr (P := Held ty) (fun x y => sumNode_eq t ty sat) (fun x y _ _ => sumNode_held ty sat _ x y)
      (leafOf_keeps fun x => quietOf_held t ty) _ _
  rw [prefixRounds_eq, elemOf_activeOf _ _ _ he, htree]

end

end Sys2Proof.Machine
end

section
namespace Sys2Proof
open Sys2Proof.Machine

/-- Settles O29: the reductions fold the tree's levels, and VPFX's rounds are its distances; their nodes are those of R380 on
what an element can hold. -/
theorem vectorReductions : Obligations.VectorReductions := by
  unfold Obligations.VectorReductions
  refine ⟨fun s c t w ty d a k => ⟨fun sat => ?add, ?min, ?max, ?and, ?or, ?xor⟩, fun s c t w ty sat d a k => ?vpfx⟩
  case add =>
    exact reduces_of (P := Held ty) rfl rfl (fun x y => sumNode_eq t ty sat) (fun x y _ _ => sumNode_held ty sat _ x y)
      fun x => quietOf_held t ty
  case min =>
    exact reduces_of (P := Held ty) rfl rfl (fun x y hx hy => (lowNode_highNode_eq t ty hx hy).1)
      (fun x y hx hy => (lowNode_highNode_held ty _ hx hy).1) fun x => quietOf_held t ty
  case max =>
    exact reduces_of (P := Held ty) rfl rfl (fun x y hx hy => (lowNode_highNode_eq t ty hx hy).2)
      (fun x y hx hy => (lowNode_highNode_held ty _ hx hy).2) fun x => quietOf_held t ty
  case and | or | xor =>
    exact reduces_of (P := fun _ => True) rfl rfl (fun _ _ _ _ => rfl) (fun _ _ _ _ => trivial) fun _ _ => trivial
  case vpfx =>
    refine ⟨_, fun hint hsat => ?flags, fun h => ⟨_, runV_done h (vpfxSem_envX sat) rfl, fun e he => ?elements⟩⟩
    case flags =>
      subst hsat
      exact prefixRounds_quiet (sumNode_quiet ty hint _) _ _ _
    case elements => exact elemOf_prefixRounds sat he

end Sys2Proof
end

section
/-!
SUPPORT. Codes and fields written back: every qualifier that the decoder accepts has the code it was read from, every
register field and immediate the bits it was read from (R293 to R299, R303).
-/

namespace Sys2Proof

/-- Bits over a field that are zero: the field alone, widened, is the number. -/
theorem setWidth_low {w n m : Nat} {x : BitVec w} (hw : n + m = w) (h : x.extractLsb' n m = 0) :
    (x.extractLsb' 0 n).setWidth w = x := by
  ext i hi
  by_cases hn : i < n
  · simp [hn, BitVec.getLsbD_eq_getElem hi]
  · have hbit := congrArg (fun y => y.getLsbD (i - n)) h
    have hlt : i - n < m := by omega
    simp only [BitVec.getLsbD_extractLsb', hlt, decide_true, Bool.true_and, BitVec.ofNat_eq_ofNat, BitVec.getLsbD_zero,
      Nat.add_sub_cancel' (Nat.le_of_not_lt hn)] at hbit
    simp [hn, ← hbit, BitVec.getLsbD_eq_getElem hi]

/-! ## Qualifier codes (R303) -/

theorem itypeCode_itypeOf (q : BitVec 3) : itypeCode (itypeOf q) = q := by revert q; decide

theorem vtypeCode_of_vtypeOf {q : BitVec 4} {t : VType} (h : vtypeOf q = some t) : vtypeCode t = q := by
  have hall : ∀ q, (vtypeOf q).all (fun t => vtypeCode t = q) = true := by decide
  simpa [h] using hall q

theorem rndCode_of_rndOf {q : BitVec 3} {r : Rnd} (h : rndOf q = some r) : rndCode r = q := by
  have hall : ∀ q, (rndOf q).all (fun r => rndCode r = q) = true := by decide
  simpa [h] using hall q

theorem scopeCode_of_scopeOf {q : BitVec 3} {s : Scope} (h : scopeOf q = some s) : scopeCode s = q := by
  have hall : ∀ q, (scopeOf q).all (fun s => scopeCode s = q) = true := by decide
  simpa [h] using hall q

theorem condCode_of_condOf {q : BitVec 4} {c : Cond} (h : condOf q = some c) : condCode c = q := by
  have hall : ∀ q, (condOf q).all (fun c => condCode c = q) = true := by decide
  simpa [h] using hall q

theorem memQ_of_ordOf {q : BitVec 8} {o : Ord} (h : ordOf q = some o) : memQ o (q.extractLsb' 0 3) = q := by
  have hall : ∀ q : BitVec 8, (ordOf q).all (fun o => memQ o (q.extractLsb' 0 3) = q) = true := by decide
  simpa [h] using hall q

theorem memQ_zero_of_ordOf {q : BitVec 8} {o : Ord} (h : ordOf q = some o) (h0 : q.extractLsb' 0 3 = 0) : memQ o 0 = q := by
  rw [← h0, memQ_of_ordOf h]

/-- Q of an operation that takes a type alone. -/
theorem typeQ {q : BitVec 8} (h : q.extractLsb' 3 5 = 0) : (itypeCode (itypeOf (q.extractLsb' 0 3))).setWidth 8 = q := by
  rw [itypeCode_itypeOf]
  exact setWidth_low (by decide) h

/-- Q of LDS and LDS.clr: a scope over order 00. -/
theorem scopeQ {q : BitVec 8} {sc : Scope} (hs : scopeOf (q.extractLsb' 5 3) = some sc) (h0 : q.extractLsb' 3 2 = 0) :
    scopeCode sc ++ (0 : BitVec 2) ++ itypeCode (itypeOf (q.extractLsb' 0 3)) = q := by
  rw [scopeCode_of_scopeOf hs, itypeCode_itypeOf]
  grind

/-- Q of a V-op: Q[7], the rounding and the type. -/
theorem vQual_of {q : BitVec 8} {t : VType} {r : Rnd} (ht : vtypeOf (q.extractLsb' 0 4) = some t)
    (hr : rndCode r = q.extractLsb' 4 3) : vQual t r (q.getLsbD 7) = q := by
  unfold vQual
  rw [vtypeCode_of_vtypeOf ht, hr]
  grind

@[simp] theorem vQual_type (t : VType) (r : Rnd) (s : Bool) : (vQual t r s).extractLsb' 0 4 = vtypeCode t := by
  grind [vQual]
@[simp] theorem vQual_rnd (t : VType) (r : Rnd) (s : Bool) : (vQual t r s).extractLsb' 4 3 = rndCode r := by
  grind [vQual]
@[simp] theorem vQual_bit7 (t : VType) (r : Rnd) (s : Bool) : (vQual t r s)[7] = s := by
  grind [vQual]

/-! ## Register fields (R293, R402) -/

theorem v7_vReg {f : BitVec 7} (h : vOk f = true) : v7 (vReg f) = f := by revert f; decide
theorem m7_mReg {f : BitVec 7} (h : mOk f = true) : m7 (mReg f) = f := by revert f; decide
theorem s7_sReg {f : BitVec 7} (h : sOk f = true) : s7 (sReg f) = f := by revert f; decide
@[simp] theorem vReg_v7 (v : VReg) : vReg (v7 v) = v := by revert v; decide
@[simp] theorem mReg_m7 (m : MReg) : mReg (m7 m) = m := by revert m; decide
@[simp] theorem sReg_s7 (s : BitVec 2) : sReg (s7 s) = s := by revert s; decide
@[simp] theorem vOk_v7 (v : VReg) : vOk (v7 v) = true := by revert v; decide
@[simp] theorem mOk_m7 (m : MReg) : mOk (m7 m) = true := by revert m; decide
@[simp] theorem sOk_s7 (s : BitVec 2) : sOk (s7 s) = true := by revert s; decide

/-! ## The immediate of a V-op (R297) -/

theorem vImm_of {imm : BitVec 16} (h : imm.extractLsb' 4 4 = 0) :
    vImm (imm.extractLsb' 8 8) (imm.getLsbD 3) (imm.extractLsb' 0 3) = imm := by
  grind [vImm]

@[simp] theorem vImm_gap (i8 : BitVec 8) (vi : Bool) (k : MReg) : (vImm i8 vi k).extractLsb' 4 4 = 0 := by grind [vImm]
@[simp] theorem vImm_imm8 (i8 : BitVec 8) (vi : Bool) (k : MReg) : (vImm i8 vi k).extractLsb' 8 8 = i8 := by grind [vImm]
@[simp] theorem vImm_bit (i8 : BitVec 8) (vi : Bool) (k : MReg) : (vImm i8 vi k)[3] = vi := by grind [vImm]
@[simp] theorem vImm_mask (i8 : BitVec 8) (vi : Bool) (k : MReg) : (vImm i8 vi k).extractLsb' 0 3 = k := by grind [vImm]

end Sys2Proof
end

section
/-!
SUPPORT. The X-ops between their encodings and the decoder's arms (R292 to R299, R305): what an arm accepts encodes back to
the word it was read from, and the word of a well-formed operation is one that its arm accepts.
-/

namespace Sys2Proof

/-! ## What reads and what encodes -/

/-- Length and kind of an X-op's word in its three forms (R292, R298, R299); format B has the first alone. -/
inductive XForm (f : Fields) : Ext → Prop
  | word (hl : f.len = 0) (hk : f.kind = 0) : XForm f .none
  | ext (v : BitVec 32) (hl : f.len = 1) (hk : f.kind = 0) (hb : isFormatB f.opc = false) : XForm f (.ext v)
  | lit (v : BitVec 64) (hl : f.len = 2) (hk : f.kind = 1) (hb : isFormatB f.opc = false) : XForm f (.lit v)

/-- The decoder reads an operation from a word and what stands after it, every must-be-zero field being zero. -/
inductive Reads (f : Fields) (e : Ext) (i : Instr) : Prop
  | x (hf : XForm f e) (h : decodeX f e = some (true, i))
  | v (hl : f.len = 0) (hk : f.kind = 1) (he : e = .none) (h : decodeV f = some (true, i))
  | e (hl : f.len = 0) (hk : f.kind = 2) (he : e = .none) (h : decodeE f = some (true, i))

/-- A well-formed operation whose encoding is this word and what stands after it. -/
structure Encodes (f : Fields) (e : Ext) (i : Instr) : Prop where
  wf  : i.wf = true
  enc : encodeFields i = some (f, e)

@[simp] theorem need_eq_some {c : Bool} {k : Arm} {r : Bool × Instr} : need c k = some r ↔ c = true ∧ k = some r := by
  cases c <;> simp [need]

@[simp] theorem plainT_eq_some {e : Ext} {k : Arm} {r : Bool × Instr} : plainT e k = some r ↔ e = .none ∧ k = some r := by
  simp [plainT]

theorem opc_of_toNat {f : Fields} {n : Nat} (ho : f.opc.toNat = n) : f.opc = BitVec.ofNat 8 n := by
  rw [← ho, BitVec.ofNat_toNat, BitVec.setWidth_eq]

/-- The arm that the decoder of X-ops takes at an opcode. -/
def XArm (opc : BitVec 8) (arm : Fields → Ext → Arm) : Prop :=
  ∀ (f : Fields) (e : Ext), decodeX { f with opc := opc } e = arm { f with opc := opc } e

theorem decodeX_of_arm {opc : BitVec 8} {arm : Fields → Ext → Arm} (h : XArm opc arm) {f : Fields} (ho : f.opc = opc) (e : Ext) :
    decodeX f e = arm f e := by
  subst ho
  exact h f e

/-! ## Second sources (R294, R298, R299) -/

/-- Q of a two-operand integer operation: the immediate's bit over the type. -/
theorem aluQ {q : BitVec 8} (h : q.extractLsb' 4 4 = 0) :
    q = if q.getLsbD 3 then (itypeCode (itypeOf (q.extractLsb' 0 3))).setWidth 8 ||| 8
      else (itypeCode (itypeOf (q.extractLsb' 0 3))).setWidth 8 := by
  rw [itypeCode_itypeOf]
  revert q
  decide

/-- Q of CMP.cc: the condition over the immediate's bit and the type. -/
theorem cmpQ {q : BitVec 8} {cc : Cond} (h : condOf (q.extractLsb' 4 4) = some cc) :
    q = if q.getLsbD 3 then (condCode cc ++ (itypeCode (itypeOf (q.extractLsb' 0 3))).setWidth 4 : BitVec 8) ||| 8
      else (condCode cc ++ (itypeCode (itypeOf (q.extractLsb' 0 3))).setWidth 4 : BitVec 8) := by
  rw [itypeCode_itypeOf, condCode_of_condOf h]
  clear h
  revert q
  decide

theorem ofAppend (v : BitVec 32) (imm : BitVec 16) : (v ++ imm).extractLsb' 0 16 = imm ∧ (v ++ imm).extractLsb' 16 32 = v := by
  constructor <;> grind

/-- A second source that the decoder reads is written where it was read. -/
theorem encSrc_of_srcOf {f : Fields} {e : Ext} {s : Src} {p : BitVec 8} (hf : XForm f e) (h : srcOf f e = some (s, true))
    (hc : f.c = 0) (hq : f.q = if f.q.getLsbD 3 then p ||| 8 else p) :
    encSrc s { base 0 f.opc with d := f.d, a := f.a, q := p } = (f, e) := by
  unfold srcOf at h
  obtain ⟨len, kind, opc, d, a, b, c, q, imm⟩ := f
  cases hc
  cases hi : q.getLsbD 3 <;> simp only [hi, if_true, if_false, Bool.false_eq_true] at h hq <;> subst hq
  case false =>
    cases hf with
    | ext | lit => cases h
    | word hl hk =>
      simp only [Option.some.injEq, Prod.mk.injEq, beq_iff_eq] at h hl hk
      obtain ⟨rfl, rfl⟩ := h
      subst hl hk
      rfl
  case true =>
    cases hf with
    | word hl hk | ext _ hl hk | lit _ hl hk =>
      simp only [Option.some.injEq, Prod.mk.injEq, beq_iff_eq, Bool.and_eq_true] at h hl hk
      obtain ⟨rfl, h⟩ := h
      subst hl hk
      simp [encSrc, base, ofAppend, h]

/-- The form of a second source, and the fields that it leaves to the operation. -/
theorem encSrc_form (s : Src) {f : Fields} (hl : f.len = 0) (hk : f.kind = 0) (hb : isFormatB f.opc = false) :
    XForm (encSrc s f).1 (encSrc s f).2 := by
  cases s
  case reg | i16 => exact .word hl hk
  case i48 => exact .ext _ rfl hk hb
  case i64 => exact .lit _ rfl rfl hb

theorem encSrc_fields (s : Src) (f : Fields) : (encSrc s f).1.opc = f.opc ∧ (encSrc s f).1.d = f.d ∧ (encSrc s f).1.a = f.a
    ∧ (encSrc s f).1.c = f.c ∧ (encSrc s f).1.q.extractLsb' 0 3 = f.q.extractLsb' 0 3
    ∧ (encSrc s f).1.q.extractLsb' 4 4 = f.q.extractLsb' 4 4 := by
  have hq : ∀ q : BitVec 8, (q ||| 8#8).extractLsb' 0 3 = q.extractLsb' 0 3
      ∧ (q ||| 8#8).extractLsb' 4 4 = q.extractLsb' 4 4 := by decide
  cases s <;> simp [encSrc, hq]

theorem srcOf_encSrc (s : Src) {f : Fields} (hq : f.q.getLsbD 3 = false) (hb : f.b = 0) (hi : f.imm = 0) :
    srcOf (encSrc s f).1 (encSrc s f).2 = some (s, true) := by
  cases s with
  | reg => simpa [encSrc, srcOf, hi] using hq
  | i16 | i64 => simp [encSrc, srcOf, hb, hi]
  | i48 v =>
    have hv : v.extractLsb' 16 32 ++ v.extractLsb' 0 16 = v := by grind
    simp [encSrc, srcOf, hb, hv]

/-! ## Addresses (R295, R298, R335) -/

/-- An offset with a mask register in its bits [2:0] (R335). -/
def offWith (o : Off) (m : MReg) : Off :=
  match o with
  | .o16 v => .o16 (v ||| m.setWidth 16)
  | .o48 v => .o48 (v ||| m.setWidth 48)

@[simp] theorem offWith_zero (o : Off) : offWith o 0#3 = o := by cases o <;> simp [offWith]

theorem offWith_splitOff (o : Off) : offWith (splitOff o).1 (splitOff o).2 = o ∧ (splitOff o).1.aligned8 = true := by
  cases o <;> simp only [offWith, splitOff, Off.aligned8, Off.o16.injEq, Off.o48.injEq, beq_iff_eq] <;> constructor <;> grind

theorem splitOff_offWith {o : Off} (h : o.aligned8 = true) (m : MReg) : splitOff (offWith o m) = (o, m) := by
  cases o with
  | o16 v | o48 v =>
    simp only [offWith, splitOff, Off.aligned8, Prod.mk.injEq, Off.o16.injEq, Off.o48.injEq, beq_iff_eq] at h ⊢
    have hbit : ∀ i < 3, v.getLsbD i = false := fun i hi => by simpa [hi] using congrArg (·.getLsbD i) h
    constructor <;> grind

theorem encOff_offWith (o : Off) (m : MReg) (f : Fields) : encOff o m f = encOff (offWith o m) 0 f := by
  cases o <;> simp only [encOff, offWith, Prod.mk.injEq, Fields.mk.injEq, Ext.ext.injEq, true_and, and_true] <;> grind

/-- The form of an offset, and the fields that it leaves to the operation. -/
theorem encOff_form (o : Off) (m : MReg) {f : Fields} (hl : f.len = 0) (hk : f.kind = 0) (hb : isFormatB f.opc = false) :
    XForm (encOff o m f).1 (encOff o m f).2 := by
  cases o
  case o16 => exact .word hl hk
  case o48 => exact .ext _ rfl hk hb

theorem encOff_fields (o : Off) (m : MReg) (f : Fields) : (encOff o m f).1.opc = f.opc ∧ (encOff o m f).1.d = f.d
    ∧ (encOff o m f).1.a = f.a ∧ (encOff o m f).1.b = f.b ∧ (encOff o m f).1.c = f.c ∧ (encOff o m f).1.q = f.q := by
  cases o <;> simp [encOff]

/-- An address that the decoder reads is written where it was read. -/
theorem encAddr_of_addrOf {f : Fields} {e : Ext} {ad : Addr} (hf : XForm f e) (h : addrOf f e = some (ad, true)) :
    ad.wf = true ∧ encAddr ad 0 { base 0 f.opc with d := f.d, q := f.q } = (f, e) := by
  obtain ⟨len, kind, opc, d, a, b, c, q, imm⟩ := f
  unfold addrOf at h
  split at h
  case isTrue => cases h
  case isFalse h7 =>
    cases hf with
    | lit => cases h
    | word hl hk | ext _ hl hk =>
      simp only [Option.some.injEq, Prod.mk.injEq, beq_iff_eq] at h hl hk
      obtain ⟨rfl, hc⟩ := h
      subst hl hk
      have hscl := setWidth_low (n := 3) (m := 4) (by decide) hc
      exact ⟨by simpa [Addr.wf] using h7, by simp [encAddr, encOff, base, ofAppend, hscl]⟩

theorem addrOf_encAddr {ad : Addr} (h : ad.wf = true) (m : MReg) (f : Fields) :
    addrOf (encAddr ad m f).1 (encAddr ad m f).2 = some ({ ad with off := offWith ad.off m }, true) := by
  have hscl : ∀ s : BitVec 3, (s.setWidth 7).extractLsb' 0 3 = s ∧ (s.setWidth 7).extractLsb' 3 4 = 0 := by decide
  obtain ⟨base, idx, scl, off⟩ := ad
  simp [Addr.wf] at h
  cases off with
  | o16 => simp [encAddr, encOff, addrOf, offWith, hscl, h]
  | o48 v =>
    have hv : v.extractLsb' 16 32 ++ (v.extractLsb' 0 16 ||| m.setWidth 16) = v ||| m.setWidth 48 := by grind
    simp [encAddr, encOff, addrOf, offWith, hscl, h, hv]

theorem encM3_of_m3Of {f : Fields} {e : Ext} {m : M3} (hf : XForm f e) (h : m3Of f e = some (m, true)) :
    encM3 m 0 { base 0 f.opc with d := f.d, q := f.q } = (f, e) := by
  obtain ⟨len, kind, opc, d, a, b, c, q, imm⟩ := f
  unfold m3Of at h
  cases hf with
  | lit => cases h
  | word hl hk | ext _ hl hk =>
    simp only [Option.some.injEq, Prod.mk.injEq, beq_iff_eq] at h hl hk
    obtain ⟨rfl, hb⟩ := h
    subst hl hk hb
    simp [encM3, encOff, base, ofAppend]

theorem m3Of_encM3 (m3 : M3) (m : MReg) {f : Fields} (hb : f.b = 0) :
    m3Of (encM3 m3 m f).1 (encM3 m3 m f).2 = some ({ m3 with off := offWith m3.off m }, true) := by
  obtain ⟨base, off, c⟩ := m3
  cases off with
  | o16 => simp [encM3, encOff, m3Of, offWith, hb]
  | o48 v =>
    have hv : v.extractLsb' 16 32 ++ (v.extractLsb' 0 16 ||| m.setWidth 16) = v ||| m.setWidth 48 := by grind
    simp [encM3, encOff, m3Of, offWith, hb, hv]

end Sys2Proof
end

section
/-!
SUPPORT. The arms of the X-ops: what each accepts encodes back to its word, and each accepts the word of its operation
(R294 to R299, R305).
-/

namespace Sys2Proof

section Accepted
variable {f : Fields} {e : Ext} {i : Instr} {n : Nat}

/-! ## What an arm accepts -/

theorem armAlu_encodes {mk : Alu → Instr} (ho : f.opc.toNat = n) (hwf : ∀ o, (mk o).wf = true)
    (henc : ∀ o, encodeFields (mk o) = some (encAlu (BitVec.ofNat 8 n) o)) (hf : XForm f e)
    (h : armAlu mk f e = some (true, i)) : Encodes f e i := by
  unfold armAlu at h
  split at h
  case h_1 => cases h
  case h_2 s z hs =>
    simp only [need_eq_some, Option.some.injEq, Prod.mk.injEq, beq_iff_eq, Bool.and_eq_true] at h
    obtain ⟨hq, ⟨rfl, hc⟩, rfl⟩ := h
    refine ⟨hwf _, ?_⟩
    rw [henc, ← opc_of_toNat ho]
    exact congrArg some (encSrc_of_srcOf hf hs hc (aluQ hq))

theorem armCmp_encodes (ho : f.opc.toNat = 0x48) (hf : XForm f e) (h : armCmp f e = some (true, i)) : Encodes f e i := by
  unfold armCmp at h
  split at h
  case h_1 s z cc hs hcc =>
    simp only [Option.some.injEq, Prod.mk.injEq, beq_iff_eq, Bool.and_eq_true] at h
    obtain ⟨⟨rfl, hc⟩, rfl⟩ := h
    refine ⟨rfl, congrArg some ?_⟩
    rw [← encSrc_of_srcOf hf hs hc (cmpQ hcc), opc_of_toNat ho]
    rfl
  case h_2 => cases h

/-- A word alone, its fields, Q and must-be-zero fields as the operation's encoding has them. -/
theorem Encodes.ofWord {j : Instr} {k : BitVec 2} {d a b c : BitVec 7} {q : BitVec 8} {imm : BitVec 16}
    (ho : f.opc.toNat = n) (hl : f.len = 0) (hk : f.kind = k) (hwf : j.wf = true)
    (henc : encodeFields j = some (encW k (BitVec.ofNat 8 n) d a b c q imm))
    (hd : d = f.d) (ha : a = f.a) (hb : b = f.b) (hc : c = f.c) (hq : q = f.q) (hi : imm = f.imm) : Encodes f .none j := by
  refine ⟨hwf, henc.trans (congrArg (fun g => some (g, Ext.none)) ?_)⟩
  rw [← opc_of_toNat ho, ← hl, ← hk, hd, ha, hb, hc, hq, hi]

theorem Encodes.word {j : Instr} {d a b c : BitVec 7} {q : BitVec 8} {imm : BitVec 16} (ho : f.opc.toNat = n)
    (hf : XForm f .none) (hwf : j.wf = true) (henc : encodeFields j = some (encW 0 (BitVec.ofNat 8 n) d a b c q imm))
    (hd : d = f.d) (ha : a = f.a) (hb : b = f.b) (hc : c = f.c) (hq : q = f.q) (hi : imm = f.imm) : Encodes f .none j := by
  obtain ⟨hl, hk⟩ := hf
  exact .ofWord ho hl hk hwf henc hd ha hb hc hq hi

theorem armUn_encodes {mk : Un → Instr} (ho : f.opc.toNat = n) (hwf : ∀ o, (mk o).wf = true)
    (henc : ∀ o, encodeFields (mk o) = some (encW 0 (BitVec.ofNat 8 n) o.d o.a 0 0 ((itypeCode o.ty).setWidth 8) 0))
    (hf : XForm f e) (h : armUn mk f e = some (true, i)) : Encodes f e i := by
  simp only [armUn, plainT_eq_some, need_eq_some, Option.some.injEq, Prod.mk.injEq, beq_iff_eq, Bool.and_eq_true] at h
  obtain ⟨rfl, hq, ⟨⟨hb, hc⟩, hi⟩, rfl⟩ := h
  exact .word ho hf (hwf _) (henc _) rfl rfl hb.symm hc.symm (typeQ hq) hi.symm

/-- The position and the length of a bit field are written where they were read. -/
theorem encBits_bitField (hz : bitFieldMbz f = true) : encBits (bitField f) = f.imm ∧ f.b = 0 ∧ f.c = 0 := by
  simp only [bitFieldMbz, Bool.and_eq_true, beq_iff_eq] at hz
  obtain ⟨⟨⟨hb, hc⟩, h6⟩, h14⟩ := hz
  refine ⟨?_, hb, hc⟩
  have hparts : f.imm = f.imm.extractLsb' 14 2 ++ f.imm.extractLsb' 8 6 ++ f.imm.extractLsb' 6 2 ++ f.imm.extractLsb' 0 6 := by
    grind
  rw [h6, h14] at hparts
  exact hparts.symm

theorem armExtr_encodes (ho : f.opc.toNat = 0x28) (hf : XForm f e) (h : armExtr f e = some (true, i)) : Encodes f e i := by
  have hsgn : ∀ q : BitVec 8, q.extractLsb' 3 5 = 0 → q.extractLsb' 0 2 = 0 → (if !q.getLsbD 2 then (0 : BitVec 8) else 4) = q := by
    decide
  simp only [armExtr, plainT_eq_some, need_eq_some, Option.some.injEq, Prod.mk.injEq, beq_iff_eq, Bool.and_eq_true] at h
  obtain ⟨rfl, ⟨⟨hq3, hq0⟩, hwf⟩, hz, rfl⟩ := h
  obtain ⟨himm, hb, hc⟩ := encBits_bitField hz
  exact .word ho hf hwf rfl rfl rfl hb.symm hc.symm (hsgn _ hq3 hq0) himm

theorem armInsr_encodes (ho : f.opc.toNat = 0x29) (hf : XForm f e) (h : armInsr f e = some (true, i)) : Encodes f e i := by
  simp only [armInsr, plainT_eq_some, need_eq_some, Option.some.injEq, Prod.mk.injEq, beq_iff_eq, Bool.and_eq_true] at h
  obtain ⟨rfl, ⟨hq, hwf⟩, hz, rfl⟩ := h
  obtain ⟨himm, hb, hc⟩ := encBits_bitField hz
  exact .word ho hf hwf rfl rfl rfl hb.symm hc.symm hq.symm himm

theorem armLi_encodes (ho : f.opc.toNat = 0x30) (hf : XForm f e) (h : armLi f e = some (true, i)) : Encodes f e i := by
  obtain ⟨len, kind, opc, d, a, b, c, q, imm⟩ := f
  have hopc := opc_of_toNat ho
  cases hf with
  | word hl hk | ext _ hl hk =>
    simp only [armLi, need_eq_some, Option.some.injEq, Prod.mk.injEq, beq_iff_eq] at h hl hk hopc
    obtain ⟨rfl, rfl, rfl⟩ := h
    subst hl hk hopc
    refine ⟨rfl, congrArg some ?_⟩
    simp only [Prod.mk.injEq, Fields.mk.injEq, Ext.ext.injEq, true_and, and_true]
    grind
  | lit _ hl hk =>
    simp only [armLi, need_eq_some, Option.some.injEq, Prod.mk.injEq, beq_iff_eq, Bool.and_eq_true] at h hl hk hopc
    obtain ⟨rfl, ⟨⟨⟨rfl, rfl⟩, rfl⟩, rfl⟩, rfl⟩ := h
    subst hl hk hopc
    exact ⟨rfl, rfl⟩

theorem armLea_encodes (ho : f.opc.toNat = 0x40) (hf : XForm f e) (h : armLea f e = some (true, i)) : Encodes f e i := by
  simp only [armLea, need_eq_some, beq_iff_eq] at h
  obtain ⟨hq, h⟩ := h
  split at h
  case h_1 => cases h
  case h_2 ad z had =>
    cases h
    obtain ⟨hwf, henc⟩ := encAddr_of_addrOf hf had
    exact ⟨hwf, by rw [← henc, opc_of_toNat ho, hq]; rfl⟩

/-- An operation of format M whose Q its arm has checked. -/
theorem Encodes.addr {j : Instr} {ad : Addr} (ho : f.opc.toNat = n) (hf : XForm f e) (had : addrOf f e = some (ad, true))
    (hwf : ad.wf = true → j.wf = true)
    (henc : encodeFields j = some (encAddr ad 0 { base 0 (BitVec.ofNat 8 n) with d := f.d, q := f.q })) : Encodes f e j := by
  obtain ⟨hadwf, hadenc⟩ := encAddr_of_addrOf hf had
  exact ⟨hwf hadwf, by rw [henc, ← opc_of_toNat ho, hadenc]⟩

theorem Encodes.m3 {j : Instr} {m : M3} (ho : f.opc.toNat = n) (hf : XForm f e) (hm : m3Of f e = some (m, true))
    (hwf : j.wf = true)
    (henc : encodeFields j = some (encM3 m 0 { base 0 (BitVec.ofNat 8 n) with d := f.d, q := f.q })) : Encodes f e j :=
  ⟨hwf, by rw [henc, ← opc_of_toNat ho, encM3_of_m3Of hf hm]⟩

theorem armMem_encodes {ok : Ord → Bool} {mk : Ord → MemOp → Instr} (ho : f.opc.toNat = n)
    (hwf : ∀ o m, (mk o m).wf = (ok o && m.ad.wf))
    (henc : ∀ o m, encodeFields (mk o m) = some (encMem (BitVec.ofNat 8 n) (memQ o (itypeCode m.ty)) m)) (hf : XForm f e)
    (h : armMem ok mk f e = some (true, i)) : Encodes f e i := by
  unfold armMem at h
  split at h
  case h_1 ad z o had hord =>
    simp only [need_eq_some, Option.some.injEq, Prod.mk.injEq] at h
    obtain ⟨hok, rfl, rfl⟩ := h
    refine .addr ho hf had (fun had => by rw [hwf, hok, had]; rfl) ?_
    rw [henc, itypeCode_itypeOf, memQ_of_ordOf hord]
    rfl
  case h_2 => cases h

theorem armLds_encodes {mk : Scope → MemOp → Instr} (ho : f.opc.toNat = n) (hwf : ∀ sc m, (mk sc m).wf = m.ad.wf)
    (henc : ∀ sc m, encodeFields (mk sc m)
      = some (encMem (BitVec.ofNat 8 n) (scopeCode sc ++ (0 : BitVec 2) ++ itypeCode m.ty) m)) (hf : XForm f e)
    (h : armLds mk f e = some (true, i)) : Encodes f e i := by
  unfold armLds at h
  split at h
  case h_1 ad z sc had hsc =>
    simp only [need_eq_some, Option.some.injEq, Prod.mk.injEq, beq_iff_eq] at h
    obtain ⟨h0, rfl, rfl⟩ := h
    refine .addr ho hf had (fun had => (hwf _ _).trans had) ?_
    rw [henc, scopeQ hsc h0]
    rfl
  case h_2 => cases h

theorem armStf_encodes {mk : MemOp → Instr} (ho : f.opc.toNat = n) (hwf : ∀ m, (mk m).wf = m.ad.wf)
    (henc : ∀ m, encodeFields (mk m) = some (encMem (BitVec.ofNat 8 n) ((itypeCode m.ty).setWidth 8) m)) (hf : XForm f e)
    (h : armStf mk f e = some (true, i)) : Encodes f e i := by
  unfold armStf at h
  split at h
  case h_1 ad z had =>
    simp only [need_eq_some, Option.some.injEq, Prod.mk.injEq, beq_iff_eq] at h
    obtain ⟨h0, rfl, rfl⟩ := h
    refine .addr ho hf had (fun had => (hwf _).trans had) ?_
    rw [henc, typeQ h0]
    rfl
  case h_2 => cases h

theorem armFec_encodes (ho : f.opc.toNat = 0x8B) (hf : XForm f e) (h : armFec f e = some (true, i)) : Encodes f e i := by
  have hbit : ∀ q : BitVec 8, q.extractLsb' 1 7 = 0 → wQ (q.getLsbD 0) = q := by decide
  unfold armFec at h
  split at h
  case h_1 ad z had =>
    simp only [need_eq_some, Option.some.injEq, Prod.mk.injEq, beq_iff_eq] at h
    obtain ⟨h0, rfl, rfl⟩ := h
    exact .addr ho hf had id 
      (congrArg (fun q => some (encAddr ad 0 { base 0 0x8B with d := f.d, q := q })) (hbit f.q h0))
  case h_2 => cases h

theorem armAddr_encodes {mk : Addr → Instr} {z : Bool} (ho : f.opc.toNat = n) (hwf : ∀ ad, (mk ad).wf = ad.wf)
    (henc : z = true → ∀ ad, encodeFields (mk ad) = some (encAddr ad 0 { base 0 (BitVec.ofNat 8 n) with d := f.d, q := 0 }))
    (hf : XForm f e) (h : armAddr f e z mk = some (true, i)) : Encodes f e i := by
  unfold armAddr at h
  split at h
  case h_1 ad za had =>
    simp only [need_eq_some, Option.some.injEq, Prod.mk.injEq, beq_iff_eq, Bool.and_eq_true] at h
    obtain ⟨hq, ⟨rfl, hz⟩, rfl⟩ := h
    exact .addr ho hf had (fun had => (hwf _).trans had) (by rw [henc hz, hq])
  case h_2 => cases h

theorem armCstor_encodes (ho : f.opc.toNat = 0x9A) (hf : XForm f e) (h : armCstor f e = some (true, i)) : Encodes f e i := by
  unfold armCstor at h
  split at h
  case h_1 ad z o had hord =>
    simp only [need_eq_some, Option.some.injEq, Prod.mk.injEq, beq_iff_eq] at h
    obtain ⟨h0, rfl, rfl⟩ := h
    exact .addr ho hf had id (by rw [← memQ_zero_of_ordOf hord h0]; rfl)
  case h_2 => cases h

theorem armVmem_encodes {ok : Ord → Bool} {mk : Ord → VMem → Instr} (ho : f.opc.toNat = n)
    (hwf : ∀ o m, (mk o m).wf = (ok o && m.ad.wf && m.ad.off.aligned8))
    (henc : ∀ o m, encodeFields (mk o m)
      = some (encAddr m.ad m.k { base 0 (BitVec.ofNat 8 n) with d := v7 m.d, q := memQ o 0 })) (hf : XForm f e)
    (h : armVmem ok mk f e = some (true, i)) : Encodes f e i := by
  unfold armVmem at h
  split at h
  case h_1 ad z o had hord =>
    simp only [need_eq_some, Option.some.injEq, Prod.mk.injEq, beq_iff_eq, Bool.and_eq_true] at h
    obtain ⟨⟨hok, h0⟩, ⟨rfl, hv⟩, rfl⟩ := h
    obtain ⟨hoff, hal⟩ := offWith_splitOff ad.off
    refine .addr ho hf had (fun had => ?_) ?_
    · rw [hwf, hok, hal]
      exact congrArg (· && true) had
    · rw [henc, v7_vReg hv, memQ_zero_of_ordOf hord h0]
      unfold encAddr
      rw [encOff_offWith, hoff]
  case h_2 => cases h

theorem armVdesc_encodes {ok : Ord → Bool} {mk : Ord → VReg → MReg → M3 → Instr} (ho : f.opc.toNat = n)
    (hwf : ∀ o d k m, (mk o d k m).wf = (ok o && m.off.aligned8))
    (henc : ∀ o d k m, encodeFields (mk o d k m)
      = some (encM3 m k { base 0 (BitVec.ofNat 8 n) with d := v7 d, q := memQ o 0 })) (hf : XForm f e)
    (h : armVdesc ok mk f e = some (true, i)) : Encodes f e i := by
  unfold armVdesc at h
  split at h
  case h_1 m z o hm hord =>
    simp only [need_eq_some, Option.some.injEq, Prod.mk.injEq, beq_iff_eq, Bool.and_eq_true] at h
    obtain ⟨⟨hok, h0⟩, ⟨rfl, hv⟩, rfl⟩ := h
    obtain ⟨hoff, hal⟩ := offWith_splitOff m.off
    refine .m3 ho hf hm (by rw [hwf, hok, hal]; rfl) ?_
    rw [henc, v7_vReg hv, memQ_zero_of_ordOf hord h0]
    unfold encM3
    rw [encOff_offWith, hoff]
  case h_2 => cases h

theorem armAmo_encodes {mk : IType → Ord → GReg → M3 → Instr} (ho : f.opc.toNat = n)
    (hwf : ∀ t o d m, (mk t o d m).wf = t.isAmo)
    (henc : ∀ t o d m, encodeFields (mk t o d m)
      = some (encM3 m 0 { base 0 (BitVec.ofNat 8 n) with d := d, q := memQ o (itypeCode t) })) (hf : XForm f e)
    (h : armAmo mk f e = some (true, i)) : Encodes f e i := by
  unfold armAmo at h
  split at h
  case h_1 m z o hm hord =>
    simp only [need_eq_some, Option.some.injEq, Prod.mk.injEq] at h
    obtain ⟨hamo, rfl, rfl⟩ := h
    exact .m3 ho hf hm ((hwf _ _ _ _).trans hamo) (by rw [henc, itypeCode_itypeOf, memQ_of_ordOf hord])
  case h_2 => cases h

theorem armFadd_encodes (ho : f.opc.toNat = 0x97) (hf : XForm f e) (h : armFadd f e = some (true, i)) : Encodes f e i := by
  unfold armFadd at h
  split at h
  case h_1 m z o hm hord =>
    simp only [need_eq_some, Option.some.injEq, Prod.mk.injEq, beq_iff_eq] at h
    obtain ⟨h1, rfl, rfl⟩ := h
    exact .m3 ho hf hm rfl (by rw [← memQ_of_ordOf hord, h1]; rfl)
  case h_2 => cases h

theorem armBarmax_encodes (ho : f.opc.toNat = 0xC6) (hf : XForm f e) (h : armBarmax f e = some (true, i)) :
    Encodes f e i := by
  unfold armBarmax at h
  split at h
  case h_1 m z hm =>
    simp only [need_eq_some, Option.some.injEq, Prod.mk.injEq, beq_iff_eq] at h
    obtain ⟨hq, rfl, rfl⟩ := h
    exact .m3 ho hf hm rfl (by rw [hq]; rfl)
  case h_2 => cases h

theorem armFence_encodes (ho : f.opc.toNat = 0x9C) (hf : XForm f e) (h : armFence f e = some (true, i)) : Encodes f e i := by
  simp only [armFence, plainT_eq_some, need_eq_some, beq_iff_eq] at h
  obtain ⟨rfl, h0, h⟩ := h
  split at h
  case h_1 sc hsc hk | h_2 sc hsc hk | h_3 sc hsc hk =>
    simp only [Option.some.injEq, Prod.mk.injEq, beq_iff_eq, Bool.and_eq_true] at h
    obtain ⟨⟨⟨⟨⟨hd, ha⟩, hb⟩, hc⟩, hi⟩, rfl⟩ := h
    refine .word ho hf rfl rfl hd.symm ha.symm hb.symm hc.symm ?_ hi.symm
    have hparts : f.q = f.q.extractLsb' 5 3 ++ f.q.extractLsb' 3 2 ++ f.q.extractLsb' 0 3 := by grind
    rw [hparts, h0, scopeCode_of_scopeOf hsc, (BitVec.toNat_eq_nat.mp hk).2]
    rfl
  case h_4 => cases h

theorem armNop_encodes (ho : f.opc.toNat = 0xE6) (hf : XForm f e) (h : armNop f e = some (true, i)) : Encodes f e i := by
  cases hf with
  | word hl hk =>
    simp only [armNop, need_eq_some, Option.some.injEq, Prod.mk.injEq, beq_iff_eq, Bool.and_eq_true] at h
    obtain ⟨hq, ⟨⟨⟨⟨hd, ha⟩, hb⟩, hc⟩, hi⟩, rfl⟩ := h
    exact .word ho (.word hl hk) rfl rfl hd.symm ha.symm hb.symm hc.symm hq.symm hi.symm
  | ext v hl hk =>
    simp only [armNop, need_eq_some, Option.some.injEq, Prod.mk.injEq, beq_iff_eq, Bool.and_eq_true] at h
    obtain ⟨hq, ⟨⟨⟨hd, ha⟩, hb⟩, hc⟩, rfl⟩ := h
    refine ⟨rfl, ?_⟩
    obtain ⟨len, kind, opc, d, a, b, c, q, imm⟩ := f
    have hopc := opc_of_toNat ho
    simp only at hl hk hq hd ha hb hc hopc
    subst hl hk hq hd ha hb hc hopc
    rfl
  | lit => cases h

/-- An operation of format T alone: its must-be-zero fields give its encoding. -/
theorem armT_encodes {z : Bool} {j : Instr} (ho : f.opc.toNat = n)
    (hj : z = true → j.wf = true ∧ encodeFields j = some (encW 0 (BitVec.ofNat 8 n) f.d f.a f.b f.c 0 f.imm)) (hf : XForm f e)
    (h : armT f e z j = some (true, i)) : Encodes f e i := by
  simp only [armT, plainT_eq_some, need_eq_some, Option.some.injEq, Prod.mk.injEq, beq_iff_eq] at h
  obtain ⟨rfl, hq, rfl, rfl⟩ := h
  obtain ⟨hwf, henc⟩ := hj rfl
  exact .word ho hf hwf henc rfl rfl rfl rfl hq.symm rfl

theorem imm_of_hi8 (h : hi8 f = 0) : (f.imm.extractLsb' 0 8).setWidth 16 = f.imm := setWidth_low (by decide) h
theorem imm_of_hi11 (h : hi11 f = 0) : (f.imm.extractLsb' 0 5).setWidth 16 = f.imm := setWidth_low (by decide) h
theorem imm_of_hi12 (h : hi12 f = 0) : (f.imm.extractLsb' 0 4).setWidth 16 = f.imm := setWidth_low (by decide) h

/-- A branch: its offset stands in four fields (R296). -/
theorem Encodes.branch {j : Instr} {q : BitVec 8} {a : GReg} (ho : f.opc.toNat = n) (hb : isFormatB f.opc = true)
    (hf : XForm f e) (hwf : j.wf = true) (henc : encodeFields j = some (encB (BitVec.ofNat 8 n) a q (offOf f))) (ha : a = f.a)
    (hq : q = f.q) : Encodes f e j := by
  cases hf with
  | ext _ _ _ hn | lit _ _ _ hn => rw [hb] at hn; cases hn
  | word hl hk =>
    refine .word ho (.word hl hk) hwf henc ?_ ha ?_ ?_ hq ?_ <;> unfold offOf <;> grind

theorem armB_encodes {z : Bool} {j : Instr} {a : GReg} (ho : f.opc.toNat = n) (hb : isFormatB f.opc = true) (hf : XForm f e)
    (hj : z = true → j.wf = true ∧ a = f.a) (henc : encodeFields j = some (encB (BitVec.ofNat 8 n) a 0 (offOf f)))
    (h : armB f z j = some (true, i)) : Encodes f e i := by
  simp only [armB, need_eq_some, Option.some.injEq, Prod.mk.injEq, beq_iff_eq] at h
  obtain ⟨hq, rfl, rfl⟩ := h
  obtain ⟨hwf, ha⟩ := hj rfl
  exact .branch ho hb hf hwf henc ha hq.symm

theorem armBrcc_encodes (ho : f.opc.toNat = 0x60) (hf : XForm f e) (h : armBrcc f = some (true, i)) : Encodes f e i := by
  unfold armBrcc at h
  split at h
  case h_1 => cases h
  case h_2 cc hcc =>
    simp only [need_eq_some, Option.some.injEq, Prod.mk.injEq, beq_iff_eq, true_and] at h
    obtain ⟨h0, rfl⟩ := h
    refine .branch ho (by rw [opc_of_toNat ho]; rfl) hf rfl rfl rfl ?_
    rw [condCode_of_condOf hcc]
    exact setWidth_low (by decide) h0

theorem armLoop_encodes (ho : f.opc.toNat = 0x69) (hf : XForm f e) (h : armLoop f = some (true, i)) : Encodes f e i := by
  simp only [armLoop, need_eq_some] at h
  obtain ⟨ha, h⟩ := h
  exact armB_encodes (a := f.a) (j := .loop f.a (offOf f)) ho (by rw [opc_of_toNat ho]; rfl) hf (fun _ => ⟨ha, rfl⟩) rfl h

end Accepted

/-- What the decoder of X-ops accepts is well-formed and encodes back to its word. -/
theorem decodeX_encodes {f : Fields} {e : Ext} {i : Instr} (hf : XForm f e) (h : decodeX f e = some (true, i)) :
    Encodes f e i := by
  unfold decodeX at h
  split at h
  case h_1 ho | h_2 ho | h_3 ho | h_4 ho | h_5 ho | h_6 ho | h_7 ho | h_8 ho | h_9 ho | h_10 ho | h_11 ho | h_12 ho
      | h_13 ho | h_14 ho | h_15 ho | h_16 ho | h_17 ho =>
    exact armAlu_encodes ho (fun _ => rfl) (fun _ => rfl) hf h
  case h_18 ho | h_19 ho | h_20 ho | h_21 ho => exact armUn_encodes ho (fun _ => rfl) (fun _ => rfl) hf h
  case h_22 ho => exact armExtr_encodes ho hf h
  case h_23 ho => exact armInsr_encodes ho hf h
  case h_24 ho => exact armLi_encodes ho hf h
  case h_25 ho => exact armLea_encodes ho hf h
  case h_26 ho => exact armCmp_encodes ho hf h
  case h_28 ho => exact armBrcc_encodes ho hf h
  case h_29 ho | h_30 ho | h_32 ho =>
    exact armB_encodes ho (by rw [opc_of_toNat ho]; rfl) hf (fun _ => ⟨rfl, rfl⟩) rfl h
  case h_31 ho =>
    exact armB_encodes ho (by rw [opc_of_toNat ho]; rfl) hf (fun hz => ⟨rfl, (beq_iff_eq.mp hz).symm⟩) rfl h
  case h_34 ho => exact armLoop_encodes ho hf h
  case h_35 ho =>
    exact armB_encodes ho (by rw [opc_of_toNat ho]; rfl) hf (fun hz => ⟨rfl, s7_sReg hz⟩) rfl h
  case h_36 ho | h_37 ho => exact armMem_encodes ho (fun _ _ => rfl) (fun _ _ => rfl) hf h
  case h_38 ho | h_39 ho => exact armVmem_encodes ho (fun _ _ => rfl) (fun _ _ => rfl) hf h
  case h_40 ho | h_41 ho => exact armVdesc_encodes ho (fun _ _ _ _ => rfl) (fun _ _ _ _ => rfl) hf h
  case h_42 ho | h_43 ho => exact armLds_encodes ho (fun _ _ => rfl) (fun _ _ => rfl) hf h
  case h_44 ho | h_60 ho | h_61 ho | h_62 ho | h_63 ho => exact armStf_encodes ho (fun _ => rfl) (fun _ => rfl) hf h
  case h_45 ho => exact armFec_encodes ho hf h
  case h_46 ho =>
    exact armAddr_encodes ho (fun _ => rfl) (fun hz _ => by rw [beq_iff_eq.mp hz]; rfl) hf h
  case h_48 ho | h_49 ho | h_50 ho | h_51 ho | h_52 ho | h_53 ho | h_54 ho | h_56 ho =>
    exact armAmo_encodes ho (fun _ _ _ _ => rfl) (fun _ _ _ _ => rfl) hf h
  case h_55 ho => exact armFadd_encodes ho hf h
  case h_57 ho | h_67 ho | h_68 ho => exact armAddr_encodes ho (fun _ => rfl) (fun _ _ => rfl) hf h
  case h_58 ho => exact armCstor_encodes ho hf h
  case h_59 ho => exact armFence_encodes ho hf h
  case h_69 ho => exact armBarmax_encodes ho hf h
  case h_81 ho => exact armNop_encodes ho hf h
  case h_27 ho | h_33 ho | h_47 ho | h_64 ho | h_65 ho | h_66 ho | h_70 ho | h_71 ho | h_72 ho | h_73 ho | h_74 ho
      | h_75 ho | h_76 ho | h_77 ho | h_78 ho | h_79 ho | h_80 ho | h_82 ho | h_83 ho | h_84 ho | h_85 ho =>
    refine armT_encodes ho (fun hz => ⟨rfl, ?_⟩) hf h
    simp only [Bool.and_eq_true, beq_iff_eq] at hz
    simp [encodeFields, encW, base, hz, v7_vReg, imm_of_hi8, imm_of_hi11, imm_of_hi12]
  case h_86 => cases h

end Sys2Proof
end

section
/-!
SUPPORT. The arms of the V-ops and the E-ops: what each accepts encodes back to its word (R297, R303, R306, R307, R360).
-/

namespace Sys2Proof

section Accepted
variable {f : Fields} {i : Instr} {n : Nat}

/-! ## V-ops (R306, R360) -/

theorem vQ_eq_some {t : VType} {r : Rnd} : vQ f = some (t, r) ↔
    vtypeOf (f.q.extractLsb' 0 4) = some t ∧ rndOf (f.q.extractLsb' 4 3) = some r := by
  unfold vQ
  split <;> simp_all

/-- Q of a V-op that rounds, and of one that does not. -/
theorem vQual_of_vQ {t : VType} {r : Rnd} (h : vQ f = some (t, r)) : vQual t r (q7 f) = f.q := by
  obtain ⟨ht, hr⟩ := vQ_eq_some.mp h
  exact vQual_of ht (rndCode_of_rndOf hr)

theorem vQual_of_noRnd {t : VType} (ht : vtypeOf (f.q.extractLsb' 0 4) = some t) (h : noRnd f = true) :
    vQual t .cur (q7 f) = f.q :=
  vQual_of ht (beq_iff_eq.mp h).symm

/-- The immediate of a V-op without VIMM, with its IMM8 zero and with any. -/
theorem vImm_of_gap (hg : vGap f = true) (hv : vImmBit f = false) : vImm (imm8 f) false (vMask f) = f.imm := by
  rw [← vImm_of (beq_iff_eq.mp hg)]
  exact congrArg (fun b => vImm (imm8 f) b (vMask f)) hv.symm

theorem vImm_of_plain (h : vPlain f = true) (hv : vImmBit f = false) : vImm 0 false (vMask f) = f.imm := by
  simp only [vPlain, Bool.and_eq_true, beq_iff_eq] at h
  obtain ⟨hg, h0⟩ := h
  rw [← h0, vImm_of_gap hg hv]

theorem vImm_of_bit (hg : vGap f = true) (hv : vImmBit f = true) : vImm (imm8 f) true (vMask f) = f.imm := by
  rw [← vImm_of (beq_iff_eq.mp hg)]
  exact congrArg (fun b => vImm (imm8 f) b (vMask f)) hv.symm

/-- The scalar or lane operand in the place of B, or IMM8 (R379). -/
theorem encLane_gsrcOf {t : VType} (hg : vGap f = true) (hb : gsrcMbz f = true)
    (hq : vQual t .cur false = f.q) : encLane (BitVec.ofNat 8 n) t f.d f.a (gsrcOf f) (vMask f)
      = encW 1 (BitVec.ofNat 8 n) f.d f.a f.b 0 f.q f.imm := by
  cases hv : vImmBit f <;> simp only [gsrcMbz, gsrcOf, hv, beq_iff_eq, if_true, if_false, Bool.false_eq_true] at hb ⊢
  case false => simp only [encLane, hq, ← vImm_of_gap hg hv, hb]
  case true => simp only [encLane, hq, ← vImm_of_bit hg hv, hb]

section Word
variable (ho : f.opc.toNat = n) (hl : f.len = 0) (hk : f.kind = 1)
include ho hl hk

theorem armVBin_encodes {ok : VType → Rnd → Bool} {mk : VBin → Instr} (hv : vImmBit f = false)
    (hwf : ∀ o, (mk o).wf = ok o.ty o.rnd) (henc : ∀ o, encodeFields (mk o) = some (encVBin (BitVec.ofNat 8 n) o))
    (h : armVBin ok mk f = some (true, i)) : Encodes f .none i := by
  unfold armVBin at h
  split at h
  case h_1 t r hq =>
    simp only [need_eq_some, Option.some.injEq, Prod.mk.injEq, beq_iff_eq, Bool.and_eq_true, Bool.not_eq_true'] at h
    obtain ⟨⟨hok, h7⟩, ⟨⟨⟨⟨hp, hc⟩, hd⟩, ha⟩, hb⟩, rfl⟩ := h
    exact .ofWord ho hl hk ((hwf _).trans hok) (henc _) (v7_vReg hd) (v7_vReg ha) (v7_vReg hb) hc.symm
      (h7 ▸ vQual_of_vQ hq) (vImm_of_plain hp hv)
  case h_2 => cases h

theorem armVUn_encodes {ok : VType → Rnd → Bool} {mk : VUn → Instr} (hv : vImmBit f = false)
    (hwf : ∀ o, (mk o).wf = ok o.ty o.rnd) (henc : ∀ o, encodeFields (mk o) = some (encVUn (BitVec.ofNat 8 n) o))
    (h : armVUn ok mk f = some (true, i)) : Encodes f .none i := by
  unfold armVUn at h
  split at h
  case h_1 t r hq =>
    simp only [need_eq_some, Option.some.injEq, Prod.mk.injEq, beq_iff_eq, Bool.and_eq_true, Bool.not_eq_true'] at h
    obtain ⟨⟨hok, h7⟩, ⟨⟨⟨⟨hp, hb⟩, hc⟩, hd⟩, ha⟩, rfl⟩ := h
    exact .ofWord ho hl hk ((hwf _).trans hok) (henc _) (v7_vReg hd) (v7_vReg ha) hb.symm hc.symm
      (h7 ▸ vQual_of_vQ hq) (vImm_of_plain hp hv)
  case h_2 => cases h

theorem armVInt_encodes {satOk : Bool} {mk : VInt → Instr} (hwf : ∀ o, (mk o).wf = (o.ty.isInt && (satOk || !o.sat)))
    (henc : ∀ o, encodeFields (mk o) = some (encVInt (BitVec.ofNat 8 n) o)) (h : armVInt satOk mk f = some (true, i)) :
    Encodes f .none i := by
  unfold armVInt at h
  split at h
  case h_1 t ht =>
    simp only [need_eq_some, Bool.and_eq_true] at h
    obtain ⟨⟨⟨hty, hr⟩, hs⟩, h⟩ := h
    have hwf := fun src => (hwf ⟨t, q7 f, vReg f.d, vReg f.a, src, vMask f⟩).trans (by rw [hty, hs, Bool.and_self])
    split at h
    case isTrue hv =>
      simp only [Option.some.injEq, Prod.mk.injEq, beq_iff_eq, Bool.and_eq_true] at h
      obtain ⟨⟨⟨⟨⟨hg, hb⟩, hc⟩, hd⟩, ha⟩, rfl⟩ := h
      exact .ofWord ho hl hk (hwf _) (henc _) (v7_vReg hd) (v7_vReg ha) hb.symm hc.symm
        (vQual_of_noRnd ht hr) (vImm_of_bit hg hv)
    case isFalse hv =>
      simp only [Option.some.injEq, Prod.mk.injEq, beq_iff_eq, Bool.and_eq_true] at h
      obtain ⟨⟨⟨⟨⟨hp, hc⟩, hd⟩, ha⟩, hb⟩, rfl⟩ := h
      exact .ofWord ho hl hk (hwf _) (henc _) (v7_vReg hd) (v7_vReg ha) (v7_vReg hb) hc.symm
        (vQual_of_noRnd ht hr) (vImm_of_plain hp (eq_false_of_ne_true hv))
  case h_2 => cases h

theorem armVCmp_encodes {ok : VType → Cond → Bool} {mk : VCmp → Instr} (hv : vImmBit f = false)
    (hwf : ∀ o, (mk o).wf = ok o.ty o.cc) (henc : ∀ o, encodeFields (mk o) = some (encVCmp (BitVec.ofNat 8 n) o))
    (h : armVCmp ok mk f = some (true, i)) : Encodes f .none i := by
  unfold armVCmp at h
  split at h
  case h_1 t cc ht hcc =>
    simp only [need_eq_some, Option.some.injEq, Prod.mk.injEq, beq_iff_eq, Bool.and_eq_true, Bool.not_eq_true'] at h
    obtain ⟨⟨⟨hok, hr⟩, h7⟩, ⟨⟨⟨⟨⟨hg, h4⟩, hc⟩, hd⟩, ha⟩, hb⟩, rfl⟩ := h
    have himm : (0 : BitVec 4) ++ condCode cc = imm8 f := by
      rw [condCode_of_condOf hcc, ← h4]
      grind
    exact .ofWord ho hl hk ((hwf _).trans hok) (henc _) (m7_mReg hd) (v7_vReg ha) (v7_vReg hb) hc.symm
      (h7 ▸ vQual_of_noRnd ht hr) (by rw [himm, vImm_of_gap hg hv])
  case h_2 => cases h

theorem armVConv_encodes {ok : VType → VType → Bool} {nsatOk : Bool} {mk : VConv → Instr} (hv : vImmBit f = false)
    (hwf : ∀ o, (mk o).wf = (ok o.ty o.src && (nsatOk || !o.nsat) && o.groupOk))
    (henc : ∀ o, encodeFields (mk o) = some (encVConv (BitVec.ofNat 8 n) o)) (h : armVConv ok nsatOk mk f = some (true, i)) :
    Encodes f .none i := by
  unfold armVConv at h
  split at h
  case h_1 t r s hq hs =>
    simp only [need_eq_some, Option.some.injEq, Prod.mk.injEq, beq_iff_eq, Bool.and_eq_true, Bool.not_eq_true'] at h
    obtain ⟨⟨hok, hn⟩, ⟨⟨⟨⟨⟨⟨hg, h7⟩, hgrp⟩, hb⟩, hc⟩, hd⟩, ha⟩, rfl⟩ := h
    have himm : (0 : BitVec 1) ++ (imm8 f).extractLsb' 4 3 ++ vtypeCode s = imm8 f := by
      rw [vtypeCode_of_vtypeOf hs, show (0 : BitVec 1) = BitVec.ofBool ((imm8 f).getLsbD 7) by rw [h7]; rfl]
      grind
    exact .ofWord ho hl hk ((hwf _).trans (by rw [hok, hn, hgrp]; rfl)) (henc _) (v7_vReg hd) (v7_vReg ha) hb.symm hc.symm
      (vQual_of_vQ hq) (by rw [himm, vImm_of_gap hg hv])
  case h_2 => cases h

theorem armVBlk_encodes {nsatOk : Bool} {mk : VBlk → Instr} (hv : vImmBit f = false)
    (hwf : ∀ o, (mk o).wf = (o.ty.isBlk && (nsatOk || !o.nsat)))
    (henc : ∀ o, encodeFields (mk o) = some (encVBlk (BitVec.ofNat 8 n) o)) (h : armVBlk nsatOk mk f = some (true, i)) :
    Encodes f .none i := by
  unfold armVBlk at h
  split at h
  case h_1 t r hq =>
    simp only [need_eq_some, Option.some.injEq, Prod.mk.injEq, Bool.and_eq_true] at h
    obtain ⟨⟨hty, hn⟩, ⟨⟨hp, hd⟩, ha⟩, rfl⟩ := h
    exact .ofWord ho hl hk ((hwf _).trans (by rw [hty, hn]; rfl)) (henc _) (v7_vReg hd) (v7_vReg ha) rfl rfl
      (vQual_of_vQ hq) (vImm_of_plain hp hv)
  case h_2 => cases h

/-- A V-op without rounding: its must-be-zero fields give the word's registers and immediate. -/
theorem armV_encodes {ok satOk : VType → Bool} {z : Bool} {mk : VType → Bool → Instr} {d a b c : BitVec 7} {imm : BitVec 16}
    (h : armV ok satOk f z mk = some (true, i)) (hwf : ∀ t s, ok t = true → (satOk t || !s) = true → (mk t s).wf = true)
    (henc : ∀ t s, (satOk t || !s) = true
      → encodeFields (mk t s) = some (encW 1 (BitVec.ofNat 8 n) d a b c (vQual t .cur s) imm))
    (hz : vGap f = true → z = true → d = f.d ∧ a = f.a ∧ b = f.b ∧ c = f.c ∧ imm = f.imm) : Encodes f .none i := by
  unfold armV at h
  split at h
  case h_1 t ht =>
    simp only [need_eq_some, Option.some.injEq, Prod.mk.injEq, Bool.and_eq_true] at h
    obtain ⟨⟨⟨hok, hr⟩, hs⟩, ⟨hg, hz'⟩, rfl⟩ := h
    obtain ⟨hd, ha, hb, hc, hi⟩ := hz hg hz'
    exact .ofWord ho hl hk (hwf _ _ hok hs) (henc _ _ hs) hd ha hb hc (vQual_of_noRnd ht hr) hi
  case h_2 => cases h

theorem armLane_encodes {z : Bool} {mk : VType → GSrc → Instr} {d a : BitVec 7}
    (hwf : ∀ t s, (mk t s).wf = (t.isMove && s.indexOk t))
    (henc : ∀ t s, encodeFields (mk t s) = some (encLane (BitVec.ofNat 8 n) t d a s (vMask f)))
    (hz : z = true → d = f.d ∧ a = f.a ∧ f.c = 0) (h : armLane f z mk = some (true, i)) : Encodes f .none i := by
  unfold armLane at h
  split at h
  case h_1 t ht =>
    simp only [need_eq_some, Option.some.injEq, Prod.mk.injEq, Bool.and_eq_true, Bool.not_eq_true'] at h
    obtain ⟨⟨⟨hty, hr⟩, h7⟩, ⟨⟨⟨hg, hz'⟩, hb⟩, hidx⟩, rfl⟩ := h
    obtain ⟨hd, ha, hc⟩ := hz hz'
    have hlane := encLane_gsrcOf (n := n) (t := t) hg hb (h7 ▸ vQual_of_noRnd ht hr)
    exact .ofWord ho hl hk ((hwf _ _).trans (by rw [hty, hidx]; rfl)) (by rw [henc, hd, ha, hlane]) rfl rfl rfl hc.symm rfl rfl
  case h_2 => cases h

end Word

theorem armBcast_encodes (ho : f.opc.toNat = 0xC1) (hl : f.len = 0) (hk : f.kind = 1) (h : armBcast f = some (true, i)) :
    Encodes f .none i := by
  unfold armBcast at h
  split at h
  case h_1 t ht =>
    simp only [need_eq_some, Option.some.injEq, Prod.mk.injEq, Bool.and_eq_true, Bool.not_eq_true', beq_iff_eq] at h
    obtain ⟨⟨⟨hty, hr⟩, h7⟩, ⟨⟨⟨⟨hg, hb⟩, ha⟩, hc⟩, hd⟩, rfl⟩ := h
    have hlane := encLane_gsrcOf (n := 0xC1) (t := t) hg hb (h7 ▸ vQual_of_noRnd ht hr)
    refine .ofWord ho hl hk hty (congrArg some ?_) rfl rfl rfl hc.symm rfl rfl
    rw [← hlane, v7_vReg hd, ha]
    rfl
  case h_2 => cases h

theorem armMask_encodes {z : Bool} {j : Instr} (ho : f.opc.toNat = n) (hl : f.len = 0) (hk : f.kind = 1)
    (hj : z = true → j.wf = true ∧ encodeFields j = some (encW 1 (BitVec.ofNat 8 n) f.d f.a f.b f.c 0 0))
    (h : armMask f z j = some (true, i)) : Encodes f .none i := by
  simp only [armMask, need_eq_some, Option.some.injEq, Prod.mk.injEq, beq_iff_eq, Bool.and_eq_true] at h
  obtain ⟨hq, ⟨hz, hi⟩, rfl⟩ := h
  obtain ⟨hwf, henc⟩ := hj hz
  exact .ofWord ho hl hk hwf henc rfl rfl rfl rfl hq.symm hi.symm

theorem armRnd_encodes {z : Bool} {j : Instr} (ho : f.opc.toNat = n) (hl : f.len = 0) (hk : f.kind = 1)
    (hv : vImmBit f = false)
    (hj : z = true → j.wf = true ∧ encodeFields j = some (encW 1 (BitVec.ofNat 8 n) f.d f.a f.b f.c 0 (vImm 0 false (vMask f))))
    (h : armRnd f z j = some (true, i)) : Encodes f .none i := by
  simp only [armRnd, need_eq_some, Option.some.injEq, Prod.mk.injEq, beq_iff_eq, Bool.and_eq_true] at h
  obtain ⟨hq, ⟨hz, hp⟩, rfl⟩ := h
  obtain ⟨hwf, henc⟩ := hj hz
  exact .ofWord ho hl hk hwf henc rfl rfl rfl rfl hq.symm (vImm_of_plain hp hv)

theorem takesVImm_of_opc (ho : f.opc.toNat = n) : takesVImm f = takesVImm (base 1 (BitVec.ofNat 8 n)) := by
  unfold takesVImm
  rw [opc_of_toNat ho]
  rfl

/-- Q[7] of an operation that takes no .sat. -/
theorem never_sat {t : VType} {s : Bool} (h : (never t || !s) = true) : s = false := by simpa [never] using h

theorem vImm_of_zero (hg : vGap f = true) (hv : vImmBit f = false) (h0 : imm8 f = 0) :
    vImm 0#8 false (vMask f) = f.imm := by
  rw [← vImm_of_gap hg hv, h0]
  rfl

end Accepted

/-- What the decoder of V-ops accepts, VIMM standing only where the operation takes it, is well-formed and encodes back to its
word. -/
theorem decodeVOp_encodes {f : Fields} {i : Instr} (hl : f.len = 0) (hk : f.kind = 1)
    (hv : (takesVImm f || !vImmBit f) = true) (h : decodeVOp f = some (true, i)) : Encodes f .none i := by
  have hv : ∀ {n}, f.opc.toNat = n → takesVImm (base 1 (BitVec.ofNat 8 n)) = false → vImmBit f = false := fun ho ht => by
    rw [takesVImm_of_opc ho, ht] at hv
    exact Bool.not_eq_true' _ ▸ hv
  unfold decodeVOp at h
  split at h
  case h_1 ho | h_2 ho | h_3 ho | h_4 ho | h_5 ho | h_6 ho | h_8 ho | h_9 ho | h_12 ho =>
    exact armVBin_encodes ho hl hk (hv ho rfl) (fun _ => rfl) (fun _ => rfl) h
  case h_7 ho | h_10 ho | h_11 ho | h_37 ho | h_38 ho | h_39 ho | h_40 ho | h_41 ho | h_42 ho | h_43 ho =>
    exact armVUn_encodes ho hl hk (hv ho rfl) (fun _ => rfl) (fun _ => rfl) h
  case h_13 ho | h_29 ho => exact armVCmp_encodes ho hl hk (hv ho rfl) (fun _ => rfl) (fun _ => rfl) h
  case h_14 ho | h_15 ho | h_16 ho => exact armVInt_encodes ho hl hk (fun _ => (Bool.and_true _).symm) (fun _ => rfl) h
  case h_17 ho | h_18 ho | h_19 ho | h_20 ho | h_21 ho | h_22 ho | h_23 ho | h_24 ho | h_25 ho | h_26 ho | h_27 ho =>
    exact armVInt_encodes ho hl hk (fun _ => rfl) (fun _ => rfl) h
  case h_30 ho =>
    exact armVConv_encodes ho hl hk (hv ho rfl) (fun _ => by simp [Instr.wf]) (fun _ => rfl) h
  case h_33 ho | h_34 ho =>
    exact armVConv_encodes ho hl hk (hv ho rfl) (fun _ => rfl) (fun _ => rfl) h
  case h_31 ho => exact armVBlk_encodes ho hl hk (hv ho rfl) (fun _ => (Bool.and_true _).symm) (fun _ => rfl) h
  case h_32 ho => exact armVBlk_encodes ho hl hk (hv ho rfl) (fun _ => rfl) (fun _ => rfl) h
  case h_48 ho => exact armBcast_encodes ho hl hk h
  case h_49 ho | h_50 ho | h_51 ho =>
    refine armLane_encodes ho hl hk (fun _ _ => rfl) (fun _ _ => rfl) (fun hz => ?_) h
    simp only [Bool.and_eq_true, beq_iff_eq] at hz
    simp [hz, v7_vReg]
  case h_28 ho | h_35 ho =>
    refine armV_encodes ho hl hk h (fun _ _ ht _ => ht) (fun _ _ _ => rfl) (fun hg hz => ?_)
    simp only [Bool.and_eq_true, beq_iff_eq] at hz
    simp [hz, v7_vReg, vImm_of_zero hg (hv ho rfl)]
  case h_52 ho | h_65 ho =>
    refine armV_encodes ho hl hk h (fun _ _ ht hs => ?_) (fun _ _ _ => rfl) (fun hg hz => ?_)
    · rw [Bool.or_comm] at hs
      exact Bool.and_eq_true_iff.mpr ⟨ht, hs⟩
    · simp only [Bool.and_eq_true, beq_iff_eq] at hz
      simp [hz, v7_vReg, vImm_of_zero hg (hv ho rfl)]
  case h_45 ho | h_47 ho | h_53 ho | h_54 ho | h_55 ho | h_56 ho | h_57 ho | h_58 ho | h_59 ho =>
    refine armV_encodes ho hl hk h (fun _ _ ht _ => ht) (fun _ _ hs => by rw [never_sat hs]; rfl) (fun hg hz => ?_)
    simp only [Bool.and_eq_true, beq_iff_eq] at hz
    simp [hz, v7_vReg, vImm_of_zero hg (hv ho rfl)]
  case h_36 ho =>
    have hbit : ∀ v : BitVec 8, v.extractLsb' 1 7 = 0 → (if v.getLsbD 0 then (1 : BitVec 8) else 0) = v := by decide
    refine armV_encodes ho hl hk h (fun _ _ ht _ => ht) (fun _ _ hs => by rw [never_sat hs]; rfl) (fun hg hz => ?_)
    simp only [Bool.and_eq_true, beq_iff_eq] at hz
    obtain ⟨⟨⟨⟨h0, hb⟩, hc⟩, hd⟩, ha⟩ := hz
    exact ⟨v7_vReg hd, v7_vReg ha, hb.symm, hc.symm, by rw [hbit _ h0, vImm_of_gap hg (hv ho rfl)]⟩
  case h_44 ho | h_46 ho =>
    refine armRnd_encodes ho hl hk (hv ho rfl) (fun hz => ⟨rfl, ?_⟩) h
    simp only [Bool.and_eq_true, beq_iff_eq] at hz
    simp [encodeFields, hz, v7_vReg]
  case h_60 ho | h_61 ho | h_62 ho | h_63 ho | h_64 ho =>
    refine armMask_encodes ho hl hk (fun hz => ⟨rfl, ?_⟩) h
    simp only [Bool.and_eq_true, beq_iff_eq] at hz
    simp [encodeFields, hz, m7_mReg]
  case h_66 => cases h

theorem decodeV_encodes {f : Fields} {i : Instr} (hl : f.len = 0) (hk : f.kind = 1) (h : decodeV f = some (true, i)) :
    Encodes f .none i := by
  rw [decodeV, need_eq_some] at h
  obtain ⟨hv, h⟩ := h
  exact decodeVOp_encodes hl hk hv h

/-! ## E-ops (R303, R307) -/

/-- Q of an E-op that takes neither .w nor .int, one that takes .w, and one that takes .int. -/
theorem eQ_zero {q : BitVec 8} (h : ((false || !q.getLsbD 0) && (false || !q.getLsbD 1) && q.extractLsb' 2 6 == 0) = true) :
    0 = q := by revert q; decide
theorem eQ_w {q : BitVec 8} (h : ((true || !q.getLsbD 0) && (false || !q.getLsbD 1) && q.extractLsb' 2 6 == 0) = true) :
    wQ (q.getLsbD 0) = q := by revert q; decide
theorem eQ_int {q : BitVec 8} (h : ((false || !q.getLsbD 0) && (true || !q.getLsbD 1) && q.extractLsb' 2 6 == 0) = true) :
    (if q.getLsbD 1 then 2 else 0) = q := by revert q; decide

/-- IMM16 of SPOS: bit 0 alone. -/
theorem imm_of_bit0 {imm : BitVec 16} (h : imm.extractLsb' 1 15 = 0) : imm = if imm.getLsbD 0 then 1 else 0 := by
  have hlow := setWidth_low (n := 1) (m := 15) rfl h
  rw [show imm.extractLsb' 0 1 = BitVec.ofBool (imm.getLsbD 0) by grind] at hlow
  exact hlow.symm.trans (by cases imm.getLsbD 0 <;> rfl)

theorem armE_encodes {f : Fields} {i j : Instr} {n : Nat} {wOk intOk z : Bool} {p : BitVec 8} (ho : f.opc.toNat = n)
    (hl : f.len = 0) (hk : f.kind = 2)
    (hq : ((wOk || !f.q.getLsbD 0) && (intOk || !f.q.getLsbD 1) && f.q.extractLsb' 2 6 == 0) = true → p = f.q)
    (hj : z = true → j.wf = true ∧ encodeFields j = some (encW 2 (BitVec.ofNat 8 n) f.d f.a f.b f.c p f.imm))
    (h : armE wOk intOk f z j = some (true, i)) : Encodes f .none i := by
  simp only [armE, need_eq_some, Option.some.injEq, Prod.mk.injEq] at h
  obtain ⟨hqs, rfl, rfl⟩ := h
  obtain ⟨hwf, henc⟩ := hj rfl
  exact .ofWord ho hl hk hwf henc rfl rfl rfl rfl (hq hqs) rfl

/-- What the decoder of E-ops accepts is well-formed and encodes back to its word. -/
theorem decodeE_encodes {f : Fields} {i : Instr} (hl : f.len = 0) (hk : f.kind = 2) (h : decodeE f = some (true, i)) :
    Encodes f .none i := by
  unfold decodeE at h
  split at h
  case h_1 ho | h_2 ho | h_3 ho | h_4 ho | h_6 ho | h_7 ho | h_21 ho =>
    refine armE_encodes ho hl hk eQ_w (fun hz => ⟨rfl, ?_⟩) h
    simp only [Bool.and_eq_true, beq_iff_eq] at hz
    simp [encodeFields, encE, eaddr, wBit, hz]
  case h_5 ho => exact armE_encodes ho hl hk eQ_w (fun hz => ⟨rfl, by simp [encodeFields, encE, eaddr, wBit, v7_vReg hz]⟩) h
  case h_16 ho =>
    refine armE_encodes ho hl hk eQ_int (fun hz => ⟨rfl, ?_⟩) h
    simp only [Bool.and_eq_true, beq_iff_eq] at hz
    simp [encodeFields, encE, eaddr, hz]
  case h_14 ho =>
    refine armE_encodes ho hl hk eQ_zero (fun hz => ⟨rfl, ?_⟩) h
    simp only [Bool.and_eq_true, Bool.or_eq_true, beq_iff_eq] at hz
    obtain ⟨⟨⟨hs, hc⟩, hi⟩, hb⟩ := hz
    have himm := imm_of_bit0 hi
    cases hset : f.imm.getLsbD 0 <;> simp only [hset, if_true, if_false, Bool.false_eq_true, false_or] at hb himm ⊢ <;>
      simp only [encodeFields, s7_sReg hs, hc, hb, himm] <;> rfl
  case h_8 ho | h_9 ho | h_10 ho | h_11 ho | h_12 ho | h_13 ho | h_15 ho | h_17 ho | h_18 ho | h_19 ho | h_20 ho
      | h_22 ho | h_23 ho | h_24 ho | h_25 ho =>
    refine armE_encodes ho hl hk eQ_zero (fun hz => ⟨rfl, ?_⟩) h
    simp only [Bool.and_eq_true, beq_iff_eq] at hz
    simp [encodeFields, encE, eaddr, hz, s7_sReg]
  case h_26 => cases h

end Sys2Proof
end

section
/-!
SUPPORT. Every well-formed thread instruction is read back from its encoding (R293 to R307).
-/

namespace Sys2Proof

theorem Reads.of {f : Fields} {e : Ext} {i : Instr} {p : Fields × Ext} (h : some p = some (f, e)) (hr : Reads p.1 p.2 i) :
    Reads f e i := by
  cases h
  exact hr

/-! ## X-ops (R305) -/

/-- A word with a second source: its arm reads the source there and the fields of the operation beside it. -/
theorem reads_encSrc {arm : Fields → Ext → Arm} {j : Instr} {s : Src} {f : Fields} (hx : XArm f.opc arm) (hl : f.len = 0)
    (hk : f.kind = 0) (hb : isFormatB f.opc = false) (h3 : f.q.getLsbD 3 = false) (hfb : f.b = 0) (hfi : f.imm = 0)
    (h : ∀ g e, srcOf g e = some (s, true) → g.d = f.d → g.a = f.a → g.c = f.c → g.q.extractLsb' 0 3 = f.q.extractLsb' 0 3 →
      g.q.extractLsb' 4 4 = f.q.extractLsb' 4 4 → arm g e = some (true, j)) :
    Reads (encSrc s f).1 (encSrc s f).2 j := by
  obtain ⟨hopc, hd, ha, hc, hq0, hq4⟩ := encSrc_fields s f
  refine .x (encSrc_form s hl hk hb) ?_
  rw [decodeX_of_arm hx hopc]
  exact h _ _ (srcOf_encSrc s h3 hfb hfi) hd ha hc hq0 hq4

theorem reads_encAlu {opc : BitVec 8} {mk : Alu → Instr} (hx : XArm opc (armAlu mk)) (hb : isFormatB opc = false) (o : Alu) :
    Reads (encAlu opc o).1 (encAlu opc o).2 (mk o) := by
  have hq : ∀ t, ((itypeCode t).setWidth 8).getLsbD 3 = false ∧ ((itypeCode t).setWidth 8).extractLsb' 4 4 = 0
      ∧ ((itypeCode t).setWidth 8).extractLsb' 0 3 = itypeCode t := by
    intro t; cases t <;> decide
  obtain ⟨h3, h4, h0⟩ := hq o.ty
  refine reads_encSrc hx rfl rfl hb h3 rfl rfl fun g e hs hd ha hc hq0 hq4 => ?_
  simp only [h0, h4] at hq0 hq4
  simp only [armAlu, hs, hd, ha, hc, hq0, hq4, itypeOf_code]
  rfl

theorem reads_cmp (cc : Cond) (o : Alu) {f : Fields} {e : Ext} (h : encodeFields (.cmp cc o) = some (f, e)) :
    Reads f e (.cmp cc o) := by
  have hq : ∀ c t, (condCode c ++ (itypeCode t).setWidth 4 : BitVec 8).getLsbD 3 = false
      ∧ (condCode c ++ (itypeCode t).setWidth 4 : BitVec 8).extractLsb' 4 4 = condCode c
      ∧ (condCode c ++ (itypeCode t).setWidth 4 : BitVec 8).extractLsb' 0 3 = itypeCode t := by
    intro c t; cases c <;> cases t <;> decide
  obtain ⟨h3, h4, h0⟩ := hq cc o.ty
  refine .of h (reads_encSrc (arm := armCmp) (fun _ _ => rfl) rfl rfl rfl h3 rfl rfl fun g e hs hd ha hc hq0 hq4 => ?_)
  simp only [h0, h4] at hq0 hq4
  simp only [armCmp, hs, hd, ha, hc, hq0, hq4, itypeOf_code, condOf_code]
  rfl

/-- A word with an address: its arm reads the address there. -/
theorem reads_encAddr {arm : Fields → Ext → Arm} {j : Instr} {ad : Addr} {m : MReg} {f : Fields} (hx : XArm f.opc arm)
    (hl : f.len = 0) (hk : f.kind = 0) (hb : isFormatB f.opc = false) (had : ad.wf = true)
    (h : ∀ g e, addrOf g e = some ({ ad with off := offWith ad.off m }, true) → g.d = f.d → g.q = f.q →
      arm g e = some (true, j)) : Reads (encAddr ad m f).1 (encAddr ad m f).2 j := by
  obtain ⟨hopc, hd, -, -, -, hq⟩ := encOff_fields ad.off m { f with a := ad.base, b := ad.idx, c := ad.scl.setWidth 7 }
  refine .x (encOff_form ad.off m hl hk hb) ((decodeX_of_arm hx hopc _).trans ?_)
  exact h _ _ (addrOf_encAddr had m f) hd hq

theorem reads_encM3 {arm : Fields → Ext → Arm} {j : Instr} {m3 : M3} {m : MReg} {f : Fields} (hx : XArm f.opc arm)
    (hl : f.len = 0) (hk : f.kind = 0) (hb : isFormatB f.opc = false) (hfb : f.b = 0)
    (h : ∀ g e, m3Of g e = some ({ m3 with off := offWith m3.off m }, true) → g.d = f.d → g.q = f.q →
      arm g e = some (true, j)) : Reads (encM3 m3 m f).1 (encM3 m3 m f).2 j := by
  obtain ⟨hopc, hd, -, -, -, hq⟩ := encOff_fields m3.off m { f with a := m3.base, c := m3.c }
  refine .x (encOff_form m3.off m hl hk hb) ((decodeX_of_arm hx hopc _).trans ?_)
  exact h _ _ (m3Of_encM3 m3 m hfb) hd hq

section Accesses
variable {opc : BitVec 8} (hb : isFormatB opc = false)
include hb

theorem reads_mem {ok : Ord → Bool} {mk : Ord → MemOp → Instr} {ord : Ord} {o : MemOp} (hx : XArm opc (armMem ok mk))
    (hwf : (ok ord && o.ad.wf) = true) :
    Reads (encMem opc (memQ ord (itypeCode o.ty)) o).1 (encMem opc (memQ ord (itypeCode o.ty)) o).2 (mk ord o) := by
  obtain ⟨hok, had⟩ := Bool.and_eq_true_iff.mp hwf
  refine reads_encAddr hx rfl rfl hb had fun g e hg hd hq => ?_
  simp [armMem, hg, hd, hq, ordOf_code, hok]

theorem reads_lds {mk : Scope → MemOp → Instr} {sc : Scope} {o : MemOp} (hx : XArm opc (armLds mk)) (had : o.ad.wf = true) :
    Reads (encMem opc (scopeCode sc ++ (0 : BitVec 2) ++ itypeCode o.ty) o).1
      (encMem opc (scopeCode sc ++ (0 : BitVec 2) ++ itypeCode o.ty) o).2 (mk sc o) := by
  have hq : ∀ (s : BitVec 3) (t : BitVec 3), (s ++ 0#2 ++ t).extractLsb' 5 3 = s ∧ (s ++ 0#2 ++ t).extractLsb' 3 2 = 0
      ∧ (s ++ 0#2 ++ t).extractLsb' 0 3 = t := by decide
  refine reads_encAddr hx rfl rfl hb had fun g e hg hd hgq => ?_
  simp [armLds, hg, hd, hgq, hq]

theorem reads_stf {mk : MemOp → Instr} {o : MemOp} (hx : XArm opc (armStf mk)) (had : o.ad.wf = true) :
    Reads (encMem opc ((itypeCode o.ty).setWidth 8) o).1 (encMem opc ((itypeCode o.ty).setWidth 8) o).2 (mk o) := by
  have hq : ∀ t : BitVec 3, (t.setWidth 8).extractLsb' 3 5 = 0 ∧ (t.setWidth 8).extractLsb' 0 3 = t := by decide
  refine reads_encAddr hx rfl rfl hb had fun g e hg hd hgq => ?_
  simp [armStf, hg, hd, hgq, hq]

theorem reads_addr {mk : Fields → Addr → Instr} {z : Fields → Bool} {d : GReg} {ad : Addr} {j : Instr}
    (hx : XArm opc (fun g e => armAddr g e (z g) (mk g))) (had : ad.wf = true)
    (hz : ∀ g : Fields, g.d = d → z g = true ∧ mk g ad = j) :
    Reads (encAddr ad 0 { base 0 opc with d := d }).1 (encAddr ad 0 { base 0 opc with d := d }).2 j := by
  refine reads_encAddr hx rfl rfl hb had fun g e hg hd hq => ?_
  obtain ⟨hz, hj⟩ := hz g hd
  simp [armAddr, hg, hz, hj, hq, base]

theorem reads_vmem {ok : Ord → Bool} {mk : Ord → VMem → Instr} {ord : Ord} {o : VMem} (hx : XArm opc (armVmem ok mk))
    (hwf : (ok ord && o.ad.wf && o.ad.off.aligned8) = true) :
    Reads (encAddr o.ad o.k { base 0 opc with d := v7 o.d, q := memQ ord 0 }).1
      (encAddr o.ad o.k { base 0 opc with d := v7 o.d, q := memQ ord 0 }).2 (mk ord o) := by
  simp only [Bool.and_eq_true] at hwf
  obtain ⟨⟨hok, had⟩, hal⟩ := hwf
  refine reads_encAddr hx rfl rfl hb had fun g e hg hd hq => ?_
  simp [armVmem, hg, hd, hq, ordOf_code, hok, splitOff_offWith hal]

theorem reads_vdesc {ok : Ord → Bool} {mk : Ord → VReg → MReg → M3 → Instr} {ord : Ord} {d : VReg} {k : MReg} {m : M3}
    (hx : XArm opc (armVdesc ok mk)) (hwf : (ok ord && m.off.aligned8) = true) :
    Reads (encM3 m k { base 0 opc with d := v7 d, q := memQ ord 0 }).1
      (encM3 m k { base 0 opc with d := v7 d, q := memQ ord 0 }).2 (mk ord d k m) := by
  obtain ⟨hok, hal⟩ := Bool.and_eq_true_iff.mp hwf
  refine reads_encM3 hx rfl rfl hb rfl fun g e hg hd hq => ?_
  simp [armVdesc, hg, hd, hq, ordOf_code, hok, splitOff_offWith hal]

theorem reads_amo {mk : IType → Ord → GReg → M3 → Instr} {t : IType} {ord : Ord} {d : GReg} {m : M3}
    (hx : XArm opc (armAmo mk)) (ht : t.isAmo = true) :
    Reads (encM3 m 0 { base 0 opc with d := d, q := memQ ord (itypeCode t) }).1
      (encM3 m 0 { base 0 opc with d := d, q := memQ ord (itypeCode t) }).2 (mk t ord d m) := by
  refine reads_encM3 hx rfl rfl hb rfl fun g e hg hd hq => ?_
  simp [armAmo, hg, hd, hq, ordOf_code, ht]

end Accesses

theorem reads_un {opc : BitVec 8} {mk : Un → Instr} {o : Un} (hx : XArm opc (armUn mk)) :
    Reads (encW 0 opc o.d o.a 0 0 ((itypeCode o.ty).setWidth 8) 0).1 .none (mk o) := by
  have hq : ∀ t : BitVec 3, (t.setWidth 8).extractLsb' 3 5 = 0 ∧ (t.setWidth 8).extractLsb' 0 3 = t := by decide
  refine .x (.word rfl rfl) ?_
  rw [decodeX_of_arm hx rfl]
  simp [armUn, encW, hq]

theorem bitField_encBits (f : BitField) (kind : BitVec 2) (opc q : BitVec 8) :
    bitField (encW kind opc f.d f.a 0 0 q (encBits f)).1 = f ∧ bitFieldMbz (encW kind opc f.d f.a 0 0 q (encBits f)).1 = true := by
  have hbits : (encBits f).extractLsb' 0 6 = f.pos ∧ (encBits f).extractLsb' 8 6 = f.len ∧ (encBits f).extractLsb' 6 2 = 0
      ∧ (encBits f).extractLsb' 14 2 = 0 := by
    refine ⟨?_, ?_, ?_, ?_⟩ <;> unfold encBits <;> grind
  obtain ⟨hp, hl, h6, h14⟩ := hbits
  simp [bitField, bitFieldMbz, encW, hp, hl, h6, h14]

/-- The offset of a branch (R296). -/
theorem offOf_encB (opc : BitVec 8) (a : GReg) (q : BitVec 8) (off : BitVec 37) : offOf (encB opc a q off).1 = off := by
  unfold offOf encB
  grind

theorem reads_branch {opc : BitVec 8} {mk : GReg → BitVec 37 → Instr} {z : GReg → Bool} {a : GReg} {off : BitVec 37}
    {j : Instr} (hx : XArm opc (fun f _ => armB f (z f.a) (mk f.a (offOf f)))) (hz : z a = true) (hj : mk a off = j) :
    Reads (encB opc a 0 off).1 .none j := by
  subst hj
  refine .x (.word rfl rfl) ?_
  rw [decodeX_of_arm hx rfl, offOf_encB]
  simp [armB, encB, hz]

/-- A number, widened: its low bits are the number, its high bits zero. -/
theorem extract_low {n w : Nat} (hw : n ≤ w) (x : BitVec n) : (x.setWidth w).extractLsb' 0 n = x := by grind

theorem extract_high {n w : Nat} (m : Nat) (x : BitVec n) : (x.setWidth w).extractLsb' n m = 0 := by grind

/-- A word of format T alone. -/
theorem reads_armT {opc : BitVec 8} {d a b c : BitVec 7} {imm : BitVec 16} {z : Bool} {j i : Instr}
    (hx : decodeX ⟨0, 0, opc, d, a, b, c, 0, imm⟩ .none = armT ⟨0, 0, opc, d, a, b, c, 0, imm⟩ .none z j)
    (h : z = true ∧ j = i) : Reads ⟨0, 0, opc, d, a, b, c, 0, imm⟩ .none i := by
  obtain ⟨hz, rfl⟩ := h
  refine .x (.word rfl rfl) (hx.trans ?_)
  simp [armT, hz]

theorem reads_li (d : GReg) (v : LImm) {f : Fields} {e : Ext} (h : encodeFields (.li d v) = some (f, e)) : Reads f e (.li d v) := by
  have h30 : ∀ w : BitVec 30, w.extractLsb' 14 16 ++ w.extractLsb' 7 7 ++ w.extractLsb' 0 7 = w := fun w => by grind
  have h62 : ∀ w : BitVec 62, w.extractLsb' 30 32 ++ w.extractLsb' 14 16 ++ w.extractLsb' 7 7 ++ w.extractLsb' 0 7 = w :=
    fun w => by grind
  cases v with
  | i30 w => exact .of h (.x (.word rfl rfl) (congrArg (fun v => some (true, Instr.li d (.i30 v))) (h30 w)))
  | i62 w => exact .of h (.x (.ext _ rfl rfl rfl) (congrArg (fun v => some (true, Instr.li d (.i62 v))) (h62 w)))
  | i64 w => exact .of h (.x (.lit _ rfl rfl rfl) rfl)

/-! ## V-ops (R306, R360) -/

/-- The arm that the decoder of V-ops takes at an opcode. -/
def VArm (opc : BitVec 8) (arm : Fields → Arm) : Prop :=
  ∀ f : Fields, decodeVOp { f with opc := opc } = arm { f with opc := opc }

section Fields
variable (len kind : BitVec 2) (opc q : BitVec 8) (d a b c : BitVec 7) (imm : BitVec 16) (i8 : BitVec 8) (vi : Bool) (k : MReg)
  (t : VType) (r : Rnd) (s : Bool)

@[simp] theorem vGap_vImm : vGap ⟨len, kind, opc, d, a, b, c, q, vImm i8 vi k⟩ = true := by simp [vGap]
@[simp] theorem imm8_vImm : imm8 ⟨len, kind, opc, d, a, b, c, q, vImm i8 vi k⟩ = i8 := by simp [imm8]
@[simp] theorem vImmBit_vImm : vImmBit ⟨len, kind, opc, d, a, b, c, q, vImm i8 vi k⟩ = vi := by simp [vImmBit]
@[simp] theorem vMask_vImm : vMask ⟨len, kind, opc, d, a, b, c, q, vImm i8 vi k⟩ = k := by simp [vMask]
@[simp] theorem vPlain_vImm : vPlain ⟨len, kind, opc, d, a, b, c, q, vImm i8 vi k⟩ = (i8 == 0) := by simp [vPlain]
@[simp] theorem q7_vQual : q7 ⟨len, kind, opc, d, a, b, c, vQual t r s, imm⟩ = s := by simp [q7]
@[simp] theorem noRnd_vQual : noRnd ⟨len, kind, opc, d, a, b, c, vQual t .cur s, imm⟩ = true := by simp [noRnd, rndCode]
@[simp] theorem vQ_vQual : vQ ⟨len, kind, opc, d, a, b, c, vQual t r s, imm⟩ = some (t, r) := by simp [vQ]

end Fields

/-- A word whose immediate stands where its operation takes it. -/
theorem reads_vword {opc q : BitVec 8} {d a b c : BitVec 7} {imm : BitVec 16} {j : Instr} {arm : Fields → Arm} (hx : VArm opc arm)
    (hv : (takesVImm (base 1 opc) || !imm.getLsbD 3) = true) (h : arm (encW 1 opc d a b c q imm).1 = some (true, j)) :
    Reads (encW 1 opc d a b c q imm).1 .none j :=
  .v rfl rfl rfl (need_eq_some.mpr ⟨hv, (hx (encW 1 opc d a b c q imm).1).trans h⟩)

section VArms
variable {opc : BitVec 8}

theorem reads_vbin {ok : VType → Rnd → Bool} {mk : VBin → Instr} {o : VBin} (hx : VArm opc (armVBin ok mk))
    (hok : ok o.ty o.rnd = true) : Reads (encVBin opc o).1 (encVBin opc o).2 (mk o) :=
  reads_vword hx (by simp) (by simp [encW, armVBin, hok])

theorem reads_vun {ok : VType → Rnd → Bool} {mk : VUn → Instr} {o : VUn} (hx : VArm opc (armVUn ok mk))
    (hok : ok o.ty o.rnd = true) : Reads (encVUn opc o).1 (encVUn opc o).2 (mk o) :=
  reads_vword hx (by simp) (by simp [encW, armVUn, hok])

theorem reads_vint {satOk : Bool} {mk : VInt → Instr} {o : VInt} (hx : VArm opc (armVInt satOk mk))
    (ht : takesVImm (base 1 opc) = true) (hwf : (o.ty.isInt && (satOk || !o.sat)) = true) :
    Reads (encVInt opc o).1 (encVInt opc o).2 (mk o) := by
  obtain ⟨ty, sat, d, a, src, k⟩ := o
  cases src with
  | reg b => exact reads_vword hx (by simp) (by simpa [encW, armVInt] using hwf)
  | imm v => exact reads_vword hx (by rw [ht]; rfl) (by simpa [encW, armVInt] using hwf)

theorem reads_vcmp {ok : VType → Cond → Bool} {mk : VCmp → Instr} {o : VCmp} (hx : VArm opc (armVCmp ok mk))
    (hok : ok o.ty o.cc = true) : Reads (encVCmp opc o).1 (encVCmp opc o).2 (mk o) := by
  have himm : ∀ c : BitVec 4, (0#4 ++ c).extractLsb' 0 4 = c ∧ (0#4 ++ c).extractLsb' 4 4 = 0 := by decide
  exact reads_vword hx (by simp) (by simp [encW, armVCmp, hok, himm])

theorem reads_vconv {ok : VType → VType → Bool} {nsatOk : Bool} {mk : VConv → Instr} {o : VConv}
    (hx : VArm opc (armVConv ok nsatOk mk)) (hwf : (ok o.ty o.src && (nsatOk || !o.nsat) && o.groupOk) = true) :
    Reads (encVConv opc o).1 (encVConv opc o).2 (mk o) := by
  have himm : ∀ (g : BitVec 3) (t : BitVec 4), (0#1 ++ g ++ t).extractLsb' 0 4 = t ∧ (0#1 ++ g ++ t).extractLsb' 4 3 = g
      ∧ (0#1 ++ g ++ t)[7] = false := by decide
  simp only [Bool.and_eq_true] at hwf
  obtain ⟨⟨hok, hn⟩, hg⟩ := hwf
  exact reads_vword hx (by simp) (by simpa [encW, armVConv, hok, himm, hg] using hn)

theorem reads_vblk {nsatOk : Bool} {mk : VBlk → Instr} {o : VBlk} (hx : VArm opc (armVBlk nsatOk mk))
    (hwf : (o.ty.isBlk && (nsatOk || !o.nsat)) = true) : Reads (encVBlk opc o).1 (encVBlk opc o).2 (mk o) :=
  reads_vword hx (by simp) (by simpa [encW, armVBlk] using hwf)

theorem reads_lane {z : Fields → Bool} {mk : Fields → VType → GSrc → Instr} {t : VType} {d a : BitVec 7} {src : GSrc} {k : MReg}
    {j : Instr} (hx : VArm opc (fun f => armLane f (z f) (mk f))) (ht : takesVImm (base 1 opc) = true)
    (hwf : (t.isMove && src.indexOk t) = true)
    (hz : ∀ f : Fields, f.d = d → f.a = a → f.c = 0 → vMask f = k → z f = true ∧ mk f t src = j) :
    Reads (encLane opc t d a src k).1 (encLane opc t d a src k).2 j := by
  obtain ⟨hm, hi⟩ := Bool.and_eq_true_iff.mp hwf
  cases src with
  | reg b =>
    refine reads_vword hx (by simp) ?_
    obtain ⟨hz, hj⟩ := hz (encW 1 opc d a b 0 (vQual t .cur false) (vImm 0 false k)).1 rfl rfl rfl (by simp [encW])
    rw [armLane]
    simp [encW] at hz hj ⊢
    simp [hz, hj, hm, gsrcMbz, gsrcOf, hi]
  | imm v =>
    refine reads_vword hx (by rw [ht]; rfl) ?_
    obtain ⟨hz, hj⟩ := hz (encW 1 opc d a 0 0 (vQual t .cur false) (vImm v true k)).1 rfl rfl rfl (by simp [encW])
    rw [armLane]
    simp [encW] at hz hj ⊢
    simp [hz, hj, hm, gsrcMbz, gsrcOf, hi]

end VArms

theorem reads_bcast {t : VType} {d : VReg} {src : GSrc} {k : MReg} (hm : t.isMove = true) :
    Reads (encLane 0xC1 t (v7 d) 0 src k).1 (encLane 0xC1 t (v7 d) 0 src k).2 (.vbcast t d src k) := by
  cases src with
  | reg b => exact reads_vword (arm := armBcast) (fun _ => rfl) (by simp) (by simp [encW, armBcast, hm, gsrcMbz, gsrcOf])
  | imm v => exact reads_vword (arm := armBcast) (fun _ => rfl) rfl (by simp [encW, armBcast, hm, gsrcMbz, gsrcOf])

/-- A V-op without rounding, of one vector source. -/
theorem reads_encV1 {opc : BitVec 8} {t : VType} {s : Bool} {d a : VReg} {k : MReg} {ok satOk : VType → Bool}
    {op : VType → Bool → VReg → VReg → MReg → Instr}
    (hx : VArm opc (fun f => armV ok satOk f (imm8 f == 0 && f.b == 0 && f.c == 0 && vOk f.d && vOk f.a)
      (fun t s => op t s (vReg f.d) (vReg f.a) (vMask f)))) (hok : ok t = true) (hs : (satOk t || !s) = true) :
    Reads (encV1 opc t s d a k).1 .none (op t s d a k) := by
  refine reads_vword hx (by simp) ?_
  simp only [Bool.or_eq_true, Bool.not_eq_true'] at hs
  simp [armV, encW, hok, hs]

/-- A V-op without rounding, of two vector sources. -/
theorem reads_encV2 {opc : BitVec 8} {t : VType} {s : Bool} {d a b : VReg} {k : MReg} {ok satOk : VType → Bool}
    {op : VType → Bool → VReg → VReg → VReg → MReg → Instr}
    (hx : VArm opc (fun f => armV ok satOk f (imm8 f == 0 && f.c == 0 && vOk f.d && vOk f.a && vOk f.b)
      (fun t s => op t s (vReg f.d) (vReg f.a) (vReg f.b) (vMask f)))) (hok : ok t = true) (hs : (satOk t || !s) = true) :
    Reads (encV2 opc t s d a b k).1 .none (op t s d a b k) := by
  refine reads_vword hx (by simp) ?_
  simp only [Bool.or_eq_true, Bool.not_eq_true'] at hs
  simp [armV, encW, hok, hs]

theorem reads_vunpk {t : VType} {hi : Bool} {d a : VReg} {k : MReg} (ht : t.isPack = true) {f : Fields} {e : Ext}
    (h : encodeFields (.vunpk t hi d a k) = some (f, e)) : Reads f e (.vunpk t hi d a k) := by
  refine .of h (reads_vword (arm := fun f => armV VType.isPack never f
      ((imm8 f).extractLsb' 1 7 == 0 && f.b == 0 && f.c == 0 && vOk f.d && vOk f.a)
      (fun t _ => .vunpk t ((imm8 f).getLsbD 0) (vReg f.d) (vReg f.a) (vMask f))) (fun _ => rfl) (by simp) ?_)
  cases hi <;> simp [armV, encW, ht]

theorem reads_vrndh {t : VType} {d : VReg} {a : GReg} {k : MReg} (ht : t.isInt = true) {f : Fields} {e : Ext}
    (h : encodeFields (.vrndh t d a k) = some (f, e)) : Reads f e (.vrndh t d a k) := by
  refine .of h (reads_vword (arm := fun f => armV VType.isInt never f (imm8 f == 0 && f.b == 0 && f.c == 0 && vOk f.d)
      (fun t _ => .vrndh t (vReg f.d) f.a (vMask f))) (fun _ => rfl) (by simp) ?_)
  simp [armV, encW, ht]

theorem reads_armRnd {opc : BitVec 8} {d a b : BitVec 7} {k : MReg} {z : Bool} {j i : Instr}
    (hx : decodeVOp ⟨0, 1, opc, d, a, b, 0, 0, vImm 0 false k⟩ = armRnd ⟨0, 1, opc, d, a, b, 0, 0, vImm 0 false k⟩ z j)
    (h : z = true ∧ j = i) : Reads ⟨0, 1, opc, d, a, b, 0, 0, vImm 0 false k⟩ .none i := by
  obtain ⟨hz, rfl⟩ := h
  refine .v rfl rfl rfl (need_eq_some.mpr ⟨by simp, hx.trans ?_⟩)
  simp [armRnd, hz]

theorem reads_armMask {opc : BitVec 8} {d a b : BitVec 7} {z : Bool} {j i : Instr}
    (hx : decodeVOp ⟨0, 1, opc, d, a, b, 0, 0, 0⟩ = armMask ⟨0, 1, opc, d, a, b, 0, 0, 0⟩ z j) (h : z = true ∧ j = i) :
    Reads ⟨0, 1, opc, d, a, b, 0, 0, 0⟩ .none i := by
  obtain ⟨hz, rfl⟩ := h
  refine .v rfl rfl rfl (need_eq_some.mpr ⟨by simp [vImmBit], hx.trans ?_⟩)
  simp [armMask, hz]

/-! ## E-ops (R307) -/

theorem reads_armE {opc q : BitVec 8} {d a b c : BitVec 7} {imm : BitVec 16} {wOk intOk z : Bool} {j i : Instr}
    (hx : decodeE ⟨0, 2, opc, d, a, b, c, q, imm⟩ = armE wOk intOk ⟨0, 2, opc, d, a, b, c, q, imm⟩ z j)
    (hq : ((wOk || !q.getLsbD 0) && (intOk || !q.getLsbD 1) && q.extractLsb' 2 6 == 0) = true) (h : z = true ∧ j = i) :
    Reads ⟨0, 2, opc, d, a, b, c, q, imm⟩ .none i := by
  obtain ⟨hz, rfl⟩ := h
  exact .e rfl rfl rfl (hx.trans (need_eq_some.mpr ⟨hq, by rw [hz]⟩))

/-! ## The operations -/

/-- A well-formed thread instruction is read from its fields and extension. -/
theorem reads_of_encode {i : Instr} {f : Fields} {e : Ext} (hwf : i.wf = true) (h : encodeFields i = some (f, e)) :
    Reads f e i := by
  cases i
  case add o | sub o | mul o | mulh o | div o | rem o | and o | or o | xor o | andn o | orn o | shl o | shr o | sar o | rot o
      | min o | max o =>
    exact .of h (reads_encAlu (fun _ _ => rfl) rfl o)
  case clz o | ctz o | popc o | brev o => exact .of h (reads_un (fun _ _ => rfl))
  case cmp cc o => exact reads_cmp cc o h
  case ld | st => exact .of h (reads_mem rfl (fun _ _ => rfl) hwf)
  case vld | vst => exact .of h (reads_vmem rfl (fun _ _ => rfl) hwf)
  case vldDesc | vstDesc => exact .of h (reads_vdesc rfl (fun _ _ => rfl) hwf)
  case lds | ldsClr => exact .of h (reads_lds rfl (fun _ _ => rfl) hwf)
  case stf | pst | pstF | xst | xstF => exact .of h (reads_stf rfl (fun _ _ => rfl) hwf)
  case amoAdd | amoAnd | amoOr | amoXor | amoMin | amoMax | amoSwap | cas =>
    exact .of h (reads_amo rfl (fun _ _ => rfl) hwf)
  case vadd | vsub | vmul | vfma | vfms | vdiv | vmin | vmax | vcpys => exact .of h (reads_vbin (fun _ => rfl) hwf)
  case vsqrt | vexp2 | vlog2 | vrcp | vrsq | vsinp | vcosp | vtanh | vabs | vneg =>
    exact .of h (reads_vun (fun _ => rfl) hwf)
  case vcmp | vicmp => exact .of h (reads_vcmp (fun _ => rfl) hwf)
  case viadd | visub | vimul =>
    exact .of h (reads_vint (fun _ => rfl) rfl ((Bool.and_true _).trans hwf))
  case vimulh | vand | vor | vxor | vandn | vimin | vimax | vshl | vshr | vsar | vrot =>
    exact .of h (reads_vint (fun _ => rfl) rfl hwf)
  case vcvt o => exact .of h (reads_vconv (o := o) (fun _ => rfl) (by simpa [Instr.wf] using hwf))
  case vftoi | vitof => exact .of h (reads_vconv (fun _ => rfl) hwf)
  case vqnt => exact .of h (reads_vblk (fun _ => rfl) ((Bool.and_true _).trans hwf))
  case vdqnt => exact .of h (reads_vblk (fun _ => rfl) hwf)
  case vbcast => exact .of h (reads_bcast hwf)
  case vextl t d a src k =>
    refine .of h (reads_lane (z := fun f => f.c == 0 && vOk f.a) (mk := fun f t s => .vextl t f.d (vReg f.a) s (vMask f))
      (fun _ => rfl) rfl hwf fun f hd ha hc hk => ?_)
    simp [hd, ha, hc, hk]
  case vinsl t d a src k =>
    refine .of h (reads_lane (z := fun f => f.c == 0 && vOk f.d) (mk := fun f t s => .vinsl t (vReg f.d) f.a s (vMask f))
      (fun _ => rfl) rfl hwf fun f hd ha hc hk => ?_)
    simp [hd, ha, hc, hk]
  case vrotl t d a src k =>
    refine .of h (reads_lane (z := fun f => f.c == 0 && vOk f.d && vOk f.a)
      (mk := fun f t s => .vrotl t (vReg f.d) (vReg f.a) s (vMask f)) (fun _ => rfl) rfl hwf fun f hd ha hc hk => ?_)
    simp [hd, ha, hc, hk]
  case li d v => exact reads_li d v h
  case extr sgn o =>
    change o.wf = true at hwf
    obtain ⟨ho, hz⟩ := bitField_encBits o 0 0x28 (if sgn then 0 else 4)
    refine .of h (.x (.word rfl rfl) ((rfl : _ = armExtr (encW 0 0x28 o.d o.a 0 0 (if sgn then 0 else 4) (encBits o)).1 .none).trans ?_))
    rw [armExtr, ho, hz]
    cases sgn <;> simpa [encW] using hwf
  case insr o =>
    change o.wf = true at hwf
    obtain ⟨ho, hz⟩ := bitField_encBits o 0 0x29 0
    refine .of h (.x (.word rfl rfl) ((rfl : _ = armInsr (encW 0 0x29 o.d o.a 0 0 0 (encBits o)).1 .none).trans ?_))
    rw [armInsr, ho, hz]
    simpa [encW] using hwf
  case lea d ad =>
    refine .of h (reads_encAddr (arm := armLea) (fun _ _ => rfl) rfl rfl rfl hwf fun g e hg hd hq => ?_)
    simp [armLea, hg, hd, hq, base]
  case brcc cc a off =>
    have hq : ∀ c : BitVec 4, (c.setWidth 8).extractLsb' 0 4 = c ∧ (c.setWidth 8).extractLsb' 4 4 = 0 := by decide
    refine .of h (.x (.word rfl rfl) ((rfl : _ = armBrcc (encB 0x60 a ((condCode cc).setWidth 8) off).1).trans ?_))
    rw [armBrcc, offOf_encB]
    simp [encB, hq]
  case brz a off => exact .of h (reads_branch (z := fun _ => true) (fun _ _ => rfl) rfl rfl)
  case brnz a off => exact .of h (reads_branch (z := fun _ => true) (fun _ _ => rfl) rfl rfl)
  case call a off => exact .of h (reads_branch (z := fun _ => true) (fun _ _ => rfl) rfl rfl)
  case jmp off => exact .of h (reads_branch (mk := fun _ => .jmp) (z := fun a => a == 0) (fun _ _ => rfl) rfl rfl)
  case bstrm n off =>
    exact .of h (reads_branch (mk := fun a => .bstrm (sReg a)) (z := sOk) (fun _ _ => rfl) (sOk_s7 n) (by rw [sReg_s7]))
  case loop a off =>
    refine .of h (.x (.word rfl rfl) ((rfl : _ = armLoop (encB 0x69 a 0 off).1).trans ?_))
    rw [armLoop, offOf_encB]
    simpa [armB, encB, Instr.wf] using hwf
  case fec full d ad =>
    refine .of h (reads_encAddr (arm := armFec) (fun _ _ => rfl) rfl rfl rfl hwf fun g e hg hd hq => ?_)
    cases full <;> simp [armFec, hg, hd, hq, wQ]
  case prf ad =>
    exact .of h (reads_addr (z := fun f => f.d == 0) (mk := fun _ => .prf) rfl (fun _ _ => rfl) hwf
      fun g hd => ⟨beq_iff_eq.mpr hd, rfl⟩)
  case ldv d ad =>
    exact .of h (reads_addr (z := fun _ => true) (mk := fun f => .ldv f.d) rfl (fun _ _ => rfl) hwf fun g hd => ⟨rfl, by rw [hd]⟩)
  case bara d ad =>
    exact .of h (reads_addr (z := fun _ => true) (mk := fun f => .bara f.d) rfl (fun _ _ => rfl) hwf fun g hd => ⟨rfl, by rw [hd]⟩)
  case barw d ad =>
    exact .of h (reads_addr (z := fun _ => true) (mk := fun f => .barw f.d) rfl (fun _ _ => rfl) hwf fun g hd => ⟨rfl, by rw [hd]⟩)
  case amoFadd ord d m =>
    refine .of h (reads_encM3 (arm := armFadd) (fun _ _ => rfl) rfl rfl rfl rfl fun g e hg hd hq => ?_)
    simp [armFadd, hg, hd, hq, ordOf_code]
  case cstor ord d ad =>
    refine .of h (reads_encAddr (arm := armCstor) (fun _ _ => rfl) rfl rfl rfl hwf fun g e hg hd hq => ?_)
    simp [armCstor, hg, hd, hq, ordOf_code]
  case barmax d m =>
    refine .of h (reads_encM3 (arm := armBarmax) (fun _ _ => rfl) rfl rfl rfl rfl fun g e hg hd hq => ?_)
    simp [armBarmax, hg, hd, hq, base]
  case fence k sc =>
    refine .of h (.x (.word rfl rfl) ?_)
    cases k <;> cases sc <;> rfl
  case nop => exact .of h (.x (.word rfl rfl) rfl)
  case nopLong => exact .of h (.x (.ext _ rfl rfl rfl) rfl)
  case jr | csel | flushl1 | msend | mrecv | mrecvTrap | qput | qget | wpush | wpop | waitc | mfs | mts | trap | halt | haltRetain
      | yield | launchInstr | skimw | spawn | rdcyc =>
    exact .of h (reads_armT rfl (by simp [hi8, hi11, hi12, extract_low, extract_high]))
  case viabs t s d a k => exact .of h (reads_encV1 (op := .viabs) (fun _ => rfl) hwf (Bool.or_eq_true_iff.mpr (.inl hwf)))
  case vpack t s d a b k => exact .of h (reads_encV2 (op := .vpack) (fun _ => rfl) hwf (Bool.or_eq_true_iff.mpr (.inl hwf)))
  case vredAdd t s d a k =>
    obtain ⟨hty, hs⟩ := Bool.and_eq_true_iff.mp hwf
    exact .of h (reads_encV1 (op := .vredAdd) (fun _ => rfl) hty ((Bool.or_comm _ _).trans hs))
  case vpfx t s d a k =>
    obtain ⟨hty, hs⟩ := Bool.and_eq_true_iff.mp hwf
    exact .of h (reads_encV1 (op := .vpfx) (fun _ => rfl) hty ((Bool.or_comm _ _).trans hs))
  case vredMin => exact .of h (reads_encV1 (op := fun t _ => .vredMin t) (fun _ => rfl) hwf rfl)
  case vredMax => exact .of h (reads_encV1 (op := fun t _ => .vredMax t) (fun _ => rfl) hwf rfl)
  case vredAnd => exact .of h (reads_encV1 (op := fun t _ => .vredAnd t) (fun _ => rfl) hwf rfl)
  case vredOr => exact .of h (reads_encV1 (op := fun t _ => .vredOr t) (fun _ => rfl) hwf rfl)
  case vredXor => exact .of h (reads_encV1 (op := fun t _ => .vredXor t) (fun _ => rfl) hwf rfl)
  case vmov => exact .of h (reads_encV1 (op := fun t _ => .vmov t) (fun _ => rfl) hwf rfl)
  case vperm => exact .of h (reads_encV2 (op := fun t _ => .vperm t) (fun _ => rfl) hwf rfl)
  case vsel => exact .of h (reads_encV2 (op := fun t _ => .vsel t) (fun _ => rfl) hwf rfl)
  case vunpk => exact reads_vunpk hwf h
  case vrndh => exact reads_vrndh hwf h
  case vrndt | vmix => exact .of h (reads_armRnd rfl (by simp))
  case mand | mor | mxor | mnot | mpopc =>
    exact .of h (reads_armMask rfl (by simp))
  case mxrun w d x | mxcarryLd w d x | mxcarrySt w d x | cucopy w d x | culdb w d x b | cudigest w d x b | slout w d a b =>
    exact .of h (reads_armE rfl (by cases w <;> rfl) (by cases w <;> simp [wQ, wBit, eaddr]))
  case cufill w d x b c =>
    exact .of h (reads_armE rfl (by cases w <;> rfl) (by cases w <;> simp [wQ, wBit, eaddr]))
  case slput int d x =>
    exact .of h (reads_armE rfl (by cases int <;> rfl) (by cases int <;> simp [eaddr]))
  case jwait | jpoll | jcancel | slget | slref | slunref | slswap | slhash | lksend | lkrecv | lkred =>
    exact .of h (reads_armE rfl rfl ⟨rfl, rfl⟩)
  case scfg | sbind | sclose | scommit => exact .of h (reads_armE rfl rfl (by simp [eaddr]))
  case spos d n set => cases set <;> exact .of h (reads_armE rfl rfl (by simp))
  all_goals cases h


end Sys2Proof
end

section
/-!
SUPPORT. Bundles: bytes and words, and what the decoder makes of them (R292, R300 to R302).
-/

namespace Sys2Proof

/-! ## Kinds (R292) -/

theorem kind_encSrc {s : Src} {g f : Fields} (hk : g.kind = 0) (h : some (encSrc s g) = some (f, .none)) : f.kind = 0 := by
  cases s <;> cases h
  · exact hk
  · exact hk

theorem kind_encOff {o : Off} {m : MReg} {g f : Fields} (hk : g.kind = 0) (h : some (encOff o m g) = some (f, .none)) :
    f.kind = 0 := by
  cases o <;> cases h
  exact hk

/-- A V-op is a word of kind 01. -/
theorem kind_of_isV {i : Instr} {f : Fields} {e : Ext} (hv : i.isV = true) (h : encodeFields i = some (f, e)) :
    f.kind = 1 ∧ e = .none := by
  cases i
  case viadd o | visub o | vimul o | vimulh o | vand o | vor o | vxor o | vandn o | vimin o | vimax o | vshl o | vshr o | vsar o
      | vrot o =>
    obtain ⟨ty, sat, d, a, src, k⟩ := o
    cases src <;> cases h <;> exact ⟨rfl, rfl⟩
  case vbcast _ _ src _ | vextl _ _ _ src _ | vinsl _ _ _ src _ | vrotl _ _ _ src _ => cases src <;> cases h <;> exact ⟨rfl, rfl⟩
  case vadd | vsub | vmul | vdiv | vfma | vfms | vsqrt | vexp2 | vlog2 | vrcp | vrsq | vsinp | vcosp | vtanh | vabs | vneg | vmin
      | vmax | vcpys | vcmp | viabs | vicmp | vcvt | vftoi | vitof | vqnt | vdqnt | vpack | vunpk | vrndt | vrndh | vmix | vperm
      | vmov | vsel | vredAdd | vredMin | vredMax | vredAnd | vredOr | vredXor | vpfx | mand | mor | mxor | mnot | mpopc =>
    cases h
    exact ⟨rfl, rfl⟩
  all_goals cases hv

/-- Any other operation without an extension is a word of another kind. -/
theorem kind_of_not_isV {i : Instr} {f : Fields} (hv : i.isV = false) (h : encodeFields i = some (f, .none)) : f.kind ≠ 1 := by
  have h0 : ∀ {k : BitVec 2}, k = 0 → k ≠ 1 := by decide
  have h2 : ∀ {k : BitVec 2}, k = 2 → k ≠ 1 := by decide
  cases i
  case add | sub | mul | mulh | div | rem | and | or | xor | andn | orn | shl | shr | sar | rot | min | max | cmp =>
    exact h0 (kind_encSrc rfl h)
  case ld | st | vld | vst | vldDesc | vstDesc | lds | ldsClr | stf | fec | prf | lea | ldv | cstor | bara | barw | barmax | pst | pstF
      | xst | xstF | amoAdd | amoAnd | amoOr | amoXor | amoMin | amoMax | amoSwap | amoFadd | cas =>
    exact h0 (kind_encOff rfl h)
  case li d v => cases v <;> cases h; exact h0 rfl
  case clz | ctz | popc | brev | extr | insr | csel | brcc | brz | brnz | jmp | call | jr | loop | bstrm | fence | msend | mrecv
      | mrecvTrap | qput | qget | wpush | wpop | waitc | mfs | mts | trap | haltRetain | launchInstr | skimw | spawn | rdcyc
      | flushl1 | halt | yield | nop =>
    cases h
    exact h0 rfl
  case mxrun | mxcarryLd | mxcarrySt | cucopy | cufill | culdb | cudigest | jwait | jpoll | jcancel | scfg | sbind | sclose
      | scommit | slput | slget | slref | slunref | slswap | slout | slhash | lksend | lkrecv | lkred =>
    cases h
    exact h2 rfl
  case spos d n set => cases set <;> cases h <;> exact h2 rfl
  case nopLong => cases h
  all_goals cases hv <;> cases h

/-! ## Words from bytes (R292, R301) -/

/-- The words of a pair bundle (R300). -/
theorem decode_pair (f : Fields) (w : BitVec 64) (rest : List Byte) :
    decode (bytesOf ({ f with len := 2 }, .lit w) ++ rest) = decodeWords (wordOf { f with len := 2 }) w := by
  obtain ⟨w1, h, -, h1⟩ := decode_bytesOf { f with len := 2 } (.lit w) rest (by simp [bytesOf, leBytes_length, lengthBytes])
  rw [h, h1 w rfl]

/-- The length and the kind of a word play no part in what its opcode and fields say. -/
@[simp] theorem decodeX_lenKind (f : Fields) (e : Ext) (l k : BitVec 2) :
    decodeX ⟨l, k, f.opc, f.d, f.a, f.b, f.c, f.q, f.imm⟩ e = decodeX f e := rfl
@[simp] theorem decodeE_lenKind (f : Fields) (l k : BitVec 2) :
    decodeE ⟨l, k, f.opc, f.d, f.a, f.b, f.c, f.q, f.imm⟩ = decodeE f := rfl

theorem decode_of_reads {f : Fields} {e : Ext} {i : Instr} (h : Reads f e i) (rest : List Byte) :
    decode (bytesOf (f, e) ++ rest) = .bundle i none (bytesOf (f, e)).length := by
  cases h with
  | x hf h =>
    cases hf with
    | word hl hk => rw [decode_x f rest hl hk, h]; simp [finish1, bytesOf, leBytes_length]
    | ext v hl hk hb => rw [decode_xExt f v rest hl hk hb, h]; simp [finish1, bytesOf, leBytes_length]
    | lit v hl hk hb => rw [decode_xLit f v rest hl hk hb, h]; simp [finish1, bytesOf, leBytes_length]
  | v hl hk he h => subst he; rw [decode_v f rest hl hk, h]; simp [finish1, bytesOf, leBytes_length]
  | e hl hk he h => subst he; rw [decode_e f rest hl hk, h]; simp [finish1, bytesOf, leBytes_length]

theorem decode_pair_of_reads {f g : Fields} {x v : Instr} (hx : Reads f .none x) (hv : Reads g .none v) (hkf : f.kind ≠ 1)
    (hkg : g.kind = 1) (rest : List Byte) :
    decode (bytesOf ({ f with len := 2 }, .lit (wordOf g)) ++ rest) = .bundle x (some v) 16 := by
  have hgl : isVWord g = true ∧ decodeV g = some (true, v) := by
    cases hv with
    | x hf => cases hf with | word _ hk => rw [hk] at hkg; cases hkg
    | v hl hk _ h => exact ⟨by simp [isVWord, hl, hk], h⟩
    | e _ hk => rw [hk] at hkg; cases hkg
  rw [decode_pair]
  cases hx with
  | x hf h =>
    cases hf with
    | word _ hk => simp [decodeWords, hk, hgl, h, finish2]
  | v _ hk => exact absurd hk hkf
  | e _ hk _ h => simp [decodeWords, hk, hgl, h, finish2]

/-! ## What decodes -/

theorem wordOf_fieldsOf (w : BitVec 64) : wordOf (fieldsOf w) = w := by
  apply BitVec.eq_of_getLsbD_eq
  intro i hi
  simp only [wordOf, fieldsOf, BitVec.getLsbD_append, BitVec.getLsbD_extractLsb']
  interval_cases i <;> simp

theorem leNat_lt (l : List Byte) : leNat l < 256 ^ l.length := by
  induction l with
  | nil => decide
  | cons b l ih =>
    have hb := b.isLt
    simp only [leNat, List.length_cons, pow_succ]
    omega

/-- Bytes read as a number and written again. -/
theorem leBytes_leNat {n : Nat} {l : List Byte} (h : n ≤ l.length) : leBytes n (leNat l) = l.take n := by
  induction n generalizing l with
  | zero => simp [leBytes]
  | succ n ih =>
    cases l with
    | nil => simp at h
    | cons b l =>
      have hb := b.isLt
      have hhead : BitVec.ofNat 8 (b.toNat + 256 * leNat l) = b := BitVec.eq_of_toNat_eq (by simp only [BitVec.toNat_ofNat]; omega)
      have htail : (b.toNat + 256 * leNat l) / 256 = leNat l := by omega
      simp only [leBytes, leNat, List.take_succ_cons, hhead, htail, ih (by simpa using h)]

theorem leBytes_mod (n v : Nat) : leBytes n (v % 256 ^ n) = leBytes n v := by
  induction n generalizing v with
  | zero => rfl
  | succ n ih =>
    have hdiv : v % 256 ^ (n + 1) / 256 = v / 256 % 256 ^ n := by rw [pow_succ, Nat.mul_comm, Nat.mod_mul_right_div_self]
    have hmod : v % 256 ^ (n + 1) % 256 = v % 256 := Nat.mod_mod_of_dvd _ (dvd_pow_self _ (by omega))
    simp only [leBytes, hdiv, ih]
    congr 1
    apply BitVec.eq_of_toNat_eq
    simpa only [BitVec.toNat_ofNat] using hmod

theorem wordOfBytes_toNat (bs : List Byte) : (wordOfBytes bs).toNat = leNat (bs.take 8) := by
  have hlt : leNat (bs.take 8) < 2 ^ 64 :=
    (leNat_lt _).trans_le (show 256 ^ (bs.take 8).length ≤ 256 ^ 8 from Nat.pow_le_pow_right (by decide) (by simp))
  rw [wordOfBytes, BitVec.toNat_ofNat, Nat.mod_eq_of_lt hlt]

/-- The bytes of a word read from bytes, of its low half and of the word itself. -/
theorem leBytes_wordOfBytes {bs : List Byte} (h : 8 ≤ bs.length) : leBytes 8 (wordOfBytes bs).toNat = bs.take 8 := by
  rw [wordOfBytes_toNat, leBytes_leNat (by simpa using h), List.take_take, Nat.min_self]

theorem leBytes_low {bs : List Byte} (h : 4 ≤ bs.length) :
    leBytes 4 ((wordOfBytes bs).extractLsb' 0 32).toNat = bs.take 4 := by
  rw [BitVec.extractLsb'_toNat, Nat.shiftRight_zero, show (2 : Nat) ^ 32 = 256 ^ 4 from rfl, leBytes_mod, wordOfBytes_toNat,
    leBytes_leNat (by simp; omega), List.take_take]
  rfl

theorem finish1_bundle {len n : Nat} {r : Arm} {x : Instr} {v : Option Instr} (h : finish1 len r = .bundle x v n) :
    v = none ∧ n = len ∧ r = some (true, x) := by
  unfold finish1 at h
  split at h
  case h_1 => cases h
  case h_2 z i => cases z <;> simp_all

theorem finish1_ienc {len n : Nat} {r : Arm} (h : finish1 len r = .ienc n) : n ≤ 1 := by
  unfold finish1 at h
  split at h
  case h_1 => cases h; decide
  case h_2 z i => cases z <;> simp at h; omega

theorem finish2_bundle {n : Nat} {r p : Arm} {x : Instr} {v : Option Instr} (h : finish2 r p = .bundle x v n) :
    n = 16 ∧ r = some (true, x) ∧ ∃ y, v = some y ∧ p = some (true, y) := by
  unfold finish2 at h
  split at h
  case h_1 zx i zv j => cases zx <;> cases zv <;> simp_all
  case h_2 => cases h

theorem finish2_ienc {n : Nat} {r p : Arm} (h : finish2 r p = .ienc n) : n ≤ 1 := by
  unfold finish2 at h
  split at h
  case h_1 zx i zv j => cases zx <;> cases zv <;> simp at h <;> omega
  case h_2 => cases h; decide

/-- A pattern of two words that is no bundle fails check 2, 3 or 4 (R302). -/
theorem decodeWords_ienc {w0 w1 : BitVec 64} {n : Nat} (h : decodeWords w0 w1 = .ienc n) : n ≤ 1 ∨ n = 4 := by
  have h4 : ∀ {m}, Decoded.ienc 4 = .ienc m → m ≤ 1 ∨ m = 4 := fun h => by cases h; exact .inr rfl
  unfold decodeWords at h
  dsimp only at h
  split at h
  case h_1 | h_2 | h_3 => exact .inl (finish1_ienc h)
  case h_4 | h_6 => split at h; exacts [h4 h, .inl (finish1_ienc h)]
  case h_5 | h_7 => split at h; exacts [.inl (finish2_ienc h), h4 h]
  case h_8 => exact h4 h

/-- What two words that are a bundle hold: one operation in its form, or a pair (R292, R300). -/
theorem decodeWords_bundle {w0 w1 : BitVec 64} {x : Instr} {v : Option Instr} {len : Nat}
    (h : decodeWords w0 w1 = .bundle x v len) :
    (v = none ∧ ∃ e, Reads (fieldsOf w0) e x ∧ (bytesOf (fieldsOf w0, e)).length = len
      ∧ (∀ u, e = .ext u → u = w1.extractLsb' 0 32) ∧ ∀ u, e = .lit u → u = w1)
    ∨ ∃ y, v = some y ∧ len = 16 ∧ (fieldsOf w0).len = 2 ∧ Reads { fieldsOf w0 with len := 0 } .none x
      ∧ Reads (fieldsOf w1) .none y ∧ (fieldsOf w1).kind = 1 := by
  have eq0 : ∀ {b : BitVec 2}, b.toNat = 0 → b = 0 := fun h => BitVec.eq_of_toNat_eq h
  have eq1 : ∀ {b : BitVec 2}, b.toNat = 1 → b = 1 := fun h => BitVec.eq_of_toNat_eq h
  have eq2 : ∀ {b : BitVec 2}, b.toNat = 2 → b = 2 := fun h => BitVec.eq_of_toNat_eq h
  unfold decodeWords at h
  dsimp only at h
  split at h
  case h_1 hl hk =>
    obtain ⟨rfl, rfl, harm⟩ := finish1_bundle h
    exact .inl ⟨rfl, .none, .x (.word (eq0 hl) (eq0 hk)) harm, by simp [bytesOf, leBytes_length], by simp, by simp⟩
  case h_2 hl hk =>
    obtain ⟨rfl, rfl, harm⟩ := finish1_bundle h
    exact .inl ⟨rfl, .none, .v (eq0 hl) (eq1 hk) rfl harm, by simp [bytesOf, leBytes_length], by simp, by simp⟩
  case h_3 hl hk =>
    obtain ⟨rfl, rfl, harm⟩ := finish1_bundle h
    exact .inl ⟨rfl, .none, .e (eq0 hl) (eq2 hk) rfl harm, by simp [bytesOf, leBytes_length], by simp, by simp⟩
  case h_4 hl hk =>
    split at h
    case isTrue => cases h
    case isFalse hb =>
      obtain ⟨rfl, rfl, harm⟩ := finish1_bundle h
      exact .inl ⟨rfl, .ext _, .x (.ext _ (eq1 hl) (eq0 hk) (eq_false_of_ne_true hb)) harm, by simp [bytesOf, leBytes_length],
        by simp, by simp⟩
  case h_6 hl hk =>
    split at h
    case isTrue => cases h
    case isFalse hb =>
      obtain ⟨rfl, rfl, harm⟩ := finish1_bundle h
      exact .inl ⟨rfl, .lit _, .x (.lit _ (eq2 hl) (eq1 hk) (eq_false_of_ne_true hb)) harm, by simp [bytesOf, leBytes_length],
        by simp, by simp⟩
  case h_5 hl hk =>
    split at h
    case isFalse => cases h
    case isTrue hv =>
      obtain ⟨rfl, hx, y, rfl, hy⟩ := finish2_bundle h
      obtain ⟨hvl, hvk⟩ := Bool.and_eq_true_iff.mp hv
      exact .inr ⟨y, rfl, rfl, eq2 hl, .x (.word rfl (eq0 hk)) hx, .v (beq_iff_eq.mp hvl) (beq_iff_eq.mp hvk) rfl hy,
        beq_iff_eq.mp hvk⟩
  case h_7 hl hk =>
    split at h
    case isFalse => cases h
    case isTrue hv =>
      obtain ⟨rfl, hx, y, rfl, hy⟩ := finish2_bundle h
      obtain ⟨hvl, hvk⟩ := Bool.and_eq_true_iff.mp hv
      exact .inr ⟨y, rfl, rfl, eq2 hl, .e rfl (eq2 hk) rfl hx, .v (beq_iff_eq.mp hvl) (beq_iff_eq.mp hvk) rfl hy,
        beq_iff_eq.mp hvk⟩
  case h_8 => cases h

/-- What is read is well-formed and encodes back to its fields. -/
theorem encodes_of_reads {f : Fields} {e : Ext} {i : Instr} (h : Reads f e i) : Encodes f e i := by
  cases h with
  | x hf h => exact decodeX_encodes hf h
  | v hl hk he h => subst he; exact decodeV_encodes hl hk h
  | e hl hk he h => subst he; exact decodeE_encodes hl hk h

/-- What is read from a word of kind 01 alone is a V-op. -/
theorem isV_of_reads {f : Fields} {i : Instr} (h : Reads f .none i) (hk : f.kind = 1) : i.isV = true := by
  cases hv : i.isV
  case true => rfl
  case false => exact absurd hk (kind_of_not_isV hv (encodes_of_reads h).enc)

theorem length_of_reads {f : Fields} {e : Ext} {i : Instr} (h : Reads f e i) : (bytesOf (f, e)).length = lengthBytes f.len := by
  cases h with
  | x hf h => cases hf with | word hl | ext _ hl | lit _ hl => simp [bytesOf, leBytes_length, hl, lengthBytes]
  | v hl _ he | e hl _ he => subst he; simp [bytesOf, leBytes_length, hl, lengthBytes]

/-- The bytes of what two words hold, where the words stand in bytes that are there. -/
theorem bytesOf_words {bs : List Byte} {e : Ext} (hext : ∀ u, e = .ext u → u = (wordOfBytes (bs.drop 8)).extractLsb' 0 32)
    (hlit : ∀ u, e = .lit u → u = wordOfBytes (bs.drop 8))
    (h : (bytesOf (fieldsOf (wordOfBytes bs), e)).length ≤ bs.length) :
    bytesOf (fieldsOf (wordOfBytes bs), e) = bs.take (bytesOf (fieldsOf (wordOfBytes bs), e)).length := by
  cases e with
  | none =>
    simp only [bytesOf, wordOf_fieldsOf, leBytes_length] at h ⊢
    exact leBytes_wordOfBytes h
  | ext u =>
    simp only [bytesOf, wordOf_fieldsOf, List.length_append, leBytes_length] at h ⊢
    rw [hext u rfl, leBytes_wordOfBytes (by omega), leBytes_low (by simp; omega), List.take_add]
  | lit u =>
    simp only [bytesOf, wordOf_fieldsOf, List.length_append, leBytes_length] at h ⊢
    rw [hlit u rfl, leBytes_wordOfBytes (by omega), leBytes_wordOfBytes (by simp; omega), List.take_add]

/-- Bytes that decode hold the words of the bundle, and there are enough of them. -/
theorem decode_bundle {bs : List Byte} {x : Instr} {v : Option Instr} {len : Nat} (h : decode bs = .bundle x v len) :
    lengthBytes (fieldsOf (wordOfBytes bs)).len ≤ bs.length
      ∧ decodeWords (wordOfBytes bs) (wordOfBytes (bs.drop 8)) = .bundle x v len := by
  unfold decode at h
  dsimp only at h
  split at h
  case isTrue => cases h
  case isFalse hlen => exact ⟨Nat.le_of_not_lt hlen, h⟩

end Sys2Proof
end

section
namespace Sys2Proof

/-- Settles O2: every well-formed thread instruction is read from its fields, and a pair is the two readings. -/
theorem decodeEncode : Obligations.DecodeEncode := by
  unfold Obligations.DecodeEncode
  refine ⟨fun i bs rest hwf h => ?one, fun x v bs rest hwx hwv hx hv h => ?pair⟩
  case one =>
    obtain ⟨⟨f, e⟩, henc, rfl⟩ := Option.map_eq_some_iff.mp h
    exact decode_of_reads (reads_of_encode hwf henc) rest
  case pair =>
    unfold encodePair at h
    split at h
    case h_1 f g hf hg =>
      cases h
      exact decode_pair_of_reads (reads_of_encode hwx hf) (reads_of_encode hwv hg) (kind_of_not_isV hx hf)
        (kind_of_isV hv hg).1 rest
    case h_2 => cases h

/-- Settles O3: what is read encodes back to its fields, and the fields and what follows are the bytes. -/
theorem decodeExact : Obligations.DecodeExact := by
  unfold Obligations.DecodeExact
  intro bs
  split
  case h_1 n h =>
    unfold decode at h
    dsimp only at h
    split at h
    case isTrue => cases h; exact .inr (.inl rfl)
    case isFalse => exact (decodeWords_ienc h).imp_right .inr
  case h_2 i len h =>
    obtain ⟨hlen, hw⟩ := decode_bundle h
    obtain ⟨-, e, hr, rfl, hext, hlit⟩ | ⟨y, hy, -⟩ := decodeWords_bundle hw
    · have hle := (length_of_reads hr).trans_le hlen
      obtain ⟨hwf, henc⟩ := encodes_of_reads hr
      exact ⟨hwf, hle, by rw [encode, henc, Option.map_some, bytesOf_words hext hlit hle]; simp⟩
    · cases hy
  case h_3 x v len h =>
    obtain ⟨hlen, hw⟩ := decode_bundle h
    obtain ⟨hv, -⟩ | ⟨y, hy, rfl, hl, hx, hr, hk⟩ := decodeWords_bundle hw
    · cases hv
    cases hy
    have h16 : 16 ≤ bs.length := by simpa [hl, lengthBytes] using hlen
    obtain ⟨hwfx, hencx⟩ := encodes_of_reads hx
    obtain ⟨hwfv, hencv⟩ := encodes_of_reads hr
    refine ⟨hwfx, hwfv, isV_of_reads hr hk, rfl, h16, ?_⟩
    have hbytes := bytesOf_words (bs := bs) (e := .lit (wordOfBytes (bs.drop 8))) (by simp) (by simp)
      (by simpa [bytesOf, leBytes_length] using h16)
    have hlen16 : (bytesOf (fieldsOf (wordOfBytes bs), .lit (wordOfBytes (bs.drop 8)))).length = 16 := by
      simp [bytesOf, leBytes_length]
    have hfields : { fieldsOf (wordOfBytes bs) with len := 2 } = fieldsOf (wordOfBytes bs) := by rw [← hl]
    rw [hlen16] at hbytes
    rw [encodePair, hencx, hencv]
    simp only [wordOf_fieldsOf, hfields, hbytes]

end Sys2Proof
end

section
namespace Sys2Proof.Encoding

/-- Settles O1: each word is decoded. -/
theorem decodeWords : Obligations.DecodeWords := by
  unfold Obligations.DecodeWords
  refine ⟨?_, ?_, ?_, ?_, ?_, ?_, ?_, ?_, ?_, ?_, ?_, ?_⟩ <;> decide

end Sys2Proof.Encoding
end

section
/-!
SUPPORT. What the scalar integer operations compute of sub-elements (R313), of one sub-element (R316) and of bit fields
(R317, R318).
-/

namespace Sys2Proof.Machine

/-! ## Arithmetic and logic (R313) -/

section
variable {n : Nat} (sgn : Bool) (x y : BitVec n)

theorem ofNat_elAdd : BitVec.ofNat n (elAdd n sgn x.toNat y.toNat) = x + y :=
  BitVec.eq_of_toNat_eq (by simp [elAdd])

theorem ofNat_elSub : BitVec.ofNat n (elSub n sgn x.toNat y.toNat) = x - y :=
  BitVec.eq_of_toNat_eq (by
    have hy := y.isLt
    simp only [elSub, BitVec.toNat_ofNat, Nat.mod_mod, BitVec.toNat_sub]
    congr 1
    omega)

theorem ofNat_elMul : BitVec.ofNat n (elMul n sgn x.toNat y.toNat) = x * y :=
  BitVec.eq_of_toNat_eq (by simp [elMul])

theorem ofNat_elMulh : BitVec.ofNat n (elMulh n sgn x.toNat y.toNat)
    = BitVec.ofInt n (asInt sgn x * asInt sgn y / 2 ^ n) := by
  rw [elMulh, ofNat_wrapTo, readAs_toNat, readAs_toNat]
  norm_cast

theorem ofNat_and : BitVec.ofNat n (x.toNat &&& y.toNat) = x &&& y := by
  rw [← BitVec.toNat_and, ofNat_toNat_self]

theorem ofNat_or : BitVec.ofNat n (x.toNat ||| y.toNat) = x ||| y := by
  rw [← BitVec.toNat_or, ofNat_toNat_self]

theorem ofNat_xor : BitVec.ofNat n (x.toNat ^^^ y.toNat) = x ^^^ y := by
  rw [← BitVec.toNat_xor, ofNat_toNat_self]

theorem ofNat_elAndn : BitVec.ofNat n (elAndn n sgn x.toNat y.toNat) = x &&& ~~~y := by
  rw [elAndn, ← BitVec.toNat_not, ofNat_and]

theorem ofNat_elOrn : BitVec.ofNat n (elOrn n sgn x.toNat y.toNat) = x ||| ~~~y := by
  rw [elOrn, ← BitVec.toNat_not, ofNat_or]

theorem ofNat_elMin : BitVec.ofNat n (elMin n sgn x.toNat y.toNat) = if asInt sgn x ≤ asInt sgn y then x else y := by
  rw [elMin, readAs_toNat, readAs_toNat]
  split <;> exact ofNat_toNat_self _

theorem ofNat_elMax : BitVec.ofNat n (elMax n sgn x.toNat y.toNat) = if asInt sgn x ≥ asInt sgn y then x else y := by
  rw [elMax, readAs_toNat, readAs_toNat]
  split <;> exact ofNat_toNat_self _

end

/-! ## One source (R316) -/

/-- The leading zeros of a number below 2^n. -/
theorem clzEl_spec {n : Nat} (x : BitVec n) : clzEl n x.toNat ≤ n ∧ (∀ b < clzEl n x.toNat, x.getMsbD b = false)
    ∧ (clzEl n x.toNat < n → x.getMsbD (clzEl n x.toNat) = true) := by
  unfold clzEl
  split
  next h0 =>
    have hx : x = 0 := BitVec.eq_of_toNat_eq h0
    exact ⟨le_rfl, fun b _ => by simp [hx], fun h => absurd h (lt_irrefl _)⟩
  next h0 =>
    have hlog : Nat.log2 x.toNat < n := (Nat.log2_lt h0).mpr x.isLt
    refine ⟨by omega, fun b hb => ?_, fun _ => ?_⟩
    · have hpow : x.toNat < 2 ^ (n - 1 - b) := (Nat.log2_lt h0).mp (by omega)
      simp [BitVec.getMsbD, BitVec.getLsbD, Nat.testBit_lt_two_pow hpow]
    · have hplace : n - 1 - (n - 1 - Nat.log2 x.toNat) = Nat.log2 x.toNat := by omega
      simp only [BitVec.getMsbD, BitVec.getLsbD, hplace, Nat.testBit_log2 h0, Bool.and_true, decide_eq_true_eq]
      omega

/-- The trailing zeros among n bits. -/
theorem ctzEl_spec (n x : Nat) : ctzEl n x ≤ n ∧ (∀ b < ctzEl n x, x.testBit b = false)
    ∧ (ctzEl n x < n → x.testBit (ctzEl n x) = true) := by
  induction n generalizing x with
  | zero => simp [ctzEl]
  | succ n ih =>
    obtain ⟨hle, hlow, hat⟩ := ih (x / 2)
    unfold ctzEl
    split
    next h1 => exact ⟨by omega, by simp, fun _ => by simpa [Nat.testBit_zero] using h1⟩
    next h0 =>
      rw [Nat.add_comm 1]
      refine ⟨by omega, fun b hb => ?_, fun h => ?_⟩
      · cases b with
        | zero => simpa [Nat.testBit_zero] using h0
        | succ b => rw [Nat.testBit_succ]; exact hlow b (by omega)
      · rw [Nat.testBit_succ]
        exact hat (by omega)

theorem onesIn_eq (n x : Nat) : onesIn n x = ((List.range n).filter (fun b => x.testBit b)).length := by
  induction n generalizing x with
  | zero => rfl
  | succ n ih =>
    have hshift : ((List.range n).map Nat.succ).filter (fun b => x.testBit b)
        = ((List.range n).filter (fun b => (x / 2).testBit b)).map Nat.succ := by
      rw [List.filter_map]
      congr 2
      funext b
      exact Nat.testBit_succ x b
    rw [onesIn, ih, List.range_succ_eq_map, List.filter_cons, hshift]
    rcases Nat.mod_two_eq_zero_or_one x with h | h <;> simp [Nat.testBit_zero, h, Nat.add_comm]

theorem brevEl_lt (n x : Nat) : brevEl n x < 2 ^ n := by
  induction n generalizing x with
  | zero => simp [brevEl]
  | succ n ih =>
    have hlow := ih (x / 2)
    have hbit : x % 2 ≤ 1 := by omega
    have htop : x % 2 * 2 ^ n ≤ 1 * 2 ^ n := Nat.mul_le_mul_right _ hbit
    rw [brevEl, pow_succ]
    omega

/-- Bit b of a number is the bit at the mirrored place of the reversed one. -/
theorem brevEl_testBit (n x : Nat) {b : Nat} (hb : b < n) : (brevEl n x).testBit (n - 1 - b) = x.testBit b := by
  induction n generalizing x b with
  | zero => omega
  | succ n ih =>
    rw [brevEl, Nat.mul_comm, Nat.testBit_two_pow_mul_add _ (brevEl_lt n _)]
    cases b with
    | zero => simp [Nat.testBit_zero]
    | succ b =>
      have hplace : n + 1 - 1 - (b + 1) = n - 1 - b := by omega
      have hlow : n - 1 - b < n := by omega
      rw [hplace, if_pos hlow, ih _ (by omega), Nat.testBit_succ]

/-- A one-source operation retires with what it computes of each sub-element. -/
theorem runX_unSem {s : State} {c : Cur} {t : Thread} {w : Owner} {i : Instr} {o : Un} {f : Nat → Nat → Nat}
    (h : Issues s c t w i 0) : ∃ r : Word, runX i (unSem o f) s = .next (doneWith s c t w i (Wr.ofG o.d r)) ∧
      ∀ j < 64 / iw o.ty, r.extractLsb' (iw o.ty * j) (iw o.ty)
        = BitVec.ofNat (iw o.ty) (f (iw o.ty) ((readG s t o.a).extractLsb' (iw o.ty * j) (iw o.ty)).toNat) := by
  refine ⟨_, runX_done h rfl, fun j hj => ?_⟩
  rw [extract_joinWord (iw_dvd o.ty) _ hj, envX_g, extract_toNat]

/-! ## Bit fields (R317, R318) -/

theorem ofNat_extract (v : Word) (p n : Nat) : v.toNat / 2 ^ p % 2 ^ n = (v.extractLsb' p n).toNat := by
  rw [BitVec.extractLsb'_toNat, Nat.shiftRight_eq_div_pow]

/-- A number read by its signedness and wrapped to m bits. -/
theorem ofNat_wrapTo_readAs {n : Nat} (m : Nat) (sgn : Bool) (x : BitVec n) :
    BitVec.ofNat m (wrapTo m (readAs sgn n x.toNat)) = if sgn then x.signExtend m else x.setWidth m := by
  rw [ofNat_wrapTo, readAs_toNat]
  cases sgn with
  | false =>
    show BitVec.ofInt m (x.toNat : Int) = x.setWidth m
    rw [BitVec.ofInt_natCast, BitVec.ofNat_toNat]
  | true => rfl

/-- A field of n bits at p replaced, bit by bit. -/
theorem insert_bit (v : Word) (x : Nat) {p n : Nat} (h : p + n ≤ 64) {b : Nat} (hb : b < 64) :
    (BitVec.ofNat 64 (v.toNat % 2 ^ p + x % 2 ^ n * 2 ^ p + v.toNat / 2 ^ (p + n) * 2 ^ (p + n))).getLsbD b
      = if p ≤ b ∧ b < p + n then x.testBit (b - p) else v.getLsbD b := by
  have hbits := setBits_bit (v.setWidth 512) p n x (by omega) b
  have hv : (v.setWidth 512).toNat = v.toNat := by
    rw [BitVec.toNat_setWidth_of_le (by decide)]
  simp only [setBits, hv, BitVec.getLsbD_ofNat, BitVec.getLsbD_setWidth, show b < 512 by omega, decide_true, Bool.true_and] at hbits
  rw [BitVec.getLsbD_ofNat, hbits]
  simp [hb]

/-! ## Control transfers (R323 to R328) -/

/-- An operation that goes to a target where it is taken meets GoesTo. -/
theorem goesTo_of {s : State} {c : Cur} {t : Thread} {w : Owner} {i : Instr} {taken : Prop} {tgt : Word} {wx : Wr} {sem : Env → XRes}
    (h : Issues s c t w i 0) (hexec : exec i s = runX i sem s) (hfl : wx.flags = 0)
    (hnot : ¬ taken → sem (envX (bare s) c t w i) = .ok (envX (bare s) c t w i).s wx)
    (htaken : taken → sem (envX (bare s) c t w i) = transfer (envX (bare s) c t w i) tgt wx) : GoesTo s c t w i taken tgt wx := by
  have hcheck : ∀ ti, taken → targetTrap tgt = some ti → exec i s = .next (trapsTo s c t w i ti) := fun ti ht hti => by
    rw [hexec]
    exact runX_trapC h (by rw [htaken ht, transfer, hti])
  refine ⟨fun hn => ?_, fun ht hal => ?_, fun ht hal hrg => ?_, fun ht hal hrg => ?_⟩
  · rw [hexec]
    exact runX_done (hfl ▸ h) (hnot hn)
  · exact hcheck _ ht (by rw [targetTrap, if_pos (bne_iff_ne.2 hal)]; rfl)
  · exact hcheck _ ht (by rw [targetTrap, if_neg (by simpa using hal), if_pos (bne_iff_ne.2 hrg)]; rfl)
  · rw [hexec]
    refine runX_done (wx := { wx with npc := some tgt }) (by rwa [hfl]) ?_
    rw [htaken ht, transfer, targetTrap, if_neg (by simpa using hal), if_neg (by simpa using hrg)]

/-- The same for a transfer to a format-B target, by its test. -/
theorem goesTo_of_takeIf {s : State} {c : Cur} {t : Thread} {w : Owner} {i : Instr} {taken : Prop} {off : BitVec 37} {wx : Wr}
    {sem : Env → XRes} (b : Bool) (h : Issues s c t w i 0) (hexec : exec i s = runX i sem s) (hfl : wx.flags = 0)
    (hsem : sem (envX (bare s) c t w i) = takeIf b off wx (envX (bare s) c t w i)) (hb : b = true ↔ taken) :
    GoesTo s c t w i taken (c.pc + 4 * off.signExtend 64) wx := by
  refine goesTo_of h hexec hfl (fun hn => ?_) fun ht => ?_
  · rw [hsem, takeIf, if_neg (by rwa [hb])]
  · rw [hsem, takeIf, if_pos (hb.2 ht)]
    rfl

end Sys2Proof.Machine
end

section
namespace Sys2Proof
open Sys2Proof.Machine

/-- Settles O14: each operation joins what it computes of every pair of sub-elements. -/
theorem scalarArithmetic : Obligations.ScalarArithmetic := by
  unfold Obligations.ScalarArithmetic
  refine ⟨?add, ?sub, ?mul, ?mulh, ?and, ?or, ?xor, ?andn, ?orn, ?min, ?max⟩
  case add => exact aluGives_of (fun _ _ => rfl) fun _ => ofNat_elAdd
  case sub => exact aluGives_of (fun _ _ => rfl) fun _ => ofNat_elSub
  case mul => exact aluGives_of (fun _ _ => rfl) fun _ => ofNat_elMul
  case mulh => exact aluGives_of (fun _ _ => rfl) fun _ => ofNat_elMulh
  case and => exact aluGives_of (g := elAnd) (fun _ _ => rfl) fun _ _ => ofNat_and
  case or => exact aluGives_of (g := elOr) (fun _ _ => rfl) fun _ _ => ofNat_or
  case xor => exact aluGives_of (g := elXor) (fun _ _ => rfl) fun _ _ => ofNat_xor
  case andn => exact aluGives_of (fun _ _ => rfl) fun _ => ofNat_elAndn
  case orn => exact aluGives_of (fun _ _ => rfl) fun _ => ofNat_elOrn
  case min => exact aluGives_of (fun _ _ => rfl) fun _ => ofNat_elMin
  case max => exact aluGives_of (fun _ _ => rfl) fun _ => ofNat_elMax

/-- Settles O17: one-source operations join what they compute of every sub-element; the others write what they say. -/
theorem scalarFieldsAndConstants : Obligations.ScalarFieldsAndConstants := by
  unfold Obligations.ScalarFieldsAndConstants
  intro s c t w
  refine ⟨fun o => ⟨fun h => ?clz, fun h => ?ctz, fun h => ?popc, fun h => ?brev⟩, fun sgn f hf h => ?extr, fun f hf h => ?insr,
    fun d v h => ?li, fun d ad h => ?lea, fun d a b k h => ?csel, fun h => ?nop, fun imm ext h => ?nopLong⟩
  case clz =>
    obtain ⟨r, hr, hel⟩ := runX_unSem (f := clzEl) h
    exact ⟨r, hr, fun j hj => ⟨_, hel j hj, clzEl_spec _⟩⟩
  case ctz =>
    obtain ⟨r, hr, hel⟩ := runX_unSem (f := ctzEl) h
    exact ⟨r, hr, fun j hj => ⟨_, hel j hj, ctzEl_spec _ _⟩⟩
  case popc =>
    obtain ⟨r, hr, hel⟩ := runX_unSem (f := onesIn) h
    exact ⟨r, hr, fun j hj => by rw [hel j hj, onesIn_eq]; rfl⟩
  case brev =>
    obtain ⟨r, hr, hel⟩ := runX_unSem (f := brevEl) h
    refine ⟨r, hr, fun j hj b hb => ?_⟩
    rw [hel j hj, BitVec.getLsbD_ofNat, brevEl_testBit _ _ hb]
    simp only [show iw o.ty - 1 - b < iw o.ty by omega, decide_true, Bool.true_and]
    rfl
  case extr => exact runX_done h (by simp only [extrSem, envX_g, ofNat_extract, ofNat_wrapTo_readAs]; rfl)
  case insr =>
    refine ⟨_, runX_done h rfl, fun b hb => ?_⟩
    rw [envX_g, envX_g, insert_bit _ _ hf hb]
    rfl
  case li => exact runX_done h (by cases v <;> rfl)
  case lea =>
    refine runX_done h (congrArg (fun v => XRes.ok _ (Wr.ofG d v)) ?_)
    refine (firstEnv_addr s c t w (.lea d ad) ad).trans ?_
    unfold ea offWord
    rfl
  case csel => exact runX_done h (by simp only [envX_g]; rfl)
  case nop => exact runX_done h rfl
  case nopLong => exact runX_done h rfl

/-- Settles O18: a transfer not taken retires; one taken goes where its target's check lets it. -/
theorem controlTransfer : Obligations.ControlTransfer := by
  unfold Obligations.ControlTransfer
  intro s c t w
  refine ⟨fun cc a off h => ?brcc, fun a off h => ?brz, fun a off h => ?brnz, fun off h => ?jmp, fun a off h => ?call,
    fun a h => ?jr, fun a off h => ?loop, fun n off h => ?bstrm⟩
  case brcc => exact goesTo_of_takeIf (zeroCond cc (readG s t a)) h rfl rfl (by rw [envX_g]) (iCond_iff cc _ 0)
  case brz => exact goesTo_of_takeIf (readG s t a == 0) h rfl rfl (by rw [envX_g]) beq_iff_eq
  case brnz => exact goesTo_of_takeIf (readG s t a != 0) h rfl rfl (by rw [envX_g]) bne_iff_ne
  case jmp => exact goesTo_of_takeIf true h rfl rfl rfl (by simp)
  case call => exact goesTo_of_takeIf true h rfl rfl rfl (by simp)
  case jr => exact goesTo_of h rfl rfl (by simp) fun _ => by rw [envX_g]
  case loop => exact goesTo_of_takeIf (readG s t a - 1 != 0) h rfl rfl (by rw [envX_g]) bne_iff_ne
  case bstrm =>
    exact goesTo_of_takeIf (posAfter (envX (bare s) c t w (.bstrm n off)) n.toNat != (streamAt t n.toNat).total) h rfl rfl rfl
      bne_iff_ne

/-- Settles O9: the trap is that of the operation itself. -/
theorem trapInstruction : Obligations.TrapInstruction := by
  unfold Obligations.TrapInstruction
  intro s c t w n a h
  exact runX_trapC h (by rw [trapSem, envX_g, mkTrap, BitVec.ofNat_toNat, BitVec.setWidth_eq])

end Sys2Proof
end

section
/-!
SUPPORT. Element-wise V-ops in the terms of the statements (R361 to R369): one lemma for each form that an operation takes.
-/

namespace Sys2Proof.Machine

/-! ## Rounding of an element (R359) -/

section
variable (s : State) (c : Cur) (t : Thread) (w : Owner) (i : Instr)

theorem askedMode_envX (r : Rnd) : askedMode (envX (bare s) c t w i) r = rndAsked t r := by cases r <;> rfl

theorem modeOf_envX (r : Rnd) : modeOf (envX (bare s) c t w i) r = rndMode t w r := by
  simp only [modeOf, askedMode_envX, envX_w, rndMode]

theorem asksSrs_envX (r : Rnd) : asksSrs (envX (bare s) c t w i) r = rndSrs t w r := by
  simp only [asksSrs, askedMode_envX, envX_w, rndSrs]

theorem ftzOf_envX : ftzOf (envX (bare s) c t w i) = t.fpc.getLsbD 3 := rfl

theorem drawOf_lt (e : Env) (k : Nat) : drawOf e k < 2 ^ 16 := Nat.mod_lt _ (by decide)

theorem fRnd_envX (ty : VType) (r : Rnd) (how : Over) (k : Nat) (x : Exact) : fRnd (envX (bare s) c t w i) ty r how k x
    = fround t w ty r how (drawOf (envX (bare s) c t w i)) k x := by
  simp only [fRnd, fround, modeOf_envX, ftzOf_envX]

theorem fDec_envX (ty : VType) (e : Nat) (v : Vec) : fDec (envX (bare s) c t w i) ty (elemOf ty.width e v).toNat = fval t ty e v :=
  rfl

theorem magOf_envX (ty : VType) (x : Nat) :
    magOf (envX (bare s) c t w i) ty x = magUnder (t.fpc.getLsbD 3) (fmtOf ty) x := by
  simp only [magOf, magUnder, ftzOf_envX, Bool.and_eq_true, beq_iff_eq, and_assoc]

end

theorem isNan_iff (x : FVal) : x.isNan = true ↔ x = .nan := by cases x <;> simp [FVal.isNan]

/-! ## Operations on the elements of one width -/

/-- An operation whose elements are what the statement has them be. -/
theorem lanes_of_eq {s : State} {c : Cur} {t : Thread} {w : Owner} {i : Instr} {d : VReg} {k : MReg} {n : Nat} {srs : Bool}
    {sem : Env → Half} {f : Nat → Nat → Res8} (hn : n ∣ 512) (hexec : exec i s = runV i sem s)
    (hsem : sem (envX (bare s) c t w i) = eachEl (envX (bare s) c t w i) n d k srs f) : Lanes s c t w i d k n srs f :=
  lanes_of_eachEl hn hexec hsem fun _ _ _ => ⟨rfl, rfl⟩

/-- The forms of R361 and R362. -/
theorem vfloatGives_of {mk : VBin → Instr} {sem : VBin → Env → Half} {f : Mode → FVal → FVal → FVal → Exact}
    (hexec : ∀ o s, exec (mk o) s = runV (mk o) (sem o) s) (hsem : ∀ o e, sem o e = fTri e o f) : VFloatGives mk f := by
  intro s c t w o
  refine ⟨drawOf (envX (bare s) c t w (mk o)), drawOf_lt _, lanes_of_eq (width_dvd o.ty) (hexec o s) ?_⟩
  simp only [hsem, fTri, fRnd_envX, envX_velem, fDec_envX, modeOf_envX, asksSrs_envX]

/-- The form of R363. -/
theorem vunaryGives_of {mk : VUn → Instr} {sem : VUn → Env → Half} {f : FVal → Exact}
    (hexec : ∀ o s, exec (mk o) s = runV (mk o) (sem o) s) (hsem : ∀ o e, sem o e = fUn e o f) : VUnaryGives mk f := by
  intro s c t w o
  refine ⟨drawOf (envX (bare s) c t w (mk o)), drawOf_lt _, lanes_of_eq (width_dvd o.ty) (hexec o s) ?_⟩
  simp only [hsem, fUn, fRnd_envX, envX_velem, fDec_envX, asksSrs_envX]

/-- The form of R364. -/
theorem vexactGives_of {mk : VBin → Instr} {sem : VBin → Env → Half} {g : Fmt → FVal → FVal → Nat → Nat → Nat}
    (hexec : ∀ o s, exec (mk o) s = runV (mk o) (sem o) s)
    (hsem : ∀ o e, sem o e = fExact2 e o (fun x y => g (fmtOf o.ty) (fDec e o.ty x) (fDec e o.ty y) x y)) : VExactGives mk g := by
  intro s c t w o
  refine lanes_of_eq (width_dvd o.ty) (hexec o s) ?_
  simp only [hsem, fExact2, fDec_envX, envX_velem]

/-! ## Integers (R366 to R368) -/

section
variable (s : State) (c : Cur) (t : Thread) (w : Owner) (i : Instr) (ty : VType) (src : VSrc) (e : Nat)

theorem vOpnd_envX : vOpnd (envX (bare s) c t w i) ty src e = (vOpndAt s c t i ty src e).toNat := by
  cases src with
  | reg b => exact envX_velem ..
  | imm v => exact (apply_ite BitVec.toNat ..).symm

theorem vAmount_envX : vAmount (envX (bare s) c t w i) ty src e = vAmountAt s c t i ty src e := by
  cases src with
  | reg b => exact congrArg (· % 256) (envX_velem ..)
  | imm v => rfl

end

/-- The form of R366, by what an operation computes of two numbers. -/
theorem vIntGives_of {mk : VInt → Instr} {sem : VInt → Env → Half}
    {f : (n : Nat) → Bool → Bool → BitVec n → BitVec n → Nat × BitVec 8}
    (g : Nat → Bool → Bool → Nat → Nat → Res8) (hexec : ∀ o s, exec (mk o) s = runV (mk o) (sem o) s)
    (hsem : ∀ o e, sem o e = iBin e o (g o.ty.width o.ty.signed o.sat))
    (hg : ∀ n sgn sat (x y : BitVec n), BitVec.ofNat n (g n sgn sat x.toNat y.toNat).1 = BitVec.ofNat n (f n sgn sat x y).1
      ∧ (g n sgn sat x.toNat y.toNat).2 = (f n sgn sat x y).2) : VIntGives mk f := by
  intro s c t w o
  refine lanes_of_eachEl (width_dvd o.ty) (hexec o s) (hsem o _) fun e _ _ => ?_
  rw [envX_velem, vOpnd_envX]
  exact hg ..

/-- An operation of arithmetic: the exact result wrapped or clamped (R243). -/
theorem vIntGives_arith {mk : VInt → Instr} {sem : VInt → Env → Half} (f : Int → Int → Int)
    (hexec : ∀ o s, exec (mk o) s = runV (mk o) (sem o) s) (hsem : ∀ o e, sem o e = iArith e o f) :
    VIntGives mk (fun n sgn sat x y => clampTo sat sgn n (f (asInt sgn x) (asInt sgn y))) := by
  refine vIntGives_of (fun n sgn sat x y => intOut sat sgn n (f (readAs sgn n x) (readAs sgn n y))) hexec hsem fun n sgn sat x y => ?_
  rw [readAs_toNat, readAs_toNat, intOut_eq_clampTo]
  exact ⟨rfl, rfl⟩

/-- An operation that raises nothing. -/
theorem vIntGives_quiet {mk : VInt → Instr} {sem : VInt → Env → Half} {f : (n : Nat) → Bool → BitVec n → BitVec n → BitVec n}
    (g : Nat → Bool → Nat → Nat → Nat) (hexec : ∀ o s, exec (mk o) s = runV (mk o) (sem o) s)
    (hsem : ∀ o e, sem o e = iBin e o (fun x y => (g o.ty.width o.ty.signed x y, 0)))
    (hg : ∀ n sgn (x y : BitVec n), BitVec.ofNat n (g n sgn x.toNat y.toNat) = f n sgn x y) :
    VIntGives mk (fun n sgn _ x y => ((f n sgn x y).toNat, 0)) :=
  vIntGives_of (fun n sgn _ x y => (g n sgn x y, 0)) hexec hsem fun n sgn _ x y => ⟨by rw [hg, ofNat_toNat_self], rfl⟩

/-- The form of R368. -/
theorem vShiftGives_of {mk : VInt → Instr} {sem : VInt → Env → Half} {f : (n : Nat) → BitVec n → Nat → BitVec n}
    (g : Nat → Nat → Nat → Nat) (hexec : ∀ o s, exec (mk o) s = runV (mk o) (sem o) s) (hsem : ∀ o e, sem o e = iShift e o g)
    (hg : ∀ n (x : BitVec n) k, BitVec.ofNat n (g n x.toNat k) = f n x k) : VShiftGives mk f := by
  intro s c t w o
  refine lanes_of_eachEl (width_dvd o.ty) (hexec o s) (hsem o _) fun e _ _ => ⟨?_, rfl⟩
  rw [envX_velem, vAmount_envX, hg, ofNat_toNat_self]

/-! ## Compares into masks (R365, R369) -/

theorem maskOfBools_testBit (l : List Bool) (y : Nat) : (maskOfBools l).testBit y = l.getD y false := by
  induction l generalizing y with
  | nil => simp [maskOfBools]
  | cons b l ih =>
    cases y with
    | zero => cases b <;> simp [maskOfBools, Nat.testBit_zero, Nat.add_mod]
    | succ y =>
      have hhalf : (maskOfBools (b :: l)) / 2 = maskOfBools l := by cases b <;> simp only [maskOfBools] <;> grind
      rw [Nat.testBit_succ, hhalf, ih]
      rfl

theorem vcmpSem_eq (o : VCmp) (e : Env) : vcmpSem o e = cmpMask e o.ty.width o.d o.k (fun i =>
    fCond o.cc (fDec e o.ty (velem o.ty.width i (e.v o.a))) (fDec e o.ty (velem o.ty.width i (e.v o.b)))) := rfl

theorem vicmpSem_eq (o : VCmp) (e : Env) : vicmpSem o e = cmpMask e o.ty.width o.d o.k (fun i =>
    iCond o.cc o.ty.width (velem o.ty.width i (e.v o.a)) (velem o.ty.width i (e.v o.b))) := rfl

theorem fCond_iff (cc : Cond) (x y : FVal) : fCond cc x y = true ↔ fholds cc x y := by
  unfold fCond fholds
  by_cases hnan : x = .nan ∨ y = .nan
  · rw [if_pos hnan, if_pos (by rwa [Bool.or_eq_true, isNan_iff, isNan_iff]), beq_iff_eq]
  · rw [if_neg hnan, if_neg (by rwa [Bool.or_eq_true, isNan_iff, isNan_iff])]
    cases cc <;> simp

/-- A compare whose condition is the statement's. -/
theorem comparesTo_of {s : State} {c : Cur} {t : Thread} {w : Owner} {i : Instr} {d k : MReg} {n : Nat} {sem : Env → Half}
    {f : Env → Nat → Bool} {g : Nat → Prop} (hexec : exec i s = runV i sem s) (hsem : ∀ e, sem e = cmpMask e n d k (f e))
    (hf : ∀ e, f (envX (bare s) c t w i) e = true ↔ g e) : ComparesTo s c t w i d k n g := by
  intro h
  refine ⟨_, hexec.trans (runV_done h (hsem _) rfl), fun y hy => ?_⟩
  rw [BitVec.getLsbD_ofNat, maskOfBools_testBit]
  simp [hy, isActive, active, apply_ite (· = true), hf]

end Sys2Proof.Machine
end

section
namespace Sys2Proof
open Sys2Proof.Machine

/-- Settles O19: each operation rounds the exact result of its elements once. -/
theorem vectorFloatArithmetic : Obligations.VectorFloatArithmetic := by
  unfold Obligations.VectorFloatArithmetic
  refine ⟨?add, ?sub, ?mul, ?div, ?fma, ?fms⟩
  all_goals exact vfloatGives_of (fun _ _ => rfl) fun _ _ => rfl

/-- Settles O20: each operation rounds the exact function of its element once. -/
theorem vectorSpecialFunctions : Obligations.VectorSpecialFunctions := by
  unfold Obligations.VectorSpecialFunctions
  refine ⟨?sqrt, ?exp2, ?log2, ?rcp, ?rsq, ?sinp, ?cosp, ?tanh⟩
  all_goals exact vunaryGives_of (fun _ _ => rfl) fun _ _ => rfl

/-- Settles O21: each operation picks or changes an encoding, a NaN giving the canonical one. -/
theorem vectorExactFloat : Obligations.VectorExactFloat := by
  unfold Obligations.VectorExactFloat
  refine ⟨fun s c t w o => ⟨?abs, ?neg⟩, ?min, ?max, fun s c t w o => ?cpys⟩
  case abs =>
    refine lanes_of_eq (width_dvd o.ty) rfl ?_
    simp only [vabsSem, fDec_envX, magOf_envX, envX_velem, isNan_iff]
  case neg =>
    refine lanes_of_eq (width_dvd o.ty) rfl ?_
    simp only [vnegSem, fDec_envX, magOf_envX, envX_velem, isNan_iff, Fmt.pack, Bool.not_eq_true', ← Bool.not_eq_true, ite_not]
  case min => exact vexactGives_of (fun _ _ => rfl) fun _ _ => rfl
  case max => exact vexactGives_of (fun _ _ => rfl) fun _ _ => rfl
  case cpys =>
    refine lanes_of_eq (width_dvd o.ty) rfl ?_
    simp only [vcpysSem, fExact2, fDec_envX, magOf_envX, envX_velem, Bool.or_eq_true, isNan_iff, Fmt.pack]

/-- Settles O22: every byte lane of an active element takes its element's condition. -/
theorem vectorCompares : Obligations.VectorCompares := by
  unfold Obligations.VectorCompares
  intro s c t w o
  refine ⟨fun _ => comparesTo_of rfl (vcmpSem_eq o) fun e => ?vcmp, fun _ => comparesTo_of rfl (vicmpSem_eq o) fun e => ?vicmp⟩
  case vcmp =>
    rw [envX_velem, envX_velem, fDec_envX, fDec_envX, fCond_iff]
  case vicmp => rw [envX_velem, envX_velem, iCond_iff]

/-- Settles O23: arithmetic is exact and then wrapped or clamped; the other operations raise nothing. -/
theorem vectorIntegers : Obligations.VectorIntegers := by
  unfold Obligations.VectorIntegers
  refine ⟨?add, ?sub, ?mul, ?mulh, ?and, ?or, ?xor, ?andn, ?min, ?max, fun s c t w ty sat d a k => ?abs⟩
  case add => exact vIntGives_arith (· + ·) (fun _ _ => rfl) fun _ _ => rfl
  case sub => exact vIntGives_arith (· - ·) (fun _ _ => rfl) fun _ _ => rfl
  case mul => exact vIntGives_arith (· * ·) (fun _ _ => rfl) fun _ _ => rfl
  case mulh =>
    refine vIntGives_quiet (fun n sgn x y => wrapTo n (readAs sgn n x * readAs sgn n y / (2 ^ n : Nat))) (fun _ _ => rfl)
      (fun _ _ => rfl) fun n sgn x y => ?_
    rw [ofNat_wrapTo, readAs_toNat, readAs_toNat, Nat.cast_pow, Nat.cast_ofNat]
  case and => exact vIntGives_quiet (fun _ _ => (· &&& ·)) (fun _ _ => rfl) (fun _ _ => rfl) fun _ _ => ofNat_and
  case or => exact vIntGives_quiet (fun _ _ => (· ||| ·)) (fun _ _ => rfl) (fun _ _ => rfl) fun _ _ => ofNat_or
  case xor => exact vIntGives_quiet (fun _ _ => (· ^^^ ·)) (fun _ _ => rfl) (fun _ _ => rfl) fun _ _ => ofNat_xor
  case andn =>
    exact vIntGives_quiet (fun n _ x y => x &&& (2 ^ n - 1 - y)) (fun _ _ => rfl) (fun _ _ => rfl) fun _ => ofNat_elAndn
  case min =>
    exact vIntGives_quiet (fun n sgn x y => if readAs sgn n x ≤ readAs sgn n y then x else y) (fun _ _ => rfl) (fun _ _ => rfl)
      fun _ => ofNat_elMin
  case max =>
    exact vIntGives_quiet (fun n sgn x y => if readAs sgn n y ≤ readAs sgn n x then x else y) (fun _ _ => rfl) (fun _ _ => rfl)
      fun _ => ofNat_elMax
  case abs =>
    refine lanes_of_eachEl (width_dvd ty) rfl rfl fun e _ _ => ?_
    rw [envX_velem, readAs_toNat, intOut_eq_clampTo, Int.natCast_natAbs]
    exact ⟨rfl, rfl⟩

/-- Settles O24: each shift of an element is the bit vector's. -/
theorem vectorShifts : Obligations.VectorShifts := by
  unfold Obligations.VectorShifts
  refine ⟨?shl, ?shr, ?sar, ?rot⟩
  case shl => exact vShiftGives_of shlEl (fun _ _ => rfl) (fun _ _ => rfl) fun _ => ofNat_shlEl
  case shr => exact vShiftGives_of shrEl (fun _ _ => rfl) (fun _ _ => rfl) fun _ => ofNat_shrEl
  case sar => exact vShiftGives_of sarEl (fun _ _ => rfl) (fun _ _ => rfl) fun _ => ofNat_sarEl
  case rot => exact vShiftGives_of rotEl (fun _ _ => rfl) (fun _ _ => rfl) fun _ => ofNat_rotEl

end Sys2Proof
end

section
/-!
SUPPORT. Operations on a lane group (R370 to R374): n elements from a base on take what a function gives of each, every other bit
of the vector keeping its value.
-/

namespace Sys2Proof.Machine

/-! ## A group of elements replaced -/

section
variable {w b n : Nat} {l : List Nat} (v : Vec)

theorem joinEls_testBit {e j : Nat} (he : e < l.length) (hj : j < w) : (joinEls w l).testBit (w * e + j) = l[e].testBit j := by
  have hel := congrArg (·.testBit j) (el_joinEls w l e he)
  simpa [el, hj, Nat.testBit_mod_two_pow, Nat.testBit_div_two_pow, Nat.add_comm] using hel

theorem elemOf_setBits (hfit : w * (b + n) ≤ 512) (hl : l.length = n) {e : Nat} (he : e < n) :
    elemOf w (b + e) (setBits v (w * b) (w * n) (joinEls w l)) = BitVec.ofNat w (l[e]'(hl ▸ he)) := by
  have hin (j : Nat) (hj : j < w) : w * e + j < w * n := by
    calc w * e + j < w * (e + 1) := by rw [Nat.mul_succ]; omega
      _ ≤ w * n := Nat.mul_le_mul_left w he
  refine BitVec.eq_of_getLsbD_eq fun j hj => ?_
  have hplace : w * (b + e) + j - w * b = w * e + j := by rw [Nat.mul_add]; omega
  rw [elemOf, BitVec.getLsbD_extractLsb', BitVec.getLsbD_ofNat, setBits_bit _ _ _ _ (by rwa [← Nat.mul_add]),
    if_pos (by have := hin j hj; rw [Nat.mul_add]; omega), hplace, joinEls_testBit (hl ▸ he) hj]

theorem setBits_keeps (x : Nat) (hfit : w * (b + n) ≤ 512) {y : Nat} (hy : y < w * b ∨ w * (b + n) ≤ y) :
    (setBits v (w * b) (w * n) x).getLsbD y = v.getLsbD y := by
  rw [setBits_bit _ _ _ _ (by rwa [← Nat.mul_add]), if_neg (by rw [Nat.mul_add] at hy; omega)]

end

/-- What an operation on the n elements of w bits from b on of vD answers. -/
def groupHalf (s : State) (t : Thread) (d : VReg) (act : Nat → Bool) (w b n : Nat) (g : List (GReg × Word)) (srs : Bool)
    (f : Nat → Nat → Res8) : Half :=
  let old := readV s t d
  let r := runEls act (fun e => velem w (b + e) old) f (List.range n) 0
  ⟨{ Wr.none with v := [(d, setBits old (w * b) (w * n) (joinEls w r.1))], g := g, flags := r.2, srs := srs }, none, n⟩

/-- It retires with the flags that its active elements raise. -/
theorem group_gives {s : State} {c : Cur} {t : Thread} {o : Owner} {i : Instr} {sem : Env → Half} {d : VReg} {m : BitVec 64}
    {big w b n : Nat} {g : List (GReg × Word)} {srs : Bool} {f : Nat → Nat → Res8} (hexec : exec i s = runV i sem s)
    (hsem : sem (envX (bare s) c t o i) = groupHalf s t d (isActive m big) w b n g srs f) (hfit : w * (b + n) ≤ 512) :
    let fl := raised (isActive m big) n (fun e => (f e (rankIn m big e)).2)
    Issues s c t o i fl →
      ∃ r : Vec, exec i s = .next (doneLone s c t o i n { Wr.ofV d r with g := g, flags := fl, srs := srs }) ∧
        (∀ e < n, elemOf w (b + e) r = if isActive m big e then BitVec.ofNat w (f e (rankIn m big e)).1
          else elemOf w (b + e) (readV s t d)) ∧
        ∀ y < 512, (y < w * b ∨ w * (b + n) ≤ y) → r.getLsbD y = (readV s t d).getLsbD y := by
  intro fl h
  have hfl : (groupHalf s t d (isActive m big) w b n g srs f).w.flags = fl := runEls_raised ..
  have hdone := runV_done (hh := groupHalf s t d (isActive m big) w b n g srs f) (hfl ▸ h) hsem rfl
  refine ⟨_, hexec.trans (hdone.trans (by rw [← hfl]; rfl)), fun e he => ?_, fun y _ hy => setBits_keeps _ _ hfit hy⟩
  rw [elemOf_setBits _ hfit (by rw [runEls_length, List.length_range]) he, runEls_range _ _ _ _ _ he]
  split
  next => rfl
  next => rw [velem_eq, ofNat_toNat_self, elemOf]

/-! ## Conversions (R370) -/

/-- The group of a conversion lies in the vector. -/
theorem group_fits (o : VConv) (hok : o.groupOk = true) :
    let n := 512 / max o.src.width o.ty.width
    o.ty.width * ((if o.ty.width < o.src.width then o.g.toNat * n else 0) + n) ≤ 512 := by
  intro n
  have hall : max o.src.width o.ty.width * n ≤ 512 := Nat.mul_div_le ..
  split
  next hnarrow =>
    have hgroup : o.g.toNat < o.src.width / o.ty.width := by simpa [VConv.groupOk, hnarrow] using hok
    calc o.ty.width * (o.g.toNat * n + n) = o.ty.width * (o.g.toNat + 1) * n := by ring
      _ ≤ o.src.width * n :=
        Nat.mul_le_mul_right n ((Nat.mul_le_mul_left _ hgroup).trans (Nat.mul_div_le ..))
      _ ≤ 512 := (Nat.mul_le_mul_right n (le_max_left ..)).trans hall
  next => simpa using (Nat.mul_le_mul_right n (le_max_right ..)).trans hall

theorem groupOk_of_wf {o : VConv} :
    (Instr.wf (.vcvt o) = true → o.groupOk = true) ∧ (Instr.wf (.vftoi o) = true → o.groupOk = true)
      ∧ (Instr.wf (.vitof o) = true → o.groupOk = true) := by
  simp only [Instr.wf, Bool.and_eq_true]
  exact ⟨And.right, And.right, And.right⟩

/-- A conversion whose elements are what the statement has them be. -/
theorem converts_of {s : State} {c : Cur} {t : Thread} {w : Owner} {i : Instr} {o : VConv} {sem : Env → Half}
    {f g : Nat → Nat → Res8} (hok : o.groupOk = true) (hexec : exec i s = runV i sem s)
    (hsem : sem (envX (bare s) c t w i) = convEls (envX (bare s) c t w i) o f)
    (hfg : ∀ (x : BitVec o.src.width) k, f x.toNat k = g x.toNat k) :
    Converts s c t w i o.d o.a o.k o.src.width o.ty.width o.g.toNat (rndSrs t w o.rnd) g := by
  have hbig : (if o.src.width < o.ty.width then o.ty.width else o.src.width) = max o.src.width o.ty.width := by
    rw [Nat.max_def]
    split <;> split <;> omega
  unfold Converts
  refine group_gives hexec (hsem.trans ?_) (group_fits o hok)
  simp only [convEls, hbig, envX_velem, envX_old, envX_m, asksSrs_envX, hfg]
  rfl

/-! ## Blocks (R373, R374) -/

theorem blkTrap_good {ty : VType} {ds : Nat} (h : checkDesc ds = .ok ∧ ds / 4096 = blkCode ty) : blkTrap ty ds = none := if_pos h
theorem blkTrap_bad {ty : VType} {ds : Nat} (h : ¬ (checkDesc ds = .ok ∧ ds / 4096 = blkCode ty)) :
    blkTrap ty ds = some (mkTrap 0x0E ds 0) := if_neg h

/-- Whether VQNT finds a NaN that its format has no code for. -/
def nanSeen (o : VBlk) (ds : Nat) (m : BitVec 64) (a : Vec) : Bool :=
  (o.ty == .e2m1 || o.ty == .i8) && ds % 256 != 255 &&
    (List.range 16).any (fun e => active m 32 e && (F32.dec false (elemOf 32 e a).toNat).isNan)

theorem nanSeen_iff (o : VBlk) (ds : Nat) (m : BitVec 64) (a : Vec) : nanSeen o ds m a = true ↔ ∃ e < 16, isActive m 32 e = true ∧
    (o.ty = .e2m1 ∨ o.ty = .i8) ∧ ds % 256 ≠ 255 ∧ F32.dec false (elemOf 32 e a).toNat = .nan := by
  simp only [nanSeen, Bool.and_eq_true, Bool.or_eq_true, beq_iff_eq, bne_iff_ne, List.any_eq_true, List.mem_range, isNan_iff]
  constructor
  · rintro ⟨⟨hty, hds⟩, e, he, hact, hnan⟩
    exact ⟨e, he, hact, hty, hds, hnan⟩
  · rintro ⟨e, he, hact, hty, hds, hnan⟩
    exact ⟨⟨hty, hds⟩, e, he, hact, hnan⟩

section
variable (s : State) (c : Cur) (t : Thread) (w : Owner) (i : Instr) (o : VBlk)

/-- The lane group that gL names. -/
theorem blkGroup_eq (x : Word) : blkGroup o.ty x = if o.ty = .e2m1 then x.toNat % 8 else x.toNat % 4 := by
  simp only [blkGroup, beq_iff_eq]

theorem blkGroup_fits (ty : VType) (x : Word) (hty : ty.isBlk = true) : ty.width * (16 * blkGroup ty x + 16) ≤ 512 := by
  cases ty <;> simp [VType.isBlk, VType.width, blkGroup] at hty ⊢ <;> omega

theorem quantEl_envX (ds x k : Nat) (hty : o.ty.isBlk = true) : quantEl (envX (bare s) c t w i) o ds x k =
    let y := unscale (F32.dec (t.fpc.getLsbD 3) x).exact (ds % 256)
    let mode := rndMode t w o.rnd
    let how := if o.nsat then Over.nsat else .sat
    let D := drawOf (envX (bare s) c t w i) k
    if ds % 256 = 255 then (0, 0)
    else if o.ty = .e4m3 then E4M3.round mode false how D y
    else if o.ty = .e5m2 then E5M2.round mode false how D y
    else if o.ty = .e2m1 then e2round mode D (ds / 256 % 16) y
    else i8round mode D y := by
  simp only [quantEl, modeOf_envX, ftzOf_envX]
  cases hcase : o.ty <;> simp

theorem vqntSem_envX (hgood : checkDesc ((readG s t o.s).toNat % 65536) = .ok
      ∧ (readG s t o.s).toNat % 65536 / 4096 = blkCode o.ty) :
    let ds := (readG s t o.s).toNat % 65536
    let a := vecIn s c t i o.a
    vqntSem o (envX (bare s) c t w i) = groupHalf s t o.d (isActive (readM t o.k) 32) o.ty.width (16 * blkGroup o.ty (readG s t o.l))
      16 (if nanSeen o ds (readM t o.k) a then [(o.s, readG s t o.s ||| 0xFF)] else []) (rndSrs t w o.rnd)
      (fun e k => quantEl (envX (bare s) c t w i) o ds (elemOf 32 e a).toNat k) := by
  simp only [vqntSem, envX_g, blkTrap_good hgood, envX_velem, envX_old, envX_m, asksSrs_envX, groupHalf, Nat.mul_assoc]
  rfl

end

end Sys2Proof.Machine
end

section
namespace Sys2Proof
open Sys2Proof.Machine

/-- Settles O25: each conversion rounds what its source element is once. -/
theorem vectorConversions : Obligations.VectorConversions := by
  unfold Obligations.VectorConversions
  intro s c t w o
  have hvftoi : envX (bare s) c t w (.vftoi o) = envX (bare s) c t w (.vcvt o) := rfl
  have hvitof : envX (bare s) c t w (.vitof o) = envX (bare s) c t w (.vcvt o) := rfl
  refine ⟨drawOf (envX (bare s) c t w (.vcvt o)), drawOf_lt _, fun hwf => ?vcvt, fun hwf => ?vftoi, fun hwf => ?vitof⟩
  case vcvt =>
    refine converts_of (groupOk_of_wf.1 hwf) rfl rfl fun x k => ?_
    simp only [cvtOver, fRnd_envX, fDec, ftzOf_envX]
  case vftoi =>
    refine converts_of (groupOk_of_wf.2.1 hwf) rfl rfl fun x k => ?_
    simp only [modeOf_envX, hvftoi, fDec, ftzOf_envX]
  case vitof =>
    refine converts_of (groupOk_of_wf.2.2 hwf) rfl rfl fun x k => ?_
    simp only [fRnd_envX, hvitof, readAs_toNat, ofNat_toNat_self]

/-- Settles O26: a good descriptor's group is quantised or dequantised, another descriptor traps. -/
theorem blockQuantisation : Obligations.BlockQuantisation := by
  unfold Obligations.BlockQuantisation
  intro s c t w o
  have hvdqnt : envX (bare s) c t w (.vdqnt o) = envX (bare s) c t w (.vqnt o) := rfl
  refine ⟨drawOf (envX (bare s) c t w (.vqnt o)), drawOf_lt _, fun hwf hgood => ?vqnt, fun hwf hgood => ?vdqnt, fun hbad => ?trap⟩
  case vqnt =>
    intro x nan y mode how f h
    have hty : o.ty.isBlk = true := hwf
    have hsem := vqntSem_envX s c t w (.vqnt o) o hgood
    simp only [quantEl_envX s c t w _ o _ _ _ hty] at hsem
    obtain ⟨r, hexec, hels, hkeeps⟩ := group_gives (f := f) rfl hsem (blkGroup_fits o.ty _ hty) h
    rw [blkGroup_eq] at hels hkeeps
    exact ⟨r, _, hexec, hels, hkeeps, fun hnan => if_pos ((nanSeen_iff ..).2 hnan), fun hno => if_neg (mt (nanSeen_iff ..).1 hno)⟩
  case vdqnt =>
    refine lanes_of_eq (by decide) rfl ?_
    simp only [vdqntSem, envX_g, blkTrap_good hgood, fRnd_envX, hvdqnt, envX_velem, ftzOf_envX, asksSrs_envX, blkGroup_eq]
    rfl
  case trap =>
    exact ⟨fun h => runX_trapC h (by simp only [vqntSem, envX_g, blkTrap_bad hbad, Half.asX]),
      fun h => runX_trapC h (by simp only [vdqntSem, envX_g, blkTrap_bad hbad, Half.asX])⟩

end Sys2Proof
end

section
/-!
SUPPORT. Moves between vectors, general registers and masks, and random numbers (R375 to R379, R382).
-/

namespace Sys2Proof.Machine

section
variable {s : State} {c : Cur} {t : Thread} {w : Owner} {i : Instr}

/-! ## Operations that raise nothing -/

/-- A lone V-op that raises nothing and draws nothing. -/
theorem runV_quiet {sem : Env → Half} {wx : Wr} (h : Issues s c t w i 0) (hexec : exec i s = runV i sem s) (hfl : wx.flags = 0)
    (hsem : sem (envX (bare s) c t w i) = ⟨wx, none, 0⟩) : exec i s = .next (doneLone s c t w i 0 wx) :=
  hexec.trans (runV_done (hh := ⟨wx, none, 0⟩) (hfl ▸ h) hsem rfl)

theorem ofNat_mod_self (n x : Nat) : BitVec.ofNat n (x % 2 ^ n) = BitVec.ofNat n x :=
  BitVec.eq_of_toNat_eq (by rw [BitVec.toNat_ofNat, BitVec.toNat_ofNat, Nat.mod_mod])

/-- Elements of a bit vector each. -/
theorem lanes_quiet {d : VReg} {k : MReg} {n : Nat} {sem : Env → Half} {f : Nat → Nat} {g : Nat → BitVec n} (hn : n ∣ 512)
    (hexec : exec i s = runV i sem s)
    (hsem : sem (envX (bare s) c t w i) = eachEl (envX (bare s) c t w i) n d k false (fun e _ => (f e, 0)))
    (hfg : ∀ e < 512 / n, BitVec.ofNat n (f e) = g e) : Lanes s c t w i d k n false (fun e _ => ((g e).toNat, 0)) :=
  lanes_of_eachEl hn hexec hsem fun e _ he => ⟨by rw [hfg e he, ofNat_toNat_self], rfl⟩

/-- Element e of a vector whose elements were computed under a mask. -/
theorem elemOf_runEls {n : Nat} (hn : n ∣ 512) (m : BitVec 64) (old : Vec) (f : Nat → Nat → Res8) {e : Nat} (he : e < 512 / n) :
    elemOf n e (vecOfEls n (runEls (active m n) (fun e => velem n e old) f (List.range (512 / n)) 0).1)
      = if isActive m n e then BitVec.ofNat n (f e (rankIn m n e)).1 else elemOf n e old := by
  rw [elemOf, extract_vecOfEls hn (by rw [runEls_length, List.length_range]) he, runEls_range _ _ _ _ _ he]
  show BitVec.ofNat n (if isActive m n e then _ else _) = _
  split
  next => rfl
  next => rw [velem_eq, ofNat_toNat_self, elemOf]

/-! ## One element (R379) -/

theorem elemOf_setOne {n q : Nat} (hn : n ∣ 512) (v : Vec) (x : Nat) (hq : q < 512 / n) (e : Nat) :
    elemOf n e (setBits v (n * q) n x) = if e = q then BitVec.ofNat n x else elemOf n e v := by
  have hfit : n * (q + 1) ≤ 512 := (Nat.mul_le_mul_left n hq).trans (Nat.mul_div_cancel' hn).le
  have hone : setBits v (n * q) n x = setBits v (n * q) (n * 1) (joinEls n [x]) := by simp [setBits, joinEls]
  rw [hone]
  split
  next heq => rw [heq]; exact elemOf_setBits (b := q) v hfit rfl one_pos
  next hne =>
    refine BitVec.eq_of_getLsbD_eq fun j hj => ?_
    have hout : n * e + j < n * q ∨ n * (q + 1) ≤ n * e + j := by
      rcases Nat.lt_or_gt_of_ne hne with hlt | hgt
      · exact .inl (Nat.lt_of_lt_of_le (by rw [Nat.mul_succ]; omega) (Nat.mul_le_mul_left n hlt))
      · exact .inr ((Nat.mul_le_mul_left n hgt).trans (Nat.le_add_right ..))
    rw [elemOf, elemOf, BitVec.getLsbD_extractLsb', BitVec.getLsbD_extractLsb', setBits_keeps _ _ hfit hout]

/-- An element put in where its index is one of the vector's and its lane is active. -/
theorem elemOf_insert {n : Nat} (hn : n ∣ 512) (v : Vec) (x : Word) (m : BitVec 64) (q : Nat) {e : Nat} (he : e < 512 / n) :
    elemOf n e (if q < 512 / n ∧ isActive m n q = true then setBits v (n * q) n x.toNat else v)
      = if e = q ∧ isActive m n e = true then x.setWidth n else elemOf n e v := by
  by_cases hin : q < 512 / n ∧ isActive m n q = true
  · rw [if_pos hin, elemOf_setOne hn v _ hin.1, BitVec.ofNat_toNat]
    by_cases heq : e = q
    · rw [if_pos heq, if_pos ⟨heq, heq ▸ hin.2⟩]
    · rw [if_neg heq, if_neg fun h => heq h.1]
  · rw [if_neg hin, if_neg]
    rintro ⟨rfl, hact⟩
    exact hin ⟨he, hact⟩

/-! ## Lane indices (R379) -/

theorem laneOf_envX (src : GSrc) : laneOf (envX (bare s) c t w i) src = match src with
    | .reg r => (readG s t r).toNat
    | .imm v => v.toNat := by
  cases src with
  | reg r => exact congrArg BitVec.toNat (envX_g ..)
  | imm v => rfl

end

/-! ## Draws of the thread's generator (R164, R376) -/

theorem lcgDraws_getD (x y : Word) {k j : Nat} (hj : j < k) : (lcgDraws k x).getD j y = lcgNext^[j + 1] x := by
  induction k generalizing x j with
  | zero => omega
  | succ k ih =>
    cases j with
    | zero => rw [lcgDraws, List.getD_cons_zero, Nat.zero_add, Function.iterate_one]
    | succ j => rw [lcgDraws, List.getD_cons_succ, ih (lcgNext x) (Nat.lt_of_succ_lt_succ hj), ← Function.iterate_succ_apply]

section
variable (s : State) (t : Thread) (d : VReg) (k : MReg)

/-- vD after VRNDT. -/
def drawnVec : Vec :=
  vecOfEls 32 (runEls (active (readM t k) 32) (fun e => velem 32 e (readV s t d))
    (fun e _ => ((lcgOut ((lcgDraws 16 t.rngs0).getD e 0)).toNat, 0)) (List.range (512 / 32)) 0).1

theorem elemOf_drawnVec {e : Nat} (he : e < 16) : elemOf 32 e (drawnVec s t d k)
    = if isActive (readM t k) 32 e then lcgOut (lcgNext^[e + 1] t.rngs0) else elemOf 32 e (readV s t d) := by
  rw [drawnVec, elemOf_runEls (by decide) _ _ _ he, lcgDraws_getD _ _ he, ofNat_toNat_self]

/-- The generator moves sixteen draws, whatever the mask. -/
theorem vrndtSem_envX (c : Cur) (w : Owner) (i : Instr) : vrndtSem d k (envX (bare s) c t w i)
    = ⟨{ Wr.ofV d (drawnVec s t d k) with sp := [(0x08, lcgNext^[16] t.rngs0)] }, none, 16⟩ := by
  have hlast := lcgDraws_getD t.rngs0 0 (show 15 < 16 by decide)
  have hquiet := runEls_quiet (active (readM t k) 32) (fun e => velem 32 e (readV s t d))
    (fun e _ => ((lcgOut ((lcgDraws 16 t.rngs0).getD e 0)).toNat, 0)) (fun _ _ => rfl) (List.range (512 / 32)) 0
  simp only [vrndtSem, eachEl, envX_old, envX_t, envX_m, hlast, hquiet]
  rfl

end

end Sys2Proof.Machine
end

section
namespace Sys2Proof
open Sys2Proof.Machine

/-- Settles O27: each element is the source element that the operation names. -/
theorem vectorMoves : Obligations.VectorMoves := by
  unfold Obligations.VectorMoves
  intro s c t w ty d a b k n
  refine ⟨fun sat hwf => ?pack, fun h hwf => ?unpk, ?perm, fun src => ?rotl, ?mov, fun h => ?sel⟩
  case pack =>
    have hhalf : 512 / n / 2 = 256 / n := by rw [Nat.div_div_eq_div_mul, Nat.mul_comm, ← Nat.div_div_eq_div_mul]
    refine lanes_of_eachEl (width_dvd ty) rfl rfl fun e _ _ => ?_
    simp only [envX_velem, ← apply_ite BitVec.toNat, readAs_toNat, intOut_eq_clampTo]
    rw [← hhalf]
    exact ⟨rfl, rfl⟩
  case unpk =>
    have hn : 2 * n ∣ 512 := by
      have hpack : ty.isPack = true := hwf
      revert hpack
      cases ty <;> decide
    refine lanes_quiet hn rfl rfl fun e _ => ?_
    rw [envX_velem, ofNat_wrapTo_readAs]
  case perm =>
    refine lanes_of_eq (width_dvd ty) rfl ?_
    simp only [vpermSem, envX_velem]
    rfl
  case rotl =>
    refine lanes_of_eq (width_dvd ty) rfl ?_
    simp only [vrotlSem, envX_velem, laneOf_envX]
    rfl
  case mov =>
    refine lanes_of_eq (width_dvd ty) rfl ?_
    simp only [vmovSem, envX_velem]
    rfl
  case sel =>
    refine ⟨_, runV_quiet h rfl rfl rfl, fun e he => ?_⟩
    refine (extract_vecOfEls (width_dvd ty) (by simp) he).trans ?_
    simp only [List.getElem_map, List.getElem_range, envX_velem, ← apply_ite BitVec.toNat, ofNat_toNat_self]
    rfl

/-- Settles O28: a scalar goes to every element or to one, or comes from one; masks are bit vectors. -/
theorem vectorScalarsAndMasks : Obligations.VectorScalarsAndMasks := by
  unfold Obligations.VectorScalarsAndMasks
  intro s c t w
  refine ⟨fun ty d src k => ?bcast, fun ty d a src k h => ?extl, fun ty d a src k h => ?insl, fun d a b h => ?and, fun d a b h => ?or,
    fun d a b h => ?xor, fun d a h => ?not, fun d a h => ?popc⟩
  case bcast =>
    refine lanes_quiet (width_dvd ty) rfl rfl fun e _ => ?_
    cases src with
    | reg r => simp only [envX_g, ofNat_mod_self, BitVec.ofNat_toNat]
    | imm v => simp only [← apply_ite BitVec.toNat, ofNat_toNat_self]
  case extl =>
    intro q x
    refine runV_quiet h rfl rfl ?_
    simp only [vextlSem, laneOf_envX, envX_velem, ofNat_wrapTo_readAs]
    rfl
  case insl =>
    intro q n
    refine ⟨_, runV_quiet h rfl rfl rfl, fun e he => ?_⟩
    simp only [laneOf_envX, envX_old, envX_g, envX_m, Bool.and_eq_true, decide_eq_true_eq]
    exact elemOf_insert (width_dvd ty) _ _ _ q he
  case and => exact runV_quiet h rfl rfl rfl
  case or => exact runV_quiet h rfl rfl rfl
  case xor => exact runV_quiet h rfl rfl rfl
  case not => exact runV_quiet h rfl rfl rfl
  case popc => exact runV_quiet h rfl rfl (by simp only [mpopcSem, onesIn_eq]; rfl)

/-- Settles O30: draws step the generator from the thread's state; hashes mix what they are given. -/
theorem vectorRandom : Obligations.VectorRandom := by
  unfold Obligations.VectorRandom
  intro s c t w next mix
  refine ⟨fun d k h => ?rndt, fun ty d a k => ?rndh, fun d a b k => ?mix⟩
  case rndt =>
    refine ⟨drawnVec s t d k, runV_done (hh := ⟨{ Wr.ofV d (drawnVec s t d k) with sp := [(0x08, lcgNext^[16] t.rngs0)] }, none, 16⟩)
      h (vrndtSem_envX ..) rfl, fun e he => ?_⟩
    rw [elemOf_drawnVec s t d k he]
    rfl
  case rndh =>
    refine lanes_of_eachEl (width_dvd ty) rfl rfl fun e _ _ => ⟨?_, rfl⟩
    rw [envX_g, ofNat_mod_self]
    rfl
  case mix =>
    refine lanes_quiet (by decide) rfl rfl fun e _ => ?_
    rw [envX_velem, envX_g, ofNat_toNat_self, ofNat_toNat_self]
    rfl

end Sys2Proof
end

section
/-!
SUPPORT. Loads that complete within their bundle (R191, R193, R334, R335, R338): what a core's own scratchpad and its L1 copies
answer, byte by byte.
-/

namespace Sys2Proof.Machine

/-! ## Bytes of a number (R330) -/

theorem foldr_byte (bs : List Byte) (k : Nat) :
    bs.foldr (fun b n => b.toNat + 256 * n) 0 / 256 ^ k % 256 = (bs.getD k 0).toNat := by
  induction bs generalizing k with
  | nil => simp
  | cons b bs ih =>
    have hb : b.toNat < 256 := b.isLt
    cases k with
    | zero => simp [Nat.add_mul_mod_self_left, Nat.mod_eq_of_lt hb]
    | succ k =>
      rw [List.foldr_cons, List.getD_cons_succ, ← ih k, Nat.pow_succ', ← Nat.div_div_eq_div_mul,
        Nat.add_mul_div_left _ _ (by decide), Nat.div_eq_of_lt hb, Nat.zero_add]

/-- Byte k of a number of enough bits. -/
theorem extract_ofNat_byte {w k : Nat} (hk : 8 * k + 8 ≤ w) (bs : List Byte) :
    (BitVec.ofNat w (bs.foldr (fun b n => b.toNat + 256 * n) 0)).extractLsb' (8 * k) 8 = bs.getD k 0 := by
  refine BitVec.eq_of_getLsbD_eq fun j hj => ?_
  rw [BitVec.getLsbD_extractLsb', BitVec.getLsbD_ofNat, ← BitVec.testBit_toNat (x := bs.getD k 0), ← foldr_byte,
    show (256 : Nat) ^ k = 2 ^ (8 * k) by rw [Nat.pow_mul], show (256 : Nat) = 2 ^ 8 from rfl, Nat.testBit_mod_two_pow,
    Nat.testBit_div_two_pow]
  simp [hj, Nat.add_comm, show j + 8 * k < w by omega]

theorem elemOf_bytesVec (bs : List Byte) {b : Nat} (hb : b < 64) : elemOf 8 b (bytesVec bs) = bs.getD b 0 :=
  extract_ofNat_byte (by omega) bs

theorem wordOfList_byte (bs : List Byte) {k : Nat} (hk : k < 8) : (wordOfList bs).extractLsb' (8 * k) 8 = bs.getD k 0 :=
  extract_ofNat_byte (by omega) bs

theorem elemOf_mergeLanes (m : BitVec 64) (old new : Vec) {b : Nat} (hb : b < 64) :
    elemOf 8 b (mergeLanes m old new) = if m.getLsbD b = true then elemOf 8 b new else elemOf 8 b old := by
  rw [mergeLanes, elemOf_bytesVec _ hb, List.getD_eq_getElem _ _ (by simpa using hb), List.getElem_map, List.getElem_range]
  rfl

/-- What a load of n bytes from an L1 copy gives. -/
theorem extend_bytes (sgn : Bool) {n : Nat} (bs : List Byte) (h0 : 0 < n) (h8 : n ≤ 8) :
    let x := extend sgn n (wordOfList bs)
    (∀ k < n, x.extractLsb' (8 * k) 8 = bs.getD k 0) ∧ ∀ b < 64, 8 * n ≤ b → x.getLsbD b = (sgn && x.getLsbD (8 * n - 1)) := by
  refine ⟨fun k hk => ?_, fun b hb hhigh => ?_⟩
  · rw [← wordOfList_byte bs (by omega)]
    refine BitVec.eq_of_getLsbD_eq fun i hi => ?_
    rw [BitVec.getLsbD_extractLsb', BitVec.getLsbD_extractLsb', extend_getLsbD _ _ h0 (by omega), if_pos (by omega)]
  · rw [extend_getLsbD _ _ h0 hb, if_neg (by omega), extend_getLsbD _ _ h0 (by omega), if_pos (by omega)]

theorem Memory.readN_getD (m : Memory) (a : Nat) {n k : Nat} (hk : k < n) : (Memory.readN m a n).getD k 0 = Memory.read m (a + k) := by
  induction n generalizing a k with
  | zero => omega
  | succ n ih =>
    rw [Memory.readN]
    cases k with
    | zero => rw [List.getD_cons_zero, Nat.add_zero]
    | succ k => rw [List.getD_cons_succ, ih (a + 1) (Nat.lt_of_succ_lt_succ hk), Nat.add_right_comm, Nat.add_assoc]

theorem bytesOfType_pos (ty : IType) : 0 < bytesOfType ty := by cases ty <;> decide

/-! ## Reads of the own scratchpad (R167, R334, R338) -/

theorem noteEarly_plain {s u : State} {r : Req} (hrel : r.rel = none) : noteEarly s u r = u := by simp only [noteEarly, hrel]

section
variable {e : Env} {a : Act332} {k : AccKind} {va : Word} {n al off : Nat} {kind : ReqKind} {rel acq : Option Scope}

/-- A read of unmarked bytes goes on with them. -/
theorem serveRead_own (h : OwnSpad e a k va n al off kind rel acq) (hclean : cleanAt e off n) (f : State → List Byte → Served) :
    serveRead e.s (ownReq e kind va off n rel acq) f = f e.s (Memory.readN e.s.spad (spadKey e.t.o e.t.core off) n) := by
  have hmark : reqMark e.s (ownReq e kind va off n rel acq) = 0 := hclean
  have hleaf : (ownReq e kind va off n rel acq).leaf = none := rfl
  unfold serveRead
  rw [if_neg (Bool.eq_false_iff.1 (layoutBad_own h)), hleaf]
  cases howner : owner? e.s (ownReq e kind va off n rel acq).o <;> simp only [hmark] <;> rfl

theorem ask_load_own {sgn : Bool} {d : GReg} (h : OwnSpad e a k va n al off (.load n sgn d) none acq) (hclean : cleanAt e off n) :
    ask e (ownReq e (.load n sgn d) va off n none acq) = .ok (oneMore e.s)
      { Wr.ofG d (extend sgn n (wordOfList (Memory.readN e.s.spad (spadKey e.t.o e.t.core off) n))) with
        acq := acq.map (wideScope e.t) } := by
  have hserve := serveRead_own h hclean (fun s bs => .done s { (ownReq e (.load n sgn d) va off n none acq).reply with
      g := [(d, extend sgn n (wordOfList bs))], acq := (ownReq e (.load n sgn d) va off n none acq).acq,
      fill := fillsOf s (ownReq e (.load n sgn d) va off n none acq) (sectorsOf (ownReq e (.load n sgn d) va off n none acq)) })
  refine (ask_own h hserve rfl rfl rfl).trans ?_
  rw [noteEarly_plain rfl]
  rfl

theorem ask_vload_own {d : VReg} {m : BitVec 64} (h : OwnSpad e a k va 64 al off (.vload d m none) none acq) (hclean : cleanAt e off 64) :
    ask e (ownReq e (.vload d m none) va off 64 none acq) = .ok (oneMore e.s)
      { Wr.ofV d (mergeLanes m (readV e.s e.t d) (bytesVec (Memory.readN e.s.spad (spadKey e.t.o e.t.core off) 64))) with
        acq := acq.map (wideScope e.t) } := by
  have hserve := serveRead_own h hclean (fun s bs => .done s { (ownReq e (.vload d m none) va off 64 none acq).reply with
      v := [(d, m, bytesVec bs <<< 0)], acq := (ownReq e (.vload d m none) va off 64 none acq).acq,
      fill := fillsOf s (ownReq e (.vload d m none) va off 64 none acq) (sectorsOf (ownReq e (.vload d m none) va off 64 none acq)) })
  refine (ask_own h hserve rfl rfl rfl).trans ?_
  rw [noteEarly_plain rfl, BitVec.shiftLeft_zero]
  rfl

section
variable {clr sgn : Bool} {d : GReg} (h : OwnSpad e a k va n al off (.lds clr n sgn d) none acq)
include h

/-- LDS and LDS.clr of a full granule. -/
theorem ask_lds_full (hfull : getD false e.s.spadFE (granKey e.t.o e.t.core off) = true) (hclean : cleanAt e off n) :
    ask e (ownReq e (.lds clr n sgn d) va off n none acq)
      = .ok (if clr then { oneMore e.s with spadFE := setD false e.s.spadFE (granKey e.t.o e.t.core off) false } else oneMore e.s)
        { Wr.ofG d (extend sgn n (wordOfList (Memory.readN e.s.spad (spadKey e.t.o e.t.core off) n))) with
          acq := acq.map (wideScope e.t) } := by
  have hbit : fullAt e.s (spotOf (ownReq e (.lds clr n sgn d) va off n none acq)) = true := hfull
  have hserve : serve0 e.s (ownReq e (.lds clr n sgn d) va off n none acq)
      = .done (if clr then { e.s with spadFE := setD false e.s.spadFE (granKey e.t.o e.t.core off) false } else e.s)
        { (ownReq e (.lds clr n sgn d) va off n none acq).reply with
          g := [(d, extend sgn n (wordOfList (Memory.readN e.s.spad (spadKey e.t.o e.t.core off) n)))],
          acq := acq.map (wideScope e.t) } := by
    have hkind : (ownReq e (.lds clr n sgn d) va off n none acq).kind = .lds clr n sgn d := rfl
    simp only [serve0, hkind, layoutBad_own h, hbit, serveRead_own h hclean, Bool.not_true, Bool.false_eq_true, if_false]
    rfl
  refine (ask_own h hserve rfl rfl rfl).trans ?_
  rw [noteEarly_plain rfl]
  cases clr <;> rfl

/-- LDS and LDS.clr of an empty granule wait at it. -/
theorem ask_lds_empty (hempty : getD false e.s.spadFE (granKey e.t.o e.t.core off) = false) :
    ask e (ownReq e (.lds clr n sgn d) va off n none acq)
      = .wait (addReq e.s { ownReq e (.lds clr n sgn d) va off n none acq with held := true }) (.reply e.s.nextId) := by
  have hbit : fullAt e.s (spotOf (ownReq e (.lds clr n sgn d) va off n none acq)) = false := hempty
  have hlocal : isLocal e (ownReq e (.lds clr n sgn d) va off n none acq) = true := beq_self_eq_true _
  have hserve : serve e.s (ownReq e (.lds clr n sgn d) va off n none acq) = .hold := by
    have hkind : (ownReq e (.lds clr n sgn d) va off n none acq).kind = .lds clr n sgn d := rfl
    simp only [serve, serve0, hkind, layoutBad_own h, hbit, Bool.not_false, Bool.false_eq_true, if_false, if_true]
  simp only [ask, hlocal, h.ord, Bool.and_true, if_true, hserve]
  rfl

end
end

/-! ## The four pieces of a wide load (R191) -/

theorem l1Bytes_length {c : Core} {pa n : Nat} {bs : List Byte} (h : l1Bytes c pa n = some bs) : bs.length = n := by
  unfold l1Bytes at h
  generalize hl : (List.range n).map (fun i => (l1Sector c (pa + i)).map fun v => v.extractLsb' (8 * ((pa + i) % 64)) 8) = l at h
  have hlen : l.length = n := by simp [← hl]
  rw [← hlen]
  clear hl hlen
  induction l generalizing bs with
  | nil => cases h; rfl
  | cons x l ih =>
    rw [List.foldr_cons] at h
    split at h
    next _ _ b rest hrest =>
      cases h
      rw [List.length_cons, List.length_cons, ih hrest]
    next => cases h

/-- A copy that is hit has every byte asked for. -/
theorem l1Hit_length {e : Env} {l : Leaf} {pa n : Nat} {bs : List Byte} (h : l1Hit e l pa n = some bs) : bs.length = n := by
  unfold l1Hit at h
  split at h
  · cases h
  · split at h
    · cases h
    · exact l1Bytes_length h

/-- Byte b of a vector of which piece i has been filled. -/
theorem elemOf_piece {bs : List Byte} (hlen : bs.length = 16) (i : Nat) {b : Nat} (hb : b < 64) :
    elemOf 8 b (bytesVec bs <<< (128 * i)) = if b / 16 = i then bs.getD (b % 16) 0 else 0 := by
  have hlow (h : b < 16 * i) : elemOf 8 b (bytesVec bs <<< (128 * i)) = 0 := by
    refine BitVec.eq_of_getLsbD_eq fun j hj => ?_
    rw [elemOf, BitVec.getLsbD_extractLsb', BitVec.getLsbD_shiftLeft]
    simp [show 8 * b + j < 128 * i by omega]
  have hhigh (h : 16 * i ≤ b) : elemOf 8 b (bytesVec bs <<< (128 * i)) = bs.getD (b - 16 * i) 0 := by
    rw [← elemOf_bytesVec bs (show b - 16 * i < 64 by omega)]
    refine BitVec.eq_of_getLsbD_eq fun j hj => ?_
    rw [elemOf, elemOf, BitVec.getLsbD_extractLsb', BitVec.getLsbD_extractLsb', BitVec.getLsbD_shiftLeft,
      show 8 * b + j - 128 * i = 8 * (b - 16 * i) + j by omega]
    simp [show 8 * b + j < 512 by omega, show ¬ 8 * b + j < 128 * i by omega]
  rcases Nat.lt_or_ge b (16 * i) with h | h
  · rw [hlow h, if_neg (by omega)]
  · rw [hhigh h]
    split
    · rw [show b - 16 * i = b % 16 by omega]
    · exact List.getD_eq_default _ _ (by omega)

section
variable (e : Env) (d : VReg) (k : MReg) (va : Word) (l : Loc) (more : Option (Nat × Loc)) (acq : Option Scope)

/-- The request of piece i of a wide load. -/
def loadPiece (i : Nat) : Req := pieceReq e (.vload d (e.m k) none) va l more none acq i

/-- What the L1 copy gives of piece i. -/
def pieceGot (i : Nat) (bs : List Byte) : Reply :=
  { (loadPiece e d k va l more acq i).reply with v := [(d, e.m k &&& (0xFFFF <<< (16 * i)), bytesVec bs <<< (128 * i))] }

/-- Piece i is read from the L1 copy or asked for. -/
def readPiece (acc : State × List Reply) (i : Nat) : State × List Reply :=
  match pieceHit e (pieceAt l more i) acq with
  | some bs => (plumbDue (l1Touch acc.1 e (loadPiece e d k va l more acq i).pa 16) e.t.o e.t.tid (loadPiece e d k va l more acq i).tgt,
      acc.2 ++ [pieceGot e d k va l more acq i bs])
  | none => (addReq acc.1 (loadPiece e d k va l more acq i), acc.2)

/-- The state and the replies after the first n pieces. -/
def readPieces (n : Nat) : State × List Reply :=
  (List.range n).foldl (readPiece e d k va l more acq) ({ e.s with nextId := e.s.nextId + 4 }, [])

theorem plumbDue_eq (s : State) (o tid : Nat) (t : Target) : ∃ ts, plumbDue s o tid t = { s with threads := ts } := by
  unfold plumbDue
  split
  · exact ⟨_, rfl⟩
  · exact ⟨s.threads, rfl⟩

/-- Reading a piece changes no byte; the pieces that miss are asked for, those that hit answer. -/
theorem readPieces_spec (n : Nat) : let p := readPieces e d k va l more acq n
    bytesOf p.1 = bytesOf e.s
    ∧ p.1.reqs = e.s.reqs ++ ((List.range n).filter (fun i => (pieceHit e (pieceAt l more i) acq).isNone)).map
        (loadPiece e d k va l more acq)
    ∧ p.2 = (List.range n).filterMap (fun i => (pieceHit e (pieceAt l more i) acq).map (pieceGot e d k va l more acq i)) := by
  induction n with
  | zero => exact ⟨rfl, by simp [readPieces], rfl⟩
  | succ n ih =>
    obtain ⟨hbytes, hreqs, hgot⟩ := ih
    have hstep : readPieces e d k va l more acq (n + 1) = readPiece e d k va l more acq (readPieces e d k va l more acq n) n := by
      simp only [readPieces, List.range_succ, List.foldl_append, List.foldl_cons, List.foldl_nil]
    rw [hstep, readPiece]
    cases hhit : pieceHit e (pieceAt l more n) acq with
    | some bs =>
      obtain ⟨ts, hts⟩ := plumbDue_eq (l1Touch (readPieces e d k va l more acq n).1 e (loadPiece e d k va l more acq n).pa 16)
        e.t.o e.t.tid (loadPiece e d k va l more acq n).tgt
      simp only [hts, List.range_succ, List.filter_append, List.filterMap_append, hgot]
      refine ⟨hbytes, ?_, by simp [hhit]⟩
      show (readPieces e d k va l more acq n).1.reqs = _
      simp [hreqs, hhit]
    | none =>
      simp only [List.range_succ, List.filter_append, List.filterMap_append, hgot]
      refine ⟨hbytes, ?_, by simp [hhit]⟩
      simp only [addReq, hreqs]
      simp [hhit]

theorem loadPieces_eq : loadPieces e d k va l more acq =
    let p := readPieces e d k va l more acq 4
    let s := { p.1 with nextId := e.s.nextId + 4 }
    match p.2 with
    | a :: b :: c :: x :: _ =>
      let r := [b, c, x].foldl joinParts a
      .ok s (r.wr s e.t)
    | got => .wait (onThr s e.t.o e.t.tid (fun t => { t with got := got })) (.reply e.s.nextId) := rfl

end

/-! ### All four pieces hit -/

section
variable (e : Env) (d : VReg) (k : MReg) (va : Word) (l : Loc) (more : Option (Nat × Loc)) (acq : Option Scope)

/-- The sixteen lanes of each piece, together, are the mask. -/
theorem lanes_join (m : BitVec 64) : m &&& 0xFFFF#64 <<< (16 * 0) ||| m &&& 0xFFFF#64 <<< (16 * 1) ||| m &&& 0xFFFF#64 <<< (16 * 2)
    ||| m &&& 0xFFFF#64 <<< (16 * 3) = m := by
  have hall : 0xFFFF#64 <<< (16 * 0) ||| 0xFFFF#64 <<< (16 * 1) ||| 0xFFFF#64 <<< (16 * 2) ||| 0xFFFF#64 <<< (16 * 3)
      = BitVec.allOnes 64 := by decide
  rw [← BitVec.and_or_distrib_left, ← BitVec.and_or_distrib_left, ← BitVec.and_or_distrib_left, hall, BitVec.and_allOnes]

/-- The bytes of the four pieces, each in its place. -/
def piecesVec (bs : Nat → List Byte) : Vec :=
  bytesVec (bs 0) <<< (128 * 0) ||| bytesVec (bs 1) <<< (128 * 1) ||| bytesVec (bs 2) <<< (128 * 2) ||| bytesVec (bs 3) <<< (128 * 3)

theorem elemOf_or (n b : Nat) (x y : Vec) : elemOf n b (x ||| y) = elemOf n b x ||| elemOf n b y :=
  BitVec.eq_of_getLsbD_eq fun j hj => by simp [elemOf, hj]

theorem elemOf_piecesVec {bs : Nat → List Byte} (hlen : ∀ i < 4, (bs i).length = 16) {b : Nat} (hb : b < 64) :
    elemOf 8 b (piecesVec bs) = (bs (b / 16)).getD (b % 16) 0 := by
  simp only [piecesVec, elemOf_or]
  rw [elemOf_piece (hlen 0 (by decide)) _ hb, elemOf_piece (hlen 1 (by decide)) _ hb, elemOf_piece (hlen 2 (by decide)) _ hb,
    elemOf_piece (hlen 3 (by decide)) _ hb]
  obtain h | h | h | h : b / 16 = 0 ∨ b / 16 = 1 ∨ b / 16 = 2 ∨ b / 16 = 3 := by omega
  all_goals simp [h]

theorem loadPieces_hit {bs : Nat → List Byte} (hhit : ∀ i < 4, pieceHit e (pieceAt l more i) acq = some (bs i)) (hacq : acq = none) :
    ∃ u, loadPieces e d k va l more acq = .ok u (Wr.ofV d (mergeLanes (e.m k) (readV e.s e.t d) (piecesVec bs)))
      ∧ bytesOf u = bytesOf e.s ∧ u.reqs = e.s.reqs := by
  subst hacq
  obtain ⟨hbytes, hreqs, hgot⟩ := readPieces_spec e d k va l more none 4
  have hall : List.range 4 = [0, 1, 2, 3] := rfl
  have h0 := hhit 0 (by decide)
  have h1 := hhit 1 (by decide)
  have h2 := hhit 2 (by decide)
  have h3 := hhit 3 (by decide)
  simp only [hall, List.filterMap_cons, List.filterMap_nil, h0, h1, h2, h3, Option.map_some] at hgot
  simp only [hall, List.filter_cons, List.filter_nil, h0, h1, h2, h3, Option.isNone_some, Bool.false_eq_true, if_false, List.map_nil,
    List.append_nil] at hreqs
  have hv : readV (readPieces e d k va l more none 4).1 e.t d = readV e.s e.t d := by
    simp only [bytesOf, Prod.mk.injEq] at hbytes
    exact readV_congr hbytes.2.2.1.2 ..
  refine ⟨{ (readPieces e d k va l more none 4).1 with nextId := e.s.nextId + 4 }, ?_, hbytes, hreqs⟩
  rw [loadPieces_eq]
  have hwr (u : State) : ([pieceGot e d k va l more none 1 (bs 1), pieceGot e d k va l more none 2 (bs 2),
      pieceGot e d k va l more none 3 (bs 3)].foldl joinParts (pieceGot e d k va l more none 0 (bs 0))).wr u e.t
      = Wr.ofV d (mergeLanes (e.m k) (readV u e.t d) (piecesVec bs)) :=
    congrArg (fun m => Wr.ofV d (mergeLanes m (readV u e.t d) (piecesVec bs))) (lanes_join (e.m k))
  simp only [hgot, hwr, ← hv]
  rfl

/-- With a piece that misses, the bundle waits for those that were asked for. -/
theorem loadPieces_miss (hmiss : ∃ i < 4, pieceHit e (pieceAt l more i) acq = none) :
    ∃ u got, loadPieces e d k va l more acq = .wait (onThr u e.t.o e.t.tid (fun t => { t with got := got })) (.reply e.s.nextId)
      ∧ bytesOf u = bytesOf e.s ∧ u.nextId = e.s.nextId + 4
      ∧ got.length = ((List.range 4).filter (fun i => (pieceHit e (pieceAt l more i) acq).isSome)).length
      ∧ u.reqs = e.s.reqs ++ ((List.range 4).filter (fun i => (pieceHit e (pieceAt l more i) acq).isNone)).map
          (loadPiece e d k va l more acq) := by
  obtain ⟨hbytes, hreqs, hgot⟩ := readPieces_spec e d k va l more acq 4
  have hlen : (readPieces e d k va l more acq 4).2.length
      = ((List.range 4).filter (fun i => (pieceHit e (pieceAt l more i) acq).isSome)).length := by
    rw [hgot, List.length_filterMap_eq_countP, List.countP_eq_length_filter]
    simp only [Option.isSome_map]
  have hshort : (readPieces e d k va l more acq 4).2.length < 4 := by
    obtain ⟨i, hi, hnone⟩ := hmiss
    rw [hlen]
    exact List.length_filter_lt_length_iff_exists.2 ⟨i, List.mem_range.2 hi, by simp [hnone]⟩
  refine ⟨{ (readPieces e d k va l more acq 4).1 with nextId := e.s.nextId + 4 }, (readPieces e d k va l more acq 4).2, ?_, hbytes,
    rfl, hlen, hreqs⟩
  rw [loadPieces_eq]
  dsimp only
  split
  next heq =>
    rw [heq] at hshort
    simp only [List.length_cons] at hshort
    omega
  next => rfl

end

end Sys2Proof.Machine
end

section
/-!
SUPPORT. The load instructions (R334, R335, R338) at the own scratchpad and at an L1 copy.
-/

namespace Sys2Proof.Machine

section
variable {s : State} {c : Cur} {t : Thread} {w : Owner} {off : Nat}

theorem firstEnv_readV (i : Instr) (r : VReg) : readV (firstEnv s c t w i).s t r = readV s t r := envX_old ..

/-! ## LD -/

theorem exec_ld_own {ord : Ord} {o : MemOp} (hissue : Issues s c t w (.ld ord o) 0) :
    let e := firstEnv s c t w (.ld ord o)
    let n := bytesOfType o.ty
    cleanAt e off n → OwnSpad e .ld .load (ea s t o.ad) n n off (.load n (isSigned o.ty) o.d) none (ordAcq ord) →
    ∃ x, Loaded (isSigned o.ty) n s.spad (spadKey t.o t.core off) x ∧ exec (.ld ord o) s = .next (retiresTo s c t w (.ld ord o)
      (oneMore e.s) { Wr.ofG o.d x with acq := (ordAcq ord).map (wideScope t) }) := by
  intro e n hclean h
  have hsem : ldSem ord o e = ask e (ownReq e (.load n (isSigned o.ty) o.d) (ea s t o.ad) off n none (ordAcq ord)) := by
    simp only [ldSem, e, firstEnv_addr, n, checkSpan_spad h.chk, withSpan]
    rfl
  refine ⟨_, loaded_readN (isSigned o.ty) s.spad _ (bytesOfType_pos o.ty) (bytesOfType_le o.ty), runX_ok (sem := ldSem ord o) hissue ?_⟩
  rw [← firstEnv_spad s c t w (.ld ord o)]
  exact hsem.trans (ask_load_own h hclean)

theorem exec_ld_hit {ord : Ord} {o : MemOp} (hissue : Issues s c t w (.ld ord o) 0) :
    let e := firstEnv s c t w (.ld ord o)
    let n := bytesOfType o.ty
    ∀ l pa bs, checkSpan e .ld .load (ea s t o.ad) n n = .ok (.mem l pa) none → ordAcq ord = none → l1Hit e l pa n = some bs →
      ∃ x : Word, (∀ k < n, x.extractLsb' (8 * k) 8 = bs.getD k 0) ∧
        (∀ b < 64, 8 * n ≤ b → x.getLsbD b = (isSigned o.ty && x.getLsbD (8 * n - 1))) ∧
        exec (.ld ord o) s = .next (retiresTo s c t w (.ld ord o)
          (plumbDue (l1Touch e.s e pa n) t.o t.tid (targetOf e.s w t.o t.core l pa)) (Wr.ofG o.d x)) := by
  intro e n l pa bs hok hacq hhit
  obtain ⟨hbytes, hhigh⟩ := extend_bytes (isSigned o.ty) bs (bytesOfType_pos o.ty) (bytesOfType_le o.ty)
  refine ⟨_, hbytes, hhigh, runX_ok (sem := ldSem ord o) hissue ?_⟩
  show ldSem ord o e = _
  simp only [ldSem, e, firstEnv_addr, n] at hok hhit ⊢
  simp only [hok, withSpan, hacq, hhit]
  rfl

/-! ## VLD -/

/-- A load of 64 bytes aligned to them asks the own scratchpad. -/
theorem vldSem_own {ord : Ord} {o : VMem} (hal : (ea s t o.ad).toNat % 64 = 0) :
    let e := firstEnv s c t w (.vld ord o)
    checkSpan e .ld .load (ea s t o.ad) 64 16 = .ok (.spad e.t.core off) none →
    vldSem ord o e = ask e (ownReq e (.vload o.d (readM t o.k) none) (ea s t o.ad) off 64 none (ordAcq ord)) := by
  intro e hok
  simp only [vldSem, vloadSem, e, firstEnv_addr] at hok ⊢
  simp only [Option.isSome_none, Bool.false_eq_true, if_false, hok, withSpan, hal, ne_eq, not_true_eq_false]
  rfl

/-- One that hits the L1 copy reads it. -/
theorem vldSem_hit {ord : Ord} {o : VMem} (hal : (ea s t o.ad).toNat % 64 = 0) {l : Leaf} {pa : Nat} {bs : List Byte}
    (hacq : ordAcq ord = none) :
    let e := firstEnv s c t w (.vld ord o)
    checkSpan e .ld .load (ea s t o.ad) 64 16 = .ok (.mem l pa) none → l1Hit e l pa 64 = some bs →
    vldSem ord o e = .ok (plumbDue (l1Touch e.s e pa 64) t.o t.tid (targetOf e.s w t.o t.core l pa))
      (Wr.ofV o.d (mergeLanes (readM t o.k) (readV s t o.d) (bytesVec bs))) := by
  intro e hok hhit
  have hold : e.old o.d = readV s t o.d := firstEnv_readV ..
  simp only [vldSem, vloadSem, e, firstEnv_addr] at hok hold hhit ⊢
  simp only [Option.isSome_none, Bool.false_eq_true, if_false, hok, withSpan, hal, ne_eq, not_true_eq_false, hacq, hhit, hold]
  rfl

theorem exec_vld_own {ord : Ord} {o : VMem} (hissue : Issues s c t w (.vld ord o) 0) (hal : (ea s t o.ad).toNat % 64 = 0) :
    let e := firstEnv s c t w (.vld ord o)
    cleanAt e off 64 → OwnSpad e .ld .load (ea s t o.ad) 64 16 off (.vload o.d (readM t o.k) none) none (ordAcq ord) →
    ∃ v, exec (.vld ord o) s = .next (retiresTo s c t w (.vld ord o) (oneMore e.s)
        { Wr.ofV o.d v with acq := (ordAcq ord).map (wideScope t) }) ∧
      ∀ b < 64, elemOf 8 b v = if (readM t o.k).getLsbD b = true then Memory.read s.spad (spadKey t.o t.core off + b)
        else elemOf 8 b (readV s t o.d) := by
  intro e hclean h
  refine ⟨_, runX_ok (sem := vldSem ord o) hissue ((vldSem_own hal (checkSpan_spad h.chk)).trans (ask_vload_own h hclean)),
    fun b hb => ?_⟩
  rw [elemOf_mergeLanes _ _ _ hb, elemOf_bytesVec _ hb, Memory.readN_getD _ _ hb, firstEnv_spad]
  exact if_congr Iff.rfl rfl (congrArg _ (firstEnv_readV ..))

theorem exec_vld_hit {ord : Ord} {o : VMem} (hissue : Issues s c t w (.vld ord o) 0) :
    let e := firstEnv s c t w (.vld ord o)
    ∀ l pa bs, (ea s t o.ad).toNat % 64 = 0 → checkSpan e .ld .load (ea s t o.ad) 64 16 = .ok (.mem l pa) none → ordAcq ord = none →
      l1Hit e l pa 64 = some bs →
      ∃ v, exec (.vld ord o) s = .next (retiresTo s c t w (.vld ord o)
          (plumbDue (l1Touch e.s e pa 64) t.o t.tid (targetOf e.s w t.o t.core l pa)) (Wr.ofV o.d v)) ∧
        ∀ b < 64, elemOf 8 b v = if (readM t o.k).getLsbD b = true then bs.getD b 0 else elemOf 8 b (readV s t o.d) := by
  intro e l pa bs hal hok hacq hhit
  refine ⟨_, runX_ok (sem := vldSem ord o) hissue (vldSem_hit hal hacq hok hhit), fun b hb => ?_⟩
  rw [elemOf_mergeLanes _ _ _ hb, elemOf_bytesVec _ hb]

/-- A load at a lesser alignment is one of pieces. -/
theorem vldSem_pieces {ord : Ord} {o : VMem} {loc : Loc} {more : Option (Nat × Loc)} (hal : (ea s t o.ad).toNat % 64 ≠ 0) :
    let e := firstEnv s c t w (.vld ord o)
    checkSpan e .ld .load (ea s t o.ad) 64 16 = .ok loc more →
    vldSem ord o e = loadPieces e o.d o.k (ea s t o.ad) loc more (ordAcq ord) := by
  intro e hok
  simp only [vldSem, vloadSem, e, firstEnv_addr] at hok ⊢
  simp only [Option.isSome_none, Bool.false_eq_true, if_false, hok, withSpan]
  exact if_pos hal

/-- What hits is no acquire, and has sixteen bytes. -/
theorem pieceHit_some {e : Env} {loc : Loc} {acq : Option Scope} {bs : List Byte} (h : pieceHit e loc acq = some bs) :
    acq = none ∧ bs.length = 16 := by
  unfold pieceHit at h
  split at h
  · exact ⟨rfl, l1Hit_length h⟩
  · cases h

theorem exec_vld_pieces {ord : Ord} {o : VMem} (hissue : Issues s c t w (.vld ord o) 0) :
    let e := firstEnv s c t w (.vld ord o)
    let va := ea s t o.ad
    ∀ loc more, va.toNat % 64 ≠ 0 → checkSpan e .ld .load va 64 16 = .ok loc more →
    let hit := fun j => pieceHit e (pieceAt loc more j) (ordAcq ord)
    (∀ bs : Nat → List Byte, (∀ j < 4, hit j = some (bs j)) →
      ∃ u v, exec (.vld ord o) s = .next (retiresTo s c t w (.vld ord o) u (Wr.ofV o.d v)) ∧ KeepsBytes s u ∧ u.reqs = s.reqs ∧
        ∀ b < 64, elemOf 8 b v = if (readM t o.k).getLsbD b = true then (bs (b / 16)).getD (b % 16) 0
          else elemOf 8 b (readV s t o.d))
    ∧ ((∃ j < 4, hit j = none) →
      ∃ u got, exec (.vld ord o) s = .next (putWait (onThr u t.o t.tid (fun x => { x with got := got })) c (.reply s.nextId)
          (some (bundleOf (bare s) c t w (.vld ord o)))) ∧ KeepsBytes s u ∧ u.nextId = s.nextId + 4 ∧
        got.length = ((List.range 4).filter (fun j => (hit j).isSome)).length ∧
        u.reqs = s.reqs ++ ((List.range 4).filter (fun j => (hit j).isNone)).map
          (pieceReq e (.vload o.d (readM t o.k) none) va loc more none (ordAcq ord))) := by
  intro e va loc more hal hok hit
  have hsem := vldSem_pieces hal hok
  refine ⟨fun bs hall => ?_, fun hmiss => ?_⟩
  · obtain ⟨u, hload, hbytes, hreqs⟩ := loadPieces_hit e o.d o.k va loc more (ordAcq ord) hall (pieceHit_some (hall 0 (by decide))).1
    refine ⟨u, _, runX_ok (sem := vldSem ord o) hissue (hsem.trans hload), keepsBytes_of (hbytes.trans (bytesOf_firstEnv _)),
      hreqs.trans (firstEnv_reqs ..), fun b hb => ?_⟩
    rw [elemOf_mergeLanes _ _ _ hb, elemOf_piecesVec (fun i hi => (pieceHit_some (hall i hi)).2) hb]
    exact if_congr Iff.rfl rfl (congrArg _ (firstEnv_readV ..))
  · obtain ⟨u, got, hload, hbytes, hnext, hlen, hreqs⟩ := loadPieces_miss e o.d o.k va loc more (ordAcq ord) hmiss
    rw [firstEnv_nextId] at hload hnext
    rw [firstEnv_reqs] at hreqs
    exact ⟨u, got, runX_wait (sem := vldSem ord o) hissue (hsem.trans hload), keepsBytes_of (hbytes.trans (bytesOf_firstEnv _)),
      hnext, hlen, hreqs⟩

/-! ## LDS and LDS.clr -/

theorem ldsGen_own {e : Env} {clr : Bool} {sc : Scope} {o : MemOp} {va : Word} (hva : ea e.s e.t o.ad = va)
    (hok : checkSpan e .fe (if clr then .atomic else .load) va (bytesOfType o.ty) (bytesOfType o.ty) = .ok (.spad e.t.core off) none) :
    ldsGen clr sc o e
      = ask e (ownReq e (.lds clr (bytesOfType o.ty) (isSigned o.ty) o.d) va off (bytesOfType o.ty) none (some sc)) := by
  simp only [ldsGen, hva, hok, withSpan]
  rfl

theorem exec_lds_own {sc : Scope} {o : MemOp} (hissue : Issues s c t w (.lds sc o) 0) :
    let e := firstEnv s c t w (.lds sc o)
    let n := bytesOfType o.ty
    OwnSpad e .fe .load (ea s t o.ad) n n off (.lds false n (isSigned o.ty) o.d) none (some sc) →
    (getD false s.spadFE (granKey t.o t.core off) = true → cleanAt e off n →
      ∃ x, Loaded (isSigned o.ty) n s.spad (spadKey t.o t.core off) x ∧ exec (.lds sc o) s = .next (retiresTo s c t w (.lds sc o)
        (oneMore e.s) { Wr.ofG o.d x with acq := some (wideScope t sc) }))
    ∧ (getD false s.spadFE (granKey t.o t.core off) = false →
      exec (.lds sc o) s = .next (asksFor s c t w (.lds sc o) e.s
        { ownReq e (.lds false n (isSigned o.ty) o.d) (ea s t o.ad) off n none (some sc) with held := true })) := by
  intro e n h
  have hsem := ldsGen_own (clr := false) (sc := sc) (firstEnv_addr s c t w (.lds sc o) o.ad) (checkSpan_spad h.chk)
  rw [← firstEnv_spadFE s c t w (.lds sc o), ← firstEnv_spad s c t w (.lds sc o)]
  exact ⟨fun hfull hclean => ⟨_, loaded_readN _ _ _ (bytesOfType_pos o.ty) (bytesOfType_le o.ty),
      runX_ok (sem := ldsSem sc o) hissue (hsem.trans (ask_lds_full h hfull hclean))⟩,
    fun hempty => runX_wait (sem := ldsSem sc o) hissue (hsem.trans (ask_lds_empty h hempty))⟩

theorem exec_ldsClr_own {sc : Scope} {o : MemOp} (hissue : Issues s c t w (.ldsClr sc o) 0) :
    let e := firstEnv s c t w (.ldsClr sc o)
    let n := bytesOfType o.ty
    OwnSpad e .fe .atomic (ea s t o.ad) n n off (.lds true n (isSigned o.ty) o.d) none (some sc) →
    (getD false s.spadFE (granKey t.o t.core off) = true → cleanAt e off n →
      ∃ x, Loaded (isSigned o.ty) n s.spad (spadKey t.o t.core off) x ∧ exec (.ldsClr sc o) s = .next (retiresTo s c t w (.ldsClr sc o)
        { oneMore e.s with spadFE := setD false s.spadFE (granKey t.o t.core off) false }
        { Wr.ofG o.d x with acq := some (wideScope t sc) }))
    ∧ (getD false s.spadFE (granKey t.o t.core off) = false →
      exec (.ldsClr sc o) s = .next (asksFor s c t w (.ldsClr sc o) e.s
        { ownReq e (.lds true n (isSigned o.ty) o.d) (ea s t o.ad) off n none (some sc) with held := true })) := by
  intro e n h
  have hsem := ldsGen_own (clr := true) (sc := sc) (firstEnv_addr s c t w (.ldsClr sc o) o.ad) (checkSpan_spad h.chk)
  rw [← firstEnv_spadFE s c t w (.ldsClr sc o), ← firstEnv_spad s c t w (.ldsClr sc o)]
  exact ⟨fun hfull hclean => ⟨_, loaded_readN _ _ _ (bytesOfType_pos o.ty) (bytesOfType_le o.ty),
      runX_ok (sem := ldsClrSem sc o) hissue (hsem.trans (ask_lds_full h hfull hclean))⟩,
    fun hempty => runX_wait (sem := ldsClrSem sc o) hissue (hsem.trans (ask_lds_empty h hempty))⟩

end

end Sys2Proof.Machine
end

section
namespace Sys2Proof
open Sys2Proof.Machine

/-- Settles O31: each load is answered by the own scratchpad or by the L1 copy within its bundle, or waits for what misses. -/
theorem loadsAtTheCore : Obligations.LoadsAtTheCore := by
  unfold Obligations.LoadsAtTheCore
  intro s c t w off key
  exact ⟨fun ord o hissue => ⟨exec_ld_own hissue, exec_ld_hit hissue⟩,
    fun ord o hissue => ⟨exec_vld_own hissue, exec_vld_hit hissue, exec_vld_pieces hissue⟩,
    fun sc o hissue => exec_lds_own hissue, fun sc o hissue => exec_ldsClr_own hissue⟩

end Sys2Proof
end

section
/-!
SUPPORT. Atomics at the own scratchpad (R341 to R343): the old value is read, the new one stored, within the bundle.
-/

namespace Sys2Proof.Machine

/-! ## Values of n bytes -/

theorem Memory.nat_lt (m : Memory) (a n : Nat) : Memory.nat m a n < 256 ^ n := by
  induction n generalizing a with
  | zero => exact one_pos
  | succ n ih =>
    have hbyte : (Memory.read m a).toNat < 256 := (Memory.read m a).isLt
    have hrest := ih (a + 1)
    rw [Memory.nat, Nat.pow_succ]
    omega

/-- n bytes read as a number fill no more than n bytes. -/
theorem extend_readN (m : Memory) (a : Nat) {n : Nat} (h8 : n ≤ 8) :
    extend false n (wordOfList (Memory.readN m a n)) = wordOfList (Memory.readN m a n) := by
  have hlt := Memory.nat_lt m a n
  have hle : 256 ^ n ≤ 2 ^ 64 := (Nat.pow_le_pow_right (by decide) h8).trans (by decide)
  have h256 : (2 : Nat) ^ (8 * n) = 256 ^ n := Nat.pow_mul 2 8 n
  show ((wordOfList (Memory.readN m a n)).setWidth (8 * n)).setWidth 64 = _
  rw [wordOfList_readN]
  refine BitVec.eq_of_toNat_eq ?_
  rw [BitVec.toNat_setWidth, BitVec.toNat_setWidth, BitVec.toNat_ofNat, h256, Nat.mod_eq_of_lt (hlt.trans_le hle),
    Nat.mod_eq_of_lt hlt, Nat.mod_eq_of_lt (hlt.trans_le hle)]

/-- An extension keeps the low n bytes. -/
theorem setWidth_extend (sgn : Bool) {n : Nat} (w : Word) (h0 : 0 < n) (h8 : n ≤ 8) :
    (extend sgn n w).setWidth (8 * n) = w.setWidth (8 * n) := by
  refine BitVec.eq_of_getLsbD_eq fun i hi => ?_
  rw [BitVec.getLsbD_setWidth, BitVec.getLsbD_setWidth, extend_getLsbD _ _ h0 (by omega), if_pos hi]

/-! ## Operations on n bytes as on bit vectors (R341) -/

section
variable (n : Nat) (sgn : Bool) (x y : Word)

theorem amoOp_add : amoOp .add n sgn x y = (x.setWidth (8 * n) + y.setWidth (8 * n)).setWidth 64 := by
  rw [← BitVec.ofNat_toNat, BitVec.toNat_add, BitVec.toNat_setWidth, BitVec.toNat_setWidth]
  rfl

theorem amoOp_and : amoOp .and n sgn x y = (x.setWidth (8 * n) &&& y.setWidth (8 * n)).setWidth 64 := by
  rw [← BitVec.ofNat_toNat, BitVec.toNat_and, BitVec.toNat_setWidth, BitVec.toNat_setWidth]
  rfl

theorem amoOp_or : amoOp .or n sgn x y = (x.setWidth (8 * n) ||| y.setWidth (8 * n)).setWidth 64 := by
  rw [← BitVec.ofNat_toNat, BitVec.toNat_or, BitVec.toNat_setWidth, BitVec.toNat_setWidth]
  rfl

theorem amoOp_xor : amoOp .xor n sgn x y = (x.setWidth (8 * n) ^^^ y.setWidth (8 * n)).setWidth 64 := by
  rw [← BitVec.ofNat_toNat, BitVec.toNat_xor, BitVec.toNat_setWidth, BitVec.toNat_setWidth]
  rfl

theorem amoOp_swap : amoOp .swap n sgn x y = (y.setWidth (8 * n)).setWidth 64 := by
  rw [← BitVec.ofNat_toNat, BitVec.toNat_setWidth]
  rfl

theorem amoOp_min : amoOp .min n sgn x y
    = (if asInt sgn (x.setWidth (8 * n)) ≤ asInt sgn (y.setWidth (8 * n)) then x.setWidth (8 * n) else y.setWidth (8 * n)).setWidth 64 := by
  rw [← BitVec.ofNat_toNat, apply_ite BitVec.toNat, ← readAs_toNat, ← readAs_toNat, BitVec.toNat_setWidth, BitVec.toNat_setWidth]
  cases sgn
  · simp only [amoOp, readAs, Bool.false_eq_true, if_false, Nat.cast_le]
  · rfl

theorem amoOp_max : amoOp .max n sgn x y
    = (if asInt sgn (x.setWidth (8 * n)) ≥ asInt sgn (y.setWidth (8 * n)) then x.setWidth (8 * n) else y.setWidth (8 * n)).setWidth 64 := by
  rw [← BitVec.ofNat_toNat, apply_ite BitVec.toNat, ← readAs_toNat, ← readAs_toNat, BitVec.toNat_setWidth, BitVec.toNat_setWidth]
  cases sgn
  · simp only [amoOp, readAs, Bool.false_eq_true, if_false, ge_iff_le, Nat.cast_le]
  · rfl

end

section
variable {e : Env} {a : Act332} {k : AccKind} {va : Word} {n al off : Nat} {kind : ReqKind} {rel acq : Option Scope}

theorem ownReq_kind (e : Env) (kind : ReqKind) (va : Word) (off n : Nat) (rel acq : Option Scope) :
    (ownReq e kind va off n rel acq).kind = kind := rfl

/-- What reads a value and writes another goes on with the old one. -/
theorem ask_rmw_own {bs : List (Byte × Bool)} {d : GReg} {x : Word} {v : Option Word} (h8 : n ≤ 8)
    (h : OwnSpad e a k va n al off kind rel acq)
    (hserve : serve0 e.s (ownReq e kind va off n rel acq) = .done (reqWrite e.s (ownReq e kind va off n rel acq) bs)
      { (ownReq e kind va off n rel acq).reply with g := [(d, x)], acq := acq.map (wideScope e.t), val := v }) :
    ∃ m, Stored e.s.spad m (spadKey e.t.o e.t.core off) bs ∧ ask e (ownReq e kind va off n rel acq)
      = .ok (noteEarly e.s { oneMore e.s with spad := m } (ownReq e kind va off n rel acq))
        { Wr.ofG d x with acq := acq.map (wideScope e.t) } := by
  obtain ⟨m, hwrite, hstored⟩ := reqWrite_own_part e.s e kind va off n rel acq bs (replaces_of_short h8)
  rw [hwrite] at hserve
  exact ⟨m, hstored, ask_own h hserve rfl rfl rfl⟩

theorem ask_amo_own {op : AmoOp} {sgn : Bool} {y : Word} {d : GReg} (h8 : n ≤ 8)
    (h : OwnSpad e a k va n al off (.amo op n sgn y d) rel acq) (hclean : cleanAt e off n) :
    let old := wordOfList (Memory.readN e.s.spad (spadKey e.t.o e.t.core off) n)
    ∃ m, Stored e.s.spad m (spadKey e.t.o e.t.core off) (allOn (listOfWord (amoOp op n sgn old y) n)) ∧
      ask e (ownReq e (.amo op n sgn y d) va off n rel acq)
        = .ok (noteEarly e.s { oneMore e.s with spad := m } (ownReq e (.amo op n sgn y d) va off n rel acq))
          { Wr.ofG d (extend sgn n old) with acq := acq.map (wideScope e.t) } := by
  intro old
  refine ask_rmw_own (v := some old) h8 h ?_
  simp only [serve0, ownReq_kind]
  exact serveRead_own h hclean _

theorem ask_fadd_own {y : BitVec 32} {d : GReg} (h : OwnSpad e a k va 4 al off (.fadd y d) rel acq) (hclean : cleanAt e off 4) :
    let old := wordOfList (Memory.readN e.s.spad (spadKey e.t.o e.t.core off) 4)
    ∃ m, Stored e.s.spad m (spadKey e.t.o e.t.core off) (allOn (listOfWord (BitVec.ofNat 64 (fadd32 old.toNat y.toNat)) 4)) ∧
      ask e (ownReq e (.fadd y d) va off 4 rel acq)
        = .ok (noteEarly e.s { oneMore e.s with spad := m } (ownReq e (.fadd y d) va off 4 rel acq))
          { Wr.ofG d old with acq := acq.map (wideScope e.t) } := by
  intro old
  refine ask_rmw_own (v := none) (by decide) h ?_
  simp only [serve0, ownReq_kind]
  exact serveRead_own h hclean _

/-- CAS stores where the old value is the expected one, and only there. -/
theorem ask_cas_own {sgn : Bool} {exp new : Word} {d : GReg} (h8 : n ≤ 8)
    (h : OwnSpad e a k va n al off (.cas n sgn exp new d) rel acq) (hclean : cleanAt e off n) :
    let old := wordOfList (Memory.readN e.s.spad (spadKey e.t.o e.t.core off) n)
    ∃ m, (old = exp → Stored e.s.spad m (spadKey e.t.o e.t.core off) (allOn (listOfWord new n))) ∧ (old ≠ exp → m = e.s.spad) ∧
      ask e (ownReq e (.cas n sgn exp new d) va off n rel acq)
        = .ok (noteEarly e.s { oneMore e.s with spad := m } (ownReq e (.cas n sgn exp new d) va off n rel acq))
          { Wr.ofG d (extend sgn n old) with acq := acq.map (wideScope e.t) } := by
  intro old
  have hserve : serve0 e.s (ownReq e (.cas n sgn exp new d) va off n rel acq) = .done
      (if old = exp then reqWrite e.s (ownReq e (.cas n sgn exp new d) va off n rel acq) (allOn (listOfWord new n)) else e.s)
      { (ownReq e (.cas n sgn exp new d) va off n rel acq).reply with
        g := [(d, extend sgn n old)], acq := acq.map (wideScope e.t) } := by
    simp only [serve0, ownReq_kind]
    exact serveRead_own h hclean _
  by_cases heq : old = exp
  · rw [if_pos heq] at hserve
    obtain ⟨m, hstored, hask⟩ := ask_rmw_own h8 h hserve
    exact ⟨m, fun _ => hstored, fun hne => absurd heq hne, hask⟩
  · rw [if_neg heq] at hserve
    exact ⟨e.s.spad, fun h => absurd h heq, fun _ => rfl, ask_own h hserve rfl rfl rfl⟩

end

/-! ## The instructions -/

section
variable {s : State} {c : Cur} {t : Thread} {w : Owner} {off : Nat}

theorem amoSem_own {e : Env} {op : AmoOp} {ty : IType} {ord : Ord} {d : GReg} {m : M3} {va : Word} {y : Word}
    (hva : ea3 e.s e.t m = va) (hy : e.g m.c = y)
    (hok : checkSpan e .amo .atomic va (bytesOfType ty) (bytesOfType ty) = .ok (.spad e.t.core off) none) :
    amoSem op ty ord d m e = ask e (ownReq e (.amo op (bytesOfType ty) (isSigned ty) y d) va off (bytesOfType ty)
      (ordRel ord) (ordAcq ord)) := by
  simp only [amoSem, hva, hok, withSpan, hy]
  rfl

theorem amoGives_of {mk : IType → Ord → GReg → M3 → Instr} {op : AmoOp} {f : (n : Nat) → Bool → BitVec n → BitVec n → BitVec n}
    (hexec : ∀ ty ord d m s, exec (mk ty ord d m) s = runX (mk ty ord d m) (amoSem op ty ord d m) s)
    (hf : ∀ n sgn (x y : Word), amoOp op n sgn x y = (f (8 * n) sgn (x.setWidth (8 * n)) (y.setWidth (8 * n))).setWidth 64) :
    AmoGives mk op f := by
  intro s c t w ty ord d m off i e n y key hissue hclean kd h
  obtain ⟨m', hstored, hask⟩ := ask_amo_own (bytesOfType_le ty) h hclean
  have hsem := amoSem_own (op := op) (ord := ord) (d := d) (firstEnv_addr3 s c t w i m) (firstEnv_g s c t w i m.c) (checkSpan_spad h.chk)
  rw [firstEnv_spad] at hstored hask
  refine ⟨_, m', loaded_readN _ _ _ (bytesOfType_pos ty) (bytesOfType_le ty), ?_, ?_⟩
  · rw [hexec]
    exact runX_ok (sem := amoSem op ty ord d m) hissue (hsem.trans hask)
  · rw [← hf, amoOp_extend op _ _ _ _ (bytesOfType_pos ty) (bytesOfType_le ty)]
    exact hstored

theorem casSem_own {e : Env} {ty : IType} {ord : Ord} {d : GReg} {m : M3} {va exp new : Word}
    (hva : ea3 e.s e.t m = va) (hexp : e.g d = exp) (hnew : e.g m.c = new)
    (hok : checkSpan e .amo .atomic va (bytesOfType ty) (bytesOfType ty) = .ok (.spad e.t.core off) none) :
    casSem ty ord d m e = ask e (ownReq e (.cas (bytesOfType ty) (isSigned ty) ((exp.setWidth (8 * bytesOfType ty)).setWidth 64) new d) va
      off (bytesOfType ty) (ordRel ord) (ordAcq ord)) := by
  simp only [casSem, hva, hok, withSpan, hexp, hnew]
  rfl

/-- The old value of n bytes is the expected one where its low n bytes are. -/
theorem readN_eq_iff (m : Memory) (a : Nat) {n : Nat} (sgn : Bool) (exp : BitVec (8 * n)) (h0 : 0 < n) (h8 : n ≤ 8) :
    (extend sgn n (wordOfList (Memory.readN m a n))).setWidth (8 * n) = exp ↔ wordOfList (Memory.readN m a n) = exp.setWidth 64 := by
  rw [setWidth_extend sgn _ h0 h8]
  constructor
  · rintro rfl
    exact (extend_readN m a h8).symm
  · intro h
    rw [h, BitVec.setWidth_setWidth_of_le _ (by omega), BitVec.setWidth_eq]

theorem exec_cas_own {ty : IType} {ord : Ord} {d : GReg} {m : M3} (hissue : Issues s c t w (.cas ty ord d m) 0) :
    let i := Instr.cas ty ord d m
    let e := firstEnv s c t w i
    let n := bytesOfType ty
    let exp := (readG s t d).setWidth (8 * n)
    let key := spadKey t.o t.core off
    cleanAt e off n →
    let kd : ReqKind := .cas n (isSigned ty) (exp.setWidth 64) (readG s t m.c) d
    OwnSpad e .amo .atomic (ea3 s t m) n n off kd (ordRel ord) (ordAcq ord) →
    ∃ (x : Word) (m' : Memory), Loaded (isSigned ty) n s.spad key x ∧
      exec i s = .next (retiresTo s c t w i (noteEarly e.s { oneMore e.s with spad := m' }
          (ownReq e kd (ea3 s t m) off n (ordRel ord) (ordAcq ord)))
        { Wr.ofG d x with acq := (ordAcq ord).map (wideScope t) }) ∧
      (x.setWidth (8 * n) = exp → Stored s.spad m' key (allOn (listOfWord (readG s t m.c) n))) ∧
      (x.setWidth (8 * n) ≠ exp → m' = s.spad) := by
  intro i e n exp key hclean kd h
  obtain ⟨m', hstored, hkept, hask⟩ := ask_cas_own (bytesOfType_le ty) h hclean
  have hsem := casSem_own (ord := ord) (firstEnv_addr3 s c t w i m) (firstEnv_g s c t w i d) (firstEnv_g s c t w i m.c)
    (checkSpan_spad h.chk)
  rw [firstEnv_spad] at hstored hkept hask
  refine ⟨_, m', loaded_readN (isSigned ty) s.spad key (bytesOfType_pos ty) (bytesOfType_le ty),
    runX_ok (sem := casSem ty ord d m) hissue (hsem.trans hask), fun heq => hstored ?_, fun hne => hkept ?_⟩
  · exact (readN_eq_iff s.spad key _ exp (bytesOfType_pos ty) (bytesOfType_le ty)).1 heq
  · exact mt (readN_eq_iff s.spad key _ exp (bytesOfType_pos ty) (bytesOfType_le ty)).2 hne

theorem exec_amoFadd_own {ord : Ord} {d : GReg} {m : M3} (hissue : Issues s c t w (.amoFadd ord d m) 0) :
    let i := Instr.amoFadd ord d m
    let e := firstEnv s c t w i
    let key := spadKey t.o t.core off
    cleanAt e off 4 →
    let kd : ReqKind := .fadd ((readG s t m.c).setWidth 32) d
    OwnSpad e .amo .atomic (ea3 s t m) 4 4 off kd (ordRel ord) (ordAcq ord) →
    (w.plumb = false → ∃ (x : Word) (m' : Memory), Loaded false 4 s.spad key x ∧
      exec i s = .next (retiresTo s c t w i (noteEarly e.s { oneMore e.s with spad := m' }
          (ownReq e kd (ea3 s t m) off 4 (ordRel ord) (ordAcq ord)))
        { Wr.ofG d x with acq := (ordAcq ord).map (wideScope t) }) ∧
      Stored s.spad m' key (allOn (listOfWord (BitVec.ofNat 64 (F32.round 0 false .arith 0
        (addE 0 (F32.dec false x.toNat) (F32.dec false ((readG s t m.c).toNat % 2 ^ 32)))).1) 4)))
    ∧ (w.plumb = true → exec i s = .next (trapsTo s c t w i (mkTrap 0x10 0 0))) := by
  intro i e key hclean kd h
  have hsem : amoFaddSem ord d m e = if w.plumb = true then .trapC (mkTrap 0x10 0 0)
      else ask e (ownReq e kd (ea3 s t m) off 4 (ordRel ord) (ordAcq ord)) := by
    have hy : e.g m.c = readG s t m.c := firstEnv_g ..
    simp only [amoFaddSem, e, i, firstEnv_addr3, checkSpan_spad h.chk, hy]
    rfl
  refine ⟨fun hmode => ?_, fun hmode => runX_trapC (sem := amoFaddSem ord d m) hissue (hsem.trans (if_pos hmode))⟩
  rw [if_neg (Bool.eq_false_iff.1 hmode)] at hsem
  obtain ⟨m', hstored, hask⟩ := ask_fadd_own h hclean
  rw [firstEnv_spad] at hstored hask
  have hloaded := loaded_readN false s.spad key (n := 4) (by decide) (by decide)
  rw [extend_readN _ _ (by decide)] at hloaded
  rw [BitVec.toNat_setWidth, fadd32] at hstored
  exact ⟨_, m', hloaded, runX_ok (sem := amoFaddSem ord d m) hissue (hsem.trans hask), hstored⟩

end

end Sys2Proof.Machine
end

section
namespace Sys2Proof
open Sys2Proof.Machine

/-- Settles O33: each atomic reads the old value and stores its result at the own scratchpad, within its bundle. -/
theorem atomicsAtTheCore : Obligations.AtomicsAtTheCore := by
  unfold Obligations.AtomicsAtTheCore
  refine ⟨?add, ?and, ?or, ?xor, ?min, ?max, ?swap, fun s c t w ty ord d m off => ?cas, fun s c t w ord d m off => ?fadd⟩
  case add => exact amoGives_of (fun _ _ _ _ _ => rfl) amoOp_add
  case and => exact amoGives_of (fun _ _ _ _ _ => rfl) amoOp_and
  case or => exact amoGives_of (fun _ _ _ _ _ => rfl) amoOp_or
  case xor => exact amoGives_of (fun _ _ _ _ _ => rfl) amoOp_xor
  case min => exact amoGives_of (fun _ _ _ _ _ => rfl) amoOp_min
  case max => exact amoGives_of (fun _ _ _ _ _ => rfl) amoOp_max
  case swap => exact amoGives_of (fun _ _ _ _ _ => rfl) amoOp_swap
  case cas => exact fun hissue => exec_cas_own hissue
  case fadd => exact fun hissue => exec_amoFadd_own hissue

end Sys2Proof
end

section
/-!
SUPPORT. Accesses that fail a check (R120, R122, R330, R332): what an operation does with the outcome of its check, and that
outcome by the address and the page.
-/

namespace Sys2Proof.Machine

/-! ## The check before a bundle -/

section
variable (s : State) (c : Cur) (t : Thread) (w : Owner) (i : Instr)

theorem firstEnv_core (j : Nat) :
    ∃ n, core? (firstEnv s c t w i).s t.o j = (core? s t.o j).map (fun k => { k with dither := k.dither + n }) := by
  show ∃ n, core? (takeDraws (bare s) t _) t.o j = _
  rcases takeDraws_eq (bare s) t (halfOf (envIn (bare s) c t w i)).draws with h | h <;> rw [h]
  · exact ⟨0, by simp [core?]⟩
  · exact core?_drawn (bare s) t.o t.core t.o j _

/-- Draws of the dither source leave every check as it is. -/
theorem firstEnv_locate (a : Act332) (k : AccKind) (wr : Bool) (va : Word) (n : Nat) :
    locate (firstEnv s c t w i).s w t a k wr va n = locate s w t a k wr va n := by
  have hhas (j off : Nat) : spadHas (firstEnv s c t w i).s t.o j off = spadHas s t.o j off := by
    obtain ⟨n, hn⟩ := firstEnv_core s c t w i j
    simp only [spadHas, hn]
    cases core? s t.o j <;> rfl
  obtain ⟨m, hm⟩ := firstEnv_core s c t w i t.core
  have hpage : lookupPage (firstEnv s c t w i).s t (va.toNat / 65536) = lookupPage s t (va.toNat / 65536) :=
    firstEnv_lookupPage s c t w i _
  simp only [locate, hpage, hhas]
  congr 2
  rcases spadVa w (tidCore t.tid) va.toNat with _ | ⟨j, off⟩
  · rfl
  · by_cases hj : j = t.core
    · subst hj
      simp only [hm]
      cases core? s t.o t.core <;> rfl
    · simp only [if_neg hj]

theorem firstEnv_check (a : Act332) (k : AccKind) (va : Word) (n al : Nat) :
    check (firstEnv s c t w i).s w t a k va n al = check s w t a k va n al := by
  simp only [check, firstEnv_locate]

end

/-! ## Outcomes of a check (R330) -/

section
variable {s : State} {w : Owner} {t : Thread} {a : Act332} {k : AccKind} {va : Word} {n al : Nat}

theorem check_misaligned (h : va.toNat % al ≠ 0) : check s w t a k va n al = .bad (mkTrap 0x03 (n % 256) va) := if_pos h

theorem check_of_locate_bad {x : TrapInfo} (hal : va.toNat % al = 0) (h : locate s w t a k k.writes va n = .bad x) :
    check s w t a k va n al = .bad x := by
  rw [check, if_neg (not_not_intro hal), h]

theorem check_of_watch {l : Loc} {x : Nat} (hal : va.toNat % al = 0) (h : locate s w t a k k.writes va n = .ok l)
    (hwatch : watchHit t va.toNat n k.watchL k.watchS = some x) : check s w t a k va n al = .bad (mkTrap 0x14 x va) := by
  rw [check, if_neg (not_not_intro hal), h]
  simp only [hwatch]
  rfl

end

/-! ## Where an access goes, or why it goes nowhere (R43, R157, R332) -/

section
variable {s : State} {w : Owner} {t : Thread} {a : Act332} {k : AccKind} {wr : Bool} {va : Word} {n : Nat}

theorem locate_beyond (h : va.extractLsb' 57 7 ≠ 0) : locate s w t a k wr va n = .bad (protTrap k 2 va) :=
  if_pos (bne_iff_ne.2 h)

theorem locate_below (h : va.extractLsb' 57 7 = 0) (hspad : isSpadVa va.toNat = false) : locate s w t a k wr va n
    = match lookupPage s t (va.toNat / 65536) with
      | none => .miss (va.toNat / 65536)
      | some out => ofWalk w a k wr va out :=
  (if_neg (by simpa using h)).trans (if_neg (Bool.eq_false_iff.1 hspad))

section
variable (h : va.extractLsb' 57 7 = 0) (hspad : isSpadVa va.toNat = true)
include h hspad

theorem locate_spad_none (hnone : spadVa w (tidCore t.tid) va.toNat = none) : locate s w t a k wr va n = .bad (protTrap k 2 va) := by
  rw [locate, if_neg (by simpa using h), if_pos hspad, hnone]

variable (hk : (k == .fetch) = false) {j off : Nat}
include hk

theorem locate_spad_kind (hat : spadVa w (tidCore t.tid) va.toNat = some (j, off)) (hno : allowed a .spad = false) :
    locate s w t a k wr va n = .bad (protTrap k 6 va) := by
  rw [locate, if_neg (by simpa using h), if_pos hspad, hat]
  simp only [hk, hno, Bool.not_false, Bool.false_eq_true, if_false, if_true]

theorem locate_spad_layout {k' : Core} (hat : spadVa w (tidCore t.tid) va.toNat = some (t.core, off)) (hyes : allowed a .spad = true)
    (hcore : core? s t.o t.core = some k') (hbad : spadSize k' < off + n ∨ inShadow k' off n = true) :
    locate s w t a k wr va n = .bad (protTrap k 2 va) := by
  have hlay : (decide (spadSize k' < off + n) || inShadow k' off n) = true := by simpa using hbad
  rw [locate, if_neg (by simpa using h), if_pos hspad, hat]
  simp only [hk, hyes, hcore, hlay, Bool.not_true, Bool.false_eq_true, if_false, if_true]

end

/-! ### A leaf's rules, in their order -/

section
variable {l : Leaf} {pa : Nat}

theorem permit_saved (h : l.cls = 3) : permit w a k wr va l pa = .bad (protTrap k 4 va) := if_pos h

variable (hcls : l.cls ≠ 3)
include hcls

theorem permit_readOnly (hwr : wr = true) (hw : l.w = false) : permit w a k wr va l pa = .bad (protTrap k 0 va) := by
  simp only [permit, hcls, hwr, hw, Bool.not_false, Bool.and_self, if_false, if_true]

variable (hwr : wr = true → l.w = true) (hk : (k == .fetch) = false)
include hwr hk

/-- Past W and X the place decides, then the full/empty bit. -/
theorem permit_rest : permit w a k wr va l pa = if !allowed a (siteOf w (.mem l pa)) then .bad (protTrap k 6 va)
    else if a == .fe && !l.fe then .bad (protTrap k 2 va) else .ok (.mem l pa) := by
  have hw : (wr && !l.w) = false := by
    cases wr
    · rfl
    · rw [hwr rfl]; rfl
  simp only [permit, hcls, hw, hk, Bool.false_and, Bool.false_eq_true, if_false]

theorem permit_place (hno : allowed a (siteOf w (.mem l pa)) = false) : permit w a k wr va l pa = .bad (protTrap k 6 va) := by
  rw [permit_rest hcls hwr hk, hno]
  rfl

variable (hyes : allowed a (siteOf w (.mem l pa)) = true)
include hyes

theorem permit_noBits (ha : a = .fe) (hfe : l.fe = false) : permit w a k wr va l pa = .bad (protTrap k 2 va) := by
  rw [permit_rest hcls hwr hk, hyes, ha, hfe]
  rfl

theorem permit_ok (hfe : a = .fe → l.fe = true) : permit w a k wr va l pa = .ok (.mem l pa) := by
  have hbits : (a == .fe && !l.fe) = false := by
    by_cases ha : a = .fe
    · rw [hfe ha, Bool.not_true, Bool.and_false]
    · rw [beq_eq_false_iff_ne.2 ha, Bool.false_and]
  rw [permit_rest hcls hwr hk, hyes, hbits]
  rfl

end
end

/-! ## A second page (R330) -/

section
variable {e : Env} {a : Act332} {k : AccKind} {va : Word} {n al : Nat}

/-- An access with no second page has the outcome of its check. -/
theorem checkSpan_one (h : va.toNat % 65536 + n ≤ 65536 ∨ va.extractLsb' 57 7 ≠ 0 ∨ isSpadVa va.toNat = true ∨ va.toNat % al ≠ 0) :
    checkSpan e a k va n al = Span.of (check e.s e.w e.t a k va n al) := by
  have hlt : va.toNat % 65536 < 65536 := Nat.mod_lt _ (by decide)
  have hone : (decide (n ≤ 65536 - va.toNat % 65536) || va.extractLsb' 57 7 != 0 || isSpadVa va.toNat || va.toNat % al != 0) = true := by
    simp only [Bool.or_eq_true, decide_eq_true_eq, bne_iff_ne, or_assoc]
    exact h.imp_left fun hle => by omega
  exact if_pos hone

theorem checkSpan_one_bad {x : TrapInfo}
    (h : va.toNat % 65536 + n ≤ 65536 ∨ va.extractLsb' 57 7 ≠ 0 ∨ isSpadVa va.toNat = true ∨ va.toNat % al ≠ 0)
    (hbad : check e.s e.w e.t a k va n al = .bad x) : checkSpan e a k va n al = .bad x := by
  rw [checkSpan_one h, hbad]
  rfl

section
variable (hext : va.extractLsb' 57 7 = 0) (hspad : isSpadVa va.toNat = false) (hal : va.toNat % al = 0)
  (hcross : ¬ va.toNat % 65536 + n ≤ 65536)
include hext hspad hal hcross

theorem crosses : ¬ (decide (n ≤ 65536 - va.toNat % 65536) || va.extractLsb' 57 7 != 0 || isSpadVa va.toNat || va.toNat % al != 0) = true := by
  have hlt : va.toNat % 65536 < 65536 := Nat.mod_lt _ (by decide)
  have hmore : ¬ n ≤ 65536 - va.toNat % 65536 := by omega
  simp [hext, hspad, hal, hmore]

variable {x y : TrapInfo} {l : Loc}

/-- Of two pages that fail the lower cause is met. -/
theorem checkSpan_two_bad (hone : check e.s e.w e.t a k va n al = .bad x)
    (htwo : locate e.s e.w e.t a k k.writes (va + BitVec.ofNat 64 (65536 - va.toNat % 65536)) (n - (65536 - va.toNat % 65536)) = .bad y) :
    checkSpan e a k va n al = .bad (if y.cause < x.cause then y else x) := by
  unfold checkSpan
  simp only [crosses hext hspad hal hcross, hone, htwo]
  rfl

theorem checkSpan_first_bad (hone : check e.s e.w e.t a k va n al = .bad x)
    (htwo : locate e.s e.w e.t a k k.writes (va + BitVec.ofNat 64 (65536 - va.toNat % 65536)) (n - (65536 - va.toNat % 65536)) = .ok l) :
    checkSpan e a k va n al = .bad x := by
  unfold checkSpan
  simp only [crosses hext hspad hal hcross, hone, htwo]
  rfl

theorem checkSpan_second_bad (hone : check e.s e.w e.t a k va n al = .ok l)
    (htwo : locate e.s e.w e.t a k k.writes (va + BitVec.ofNat 64 (65536 - va.toNat % 65536)) (n - (65536 - va.toNat % 65536)) = .bad y) :
    checkSpan e a k va n al = .bad y := by
  unfold checkSpan
  simp only [crosses hext hspad hal hcross, hone, htwo]
  rfl

end

/-- An access aligned to its size lies in one page. -/
theorem here_of_aligned (hn : n ∣ 65536) (hal : va.toNat % n = 0) : va.toNat % 65536 + n ≤ 65536 := by
  obtain ⟨q, hq⟩ := hn
  obtain ⟨r, hr⟩ : n ∣ va.toNat % 65536 := (Nat.dvd_mod_iff ⟨q, hq⟩).2 (Nat.dvd_of_mod_eq_zero hal)
  have hlt : n * r < n * q := by rw [← hr, ← hq]; exact Nat.mod_lt _ (by decide)
  have hrq : r + 1 ≤ q := Nat.lt_of_mul_lt_mul_left hlt
  calc va.toNat % 65536 + n = n * (r + 1) := by rw [hr, Nat.mul_succ]
    _ ≤ 65536 := hq ▸ Nat.mul_le_mul_left n hrq

end

/-! ## What an operation does with a check that fails -/

theorem withSpan_bad {e : Env} {x : TrapInfo} {sp : Span} (f : Loc → Option (Nat × Loc) → XRes) (h : sp = .bad x) :
    withSpan e sp f = .trapC x := by
  rw [h]
  rfl

theorem bytesOfType_dvd (ty : IType) : bytesOfType ty ∣ 65536 := by cases ty <;> decide

/-- An access aligned to its size: its span is its check. -/
theorem checkSpan_aligned {e : Env} {a : Act332} {k : AccKind} {va : Word} {n : Nat} (hn : n ∣ 65536) :
    checkSpan e a k va n n = Span.of (check e.s e.w e.t a k va n n) := by
  by_cases hal : va.toNat % n = 0
  · exact checkSpan_one (.inl (here_of_aligned hn hal))
  · exact checkSpan_one (.inr (.inr (.inr hal)))

theorem withChk_bad {e : Env} {a : Act332} {k : AccKind} {va : Word} {n : Nat} {x : TrapInfo} (f : Loc → XRes) (hn : n ∣ 65536)
    (h : checkSpan e a k va n n = .bad x) : withChk e (check e.s e.w e.t a k va n n) f = .trapC x := by
  rw [checkSpan_aligned hn] at h
  cases hc : check e.s e.w e.t a k va n n with
  | bad u => rw [hc] at h; cases h; rfl
  | ok l => rw [hc] at h; cases h
  | miss p => rw [hc] at h; cases h

/-- An access is a load, a store or both. -/
theorem accessOf_kind {e : Env} {i : Instr} {a : Act332} {k : AccKind} {va : Word} {n al : Nat}
    (h : accessOf e i = some (a, k, va, n, al)) : (k == .fetch) = false := by
  unfold accessOf at h
  split at h <;> cases h <;> rfl

theorem accessOf_amoFadd {e : Env} {i : Instr} {a : Act332} {k : AccKind} {va : Word} {n al : Nat} {ord : Ord} {d : GReg} {m : M3}
    (hi : i = .amoFadd ord d m) (h : accessOf e i = some (a, k, va, n, al)) : n = 4 ∧ al = 4 := by
  subst hi
  cases h
  exact ⟨rfl, rfl⟩

section
variable {s : State} {c : Cur} {t : Thread} {w : Owner} {x : TrapInfo}

/-- AMO.fadd in plumb mode takes PLUMB where its check met no lower cause (R342). -/
theorem exec_amoFadd_bad {ord : Ord} {d : GReg} {m : M3} (h : Issues s c t w (.amoFadd ord d m) 0)
    (hbad : let e := firstEnv s c t w (.amoFadd ord d m)
      checkSpan e .amo .atomic (ea3 e.s e.t m) 4 4 = .bad x) (hlow : x.cause ≤ 0x10) :
    exec (.amoFadd ord d m) s = .next (trapsTo s c t w (.amoFadd ord d m) x) := by
  refine runX_trapC (sem := amoFaddSem ord d m) h ?_
  show amoFaddSem ord d m (firstEnv s c t w (.amoFadd ord d m)) = _
  simp only [amoFaddSem, hbad]
  exact if_neg fun hp => absurd hp.2 (Nat.not_lt.2 hlow)

/-- What fails its checks traps. -/
theorem exec_of_bad {i : Instr} {a : Act332} {k : AccKind} {va : Word} {n al : Nat}
    (hacc : accessOf (firstEnv s c t w i) i = some (a, k, va, n, al)) (h : Issues s c t w i 0)
    (hbad : checkSpan (firstEnv s c t w i) a k va n al = .bad x) (hlow : ∀ ord d m, i = .amoFadd ord d m → x.cause ≤ 0x10) :
    exec i s = .next (trapsTo s c t w i x) := by
  cases i with
  | ld ord o => cases hacc; exact runX_trapC (sem := ldSem ord o) h (withSpan_bad _ hbad)
  | st ord o => cases hacc; exact runX_trapC (sem := stSem ord o) h (withSpan_bad _ hbad)
  | vld ord o => cases hacc; exact runX_trapC (sem := vldSem ord o) h (withSpan_bad _ hbad)
  | vst ord o => cases hacc; exact runX_trapC (sem := vstSem ord o) h (withSpan_bad _ hbad)
  | vldDesc ord d k m => cases hacc; exact runX_trapC (sem := vldDescSem ord d k m) h (withSpan_bad _ hbad)
  | vstDesc ord d k m => cases hacc; exact runX_trapC (sem := vstDescSem ord d k m) h (withSpan_bad _ hbad)
  | lds sc o => cases hacc; exact runX_trapC (sem := ldsSem sc o) h (withSpan_bad _ hbad)
  | ldsClr sc o => cases hacc; exact runX_trapC (sem := ldsClrSem sc o) h (withSpan_bad _ hbad)
  | stf o => cases hacc; exact runX_trapC (sem := stfSem o) h (withSpan_bad _ hbad)
  | fec full d ad => cases hacc; exact runX_trapC (sem := fecSem full d ad) h (withSpan_bad _ hbad)
  | amoAdd ty ord d m => cases hacc; exact runX_trapC (sem := amoSem .add ty ord d m) h (withSpan_bad _ hbad)
  | amoAnd ty ord d m => cases hacc; exact runX_trapC (sem := amoSem .and ty ord d m) h (withSpan_bad _ hbad)
  | amoOr ty ord d m => cases hacc; exact runX_trapC (sem := amoSem .or ty ord d m) h (withSpan_bad _ hbad)
  | amoXor ty ord d m => cases hacc; exact runX_trapC (sem := amoSem .xor ty ord d m) h (withSpan_bad _ hbad)
  | amoMin ty ord d m => cases hacc; exact runX_trapC (sem := amoSem .min ty ord d m) h (withSpan_bad _ hbad)
  | amoMax ty ord d m => cases hacc; exact runX_trapC (sem := amoSem .max ty ord d m) h (withSpan_bad _ hbad)
  | amoSwap ty ord d m => cases hacc; exact runX_trapC (sem := amoSem .swap ty ord d m) h (withSpan_bad _ hbad)
  | cas ty ord d m => cases hacc; exact runX_trapC (sem := casSem ty ord d m) h (withSpan_bad _ hbad)
  | amoFadd ord d m => cases hacc; exact exec_amoFadd_bad h hbad (hlow ord d m rfl)
  | ldv d ad => cases hacc; exact runX_trapC (sem := ldvSem d ad) h (withSpan_bad _ hbad)
  | bara d ad => cases hacc; exact runX_trapC (sem := baraSem d ad) h (withChk_bad _ (by decide) hbad)
  | barmax d m => cases hacc; exact runX_trapC (sem := barmaxSem d m) h (withChk_bad _ (by decide) hbad)
  | barw d ad => cases hacc; exact runX_trapC (sem := barwSem d ad) h (withChk_bad _ (by decide) hbad)
  | waitc d a b => cases hacc; exact runX_trapC (sem := waitcSem d a b) h (withChk_bad _ (by decide) hbad)
  | _ => cases hacc

end

end Sys2Proof.Machine
end

section
namespace Sys2Proof
open Sys2Proof.Machine

/-- Settles O34: an operation traps with what its span's check met, which is that of its one page or of the two. -/
theorem accessTraps : Obligations.AccessTraps := by
  unfold Obligations.AccessTraps
  intro i s c t w a k va n al e here hacc h prot
  have hk := accessOf_kind hacc
  have hcheck : ∀ x, va.toNat % 65536 + n ≤ 65536 ∨ va.extractLsb' 57 7 ≠ 0 ∨ isSpadVa va.toNat = true ∨ va.toNat % al ≠ 0 →
      check s w t a k va n al = .bad x → (∀ ord d m, i = .amoFadd ord d m → x.cause ≤ 0x10) → exec i s = .next (trapsTo s c t w i x) :=
    fun x hone hbad => exec_of_bad hacc h (checkSpan_one_bad hone ((firstEnv_check s c t w i ..).trans hbad))
  have hlocate : ∀ x, va.toNat % 65536 + n ≤ 65536 ∨ va.extractLsb' 57 7 ≠ 0 ∨ isSpadVa va.toNat = true → va.toNat % al = 0 →
      locate s w t a k k.writes va n = .bad x → x.cause ≤ 0x10 → exec i s = .next (trapsTo s c t w i x) :=
    fun x hone hal hbad hlow => hcheck x (by tauto) (check_of_locate_bad hal hbad) fun _ _ _ _ => hlow
  refine ⟨fun hal => ?align, fun hal hext => ?range, fun hal hext hspad => ⟨fun hnone => ?nowhere, fun j off hat hno => ?kind,
    fun off k' hat hyes hcore hbad => ?layout⟩, fun hal hext hspad hcross => ?cross, fun hal hext hspad hin => ?page⟩
  case align => exact hcheck _ (.inr (.inr (.inr hal))) (check_misaligned hal) fun _ _ _ _ => (by decide : 0x03 ≤ 0x10)
  case range => exact hlocate _ (.inr (.inl hext)) hal (locate_beyond hext) (by decide : 0x05 ≤ 0x10)
  case nowhere => exact hlocate _ (.inr (.inr hspad)) hal (locate_spad_none hext hspad hnone) (by decide : 0x05 ≤ 0x10)
  case kind => exact hlocate _ (.inr (.inr hspad)) hal (locate_spad_kind hext hspad hk hat hno) (by decide : 0x05 ≤ 0x10)
  case layout => exact hlocate _ (.inr (.inr hspad)) hal (locate_spad_layout hext hspad hk hat hyes hcore hbad) (by decide : 0x05 ≤ 0x10)
  case cross =>
    have hnot : ∀ ord d m, i ≠ .amoFadd ord d m := by
      intro ord d m hi
      obtain ⟨rfl, rfl⟩ := accessOf_amoFadd hi hacc
      exact hcross (here_of_aligned (by decide) hal)
    have hspan : ∀ x, checkSpan e a k va n al = .bad x → exec i s = .next (trapsTo s c t w i x) :=
      fun x hbad => exec_of_bad hacc h hbad fun ord d m hi => absurd hi (hnot ord d m)
    exact ⟨fun x y hx hy => hspan _ (checkSpan_two_bad hext hspad hal hcross hx hy),
      fun x l hx hl => hspan _ (checkSpan_first_bad hext hspad hal hcross hx hl),
      fun l y hl hy => hspan _ (checkSpan_second_bad hext hspad hal hcross hl hy)⟩
  case page =>
    have hwalk : ∀ out, lookupPage s t (va.toNat / 65536) = some out →
        locate s w t a k k.writes va n = ofWalk w a k k.writes va out := fun out hout => by
      rw [locate_below hext hspad, hout]
    refine ⟨fun level entry hout => hlocate _ (.inl hin) hal (hwalk _ hout) (by decide : 0x04 ≤ 0x10),
      fun reason hout => hlocate _ (.inl hin) hal (hwalk _ hout) (by decide : 0x05 ≤ 0x10), fun l hout => ?_⟩
    intro pa
    have hleaf : ∀ x, permit w a k k.writes va l pa = .bad x → x.cause ≤ 0x10 → exec i s = .next (trapsTo s c t w i x) :=
      fun x hbad => hlocate x (.inl hin) hal ((hwalk _ hout).trans hbad)
    refine ⟨fun hcls => hleaf _ (permit_saved hcls) (by decide : 0x05 ≤ 0x10),
      fun hcls hwr hw => hleaf _ (permit_readOnly hcls hwr hw) (by decide : 0x05 ≤ 0x10),
      fun hcls hwr hno => hleaf _ (permit_place hcls hwr hk hno) (by decide : 0x05 ≤ 0x10),
      fun hcls hwr hyes ha hfe => hleaf _ (permit_noBits hcls hwr hk hyes ha hfe) (by decide : 0x05 ≤ 0x10),
      fun hcls hwr hyes hfe x hwatch hother => ?_⟩
    have hok := (hwalk _ hout).trans (permit_ok hcls hwr hk hyes hfe)
    exact hcheck _ (.inl hin) (check_of_watch hal hok hwatch) fun ord d m hi => absurd hother (by rw [hi]; exact Bool.noConfusion)

end Sys2Proof
end

section
/-!
SUPPORT. What a thread receives at its home core (R350, R356, R357): a mailbox, the inbox, the work list, a changed word.
-/

namespace Sys2Proof.Machine

/-! ## Fields of a 64-byte record -/

theorem getLsbD_bytesVec (bs : List Byte) {b : Nat} (hb : b < 512) : (bytesVec bs).getLsbD b = (bs.getD (b / 8) 0).getLsbD (b % 8) := by
  rw [← elemOf_bytesVec bs (by omega), elemOf, BitVec.getLsbD_extractLsb', decide_eq_true (Nat.mod_lt b (by decide)),
    Bool.true_and, Nat.div_add_mod]

/-- m bytes of a record that hold a word are its low m bytes. -/
theorem elemOf_field {bs : List Byte} {m i : Nat} {w : Word} (hm : m * i + m ≤ 64) (h : (bs.drop (m * i)).take m = listOfWord w m) :
    elemOf (8 * m) i (bytesVec bs) = w.setWidth (8 * m) := by
  refine BitVec.eq_of_getLsbD_eq fun b hb => ?_
  have hbyte : bs.getD (m * i + b / 8) 0 = w.extractLsb' (8 * (b / 8)) 8 := by
    have hk : b / 8 < m := by omega
    have hget := congrArg (fun l => l[b / 8]?) h
    simp only [List.getElem?_take_of_lt hk, List.getElem?_drop, listOfWord, List.getElem?_map, List.getElem?_range hk] at hget
    rw [List.getD_eq_getElem?_getD, hget]
    rfl
  have hpos : 8 * m * i + b = 8 * (m * i) + b := by rw [Nat.mul_assoc]
  rw [elemOf, BitVec.getLsbD_extractLsb', hpos, getLsbD_bytesVec bs (by omega), show (8 * (m * i) + b) / 8 = m * i + b / 8 by omega,
    hbyte, BitVec.getLsbD_extractLsb', BitVec.getLsbD_setWidth, show 8 * (b / 8) + (8 * (m * i) + b) % 8 = b by omega,
    decide_eq_true hb, decide_eq_true (show (8 * (m * i) + b) % 8 < 8 by omega), Bool.true_and]

theorem elemOf_field64 {bs : List Byte} {i : Nat} {w : Word} (hi : i < 8) (h : (bs.drop (8 * i)).take 8 = listOfWord w 8) :
    elemOf 64 i (bytesVec bs) = w :=
  (elemOf_field (by omega) h).trans (BitVec.setWidth_eq w)

theorem elemOf_field32 {bs : List Byte} {i n : Nat} (hi : i < 16) (h : (bs.drop (4 * i)).take 4 = listOfWord (BitVec.ofNat 64 n) 4) :
    elemOf 32 i (bytesVec bs) = BitVec.ofNat 32 n :=
  (elemOf_field (by omega) h).trans (BitVec.setWidth_ofNat_of_le (by decide) n)

theorem getD_append_zeros (bs : List Byte) (n b : Nat) (hb : bs.length ≤ b) : (bs ++ List.replicate n 0).getD b 0 = 0 := by
  rw [List.getD_append_right _ _ _ _ hb, List.getD_eq_getElem?_getD, List.getElem?_replicate]
  split <;> rfl

theorem word_eq_of_bytes {x y : Word} (h : ∀ k < 8, x.extractLsb' (8 * k) 8 = y.extractLsb' (8 * k) 8) : x = y := by
  refine BitVec.eq_of_getLsbD_eq fun b hb => ?_
  have hbyte := congrArg (fun z => z.getLsbD (b % 8)) (h (b / 8) (by omega))
  simpa only [BitVec.getLsbD_extractLsb', decide_eq_true (Nat.mod_lt b (by decide : 0 < 8)), Bool.true_and, Nat.div_add_mod] using hbyte

/-- One byte as a word of four. -/
theorem listOfWord_byte (n : Nat) : listOfWord (BitVec.ofNat 64 (n % 256)) 4 = [BitVec.ofNat 8 n, 0, 0, 0] := by
  have hlt : n % 256 < 256 := Nat.mod_lt _ (by decide)
  have hbyte (k : Nat) : (BitVec.ofNat 64 (n % 256)).extractLsb' (8 * k) 8 = BitVec.ofNat 8 (n % 256 / 256 ^ k) := by
    refine BitVec.eq_of_toNat_eq ?_
    have hword : n % 256 < 2 ^ 64 := hlt.trans (by decide)
    rw [BitVec.extractLsb'_toNat, BitVec.toNat_ofNat, Nat.mod_eq_of_lt hword, BitVec.toNat_ofNat, Nat.shiftRight_eq_div_pow,
      Nat.pow_mul]
  have hhigh {k : Nat} (hk : 1 ≤ k) : n % 256 / 256 ^ k = 0 :=
    Nat.div_eq_of_lt (hlt.trans_le (Nat.le_self_pow (by omega) 256))
  show [(BitVec.ofNat 64 (n % 256)).extractLsb' (8 * 0) 8, (BitVec.ofNat 64 (n % 256)).extractLsb' (8 * 1) 8,
    (BitVec.ofNat 64 (n % 256)).extractLsb' (8 * 2) 8, (BitVec.ofNat 64 (n % 256)).extractLsb' (8 * 3) 8] = _
  rw [hbyte 0, hbyte 1, hbyte 2, hbyte 3, hhigh (Nat.le_refl 1), hhigh (by decide : 1 ≤ 2), hhigh (by decide : 1 ≤ 3),
    Nat.pow_zero, Nat.div_one, show BitVec.ofNat 8 (n % 256) = BitVec.ofNat 8 n from ofNat_mod_self 8 n]
  rfl

/-! ## A mailbox (R350) -/

section
variable {e : Env} {va : Word} {off : Nat} {k : Core}

/-- A mailbox of the home core, which runs the thread itself. -/
theorem mailboxChk_ok (hal : va.toNat % 64 = 0) (hext : va.extractLsb' 57 7 = 0) (hspad : isSpadVa va.toNat = true)
    (hat : spadVa e.w (tidCore e.t.tid) va.toNat = some (e.t.core, off)) (hhome : tidCore e.t.tid = e.t.core)
    (hcore : core? e.s e.t.o e.t.core = some k) (hend : off + 64 ≤ spadSize k) (hshadow : inShadow k off 64 = false)
    (hwatch : watchHit e.t va.toNat 64 true true = none) : mailboxChk e va = .ok (.spad e.t.core off) := by
  rw [hhome] at hat
  simp [mailboxChk, hal, hext, hspad, hhome, hat, hcore, hend, hshadow, hwatch]

/-- It passes the checks of an access with full/empty bits too. -/
theorem check_mailbox (hal : va.toNat % 64 = 0) (hext : va.extractLsb' 57 7 = 0) (hspad : isSpadVa va.toNat = true)
    (hat : spadVa e.w (tidCore e.t.tid) va.toNat = some (e.t.core, off))
    (hcore : core? e.s e.t.o e.t.core = some k) (hend : off + 64 ≤ spadSize k) (hshadow : inShadow k off 64 = false)
    (hwatch : watchHit e.t va.toNat 64 true true = none) : check e.s e.w e.t .fe .atomic va 64 64 = .ok (.spad e.t.core off) := by
  have hloc : locate e.s e.w e.t .fe .atomic AccKind.atomic.writes va 64 = .ok (.spad e.t.core off) := by
    simp [locate, hext, hspad, hat, hcore, hend, hshadow, allowed]
  rw [check, if_neg (not_not_intro hal), hloc]
  simp only [AccKind.watchL, AccKind.watchS, hwatch]

end

theorem granKey_add (o j off i : Nat) : granKey o j (off + 16 * i) = granKey o j off + i := by
  simp only [granKey]
  omega

theorem allFull_spad (s : State) (o j off : Nat) :
    allFull s (.spad o j off) true = true ↔ ∀ g < 4, getD false s.spadFE (granKey o j off + g) = true := by
  simp only [allFull, List.all_eq_true, List.mem_range, beq_iff_eq, Spot.add, fullAt, granKey_add]

/-- Emptying four granules. -/
theorem setAllFull_spad (s : State) (o j off : Nat) : ∃ fe, setAllFull s (.spad o j off) false = { s with spadFE := fe }
    ∧ ∀ g, getD false fe g = if granKey o j off ≤ g ∧ g < granKey o j off + 4 then false else getD false s.spadFE g := by
  have hn (n : Nat) : ∃ fe,
      (List.range n).foldl (fun s i => setFull s ((Spot.spad o j off).add (16 * i)) false) s = { s with spadFE := fe }
      ∧ ∀ g, getD false fe g = if granKey o j off ≤ g ∧ g < granKey o j off + n then false else getD false s.spadFE g := by
    induction n with
    | zero => exact ⟨s.spadFE, rfl, fun g => (if_neg (by omega)).symm⟩
    | succ n ih =>
      obtain ⟨fe, hfe, hget⟩ := ih
      refine ⟨setD false fe (granKey o j off + n) false, ?_, fun g => ?_⟩
      · rw [List.range_succ, List.foldl_append, hfe]
        simp only [List.foldl_cons, List.foldl_nil, Spot.add, setFull, granKey_add]
      · rw [getD_setD, hget]
        by_cases hlast : g = granKey o j off + n
        · rw [if_pos hlast, if_pos (by omega)]
        · rw [if_neg hlast]
          exact if_congr (by omega) rfl rfl
  exact hn 4

section
variable {e : Env} {a : Act332} {k : AccKind} {va : Word} {al off : Nat} {v : VReg}

/-- A full mailbox is read and emptied. -/
theorem ask_mrecv_full (h : OwnSpad e a k va 64 al off (.mrecv v) none none) (hclean : cleanAt e off 64)
    (hfull : allFull e.s (.spad e.t.o e.t.core off) true = true) : ∃ x fe, ask e (ownReq e (.mrecv v) va off 64 none none)
      = .ok { oneMore e.s with spadFE := fe } { Wr.ofV v x with acq := some .pkg }
    ∧ (∀ b < 64, elemOf 8 b x = Memory.read e.s.spad (spadKey e.t.o e.t.core off + b))
    ∧ ∀ g, getD false fe g = if granKey e.t.o e.t.core off ≤ g ∧ g < granKey e.t.o e.t.core off + 4 then false
        else getD false e.s.spadFE g := by
  have hbits : allFull e.s (spotOf (ownReq e (.mrecv v) va off 64 none none)) true = true := hfull
  obtain ⟨fe, hfe, hget⟩ := setAllFull_spad e.s e.t.o e.t.core off
  have hserve : serve0 e.s (ownReq e (.mrecv v) va off 64 none none)
      = .done { e.s with spadFE := fe } { (ownReq e (.mrecv v) va off 64 none none).reply with
          v := [(v, BitVec.allOnes 64, bytesVec (Memory.readN e.s.spad (spadKey e.t.o e.t.core off) 64))], acq := some .pkg } := by
    rw [← hfe]
    simp only [serve0, ownReq_kind, layoutBad_own h, hbits, serveRead_own h hclean, Bool.not_true, Bool.false_eq_true, if_false]
    rfl
  refine ⟨mergeLanes (BitVec.allOnes 64) (readV e.s e.t v) (bytesVec (Memory.readN e.s.spad (spadKey e.t.o e.t.core off) 64)), fe,
    (ask_own h hserve rfl rfl rfl).trans ?_, fun b hb => ?_, hget⟩
  · rw [noteEarly_plain rfl]
    rfl
  · rw [elemOf_mergeLanes _ _ _ hb, if_pos (by rw [BitVec.getLsbD_allOnes]; exact decide_eq_true hb),
      elemOf_bytesVec _ hb, Memory.readN_getD _ _ hb]

/-- What a scratchpad does not answer yet is held at it. -/
theorem ask_held {n : Nat} {kind : ReqKind} (h : OwnSpad e a k va n al off kind none none)
    (hserve : serve0 e.s (ownReq e kind va off n none none) = .hold) : ask e (ownReq e kind va off n none none)
      = .wait (addReq e.s { ownReq e kind va off n none none with held := true }) (.reply e.s.nextId) := by
  have hlocal : isLocal e (ownReq e kind va off n none none) = true := beq_self_eq_true _
  simp only [ask, hlocal, h.ord, serve, hserve, Bool.and_true, if_true]
  rfl

theorem ask_mrecv_empty (h : OwnSpad e a k va 64 al off (.mrecv v) none none)
    (hempty : ¬ allFull e.s (.spad e.t.o e.t.core off) true = true) : ask e (ownReq e (.mrecv v) va off 64 none none)
      = .wait (addReq e.s { ownReq e (.mrecv v) va off 64 none none with held := true }) (.reply e.s.nextId) := by
  have hbits : allFull e.s (spotOf (ownReq e (.mrecv v) va off 64 none none)) true = false := Bool.eq_false_iff.2 hempty
  refine ask_held h ?_
  simp only [serve0, ownReq_kind, layoutBad_own h, hbits, Bool.not_false, Bool.false_eq_true, if_false, if_true]

/-- WAITC answers a word that differs, and is held where it is still the old one. -/
theorem serve0_waitc {old : Word} {d : GReg} (h : OwnSpad e a k va 8 al off (.waitc old d) none none) (hclean : cleanAt e off 8) :
    let x := wordOfList (Memory.readN e.s.spad (spadKey e.t.o e.t.core off) 8)
    serve0 e.s (ownReq e (.waitc old d) va off 8 none none) = if x = old then .hold
      else .done e.s { (ownReq e (.waitc old d) va off 8 none none).reply with g := [(d, x)] } := by
  simp only [serve0, ownReq_kind]
  exact serveRead_own h hclean _

end

/-! ## The instructions -/

section
variable {s : State} {c : Cur} {t : Thread} {w : Owner}

theorem exec_mrecv {v : VReg} {a : GReg} {off : Nat} {k : Core} (hissue : Issues s c t w (.mrecv v a) 0) :
    let i := Instr.mrecv v a
    let e := firstEnv s c t w i
    let va := readG s t a
    let box := fun n : Nat => spadKey t.o t.core off + n
    let gran := granKey t.o t.core off
    va.toNat % 64 = 0 → va.extractLsb' 57 7 = 0 → isSpadVa va.toNat = true →
    spadVa w (tidCore t.tid) va.toNat = some (t.core, off) → tidCore t.tid = t.core → core? s t.o t.core = some k →
    off + 64 ≤ spadSize k → inShadow k off 64 = false → watchHit t va.toNat 64 true true = none →
    mayServe e.s (ownReq e (.mrecv v) va off 64 none none) = true →
    ((∀ g < 4, getD false s.spadFE (gran + g) = true) → cleanAt e off 64 →
      ∃ x fe', exec i s = .next (retiresTo s c t w i { oneMore e.s with spadFE := fe' } { Wr.ofV v x with acq := some .pkg }) ∧
        (∀ b < 64, elemOf 8 b x = Memory.read s.spad (box b)) ∧
        ∀ g, getD false fe' g = if gran ≤ g ∧ g < gran + 4 then false else getD false s.spadFE g)
    ∧ ((∃ g < 4, getD false s.spadFE (gran + g) = false) → exec i s = .next (asksFor s c t w i e.s
        { ownReq e (.mrecv v) va off 64 none none with held := true })) := by
  intro i e va box gran hal hext hspad hat hhome hcore hend hshadow hwatch hturn
  obtain ⟨n, hcore'⟩ := firstEnv_core s c t w i t.core
  rw [hcore] at hcore'
  have hown : OwnSpad e .fe .atomic va 64 64 off (.mrecv v) none none :=
    ⟨check_mailbox hal hext hspad hat hcore' hend hshadow hwatch, hturn⟩
  have hsem : mrecvSem v a e = ask e (ownReq e (.mrecv v) va off 64 none none) := by
    have hva : e.g a = va := firstEnv_g ..
    have hchk : mailboxChk e va = .ok (.spad e.t.core off) :=
      mailboxChk_ok hal hext hspad hat hhome hcore' hend hshadow hwatch
    simp only [mrecvSem, hva, hchk, withChk]
    rfl
  have hbits : allFull e.s (.spad t.o t.core off) true = true ↔ ∀ g < 4, getD false s.spadFE (gran + g) = true := by
    rw [allFull_spad, firstEnv_spadFE]
  refine ⟨fun hfull hclean => ?_, fun ⟨g, hg, hempty⟩ => ?_⟩
  · obtain ⟨x, fe, hask, hbytes, hget⟩ := ask_mrecv_full hown hclean (hbits.2 hfull)
    rw [firstEnv_spad] at hbytes
    rw [firstEnv_spadFE] at hget
    exact ⟨x, fe, runX_ok (sem := mrecvSem v a) hissue (hsem.trans hask), hbytes, hget⟩
  · exact runX_wait (sem := mrecvSem v a) hissue (hsem.trans (ask_mrecv_empty hown fun hfull =>
      Bool.false_ne_true (hempty.symm.trans (hbits.1 hfull g hg))))

/-! ### MRECV.trap and WPUSH -/

theorem exec_mrecvTrap {v : VReg} (hissue : Issues s c t w (.mrecvTrap v) 0) :
    let i := Instr.mrecvTrap v
    let e := firstEnv s c t w i
    (∀ r rs, t.inbox = r :: rs → ∃ x, exec i s = .next (retiresTo s c t w i
        (onThr e.s t.o t.tid (fun u => { u with inbox := rs })) { Wr.ofV v x with acq := some .pkg }) ∧
        elemOf 32 1 x = BitVec.ofNat 32 r.tid ∧ elemOf 64 1 x = r.pc ∧ elemOf 64 2 x = r.va ∧ elemOf 64 3 x = r.info ∧
        elemOf 64 4 x = r.pos ∧ elemOf 64 5 x = r.spec ∧ elemOf 64 7 x = BitVec.ofNat 64 r.seq)
    ∧ (t.inbox = [] → exec i s = .next (putWait e.s c .inbox (some (bundleOf (bare s) c t w i)))) := by
  refine ⟨fun r rs hin => ⟨bytesVec (recBytes r), ?_, ?_⟩, fun hin => ?_⟩
  · exact runX_ok (sem := mrecvTrapSem v) hissue (by simp only [mrecvTrapSem, envX_t, hin]; rfl)
  · exact ⟨elemOf_field32 (by decide) rfl, elemOf_field64 (by decide) rfl, elemOf_field64 (by decide) rfl,
      elemOf_field64 (by decide) rfl, elemOf_field64 (by decide) rfl, elemOf_field64 (by decide) rfl, elemOf_field64 (by decide) rfl⟩
  · exact runX_wait (sem := mrecvTrapSem v) hissue (by simp only [mrecvTrapSem, envX_t, hin]; rfl)

theorem onCore_of {s : State} {o j : Nat} {k : Core} (h : core? s o j = some k) (f : Core → Core) :
    onCore s o j f = { s with cores := put s.cores (coreKey o j) (f k) } := by
  rw [onCore, upd_of_lookup s.cores (coreKey o j) f h]

theorem exec_wpush {d : GReg} {v : VReg} {k : Core} (hissue : Issues s c t w (.wpush d v) 0) :
    let i := Instr.wpush d v
    let e := firstEnv s c t w i
    let key := coreKey t.o (tidCore t.tid)
    core? e.s t.o (tidCore t.tid) = some k →
    (releaseNow e.s t .pkg = false → exec i s = .next (putWait e.s c .release none))
    ∧ (releaseNow e.s t .pkg = true → k.work.length < 256 → exec i s = .next (retiresTo s c t w i
        { e.s with
          cores := put e.s.cores key { k with work := k.work ++ [⟨(vecBytes (vecIn s c t i v)).take 16⟩] } } (Wr.ofG d 0)))
    ∧ (releaseNow e.s t .pkg = true → 256 ≤ k.work.length → exec i s = .next (doneWith s c t w i (Wr.ofG d 1))) := by
  intro i e key hcore
  have hsem : wpushSem d v e = if !releaseNow e.s t .pkg then .again e.s .release
      else if 256 ≤ k.work.length then e.give d 1
      else .ok { e.s with
          cores := put e.s.cores key { k with work := k.work ++ [⟨(vecBytes (vecIn s c t i v)).take 16⟩] } } (Wr.ofG d 0) := by
    have hput : onCore e.s t.o (tidCore t.tid) (fun k => { k with work := k.work ++ [⟨(vecBytes (vecIn s c t i v)).take 16⟩] })
        = { e.s with cores := put e.s.cores key { k with work := k.work ++ [⟨(vecBytes (vecIn s c t i v)).take 16⟩] } } :=
      onCore_of hcore _
    have hv : e.v v = vecIn s c t i v := firstEnv_v v
    rw [← hput, ← hv]
    simp only [wpushSem, e, firstEnv, envX_t] at hcore ⊢
    rw [hcore]
  refine ⟨fun hwait => ?_, fun hgo hroom => ?_, fun hgo hfull => ?_⟩
  · rw [hwait] at hsem
    exact runX_again (sem := wpushSem d v) hissue hsem
  · rw [hgo, if_neg (by decide), if_neg (by omega)] at hsem
    exact runX_ok (sem := wpushSem d v) hissue hsem
  · rw [hgo, if_neg (by decide), if_pos hfull] at hsem
    exact runX_done (sem := wpushSem d v) hissue hsem

/-! ### WPOP -/

theorem popWork_entry {k : Core} {ws : List WorkEnt} {y : WorkEnt} (h : k.work = ws ++ [y]) :
    popWork k = ({ k with work := ws }, bytesVec (y.data ++ List.replicate (64 - y.data.length) 0)) := by
  simp [popWork, h]

theorem popWork_cursor {k : Core} {u : Cursor} (h : k.work = []) (hcur : k.cursors = [u]) (hlive : u.next < u.limit) :
    popWork k = ({ k with cursors := [{ u with next := u.next + u.step }] },
      bytesVec (cursorEntry u ++ [1] ++ List.replicate 47 0)) := by
  have hnext : nextCursor k = some u := by simp [nextCursor, hcur, hlive]
  simp [popWork, h, hnext, hcur]

theorem popWork_empty {k : Core} (h : k.work = []) (hdone : ∀ u ∈ k.cursors, u.limit ≤ u.next) :
    popWork k = (k, bytesVec (List.replicate 16 0 ++ [2] ++ List.replicate 47 0)) := by
  have hnone : k.cursors.filter (fun u => u.next < u.limit) = [] :=
    List.filter_eq_nil_iff.2 fun u hu => by simpa using hdone u hu
  have hnext : nextCursor k = none := by rw [nextCursor, hnone]; rfl
  simp only [popWork, h, hnext, List.getLast?_nil]

/-- Without an entry no byte beyond the word of sixteen and its kind is set. -/
theorem popWork_high {k : Core} (h : k.work = []) {b : Nat} (hlow : 16 < b) (hb : b < 64) : elemOf 8 b (popWork k).2 = 0 := by
  simp only [popWork, h, List.getLast?_nil]
  split
  · exact (elemOf_bytesVec _ hb).trans (getD_append_zeros _ 47 b hlow)
  · exact (elemOf_bytesVec _ hb).trans (getD_append_zeros _ 47 b hlow)

theorem exec_wpop {v : VReg} {k : Core} (hissue : Issues s c t w (.wpop v) 0) :
    let i := Instr.wpop v
    let e := firstEnv s c t w i
    let key := coreKey t.o (tidCore t.tid)
    core? e.s t.o (tidCore t.tid) = some k →
    ∃ x k', exec i s = .next (retiresTo s c t w i { e.s with cores := put e.s.cores key k' }
        { Wr.ofV v x with acq := some .pkg }) ∧
      (∀ ws y, k.work = ws ++ [y] → y.data.length = 16 →
        k' = { k with work := ws } ∧ (∀ b < 16, elemOf 8 b x = y.data.getD b 0) ∧ ∀ b, 16 ≤ b → b < 64 → elemOf 8 b x = 0) ∧
      (k.work = [] → ∀ b, 16 < b → b < 64 → elemOf 8 b x = 0) ∧
      (k.work = [] → (∀ u ∈ k.cursors, u.limit ≤ u.next) → k' = k ∧ elemOf 8 16 x = 2 ∧ elemOf 128 0 x = 0) ∧
      (∀ u, k.work = [] → k.cursors = [u] → u.next < u.limit →
        k' = { k with cursors := [{ u with next := u.next + u.step }] } ∧ elemOf 8 16 x = 1 ∧
        elemOf 64 0 x = BitVec.ofNat 64 u.next ∧ elemOf 32 2 x = BitVec.ofNat 32 u.launch ∧
        elemOf 32 3 x = BitVec.ofNat 32 (u.stage % 256)) := by
  intro i e key hcore
  refine ⟨(popWork k).2, (popWork k).1, ?_, fun ws y hwork hlen => ?_, fun hwork b hlow hb => popWork_high hwork hlow hb,
    fun hwork hdone => ?_, fun u hwork hcur hlive => ?_⟩
  · refine runX_ok (sem := wpopSem v) hissue ?_
    simp only [wpopSem, e, firstEnv, envX_t] at hcore ⊢
    rw [hcore]
  · rw [popWork_entry hwork, hlen]
    refine ⟨rfl, fun b hb => ?_, fun b hlow hb => ?_⟩
    · rw [elemOf_bytesVec _ (by omega), List.getD_append _ _ _ _ (by omega)]
    · rw [elemOf_bytesVec _ hb, getD_append_zeros _ _ _ (by omega)]
  · rw [popWork_empty hwork hdone]
    refine ⟨rfl, elemOf_bytesVec _ (by decide), BitVec.eq_of_getLsbD_eq fun b hb => ?_⟩
    have hzero : (List.replicate 16 (0 : Byte) ++ [2] ++ List.replicate 47 0).getD (b / 8) 0 = 0 := by
      rw [List.append_assoc, List.getD_append _ _ _ _ (by simp; omega)]
      exact getD_append_zeros [] 16 (b / 8) (Nat.zero_le _)
    rw [elemOf, BitVec.getLsbD_extractLsb', show 128 * 0 + b = b by omega, getLsbD_bytesVec _ (by omega), hzero]
    simp
  · rw [popWork_cursor hwork hcur hlive]
    refine ⟨rfl, elemOf_bytesVec _ (by decide), elemOf_field64 (by decide) rfl, elemOf_field32 (by decide) rfl,
      elemOf_field32 (by decide) ?_⟩
    rw [listOfWord_byte]
    rfl

/-! ### WAITC -/

theorem exec_waitc {d a b : GReg} {off : Nat} (hissue : Issues s c t w (.waitc d a b) 0) :
    let i := Instr.waitc d a b
    let e := firstEnv s c t w i
    let old := readG s t b
    let key := spadKey t.o t.core off
    cleanAt e off 8 → OwnSpad e .waitc .load (readG s t a) 8 8 off (.waitc old d) none none →
    ∀ x, Loaded false 8 s.spad key x →
    (x ≠ old → exec i s = .next (retiresTo s c t w i (oneMore e.s) (Wr.ofG d x)))
    ∧ (x = old → exec i s = .next (asksFor s c t w i e.s
        { ownReq e (.waitc old d) (readG s t a) off 8 none none with held := true })) := by
  intro i e old key hclean hown x hx
  have hword : wordOfList (Memory.readN e.s.spad key 8) = x := by
    rw [firstEnv_spad]
    exact word_eq_of_bytes fun j hj => (wordOfList_byte _ hj).trans ((Memory.readN_getD _ _ hj).trans (hx.1 j hj).symm)
  have hsem : waitcSem d a b e = ask e (ownReq e (.waitc old d) (readG s t a) off 8 none none) := by
    have ha : e.g a = readG s t a := firstEnv_g ..
    have hb : e.g b = old := firstEnv_g ..
    simp only [waitcSem, ha, hb, hown.chk, withChk]
    rfl
  have hserve := serve0_waitc hown hclean
  simp only [show spadKey e.t.o e.t.core off = key from rfl, hword] at hserve
  refine ⟨fun hne => ?_, fun heq => ?_⟩
  · rw [if_neg hne] at hserve
    exact runX_ok (sem := waitcSem d a b) hissue (hsem.trans (ask_own_g hown hserve))
  · rw [if_pos heq] at hserve
    exact runX_wait (sem := waitcSem d a b) hissue (hsem.trans (ask_held hown hserve))

end

end Sys2Proof.Machine
end

section
namespace Sys2Proof
open Sys2Proof.Machine

/-- Settles O41: a mailbox, the inbox, the work list and a changed word answer within the bundle, or are waited for. -/
theorem receives : Obligations.Receives := by
  unfold Obligations.Receives
  refine fun s c t w => ⟨fun v a off k hissue hal hext hspad hat hhome hcore hend hshadow hwatch _ hturn =>
      exec_mrecv hissue hal hext hspad hat hhome hcore hend hshadow hwatch hturn,
    fun v => exec_mrecvTrap, fun d v k => exec_wpush, fun v k => exec_wpop, fun d a b off => exec_waitc⟩

end Sys2Proof
end

section
/-!
SUPPORT. A host extent that ends inside a line (R180, R344): LDV presents the sectors of the line, which all begin in the extent, and
no slice caches what an extent with EHOST = 1 holds, so that the home slice has no token for the line.
-/

namespace Sys2Proof.Machine

set_option maxRecDepth 4000

/-- The owner, with one extent: it has EHOST = 1, and its 64 KB end 200 bytes into the page at VA 0x10000. -/
def ehostOwner : Owner := { bootOwner with extents := [⟨0x400C8, 1, true⟩] }

/-- The state: g1 points at the first byte behind the extent, and no line is in L2. -/
def sSplitLine : State := { sG 0x100C8 with owners := put sI.owners 0 ehostOwner }

def splitLdv : Instr := .ldv 5 ad1

def splitReq : Req :=
  reqFor (firstEnv sSplitLine cuT bootThread ehostOwner splitLdv) (.ldv 5) 0x100C8 (.mem bootLeaf 0x500C8) 1 none none

theorem splitLdv_issues : Issues sSplitLine cuT bootThread ehostOwner splitLdv 0 := issues_of (by decide)

theorem splitReq_travels : Travels sSplitLine cuT bootThread ehostOwner splitLdv splitReq := travels_of (by decide)

theorem splitLdv_check : check (firstEnv sSplitLine cuT bootThread ehostOwner splitLdv).s ehostOwner bootThread .ldv .load 0x100C8 1 1
    = .ok (.mem bootLeaf 0x500C8) := by decide

/-- The request leaves the line absent at its home. -/
theorem splitReq_noToken : (core? (targetStep (asked sSplitLine cuT bootThread ehostOwner splitLdv splitReq) splitReq.id) 0 0).bind
    (fun k => tokenOf k (0x500C8 / 256)) = none := by decide

end Sys2Proof.Machine
end

section
namespace Sys2Proof
open Sys2Proof.Machine

/-- Refutes O36: its clause of LDV says that the home slice holds a token of the line once it has answered, but where a host extent
ends between the first byte of the line's last sector and the address, no sector of the line is taken into the slice. -/
theorem not_descriptorsAndTokens : ¬ Obligations.DescriptorsAndTokens := by
  unfold Obligations.DescriptorsAndTokens
  intro h
  obtain ⟨-, hldv, -⟩ := h sSplitLine cuT bootThread ehostOwner
  obtain ⟨u2, u3, wx, -, htarget, -, -, -, k, x, hk, hx, -⟩ :=
    hldv 5 ad1 splitLdv_issues bootLeaf 0x500C8 splitLdv_check splitReq_travels (by decide)
  obtain rfl : targetStep (asked sSplitLine cuT bootThread ehostOwner splitLdv splitReq) splitReq.id = u2 :=
    Host.Outcome.next.inj htarget
  have hnone := splitReq_noToken
  rw [show core? _ 0 0 = some k from hk] at hnone
  exact Option.some_ne_none x (hx.symm.trans hnone)

end Sys2Proof
end

section
/-!
SUPPORT. The round trip of a bundle's request (R145, R174, R175, R333): the bundle asks and waits, its target answers or holds the
request, and the reply, alone on its path, retires the bundle.
-/

namespace Sys2Proof.Machine

/-! ## The state once a bundle has asked -/

/-- A thread that waits for the reply of request id with the bundle b, its deadline and count set as they may be. -/
def awaiting (t : Thread) (id : Nat) (b : Bundle) (due count : Option Nat) (at_ : Nat) : Thread :=
  { t with due := due, status := .waiting (.reply id), pend := some b, wcount := count, waitAt := at_ }

/-- Deadlines of network accesses change no thread but their own, and of it the deadline alone. -/
theorem plumbDues_eq {s : State} {o tid : Nat} {t : Thread} (ht : thr? s o tid = some t) (l : List Req) :
    ∃ ts due, l.foldl (fun s q => plumbDue s o tid q.tgt) s = { s with threads := ts }
      ∧ lookup ts (thrKey o tid) = some { t with due := due } := by
  induction l generalizing s t with
  | nil => exact ⟨s.threads, t.due, rfl, ht⟩
  | cons q l ih =>
    have hone : ∃ ts due, plumbDue s o tid q.tgt = { s with threads := ts }
        ∧ lookup ts (thrKey o tid) = some { t with due := due } := by
      unfold plumbDue
      split
      · exact ⟨_, _, rfl, (lookup_upd_self ..).trans (congrArg (Option.map _) ht)⟩
      · exact ⟨s.threads, t.due, rfl, ht⟩
    obtain ⟨ts, due, hstep, hthr⟩ := hone
    obtain ⟨ts', due', hrest, hthr'⟩ := ih (s := { s with threads := ts }) hthr
    exact ⟨ts', due', by rw [List.foldl_cons, hstep, hrest], hthr'⟩

theorem putWait_reply {s : State} {c : Cur} {t : Thread} (ht : thr? s c.o c.tid = some t) (id : Nat) (b : Bundle) :
    ∃ ts due count at_, putWait s c (.reply id) (some b) = { s with threads := ts }
      ∧ lookup ts (thrKey c.o c.tid) = some (awaiting t id b due count at_) := by
  have hplumb : ∃ ts due, plumbWait s c (.reply id) = { s with threads := ts }
      ∧ lookup ts (thrKey c.o c.tid) = some { t with due := due } := by
    unfold plumbWait
    split
    · exact ⟨s.threads, t.due, rfl, ht⟩
    · exact plumbDues_eq ht _
  obtain ⟨ts, due, hstep, hthr⟩ := hplumb
  refine ⟨upd ts (thrKey c.o c.tid) (fun x => awaiting x id b x.due (countFrom s (.reply id)) s.tick), due,
    countFrom s (.reply id), s.tick, ?_, ?_⟩
  · rw [putWait, hstep]
    rfl
  · exact (lookup_upd_self ..).trans (congrArg (Option.map _) hthr)

section
variable {s : State} {c : Cur} {t : Thread} {w : Owner} {i : Instr} {r : Req}

/-- Asking changes the thread's wait and the requests, and the dither source of its core. -/
theorem asked_eq (hissue : Issues s c t w i 0) : ∃ cs ts due count at_,
    asked s c t w i r = { s with cur := none, cores := cs, threads := ts, reqs := s.reqs ++ [r], nextId := r.id + 1 }
    ∧ lookup ts (thrKey c.o c.tid) = some (awaiting t r.id (bundleOf (bare s) c t w i) due count at_)
    ∧ ∀ o j, ∃ n, lookup cs (coreKey o j) = (core? s o j).map (fun k => { k with dither := k.dither + n }) := by
  have hdraws : ∃ cs, (firstEnv s c t w i).s = { bare s with cores := cs }
      ∧ ∀ o j, ∃ n, lookup cs (coreKey o j) = (core? s o j).map (fun k => { k with dither := k.dither + n }) := by
    rcases takeDraws_eq (bare s) t (halfOf (envIn (bare s) c t w i)).draws with h | h
    · exact ⟨s.cores, h, fun o j => ⟨0, by simp [core?]⟩⟩
    · exact ⟨_, h, fun o j => core?_drawn (bare s) t.o t.core o j _⟩
  obtain ⟨cs, hcs, hcores⟩ := hdraws
  obtain ⟨ts, due, count, at_, hwait, hthr⟩ := putWait_reply (s := addReq (firstEnv s c t w i).s r) (c := c) (t := t)
    (by rw [hcs]; exact hissue.thr) r.id (bundleOf (bare s) c t w i)
  refine ⟨cs, ts, due, count, at_, ?_, hthr, hcores⟩
  rw [asked, asksFor, hwait, hcs]
  rfl

end

/-! ## A reply alone on its path (R175) -/

/-- A reply to a request, of whatever it brings. -/
structure Answers (r : Req) (p : Reply) : Prop where
  id : p.id = r.id
  thr : p.o = r.o ∧ p.tid = r.tid
  way : p.core = r.core ∧ p.src = r.tgt
  whole : p.part = none
  good : p.trap = none

/-- What a target that has served a request of the bundle leaves as it was: the network and the owners; the bundle's thread t'
still waits. -/
structure Serves (s u : State) (c : Cur) (r : Req) (b : Bundle) (t' : Thread) : Prop where
  net : u.replies = s.replies ∧ u.combines = s.combines
  own : u.owners = s.owners
  thr : thr? u c.o c.tid = some t'
  waits : t'.status = .waiting (.reply r.id) ∧ t'.pend = some b

theorem endOf_congr {s u : State} (h : u.owners = s.owners) (d : Nat) (t : Target) : endOf u d t = endOf s d t := by
  cases t <;> simp only [endOf, placeOf, owner?, h, Target.die]

theorem sameWay_congr {s u : State} (h : u.owners = s.owners) (p q : Reply) : sameWay u p q = sameWay s p q := by
  simp only [sameWay, leftFrom, endOf_congr h, placeOf, owner?, h]

section
variable {s : State} {c : Cur} {t : Thread} {w : Owner} {i : Instr} {r : Req}

theorem inOrder_alone (h : Travels s c t w i r) {u : State} {q : Reply} (hq : Answers r q) (hu : u.replies = s.replies ++ [q])
    (hown : u.owners = s.owners) : inOrder u q = true := by
  have hway (p : Reply) : sameWay u q p = sameWay s r.reply p := by
    obtain ⟨hcore, hsrc⟩ := hq.way
    rw [sameWay_congr hown]
    simp only [sameWay, leftFrom, hq.thr.1, hcore, hsrc, Req.reply]
  have hself : sameWay u q q = true := by simp [sameWay]
  have hnone : s.replies.filter (sameWay u q) = [] :=
    List.filter_eq_nil_iff.2 fun p hp => by rw [hway, (h.quiet p hp).2]; decide
  simp [inOrder, hu, hnone, hself]

/-! ## The way there and back -/

/-- The request of a bundle for a place in memory. -/
structure Sent (s : State) (t : Thread) (r : Req) : Prop where
  id : r.id = s.nextId
  thr : r.o = t.o ∧ r.tid = t.tid
  lone : r.held = false ∧ r.combined = none
  mem : r.tgt.isScratch = false

theorem sent_reqFor (s : State) (c : Cur) (t : Thread) (w : Owner) (i : Instr) (kind : ReqKind) (va : Word) (l : Leaf) (pa n : Nat)
    (rel acq : Option Scope) : Sent s t (reqFor (firstEnv s c t w i) kind va (.mem l pa) n rel acq) :=
  ⟨firstEnv_nextId s c t w i, ⟨rfl, rfl⟩, ⟨rfl, rfl⟩, targetOf_network ..⟩

/-- A request to memory is waited for. -/
theorem ask_network {e : Env} {r : Req} (h : r.tgt.isScratch = false) : ask e r = .wait (addReq e.s r) (.reply r.id) := by
  have hnet : isLocal e r = false := by
    unfold isLocal
    cases htgt : r.tgt with
    | scratch o j => rw [htgt] at h; cases h
    | _ => rfl
  rw [ask, hnet]
  rfl

theorem exec_asks {sem : Env → XRes} (hissue : Issues s c t w i 0) (hexec : exec i s = runX i sem s)
    (hsem : sem (firstEnv s c t w i) = ask (firstEnv s c t w i) r) (hsent : Sent s t r) : exec i s = .next (asked s c t w i r) :=
  hexec.trans (runX_wait hissue (hsem.trans (ask_network hsent.mem)))

section
variable (hissue : Issues s c t w i 0) (hsent : Sent s t r) (htrav : Travels s c t w i r)
include hissue hsent htrav

theorem reqAt_asked : reqAt (asked s c t w i r) r.id = some r := by
  obtain ⟨cs, ts, due, count, at_, hasked, -, -⟩ := asked_eq (r := r) hissue
  have hnone : s.reqs.find? (fun q => q.id == r.id) = none :=
    List.find?_eq_none.2 fun q hq => by have := htrav.old q hq; rw [hsent.id]; simp; omega
  rw [hasked, reqAt, List.find?_append, hnone]
  simp

omit hsent in
theorem targetShut_asked :targetShut (asked s c t w i r) r.tgt = false := by
  obtain ⟨cs, ts, due, count, at_, hasked, -, hcores⟩ := asked_eq (r := r) hissue
  have hinput (o j : Nat) : inputStopped (asked s c t w i r) o j = inputStopped s o j := by
    obtain ⟨n, hn⟩ := hcores o j
    have hcore : core? (asked s c t w i r) o j = (core? s o j).map (fun k => { k with dither := k.dither + n }) := by
      rw [hasked]
      exact hn
    rw [inputStopped, inputStopped, hcore]
    cases core? s o j <;> rfl
  rw [← htrav.still, hasked]
  rw [hasked] at hinput
  cases r.tgt <;> simp only [targetShut, tileMoves, placeOf, owner?, hinput]

/-- The target holds the request: nothing has changed but the requests and the count of the wait. -/
theorem exec_target_holds (hserve : serve0 (asked s c t w i r) r = .hold) :
    ∃ u, exec (.targetRequest r.id) (asked s c t w i r) = .next u ∧ KeepsBytes s u ∧ u.replies = s.replies ∧
      ∃ q ∈ u.reqs, q.id = r.id ∧ q.held = true := by
  refine ⟨holdReq (asked s c t w i r) r, ?_, ?_, ?_, { r with held := true }, ?_, rfl, rfl⟩
  · show Host.Outcome.next (targetStep (asked s c t w i r) r.id) = _
    simp [targetStep, reqAt_asked hissue hsent htrav, hsent.lone, targetShut_asked hissue htrav, htrav.ord, serve, hserve]
  all_goals obtain ⟨cs, ts, due, count, at_, hasked, -, -⟩ := asked_eq (r := r) hissue; rw [hasked]
  · exact keepsBytes_of rfl
  · rfl
  · exact List.mem_append_right _ (List.mem_singleton_self _)

/-- The state once the request, served in u, has left with its answer q on the way. -/
def replied (u : State) (r : Req) (es : List Early) (q : Reply) : State :=
  { u with early := es, reqs := u.reqs.filter (·.id != r.id), replies := u.replies ++ [q] }

/-- The state once what q brings for the scratchpad of the thread's home core is there. -/
def brought (u : State) (t : Thread) (q : Reply) : State :=
  q.writes.foldl (fun s x => writeAt s (.spad q.o (tidCore t.tid) x.1) x.2) (learnt u q)

omit hissue hsent htrav in
theorem brought_eq (u : State) (t : Thread) (q : Reply) : ∃ m, brought u t q = { learnt u q with spad := m } := by
  unfold brought
  generalize learnt u q = a
  induction q.writes generalizing a with
  | nil => exact ⟨a.spad, rfl⟩
  | cons x l ih => exact ih _

omit hissue in
/-- The reply, alone on its path, ends its bundle. -/
theorem exec_reply_retires {u : State} {q : Reply} {t' : Thread} {es : List Early}
    (hserves : Serves s u c r (bundleOf (bare s) c t w i) t') (hq : Answers r q) :
    exec (.replyArrival r.id) (replied u r es q) = .next (retire (brought (replied u r es q) t' q) c.o c.tid c.pc c.len
      (q.wr (brought (replied u r es q) t' q) t') (wrV (bare s) c t w i)) := by
  obtain ⟨hco, hctid⟩ := htrav.key
  obtain ⟨hro, hrtid⟩ := hsent.thr
  obtain ⟨hqo, hqtid⟩ := hq.thr
  obtain ⟨hwait, hpend⟩ := hserves.waits
  have ho : q.o = c.o := by rw [hqo, hro, hco]
  have htid' : q.tid = c.tid := by rw [hqtid, hrtid, hctid]
  have hnet : (replied u r es q).replies = s.replies ++ [q] := congrArg (· ++ [q]) hserves.net.1
  have hat : replyAt (replied u r es q) q.id = some q := by
    have hnone : s.replies.find? (fun p => p.id == q.id) = none :=
      List.find?_eq_none.2 fun p hp => by rw [hq.id, hsent.id]; simpa using (htrav.quiet p hp).1
    rw [replyAt, hnet, List.find?_append, hnone]
    simp
  have hrec : isRecord (replied u r es q) q.id = false := by
    rw [isRecord, show (replied u r es q).combines = s.combines from hserves.net.2, hq.id, hsent.id]
    exact List.any_eq_false.2 fun k hk => by simpa using htrav.plain k hk
  have hmoves : homeMoves (replied u r es q) q = false := by
    have hplace : placeOf (replied u r es q) q.o (tidCore q.tid) = placeOf s t.o (tidCore t.tid) := by
      simp only [placeOf, owner?, replied, hserves.own, hqo, hqtid, hro, hrtid]
    rw [homeMoves, hplace, htrav.home, Bool.and_false]
  have hthr : thr? (delivered (replied u r es q) q) q.o q.tid = some t' := by rw [ho, htid']; exact hserves.thr
  rw [← hq.id, exec_replyArrival_lands hat (inOrder_alone htrav hq hnet hserves.own) hrec hmoves,
    land_whole hthr hq.whole (hq.id ▸ hwait)]
  obtain ⟨m, hm⟩ := brought_eq (replied u r es q) t' q
  have hthr' : thr? (brought (replied u r es q) t' q) q.o q.tid = some t' := by rw [hm]; exact hthr
  simp only [landBundle, Reply.info, hq.good, Option.map_none]
  show Host.Outcome.next (finishWait (brought (replied u r es q) t' q) q.o q.tid (q.wr (brought (replied u r es q) t' q) t')) = _
  rw [ho, htid'] at hthr' ⊢
  simp only [finishWait, hthr', hpend]
  rfl

/-- The round trip of a request that its target serves. -/
theorem trip_of_serves {sem : Env → XRes} {u : State} {p : Reply} {t' : Thread} {P : State → State → Wr → Prop}
    (hexec : exec i s = runX i sem s) (hsem : sem (firstEnv s c t w i) = ask (firstEnv s c t w i) r) (hwants : wantsReply r = true)
    (hserve : serve0 (asked s c t w i r) r = .done u p) (hserves : Serves s u c r (bundleOf (bare s) c t w i) t')
    (hp : Answers r p)
    (hP : ∀ es ps, let q := { p with patch := ps }
      P (replied u r es q) (brought (replied u r es q) t' q) (q.wr (brought (replied u r es q) t' q) t')) :
    Trip s c t w i r P := by
  obtain ⟨hheld, hone⟩ := hsent.lone
  obtain ⟨es, ps, htarget⟩ := exec_targetRequest_replies (reqAt_asked hissue hsent htrav) hheld hone
    (targetShut_asked hissue htrav) htrav.ord hsent.mem hserve hp.good hwants
  exact ⟨_, _, _, exec_asks hissue hexec hsem hsent, htarget,
    exec_reply_retires hsent htrav (es := es) (q := { p with patch := ps }) hserves
      ⟨hp.id, hp.thr, hp.way, hp.whole, hp.good⟩, hP es ps⟩

end

end

end Sys2Proof.Machine
end

section
/-!
SUPPORT. Barrier objects (R206, R207, R352, R353): what an arrival writes, and what BARW finds.
-/

namespace Sys2Proof.Machine

/-! ## Where an object is -/

/-- What passes the checks of an access is at a place that the table of R332 lets it go to. -/
theorem allowed_of_check {s : State} {w : Owner} {t : Thread} {a : Act332} {k : AccKind} {va : Word} {n al pa : Nat} {l : Leaf}
    (h : check s w t a k va n al = .ok (.mem l pa)) : allowed a (siteOf w (.mem l pa)) = true := by
  have hloc := locate_of_check h
  unfold locate at hloc
  split at hloc
  · cases hloc
  · split at hloc
    · split at hloc
      · cases hloc
      · split_ifs at hloc
        · split at hloc
          · split_ifs at hloc
            cases hloc
          · cases hloc
        · cases hloc
    · split at hloc
      · cases hloc
      next out _ =>
        cases out with
        | leaf l' =>
          rw [ofWalk, permit] at hloc
          split_ifs at hloc with _ _ _ hno _
          cases hloc
          simpa using hno
        | xlat => cases hloc
        | prot => cases hloc

/-- An object lies in ordinary device memory or in an extent with EHOST = 1. -/
theorem obj_cls {w : Owner} {l : Leaf} {pa : Nat} (h : allowed .obj (siteOf w (.mem l pa)) = true) : l.cls ≠ 1 ∧ l.cls ≠ 2 := by
  simp only [siteOf] at h
  refine ⟨fun h1 => ?_, fun h2 => ?_⟩
  · rw [if_pos h1] at h
    cases h
  · rw [if_neg (by rw [h2]; decide), if_pos h2] at h
    split at h <;> cases h

/-- A request for memory outside the replicated pages is for its very address. -/
theorem spotOf_reqFor (e : Env) (kind : ReqKind) (va : Word) {l : Leaf} (pa n : Nat) (rel acq : Option Scope) (h : l.cls ≠ 1) :
    spotOf (reqFor e kind va (.mem l pa) n rel acq) = .mem pa := by
  show (match targetOf e.s e.w e.t.o e.t.core l pa with
    | .scratch o j => Spot.spad o j pa
    | .replica _ die _ _ => .mem (replPa die pa)
    | .bank _ _ _ | .hostLine _ | .device | .stack _ => .mem pa) = _
  unfold targetOf
  dsimp only
  rw [if_neg h]
  split_ifs <;> rfl

/-! ## What a target writes -/

/-- u has the memory m, and differs from s otherwise in images, caches and barrier records alone. -/
def LeavesMem (s u : State) (m : Memory) : Prop :=
  ∃ ims bs cs fl, u = { s with mem := m, images := ims, barriers := bs, cores := cs, flips := fl }

section
variable {s u v : State} {m m' : Memory}

theorem leavesMem_refl (s : State) : LeavesMem s s s.mem := ⟨s.images, s.barriers, s.cores, s.flips, rfl⟩

theorem LeavesMem.mem_eq (h : LeavesMem s u m) : u.mem = m := by
  obtain ⟨_, _, _, _, rfl⟩ := h
  rfl

theorem LeavesMem.trans (h : LeavesMem s u m) (h' : LeavesMem u v m') : LeavesMem s v m' := by
  obtain ⟨_, _, _, _, rfl⟩ := h
  obtain ⟨_, _, _, _, rfl⟩ := h'
  exact ⟨_, _, _, _, rfl⟩

theorem LeavesMem.writes (h : LeavesMem s u m) (pa : Nat) (bs : List Byte) :
    LeavesMem s (writeAt u (.mem pa) bs) (Memory.writeN m pa bs) := by
  obtain ⟨_, _, _, _, rfl⟩ := h
  obtain ⟨ims, hims⟩ := writeAt_mem_eq _ pa bs
  exact ⟨ims, _, _, _, hims⟩

theorem LeavesMem.touchesWrite (h : LeavesMem s u m) (t : Target) (pa : Nat) : LeavesMem s (touchWrite u t pa) m := by
  obtain ⟨_, _, _, _, rfl⟩ := h
  obtain ⟨cs, fl, htouch⟩ := touchWrite_eq _ t pa
  exact ⟨_, _, cs, fl, htouch⟩

theorem LeavesMem.touchesRead (h : LeavesMem s u m) (t : Target) (pa : Nat) : LeavesMem s (touchRead u t pa) m := by
  obtain ⟨_, _, _, _, rfl⟩ := h
  obtain ⟨cs, fl, htouch⟩ := touchRead_eq _ t pa
  exact ⟨_, _, cs, fl, htouch⟩

theorem LeavesMem.records (h : LeavesMem s u m) (b : Barrier) : LeavesMem s (setBar u b) m := by
  obtain ⟨_, _, _, _, rfl⟩ := h
  exact ⟨_, _, _, _, rfl⟩

end

/-! ## An arrival (R207) -/

theorem Memory.nat_field_ne (m : Memory) (w : Word) {a n x k : Nat} (h : x + k ≤ a ∨ a + n ≤ x) :
    Memory.nat (Memory.writeN m a (listOfWord w n)) x k = Memory.nat m x k :=
  Memory.nat_writeN_outside _ _ _ _ _ (by rwa [listOfWord_length])

theorem Memory.read_field_ne (m : Memory) (w : Word) {a n x : Nat} (h : x < a ∨ a + n ≤ x) :
    Memory.read (Memory.writeN m a (listOfWord w n)) x = Memory.read m x :=
  Memory.read_writeN_outside _ _ _ (by rwa [listOfWord_length])

theorem Memory.writeN_append (m : Memory) (a : Nat) (xs ys : List Byte) :
    Memory.writeN m a (xs ++ ys) = Memory.writeN (Memory.writeN m a xs) (a + xs.length) ys := by
  induction xs generalizing m a with
  | nil => rfl
  | cons x xs ih => rw [List.cons_append, Memory.writeN, ih, Memory.writeN, List.length_cons, Nat.add_assoc, Nat.add_comm 1]

/-- ACC with a value taken in. -/
def BarObj.taken (b : BarObj) : Option Word → Word
  | some y => barMax b.maxu b.acc y
  | none => b.acc

/-- Where ACC starts again. -/
def BarObj.start (b : BarObj) : Word := if b.maxu = true then 0 else 0x8000000000000000

/-- Memory after an arrival that is not the last. -/
def memArrived (m : Memory) (pa : Nat) (b : BarObj) (acc : Word) : Memory :=
  Memory.writeN (Memory.writeN m pa (listOfWord (BitVec.ofNat 64 (b.pend - 1)) 4)) (pa + 16) (listOfWord acc 8)

/-- Memory after the last arrival. -/
def memClosed (m : Memory) (pa : Nat) (b : BarObj) (acc : Word) : Memory :=
  Memory.writeN (Memory.writeN (Memory.writeN (Memory.writeN m pa (listOfWord (BitVec.ofNat 64 b.narr) 4)) (pa + 8)
    (listOfWord (BitVec.ofNat 64 (b.gen + 1)) 2)) (pa + 16) (listOfWord b.start 8)) (pa + 24) (listOfWord acc 8)

theorem arriveAt_more (s : State) (o : Nat) (t : Target) (pa core : Nat) (v : Option Word) (hok : (readBar s pa).ok = true)
    (hmore : 1 < (readBar s pa).pend) : ∃ u, arriveAt s o t pa (some core) v = some u
      ∧ LeavesMem s u (memArrived s.mem pa (readBar s pa) ((readBar s pa).taken v)) := by
  unfold arriveAt
  simp only [hok, Bool.not_true, Bool.false_eq_true, if_false, if_neg (Nat.not_le.2 hmore)]
  exact ⟨_, rfl, ((((leavesMem_refl s).writes _ _).writes _ _).records _).touchesWrite _ _⟩

theorem arriveAt_last (s : State) (o : Nat) (t : Target) (pa core : Nat) (v : Option Word) (hok : (readBar s pa).ok = true)
    (hlast : (readBar s pa).pend ≤ 1) : ∃ u, arriveAt s o t pa (some core) v = some u
      ∧ LeavesMem s u (memClosed s.mem pa (readBar s pa) ((readBar s pa).taken v)) := by
  unfold arriveAt
  simp only [hok, Bool.not_true, Bool.false_eq_true, if_false, if_pos hlast]
  refine ⟨_, rfl, LeavesMem.touchesWrite (LeavesMem.records ?_ _) _ _⟩
  have h := (((leavesMem_refl s).writes pa (listOfWord (BitVec.ofNat 64 (readBar s pa).narr) 4)).writes (pa + 8)
    (listOfWord (BitVec.ofNat 64 ((readBar s pa).gen + 1)) 2)).writes (pa + 16)
    (listOfWord (readBar s pa).start 8 ++ listOfWord ((readBar s pa).taken v) 8)
  rw [Memory.writeN_append, listOfWord_length] at h
  exact h

/-! ### The object's fields afterwards -/

/-- What an arrival never changes of its object. -/
theorem readBar_kept {s u : State} {pa : Nat}
    (h : ∀ x k, (pa + 4 ≤ x ∧ x + k ≤ pa + 8) ∨ (pa + 10 ≤ x ∧ x + k ≤ pa + 16) ∨ pa + 32 ≤ x →
      Memory.nat u.mem x k = Memory.nat s.mem x k) :
    (readBar u pa).narr = (readBar s pa).narr ∧ (readBar u pa).tag = (readBar s pa).tag ∧ (readBar u pa).xch = (readBar s pa).xch
      ∧ (readBar u pa).maxu = (readBar s pa).maxu ∧ (readBar u pa).mbz = (readBar s pa).mbz := by
  have hnarr := h (pa + 4) 4 (by omega)
  have htag := h (pa + 10) 2 (by omega)
  have hbits := h (pa + 12) 1 (by omega)
  have hzero := h (pa + 13) 3 (by omega)
  have hrest := h (pa + 32) 32 (by omega)
  simp only [readBar, hnarr, htag, hbits, hzero, hrest, and_self]

section
variable (m : Memory) (pa : Nat) (b : BarObj) (acc : Word)

theorem nat_memArrived_ne {x k : Nat} (h1 : x + k ≤ pa ∨ pa + 4 ≤ x) (h2 : x + k ≤ pa + 16 ∨ pa + 24 ≤ x) :
    Memory.nat (memArrived m pa b acc) x k = Memory.nat m x k := by
  rw [memArrived, Memory.nat_field_ne _ _ (by omega), Memory.nat_field_ne _ _ (by omega)]

theorem nat_memClosed_ne {x k : Nat} (h1 : x + k ≤ pa ∨ pa + 4 ≤ x) (h2 : x + k ≤ pa + 8 ∨ pa + 10 ≤ x)
    (h3 : x + k ≤ pa + 16 ∨ pa + 32 ≤ x) : Memory.nat (memClosed m pa b acc) x k = Memory.nat m x k := by
  rw [memClosed, Memory.nat_field_ne _ _ (by omega), Memory.nat_field_ne _ _ (by omega), Memory.nat_field_ne _ _ (by omega),
    Memory.nat_field_ne _ _ (by omega)]

theorem read_memArrived_ne {x : Nat} (h : x < pa ∨ pa + 32 ≤ x) : Memory.read (memArrived m pa b acc) x = Memory.read m x := by
  rw [memArrived, Memory.read_field_ne _ _ (by omega), Memory.read_field_ne _ _ (by omega)]

theorem read_memClosed_ne {x : Nat} (h : x < pa ∨ pa + 32 ≤ x) : Memory.read (memClosed m pa b acc) x = Memory.read m x := by
  rw [memClosed, Memory.read_field_ne _ _ (by omega), Memory.read_field_ne _ _ (by omega), Memory.read_field_ne _ _ (by omega),
    Memory.read_field_ne _ _ (by omega)]

end

theorem ofNat_mod_of_lt {n k : Nat} (h : n < k) (hk : k ≤ 2 ^ 64) : (BitVec.ofNat 64 n).toNat % k = n := by
  rw [BitVec.toNat_ofNat, Nat.mod_eq_of_lt (h.trans_le hk), Nat.mod_eq_of_lt h]

theorem toNat_mod_word (w : Word) : w.toNat % 256 ^ 8 = w.toNat := Nat.mod_eq_of_lt w.isLt

theorem ofNat_toNat_mod (w : Word) : BitVec.ofNat 64 (w.toNat % 256 ^ 8) = w := by
  rw [toNat_mod_word, BitVec.ofNat_toNat, BitVec.setWidth_eq]

section
variable {s u : State} {pa : Nat} {b : BarObj} {acc : Word} (hb : readBar s pa = b)
include hb

theorem readBar_arrived (hm : u.mem = memArrived s.mem pa b acc) :
    (readBar u pa).pend = b.pend - 1 ∧ (readBar u pa).gen = b.gen ∧ (readBar u pa).acc = acc := by
  have hpend : b.pend < 256 ^ 4 := by rw [← hb]; exact Memory.nat_lt s.mem pa 4
  refine ⟨?_, ?_, ?_⟩
  · show Memory.nat u.mem pa 4 = _
    rw [hm, memArrived, Memory.nat_field_ne _ _ (by omega), Memory.nat_writeN_listOfWord, ofNat_mod_of_lt (by omega) (by decide)]
  · show Memory.nat u.mem (pa + 8) 2 = _
    rw [hm, nat_memArrived_ne _ _ _ _ (by omega) (by omega), ← hb]
    rfl
  · show BitVec.ofNat 64 (Memory.nat u.mem (pa + 16) 8) = _
    rw [hm, memArrived, Memory.nat_writeN_listOfWord, ofNat_toNat_mod]

theorem readBar_closed (hm : u.mem = memClosed s.mem pa b acc) :
    (readBar u pa).pend = b.narr ∧ (readBar u pa).gen = (b.gen + 1) % 65536 ∧ (readBar u pa).acc = b.start
      ∧ Memory.nat u.mem (pa + 24) 8 = acc.toNat := by
  have hnarr : b.narr < 256 ^ 4 := by rw [← hb]; exact Memory.nat_lt s.mem (pa + 4) 4
  have hgen : b.gen < 256 ^ 2 := by rw [← hb]; exact Memory.nat_lt s.mem (pa + 8) 2
  refine ⟨?_, ?_, ?_, ?_⟩
  · show Memory.nat u.mem pa 4 = _
    rw [hm, memClosed, Memory.nat_field_ne _ _ (by omega), Memory.nat_field_ne _ _ (by omega), Memory.nat_field_ne _ _ (by omega),
      Memory.nat_writeN_listOfWord, ofNat_mod_of_lt hnarr (by decide)]
  · show Memory.nat u.mem (pa + 8) 2 = _
    rw [hm, memClosed, Memory.nat_field_ne _ _ (by omega), Memory.nat_field_ne _ _ (by omega), Memory.nat_writeN_listOfWord,
      BitVec.toNat_ofNat]
    omega
  · show BitVec.ofNat 64 (Memory.nat u.mem (pa + 16) 8) = _
    rw [hm, memClosed, Memory.nat_field_ne _ _ (by omega), Memory.nat_writeN_listOfWord, ofNat_toNat_mod]
  · rw [hm, memClosed, Memory.nat_writeN_listOfWord, toNat_mod_word]

end

/-- The object after an arrival, the last or not. -/
theorem readBar_after {s u : State} {pa : Nat} {b : BarObj} {acc : Word} (hb : readBar s pa = b)
    (hm : u.mem = if 1 < b.pend then memArrived s.mem pa b acc else memClosed s.mem pa b acc) :
    let b' := readBar u pa
    b'.narr = b.narr ∧ b'.tag = b.tag ∧ b'.xch = b.xch ∧ b'.maxu = b.maxu ∧ b'.mbz = b.mbz ∧
      (1 < b.pend → b'.pend = b.pend - 1 ∧ b'.gen = b.gen ∧ b'.acc = acc
        ∧ Memory.nat u.mem (pa + 24) 8 = Memory.nat s.mem (pa + 24) 8) ∧
      (b.pend ≤ 1 → b'.pend = b.narr ∧ b'.gen = (b.gen + 1) % 65536 ∧ b'.acc = b.start
        ∧ Memory.nat u.mem (pa + 24) 8 = acc.toNat) := by
  intro b'
  by_cases hmore : 1 < b.pend
  · rw [if_pos hmore] at hm
    rw [← hb] at hmore hm ⊢
    obtain ⟨hnarr, htag, hxch, hmaxu, hmbz⟩ := readBar_kept (s := s) (u := u) (pa := pa) fun x k hx => by
      rw [hm, nat_memArrived_ne _ _ _ _ (by omega) (by omega)]
    obtain ⟨hpend, hgen, hacc⟩ := readBar_arrived rfl hm
    refine ⟨hnarr, htag, hxch, hmaxu, hmbz, fun _ => ⟨hpend, hgen, hacc, ?_⟩, fun hlast => absurd hlast (by omega)⟩
    rw [hm, nat_memArrived_ne _ _ _ _ (by omega) (by omega)]
  · rw [if_neg hmore] at hm
    rw [← hb] at hmore hm ⊢
    obtain ⟨hnarr, htag, hxch, hmaxu, hmbz⟩ := readBar_kept (s := s) (u := u) (pa := pa) fun x k hx => by
      rw [hm, nat_memClosed_ne _ _ _ _ (by omega) (by omega) (by omega)]
    exact ⟨hnarr, htag, hxch, hmaxu, hmbz, fun h => absurd h hmore, fun _ => readBar_closed rfl hm⟩

/-! ## At the target (R192, R352) -/

section
variable {s : State} {c : Cur} {t : Thread} {w : Owner} {i : Instr}

/-- A target that wrote memory has left the network, the owners and the waiting thread alone. -/
theorem serves_of_leavesMem {r : Req} {u : State} {m : Memory} (hissue : Issues s c t w i 0) (h : LeavesMem (asked s c t w i r) u m) :
    ∃ due count at_, Serves s u c r (bundleOf (bare s) c t w i) (awaiting t r.id (bundleOf (bare s) c t w i) due count at_) := by
  obtain ⟨cs, ts, due, count, at_, hasked, hthr, -⟩ := asked_eq (r := r) hissue
  obtain ⟨_, _, _, _, rfl⟩ := h
  refine ⟨due, count, at_, ⟨?_, ?_⟩, ?_, ?_, rfl, rfl⟩ <;> rw [hasked]
  exact hthr

theorem bytesOf_asked {r : Req} (hissue : Issues s c t w i 0) : bytesOf (asked s c t w i r) = bytesOf s := by
  obtain ⟨cs, ts, due, count, at_, hasked, -, -⟩ := asked_eq (r := r) hissue
  rw [hasked]
  rfl

/-- A target that changed no byte of memory changed none at all. -/
theorem keepsBytes_of_leavesMem {r : Req} {u : State} (hissue : Issues s c t w i 0)
    (h : LeavesMem (asked s c t w i r) u (asked s c t w i r).mem) : bytesOf u = bytesOf s := by
  obtain ⟨_, _, _, _, rfl⟩ := h
  exact bytesOf_asked hissue

/-- One that wrote m changed no byte but in memory. -/
theorem keepsBut_of_leavesMem {r : Req} {u : State} {m : Memory} {pa n : Nat} (hissue : Issues s c t w i 0)
    (h : LeavesMem (asked s c t w i r) u m) (hm : ∀ a, a < pa ∨ pa + n ≤ a → Memory.read m a = Memory.read s.mem a) :
    KeepsBut s u pa n := by
  obtain ⟨cs, ts, due, count, at_, hasked, -, -⟩ := asked_eq (r := r) hissue
  rw [hasked] at h
  obtain ⟨_, _, _, _, rfl⟩ := h
  exact ⟨hm, rfl, rfl, rfl, rfl, rfl, rfl, rfl, rfl, rfl, rfl⟩

section
variable {kind : ReqKind} {va : Word} {l : Leaf} {pa n : Nat} {rel acq : Option Scope}

/-- A read at the target finds what memory held when its bundle issued. -/
theorem serveRead_asked (hissue : Issues s c t w i 0) (hcls : l.cls ≠ 1 ∧ l.cls ≠ 2) (hmark : markIn s (.mem pa) n = 0) :
    let r := reqFor (firstEnv s c t w i) kind va (.mem l pa) n rel acq
    ∃ v, LeavesMem (asked s c t w i r) v s.mem ∧ v.mem = s.mem ∧ v.barriers = s.barriers ∧
      ∀ f, serveRead (asked s c t w i r) r f = f v (Memory.readN s.mem pa n) := by
  intro r
  have hspot : spotOf r = .mem pa := spotOf_reqFor _ _ _ _ _ _ _ hcls.1
  obtain ⟨cs, ts, due, count, at_, hasked, -, -⟩ := asked_eq (r := r) hissue
  have hmem : (asked s c t w i r).mem = s.mem := by rw [hasked]
  have hclean : reqMark (asked s c t w i r) r = 0 := by rw [reqMark, hspot, hasked]; exact hmark
  have hread : reqRead (asked s c t w i r) r = Memory.readN s.mem pa n := by rw [reqRead, hspot, ← hmem]; rfl
  obtain ⟨cs', fl, htouch⟩ := touchRead_eq (asked s c t w i r) r.tgt (spotOf r).addr
  refine ⟨reqTouch (asked s c t w i r) r false, ?_, ?_, ?_, fun f => ?_⟩
  · rw [← hmem]
    exact (leavesMem_refl _).touchesRead _ _
  · show (touchRead (asked s c t w i r) r.tgt (spotOf r).addr).mem = _
    rw [htouch, ← hmem]
  · show (touchRead (asked s c t w i r) r.tgt (spotOf r).addr).barriers = _
    rw [htouch, hasked]
  · rw [serveRead_clean f (targetOf_network ..) (fun l' hl => by cases hl; exact hcls.2) hclean, hread]

end

/-! ### BARA and BARMAX -/

theorem readBar_congr {s u : State} (h : u.mem = s.mem) (pa : Nat) : readBar u pa = readBar s pa := by
  simp only [readBar, h]

/-- The arrival at its target. -/
theorem serve0_arrive {va : Word} {v : Option Word} {d : GReg} {l : Leaf} {pa : Nat} (hissue : Issues s c t w i 0)
    (hcls : l.cls ≠ 1 ∧ l.cls ≠ 2) (hmark : markIn s (.mem pa) 64 = 0) (hok : (readBar s pa).ok = true) :
    let r := reqFor (firstEnv s c t w i) (.arrive v d) va (.mem l pa) 64 (some .pkg) none
    let b := readBar s pa
    ∃ u, LeavesMem (asked s c t w i r) u (if 1 < b.pend then memArrived s.mem pa b (b.taken v) else memClosed s.mem pa b (b.taken v))
      ∧ serve0 (asked s c t w i r) r = .done u { r.reply with g := [(d, BitVec.ofNat 64 b.gen)] } := by
  intro r b
  obtain ⟨a, hleaves, hmem, -, hread⟩ := serveRead_asked (kind := .arrive v d) (va := va) (rel := some .pkg) (acq := none)
    hissue hcls hmark
  have hb : readBar a pa = b := readBar_congr hmem pa
  have harrive : ∃ u, arriveAt a r.o r.tgt pa (some r.core) v = some u
      ∧ LeavesMem a u (if 1 < b.pend then memArrived s.mem pa b (b.taken v) else memClosed s.mem pa b (b.taken v)) := by
    by_cases hmore : 1 < b.pend
    · have h := arriveAt_more a r.o r.tgt pa r.core v (by rw [hb]; exact hok) (by rw [hb]; exact hmore)
      rwa [hb, hmem, ← if_pos (c := 1 < b.pend) (t := memArrived s.mem pa b (b.taken v)) hmore] at h
    · have h := arriveAt_last a r.o r.tgt pa r.core v (by rw [hb]; exact hok) (by rw [hb]; omega)
      rwa [hb, hmem, ← if_neg (c := 1 < b.pend) (e := memClosed s.mem pa b (b.taken v)) hmore] at h
  obtain ⟨u, hu, hleaves'⟩ := harrive
  refine ⟨u, hleaves.trans hleaves', ?_⟩
  have hkind : r.kind = .arrive v d := rfl
  simp only [serve0, hkind]
  rw [hread]
  show (match arriveAt a r.o r.tgt pa (some r.core) v with | none => _ | some s' => _) = _
  rw [hu, show (readBar a r.pa).gen = b.gen from congrArg BarObj.gen hb]

/-- BARA and BARMAX arrive at the object of their address. -/
theorem arrives_of {sem : Env → XRes} {d : GReg} {va : Word} {v : Option Word} (hexec : exec i s = runX i sem s)
    (hsem : sem (firstEnv s c t w i) = arriveSem va d v (firstEnv s c t w i)) : Arrives s c t w i d va v := by
  intro hissue l pa hchk r htrav hmark b acc hmbz hnarr
  have hcls := obj_cls (allowed_of_check hchk)
  have hok : (readBar s pa).ok = true := by simpa [BarObj.ok] using ⟨hmbz, hnarr⟩
  obtain ⟨u, hleaves, hserve⟩ := serve0_arrive (va := va) (v := v) (d := d) hissue hcls hmark hok
  obtain ⟨due, count, at_, hserves⟩ := serves_of_leavesMem hissue hleaves
  have hask : sem (firstEnv s c t w i) = ask (firstEnv s c t w i) r := by
    rw [hsem]
    show withChk _ (check (firstEnv s c t w i).s w t .obj .atomic va 64 64) _ = _
    rw [hchk]
    rfl
  have hkeeps : KeepsBut s u pa 32 := by
    refine keepsBut_of_leavesMem hissue hleaves fun a ha => ?_
    split
    · exact read_memArrived_ne _ _ _ _ ha
    · exact read_memClosed_ne _ _ _ _ ha
  refine trip_of_serves hissue (sent_reqFor ..) htrav hexec hask rfl hserve hserves ⟨rfl, ⟨rfl, rfl⟩, ⟨rfl, rfl⟩, rfl, rfl⟩
    fun es ps => ⟨rfl, hkeeps, rfl, rfl, ?_⟩
  · have hacc : acc = b.taken v := by cases v <;> rfl
    show let b' := readBar u pa
      b'.narr = b.narr ∧ b'.tag = b.tag ∧ b'.xch = b.xch ∧ b'.maxu = b.maxu ∧ b'.mbz = true ∧
      (1 < b.pend → b'.pend = b.pend - 1 ∧ b'.gen = b.gen ∧ b'.acc = acc
        ∧ Memory.nat u.mem (pa + 24) 8 = Memory.nat s.mem (pa + 24) 8) ∧
      (b.pend ≤ 1 → b'.pend = b.narr ∧ b'.gen = (b.gen + 1) % 65536 ∧ b'.acc = b.start
        ∧ Memory.nat u.mem (pa + 24) 8 = acc.toNat)
    rw [hacc, ← hmbz]
    exact readBar_after rfl hleaves.mem_eq

/-! ### BARW -/

theorem exec_barw {d : GReg} {ad : Addr} (hissue : Issues s c t w (.barw d ad) 0) :
    let i := Instr.barw d ad
    let e := firstEnv s c t w i
    let va := ea s t ad
    let want := (readG s t d).toNat % 65536
    ∀ l pa, check e.s w t .obj .load va 64 64 = .ok (.mem l pa) →
    let r := reqFor e (.barw (BitVec.ofNat 16 want)) va (.mem l pa) 64 none none
    Travels s c t w i r → markIn s (.mem pa) 64 = 0 →
    let told := (barRec s t.o pa).toTell.contains t.core
    ((readBar s pa).gen ≠ want → told = false →
      Trip s c t w i r (fun u2 u3 wx => KeepsBytes s u2 ∧ KeepsBytes u2 u3 ∧ wx = { Wr.none with acq := some .pkg }))
    ∧ (((readBar s pa).gen = want ∧ r.id ∉ (barRec s t.o pa).woken) ∨ told = true →
      ∃ u2, exec i s = .next (asked s c t w i r) ∧ exec (.targetRequest r.id) (asked s c t w i r) = .next u2 ∧
        KeepsBytes s u2 ∧ u2.replies = s.replies ∧ ∃ q ∈ u2.reqs, q.id = r.id ∧ q.held = true) := by
  intro i e va want l pa hchk r htrav hmark told
  have hask : barwSem d ad e = ask e r := by
    have hwant : (e.g d).setWidth 16 = BitVec.ofNat 16 want := by
      rw [show e.g d = readG s t d from firstEnv_g .., ← BitVec.ofNat_toNat]
      exact (ofNat_mod_self 16 _).symm
    simp only [barwSem, show ea e.s e.t ad = va from firstEnv_addr .., hwant]
    show withChk _ (check e.s w t .obj .load va 64 64) _ = _
    rw [hchk]
    rfl
  obtain ⟨a, hleaves, hmem, hbars, hread⟩ := serveRead_asked (kind := .barw (BitVec.ofNat 16 want)) (va := va) (rel := none)
    (acq := none) hissue (obj_cls (allowed_of_check hchk)) hmark
  have hrec : barRec a t.o pa = barRec s t.o pa := by simp only [barRec, hbars]
  have hserve : serve0 (asked s c t w i r) r
      = if ((readBar s pa).gen == want && !(barRec s t.o pa).woken.contains r.id) || told then .hold
        else .done a { r.reply with acq := some .pkg } := by
    have hkind : r.kind = .barw (BitVec.ofNat 16 want) := rfl
    have hwant : (BitVec.ofNat 16 want).toNat = want := by
      rw [BitVec.toNat_ofNat]
      exact Nat.mod_eq_of_lt (Nat.mod_lt _ (by decide))
    simp only [serve0, hkind]
    rw [hread, hwant, show barRec a r.o r.pa = barRec s t.o pa from hrec,
      show readBar a r.pa = readBar s pa from readBar_congr hmem pa]
    rfl
  refine ⟨fun hgen htold => ?_, fun hheld => ?_⟩
  · rw [htold, beq_false_of_ne hgen] at hserve
    have hnone : LeavesMem (asked s c t w i r) a (asked s c t w i r).mem := by
      have hsame : (asked s c t w i r).mem = s.mem := congrArg (·.1.1) (bytesOf_asked hissue)
      rwa [hsame]
    obtain ⟨due, count, at_, hserves⟩ := serves_of_leavesMem hissue hnone
    have hkeeps : KeepsBytes s a := keepsBytes_of (keepsBytes_of_leavesMem hissue hnone)
    exact trip_of_serves hissue (sent_reqFor ..) htrav (sem := barwSem d ad) rfl hask rfl hserve hserves
      ⟨rfl, ⟨rfl, rfl⟩, ⟨rfl, rfl⟩, rfl, rfl⟩ fun es ps => ⟨hkeeps, keepsBytes_of rfl, rfl⟩
  · have hcond : (((readBar s pa).gen == want && !(barRec s t.o pa).woken.contains r.id) || told) = true := by
      rcases hheld with ⟨hgen, hasleep⟩ | htold
      · simp [hgen, hasleep]
      · rw [htold, Bool.or_true]
    rw [if_pos hcond] at hserve
    obtain ⟨u, htarget, hkeeps, hnet, hq⟩ := exec_target_holds hissue (sent_reqFor ..) htrav hserve
    exact ⟨u, exec_asks hissue rfl hask (sent_reqFor ..), htarget, hkeeps, hnet, hq⟩

end

end Sys2Proof.Machine
end

section
namespace Sys2Proof
open Sys2Proof.Machine

/-- Settles O37: an arrival and a wait are requests to the object's target, which writes the object or finds its generation. -/
theorem barriers : Obligations.Barriers := by
  unfold Obligations.Barriers
  intro s c t w
  refine ⟨fun d ad => ?_, fun d m => ?_, fun d ad => exec_barw⟩
  · exact arrives_of (sem := baraSem d ad) rfl (by rw [baraSem, firstEnv_addr])
  · exact arrives_of (sem := barmaxSem d m) rfl (by rw [barmaxSem, firstEnv_addr3, firstEnv_g])

end Sys2Proof
end

section
/-!
SUPPORT. Stage queues (R110, R354, R355): the checks at the core, and what the queue's target does.
-/

namespace Sys2Proof.Machine

/-! ## Runs of sectors -/

/-- Steps that change caches alone change caches alone together. -/
theorem foldl_touches {f : State → Nat → State} (hf : ∀ s a, ∃ cs fl, f s a = { s with cores := cs, flips := fl }) (l : List Nat)
    (s : State) : ∃ cs fl, l.foldl f s = { s with cores := cs, flips := fl } := by
  induction l generalizing s with
  | nil => exact ⟨s.cores, s.flips, rfl⟩
  | cons a l ih =>
    obtain ⟨cs, fl, hone⟩ := hf s a
    obtain ⟨cs', fl', hrest⟩ := ih { s with cores := cs, flips := fl }
    exact ⟨cs', fl', by rw [List.foldl_cons, hone, hrest]⟩

theorem touchSpan_eq (s : State) (t : Target) (pa n : Nat) : ∃ cs fl, touchSpan s t pa n = { s with cores := cs, flips := fl } := by
  refine foldl_touches (fun s a => ?_) _ s
  obtain ⟨fl, hside⟩ := stackSide_eq s t a
  split
  · exact touchWrite_eq s t a
  · rw [hside]
    split
    · exact ⟨_, fl, rfl⟩
    · exact ⟨s.cores, fl, rfl⟩

theorem readSpan_eq (s : State) (t : Target) (pa n : Nat) : ∃ cs fl, readSpan s t pa n = { s with cores := cs, flips := fl } :=
  foldl_touches (fun s a => touchRead_eq s t a) _ s

theorem LeavesMem.touchesSpan {s u : State} {m : Memory} (h : LeavesMem s u m) (t : Target) (pa n : Nat) :
    LeavesMem s (touchSpan u t pa n) m := by
  obtain ⟨_, _, _, _, rfl⟩ := h
  obtain ⟨cs, fl, htouch⟩ := touchSpan_eq _ t pa n
  exact ⟨_, _, cs, fl, htouch⟩

theorem LeavesMem.readsSpan {s u : State} {m : Memory} (h : LeavesMem s u m) (t : Target) (pa n : Nat) :
    LeavesMem s (readSpan u t pa n) m := by
  obtain ⟨_, _, _, _, rfl⟩ := h
  obtain ⟨cs, fl, hread⟩ := readSpan_eq _ t pa n
  exact ⟨_, _, cs, fl, hread⟩

/-! ## At the core (R120, R354) -/

section
variable {e : Env} {a : GReg} {q off pa : Nat} {x : QueueEnt} {l : Leaf}

/-- A queue and an area in order. -/
theorem queueOp_ok {put : Bool} {va : Word} (hva : e.g a = va) (hq : queueOf e.s e.t.o e.t.launch q = some x)
    (hal : va.toNat % 8 = 0) (harea : homeArea e .load va x.esize = (some off, none))
    (hwatch : watchHit e.t va.toNat x.esize put (!put) = none) (hchk : queueChk e x = .ok l pa)
    (f : QueueEnt → Leaf → Nat → Nat → XRes) : queueOp e a q put f = f x l pa off := by
  simp [queueOp, hva, hq, alignTrap, hal, harea, hwatch, hchk, lowestOf, lowest]

end

section
variable {s : State} {c : Cur} {t : Thread} {w : Owner} {d a : GReg} {q : BitVec 5} {x : QueueEnt} {l : Leaf} {pa off : Nat}

theorem firstEnv_queueOf (i : Instr) (n : Nat) : queueOf (firstEnv s c t w i).s t.o t.launch n = queueOf s t.o t.launch n :=
  firstEnv_reads s c t w i (fun s => queueOf s t.o t.launch n) fun _ => rfl

theorem qputSem_asks (hq : queueOf s t.o t.launch q.toNat = some x) (hal : (readG s t a).toNat % 8 = 0) :
    let e := firstEnv s c t w (.qput d a q)
    homeArea e .load (readG s t a) x.esize = (some off, none) → watchHit t (readG s t a).toNat x.esize true false = none →
    queueChk e x = .ok l pa → pendingOn e (homeTarget e) [(off, x.esize)] = false →
    markIn e.s (.spad t.o (tidCore t.tid) off) x.esize = 0 →
    qputSem d a q e = ask e (reqFor e (.qput t.launch q.toNat (Memory.readN s.spad (spadKey t.o (tidCore t.tid) off) x.esize) d) x.qva
      (.mem l pa) 16 (some .pkg) none) := by
  intro e harea hwatch hchk hpend hmark
  have hbytes : homeBytes e off x.esize = (Memory.readN s.spad (spadKey t.o (tidCore t.tid) off) x.esize, 0) := by
    rw [← firstEnv_spad s c t w (.qput d a q), ← hmark]
    rfl
  rw [qputSem, queueOp_ok (put := true) (firstEnv_g ..) ((firstEnv_queueOf _ _).trans hq) hal harea hwatch hchk]
  simp only [hpend, hbytes, Bool.false_eq_true, if_false]
  rfl

theorem qgetSem_eq (hq : queueOf s t.o t.launch q.toNat = some x) (hal : (readG s t a).toNat % 8 = 0) :
    let e := firstEnv s c t w (.qget d a q)
    homeArea e .load (readG s t a) x.esize = (some off, none) → watchHit t (readG s t a).toNat x.esize false true = none →
    queueChk e x = .ok l pa →
    qgetSem d a q e = if t.retiring then e.give d 1
      else ask e (reqFor e (.qget t.launch q.toNat t.stage off d) x.qva (.mem l pa) 16 none none) := by
  intro e harea hwatch hchk
  rw [qgetSem, queueOp_ok (put := false) (firstEnv_g ..) ((firstEnv_queueOf _ _).trans hq) hal harea hwatch hchk]
  rfl

end

/-! ## At the target -/

section
variable {s : State} {c : Cur} {t : Thread} {w : Owner} {i : Instr} {d : GReg} {q : Nat} {x : QueueEnt} {l : Leaf} {pa : Nat}

/-- The bytes of the n-th element's slot. -/
def slotAt (x : QueueEnt) (pa n : Nat) : Nat := pa + 256 + n % x.depth * x.esize

theorem queueOf_asked {r : Req} (hissue : Issues s c t w i 0) (o n m : Nat) : queueOf (asked s c t w i r) o n m = queueOf s o n m := by
  obtain ⟨cs, ts, due, count, at_, hasked, -, -⟩ := asked_eq (r := r) hissue
  rw [hasked]
  rfl

theorem mem_asked {r : Req} (hissue : Issues s c t w i 0) : (asked s c t w i r).mem = s.mem := congrArg (·.1.1) (bytesOf_asked hissue)

theorem markIn_asked {r : Req} (hissue : Issues s c t w i 0) (p : Spot) (n : Nat) :
    markIn (asked s c t w i r) p n = markIn s p n := by
  obtain ⟨cs, ts, due, count, at_, hasked, -, -⟩ := asked_eq (r := r) hissue
  rw [hasked]
  cases p <;> rfl

/-! ### QPUT -/

/-- Memory once an element is in its slot and TAIL is one more. -/
def memPut (m : Memory) (x : QueueEnt) (pa : Nat) (elem : List Byte) : Memory :=
  Memory.writeN (Memory.writeN m (slotAt x pa (Memory.nat m (pa + 8) 8)) elem) (pa + 8)
    (listOfWord (BitVec.ofNat 64 (Memory.nat m (pa + 8) 8 + 1)) 8)

theorem memPut_spec (m : Memory) (x : QueueEnt) (pa : Nat) {elem : List Byte} (hlen : elem.length = x.esize) :
    let slot := slotAt x pa (Memory.nat m (pa + 8) 8)
    (∀ b < x.esize, Memory.read (memPut m x pa elem) (slot + b) = elem.getD b 0) ∧
    Memory.nat (memPut m x pa elem) (pa + 8) 8 = (Memory.nat m (pa + 8) 8 + 1) % 2 ^ 64 ∧
    ∀ b, ¬ (slot ≤ b ∧ b < slot + x.esize) → ¬ (pa + 8 ≤ b ∧ b < pa + 16) →
      Memory.read (memPut m x pa elem) b = Memory.read m b := by
  intro slot
  have hslot : pa + 256 ≤ slot := Nat.le_add_right _ _
  refine ⟨fun b hb => ?_, ?_, fun b hout htail => ?_⟩
  · rw [memPut, Memory.read_field_ne _ _ (by omega), Memory.read_writeN, if_pos ⟨Nat.le_add_right _ _, by omega⟩,
      Nat.add_sub_cancel_left]
  · rw [memPut, Memory.nat_writeN_listOfWord, BitVec.toNat_ofNat]
    exact Nat.mod_mod _ _
  · rw [memPut, Memory.read_field_ne _ _ (by omega), Memory.read_writeN_outside _ _ _ (by omega)]

section
variable {va : Word} {elem : List Byte} {rel acq : Option Scope} (hissue : Issues s c t w i 0)
  (hq : queueOf s t.o t.launch q = some x) (hmark : markIn s (.mem pa) 256 = 0)
include hissue hq hmark

/-- A full queue holds the request. -/
theorem serve0_qput_full (hfull : Memory.nat s.mem pa 8 + x.depth ≤ Memory.nat s.mem (pa + 8) 8) :
    let r := reqFor (firstEnv s c t w i) (.qput t.launch q elem d) va (.mem l pa) 16 rel acq
    serve0 (asked s c t w i r) r = .hold := by
  intro r
  have hkind : r.kind = .qput t.launch q elem d := rfl
  simp only [serve0, hkind]
  rw [show queueOf (asked s c t w i r) r.o t.launch q = some x from (queueOf_asked hissue ..).trans hq]
  dsimp only
  rw [show markIn (asked s c t w i r) (.mem r.pa) 256 = 0 from (markIn_asked hissue ..).trans hmark, mem_asked hissue]
  exact if_pos hfull

/-- One with room takes the element. -/
theorem serve0_qput_room (hroom : Memory.nat s.mem (pa + 8) 8 < Memory.nat s.mem pa 8 + x.depth) :
    let r := reqFor (firstEnv s c t w i) (.qput t.launch q elem d) va (.mem l pa) 16 rel acq
    ∃ u, LeavesMem (asked s c t w i r) u (memPut s.mem x pa elem) ∧
      serve0 (asked s c t w i r) r = .done u { r.reply with g := [(d, 0)] } := by
  intro r
  have hleaves := ((((leavesMem_refl (asked s c t w i r)).writes (slotAt x pa (Memory.nat s.mem (pa + 8) 8)) elem).touchesSpan r.tgt
    (slotAt x pa (Memory.nat s.mem (pa + 8) 8)) x.esize).writes (pa + 8)
    (listOfWord (BitVec.ofNat 64 (Memory.nat s.mem (pa + 8) 8 + 1)) 8)).touchesWrite r.tgt pa
  rw [mem_asked hissue] at hleaves
  refine ⟨_, hleaves, ?_⟩
  have hkind : r.kind = .qput t.launch q elem d := rfl
  simp only [serve0, hkind]
  rw [show queueOf (asked s c t w i r) r.o t.launch q = some x from (queueOf_asked hissue ..).trans hq]
  dsimp only
  rw [show markIn (asked s c t w i r) (.mem r.pa) 256 = 0 from (markIn_asked hissue ..).trans hmark, mem_asked hissue]
  exact if_neg (Nat.not_le.2 hroom)

end

/-! ### QGET -/

/-- The stage of a thread has a shrink token less, and the thread retires (R110). -/
def tokenTaken (a : State) (t : Thread) : State :=
  onThr (onLch a t.o t.launch (fun x => { x with dyn := x.dyn.modify t.stage (fun y => { y with shrink := y.shrink - 1 }) })) t.o t.tid
    (fun x => { x with retiring := true })

theorem tokenTaken_keeps (a : State) (t : Thread) : (tokenTaken a t).replies = a.replies ∧ (tokenTaken a t).combines = a.combines
    ∧ (tokenTaken a t).owners = a.owners ∧ (tokenTaken a t).mem = a.mem ∧ (tokenTaken a t).spad = a.spad :=
  ⟨rfl, rfl, rfl, rfl, rfl⟩

theorem thr?_tokenTaken {a : State} {t x : Thread} (h : thr? a t.o t.tid = some x) :
    thr? (tokenTaken a t) t.o t.tid = some { x with retiring := true } := by
  rw [tokenTaken, thr?_onThr, show thr? (onLch a t.o t.launch _) t.o t.tid = some x from h]
  rfl

section
variable {va : Word} {area : Nat} {rel acq : Option Scope} (hissue : Issues s c t w i 0)
  (hq : queueOf s t.o t.launch q = some x) (hmark : markIn s (.mem pa) 256 = 0)
include hissue hq hmark

/-- The oldest element of a queue with elements. -/
theorem serve0_qget_element (hsome : Memory.nat s.mem pa 8 < Memory.nat s.mem (pa + 8) 8)
    (hclean : markIn s (.mem (slotAt x pa (Memory.nat s.mem pa 8))) x.esize = 0) :
    let r := reqFor (firstEnv s c t w i) (.qget t.launch q t.stage area d) va (.mem l pa) 16 rel acq
    ∃ u, LeavesMem (asked s c t w i r) u (Memory.writeN s.mem pa (listOfWord (BitVec.ofNat 64 (Memory.nat s.mem pa 8 + 1)) 8))
      ∧ serve0 (asked s c t w i r) r = .done u { r.reply with
          g := [(d, 0)], acq := some .pkg,
          writes := [(area, Memory.readN s.mem (slotAt x pa (Memory.nat s.mem pa 8)) x.esize)] } := by
  intro r
  have hleaves := (((leavesMem_refl (asked s c t w i r)).writes pa
    (listOfWord (BitVec.ofNat 64 (Memory.nat s.mem pa 8 + 1)) 8)).readsSpan r.tgt (slotAt x pa (Memory.nat s.mem pa 8))
    x.esize).touchesWrite r.tgt pa
  rw [mem_asked hissue] at hleaves
  refine ⟨_, hleaves, ?_⟩
  have hkind : r.kind = .qget t.launch q t.stage area d := rfl
  simp only [serve0, hkind]
  rw [show queueOf (asked s c t w i r) r.o t.launch q = some x from (queueOf_asked hissue ..).trans hq]
  dsimp only
  have hslot : markIn (asked s c t w i r) (.mem (r.pa + 256 + Memory.nat s.mem r.pa 8 % x.depth * x.esize)) x.esize = 0 :=
    (markIn_asked hissue ..).trans hclean
  rw [show markIn (asked s c t w i r) (.mem r.pa) 256 = 0 from (markIn_asked hissue ..).trans hmark, mem_asked hissue,
    if_neg (by decide), if_pos (show Memory.nat s.mem r.pa 8 < Memory.nat s.mem (r.pa + 8) 8 from hsome), hslot, if_neg (by decide)]
  rfl

variable (hnone : Memory.nat s.mem (pa + 8) 8 ≤ Memory.nat s.mem pa 8)
include hnone

/-- Of an empty queue, the answer is the stage's shrink token or none. -/
theorem serve0_qget_empty :
    let r := reqFor (firstEnv s c t w i) (.qget t.launch q t.stage area d) va (.mem l pa) 16 rel acq
    serve0 (asked s c t w i r) r = if tokenFor s t.o t.launch q t.stage then
        .done (tokenTaken (asked s c t w i r) t) { r.reply with g := [(d, 1)], acq := some .pkg }
      else .hold := by
  intro r
  have htoken : tokenFor (asked s c t w i r) t.o t.launch q t.stage = tokenFor s t.o t.launch q t.stage := by
    obtain ⟨cs, ts, due, count, at_, hasked, -, -⟩ := asked_eq (r := r) hissue
    rw [hasked]
    rfl
  have hkind : r.kind = .qget t.launch q t.stage area d := rfl
  rw [← htoken]
  simp only [serve0, hkind]
  rw [show queueOf (asked s c t w i r) r.o t.launch q = some x from (queueOf_asked hissue ..).trans hq]
  dsimp only
  rw [show markIn (asked s c t w i r) (.mem r.pa) 256 = 0 from (markIn_asked hissue ..).trans hmark, mem_asked hissue,
    if_neg (by decide), if_neg (show ¬ Memory.nat s.mem r.pa 8 < Memory.nat s.mem (r.pa + 8) 8 from Nat.not_lt.2 hnone)]
  rfl

end

end

section
variable {s : State} {c : Cur} {t : Thread} {w : Owner} {i : Instr}

/-- A thread that a target retires still waits, and nothing but its launch has changed beside it. -/
theorem serves_tokenTaken {r : Req} (hissue : Issues s c t w i 0) (hkey : c.o = t.o ∧ c.tid = t.tid) :
    let u := tokenTaken (asked s c t w i r) t
    ∃ t', Serves s u c r (bundleOf (bare s) c t w i) t' ∧ t'.retiring = true ∧ u.mem = s.mem ∧ u.spad = s.spad := by
  intro u
  obtain ⟨ho, htid⟩ := hkey
  obtain ⟨cs, ts, due, count, at_, hasked, hthr, -⟩ := asked_eq (r := r) hissue
  obtain ⟨x, hx, hwaits⟩ : ∃ x, thr? (asked s c t w i r) t.o t.tid = some x
      ∧ x.status = .waiting (.reply r.id) ∧ x.pend = some (bundleOf (bare s) c t w i) := by
    refine ⟨awaiting t r.id (bundleOf (bare s) c t w i) due count at_, ?_, rfl, rfl⟩
    rw [hasked, ← ho, ← htid]
    exact hthr
  have hretires : thr? u c.o c.tid = some { x with retiring := true } := by
    rw [ho, htid]
    exact thr?_tokenTaken hx
  obtain ⟨hreplies, hcombines, howners, hmem, hspad⟩ := tokenTaken_keeps (asked s c t w i r) t
  have hbytes := bytesOf_asked (r := r) hissue
  refine ⟨_, ⟨⟨hreplies.trans ?_, hcombines.trans ?_⟩, howners.trans ?_, hretires, hwaits⟩, rfl,
    hmem.trans (congrArg (·.1.1) hbytes), hspad.trans (congrArg (·.1.2.1) hbytes)⟩ <;> rw [hasked]

end

/-! ## The instructions -/

section
variable {s : State} {c : Cur} {t : Thread} {w : Owner} {d a : GReg} {q : BitVec 5} {x : QueueEnt} {l : Leaf} {pa off : Nat}
  (hq : queueOf s t.o t.launch q.toNat = some x) (hal : (readG s t a).toNat % 8 = 0) (hmark : markIn s (.mem pa) 256 = 0)
include hq hal hmark

theorem exec_qput (hissue : Issues s c t w (.qput d a q) 0) :
    let i := Instr.qput d a q
    let e := firstEnv s c t w i
    let va := readG s t a
    homeArea e .load va x.esize = (some off, none) → watchHit t va.toNat x.esize true false = none →
    queueChk e x = .ok l pa → pendingOn e (homeTarget e) [(off, x.esize)] = false →
    markIn e.s (.spad t.o (tidCore t.tid) off) x.esize = 0 →
    let elem := Memory.readN s.spad (spadKey t.o (tidCore t.tid) off) x.esize
    let r := reqFor e (.qput t.launch q.toNat elem d) x.qva (.mem l pa) 16 (some .pkg) none
    let head := Memory.nat s.mem pa 8
    let tail := Memory.nat s.mem (pa + 8) 8
    Travels s c t w i r →
    (head + x.depth ≤ tail → ∃ u2, exec i s = .next (asked s c t w i r) ∧
      exec (.targetRequest r.id) (asked s c t w i r) = .next u2 ∧
      KeepsBytes s u2 ∧ u2.replies = s.replies ∧ ∃ z ∈ u2.reqs, z.id = r.id ∧ z.held = true)
    ∧ (tail < head + x.depth → Trip s c t w i r (fun u2 u3 wx => wx = Wr.ofG d 0 ∧ u3.mem = u2.mem ∧ u2.spad = s.spad ∧
       (∀ b < x.esize, Memory.read u2.mem (slotAt x pa tail + b) = elem.getD b 0) ∧
       Memory.nat u2.mem (pa + 8) 8 = (tail + 1) % 2 ^ 64 ∧
       ∀ b, ¬ (slotAt x pa tail ≤ b ∧ b < slotAt x pa tail + x.esize) → ¬ (pa + 8 ≤ b ∧ b < pa + 16) →
         Memory.read u2.mem b = Memory.read s.mem b)) := by
  intro i e va harea hwatch hchk hpend hclean elem r head tail htrav
  have hask := qputSem_asks (d := d) hq hal harea hwatch hchk hpend hclean
  have hsent : Sent s t r := sent_reqFor ..
  refine ⟨fun hfull => ?_, fun hroom => ?_⟩
  · obtain ⟨u, htarget, hkeeps, hnet, hz⟩ := exec_target_holds hissue hsent htrav (serve0_qput_full hissue hq hmark hfull)
    exact ⟨u, exec_asks (sem := qputSem d a q) hissue rfl hask hsent, htarget, hkeeps, hnet, hz⟩
  · obtain ⟨u, hleaves, hserve⟩ := serve0_qput_room (va := x.qva) (l := l) (elem := elem) (d := d) (rel := some .pkg) (acq := none)
      hissue hq hmark hroom
    obtain ⟨due, count, at_, hserves⟩ := serves_of_leavesMem hissue hleaves
    have hspad : u.spad = s.spad := by
      obtain ⟨_, _, _, _, rfl⟩ := hleaves
      exact congrArg (·.1.2.1) (bytesOf_asked hissue)
    have hmem := memPut_spec s.mem x pa (elem := elem) (Memory.readN_length ..)
    rw [← hleaves.mem_eq] at hmem
    exact trip_of_serves (sem := qputSem d a q) hissue hsent htrav rfl hask rfl hserve hserves
      ⟨rfl, ⟨rfl, rfl⟩, ⟨rfl, rfl⟩, rfl, rfl⟩ fun es ps => ⟨rfl, rfl, hspad, hmem⟩

theorem exec_qget (hissue : Issues s c t w (.qget d a q) 0) :
    let i := Instr.qget d a q
    let e := firstEnv s c t w i
    let va := readG s t a
    homeArea e .load va x.esize = (some off, none) → watchHit t va.toNat x.esize false true = none →
    queueChk e x = .ok l pa →
    (t.retiring = true → exec i s = .next (doneWith s c t w i (Wr.ofG d 1)))
    ∧ (t.retiring = false →
      let r := reqFor e (.qget t.launch q.toNat t.stage off d) x.qva (.mem l pa) 16 none none
      let head := Memory.nat s.mem pa 8
      let tail := Memory.nat s.mem (pa + 8) 8
      Travels s c t w i r →
      (tail ≤ head → tokenFor s t.o t.launch q.toNat t.stage = false → ∃ u2, exec i s = .next (asked s c t w i r) ∧
        exec (.targetRequest r.id) (asked s c t w i r) = .next u2 ∧
        KeepsBytes s u2 ∧ u2.replies = s.replies ∧ ∃ z ∈ u2.reqs, z.id = r.id ∧ z.held = true)
      ∧ (tail ≤ head → tokenFor s t.o t.launch q.toNat t.stage = true →
        Trip s c t w i r (fun u2 u3 wx => wx = { Wr.ofG d 1 with acq := some .pkg } ∧ u3.mem = u2.mem ∧ u2.mem = s.mem ∧
          u3.spad = s.spad ∧ ∀ y, thr? u2 t.o t.tid = some y → y.retiring = true))
      ∧ (head < tail → markIn s (.mem (slotAt x pa head)) x.esize = 0 →
        Trip s c t w i r (fun u2 u3 wx => wx = { Wr.ofG d 0 with acq := some .pkg } ∧ u3.mem = u2.mem ∧
          Stored s.spad u3.spad (spadKey t.o (tidCore t.tid) off) (allOn (Memory.readN s.mem (slotAt x pa head) x.esize)) ∧
          Memory.nat u2.mem pa 8 = (head + 1) % 2 ^ 64 ∧
          ∀ b, ¬ (pa ≤ b ∧ b < pa + 8) → Memory.read u2.mem b = Memory.read s.mem b))) := by
  intro i e va harea hwatch hchk
  have hsem := qgetSem_eq (d := d) hq hal harea hwatch hchk
  refine ⟨fun hret => ?_, fun hret => ?_⟩
  · exact runX_done (sem := qgetSem d a q) hissue (hsem.trans (if_pos hret))
  intro r head tail htrav
  have hask : qgetSem d a q e = ask e r := hsem.trans (if_neg (Bool.eq_false_iff.1 hret))
  have hsent : Sent s t r := sent_reqFor ..
  refine ⟨fun hnone htoken => ?_, fun hnone htoken => ?_, fun hsome hclean => ?_⟩
  · have hserve : serve0 (asked s c t w i r) r = .hold :=
      (serve0_qget_empty hissue hq hmark hnone).trans (if_neg (Bool.eq_false_iff.1 htoken))
    obtain ⟨u, htarget, hkeeps, hnet, hz⟩ := exec_target_holds hissue hsent htrav hserve
    exact ⟨u, exec_asks (sem := qgetSem d a q) hissue rfl hask hsent, htarget, hkeeps, hnet, hz⟩
  · have hserve : serve0 (asked s c t w i r) r
        = .done (tokenTaken (asked s c t w i r) t) { r.reply with g := [(d, 1)], acq := some .pkg } :=
      (serve0_qget_empty hissue hq hmark hnone).trans (if_pos htoken)
    obtain ⟨t', hserves, hret', hmem, hspad⟩ := serves_tokenTaken (r := r) hissue htrav.key
    generalize tokenTaken (asked s c t w i r) t = u at hserve hserves hmem hspad
    refine trip_of_serves (sem := qgetSem d a q) hissue hsent htrav rfl hask rfl hserve hserves
      ⟨rfl, ⟨rfl, rfl⟩, ⟨rfl, rfl⟩, rfl, rfl⟩ fun es ps => ⟨rfl, rfl, hmem, hspad, fun y hy => ?_⟩
    obtain ⟨ho, htid⟩ := htrav.key
    have hthr := hserves.thr
    rw [ho, htid] at hthr
    rw [← Option.some.inj (hthr.symm.trans hy), hret']
  · obtain ⟨u, hleaves, hserve⟩ := serve0_qget_element (va := x.qva) (l := l) (area := off) (d := d) (rel := none) (acq := none)
      hissue hq hmark hsome hclean
    obtain ⟨due, count, at_, hserves⟩ := serves_of_leavesMem hissue hleaves
    have hspad : u.spad = s.spad := by
      obtain ⟨_, _, _, _, rfl⟩ := hleaves
      exact congrArg (·.1.2.1) (bytesOf_asked hissue)
    have hstored := stored_writeN u.spad (spadKey t.o (tidCore t.tid) off) (Memory.readN s.mem (slotAt x pa head) x.esize)
    rw [hspad] at hstored
    have hhead : Memory.nat u.mem pa 8 = (head + 1) % 2 ^ 64 := by
      rw [hleaves.mem_eq, Memory.nat_writeN_listOfWord, BitVec.toNat_ofNat]
      exact Nat.mod_mod _ _
    have hrest : ∀ b, ¬ (pa ≤ b ∧ b < pa + 8) → Memory.read u.mem b = Memory.read s.mem b := fun b hb => by
      rw [hleaves.mem_eq, Memory.read_field_ne _ _ (by omega)]
    refine trip_of_serves (sem := qgetSem d a q) hissue hsent htrav rfl hask rfl hserve hserves
      ⟨rfl, ⟨rfl, rfl⟩, ⟨rfl, rfl⟩, rfl, rfl⟩ fun es ps => ⟨rfl, rfl, ?_, hhead, hrest⟩
    show Stored s.spad (Memory.writeN u.spad (spadKey t.o (tidCore t.tid) off) _) _ _
    rw [hspad]
    exact hstored

end

end Sys2Proof.Machine
end

section
namespace Sys2Proof
open Sys2Proof.Machine

/-- Settles O38: QPUT and QGET ask the queue's target, which serves them or holds them at the queue. -/
theorem stageQueues : Obligations.StageQueues := by
  unfold Obligations.StageQueues
  intro s c t w d a q x l pa va off head tail waits slot hq _ hal hmark
  exact ⟨fun hissue harea hwatch hchk hpend hclean => exec_qput hq hal hmark hissue harea hwatch hchk hpend hclean,
    fun hissue harea hwatch hchk => exec_qget hq hal hmark hissue harea hwatch hchk⟩

end Sys2Proof
end

section
/-!
SUPPORT. Job control (R260, R393, R401): what JWAIT, JPOLL and JCANCEL find of the job that they name, and what a JOBF leaves.
-/

namespace Sys2Proof.Machine

/-! ## The job that a register names -/

section
variable {s : State} {c : Cur} {t : Thread} {w : Owner} {k id : Nat} {x : Core} (hcore : core? s t.o k = some x)
include hcore

/-- Draws of the dither source leave the jobs of every core. -/
theorem jobAt_firstEnv (i : Instr) : jobAt (firstEnv s c t w i).s t.o k id = x.jobs.find? (·.id == id) := by
  obtain ⟨n, hn⟩ := firstEnv_core s c t w i k
  rw [hcore] at hn
  simp only [jobAt, hn]
  rfl

/-- The code of a job that has left its entry. -/
theorem jobCode_firstEnv (i : Instr) (hnone : x.jobs.find? (·.id == id) = none) :
    (jobCode (firstEnv s c t w i).s t.o k id).getD 1 = ((x.outcomes.find? (·.1 == id)).map (·.2.1)).getD 1 := by
  obtain ⟨n, hn⟩ := firstEnv_core s c t w i k
  rw [hcore] at hn
  have hany : x.jobs.any (·.id == id) = false := by
    rw [List.find?_eq_none] at hnone
    exact List.any_eq_false.2 hnone
  simp only [jobCode, hn, Option.map_some, hany, Bool.false_eq_true, if_false]
  cases x.outcomes.find? (·.1 == id) <;> rfl

theorem jobGfl_firstEnv (i : Instr) (tid : Nat) : jobGfl (firstEnv s c t w i).s t.o k id tid = true ↔
    (x.outcomes.find? (·.1 == id)).map (·.2.2) = some (some tid) := by
  obtain ⟨n, hn⟩ := firstEnv_core s c t w i k
  rw [hcore] at hn
  simp only [jobGfl, hn, Option.map_some]
  cases x.outcomes.find? (·.1 == id) <;> simp

/-- What the observer of an end receives. -/
theorem jobSeen_firstEnv (i : Instr) (d : GReg) (hnone : x.jobs.find? (·.id == id) = none) :
    jobSeen (firstEnv s c t w i).s t.o k id t.tid (some d) ((jobCode (firstEnv s c t w i).s t.o k id).getD 1)
      = { Wr.ofG d (BitVec.ofNat 64 (((x.outcomes.find? (·.1 == id)).map (·.2.1)).getD 1)) with
          acq := some .clus,
          flags := if (x.outcomes.find? (·.1 == id)).map (·.2.2) = some (some t.tid) then 0x40 else 0 } := by
  rw [jobCode_firstEnv hcore i hnone, jobSeen, if_congr (jobGfl_firstEnv hcore i t.tid) rfl rfl]
  rfl

end

theorem jobName_firstEnv (s : State) (c : Cur) (t : Thread) (w : Owner) (i : Instr) (a : GReg) :
    jobName (firstEnv s c t w i) a = (tidClus t.tid * 8 + (readG s t a).toNat % 65536 / 8192, (readG s t a).toNat % 65536) := by
  simp only [jobName, firstEnv_g]
  rfl

/-! ## A JOBF (R122, R131, R260) -/

/-- The trap of a job suspended with a cause. -/
theorem jobfTrap_suspended {k id cause : Nat} {va info : Word} {b : Job} (hid : b.id = id)
    (hstate : b.state = .suspended cause va info) :
    jobfTrap k b = ⟨0x09, BitVec.ofNat 64 ((if 2 ^ 63 ≤ info.toNat then info.toNat % 65536 else id) + cause * 65536), va,
      BitVec.ofNat 64 b.pos, BitVec.ofNat 64 b.spec, true, false, .job k id⟩ := by
  simp only [jobfTrap, Job.cause, hstate, hid, mkTrap]
  rfl

/-- An exception entry leaves the %stat of every thread, but for the GFL that a JOBF raises. -/
theorem stat_takeTrap {s : State} {o tid x : Nat} {ti : TrapInfo} {pc : Word} {len : Option Nat} {async vh : Bool} {y : Thread}
    (hy : thr? (takeTrap s o tid ti pc len async vh) o x = some y) :
    ∃ z, thr? (raiseGfl s o ti) o x = some z ∧ y.stat = z.stat := by
  unfold takeTrap at hy
  dsimp only at hy
  split at hy
  next w r hw hr =>
    by_cases hk : thrKey o x = thrKey o tid
    · refine ⟨r, by rw [thr?, hk]; exact hr, ?_⟩
      rw [thr?, hk, lookup_put_self, Option.some.injEq] at hy
      rw [← hy]
    · rw [thr?, lookup_put_ne _ _ hk] at hy
      exact ⟨y, hy, rfl⟩
  next => exact ⟨y, hy, rfl⟩

/-- The JOBF of a job whose gain floor replaced a value raises GFL for its submitter, whichever thread takes it. -/
theorem stat_takeTrap_jobf {s : State} {o tid : Nat} {ti : TrapInfo} {pc : Word} {len : Option Nat} {k id : Nat} {b : Job} {z y : Thread}
    (hitem : ti.item = .job k id) (hcause : ti.cause = 0x09) (hb : jobAt s o k id = some b) (hgfl : b.gfl = true)
    (horphan : b.orphan = false) (hz : thr? s o b.tid = some z) (hy : thr? (takeTrap s o tid ti pc len false false) o b.tid = some y) :
    y.stat = z.stat ||| 0x40 := by
  have hraise : raiseGfl s o ti = onThr s o b.tid (fun t => { t with stat := t.stat ||| 0x40 }) := by
    have hfind : (core? s o k).bind (fun c => c.jobs.find? (·.id == id)) = some b := by
      rw [← hb, jobAt]
      cases core? s o k <;> rfl
    simp [raiseGfl, hitem, hcause, Cause.jobf, hfind, hgfl, horphan]
  obtain ⟨r, hr, hstat⟩ := stat_takeTrap hy
  rw [hraise, thr?_onThr, hz, Option.map_some, Option.some.injEq] at hr
  rw [hstat, ← hr]

theorem tried_reads {α : Type} (s : State) (c : Cur) (t : Thread) (w : Owner) (i : Instr) (f : State → α)
    (hf : ∀ cs, f { bare s with cores := cs } = f s) : f (tried s c t w i) = f s := by
  rcases takeDraws_eq (bare s) t (drawsOf (bare s) c t w i) with h | h <;> rw [tried, h]
  · exact hf s.cores
  · exact hf _

theorem jobAt_tried {s : State} {c : Cur} {t : Thread} {w : Owner} {k id : Nat} {x : Core} (hcore : core? s t.o k = some x) (i : Instr) :
    jobAt (tried s c t w i) t.o k id = x.jobs.find? (·.id == id) := by
  have hread : ∃ n, core? (tried s c t w i) t.o k = some { x with dither := x.dither + n } := by
    rcases takeDraws_eq (bare s) t (drawsOf (bare s) c t w i) with h | h <;> rw [tried, h]
    · exact ⟨0, hcore⟩
    · obtain ⟨n, hn⟩ := core?_drawn (bare s) t.o t.core t.o k (drawsOf (bare s) c t w i)
      exact ⟨n, hn.trans (congrArg (Option.map _) hcore)⟩
  obtain ⟨n, hn⟩ := hread
  simp only [jobAt, hn]

/-! ## JWAIT, JPOLL and JCANCEL (R401) -/

section
variable {s : State} {c : Cur} {t : Thread} {w : Owner} {x : Core} {d a : GReg} {k id : Nat} {b : Job}
  (hid : id = (readG s t a).toNat % 65536) (hk : k = tidClus t.tid * 8 + id / 8192) (hcore : core? s t.o k = some x)
include hid hk hcore

/-- The entry that gA names is the core's own of that id. -/
theorem jobNamed (i : Instr) : jobName (firstEnv s c t w i) a = (k, id) ∧
    jobAt (firstEnv s c t w i).s (firstEnv s c t w i).t.o k id = x.jobs.find? (·.id == id) := by
  refine ⟨?_, jobAt_firstEnv hcore i⟩
  rw [jobName_firstEnv, hk, hid]

theorem jwait_suspended (hb : x.jobs.find? (·.id == id) = some b) (hs : b.isSuspended = true) (h : Issues s c t w (.jwait d a) 0) :
    exec (.jwait d a) s = .next (trapsTo s c t w (.jwait d a) (jobfTrap k b)) := by
  obtain ⟨hname, hat⟩ := jobNamed hid hk hcore (c := c) (w := w) (.jwait d a)
  refine runX_trapC h ?_
  show jwaitSem d a (firstEnv s c t w (.jwait d a)) = _
  simp only [jwaitSem, hname, hat, hb, hs, if_true]

theorem jwait_live (hb : x.jobs.find? (·.id == id) = some b) (hs : b.isSuspended = false) (h : Issues s c t w (.jwait d a) 0) :
    exec (.jwait d a) s = .next (putWait (firstEnv s c t w (.jwait d a)).s c (.job k id)
      (some (bundleOf (bare s) c t w (.jwait d a)))) := by
  obtain ⟨hname, hat⟩ := jobNamed hid hk hcore (c := c) (w := w) (.jwait d a)
  refine runX_wait h ?_
  show jwaitSem d a (firstEnv s c t w (.jwait d a)) = _
  simp only [jwaitSem, hname, hat, hb, hs, Bool.false_eq_true, if_false]

theorem jpoll_suspended (hp : w.plumb = false) (hb : x.jobs.find? (·.id == id) = some b) (hs : b.isSuspended = true)
    (h : Issues s c t w (.jpoll d a) 0) : exec (.jpoll d a) s = .next (trapsTo s c t w (.jpoll d a) (jobfTrap k b)) := by
  obtain ⟨hname, hat⟩ := jobNamed hid hk hcore (c := c) (w := w) (.jpoll d a)
  have hw : (firstEnv s c t w (.jpoll d a)).w.plumb = false := hp
  refine runX_trapC h ?_
  show jpollSem d a (firstEnv s c t w (.jpoll d a)) = _
  simp only [jpollSem, hname, hat, hb, hw, hs, Bool.false_eq_true, if_false, if_true]

theorem jpoll_live (hp : w.plumb = false) (hb : x.jobs.find? (·.id == id) = some b) (hs : b.isSuspended = false)
    (h : Issues s c t w (.jpoll d a) 0) : exec (.jpoll d a) s = .next (doneWith s c t w (.jpoll d a) (Wr.ofG d 0)) := by
  obtain ⟨hname, hat⟩ := jobNamed hid hk hcore (c := c) (w := w) (.jpoll d a)
  have hw : (firstEnv s c t w (.jpoll d a)).w.plumb = false := hp
  refine runX_done h ?_
  show jpollSem d a (firstEnv s c t w (.jpoll d a)) = _
  simp only [jpollSem, hname, hat, hb, hw, hs, Bool.false_eq_true, if_false]
  rfl

theorem jpoll_plumb (hp : w.plumb = true) (h : Issues s c t w (.jpoll d a) 0) :
    exec (.jpoll d a) s = .next (trapsTo s c t w (.jpoll d a) (mkTrap 0x10 0 0)) := by
  obtain ⟨hname, hat⟩ := jobNamed hid hk hcore (c := c) (w := w) (.jpoll d a)
  have hw : (firstEnv s c t w (.jpoll d a)).w.plumb = true := hp
  refine runX_trapC h ?_
  show jpollSem d a (firstEnv s c t w (.jpoll d a)) = _
  simp only [jpollSem, hname, hat, hw, if_true]
  cases x.jobs.find? (·.id == id) <;> rfl

/-- What the observer of an end receives (log 44): its code, an acquire at .clus, and GFL where it was the submitter. -/
def endSeen (x : Core) (t : Thread) (id : Nat) (d : GReg) : Wr :=
  { Wr.ofG d (BitVec.ofNat 64 (((x.outcomes.find? (·.1 == id)).map (·.2.1)).getD 1)) with
    acq := some .clus, flags := if (x.outcomes.find? (·.1 == id)).map (·.2.2) = some (some t.tid) then 0x40 else 0 }

theorem jwait_ended (hb : x.jobs.find? (·.id == id) = none) (h : Issues s c t w (.jwait d a) (endSeen x t id d).flags) :
    exec (.jwait d a) s = .next (doneWith s c t w (.jwait d a) (endSeen x t id d)) := by
  obtain ⟨hname, hat⟩ := jobNamed hid hk hcore (c := c) (w := w) (.jwait d a)
  refine runX_done h ?_
  show jwaitSem d a (firstEnv s c t w (.jwait d a)) = _
  simp only [jwaitSem, hname, hat, hb]
  exact congrArg (XRes.ok _) (jobSeen_firstEnv hcore _ d hb)

theorem jpoll_ended (hp : w.plumb = false) (hb : x.jobs.find? (·.id == id) = none)
    (h : Issues s c t w (.jpoll d a) (endSeen x t id d).flags) :
    exec (.jpoll d a) s = .next (doneWith s c t w (.jpoll d a) (endSeen x t id d)) := by
  obtain ⟨hname, hat⟩ := jobNamed hid hk hcore (c := c) (w := w) (.jpoll d a)
  have hw : (firstEnv s c t w (.jpoll d a)).w.plumb = false := hp
  refine runX_done h ?_
  show jpollSem d a (firstEnv s c t w (.jpoll d a)) = _
  simp only [jpollSem, hname, hat, hb, hw, Bool.false_eq_true, if_false]
  exact congrArg (XRes.ok _) (jobSeen_firstEnv hcore _ d hb)

theorem jcancel_ended (hb : x.jobs.find? (·.id == id) = none) (h : Issues s c t w (.jcancel d a) 0) :
    exec (.jcancel d a) s = .next (doneWith s c t w (.jcancel d a)
      (Wr.ofG d (BitVec.ofNat 64 (((x.outcomes.find? (·.1 == id)).map (·.2.1)).getD 1)))) := by
  obtain ⟨hname, hat⟩ := jobNamed hid hk hcore (c := c) (w := w) (.jcancel d a)
  refine runX_done h ?_
  show jcancelSem d a (firstEnv s c t w (.jcancel d a)) = _
  simp only [jcancelSem, hname, hat, hb]
  exact congrArg (fun n => XRes.ok _ (Wr.ofG d (BitVec.ofNat 64 n))) (jobCode_firstEnv hcore _ hb)

theorem jcancel_cancels (hb : x.jobs.find? (·.id == id) = some b) (hf : b.isRunning = false ∨ mustFinish s t.o k b = false)
    (h : Issues s c t w (.jcancel d a) 0) : exec (.jcancel d a) s
      = .next (retiresTo s c t w (.jcancel d a) (cancelJob (firstEnv s c t w (.jcancel d a)).s t.o k id) (Wr.ofG d 0)) := by
  obtain ⟨hname, hat⟩ := jobNamed hid hk hcore (c := c) (w := w) (.jcancel d a)
  have hfin : mustFinish (firstEnv s c t w (.jcancel d a)).s (firstEnv s c t w (.jcancel d a)).t.o k b = mustFinish s t.o k b :=
    firstEnv_reads s c t w _ (mustFinish · t.o k b) fun _ => rfl
  have hand : (b.isRunning && mustFinish s t.o k b) = false := by rcases hf with hf | hf <;> simp [hf]
  refine runX_ok h ?_
  show jcancelSem d a (firstEnv s c t w (.jcancel d a)) = _
  simp only [jcancelSem, hname, hat, hb, hfin, hand, Bool.false_eq_true, if_false]
  rfl

/-- What JCANCEL makes of a core whose running chunk must reach its end (R265): its job is marked. -/
def cancelMarked (id : Nat) (c : Core) : Core :=
  { c with jobs := c.jobs.map (fun x => if x.id = id then { x with cancel := true } else x) }

/-- A chunk that must reach its end holds the thread; its job is marked, and no byte and no thread changes. -/
theorem jcancel_waits (hb : x.jobs.find? (·.id == id) = some b) (hr : b.isRunning = true) (hf : mustFinish s t.o k b = true)
    (h : Issues s c t w (.jcancel d a) 0) : ∃ u, exec (.jcancel d a) s
      = .next (putWait u c (.jobStop k id 0) (some (bundleOf (bare s) c t w (.jcancel d a)))) ∧
        u.mem = s.mem ∧ u.threads = s.threads := by
  obtain ⟨hname, hat⟩ := jobNamed hid hk hcore (c := c) (w := w) (.jcancel d a)
  have hfin : mustFinish (firstEnv s c t w (.jcancel d a)).s (firstEnv s c t w (.jcancel d a)).t.o k b = mustFinish s t.o k b :=
    firstEnv_reads s c t w _ (mustFinish · t.o k b) fun _ => rfl
  refine ⟨onCore (firstEnv s c t w (.jcancel d a)).s t.o k (cancelMarked id), runX_wait h ?_,
    firstEnv_reads s c t w (.jcancel d a) (·.mem) fun _ => rfl,
    firstEnv_reads s c t w (.jcancel d a) (·.threads) fun _ => rfl⟩
  show jcancelSem d a (firstEnv s c t w (.jcancel d a)) = _
  simp only [jcancelSem, hname, hat, hb, hfin, hr, hf, Bool.and_self, if_true]
  rfl

end

end Sys2Proof.Machine
end
section
namespace Sys2Proof
open Machine

/-- Settles O49, by the job's entry that gA names: none, one suspended and one still live, for each of the three
instructions; the GFL of a JOBF is raised as the exception is taken. -/
theorem jobControl : Obligations.JobControl := by
  unfold Obligations.JobControl
  intro s c t w d a x
  dsimp only
  intro hcore
  refine ⟨?_, ⟨fun hb h => jwait_ended rfl rfl hcore hb h, fun b hb hs h => jwait_live rfl rfl hcore hb hs h⟩,
    ⟨fun hp hb h => jpoll_ended rfl rfl hcore hp hb h, fun b hp hb hs h => jpoll_live rfl rfl hcore hp hb hs h,
      fun hp h => jpoll_plumb rfl rfl hcore hp h⟩,
    fun h => ⟨fun hb => jcancel_ended rfl rfl hcore hb h, fun b hb => ⟨fun hf => jcancel_cancels rfl rfl hcore hb hf h,
      fun hr hf => jcancel_waits rfl rfl hcore hb hr hf h⟩⟩⟩
  intro i hi b hb cause va info hstate hne hplumb h
  have hs : b.isSuspended = true := by rw [Job.isSuspended, hstate]
  have hid : (b.id == (readG s t a).toNat % 65536) = true := List.find?_some (p := fun y : Job => y.id == _) hb
  have htrap := jobfTrap_suspended (k := tidClus t.tid * 8 + (readG s t a).toNat % 65536 / 8192) (beq_iff_eq.1 hid) hstate
  have hexec : exec i s = .next (trapsTo s c t w i (jobfTrap (tidClus t.tid * 8 + (readG s t a).toNat % 65536 / 8192) b)) := by
    rcases hi with rfl | rfl | rfl
    · exact jwait_suspended rfl rfl hcore hb hs h
    · exact jpoll_suspended rfl rfl hcore (hplumb rfl) hb hs h
    · exact absurd rfl hne
  rw [htrap] at hexec
  refine ⟨hexec, fun u z y hu hgfl horphan hz ho hy => ?_⟩
  obtain rfl : _ = u := Host.Outcome.next.inj (hexec.symm.trans hu)
  rw [trapsTo, ho] at hy
  exact stat_takeTrap_jobf rfl rfl ((jobAt_tried hcore i).trans hb) hgfl horphan
    ((tried_reads s c t w i (thr? · t.o b.tid) fun _ => rfl).trans hz) hy

end Sys2Proof
end

section
/-!
SUPPORT. The submission of jobs (R115, R392 to R400): what the checks of each submitting instruction's operands answer, and
the entry that a job takes.
-/

namespace Sys2Proof.Machine

/-! ## The entry of a job (R115, R393) -/

/-- The id that the next job of a core takes: the core's place in its cluster and its count of submissions. -/
def jobIdAt (e : Env) (x : Core) : Nat := tidCore e.t.tid % 8 * 8192 + x.jcount % 8192

/-- Whether a submission replaces stochastic rounding by rounding to nearest even, as one in plumb mode does. -/
def srDropped (e : Env) : Bool := fpcRM e.t.fpc == 4 && e.w.plumb

/-- The job as it is entered, with the rounding captured at its submission. -/
def jobEntered (e : Env) (x : Core) (kind : JobKind) (gate : Option JobGate) : Job :=
  ⟨jobIdAt e x, e.t.tid, e.t.launch, kind, if srDropped e then 0 else fpcRM e.t.fpc, fpcFTZ e.t.fpc, gate.getD .none, .queued, 0, 0,
    false, false, false, false, none, false, false, [], 0, [], []⟩

/-- The state with the job entered; a gate that has failed fails the job at once (R264). -/
def submitted (e : Env) (x : Core) (kind : JobKind) (gate : Option JobGate) : State :=
  let y : Core := { x with jobs := x.jobs ++ [jobEntered e x kind gate], jcount := x.jcount + 1 }
  let u := { e.s with cores := put e.s.cores (coreKey e.t.o (tidCore e.t.tid)) y }
  if gate.isNone then failJob u e.t.o (tidCore e.t.tid) (jobIdAt e x) 0x09 else u

/-- What gD receives. -/
def idGiven (e : Env) (x : Core) (d : GReg) : Wr := { Wr.ofG d (BitVec.ofNat 64 (jobIdAt e x)) with srs := srDropped e }

section
variable {e : Env} {wf : Bool} {d : GReg} {kind : JobKind} {gate : Nat → Option JobGate}

theorem submit_release (hr : releaseNow e.s e.t .clus = false) : submit e wf d kind gate = .again e.s .release :=
  if_pos (by rw [hr]; rfl)

theorem submit_full (hr : releaseNow e.s e.t .clus = true) (hm : mayTakeEntry e.s e.t = false) :
    submit e wf d kind gate = .again e.s .jobEntry :=
  (if_neg (by rw [hr]; decide)).trans (if_pos (by rw [hm]; rfl))

theorem submit_enters {x : Core} (hr : releaseNow e.s e.t .clus = true) (hm : mayTakeEntry e.s e.t = true)
    (hx : core? e.s e.t.o (tidCore e.t.tid) = some x) : submit e wf d kind gate =
      if wf then .sub (submitted e x kind (gate (tidCore e.t.tid))) (idGiven e x d) (tidCore e.t.tid) (jobIdAt e x)
      else .ok (submitted e x kind (gate (tidCore e.t.tid))) (idGiven e x d) := by
  simp only [submit, hr, hm, hx, Bool.not_true, Bool.false_eq_true, if_false]
  rw [onCore_of hx]
  rfl

end

section
variable {s : State} {c : Cur} {t : Thread} {w : Owner} {i : Instr}

/-- An instruction whose operands are in order submits its job. -/
theorem submits_of {sem : Env → XRes} {wf : Bool} {d : GReg} {kind : JobKind} {gate : Nat → Option JobGate}
    (hexec : exec i s = runX i sem s) (h : Issues s c t w i 0)
    (hsem : sem (firstEnv s c t w i) = submit (firstEnv s c t w i) wf d kind gate) :
    Submits s c t w i wf d kind (gate (tidCore t.tid)) := by
  unfold Submits
  dsimp only
  rw [hexec]
  refine ⟨fun hr => runX_again h (hsem.trans (submit_release hr)), fun hr hm => runX_again h (hsem.trans (submit_full hr hm)),
    fun x hr hm hx => ⟨fun hwf => ?_, fun hwf => ?_⟩⟩
  all_goals
    have hans := hsem.trans (submit_enters hr hm hx)
    rw [hwf] at hans
  · exact runX_ok h hans
  · exact runX_sub h hans

/-! ## Operand blocks (R394, R397) -/

/-- The traps of a block that is not aligned, or not in a scratchpad. -/
theorem blockTraps_of {sem : Env → XRes} {va : Word} {f : Loc → XRes} (hexec : exec i s = runX i sem s)
    (hsem : sem (firstEnv s c t w i) = withChk (firstEnv s c t w i) (blockChk (firstEnv s c t w i) va) f) :
    BlockTraps s c t w i va := by
  intro h
  rw [hexec]
  refine ⟨fun hal => runX_trapC h (hsem.trans ?_), fun hal hplace => runX_trapC h (hsem.trans ?_)⟩
  · rw [blockChk, if_pos hal]
    rfl
  · have hc : (!isSpadVa va.toNat || va.extractLsb' 57 7 != 0) = true := by simpa [Bool.or_eq_true] using hplace
    rw [blockChk, if_neg (not_not.2 hal), if_pos hc]
    rfl

/-- The bytes of a block in order, in the core's own scratchpad. -/
theorem withBlock_own {va : Word} {off : Nat} (h : OwnBlock (firstEnv s c t w i) va off) (f : State → List Byte → XRes) :
    withChk (firstEnv s c t w i) (blockChk (firstEnv s c t w i) va) (fun loc => withBytes (firstEnv s c t w i) loc va 64 f)
      = f (firstEnv s c t w i).s (Memory.readN s.spad (spadKey t.o t.core off) 64) := by
  rw [blockChk_own h]
  exact (withBytes_own h f).trans (by rw [firstEnv_spad]; rfl)

/-- An instruction whose block is checked by `ok` takes DESC of one that is not in order, and submits one that is. -/
theorem blockSubmits {sem : Env → XRes} {va : Word} {wf : Bool} {d : GReg} {ok : List Byte → Bool} {kind : List Byte → JobKind}
    {gate : List Byte → State → Nat → Option JobGate} (hexec : exec i s = runX i sem s)
    (hsem : sem (firstEnv s c t w i) = withChk (firstEnv s c t w i) (blockChk (firstEnv s c t w i) va) (fun loc =>
      withBytes (firstEnv s c t w i) loc va 64 (fun u b => if !ok b then fieldTrap va
        else submit { firstEnv s c t w i with s := u } wf d (kind b) (gate b u)))) :
    BlockTraps s c t w i va ∧ (Issues s c t w i 0 → ∀ off, OwnBlock (firstEnv s c t w i) va off →
      let b := Memory.readN s.spad (spadKey t.o t.core off) 64
      (ok b = false → exec i s = .next (trapsTo s c t w i (mkTrap 0x0E 0xFFFF va)))
      ∧ (ok b = true → Submits s c t w i wf d (kind b) (gate b (firstEnv s c t w i).s (tidCore t.tid)))) := by
  refine ⟨blockTraps_of hexec hsem, fun h off hown => ?_⟩
  have hsem' := hsem.trans (withBlock_own hown _)
  refine ⟨fun hbad => ?_, fun hgood => ?_⟩
  · rw [hexec]
    exact runX_trapC h (hsem'.trans (if_pos (by rw [hbad]; rfl)))
  · exact submits_of hexec h (hsem'.trans (if_neg (by rw [hgood]; decide)))

/-! ## Operands of the units (R395, R398 to R400) -/

theorem unitAddr_unaligned {k : AccKind} {va : Word} (h : va.toNat % 64 ≠ 0) : unitAddr k va 64 64 = some (mkTrap 0x03 64 va) := by
  rw [unitAddr, alignTrap, if_pos h]
  split <;> rfl

theorem unitAddr_far {k : AccKind} {va : Word} (h : va.toNat % 64 = 0) (hfar : ¬ va.extractLsb' 57 7 = 0) :
    unitAddr k va 64 64 = some (protTrap k 2 va) := by
  rw [unitAddr, alignTrap, if_neg (not_not.2 h), if_pos (by simpa using hfar)]
  rfl

theorem unitAddr_ok {k : AccKind} {va : Word} (h : va.toNat % 64 = 0) (hcanon : va.extractLsb' 57 7 = 0) :
    unitAddr k va 64 64 = none := by
  rw [unitAddr, alignTrap, if_neg (not_not.2 h), if_neg (by simp [hcanon])]
  rfl

/-- The answer of an instruction whose operands meet a trap, or `r` where they meet none. -/
def trapOr (r : XRes) : Option TrapInfo → XRes
  | some ti => .trapC ti
  | none => r

theorem trapOr_some {r : XRes} {o : Option TrapInfo} {ti : TrapInfo} (h : o = some ti) : trapOr r o = .trapC ti := by
  rw [h, trapOr]

theorem trapOr_none {r : XRes} {o : Option TrapInfo} (h : o = none) : trapOr r o = r := by
  rw [h, trapOr]

/-- An instruction whose operand is an address of its unit: its alignment and range, then its fields, then the job. -/
theorem unitSubmits {sem : Env → XRes} {k : AccKind} {va : Word} {wf : Bool} {d : GReg} {kind : JobKind} {good : Prop} [Decidable good]
    (hexec : exec i s = runX i sem s) (h : Issues s c t w i 0)
    (hsem : sem (firstEnv s c t w i)
      = trapOr (if good then submit (firstEnv s c t w i) wf d kind noGate else fieldTrap va) (unitAddr k va 64 64)) :
    (va.toNat % 64 ≠ 0 → exec i s = .next (trapsTo s c t w i (mkTrap 0x03 64 va)))
    ∧ (va.toNat % 64 = 0 → ¬ va.extractLsb' 57 7 = 0 → exec i s = .next (trapsTo s c t w i (protTrap k 2 va)))
    ∧ (va.toNat % 64 = 0 → va.extractLsb' 57 7 = 0 → ¬ good → exec i s = .next (trapsTo s c t w i (mkTrap 0x0E 0xFFFF va)))
    ∧ (va.toNat % 64 = 0 → va.extractLsb' 57 7 = 0 → good → Submits s c t w i wf d kind (some .none)) := by
  refine ⟨fun hal => ?_, fun hal hfar => ?_, fun hal hcanon hbad => ?_, fun hal hcanon hgood => ?_⟩
  · exact hexec.trans (runX_trapC h (hsem.trans (trapOr_some (unitAddr_unaligned hal))))
  · exact hexec.trans (runX_trapC h (hsem.trans (trapOr_some (unitAddr_far hal hfar))))
  · exact hexec.trans (runX_trapC h (hsem.trans ((trapOr_none (unitAddr_ok hal hcanon)).trans (if_neg hbad))))
  · exact submits_of (gate := noGate) hexec h (hsem.trans ((trapOr_none (unitAddr_ok hal hcanon)).trans (if_pos hgood)))

end

/-! ## The submitting instructions -/

section
variable (s : State) (c : Cur) (t : Thread) (w : Owner) (i : Instr) (wf : Bool) (d : GReg) (ad : EAddr)

/-- The job of MXRUN with a block that is in order waits for the job that the block names, where it names one. -/
def mxGate (o : Nat) (b : List Byte) (u : State) (k : Nat) : Option JobGate :=
  if (mxBlock b).wait then resolveGate u o k (mxBlock b).waitj false else some .none

/-- The job of CUCOPY with a block that is in order waits for the OPC of the job that the block names, where it names one. -/
def cuGate (o : Nat) (b : List Byte) (u : State) (k : Nat) : Option JobGate :=
  if (cuBlock b).onopc then resolveGate u o k (cuBlock b).opcj true else some .none

theorem mxrunSem_eq : mxrunSem wf d ad (firstEnv s c t w i) =
    withChk (firstEnv s c t w i) (blockChk (firstEnv s c t w i) (eaE s t ad)) (fun loc =>
      withBytes (firstEnv s c t w i) loc (eaE s t ad) 64 (fun u b => if !(mxBlock b).ok b then fieldTrap (eaE s t ad)
        else submit { firstEnv s c t w i with s := u } wf d (.mxrun b) (mxGate t.o b u))) := by
  rw [mxrunSem, firstEnv_ea]
  rfl

theorem cucopySem_eq : cucopySem wf d ad (firstEnv s c t w i) =
    withChk (firstEnv s c t w i) (blockChk (firstEnv s c t w i) (eaE s t ad)) (fun loc =>
      withBytes (firstEnv s c t w i) loc (eaE s t ad) 64 (fun u b => if !(cuBlock b).ok b then fieldTrap (eaE s t ad)
        else submit { firstEnv s c t w i with s := u } wf d (.copy b) (cuGate t.o b u))) := by
  rw [cucopySem, firstEnv_ea]
  rfl

theorem carrySem_eq (ld : Bool) : carrySem ld wf d ad (firstEnv s c t w i) =
    trapOr (if True then submit (firstEnv s c t w i) wf d (if ld then .carryLd (eaE s t ad) else .carrySt (eaE s t ad)) noGate
      else fieldTrap (eaE s t ad)) (unitAddr .engine (eaE s t ad) 64 64) := by
  rw [carrySem, firstEnv_ea, if_true]
  rfl

/-- A carry operation has no field to check. -/
theorem carry_submits {s c t w i wf d ad} {ld : Bool} (hexec : exec i s = runX i (carrySem ld wf d ad) s) (h : Issues s c t w i 0) :
    ((eaE s t ad).toNat % 64 ≠ 0 → exec i s = .next (trapsTo s c t w i (mkTrap 0x03 64 (eaE s t ad))))
    ∧ ((eaE s t ad).toNat % 64 = 0 → ¬ (eaE s t ad).extractLsb' 57 7 = 0 →
        exec i s = .next (trapsTo s c t w i (protTrap .engine 2 (eaE s t ad))))
    ∧ ((eaE s t ad).toNat % 64 = 0 → (eaE s t ad).extractLsb' 57 7 = 0 →
        Submits s c t w i wf d (if ld then .carryLd (eaE s t ad) else .carrySt (eaE s t ad)) (some .none)) := by
  obtain ⟨hal, hfar, -, hok⟩ := unitSubmits hexec h (carrySem_eq s c t w i wf d ad ld)
  exact ⟨hal, hfar, fun h1 h2 => hok h1 h2 trivial⟩

/-- A check written as the ways in which it fails. -/
theorem ite_of_iff_not {α : Type} {p q : Prop} [Decidable p] [Decidable q] (h : p ↔ ¬ q) (x y : α) :
    (if p then x else y) = if q then y else x :=
  (if_congr h rfl rfl).trans (ite_not q x y)

theorem cufillSem_eq {b : GReg} {g len : Nat} (hg : g = (readG s t b).toNat) (hlen : len = g % 2 ^ 40) (v : VReg) :
    cufillSem wf d ad b v (firstEnv s c t w i) = trapOr (if len % 64 = 0 ∧ 64 ≤ len ∧ g / 2 ^ 40 % 256 = 0
      then submit (firstEnv s c t w i) wf d (.fill (eaE s t ad) len (g / 2 ^ 48) (vecIn s c t i v)) noGate
      else fieldTrap (eaE s t ad)) (unitAddr .copy (eaE s t ad) 64 64) := by
  have hfields : (len % 64 ≠ 0 ∨ len < 64 ∨ g / 2 ^ 40 % 256 ≠ 0) ↔ ¬ (len % 64 = 0 ∧ 64 ≤ len ∧ g / 2 ^ 40 % 256 = 0) := by
    omega
  rw [cufillSem, firstEnv_ea, firstEnv_g, firstEnv_v, ← ite_of_iff_not hfields, hlen, hg]
  rfl

theorem culdbSem_eq {b : GReg} {g len ncol boff : Nat} (hg : g = (readG s t b).toNat) (hlen : len = g % 65536)
    (hncol : ncol = g / 2 ^ 16 % 512) (hboff : boff = g / 2 ^ 25 % 128) : culdbSem wf d ad b (firstEnv s c t w i) = trapOr
      (if len % 64 = 0 ∧ 64 ≤ len ∧ len ≤ 32768 ∧ 1 ≤ ncol ∧ ncol ≤ 256 ∧ boff * 256 + len ≤ 32768 ∧ g / 2 ^ 32 = 0
      then submit (firstEnv s c t w i) wf d (.ldb (eaE s t ad) len ncol boff) noGate else fieldTrap (eaE s t ad))
      (unitAddr .copy (eaE s t ad) 64 64) := by
  have hfields : (len % 64 ≠ 0 ∨ len < 64 ∨ 32768 < len ∨ ncol = 0 ∨ 256 < ncol ∨ 32768 < boff * 256 + len ∨ g / 2 ^ 32 ≠ 0) ↔
      ¬ (len % 64 = 0 ∧ 64 ≤ len ∧ len ≤ 32768 ∧ 1 ≤ ncol ∧ ncol ≤ 256 ∧ boff * 256 + len ≤ 32768 ∧ g / 2 ^ 32 = 0) := by
    omega
  rw [culdbSem, firstEnv_ea, firstEnv_g, ← ite_of_iff_not hfields, hlen, hncol, hboff, hg]
  rfl

end

/-! ## CUDIGEST and SLOUT (R400, R404) -/

section
variable {s : State} {c : Cur} {t : Thread} {w : Owner} {wf : Bool} {d a b : GReg} {ad : EAddr}

/-- The order of CUDIGEST's checks: the range of its source, then every other one, with one cause. -/
theorem cudigest_submits {va dst : Word} {len : Nat} {good : Prop} (hva : va = eaE s t ad) (hlen : len = (readG s t b).toNat)
    (hdst : dst = readG s t d) (hgood : good ↔ len % 64 = 0 ∧ 64 ≤ len ∧ len ≤ 2 ^ 40 ∧ va.toNat % 64 = 0 ∧ dst.toNat % 64 = 0
      ∧ ¬ (va.toNat < dst.toNat + 64 ∧ dst.toNat < va.toNat + len)) (h : Issues s c t w (.cudigest wf d ad b) 0) :
    (¬ va.extractLsb' 57 7 = 0 →
        exec (.cudigest wf d ad b) s = .next (trapsTo s c t w (.cudigest wf d ad b) (protTrap .copy 2 va)))
    ∧ (va.extractLsb' 57 7 = 0 → ¬ good →
        exec (.cudigest wf d ad b) s = .next (trapsTo s c t w (.cudigest wf d ad b) (mkTrap 0x0E 0xFFFF va)))
    ∧ (va.extractLsb' 57 7 = 0 → good → Submits s c t w (.cudigest wf d ad b) wf d (.digest va len dst) (some .none)) := by
  have hfields : (len % 64 ≠ 0 ∨ len < 64 ∨ 2 ^ 40 < len ∨ va.toNat % 64 ≠ 0 ∨ dst.toNat % 64 ≠ 0
      ∨ share va.toNat len dst.toNat 64 = true) ↔ ¬ good := by
    rw [hgood, share, Bool.and_eq_true, decide_eq_true_iff, decide_eq_true_iff]
    omega
  have hsem : cudigestSem wf d ad b (firstEnv s c t w (.cudigest wf d ad b)) =
      if va.extractLsb' 57 7 != 0 then .trapC (protTrap .copy 2 va)
      else if len % 64 ≠ 0 ∨ len < 64 ∨ 2 ^ 40 < len ∨ va.toNat % 64 ≠ 0 ∨ dst.toNat % 64 ≠ 0
        ∨ share va.toNat len dst.toNat 64 = true
      then fieldTrap va
      else submit (firstEnv s c t w (.cudigest wf d ad b)) wf d (.digest va len dst) noGate := by
    rw [cudigestSem, firstEnv_ea, firstEnv_g, firstEnv_g, hva, hlen, hdst]
  refine ⟨fun hfar => runX_trapC h (hsem.trans (if_pos (by simpa using hfar))), fun hcanon hbad => runX_trapC h ?_,
    fun hcanon hok => submits_of (gate := noGate) rfl h ?_⟩
  · exact hsem.trans ((if_neg (by simp [hcanon])).trans (if_pos (hfields.2 hbad)))
  · exact hsem.trans ((if_neg (by simp [hcanon])).trans (if_neg (fun hf => hfields.1 hf hok)))

/-- SLOUT's trap, if it has one: the alignment of its digest, then the sealed memory enable. -/
def sloutTrap (dst : Word) (sen : Bool) : Option TrapInfo :=
  lowest (alignTrap dst 256 0) (if sen then none else some (protTrap .copy 6 0))

theorem sloutTrap_unaligned {dst : Word} {sen : Bool} (h : dst.toNat % 256 ≠ 0) : sloutTrap dst sen = some (mkTrap 0x03 0 dst) := by
  rw [sloutTrap, alignTrap, if_pos h]
  cases sen <;> rfl

theorem sloutTrap_disabled {dst : Word} (h : dst.toNat % 256 = 0) : sloutTrap dst false = some (protTrap .copy 6 0) := by
  rw [sloutTrap, alignTrap, if_neg (not_not.2 h)]
  rfl

theorem sloutTrap_none {dst : Word} (h : dst.toNat % 256 = 0) : sloutTrap dst true = none := by
  rw [sloutTrap, alignTrap, if_neg (not_not.2 h)]
  rfl

theorem sloutSem_eq (i : Instr) : sloutSem wf d a b (firstEnv s c t w i) =
    trapOr (submit (firstEnv s c t w i) wf d (.slout (readG s t a) (readG s t b)) noGate) (sloutTrap (readG s t b) w.sen) := by
  rw [sloutSem, firstEnv_g, firstEnv_g]
  rfl

theorem slout_traps {ti : TrapInfo} (h : Issues s c t w (.slout wf d a b) 0) (ht : sloutTrap (readG s t b) w.sen = some ti) :
    exec (.slout wf d a b) s = .next (trapsTo s c t w (.slout wf d a b) ti) :=
  runX_trapC h ((sloutSem_eq _).trans (trapOr_some ht))

theorem slout_submits (h : Issues s c t w (.slout wf d a b) 0) (ht : sloutTrap (readG s t b) w.sen = none) :
    Submits s c t w (.slout wf d a b) wf d (.slout (readG s t a) (readG s t b)) (some .none) :=
  submits_of (gate := noGate) rfl h ((sloutSem_eq _).trans (trapOr_none ht))

end

end Sys2Proof.Machine
end
section
namespace Sys2Proof
open Machine

/-- Settles O48, instruction by instruction: the checks of its operands in their order, then the entry that its job takes. -/
theorem jobSubmission : Obligations.JobSubmission := by
  unfold Obligations.JobSubmission
  intro s c t w wf d ad
  refine ⟨blockSubmits rfl (mxrunSem_eq s c t w _ wf d ad), blockSubmits rfl (cucopySem_eq s c t w _ wf d ad), fun ld => ?_,
    fun b v h => unitSubmits (k := .copy) rfl h (cufillSem_eq s c t w _ wf d ad rfl rfl v),
    fun b h => unitSubmits (k := .copy) rfl h (culdbSem_eq s c t w _ wf d ad rfl rfl rfl rfl),
    fun b h => cudigest_submits rfl rfl rfl Iff.rfl h,
    fun a b h => ⟨fun hal => slout_traps h (sloutTrap_unaligned hal), fun hal hsen => slout_traps h ?_,
      fun hal hsen => slout_submits h ?_⟩⟩
  · cases ld
    · exact fun h => carry_submits (ld := false) rfl h
    · exact fun h => carry_submits (ld := true) rfl h
  · rw [hsen]
    exact sloutTrap_disabled hal
  · rw [hsen]
    exact sloutTrap_none hal

end Sys2Proof
end
